-- ==== Sys2Proof/Word.lean ====
section
/-! DEFINITION. Word.lean: the word types and their plainest arithmetic: bytes, 32-bit words, Engine Time values
(R46), and the order of quantities that wrap (R14). -/

namespace Sys2Proof

/-- One byte. -/
abbrev Byte := BitVec 8

/-- One 32-bit register word. -/
abbrev Word := BitVec 32

/-- An ET value: whole nanoseconds in [63:16], fractions of 2^-16 ns in [15:0] (R46). -/
abbrev ET := BitVec 64

/-- R14: the difference a − b of two wrapping quantities, taken as a signed number of their own width. -/
def wrapDiff {n : Nat} (a b : BitVec n) : Int := (a - b).toInt

/-- R14: a is later than b. -/
def later {n : Nat} (a b : BitVec n) : Bool := decide (0 < wrapDiff a b)

/-- A signed n-bit number held in a Nat field (R12). -/
def signed (n v : Nat) : Int := (BitVec.ofNat n v).toInt

/-- The n-bit two's complement field value of an integer (R12). -/
def unsigned (n : Nat) (v : Int) : Nat := (BitVec.ofInt n v).toNat

/-- R369: saturation to a signed 32-bit value. -/
def sat32 (v : Int) : Int := max (-2147483648) (min 2147483647 v)

/-- A value held between two limits. -/
def clampI (v lo hi : Int) : Int := max lo (min hi v)

/-- A value held between two limits. -/
def clampN (v lo hi : Nat) : Nat := max lo (min hi v)

/-- A count that saturates at the largest value of its field. -/
def satAdd (width v add : Nat) : Nat := min (v + add) (2 ^ width - 1)

/-- The little-endian bytes of a number (R13). -/
def leBytes : Nat → Nat → List Byte
  | 0, _ => []
  | n + 1, v => BitVec.ofNat 8 v :: leBytes n (v / 256)

/-- The number that little-endian bytes spell (R13). -/
def leNat : List Byte → Nat
  | [] => 0
  | b :: bs => b.toNat + 256 * leNat bs

/-- Bytes [at, at + n) of a structure, read little-endian (R13). -/
def leField (bs : List Byte) (pos n : Nat) : Nat := leNat ((bs.drop pos).take n)

/-- Bits [lo + n − 1 : lo] of a number (R10). -/
def bits (v lo n : Nat) : Nat := v / 2 ^ lo % 2 ^ n

/-- Bit n of a number (R10). -/
def bit (v n : Nat) : Bool := v.testBit n

/-- 1 or 0. -/
def b2n (b : Bool) : Nat := if b then 1 else 0

/-- Division rounded down (floor), for integers. -/
def floorDiv (a b : Int) : Int := Int.fdiv a b

end Sys2Proof
end

