-- ==== Sys2Proof/Syntax.lean ====
section
/-! DEFINITION. Syntax.lean: the commands the controller takes, one constructor per row of spec/opcode_table.json, and
the messages that come with them. What comes from outside the chip (a register word, a descriptor's bytes, a packet, a
sampled level, a measured stamp) is a command's operand; what the chip knows itself it reads from its own state. -/

namespace Sys2Proof

/-- The two PCIe ports (R81). -/
inductive Port where
  | a | b
  deriving DecidableEq, Repr

/-- 0 for port A, 1 for port B. -/
def Port.num : Port → Nat
  | .a => 0
  | .b => 1

/-- The other port. -/
def Port.other : Port → Port
  | .a => .b
  | .b => .a

/-- The three lines of an encoder input (R57). -/
inductive EncLine where
  | a | b | z
  deriving DecidableEq, Repr

/-- The LO registers of 64-bit pairs whose read latches the upper half for the reading port (R50); the capture units
have their own row. -/
inductive LoReg where
  | et
  | enc (n : Fin 4)
  | gateStop
  | ctxFs (x : Fin 8)
  | errAddr
  deriving DecidableEq, Repr

/-- A word a host writes, and the word the other port writes to the same register in the same cycle, where one does (R87). -/
structure HostWord where
  word : Word
  tie : Option Word
  deriving DecidableEq, Repr

/-- The registers of a port's configuration space that R81 and R498 speak of. -/
inductive CfgReg where
  | id | classCode | subsystem | msixControl | powerControl | deviceControl | deviceControl2 | linkControl | aerControl
  deriving DecidableEq, Repr

/-- What a host access addresses: BAR0, BAR2 (R83), or a register of the port's configuration space (R81, R82), for which its
offset says nothing. -/
inductive Space where
  | bar0 | bar2 | config (r : CfgReg)
  deriving DecidableEq, Repr

/-- The place of a host read. -/
structure SpaceOff where
  space : Space
  off : BitVec 24
  deriving DecidableEq, Repr

/-- An IEEE 1588 port identity. -/
structure PortId where
  clock : BitVec 64
  port : BitVec 16
  deriving DecidableEq, Repr

/-- A received Ethernet frame as R61 to R63 tell frames apart: its length in bytes, and what it is. transport is 0 for
Annex E, 1 for Annex C. -/
structure EthFrame where
  length : Nat
  isPtp : Bool
  transport : Bool
  domain : BitVec 8
  version : BitVec 4
  managementOrSignalling : Bool
  stampLost : Bool
  deriving DecidableEq, Repr

/-- The header of a received PTP message. -/
structure PtpHdr where
  domain : BitVec 8
  version : BitVec 4
  source : PortId
  seq : BitVec 16
  deriving DecidableEq, Repr

/-- A received PTP request: its header and its correction field, in 2^-16 ns. -/
structure PtpReq where
  hdr : PtpHdr
  correction : Int
  deriving DecidableEq, Repr

/-- A hardware timestamp of R67: taken at the boundary of MAC and PCS, with the variable latency measured for its
frame, in picoseconds. -/
structure PortStamp where
  raw : ET
  variablePs : BitVec 20
  deriving DecidableEq, Repr

/-- Data set of a received Announce, for the best master clock algorithm (R63). -/
structure AnnounceMsg where
  priority1 : BitVec 8
  clockClass : BitVec 8
  accuracy : BitVec 8
  variance : BitVec 16
  priority2 : BitVec 8
  grandmaster : BitVec 64
  stepsRemoved : BitVec 16
  deriving DecidableEq, Repr

/-- A Pdelay_Resp, or the Follow_Up that completes it (R63). Times are PTP nanoseconds, corrections 2^-16 ns. -/
inductive PdelayAnswer where
  | resp (requester : PortId) (receipt : Nat) (correction : Int) (twoStep : Bool) (arrival : PortStamp)
  | followUp (requester : PortId) (responseOrigin : Nat) (correction : Int)
  deriving DecidableEq, Repr

/-- The bytes of a telemetry packet that only SUB 1 has (R234). -/
structure TlmFull where
  temps : List (BitVec 16)
  vdrive : BitVec 16
  vlogic : BitVec 16
  rxErr : BitVec 32
  held : BitVec 32
  deriving DecidableEq, Repr

/-- A telemetry packet of R234. crcOk is false for a packet R223 discards: a bad CRC, an unknown TYPE, a LEN that does not
match, or a TYPE not sent to the controller. -/
structure TlmPacket where
  crcOk : Bool
  lseq : BitVec 16
  nak : Bool
  late : Bool
  calveValid : Bool
  firedValid : Bool
  ackLseq : BitVec 16
  nakLseq : BitVec 16
  lastFired : BitVec 32
  calveK : BitVec 32
  fault : BitVec 32
  lateIdx : BitVec 32
  full : Option TlmFull
  deriving DecidableEq, Repr

/-- A TIME RSP with the stamp T4 the controller takes at its arrival (R228, R229); good is false for a packet R223 discards. -/
structure TimeRsp where
  tseq : BitVec 16
  t1 : ET
  t2 : ET
  t3 : ET
  t4 : ET
  good : Bool := true
  deriving DecidableEq, Repr

/-- MSTATUS of a MGMT response (R231). -/
inductive MgmtStatus where
  | ok | badSpace | badAddr | readOnly | busy | failed
  deriving DecidableEq, Repr

/-- A MGMT response (R231); good is false for a packet R223 discards. -/
structure MgmtResponse where
  mtag : BitVec 8
  status : MgmtStatus
  data : List Byte
  good : Bool := true
  deriving DecidableEq, Repr

/-- An entry of the protected tables (R204). -/
inductive TableCell where
  | nzt (row : Fin 196608)
  | sub (k : Fin 16384)
  | grey (t : Fin 16) (h : Fin 48)
  deriving DecidableEq, Repr

/-- An error in the table memory met by a read (R204, R205): the entry, and whether it can be corrected. -/
structure NztError where
  cell : TableCell
  correctable : Bool
  deriving DecidableEq, Repr

/-- What the code says of a read that is not clean (R401): an error confined to one device is corrected, one in two devices is
detected with both named, and of one in more devices that is detected no device is named. -/
inductive DramKind where
  | one (d : Fin 20)
  | two (a b : Fin 20)
  | unnamed
  deriving DecidableEq, Repr

/-- What a 64-byte DRAM unit holds (R389, R403, R411): a unit of a line of a band buffer slab, the accumulators around a nozzle
table row, the copy of a table entry, a compressed block that waits, a unit of the k-th STATE item or frame item that waits, or
anything else of a region. -/
inductive DramTarget where
  | slabUnit (layer : Word) (head : Fin 48) (slab : Nat) (line : Fin 128) (unit : Nat)
  | heapUnit (set : Fin 2) (row : Fin 196608)
  | copyUnit (cell : TableCell)
  | blockUnit (layer : Word) (head : Fin 48) (slab : Nat)
  | itemUnit (frames : Bool) (item unit : Nat)
  | region (k : Fin 5)
  deriving DecidableEq, Repr

/-- A DRAM read error (R401, R404): what the code says, the reader (ERR_INFO.READER), what the unit holds, and its byte offset in
its region where the spec leaves that place open. -/
structure DramError where
  kind : DramKind
  off : Nat
  reader : Fin 7
  target : DramTarget
  deriving DecidableEq, Repr

/-- An error met by a read whose reader and purpose the command gives: what the code says, and the offset in the region. -/
structure RawRead where
  kind : DramKind
  off : Nat
  deriving DecidableEq, Repr

/-- An error met in a 64-byte unit of an item on its way to a host buffer (R403). -/
structure UnitRead where
  unit : Nat
  err : RawRead
  deriving DecidableEq, Repr

/-- A ring whose buffer takes an item, and the errors that the reads of the item's units met (R403). -/
structure ItemRead where
  ring : Fin 64
  reads : List UnitRead
  deriving DecidableEq, Repr

/-- An error met by the merge of a line that is no whole units into its band buffer slab (R402). -/
structure SlabMerge where
  line : Fin 128
  unit : Nat
  kind : DramKind
  deriving DecidableEq, Repr

/-- What DRAM answered a decompression job: the errors that the reads of its compressed block and the merges of its lines met
(R402 to R404). -/
structure SlabRead where
  reads : List RawRead
  merges : List SlabMerge
  deriving DecidableEq, Repr

/-- An engine that ends a piece of compression, and the errors that its reads of the piece met (R404). -/
structure PieceEnd where
  engine : Fin 8
  reads : List RawRead
  deriving DecidableEq, Repr

/-- A retraining step's measure (R395): the rank's narrowest region, and whether the rank's temperature called for it. -/
structure EyeRead where
  eye : Nat
  byTemp : Bool
  deriving DecidableEq, Repr

/-- The DRAM copy of a table row (R205), none where the copy is lost, and the error its read met. -/
structure CopyRead where
  copy : Option (BitVec 64)
  dram : Option RawRead
  deriving DecidableEq, Repr

/-- A telemetry packet, and the error that the read of the unit of one accumulator it adds to met, where one did (R402). -/
structure TlmTaken where
  packet : TlmPacket
  merge : Option (Fin 196608 × DramKind)
  deriving DecidableEq, Repr

/-- The result of reading a head's MEASURE space from 0x10 (R263). -/
structure MeasResult where
  mstate : BitVec 32
  values : List Word
  deriving DecidableEq, Repr

/-- The straps sampled at reset release (R509). -/
structure Straps where
  pri : Bool
  tdmEn : Bool
  safeBoot : Bool
  ext : Bool
  deriving DecidableEq, Repr

/-- One axis as a heartbeat describes it (R431). -/
structure HbAxis where
  pos : Int
  vel : Int
  mode : Fin 6
  faultCause : BitVec 4
  homed : Bool
  deriving DecidableEq, Repr

/-- One enabled loop slot as a heartbeat describes it (R431). -/
structure HbSlot where
  slot : Fin 64
  sp : Int
  integ : Int
  last : Int
  yPrev : Int
  deriving DecidableEq, Repr

/-- SEQ of a received tandem frame, and the SEQ it acknowledges back (R423). -/
structure FrameId where
  seq : BitVec 32
  ack : BitVec 32
  deriving DecidableEq, Repr

/-- The content of a received HEARTBEAT (R431). -/
structure HeartbeatMsg where
  frame : FrameId
  fromOwner : Bool
  state : Fin 7
  et : ET
  tick : ET
  axes : List HbAxis
  slots : List HbSlot
  ringCi : List (BitVec 16)
  permit : Bool
  strikeLatch : Bool
  partnerFit : Bool
  takebackReq : Bool
  lanesOk : BitVec 5
  firnSeq : BitVec 32
  digest : BitVec 256
  deriving DecidableEq, Repr

/-- A FIRE_LOG record (R432): a shot issued, a shot accounted (fired or released), or a crevasse entry decided. -/
inductive FireLogRec where
  | issued (head : Fin 48) (index : BitVec 32) (line : Int)
  | fired (head : Fin 48) (index : BitVec 32) (line : Int)
  | released (head : Fin 48) (index : BitVec 32) (line : Int)
  | entered (head : Fin 48) (cause : Fin 10) (line : Int) (count : Nat)
  deriving DecidableEq, Repr

/-- A mirrored table change (R427, R433): one NZT, SUB or grey write, the band per head from which an earlier one applies, or
one map entry. A nozzle table change of source 3 is an entry the owner has lost (R205). -/
inductive ChangeRec where
  | nzt (id : Nat) (row : Nat) (value : Word) (source : Fin 4)
  | sub (id : Nat) (entry : Nat) (value : Word)
  | grey (id : Nat) (table : Fin 16) (value : BitVec 64)
  | ready (id : Nat) (bands : List (Fin 48 × Nat))
  | map (pipe : Fin 4) (entry : Fin 16384) (value : Word)
  deriving DecidableEq, Repr

/-- One head's record in section 2 of a firn (R435). -/
structure FirnHead where
  head : Fin 48
  hwm : Int
  lastFired : BitVec 32
  highestIssued : BitVec 32
  awaited : Option (BitVec 32)
  lo : Int
  hi : Int
  emitCrc : BitVec 32
  notCompared : Bool
  deriving DecidableEq, Repr

/-- The versions of a table entry in a firn (R203): the value in force, the band value with the band it applies from (none
where it waits for the next arming), and the arming value. -/
structure FirnVer where
  force : BitVec 64
  band : Option (BitVec 64 × Option Nat)
  arming : Option (BitVec 64)
  deriving DecidableEq, Repr

/-- A crevasse entry in section 8 of a firn (R173, R435). -/
structure FirnEntry where
  head : Fin 48
  cause : Fin 10
  firstGroup : BitVec 8
  groups : BitVec 16
  first : Int
  count : Nat
  deriving DecidableEq, Repr

/-- A received firn snapshot: its pieces' blocks as received (R120, R137), and what they decode to (R435), section by section. Its pieces come in
frames of successive SEQs, the first of which is named. -/
structure FirnMsg where
  frame : FrameId
  kind : Fin 4
  seq : BitVec 32
  layer : BitVec 32
  band : BitVec 32
  length : Nat
  et : ET
  blocks : List (List Byte)
  logSeq : BitVec 32
  estDir : Bool
  estExt : Option Int
  estTExt : Nat
  estWindow : List (Int × Nat)
  heads : List FirnHead
  nzt : List (Nat × FirnVer)
  sub : List (Nat × FirnVer)
  grey : List (Nat × FirnVer)
  runs : List (Nat × Nat)
  scores : List (Nat × BitVec 8)
  healLayer : BitVec 32
  axes : List HbAxis
  slots : List HbSlot
  ringCi : List (BitVec 16)
  crevasse : List FirnEntry
  deriving DecidableEq, Repr

/-- A mirrored item (R423 type 5): a layer block, or the registration of a layer. -/
inductive MirrorItem where
  | registration (layer : BitVec 32) (bands : Nat) (heads : BitVec 48)
  | block (bytes : List Byte)
  deriving DecidableEq, Repr

/-- A received BLOCK frame. -/
structure MirrorFrame where
  frame : FrameId
  item : MirrorItem
  deriving DecidableEq, Repr

/-- Why a tandem lane loses lock, by the conditions of R221 that R421 takes over, with the code and disparity errors that the
lane has counted since it last gained lock (the fourth within 256 symbols loses it). -/
inductive TandemCause where
  | codeErr (errors : Nat)
  | commaShift (errors : Nat)
  | noFill (errors : Nat)
  | elastic (errors : Nat)
  deriving DecidableEq, Repr

/-- A received ACK frame: receipt up to a SEQ. -/
structure AckMsg where
  frame : FrameId
  upTo : BitVec 32
  deriving DecidableEq, Repr

/-- A received HEALTH frame, as far as its owner acts on it (R428): whether it names a mismatch. -/
structure HealthMsg where
  frame : FrameId
  mismatch : Bool
  deriving DecidableEq, Repr

/-- The two copies of one moraine position as the loader reads them: record and check word of copy 0, then of copy 1
(R486, R487). -/
structure LedgerPos where
  rec0 : List Byte
  chk0 : Word
  rec1 : List Byte
  chk1 : Word
  deriving DecidableEq, Repr

/-- Why a stopped block must run again (CKP.WAKE.CAUSE, R468). -/
inductive WakeCause where
  | doorbell | access | tandem | ltr | gate | claim | thermal | request
  deriving DecidableEq, Repr

/-- Where a Churn engine comes to hold next in its job (R135): for output space or for input, after so many
uncompressed bytes, and after so many bits of a code not yet whole where it holds for input. -/
structure Hold where
  forOutput : Bool
  atByte : Nat
  partialBits : Nat := 0
  deriving DecidableEq, Repr

/-- An engine whose dictionary shows a parity error, and where its restarted job comes to hold (R135, R136). -/
structure ParityRestart where
  engine : Fin 8
  hold : Option Hold
  deriving DecidableEq, Repr

/-- A camera short packet: port, virtual channel and frame number (R281). -/
structure CamShort where
  port : Fin 4
  vc : BitVec 4
  num : BitVec 16
  deriving DecidableEq, Repr

/-- One FE, or two that close frames in the same core clock cycle (R301). -/
structure CamEnds where
  first : CamShort
  second : Option CamShort
  deriving DecidableEq, Repr

/-- The commands, one per row of spec/opcode_table.json, in the table's order. -/
inductive Instr where
  -- host access
  | registerWrite (p : Port) (space : Space) (off : BitVec 24) (v : HostWord)
  | rcFieldRead (p : Port) (a : SpaceOff) (delta : Nat)
  | accessError (p : Port) (bar2 : Bool) (off : BitVec 24) (write : Bool) (be : BitVec 4) (wide : Bool)
  | etLoRead (p : Port) (r : LoReg)
  | capTsRead (p : Port) (n : Fin 4)
  | semRead (p : Port) (n : Fin 32) (tie : Bool)
  | semWrite (p : Port) (n : Fin 32) (v : Word)
  -- engine time and network time
  | etWrap
  | scheduledAction
  | etSetGo (p : Port) (v : Word)
  | encoderEdge (n : Fin 4) (line : EncLine) (level : Bool) (stamp : ET)
  | captureEdge (n : Fin 4) (rising : Bool) (stamp : ET)
  | ethFrameReceived (port : Fin 2) (f : EthFrame)
  | sync (port : Fin 2) (h : PtpHdr) (twoStep : Bool) (origin : Nat) (correction : Int) (arrival : PortStamp)
  | followUp (port : Fin 2) (h : PtpHdr) (origin : Nat) (correction : Int)
  | delayReq (port : Fin 2) (m : PtpReq) (arrival : PortStamp)
  | delayResp (port : Fin 2) (h : PtpHdr) (requester : PortId) (receipt : Nat) (correction : Int)
  | pdelayReq (port : Fin 2) (m : PtpReq) (arrival : PortStamp) (departure : PortStamp)
  | pdelayResp (port : Fin 2) (h : PtpHdr) (m : PdelayAnswer)
  | announce (port : Fin 2) (h : PtpHdr) (m : AnnounceMsg)
  | syncInterval (port : Fin 2) (departure : PortStamp)
  | delayInterval (port : Fin 2) (departure : PortStamp)
  | announceInterval (port : Fin 2)
  | announceReceiptTimeout (port : Fin 2)
  | syncReceiptTimeout
  | ethLinkChange (port : Fin 2) (link blockLock fecLock : Bool)
  | pcieLinkChange (p : Port) (speed : Fin 5) (width : Fin 5)
  | portReset (p : Port)
  -- rings
  | ringEnable (via : Port) (p : Port) (n : Fin 64) (v : Word)
  | ringDisable (via : Port) (p : Port) (n : Fin 64) (v : Word)
  | doorbell (p : Port) (n : Fin 64) (v : Word)
  | descriptorFetch (p : Port) (n : Fin 64) (data : Option (List Byte))
  | irqHoldoff (p : Port) (n : Fin 64)
  | restart (via : Port) (p : Port) (n : Fin 64) (v : Word)
  | restartSkip (via : Port) (p : Port) (n : Fin 64) (v : Word)
  | hostStop (via : Port) (p : Port) (n : Fin 64) (v : Word)
  | blockAreaSpace (p : Port) (n : Fin 64)
  | layerHeldTimeout (p : Port) (n : Fin 64)
  | layerOpen (p : Port) (n : Fin 64)
  | layerOpenResume (p : Port) (n : Fin 64)
  | block (p : Port) (n : Fin 64) (hdr : Option (List Byte)) (payload : Option (List Byte))
  | layerClose (p : Port) (n : Fin 64)
  | layerCloseComplete (p : Port) (n : Fin 64)
  | nztLoad (p : Port) (n : Fin 64) (buf : Option (List Byte))
  | subLoad (p : Port) (n : Fin 64) (buf : Option (List Byte))
  | greyLoad (p : Port) (n : Fin 64) (buf : Option (List Byte))
  | mapLoad (p : Port) (n : Fin 64) (buf : Option (List Byte))
  | tableRead (p : Port) (n : Fin 64)
  | stagingPlacesFreed (p : Port) (n : Fin 64)
  -- motion commands
  | moveAbs (p : Port) (n : Fin 64)
  | moveRel (p : Port) (n : Fin 64)
  | setLimits (p : Port) (n : Fin 64)
  | velocity (p : Port) (n : Fin 64)
  | queueMove (p : Port) (n : Fin 64)
  | stop (p : Port) (n : Fin 64)
  | gear (p : Port) (n : Fin 64)
  | gearChange (p : Port) (n : Fin 64)
  | home (p : Port) (n : Fin 64)
  | setMode (p : Port) (n : Fin 64)
  | setPos (p : Port) (n : Fin 64)
  -- loop engine commands
  | loopEnable (p : Port) (n : Fin 64)
  | loopDisable (p : Port) (n : Fin 64)
  | setPoint (p : Port) (n : Fin 64)
  | setCoef (p : Port) (n : Fin 64)
  | loopSetLimits (p : Port) (n : Fin 64)
  | setManual (p : Port) (n : Fin 64)
  | setAuto (p : Port) (n : Fin 64)
  | setInteg (p : Port) (n : Fin 64)
  -- buffers and slots posted by the host
  | inspectBuf (p : Port) (r : ItemRead)
  | stateBuf (p : Port) (r : ItemRead)
  | eventSlot (p : Port) (n : Fin 64)
  -- Churn
  | churnJobStart (hold : Option Hold)
  | churnResume (e : Fin 8) (hold : Option Hold)
  | blockDecoded (e : Fin 8) (r : SlabRead)
  | dictParity (r : ParityRestart)
  | pieceCompressed (d : PieceEnd)
  -- cornice
  | layerArm
  | stall
  | shotIssue (h : Fin 48) (nzt : Option NztError) (dram : Option DramError)
  | nztCopyFetched (h : Fin 48) (r : CopyRead)
  | abort (p : Port) (v : Word)
  | calveTimeout (h : Fin 48)
  | calveRepeat (h : Fin 48)
  | heldExit
  | tlm (n : Fin 48) (t : TlmTaken)
  | nztWindowWrite (p : Port) (i : Fin 262144) (v : Word)
  | subWindowWrite (p : Port) (i : Fin 16384) (v : Word)
  | greyWrite (p : Port) (t : Fin 16) (hi : Bool) (v : Word)
  | weakMapWrite (p : Port) (hi : Bool) (v : Word)
  | moraineFlashWrite
  | moraineExport (p : Port) (v : Word)
  -- head link
  | alignSearch (n : Fin 48) (found : Option (Fin 10))
  | alignRetry (n : Fin 48) (found : Option (Fin 10))
  | search (p : Port) (n : Fin 48) (v : Word) (found : Option (Fin 10))
  | slip (p : Port) (n : Fin 48) (v : Word)
  | alignFail (n : Fin 48)
  | linked (n : Fin 48)
  | rateFail (n : Fin 48)
  | fill (n : Fin 48) (level : Fin 33)
  | codeErr (n : Fin 48) (symbol : Nat)
  | commaShift (n : Fin 48)
  | peerSeek (n : Fin 48)
  | noFill (n : Fin 48)
  | ackTimeout (n : Fin 48)
  | lanePacketSend (n : Fin 48)
  | timeReq (n : Fin 48)
  | timeRsp (n : Fin 48) (m : TimeRsp)
  | mgmtResponse (n : Fin 48) (m : MgmtResponse)
  | mgmtTimeout (n : Fin 48)
  | loop (p : Port) (n : Fin 48) (v : Word)
  | prbs (p : Port) (n : Fin 48) (v : Word)
  -- heads, measurement and gates
  | accept (p : Port) (h : Fin 48) (v : Word)
  | reread (p : Port) (h : Fin 48) (v : Word)
  | driveSetWrite (p : Port) (w : Fin 1024) (v : Word)
  | groupWindowWrite (p : Port) (h : Fin 48) (g : Fin 256) (v : Word)
  | dsetWrite (p : Port) (h : Fin 48) (v : Word)
  | trimWrite (h : Fin 48)
  | measSlot (h : Fin 48)
  | measRead (h : Fin 48) (r : Option MeasResult)
  | gateInputChange (i : Fin 9) (level : Bool)
  | forceStop (p : Port) (v : Word)
  | permitRise
  | clearStrike (p : Port) (v : Word)
  | gateChannelFault (i : Fin 9)
  | voterFault (k : Fin 3)
  -- cameras
  | fs (m : CamShort) (stamp : ET) (second : Option CamShort)
  | longPacket (port : Fin 4) (vc : BitVec 4) (dt : BitVec 6) (crcOk : Bool) (payload : List Byte)
  | fe (m : CamEnds) (stamp : ET)
  | headerEccError (port : Fin 4) (corrected : Bool)
  | phyError (port : Fin 4) (syncErr : Bool)
  | arm (p : Port) (x : Fin 8) (v : Word)
  | disarm (p : Port) (x : Fin 8) (v : Word)
  | shadowWrite (p : Port) (x : Fin 8) (off : BitVec 8) (v : Word)
  | mapWindowWrite (p : Port) (pipe : Fin 4) (i : Fin 16384) (v : Word)
  | trigStart (p : Port) (x : Fin 8) (v : Word)
  | trigStop (p : Port) (x : Fin 8) (v : Word)
  | trigger (x : Fin 8)
  | exposureEnd (x : Fin 8)
  -- heal
  | windowTimeout
  | close (p : Port) (v : Word)
  | evaluationEnd
  -- motion
  | motionTick (limp limn : BitVec 8) (gpio : BitVec 64)
  | stepPulse (a : Fin 8)
  | holdCurrent (a : Fin 8)
  | drvFrame (n : Fin 4) (di : List Byte)
  | encCountWrite (p : Port) (n : Fin 4) (v : Word)
  | estop (p : Port) (v : Word)
  | estopClr (p : Port) (v : Word)
  | clearFault (p : Port) (a : Fin 8) (v : Word)
  | ustepSwap (p : Port) (a : Fin 8) (v : Word)
  -- loop engine and I/O
  | slotEvaluation (k : Fin 64)
  | adcResult (ch : Fin 24) (nv : Nat)
  | pwmDutyUpdate (ch : Fin 32)
  | gpioSet (p : Port) (hi : Bool) (v : Word)
  | gpioClr (p : Port) (hi : Bool) (v : Word)
  -- DRAM
  | trainingEnd (eyes : List Nat)
  | initDone
  | retrain (c : Fin 2) (r : Fin 4) (m : EyeRead) (lane : Fin 10)
  | pageIdlePrecharge (r : Fin 4) (bank : Fin 32)
  | refreshDue (r : Fin 4) (busy : Bool)
  | mr4Poll (r : Fin 4) (doubled : Bool) (beyond : Bool)
  | bucketLeak
  | patrolScrub (r : Fin 4) (bank : Fin 32) (err : Option DramError)
  | spareStart (p : Port) (v : Word)
  | migrationCopy (oldErr spareErr : Option DramError)
  -- tandem
  | claimLineChange (lineP : Bool) (level : Bool)
  | takeoverTlmTimeout (h : Fin 48)
  | take (p : Port) (v : Word)
  | watchdog
  | startWaitEnd
  | heartbeatSend
  | heartbeat (m : HeartbeatMsg)
  | heartbeatTimeout
  | ackWaitTimeout
  | firn (m : FirnMsg)
  | firnIdle
  | fireLog (frame : FrameId) (recs : List FireLogRec)
  | change (frame : FrameId) (recs : List ChangeRec)
  | tandemBlock (m : MirrorFrame)
  | ack (m : AckMsg)
  | health (m : HealthMsg)
  | healthReport
  | resync
  | ctrlResync (p : Port) (v : Word)
  | takebackGo
  | takebackAbort
  | takebackTimeout
  | bothClaims
  | tandemLaneLoss (k : Fin 5) (cause : TandemCause)
  | tandemLaneRecovered (k : Fin 5)
  -- clocks, resets, power
  | pllLockLoss (pll : Fin 5)
  | quarantineEnd (x : Fin 25) (inst : BitVec 6)
  | controllerReset
  | resetN (straps : Straps)
  | softReset (p : Port) (v : Word)
  | por (straps : Straps)
  | watchdogReset
  | powerStateEntry
  | wakeEvent (cause : WakeCause)
  | powerStateExit
  | ltrWrite (p : Port) (which : Port) (v : Word)
  | railPowerGood (step : Fin 6) (level : Bool)
  | railStepDwell
  | railPgTimeout
  | railRetry
  | thermalReading (tj : BitVec 16)
  -- configuration
  | imageLoad (slotA slotB : Option (List Byte))
  | moraineScan (positions : List LedgerPos)
  | readyState
  | commit (p : Port) (v : Word)
  | commitEnd
  | flashWrite (p : Port) (v : Word)
  | flashSectorDone (readBack : Option (List Byte))
  | ledgerErase (p : Port) (v : Word)
  | ledgerEraseDone
  | lanePllUnlock
  | aerError (p : Port) (uncorrectable : Bool)
  | vinLoss
  | flashTimeout
  | refreshCatchUp (r : Fin 4) (busy : Bool)
  | deskew (port : Fin 4) (ok : Bool)
  | ultraLowPowerEntry (port : Fin 4)
  deriving DecidableEq, Repr

end Sys2Proof
end

