-- ==== Sys2Proof/Config.lean ====
section
/-! DEFINITION. Config.lean: the values the spec leaves open. Each is a constant with no body, applied to the draw
counter of the state (State.fresh), so that nothing can be proved from a value of it. -/

namespace Sys2Proof.Config

/-- A free 32-bit value. -/
opaque freeWord : Nat → BitVec 32

/-- A free byte. -/
opaque freeByte : Nat → BitVec 8

/-- A free choice between two outcomes the spec does not decide. -/
opaque freeBool : Nat → Bool

/-- A free natural number. -/
opaque freeNat : Nat → Nat

/-- A free integer. -/
opaque freeInt : Nat → Int

end Sys2Proof.Config
end

