-- ==== Sys2Proof/Machine/Map.lean ====
section
/-! DEFINITION. Machine/Map.lean: maps from numbers to data in one canonical form: keys strictly rising, and no entry
equal to what an unlisted key reads as. Registers, lanes, rings, tables and every other numbered thing of the state are
held so, and equal contents are equal data. -/

namespace Sys2Proof.Machine

/-- A map from numbers to values. What an unlisted key reads as is an argument of every operation. -/
abbrev SMap (V : Type) := List (Nat × V)

/-- The value at a key; d where the key is not listed. -/
def SMap.get {V : Type} (d : V) (k : Nat) : SMap V → V
  | [] => d
  | e :: m => if e.1 = k then e.2 else SMap.get d k m

/-- The map without a key. -/
def SMap.erase {V : Type} (k : Nat) : SMap V → SMap V
  | [] => []
  | e :: m => if e.1 = k then SMap.erase k m else e :: SMap.erase k m

/-- The map with an entry put in its place. -/
def SMap.insert {V : Type} (k : Nat) (v : V) : SMap V → SMap V
  | [] => [(k, v)]
  | e :: m => if k < e.1 then (k, v) :: e :: m else e :: SMap.insert k v m

/-- The map with the value at a key set; a value equal to what an unlisted key reads as is not listed. -/
def SMap.set {V : Type} [DecidableEq V] (d : V) (k : Nat) (v : V) (m : SMap V) : SMap V :=
  if v = d then SMap.erase k m else SMap.insert k v (SMap.erase k m)

/-- Every key at or above a bound, and keys strictly rising. -/
def SMap.risingFrom {V : Type} (lo : Nat) : SMap V → Bool
  | [] => true
  | e :: m => decide (lo ≤ e.1) && SMap.risingFrom (e.1 + 1) m

/-- The canonical form, where d is what an unlisted key reads as. -/
def SMap.wf {V : Type} [DecidableEq V] (d : V) (m : SMap V) : Bool :=
  SMap.risingFrom 0 m && m.all fun e => decide (e.2 ≠ d)

/-- The map with every entry whose key satisfies a test dropped. -/
def SMap.drop {V : Type} (p : Nat → Bool) (m : SMap V) : SMap V := m.filter fun e => !p e.1

end Sys2Proof.Machine
end

