-- ==== Sys2Proof/Machine/Regs.lean ====
section
/-! DEFINITION. Machine/Regs.lean: the register fields of BAR0 as the chapters' register tables give them (R16, R19,
R20, R42, R526, R527): one named field per table row (offset, lowest bit, width, reset value), and the table of
registers by which a host access finds the fields of an offset, their access codes (R17) and the limits a written
value is stored within. Fields whose Reset column says image read 0 here; the loader sets them (R476). -/

namespace Sys2Proof.Machine

/-- Access codes of R17. -/
inductive Access where
  | ro | rw | w1c | wo | rc | rwl
  deriving DecidableEq, Repr

/-- One field of one register: BAR0 offset, lowest bit, width in bits, and the value it holds after reset (R20). -/
structure Field where
  off : Nat
  lo : Nat
  width : Nat
  rst : Nat
  deriving DecidableEq, Repr

/-- The key under which a field's value is stored. -/
def Field.key (f : Field) : Nat := f.off * 32 + f.lo

/-- A field as a row of a register table: bits, access code, reset value, whether the reset value comes from the
image (R20), and the limits a written value is stored within. -/
structure FieldSpec where
  lo : Nat
  width : Nat
  access : Access
  rst : Nat
  image : Bool
  min : Nat
  max : Nat
  deriving DecidableEq, Repr

/-- A register, or an array of registers: base offset, one (stride, count) pair per index, outermost first. -/
structure RegRow where
  base : Nat
  dims : List (Nat × Nat)
  fields : List FieldSpec
  deriving DecidableEq, Repr

namespace Reg

/-- round(65,535 × cos(πi / 512)) for i = 0 to 256 (R351). -/
def cosTable : List Nat :=
  [65535, 65534, 65530, 65524, 65515, 65504, 65491, 65475, 65456, 65435, 65412, 65386, 65357, 65327, 65293, 65258, 65219, 65179, 65136, 65090, 65042, 64992, 64939, 64883, 64826, 64765, 64703, 64638, 64570, 64500, 64428, 64353] ++
  [64276, 64196, 64114, 64030, 63943, 63853, 63762, 63668, 63571, 63472, 63371, 63267, 63161, 63053, 62942, 62829, 62713, 62595, 62475, 62352, 62227, 62100, 61970, 61838, 61704, 61567, 61429, 61287, 61144, 60998, 60850, 60699] ++
  [60546, 60391, 60234, 60075, 59913, 59749, 59582, 59414, 59243, 59070, 58895, 58717, 58537, 58356, 58171, 57985, 57797, 57606, 57413, 57218, 57021, 56822, 56620, 56417, 56211, 56003, 55794, 55582, 55367, 55151, 54933, 54713] ++
  [54490, 54266, 54039, 53811, 53580, 53348, 53113, 52877, 52638, 52398, 52155, 51911, 51664, 51416, 51166, 50913, 50659, 50403, 50145, 49885, 49624, 49360, 49095, 48827, 48558, 48287, 48014, 47740, 47464, 47185, 46905, 46624] ++
  [46340, 46055, 45768, 45479, 45189, 44897, 44603, 44308, 44011, 43712, 43411, 43109, 42806, 42500, 42194, 41885, 41575, 41263, 40950, 40635, 40319, 40001, 39682, 39361, 39039, 38715, 38390, 38064, 37736, 37406, 37075, 36743] ++
  [36409, 36074, 35738, 35400, 35061, 34721, 34379, 34036, 33692, 33346, 32999, 32651, 32302, 31952, 31600, 31247, 30893, 30538, 30181, 29824, 29465, 29106, 28745, 28383, 28020, 27656, 27291, 26925, 26557, 26189, 25820, 25450] ++
  [25079, 24707, 24334, 23960, 23586, 23210, 22834, 22456, 22078, 21699, 21319, 20939, 20557, 20175, 19792, 19408, 19024, 18639, 18253, 17866, 17479, 17091, 16703, 16313, 15924, 15533, 15142, 14751, 14359, 13966, 13573, 13179] ++
  [12785, 12391, 11996, 11600, 11204, 10808, 10411, 10014, 9616, 9218, 8820, 8421, 8022, 7623, 7223, 6824, 6424, 6023, 5623, 5222, 4821, 4420, 4019, 3617, 3216, 2814, 2412, 2010, 1608, 1206, 804, 402] ++
  [0]

/-- The microstep tables after reset (R351): word k of an axis, entry 2k or 2k + 1 of TA for k below 128, of TB from there. -/
def ustepReset (k hi : Nat) : Nat :=
  if k < 128 then cosTable.getD (2 * k + hi) 0 else cosTable.getD (256 - (2 * (k - 128) + hi)) 0

/-- The fixed class of an event source by R500, as EVT.ROUTEn.CLASS reads from reset on: 0 NOTICE, 1 WARNING, 2 LOSS,
3 STOP, 4 RESET; 0 for lane and axis sources before their first raise and for sources never raised. -/
def sourceClass (n : Nat) : Nat :=
  if n ∈ [2, 5, 6, 9, 10, 11, 13, 14, 16, 17, 18, 40, 45, 48, 49, 50, 51, 52, 53, 56, 60, 61, 62] then 1
  else if n ∈ [4, 19, 33, 35, 36, 37, 38, 41, 42, 46] then 2
  else if n ∈ [3, 7, 8, 15] then 3
  else if n ∈ [114, 115, 121, 122, 123, 124, 125, 127, 148, 150] then 1
  else if 128 ≤ n ∧ n ≤ 139 then 1
  else if n ∈ [140, 141, 142, 143, 149, 151] then 2
  else if n ∈ [112, 116, 117, 119, 120, 175, 251] then 3
  else if n ∈ [168, 169, 170, 171, 172, 173, 176, 178, 180, 182, 183] then 1
  else if n ∈ [193, 194, 196, 197, 198, 200, 202, 205] then 1
  else if n ∈ [201, 218] then 2
  else if n ∈ [211, 212, 213, 214, 215, 216, 220] then 1
  else if n ∈ [221, 241, 243, 245] then 4
  else if n ∈ [225, 227, 228, 234, 235, 236, 237, 238, 242, 244, 246, 247, 248, 249, 253, 254] then 1
  else 0

def GLB_ID_VENDOR : Field := ⟨0, 0, 16, 7770⟩
def GLB_ID_DEVICE : Field := ⟨0, 16, 16, 406⟩
def GLB_REV_STEPPING : Field := ⟨4, 0, 8, 176⟩
def GLB_REV_GEN : Field := ⟨4, 8, 4, 1⟩
def GLB_REV_EXT_TEMP : Field := ⟨4, 16, 1, 0⟩
def GLB_STRAPS_PRI : Field := ⟨8, 0, 1, 0⟩
def GLB_STRAPS_TDM_EN : Field := ⟨8, 1, 1, 0⟩
def GLB_STRAPS_SAFE_BOOT : Field := ⟨8, 2, 1, 0⟩
def GLB_NODE_NODE : Field := ⟨0xc, 0, 13, 0⟩
def GLB_SEM_OWNER (n : Nat) : Field := ⟨0x100 + 4 * n, 0, 2, 0⟩
def HIF_ACC_ERR_ADDR_OFFSET : Field := ⟨0x10000, 0, 24, 0⟩
def HIF_ACC_ERR_INFO_VALID : Field := ⟨0x10004, 0, 1, 0⟩
def HIF_ACC_ERR_INFO_PORT : Field := ⟨0x10004, 1, 1, 0⟩
def HIF_ACC_ERR_INFO_BAR : Field := ⟨0x10004, 2, 1, 0⟩
def HIF_ACC_ERR_INFO_WRITE : Field := ⟨0x10004, 3, 1, 0⟩
def HIF_ACC_ERR_INFO_BE : Field := ⟨0x10004, 4, 4, 0⟩
def HIF_ACC_ERR_INFO_WIDE : Field := ⟨0x10004, 8, 1, 0⟩
def HIF_ACC_ERR_INFO_COUNT : Field := ⟨0x10004, 16, 16, 0⟩
def HIF_BLOCK_AREA_MIB : Field := ⟨0x10008, 0, 16, 0⟩
def HIF_STATE_AREA_MIB : Field := ⟨0x1000c, 0, 13, 0⟩
def HIF_STATUS_SPEED (p : Nat) : Field := ⟨0x10100 + 0x100 * p, 0, 3, 0⟩
def HIF_STATUS_WIDTH (p : Nat) : Field := ⟨0x10100 + 0x100 * p, 4, 3, 0⟩
def HIF_STATUS_LAYER_HELD (p : Nat) : Field := ⟨0x10100 + 0x100 * p, 8, 1, 0⟩
def HIF_STATUS_STATE_HELD (p : Nat) : Field := ⟨0x10100 + 0x100 * p, 9, 1, 0⟩
def HIF_STATUS_LINK_CHG (p : Nat) : Field := ⟨0x10100 + 0x100 * p, 16, 1, 0⟩
def HIF_STATUS_RESETS (p : Nat) : Field := ⟨0x10100 + 0x100 * p, 24, 8, 0⟩
def HIF_RING_BASE_LO_BASE (p n : Nat) : Field := ⟨0x11000 + 0x1000 * p + 0x40 * n, 0, 32, 0⟩
def HIF_RING_BASE_HI_BASE (p n : Nat) : Field := ⟨0x11004 + 0x1000 * p + 0x40 * n, 0, 32, 0⟩
def HIF_RING_CI_LO_ADDR (p n : Nat) : Field := ⟨0x11008 + 0x1000 * p + 0x40 * n, 0, 32, 0⟩
def HIF_RING_CI_HI_ADDR (p n : Nat) : Field := ⟨0x1100c + 0x1000 * p + 0x40 * n, 0, 32, 0⟩
def HIF_RING_CFG_TYPE (p n : Nat) : Field := ⟨0x11010 + 0x1000 * p + 0x40 * n, 0, 3, 0⟩
def HIF_RING_CFG_SIZE_LOG2 (p n : Nat) : Field := ⟨0x11010 + 0x1000 * p + 0x40 * n, 8, 4, 0⟩
def HIF_RING_CFG_VECTOR (p n : Nat) : Field := ⟨0x11010 + 0x1000 * p + 0x40 * n, 16, 6, 0⟩
def HIF_RING_CFG_ENABLE (p n : Nat) : Field := ⟨0x11010 + 0x1000 * p + 0x40 * n, 31, 1, 0⟩
def HIF_RING_CTRL_RESTART (p n : Nat) : Field := ⟨0x11014 + 0x1000 * p + 0x40 * n, 0, 1, 0⟩
def HIF_RING_CTRL_SKIP (p n : Nat) : Field := ⟨0x11014 + 0x1000 * p + 0x40 * n, 1, 1, 0⟩
def HIF_RING_CTRL_STOP (p n : Nat) : Field := ⟨0x11014 + 0x1000 * p + 0x40 * n, 2, 1, 0⟩
def HIF_RING_STATUS_CI (p n : Nat) : Field := ⟨0x11018 + 0x1000 * p + 0x40 * n, 0, 16, 0⟩
def HIF_RING_STATUS_STATE (p n : Nat) : Field := ⟨0x11018 + 0x1000 * p + 0x40 * n, 16, 2, 0⟩
def HIF_RING_STATUS_FAULT (p n : Nat) : Field := ⟨0x11018 + 0x1000 * p + 0x40 * n, 20, 12, 0⟩
def HIF_RING_FAULT_IDX (p n : Nat) : Field := ⟨0x1101c + 0x1000 * p + 0x40 * n, 0, 16, 0⟩
def HIF_RING_FAULT_PI (p n : Nat) : Field := ⟨0x1101c + 0x1000 * p + 0x40 * n, 16, 16, 0⟩
def HIF_RING_IRQ_HOLDOFF (p n : Nat) : Field := ⟨0x11020 + 0x1000 * p + 0x40 * n, 0, 10, 0⟩
def HIF_RING_IRQ_COUNT (p n : Nat) : Field := ⟨0x11020 + 0x1000 * p + 0x40 * n, 16, 8, 0⟩
def HIF_RING_DROP_COUNT (p n : Nat) : Field := ⟨0x11024 + 0x1000 * p + 0x40 * n, 0, 32, 0⟩
def EVT_SEQ_NEXT : Field := ⟨0x20000, 0, 32, 0⟩
def EVT_LAST_SOURCE : Field := ⟨0x20004, 0, 8, 0⟩
def EVT_LAST_CLASS : Field := ⟨0x20004, 8, 3, 0⟩
def EVT_LAST_CAUSE : Field := ⟨0x20004, 16, 8, 0⟩
def EVT_PENDING_COUNT : Field := ⟨0x20008, 0, 9, 0⟩
def EVT_CLASS_CNT_COUNT (c : Nat) : Field := ⟨0x20010 + 4 * c, 0, 32, 0⟩
def EVT_STATUS_RAISED (k : Nat) : Field := ⟨0x20100 + 4 * k, 0, 32, 0⟩
def EVT_MASK_MASK (k : Nat) : Field := ⟨0x20200 + 4 * k, 0, 32, 0⟩
def EVT_PEND_PEND (k : Nat) : Field := ⟨0x20300 + 4 * k, 0, 32, 0⟩
def EVT_ROUTE_RING (n : Nat) : Field := ⟨0x21000 + 4 * n, 0, 6, 0⟩
def EVT_ROUTE_PORT (n : Nat) : Field := ⟨0x21000 + 4 * n, 8, 1, 0⟩
def EVT_ROUTE_RING_EN (n : Nat) : Field := ⟨0x21000 + 4 * n, 9, 1, 0⟩
def EVT_ROUTE_VECTOR (n : Nat) : Field := ⟨0x21000 + 4 * n, 16, 6, 0⟩
def EVT_ROUTE_VEC_EN (n : Nat) : Field := ⟨0x21000 + 4 * n, 24, 1, 0⟩
def EVT_ROUTE_CLASS (n : Nat) : Field := ⟨0x21000 + 4 * n, 29, 3, sourceClass n⟩
def ETM_ET_LO_ET_LO : Field := ⟨0x30000, 0, 32, 0⟩
def ETM_ET_HI_ET_HI : Field := ⟨0x30004, 0, 32, 0⟩
def ETM_ERA_ERA : Field := ⟨0x30008, 0, 16, 0⟩
def ETM_CTRL_SRC : Field := ⟨0x30010, 0, 2, 0⟩
def ETM_CTRL_SLAVE_ONLY : Field := ⟨0x30010, 4, 1, 0⟩
def ETM_STATUS_STATE : Field := ⟨0x30014, 0, 2, 0⟩
def ETM_STATUS_SET : Field := ⟨0x30014, 2, 1, 0⟩
def ETM_STATUS_INLAYER : Field := ⟨0x30014, 3, 1, 0⟩
def ETM_STATUS_SLEWING : Field := ⟨0x30014, 4, 1, 0⟩
def ETM_STATUS_STEP_REFUSED : Field := ⟨0x30014, 8, 1, 0⟩
def ETM_STATUS_LATE : Field := ⟨0x30014, 9, 1, 0⟩
def ETM_STATUS_RANGE : Field := ⟨0x30014, 10, 1, 0⟩
def ETM_STATUS_HOLD_CAUSE : Field := ⟨0x30014, 12, 2, 0⟩
def ETM_STEP_THR_NS : Field := ⟨0x30018, 0, 20, 1000⟩
def ETM_SLEW_LIM_PPM : Field := ⟨0x3001c, 0, 10, 100⟩
def ETM_LOCK_THR_NS : Field := ⟨0x30020, 0, 8, 4⟩
def ETM_LOCK_THR_COUNT : Field := ⟨0x30020, 8, 8, 16⟩
def ETM_OFFSET_OFFSET : Field := ⟨0x30024, 0, 32, 0⟩
def ETM_RATE_RATE : Field := ⟨0x30028, 0, 32, 0⟩
def ETM_MEAN_DELAY_DELAY : Field := ⟨0x3002c, 0, 32, 0⟩
def ETM_SERVO_KP_SHIFT : Field := ⟨0x30030, 0, 5, 2⟩
def ETM_SERVO_KI_SHIFT : Field := ⟨0x30030, 8, 5, 6⟩
def ETM_SERVO_DELAY_FILT : Field := ⟨0x30030, 16, 5, 4⟩
def ETM_SET_LO_VALUE : Field := ⟨0x30034, 0, 32, 0⟩
def ETM_SET_HI_VALUE : Field := ⟨0x30038, 0, 32, 0⟩
def ETM_SET_CMD_GO : Field := ⟨0x3003c, 0, 1, 0⟩
def ETM_PTP_CFG_DOMAIN : Field := ⟨0x30040, 0, 8, 0⟩
def ETM_PTP_CFG_TRANSPORT : Field := ⟨0x30040, 8, 1, 0⟩
def ETM_PTP_CFG_DELAY_MECH : Field := ⟨0x30040, 9, 1, 0⟩
def ETM_PTP_CFG_ONE_STEP : Field := ⟨0x30040, 10, 1, 0⟩
def ETM_PTP_CFG_LOG_SYNC : Field := ⟨0x30040, 12, 4, 0⟩
def ETM_PTP_CFG_LOG_DELAY : Field := ⟨0x30040, 16, 4, 0⟩
def ETM_PTP_CFG_LOG_ANNOUNCE : Field := ⟨0x30040, 20, 4, 0⟩
def ETM_PTP_CFG_ANNOUNCE_TO : Field := ⟨0x30040, 24, 4, 0⟩
def ETM_PTP_CFG_SYNC_TO : Field := ⟨0x30040, 28, 4, 0⟩
def ETM_PTP_PRIO_PRIORITY1 : Field := ⟨0x30044, 0, 8, 0⟩
def ETM_PTP_PRIO_PRIORITY2 : Field := ⟨0x30044, 8, 8, 0⟩
def ETM_PTP_PRIO_CLOCK_CLASS : Field := ⟨0x30044, 16, 8, 0⟩
def ETM_PTP_PRIO_ACCURACY : Field := ⟨0x30044, 24, 8, 0⟩
def ETM_CLKID_LO_CLKID : Field := ⟨0x30048, 0, 32, 0⟩
def ETM_CLKID_HI_CLKID : Field := ⟨0x3004c, 0, 32, 0⟩
def ETM_PARENT_LO_PARENT : Field := ⟨0x30050, 0, 32, 0⟩
def ETM_PARENT_HI_PARENT : Field := ⟨0x30054, 0, 32, 0⟩
def ETM_PARENT_PORT_PORTNUM : Field := ⟨0x30058, 0, 16, 0⟩
def ETM_PARENT_PORT_LOCAL : Field := ⟨0x30058, 16, 1, 0⟩
def ETM_ENC_TS_LO_TS_LO (n : Nat) : Field := ⟨0x30080 + 8 * n, 0, 32, 0⟩
def ETM_ENC_TS_HI_TS_HI (n : Nat) : Field := ⟨0x30084 + 8 * n, 0, 32, 0⟩
def ETM_CAP_CTRL_GPIO (n : Nat) : Field := ⟨0x300c0 + 0x10 * n, 0, 6, 0⟩
def ETM_CAP_CTRL_EDGE (n : Nat) : Field := ⟨0x300c0 + 0x10 * n, 8, 2, 0⟩
def ETM_CAP_CTRL_OVR (n : Nat) : Field := ⟨0x300c0 + 0x10 * n, 16, 1, 0⟩
def ETM_CAP_CTRL_VALID (n : Nat) : Field := ⟨0x300c0 + 0x10 * n, 17, 1, 0⟩
def ETM_CAP_TS_LO_TS (n : Nat) : Field := ⟨0x300c4 + 0x10 * n, 0, 32, 0⟩
def ETM_CAP_TS_HI_TS (n : Nat) : Field := ⟨0x300c8 + 0x10 * n, 0, 32, 0⟩
def ENET_CTRL_MODE (p : Nat) : Field := ⟨0x40000 + 0x1000 * p, 0, 2, 0⟩
def ENET_CTRL_ENABLE (p : Nat) : Field := ⟨0x40000 + 0x1000 * p, 4, 1, 0⟩
def ENET_CTRL_PTP_EN (p : Nat) : Field := ⟨0x40000 + 0x1000 * p, 5, 1, 0⟩
def ENET_STATUS_LINK (p : Nat) : Field := ⟨0x40004 + 0x1000 * p, 0, 1, 0⟩
def ENET_STATUS_BLOCK_LOCK (p : Nat) : Field := ⟨0x40004 + 0x1000 * p, 1, 1, 0⟩
def ENET_STATUS_FEC_LOCK (p : Nat) : Field := ⟨0x40004 + 0x1000 * p, 2, 1, 0⟩
def ENET_STATUS_PORT_STATE (p : Nat) : Field := ⟨0x40004 + 0x1000 * p, 4, 4, 0⟩
def ENET_STATUS_LINK_CHG (p : Nat) : Field := ⟨0x40004 + 0x1000 * p, 8, 1, 0⟩
def ENET_MAC_LO_MAC (p : Nat) : Field := ⟨0x40008 + 0x1000 * p, 0, 32, 0⟩
def ENET_MAC_HI_MAC (p : Nat) : Field := ⟨0x4000c + 0x1000 * p, 0, 32, 0⟩
def ENET_IPV4_ADDR (p : Nat) : Field := ⟨0x40010 + 0x1000 * p, 0, 32, 0⟩
def ENET_LAT_TX_PS (p : Nat) : Field := ⟨0x40014 + 0x1000 * p, 0, 24, 21300⟩
def ENET_LAT_RX_PS (p : Nat) : Field := ⟨0x40018 + 0x1000 * p, 0, 24, 29800⟩
def ENET_ASYM_PS (p : Nat) : Field := ⟨0x4001c + 0x1000 * p, 0, 32, 0⟩
def ENET_DISCARD_COUNT (p : Nat) : Field := ⟨0x40020 + 0x1000 * p, 0, 32, 0⟩
def ENET_PTP_ERR_COUNT (p : Nat) : Field := ⟨0x40024 + 0x1000 * p, 0, 32, 0⟩
def ENET_TS_LOST_COUNT (p : Nat) : Field := ⟨0x40028 + 0x1000 * p, 0, 32, 0⟩
def CHN_CTRL_FRAME_COMP : Field := ⟨0x50000, 0, 1, 0⟩
def CHN_STATUS_INSERVICE : Field := ⟨0x50004, 0, 8, 255⟩
def CHN_STATUS_BUSY : Field := ⟨0x50004, 8, 8, 0⟩
def CHN_STATUS_HELD : Field := ⟨0x50004, 16, 8, 0⟩
def CHN_QUEUE_DEC : Field := ⟨0x50008, 0, 16, 0⟩
def CHN_QUEUE_COMP : Field := ⟨0x50008, 16, 16, 0⟩
def CHN_DEC_BLOCKS_COUNT : Field := ⟨0x50010, 0, 32, 0⟩
def CHN_DEC_FAIL_COUNT : Field := ⟨0x50014, 0, 32, 0⟩
def CHN_NO_GAIN_COUNT : Field := ⟨0x50018, 0, 32, 0⟩
def CHN_HOLDS_COUNT : Field := ⟨0x5001c, 0, 32, 0⟩
def CHN_FAIL_INFO_CAUSE : Field := ⟨0x50020, 0, 4, 0⟩
def CHN_FAIL_INFO_ENGINE : Field := ⟨0x50020, 4, 3, 0⟩
def CHN_FAIL_INFO_HEAD : Field := ⟨0x50020, 8, 6, 0⟩
def CHN_FAIL_INFO_VALID : Field := ⟨0x50020, 16, 1, 0⟩
def CHN_FAIL_LAYER_LAYER : Field := ⟨0x50024, 0, 32, 0⟩
def CHN_FAIL_SLAB_SLAB : Field := ⟨0x50028, 0, 32, 0⟩
def CHN_FAIL_BITPOS_BITPOS : Field := ⟨0x5002c, 0, 21, 0⟩
def CHN_ENG_STATE_KIND (n : Nat) : Field := ⟨0x50100 + 0x10 * n, 0, 2, 0⟩
def CHN_ENG_STATE_HELD_OUT (n : Nat) : Field := ⟨0x50100 + 0x10 * n, 2, 1, 0⟩
def CHN_ENG_STATE_HELD_IN (n : Nat) : Field := ⟨0x50100 + 0x10 * n, 3, 1, 0⟩
def CHN_ENG_STATE_HEAD (n : Nat) : Field := ⟨0x50100 + 0x10 * n, 8, 6, 0⟩
def CHN_ENG_DONE_BYTES (n : Nat) : Field := ⟨0x50104 + 0x10 * n, 0, 20, 0⟩
def CHN_ENG_SLAB_SLAB (n : Nat) : Field := ⟨0x50108 + 0x10 * n, 0, 32, 0⟩
def CRN_CTRL_ABORT : Field := ⟨0x60000, 0, 1, 0⟩
def CRN_STATUS_STATE : Field := ⟨0x60004, 0, 2, 0⟩
def CRN_STATUS_EST_VALID : Field := ⟨0x60004, 2, 1, 0⟩
def CRN_STATUS_GATED : Field := ⟨0x60004, 3, 1, 0⟩
def CRN_STATUS_NEXT : Field := ⟨0x60004, 4, 1, 0⟩
def CRN_STATUS_FLAWED : Field := ⟨0x60004, 5, 1, 0⟩
def CRN_STATUS_TRUNC : Field := ⟨0x60004, 6, 1, 0⟩
def CRN_LAYER_LAYER : Field := ⟨0x60008, 0, 32, 0⟩
def CRN_TRAV_CFG_ENC : Field := ⟨0x6000c, 0, 2, 0⟩
def CRN_TRAV_CFG_INVERT : Field := ⟨0x6000c, 2, 1, 0⟩
def CRN_PITCH_COUNTS : Field := ⟨0x60010, 0, 32, 0⟩
def CRN_ORIGIN_COUNT : Field := ⟨0x60014, 0, 32, 0⟩
def CRN_BACKLASH_COUNTS : Field := ⟨0x60018, 0, 3, 2⟩
def CRN_EST_CFG_WIN_LOG2 : Field := ⟨0x6001c, 0, 4, 6⟩
def CRN_EST_CFG_HORIZON : Field := ⟨0x6001c, 16, 13, 4096⟩
def CRN_VMIN_LPS : Field := ⟨0x60020, 0, 16, 500⟩
def CRN_STOP_T_US : Field := ⟨0x60024, 0, 16, 100⟩
def CRN_RETIME_THR_NS : Field := ⟨0x60028, 0, 8, 2⟩
def CRN_LEAD_LEAD_MIN : Field := ⟨0x6002c, 0, 16, 4000⟩
def CRN_LEAD_CALVE_LEAD : Field := ⟨0x6002c, 16, 16, 2000⟩
def CRN_CALVE_TO_US : Field := ⟨0x60030, 0, 16, 200⟩
def CRN_PMIN_NS : Field := ⟨0x60034, 0, 24, 0⟩
def CRN_GOV_LIMIT_LPS : Field := ⟨0x60038, 0, 20, 0⟩
def CRN_EST_POS_COUNT : Field := ⟨0x6003c, 0, 32, 0⟩
def CRN_EST_VEL_VEL : Field := ⟨0x60040, 0, 32, 0⟩
def CRN_REPORT_RING : Field := ⟨0x60044, 0, 6, 0⟩
def CRN_REPORT_PORT : Field := ⟨0x60044, 8, 1, 0⟩
def CRN_RETIMES_COUNT : Field := ⟨0x60050, 0, 32, 0⟩
def CRN_CALVES_COUNT : Field := ⟨0x60054, 0, 32, 0⟩
def CRN_SKIPPED_COUNT : Field := ⟨0x60058, 0, 32, 0⟩
def CRN_HEAD_OFS_LINES (n : Nat) : Field := ⟨0x60100 + 0x10 * n, 0, 24, 0⟩
def CRN_HEAD_HWM_LINE (n : Nat) : Field := ⟨0x60104 + 0x10 * n, 0, 32, 0⟩
def CRN_HEAD_FIRED_INDEX (n : Nat) : Field := ⟨0x60108 + 0x10 * n, 0, 32, 0⟩
def CRN_HEAD_STATE_IN_LAYER (n : Nat) : Field := ⟨0x6010c + 0x10 * n, 0, 1, 0⟩
def CRN_HEAD_STATE_OUT (n : Nat) : Field := ⟨0x6010c + 0x10 * n, 1, 1, 0⟩
def CRN_HEAD_STATE_AWAIT (n : Nat) : Field := ⟨0x6010c + 0x10 * n, 2, 1, 0⟩
def CRN_HEAD_STATE_PENDING (n : Nat) : Field := ⟨0x6010c + 0x10 * n, 8, 7, 0⟩
def CRN_NZT_STAGE_HOST : Field := ⟨0x60400, 0, 16, 0⟩
def CRN_NZT_STAGE_INTERNAL : Field := ⟨0x60400, 16, 13, 0⟩
def CRN_NZT_ECC_THR : Field := ⟨0x60404, 0, 4, 4⟩
def CRN_NZT_ECC_SPARES_USED : Field := ⟨0x60404, 16, 9, 0⟩
def CRN_NZT_CE_COUNT : Field := ⟨0x60408, 0, 32, 0⟩
def CRN_NZT_UE_COUNT : Field := ⟨0x6040c, 0, 32, 0⟩
def CRN_SUB_COUNT_IN_FORCE : Field := ⟨0x60410, 0, 15, 0⟩
def CRN_SUB_COUNT_NEWEST : Field := ⟨0x60410, 16, 15, 0⟩
def CRN_WEAK_MAP_LO_MAP : Field := ⟨0x60418, 0, 32, 1985229328⟩
def CRN_WEAK_MAP_HI_MAP : Field := ⟨0x6041c, 0, 32, 4275878552⟩
def CRN_MORAINE_CTRL_EXPORT : Field := ⟨0x60420, 0, 1, 0⟩
def CRN_MORAINE_STATUS_RECORDS : Field := ⟨0x60424, 0, 16, 0⟩
def CRN_MORAINE_STATUS_FULL : Field := ⟨0x60424, 16, 1, 0⟩
def CRN_MORAINE_STATUS_UNWRITTEN : Field := ⟨0x60424, 24, 8, 0⟩
def CRN_MORAINE_SEQ_NEXT : Field := ⟨0x60428, 0, 32, 0⟩
def CRN_GREY_LO_CODES (t : Nat) : Field := ⟨0x60500 + 8 * t, 0, 32, 1985229328⟩
def CRN_GREY_HI_CODES (t : Nat) : Field := ⟨0x60504 + 8 * t, 0, 32, 4275878552⟩
def CRN_NZT_BASE_ROW (n : Nat) : Field := ⟨0x60600 + 4 * n, 0, 18, 0⟩
def CRN_NZT_BASE_GROUPS (n : Nat) : Field := ⟨0x60600 + 4 * n, 18, 9, 0⟩
def CRN_SPARE_ROW (j : Nat) : Field := ⟨0x60800 + 4 * j, 0, 13, 0⟩
def CRN_SPARE_RETIRED (j : Nat) : Field := ⟨0x60800 + 4 * j, 30, 1, 0⟩
def CRN_SPARE_USED (j : Nat) : Field := ⟨0x60800 + 4 * j, 31, 1, 0⟩
def THL_TIME_CFG_PERIOD_US : Field := ⟨0x70000, 0, 16, 1000⟩
def THL_TIME_CFG_MAX_STEP_NS : Field := ⟨0x70000, 16, 5, 8⟩
def THL_TIME_CFG_RATE_SHIFT : Field := ⟨0x70000, 24, 3, 1⟩
def THL_TIME_CFG_ERR_NS : Field := ⟨0x70000, 27, 5, 16⟩
def THL_MGMT_TO_US : Field := ⟨0x70004, 0, 16, 1000⟩
def THL_ACK_TO_US : Field := ⟨0x70008, 0, 16, 100⟩
def THL_READY_LO_LANES : Field := ⟨0x70010, 0, 32, 0⟩
def THL_READY_HI_LANES : Field := ⟨0x70014, 0, 32, 0⟩
def THL_LINKED_LO_LANES : Field := ⟨0x70018, 0, 32, 0⟩
def THL_LINKED_HI_LANES : Field := ⟨0x7001c, 0, 32, 0⟩
def THL_LANE_CFG_RATE (n : Nat) : Field := ⟨0x71000 + 0x100 * n, 0, 3, 0⟩
def THL_LANE_CFG_ENABLE (n : Nat) : Field := ⟨0x71000 + 0x100 * n, 4, 1, 0⟩
def THL_LANE_CFG_AUTO_ALIGN (n : Nat) : Field := ⟨0x71000 + 0x100 * n, 5, 1, 0⟩
def THL_LANE_STATUS_STATE (n : Nat) : Field := ⟨0x71004 + 0x100 * n, 0, 3, 0⟩
def THL_LANE_STATUS_RATE_NOW (n : Nat) : Field := ⟨0x71004 + 0x100 * n, 4, 3, 0⟩
def THL_LANE_STATUS_TIME_LOCK (n : Nat) : Field := ⟨0x71004 + 0x100 * n, 8, 1, 0⟩
def THL_LANE_STATUS_TB_HOLD (n : Nat) : Field := ⟨0x71004 + 0x100 * n, 9, 1, 0⟩
def THL_LANE_STATUS_RX_LOSS (n : Nat) : Field := ⟨0x71004 + 0x100 * n, 10, 1, 0⟩
def THL_LANE_STATUS_LAST_CAUSE (n : Nat) : Field := ⟨0x71004 + 0x100 * n, 16, 5, 0⟩
def THL_LANE_STATUS_STATE_CHG (n : Nat) : Field := ⟨0x71004 + 0x100 * n, 24, 1, 0⟩
def THL_LANE_ALIGN_SLIP (n : Nat) : Field := ⟨0x71008 + 0x100 * n, 0, 1, 0⟩
def THL_LANE_ALIGN_SEARCH (n : Nat) : Field := ⟨0x71008 + 0x100 * n, 1, 1, 0⟩
def THL_LANE_ALIGN_STATUS_COMMA_OK (n : Nat) : Field := ⟨0x7100c + 0x100 * n, 0, 1, 0⟩
def THL_LANE_ALIGN_STATUS_OFF_BOUNDARY (n : Nat) : Field := ⟨0x7100c + 0x100 * n, 1, 1, 0⟩
def THL_LANE_ALIGN_STATUS_POS (n : Nat) : Field := ⟨0x7100c + 0x100 * n, 4, 4, 0⟩
def THL_LANE_ALIGN_STATUS_CODE_ERR (n : Nat) : Field := ⟨0x7100c + 0x100 * n, 16, 16, 0⟩
def THL_LANE_RTT_RTT (n : Nat) : Field := ⟨0x71010 + 0x100 * n, 0, 32, 0⟩
def THL_LANE_OFFSET_THETA (n : Nat) : Field := ⟨0x71014 + 0x100 * n, 0, 32, 0⟩
def THL_LANE_ASYM_PS (n : Nat) : Field := ⟨0x71018 + 0x100 * n, 0, 32, 0⟩
def THL_LANE_HRATE_RATE (n : Nat) : Field := ⟨0x7101c + 0x100 * n, 0, 32, 0⟩
def THL_LANE_CRC_ERR_COUNT (n : Nat) : Field := ⟨0x71020 + 0x100 * n, 0, 32, 0⟩
def THL_LANE_REPLAYS_COUNT (n : Nat) : Field := ⟨0x71024 + 0x100 * n, 0, 32, 0⟩
def THL_LANE_ABORTS_COUNT (n : Nat) : Field := ⟨0x71028 + 0x100 * n, 0, 32, 0⟩
def THL_LANE_LOSSES_COUNT (n : Nat) : Field := ⟨0x7102c + 0x100 * n, 0, 32, 0⟩
def THL_LANE_FILL_INS_COUNT (n : Nat) : Field := ⟨0x71030 + 0x100 * n, 0, 32, 0⟩
def THL_LANE_FILL_DEL_COUNT (n : Nat) : Field := ⟨0x71034 + 0x100 * n, 0, 32, 0⟩
def THL_LANE_LSEQ_NEXT (n : Nat) : Field := ⟨0x71038 + 0x100 * n, 0, 16, 0⟩
def THL_LANE_LSEQ_ACKED (n : Nat) : Field := ⟨0x71038 + 0x100 * n, 16, 16, 0⟩
def THL_LANE_CAPS_CAPS (n : Nat) : Field := ⟨0x7103c + 0x100 * n, 0, 32, 0⟩
def HED_GATE_CFG_SETTLE_US : Field := ⟨0x90000, 0, 16, 0⟩
def HED_GATE_CFG_STRIKE_AUTO : Field := ⟨0x90000, 16, 1, 0⟩
def HED_GATE_CTRL_FORCE_STOP : Field := ⟨0x90004, 0, 1, 0⟩
def HED_GATE_CTRL_CLEAR_STRIKE : Field := ⟨0x90004, 1, 1, 0⟩
def HED_GATE_STATUS_PERMIT : Field := ⟨0x90008, 0, 1, 0⟩
def HED_GATE_STATUS_VOTE : Field := ⟨0x90008, 1, 1, 0⟩
def HED_GATE_STATUS_STRIKE_LATCH : Field := ⟨0x90008, 2, 1, 0⟩
def HED_GATE_STATUS_SETTLING : Field := ⟨0x90008, 3, 1, 0⟩
def HED_GATE_STATUS_COND_STOP : Field := ⟨0x90008, 4, 3, 0⟩
def HED_GATE_STATUS_FE : Field := ⟨0x90008, 8, 4, 0⟩
def HED_GATE_STATUS_INPUTS : Field := ⟨0x90008, 16, 9, 0⟩
def HED_GATE_FAULT_CHANNEL : Field := ⟨0x9000c, 0, 9, 0⟩
def HED_GATE_FAULT_VOTER : Field := ⟨0x9000c, 16, 3, 0⟩
def HED_GATE_STOP_ET_LO_ET : Field := ⟨0x90010, 0, 32, 0⟩
def HED_GATE_STOP_ET_HI_ET : Field := ⟨0x90014, 0, 32, 0⟩
def HED_GATE_STOPS_COUNT : Field := ⟨0x90018, 0, 32, 0⟩
def HED_MEAS_CFG_RETIRE : Field := ⟨0x90020, 0, 1, 0⟩
def HED_MEAS_CFG_ENABLE : Field := ⟨0x90020, 1, 1, 0⟩
def HED_MEAS_WIN_LOW : Field := ⟨0x90024, 0, 9, 218⟩
def HED_MEAS_WIN_HIGH : Field := ⟨0x90024, 16, 9, 294⟩
def HED_MEAS_OOR_COUNT : Field := ⟨0x90028, 0, 32, 0⟩
def HED_MEAS_DONE_COUNT : Field := ⟨0x9002c, 0, 32, 0⟩
def HED_UP_LO_HEADS : Field := ⟨0x90030, 0, 32, 0⟩
def HED_UP_HI_HEADS : Field := ⟨0x90034, 0, 32, 0⟩
def HED_HEAD_CFG_NOZZLES (n : Nat) : Field := ⟨0x91000 + 0x40 * n, 0, 14, 0⟩
def HED_HEAD_CFG_CLASS (n : Nat) : Field := ⟨0x91000 + 0x40 * n, 16, 1, 0⟩
def HED_HEAD_CFG_RANKS (n : Nat) : Field := ⟨0x91000 + 0x40 * n, 20, 4, 0⟩
def HED_HEAD_CFG_DSET (n : Nat) : Field := ⟨0x91000 + 0x40 * n, 24, 2, 0⟩
def HED_HEAD_CFG_MEAS_EN (n : Nat) : Field := ⟨0x91000 + 0x40 * n, 28, 1, 0⟩
def HED_HEAD_CTRL_ACCEPT (n : Nat) : Field := ⟨0x91004 + 0x40 * n, 0, 1, 0⟩
def HED_HEAD_CTRL_REREAD (n : Nat) : Field := ⟨0x91004 + 0x40 * n, 1, 1, 0⟩
def HED_HEAD_STATUS_STATE (n : Nat) : Field := ⟨0x91008 + 0x40 * n, 0, 3, 0⟩
def HED_HEAD_STATUS_CAUSE (n : Nat) : Field := ⟨0x91008 + 0x40 * n, 4, 4, 0⟩
def HED_HEAD_STATUS_CLASS (n : Nat) : Field := ⟨0x91008 + 0x40 * n, 8, 1, 0⟩
def HED_HEAD_STATUS_RANK (n : Nat) : Field := ⟨0x91008 + 0x40 * n, 12, 2, 0⟩
def HED_HEAD_STATUS_FAULT (n : Nat) : Field := ⟨0x91008 + 0x40 * n, 16, 8, 0⟩
def HED_HEAD_STATUS_STATE_CHG (n : Nat) : Field := ⟨0x91008 + 0x40 * n, 24, 1, 0⟩
def HED_HEAD_ID_MAKER (n : Nat) : Field := ⟨0x9100c + 0x40 * n, 0, 16, 0⟩
def HED_HEAD_ID_MODEL (n : Nat) : Field := ⟨0x9100c + 0x40 * n, 16, 16, 0⟩
def HED_HEAD_SERIAL_LO_SERIAL (n : Nat) : Field := ⟨0x91010 + 0x40 * n, 0, 32, 0⟩
def HED_HEAD_SERIAL_HI_SERIAL (n : Nat) : Field := ⟨0x91014 + 0x40 * n, 0, 32, 0⟩
def HED_HEAD_PMIN_NS (n : Nat) : Field := ⟨0x91018 + 0x40 * n, 0, 20, 0⟩
def HED_HEAD_NOMINAL_VALUE (n : Nat) : Field := ⟨0x9101c + 0x40 * n, 0, 32, 0⟩
def HED_HEAD_MEAS_NEXT (n : Nat) : Field := ⟨0x91020 + 0x40 * n, 0, 8, 0⟩
def HED_HEAD_MEAS_LAST (n : Nat) : Field := ⟨0x91020 + 0x40 * n, 8, 8, 0⟩
def HED_HEAD_MEAS_LAST_OOR (n : Nat) : Field := ⟨0x91020 + 0x40 * n, 16, 6, 0⟩
def HED_HEAD_MEAS_SWEEPS (n : Nat) : Field := ⟨0x91020 + 0x40 * n, 24, 8, 0⟩
def HED_HEAD_MEAS_MASK_MASK (n : Nat) : Field := ⟨0x91024 + 0x40 * n, 0, 32, 0⟩
def HED_HEAD_TLM_TEMP (n : Nat) : Field := ⟨0x91028 + 0x40 * n, 0, 16, 0⟩
def HED_HEAD_TLM_VDRIVE (n : Nat) : Field := ⟨0x91028 + 0x40 * n, 16, 16, 0⟩
def HED_HEAD_LOADED_DRIVE (n : Nat) : Field := ⟨0x9102c + 0x40 * n, 0, 1, 0⟩
def HED_HEAD_LOADED_GROUPS (n : Nat) : Field := ⟨0x9102c + 0x40 * n, 1, 1, 0⟩
def HED_HEAD_LOADED_TRIM (n : Nat) : Field := ⟨0x9102c + 0x40 * n, 2, 1, 0⟩
def HED_HEAD_LOADED_SLOT (n : Nat) : Field := ⟨0x9102c + 0x40 * n, 3, 1, 0⟩
def HED_DRIVESET_DATA (d w : Nat) : Field := ⟨0x92000 + 0x400 * d + 4 * w, 0, 32, 0⟩
def HED_GROUP_SBASE (h g : Nat) : Field := ⟨0x94000 + 0x400 * h + 4 * g, 0, 5, 0⟩
def HED_GROUP_GDELAY (h g : Nat) : Field := ⟨0x94000 + 0x400 * h + 4 * g, 8, 14, 0⟩
def HED_GROUP_TRIM (h g : Nat) : Field := ⟨0x94000 + 0x400 * h + 4 * g, 22, 10, 0⟩
def CAM_STORE_AREA_MIB : Field := ⟨0xa0000, 0, 16, 0⟩
def CAM_STATUS_PORT_UP : Field := ⟨0xa0004, 0, 4, 0⟩
def CAM_STATUS_PIPE_BUSY : Field := ⟨0xa0004, 4, 4, 0⟩
def CAM_STATUS_RUNNING : Field := ⟨0xa0004, 8, 1, 0⟩
def CAM_WRITE_RATE_MBPS : Field := ⟨0xa0008, 0, 16, 0⟩
def CAM_PORT_CFG_LANES (p : Nat) : Field := ⟨0xa0100 + 0x20 * p, 0, 3, 0⟩
def CAM_PORT_CFG_ENABLE (p : Nat) : Field := ⟨0xa0100 + 0x20 * p, 4, 1, 0⟩
def CAM_PORT_CFG_LANE_ORDER (p : Nat) : Field := ⟨0xa0100 + 0x20 * p, 8, 8, 0⟩
def CAM_PORT_CFG_POL_INV (p : Nat) : Field := ⟨0xa0100 + 0x20 * p, 16, 5, 0⟩
def CAM_PORT_RATE_MBPS (p : Nat) : Field := ⟨0xa0104 + 0x20 * p, 0, 12, 0⟩
def CAM_PORT_STATUS_CLK_ACTIVE (p : Nat) : Field := ⟨0xa0108 + 0x20 * p, 0, 1, 0⟩
def CAM_PORT_STATUS_SYNC (p : Nat) : Field := ⟨0xa0108 + 0x20 * p, 1, 4, 0⟩
def CAM_PORT_STATUS_DESKEW_OK (p : Nat) : Field := ⟨0xa0108 + 0x20 * p, 5, 1, 0⟩
def CAM_PORT_STATUS_ERR (p : Nat) : Field := ⟨0xa0108 + 0x20 * p, 8, 1, 0⟩
def CAM_PORT_ECC_CORR_COUNT (p : Nat) : Field := ⟨0xa010c + 0x20 * p, 0, 32, 0⟩
def CAM_PORT_ECC_UNC_COUNT (p : Nat) : Field := ⟨0xa0110 + 0x20 * p, 0, 32, 0⟩
def CAM_PORT_CRC_ERR_COUNT (p : Nat) : Field := ⟨0xa0114 + 0x20 * p, 0, 32, 0⟩
def CAM_PORT_DISCARD_COUNT (p : Nat) : Field := ⟨0xa0118 + 0x20 * p, 0, 32, 0⟩
def CAM_PORT_FIFO_PEAK_BYTES (p : Nat) : Field := ⟨0xa011c + 0x20 * p, 0, 19, 0⟩
def CAM_PIPE_CFG_SLOTS (p : Nat) : Field := ⟨0xa0200 + 0x20 * p, 0, 5, 0⟩
def CAM_PIPE_CFG_SLOT_MIB (p : Nat) : Field := ⟨0xa0200 + 0x20 * p, 8, 12, 0⟩
def CAM_PIPE_CFG_PRIV (p : Nat) : Field := ⟨0xa0200 + 0x20 * p, 24, 1, 0⟩
def CAM_PIPE_CFG_PRIV_CTX (p : Nat) : Field := ⟨0xa0200 + 0x20 * p, 25, 1, 0⟩
def CAM_PIPE_ROUTE_IMG_RING (p : Nat) : Field := ⟨0xa0204 + 0x20 * p, 0, 6, 0⟩
def CAM_PIPE_ROUTE_IMG_PORT (p : Nat) : Field := ⟨0xa0204 + 0x20 * p, 8, 1, 0⟩
def CAM_PIPE_ROUTE_STAT_RING (p : Nat) : Field := ⟨0xa0204 + 0x20 * p, 16, 6, 0⟩
def CAM_PIPE_ROUTE_STAT_PORT (p : Nat) : Field := ⟨0xa0204 + 0x20 * p, 24, 1, 0⟩
def CAM_PIPE_ROUTE_STAT_HOST (p : Nat) : Field := ⟨0xa0204 + 0x20 * p, 28, 1, 0⟩
def CAM_PIPE_STATUS_CURRENT (p : Nat) : Field := ⟨0xa0208 + 0x20 * p, 0, 2, 0⟩
def CAM_PIPE_STATUS_WAITING (p : Nat) : Field := ⟨0xa0208 + 0x20 * p, 2, 1, 0⟩
def CAM_PIPE_STATUS_THROTTLED (p : Nat) : Field := ⟨0xa0208 + 0x20 * p, 3, 1, 0⟩
def CAM_PIPE_STATUS_SLOTS_FREE (p : Nat) : Field := ⟨0xa0208 + 0x20 * p, 8, 8, 0⟩
def CAM_PIPE_LOST_COUNT (p : Nat) : Field := ⟨0xa020c + 0x20 * p, 0, 32, 0⟩
def CAM_PIPE_ITEMS_COUNT (p : Nat) : Field := ⟨0xa0210 + 0x20 * p, 0, 32, 0⟩
def CAM_PIPE_UNROUTED_COUNT (p : Nat) : Field := ⟨0xa0214 + 0x20 * p, 0, 32, 0⟩
def CAM_CTX_BIND_PORT (x : Nat) : Field := ⟨0xa1000 + 0x400 * x, 0, 2, 0⟩
def CAM_CTX_BIND_VC (x : Nat) : Field := ⟨0xa1000 + 0x400 * x, 4, 4, 0⟩
def CAM_CTX_BIND_DT (x : Nat) : Field := ⟨0xa1000 + 0x400 * x, 8, 6, 0⟩
def CAM_CTX_BIND_ENABLE (x : Nat) : Field := ⟨0xa1000 + 0x400 * x, 16, 1, 0⟩
def CAM_CTX_BIND_FNUM_MODE (x : Nat) : Field := ⟨0xa1000 + 0x400 * x, 17, 1, 0⟩
def CAM_CTX_BIND_TAP8 (x : Nat) : Field := ⟨0xa1000 + 0x400 * x, 18, 1, 0⟩
def CAM_CTX_GEOM_WIDTH (x : Nat) : Field := ⟨0xa1004 + 0x400 * x, 0, 15, 0⟩
def CAM_CTX_GEOM_HEIGHT (x : Nat) : Field := ⟨0xa1004 + 0x400 * x, 16, 14, 0⟩
def CAM_CTX_OUT_OUT_WIDTH (x : Nat) : Field := ⟨0xa1008 + 0x400 * x, 0, 15, 0⟩
def CAM_CTX_OUT_MAP_BASE (x : Nat) : Field := ⟨0xa1008 + 0x400 * x, 16, 14, 0⟩
def CAM_CTX_OUT_TAP (x : Nat) : Field := ⟨0xa1008 + 0x400 * x, 30, 2, 0⟩
def CAM_CTX_TRIG_MODE (x : Nat) : Field := ⟨0xa100c + 0x400 * x, 0, 2, 0⟩
def CAM_CTX_TRIG_GPIO (x : Nat) : Field := ⟨0xa100c + 0x400 * x, 8, 6, 0⟩
def CAM_CTX_TRIG_POL (x : Nat) : Field := ⟨0xa100c + 0x400 * x, 16, 1, 0⟩
def CAM_CTX_TRIG_T0_LO_T0 (x : Nat) : Field := ⟨0xa1010 + 0x400 * x, 0, 32, 0⟩
def CAM_CTX_TRIG_T0_HI_T0 (x : Nat) : Field := ⟨0xa1014 + 0x400 * x, 0, 32, 0⟩
def CAM_CTX_TRIG_PERIOD_PERIOD (x : Nat) : Field := ⟨0xa1018 + 0x400 * x, 0, 32, 0⟩
def CAM_CTX_TRIG_CTL_COUNT (x : Nat) : Field := ⟨0xa101c + 0x400 * x, 0, 16, 0⟩
def CAM_CTX_EXPO_NS (x : Nat) : Field := ⟨0xa1020 + 0x400 * x, 0, 20, 10000⟩
def CAM_CTX_TRIG_CMD_START (x : Nat) : Field := ⟨0xa1024 + 0x400 * x, 0, 1, 0⟩
def CAM_CTX_TRIG_CMD_STOP (x : Nat) : Field := ⟨0xa1024 + 0x400 * x, 1, 1, 0⟩
def CAM_CTX_APPLY_FROM (x : Nat) : Field := ⟨0xa1028 + 0x400 * x, 0, 16, 0⟩
def CAM_CTX_APPLY_ARM (x : Nat) : Field := ⟨0xa1028 + 0x400 * x, 16, 1, 0⟩
def CAM_CTX_APPLY_DISARM (x : Nat) : Field := ⟨0xa1028 + 0x400 * x, 17, 1, 0⟩
def CAM_CTX_STATUS_FRAME (x : Nat) : Field := ⟨0xa102c + 0x400 * x, 0, 16, 0⟩
def CAM_CTX_STATUS_ARMED (x : Nat) : Field := ⟨0xa102c + 0x400 * x, 16, 1, 0⟩
def CAM_CTX_STATUS_OPEN (x : Nat) : Field := ⟨0xa102c + 0x400 * x, 17, 1, 0⟩
def CAM_CTX_STATUS_TRIG_RUN (x : Nat) : Field := ⟨0xa102c + 0x400 * x, 18, 1, 0⟩
def CAM_CTX_FRAMES_COUNT (x : Nat) : Field := ⟨0xa1030 + 0x400 * x, 0, 32, 0⟩
def CAM_CTX_BADFR_COUNT (x : Nat) : Field := ⟨0xa1034 + 0x400 * x, 0, 32, 0⟩
def CAM_CTX_LOSTFR_COUNT (x : Nat) : Field := ⟨0xa1038 + 0x400 * x, 0, 32, 0⟩
def CAM_CTX_LAST_LOST_FRAME (x : Nat) : Field := ⟨0xa103c + 0x400 * x, 0, 16, 0⟩
def CAM_CTX_LAST_LOST_CAUSE (x : Nat) : Field := ⟨0xa103c + 0x400 * x, 16, 4, 0⟩
def CAM_CTX_FS_ET_LO_ET (x : Nat) : Field := ⟨0xa1040 + 0x400 * x, 0, 32, 0⟩
def CAM_CTX_FS_ET_HI_ET (x : Nat) : Field := ⟨0xa1044 + 0x400 * x, 0, 32, 0⟩
def CAM_CTX_TRIG_SKIP_COUNT (x : Nat) : Field := ⟨0xa1048 + 0x400 * x, 0, 32, 0⟩
def CAM_CTX_STR_X_X0 (x s : Nat) : Field := ⟨0xa1080 + 0x400 * x + 0x10 * s, 0, 15, 0⟩
def CAM_CTX_STR_X_X1 (x s : Nat) : Field := ⟨0xa1080 + 0x400 * x + 0x10 * s, 16, 15, 0⟩
def CAM_CTX_STR_Y_Y0 (x s : Nat) : Field := ⟨0xa1084 + 0x400 * x + 0x10 * s, 0, 15, 0⟩
def CAM_CTX_STR_Y_Y1 (x s : Nat) : Field := ⟨0xa1084 + 0x400 * x + 0x10 * s, 16, 15, 0⟩
def CAM_CTX_STR_CFG_SX (x s : Nat) : Field := ⟨0xa1088 + 0x400 * x + 0x10 * s, 0, 3, 0⟩
def CAM_CTX_STR_CFG_SY (x s : Nat) : Field := ⟨0xa1088 + 0x400 * x + 0x10 * s, 4, 3, 0⟩
def CAM_CTX_STR_CFG_FMT8 (x s : Nat) : Field := ⟨0xa1088 + 0x400 * x + 0x10 * s, 8, 1, 0⟩
def CAM_CTX_STR_CFG_ENABLE (x s : Nat) : Field := ⟨0xa1088 + 0x400 * x + 0x10 * s, 12, 1, 0⟩
def CAM_CTX_PARAMSET_ID (x : Nat) : Field := ⟨0xa1100 + 0x400 * x, 0, 16, 0⟩
def CAM_CTX_BLACK_BLACK (x : Nat) : Field := ⟨0xa1104 + 0x400 * x, 0, 16, 0⟩
def CAM_CTX_REMAP_X0_X0 (x : Nat) : Field := ⟨0xa1108 + 0x400 * x, 0, 32, 0⟩
def CAM_CTX_REMAP_STEP_STEP (x : Nat) : Field := ⟨0xa110c + 0x400 * x, 0, 32, 0⟩
def CAM_CTX_REMAP_CURV_CURV (x : Nat) : Field := ⟨0xa1110 + 0x400 * x, 0, 32, 0⟩
def CAM_CTX_HIST_X_HX0 (x : Nat) : Field := ⟨0xa1118 + 0x400 * x, 0, 15, 0⟩
def CAM_CTX_HIST_X_HX1 (x : Nat) : Field := ⟨0xa1118 + 0x400 * x, 16, 15, 0⟩
def CAM_CTX_HIST_Y_HY0 (x : Nat) : Field := ⟨0xa111c + 0x400 * x, 0, 14, 0⟩
def CAM_CTX_HIST_Y_HY1 (x : Nat) : Field := ⟨0xa111c + 0x400 * x, 16, 14, 0⟩
def CAM_CTX_PROF_Y_PY0 (x : Nat) : Field := ⟨0xa1120 + 0x400 * x, 0, 14, 0⟩
def CAM_CTX_PROF_Y_PY1 (x : Nat) : Field := ⟨0xa1120 + 0x400 * x, 16, 14, 0⟩
def CAM_CTX_SKIM_HIST (x : Nat) : Field := ⟨0xa1124 + 0x400 * x, 0, 1, 0⟩
def CAM_CTX_SKIM_WIN (x : Nat) : Field := ⟨0xa1124 + 0x400 * x, 1, 1, 0⟩
def CAM_CTX_SKIM_PROF (x : Nat) : Field := ⟨0xa1124 + 0x400 * x, 2, 1, 0⟩
def CAM_CTX_SKIM_NWIN (x : Nat) : Field := ⟨0xa1124 + 0x400 * x, 16, 5, 0⟩
def CAM_CTX_WIN_X_X0 (x w : Nat) : Field := ⟨0xa1140 + 0x400 * x + 8 * w, 0, 15, 0⟩
def CAM_CTX_WIN_X_X1 (x w : Nat) : Field := ⟨0xa1140 + 0x400 * x + 8 * w, 16, 15, 0⟩
def CAM_CTX_WIN_Y_Y0 (x w : Nat) : Field := ⟨0xa1144 + 0x400 * x + 8 * w, 0, 14, 0⟩
def CAM_CTX_WIN_Y_Y1 (x w : Nat) : Field := ⟨0xa1144 + 0x400 * x + 8 * w, 16, 14, 0⟩
def CAM_CTX_SHADE_K0 (x j : Nat) : Field := ⟨0xa11c0 + 0x400 * x + 4 * j, 0, 16, 0⟩
def CAM_CTX_SHADE_K1 (x j : Nat) : Field := ⟨0xa11c0 + 0x400 * x + 4 * j, 16, 16, 0⟩
def CAM_CTX_ACTPARAMSET_ID (x : Nat) : Field := ⟨0xa1200 + 0x400 * x, 0, 16, 0⟩
def CAM_CTX_ACTBLACK_BLACK (x : Nat) : Field := ⟨0xa1204 + 0x400 * x, 0, 16, 0⟩
def CAM_CTX_ACTREMAP_X0_X0 (x : Nat) : Field := ⟨0xa1208 + 0x400 * x, 0, 32, 0⟩
def CAM_CTX_ACTREMAP_STEP_STEP (x : Nat) : Field := ⟨0xa120c + 0x400 * x, 0, 32, 0⟩
def CAM_CTX_ACTREMAP_CURV_CURV (x : Nat) : Field := ⟨0xa1210 + 0x400 * x, 0, 32, 0⟩
def CAM_CTX_ACTHIST_X_HX0 (x : Nat) : Field := ⟨0xa1218 + 0x400 * x, 0, 15, 0⟩
def CAM_CTX_ACTHIST_X_HX1 (x : Nat) : Field := ⟨0xa1218 + 0x400 * x, 16, 15, 0⟩
def CAM_CTX_ACTHIST_Y_HY0 (x : Nat) : Field := ⟨0xa121c + 0x400 * x, 0, 14, 0⟩
def CAM_CTX_ACTHIST_Y_HY1 (x : Nat) : Field := ⟨0xa121c + 0x400 * x, 16, 14, 0⟩
def CAM_CTX_ACTPROF_Y_PY0 (x : Nat) : Field := ⟨0xa1220 + 0x400 * x, 0, 14, 0⟩
def CAM_CTX_ACTPROF_Y_PY1 (x : Nat) : Field := ⟨0xa1220 + 0x400 * x, 16, 14, 0⟩
def CAM_CTX_ACTSKIM_HIST (x : Nat) : Field := ⟨0xa1224 + 0x400 * x, 0, 1, 0⟩
def CAM_CTX_ACTSKIM_WIN (x : Nat) : Field := ⟨0xa1224 + 0x400 * x, 1, 1, 0⟩
def CAM_CTX_ACTSKIM_PROF (x : Nat) : Field := ⟨0xa1224 + 0x400 * x, 2, 1, 0⟩
def CAM_CTX_ACTSKIM_NWIN (x : Nat) : Field := ⟨0xa1224 + 0x400 * x, 16, 5, 0⟩
def CAM_CTX_ACTWIN_X_X0 (x w : Nat) : Field := ⟨0xa1240 + 0x400 * x + 8 * w, 0, 15, 0⟩
def CAM_CTX_ACTWIN_X_X1 (x w : Nat) : Field := ⟨0xa1240 + 0x400 * x + 8 * w, 16, 15, 0⟩
def CAM_CTX_ACTWIN_Y_Y0 (x w : Nat) : Field := ⟨0xa1244 + 0x400 * x + 8 * w, 0, 14, 0⟩
def CAM_CTX_ACTWIN_Y_Y1 (x w : Nat) : Field := ⟨0xa1244 + 0x400 * x + 8 * w, 16, 14, 0⟩
def CAM_CTX_ACTSHADE_K0 (x j : Nat) : Field := ⟨0xa12c0 + 0x400 * x + 4 * j, 0, 16, 0⟩
def CAM_CTX_ACTSHADE_K1 (x j : Nat) : Field := ⟨0xa12c0 + 0x400 * x + 4 * j, 16, 16, 0⟩
def HEL_CTRL_MODE : Field := ⟨0xb0000, 0, 2, 0⟩
def HEL_CTRL_CLOSE : Field := ⟨0xb0000, 4, 1, 0⟩
def HEL_STATUS_STATE : Field := ⟨0xb0004, 0, 2, 0⟩
def HEL_STATUS_FROZEN : Field := ⟨0xb0004, 2, 1, 0⟩
def HEL_STATUS_ARM_WAIT : Field := ⟨0xb0004, 3, 1, 0⟩
def HEL_LAYER_LAYER : Field := ⟨0xb0008, 0, 32, 0⟩
def HEL_CFG_CTX_EN : Field := ⟨0xb000c, 0, 8, 0⟩
def HEL_CFG_MIN_COLS : Field := ⟨0xb000c, 8, 4, 0⟩
def HEL_CFG_REPORT_RING : Field := ⟨0xb000c, 16, 6, 0⟩
def HEL_CFG_REPORT_PORT : Field := ⟨0xb000c, 24, 1, 0⟩
def HEL_WINDOW_MS : Field := ⟨0xb0010, 0, 16, 5000⟩
def HEL_SCORE_CFG_DECAY : Field := ⟨0xb0014, 0, 8, 8⟩
def HEL_SCORE_CFG_EV_MAX : Field := ⟨0xb0014, 8, 8, 64⟩
def HEL_SCORE_CFG_EGAIN : Field := ⟨0xb0014, 16, 9, 256⟩
def HEL_SCORE_CFG_DEADBAND : Field := ⟨0xb0014, 25, 7, 32⟩
def HEL_THRESH_WEAK : Field := ⟨0xb0018, 0, 8, 96⟩
def HEL_THRESH_RETIRE : Field := ⟨0xb0018, 8, 8, 192⟩
def HEL_THRESH_RETURN : Field := ⟨0xb0018, 16, 8, 64⟩
def HEL_THRESH_RETIRE_N : Field := ⟨0xb0018, 24, 3, 3⟩
def HEL_THRESH_RETURN_N : Field := ⟨0xb0018, 28, 3, 3⟩
def HEL_LIMIT_HEAD : Field := ⟨0xb001c, 0, 8, 8⟩
def HEL_LIMIT_TOTAL : Field := ⟨0xb001c, 16, 9, 64⟩
def HEL_LIMIT_GUARD : Field := ⟨0xb001c, 25, 7, 32⟩
def HEL_EMIN_EMIN : Field := ⟨0xb0020, 0, 16, 64⟩
def HEL_WEIGHT0_W0 : Field := ⟨0xb0030, 0, 6, 0⟩
def HEL_WEIGHT0_W1 : Field := ⟨0xb0030, 8, 6, 4⟩
def HEL_WEIGHT0_W2 : Field := ⟨0xb0030, 16, 6, 8⟩
def HEL_WEIGHT0_W3 : Field := ⟨0xb0030, 24, 6, 12⟩
def HEL_WEIGHT1_W0 : Field := ⟨0xb0034, 0, 6, 16⟩
def HEL_WEIGHT1_W1 : Field := ⟨0xb0034, 8, 6, 20⟩
def HEL_WEIGHT1_W2 : Field := ⟨0xb0034, 16, 6, 24⟩
def HEL_WEIGHT1_W3 : Field := ⟨0xb0034, 24, 6, 28⟩
def HEL_WEIGHT2_W0 : Field := ⟨0xb0038, 0, 6, 32⟩
def HEL_WEIGHT2_W1 : Field := ⟨0xb0038, 8, 6, 36⟩
def HEL_WEIGHT2_W2 : Field := ⟨0xb0038, 16, 6, 40⟩
def HEL_WEIGHT2_W3 : Field := ⟨0xb0038, 24, 6, 44⟩
def HEL_WEIGHT3_W0 : Field := ⟨0xb003c, 0, 6, 48⟩
def HEL_WEIGHT3_W1 : Field := ⟨0xb003c, 8, 6, 52⟩
def HEL_WEIGHT3_W2 : Field := ⟨0xb003c, 16, 6, 56⟩
def HEL_WEIGHT3_W3 : Field := ⟨0xb003c, 24, 6, 60⟩
def HEL_VETO_LO_HEADS : Field := ⟨0xb0040, 0, 32, 0⟩
def HEL_VETO_HI_HEADS : Field := ⟨0xb0044, 0, 32, 0⟩
def HEL_EVALS_COUNT : Field := ⟨0xb0050, 0, 32, 0⟩
def HEL_CHANGES_COUNT : Field := ⟨0xb0054, 0, 32, 0⟩
def HEL_DEFERRED_COUNT : Field := ⟨0xb0058, 0, 32, 0⟩
def HEL_UNUSED_COUNT : Field := ⟨0xb005c, 0, 32, 0⟩
def HEL_LAST_CHG_RETIRED : Field := ⟨0xb0060, 0, 10, 0⟩
def HEL_LAST_CHG_WEAKENED : Field := ⟨0xb0060, 10, 10, 0⟩
def HEL_LAST_CHG_RETURNED : Field := ⟨0xb0060, 20, 10, 0⟩
def HEL_LAST_LAYER_LAYER : Field := ⟨0xb0064, 0, 32, 0⟩
def HEL_FROZEN_LO_HEADS : Field := ⟨0xb0068, 0, 32, 0⟩
def HEL_FROZEN_HI_HEADS : Field := ⟨0xb006c, 0, 32, 0⟩
def HEL_PIPE_MODEL_BG (p : Nat) : Field := ⟨0xb0080 + 4 * p, 0, 16, 0⟩
def HEL_PIPE_MODEL_GAIN (p : Nat) : Field := ⟨0xb0080 + 4 * p, 16, 16, 0⟩
def MOT_CTRL_ESTOP : Field := ⟨0xc0000, 0, 1, 0⟩
def MOT_CTRL_ESTOP_CLR : Field := ⟨0xc0000, 1, 1, 0⟩
def MOT_STATUS_MOVING : Field := ⟨0xc0004, 0, 8, 0⟩
def MOT_STATUS_FAULT : Field := ⟨0xc0004, 8, 8, 0⟩
def MOT_STATUS_ESTOP : Field := ⟨0xc0004, 16, 1, 0⟩
def MOT_STATUS_OUTPUT_EN : Field := ⟨0xc0004, 17, 1, 0⟩
def MOT_TRAV_BIND_AXIS : Field := ⟨0xc0008, 0, 3, 0⟩
def MOT_TRAV_BIND_ENABLE : Field := ⟨0xc0008, 4, 1, 0⟩
def MOT_TRAV_SPL_SPL : Field := ⟨0xc000c, 0, 32, 0⟩
def MOT_GOV_CAP_SPS : Field := ⟨0xc0010, 0, 23, 0⟩
def MOT_DRV_CFG_ENABLE (n : Nat) : Field := ⟨0xc0040 + 0x10 * n, 0, 1, 0⟩
def MOT_DRV_CFG_FRAME_US (n : Nat) : Field := ⟨0xc0040 + 0x10 * n, 8, 8, 0⟩
def MOT_DRV_CFG_ERR_N (n : Nat) : Field := ⟨0xc0040 + 0x10 * n, 16, 4, 0⟩
def MOT_DRV_STATUS_SEQ (n : Nat) : Field := ⟨0xc0044 + 0x10 * n, 0, 8, 0⟩
def MOT_DRV_STATUS_RUN (n : Nat) : Field := ⟨0xc0044 + 0x10 * n, 8, 4, 0⟩
def MOT_DRV_STATUS_FAULTED (n : Nat) : Field := ⟨0xc0044 + 0x10 * n, 16, 1, 0⟩
def MOT_DRV_ERR_COUNT (n : Nat) : Field := ⟨0xc0048 + 0x10 * n, 0, 32, 0⟩
def MOT_ENC_CFG_MODE (n : Nat) : Field := ⟨0xc0100 + 0x20 * n, 0, 2, 0⟩
def MOT_ENC_CFG_INVERT (n : Nat) : Field := ⟨0xc0100 + 0x20 * n, 2, 1, 0⟩
def MOT_ENC_CFG_FILT (n : Nat) : Field := ⟨0xc0100 + 0x20 * n, 4, 3, 0⟩
def MOT_ENC_CFG_Z_EN (n : Nat) : Field := ⟨0xc0100 + 0x20 * n, 8, 1, 0⟩
def MOT_ENC_COUNT_COUNT (n : Nat) : Field := ⟨0xc0104 + 0x20 * n, 0, 32, 0⟩
def MOT_ENC_ZLATCH_COUNT (n : Nat) : Field := ⟨0xc0108 + 0x20 * n, 0, 32, 0⟩
def MOT_ENC_ILLEGAL_COUNT (n : Nat) : Field := ⟨0xc010c + 0x20 * n, 0, 32, 0⟩
def MOT_ENC_STATUS_ZVALID (n : Nat) : Field := ⟨0xc0110 + 0x20 * n, 0, 1, 0⟩
def MOT_ENC_STATUS_ILLEGAL (n : Nat) : Field := ⟨0xc0110 + 0x20 * n, 1, 1, 0⟩
def MOT_AX_CFG_OUT (a : Nat) : Field := ⟨0xc1000 + 0x100 * a, 0, 2, 0⟩
def MOT_AX_CFG_LINE (a : Nat) : Field := ⟨0xc1000 + 0x100 * a, 2, 2, 0⟩
def MOT_AX_CFG_SLOT (a : Nat) : Field := ⟨0xc1000 + 0x100 * a, 4, 2, 0⟩
def MOT_AX_CFG_DIR_INV (a : Nat) : Field := ⟨0xc1000 + 0x100 * a, 6, 1, 0⟩
def MOT_AX_CFG_PW (a : Nat) : Field := ⟨0xc1000 + 0x100 * a, 8, 8, 0⟩
def MOT_AX_CFG_DSETUP (a : Nat) : Field := ⟨0xc1000 + 0x100 * a, 16, 8, 0⟩
def MOT_AX_LIMCFG_QUAL (a : Nat) : Field := ⟨0xc1004 + 0x100 * a, 0, 8, 0⟩
def MOT_AX_LIMCFG_LIMP_EN (a : Nat) : Field := ⟨0xc1004 + 0x100 * a, 8, 1, 0⟩
def MOT_AX_LIMCFG_LIMN_EN (a : Nat) : Field := ⟨0xc1004 + 0x100 * a, 9, 1, 0⟩
def MOT_AX_LIMCFG_LIMP_POL (a : Nat) : Field := ⟨0xc1004 + 0x100 * a, 10, 1, 0⟩
def MOT_AX_LIMCFG_LIMN_POL (a : Nat) : Field := ⟨0xc1004 + 0x100 * a, 11, 1, 0⟩
def MOT_AX_LIMCFG_HOME_SRC (a : Nat) : Field := ⟨0xc1004 + 0x100 * a, 12, 1, 0⟩
def MOT_AX_LIMCFG_HOME_POL (a : Nat) : Field := ⟨0xc1004 + 0x100 * a, 13, 1, 0⟩
def MOT_AX_LIMCFG_HOME_GPIO (a : Nat) : Field := ⟨0xc1004 + 0x100 * a, 16, 6, 0⟩
def MOT_AX_LOCKOUT_MS (a : Nat) : Field := ⟨0xc1008 + 0x100 * a, 0, 16, 0⟩
def MOT_AX_HOME_MAX_STEPS (a : Nat) : Field := ⟨0xc100c + 0x100 * a, 0, 32, 0⟩
def MOT_AX_VMAX_VALUE (a : Nat) : Field := ⟨0xc1010 + 0x100 * a, 0, 32, 0⟩
def MOT_AX_AMAX_VALUE (a : Nat) : Field := ⟨0xc1014 + 0x100 * a, 0, 32, 0⟩
def MOT_AX_JMAX_VALUE (a : Nat) : Field := ⟨0xc1018 + 0x100 * a, 0, 32, 0⟩
def MOT_AX_EDEC_VALUE (a : Nat) : Field := ⟨0xc101c + 0x100 * a, 0, 32, 0⟩
def MOT_AX_CUR_RUN (a : Nat) : Field := ⟨0xc1020 + 0x100 * a, 0, 16, 0⟩
def MOT_AX_CUR_HOLD (a : Nat) : Field := ⟨0xc1020 + 0x100 * a, 16, 16, 0⟩
def MOT_AX_LAGMAX_STEPS (a : Nat) : Field := ⟨0xc1024 + 0x100 * a, 0, 32, 0⟩
def MOT_AX_STATUS_MODE (a : Nat) : Field := ⟨0xc1028 + 0x100 * a, 0, 3, 0⟩
def MOT_AX_STATUS_MOVING (a : Nat) : Field := ⟨0xc1028 + 0x100 * a, 3, 1, 0⟩
def MOT_AX_STATUS_FAULT (a : Nat) : Field := ⟨0xc1028 + 0x100 * a, 4, 1, 0⟩
def MOT_AX_STATUS_QUEUED (a : Nat) : Field := ⟨0xc1028 + 0x100 * a, 8, 5, 0⟩
def MOT_AX_STATUS_GEAR_Q (a : Nat) : Field := ⟨0xc1028 + 0x100 * a, 13, 3, 0⟩
def MOT_AX_STATUS_FAULT_CAUSE (a : Nat) : Field := ⟨0xc1028 + 0x100 * a, 16, 4, 0⟩
def MOT_AX_STATUS_LIMP (a : Nat) : Field := ⟨0xc1028 + 0x100 * a, 20, 1, 0⟩
def MOT_AX_STATUS_LIMN (a : Nat) : Field := ⟨0xc1028 + 0x100 * a, 21, 1, 0⟩
def MOT_AX_STATUS_GOVERNED (a : Nat) : Field := ⟨0xc1028 + 0x100 * a, 22, 1, 0⟩
def MOT_AX_STATUS_HOMED (a : Nat) : Field := ⟨0xc1028 + 0x100 * a, 23, 1, 0⟩
def MOT_AX_STATUS_LIMIT_DEFERRED (a : Nat) : Field := ⟨0xc1028 + 0x100 * a, 24, 1, 0⟩
def MOT_AX_POS_POS (a : Nat) : Field := ⟨0xc102c + 0x100 * a, 0, 32, 0⟩
def MOT_AX_VEL_VEL (a : Nat) : Field := ⟨0xc1030 + 0x100 * a, 0, 32, 0⟩
def MOT_AX_LAG_LAG (a : Nat) : Field := ⟨0xc1034 + 0x100 * a, 0, 32, 0⟩
def MOT_AX_HOME_LATCH_POS (a : Nat) : Field := ⟨0xc1038 + 0x100 * a, 0, 32, 0⟩
def MOT_AX_CTRL_CLEAR_FAULT (a : Nat) : Field := ⟨0xc103c + 0x100 * a, 0, 1, 0⟩
def MOT_AX_CTRL_USTEP_SWAP (a : Nat) : Field := ⟨0xc103c + 0x100 * a, 1, 1, 0⟩
def MOT_USTEP_LOW (a w : Nat) : Field := ⟨0xc4000 + 0x400 * a + 4 * w, 0, 16, ustepReset w 0⟩
def MOT_USTEP_HIGH (a w : Nat) : Field := ⟨0xc4000 + 0x400 * a + 4 * w, 16, 16, ustepReset w 1⟩
def LOP_STATUS_RUNNING : Field := ⟨0xd0000, 0, 1, 0⟩
def LOP_STATUS_ENABLED : Field := ⟨0xd0000, 8, 7, 0⟩
def LOP_LOAD_EPS : Field := ⟨0xd0004, 0, 24, 0⟩
def LOP_VFF_CFG_CH : Field := ⟨0xd0008, 0, 5, 0⟩
def LOP_VFF_CFG_ENABLE : Field := ⟨0xd0008, 8, 1, 0⟩
def LOP_VFF_G_G : Field := ⟨0xd000c, 0, 16, 16384⟩
def LOP_VFF_G_VALID : Field := ⟨0xd000c, 16, 1, 0⟩
def LOP_VAR_VALUE (v : Nat) : Field := ⟨0xd0040 + 4 * v, 0, 32, 0⟩
def LOP_VFF_TAB_G (k : Nat) : Field := ⟨0xd0100 + 4 * k, 0, 16, 0⟩
def LOP_LS_SRC_MEAS_KIND (s : Nat) : Field := ⟨0xd1000 + 0x80 * s, 0, 3, 0⟩
def LOP_LS_SRC_MEAS_SEL (s : Nat) : Field := ⟨0xd1000 + 0x80 * s, 4, 6, 0⟩
def LOP_LS_SRC_MEAS_ITEM (s : Nat) : Field := ⟨0xd1000 + 0x80 * s, 12, 4, 0⟩
def LOP_LS_SRC_FF_KIND (s : Nat) : Field := ⟨0xd1000 + 0x80 * s, 16, 3, 0⟩
def LOP_LS_SRC_FF_SEL (s : Nat) : Field := ⟨0xd1000 + 0x80 * s, 20, 6, 0⟩
def LOP_LS_SRC_FF_ITEM (s : Nat) : Field := ⟨0xd1000 + 0x80 * s, 28, 4, 0⟩
def LOP_LS_DEST_KIND (s : Nat) : Field := ⟨0xd1004 + 0x80 * s, 0, 2, 0⟩
def LOP_LS_DEST_SEL (s : Nat) : Field := ⟨0xd1004 + 0x80 * s, 2, 6, 0⟩
def LOP_LS_DEST_G0 (s : Nat) : Field := ⟨0xd1004 + 0x80 * s, 16, 8, 0⟩
def LOP_LS_DEST_G1 (s : Nat) : Field := ⟨0xd1004 + 0x80 * s, 24, 8, 0⟩
def LOP_LS_SCHED_DIV (s : Nat) : Field := ⟨0xd1008 + 0x80 * s, 0, 16, 0⟩
def LOP_LS_SCHED_PHASE (s : Nat) : Field := ⟨0xd1008 + 0x80 * s, 16, 16, 0⟩
def LOP_LS_GRP_GROUP (s : Nat) : Field := ⟨0xd100c + 0x80 * s, 0, 3, 0⟩
def LOP_LS_GRP_GRP_EN (s : Nat) : Field := ⟨0xd100c + 0x80 * s, 3, 1, 0⟩
def LOP_LS_GRP_VFF_EN (s : Nat) : Field := ⟨0xd100c + 0x80 * s, 4, 1, 0⟩
def LOP_LS_GRP_START (s : Nat) : Field := ⟨0xd100c + 0x80 * s, 5, 1, 0⟩
def LOP_LS_SP_VALUE (s : Nat) : Field := ⟨0xd1010 + 0x80 * s, 0, 32, 0⟩
def LOP_LS_SP_TGT_VALUE (s : Nat) : Field := ⟨0xd1014 + 0x80 * s, 0, 32, 0⟩
def LOP_LS_KP_VALUE (s : Nat) : Field := ⟨0xd1018 + 0x80 * s, 0, 32, 0⟩
def LOP_LS_KI_VALUE (s : Nat) : Field := ⟨0xd101c + 0x80 * s, 0, 32, 0⟩
def LOP_LS_KD_VALUE (s : Nat) : Field := ⟨0xd1020 + 0x80 * s, 0, 32, 0⟩
def LOP_LS_KF_VALUE (s : Nat) : Field := ⟨0xd1024 + 0x80 * s, 0, 32, 0⟩
def LOP_LS_KT_VALUE (s : Nat) : Field := ⟨0xd1028 + 0x80 * s, 0, 32, 0⟩
def LOP_LS_SHIFT_SP (s : Nat) : Field := ⟨0xd102c + 0x80 * s, 0, 5, 0⟩
def LOP_LS_SHIFT_SI (s : Nat) : Field := ⟨0xd102c + 0x80 * s, 5, 5, 0⟩
def LOP_LS_SHIFT_SD (s : Nat) : Field := ⟨0xd102c + 0x80 * s, 10, 5, 0⟩
def LOP_LS_SHIFT_SF (s : Nat) : Field := ⟨0xd102c + 0x80 * s, 15, 5, 0⟩
def LOP_LS_SHIFT_ST (s : Nat) : Field := ⟨0xd102c + 0x80 * s, 20, 5, 0⟩
def LOP_LS_OUTMIN_VALUE (s : Nat) : Field := ⟨0xd1030 + 0x80 * s, 0, 32, 0⟩
def LOP_LS_OUTMAX_VALUE (s : Nat) : Field := ⟨0xd1034 + 0x80 * s, 0, 32, 0⟩
def LOP_LS_SLEW_VALUE (s : Nat) : Field := ⟨0xd1038 + 0x80 * s, 0, 32, 0⟩
def LOP_LS_SAFE_VALUE (s : Nat) : Field := ⟨0xd103c + 0x80 * s, 0, 32, 0⟩
def LOP_LS_RAMP_VALUE (s : Nat) : Field := ⟨0xd1040 + 0x80 * s, 0, 32, 0⟩
def LOP_LS_ALARM_ERR_ERR (s : Nat) : Field := ⟨0xd1044 + 0x80 * s, 0, 32, 0⟩
def LOP_LS_ALARM_MS_MS (s : Nat) : Field := ⟨0xd1048 + 0x80 * s, 0, 16, 0⟩
def LOP_LS_STATUS_ENABLED (s : Nat) : Field := ⟨0xd104c + 0x80 * s, 0, 1, 0⟩
def LOP_LS_STATUS_MANUAL (s : Nat) : Field := ⟨0xd104c + 0x80 * s, 1, 1, 0⟩
def LOP_LS_STATUS_SRC_INVALID (s : Nat) : Field := ⟨0xd104c + 0x80 * s, 2, 1, 0⟩
def LOP_LS_STATUS_WINNING (s : Nat) : Field := ⟨0xd104c + 0x80 * s, 3, 1, 0⟩
def LOP_LS_STATUS_ALARM (s : Nat) : Field := ⟨0xd104c + 0x80 * s, 4, 1, 0⟩
def LOP_LS_STATUS_AT_CLAMP (s : Nat) : Field := ⟨0xd104c + 0x80 * s, 5, 1, 0⟩
def LOP_LS_OUT_VALUE (s : Nat) : Field := ⟨0xd1050 + 0x80 * s, 0, 32, 0⟩
def LOP_LS_INTEG_VALUE (s : Nat) : Field := ⟨0xd1054 + 0x80 * s, 0, 32, 0⟩
def LOP_LS_MEAS_VALUE (s : Nat) : Field := ⟨0xd1058 + 0x80 * s, 0, 32, 0⟩
def LOP_LS_EVALS_COUNT (s : Nat) : Field := ⟨0xd105c + 0x80 * s, 0, 32, 0⟩
def IOX_ADC_SEQ_CFG_LEN (c : Nat) : Field := ⟨0xe0000 + 0x10 * c, 0, 4, 0⟩
def IOX_ADC_SEQ_CFG_ENABLE (c : Nat) : Field := ⟨0xe0000 + 0x10 * c, 8, 1, 0⟩
def IOX_ADC_SEQ_LO_ENTRIES (c : Nat) : Field := ⟨0xe0004 + 0x10 * c, 0, 32, 0⟩
def IOX_ADC_SEQ_HI_ENTRIES (c : Nat) : Field := ⟨0xe0008 + 0x10 * c, 0, 32, 0⟩
def IOX_AIN_RES_CODE (c : Nat) : Field := ⟨0xe0100 + 8 * c, 0, 16, 0⟩
def IOX_AIN_RES_VALID (c : Nat) : Field := ⟨0xe0100 + 8 * c, 16, 1, 0⟩
def IOX_AIN_RES_SEQ (c : Nat) : Field := ⟨0xe0100 + 8 * c, 24, 8, 0⟩
def IOX_AIN_WIN_LO (c : Nat) : Field := ⟨0xe0104 + 8 * c, 0, 16, 0⟩
def IOX_AIN_WIN_HI (c : Nat) : Field := ⟨0xe0104 + 8 * c, 16, 16, 0⟩
def IOX_PWM_CFG_PERIOD (c : Nat) : Field := ⟨0xe1000 + 0x10 * c, 0, 24, 0⟩
def IOX_PWM_CFG_ENABLE (c : Nat) : Field := ⟨0xe1000 + 0x10 * c, 24, 1, 0⟩
def IOX_PWM_CFG_POL (c : Nat) : Field := ⟨0xe1000 + 0x10 * c, 25, 1, 0⟩
def IOX_PWM_DUTY_TICKS (c : Nat) : Field := ⟨0xe1004 + 0x10 * c, 0, 24, 0⟩
def IOX_PWM_PHASE_TICKS (c : Nat) : Field := ⟨0xe1008 + 0x10 * c, 0, 24, 0⟩
def IOX_PWM_NOW_TICKS (c : Nat) : Field := ⟨0xe100c + 0x10 * c, 0, 24, 0⟩
def IOX_GPIO_IN_BITS (i : Nat) : Field := ⟨0xe2000 + 4 * i, 0, 32, 0⟩
def IOX_GPIO_OUT_BITS (i : Nat) : Field := ⟨0xe2008 + 4 * i, 0, 32, 0⟩
def IOX_GPIO_SET_BITS (i : Nat) : Field := ⟨0xe2010 + 4 * i, 0, 32, 0⟩
def IOX_GPIO_CLR_BITS (i : Nat) : Field := ⟨0xe2018 + 4 * i, 0, 32, 0⟩
def IOX_GPIO_DIR_BITS (i : Nat) : Field := ⟨0xe2020 + 4 * i, 0, 32, 0⟩
def IOX_GPIO_OWNED_BITS (i : Nat) : Field := ⟨0xe2028 + 4 * i, 0, 32, 0⟩
def IOX_GPIO_CLAIMED_BITS (i : Nat) : Field := ⟨0xe2030 + 4 * i, 0, 32, 0⟩
def DRC_CFG_RATE : Field := ⟨0xf0000, 0, 2, 0⟩
def DRC_CFG_RANKS : Field := ⟨0xf0000, 4, 2, 0⟩
def DRC_CFG_DENSITY : Field := ⟨0xf0000, 8, 1, 0⟩
def DRC_CFG_SPARE_EN : Field := ⟨0xf0000, 12, 1, 0⟩
def DRC_CFG_SPARE_RANK : Field := ⟨0xf0000, 16, 2, 0⟩
def DRC_STATUS_TRAINED : Field := ⟨0xf0004, 0, 1, 0⟩
def DRC_STATUS_DRAM_OK : Field := ⟨0xf0004, 1, 1, 0⟩
def DRC_STATUS_INIT_DONE : Field := ⟨0xf0004, 2, 1, 0⟩
def DRC_STATUS_MIGRATING : Field := ⟨0xf0004, 3, 1, 0⟩
def DRC_CAPACITY_MIB : Field := ⟨0xf0008, 0, 20, 0⟩
def DRC_BAND_CFG_NB : Field := ⟨0xf000c, 0, 6, 0⟩
def DRC_TRAIN_CFG_MIN_EYE : Field := ⟨0xf0010, 0, 7, 20⟩
def DRC_RETRAIN_INTERVAL_MS : Field := ⟨0xf0014, 0, 16, 100⟩
def DRC_PAGE_CFG_IDLE : Field := ⟨0xf0018, 0, 10, 64⟩
def DRC_REF_CFG_POLL_MS : Field := ⟨0xf001c, 0, 8, 16⟩
def DRC_REF_CFG_PULL_IN : Field := ⟨0xf001c, 8, 1, 1⟩
def DRC_ECC_CFG_CE_THR : Field := ⟨0xf0020, 0, 8, 16⟩
def DRC_ECC_CFG_LEAK_MS : Field := ⟨0xf0020, 8, 8, 10⟩
def DRC_ECC_CFG_PRE_SPARE : Field := ⟨0xf0020, 16, 1, 1⟩
def DRC_SCRUB_HOURS : Field := ⟨0xf0024, 0, 8, 24⟩
def DRC_SPARE_CFG_COPY_PCT : Field := ⟨0xf0028, 0, 6, 10⟩
def DRC_SPARE_CTRL_START : Field := ⟨0xf002c, 0, 1, 0⟩
def DRC_SPARE_CTRL_CHANNEL : Field := ⟨0xf002c, 4, 1, 0⟩
def DRC_SPARE_CTRL_RANK : Field := ⟨0xf002c, 8, 2, 0⟩
def DRC_SPARE_STATUS_PERMILLE : Field := ⟨0xf0030, 0, 10, 0⟩
def DRC_SPARE_STATUS_CHANNEL : Field := ⟨0xf0030, 12, 1, 0⟩
def DRC_SPARE_STATUS_RANK : Field := ⟨0xf0030, 16, 2, 0⟩
def DRC_SPARE_STATUS_USED : Field := ⟨0xf0030, 18, 2, 0⟩
def DRC_CE_COUNT_COUNT : Field := ⟨0xf0034, 0, 32, 0⟩
def DRC_UE_COUNT_COUNT : Field := ⟨0xf0038, 0, 32, 0⟩
def DRC_POISON_COUNT_COUNT : Field := ⟨0xf003c, 0, 32, 0⟩
def DRC_ERR_ADDR_LO_ADDR : Field := ⟨0xf0040, 0, 32, 0⟩
def DRC_ERR_ADDR_HI_ADDR : Field := ⟨0xf0044, 0, 32, 0⟩
def DRC_ERR_INFO_VALID : Field := ⟨0xf0048, 0, 1, 0⟩
def DRC_ERR_INFO_DEV_A : Field := ⟨0xf0048, 1, 5, 0⟩
def DRC_ERR_INFO_DEV_B : Field := ⟨0xf0048, 6, 5, 0⟩
def DRC_ERR_INFO_LRANK : Field := ⟨0xf0048, 12, 2, 0⟩
def DRC_ERR_INFO_READER : Field := ⟨0xf0048, 16, 3, 0⟩
def DRC_RANK_STATUS_STATE (cr : Nat) : Field := ⟨0xf0100 + 0x10 * cr, 0, 3, 0⟩
def DRC_RANK_STATUS_LRANK (cr : Nat) : Field := ⟨0xf0100 + 0x10 * cr, 4, 2, 0⟩
def DRC_RANK_STATUS_DOUBLED (cr : Nat) : Field := ⟨0xf0100 + 0x10 * cr, 6, 1, 0⟩
def DRC_RANK_STATUS_EYE (cr : Nat) : Field := ⟨0xf0100 + 0x10 * cr, 8, 7, 0⟩
def DRC_RANK_STATUS_BUCKET (cr : Nat) : Field := ⟨0xf0100 + 0x10 * cr, 16, 8, 0⟩
def DRC_RANK_STATUS_OWED (cr : Nat) : Field := ⟨0xf0100 + 0x10 * cr, 24, 4, 0⟩
def TDM_CFG_WDOG_US : Field := ⟨0x200000, 0, 16, 0⟩
def TDM_CFG_HB_TO_US : Field := ⟨0x200000, 16, 16, 0⟩
def TDM_START_WAIT_MS : Field := ⟨0x200004, 0, 16, 0⟩
def TDM_CTRL_TAKE : Field := ⟨0x200008, 0, 1, 0⟩
def TDM_CTRL_RESYNC : Field := ⟨0x200008, 1, 1, 0⟩
def TDM_STATUS_STATE : Field := ⟨0x20000c, 0, 3, 0⟩
def TDM_STATUS_PRI : Field := ⟨0x20000c, 3, 1, 0⟩
def TDM_STATUS_OWNS : Field := ⟨0x20000c, 4, 1, 0⟩
def TDM_STATUS_CLAIM_OUT : Field := ⟨0x20000c, 5, 1, 0⟩
def TDM_STATUS_CLAIM_P_IN : Field := ⟨0x20000c, 6, 1, 0⟩
def TDM_STATUS_CLAIM_S_IN : Field := ⟨0x20000c, 7, 1, 0⟩
def TDM_STATUS_PARTNER_FIT : Field := ⟨0x20000c, 8, 1, 0⟩
def TDM_STATUS_STALE_CAUSE : Field := ⟨0x20000c, 9, 3, 0⟩
def TDM_STATUS_WIDTH : Field := ⟨0x20000c, 12, 3, 0⟩
def TDM_STATUS_LANES_OK : Field := ⟨0x20000c, 15, 5, 0⟩
def TDM_STATUS_SPARE_USED : Field := ⟨0x20000c, 20, 1, 0⟩
def TDM_STATUS_TAKEBACK_REQ : Field := ⟨0x20000c, 21, 1, 0⟩
def TDM_STATUS_STATE_CHG : Field := ⟨0x20000c, 24, 1, 0⟩
def TDM_FIRN_SEQ : Field := ⟨0x200010, 0, 32, 0⟩
def TDM_FIRN_BYTES_BYTES : Field := ⟨0x200014, 0, 24, 0⟩
def TDM_CRC_MATCH_COUNT : Field := ⟨0x200018, 0, 32, 0⟩
def TDM_CRC_MISMATCH_COUNT : Field := ⟨0x20001c, 0, 32, 0⟩
def TDM_TAKEOVERS_COUNT : Field := ⟨0x200020, 0, 32, 0⟩
def TDM_MIRROR_WAIT_ITEMS : Field := ⟨0x200024, 0, 16, 0⟩
def TDM_MIRROR_WAIT_RECORDS : Field := ⟨0x200024, 16, 16, 0⟩
def TDM_REPORT_RING : Field := ⟨0x200028, 0, 6, 0⟩
def TDM_REPORT_PORT : Field := ⟨0x200028, 8, 1, 0⟩
def TDM_REPORT_FIRN_HOST : Field := ⟨0x200028, 9, 1, 0⟩
def TDM_LANE_STATUS_STATE (k : Nat) : Field := ⟨0x200100 + 0x10 * k, 0, 3, 0⟩
def TDM_LANE_STATUS_LAST_CAUSE (k : Nat) : Field := ⟨0x200100 + 0x10 * k, 4, 4, 0⟩
def TDM_LANE_STATUS_CHG (k : Nat) : Field := ⟨0x200100 + 0x10 * k, 8, 1, 0⟩
def TDM_LANE_ERR_COUNT (k : Nat) : Field := ⟨0x200104 + 0x10 * k, 0, 32, 0⟩
def CKP_STATUS_PSTATE : Field := ⟨0x210000, 0, 2, 0⟩
def CKP_STATUS_ENTERING : Field := ⟨0x210000, 2, 1, 0⟩
def CKP_STATUS_PLL_LOCK : Field := ⟨0x210000, 4, 5, 0⟩
def CKP_STATUS_TEMP_WARN : Field := ⟨0x210000, 9, 1, 0⟩
def CKP_STATUS_STATE_CHG : Field := ⟨0x210000, 16, 1, 0⟩
def CKP_STATUS_PLL_UNLOCKED : Field := ⟨0x210000, 17, 1, 0⟩
def CKP_CTRL_SOFT_RESET : Field := ⟨0x210004, 0, 1, 0⟩
def CKP_CTRL_KEY : Field := ⟨0x210004, 8, 8, 0⟩
def CKP_PSTATE_CFG_MAX_STATE : Field := ⟨0x210008, 0, 2, 0⟩
def CKP_PSTATE_CFG_ENTRY_US : Field := ⟨0x210008, 16, 16, 0⟩
def CKP_LTR_A_NS : Field := ⟨0x21000c, 0, 32, 0⟩
def CKP_LTR_B_NS : Field := ⟨0x210010, 0, 32, 0⟩
def CKP_LTR_NOW_NS : Field := ⟨0x210014, 0, 32, 0⟩
def CKP_WAKE_CAUSE : Field := ⟨0x210018, 0, 4, 0⟩
def CKP_WAKE_EXITS : Field := ⟨0x210018, 16, 16, 0⟩
def CKP_RESET_CAUSE_CAUSE : Field := ⟨0x21001c, 0, 4, 1⟩
def CKP_RESET_CAUSE_COUNT : Field := ⟨0x21001c, 8, 8, 0⟩
def CKP_SEQ_CFG_PG_TO_MS : Field := ⟨0x210020, 0, 8, 0⟩
def CKP_SEQ_CFG_DWELL_US : Field := ⟨0x210020, 8, 12, 0⟩
def CKP_RAIL_STATUS_EN : Field := ⟨0x210024, 0, 6, 0⟩
def CKP_RAIL_STATUS_PG : Field := ⟨0x210024, 8, 6, 0⟩
def CKP_RAIL_STATUS_FAIL_STEP : Field := ⟨0x210024, 16, 3, 0⟩
def CKP_RAIL_STATUS_FAILS : Field := ⟨0x210024, 20, 2, 0⟩
def CKP_RAIL_STATUS_LOCKOUT : Field := ⟨0x210024, 22, 1, 0⟩
def CKP_TEMP_TJ : Field := ⟨0x210028, 0, 16, 0⟩
def CKP_TEMP_MAX : Field := ⟨0x210028, 16, 16, 0⟩
def CKP_THERM_CFG_WARN_C : Field := ⟨0x21002c, 0, 8, 90⟩
def CKP_XING_MERGED_MERGED : Field := ⟨0x210030, 0, 25, 0⟩
def CKP_XING_QUAR_QUAR : Field := ⟨0x210034, 0, 25, 0⟩
def CKP_XING_FLUSHED_COUNT : Field := ⟨0x210038, 0, 32, 0⟩
def CKP_XING_LAST_XING : Field := ⟨0x21003c, 0, 5, 0⟩
def CKP_XING_LAST_INSTANCE : Field := ⟨0x21003c, 8, 6, 0⟩
def CKP_XING_LAST_ENTRIES : Field := ⟨0x21003c, 16, 16, 0⟩
def CFG_CTRL_COMMIT : Field := ⟨0x220000, 0, 1, 0⟩
def CFG_CTRL_FLASH_WRITE : Field := ⟨0x220000, 1, 1, 0⟩
def CFG_CTRL_LEDGER_ERASE : Field := ⟨0x220000, 2, 1, 0⟩
def CFG_CTRL_KEY : Field := ⟨0x220000, 8, 8, 0⟩
def CFG_STATUS_READY : Field := ⟨0x220004, 0, 1, 0⟩
def CFG_STATUS_COMMITTED : Field := ⟨0x220004, 1, 1, 0⟩
def CFG_STATUS_BUSY : Field := ⟨0x220004, 2, 1, 0⟩
def CFG_STATUS_FLASH_BUSY : Field := ⟨0x220004, 3, 1, 0⟩
def CFG_STATUS_DEFAULTS : Field := ⟨0x220004, 4, 1, 0⟩
def CFG_STATUS_SLOT : Field := ⟨0x220004, 5, 2, 0⟩
def CFG_STATUS_AUTO : Field := ⟨0x220004, 7, 1, 0⟩
def CFG_SLOT_A_SEQ_SEQ : Field := ⟨0x220008, 0, 32, 0⟩
def CFG_SLOT_B_SEQ_SEQ : Field := ⟨0x22000c, 0, 32, 0⟩
def CFG_SLOT_CAUSE_A : Field := ⟨0x220010, 0, 4, 0⟩
def CFG_SLOT_CAUSE_B : Field := ⟨0x220010, 4, 4, 0⟩
def CFG_COMMIT_RESULT_REASON : Field := ⟨0x220014, 0, 4, 0⟩
def CFG_COMMIT_RESULT_BY_PORT : Field := ⟨0x220014, 8, 1, 0⟩
def CFG_COMMIT_RESULT_LOADER : Field := ⟨0x220014, 9, 1, 0⟩
def CFG_COMMIT_FEATURES_FEATURE_A : Field := ⟨0x220018, 0, 16, 0⟩
def CFG_COMMIT_FEATURES_FEATURE_B : Field := ⟨0x220018, 16, 16, 0⟩
def CFG_COMMIT_RESOURCE_RESOURCE : Field := ⟨0x22001c, 0, 32, 0⟩
def CFG_COMMIT_OFFSET_OFFSET : Field := ⟨0x220020, 0, 24, 0⟩
def CFG_DIGEST_BYTES (k : Nat) : Field := ⟨0x220030 + 4 * k, 0, 32, 0⟩
def CFG_SUBSYS_SVID : Field := ⟨0x220050, 0, 16, 0⟩
def CFG_SUBSYS_SSID : Field := ⟨0x220050, 16, 16, 0⟩
def CFG_FLASH_STATUS_RESULT : Field := ⟨0x220054, 0, 4, 0⟩
def CFG_FLASH_STATUS_SLOT : Field := ⟨0x220054, 4, 1, 0⟩
def CFG_FLASH_STATUS_SECTORS : Field := ⟨0x220054, 8, 8, 0⟩
def CFG_LEDGER_DEGRADED : Field := ⟨0x220058, 0, 16, 0⟩
def CFG_LEDGER_TORN : Field := ⟨0x220058, 16, 16, 0⟩
def CFG_START_TIME_US : Field := ⟨0x22005c, 0, 16, 0⟩
def CFG_IMAGE_DATA (i : Nat) : Field := ⟨0x224000 + 4 * i, 0, 32, 0⟩
def PHY_REF_CTRL_CLOCKING : Field := ⟨0x230000, 0, 1, 0⟩
def PHY_REF_CTRL_HREFCLK_EN : Field := ⟨0x230000, 1, 1, 0⟩
def PHY_REF_CTRL_SPREAD : Field := ⟨0x230000, 2, 1, 0⟩
def PHY_REF_STATUS_PLL_LOCK : Field := ⟨0x230004, 0, 1, 0⟩
def PHY_REF_STATUS_UNLOCKED : Field := ⟨0x230004, 1, 1, 0⟩
def PHY_LANE_CTRL_TX_INV (n : Nat) : Field := ⟨0x231000 + 0x40 * n, 0, 1, 0⟩
def PHY_LANE_CTRL_RX_INV (n : Nat) : Field := ⟨0x231000 + 0x40 * n, 1, 1, 0⟩
def PHY_LANE_CTRL_LOOP (n : Nat) : Field := ⟨0x231000 + 0x40 * n, 4, 2, 0⟩
def PHY_LANE_CTRL_PRBS (n : Nat) : Field := ⟨0x231000 + 0x40 * n, 8, 2, 0⟩
def PHY_LANE_TXEQ_SWING (n : Nat) : Field := ⟨0x231004 + 0x40 * n, 0, 4, 0⟩
def PHY_LANE_TXEQ_DEEMPH (n : Nat) : Field := ⟨0x231004 + 0x40 * n, 4, 4, 0⟩
def PHY_LANE_RXEQ_CTLE (n : Nat) : Field := ⟨0x231008 + 0x40 * n, 0, 5, 0⟩
def PHY_LANE_RXEQ_ADAPT (n : Nat) : Field := ⟨0x231008 + 0x40 * n, 8, 1, 0⟩
def PHY_LANE_PRBS_ERR_COUNT (n : Nat) : Field := ⟨0x23100c + 0x40 * n, 0, 32, 0⟩
def PHY_LANE_PRBS_STATUS_SYNC (n : Nat) : Field := ⟨0x231010 + 0x40 * n, 0, 1, 0⟩
def CAM_MAP_ENTRY (p i : Nat) : Field := ⟨0x250000 + 0x10000 * p + 4 * i, 0, 32, 0⟩

end Reg

/-- Register rows of block GLB, part 0 (R42). -/
def rowsGLB0 : List RegRow :=
  [
   -- GLB.ID
   ⟨0, [], [⟨0, 16, .ro, 7770, false, 0, 0xffff⟩, ⟨16, 16, .ro, 406, false, 0, 0xffff⟩]⟩,
   -- GLB.REV
   ⟨4, [], [⟨0, 8, .ro, 176, false, 0, 0xff⟩, ⟨8, 4, .ro, 1, false, 0, 0xf⟩, ⟨16, 1, .ro, 0, false, 0, 1⟩]⟩,
   -- GLB.STRAPS
   ⟨8, [], [⟨0, 1, .ro, 0, false, 0, 1⟩, ⟨1, 1, .ro, 0, false, 0, 1⟩, ⟨2, 1, .ro, 0, false, 0, 1⟩]⟩,
   -- GLB.NODE
   ⟨0xc, [], [⟨0, 13, .rwl, 0, true, 0, 0x1fff⟩]⟩,
   -- GLB.SEMnn
   ⟨0x100, [(4, 32)], [⟨0, 2, .rw, 0, false, 0, 3⟩]⟩ ]

/-- Register rows of block HIF, part 0 (R42). -/
def rowsHIF0 : List RegRow :=
  [
   -- HIF.ACC_ERR_ADDR
   ⟨0x10000, [], [⟨0, 24, .ro, 0, false, 0, 0xffffff⟩]⟩,
   -- HIF.ACC_ERR_INFO
   ⟨0x10004, [], [⟨0, 1, .w1c, 0, false, 0, 1⟩, ⟨1, 1, .ro, 0, false, 0, 1⟩, ⟨2, 1, .ro, 0, false, 0, 1⟩, ⟨3, 1, .ro, 0, false, 0, 1⟩, ⟨4, 4, .ro, 0, false, 0, 0xf⟩, ⟨8, 1, .ro, 0, false, 0, 1⟩, ⟨16, 16, .rc, 0, false, 0, 0xffff⟩]⟩,
   -- HIF.BLOCK_AREA
   ⟨0x10008, [], [⟨0, 16, .rwl, 0, true, 0, 0xffff⟩]⟩,
   -- HIF.STATE_AREA
   ⟨0x1000c, [], [⟨0, 13, .rwl, 0, true, 0, 0x1fff⟩]⟩,
   -- HIF.Pp_STATUS
   ⟨0x10100, [(0x100, 2)], [⟨0, 3, .ro, 0, false, 0, 7⟩, ⟨4, 3, .ro, 0, false, 0, 7⟩, ⟨8, 1, .ro, 0, false, 0, 1⟩, ⟨9, 1, .ro, 0, false, 0, 1⟩, ⟨16, 1, .w1c, 0, false, 0, 1⟩, ⟨24, 8, .ro, 0, false, 0, 0xff⟩]⟩,
   -- HIF.Pp_RINGn_BASE_LO
   ⟨0x11000, [(0x1000, 2), (0x40, 64)], [⟨0, 32, .rw, 0, false, 0, 0xffffffff⟩]⟩,
   -- HIF.Pp_RINGn_BASE_HI
   ⟨0x11004, [(0x1000, 2), (0x40, 64)], [⟨0, 32, .rw, 0, false, 0, 0xffffffff⟩]⟩,
   -- HIF.Pp_RINGn_CI_LO
   ⟨0x11008, [(0x1000, 2), (0x40, 64)], [⟨0, 32, .rw, 0, false, 0, 0xffffffff⟩]⟩,
   -- HIF.Pp_RINGn_CI_HI
   ⟨0x1100c, [(0x1000, 2), (0x40, 64)], [⟨0, 32, .rw, 0, false, 0, 0xffffffff⟩]⟩,
   -- HIF.Pp_RINGn_CFG
   ⟨0x11010, [(0x1000, 2), (0x40, 64)], [⟨0, 3, .rw, 0, false, 0, 7⟩, ⟨8, 4, .rw, 0, false, 0, 0xf⟩, ⟨16, 6, .rw, 0, false, 0, 0x3f⟩, ⟨31, 1, .rw, 0, false, 0, 1⟩]⟩,
   -- HIF.Pp_RINGn_CTRL
   ⟨0x11014, [(0x1000, 2), (0x40, 64)], [⟨0, 1, .wo, 0, false, 0, 1⟩, ⟨1, 1, .wo, 0, false, 0, 1⟩, ⟨2, 1, .wo, 0, false, 0, 1⟩]⟩,
   -- HIF.Pp_RINGn_STATUS
   ⟨0x11018, [(0x1000, 2), (0x40, 64)], [⟨0, 16, .ro, 0, false, 0, 0xffff⟩, ⟨16, 2, .ro, 0, false, 0, 3⟩, ⟨20, 12, .ro, 0, false, 0, 0xfff⟩]⟩,
   -- HIF.Pp_RINGn_FAULT
   ⟨0x1101c, [(0x1000, 2), (0x40, 64)], [⟨0, 16, .ro, 0, false, 0, 0xffff⟩, ⟨16, 16, .ro, 0, false, 0, 0xffff⟩]⟩,
   -- HIF.Pp_RINGn_IRQ
   ⟨0x11020, [(0x1000, 2), (0x40, 64)], [⟨0, 10, .rw, 0, false, 0, 0x3ff⟩, ⟨16, 8, .rw, 0, false, 0, 0xff⟩]⟩,
   -- HIF.Pp_RINGn_DROP
   ⟨0x11024, [(0x1000, 2), (0x40, 64)], [⟨0, 32, .rc, 0, false, 0, 0xffffffff⟩]⟩ ]

/-- Register rows of block EVT, part 0 (R42). -/
def rowsEVT0 : List RegRow :=
  [
   -- EVT.SEQ
   ⟨0x20000, [], [⟨0, 32, .ro, 0, false, 0, 0xffffffff⟩]⟩,
   -- EVT.LAST
   ⟨0x20004, [], [⟨0, 8, .ro, 0, false, 0, 0xff⟩, ⟨8, 3, .ro, 0, false, 0, 7⟩, ⟨16, 8, .ro, 0, false, 0, 0xff⟩]⟩,
   -- EVT.PENDING
   ⟨0x20008, [], [⟨0, 9, .ro, 0, false, 0, 0x1ff⟩]⟩,
   -- EVT.CLASS_CNTc
   ⟨0x20010, [(4, 5)], [⟨0, 32, .rc, 0, false, 0, 0xffffffff⟩]⟩,
   -- EVT.STATUSk
   ⟨0x20100, [(4, 8)], [⟨0, 32, .w1c, 0, false, 0, 0xffffffff⟩]⟩,
   -- EVT.MASKk
   ⟨0x20200, [(4, 8)], [⟨0, 32, .rw, 0, true, 0, 0xffffffff⟩]⟩,
   -- EVT.PENDk
   ⟨0x20300, [(4, 8)], [⟨0, 32, .ro, 0, false, 0, 0xffffffff⟩]⟩,
   -- EVT.ROUTEn
   ⟨0x21000, [(4, 256)], [⟨0, 6, .rw, 0, true, 0, 0x3f⟩, ⟨8, 1, .rw, 0, true, 0, 1⟩, ⟨9, 1, .rw, 0, true, 0, 1⟩, ⟨16, 6, .rw, 0, true, 0, 0x3f⟩, ⟨24, 1, .rw, 0, true, 0, 1⟩, ⟨29, 3, .ro, 0, false, 0, 7⟩]⟩ ]

/-- Register rows of block ETM, part 0 (R42). -/
def rowsETM0 : List RegRow :=
  [
   -- ETM.ET_LO
   ⟨0x30000, [], [⟨0, 32, .ro, 0, false, 0, 0xffffffff⟩]⟩,
   -- ETM.ET_HI
   ⟨0x30004, [], [⟨0, 32, .ro, 0, false, 0, 0xffffffff⟩]⟩,
   -- ETM.ERA
   ⟨0x30008, [], [⟨0, 16, .rw, 0, false, 0, 0xffff⟩]⟩,
   -- ETM.CTRL
   ⟨0x30010, [], [⟨0, 2, .rw, 0, true, 0, 3⟩, ⟨4, 1, .rwl, 0, true, 0, 1⟩]⟩,
   -- ETM.STATUS
   ⟨0x30014, [], [⟨0, 2, .ro, 0, false, 0, 3⟩, ⟨2, 1, .ro, 0, false, 0, 1⟩, ⟨3, 1, .ro, 0, false, 0, 1⟩, ⟨4, 1, .ro, 0, false, 0, 1⟩, ⟨8, 1, .w1c, 0, false, 0, 1⟩, ⟨9, 1, .w1c, 0, false, 0, 1⟩, ⟨10, 1, .w1c, 0, false, 0, 1⟩, ⟨12, 2, .ro, 0, false, 0, 3⟩]⟩,
   -- ETM.STEP_THR
   ⟨0x30018, [], [⟨0, 20, .rw, 1000, false, 64, 1000000⟩]⟩,
   -- ETM.SLEW_LIM
   ⟨0x3001c, [], [⟨0, 10, .rw, 100, false, 1, 1000⟩]⟩,
   -- ETM.LOCK_THR
   ⟨0x30020, [], [⟨0, 8, .rw, 4, false, 1, 255⟩, ⟨8, 8, .rw, 16, false, 1, 255⟩]⟩,
   -- ETM.OFFSET
   ⟨0x30024, [], [⟨0, 32, .ro, 0, false, 0, 0xffffffff⟩]⟩,
   -- ETM.RATE
   ⟨0x30028, [], [⟨0, 32, .rw, 0, false, 0, 0xffffffff⟩]⟩,
   -- ETM.MEAN_DELAY
   ⟨0x3002c, [], [⟨0, 32, .ro, 0, false, 0, 0xffffffff⟩]⟩,
   -- ETM.SERVO
   ⟨0x30030, [], [⟨0, 5, .rw, 2, false, 0, 0x1f⟩, ⟨8, 5, .rw, 6, false, 0, 0x1f⟩, ⟨16, 5, .rw, 4, false, 0, 0x1f⟩]⟩,
   -- ETM.SET_LO
   ⟨0x30034, [], [⟨0, 32, .rw, 0, false, 0, 0xffffffff⟩]⟩,
   -- ETM.SET_HI
   ⟨0x30038, [], [⟨0, 32, .rw, 0, false, 0, 0xffffffff⟩]⟩,
   -- ETM.SET_CMD
   ⟨0x3003c, [], [⟨0, 1, .wo, 0, false, 0, 1⟩]⟩,
   -- ETM.PTP_CFG
   ⟨0x30040, [], [⟨0, 8, .rwl, 0, true, 0, 0xff⟩, ⟨8, 1, .rwl, 0, true, 0, 1⟩, ⟨9, 1, .rwl, 0, true, 0, 1⟩, ⟨10, 1, .rwl, 0, true, 0, 1⟩, ⟨12, 4, .rwl, 0, true, 0, 0xf⟩, ⟨16, 4, .rwl, 0, true, 0, 0xf⟩, ⟨20, 4, .rwl, 0, true, 0, 0xf⟩, ⟨24, 4, .rwl, 0, true, 0, 0xf⟩, ⟨28, 4, .rwl, 0, true, 0, 0xf⟩]⟩,
   -- ETM.PTP_PRIO
   ⟨0x30044, [], [⟨0, 8, .rw, 0, true, 0, 0xff⟩, ⟨8, 8, .rw, 0, true, 0, 0xff⟩, ⟨16, 8, .rw, 0, true, 0, 0xff⟩, ⟨24, 8, .rw, 0, true, 0, 0xff⟩]⟩,
   -- ETM.CLKID_LO
   ⟨0x30048, [], [⟨0, 32, .rwl, 0, true, 0, 0xffffffff⟩]⟩,
   -- ETM.CLKID_HI
   ⟨0x3004c, [], [⟨0, 32, .rwl, 0, true, 0, 0xffffffff⟩]⟩,
   -- ETM.PARENT_LO
   ⟨0x30050, [], [⟨0, 32, .ro, 0, false, 0, 0xffffffff⟩]⟩,
   -- ETM.PARENT_HI
   ⟨0x30054, [], [⟨0, 32, .ro, 0, false, 0, 0xffffffff⟩]⟩,
   -- ETM.PARENT_PORT
   ⟨0x30058, [], [⟨0, 16, .ro, 0, false, 0, 0xffff⟩, ⟨16, 1, .ro, 0, false, 0, 1⟩]⟩,
   -- ETM.ENCn_TS_LO
   ⟨0x30080, [(8, 4)], [⟨0, 32, .ro, 0, false, 0, 0xffffffff⟩]⟩,
   -- ETM.ENCn_TS_HI
   ⟨0x30084, [(8, 4)], [⟨0, 32, .ro, 0, false, 0, 0xffffffff⟩]⟩ ]

/-- Register rows of block ETM, part 1 (R42). -/
def rowsETM1 : List RegRow :=
  [
   -- ETM.CAPn_CTRL
   ⟨0x300c0, [(0x10, 4)], [⟨0, 6, .rwl, 0, false, 0, 0x3f⟩, ⟨8, 2, .rw, 0, false, 0, 3⟩, ⟨16, 1, .w1c, 0, false, 0, 1⟩, ⟨17, 1, .ro, 0, false, 0, 1⟩]⟩,
   -- ETM.CAPn_TS_LO
   ⟨0x300c4, [(0x10, 4)], [⟨0, 32, .ro, 0, false, 0, 0xffffffff⟩]⟩,
   -- ETM.CAPn_TS_HI
   ⟨0x300c8, [(0x10, 4)], [⟨0, 32, .ro, 0, false, 0, 0xffffffff⟩]⟩ ]

/-- Register rows of block ENET, part 0 (R42). -/
def rowsENET0 : List RegRow :=
  [
   -- ENET.Pp_CTRL
   ⟨0x40000, [(0x1000, 2)], [⟨0, 2, .rwl, 0, true, 0, 3⟩, ⟨4, 1, .rwl, 0, true, 0, 1⟩, ⟨5, 1, .rw, 0, true, 0, 1⟩]⟩,
   -- ENET.Pp_STATUS
   ⟨0x40004, [(0x1000, 2)], [⟨0, 1, .ro, 0, false, 0, 1⟩, ⟨1, 1, .ro, 0, false, 0, 1⟩, ⟨2, 1, .ro, 0, false, 0, 1⟩, ⟨4, 4, .ro, 0, false, 0, 0xf⟩, ⟨8, 1, .w1c, 0, false, 0, 1⟩]⟩,
   -- ENET.Pp_MAC_LO
   ⟨0x40008, [(0x1000, 2)], [⟨0, 32, .rwl, 0, true, 0, 0xffffffff⟩]⟩,
   -- ENET.Pp_MAC_HI
   ⟨0x4000c, [(0x1000, 2)], [⟨0, 32, .rwl, 0, true, 0, 0xffffffff⟩]⟩,
   -- ENET.Pp_IPV4
   ⟨0x40010, [(0x1000, 2)], [⟨0, 32, .rwl, 0, true, 0, 0xffffffff⟩]⟩,
   -- ENET.Pp_LAT_TX
   ⟨0x40014, [(0x1000, 2)], [⟨0, 24, .ro, 21300, false, 0, 0xffffff⟩]⟩,
   -- ENET.Pp_LAT_RX
   ⟨0x40018, [(0x1000, 2)], [⟨0, 24, .ro, 29800, false, 0, 0xffffff⟩]⟩,
   -- ENET.Pp_ASYM
   ⟨0x4001c, [(0x1000, 2)], [⟨0, 32, .rw, 0, false, 0, 0xffffffff⟩]⟩,
   -- ENET.Pp_DISCARD
   ⟨0x40020, [(0x1000, 2)], [⟨0, 32, .rc, 0, false, 0, 0xffffffff⟩]⟩,
   -- ENET.Pp_PTP_ERR
   ⟨0x40024, [(0x1000, 2)], [⟨0, 32, .rc, 0, false, 0, 0xffffffff⟩]⟩,
   -- ENET.Pp_TS_LOST
   ⟨0x40028, [(0x1000, 2)], [⟨0, 32, .rc, 0, false, 0, 0xffffffff⟩]⟩ ]

/-- Register rows of block CHN, part 0 (R42). -/
def rowsCHN0 : List RegRow :=
  [
   -- CHN.CTRL
   ⟨0x50000, [], [⟨0, 1, .rw, 0, true, 0, 1⟩]⟩,
   -- CHN.STATUS
   ⟨0x50004, [], [⟨0, 8, .ro, 255, false, 0, 0xff⟩, ⟨8, 8, .ro, 0, false, 0, 0xff⟩, ⟨16, 8, .ro, 0, false, 0, 0xff⟩]⟩,
   -- CHN.QUEUE
   ⟨0x50008, [], [⟨0, 16, .ro, 0, false, 0, 0xffff⟩, ⟨16, 16, .ro, 0, false, 0, 0xffff⟩]⟩,
   -- CHN.DEC_BLOCKS
   ⟨0x50010, [], [⟨0, 32, .rc, 0, false, 0, 0xffffffff⟩]⟩,
   -- CHN.DEC_FAIL
   ⟨0x50014, [], [⟨0, 32, .rc, 0, false, 0, 0xffffffff⟩]⟩,
   -- CHN.NO_GAIN
   ⟨0x50018, [], [⟨0, 32, .rc, 0, false, 0, 0xffffffff⟩]⟩,
   -- CHN.HOLDS
   ⟨0x5001c, [], [⟨0, 32, .rc, 0, false, 0, 0xffffffff⟩]⟩,
   -- CHN.FAIL_INFO
   ⟨0x50020, [], [⟨0, 4, .ro, 0, false, 0, 0xf⟩, ⟨4, 3, .ro, 0, false, 0, 7⟩, ⟨8, 6, .ro, 0, false, 0, 0x3f⟩, ⟨16, 1, .w1c, 0, false, 0, 1⟩]⟩,
   -- CHN.FAIL_LAYER
   ⟨0x50024, [], [⟨0, 32, .ro, 0, false, 0, 0xffffffff⟩]⟩,
   -- CHN.FAIL_SLAB
   ⟨0x50028, [], [⟨0, 32, .ro, 0, false, 0, 0xffffffff⟩]⟩,
   -- CHN.FAIL_BITPOS
   ⟨0x5002c, [], [⟨0, 21, .ro, 0, false, 0, 0x1fffff⟩]⟩,
   -- CHN.ENGn_STATE
   ⟨0x50100, [(0x10, 8)], [⟨0, 2, .ro, 0, false, 0, 3⟩, ⟨2, 1, .ro, 0, false, 0, 1⟩, ⟨3, 1, .ro, 0, false, 0, 1⟩, ⟨8, 6, .ro, 0, false, 0, 0x3f⟩]⟩,
   -- CHN.ENGn_DONE
   ⟨0x50104, [(0x10, 8)], [⟨0, 20, .ro, 0, false, 0, 0xfffff⟩]⟩,
   -- CHN.ENGn_SLAB
   ⟨0x50108, [(0x10, 8)], [⟨0, 32, .ro, 0, false, 0, 0xffffffff⟩]⟩ ]

/-- Register rows of block CRN, part 0 (R42). -/
def rowsCRN0 : List RegRow :=
  [
   -- CRN.CTRL
   ⟨0x60000, [], [⟨0, 1, .wo, 0, false, 0, 1⟩]⟩,
   -- CRN.STATUS
   ⟨0x60004, [], [⟨0, 2, .ro, 0, false, 0, 3⟩, ⟨2, 1, .ro, 0, false, 0, 1⟩, ⟨3, 1, .ro, 0, false, 0, 1⟩, ⟨4, 1, .ro, 0, false, 0, 1⟩, ⟨5, 1, .ro, 0, false, 0, 1⟩, ⟨6, 1, .ro, 0, false, 0, 1⟩]⟩,
   -- CRN.LAYER
   ⟨0x60008, [], [⟨0, 32, .ro, 0, false, 0, 0xffffffff⟩]⟩,
   -- CRN.TRAV_CFG
   ⟨0x6000c, [], [⟨0, 2, .rwl, 0, true, 0, 3⟩, ⟨2, 1, .rwl, 0, true, 0, 1⟩]⟩,
   -- CRN.PITCH
   ⟨0x60010, [], [⟨0, 32, .rwl, 0, true, 0, 0xffffffff⟩]⟩,
   -- CRN.ORIGIN
   ⟨0x60014, [], [⟨0, 32, .rw, 0, false, 0, 0xffffffff⟩]⟩,
   -- CRN.BACKLASH
   ⟨0x60018, [], [⟨0, 3, .rw, 2, false, 0, 7⟩]⟩,
   -- CRN.EST_CFG
   ⟨0x6001c, [], [⟨0, 4, .rw, 6, false, 2, 10⟩, ⟨16, 13, .rw, 4096, false, 2048, 4096⟩]⟩,
   -- CRN.VMIN
   ⟨0x60020, [], [⟨0, 16, .rw, 500, false, 1, 0xffff⟩]⟩,
   -- CRN.STOP_T
   ⟨0x60024, [], [⟨0, 16, .rw, 100, false, 1, 0xffff⟩]⟩,
   -- CRN.RETIME_THR
   ⟨0x60028, [], [⟨0, 8, .rw, 2, false, 1, 0xff⟩]⟩,
   -- CRN.LEAD
   ⟨0x6002c, [], [⟨0, 16, .rw, 4000, false, 2000, 0xffff⟩, ⟨16, 16, .rw, 2000, false, 1000, 0xffff⟩]⟩,
   -- CRN.CALVE_TO
   ⟨0x60030, [], [⟨0, 16, .rw, 200, false, 10, 0xffff⟩]⟩,
   -- CRN.PMIN
   ⟨0x60034, [], [⟨0, 24, .ro, 0, false, 0, 0xffffff⟩]⟩,
   -- CRN.GOV_LIMIT
   ⟨0x60038, [], [⟨0, 20, .ro, 0, false, 0, 0xfffff⟩]⟩,
   -- CRN.EST_POS
   ⟨0x6003c, [], [⟨0, 32, .ro, 0, false, 0, 0xffffffff⟩]⟩,
   -- CRN.EST_VEL
   ⟨0x60040, [], [⟨0, 32, .ro, 0, false, 0, 0xffffffff⟩]⟩,
   -- CRN.REPORT
   ⟨0x60044, [], [⟨0, 6, .rw, 0, true, 0, 0x3f⟩, ⟨8, 1, .rw, 0, true, 0, 1⟩]⟩,
   -- CRN.RETIMES
   ⟨0x60050, [], [⟨0, 32, .rc, 0, false, 0, 0xffffffff⟩]⟩,
   -- CRN.CALVES
   ⟨0x60054, [], [⟨0, 32, .rc, 0, false, 0, 0xffffffff⟩]⟩,
   -- CRN.SKIPPED
   ⟨0x60058, [], [⟨0, 32, .rc, 0, false, 0, 0xffffffff⟩]⟩,
   -- CRN.HEADn_OFS
   ⟨0x60100, [(0x10, 48)], [⟨0, 24, .rw, 0, false, 0, 0xffffff⟩]⟩,
   -- CRN.HEADn_HWM
   ⟨0x60104, [(0x10, 48)], [⟨0, 32, .ro, 0, false, 0, 0xffffffff⟩]⟩,
   -- CRN.HEADn_FIRED
   ⟨0x60108, [(0x10, 48)], [⟨0, 32, .ro, 0, false, 0, 0xffffffff⟩]⟩ ]

/-- Register rows of block CRN, part 1 (R42). -/
def rowsCRN1 : List RegRow :=
  [
   -- CRN.HEADn_STATE
   ⟨0x6010c, [(0x10, 48)], [⟨0, 1, .ro, 0, false, 0, 1⟩, ⟨1, 1, .ro, 0, false, 0, 1⟩, ⟨2, 1, .ro, 0, false, 0, 1⟩, ⟨8, 7, .ro, 0, false, 0, 0x7f⟩]⟩,
   -- CRN.NZT_STAGE
   ⟨0x60400, [], [⟨0, 16, .ro, 0, false, 0, 0xffff⟩, ⟨16, 13, .ro, 0, false, 0, 0x1fff⟩]⟩,
   -- CRN.NZT_ECC
   ⟨0x60404, [], [⟨0, 4, .rw, 4, false, 1, 15⟩, ⟨16, 9, .ro, 0, false, 0, 0x1ff⟩]⟩,
   -- CRN.NZT_CE
   ⟨0x60408, [], [⟨0, 32, .rc, 0, false, 0, 0xffffffff⟩]⟩,
   -- CRN.NZT_UE
   ⟨0x6040c, [], [⟨0, 32, .rc, 0, false, 0, 0xffffffff⟩]⟩,
   -- CRN.SUB_COUNT
   ⟨0x60410, [], [⟨0, 15, .ro, 0, false, 0, 0x7fff⟩, ⟨16, 15, .ro, 0, false, 0, 0x7fff⟩]⟩,
   -- CRN.WEAK_MAP_LO
   ⟨0x60418, [], [⟨0, 32, .rw, 1985229328, false, 0, 0xffffffff⟩]⟩,
   -- CRN.WEAK_MAP_HI
   ⟨0x6041c, [], [⟨0, 32, .rw, 4275878552, false, 0, 0xffffffff⟩]⟩,
   -- CRN.MORAINE_CTRL
   ⟨0x60420, [], [⟨0, 1, .wo, 0, false, 0, 1⟩]⟩,
   -- CRN.MORAINE_STATUS
   ⟨0x60424, [], [⟨0, 16, .ro, 0, false, 0, 0xffff⟩, ⟨16, 1, .ro, 0, false, 0, 1⟩, ⟨24, 8, .ro, 0, false, 0, 0xff⟩]⟩,
   -- CRN.MORAINE_SEQ
   ⟨0x60428, [], [⟨0, 32, .ro, 0, false, 0, 0xffffffff⟩]⟩,
   -- CRN.GREYt_LO
   ⟨0x60500, [(8, 16)], [⟨0, 32, .rw, 1985229328, false, 0, 0xffffffff⟩]⟩,
   -- CRN.GREYt_HI
   ⟨0x60504, [(8, 16)], [⟨0, 32, .rw, 4275878552, false, 0, 0xffffffff⟩]⟩,
   -- CRN.NZT_BASEn
   ⟨0x60600, [(4, 48)], [⟨0, 18, .ro, 0, false, 0, 0x3ffff⟩, ⟨18, 9, .ro, 0, false, 0, 0x1ff⟩]⟩,
   -- CRN.SPAREj
   ⟨0x60800, [(4, 256)], [⟨0, 13, .ro, 0, false, 0, 0x1fff⟩, ⟨30, 1, .ro, 0, false, 0, 1⟩, ⟨31, 1, .ro, 0, false, 0, 1⟩]⟩ ]

/-- Register rows of block THL, part 0 (R42). -/
def rowsTHL0 : List RegRow :=
  [
   -- THL.TIME_CFG
   ⟨0x70000, [], [⟨0, 16, .rw, 1000, false, 125, 16000⟩, ⟨16, 5, .rw, 8, false, 1, 31⟩, ⟨24, 3, .rw, 1, false, 0, 7⟩, ⟨27, 5, .rw, 16, false, 4, 31⟩]⟩,
   -- THL.MGMT_TO
   ⟨0x70004, [], [⟨0, 16, .rw, 1000, false, 100, 0xffff⟩]⟩,
   -- THL.ACK_TO
   ⟨0x70008, [], [⟨0, 16, .rw, 100, false, 20, 1000⟩]⟩,
   -- THL.READY_LO
   ⟨0x70010, [], [⟨0, 32, .ro, 0, false, 0, 0xffffffff⟩]⟩,
   -- THL.READY_HI
   ⟨0x70014, [], [⟨0, 32, .ro, 0, false, 0, 0xffffffff⟩]⟩,
   -- THL.LINKED_LO
   ⟨0x70018, [], [⟨0, 32, .ro, 0, false, 0, 0xffffffff⟩]⟩,
   -- THL.LINKED_HI
   ⟨0x7001c, [], [⟨0, 32, .ro, 0, false, 0, 0xffffffff⟩]⟩,
   -- THL.LANEn_CFG
   ⟨0x71000, [(0x100, 48)], [⟨0, 3, .rwl, 0, true, 0, 7⟩, ⟨4, 1, .rwl, 0, true, 0, 1⟩, ⟨5, 1, .rw, 0, true, 0, 1⟩]⟩,
   -- THL.LANEn_STATUS
   ⟨0x71004, [(0x100, 48)], [⟨0, 3, .ro, 0, false, 0, 7⟩, ⟨4, 3, .ro, 0, false, 0, 7⟩, ⟨8, 1, .ro, 0, false, 0, 1⟩, ⟨9, 1, .ro, 0, false, 0, 1⟩, ⟨10, 1, .ro, 0, false, 0, 1⟩, ⟨16, 5, .ro, 0, false, 0, 0x1f⟩, ⟨24, 1, .w1c, 0, false, 0, 1⟩]⟩,
   -- THL.LANEn_ALIGN
   ⟨0x71008, [(0x100, 48)], [⟨0, 1, .wo, 0, false, 0, 1⟩, ⟨1, 1, .wo, 0, false, 0, 1⟩]⟩,
   -- THL.LANEn_ALIGN_STATUS
   ⟨0x7100c, [(0x100, 48)], [⟨0, 1, .ro, 0, false, 0, 1⟩, ⟨1, 1, .ro, 0, false, 0, 1⟩, ⟨4, 4, .ro, 0, false, 0, 0xf⟩, ⟨16, 16, .rc, 0, false, 0, 0xffff⟩]⟩,
   -- THL.LANEn_RTT
   ⟨0x71010, [(0x100, 48)], [⟨0, 32, .ro, 0, false, 0, 0xffffffff⟩]⟩,
   -- THL.LANEn_OFFSET
   ⟨0x71014, [(0x100, 48)], [⟨0, 32, .ro, 0, false, 0, 0xffffffff⟩]⟩,
   -- THL.LANEn_ASYM
   ⟨0x71018, [(0x100, 48)], [⟨0, 32, .rw, 0, false, 0, 0xffffffff⟩]⟩,
   -- THL.LANEn_HRATE
   ⟨0x7101c, [(0x100, 48)], [⟨0, 32, .ro, 0, false, 0, 0xffffffff⟩]⟩,
   -- THL.LANEn_CRC_ERR
   ⟨0x71020, [(0x100, 48)], [⟨0, 32, .rc, 0, false, 0, 0xffffffff⟩]⟩,
   -- THL.LANEn_REPLAYS
   ⟨0x71024, [(0x100, 48)], [⟨0, 32, .rc, 0, false, 0, 0xffffffff⟩]⟩,
   -- THL.LANEn_ABORTS
   ⟨0x71028, [(0x100, 48)], [⟨0, 32, .rc, 0, false, 0, 0xffffffff⟩]⟩,
   -- THL.LANEn_LOSSES
   ⟨0x7102c, [(0x100, 48)], [⟨0, 32, .rc, 0, false, 0, 0xffffffff⟩]⟩,
   -- THL.LANEn_FILL_INS
   ⟨0x71030, [(0x100, 48)], [⟨0, 32, .rc, 0, false, 0, 0xffffffff⟩]⟩,
   -- THL.LANEn_FILL_DEL
   ⟨0x71034, [(0x100, 48)], [⟨0, 32, .rc, 0, false, 0, 0xffffffff⟩]⟩,
   -- THL.LANEn_LSEQ
   ⟨0x71038, [(0x100, 48)], [⟨0, 16, .ro, 0, false, 0, 0xffff⟩, ⟨16, 16, .ro, 0, false, 0, 0xffff⟩]⟩,
   -- THL.LANEn_CAPS
   ⟨0x7103c, [(0x100, 48)], [⟨0, 32, .ro, 0, false, 0, 0xffffffff⟩]⟩ ]

/-- Register rows of block HED, part 0 (R42). -/
def rowsHED0 : List RegRow :=
  [
   -- HED.GATE_CFG
   ⟨0x90000, [], [⟨0, 16, .rw, 0, true, 100, 60000⟩, ⟨16, 1, .rwl, 0, true, 0, 1⟩]⟩,
   -- HED.GATE_CTRL
   ⟨0x90004, [], [⟨0, 1, .rw, 0, false, 0, 1⟩, ⟨1, 1, .wo, 0, false, 0, 1⟩]⟩,
   -- HED.GATE_STATUS
   ⟨0x90008, [], [⟨0, 1, .ro, 0, false, 0, 1⟩, ⟨1, 1, .ro, 0, false, 0, 1⟩, ⟨2, 1, .ro, 0, false, 0, 1⟩, ⟨3, 1, .ro, 0, false, 0, 1⟩, ⟨4, 3, .ro, 0, false, 0, 7⟩, ⟨8, 4, .ro, 0, false, 0, 0xf⟩, ⟨16, 9, .ro, 0, false, 0, 0x1ff⟩]⟩,
   -- HED.GATE_FAULT
   ⟨0x9000c, [], [⟨0, 9, .w1c, 0, false, 0, 0x1ff⟩, ⟨16, 3, .w1c, 0, false, 0, 7⟩]⟩,
   -- HED.GATE_STOP_ET_LO
   ⟨0x90010, [], [⟨0, 32, .ro, 0, false, 0, 0xffffffff⟩]⟩,
   -- HED.GATE_STOP_ET_HI
   ⟨0x90014, [], [⟨0, 32, .ro, 0, false, 0, 0xffffffff⟩]⟩,
   -- HED.GATE_STOPS
   ⟨0x90018, [], [⟨0, 32, .rc, 0, false, 0, 0xffffffff⟩]⟩,
   -- HED.MEAS_CFG
   ⟨0x90020, [], [⟨0, 1, .rw, 0, true, 0, 1⟩, ⟨1, 1, .rw, 0, true, 0, 1⟩]⟩,
   -- HED.MEAS_WIN
   ⟨0x90024, [], [⟨0, 9, .rw, 218, false, 1, 255⟩, ⟨16, 9, .rw, 294, false, 257, 511⟩]⟩,
   -- HED.MEAS_OOR
   ⟨0x90028, [], [⟨0, 32, .rc, 0, false, 0, 0xffffffff⟩]⟩,
   -- HED.MEAS_DONE
   ⟨0x9002c, [], [⟨0, 32, .rc, 0, false, 0, 0xffffffff⟩]⟩,
   -- HED.UP_LO
   ⟨0x90030, [], [⟨0, 32, .ro, 0, false, 0, 0xffffffff⟩]⟩,
   -- HED.UP_HI
   ⟨0x90034, [], [⟨0, 32, .ro, 0, false, 0, 0xffffffff⟩]⟩,
   -- HED.HEADn_CFG
   ⟨0x91000, [(0x40, 48)], [⟨0, 14, .rwl, 0, true, 0, 0x3fff⟩, ⟨16, 1, .rwl, 0, true, 0, 1⟩, ⟨20, 4, .rwl, 0, true, 0, 0xf⟩, ⟨24, 2, .rw, 0, true, 0, 3⟩, ⟨28, 1, .rw, 0, true, 0, 1⟩]⟩,
   -- HED.HEADn_CTRL
   ⟨0x91004, [(0x40, 48)], [⟨0, 1, .wo, 0, false, 0, 1⟩, ⟨1, 1, .wo, 0, false, 0, 1⟩]⟩,
   -- HED.HEADn_STATUS
   ⟨0x91008, [(0x40, 48)], [⟨0, 3, .ro, 0, false, 0, 7⟩, ⟨4, 4, .ro, 0, false, 0, 0xf⟩, ⟨8, 1, .ro, 0, false, 0, 1⟩, ⟨12, 2, .ro, 0, false, 0, 3⟩, ⟨16, 8, .ro, 0, false, 0, 0xff⟩, ⟨24, 1, .w1c, 0, false, 0, 1⟩]⟩,
   -- HED.HEADn_ID
   ⟨0x9100c, [(0x40, 48)], [⟨0, 16, .ro, 0, false, 0, 0xffff⟩, ⟨16, 16, .ro, 0, false, 0, 0xffff⟩]⟩,
   -- HED.HEADn_SERIAL_LO
   ⟨0x91010, [(0x40, 48)], [⟨0, 32, .ro, 0, false, 0, 0xffffffff⟩]⟩,
   -- HED.HEADn_SERIAL_HI
   ⟨0x91014, [(0x40, 48)], [⟨0, 32, .ro, 0, false, 0, 0xffffffff⟩]⟩,
   -- HED.HEADn_PMIN
   ⟨0x91018, [(0x40, 48)], [⟨0, 20, .ro, 0, false, 0, 0xfffff⟩]⟩,
   -- HED.HEADn_NOMINAL
   ⟨0x9101c, [(0x40, 48)], [⟨0, 32, .ro, 0, false, 0, 0xffffffff⟩]⟩,
   -- HED.HEADn_MEAS
   ⟨0x91020, [(0x40, 48)], [⟨0, 8, .ro, 0, false, 0, 0xff⟩, ⟨8, 8, .ro, 0, false, 0, 0xff⟩, ⟨16, 6, .ro, 0, false, 0, 0x3f⟩, ⟨24, 8, .ro, 0, false, 0, 0xff⟩]⟩,
   -- HED.HEADn_MEAS_MASK
   ⟨0x91024, [(0x40, 48)], [⟨0, 32, .ro, 0, false, 0, 0xffffffff⟩]⟩,
   -- HED.HEADn_TLM
   ⟨0x91028, [(0x40, 48)], [⟨0, 16, .ro, 0, false, 0, 0xffff⟩, ⟨16, 16, .ro, 0, false, 0, 0xffff⟩]⟩ ]

/-- Register rows of block HED, part 1 (R42). -/
def rowsHED1 : List RegRow :=
  [
   -- HED.HEADn_LOADED
   ⟨0x9102c, [(0x40, 48)], [⟨0, 1, .ro, 0, false, 0, 1⟩, ⟨1, 1, .ro, 0, false, 0, 1⟩, ⟨2, 1, .ro, 0, false, 0, 1⟩, ⟨3, 1, .ro, 0, false, 0, 1⟩]⟩,
   -- HED.DRIVESETdw
   ⟨0x92000, [(0x400, 4), (4, 256)], [⟨0, 32, .rw, 0, false, 0, 0xffffffff⟩]⟩,
   -- HED.GROUPhg
   ⟨0x94000, [(0x400, 48), (4, 256)], [⟨0, 5, .rw, 0, false, 0, 0x1f⟩, ⟨8, 14, .rw, 0, false, 0, 0x3fff⟩, ⟨22, 10, .ro, 0, false, 0, 0x3ff⟩]⟩ ]

/-- Register rows of block CAM, part 0 (R42). -/
def rowsCAM0 : List RegRow :=
  [
   -- CAM.STORE_AREA
   ⟨0xa0000, [], [⟨0, 16, .rwl, 0, true, 0, 0xffff⟩]⟩,
   -- CAM.STATUS
   ⟨0xa0004, [], [⟨0, 4, .ro, 0, false, 0, 0xf⟩, ⟨4, 4, .ro, 0, false, 0, 0xf⟩, ⟨8, 1, .ro, 0, false, 0, 1⟩]⟩,
   -- CAM.WRITE_RATE
   ⟨0xa0008, [], [⟨0, 16, .ro, 0, false, 0, 0xffff⟩]⟩,
   -- CAM.PORTp_CFG
   ⟨0xa0100, [(0x20, 4)], [⟨0, 3, .rwl, 0, true, 0, 7⟩, ⟨4, 1, .rwl, 0, true, 0, 1⟩, ⟨8, 8, .rwl, 0, true, 0, 0xff⟩, ⟨16, 5, .rw, 0, true, 0, 0x1f⟩]⟩,
   -- CAM.PORTp_RATE
   ⟨0xa0104, [(0x20, 4)], [⟨0, 12, .rwl, 0, true, 0, 0xfff⟩]⟩,
   -- CAM.PORTp_STATUS
   ⟨0xa0108, [(0x20, 4)], [⟨0, 1, .ro, 0, false, 0, 1⟩, ⟨1, 4, .ro, 0, false, 0, 0xf⟩, ⟨5, 1, .ro, 0, false, 0, 1⟩, ⟨8, 1, .w1c, 0, false, 0, 1⟩]⟩,
   -- CAM.PORTp_ECC_CORR
   ⟨0xa010c, [(0x20, 4)], [⟨0, 32, .rc, 0, false, 0, 0xffffffff⟩]⟩,
   -- CAM.PORTp_ECC_UNC
   ⟨0xa0110, [(0x20, 4)], [⟨0, 32, .rc, 0, false, 0, 0xffffffff⟩]⟩,
   -- CAM.PORTp_CRC_ERR
   ⟨0xa0114, [(0x20, 4)], [⟨0, 32, .rc, 0, false, 0, 0xffffffff⟩]⟩,
   -- CAM.PORTp_DISCARD
   ⟨0xa0118, [(0x20, 4)], [⟨0, 32, .rc, 0, false, 0, 0xffffffff⟩]⟩,
   -- CAM.PORTp_FIFO_PEAK
   ⟨0xa011c, [(0x20, 4)], [⟨0, 19, .rc, 0, false, 0, 0x7ffff⟩]⟩,
   -- CAM.PIPEp_CFG
   ⟨0xa0200, [(0x20, 4)], [⟨0, 5, .rwl, 0, true, 0, 0x1f⟩, ⟨8, 12, .rwl, 0, true, 0, 0xfff⟩, ⟨24, 1, .rwl, 0, true, 0, 1⟩, ⟨25, 1, .rwl, 0, true, 0, 1⟩]⟩,
   -- CAM.PIPEp_ROUTE
   ⟨0xa0204, [(0x20, 4)], [⟨0, 6, .rw, 0, true, 0, 0x3f⟩, ⟨8, 1, .rw, 0, true, 0, 1⟩, ⟨16, 6, .rw, 0, true, 0, 0x3f⟩, ⟨24, 1, .rw, 0, true, 0, 1⟩, ⟨28, 1, .rw, 0, true, 0, 1⟩]⟩,
   -- CAM.PIPEp_STATUS
   ⟨0xa0208, [(0x20, 4)], [⟨0, 2, .ro, 0, false, 0, 3⟩, ⟨2, 1, .ro, 0, false, 0, 1⟩, ⟨3, 1, .ro, 0, false, 0, 1⟩, ⟨8, 8, .ro, 0, false, 0, 0xff⟩]⟩,
   -- CAM.PIPEp_LOST
   ⟨0xa020c, [(0x20, 4)], [⟨0, 32, .rc, 0, false, 0, 0xffffffff⟩]⟩,
   -- CAM.PIPEp_ITEMS
   ⟨0xa0210, [(0x20, 4)], [⟨0, 32, .rc, 0, false, 0, 0xffffffff⟩]⟩,
   -- CAM.PIPEp_UNROUTED
   ⟨0xa0214, [(0x20, 4)], [⟨0, 32, .rc, 0, false, 0, 0xffffffff⟩]⟩,
   -- CAM.CTXx_BIND
   ⟨0xa1000, [(0x400, 8)], [⟨0, 2, .rwl, 0, true, 0, 3⟩, ⟨4, 4, .rwl, 0, true, 0, 0xf⟩, ⟨8, 6, .rwl, 0, true, 0, 0x3f⟩, ⟨16, 1, .rwl, 0, true, 0, 1⟩, ⟨17, 1, .rwl, 0, true, 0, 1⟩, ⟨18, 1, .rwl, 0, true, 0, 1⟩]⟩,
   -- CAM.CTXx_GEOM
   ⟨0xa1004, [(0x400, 8)], [⟨0, 15, .rwl, 0, true, 0, 0x7fff⟩, ⟨16, 14, .rwl, 0, true, 0, 0x3fff⟩]⟩,
   -- CAM.CTXx_OUT
   ⟨0xa1008, [(0x400, 8)], [⟨0, 15, .rwl, 0, true, 0, 0x7fff⟩, ⟨16, 14, .rwl, 0, true, 0, 0x3fff⟩, ⟨30, 2, .rwl, 0, true, 0, 3⟩]⟩,
   -- CAM.CTXx_TRIG
   ⟨0xa100c, [(0x400, 8)], [⟨0, 2, .rw, 0, true, 0, 3⟩, ⟨8, 6, .rwl, 0, true, 0, 0x3f⟩, ⟨16, 1, .rw, 0, true, 0, 1⟩]⟩,
   -- CAM.CTXx_TRIG_T0_LO
   ⟨0xa1010, [(0x400, 8)], [⟨0, 32, .rw, 0, false, 0, 0xffffffff⟩]⟩,
   -- CAM.CTXx_TRIG_T0_HI
   ⟨0xa1014, [(0x400, 8)], [⟨0, 32, .rw, 0, false, 0, 0xffffffff⟩]⟩,
   -- CAM.CTXx_TRIG_PERIOD
   ⟨0xa1018, [(0x400, 8)], [⟨0, 32, .rw, 0, false, 0, 0xffffffff⟩]⟩ ]

/-- Register rows of block CAM, part 1 (R42). -/
def rowsCAM1 : List RegRow :=
  [
   -- CAM.CTXx_TRIG_CTL
   ⟨0xa101c, [(0x400, 8)], [⟨0, 16, .rw, 0, false, 0, 0xffff⟩]⟩,
   -- CAM.CTXx_EXPO
   ⟨0xa1020, [(0x400, 8)], [⟨0, 20, .rw, 10000, false, 100, 1000000⟩]⟩,
   -- CAM.CTXx_TRIG_CMD
   ⟨0xa1024, [(0x400, 8)], [⟨0, 1, .wo, 0, false, 0, 1⟩, ⟨1, 1, .wo, 0, false, 0, 1⟩]⟩,
   -- CAM.CTXx_APPLY
   ⟨0xa1028, [(0x400, 8)], [⟨0, 16, .rw, 0, false, 0, 0xffff⟩, ⟨16, 1, .wo, 0, false, 0, 1⟩, ⟨17, 1, .wo, 0, false, 0, 1⟩]⟩,
   -- CAM.CTXx_STATUS
   ⟨0xa102c, [(0x400, 8)], [⟨0, 16, .ro, 0, false, 0, 0xffff⟩, ⟨16, 1, .ro, 0, false, 0, 1⟩, ⟨17, 1, .ro, 0, false, 0, 1⟩, ⟨18, 1, .ro, 0, false, 0, 1⟩]⟩,
   -- CAM.CTXx_FRAMES
   ⟨0xa1030, [(0x400, 8)], [⟨0, 32, .rc, 0, false, 0, 0xffffffff⟩]⟩,
   -- CAM.CTXx_BADFR
   ⟨0xa1034, [(0x400, 8)], [⟨0, 32, .rc, 0, false, 0, 0xffffffff⟩]⟩,
   -- CAM.CTXx_LOSTFR
   ⟨0xa1038, [(0x400, 8)], [⟨0, 32, .rc, 0, false, 0, 0xffffffff⟩]⟩,
   -- CAM.CTXx_LAST_LOST
   ⟨0xa103c, [(0x400, 8)], [⟨0, 16, .ro, 0, false, 0, 0xffff⟩, ⟨16, 4, .ro, 0, false, 0, 0xf⟩]⟩,
   -- CAM.CTXx_FS_ET_LO
   ⟨0xa1040, [(0x400, 8)], [⟨0, 32, .ro, 0, false, 0, 0xffffffff⟩]⟩,
   -- CAM.CTXx_FS_ET_HI
   ⟨0xa1044, [(0x400, 8)], [⟨0, 32, .ro, 0, false, 0, 0xffffffff⟩]⟩,
   -- CAM.CTXx_TRIG_SKIP
   ⟨0xa1048, [(0x400, 8)], [⟨0, 32, .rc, 0, false, 0, 0xffffffff⟩]⟩,
   -- CAM.CTXx_STRs_X
   ⟨0xa1080, [(0x400, 8), (0x10, 4)], [⟨0, 15, .rwl, 0, true, 0, 0x7fff⟩, ⟨16, 15, .rwl, 0, true, 0, 0x7fff⟩]⟩,
   -- CAM.CTXx_STRs_Y
   ⟨0xa1084, [(0x400, 8), (0x10, 4)], [⟨0, 15, .rwl, 0, true, 0, 0x7fff⟩, ⟨16, 15, .rwl, 0, true, 0, 0x7fff⟩]⟩,
   -- CAM.CTXx_STRs_CFG
   ⟨0xa1088, [(0x400, 8), (0x10, 4)], [⟨0, 3, .rwl, 0, true, 0, 7⟩, ⟨4, 3, .rwl, 0, true, 0, 7⟩, ⟨8, 1, .rwl, 0, true, 0, 1⟩, ⟨12, 1, .rwl, 0, true, 0, 1⟩]⟩,
   -- CAM.CTXx_PARAMSET
   ⟨0xa1100, [(0x400, 8)], [⟨0, 16, .rw, 0, true, 0, 0xffff⟩]⟩,
   -- CAM.CTXx_BLACK
   ⟨0xa1104, [(0x400, 8)], [⟨0, 16, .rw, 0, true, 0, 0xffff⟩]⟩,
   -- CAM.CTXx_REMAP_X0
   ⟨0xa1108, [(0x400, 8)], [⟨0, 32, .rw, 0, true, 0, 0xffffffff⟩]⟩,
   -- CAM.CTXx_REMAP_STEP
   ⟨0xa110c, [(0x400, 8)], [⟨0, 32, .rw, 0, true, 0, 0xffffffff⟩]⟩,
   -- CAM.CTXx_REMAP_CURV
   ⟨0xa1110, [(0x400, 8)], [⟨0, 32, .rw, 0, true, 0, 0xffffffff⟩]⟩,
   -- CAM.CTXx_HIST_X
   ⟨0xa1118, [(0x400, 8)], [⟨0, 15, .rw, 0, true, 0, 0x7fff⟩, ⟨16, 15, .rw, 0, true, 0, 0x7fff⟩]⟩,
   -- CAM.CTXx_HIST_Y
   ⟨0xa111c, [(0x400, 8)], [⟨0, 14, .rw, 0, true, 0, 0x3fff⟩, ⟨16, 14, .rw, 0, true, 0, 0x3fff⟩]⟩,
   -- CAM.CTXx_PROF_Y
   ⟨0xa1120, [(0x400, 8)], [⟨0, 14, .rw, 0, true, 0, 0x3fff⟩, ⟨16, 14, .rw, 0, true, 0, 0x3fff⟩]⟩,
   -- CAM.CTXx_SKIM
   ⟨0xa1124, [(0x400, 8)], [⟨0, 1, .rw, 0, true, 0, 1⟩, ⟨1, 1, .rw, 0, true, 0, 1⟩, ⟨2, 1, .rw, 0, true, 0, 1⟩, ⟨16, 5, .rw, 0, true, 0, 16⟩]⟩ ]

/-- Register rows of block CAM, part 2 (R42). -/
def rowsCAM2 : List RegRow :=
  [
   -- CAM.CTXx_WIN_X
   ⟨0xa1140, [(0x400, 8), (8, 16)], [⟨0, 15, .rw, 0, true, 0, 0x7fff⟩, ⟨16, 15, .rw, 0, true, 0, 0x7fff⟩]⟩,
   -- CAM.CTXx_WIN_Y
   ⟨0xa1144, [(0x400, 8), (8, 16)], [⟨0, 14, .rw, 0, true, 0, 0x3fff⟩, ⟨16, 14, .rw, 0, true, 0, 0x3fff⟩]⟩,
   -- CAM.CTXx_SHADE
   ⟨0xa11c0, [(0x400, 8), (4, 16)], [⟨0, 16, .rw, 0, true, 0, 0xffff⟩, ⟨16, 16, .rw, 0, true, 0, 0xffff⟩]⟩,
   -- CAM.CTXx_ACTPARAMSET
   ⟨0xa1200, [(0x400, 8)], [⟨0, 16, .ro, 0, false, 0, 0xffff⟩]⟩,
   -- CAM.CTXx_ACTBLACK
   ⟨0xa1204, [(0x400, 8)], [⟨0, 16, .ro, 0, false, 0, 0xffff⟩]⟩,
   -- CAM.CTXx_ACTREMAP_X0
   ⟨0xa1208, [(0x400, 8)], [⟨0, 32, .ro, 0, false, 0, 0xffffffff⟩]⟩,
   -- CAM.CTXx_ACTREMAP_STEP
   ⟨0xa120c, [(0x400, 8)], [⟨0, 32, .ro, 0, false, 0, 0xffffffff⟩]⟩,
   -- CAM.CTXx_ACTREMAP_CURV
   ⟨0xa1210, [(0x400, 8)], [⟨0, 32, .ro, 0, false, 0, 0xffffffff⟩]⟩,
   -- CAM.CTXx_ACTHIST_X
   ⟨0xa1218, [(0x400, 8)], [⟨0, 15, .ro, 0, false, 0, 0x7fff⟩, ⟨16, 15, .ro, 0, false, 0, 0x7fff⟩]⟩,
   -- CAM.CTXx_ACTHIST_Y
   ⟨0xa121c, [(0x400, 8)], [⟨0, 14, .ro, 0, false, 0, 0x3fff⟩, ⟨16, 14, .ro, 0, false, 0, 0x3fff⟩]⟩,
   -- CAM.CTXx_ACTPROF_Y
   ⟨0xa1220, [(0x400, 8)], [⟨0, 14, .ro, 0, false, 0, 0x3fff⟩, ⟨16, 14, .ro, 0, false, 0, 0x3fff⟩]⟩,
   -- CAM.CTXx_ACTSKIM
   ⟨0xa1224, [(0x400, 8)], [⟨0, 1, .ro, 0, false, 0, 1⟩, ⟨1, 1, .ro, 0, false, 0, 1⟩, ⟨2, 1, .ro, 0, false, 0, 1⟩, ⟨16, 5, .ro, 0, false, 0, 0x1f⟩]⟩,
   -- CAM.CTXx_ACTWIN_X
   ⟨0xa1240, [(0x400, 8), (8, 16)], [⟨0, 15, .ro, 0, false, 0, 0x7fff⟩, ⟨16, 15, .ro, 0, false, 0, 0x7fff⟩]⟩,
   -- CAM.CTXx_ACTWIN_Y
   ⟨0xa1244, [(0x400, 8), (8, 16)], [⟨0, 14, .ro, 0, false, 0, 0x3fff⟩, ⟨16, 14, .ro, 0, false, 0, 0x3fff⟩]⟩,
   -- CAM.CTXx_ACTSHADE
   ⟨0xa12c0, [(0x400, 8), (4, 16)], [⟨0, 16, .ro, 0, false, 0, 0xffff⟩, ⟨16, 16, .ro, 0, false, 0, 0xffff⟩]⟩,
   -- CAM.MAPpi
   ⟨0x250000, [(0x10000, 4), (4, 16384)], [⟨0, 32, .rw, 0, false, 0, 0xffffffff⟩]⟩ ]

/-- Register rows of block HEL, part 0 (R42). -/
def rowsHEL0 : List RegRow :=
  [
   -- HEL.CTRL
   ⟨0xb0000, [], [⟨0, 2, .rw, 0, true, 0, 3⟩, ⟨4, 1, .wo, 0, false, 0, 1⟩]⟩,
   -- HEL.STATUS
   ⟨0xb0004, [], [⟨0, 2, .ro, 0, false, 0, 3⟩, ⟨2, 1, .ro, 0, false, 0, 1⟩, ⟨3, 1, .ro, 0, false, 0, 1⟩]⟩,
   -- HEL.LAYER
   ⟨0xb0008, [], [⟨0, 32, .ro, 0, false, 0, 0xffffffff⟩]⟩,
   -- HEL.CFG
   ⟨0xb000c, [], [⟨0, 8, .rw, 0, true, 0, 0xff⟩, ⟨8, 4, .rw, 0, true, 1, 0xf⟩, ⟨16, 6, .rw, 0, true, 0, 0x3f⟩, ⟨24, 1, .rw, 0, true, 0, 1⟩]⟩,
   -- HEL.WINDOW
   ⟨0xb0010, [], [⟨0, 16, .rw, 5000, false, 1, 0xffff⟩]⟩,
   -- HEL.SCORE_CFG
   ⟨0xb0014, [], [⟨0, 8, .rw, 8, false, 0, 0xff⟩, ⟨8, 8, .rw, 64, false, 0, 0xff⟩, ⟨16, 9, .rw, 256, false, 1, 0x1ff⟩, ⟨25, 7, .rw, 32, false, 0, 0x7f⟩]⟩,
   -- HEL.THRESH
   ⟨0xb0018, [], [⟨0, 8, .rw, 96, false, 0, 0xff⟩, ⟨8, 8, .rw, 192, false, 0, 0xff⟩, ⟨16, 8, .rw, 64, false, 0, 0xff⟩, ⟨24, 3, .rw, 3, false, 0, 7⟩, ⟨28, 3, .rw, 3, false, 0, 7⟩]⟩,
   -- HEL.LIMIT
   ⟨0xb001c, [], [⟨0, 8, .rw, 8, false, 1, 0xff⟩, ⟨16, 9, .rw, 64, false, 1, 256⟩, ⟨25, 7, .rw, 32, false, 1, 0x7f⟩]⟩,
   -- HEL.EMIN
   ⟨0xb0020, [], [⟨0, 16, .rw, 64, false, 0, 0xffff⟩]⟩,
   -- HEL.WEIGHT0
   ⟨0xb0030, [], [⟨0, 6, .ro, 0, false, 0, 0x3f⟩, ⟨8, 6, .rw, 4, false, 0, 0x3f⟩, ⟨16, 6, .rw, 8, false, 0, 0x3f⟩, ⟨24, 6, .rw, 12, false, 0, 0x3f⟩]⟩,
   -- HEL.WEIGHT1
   ⟨0xb0034, [], [⟨0, 6, .rw, 16, false, 0, 0x3f⟩, ⟨8, 6, .rw, 20, false, 0, 0x3f⟩, ⟨16, 6, .rw, 24, false, 0, 0x3f⟩, ⟨24, 6, .rw, 28, false, 0, 0x3f⟩]⟩,
   -- HEL.WEIGHT2
   ⟨0xb0038, [], [⟨0, 6, .rw, 32, false, 0, 0x3f⟩, ⟨8, 6, .rw, 36, false, 0, 0x3f⟩, ⟨16, 6, .rw, 40, false, 0, 0x3f⟩, ⟨24, 6, .rw, 44, false, 0, 0x3f⟩]⟩,
   -- HEL.WEIGHT3
   ⟨0xb003c, [], [⟨0, 6, .rw, 48, false, 0, 0x3f⟩, ⟨8, 6, .rw, 52, false, 0, 0x3f⟩, ⟨16, 6, .rw, 56, false, 0, 0x3f⟩, ⟨24, 6, .rw, 60, false, 0, 0x3f⟩]⟩,
   -- HEL.VETO_LO
   ⟨0xb0040, [], [⟨0, 32, .rw, 0, false, 0, 0xffffffff⟩]⟩,
   -- HEL.VETO_HI
   ⟨0xb0044, [], [⟨0, 32, .rw, 0, false, 0, 0xffffffff⟩]⟩,
   -- HEL.EVALS
   ⟨0xb0050, [], [⟨0, 32, .rc, 0, false, 0, 0xffffffff⟩]⟩,
   -- HEL.CHANGES
   ⟨0xb0054, [], [⟨0, 32, .rc, 0, false, 0, 0xffffffff⟩]⟩,
   -- HEL.DEFERRED
   ⟨0xb0058, [], [⟨0, 32, .rc, 0, false, 0, 0xffffffff⟩]⟩,
   -- HEL.UNUSED
   ⟨0xb005c, [], [⟨0, 32, .rc, 0, false, 0, 0xffffffff⟩]⟩,
   -- HEL.LAST_CHG
   ⟨0xb0060, [], [⟨0, 10, .ro, 0, false, 0, 0x3ff⟩, ⟨10, 10, .ro, 0, false, 0, 0x3ff⟩, ⟨20, 10, .ro, 0, false, 0, 0x3ff⟩]⟩,
   -- HEL.LAST_LAYER
   ⟨0xb0064, [], [⟨0, 32, .ro, 0, false, 0, 0xffffffff⟩]⟩,
   -- HEL.FROZEN_LO
   ⟨0xb0068, [], [⟨0, 32, .ro, 0, false, 0, 0xffffffff⟩]⟩,
   -- HEL.FROZEN_HI
   ⟨0xb006c, [], [⟨0, 32, .ro, 0, false, 0, 0xffffffff⟩]⟩,
   -- HEL.PIPEp_MODEL
   ⟨0xb0080, [(4, 4)], [⟨0, 16, .rw, 0, true, 0, 0xffff⟩, ⟨16, 16, .rw, 0, true, 0, 0xffff⟩]⟩ ]

/-- Register rows of block MOT, part 0 (R42). -/
def rowsMOT0 : List RegRow :=
  [
   -- MOT.CTRL
   ⟨0xc0000, [], [⟨0, 1, .wo, 0, false, 0, 1⟩, ⟨1, 1, .wo, 0, false, 0, 1⟩]⟩,
   -- MOT.STATUS
   ⟨0xc0004, [], [⟨0, 8, .ro, 0, false, 0, 0xff⟩, ⟨8, 8, .ro, 0, false, 0, 0xff⟩, ⟨16, 1, .ro, 0, false, 0, 1⟩, ⟨17, 1, .ro, 0, false, 0, 1⟩]⟩,
   -- MOT.TRAV_BIND
   ⟨0xc0008, [], [⟨0, 3, .rwl, 0, true, 0, 7⟩, ⟨4, 1, .rwl, 0, true, 0, 1⟩]⟩,
   -- MOT.TRAV_SPL
   ⟨0xc000c, [], [⟨0, 32, .rwl, 0, true, 0, 0xffffffff⟩]⟩,
   -- MOT.GOV_CAP
   ⟨0xc0010, [], [⟨0, 23, .ro, 0, false, 0, 0x7fffff⟩]⟩,
   -- MOT.DRVn_CFG
   ⟨0xc0040, [(0x10, 4)], [⟨0, 1, .rwl, 0, true, 0, 1⟩, ⟨8, 8, .rwl, 0, true, 0, 0xff⟩, ⟨16, 4, .rw, 0, true, 1, 15⟩]⟩,
   -- MOT.DRVn_STATUS
   ⟨0xc0044, [(0x10, 4)], [⟨0, 8, .ro, 0, false, 0, 0xff⟩, ⟨8, 4, .ro, 0, false, 0, 0xf⟩, ⟨16, 1, .w1c, 0, false, 0, 1⟩]⟩,
   -- MOT.DRVn_ERR
   ⟨0xc0048, [(0x10, 4)], [⟨0, 32, .rc, 0, false, 0, 0xffffffff⟩]⟩,
   -- MOT.ENCn_CFG
   ⟨0xc0100, [(0x20, 4)], [⟨0, 2, .rwl, 0, true, 0, 3⟩, ⟨2, 1, .rwl, 0, true, 0, 1⟩, ⟨4, 3, .rw, 0, true, 0, 7⟩, ⟨8, 1, .rw, 0, true, 0, 1⟩]⟩,
   -- MOT.ENCn_COUNT
   ⟨0xc0104, [(0x20, 4)], [⟨0, 32, .rw, 0, false, 0, 0xffffffff⟩]⟩,
   -- MOT.ENCn_ZLATCH
   ⟨0xc0108, [(0x20, 4)], [⟨0, 32, .ro, 0, false, 0, 0xffffffff⟩]⟩,
   -- MOT.ENCn_ILLEGAL
   ⟨0xc010c, [(0x20, 4)], [⟨0, 32, .rc, 0, false, 0, 0xffffffff⟩]⟩,
   -- MOT.ENCn_STATUS
   ⟨0xc0110, [(0x20, 4)], [⟨0, 1, .w1c, 0, false, 0, 1⟩, ⟨1, 1, .w1c, 0, false, 0, 1⟩]⟩,
   -- MOT.AXa_CFG
   ⟨0xc1000, [(0x100, 8)], [⟨0, 2, .rwl, 0, true, 0, 3⟩, ⟨2, 2, .rwl, 0, true, 0, 3⟩, ⟨4, 2, .rwl, 0, true, 0, 3⟩, ⟨6, 1, .rw, 0, true, 0, 1⟩, ⟨8, 8, .rw, 0, true, 2, 255⟩, ⟨16, 8, .rw, 0, true, 0, 0xff⟩]⟩,
   -- MOT.AXa_LIMCFG
   ⟨0xc1004, [(0x100, 8)], [⟨0, 8, .rw, 0, true, 1, 255⟩, ⟨8, 1, .rw, 0, true, 0, 1⟩, ⟨9, 1, .rw, 0, true, 0, 1⟩, ⟨10, 1, .rw, 0, true, 0, 1⟩, ⟨11, 1, .rw, 0, true, 0, 1⟩, ⟨12, 1, .rwl, 0, true, 0, 1⟩, ⟨13, 1, .rw, 0, true, 0, 1⟩, ⟨16, 6, .rwl, 0, true, 0, 0x3f⟩]⟩,
   -- MOT.AXa_LOCKOUT
   ⟨0xc1008, [(0x100, 8)], [⟨0, 16, .rw, 0, true, 1, 0xffff⟩]⟩,
   -- MOT.AXa_HOME_MAX
   ⟨0xc100c, [(0x100, 8)], [⟨0, 32, .rw, 0, true, 0, 0xffffffff⟩]⟩,
   -- MOT.AXa_VMAX
   ⟨0xc1010, [(0x100, 8)], [⟨0, 32, .rw, 0, true, 1, 1024000000⟩]⟩,
   -- MOT.AXa_AMAX
   ⟨0xc1014, [(0x100, 8)], [⟨0, 32, .rw, 0, true, 1, 0xffffffff⟩]⟩,
   -- MOT.AXa_JMAX
   ⟨0xc1018, [(0x100, 8)], [⟨0, 32, .rw, 0, true, 0, 0xffffffff⟩]⟩,
   -- MOT.AXa_EDEC
   ⟨0xc101c, [(0x100, 8)], [⟨0, 32, .rw, 0, true, 1, 0xffffffff⟩]⟩,
   -- MOT.AXa_CUR
   ⟨0xc1020, [(0x100, 8)], [⟨0, 16, .rw, 0, true, 0, 0xffff⟩, ⟨16, 16, .rw, 0, true, 0, 0xffff⟩]⟩,
   -- MOT.AXa_LAGMAX
   ⟨0xc1024, [(0x100, 8)], [⟨0, 32, .rw, 0, true, 0, 0xffffffff⟩]⟩,
   -- MOT.AXa_STATUS
   ⟨0xc1028, [(0x100, 8)], [⟨0, 3, .ro, 0, false, 0, 7⟩, ⟨3, 1, .ro, 0, false, 0, 1⟩, ⟨4, 1, .ro, 0, false, 0, 1⟩, ⟨8, 5, .ro, 0, false, 0, 0x1f⟩, ⟨13, 3, .ro, 0, false, 0, 7⟩, ⟨16, 4, .ro, 0, false, 0, 0xf⟩, ⟨20, 1, .ro, 0, false, 0, 1⟩, ⟨21, 1, .ro, 0, false, 0, 1⟩, ⟨22, 1, .ro, 0, false, 0, 1⟩, ⟨23, 1, .ro, 0, false, 0, 1⟩, ⟨24, 1, .w1c, 0, false, 0, 1⟩]⟩ ]

/-- Register rows of block MOT, part 1 (R42). -/
def rowsMOT1 : List RegRow :=
  [
   -- MOT.AXa_POS
   ⟨0xc102c, [(0x100, 8)], [⟨0, 32, .ro, 0, false, 0, 0xffffffff⟩]⟩,
   -- MOT.AXa_VEL
   ⟨0xc1030, [(0x100, 8)], [⟨0, 32, .ro, 0, false, 0, 0xffffffff⟩]⟩,
   -- MOT.AXa_LAG
   ⟨0xc1034, [(0x100, 8)], [⟨0, 32, .ro, 0, false, 0, 0xffffffff⟩]⟩,
   -- MOT.AXa_HOME_LATCH
   ⟨0xc1038, [(0x100, 8)], [⟨0, 32, .ro, 0, false, 0, 0xffffffff⟩]⟩,
   -- MOT.AXa_CTRL
   ⟨0xc103c, [(0x100, 8)], [⟨0, 1, .wo, 0, false, 0, 1⟩, ⟨1, 1, .wo, 0, false, 0, 1⟩]⟩,
   -- MOT.USTEPaw
   ⟨0xc4000, [(0x400, 8), (4, 256)], [⟨0, 16, .rw, 0, false, 0, 0xffff⟩, ⟨16, 16, .rw, 0, false, 0, 0xffff⟩]⟩ ]

/-- Register rows of block LOP, part 0 (R42). -/
def rowsLOP0 : List RegRow :=
  [
   -- LOP.STATUS
   ⟨0xd0000, [], [⟨0, 1, .ro, 0, false, 0, 1⟩, ⟨8, 7, .ro, 0, false, 0, 0x7f⟩]⟩,
   -- LOP.LOAD
   ⟨0xd0004, [], [⟨0, 24, .ro, 0, false, 0, 0xffffff⟩]⟩,
   -- LOP.VFF_CFG
   ⟨0xd0008, [], [⟨0, 5, .rwl, 0, true, 0, 0x1f⟩, ⟨8, 1, .rwl, 0, true, 0, 1⟩]⟩,
   -- LOP.VFF_G
   ⟨0xd000c, [], [⟨0, 16, .ro, 16384, false, 0, 0xffff⟩, ⟨16, 1, .ro, 0, false, 0, 1⟩]⟩,
   -- LOP.VARv
   ⟨0xd0040, [(4, 16)], [⟨0, 32, .rw, 0, true, 0, 0xffffffff⟩]⟩,
   -- LOP.VFF_TABk
   ⟨0xd0100, [(4, 64)], [⟨0, 16, .rw, 0, true, 0, 0xffff⟩]⟩,
   -- LOP.LSs_SRC
   ⟨0xd1000, [(0x80, 64)], [⟨0, 3, .rwl, 0, true, 0, 7⟩, ⟨4, 6, .rwl, 0, true, 0, 0x3f⟩, ⟨12, 4, .rwl, 0, true, 0, 0xf⟩, ⟨16, 3, .rwl, 0, true, 0, 7⟩, ⟨20, 6, .rwl, 0, true, 0, 0x3f⟩, ⟨28, 4, .rwl, 0, true, 0, 0xf⟩]⟩,
   -- LOP.LSs_DEST
   ⟨0xd1004, [(0x80, 64)], [⟨0, 2, .rwl, 0, true, 0, 3⟩, ⟨2, 6, .rwl, 0, true, 0, 0x3f⟩, ⟨16, 8, .rwl, 0, true, 0, 0xff⟩, ⟨24, 8, .rwl, 0, true, 0, 0xff⟩]⟩,
   -- LOP.LSs_SCHED
   ⟨0xd1008, [(0x80, 64)], [⟨0, 16, .rwl, 0, true, 0, 0xffff⟩, ⟨16, 16, .rwl, 0, true, 0, 0xffff⟩]⟩,
   -- LOP.LSs_GRP
   ⟨0xd100c, [(0x80, 64)], [⟨0, 3, .rwl, 0, true, 0, 7⟩, ⟨3, 1, .rwl, 0, true, 0, 1⟩, ⟨4, 1, .rwl, 0, true, 0, 1⟩, ⟨5, 1, .rwl, 0, true, 0, 1⟩]⟩,
   -- LOP.LSs_SP
   ⟨0xd1010, [(0x80, 64)], [⟨0, 32, .rw, 0, true, 0, 0xffffffff⟩]⟩,
   -- LOP.LSs_SP_TGT
   ⟨0xd1014, [(0x80, 64)], [⟨0, 32, .rw, 0, true, 0, 0xffffffff⟩]⟩,
   -- LOP.LSs_KP
   ⟨0xd1018, [(0x80, 64)], [⟨0, 32, .rw, 0, true, 0, 0xffffffff⟩]⟩,
   -- LOP.LSs_KI
   ⟨0xd101c, [(0x80, 64)], [⟨0, 32, .rw, 0, true, 0, 0xffffffff⟩]⟩,
   -- LOP.LSs_KD
   ⟨0xd1020, [(0x80, 64)], [⟨0, 32, .rw, 0, true, 0, 0xffffffff⟩]⟩,
   -- LOP.LSs_KF
   ⟨0xd1024, [(0x80, 64)], [⟨0, 32, .rw, 0, true, 0, 0xffffffff⟩]⟩,
   -- LOP.LSs_KT
   ⟨0xd1028, [(0x80, 64)], [⟨0, 32, .rw, 0, true, 0, 0xffffffff⟩]⟩,
   -- LOP.LSs_SHIFT
   ⟨0xd102c, [(0x80, 64)], [⟨0, 5, .rw, 0, true, 0, 0x1f⟩, ⟨5, 5, .rw, 0, true, 0, 0x1f⟩, ⟨10, 5, .rw, 0, true, 0, 0x1f⟩, ⟨15, 5, .rw, 0, true, 0, 0x1f⟩, ⟨20, 5, .rw, 0, true, 0, 0x1f⟩]⟩,
   -- LOP.LSs_OUTMIN
   ⟨0xd1030, [(0x80, 64)], [⟨0, 32, .rw, 0, true, 0, 0xffffffff⟩]⟩,
   -- LOP.LSs_OUTMAX
   ⟨0xd1034, [(0x80, 64)], [⟨0, 32, .rw, 0, true, 0, 0xffffffff⟩]⟩,
   -- LOP.LSs_SLEW
   ⟨0xd1038, [(0x80, 64)], [⟨0, 32, .rw, 0, true, 0, 0xffffffff⟩]⟩,
   -- LOP.LSs_SAFE
   ⟨0xd103c, [(0x80, 64)], [⟨0, 32, .rw, 0, true, 0, 0xffffffff⟩]⟩,
   -- LOP.LSs_RAMP
   ⟨0xd1040, [(0x80, 64)], [⟨0, 32, .rw, 0, true, 0, 0xffffffff⟩]⟩,
   -- LOP.LSs_ALARM_ERR
   ⟨0xd1044, [(0x80, 64)], [⟨0, 32, .rw, 0, true, 0, 0xffffffff⟩]⟩ ]

/-- Register rows of block LOP, part 1 (R42). -/
def rowsLOP1 : List RegRow :=
  [
   -- LOP.LSs_ALARM_MS
   ⟨0xd1048, [(0x80, 64)], [⟨0, 16, .rw, 0, true, 0, 0xffff⟩]⟩,
   -- LOP.LSs_STATUS
   ⟨0xd104c, [(0x80, 64)], [⟨0, 1, .ro, 0, false, 0, 1⟩, ⟨1, 1, .ro, 0, false, 0, 1⟩, ⟨2, 1, .ro, 0, false, 0, 1⟩, ⟨3, 1, .ro, 0, false, 0, 1⟩, ⟨4, 1, .ro, 0, false, 0, 1⟩, ⟨5, 1, .ro, 0, false, 0, 1⟩]⟩,
   -- LOP.LSs_OUT
   ⟨0xd1050, [(0x80, 64)], [⟨0, 32, .ro, 0, false, 0, 0xffffffff⟩]⟩,
   -- LOP.LSs_INTEG
   ⟨0xd1054, [(0x80, 64)], [⟨0, 32, .ro, 0, false, 0, 0xffffffff⟩]⟩,
   -- LOP.LSs_MEAS
   ⟨0xd1058, [(0x80, 64)], [⟨0, 32, .ro, 0, false, 0, 0xffffffff⟩]⟩,
   -- LOP.LSs_EVALS
   ⟨0xd105c, [(0x80, 64)], [⟨0, 32, .rc, 0, false, 0, 0xffffffff⟩]⟩ ]

/-- Register rows of block IOX, part 0 (R42). -/
def rowsIOX0 : List RegRow :=
  [
   -- IOX.ADCc_SEQ_CFG
   ⟨0xe0000, [(0x10, 2)], [⟨0, 4, .rwl, 0, true, 0, 0xf⟩, ⟨8, 1, .rwl, 0, true, 0, 1⟩]⟩,
   -- IOX.ADCc_SEQ_LO
   ⟨0xe0004, [(0x10, 2)], [⟨0, 32, .rwl, 0, true, 0, 0xffffffff⟩]⟩,
   -- IOX.ADCc_SEQ_HI
   ⟨0xe0008, [(0x10, 2)], [⟨0, 32, .rwl, 0, true, 0, 0xffffffff⟩]⟩,
   -- IOX.AINch_RES
   ⟨0xe0100, [(8, 24)], [⟨0, 16, .ro, 0, false, 0, 0xffff⟩, ⟨16, 1, .ro, 0, false, 0, 1⟩, ⟨24, 8, .ro, 0, false, 0, 0xff⟩]⟩,
   -- IOX.AINch_WIN
   ⟨0xe0104, [(8, 24)], [⟨0, 16, .rw, 0, true, 0, 0xffff⟩, ⟨16, 16, .rw, 0, true, 0, 0xffff⟩]⟩,
   -- IOX.PWMch_CFG
   ⟨0xe1000, [(0x10, 32)], [⟨0, 24, .rwl, 0, true, 0, 0xffffff⟩, ⟨24, 1, .rwl, 0, true, 0, 1⟩, ⟨25, 1, .rw, 0, true, 0, 1⟩]⟩,
   -- IOX.PWMch_DUTY
   ⟨0xe1004, [(0x10, 32)], [⟨0, 24, .rw, 0, true, 0, 0xffffff⟩]⟩,
   -- IOX.PWMch_PHASE
   ⟨0xe1008, [(0x10, 32)], [⟨0, 24, .rwl, 0, true, 0, 0xffffff⟩]⟩,
   -- IOX.PWMch_NOW
   ⟨0xe100c, [(0x10, 32)], [⟨0, 24, .ro, 0, false, 0, 0xffffff⟩]⟩,
   -- IOX.GPIO_INi
   ⟨0xe2000, [(4, 2)], [⟨0, 32, .ro, 0, false, 0, 0xffffffff⟩]⟩,
   -- IOX.GPIO_OUTi
   ⟨0xe2008, [(4, 2)], [⟨0, 32, .rw, 0, true, 0, 0xffffffff⟩]⟩,
   -- IOX.GPIO_SETi
   ⟨0xe2010, [(4, 2)], [⟨0, 32, .wo, 0, false, 0, 0xffffffff⟩]⟩,
   -- IOX.GPIO_CLRi
   ⟨0xe2018, [(4, 2)], [⟨0, 32, .wo, 0, false, 0, 0xffffffff⟩]⟩,
   -- IOX.GPIO_DIRi
   ⟨0xe2020, [(4, 2)], [⟨0, 32, .rw, 0, true, 0, 0xffffffff⟩]⟩,
   -- IOX.GPIO_OWNEDi
   ⟨0xe2028, [(4, 2)], [⟨0, 32, .rwl, 0, true, 0, 0xffffffff⟩]⟩,
   -- IOX.GPIO_CLAIMEDi
   ⟨0xe2030, [(4, 2)], [⟨0, 32, .ro, 0, false, 0, 0xffffffff⟩]⟩ ]

/-- Register rows of block DRC, part 0 (R42). -/
def rowsDRC0 : List RegRow :=
  [
   -- DRC.CFG
   ⟨0xf0000, [], [⟨0, 2, .rwl, 0, true, 0, 3⟩, ⟨4, 2, .rwl, 0, true, 0, 3⟩, ⟨8, 1, .rwl, 0, true, 0, 1⟩, ⟨12, 1, .rwl, 0, true, 0, 1⟩, ⟨16, 2, .rwl, 0, true, 0, 3⟩]⟩,
   -- DRC.STATUS
   ⟨0xf0004, [], [⟨0, 1, .ro, 0, false, 0, 1⟩, ⟨1, 1, .ro, 0, false, 0, 1⟩, ⟨2, 1, .ro, 0, false, 0, 1⟩, ⟨3, 1, .ro, 0, false, 0, 1⟩]⟩,
   -- DRC.CAPACITY
   ⟨0xf0008, [], [⟨0, 20, .ro, 0, false, 0, 0xfffff⟩]⟩,
   -- DRC.BAND_CFG
   ⟨0xf000c, [], [⟨0, 6, .rwl, 0, true, 0, 0x3f⟩]⟩,
   -- DRC.TRAIN_CFG
   ⟨0xf0010, [], [⟨0, 7, .rw, 20, false, 1, 0x7f⟩]⟩,
   -- DRC.RETRAIN
   ⟨0xf0014, [], [⟨0, 16, .rw, 100, false, 10, 60000⟩]⟩,
   -- DRC.PAGE_CFG
   ⟨0xf0018, [], [⟨0, 10, .rw, 64, false, 8, 0x3ff⟩]⟩,
   -- DRC.REF_CFG
   ⟨0xf001c, [], [⟨0, 8, .rw, 16, false, 1, 0xff⟩, ⟨8, 1, .rw, 1, false, 0, 1⟩]⟩,
   -- DRC.ECC_CFG
   ⟨0xf0020, [], [⟨0, 8, .rw, 16, false, 1, 0xff⟩, ⟨8, 8, .rw, 10, false, 1, 0xff⟩, ⟨16, 1, .rw, 1, false, 0, 1⟩]⟩,
   -- DRC.SCRUB
   ⟨0xf0024, [], [⟨0, 8, .rw, 24, false, 0, 0xff⟩]⟩,
   -- DRC.SPARE_CFG
   ⟨0xf0028, [], [⟨0, 6, .rw, 10, false, 1, 50⟩]⟩,
   -- DRC.SPARE_CTRL
   ⟨0xf002c, [], [⟨0, 1, .wo, 0, false, 0, 1⟩, ⟨4, 1, .wo, 0, false, 0, 1⟩, ⟨8, 2, .wo, 0, false, 0, 3⟩]⟩,
   -- DRC.SPARE_STATUS
   ⟨0xf0030, [], [⟨0, 10, .ro, 0, false, 0, 0x3ff⟩, ⟨12, 1, .ro, 0, false, 0, 1⟩, ⟨16, 2, .ro, 0, false, 0, 3⟩, ⟨18, 2, .ro, 0, false, 0, 3⟩]⟩,
   -- DRC.CE_COUNT
   ⟨0xf0034, [], [⟨0, 32, .rc, 0, false, 0, 0xffffffff⟩]⟩,
   -- DRC.UE_COUNT
   ⟨0xf0038, [], [⟨0, 32, .rc, 0, false, 0, 0xffffffff⟩]⟩,
   -- DRC.POISON_COUNT
   ⟨0xf003c, [], [⟨0, 32, .rc, 0, false, 0, 0xffffffff⟩]⟩,
   -- DRC.ERR_ADDR_LO
   ⟨0xf0040, [], [⟨0, 32, .ro, 0, false, 0, 0xffffffff⟩]⟩,
   -- DRC.ERR_ADDR_HI
   ⟨0xf0044, [], [⟨0, 32, .ro, 0, false, 0, 0xffffffff⟩]⟩,
   -- DRC.ERR_INFO
   ⟨0xf0048, [], [⟨0, 1, .w1c, 0, false, 0, 1⟩, ⟨1, 5, .ro, 0, false, 0, 0x1f⟩, ⟨6, 5, .ro, 0, false, 0, 0x1f⟩, ⟨12, 2, .ro, 0, false, 0, 3⟩, ⟨16, 3, .ro, 0, false, 0, 7⟩]⟩,
   -- DRC.RANKcr_STATUS
   ⟨0xf0100, [(0x10, 8)], [⟨0, 3, .ro, 0, false, 0, 7⟩, ⟨4, 2, .ro, 0, false, 0, 3⟩, ⟨6, 1, .ro, 0, false, 0, 1⟩, ⟨8, 7, .ro, 0, false, 0, 0x7f⟩, ⟨16, 8, .ro, 0, false, 0, 0xff⟩, ⟨24, 4, .ro, 0, false, 0, 0xf⟩]⟩ ]

/-- Register rows of block TDM, part 0 (R42). -/
def rowsTDM0 : List RegRow :=
  [
   -- TDM.CFG
   ⟨0x200000, [], [⟨0, 16, .rwl, 0, true, 0, 0xffff⟩, ⟨16, 16, .rwl, 0, true, 0, 0xffff⟩]⟩,
   -- TDM.START
   ⟨0x200004, [], [⟨0, 16, .rwl, 0, true, 0, 0xffff⟩]⟩,
   -- TDM.CTRL
   ⟨0x200008, [], [⟨0, 1, .wo, 0, false, 0, 1⟩, ⟨1, 1, .wo, 0, false, 0, 1⟩]⟩,
   -- TDM.STATUS
   ⟨0x20000c, [], [⟨0, 3, .ro, 0, false, 0, 7⟩, ⟨3, 1, .ro, 0, false, 0, 1⟩, ⟨4, 1, .ro, 0, false, 0, 1⟩, ⟨5, 1, .ro, 0, false, 0, 1⟩, ⟨6, 1, .ro, 0, false, 0, 1⟩, ⟨7, 1, .ro, 0, false, 0, 1⟩, ⟨8, 1, .ro, 0, false, 0, 1⟩, ⟨9, 3, .ro, 0, false, 0, 7⟩, ⟨12, 3, .ro, 0, false, 0, 7⟩, ⟨15, 5, .ro, 0, false, 0, 0x1f⟩, ⟨20, 1, .ro, 0, false, 0, 1⟩, ⟨21, 1, .ro, 0, false, 0, 1⟩, ⟨24, 1, .w1c, 0, false, 0, 1⟩]⟩,
   -- TDM.FIRN
   ⟨0x200010, [], [⟨0, 32, .ro, 0, false, 0, 0xffffffff⟩]⟩,
   -- TDM.FIRN_BYTES
   ⟨0x200014, [], [⟨0, 24, .ro, 0, false, 0, 0xffffff⟩]⟩,
   -- TDM.CRC_MATCH
   ⟨0x200018, [], [⟨0, 32, .rc, 0, false, 0, 0xffffffff⟩]⟩,
   -- TDM.CRC_MISMATCH
   ⟨0x20001c, [], [⟨0, 32, .rc, 0, false, 0, 0xffffffff⟩]⟩,
   -- TDM.TAKEOVERS
   ⟨0x200020, [], [⟨0, 32, .rc, 0, false, 0, 0xffffffff⟩]⟩,
   -- TDM.MIRROR_WAIT
   ⟨0x200024, [], [⟨0, 16, .ro, 0, false, 0, 0xffff⟩, ⟨16, 16, .ro, 0, false, 0, 0xffff⟩]⟩,
   -- TDM.REPORT
   ⟨0x200028, [], [⟨0, 6, .rw, 0, true, 0, 0x3f⟩, ⟨8, 1, .rw, 0, true, 0, 1⟩, ⟨9, 1, .rw, 0, true, 0, 1⟩]⟩,
   -- TDM.LANEk_STATUS
   ⟨0x200100, [(0x10, 5)], [⟨0, 3, .ro, 0, false, 0, 7⟩, ⟨4, 4, .ro, 0, false, 0, 0xf⟩, ⟨8, 1, .w1c, 0, false, 0, 1⟩]⟩,
   -- TDM.LANEk_ERR
   ⟨0x200104, [(0x10, 5)], [⟨0, 32, .rc, 0, false, 0, 0xffffffff⟩]⟩ ]

/-- Register rows of block CKP, part 0 (R42). -/
def rowsCKP0 : List RegRow :=
  [
   -- CKP.STATUS
   ⟨0x210000, [], [⟨0, 2, .ro, 0, false, 0, 3⟩, ⟨2, 1, .ro, 0, false, 0, 1⟩, ⟨4, 5, .ro, 0, false, 0, 0x1f⟩, ⟨9, 1, .ro, 0, false, 0, 1⟩, ⟨16, 1, .w1c, 0, false, 0, 1⟩, ⟨17, 1, .w1c, 0, false, 0, 1⟩]⟩,
   -- CKP.CTRL
   ⟨0x210004, [], [⟨0, 1, .wo, 0, false, 0, 1⟩, ⟨8, 8, .wo, 0, false, 0, 0xff⟩]⟩,
   -- CKP.PSTATE_CFG
   ⟨0x210008, [], [⟨0, 2, .rw, 0, true, 0, 3⟩, ⟨16, 16, .rw, 0, true, 10, 0xffff⟩]⟩,
   -- CKP.LTR_A
   ⟨0x21000c, [], [⟨0, 32, .rw, 0, false, 0, 0xffffffff⟩]⟩,
   -- CKP.LTR_B
   ⟨0x210010, [], [⟨0, 32, .rw, 0, false, 0, 0xffffffff⟩]⟩,
   -- CKP.LTR_NOW
   ⟨0x210014, [], [⟨0, 32, .ro, 0, false, 0, 0xffffffff⟩]⟩,
   -- CKP.WAKE
   ⟨0x210018, [], [⟨0, 4, .ro, 0, false, 0, 0xf⟩, ⟨16, 16, .rc, 0, false, 0, 0xffff⟩]⟩,
   -- CKP.RESET_CAUSE
   ⟨0x21001c, [], [⟨0, 4, .ro, 1, false, 0, 0xf⟩, ⟨8, 8, .ro, 0, false, 0, 0xff⟩]⟩,
   -- CKP.SEQ_CFG
   ⟨0x210020, [], [⟨0, 8, .rwl, 0, true, 0, 0xff⟩, ⟨8, 12, .rwl, 0, true, 0, 0xfff⟩]⟩,
   -- CKP.RAIL_STATUS
   ⟨0x210024, [], [⟨0, 6, .ro, 0, false, 0, 0x3f⟩, ⟨8, 6, .ro, 0, false, 0, 0x3f⟩, ⟨16, 3, .ro, 0, false, 0, 7⟩, ⟨20, 2, .ro, 0, false, 0, 3⟩, ⟨22, 1, .ro, 0, false, 0, 1⟩]⟩,
   -- CKP.TEMP
   ⟨0x210028, [], [⟨0, 16, .ro, 0, false, 0, 0xffff⟩, ⟨16, 16, .ro, 0, false, 0, 0xffff⟩]⟩,
   -- CKP.THERM_CFG
   ⟨0x21002c, [], [⟨0, 8, .rw, 90, false, 0, 120⟩]⟩,
   -- CKP.XING_MERGED
   ⟨0x210030, [], [⟨0, 25, .w1c, 0, false, 0, 0x1ffffff⟩]⟩,
   -- CKP.XING_QUAR
   ⟨0x210034, [], [⟨0, 25, .ro, 0, false, 0, 0x1ffffff⟩]⟩,
   -- CKP.XING_FLUSHED
   ⟨0x210038, [], [⟨0, 32, .rc, 0, false, 0, 0xffffffff⟩]⟩,
   -- CKP.XING_LAST
   ⟨0x21003c, [], [⟨0, 5, .ro, 0, false, 0, 0x1f⟩, ⟨8, 6, .ro, 0, false, 0, 0x3f⟩, ⟨16, 16, .ro, 0, false, 0, 0xffff⟩]⟩ ]

/-- Register rows of block CFG, part 0 (R42). -/
def rowsCFG0 : List RegRow :=
  [
   -- CFG.CTRL
   ⟨0x220000, [], [⟨0, 1, .wo, 0, false, 0, 1⟩, ⟨1, 1, .wo, 0, false, 0, 1⟩, ⟨2, 1, .wo, 0, false, 0, 1⟩, ⟨8, 8, .wo, 0, false, 0, 0xff⟩]⟩,
   -- CFG.STATUS
   ⟨0x220004, [], [⟨0, 1, .ro, 0, false, 0, 1⟩, ⟨1, 1, .ro, 0, false, 0, 1⟩, ⟨2, 1, .ro, 0, false, 0, 1⟩, ⟨3, 1, .ro, 0, false, 0, 1⟩, ⟨4, 1, .ro, 0, false, 0, 1⟩, ⟨5, 2, .ro, 0, false, 0, 3⟩, ⟨7, 1, .ro, 0, false, 0, 1⟩]⟩,
   -- CFG.SLOT_A_SEQ
   ⟨0x220008, [], [⟨0, 32, .ro, 0, false, 0, 0xffffffff⟩]⟩,
   -- CFG.SLOT_B_SEQ
   ⟨0x22000c, [], [⟨0, 32, .ro, 0, false, 0, 0xffffffff⟩]⟩,
   -- CFG.SLOT_CAUSE
   ⟨0x220010, [], [⟨0, 4, .ro, 0, false, 0, 0xf⟩, ⟨4, 4, .ro, 0, false, 0, 0xf⟩]⟩,
   -- CFG.COMMIT_RESULT
   ⟨0x220014, [], [⟨0, 4, .ro, 0, false, 0, 0xf⟩, ⟨8, 1, .ro, 0, false, 0, 1⟩, ⟨9, 1, .ro, 0, false, 0, 1⟩]⟩,
   -- CFG.COMMIT_FEATURES
   ⟨0x220018, [], [⟨0, 16, .ro, 0, false, 0, 0xffff⟩, ⟨16, 16, .ro, 0, false, 0, 0xffff⟩]⟩,
   -- CFG.COMMIT_RESOURCE
   ⟨0x22001c, [], [⟨0, 32, .ro, 0, false, 0, 0xffffffff⟩]⟩,
   -- CFG.COMMIT_OFFSET
   ⟨0x220020, [], [⟨0, 24, .ro, 0, false, 0, 0xffffff⟩]⟩,
   -- CFG.DIGESTk
   ⟨0x220030, [(4, 8)], [⟨0, 32, .ro, 0, false, 0, 0xffffffff⟩]⟩,
   -- CFG.SUBSYS
   ⟨0x220050, [], [⟨0, 16, .ro, 0, true, 0, 0xffff⟩, ⟨16, 16, .ro, 0, true, 0, 0xffff⟩]⟩,
   -- CFG.FLASH_STATUS
   ⟨0x220054, [], [⟨0, 4, .ro, 0, false, 0, 0xf⟩, ⟨4, 1, .ro, 0, false, 0, 1⟩, ⟨8, 8, .ro, 0, false, 0, 0xff⟩]⟩,
   -- CFG.LEDGER
   ⟨0x220058, [], [⟨0, 16, .ro, 0, false, 0, 0xffff⟩, ⟨16, 16, .ro, 0, false, 0, 0xffff⟩]⟩,
   -- CFG.START_TIME
   ⟨0x22005c, [], [⟨0, 16, .ro, 0, false, 0, 0xffff⟩]⟩,
   -- CFG.IMAGEi
   ⟨0x224000, [(4, 12288)], [⟨0, 32, .rw, 0, false, 0, 0xffffffff⟩]⟩ ]

/-- Register rows of block PHY, part 0 (R42). -/
def rowsPHY0 : List RegRow :=
  [
   -- PHY.REF_CTRL
   ⟨0x230000, [], [⟨0, 1, .rwl, 0, true, 0, 1⟩, ⟨1, 1, .rwl, 0, true, 0, 1⟩, ⟨2, 1, .rwl, 0, true, 0, 1⟩]⟩,
   -- PHY.REF_STATUS
   ⟨0x230004, [], [⟨0, 1, .ro, 0, false, 0, 1⟩, ⟨1, 1, .w1c, 0, false, 0, 1⟩]⟩,
   -- PHY.LANEn_CTRL
   ⟨0x231000, [(0x40, 48)], [⟨0, 1, .rw, 0, true, 0, 1⟩, ⟨1, 1, .rw, 0, true, 0, 1⟩, ⟨4, 2, .rw, 0, false, 0, 3⟩, ⟨8, 2, .rw, 0, false, 0, 3⟩]⟩,
   -- PHY.LANEn_TXEQ
   ⟨0x231004, [(0x40, 48)], [⟨0, 4, .rw, 0, true, 0, 0xf⟩, ⟨4, 4, .rw, 0, true, 0, 0xf⟩]⟩,
   -- PHY.LANEn_RXEQ
   ⟨0x231008, [(0x40, 48)], [⟨0, 5, .rw, 0, true, 0, 0x1f⟩, ⟨8, 1, .rw, 0, true, 0, 1⟩]⟩,
   -- PHY.LANEn_PRBS_ERR
   ⟨0x23100c, [(0x40, 48)], [⟨0, 32, .rc, 0, false, 0, 0xffffffff⟩]⟩,
   -- PHY.LANEn_PRBS_STATUS
   ⟨0x231010, [(0x40, 48)], [⟨0, 1, .ro, 0, false, 0, 1⟩]⟩ ]

/-- Every register of BAR0 but the NZT and SUB windows, whose entries are the staged tables of their own (R176, R177). -/
def regTable : List RegRow :=
  rowsGLB0 ++ rowsHIF0 ++ rowsEVT0 ++ rowsETM0 ++ rowsETM1 ++ rowsENET0 ++ rowsCHN0 ++ rowsCRN0 ++ rowsCRN1 ++ rowsTHL0 ++ rowsHED0 ++ rowsHED1 ++ rowsCAM0 ++ rowsCAM1 ++ rowsCAM2 ++ rowsHEL0 ++ rowsMOT0 ++ rowsMOT1 ++ rowsLOP0 ++ rowsLOP1 ++ rowsIOX0 ++ rowsDRC0 ++ rowsTDM0 ++ rowsCKP0 ++ rowsCFG0 ++ rowsPHY0

/-- The indices at which a register array holds the offset that lies `rem` above its base. -/
def dimIndex : List (Nat × Nat) → Nat → Option (List Nat)
  | [], rem => if rem = 0 then some [] else none
  | (stride, count) :: ds, rem =>
    if rem / stride < count then (dimIndex ds (rem % stride)).map (rem / stride :: ·) else none

/-- The register row that holds a BAR0 offset, with its indices. -/
def rowAt (off : Nat) : Option (RegRow × List Nat) :=
  regTable.findSome? fun r => if off < r.base then none else (dimIndex r.dims (off - r.base)).map (r, ·)

/-- A field's reset value at an offset: the table's, but for the two arrays whose reset value depends on the index
(EVT.ROUTEn.CLASS, R500; the microstep shadow tables, R351). -/
def resetOf (off : Nat) (f : FieldSpec) : Nat :=
  if 0x21000 ≤ off ∧ off < 0x21400 ∧ f.lo = 29 then Reg.sourceClass ((off - 0x21000) / 4)
  else if 0xC4000 ≤ off ∧ off < 0xC6000 then Reg.ustepReset ((off % 0x400) / 4) (f.lo / 16)
  else f.rst

/-- The field of a specification at an offset. -/
def FieldSpec.at (f : FieldSpec) (off : Nat) : Field := ⟨off, f.lo, f.width, resetOf off f⟩

/-- The fields a register holds; none where no register occupies the offset (R19, R43). -/
def fieldsAt (off : Nat) : List FieldSpec := ((rowAt off).map (·.1.fields)).getD []

/-- Every offset a register row occupies, in ascending index order. -/
def RegRow.offsets (r : RegRow) : List Nat :=
  r.dims.foldl (fun acc d => acc.flatMap fun o => (List.range d.2).map (o + d.1 * ·)) [r.base]

end Sys2Proof.Machine
end

