-- ==== Sys2Proof/Machine/State.lean ====
section
/-! DEFINITION. Machine/State.lean: everything the spec gives the controller, as plain data, and the state right after
reset. The register fields hold what a host can read; the structures below them hold what the chapters name without a
register. -/

namespace Sys2Proof.Machine

/-- A fault of the model. -/
inductive Fault where
  /-- Raised by descriptorFetch on a descriptor that is not 64 bytes, the one command whose operand can fail to be a
  thing of the hardware (R96). Safe: no such transfer exists. -/
  | malformed
  deriving DecidableEq, Repr

/-- A refusal of the model. -/
inductive Refusal where
  /-- Raised by the dispatch for a command without a meaning. Safe: nothing is claimed of it. -/
  | notModelled (mnemonic : String)
  deriving DecidableEq, Repr

/-- An event record awaiting delivery (R493, R496, R497), with the count of the raises it stands for (R112). -/
structure EvRecord where
  source : Nat
  cls : Nat
  cause : Nat
  seq : Nat
  et : ET
  data : List Byte
  count : Nat
  /-- The ring had a free slot of its own for this record when it was raised. -/
  slotted : Bool
  deriving DecidableEq, Repr

/-- One entry of a port's MSI-X table (R83). -/
structure MsixEntry where
  addr : BitVec 64 := 0
  data : Word := 0
  masked : Bool := true
  pending : Bool := false
  deriving DecidableEq, Repr

/-- What a port's PCIe function holds of the options of R81 in its configuration space: maximum payload and read request size
in bytes, the device power state, ASPM L1, ECRC generation and checking, and the completion timeout range (0 the default, 16 ms
to 55 ms, else the value of the PCIe capability: 5 and 6 range B, 9 and 10 C, 13 and 14 D). Reset values and layout are those of the
PCIe capabilities (PRESUMED: log entry 83). -/
structure PcieFn where
  maxPayload : Nat := 128
  readRequest : Nat := 512
  d3hot : Bool := false
  aspmL1 : Bool := false
  ecrcGen : Bool := false
  ecrcCheck : Bool := false
  /-- The MSI-X function mask (R498). -/
  fnMasked : Bool := false
  timeoutRange : Nat := 0
  deriving DecidableEq, Repr

/-- A table load whose buffer has been read and passed its checks (R196, R199, R427, R433): the buffer, the identity of the
first of its CHANGE records if they have been sent, and whether it still waits for the partner to acknowledge them. -/
structure TableWait where
  buf : List Byte
  base : Option Nat
  waits : Bool
  deriving DecidableEq, Repr

/-- A ring beyond its registers: descriptors fetched and not completed, oldest first (none: the fetch itself failed),
the interrupt gathering of R104, and the drops of R99. -/
structure RingX where
  fetched : List (Option (List Byte)) := []
  irqGathered : Nat := 0
  /-- Model time at which the hold-off of R104 ends. -/
  irqDue : Option Nat := none
  dropped : Nat := 0
  /-- Model time since which a LAYER ring waits for space (R109). -/
  heldSince : Option Nat := none
  /-- EV010 has been raised for the present wait. -/
  heldTold : Bool := false
  /-- Records were coalesced and none has been written since (R112). -/
  coalesced : Bool := false
  /-- A descriptor at the head that has been acted on and waits to complete (LAYER_CLOSE; a BLOCK being mirrored). -/
  acted : Bool := false
  /-- FLAGS.IRQ of the descriptor the ring stopped at (R104, R106). -/
  stopIrq : Bool := false
  /-- A stop that waits for the descriptors already acted on to complete (R94, R107), with its code. -/
  stopAfter : Option Nat := none
  /-- The motion command at the head acts at the next motion tick (R334, R339): its place among the commands that do (R56). -/
  atDue : Option Nat := none
  /-- The table load at the head that has read its buffer and has not completed (R196, R199). -/
  load : Option TableWait := none
  deriving DecidableEq, Repr

/-- An item for a STATE ring (R111). onChip: it arose before the first commit and occupies no queue space. -/
structure StateItem where
  port : Nat
  ring : Nat
  kind : Nat
  body : List Byte
  onChip : Bool
  /-- IFLAGS of RESULT (R99, R137). -/
  iflags : Nat := 0
  /-- Units of 64 bytes stored as poisoned (R403). -/
  poison : List Nat := []
  deriving DecidableEq, Repr

/-- An item for an INSPECT ring (R99, R110). -/
structure InspItem where
  port : Nat
  ring : Nat
  kind : Nat
  source : Nat
  frame : Nat
  paramset : Nat
  iflags : Nat
  body : List Byte
  /-- The frame store slot of its frame (R307). -/
  slot : Nat := 0
  /-- Units of 64 bytes stored as poisoned (R403). -/
  poison : List Nat := []
  deriving DecidableEq, Repr

/-- What a head lane's transmitter sends outside packets: nothing, TRAIN, FILL, or a PRBS pattern by its code (R214, R243). -/
inductive LaneLine where
  | idle
  | train
  | fill
  | prbs (code : Nat)
  deriving DecidableEq, Repr

/-- What the controller puts out, in the order it does so. -/
inductive Output where
  /-- A register read completes with this word on a port. -/
  | readData (port : Nat) (v : Word)
  /-- A read completes with Completer Abort (R86). -/
  | completerAbort (port : Nat)
  /-- A configuration request is answered with Configuration Request Retry Status (R82). -/
  | configRetry (port : Nat)
  /-- A posted write into host memory through a port (R101). -/
  | post (port : Nat) (addr : Nat) (bytes : List Byte)
  /-- The TLP of the write before it that carries the 64 bytes at an address is written poisoned (R403). -/
  | poisonedTlp (port : Nat) (addr : Nat)
  /-- An MSI-X message for a vector of a port (R104, R498). -/
  | msix (port : Nat) (vector : Nat)
  /-- A PTP message leaves a network port (R63): its IEEE 1588 messageType, sequence number, time field and correctionField in
  2^-16 ns, the identity of the requester it answers, and the data set it announces. -/
  | ptp (port : Nat) (messageType : Nat) (seq : Nat) (time : Int) (corr : Int) (requester : Option PortId)
    (announced : Option AnnounceMsg)
  /-- A packet starts on a head lane: its TYPE, its bytes (R223 to R233), and the code groups from SOP to EOP, with the FILLs
  among them, bit a of each the most significant (R214, R215). -/
  | lane (lane : Nat) (type : Nat) (bytes : List Byte) (groups : List (BitVec 10))
  /-- The packet in progress on a lane ends with ABORT after so many of its code groups; ABORT's code group follows (R236). -/
  | laneAbort (lane : Nat) (sent : Nat) (groups : List (BitVec 10))
  /-- What a lane sends from now on where it carries no packet (R215, R218, R242, R243), and the code groups of one of it. -/
  | laneLine (lane : Nat) (what : LaneLine) (groups : List (BitVec 10))
  /-- A tandem frame: its TYPE, its bytes from header to CRC, and the code groups from SOP to EOP on each lane of the bond
  (R421, R423). -/
  | tandem (type : Nat) (bytes : List Byte) (lanes : List (Nat × List (BitVec 10)))
  /-- A claim line output changes level (R415). -/
  | claim (level : Bool)
  /-- A fire enable output changes level (R269, R270). -/
  | fireEn (i : Nat) (level : Bool)
  /-- A camera trigger ball changes level (R302). -/
  | gpio (i : Nat) (level : Bool)
  /-- A step of an axis, with its direction ball's level and the pulse's length in 5 ns ticks (R347, R348). -/
  | step (axis : Nat) (dir : Bool) (width : Nat)
  /-- A DRV frame's output records (R349, R352). -/
  | drv (line : Nat) (bytes : List Byte)
  /-- A duty takes effect on a PWM output (R382, R383). -/
  | pwm (ch : Nat) (ticks : Nat)
  /-- A command to a DRAM rank: 0 refresh, 1 precharge, 2 mode register poll, 3 self-refresh entry, 4 exit, 5 training,
  6 zeroing. The last number is the bank of 1, and for 3 to 5 the channel of the rank; for the others it is 0, and the rank is logical. -/
  | dram (cmd : Nat) (rank : Nat) (bank : Nat)
  /-- A flash operation: 0 erase sector, 1 program, 2 read back; with its address and bytes (R479, R523). -/
  | flash (op : Nat) (addr : Nat) (bytes : List Byte)
  /-- A rail enable output changes level (R470). -/
  | rail (step : Nat) (level : Bool)
  deriving DecidableEq, Repr

/-- A foreign master heard on a port (R63; IEEE 1588-2019 clause 9.3): its data set and the model times of its last two
Announce messages. -/
structure Foreign where
  source : PortId
  msg : AnnounceMsg
  last : Nat
  prev : Option Nat
  deriving DecidableEq, Repr

/-- A message of which one half has been heard: its sequence number, a time and a correction (2^-16 ns). -/
structure HalfMsg where
  source : PortId
  seq : Nat
  time : Int
  corr : Int
  deriving DecidableEq, Repr

/-- A network port beyond its registers (R63 to R68): foreign masters, sequence numbers of what it sends, the pending
half of a two-step Sync, of its Delay_Req and of its Pdelay exchange, and the model times its timers count from. -/
structure PtpPort where
  foreign : List Foreign := []
  seqSync : Nat := 0
  seqDelay : Nat := 0
  seqAnnounce : Nat := 0
  syncHalf : Option HalfMsg := none
  /-- Departure of the outstanding Delay_Req or Pdelay_Req, 2^-16 ns of PTP time. -/
  reqSent : Option Int := none
  /-- A two-step Pdelay_Resp waiting for its Follow_Up: our t1 and t4, their t2. -/
  pdelayHalf : Option (Int × Int × Int) := none
  /-- t2 − t1 of the last Sync, corrected: the forward half of the path delay. -/
  forward : Option Int := none
  nextSync : Nat := 0
  nextDelay : Nat := 0
  nextAnnounce : Nat := 0
  announceDue : Option Nat := none
  /-- The announce receipt timeout has expired since a master was last heard. -/
  timedOut : Bool := false
  /-- Model time at which the qualification of a port in PRE_MASTER ends. -/
  masterAt : Option Nat := none
  deriving DecidableEq, Repr

/-- The servo beyond its registers (R69 to R78). Rates in units of ETM.RATE; times in 2^-16 ns. -/
structure Servo where
  integ : Int := 0
  base : Int := 0
  everLocked : Bool := false
  rates : List Int := []
  inside : Nat := 0
  large : Nat := 0
  parent : Option PortId := none
  parentPort : Nat := 0
  meanDelay : Option Int := none
  /-- Path delay measurements to a new parent that remain before the next Sync is a sample (R77). -/
  delaysLeft : Nat := 0
  syncDue : Option Nat := none
  deriving DecidableEq, Repr

/-- What a scheduled action does when its ET target is reached (R52). -/
inductive SchedKind where
  /-- The next trigger of a context (R302). -/
  | camTrigger (x : Nat)
  /-- The command at the head of ring n of port p may act at the next motion tick (R339). -/
  | motionCmd (p n : Nat)
  /-- The loop engine command at the head of ring n of port p may act (R377). -/
  | loopCmd (p n : Nat)
  deriving DecidableEq, Repr

/-- An action scheduled for an ET target; stepped: its target lay in a forward step (R74). -/
structure Sched where
  target : ET
  kind : SchedKind
  stepped : Bool
  deriving DecidableEq, Repr

/-- One value of a table entry held for a band (R195): where it came from (0 host, 1 heal, 2 measurement, as SOURCE of
R208), whether it holds a host staging place (R199), and the band it applies from, once that is known (R198). -/
structure BandVal where
  value : Nat
  source : Nat
  hostPlace : Bool
  start : Option Nat
  deriving DecidableEq, Repr

/-- The versions of one nozzle table, substitution table or grey table entry (R195 to R199): the value in force, the
values it had below bands already entered (newest first), the band value, the arming value, and a change of STATE
deferred to arming with its source. -/
structure Ver where
  force : Nat
  priors : List (Nat × Nat) := []
  band : Option BandVal := none
  arming : Option (Nat × Nat) := none
  deferred : Option (Nat × Nat) := none
  deriving DecidableEq, Repr

/-- A slab of a registered layer in its band buffer (R117 to R119, R134, R160, R403): valid, its bytes, its first line
read by the cornice, missing for the rest of the layer, and the poisoned 64-byte units as 8,192 × line + unit. -/
structure Slab where
  valid : Bool := false
  bytes : List Byte := []
  read : Bool := false
  missing : Bool := false
  poison : List Nat := []
  /-- Poisoned units whose reads have been entered in the crevasse map. -/
  poisonTold : List Nat := []
  deriving DecidableEq, Repr

/-- A registered layer (R97, R147): its number, bands, HEADS mask, blocks delivered and slabs by 2^19 × head + slab,
blocks counted missing, whether it came from the mirror (R442), and its heads' first band in the order of R390. -/
structure Layer where
  num : Nat
  bands : Nat
  heads : Nat
  delivered : SMap Bool := []
  slabs : SMap Slab := []
  missing : Nat := 0
  mirrored : Bool := false
  firstBand : SMap Nat := []
  deriving DecidableEq, Repr

/-- A shot issued and not yet accounted for (R144, R157): index, firing line, tag, period in 2^-16 ns, emitted codes,
and the credits of R309 it makes when accounted fired, as nozzle table row and weight. -/
structure Shot where
  index : Nat
  line : Int
  tag : ET
  per : Int
  codes : List Nat
  credits : List (Nat × Nat)
  sent : Bool
  deriving DecidableEq, Repr

/-- A calve whose report is awaited (R164 to R167): K, the trigger's row of R164 from 1, the model time at which the
report is overdue, and the model time of the next repeat (R226). -/
structure Await where
  k : Nat
  trigger : Nat
  due : Nat
  again : Nat
  /-- t_ext of the turn that cut, where one did (R166). -/
  tExt : Option ET := none
  deriving DecidableEq, Repr

/-- A head in the armed layer (R143, R157 to R169): its span, the next firing line to try, its unaccounted shots, its
high-water mark, the lines above it entered with a shot-level cause as (first, count), and its skip runs. -/
structure HeadRun where
  lo : Int := 0
  hi : Int := 0
  next : Int := 0
  shots : List Shot := []
  hwm : Int := 0
  entered : List (Int × Nat) := []
  isOut : Bool := false
  /-- Waits for the head to acknowledge a rewrite made at arming (R183, R257). -/
  waits : Bool := false
  await : Option Await := none
  /-- Shots accounted fired whose interval has not ended, as line, tag and period (R272). -/
  ending : List (Int × ET × Int) := []
  overRun : Bool := false
  lateRun : Bool := false
  /-- Lines skipped by R158 before the first shot sent carry cause GATE (R168). -/
  gateRun : Bool := false
  /-- Bands entered (R160) and bands released (R161), counted from band 0. -/
  bandsIn : Nat := 0
  released : Nat := 0
  /-- CRC-32 register over the emitted codes of the band being formed, of the bands formed, and bands not compared. -/
  crcNow : Nat := 0xFFFFFFFF
  crcs : SMap Nat := []
  notCompared : List Nat := []
  /-- Next firing line whose emitted codes go into EMIT_CRC (R436, R437). -/
  crcNext : Int := 0
  /-- The table entry whose DRAM copy the packing of the head's next shot waits for (R205). -/
  eccHold : Option TableCell := none
  /-- From these bands on, the nozzles of heads gone out of firing count as retired (R240): (head, band of this head). -/
  outFrom : List (Nat × Nat) := []
  deriving DecidableEq, Repr

/-- An entry of the crevasse map (R171, R173). -/
structure Crevasse where
  head : Nat
  cause : Nat
  firstGroup : Nat
  groups : Nat
  first : Int
  count : Nat
  deriving DecidableEq, Repr

/-- The armed layer's run (R148 to R151, R171 to R173). -/
structure Run where
  origin : Int := 0
  hofs : SMap Int := []
  heads : SMap HeadRun := []
  entries : List Crevasse := []
  overflow : Nat := 0
  truncTold : Bool := false
  calves : Nat := 0
  skipped : Nat := 0
  etFirst : Option ET := none
  etLast : Option ET := none
  aborted : Bool := false
  /-- Set of accumulators of R310 this layer uses, 0 or 1, and the weights latched at arming (R322). -/
  accSet : Nat := 0
  weights : List Nat := []
  /-- Bands closed for the firn (R434). -/
  bandsClosed : Nat := 0
  /-- t_vote of each vote to stop in the layer (R272). -/
  votes : List ET := []
  deriving DecidableEq, Repr

/-- The estimator of R152 to R154. Counts are forward-upward; entries are (count, stamp in 2^-16 ns unwrapped). -/
structure Estimator where
  back : Bool := false
  ext : Option Int := none
  tExt : ET := 0
  window : List (Int × Int) := []
  /-- The last fit: velocity and acceleration in counts per 2^-16 ns, the entry taken as newest, and the draw of its
  prediction error (R153). -/
  fitV : Rat := 0
  fitA : Rat := 0
  fitC : Int := 0
  fitT : Int := 0
  fitted : Bool := false
  draw : Nat := 0
  /-- Model time of the last forward-progress edge (R154). -/
  lastFwd : Nat := 0
  /-- A gap in the stamps was told to the cornice (R58, R155). -/
  gaps : Nat := 0
  deriving DecidableEq, Repr

/-- A Churn job (R33, R134, R137). KIND 1 decompression of a block, 2 snapshot piece, 3 inspection piece. -/
structure Job where
  kind : Nat
  layer : Nat
  head : Nat
  slab : Nat
  hdr : List Byte
  payload : List Byte
  /-- Bytes of the block area the block takes, 0 where it takes none (R124). -/
  area : Nat
  /-- The band's number in the head's own count of R390. -/
  bandNo : Nat
  /-- Item number, for compression (R137). -/
  item : Nat
  /-- SEQ of the received firn whose piece is decompressed (R138). -/
  firn : Option Nat := none
  /-- The block's layer has completed or been discarded since the job was queued (R134). -/
  stale : Bool := false
  /-- A unit of its block is stored as poisoned (R403). -/
  poisoned : Bool := false
  deriving DecidableEq, Repr

/-- What an engine keeps while it holds (R135): the code being expanded and the offset of the next byte within its string, the
previous code, the index i, and the bits of a code not yet whole with their number. -/
structure EnginePos where
  code : Nat := 0
  offset : Nat := 0
  prev : Nat := 0
  index : Nat := 0
  partialBits : Nat := 0
  partialLen : Nat := 0
  deriving DecidableEq, Repr

/-- An engine running a job (R133, R135). -/
structure Engine where
  job : Job
  restarted : Bool
  held : Option EnginePos := none
  deriving DecidableEq, Repr

/-- An outward item being compressed (R137, R138): where it goes, its pieces' blocks as they end, and whether any was
stored after NO_GAIN. KIND 2 is an inspection item, 1 a firn. -/
structure OutItem where
  number : Nat
  firn : Bool
  insp : InspItem
  pieces : Nat
  blocks : SMap (List Byte) := []
  noGain : Bool := false
  deriving DecidableEq, Repr

/-- A moraine record's content before its SEQ is given (R208). -/
structure Moraine where
  type : Nat
  source : Nat
  et : ET
  layer : Nat
  band : Nat
  object : Nat
  detail : Nat
  seq : Nat
  node : Nat
  deriving DecidableEq, Repr

/-- A descriptor that completes once the partner has acknowledged its item (R427): the tandem SEQ awaited, the ring, the
code, the descriptor and its RESULT. -/
structure MirrorWait where
  seq : Nat
  port : Nat
  ring : Nat
  code : Nat
  desc : List Byte
  result : List Byte
  /-- Model time since which it has waited. -/
  since : Nat
  deriving DecidableEq, Repr

/-- Why the controller sent a MGMT request (R219, R249, R257, R259, R263, R242); dropped, one given up unanswered. -/
inductive MgmtWhy where
  | caps | clocking | rate | recFirst | recRest | drive | group | trims | slot | exec | measRead | loop | dropped
  deriving DecidableEq, Repr

/-- A MGMT request (R231): arming marks a rewrite made at an arming (R240). -/
structure MgmtReq where
  op : Nat
  space : Nat
  addr : Nat
  count : Nat
  data : List Byte
  why : MgmtWhy
  arming : Bool
  deriving DecidableEq, Repr

/-- A MGMT request outstanding (R233): its MTAG, the attempts failed, and the model time at which this one is. -/
structure MgmtOut where
  req : MgmtReq
  tag : Nat
  fails : Nat
  due : Nat
  /-- The last attempt was answered BUSY. -/
  busy : Bool := false
  deriving DecidableEq, Repr

/-- A RETIME to send (R227). -/
structure Retime where
  j : Nat
  t0 : ET
  p : Int
  d : Int
  deriving DecidableEq, Repr

/-- A packet for a lane (R223, R236). -/
inductive LaneItem where
  | calve (k trigger : Nat)
  | retime (r : Retime)
  | timeReq (tseq : Nat)
  | adj (tseq : Nat) (step rate : Int) (lock : Bool)
  | shot (index : Nat)
  | void (index : Nat) (tag : ET) (per : Int)
  | mgmt (tag : Nat) (req : MgmtReq)
  deriving DecidableEq, Repr

/-- A sequenced packet kept until it is acknowledged (R237): its LSEQ, the packet, the model time it was first sent, the
shot it carries, and whether a CALVE at or below its index has been sent since. -/
structure Kept where
  lseq : Nat
  item : LaneItem
  sentAt : Nat
  shot : Option Shot
  voided : Bool
  deriving DecidableEq, Repr

/-- A symbol of a head lane before its 8b/10b coding (R214): a data or a control character. -/
structure Symbol where
  ctl : Bool
  char : Byte
  deriving DecidableEq, Repr

/-- A lane beyond its registers (R214 to R237). -/
structure Lane where
  calves : List (Nat × Nat) := []
  replay : List Kept := []
  retimes : List Retime := []
  times : List LaneItem := []
  mgmtQ : List (Nat × MgmtReq) := []
  mgmtOut : List MgmtOut := []
  kept : List Kept := []
  current : Option LaneItem := none
  /-- The transmitter (R214, R215): running disparity, positive or not, and symbols since the start of the last FILL; for the
  packet in progress, its symbols with the FILLs among them, the disparity and the count before it, and its SOP's model time. -/
  plus : Bool := false
  gap : Nat := 2
  wire : List Symbol := []
  plusFrom : Bool := false
  gapFrom : Nat := 2
  wireFrom : Nat := 0
  /-- PRBS of a far-end loopback that waits for LINK.LOOP to be acknowledged (R242). -/
  loopWants : Option Nat := none
  /-- LSEQ of a replayed packet in progress, and the model time at which the packet in progress ends. -/
  replaying : Option Nat := none
  currentEnd : Nat := 0
  naks : List Nat := []
  lastTlm : Option Nat := none
  mtag : Nat := 0
  /-- Model times: SEEK entered, ENABLE set; the flags of R220 and R222. -/
  seekSince : Option Nat := none
  enabledAt : Option Nat := none
  failTold : Bool := false
  aligned : Bool := false
  switching : Bool := false
  noSwitch : Bool := false
  common : Bool := false
  /-- Symbol numbers of recent code errors (R221), and the elastic buffer's level (R216). -/
  errs : List Nat := []
  level : Nat := 16
  /-- R229, R230: rate correction, last θ (2^-16 ns) and one-way delay, ET and validity of the last exchange, sequence
  numbers and counts. -/
  h : Int := 0
  theta : Int := 0
  oneWay : Int := 0
  thetaAt : Option ET := none
  tseq : Nat := 0
  reqOut : Option Nat := none
  good : Nat := 0
  bad : Nat := 0
  timeDue : Nat := 0
  /-- TSEQ of the last RSP, and the ETM.RATE and the sum of ET steps that the last ADJ took in (R229). -/
  rspSeq : Nat := 0
  rateSent : Int := 0
  stepSeen : Int := 0
  /-- Model time at which an AUTO_ALIGN search that found nothing starts again (R220). -/
  retryAt : Option Nat := none
  caps : Option Nat := none
  toldCaps : Bool := false
  toldRate : Bool := false
  toldCable : Bool := false
  /-- FAULT of the TLM taken last from the port's head, if one has been, and whether none has been taken since bring-up
  (R260). -/
  fault : Option Nat := none
  faultNew : Bool := false
  deriving DecidableEq, Repr

/-- A head beyond its registers (R246 to R265). -/
structure HeadX where
  record : List Byte := []
  accepted : Option (Nat × Nat × Nat) := none
  /-- What the head has acknowledged: drive set, group table, slot image. -/
  drive : Option (List Byte) := none
  groups : Option (List Byte) := none
  slots : Option (List Byte) := none
  /-- Lowest and highest groups whose TRIM has changed and is not sent, with the model time it must be sent by (R259). -/
  trim : Option (Nat × Nat × Nat) := none
  /-- Model time at which the next idle slot begins; the group being measured with its reads so far (R262, R263). -/
  idleDue : Option Nat := none
  /-- Tag of the last shot accounted fired, which no calve has cut (R159). -/
  lastTag : Option ET := none
  /-- A calve report still awaited from the head after the layer it was sent in has ended (R150, R165). -/
  await : Option Await := none
  measuring : Option (Nat × Nat) := none
  /-- The last FULL TLM and the model time it came (R367). -/
  full : Option TlmFull := none
  fullAt : Nat := 0
  /-- Model time of its next read. -/
  measDue : Nat := 0
  deriving DecidableEq, Repr

/-- A frame of a context from its FS on (R281 to R289): its number, stamps, lines as received, bytes still in the input
FIFO, causes of BAD, the active set it uses, and the trigger it belongs to. -/
structure Frame where
  ctx : Nat
  num : Nat
  fsEt : ET
  params : SMap Nat
  trigSeq : Nat
  trigEt : ET
  lines : List (List Byte) := []
  queued : Nat := 0
  bad : Nat := 0
  /-- Stamp of its FE once that has come. -/
  ended : Option ET := none
  lost : Bool := false
  current : Bool := false
  /-- The number its FS carried (R283), and its slot of the frame store (R307). -/
  recv : Nat := 0
  slot : Nat := 0
  deriving DecidableEq, Repr

/-- A camera context beyond its registers (R282, R302, R303). -/
structure CamCtx where
  /-- An FS has come since commit. -/
  seen : Bool := false
  /-- Triggers of the run so far, triggers whose edge has come, and the least traverse count and the greatest ext since
  START. -/
  k : Nat := 0
  posDue : List (Nat × ET) := []
  least : Int := 0
  greatest : Option Int := none
  /-- The end of the exposure window in progress. -/
  windowEnd : Option ET := none
  /-- The last triggers of the run, newest first. -/
  trigs : List (Nat × ET) := []
  /-- The last trigger was skipped. -/
  skipping : Bool := false
  deriving DecidableEq, Repr

/-- The open evidence window of heal (R312 to R315): its layer as it completed, the model time it ends at most, and the
evidence by 4 × row + pipeline as (Σ MEAN × COLS, Σ COLS). -/
structure HealWindow where
  layer : Nat
  bands : Nat
  heads : Nat
  /-- Heads out of firing in the layer (R169). -/
  outHeads : List Nat
  aborted : Bool
  truncated : Bool
  modeOff : Bool
  frozen : Bool
  /-- Head, first group and groups of entries with cause MISPLACED or UNCERTAIN. -/
  spoilt : List (Nat × Nat × Nat)
  accSet : Nat
  /-- T_done, and T_done + HEL.WINDOW.MS (R312). -/
  tDone : ET
  tMax : ET
  evidence : SMap (Nat × Nat) := []
  records : Nat := 0
  unusedTold : Bool := false
  deriving DecidableEq, Repr

/-- An evaluation begun and not ended (R318): the set it reads, its report, and the counts EV054 carries. -/
structure HealEval where
  accSet : Nat
  layer : Nat
  report : List Byte
  weakened : Nat
  retired : Nat
  returned : Nat
  deferred : Nat
  entries : Nat
  deriving DecidableEq, Repr


/-- A waiting ratio change (R355): NUM, DEN and X. -/
structure Ratio where
  num : Int
  den : Nat
  x : Nat
  deriving DecidableEq, Repr

/-- An edge that a later one may undo (R330): its line, the level after it and its stamp; whether an illegal transition has
discarded it; and the encoder's count, the shown stamp, the stamp queue, the Z latch and its flag, the estimator, the ratio
changes reached on each geared axis, and the traverse counts that each camera context has seen, as they stood before it. -/
structure LastEdge where
  line : EncLine
  level : Bool
  stamp : ET
  dead : Bool := false
  before : Nat
  est : Estimator
  shown : Nat := 0
  queue : List ET := []
  zlatch : Nat := 0
  zvalid : Bool := false
  gears : List (Nat × Nat) := []
  cams : List (Nat × Int × Option Int) := []
  deriving DecidableEq, Repr

/-- An encoder input beyond its registers (R57, R58, R330, R332): its levels, its edges of the last 17.5 ns with the newest
first, the ET at which each entry of its stamp queue leaves it, the model time from which EV(168 + n) may be raised again for an
illegal transition, and a count written for the next motion tick. -/
structure EncX where
  a : Bool := false
  b : Bool := false
  z : Bool := false
  recent : List LastEdge := []
  queue : List ET := []
  illegalFrom : Nat := 0
  write : Option Nat := none
  deriving DecidableEq, Repr

/-- Consecutive samples of an input that differ from its qualified level, and POS at the first of them (R358). -/
structure Sampled where
  run : Nat := 0
  pos : Int := 0
  deriving DecidableEq, Repr

/-- An axis beyond its registers (R333 to R362). Positions count 2^-32 steps and do not wrap; speeds count 10^-12
steps/s, and accelerations 10^-6 steps/s², so that one tick of 1 µs adds the one to the other. -/
structure Axis where
  pos : Int := 0
  /-- What the profile has travelled beyond pos, in parts of 2^-32 step. -/
  part : Int := 0
  vel : Int := 0
  acc : Int := 0
  /-- Steps emitted, as a position; model times of the last profile update and of the last step. -/
  out : Int := 0
  tickAt : Nat := 0
  lastStep : Nat := 0
  stepDue : Option Nat := none
  /-- Direction ball: negative; model time of its last change. -/
  neg : Bool := false
  dirAt : Nat := 0
  /-- Target of the move in progress; queued moves as target and speed; the VELOCITY set-point in 2^-8 steps/s. -/
  target : Option Int := none
  queue : List (Int × Nat) := []
  vset : Int := 0
  /-- Limits the move in progress carries; 0: the axis's register. -/
  mv : Nat := 0
  ma : Nat := 0
  mj : Nat := 0
  /-- Deceleration in progress that ends at rest: 0 none, 1 at AMAX and JMAX, 2 at EDEC. -/
  slow : Nat := 0
  /-- Limits of acceleration and jerk of the last tick, 0 for no tick yet, and those of the plan that R343 lets a deferred
  deceleration use (steps/s², 256 steps/s³). -/
  usedA : Nat := 0
  usedJ : Nat := 0
  planA : Nat := 0
  planJ : Nat := 0
  /-- Gearing (R354, R355), and the mode before it. -/
  num : Int := 0
  den : Nat := 1
  m0 : Nat := 0
  p0 : Int := 0
  enc : Nat := 0
  changes : List Ratio := []
  /-- How many of the waiting changes have been reached since the last motion tick. -/
  reached : Nat := 0
  prior : Nat := 1
  /-- Homing (R360): step 0 to 3, direction negative, OFFSET, HOME_POS, speed, start and reference. -/
  stage : Nat := 0
  hneg : Bool := false
  hofs : Int := 0
  hpos : Int := 0
  hspeed : Nat := 0
  hstart : Int := 0
  href : Int := 0
  /-- Model time at which the lockout of R360 ends. -/
  lockout : Nat := 0
  limP : Sampled := {}
  limN : Sampled := {}
  homeIn : Sampled := {}
  /-- The GPIO home input is qualified active. -/
  homeAct : Bool := false
  /-- Model time since which the axis has been at rest, and whether HOLD is in force (R350). -/
  restSince : Nat := 0
  hold : Bool := false
  /-- Active microstep tables, TA then TB; none: those of R351. -/
  ustep : Option (List Nat) := none
  deriving DecidableEq, Repr

/-- A DRV line beyond its registers (R352, R353): frames sent since ENABLE, records and SEQ of the last (the first
carries 0), and the ET at which the next is due. -/
structure DrvLine where
  frames : Nat := 0
  nax : Nat := 0
  seq : Nat := 255
  due : Option ET := none
  deriving DecidableEq, Repr

/-- A loop slot beyond its registers (R370, R373): the value last written to its destination, its previous measurement,
the manual output, the loop tick since which |e| has been beyond the limit, the last e, and the loop tick it was last
evaluated at. -/
structure Slot where
  last : Int := 0
  yPrev : Option Int := none
  man : Int := 0
  alarmSince : Option Nat := none
  lastE : Int := 0
  evalAt : Option Nat := none
  deriving DecidableEq, Repr

/-- A competition group (R373): its winner, and the model time from which EV179 may be raised again. -/
structure Group where
  winner : Option Nat := none
  tellFrom : Nat := 0
  deriving DecidableEq, Repr

/-- A trigger of sparing (R407): channel, rank and CAUSE of R410. -/
structure SpareWant where
  channel : Nat
  rank : Nat
  cause : Nat
  deriving DecidableEq, Repr

/-- A migration in progress (R408), with the copy pointer C. -/
structure Migration where
  want : SpareWant
  copied : Nat
  deriving DecidableEq, Repr

/-- A tandem frame kept until it is acknowledged (R423): its SEQ, its TYPE, the fire-log records in it, and its bytes. -/
structure TFrame where
  seq : Nat
  type : Nat
  records : Nat
  bytes : List Byte
  deriving DecidableEq, Repr

/-- A head whose accounting a takeover awaits (R440): the model time at which its TLM is overdue, and x(h). -/
structure TakeHead where
  head : Nat
  due : Nat
  x : Int
  deriving DecidableEq, Repr

/-- The tandem state machine and link beyond their registers (R413 to R446). -/
structure Tandem where
  /-- Model times: of the next HEARTBEAT, health report and idle firn; at which a secondary's start wait ends; at which the
  partner was heard last, or was first to be heard. -/
  hbDue : Nat := 0
  healthDue : Nat := 0
  idleDue : Nat := 0
  startDue : Option Nat := none
  heard : Nat := 0
  /-- The partner's present absence has been told (R428). -/
  missTold : Bool := false
  /-- The last HEARTBEAT received (R431). -/
  last : Option HeartbeatMsg := none
  /-- Model time at which the partner was declared unfit, and the SEQ of the first HEARTBEAT sent since (R428). -/
  unfit : Option Nat := none
  unfitSeq : Option Nat := none
  /-- Frames sent and not acknowledged, oldest first, and the SEQ of the frame received last. -/
  kept : List TFrame := []
  /-- Running disparity of each tandem lane's transmitter (R421). -/
  plus : SMap Bool := []
  rxSeq : Option Nat := none
  /-- CMD completions that wait for a HEARTBEAT that shows their effect to be sent (R427). -/
  hbWait : List MirrorWait := []
  /-- Number of the next firn, SEQ of the last FIRE_LOG or CHANGE frame sent, and what the last firn carried (R434, R435). -/
  firnNext : Nat := 0
  logSeq : Nat := 0
  nzt : SMap Ver := []
  sub : SMap Ver := []
  grey : SMap Ver := []
  runs : SMap Nat := []
  /-- A full firn has been asked for (R429). -/
  fullWanted : Bool := false
  /-- Standby: the firn applied last; SYNC has held since before the armed layer's arming (R430); the owner's EMIT_CRC by
  65,536 × head + band with its NOT_COMPARED flag; changes that wait for their b* (R433). -/
  firnTaken : Option Nat := none
  /-- The firn received last, the firns received whose pieces are not all decoded (R138), oldest first, with the pieces left,
  and a TAKEBACK_GO that waits for them to be applied (R445). -/
  firnHeard : Option Nat := none
  firns : List (FirnMsg × Nat) := []
  goWaits : Bool := false
  whole : Bool := false
  crcs : SMap (Nat × Bool) := []
  changes : List ChangeRec := []
  /-- Records received while STALE, with the SEQ of their frame, oldest first: those later than a full firn's LOG_SEQ are applied
  after it (R429, R435). -/
  later : List (Nat × List FireLogRec × List ChangeRec) := []
  changeId : Nat := 0
  /-- RESYNC has been sent for the present STALE. -/
  resynced : Bool := false
  /-- Bands matched and mismatched since the last health report (R438). -/
  matched : Nat := 0
  mismatched : Nat := 0
  /-- Owner: the next layer is not armed until take-back is settled; model time at which TAKEBACK_GO was sent (R445). -/
  hold : Bool := false
  goAt : Option Nat := none
  /-- Model time since which both claim lines have been asserted (R446). -/
  bothSince : Option Nat := none
  /-- A primary that has claimed by take-back still awaits that CLAIM_S is deasserted (R445). -/
  backing : Bool := false
  /-- Inspection stopped with the loss of ownership (R278, R443). -/
  inspStopped : Bool := false
  /-- The lane that is the spare, or was it before it came into the bond (R422). -/
  spare : Nat := 4
  /-- A takeover's accounting: heads that it awaits, and lines entered (R440). -/
  taking : Bool := false
  takes : List TakeHead := []
  takeLines : Nat := 0
  deriving DecidableEq, Repr

/-- Power states beyond their registers (R463 to R468): an exit in progress, as the state it goes to and the model time at
which it completes. -/
structure Power where
  exit : Option (Nat × Nat) := none
  deriving DecidableEq, Repr

/-- The always-on island beyond its registers (R461, R469 to R472); it keeps what a controller reset keeps. -/
structure Island where
  /-- Rails: 0 down, 1 an enable asserted and its power-good awaited, 2 dwell, 3 up, 4 going down; with the step, and the
  model time at which the wait ends. -/
  phase : Nat := 0
  step : Nat := 0
  due : Nat := 0
  /-- A rail fault asks for a retry, and its model time once the rails are down (R471). -/
  retryDue : Option Nat := none
  retry : Bool := false
  /-- The rails stay down until a reading below 100 °C (R472). -/
  thermHold : Bool := false
  /-- VIN has fallen (R512). -/
  vinOff : Bool := false
  /-- Model time of the next temperature reading; a reading has come since the controller reset. -/
  thermDue : Nat := 1000000
  thermSeen : Bool := false
  /-- The loader has held an image since the reset (R489). -/
  loaded : Bool := false
  /-- Events that wait for the next start-up (R449, R462, R471, R472), as source, cause and items. -/
  bootEvents : List (Nat × Nat × List (Nat × Nat)) := []
  /-- Model time of the reset release (R489), and at which a watchdog expiry resets the controller (R462). -/
  relAt : Nat := 0
  wdogDue : Option Nat := none
  deriving DecidableEq, Repr

/-- A commit in progress (R481): who asked for it (0 port A, 1 port B, 2 the loader), and what it took when it started: the
digest, the GPIO claimed, and the capture units that made a claim. -/
structure Commit where
  source : Nat
  digest : List Byte
  claimed : Nat
  caps : Nat
  deriving DecidableEq, Repr

/-- The loader, the commit and the flash beyond their registers (R477 to R490). -/
structure Conf where
  /-- The moraine scan of this start-up has ended. -/
  scanned : Bool := false
  /-- The slots hold valid copies. -/
  validA : Bool := false
  validB : Bool := false
  commit : Option Commit := none
  /-- Capture units that made a claim at commit, one bit each (R484). -/
  caps : Nat := 0
  /-- Slot being written, and the sectors its image takes; the ledger is being erased. -/
  writing : Option Nat := none
  sectors : Nat := 0
  erasing : Bool := false
  deriving DecidableEq, Repr
/-- Everything of the controller but the queue of waiting commands. -/
structure Chip where
  /-- Register fields that do not hold their reset value, by Field.key. -/
  regs : SMap Nat := []
  /-- What has been put out, oldest first (the model's own). -/
  out : List Output := []
  /-- ET with the 32 fraction bits below it that R47 keeps. -/
  et : BitVec 96 := 0
  /-- Elapsed nanoseconds since reset, which timeouts count (R74) (the model's own). -/
  clk : Nat := 0
  /-- Draw counter of the free values (the model's own). -/
  fresh : Nat := 0
  evPend : List EvRecord := []
  msix : SMap MsixEntry := []
  /-- The PCIe functions' own settings, by port (R81). -/
  pcie : SMap PcieFn := []
  /-- Vectors raised in P3, as port and vector, oldest first: they are delivered after the exit (R503). -/
  heldVectors : List (Nat × Nat) := []
  rings : SMap RingX := []
  stateItems : List StateItem := []
  inspItems : List InspItem := []
  /-- Port A wins the next semaphore tie (R114). -/
  semTieA : Bool := true
  /-- R50: latched upper halves, by port and pair. -/
  latches : SMap Nat := []
  servo : Servo := {}
  ptp : SMap PtpPort := []
  sched : List Sched := []
  /-- Bytes of the DRAM block area that blocks not yet finished by Churn occupy (R109). -/
  blockUsed : Nat := 0
  /-- Registered layers, the armed one first where one is armed (R147, R148). -/
  layers : List Layer := []
  run : Option Run := none
  /-- The 16 layers completed most recently with their MISSING, newest first (R531). -/
  recent : List (Nat × Nat) := []
  est : Estimator := {}
  /-- Next shot index of each head (R145), and the last shot index accounted. -/
  nextIndex : SMap Nat := []
  /-- Bands of each head counted in order of registration (R390). -/
  bandCount : SMap Nat := []
  nzt : SMap Ver := []
  sub : SMap Ver := []
  /-- Grey tables, by 64 × table + head (R184, R191). -/
  grey : SMap Ver := []
  /-- Correctable errors of each memory row since reset (R206). -/
  rowErrs : SMap Nat := []
  sparesOut : Bool := false
  /-- Records in flash, and records taking effect that await flash or stay on chip (R208, R210), oldest first. -/
  ledger : List (List Byte) := []
  ledgerPend : List (List Byte) := []
  ledgerFull : Bool := false
  jobs : List Job := []
  engines : SMap Engine := []
  outItems : List OutItem := []
  itemNo : Nat := 0
  /-- Expected-deposit counters by nozzle table row, and the two accumulator sets (R310). -/
  deposit : SMap Nat := []
  acc0 : SMap Nat := []
  acc1 : SMap Nat := []
  accNext : Nat := 0
  /-- The partner tracks this owner (R427), the SEQ of the next mirrored message, and the completions that wait. -/
  tracked : Bool := false
  mirrorSeq : Nat := 0
  mirrorWait : List MirrorWait := []
  lanes : SMap Lane := []
  heads : SMap HeadX := []
  /-- Sum of all steps of ET since reset (R74, R229). -/
  stepSum : Int := 0
  /-- Wraps of ET since reset, with those a step has carried it over: what stands above ET where time is counted on over its wrap
  (R54). No write of ETM.ERA changes it. -/
  wraps : Int := 0
  /-- Whole microseconds of ET, with its wraps above them, at which ETM's count of loop ticks would have been 0 (R365): an ET step
  moves it with ET. -/
  tickBase : Int := 0
  /-- MOT.CTRL.ESTOP has been written since the last motion tick (R334). -/
  estopDue : Bool := false
  /-- Firing gates: model time since which FIRE_EN is driven (R261), at which a settle ends (R268), and since which each
  channel has differed from its condition's vote, plus 1 (R273). -/
  fireSince : Option Nat := none
  settleDue : Option Nat := none
  chanSince : SMap Nat := []
  /-- Frames open or waiting, oldest first; frame store slots taken, oldest first, as (context, frame); contexts. -/
  frames : List Frame := []
  camSlots : List (Nat × Nat) := []
  camCtx : SMap CamCtx := []
  /-- Run counts by nozzle table row: RUN_HI + 8 × RUN_LO (R317). -/
  runCounts : SMap Nat := []
  healWin : Option HealWindow := none
  healEval : Option HealEval := none
  /-- The windows that have ended, the last first: T_done, T_end, and whether it has raised EV058 (R313). -/
  healPast : List (ET × ET × Bool) := []
  /-- The layer that heal evaluated last (R326, R435). -/
  healEvaluated : Option Nat := none
  /-- Nozzles whose substituted drops were lost in some layer (R192). -/
  lostTold : List Nat := []
  /-- Model time since which the next arming waits for an evaluation (R311). -/
  armWaitSince : Option Nat := none
  /-- Encoders, axes and DRV lines. -/
  encs : SMap EncX := []
  axes : SMap Axis := []
  drv : SMap DrvLine := []
  /-- Loop slots and groups; commands accepted that wait for their slot's next evaluation, oldest first (R376). -/
  slots : SMap Slot := []
  groups : SMap Group := []
  loopCmds : List (Nat × Nat) := []
  /-- Inputs that have left their window and not come back (R381), and whether EV182 has been raised for the present loss of
  the VFF input (R371). -/
  ainLeft : List Nat := []
  vffTold : Bool := false
  /-- Inputs converted since reset (R381); by converter, the loop tick of its last result, plus 1 (R380). -/
  ainConv : List Nat := []
  adcAt : SMap Nat := []
  /-- Duties written by slots (R383), and the model time at which the PWM counters started (R382). -/
  pwmDuty : SMap Nat := []
  pwmStart : Nat := 0
  /-- By channel, the counter periods begun at PHASE up to the last at which a duty took effect (R383). -/
  pwmPass : SMap Nat := []
  /-- The loop tick of the last motion tick, and the limit inputs as it sampled them (R334). -/
  motionAt : Option Nat := none
  limp : BitVec 8 := 0
  limn : BitVec 8 := 0
  /-- DRAM: the regions laid out at commit, as base and size (R389). -/
  regions : List (Nat × Nat) := []
  /-- DETAIL, plus 1, of the latest SPARE_RANK record that named a rank at start-up, by 4 × channel + rank (R409). -/
  rankRecs : SMap Nat := []
  migration : Option Migration := none
  wanted : Option SpareWant := none
  /-- Polls in a row at normal rate, and the model time of the next refresh due, by logical rank (R397, R398). -/
  calmPolls : SMap Nat := []
  refreshDue : SMap Nat := []
  leakDue : Nat := 0
  /-- Model time of the next retraining by interval, by 4 × channel + rank, and ranks to be retrained after self-refresh (R395,
  R400). -/
  eyeDue : SMap Nat := []
  eyeOwed : List Nat := []
  /-- Model time of the next poll of MR4, by logical rank (R398). -/
  pollDue : SMap Nat := []
  /-- Units read in the present patrol pass, and the model time at which the pass began (R406). -/
  scrubbed : Nat := 0
  scrubStart : Nat := 0
  /-- Open banks, as 32 × logical rank + bank: the open row, and the model time of the last access, plus 1 (R396). -/
  banks : SMap (Nat × Nat) := []
  /-- Correctable errors of a rank since the last EV195, and the model time from which it may be raised (R404). -/
  ceSince : SMap Nat := []
  ceTellFrom : SMap Nat := []
  /-- Every rank is in self-refresh (R400). -/
  selfRefresh : Bool := false
  /-- Poisoned units of the heal accumulators, as 12,288 × set + row / 16 (R403). -/
  healPoison : List Nat := []
  /-- Poisoned units of the copies of the tables (R204, R403). -/
  copyPoison : List Nat := []
  tdm : Tandem := {}
  /-- Always-on island: the last claim loss was a watchdog expiry (R446). -/
  wdogLoss : Bool := false
  power : Power := {}
  island : Island := {}
  /-- Model time until which the handshake of the last CLEAR_STRIKE pulse may last (R453). -/
  strikeUntil : Nat := 0
  /-- Quarantined crossings, as number and instance, 64 for every instance at once (R458). -/
  quar : List (Nat × Nat) := []
  conf : Conf := {}
  /-- Positions of the ledger that hold no good record (R487). -/
  ledgerTorn : Nat := 0
  deriving DecidableEq, Repr

/-- The machine: the controller, and the commands that wait, first in, first out. -/
structure State extends Chip where
  pending : List Instr := []
  deriving DecidableEq, Repr

/-- The controller right after power-on reset with the straps at 0: every register field at its reset value, nothing
listed in any map, no command waiting (R20, R502). -/
def State.reset : State := {}

end Sys2Proof.Machine
end

