-- ==== Sys2Proof/Machine/Ops.lean ====
section
/-! DEFINITION. Machine/Ops.lean: the named operations every meaning is built from: reading and writing a register
field, counting, putting something out, drawing a free value, and a host word as its fields' access codes take it. -/

namespace Sys2Proof.Machine

/-- The value of a register field. -/
def Chip.get (c : Chip) (f : Field) : Nat := SMap.get f.rst f.key c.regs

/-- A register field set; a value wider than the field keeps its low bits. -/
def Chip.put (c : Chip) (f : Field) (v : Nat) : Chip :=
  { c with regs := SMap.set f.rst f.key (v % 2 ^ f.width) c.regs }

/-- A signed field (R12). -/
def Chip.getI (c : Chip) (f : Field) : Int := signed f.width (c.get f)

/-- A signed field set (R12). -/
def Chip.putI (c : Chip) (f : Field) (v : Int) : Chip := c.put f (unsigned f.width v)

/-- A signed field set to the nearest value it can hold. -/
def Chip.putSat (c : Chip) (f : Field) (v : Int) : Chip :=
  c.putI f (clampI v (-(2 ^ (f.width - 1))) (2 ^ (f.width - 1) - 1))

/-- Whether a one-bit field is set. -/
def Chip.flag (c : Chip) (f : Field) : Bool := decide (c.get f ≠ 0)

/-- A one-bit field set or cleared. -/
def Chip.putB (c : Chip) (f : Field) (b : Bool) : Chip := c.put f (b2n b)

/-- A count that saturates at the largest value of its field. -/
def Chip.bump (c : Chip) (f : Field) (n : Nat) : Chip := c.put f (satAdd f.width (c.get f) n)

/-- One bit of a field. -/
def Chip.bitOf (c : Chip) (f : Field) (i : Nat) : Bool := bit (c.get f) i

/-- One bit of a field set or cleared. -/
def Chip.putBit (c : Chip) (f : Field) (i : Nat) (b : Bool) : Chip :=
  let v := c.get f
  c.put f (if b then v ||| 2 ^ i else if bit v i then v - 2 ^ i else v)

/-- A 64-bit value held in two registers. -/
def Chip.get64 (c : Chip) (lo hi : Field) : Nat := c.get lo + 2 ^ 32 * c.get hi

/-- A 64-bit value put into two registers. -/
def Chip.put64 (c : Chip) (lo hi : Field) (v : Nat) : Chip := (c.put lo (v % 2 ^ 32)).put hi (v / 2 ^ 32)

/-- A field cleared as an RC read clears it, with its value. -/
def Chip.clear (c : Chip) (f : Field) : Chip := c.put f 0

/-- Something put out. -/
def Chip.emit (c : Chip) (o : Output) : Chip := { c with out := c.out ++ [o] }

/-- Several things put out, in order. -/
def Chip.emits (c : Chip) (os : List Output) : Chip := { c with out := c.out ++ os }

/-- The draw counter advanced past one free value. -/
def Chip.drawn (c : Chip) : Chip := { c with fresh := c.fresh + 1 }

/-- A condition under which an operation acts. -/
def Chip.on (c : Chip) (b : Bool) (f : Chip → Chip) : Chip := if b then f c else c

/-- ET now (R46): the visible 64 bits. -/
def Chip.now (c : Chip) : ET := BitVec.ofNat 64 (c.et.toNat / 2 ^ 32)

/-- ET now in whole nanoseconds. -/
def Chip.nowNs (c : Chip) : Nat := c.et.toNat / 2 ^ 48

/-- A ring's number among both ports' rings. -/
def ringId (p n : Nat) : Nat := 64 * p + n

/-- A ring beyond its registers. -/
def Chip.ring (c : Chip) (p n : Nat) : RingX := SMap.get {} (ringId p n) c.rings

/-- A ring's own data replaced. -/
def Chip.setRing (c : Chip) (p n : Nat) (r : RingX) : Chip :=
  { c with rings := SMap.set {} (ringId p n) r c.rings }

/-- The 128 rings, port A's before port B's. -/
def allRings : List (Nat × Nat) := (List.range 128).map fun k => (k / 64, k % 64)

/-- The place after those of the motion commands that act at the next tick (R56). -/
def Chip.nextDue (c : Chip) : Nat := 1 + allRings.foldl (fun m r => max m ((c.ring r.1 r.2).atDue.getD 0)) 0

/-- A network port beyond its registers. -/
def Chip.ptpPort (c : Chip) (q : Nat) : PtpPort := SMap.get {} q c.ptp

/-- A network port's own data replaced. -/
def Chip.setPtp (c : Chip) (q : Nat) (x : PtpPort) : Chip := { c with ptp := SMap.set {} q x c.ptp }

/-- Every index of a list of indices acted on in ascending order. -/
def Chip.each {α : Type} (c : Chip) (l : List α) (f : Chip → α → Chip) : Chip := l.foldl f c

/-- The value a written word carries for a field, within the field's limits (R73 and the notes of the register
tables). -/
def FieldSpec.value (f : FieldSpec) (v : Nat) : Nat := clampN (bits v f.lo f.width) f.min f.max

/-- Register fields take a written word under their access codes (R17); locked: RWL fields keep their values (R529). -/
def Chip.writeField (c : Chip) (off : Nat) (locked : Bool) (v : Nat) (f : FieldSpec) : Chip :=
  match f.access with
  | .ro => c
  | .wo => c
  | .rc => c
  | .rw => c.put (f.at off) (f.value v)
  | .rwl => if locked then c else c.put (f.at off) (f.value v)
  | .w1c =>
    let old := c.get (f.at off)
    c.put (f.at off) (old &&& (2 ^ f.width - 1 - bits v f.lo f.width))

/-- A word written into every field of its register. -/
def Chip.writeFields (c : Chip) (off : Nat) (locked : Bool) (v : Nat) : Chip :=
  (fieldsAt off).foldl (fun c f => c.writeField off locked v f) c

/-- The word a register reads as: its readable fields in their places, write-only fields and reserved bits 0 (R17, R19). -/
def Chip.readWord (c : Chip) (off : Nat) : Nat :=
  (fieldsAt off).foldl (fun w f => if f.access = .wo then w else w + c.get (f.at off) * 2 ^ f.lo) 0

/-- Every field of a register array's offset range returned to its reset value. -/
def Chip.resetRange (c : Chip) (lo hi : Nat) : Chip :=
  { c with regs := SMap.drop (fun k => decide (32 * lo ≤ k ∧ k < 32 * hi)) c.regs }

/-- The outcome of a command that leaves the queue as it is: the next state holds this controller. -/
def State.go (s : State) (c : Chip) : Host.Outcome State Fault Refusal := .next { s with toChip := c }

/-- The outcome of a command to a block that works in the power states up to one: stopped in a deeper one, it does nothing
(R463). -/
def State.goIn (s : State) (deepest : Nat) (f : Chip → Chip) : Host.Outcome State Fault Refusal :=
  s.go (if deepest < s.toChip.get Reg.CKP_STATUS_PSTATE then s.toChip else f s.toChip)

end Sys2Proof.Machine
end

