-- ==== Sys2Proof/Machine/Event.lean ====
section
/-! DEFINITION. Machine/Event.lean: the event unit: raising a source (R492), its record (R493, R494), its route, mask
and vector (R495, R498), the class of a raise (R499, R500), the records that wait for a slot (R112, R496), and
the quarantine of a crossing (R458). -/

namespace Sys2Proof.Machine

/-- DATA of a record: each item at the next offset that is a multiple of its width, bytes after the last item 0 (R494). -/
def evData (items : List (Nat × Nat)) : List Byte :=
  let bs := items.foldl (fun bs i =>
    let gap := (i.1 - bs.length % i.1) % i.1
    bs ++ leBytes gap 0 ++ leBytes i.1 i.2) []
  bs ++ leBytes (24 - bs.length) 0

/-- The class of a raise (R500): lane sources and axis sources take theirs from the cause. -/
def classOf (src cause : Nat) : Nat :=
  if 64 ≤ src ∧ src < 112 then
    if cause = 17 then 3 else if cause = 15 ∨ cause = 16 ∨ cause = 19 then 0 else 1
  else if 160 ≤ src ∧ src < 168 then
    if cause = 2 then 3 else if cause = 5 ∨ cause = 6 then 1 else 0
  else Reg.sourceClass src

/-- Whether a source's class depends on the cause of the raise (R500). -/
def classVaries (src : Nat) : Bool := decide (64 ≤ src ∧ src < 112) || decide (160 ≤ src ∧ src < 168)

/-- Whether a ring is an enabled EVENT ring (R496). -/
def Chip.eventRing (c : Chip) (p n : Nat) : Bool :=
  decide (c.get (Reg.HIF_RING_STATUS_STATE p n) = 1) && decide (c.get (Reg.HIF_RING_CFG_TYPE p n) = 5)

/-- The ring a source's records go to (R495): port and ring, while RING_EN is 1. -/
def Chip.routeOf (c : Chip) (src : Nat) : Option (Nat × Nat) :=
  if c.flag (Reg.EVT_ROUTE_RING_EN src) then
    some (c.get (Reg.EVT_ROUTE_PORT src), c.get (Reg.EVT_ROUTE_RING src))
  else none

/-- Slots posted to an EVENT ring beyond the records pending for it. -/
def Chip.freeSlots (c : Chip) (p n : Nat) : Nat :=
  if c.eventRing p n then
    let posted := (c.get (Reg.HIF_RING_FAULT_PI p n) + 65536 - c.get (Reg.HIF_RING_STATUS_CI p n)) % 65536
    posted - (c.evPend.filter fun r => decide (c.routeOf r.source = some (p, n))).length
  else 0

/-- Sources with a record pending, shown in EVT.PENDING and EVT.PENDk. -/
def Chip.showPending (c : Chip) (src : Nat) : Chip :=
  let has := c.evPend.any fun r => decide (r.source = src)
  let c := c.putBit (Reg.EVT_PEND_PEND (src / 32)) (src % 32) has
  c.put Reg.EVT_PENDING_COUNT ((c.evPend.map (·.source)).dedup.length)

/-- A record put in its place among records in order of source. -/
def insertBySource (r : EvRecord) : List EvRecord → List EvRecord
  | [] => [r]
  | q :: l => if r.source < q.source then r :: q :: l else q :: insertBySource r l

/-- The records held for a ring whose slots now suffice for all of them have slots of their own, in order of source (R112). -/
def Chip.settleHeld (c : Chip) (p n : Nat) : Chip :=
  let held := fun (r : EvRecord) => decide (c.routeOf r.source = some (p, n)) && !r.slotted
  let now := ((c.evPend.filter held).foldr insertBySource []).map fun (r : EvRecord) => { r with slotted := true }
  { c with evPend := (c.evPend.filter fun r => !held r) ++ now }

/-- A record held, in place of one of its source that is held already; the later of the two stands for both (R112). -/
def Chip.holdRecord (c : Chip) (r : EvRecord) : Chip :=
  match c.evPend.find? (fun q => decide (q.source = r.source) && !q.slotted) with
  | none => { c with evPend := c.evPend ++ [{ r with slotted := false }] }
  | some old =>
    let late := if later (BitVec.ofNat 32 old.seq) (BitVec.ofNat 32 r.seq) then old else r
    { c with evPend := c.evPend.map fun (q : EvRecord) =>
        if q.source = r.source ∧ q.slotted = false then { late with count := old.count + r.count, slotted := false } else q }

/-- A ring is no enabled EVENT ring any more: its records lose their slots and are held (R496). -/
def Chip.loseSlots (c : Chip) (p n : Nat) : Chip :=
  let mine := fun (r : EvRecord) => decide (c.routeOf r.source = some (p, n)) && r.slotted
  let d := (c.evPend.filter mine).foldl (fun (c : Chip) r => c.holdRecord r) { c with evPend := c.evPend.filter fun r => !mine r }
  if d.evPend.length < c.evPend.length then d.setRing p n { d.ring p n with coalesced := true } else d

/-- A record offered for delivery: it takes a free slot of its ring if there is one; else it is held, and replaces the
record of its source that is held already, whose count it takes over (R112, R496). -/
def Chip.offer (c : Chip) (r : EvRecord) : Chip :=
  match c.routeOf r.source with
  | none => c
  | some (p, n) =>
    if c.freeSlots p n ≠ 0 then
      let c := c.settleHeld p n
      ({ c with evPend := c.evPend ++ [{ r with slotted := true }] }).showPending r.source
    else
      match c.evPend.find? (fun q => decide (q.source = r.source) && !q.slotted) with
      | none => (c.holdRecord r).showPending r.source
      | some _ =>
        let c := c.holdRecord r
        (c.setRing p n { c.ring p n with coalesced := true }).showPending r.source

/-- A vector of a port signalled: an MSI-X message, or the pending bit of a masked vector; nothing while the port's
link is down (R498). In P3 the message waits for the exit (R503). -/
def Chip.vector (c : Chip) (p v : Nat) : Chip :=
  if c.get (Reg.HIF_STATUS_SPEED p) = 0 then c
  else
    let e := SMap.get {} (64 * p + v) c.msix
    if e.masked || (SMap.get {} p c.pcie).fnMasked then { c with msix := SMap.set {} (64 * p + v) { e with pending := true } c.msix }
    else if c.get Reg.CKP_STATUS_PSTATE = 3 then { c with heldVectors := c.heldVectors ++ [(p, v)] }
    else c.emit (.msix p v)

/-- R492: a source is raised with a cause and the items of its record. -/
def Chip.raise (c : Chip) (src cause : Nat) (items : List (Nat × Nat)) : Chip :=
  let cls := classOf src cause
  let seq := c.get Reg.EVT_SEQ_NEXT
  let st := Reg.EVT_STATUS_RAISED (src / 32)
  let rise := !c.bitOf st (src % 32)
  let masked := c.bitOf (Reg.EVT_MASK_MASK (src / 32)) (src % 32)
  let c := ((c.put Reg.EVT_SEQ_NEXT (seq + 1)).putBit st (src % 32) true).bump (Reg.EVT_CLASS_CNT_COUNT cls) 1
  let c := ((c.put Reg.EVT_LAST_SOURCE src).put Reg.EVT_LAST_CLASS cls).put Reg.EVT_LAST_CAUSE cause
  let c := if classVaries src then c.put (Reg.EVT_ROUTE_CLASS src) cls else c
  if masked then c
  else
    let c := c.offer ⟨src, cls, cause, seq, c.now, evData items, 1, false⟩
    if rise ∧ c.flag (Reg.EVT_ROUTE_VEC_EN src) then
      c.vector (c.get (Reg.EVT_ROUTE_PORT src)) (c.get (Reg.EVT_ROUTE_VECTOR src))
    else c

/-- A source raised under a condition. -/
def Chip.raiseIf (c : Chip) (b : Bool) (src cause : Nat) (items : List (Nat × Nat)) : Chip :=
  if b then c.raise src cause items else c

/-- R529: RWL fields are locked from the start of a commit on. -/
def Chip.locked (c : Chip) : Bool := c.flag Reg.CFG_STATUS_COMMITTED || c.flag Reg.CFG_STATUS_BUSY

/-- Whether a word carries a changed value for an RWL field of a register. -/
def Chip.changesRwl (c : Chip) (off v : Nat) : Bool :=
  (fieldsAt off).any fun f => decide (f.access = .rwl) && decide (bits v f.lo f.width ≠ c.get (f.at off))

/-- A register written under its fields' access codes, with EV011 where a locked field would change (R17, R529). -/
def Chip.plainWrite (c : Chip) (off v : Nat) : Chip :=
  (c.writeFields off c.locked v).raiseIf (c.locked && c.changesRwl off v) 11 0 []

/-- The 40 bytes of a record (R493). -/
def EvRecord.bytes (r : EvRecord) : List Byte :=
  leBytes 2 r.source ++ leBytes 1 r.cls ++ leBytes 1 r.cause ++ leBytes 4 r.seq ++ leBytes 8 r.et.toNat ++ r.data

/-- The record an EVENT ring's next slot takes: the oldest with a slot of its own, else, of those held, the one of the
lowest source (R112, R497). -/
def Chip.nextRecord (c : Chip) (p n : Nat) : Option EvRecord :=
  let mine := c.evPend.filter fun r => decide (c.routeOf r.source = some (p, n))
  match mine.find? (·.slotted) with
  | some r => some r
  | none => mine.foldl (fun b r => match b with
    | none => some r
    | some q => if r.source < q.source then some r else some q) none

/-- A record leaves the pending records. -/
def Chip.dropRecord (c : Chip) (r : EvRecord) : Chip :=
  ({ c with evPend := c.evPend.erase r }).showPending r.source

/-! ### Quarantine (R458) -/

/-- An instance of a crossing is quarantined. -/
def Chip.quarantine (c : Chip) (x inst : Nat) : Chip :=
  let c : Chip := { c with quar := if c.quar.contains (x, inst) then c.quar else c.quar ++ [(x, inst)] }
  c.putBit Reg.CKP_XING_QUAR_QUAR x true

/-- An instance of a crossing leaves quarantine (R459); its bit clears with the last instance. -/
def Chip.endQuarantine (c : Chip) (x inst : Nat) : Chip :=
  let c : Chip := { c with quar := c.quar.filter fun (q : Nat × Nat) => decide (q ≠ (x, inst)) }
  c.putBit Reg.CKP_XING_QUAR_QUAR x (c.quar.any fun (q : Nat × Nat) => decide (q.1 = x))

/-- An event that crosses in a counter is counted, unless the crossing is quarantined (R452, R458): the receiver's count holds, and
takes the sender's as its new baseline afterwards (R459). -/
def Chip.countAcross (c : Chip) (x inst : Nat) (f : Field) (n : Nat) : Chip :=
  if c.quar.contains (x, inst) then c else c.bump f n

/-- A queue crossing is quarantined: a free number of entries, at most its depth where the spec gives one, is discarded and
counted. -/
def Chip.flushQueue (c : Chip) (x inst : Nat) (depth : Option Nat) : Chip :=
  let r := Config.freeNat c.fresh
  let n := match depth with
    | some d => r % (d + 1)
    | none => r
  let c := (c.quarantine x inst).drawn
  if n = 0 then c
  else
    let c := (c.bump Reg.CKP_XING_FLUSHED_COUNT n).put Reg.CKP_XING_LAST_XING x
    let c := (c.put Reg.CKP_XING_LAST_INSTANCE inst).put Reg.CKP_XING_LAST_ENTRIES (min n 65535)
    c.raise 246 0 [(1, x), (4, n)]

end Sys2Proof.Machine
end

