-- ==== Sys2Proof/Machine/Ring.lean ====
section
/-! DEFINITION. Machine/Ring.lean: descriptor rings (R88 to R112): set-up, doorbells, fetch, completion, faults, stop and
restart, interrupts, and the buffers and slots the host posts on STATE, INSPECT and EVENT rings. -/

namespace Sys2Proof.Machine

/-- Descriptor slots of a ring (R89). -/
def Chip.ringSlots (c : Chip) (p n : Nat) : Nat := 2 ^ c.get (Reg.HIF_RING_CFG_SIZE_LOG2 p n)

/-- A ring's consumer index. -/
def Chip.ci (c : Chip) (p n : Nat) : Nat := c.get (Reg.HIF_RING_STATUS_CI p n)

/-- A ring's accepted producer index. -/
def Chip.pi (c : Chip) (p n : Nat) : Nat := c.get (Reg.HIF_RING_FAULT_PI p n)

/-- Descriptors accepted and not completed (R90, R94). -/
def Chip.outstanding (c : Chip) (p n : Nat) : Nat := (c.pi p n + 65536 - c.ci p n) % 65536

/-- A ring's state (R91): 0 DISABLED, 1 RUNNING, 2 STOPPED. -/
def Chip.ringState (c : Chip) (p n : Nat) : Nat := c.get (Reg.HIF_RING_STATUS_STATE p n)

/-- Host address of the slot of descriptor index i (R89, R90). -/
def Chip.descAddr (c : Chip) (p n i : Nat) : Nat :=
  c.get64 (Reg.HIF_RING_BASE_LO_BASE p n) (Reg.HIF_RING_BASE_HI_BASE p n) + 64 * (i % c.ringSlots p n)

/-- The posted write of the consumer-index location (R101). -/
def Chip.postCi (c : Chip) (p n code : Nat) : Chip :=
  c.emit (.post p (c.get64 (Reg.HIF_RING_CI_LO_ADDR p n) (Reg.HIF_RING_CI_HI_ADDR p n))
    (leBytes 4 (c.ci p n + 65536 * code)))

/-- The ring's vector signalled, and its gathering begun afresh (R104). -/
def Chip.ringIrq (c : Chip) (p n : Nat) : Chip :=
  (c.setRing p n { c.ring p n with irqGathered := 0, irqDue := none }).vector p (c.get (Reg.HIF_RING_CFG_VECTOR p n))

/-- A completion with FLAGS.IRQ set gathers towards the vector (R104). -/
def Chip.gatherIrq (c : Chip) (p n : Nat) : Chip :=
  let r := c.ring p n
  let g := r.irqGathered + 1
  let hold := c.get (Reg.HIF_RING_IRQ_HOLDOFF p n)
  if max 1 (c.get (Reg.HIF_RING_IRQ_COUNT p n)) ≤ g ∨ hold = 0 then c.ringIrq p n
  else
    c.setRing p n { r with irqGathered := g, irqDue := some (r.irqDue.getD (c.clk + 1000 * hold)) }

/-- Actions scheduled for the command at a ring's head are forgotten with it (R339). -/
def Chip.forgetCmd (c : Chip) (p n : Nat) : Chip :=
  { c with sched := c.sched.filter fun (a : Sched) => decide (a.kind ≠ SchedKind.motionCmd p n ∧ a.kind ≠ SchedKind.loopCmd p n) }

/-- HIF.Pp_STATUS.LAYER_HELD shows whether a LAYER ring of the port waits for space (R109). -/
def Chip.showHeld (c : Chip) (p : Nat) : Chip :=
  c.putB (Reg.HIF_STATUS_LAYER_HELD p) ((List.range 64).any fun n => (c.ring p n).heldSince.isSome)

/-- The ring stops at its present CI with a code (R105, R107); one that waited for space waits no longer. -/
def Chip.stopRing (c : Chip) (p n code : Nat) : Chip :=
  let r := c.ring p n
  let irq := match r.fetched.head? with
    | some (some d) => bit (leField d 1 1) 0
    | _ => false
  let c := ((c.forgetCmd p n).put (Reg.HIF_RING_STATUS_STATE p n) 2).put (Reg.HIF_RING_STATUS_FAULT p n) code
  let c := c.put (Reg.HIF_RING_FAULT_IDX p n) (c.ci p n)
  let c := c.setRing p n { r with
    fetched := [], acted := false, stopIrq := irq, stopAfter := none, atDue := none, load := none, heldSince := none
    heldTold := false }
  let c := c.showHeld p
  let c := (c.postCi p n code).ringIrq p n
  c.raise 3 1 [(1, p), (1, n), (2, c.ci p n), (2, code)]

/-- R105: the descriptor at CI faults. -/
def Chip.faultDesc (c : Chip) (p n code : Nat) : Chip :=
  (c.emit (.post p (c.descAddr p n (c.ci p n) + 4) (leBytes 2 code))).stopRing p n code

/-- A stop that names no descriptor's fault: at once, or once the descriptor acted on has completed (R94, R107). A LAYER_CLOSE
that waits for its layer counts as acted on, a LAYER_OPEN or a command with AT that waits does not; of two stops that wait, the
later gives the code (DESIGN CHOICE: log entry 78). -/
def Chip.requestStop (c : Chip) (p n code : Nat) : Chip :=
  let r := c.ring p n
  if r.acted then c.setRing p n { r with stopAfter := some code } else c.stopRing p n code

/-- The opcodes valid for a ring type (R97). -/
def opcodeValid (ty op : Nat) : Bool :=
  match ty with
  | 0 => decide (1 ≤ op ∧ op ≤ 3)
  | 1 => decide (0x10 ≤ op ∧ op ≤ 0x14)
  | 2 => decide (0x20 ≤ op ∧ op ≤ 0x2A) || decide (0x40 ≤ op ∧ op ≤ 0x47)
  | 3 => decide (op = 0x60)
  | 4 => decide (op = 0x61)
  | 5 => decide (op = 0x62)
  | _ => false

/-- The opcodes whose ADDR names a buffer, with the alignment it needs (R97). ADDR of an opcode that names no buffer is not
checked (DESIGN CHOICE: log entry 78). -/
def addrAlign (op : Nat) : Nat :=
  if op = 0x60 ∨ op = 0x61 then 64
  else if op = 2 ∨ (0x10 ≤ op ∧ op ≤ 0x14) then 4
  else 1

/-- The first checks of R530 when a descriptor reaches the head of its ring: the fetch, OPCODE, ADDR. -/
def Chip.settleHead (c : Chip) (p n : Nat) : Chip :=
  if c.ringState p n ≠ 1 then c
  else
    match (c.ring p n).fetched with
    | [] => c
    | none :: _ => c.faultDesc p n 0x103
    | some d :: _ =>
      let op := leField d 0 1
      if !opcodeValid (c.get (Reg.HIF_RING_CFG_TYPE p n)) op then c.faultDesc p n 0x100
      else if leField d 8 8 % addrAlign op ≠ 0 then c.faultDesc p n 0x105
      else c

/-- R101: the descriptor at CI completes: RESULT and record, STATUS with DONE, the consumer index; then the gathering
of R104, a stop that waited for it, and the first checks of the next descriptor. -/
def Chip.completeWith (c : Chip) (p n code : Nat) (irq : Bool) (first : List Output) : Chip :=
  let i := c.ci p n
  let c := (c.emits first).emit (.post p (c.descAddr p n i + 4) (leBytes 2 (0x8000 + code)))
  let c := (c.put (Reg.HIF_RING_STATUS_CI p n) (i + 1)).postCi p n 0
  let r := c.ring p n
  let c := c.setRing p n { r with fetched := r.fetched.tail, acted := false, stopAfter := none, atDue := none, load := none }
  let c := if irq then c.gatherIrq p n else c
  match r.stopAfter with
  | some stop => c.stopRing p n stop
  | none => c.settleHead p n

/-- The descriptor at the head of a RUNNING ring, if its opcode is the one asked for. -/
def Chip.headOp (c : Chip) (p n op : Nat) : Option (List Byte) :=
  if c.ringState p n = 1 then
    match (c.ring p n).fetched with
    | some d :: _ => if leField d 0 1 = op then some d else none
    | _ => none
  else none

/-- FLAGS.IRQ of a descriptor (R96). -/
def descIrq (d : List Byte) : Bool := bit (leField d 1 1) 0

/-- FLAGS.REPLACE of a descriptor (R96, R98). -/
def descReplace (d : List Byte) : Bool := bit (leField d 1 1) 1

/-- A descriptor completes with a code and the 16 bytes of RESULT. -/
def Chip.complete (c : Chip) (p n code : Nat) (d result : List Byte) : Chip :=
  c.completeWith p n code (descIrq d)
    [.post p (c.descAddr p n (c.ci p n) + 0x30) (result ++ leBytes (16 - result.length) 0)]

/-- Whether a ring is enabled. -/
def Chip.ringOn (c : Chip) (p n : Nat) : Bool := c.flag (Reg.HIF_RING_CFG_ENABLE p n)

/-- Whether an item is of a frame that holds slot k of pipeline p (R307). -/
def InspItem.holds (it : InspItem) (p k : Nat) : Bool := decide (it.source % 4 = p) && decide (it.slot = k)

/-- Slots of a pipeline in use, oldest first (R307): frames open or waiting, and frames with items not yet written or
dropped. -/
def Chip.slotsUsed (c : Chip) (p : Nat) : List Nat :=
  (c.camSlots.filter fun e => decide (e.1 = p) &&
    ((c.frames.any fun f => decide (f.ctx / 2 = p ∧ f.slot = e.2) && !f.lost) ||
      (c.inspItems.any fun i => i.holds p e.2) || c.outItems.any fun o => !o.firn && o.insp.holds p e.2)).map (·.2)

/-- SLOTS_FREE of a pipeline. -/
def Chip.showSlots (c : Chip) (p : Nat) : Chip :=
  c.put (Reg.CAM_PIPE_STATUS_SLOTS_FREE p) (c.get (Reg.CAM_PIPE_CFG_SLOTS p) - (c.slotsUsed p).length)

/-- INSPECT items that waited for buffers a ring no longer has are dropped (R110). -/
def Chip.dropInsp (c : Chip) (p n : Nat) (it : InspItem) : Chip :=
  let r := c.ring p n
  (((c.setRing p n { r with dropped := satAdd 16 r.dropped 1 }).bump (Reg.HIF_RING_DROP_COUNT p n) 1).raise 4 0
    [(1, p), (1, n), (1, it.source % 4), (2, it.frame)]).showSlots (it.source % 4)

/-- Items waiting for a ring's buffers, dropped when the ring loses them. -/
def Chip.dropInspAll (c : Chip) (p n : Nat) : Chip :=
  let mine := c.inspItems.filter fun it => decide (it.port = p ∧ it.ring = n)
  let c := { c with inspItems := c.inspItems.filter fun it => !decide (it.port = p ∧ it.ring = n) }
  mine.foldl (fun c it => c.dropInsp p n it) c

/-- R91: a ring goes to DISABLED; descriptors not completed are abandoned without any write to host memory. -/
def Chip.disableRing (c : Chip) (p n : Nat) : Chip :=
  let c := ((c.put (Reg.HIF_RING_CFG_ENABLE p n) 0).put (Reg.HIF_RING_STATUS_STATE p n) 0).put
    (Reg.HIF_RING_STATUS_FAULT p n) 0
  let c := ((c.loseSlots p n).dropInspAll p n).forgetCmd p n
  (c.setRing p n { ({} : RingX) with
    coalesced := (c.ring p n).coalesced
    dropped := (c.ring p n).dropped }).showHeld p

/-- EV003 with cause BAD_CFG: a ring set-up is refused (R88, R89). -/
def Chip.badCfg (c : Chip) (p n : Nat) : Chip := c.raise 3 2 [(1, p), (1, n), (2, 0), (2, 0)]

/-- A write of HIF.Pp_RINGn_CFG whose ENABLE bit is clear (R91): the ring goes to DISABLED if it was enabled, and the
fields fixed while enabled are stored only if it was not. -/
def Chip.ringCfgOff (c : Chip) (p n : Nat) (v : Nat) : Chip :=
  if 6 ≤ bits v 0 3 then c.badCfg p n
  else
    let was := c.ringOn p n
    let c := c.put (Reg.HIF_RING_CFG_VECTOR p n) (bits v 16 6)
    if was then c.disableRing p n
    else (c.put (Reg.HIF_RING_CFG_TYPE p n) (bits v 0 3)).put (Reg.HIF_RING_CFG_SIZE_LOG2 p n) (bits v 8 4)

/-- Whether the set-up of a ring obeys R88 and R89. -/
def Chip.ringSetupOk (c : Chip) (p n : Nat) (v : Nat) : Bool :=
  decide (bits v 0 3 ≤ 5) && decide (6 ≤ bits v 8 4) &&
    decide (c.get (Reg.HIF_RING_BASE_LO_BASE p n) % 4096 = 0) &&
    decide (c.get (Reg.HIF_RING_CI_LO_ADDR p n) % 4 = 0)

/-- A write of HIF.Pp_RINGn_CFG whose ENABLE bit is set (R91). -/
def Chip.ringCfgOn (c : Chip) (p n : Nat) (v : Nat) : Chip :=
  if 6 ≤ bits v 0 3 then c.badCfg p n
  else if c.ringOn p n then c.put (Reg.HIF_RING_CFG_VECTOR p n) (bits v 16 6)
  else if !c.ringSetupOk p n v then c.badCfg p n
  else
    let c := (c.put (Reg.HIF_RING_CFG_TYPE p n) (bits v 0 3)).put (Reg.HIF_RING_CFG_SIZE_LOG2 p n) (bits v 8 4)
    let c := (c.put (Reg.HIF_RING_CFG_VECTOR p n) (bits v 16 6)).put (Reg.HIF_RING_CFG_ENABLE p n) 1
    let c := (c.put (Reg.HIF_RING_STATUS_CI p n) 0).put (Reg.HIF_RING_FAULT_PI p n) 0
    let c := (c.put (Reg.HIF_RING_STATUS_STATE p n) 1).put (Reg.HIF_RING_STATUS_FAULT p n) 0
    c.setRing p n { ({} : RingX) with
      coalesced := (c.ring p n).coalesced
      dropped := (c.ring p n).dropped }

/-- Whether R94 accepts a doorbell value. -/
def Chip.doorbellOk (c : Chip) (p n : Nat) (v : Nat) : Bool :=
  decide (v / 65536 = 0) &&
    decide ((v % 65536 + 65536 - c.ci p n) % 65536 ≤ c.ringSlots p n) &&
    decide (0 ≤ wrapDiff (BitVec.ofNat 16 v) (BitVec.ofNat 16 (c.pi p n)))

/-- R94: a doorbell. -/
def Chip.ringDoorbell (c : Chip) (p n : Nat) (v : Nat) : Chip :=
  if c.ringState p n = 0 then c.raise 14 1 [(1, p), (1, n), (4, v)]
  else if c.doorbellOk p n v then c.put (Reg.HIF_RING_FAULT_PI p n) v
  else if c.ringState p n = 2 then c.raise 14 2 [(1, p), (1, n), (4, v)]
  else c.requestStop p n 0x104

/-- Bytes of the DRAM block area (R109). -/
def Chip.blockArea (c : Chip) : Nat := c.get Reg.HIF_BLOCK_AREA_MIB * 2 ^ 20

/-- Whether the block area holds the free bytes a LAYER ring needs for its next descriptor (R109). -/
def Chip.blockRoom (c : Chip) : Bool := decide (c.blockUsed + 263168 ≤ c.blockArea)

/-- Whether the ring's next descriptor can be fetched (R93, R102). -/
def Chip.canFetch (c : Chip) (p n : Nat) : Bool :=
  decide (c.ringState p n = 1) && decide ((c.ring p n).fetched.length < 32) &&
    decide ((c.ring p n).fetched.length < c.outstanding p n)

/-- The next descriptor fetched; a LAYER ring without space, or before DRAM is zeroed, waits instead (R109, R391). -/
def Chip.fetchDesc (c : Chip) (p n : Nat) (data : Option (List Byte)) : Chip :=
  if !c.canFetch p n then c
  else
    let r := c.ring p n
    if c.get (Reg.HIF_RING_CFG_TYPE p n) = 0 ∧ (c.blockRoom = false ∨ c.flag Reg.DRC_STATUS_INIT_DONE = false) then
      (c.setRing p n { r with heldSince := some (r.heldSince.getD c.clk) }).showHeld p
    else
      let c := (c.setRing p n { r with fetched := r.fetched ++ [data], heldSince := none, heldTold := false }).showHeld p
      if r.fetched.isEmpty then c.settleHead p n else c

/-- R109, R391: a held LAYER ring waits no longer, once there is space and DRAM is zeroed. -/
def Chip.spaceCome (c : Chip) (p n : Nat) : Chip :=
  let r := c.ring p n
  if r.heldSince.isSome ∧ c.blockRoom ∧ c.flag Reg.DRC_STATUS_INIT_DONE then
    (c.setRing p n { r with heldSince := none, heldTold := false }).showHeld p
  else c

/-- R106: RESTART of a STOPPED ring, without SKIP. -/
def Chip.restartRing (c : Chip) (p n : Nat) : Chip :=
  if c.ringState p n ≠ 2 then c
  else (c.put (Reg.HIF_RING_STATUS_STATE p n) 1).put (Reg.HIF_RING_STATUS_FAULT p n) 0

/-- Items that have no buffer outstanding any more are dropped (R110). -/
def Chip.trimInsp (c : Chip) (p n : Nat) : Chip :=
  let mine := c.inspItems.filter fun it => decide (it.port = p ∧ it.ring = n)
  let out := mine.drop (c.outstanding p n)
  let others := c.inspItems.filter fun it => !decide (it.port = p ∧ it.ring = n)
  let c := { c with inspItems := others ++ mine.take (c.outstanding p n) }
  out.foldl (fun c it => c.dropInsp p n it) c

/-- R106: RESTART with SKIP: descriptor CI completes SKIPPED if it has been posted. -/
def Chip.restartSkipRing (c : Chip) (p n : Nat) : Chip :=
  if c.ringState p n ≠ 2 then c
  else
    let irq := (c.ring p n).stopIrq
    let c := c.restartRing p n
    if c.outstanding p n = 0 then c
    else (c.completeWith p n 1 irq [.post p (c.descAddr p n (c.ci p n) + 0x30) (leBytes 16 0)]).trimInsp p n

/-- R107: CTRL.STOP. -/
def Chip.hostStopRing (c : Chip) (p n : Nat) : Chip :=
  if c.ringState p n = 1 then c.requestStop p n 0x106 else c

/-- 1 KiB granules the queued STATE items occupy (R111). -/
def Chip.stateGranules (c : Chip) : Nat :=
  (c.stateItems.map fun it => if it.onChip then 0 else (it.body.length + 1023) / 1024).sum

/-- Granules of the STATE queue (R111). -/
def Chip.stateRoom (c : Chip) : Nat := c.get Reg.HIF_STATE_AREA_MIB * 1024

/-- R111: the hold on LAYER_OPEN sets above three quarters and clears below one half. -/
def Chip.stateHold (c : Chip) : Chip :=
  let used := c.stateGranules
  if c.flag (Reg.HIF_STATUS_STATE_HELD 0) then
    if used * 2 < c.stateRoom then (c.put (Reg.HIF_STATUS_STATE_HELD 0) 0).put (Reg.HIF_STATUS_STATE_HELD 1) 0 else c
  else if c.stateRoom * 3 < used * 4 then
    ((c.put (Reg.HIF_STATUS_STATE_HELD 0) 1).put (Reg.HIF_STATUS_STATE_HELD 1) 1).raise 9 0 []
  else c

/-- An item queued for a STATE ring; before the first commit it is held on chip (R111). -/
def Chip.queueState (c : Chip) (p n kind : Nat) (body : List Byte) : Chip :=
  ({ c with stateItems := c.stateItems ++
    [({ port := p, ring := n, kind := kind, body := body, onChip := !c.flag Reg.CFG_STATUS_COMMITTED } : StateItem)] }).stateHold

/-- The checks of R97 on a BUF descriptor's LEN (R530 step 5). -/
def bufLenOk (d : List Byte) : Bool := decide (leField d 0x10 4 % 64 = 0) && decide (4096 ≤ leField d 0x10 4)

/-- RESULT of an INSPECT or STATE buffer (R99). -/
def bufResult (bytes kind source frame dropped paramset iflags : Nat) : List Byte :=
  leBytes 4 bytes ++ leBytes 1 kind ++ leBytes 1 source ++ leBytes 2 frame ++ leBytes 2 dropped ++
    leBytes 2 paramset ++ leBytes 1 iflags ++ leBytes 3 0

/-- The first item of a list that satisfies a test, removed from it. -/
def removeFirst {α : Type} (p : α → Bool) : List α → List α
  | [] => []
  | a :: l => if p a then l else a :: removeFirst p l

/-- Whether the code corrects an error (R401): one confined to one device. -/
def DramKind.correctable : DramKind → Bool
  | .one _ => true
  | .two a b => decide (a = b)
  | .unnamed => false

/-- The units of an item that are poisoned when it is read for a host buffer: stored so, or uncorrectable (R403). -/
def badUnits (poison : List Nat) (reads : List UnitRead) : List Nat :=
  (poison ++ ((reads.filter fun r => !DramKind.correctable r.err.kind).map (·.unit))).eraseDups

/-- An item written to a host buffer: the TLPs of its poisoned units are written poisoned (R403). -/
def Chip.postItem (c : Chip) (p addr : Nat) (body : List Byte) (bad : List Nat) : Chip :=
  (c.emit (.post p addr body)).emits
    ((bad.filter fun u => decide (64 * u < body.length)).map fun u => Output.poisonedTlp p (addr + 64 * u))

/-- Whether the head of a ring is a buffer of this opcode that takes an item of this length: its units are read then (R403). -/
def Chip.bufTakes (c : Chip) (p n op : Nat) (len : Option Nat) : Bool :=
  match c.headOp p n op, len with
  | some d, some l => bufLenOk d && decide (l ≤ leField d 0x10 4)
  | _, _ => false

/-- Whether a STATE item waits for a buffer of a ring. -/
def StateItem.waits (p n : Nat) (it : StateItem) : Bool := decide (it.port = p ∧ it.ring = n) && !it.onChip

/-- Whether an INSPECT item waits for a buffer of a ring. -/
def InspItem.waits (p n : Nat) (it : InspItem) : Bool := decide (it.port = p ∧ it.ring = n)

/-- R111: a STATE buffer takes the next item of its ring, or is returned TOO_SMALL with the item kept. -/
def Chip.stateBuffer (c : Chip) (p n : Nat) (reads : List UnitRead) : Chip :=
  match c.headOp p n 0x61 with
  | none => c
  | some d =>
    if !bufLenOk d then c.faultDesc p n 0x101
    else
      match c.stateItems.find? (StateItem.waits p n) with
      | none => c
      | some it =>
        if leField d 0x10 4 < it.body.length then c.complete p n 5 d (bufResult 0 it.kind 0 0 0 0 0)
        else
          let c := c.postItem p (leField d 8 8) it.body (badUnits it.poison reads)
          let c := c.complete p n 0 d (bufResult it.body.length it.kind 0 0 0 0 it.iflags)
          ({ c with stateItems := removeFirst (StateItem.waits p n) c.stateItems }).stateHold

/-- R110: an INSPECT buffer takes the next item of its ring, or is returned TOO_SMALL and the item dropped. -/
def Chip.inspectBuffer (c : Chip) (p n : Nat) (reads : List UnitRead) : Chip :=
  match c.headOp p n 0x60 with
  | none => c
  | some d =>
    if !bufLenOk d then c.faultDesc p n 0x101
    else
      match c.inspItems.find? (InspItem.waits p n) with
      | none => c
      | some it =>
        let c := { c with inspItems := removeFirst (InspItem.waits p n) c.inspItems }
        let small := decide (leField d 0x10 4 < it.body.length)
        let c := if small then c.dropInsp p n it
          else ((c.postItem p (leField d 8 8) it.body (badUnits it.poison reads)).bump (Reg.CAM_PIPE_ITEMS_COUNT (it.source % 4)) 1).showSlots
            (it.source % 4)
        let r := c.ring p n
        let c := c.setRing p n { r with dropped := 0 }
        c.complete p n (if small then 5 else 0) d
          (bufResult (if small then 0 else it.body.length) it.kind it.source it.frame r.dropped it.paramset it.iflags)

/-- R110: an item ready for an INSPECT ring: it waits for the next buffer outstanding, or is dropped. -/
def Chip.queueInsp (c : Chip) (it : InspItem) : Chip :=
  let p := it.port
  let n := it.ring
  let waiting := (c.inspItems.filter fun q => decide (q.port = p ∧ q.ring = n)).length
  let ready := decide (c.ringState p n ≠ 0) && decide (c.get (Reg.HIF_RING_CFG_TYPE p n) = 3) &&
    decide (waiting < c.outstanding p n)
  if ready then { c with inspItems := c.inspItems ++ [it] } else c.dropInsp p n it

/-- R112, R493: an EVENT slot takes the next record of its ring. -/
def Chip.eventSlotTake (c : Chip) (p n : Nat) : Chip :=
  match c.headOp p n 0x62 with
  | none => c
  | some d =>
    match (if c.get Reg.CKP_STATUS_PSTATE = 3 then none else c.nextRecord p n) with
    | none => c
    | some r =>
      let c := (c.dropRecord r).completeWith p n 0 (descIrq d)
        [.post p (c.descAddr p n (c.ci p n) + 8) (r.bytes ++ leBytes 4 r.count ++ leBytes 12 0)]
      let x := c.ring p n
      if x.coalesced then (c.setRing p n { x with coalesced := false }).raise 5 0 [] else c

end Sys2Proof.Machine
end

