-- ==== Sys2Proof/Machine/Time.lean ====
section
/-! DEFINITION. Machine/Time.lean: Engine Time (R46 to R56, R74), the network ports and the best master clock algorithm
(R61 to R68, R76), and the servo (R69 to R78). Times are whole numbers of 2^-16 ns; PTP times carry ERA above ET (R66). -/

namespace Sys2Proof.Machine

/-- ETM.RATE clamped to ±1,000 ppm (R47). -/
def clampRate (r : Int) : Int := clampI r (-4294967) 4294967

/-- What one nanosecond of the reference adds to the 96-bit counter (R47): units of 2^-48 ns. -/
def Chip.etPerNs (c : Chip) : Int := 2 ^ 48 + clampRate (c.getI Reg.ETM_RATE_RATE) * 2 ^ 16

/-- Ticks of the 250 MHz counter within the next ns nanoseconds of the reference (R47). -/
def Chip.ticksIn (c : Chip) (ns : Nat) : Nat := (c.clk + ns) / 4 - c.clk / 4

/-- Model time passes by ns nanoseconds of the reference, and ET by the ticks of its counter within them; ERA counts the
wraps, and each raises EV231 (R47, R54, R66). -/
def Chip.pass (c : Chip) (ns : Nat) : Chip :=
  let total := c.et.toNat + (c.etPerNs * (4 * c.ticksIn ns : Nat)).toNat
  let wraps := total / 2 ^ 96
  let c := { c with et := BitVec.ofNat 96 total, clk := c.clk + ns }
  (List.range (min wraps 4)).foldl (fun (c : Chip) _ =>
    let c := { c with wraps := c.wraps + 1 }
    let era := c.get Reg.ETM_ERA_ERA + 1
    (c.put Reg.ETM_ERA_ERA era).raise 231 0 [(2, era % 65536)]) c

/-- Nanoseconds of the reference until the tick at which ET reaches a target (R47). -/
def Chip.nsUntil (c : Chip) (target : ET) : Nat :=
  let d := ((wrapDiff target c.now) * 2 ^ 32 - (c.et.toNat % 2 ^ 32 : Nat)).toNat
  let perTick := (4 * c.etPerNs).toNat
  4 * ((d + perTick - 1) / perTick) - c.clk % 4

/-- Whole nanoseconds of ET with its wraps above them: a count that no wrap restarts (R54). -/
def Chip.longNs (c : Chip) : Int := c.wraps * 2 ^ 48 + (c.nowNs : Int)

/-- The ticks since ETM reset, which neither the wrap nor a step of ET restarts (R54, R365). -/
def Chip.loopTick (c : Chip) : Nat := (floorDiv c.longNs 1000 - c.tickBase).toNat

/-- ET at a loop tick. -/
def Chip.tickEt (c : Chip) (t : Nat) : ET := BitVec.ofInt 64 ((t + c.tickBase) * 65536000)

/-- A loop slot beyond its registers. -/
def Chip.slot (c : Chip) (s : Nat) : Slot := SMap.get {} s c.slots

/-- A slot's own data replaced. -/
def Chip.setSlot (c : Chip) (s : Nat) (x : Slot) : Chip := { c with slots := SMap.set {} s x c.slots }

/-- R378: slots are evaluated. -/
def Chip.loopRuns (c : Chip) : Bool :=
  c.flag Reg.TDM_STATUS_OWNS && decide (c.get Reg.CKP_STATUS_PSTATE ≤ 2) && c.flag Reg.CFG_STATUS_COMMITTED

/-- The loop tick at which a slot's alarm is set, while it is to be: ALARM_MS after the first of the evaluations whose |e| has
been beyond the limit ever since (R370). -/
def Chip.alarmDue (c : Chip) (s : Nat) (x : Slot) : Option Nat :=
  let ms := c.get (Reg.LOP_LS_ALARM_MS_MS s)
  match x.alarmSince with
  | some t => if ms = 0 ∨ c.flag (Reg.LOP_LS_STATUS_ALARM s) then none else some (t + 1000 * ms)
  | none => none

/-- The alarm that is set first, as its loop tick and slot; of two at one tick that of the lower slot. -/
def Chip.nextAlarm (c : Chip) : Option (Nat × Nat) :=
  if c.loopRuns then
    c.slots.foldl (fun (b : Option (Nat × Nat)) e =>
      match c.alarmDue e.1 e.2, b with
      | some t, some q => if t < q.1 then some (t, e.1) else b
      | some t, none => some (t, e.1)
      | none, _ => b) none
  else none

/-- EV178: the slot, whether its alarm is set, and e (R370). -/
def Chip.tellAlarm (c : Chip) (s : Nat) (set : Bool) (e : Int) : Chip :=
  (c.putB (Reg.LOP_LS_STATUS_ALARM s) set).raise 178 0 [(1, s), (1, b2n set), (4, unsigned 32 e)]

/-- Time passes up to a model time, and alarms are set as they fall due on the way, with the e last computed; k is no less than
the slots that may have one. -/
def Chip.passTo (c : Chip) (t : Nat) : Nat → Chip
  | 0 => c.pass (t - c.clk)
  | k + 1 =>
    match c.nextAlarm with
    | none => c.pass (t - c.clk)
    | some a =>
      let wait := if a.1 ≤ c.loopTick then 0 else c.nsUntil (c.tickEt a.1)
      if c.clk + wait ≤ t then ((c.pass wait).tellAlarm a.2 true (c.slot a.2).lastE).passTo t k else c.pass (t - c.clk)

/-- Time advanced by ns nanoseconds of the reference. -/
def Chip.advance (c : Chip) (ns : Nat) : Chip := c.passTo (c.clk + ns) c.slots.length

/-- Time advanced to a model time, if it lies ahead. -/
def Chip.advanceTo (c : Chip) (t : Nat) : Chip := if c.clk < t then c.advance (t - c.clk) else c

/-- Time advanced until ET reaches a target, if it lies ahead. -/
def Chip.advanceToEt (c : Chip) (target : ET) : Chip :=
  if later target c.now then c.advance (c.nsUntil target) else c

/-- PTP time now, in 2^-16 ns (R66). -/
def Chip.ptpNow (c : Chip) : Int := c.get Reg.ETM_ERA_ERA * 2 ^ 64 + (c.now.toNat : Int)

/-- PTP time of a stamp taken near now. -/
def Chip.ptpOf (c : Chip) (t : ET) : Int := c.ptpNow + wrapDiff t c.now

/-- The halves of measurements a port holds are forgotten. -/
def Chip.forgetHalves (c : Chip) (q : Nat) : Chip :=
  c.setPtp q { c.ptpPort q with syncHalf := none, reqSent := none, pdelayHalf := none, forward := none }

/-- A context beyond its registers. -/
def Chip.cam (c : Chip) (x : Nat) : CamCtx := SMap.get {} x c.camCtx

/-- A context's own data replaced. -/
def Chip.setCam (c : Chip) (x : Nat) (v : CamCtx) : Chip := { c with camCtx := SMap.set {} x v c.camCtx }

/-- The level of a context's trigger GPIO while active or not. -/
def Chip.trigLevel (c : Chip) (x : Nat) (active : Bool) : Output :=
  .gpio (c.get (Reg.CAM_CTX_TRIG_GPIO x)) (active == c.flag (Reg.CAM_CTX_TRIG_POL x))

/-- The level of a ball as IOX.GPIO_IN shows it (R384). -/
def Chip.seeBall (c : Chip) (i : Nat) (level : Bool) : Chip := c.putBit (Reg.IOX_GPIO_IN_BITS (i / 32)) (i % 32) level

/-- A context's trigger GPIO driven (R302, R384). -/
def Chip.driveTrig (c : Chip) (x : Nat) (active : Bool) : Chip :=
  (c.emit (c.trigLevel x active)).seeBall (c.get (Reg.CAM_CTX_TRIG_GPIO x)) (active == c.flag (Reg.CAM_CTX_TRIG_POL x))

/-- The exposure window in progress ends (R302). -/
def Chip.closeExposure (c : Chip) (x : Nat) : Chip :=
  if (c.cam x).windowEnd.isSome then
    (c.driveTrig x false).setCam x { c.cam x with windowEnd := none }
  else c

/-- The exposure window in progress ends if its end has come by t: a window is half-open (R15, R302). -/
def Chip.closePassed (c : Chip) (x : Nat) (t : ET) : Chip :=
  match (c.cam x).windowEnd with
  | some e => if later e t then c else c.closeExposure x
  | none => c

/-- A moment in ET moved by a step. -/
def stepped (d : Int) (t : ET) : ET := t + BitVec.ofInt 64 d

/-- What a step of ET by d does beside it (R74): actions whose targets a forward step passes run at the next tick, halves
of path delay and offset measurements taken in the old ET are forgotten (DEDUCED: log entry 77), and what drains or recurs in
its own time goes on: stamp queues, DRV frames, and the count of loop ticks. Exposure windows whose end the new ET has passed
are closed; others end by the new ET. -/
def Chip.stepOthers (c : Chip) (before : ET) (d : Int) : Chip :=
  let c : Chip := { c with
    stepSum := c.stepSum + d
    tickBase := c.tickBase + floorDiv c.longNs 1000 - floorDiv (c.longNs * 65536 + (c.now.toNat % 65536 : Nat) - d) 65536000
    encs := c.encs.map fun e => (e.1, { e.2 with queue := e.2.queue.map (stepped d) })
    drv := c.drv.map fun e => (e.1, { e.2 with due := e.2.due.map (stepped d) })
    sched := c.sched.map fun (a : Sched) =>
      if 0 < d ∧ 0 ≤ wrapDiff a.target before ∧ wrapDiff a.target before < d then { a with stepped := true } else a }
  let c := (List.range 8).foldl (fun c x => c.closePassed x c.now) c
  (c.forgetHalves 0).forgetHalves 1

/-- What stands above ET once a step by d is taken: the wraps the step carries it over. -/
def Chip.wrapsAfter (c : Chip) (d : Int) : Int := floorDiv (c.wraps * 2 ^ 96 + (c.et.toNat : Int) + d * 2 ^ 32) (2 ^ 96)

/-- R74: ET moved by d (2^-16 ns) with ERA above it. A step that carries ET over its wrap is no wrap of the counter and raises
no EV231 (DESIGN CHOICE: log entry 75). -/
def Chip.etStep (c : Chip) (d : Int) : Chip :=
  let before := c.now
  let whole : Int := c.get Reg.ETM_ERA_ERA * 2 ^ 96 + (c.et.toNat : Int) + d * 2 ^ 32
  let c := { c with
    et := BitVec.ofInt 96 whole
    wraps := c.wrapsAfter d }
  (c.putI Reg.ETM_ERA_ERA (floorDiv whole (2 ^ 96))).stepOthers before d

/-- R52: an action scheduled for an ET target, run late, or refused; the flag says whether it was refused. -/
def Chip.schedule (c : Chip) (target : ET) (kind : SchedKind) : Chip × Bool :=
  let d := wrapDiff target c.now
  let block := (Config.freeByte c.fresh).toNat
  if 0 < d then ({ c with sched := c.sched ++ [Sched.mk target kind false] }, false)
  else if -(1000000 * 65536) ≤ d then
    let c := { c with sched := c.sched ++ [Sched.mk target kind true] }
    ((c.drawn.put Reg.ETM_STATUS_LATE 1).raise 236 1 [(1, block)], false)
  else ((c.drawn.put Reg.ETM_STATUS_RANGE 1).raise 236 2 [(1, block)], true)

/-- The scheduled action that runs next: those a step has passed first, then by target, in the order scheduled (R56, R74). -/
def nextSched : List Sched → Option Sched
  | [] => none
  | a :: l =>
    match nextSched l with
    | none => some a
    | some b =>
      if b.stepped && !a.stepped then some b
      else if a.stepped && !b.stepped then some a
      else if later a.target b.target then some b else some a

/-- Whether an action runs before another: those a step has passed first, then by target (R56, R74). -/
def runsBefore (a b : Sched) : Bool :=
  if a.stepped && !b.stepped then true else if b.stepped && !a.stepped then false else later b.target a.target

/-- An action put among others in the order in which they run, after those of its own target. -/
def insertSched (a : Sched) : List Sched → List Sched
  | [] => [a]
  | b :: l => if runsBefore a b then a :: b :: l else b :: insertSched a l

/-- Actions in the order in which they run, those of one target in the order in which they were scheduled (R56, R74). -/
def runOrder (l : List Sched) : List Sched := l.foldl (fun m a => insertSched a m) []

/-- The 64-bit value a host has written to SET_HI:SET_LO. -/
def Chip.setValue (c : Chip) : ET := BitVec.ofNat 64 (c.get64 Reg.ETM_SET_LO_VALUE Reg.ETM_SET_HI_VALUE)

/-- R74: SET_CMD.GO. It leaves ETM.STATUS.SET as it is, and raises no EV231 where it carries ET over the wrap (DESIGN CHOICE:
log entry 75). -/
def Chip.setGo (c : Chip) : Chip :=
  if c.get Reg.ETM_STATUS_STATE = 0 ∧ c.get Reg.ETM_STATUS_INLAYER = 0 then
    let d := wrapDiff c.setValue c.now
    let before := c.now
    let c : Chip := { c with
      et := BitVec.ofNat 96 (c.setValue.toNat * 2 ^ 32)
      wraps := c.wrapsAfter d }
    (c.stepOthers before d).raise 239 0 []
  else c.put Reg.ETM_STATUS_RANGE 1

/-! ### The servo -/

/-- Nanoseconds of a PTP interval 2^log s, for a signed log field. -/
def intervalNs (log : Int) : Nat := if log < 0 then 1000000000 / 2 ^ log.natAbs else 1000000000 * 2 ^ log.natAbs

/-- log2 of the sync interval (R65). -/
def Chip.logSync (c : Chip) : Int := c.getI Reg.ETM_PTP_CFG_LOG_SYNC

/-- A field of the servo replaced. -/
def Chip.setServo (c : Chip) (v : Servo) : Chip := { c with servo := v }

/-- The rate set, within the clamp of R47. -/
def Chip.setRate (c : Chip) (r : Int) : Chip := c.putI Reg.ETM_RATE_RATE (clampRate r)

/-- ETM.STATUS.STATE set. -/
def Chip.servoState (c : Chip) (st : Nat) : Chip := c.put Reg.ETM_STATUS_STATE st

/-- R76: the servo enters HOLDOVER with a cause, or takes the new cause if it is in HOLDOVER; RATE is the base (R75). SLEWING is
cleared, and from LOCKED EV228 alone is raised, as in the example of R78 (DEDUCED: log entry 76). -/
def Chip.enterHoldover (c : Chip) (cause : Nat) : Chip :=
  let was := c.get Reg.ETM_STATUS_STATE
  let v := c.servo
  let base := if v.everLocked then v.base else c.getI Reg.ETM_RATE_RATE
  let c := c.setServo { v with base := base, inside := 0, large := 0, syncDue := none }
  let c := ((c.setRate base).put Reg.ETM_STATUS_SLEWING 0).put Reg.ETM_STATUS_HOLD_CAUSE cause
  if was = 3 then c else (c.servoState 3).raise 228 cause []

/-- R70: SRC = 0 forces FREE; LOCKED or HOLDOVER is left with the event of R80. -/
def Chip.forceFree (c : Chip) : Chip :=
  let was := c.get Reg.ETM_STATUS_STATE
  let c := ((c.servoState 0).put Reg.ETM_STATUS_SLEWING 0).put Reg.ETM_STATUS_HOLD_CAUSE 0
  let c := c.setServo { c.servo with
    parent := none, meanDelay := none, inside := 0, large := 0, rates := [], delaysLeft := 0, syncDue := none }
  (c.raiseIf (decide (was = 2)) 227 0 []).raiseIf (decide (was = 3)) 229 0 []

/-- The thresholds of R72 in 2^-16 ns, and the slew limit in units of ETM.RATE, rounded down (DESIGN CHOICE: log entry 76). -/
def Chip.stepThr (c : Chip) : Int := c.get Reg.ETM_STEP_THR_NS * 65536
def Chip.lockThr (c : Chip) : Int := c.get Reg.ETM_LOCK_THR_NS * 65536
def Chip.slewLim (c : Chip) : Int := c.get Reg.ETM_SLEW_LIM_PPM * 4294967296 / 1000000

/-- The end of the rule of R72: the fixed slew, or the PI loop. -/
def Chip.servoRate (c : Chip) (o : Int) : Chip :=
  let c := if c.flag Reg.ETM_STATUS_SLEWING ∧ |o| ≤ c.lockThr then
      (c.put Reg.ETM_STATUS_SLEWING 0).setServo { c.servo with integ := 0 }
    else c
  if c.flag Reg.ETM_STATUS_SLEWING then c.setRate (c.servo.base + o.sign * c.slewLim)
  else
    let v := Int.tdiv (o * 2 ^ (16 + (-c.logSync).toNat)) 1000000000
    let integ := c.servo.integ + v >>> c.get Reg.ETM_SERVO_KI_SHIFT
    let c := c.setServo { c.servo with integ := integ }
    c.setRate (clampI (c.servo.base + v >>> c.get Reg.ETM_SERVO_KP_SHIFT + integ)
      (c.servo.base - c.slewLim) (c.servo.base + c.slewLim))

/-- R70, R75: consecutive samples counted, LOCKED entered or left, and the held rate kept while LOCKED: the mean of ETM.RATE over
the last 64 samples, or over those there have been, rounded towards zero (DESIGN CHOICE: log entry 76). -/
def Chip.servoLock (c : Chip) (o : Int) : Chip :=
  let v := c.servo
  let inside := if |o| ≤ c.lockThr then v.inside + 1 else 0
  let large := if 4 * c.lockThr < |o| then v.large + 1 else 0
  let rates := (c.getI Reg.ETM_RATE_RATE :: v.rates).take 64
  let base := Int.tdiv rates.sum rates.length
  let c := c.setServo { v with inside := inside, large := large, rates := rates }
  match c.get Reg.ETM_STATUS_STATE with
  | 1 =>
    if c.get Reg.ETM_LOCK_THR_COUNT ≤ inside then
      ((c.servoState 2).setServo { c.servo with everLocked := true, base := base, large := 0 }).raise 226 0 []
    else c
  | 2 =>
    let c := c.setServo { c.servo with base := base }
    if 4 ≤ large then (c.servoState 1).raise 227 0 [] else c
  | _ => c

/-- R72: one offset sample o, in 2^-16 ns. While a layer is open the first setting waits too, and ET is slewed (R48; DEDUCED:
log entry 76). -/
def Chip.servoSample (c : Chip) (o : Int) : Chip :=
  let c := c.putSat Reg.ETM_OFFSET_OFFSET (floorDiv o 256)
  if !c.flag Reg.ETM_STATUS_SET ∧ c.get Reg.ETM_STATUS_INLAYER = 0 then
    ((((c.etStep o).put Reg.ETM_STATUS_SET 1).setServo { c.servo with integ := 0 }).raise 224 0 []).servoLock o
  else
    let beyond := decide (c.stepThr < |o|)
    if !beyond ∧ c.lockThr < |o| ∧ c.get Reg.ETM_STATUS_STATE = 1 ∧ c.get Reg.ETM_STATUS_INLAYER = 0 ∧
        c.get Reg.ETM_STATUS_SLEWING = 0 then
      (((c.etStep o).setServo { c.servo with integ := 0 }).raise 224 0 []).servoLock o
    else
      let c := if beyond then
          let c := if c.flag Reg.ETM_STATUS_SLEWING then c else (c.put Reg.ETM_STATUS_STEP_REFUSED 1).raise 225 0 []
          c.put Reg.ETM_STATUS_SLEWING 1
        else c
      (c.servoRate o).servoLock o

/-- A Sync of the followed master with its origin time: the sample it gives, if the path delay is valid (R71, R77). t1 is
the corrected origin, t2 the corrected arrival, both PTP time in 2^-16 ns. -/
def Chip.servoSync (c : Chip) (q : Nat) (t1 t2 : Int) : Chip :=
  let c := c.setPtp q { c.ptpPort q with forward := some (t2 - t1) }
  match c.servo.meanDelay with
  | none => c
  | some mean =>
    if c.servo.delaysLeft ≠ 0 then c
    else
      let asym := floorDiv (c.getI (Reg.ENET_ASYM_PS q) * 65536) 1000
      let o := t1 + mean + asym - t2
      let c := if c.get Reg.ETM_STATUS_STATE = 3 then
          (((c.servoState 1).put Reg.ETM_STATUS_HOLD_CAUSE 0).put (Reg.ENET_STATUS_PORT_STATE q) 9).raise 229 0 []
        else c
      c.servoSample o

/-- A Sync of the followed master has come, one-step or two-step: its receipt timeout starts anew (R76). -/
def Chip.syncHeard (c : Chip) : Chip :=
  c.setServo { c.servo with syncDue := some (c.clk + c.get Reg.ETM_PTP_CFG_SYNC_TO * intervalNs c.logSync) }

/-- One path delay measurement to the parent, filtered (R71, R77). The average is rounded down; a negative one shows as 0 in the
unsigned ETM.MEAN_DELAY (DESIGN CHOICE: log entry 76). -/
def Chip.pathDelay (c : Chip) (d : Int) : Chip :=
  let v := c.servo
  let mean := match v.meanDelay with
    | none => d
    | some m => m + (d - m) >>> c.get Reg.ETM_SERVO_DELAY_FILT
  (c.setServo { v with meanDelay := some mean, delaysLeft := v.delaysLeft - 1 }).put Reg.ETM_MEAN_DELAY_DELAY
    (floorDiv mean 256).toNat

/-! ### The network ports -/

/-- ps as 2^-16 ns. -/
def psTime (ps : Int) : Int := floorDiv (ps * 65536) 1000

/-- The fixed egress and ingress latencies of a mode, in ps (R67). -/
def latencyOf (mode : Nat) : Nat × Nat :=
  if mode = 1 then (8900, 12400) else if mode = 2 then (58700, 183200) else (21300, 29800)

/-- ENET.Pp_LAT_TX and ENET.Pp_LAT_RX show the fixed parts for the current mode (R67). -/
def Chip.showLatency (c : Chip) (q : Nat) : Chip :=
  let l := latencyOf (c.get (Reg.ENET_CTRL_MODE q))
  (c.put (Reg.ENET_LAT_TX_PS q) l.1).put (Reg.ENET_LAT_RX_PS q) l.2

/-- R67: an ingress timestamp referred to the serial pins. -/
def Chip.ingress (c : Chip) (q : Nat) (t : PortStamp) : Int :=
  c.ptpOf t.raw - psTime (c.get (Reg.ENET_LAT_RX_PS q) + t.variablePs.toNat)

/-- R67: an egress timestamp referred to the serial pins. -/
def Chip.egress (c : Chip) (q : Nat) (t : PortStamp) : Int :=
  c.ptpOf t.raw + psTime (c.get (Reg.ENET_LAT_TX_PS q) + t.variablePs.toNat)

/-- Whether a port takes part in PTP (R64). -/
def Chip.ptpOn (c : Chip) (q : Nat) : Bool :=
  c.flag (Reg.ENET_CTRL_ENABLE q) && c.flag (Reg.ENET_CTRL_PTP_EN q) && c.flag (Reg.ENET_STATUS_LINK q)

/-- R62, R63: a PTP message discarded and counted. -/
def Chip.ptpDiscard (c : Chip) (q : Nat) : Chip :=
  (c.bump (Reg.ENET_PTP_ERR_COUNT q) 1).raise (234 + q) 0 []

/-- Whether a message passes the domain and version checks of R62. -/
def Chip.ptpMatches (c : Chip) (h : PtpHdr) : Bool :=
  decide (h.domain.toNat = c.get Reg.ETM_PTP_CFG_DOMAIN) && decide (h.version.toNat = 2)

/-- A port in PRE_MASTER whose qualification has ended is in MASTER (R63; IEEE 1588-2019 9.2.6.11). -/
def Chip.ripen (c : Chip) (q : Nat) : Chip :=
  match (c.ptpPort q).masterAt with
  | some t =>
    if t ≤ c.clk then
      (c.put (Reg.ENET_STATUS_PORT_STATE q) 6).setPtp q { c.ptpPort q with masterAt := none }
    else c
  | none => c

/-- Time runs on to the end of a port's qualification, where it is in PRE_MASTER. -/
def Chip.qualify (c : Chip) (q : Nat) : Chip :=
  match (c.ptpPort q).masterAt with
  | some t => (c.advanceTo t).ripen q
  | none => c

/-- A received PTP message acted on: discarded if its checks fail, passed beyond while the port is not in PTP. -/
def Chip.ptpTake (c : Chip) (q : Nat) (h : PtpHdr) (f : Chip → Chip) : Chip :=
  if !c.ptpMatches h then c.ptpDiscard q else if c.ptpOn q then f (c.ripen q) else c

/-- Whether a port identity on a port is the followed master (R71). -/
def Chip.followed (c : Chip) (q : Nat) (src : PortId) : Bool :=
  decide (c.servo.parent = some src) && decide (c.servo.parentPort = q)

/-- The controller's own port identity. -/
def Chip.ownId (c : Chip) (q : Nat) : PortId :=
  ⟨BitVec.ofNat 64 (c.get64 Reg.ETM_CLKID_LO_CLKID Reg.ETM_CLKID_HI_CLKID), BitVec.ofNat 16 (q + 1)⟩

/-- clockClass as announced (ETM.CTRL.SLAVE_ONLY, ETM.PTP_PRIO). -/
def Chip.clockClass (c : Chip) : Nat :=
  if c.flag Reg.ETM_CTRL_SLAVE_ONLY then 255 else c.get Reg.ETM_PTP_PRIO_CLOCK_CLASS

/-- The controller's own data set for the comparison of IEEE 1588-2019 9.3.4. -/
def Chip.ownSet (c : Chip) : AnnounceMsg :=
  ⟨BitVec.ofNat 8 (c.get Reg.ETM_PTP_PRIO_PRIORITY1), BitVec.ofNat 8 c.clockClass,
   BitVec.ofNat 8 (c.get Reg.ETM_PTP_PRIO_ACCURACY), 0xFFFF, BitVec.ofNat 8 (c.get Reg.ETM_PTP_PRIO_PRIORITY2),
   (c.ownId 0).clock, 0⟩

/-- A data set in the comparison: what was announced, by whom, and the port that received it. -/
structure Contender where
  msg : AnnounceMsg
  sender : PortId
  receiver : PortId
  deriving DecidableEq, Repr

/-- How the first of two data sets stands to the second (IEEE 1588-2019 9.3.4): better, better by topology alone, as good, worse
by topology alone, or worse. -/
inductive Standing where
  | better | betterByTopology | same | worseByTopology | worse
  deriving DecidableEq, Repr

/-- The first data set is the better one, by topology or not. -/
def Standing.wins : Standing → Bool
  | .better => true
  | .betterByTopology => true
  | _ => false

/-- Lexicographic order of lists of numbers, lowest best. -/
def rankBefore : List Nat → List Nat → Bool
  | [], _ => false
  | _ :: _, [] => false
  | a :: as, b :: bs => if a = b then rankBefore as bs else decide (a < b)

/-- What the comparison orders two grandmasters by. -/
def rankList (m : AnnounceMsg) : List Nat :=
  [m.priority1.toNat, m.clockClass.toNat, m.accuracy.toNat, m.variance.toNat, m.priority2.toNat, m.grandmaster.toNat]

/-- Order of port identities. -/
def idBefore (a b : PortId) : Bool := rankBefore [a.clock.toNat, a.port.toNat] [b.clock.toNat, b.port.toNat]

/-- The data set comparison of IEEE 1588-2019 9.3.4: by grandmaster, and for one grandmaster by topology. -/
def Contender.against (a b : Contender) : Standing :=
  let s := a.msg.stepsRemoved.toNat
  let t := b.msg.stepsRemoved.toNat
  if a.msg.grandmaster ≠ b.msg.grandmaster then (if rankBefore (rankList a.msg) (rankList b.msg) then .better else .worse)
  else if t + 1 < s then .worse
  else if s + 1 < t then .better
  else if t < s then
    (if idBefore a.receiver a.sender then .worse else if idBefore a.sender a.receiver then .worseByTopology else .same)
  else if s < t then
    (if idBefore b.receiver b.sender then .better else if idBefore b.sender b.receiver then .betterByTopology else .same)
  else if idBefore a.sender b.sender then .betterByTopology
  else if idBefore b.sender a.sender then .worseByTopology
  else if idBefore a.receiver b.receiver then .betterByTopology
  else if idBefore b.receiver a.receiver then .worseByTopology
  else .same

/-- The controller's own data set as a contender. -/
def Chip.ownContender (c : Chip) : Contender := ⟨c.ownSet, ⟨(c.ownId 0).clock, 0⟩, ⟨(c.ownId 0).clock, 0⟩⟩

/-- A foreign master heard on a port as a contender. -/
def Chip.contender (c : Chip) (q : Nat) (f : Foreign) : Contender := ⟨f.msg, f.source, c.ownId q⟩

/-- The best qualified foreign master of a port: heard twice within the last four announce intervals, and fewer than 255 steps
away (9.3.2.5). -/
def Chip.erbest (c : Chip) (q : Nat) : Option Foreign :=
  let win := 4 * intervalNs (c.getI Reg.ETM_PTP_CFG_LOG_ANNOUNCE)
  ((c.ptpPort q).foreign.filter fun (f : Foreign) => decide (f.msg.stepsRemoved.toNat < 255) && match f.prev with
    | none => false
    | some t => decide (c.clk ≤ t + win)).foldl (fun b (f : Foreign) => match b with
      | none => some f
      | some g => if ((c.contender q f).against (c.contender q g)).wins then some f else some g) none

/-- The best master heard on the ports that ok admits, with its port. -/
def Chip.bestOn (c : Chip) (ok : Nat → Bool) : Option (Foreign × Nat) :=
  let cand := fun (q : Nat) => if c.ptpOn q && ok q then (c.erbest q).map fun f => (f, q) else none
  match cand 0, cand 1 with
  | none, y => y
  | x, none => x
  | some (f, i), some (g, j) =>
    if ((c.contender j g).against (c.contender i f)).wins then some (g, j) else some (f, i)

/-- Whether SRC lets the servo follow a master on a port (R70). -/
def Chip.srcAllows (c : Chip) (q : Nat) : Bool :=
  let src := c.get Reg.ETM_CTRL_SRC
  decide (src = 3) || decide (src = q + 1)

/-- The best master on either port that SRC allows, with its port. -/
def Chip.ebest (c : Chip) : Option (Foreign × Nat) := c.bestOn c.srcAllows

/-- The controller takes no master by its clockClass: a clock of class 1 to 127 is never a slave (9.3.3). -/
def Chip.neverSlave (c : Chip) : Bool := decide (0 < c.clockClass) && decide (c.clockClass < 128)

/-- portState of a port after the state decision of 9.3.3: 3 DISABLED, 4 LISTENING, 6 MASTER, 7 PASSIVE, 8 UNCALIBRATED, 9 SLAVE,
with sel the master followed; a port of it is in SLAVE while the servo takes its samples (R69, R77). A port on which SRC forbids to
follow the best master heard is in PASSIVE (DESIGN CHOICE: log entry 24). -/
def Chip.portStateOf (c : Chip) (q : Nat) (sel : Option (Foreign × Nat)) : Nat :=
  if !c.ptpOn q then 3
  else if sel.any fun s => decide (s.2 = q) then
    (if c.get Reg.ETM_STATUS_STATE = 1 ∨ c.get Reg.ETM_STATUS_STATE = 2 then 9 else 8)
  else if c.flag Reg.ETM_CTRL_SLAVE_ONLY then 4
  else
    let was := c.get (Reg.ENET_STATUS_PORT_STATE q)
    match c.erbest q, c.bestOn fun _ => true with
    | none, _ => if (c.ptpPort q).timedOut = false ∧ (was = 0 ∨ was = 3 ∨ was = 4) then 4 else 6
    | some g, none => if (c.ownContender.against (c.contender q g)).wins then 6 else 7
    | some g, some (f, j) =>
      if c.neverSlave then (if (c.ownContender.against (c.contender q g)).wins then 6 else 7)
      else if (c.ownContender.against (c.contender j f)).wins then 6
      else if j = q then 7
      else if (c.contender j f).against (c.contender q g) = .betterByTopology then 7
      else 6

/-- Nanoseconds of the announce receipt timeout (R65). -/
def Chip.announceWait (c : Chip) : Nat :=
  c.get Reg.ETM_PTP_CFG_ANNOUNCE_TO * intervalNs (c.getI Reg.ETM_PTP_CFG_LOG_ANNOUNCE)

/-- A port's state after the state decision. A port that becomes master beside a selected parent first qualifies in PRE_MASTER,
for one announce interval more than the controller's own stepsRemoved (9.2.6.11; 5 PRE_MASTER). -/
def Chip.decidePort (c : Chip) (q : Nat) (sel : Option (Foreign × Nat)) : Chip :=
  let st := c.portStateOf q sel
  let was := c.get (Reg.ENET_STATUS_PORT_STATE q)
  match sel with
  | some (f, _) =>
    if st ≠ 6 ∨ was = 6 then
      (c.put (Reg.ENET_STATUS_PORT_STATE q) st).setPtp q { c.ptpPort q with masterAt := none }
    else
      let n := f.msg.stepsRemoved.toNat + 2
      let due := c.clk + n * intervalNs (c.getI Reg.ETM_PTP_CFG_LOG_ANNOUNCE)
      (c.put (Reg.ENET_STATUS_PORT_STATE q) 5).setPtp q
        { c.ptpPort q with masterAt := some ((c.ptpPort q).masterAt.getD due) }
  | none => (c.put (Reg.ENET_STATUS_PORT_STATE q) st).setPtp q { c.ptpPort q with masterAt := none }

/-- The best master clock algorithm run: the parent, the port states, and a change of parent (R63, R76, R77). What was measured
to the old parent is forgotten. -/
def Chip.bmca (c : Chip) : Chip :=
  let sel := c.ebest.filter fun s => c.flag Reg.ETM_CTRL_SLAVE_ONLY ||
    !(c.neverSlave || (c.ownContender.against (c.contender s.2 s.1)).wins)
  match sel with
  | none =>
    let c := if c.servo.parent.isSome then
        (c.enterHoldover 2).setServo { (c.enterHoldover 2).servo with parent := none }
      else c
    (c.decidePort 0 none).decidePort 1 none
  | some (f, q) =>
    if c.followed q f.source then (c.decidePort 0 sel).decidePort 1 sel
    else
      let c := c.enterHoldover 2
      let c := c.setServo { c.servo with parent := some f.source, parentPort := q, meanDelay := none, delaysLeft := 4 }
      let c := c.put64 Reg.ETM_PARENT_LO_PARENT Reg.ETM_PARENT_HI_PARENT f.source.clock.toNat
      let c := (c.put Reg.ETM_PARENT_PORT_PORTNUM f.source.port.toNat).put Reg.ETM_PARENT_PORT_LOCAL q
      let c := c.forgetHalves q
      let c := c.setPtp q { c.ptpPort q with announceDue := some (c.clk + c.announceWait) }
      ((c.decidePort 0 sel).decidePort 1 sel).raise 230 0 [(8, f.source.clock.toNat), (2, f.source.port.toNat)]

/-- A PTP message put out of a port, with the next sequence number left to the caller. -/
def Chip.ptpSend (c : Chip) (q type seq : Nat) (time corr : Int) : Chip := c.emit (.ptp q type seq time corr none none)

/-- An answer to a requester put out of a port (R63). -/
def Chip.ptpAnswer (c : Chip) (q type seq : Nat) (time corr : Int) (requester : PortId) : Chip :=
  c.emit (.ptp q type seq time corr (some requester) none)

/-- The data set the controller announces (R63): its own while it is grandmaster, else its parent's, one step further away. -/
def Chip.announced (c : Chip) : AnnounceMsg :=
  let parent := (c.ptpPort c.servo.parentPort).foreign.find? fun (f : Foreign) => decide (c.servo.parent = some f.source)
  match parent with
  | some f => { f.msg with stepsRemoved := f.msg.stepsRemoved + 1 }
  | none => c.ownSet

/-! ### The commands -/

/-- ET_WRAP (R54): time runs on to the tick at which ET wraps. -/
def execEtWrap (s : State) : Host.Outcome State Fault Refusal :=
  let c := s.toChip
  let left := 2 ^ 96 - c.et.toNat
  let perTick := (4 * c.etPerNs).toNat
  s.go (c.advance (4 * ((left + perTick - 1) / perTick)))

/-- A write of ETM.SET_CMD (R74). -/
def Chip.setCmd (c : Chip) (v : Nat) : Chip := if bit v 0 then c.setGo else c

/-- ETH_FRAME_RECEIVED (R61 to R63): taken as PTP, or discarded and counted; a frame longer than the MAC handles is discarded
(DEDUCED: log entry 77). -/
def execEthFrameReceived (q : Fin 2) (f : EthFrame) (s : State) : Host.Outcome State Fault Refusal :=
  let c := s.toChip
  let c :=
    if 1522 < f.length ∨ !f.isPtp ∨ f.transport ≠ c.flag Reg.ETM_PTP_CFG_TRANSPORT then c.bump (Reg.ENET_DISCARD_COUNT q.val) 1
    else if f.managementOrSignalling ∨ f.domain.toNat ≠ c.get Reg.ETM_PTP_CFG_DOMAIN ∨ f.version.toNat ≠ 2 then
      c.ptpDiscard q.val
    else if f.stampLost then (c.bump (Reg.ENET_TS_LOST_COUNT q.val) 1).raise (234 + q.val) 0 []
    else c
  s.go c

/-- SYNC (R71, R72). -/
def execSync (q : Fin 2) (h : PtpHdr) (twoStep : Bool) (origin : Nat) (corr : Int) (arrival : PortStamp) (s : State) :
    Host.Outcome State Fault Refusal :=
  s.go <| s.toChip.ptpTake q.val h fun c =>
    let t2 := c.ingress q.val arrival
    let c := if c.followed q.val h.source then c.syncHeard else c
    let c := if twoStep then
        c.setPtp q.val { c.ptpPort q.val with syncHalf := some ⟨h.source, h.seq.toNat, t2, corr⟩ }
      else c
    if c.followed q.val h.source ∧ twoStep = false then
      c.servoSync q.val ((origin : Int) * 65536 + corr) t2
    else c

/-- FOLLOW_UP (R63): completes the two-step Sync of its sequence number. -/
def execFollowUp (q : Fin 2) (h : PtpHdr) (origin : Nat) (corr : Int) (s : State) : Host.Outcome State Fault Refusal :=
  s.go <| s.toChip.ptpTake q.val h fun c =>
    match (c.ptpPort q.val).syncHalf with
    | none => c
    | some m =>
      if m.source = h.source ∧ m.seq = h.seq.toNat then
        let c := c.setPtp q.val { c.ptpPort q.val with syncHalf := none }
        if c.followed q.val h.source then
          c.servoSync q.val ((origin : Int) * 65536 + m.corr + corr) m.time
        else c
      else c

/-- DELAY_REQ (R63): a port in MASTER answers with Delay_Resp. -/
def execDelayReq (q : Fin 2) (m : PtpReq) (arrival : PortStamp) (s : State) : Host.Outcome State Fault Refusal :=
  s.go <| s.toChip.ptpTake q.val m.hdr fun c =>
    if c.get (Reg.ENET_STATUS_PORT_STATE q.val) = 6 ∧ c.get Reg.ETM_PTP_CFG_DELAY_MECH = 0 then
      c.ptpAnswer q.val 9 m.hdr.seq.toNat (c.ingress q.val arrival) m.correction m.hdr.source
    else c

/-- DELAY_RESP (R71): one path delay measurement to the followed master. -/
def execDelayResp (q : Fin 2) (h : PtpHdr) (requester : PortId) (receipt : Nat) (corr : Int) (s : State) :
    Host.Outcome State Fault Refusal :=
  s.go <| s.toChip.ptpTake q.val h fun c =>
    let x := c.ptpPort q.val
    if requester = c.ownId q.val ∧ h.seq.toNat = (x.seqDelay + 65535) % 65536 ∧ c.followed q.val h.source then
      match x.reqSent, x.forward with
      | some t3, some fwd =>
        let c := c.setPtp q.val { x with reqSent := none }
        c.pathDelay (floorDiv (fwd + ((receipt : Int) * 65536 - corr - t3)) 2)
      | _, _ => c
    else c

/-- PDELAY_REQ (R63): answered with Pdelay_Resp and, in two-step operation, Pdelay_Resp_Follow_Up. -/
def execPdelayReq (q : Fin 2) (m : PtpReq) (arrival departure : PortStamp) (s : State) :
    Host.Outcome State Fault Refusal :=
  s.go <| s.toChip.ptpTake q.val m.hdr fun c =>
    if c.get Reg.ETM_PTP_CFG_DELAY_MECH = 1 then
      let t2 := c.ingress q.val arrival
      let t3 := c.egress q.val departure
      if c.flag Reg.ETM_PTP_CFG_ONE_STEP then c.ptpAnswer q.val 3 m.hdr.seq.toNat 0 (m.correction + (t3 - t2)) m.hdr.source
      else (c.ptpAnswer q.val 3 m.hdr.seq.toNat t2 0 m.hdr.source).ptpAnswer q.val 10 m.hdr.seq.toNat t3 m.correction m.hdr.source
    else c

/-- PDELAY_RESP (R71): the peer's answer, or the Follow_Up that completes it. -/
def execPdelayResp (q : Fin 2) (h : PtpHdr) (m : PdelayAnswer) (s : State) : Host.Outcome State Fault Refusal :=
  s.go <| s.toChip.ptpTake q.val h fun c =>
    let x := c.ptpPort q.val
    match m with
    | .resp requester receipt corr twoStep arrival =>
      match x.reqSent with
      | some t1 =>
        if requester = c.ownId q.val ∧ h.seq.toNat = (x.seqDelay + 65535) % 65536 then
          let t4 := c.ingress q.val arrival
          if twoStep then
            c.setPtp q.val { x with reqSent := none, pdelayHalf := some (t1, t4 - corr, (receipt : Int) * 65536) }
          else
            let c := c.setPtp q.val { x with reqSent := none }
            if c.servo.parent.isSome ∧ c.servo.parentPort = q.val then c.pathDelay (floorDiv (t4 - t1 - corr) 2) else c
        else c
      | none => c
    | .followUp requester origin corr =>
      match x.pdelayHalf with
      | some (t1, t4, t2) =>
        if requester = c.ownId q.val ∧ h.seq.toNat = (x.seqDelay + 65535) % 65536 then
          let c := c.setPtp q.val { x with pdelayHalf := none }
          if c.servo.parent.isSome ∧ c.servo.parentPort = q.val then
            c.pathDelay (floorDiv (t4 - t1 - ((origin : Int) * 65536 + corr - t2)) 2)
          else c
        else c
      | none => c

/-- Whether an Announce restarts the receipt timeout of its port (R76; IEEE 1588-2019 9.2.6.12): the parent's alone on the
port it is followed on, any other master's on a port without it. -/
def Chip.announceCounts (c : Chip) (q : Nat) (src : PortId) : Bool :=
  c.followed q src || !(c.servo.parent.isSome && decide (c.servo.parentPort = q))

/-- ANNOUNCE (R63, R76): a foreign master recorded, and the best master clock algorithm run. -/
def execAnnounce (q : Fin 2) (h : PtpHdr) (m : AnnounceMsg) (s : State) : Host.Outcome State Fault Refusal :=
  s.go <| s.toChip.ptpTake q.val h fun c =>
    if h.source.clock = (c.ownId q.val).clock then c
    else
      let x := c.ptpPort q.val
      let prev := (x.foreign.find? fun (f : Foreign) => decide (f.source = h.source)).map (·.last)
      let rest := x.foreign.filter fun (f : Foreign) => !decide (f.source = h.source)
      let due := if c.announceCounts q.val h.source then some (c.clk + c.announceWait) else x.announceDue
      (c.setPtp q.val { x with foreign := rest ++ [⟨h.source, m, c.clk, prev⟩], timedOut := false, announceDue := due }).bmca

/-- SYNC_INTERVAL (R65, R66): a port in MASTER sends Sync, with originTimestamp or with a Follow_Up. -/
def execSyncInterval (q : Fin 2) (departure : PortStamp) (s : State) : Host.Outcome State Fault Refusal :=
  let c := s.toChip
  let c :=
    if c.ptpOn q.val ∧ (c.qualify q.val).get (Reg.ENET_STATUS_PORT_STATE q.val) = 6 then
      let c := c.qualify q.val
      let x := c.ptpPort q.val
      let c := c.advanceTo x.nextSync
      let c := c.setPtp q.val { x with seqSync := (x.seqSync + 1) % 65536, nextSync := c.clk + intervalNs c.logSync }
      let t := c.egress q.val departure
      if c.flag Reg.ETM_PTP_CFG_ONE_STEP then c.ptpSend q.val 0 x.seqSync t 0
      else (c.ptpSend q.val 0 x.seqSync 0 0).ptpSend q.val 8 x.seqSync t 0
    else c
  s.go c

/-- DELAY_INTERVAL (R65): a slave port sends Delay_Req, or every port Pdelay_Req with peer delay. -/
def execDelayInterval (q : Fin 2) (departure : PortStamp) (s : State) : Host.Outcome State Fault Refusal :=
  let c := s.toChip
  let p2p := c.flag Reg.ETM_PTP_CFG_DELAY_MECH
  let c :=
    let st := c.get (Reg.ENET_STATUS_PORT_STATE q.val)
    if c.ptpOn q.val ∧ (p2p ∨ st = 8 ∨ st = 9) then
      let x := c.ptpPort q.val
      let c := c.advanceTo x.nextDelay
      let c := c.setPtp q.val { x with
        seqDelay := (x.seqDelay + 1) % 65536
        nextDelay := c.clk + intervalNs (c.getI Reg.ETM_PTP_CFG_LOG_DELAY)
        reqSent := some (c.egress q.val departure)
        pdelayHalf := none }
      c.ptpSend q.val (if p2p then 2 else 1) x.seqDelay 0 0
    else c
  s.go c

/-- ANNOUNCE_INTERVAL (R65): a port in MASTER sends Announce. -/
def execAnnounceInterval (q : Fin 2) (s : State) : Host.Outcome State Fault Refusal :=
  let c := s.toChip
  let c :=
    if c.ptpOn q.val ∧ (c.qualify q.val).get (Reg.ENET_STATUS_PORT_STATE q.val) = 6 then
      let c := c.qualify q.val
      let x := c.ptpPort q.val
      let c := c.advanceTo x.nextAnnounce
      let c := c.setPtp q.val { x with
        seqAnnounce := (x.seqAnnounce + 1) % 65536
        nextAnnounce := c.clk + intervalNs (c.getI Reg.ETM_PTP_CFG_LOG_ANNOUNCE) }
      c.emit (.ptp q.val 11 x.seqAnnounce c.ptpNow 0 none (some c.announced))
    else c
  s.go c

/-- The announce receipt timeout of a port expires (R76): its parent, or a port without one its masters, are forgotten, and the
algorithm runs. -/
def Chip.announceLost (c : Chip) (q : Nat) : Chip :=
  let x := c.ptpPort q
  let left := x.foreign.filter fun (f : Foreign) => !c.announceCounts q f.source
  let due := if left.isEmpty then none else some (c.clk + c.announceWait)
  (c.setPtp q { x with foreign := left, announceDue := due, timedOut := left.isEmpty }).bmca

/-- ANNOUNCE_RECEIPT_TIMEOUT (R65, R76). -/
def execAnnounceReceiptTimeout (q : Fin 2) (s : State) : Host.Outcome State Fault Refusal :=
  let c := s.toChip
  let c := match (c.ptpPort q.val).announceDue with
    | none => c
    | some due => (c.advanceTo due).announceLost q.val
  s.go c

/-- SYNC_RECEIPT_TIMEOUT (R76): HOLDOVER with cause SYNC_TIMEOUT. -/
def execSyncReceiptTimeout (s : State) : Host.Outcome State Fault Refusal :=
  let c := s.toChip
  let c := match c.servo.syncDue with
    | none => c
    | some due =>
      if c.get Reg.ETM_STATUS_STATE = 3 then c
      else ((c.advanceTo due).enterHoldover 1).put (Reg.ENET_STATUS_PORT_STATE c.servo.parentPort) 8
  s.go c

/-- Link, block lock and FEC lock of a network port as they now are (R76, R80); lost block lock resets the port's side of
X18 (R459). -/
def Chip.ethLink (c : Chip) (q : Nat) (link blockLock fecLock : Bool) : Chip :=
  let had := c.flag (Reg.ENET_STATUS_BLOCK_LOCK q)
  let changed := decide (c.flag (Reg.ENET_STATUS_LINK q) ≠ link) || decide (had ≠ blockLock)
  let c := (c.putB (Reg.ENET_STATUS_LINK q) link).putB (Reg.ENET_STATUS_BLOCK_LOCK q) blockLock
  let c := c.putB (Reg.ENET_STATUS_FEC_LOCK q) (fecLock && decide (c.get (Reg.ENET_CTRL_MODE q) = 2))
  let c := c.on (had && !blockLock) fun c => c.flushQueue 18 q none
  if changed then
    let c := (c.put (Reg.ENET_STATUS_LINK_CHG q) 1).raise (232 + q) 0 []
    if link ∧ blockLock then
      (c.setPtp q { c.ptpPort q with announceDue := some (c.clk + c.announceWait) }).bmca
    else
      let lost := c.servo.parent.isSome && decide (c.servo.parentPort = q)
      let c := c.setPtp q { seqSync := (c.ptpPort q).seqSync, seqDelay := (c.ptpPort q).seqDelay,
                            seqAnnounce := (c.ptpPort q).seqAnnounce }
      let c := if lost then
          let c := c.enterHoldover 3
          c.setServo { c.servo with parent := none }
        else c
      c.bmca
  else c

/-- ETH_LINK_CHANGE (R76, R80): link or block lock of a network port changes. -/
def execEthLinkChange (q : Fin 2) (link blockLock fecLock : Bool) (s : State) : Host.Outcome State Fault Refusal :=
  s.go (s.toChip.ethLink q.val link blockLock fecLock)

end Sys2Proof.Machine
end

