-- ==== Sys2Proof/Machine/Axis.lean ====
section
/-! DEFINITION. Machine/Axis.lean: the eight axes: units (R333), rest (R335), the profile laws of one motion tick (R342 to
R346, R354), the governor (R357), faults (R362) and step timing (R347, R348). -/

namespace Sys2Proof.Machine

/-! ### Axes -/

/-- An axis. -/
def Chip.axis (c : Chip) (a : Nat) : Axis := SMap.get {} a c.axes

/-- An axis replaced. -/
def Chip.setAxis (c : Chip) (a : Nat) (x : Axis) : Chip := { c with axes := SMap.set {} a x c.axes }

/-- One step in units of position. -/
def stepUnit : Int := 4294967296

/-- The whole step at or below a position. -/
def stepOf (p : Int) : Int := floorDiv p stepUnit

/-- A register speed in units of 10^-12 steps/s. -/
def speedUnits (v : Int) : Int := v * 3906250000

/-- An axis's mode (R341). -/
def Chip.axMode (c : Chip) (a : Nat) : Nat := c.get (Reg.MOT_AX_STATUS_MODE a)

/-- R335: the axis is at rest. -/
def Chip.atRest (c : Chip) (a : Nat) : Bool :=
  let x := c.axis a
  let m := c.axMode a
  decide (x.vel = 0) && decide (x.acc = 0) && x.target.isNone && x.queue.isEmpty && decide (x.slow = 0) &&
    decide (m ≠ 4) && decide (m ≠ 5) && !(decide (m = 3) && decide (x.vset ≠ 0))

/-- The axis is bound as the traverse (R357). -/
def Chip.bound (c : Chip) (a : Nat) : Bool := c.flag Reg.MOT_TRAV_BIND_ENABLE && decide (c.get Reg.MOT_TRAV_BIND_AXIS = a)

/-- CAP of R357 in steps/s, while a cap is in force. -/
def Chip.govCap (c : Chip) : Option Nat :=
  if c.flag Reg.MOT_TRAV_BIND_ENABLE ∧ c.get Reg.CRN_STATUS_STATE ≠ 0 ∧ c.get Reg.CRN_GOV_LIMIT_LPS ≠ 0 then
    some (c.get Reg.CRN_GOV_LIMIT_LPS * c.get Reg.MOT_TRAV_SPL_SPL / 65536)
  else none

/-- MOT.GOV_CAP shows the cap; GOVERNED ends with it. -/
def Chip.showCap (c : Chip) : Chip :=
  match c.govCap with
  | some v => c.put Reg.MOT_GOV_CAP_SPS (min v (2 ^ 23 - 1))
  | none =>
    let c := c.put Reg.MOT_GOV_CAP_SPS 0
    (List.range 8).foldl (fun c a => c.put (Reg.MOT_AX_STATUS_GOVERNED a) 0) c

/-- The speed limit of an axis in every mode, 2^-8 steps/s (R357). -/
def Chip.axVmax (c : Chip) (a : Nat) : Nat :=
  let v := min (c.get (Reg.MOT_AX_VMAX_VALUE a)) 1024000000
  match c.govCap with
  | some cap => if c.bound a then min v (256 * cap) else v
  | none => v

/-- A limit a move carries, within the axis's own; 0 carries none. -/
def within (mv reg : Nat) : Nat := if mv = 0 then reg else min mv reg

/-- The jerk limit in force: 0 is unlimited (R333). -/
def jerkWithin (mj reg : Nat) : Nat := if mj = 0 then reg else if reg = 0 then mj else min mj reg

/-- Position, speed and motion of an axis shown in its registers; the moment it comes to rest; RUN current again at the
tick it moves (R335, R350). -/
def Chip.showAxis (c : Chip) (a : Nat) : Chip :=
  let x := c.axis a
  let moving := !c.atRest a
  let was := c.flag (Reg.MOT_AX_STATUS_MOVING a)
  let x := if moving then { x with hold := false } else if was then { x with restSince := c.clk } else x
  let c := c.setAxis a x
  let c := (c.putB (Reg.MOT_AX_STATUS_MOVING a) moving).putBit Reg.MOT_STATUS_MOVING a moving
  let c := (c.put (Reg.MOT_AX_STATUS_QUEUED a) x.queue.length).put (Reg.MOT_AX_STATUS_GEAR_Q a) x.changes.length
  let c := (c.putI (Reg.MOT_AX_POS_POS a) x.out).putI (Reg.MOT_AX_VEL_VEL a) (floorDiv x.vel 3906250000)
  c.putI (Reg.MOT_AX_LAG_LAG a) (if c.axMode a = 4 then stepOf x.pos - x.out else 0)

/-- The event of an axis with a cause (R363). -/
def Chip.axisEvent (c : Chip) (a cause : Nat) : Chip := c.raise (160 + a) cause []

/-- The axis ends whatever it was doing, and decelerates as slow says; a geared axis returns to the mode it held before
GEAR, a homing axis to POSITION (R346). -/
def Chip.endMotion (c : Chip) (a slow : Nat) : Chip :=
  let x := c.axis a
  let m := c.axMode a
  let still := decide (x.vel = 0) && decide (x.acc = 0)
  let x := { x with target := none, queue := [], changes := [], reached := 0, vset := 0, stage := 0, planA := 0,
                    slow := if still then 0 else max x.slow slow }
  let c := c.setAxis a x
  if m = 4 then c.put (Reg.MOT_AX_STATUS_MODE a) x.prior
  else if m = 5 then c.put (Reg.MOT_AX_STATUS_MODE a) 1
  else c

/-- R362: the axis enters FAULT with a cause, and decelerates as the cause says: 1 at AMAX and JMAX, 2 at EDEC, 0 no
deceleration, since its output is disabled. -/
def Chip.axisFault (c : Chip) (a cause : Nat) : Chip :=
  let slow := if cause = 3 then 1 else if cause = 5 ∨ cause = 6 then 0 else 2
  let c := c.endMotion a slow
  let c := if slow = 0 then c.setAxis a { c.axis a with vel := 0, acc := 0, slow := 0 } else c
  let c := (c.put (Reg.MOT_AX_STATUS_FAULT a) 1).put (Reg.MOT_AX_STATUS_FAULT_CAUSE a) cause
  ((c.putBit Reg.MOT_STATUS_FAULT a true).showAxis a).raise (160 + a) 2 [(1, cause)]

/-- The axis is in FAULT. -/
def Chip.inFault (c : Chip) (a : Nat) : Bool := c.flag (Reg.MOT_AX_STATUS_FAULT a)

/-! ### Profile laws, in ticks: distance 10^-18 steps, speed 10^-12 steps/s, acceleration 10^-6 steps/s² -/

/-- Integer square root, from bit k down. -/
def rootFrom (n : Nat) : Nat → Nat → Nat
  | 0, r => r
  | k + 1, r => if (r + 2 ^ k) * (r + 2 ^ k) ≤ n then rootFrom n k (r + 2 ^ k) else rootFrom n k r

/-- The integer square root of a number below 2^192. -/
def rootOf (n : Nat) : Nat := rootFrom n 96 0

/-- A division rounded up. -/
def upDiv (a b : Int) : Int := floorDiv (a + b - 1) b

/-- Distance in which a speed falls to another, both at zero acceleration, within a jerk limit. -/
def slowFlat (v vj a j : Int) : Int :=
  if v ≤ vj then 0
  else
    let d := v - vj
    if a * a ≤ d * j then upDiv ((v + vj) * (d * j + a * a)) (2 * a * j)
    else upDiv ((v + vj) * ((rootOf (d * 4294967296 / j).toNat : Nat) + 1)) 65536

/-- The same without a jerk limit: whole ticks at the acceleration limit, and one for the rest. -/
def slowTicks (v vj a : Int) : Int :=
  if v ≤ vj ∨ a ≤ 0 then 0
  else
    let n := floorDiv (v - vj) a
    let r := v - n * a
    upDiv ((v + r) * n + (if vj < r then r + vj else 0)) 2

/-- A distance in which a speed falls to another from a present acceleration, no less than the ticks take; j is 0 where jerk is
not limited. The half tick of travel added covers that a tick keeps its acceleration throughout. -/
def slowDist (v acc vj a j : Int) : Int :=
  if j = 0 then slowTicks v vj a
  else
    let swing := acc * acc
    if 0 ≤ acc then
      slowFlat (v + upDiv swing (2 * j)) vj a j + upDiv (v * acc) j + upDiv (swing * acc) (3 * j * j) + upDiv v 2
    else
      let b := -acc
      let fall := floorDiv swing (2 * j)
      if v - vj ≤ fall then
        if v ≤ vj then 0 else upDiv ((v - vj) * (b + j)) (3 * j) + vj * floorDiv (b + j) j
      else
        max 0 (slowFlat (v + fall) vj a j - (floorDiv ((v + fall) * b) j - upDiv (swing * b) (6 * j * j))) + upDiv v 2

/-- The ticks n of the longest ramp of speed changes j, 2j, …, nj whose sum is within g · j. -/
def rampTicks (g : Nat) : Nat := (rootFrom (1 + 8 * g) 40 0 - 1) / 2

/-- The greatest change of speed in one tick after which changes that fall by j a tick end within a gap. -/
def rampTop (gap j : Int) : Int :=
  let n : Int := rampTicks (gap / j).toNat
  floorDiv (gap + j * (n * (n + 1) / 2)) (n + 1)

/-- Speed and acceleration one tick on, slewed towards a speed: the change of speed that comes nearest to it, within an
acceleration limit, and within a jerk limit such that the acceleration can end where the speed does. -/
def slewTo (v acc goal a j : Int) : Int × Int :=
  if j = 0 then
    let w := clampI goal (v - a) (v + a)
    (w, if w = goal then 0 else w - v)
  else
    let s : Int := if goal < v then -1 else 1
    let q := clampI (clampI (rampTop (s * (goal - v)) j) (s * acc - j) (s * acc + j)) (-a) a
    (v + s * q, s * q)

/-- Whether each joint, a distance and a speed, can be passed no faster than its speed, from a speed and acceleration. -/
def canStop (a j : Int) (joints : List (Int × Int)) (v q : Int) : Bool :=
  joints.all fun k => decide (slowDist v q k.2 a j ≤ k.1)

/-- The same after one more tick, in which the speed changes by q. -/
def reaches (a j : Int) (joints : List (Int × Int)) (v q : Int) : Bool :=
  joints.all fun k => decide (slowDist (v + q) q k.2 a j + upDiv (v + v + q) 2 ≤ k.1)

/-- The greatest number from lo on, below hi, that passes a test which every lesser one passes; k bisections. -/
def greatestFrom (ok : Int → Bool) : Nat → Int → Int → Int
  | 0, lo, _ => lo
  | k + 1, lo, hi =>
    if hi ≤ lo + 1 then lo
    else
      let m := floorDiv (lo + hi) 2
      if ok m then greatestFrom ok k m hi else greatestFrom ok k lo m

/-- Speed and acceleration one tick on, in the direction of motion, towards joints given as distance and speed, within a
speed limit: the greatest change of speed from which every joint can still be met, between braking to rest and running to the
limit. -/
def driveTo (v acc limit a j : Int) (joints : List (Int × Int)) : Int × Int :=
  let most := (slewTo v acc limit a j).1 - v
  let least := (slewTo v acc 0 a j).1 - v
  let ok := reaches a j joints v
  let q := if ok most then most else if most ≤ least ∨ ok least = false then least else greatestFrom ok 64 least most
  (v + q, q)

/-- A distance in units of position as 10^-18 steps. -/
def farUnits (d : Int) : Int := floorDiv (d * 1000000000000000000) stepUnit

/-! ### One tick of a profile -/

/-- The limits of an axis for a tick: speed, acceleration and jerk in tick units. -/
def Chip.limitsOf (c : Chip) (a : Nat) : Int × Int × Int :=
  let x := c.axis a
  (speedUnits (within x.mv (c.axVmax a)),
   (within x.ma (max 1 (c.get (Reg.MOT_AX_AMAX_VALUE a))) : Nat) * 1000000,
   (jerkWithin x.mj (c.get (Reg.MOT_AX_JMAX_VALUE a)) : Nat) * 256)

/-- Parts of 2^-32 step in which a tick's travel is exact: half the sum of two speeds in 10^-18 steps. -/
def tickParts : Int := 2000000000000000000

/-- An axis after a tick that ends at a speed and an acceleration: its position, and the parts of 2^-32 step beyond it. -/
def Axis.moved (x : Axis) (vel acc : Int) : Axis :=
  let far := (x.vel + vel) * stepUnit + x.part
  { x with pos := x.pos + floorDiv far tickParts, part := far % tickParts, vel := vel, acc := acc }

/-- A tick of slewing towards a speed. -/
def Chip.slewAxis (c : Chip) (a : Nat) (goal acc jerk : Int) : Chip :=
  let x := c.axis a
  let r := slewTo x.vel x.acc goal acc jerk
  c.setAxis a (x.moved r.1 r.2)

/-- The least number above lo, at most hi, that passes a test which every greater one passes; k bisections. -/
def leastFrom (ok : Int → Bool) : Nat → Int → Int → Int
  | 0, _, hi => hi
  | k + 1, lo, hi =>
    if hi ≤ lo + 1 then hi
    else
      let m := floorDiv (lo + hi) 2
      if ok m then leastFrom ok k lo m else leastFrom ok k m hi

/-- R343: the limits of acceleration and jerk an axis plans a tick with, towards joints. A limit lowered since the last tick,
with which the axis can no longer stop where it must, is deferred: the axis then takes the least deceleration that still stops,
no less than the new AMAX and no more than the AMAX of the plan before, at that plan's jerk limit. -/
def Chip.planLimits (c : Chip) (a : Nat) (s : Int) (joints : List (Int × Int)) : Chip × Int × Int :=
  let l := c.limitsOf a
  let x := c.axis a
  let v := s * x.vel
  let q := s * x.acc
  let stops := canStop l.2.1 l.2.2 joints v q
  let nowA := (l.2.1 / 1000000).toNat
  let nowJ := (l.2.2 / 256).toNat
  let lower := decide (nowA < x.usedA) || decide (x.usedA ≠ 0 ∧ nowJ ≠ 0 ∧ (x.usedJ = 0 ∨ nowJ < x.usedJ))
  let c :=
    if x.planA ≠ 0 then c
    else if lower ∧ stops = false then
      ((c.setAxis a { x with planA := x.usedA, planJ := x.usedJ }).put (Reg.MOT_AX_STATUS_LIMIT_DEFERRED a) 1).axisEvent a 5
    else c.setAxis a { x with usedA := nowA, usedJ := nowJ }
  let y := c.axis a
  if y.planA = 0 ∨ stops then (c, l.2)
  else
    let j : Int := y.planJ * 256
    (c, leastFrom (fun d => canStop d j joints v q) 96 l.2.1 (max l.2.1 (y.planA * 1000000)), j)

/-- What lies between an axis and a target, in parts of its finest measure of position. -/
def Axis.leftTo (x : Axis) (target : Int) : Int := (target - x.pos) * tickParts - x.part

/-- The joints of a plan, distances from the position as held, seen from where the axis is within its last 2^-32 step. -/
def Axis.seen (x : Axis) (s : Int) (joints : List (Int × Int)) : List (Int × Int) :=
  joints.map fun k => (k.1 + floorDiv (-(s * x.part)) (2 * stepUnit), k.2)

/-- A tick of a plan in a direction s towards joints: the axis moves. -/
def Chip.planTick (c : Chip) (a : Nat) (s vmax : Int) (joints : List (Int × Int)) : Chip :=
  let seen := (c.axis a).seen s joints
  let p := c.planLimits a s seen
  let x := p.1.axis a
  let r := driveTo (s * x.vel) (s * x.acc) vmax p.2.1 p.2.2 seen
  p.1.setAxis a (x.moved (s * r.1) (s * r.2))

/-- Whether an axis has come to rest at a target, to within 2^-32 step. -/
def Axis.arrived (x : Axis) (target : Int) : Bool :=
  decide (x.vel = 0) && decide (x.acc = 0) && decide (|x.leftTo target| < tickParts)

/-- The axis is at a target, at rest, with no plan. -/
def Axis.atTarget (x : Axis) (target : Int) : Axis :=
  { x with pos := target, part := 0, vel := 0, acc := 0, planA := 0, planJ := 0 }

/-- A tick towards one target at which the axis comes to rest (R342); the flag says that it has. -/
def Chip.moveTick (c : Chip) (a : Nat) (target : Int) (vmax : Int) : Chip × Bool :=
  let x := c.axis a
  let c := c.planTick a (x.leftTo target).sign vmax [(farUnits |target - x.pos|, 0)]
  let y := c.axis a
  if y.arrived target then (c.setAxis a (y.atTarget target), true) else (c, false)

/-- The joints ahead of a queue (R345): distance from a position and joint speed, up to the first change of direction. -/
def jointsOf (pos : Int) (vmax : Nat) : List (Int × Nat) → List (Int × Int)
  | [] => []
  | [m] => [(farUnits |m.1 - pos|, 0)]
  | m :: n :: rest =>
    let s := (m.1 - pos).sign
    if (n.1 - m.1).sign ≠ s then [(farUnits |m.1 - pos|, 0)]
    else
      (farUnits |m.1 - pos|, speedUnits (min (within m.2 vmax) (within n.2 vmax))) ::
        (jointsOf m.1 vmax (n :: rest)).map fun k => (k.1 + farUnits |m.1 - pos|, k.2)

/-- The target at which a queue first comes to rest: where its direction turns, or its last (R345). -/
def restTarget (pos : Int) : List (Int × Nat) → Int
  | [] => pos
  | [m] => m.1
  | m :: n :: rest => if (n.1 - m.1).sign ≠ (m.1 - pos).sign then m.1 else restTarget m.1 (n :: rest)

/-- Moves of one direction without those whose targets a position has reached. -/
def movesLeft (s pos : Int) (q : List (Int × Nat)) : List (Int × Nat) := q.dropWhile fun m => decide (s * (m.1 - pos) ≤ 0)

/-- A tick of the queue (R345), in which the axis may pass several joints; the flag says that the last target has been
reached. -/
def Chip.queueTick (c : Chip) (a : Nat) : Chip × Bool :=
  let x := c.axis a
  match x.queue with
  | [] => (c, false)
  | m :: _ =>
    let s := (x.leftTo m.1).sign
    let goal := restTarget x.pos x.queue
    let c := c.planTick a s (speedUnits (within m.2 (c.axVmax a))) (jointsOf x.pos (c.axVmax a) x.queue)
    let y := c.axis a
    if y.arrived goal then
      let rest := (y.queue.dropWhile fun k => decide (k.1 ≠ goal)).drop 1
      (c.setAxis a { y.atTarget goal with queue := rest }, rest.isEmpty)
    else
      let last := y.queue.dropWhile fun k => decide (k.1 ≠ goal)
      (c.setAxis a { y with queue := movesLeft s y.pos (y.queue.take (y.queue.length - last.length)) ++ last }, false)

/-- The commanded position of a geared axis at a master count (R354). -/
def Axis.gearPos (x : Axis) (m : Nat) : Int :=
  x.p0 + stepUnit * floorDiv (wrapDiff (BitVec.ofNat 32 m) (BitVec.ofNat 32 x.m0) * x.num) x.den

/-- How many waiting ratio changes, one after another, a master count has reached (R355). -/
def Axis.reachedAt (x : Axis) (m : Nat) : Nat :=
  x.reached + ((x.changes.drop x.reached).takeWhile fun r => decide (r.x = m)).length

/-- The first k waiting ratio changes take effect, each at its own master position (R355). -/
def Chip.takeRatios (c : Chip) (a : Nat) : Nat → Chip
  | 0 => c
  | k + 1 =>
    let x := c.axis a
    match x.changes with
    | [] => c
    | r :: rest =>
      let c := c.setAxis a { x with p0 := x.gearPos r.x, m0 := r.x, num := r.num, den := r.den, changes := rest }
      (c.axisEvent a 4).takeRatios a k

/-- Order 4 of R334: the ratio changes whose master positions have been reached since the last tick. -/
def Chip.ratioTick (c : Chip) (a : Nat) : Chip :=
  let k := (c.axis a).reached
  let c := c.setAxis a { c.axis a with reached := 0 }
  if c.axMode a = 4 then c.takeRatios a k else c

/-- A tick of gearing (R354), with the lag guarded. -/
def Chip.gearTick (c : Chip) (a : Nat) : Chip :=
  let x := c.axis a
  let p := x.gearPos (c.get (Reg.MOT_ENC_COUNT_COUNT x.enc))
  let c := c.setAxis a { x with pos := p, vel := farUnits (p - x.pos), acc := 0, part := 0 }
  if (c.get (Reg.MOT_AX_LAGMAX_STEPS a) : Int) < |stepOf p - x.out| then
    let top := speedUnits (c.axVmax a)
    let c := c.setAxis a { c.axis a with vel := clampI (c.axis a).vel (-top) top }
    c.axisFault a 4
  else c

/-- A tick of homing (R360, R361). -/
def Chip.homeTick (c : Chip) (a : Nat) : Chip :=
  let x := c.axis a
  let l := c.limitsOf a
  let top := speedUnits (within x.hspeed (c.axVmax a))
  match x.stage with
  | 1 =>
    if (c.get (Reg.MOT_AX_HOME_MAX_STEPS a) : Int) * stepUnit ≤ |x.pos - x.hstart| then c.axisFault a 3
    else c.slewAxis a (if x.hneg then -top else top) l.2.1 l.2.2
  | 2 =>
    let c := c.slewAxis a 0 l.2.1 l.2.2
    let y := c.axis a
    if y.vel = 0 ∧ y.acc = 0 then c.setAxis a { y with stage := 3 } else c
  | 3 =>
    let r := if x.leftTo (x.href + x.hofs) = 0 then (c, true) else c.moveTick a (x.href + x.hofs) top
    if r.2 then
      let y := r.1.axis a
      let c := r.1.setAxis a { y with pos := x.hpos, part := 0, out := floorDiv x.hpos stepUnit, stage := 0, vel := 0, acc := 0 }
      ((c.put (Reg.MOT_AX_STATUS_HOMED a) 1).put (Reg.MOT_AX_STATUS_MODE a) 1).axisEvent a 3
    else r.1
  | _ => c

/-- Order 6 of R334: the profile of an axis updated. -/
def Chip.profileTick (c : Chip) (a : Nat) : Chip :=
  let x := c.axis a
  let l := c.limitsOf a
  if x.slow ≠ 0 then
    let c := if x.slow = 2 then c.slewAxis a 0 ((max 1 (c.get (Reg.MOT_AX_EDEC_VALUE a)) : Nat) * 1000000) 0
      else c.slewAxis a 0 l.2.1 l.2.2
    let y := c.axis a
    if y.vel = 0 ∧ y.acc = 0 then c.setAxis a { y with slow := 0 } else c
  else
    match c.axMode a with
    | 1 =>
      match x.target with
      | none => c
      | some t =>
        let r := c.moveTick a t l.1
        if r.2 then (r.1.setAxis a { r.1.axis a with target := none }).axisEvent a 1 else r.1
    | 2 =>
      let r := c.queueTick a
      if r.2 then r.1.axisEvent a 1 else r.1
    | 3 =>
      let top := speedUnits (c.axVmax a)
      let goal := clampI (speedUnits x.vset) (-top) top
      c.slewAxis a (if goal.sign * x.vel.sign < 0 then 0 else goal) l.2.1 l.2.2
    | 4 => c.gearTick a
    | 5 => c.homeTick a
    | _ => c

/-! ### Step output -/

/-- The direction of the steps an axis still owes at its commanded position, 0 for none. -/
def Axis.owes (x : Axis) : Int :=
  if 1 ≤ stepOf x.pos - x.out then 1 else if x.pos ≤ (x.out - 1) * stepUnit then -1 else 0

/-- The model time of the next step of a step/direction axis (R347, R348), none while no step is in prospect. -/
def Chip.nextStep (c : Chip) (a : Nat) : Option Nat :=
  let x := c.axis a
  if c.get (Reg.MOT_AX_CFG_OUT a) ≠ 1 ∨ c.flag Reg.MOT_STATUS_OUTPUT_EN = false ∨ c.axMode a = 0 then none
  else
    let hold := max (x.lastStep + 250) (x.dirAt + 5 * c.get (Reg.MOT_AX_CFG_DSETUP a))
    let ahead := stepOf x.pos - x.out
    if c.axMode a = 4 then
      if ahead = 0 ∨ decide (ahead < 0) ≠ x.neg then none
      else some (max hold (max x.tickAt (x.lastStep + 256000000000 / max 1 (c.axVmax a))))
    else
      let s := if x.vel = 0 then x.owes else x.vel.sign
      let dist := s * ((x.out + s) * stepUnit - x.pos)
      if s = 0 ∨ decide (s < 0) ≠ x.neg then none
      else if dist ≤ 0 then some (max hold x.tickAt)
      else if x.vel = 0 then none
      else
        let ticks := (floorDiv (200 * farUnits dist + |x.vel| - 1) |x.vel|).toNat
        some (max hold (x.tickAt + 5 * min ticks (2 ^ 32 - 1)))

/-- The direction ball follows the sign of the commanded speed, and the step timer is loaded again (R347, R348). An axis
whose commanded speed is 0 turns at a tick towards the steps it still owes, which it could not give otherwise (DEDUCED: log entry
42). -/
def Chip.loadTimer (c : Chip) (a : Nat) : Chip :=
  let x := c.axis a
  let neg := if x.vel < 0 then true else if 0 < x.vel then false else if x.owes ≠ 0 then decide (x.owes < 0) else x.neg
  let x := { x with neg := neg, dirAt := if neg = x.neg then x.dirAt else c.clk, tickAt := c.clk }
  let c := c.setAxis a x
  c.setAxis a { x with stepDue := c.nextStep a }

/-- The output position of a phase-current axis follows the commanded one (R349, R354). -/
def Chip.followPos (c : Chip) (a : Nat) : Chip :=
  let x := c.axis a
  if c.get (Reg.MOT_AX_CFG_OUT a) ≠ 2 ∨ c.axMode a = 0 then c
  else
    let d := stepOf x.pos - x.out
    if c.axMode a = 4 then
      let each := 256000000000 / max 1 (c.axVmax a)
      let n := min d.natAbs ((c.clk - x.lastStep) / max 1 each)
      c.setAxis a { x with out := x.out + d.sign * n, lastStep := if d = 0 then c.clk else x.lastStep + n * each }
    else c.setAxis a { x with out := stepOf x.pos, lastStep := c.clk }

/-- The step timer of an axis expires: one step, and the timer loaded again. -/
def Chip.stepPulse (c : Chip) (a : Nat) : Chip :=
  let x := c.axis a
  match x.stepDue with
  | none => c
  | some t =>
    if c.get (Reg.MOT_AX_CFG_OUT a) ≠ 1 ∨ c.flag Reg.MOT_STATUS_OUTPUT_EN = false ∨ c.axMode a = 0 then c
    else
      let c := c.advanceTo t
      let y := { x with out := x.out + (if x.neg then -1 else 1), lastStep := c.clk }
      let c := c.setAxis a y
      let next := c.nextStep a
      let load := match next with
        | some u => (u - c.clk) / 5
        | none => 2 ^ 32 - 1
      let c := (c.setAxis a { y with stepDue := next }).emit
        (.step a (x.neg != c.flag (Reg.MOT_AX_CFG_DIR_INV a)) (min (c.get (Reg.MOT_AX_CFG_PW a)) (load / 2)))
      c.putI (Reg.MOT_AX_POS_POS a) y.out

end Sys2Proof.Machine
end

