-- ==== Sys2Proof/Machine/Crc.lean ====
section
/-! DEFINITION. Machine/Crc.lean: the CRC-32 of R121, the CRC-16 of the DRV frames (R352), and
SHA-256 for the hash of R475 and the digest of R485. -/

namespace Sys2Proof.Machine

/-- One byte into the CRC-32 register, least significant bit first (R121). -/
def crc32Byte (r : Nat) (b : Byte) : Nat :=
  (List.range 8).foldl (fun x _ => if x % 2 = 1 then (x / 2) ^^^ 0xEDB88320 else x / 2) (r ^^^ b.toNat)

/-- The CRC-32 register after some bytes. -/
def crc32From (r : Nat) (bs : List Byte) : Nat := bs.foldl crc32Byte r

/-- The CRC-32 of some bytes (R121): preset to ones, result complemented. -/
def crc32 (bs : List Byte) : Nat := crc32From 0xFFFFFFFF bs ^^^ 0xFFFFFFFF

/-- One byte into a CRC-16 register: generator 0x1021, most significant bit first (R352). -/
def crc16Byte (r : Nat) (b : Byte) : Nat :=
  (List.range 8).foldl (fun r _ => if bit r 15 then (2 * r % 65536) ^^^ 0x1021 else 2 * r) (r ^^^ (b.toNat * 256))

/-- CRC-16 of R352: preset 0xFFFF, no reflection, no final complement. -/
def crc16 (bs : List Byte) : Nat := bs.foldl crc16Byte 0xFFFF

/-! ### The hash of the image and the configuration digest (R475, R485)

The spec names SHA-256 and leaves its arithmetic to the public standard (log 87). The constants are kept as what they are, the
first 32 bits of the fractional parts of roots of primes; the working variables as the two series of which each is four
successive terms; the message schedule as a window of the last 16 words. -/

/-- `b` settled bits below bit `b`: the greatest `r` of `b` bits whose power `k` does not pass `v`. -/
def rootBits (k v : Nat) : Nat → Nat → Nat
  | 0, r => r
  | b + 1, r => rootBits k v b (if (r + 2 ^ b) ^ k ≤ v then r + 2 ^ b else r)

/-- The first 32 bits of the fraction of the root of degree `k` of a number below 2^9. -/
def rootFrac (k q : Nat) : Nat := rootBits k (q * 2 ^ (32 * k)) 41 0 % 2 ^ 32

/-- The first 64 primes. -/
def firstPrimes : List Nat :=
  (List.range 312).filter fun q => decide (2 ≤ q) && (List.range 18).all fun d => decide (d < 2) || decide (q ≤ d) || q % d != 0

/-- A 32-bit value turned right by `n`. -/
def turn (v n : Nat) : Nat := (v * 2 ^ 32 + v) / 2 ^ n % 2 ^ 32

/-- Exclusive or of three. -/
def xor3 (x y z : Nat) : Nat := x ^^^ (y ^^^ z)

/-- The hash in progress: the last four terms of either series and the last 16 words, newest first. -/
structure ShaRun where
  hi : List Nat
  lo : List Nat
  words : List Nat
  deriving DecidableEq, Repr

/-- The word that follows a window. -/
def nextWord (w : List Nat) : Nat :=
  let far := w.getD 14 0
  let near := w.getD 1 0
  (xor3 (turn far 7) (turn far 18) (far / 2 ^ 3) + xor3 (turn near 17) (turn near 19) (near / 2 ^ 10) +
    w.getD 15 0 + w.getD 6 0) % 2 ^ 32

/-- One round: the oldest word of the window enters with the round's constant, and both series and the window move on. -/
def ShaRun.round (r : ShaRun) (k : Nat) : ShaRun :=
  let x := fun i => r.hi.getD i 0
  let y := fun i => r.lo.getD i 0
  let pick := y 2 ^^^ (y 0 &&& (y 1 ^^^ y 2))
  let most := (x 0 &&& x 1) ||| (x 2 &&& (x 0 ||| x 1))
  let t := y 3 + pick + xor3 (turn (y 0) 6) (turn (y 0) 11) (turn (y 0) 25) + k + r.words.getD 15 0
  { hi := (t + most + xor3 (turn (x 0) 2) (turn (x 0) 13) (turn (x 0) 22)) % 2 ^ 32 :: r.hi.take 3
    lo := (x 3 + t) % 2 ^ 32 :: r.lo.take 3
    words := nextWord r.words :: r.words.take 15 }

/-- The words of a message, most significant byte first. -/
def bigWords : List Byte → List Nat
  | a :: b :: c :: d :: rest => (((a.toNat * 256 + b.toNat) * 256 + c.toNat) * 256 + d.toNat) :: bigWords rest
  | _ => []

/-- The blocks of a padded message, one after another, into the eight words of the hash. -/
def absorb (ks : List Nat) : Nat → List Nat → List Nat → List Nat
  | 0, h, _ => h
  | n + 1, h, ws =>
    let r := ks.foldl ShaRun.round ⟨h.take 4, h.drop 4, (ws.take 16).reverse⟩
    absorb ks n (List.zipWith (fun x y => (x + y) % 2 ^ 32) h (r.hi ++ r.lo)) (ws.drop 16)

/-- The hash of R475 and R485, first byte first. -/
def sha256 (bs : List Byte) : List Byte :=
  let blocks := (bs.length + 72) / 64
  let gap := 64 * blocks - 9 - bs.length
  let message := bs ++ 0x80#8 :: (leBytes (8 + gap) (8 * bs.length)).reverse
  let h := absorb (firstPrimes.map (rootFrac 3)) blocks ((firstPrimes.take 8).map (rootFrac 2)) (bigWords message)
  (h.flatMap fun x => (leBytes 4 x).reverse)

end Sys2Proof.Machine
end

