-- ==== Sys2Proof/Machine/Churn.lean ====
section
/-! DEFINITION. Machine/Churn.lean: the block format (R117 to R124), the stream's decoder and encoder (R125 to R131), and
the eight engines and their jobs (R33, R132 to R139). -/

namespace Sys2Proof.Machine

/-- The width of a code at index i (R126). -/
def codeWidth (i : Nat) : Nat :=
  if i ≤ 254 then 9 else if i ≤ 766 then 10 else if i ≤ 1790 then 11 else if i ≤ 3838 then 12
  else if i ≤ 7934 then 13 else 14

/-- What the decoder of R129 holds between codes: the bit position, the index, the previous code and its string, the entries
from 258 up, and the bytes out. -/
structure DecState where
  pos : Nat := 0
  i : Nat := 0
  code : Nat := 0
  prev : List Byte := []
  dict : List (List Byte) := []
  out : List Byte := []
  deriving DecidableEq, Repr

/-- The result of decoding: the bytes, or the cause of R132 with the payload bit position of R532. -/
inductive DecResult where
  | ok (bytes : List Byte)
  | fail (cause bitPos : Nat)
  deriving DecidableEq, Repr

/-- The string of a code below 256, or of a dictionary entry. -/
def codeString (dict : List (List Byte)) (c : Nat) : List Byte :=
  if c < 256 then [BitVec.ofNat 8 c] else dict.getD (c - 258) []

/-- The end of a stream (R129): END at bit position at, payload bits and bytes, the bytes out. -/
def decodeEnd (payload nbits ulen crc at' pos : Nat) (out : List Byte) : DecResult :=
  if out.length < ulen then .fail 4 at'
  else if payload / 2 ^ pos ≠ 0 ∨ nbits ≠ 8 * ((pos + 7) / 8) then .fail 5 pos
  else if crc32 out ≠ crc then .fail 6 0
  else .ok out

/-- One code of the loop of R129 over a payload read as one little-endian number: the decoder goes on, or the block ends. -/
def decodeStep (payload nbits ulen crc : Nat) (d : DecState) : DecState ⊕ DecResult :=
  let w := codeWidth d.i
  if nbits < d.pos + w then .inr (.fail 4 d.pos)
  else
    let c := bits payload d.pos w
    let pos := d.pos + w
    if c = 256 then .inl { pos := pos, out := d.out }
    else if c = 257 then .inr (decodeEnd payload nbits ulen crc d.pos pos d.out)
    else if d.i = 0 ∧ 255 < c then .inr (.fail 1 d.pos)
    else if d.i ≠ 0 ∧ min (257 + d.i) 16383 < c then .inr (.fail 2 d.pos)
    else
      let s := if d.i ≠ 0 ∧ c = 257 + d.i then d.prev ++ d.prev.take 1 else codeString d.dict c
      let dict := if d.i ≠ 0 ∧ 257 + d.i ≤ 16383 then d.dict ++ [d.prev ++ s.take 1] else d.dict
      if ulen < d.out.length + s.length then .inr (.fail 3 d.pos)
      else .inl ⟨pos, d.i + 1, c, s, dict, d.out ++ s⟩

/-- The loop of R129, code by code. -/
def decodeLoop (payload nbits ulen crc : Nat) : Nat → DecState → DecResult
  | 0, d => .fail 4 d.pos
  | fuel + 1, d =>
    match decodeStep payload nbits ulen crc d with
    | .inl d' => decodeLoop payload nbits ulen crc fuel d'
    | .inr r => r

/-- R129: a compressed payload decoded. -/
def churnDecode (payload : List Byte) (ulen crc : Nat) : DecResult :=
  decodeLoop (leNat payload) (8 * payload.length) ulen crc (8 * payload.length) {}

/-- The decoder before the code whose string holds output byte b. -/
def decodeTo (payload nbits ulen b : Nat) : Nat → DecState → DecState
  | 0, d => d
  | fuel + 1, d =>
    match decodeStep payload nbits ulen 0 d with
    | .inl d' => if d'.out.length ≤ b then decodeTo payload nbits ulen b fuel d' else d
    | .inr _ => d

/-- The code of a string: a literal, or its entry. -/
def findCode (dict : List (List Byte)) (s : List Byte) : Option Nat :=
  match s with
  | [b] => some b.toNat
  | _ =>
    let i := dict.findIdx fun e => decide (e = s)
    if i < dict.length then some (258 + i) else none

/-- The state of the encoder of R131: the number of the bits put and the number they spell, the index, the string being
matched, the entries. -/
structure EncState where
  nbits : Nat
  spelt : Nat
  i : Nat
  cur : List Byte
  dict : List (List Byte)
  deriving DecidableEq, Repr

/-- A code put at the width of the index (R128). -/
def EncState.put (e : EncState) (c : Nat) : EncState :=
  { e with nbits := e.nbits + codeWidth e.i, spelt := e.spelt + c * 2 ^ e.nbits }

/-- One byte into the encoder of R131. -/
def EncState.next (e : EncState) (b : Byte) : EncState :=
  match findCode e.dict (e.cur ++ [b]) with
  | some _ => { e with cur := e.cur ++ [b] }
  | none =>
    let p := e.put ((findCode e.dict e.cur).getD 0)
    let i := e.i + 1
    ⟨p.nbits, p.spelt, i, [b], if 257 + i ≤ 16383 then e.dict ++ [e.cur ++ [b]] else e.dict⟩

/-- R131: the controller's own encoder. -/
def churnEncode : List Byte → List Byte
  | [] => []
  | b :: bs =>
    let e := bs.foldl EncState.next ⟨0, 0, 0, [b], []⟩
    let p := e.put ((findCode e.dict e.cur).getD 0)
    let q := EncState.put ⟨p.nbits, p.spelt, e.i + 1, [], []⟩ 257
    leBytes ((q.nbits + 7) / 8) q.spelt

/-- A block's header (R120). -/
def blockHeader (stored : Bool) (kind head item piece clen ulen crc : Nat) : List Byte :=
  let h := leBytes 4 0x31424843 ++ leBytes 1 (b2n stored) ++ leBytes 1 1 ++ leBytes 1 kind ++ leBytes 1 head ++
    leBytes 4 item ++ leBytes 4 piece ++ leBytes 4 clen ++ leBytes 4 ulen ++ leBytes 4 crc
  h ++ leBytes 4 (crc32 h)

/-- A piece as a block: compressed, or stored where the payload would reach ULEN (R137, R138), and whether it was
stored. -/
def pieceBlock (kind item piece : Nat) (bytes : List Byte) : List Byte × Bool :=
  let z := churnEncode bytes
  let stored := decide (bytes.length ≤ z.length)
  let payload := if stored then bytes else z
  (blockHeader stored kind 0 item piece payload.length bytes.length (crc32 bytes) ++ payload, stored)

/-- Granules of a block in the block area, in bytes (R124). -/
def blockBytes (clen : Nat) : Nat := (32 + clen + 1023) / 1024 * 1024

/-- Configured nozzles of a head port rounded up to whole firing groups: G of R117 (R175). -/
def Chip.gOf (c : Chip) (h : Nat) : Nat := 32 * ((c.get (Reg.HED_HEAD_CFG_NOZZLES h) + 31) / 32)

/-- The key of a head's slab. -/
def slabKey (h slab : Nat) : Nat := h * 524288 + slab

/-- A registered layer by number. -/
def Chip.layer? (c : Chip) (num : Nat) : Option Layer := c.layers.find? fun l => decide (l.num = num)

/-- A registered layer replaced. -/
def Chip.setLayer (c : Chip) (l : Layer) : Chip :=
  { c with layers := c.layers.map fun (m : Layer) => if m.num = l.num then l else m }

/-- A slab of a layer. -/
def Layer.slab (l : Layer) (h slab : Nat) : Slab := SMap.get {} (slabKey h slab) l.slabs

/-- A slab of a layer replaced. -/
def Layer.setSlab (l : Layer) (h slab : Nat) (x : Slab) : Layer :=
  { l with slabs := SMap.set {} (slabKey h slab) x l.slabs }

/-- Whether a head is in a HEADS mask. -/
def inMask (mask h : Nat) : Bool := bit mask h

/-- The number of an engine's job in the counts CHN.QUEUE shows. -/
def Chip.showQueue (c : Chip) : Chip :=
  let dec := (c.jobs.filter fun j => decide (j.kind = 1)).length
  (c.put Reg.CHN_QUEUE_DEC (min dec 65535)).put Reg.CHN_QUEUE_COMP (min (c.jobs.length - dec) 65535)

/-- A job queued. -/
def Chip.queueJob (c : Chip) (j : Job) : Chip := ({ c with jobs := c.jobs ++ [j] }).showQueue

/-- Whether an engine is in service and free. -/
def Chip.engineFree (c : Chip) (e : Nat) : Bool :=
  c.bitOf Reg.CHN_STATUS_INSERVICE e && !c.bitOf Reg.CHN_STATUS_BUSY e

/-- Engines running a job. -/
def Chip.running (c : Chip) : List Engine := (c.engines.filter fun x => c.bitOf Reg.CHN_STATUS_BUSY x.1).map (·.2)

/-- Whether a job decompresses a layer block. -/
def Job.ofBlock (j : Job) : Bool := decide (j.kind = 1) && j.firn.isNone

/-- R390: whether the k-th band of a head has been released. -/
def Chip.bandReleased (c : Chip) (h k : Nat) : Bool :=
  let owner := c.layers.find? fun (l : Layer) =>
    inMask l.heads h && decide (SMap.get 0 h l.firstBand ≤ k ∧ k < SMap.get 0 h l.firstBand + l.bands)
  match owner with
  | some l =>
    match c.run with
    | some r =>
      decide (some l.num = (c.layers.head?.map (·.num))) &&
        decide (k - SMap.get 0 h l.firstBand < (SMap.get {} h r.heads).released)
    | none => false
  | none => !c.running.any fun e => e.job.ofBlock && decide (e.job.head = h ∧ e.job.bandNo = k)

/-- R134: a layer block's job to be discarded without decoding: its slab's first line has been read, or its layer has
completed or been discarded. -/
def Chip.jobPassed (c : Chip) (j : Job) : Bool :=
  j.stale || match c.layer? j.layer with
    | none => true
    | some l => (l.slab j.head j.slab).read

/-- Whether two jobs decompress blocks of one slab (R134). -/
def Job.sameSlab (j k : Job) : Bool :=
  j.ofBlock && k.ofBlock && decide (j.layer = k.layer ∧ j.head = k.head ∧ j.slab = k.slab ∧ j.stale = k.stale)

/-- R134, R390: whether a job may be taken by an engine now: no earlier job on its slab runs, and a block that is not passed
has a band buffer. -/
def Chip.jobReady (c : Chip) (j : Job) : Bool :=
  if j.ofBlock then
    let nb := c.get Reg.DRC_BAND_CFG_NB
    !c.running.any (fun e => e.job.sameSlab j) &&
      (c.jobPassed j || decide (j.bandNo < nb) || c.bandReleased j.head (j.bandNo - nb))
  else true

/-- The first firing line of a head beyond the current position (R141, R156). -/
def Chip.lineAhead (c : Chip) (r : Run) (h : Nat) : Int :=
  let pitch := c.get Reg.CRN_PITCH_COUNTS
  if pitch = 0 then 0
  else floorDiv ((c.est.ext.getD 0 - r.origin) * 65536) pitch - SMap.get 0 h r.hofs + 1

/-- The class of a job (R33, R156): 1 a block whose band the cornice enters within its next 2,048 predicted lines, which begin
beyond the current position, or above the high-water mark while the estimator is not valid; 2 a snapshot; 3 any other
decompression; 4 an inspection frame. -/
def Chip.jobClass (c : Chip) (j : Job) : Nat :=
  if j.kind = 2 then 2
  else if j.kind = 3 then 4
  else
    match c.run, c.layers with
    | some r, l :: _ =>
      let x := SMap.get {} j.head r.heads
      let at' : Int := if c.flag Reg.CRN_STATUS_EST_VALID then c.lineAhead r j.head else x.hwm + 1
      if j.ofBlock ∧ j.stale = false ∧ l.num = j.layer ∧ inMask l.heads j.head ∧
          1024 * (j.slab / 8 : Nat) + x.lo < at' + 2048 then 1 else 3
    | _, _ => 3

/-- The job the next free engine takes: the first of the first non-empty class. -/
def Chip.nextJob (c : Chip) : Option Job :=
  let ready := c.jobs.filter c.jobReady
  [1, 2, 3, 4].findSome? fun k => ready.find? fun j => decide (c.jobClass j = k)

/-- The lowest free engine in service (R33). -/
def Chip.freeEngine (c : Chip) : Option Nat := (List.range 8).find? c.engineFree

/-- The block area's bytes of a job freed (R124). -/
def Chip.freeArea (c : Chip) (j : Job) : Chip := { c with blockUsed := c.blockUsed - j.area }

/-- What an engine keeps where it holds in a job (R135). A stored copy and a compression have no code of R125. -/
def Job.posAt (j : Job) (h : Hold) : EnginePos :=
  if j.kind ≠ 1 ∨ bit (leField j.hdr 4 1) 0 then {}
  else
    let p := leNat j.payload
    let nbits := 8 * j.payload.length
    let d := decodeTo p nbits (leField j.hdr 0x14 4) h.atByte nbits {}
    let w := codeWidth d.i
    if h.forOutput then { code := bits p d.pos w, offset := h.atByte - d.out.length, prev := d.code, index := d.i }
    else { prev := d.code, index := d.i, partialBits := bits p d.pos (min h.partialBits w), partialLen := min h.partialBits w }

/-- What an engine keeps, replaced. -/
def Chip.setHeld (c : Chip) (e : Nat) (p : Option EnginePos) : Chip :=
  { c with engines := c.engines.map fun (x : Nat × Engine) => if x.1 = e then (x.1, { x.2 with held := p }) else x }

/-- An engine runs on until it holds, or to its job's end (R135). -/
def Chip.runTo (c : Chip) (e : Nat) (hold : Option Hold) : Chip :=
  match hold with
  | none =>
    let c := c.setHeld e none
    ((c.putBit Reg.CHN_STATUS_HELD e false).put (Reg.CHN_ENG_STATE_HELD_OUT e) 0).put (Reg.CHN_ENG_STATE_HELD_IN e) 0
  | some h =>
    let c := c.setHeld e ((c.engines.find? fun x => decide (x.1 = e)).map fun x => x.2.job.posAt h)
    let c := (c.putBit Reg.CHN_STATUS_HELD e true).putB (Reg.CHN_ENG_STATE_HELD_OUT e) h.forOutput
    let c := c.putB (Reg.CHN_ENG_STATE_HELD_IN e) (!h.forOutput)
    (c.put (Reg.CHN_ENG_DONE_BYTES e) (min h.atByte 0xFFFFF)).bump Reg.CHN_HOLDS_COUNT 1

/-- R33, R134: the next job taken by the lowest free engine, or discarded. -/
def Chip.startJob (c : Chip) (hold : Option Hold) : Chip :=
  match c.freeEngine, c.nextJob with
  | some e, some j =>
    let c := ({ c with jobs := c.jobs.erase j }).showQueue
    if j.ofBlock ∧ c.jobPassed j then (c.freeArea j).raise 20 0 []
    else
      let c := match c.layer? j.layer with
        | some l => if j.ofBlock then c.setLayer (l.setSlab j.head j.slab { l.slab j.head j.slab with valid := false })
            else c
        | none => c
      let c := { c with engines := SMap.insert e { job := j, restarted := false } (SMap.erase e c.engines) }
      let c := (c.putBit Reg.CHN_STATUS_BUSY e true).put (Reg.CHN_ENG_STATE_KIND e) j.kind
      let c := ((c.put (Reg.CHN_ENG_STATE_HEAD e) j.head).put (Reg.CHN_ENG_SLAB_SLAB e) j.slab).put
        (Reg.CHN_ENG_DONE_BYTES e) 0
      c.runTo e hold
  | _, _ => c

/-- The job an engine runs. -/
def Chip.engineJob (c : Chip) (e : Nat) : Option Engine :=
  if c.bitOf Reg.CHN_STATUS_BUSY e then (c.engines.find? fun x => decide (x.1 = e)).map (·.2) else none

/-- The job an engine can end: it runs one and does not hold (R135). -/
def Chip.endingJob (c : Chip) (e : Nat) : Option Engine :=
  if c.bitOf Reg.CHN_STATUS_HELD e then none else c.engineJob e

/-- Jobs of a layer that is registered no more are stale, queued and running alike (R134). -/
def Chip.staleJobs (c : Chip) (num : Nat) : Chip :=
  let f := fun (j : Job) => if j.ofBlock ∧ j.layer = num then { j with stale := true } else j
  { c with
    jobs := c.jobs.map f
    engines := c.engines.map fun (x : Nat × Engine) => (x.1, { x.2 with job := f x.2.job }) }

/-- An engine ends its job. -/
def Chip.engineIdle (c : Chip) (e : Nat) : Chip :=
  let c := { c with engines := SMap.erase e c.engines }
  let c := (c.putBit Reg.CHN_STATUS_BUSY e false).runTo e none
  (c.put (Reg.CHN_ENG_STATE_KIND e) 0).put (Reg.CHN_ENG_STATE_HEAD e) 0

/-- R411: the host is asked for a block again. -/
def Chip.lostBlock (c : Chip) (layer head slab : Nat) : Chip := c.raise 202 0 [(4, layer), (1, head), (4, slab)]

/-- R132: a block fails. A piece of a firn has no slab to ask for again: its item and piece numbers stand for layer and slab. A
position beyond FAIL_BITPOS is cut to the field's width (DESIGN CHOICE: log entry 90). -/
def Chip.blockFails (c : Chip) (e : Nat) (j : Job) (cause bitPos : Nat) : Chip :=
  let c := c.bump Reg.CHN_DEC_FAIL_COUNT 1
  let c :=
    if c.flag Reg.CHN_FAIL_INFO_VALID then c
    else
      let c := ((c.put Reg.CHN_FAIL_INFO_CAUSE cause).put Reg.CHN_FAIL_INFO_ENGINE e).put Reg.CHN_FAIL_INFO_HEAD j.head
      let c := ((c.put Reg.CHN_FAIL_INFO_VALID 1).put Reg.CHN_FAIL_LAYER_LAYER j.layer).put Reg.CHN_FAIL_SLAB_SLAB j.slab
      c.put Reg.CHN_FAIL_BITPOS_BITPOS bitPos
  let c := c.raise 16 cause [(4, j.layer), (1, j.head), (4, j.slab), (1, e)]
  if j.ofBlock then c.lostBlock j.layer j.head j.slab else c

/-- What the block of a job decodes to (R119, R129, R132). Stored bytes must have the length ULEN and match the CRC. -/
def jobResult (j : Job) (poisoned : Bool) : DecResult :=
  let crc := leField j.hdr 0x18 4
  let ulen := leField j.hdr 0x14 4
  if poisoned then .fail 7 0
  else if bit (leField j.hdr 4 1) 0 then
    if ulen < j.payload.length then .fail 3 0
    else if j.payload.length < ulen then .fail 4 0
    else if crc32 j.payload = crc then .ok j.payload else .fail 6 0
  else churnDecode j.payload ulen crc

/-- R119, R134: a layer block's job ends: the slab is marked valid, or the block fails. A stale job leaves its slab as it
is. -/
def Chip.blockEnds (c : Chip) (e : Nat) (j : Job) (poisoned : Bool) : Chip :=
  match jobResult j poisoned with
  | .fail cause pos => c.blockFails e j cause pos
  | .ok bytes =>
    match if j.stale then none else c.layer? j.layer with
    | none => c
    | some l =>
      (c.setLayer (l.setSlab j.head j.slab { l.slab j.head j.slab with valid := true, bytes := bytes, poison := [] })).bump
        Reg.CHN_DEC_BLOCKS_COUNT 1

/-- A decompression job ends. The flag says whether a piece of the firn of that SEQ decoded (R138). -/
def Chip.jobEnds (c : Chip) (e : Nat) (poisoned : Bool) : Chip × Option (Nat × Bool) :=
  match c.endingJob e with
  | none => (c, none)
  | some x =>
    if x.job.kind ≠ 1 then (c, none)
    else
      let j := x.job
      let c := (c.engineIdle e).freeArea j
      match j.firn with
      | none => (c.blockEnds e j poisoned, none)
      | some q =>
        match jobResult j poisoned with
        | .fail cause pos => (c.blockFails e j cause pos, some (q, false))
        | .ok _ => (c, some (q, true))

/-- R133: a dictionary parity error: the job restarts, and runs until it holds or ends; or the block fails and the engine
leaves service. A compression has no block to fail: its piece is queued again for another engine (DESIGN CHOICE: log entry 90).
The firn whose piece has failed, if one has. -/
def Chip.parityError (c : Chip) (e : Nat) (hold : Option Hold) : Chip × Option Nat :=
  match c.engineJob e with
  | none => (c, none)
  | some x =>
    if !x.restarted then
      let c := { c with engines := SMap.insert e { x with restarted := true } (SMap.erase e c.engines) }
      let c := (c.put (Reg.CHN_ENG_DONE_BYTES e) 0).runTo e hold
      (c.raise 17 0 [], none)
    else
      let c := c.engineIdle e
      let c := if x.job.kind = 1 then (c.freeArea x.job).blockFails e x.job 8 0 else c.queueJob x.job
      ((c.putBit Reg.CHN_STATUS_INSERVICE e false).raise 18 0 [(1, e)], x.job.firn)

/-- The pieces an item is cut into (R137). -/
def pieceCount (len : Nat) : Nat := max 1 ((len + 262143) / 262144)

/-- Blocks in order, each on a 64-byte boundary, and the gap after each payload filled with zeros (R137). -/
def joinPieces (blocks : List (List Byte)) : List Byte :=
  blocks.flatMap fun b => b ++ leBytes ((64 - b.length % 64) % 64) 0

/-- An item's compression begun: one job for each piece (R137). Inspection items and firns take their numbers from one series
(DESIGN CHOICE: log entry 90). -/
def Chip.compressItem (c : Chip) (firn : Bool) (it : InspItem) : Chip :=
  let no := c.itemNo
  let n := pieceCount it.body.length
  let c := { c with itemNo := no + 1, outItems := c.outItems ++ [OutItem.mk no firn it n [] false] }
  (List.range n).foldl (fun c k => c.queueJob
    { kind := if firn then 2 else 3, layer := 0, head := 0, slab := k, hdr := [],
      payload := (it.body.drop (262144 * k)).take 262144, area := 0, bandNo := 0, item := no }) c

/-- The pieces of a received firn queued for decompression (R138). -/
def Chip.queueFirn (c : Chip) (seq : Nat) (blocks : List (List Byte)) : Chip :=
  blocks.zipIdx.foldl (fun c b => c.queueJob
    { kind := 1, layer := seq, head := 0, slab := b.2, hdr := b.1.take 32, payload := (b.1.drop 32).take (leField b.1 0x10 4),
      area := 0, bandNo := 0, item := seq, firn := some seq }) c

/-- A piece's block held; the flag says whether it completed the item, and the item then. -/
def OutItem.addPiece (o : OutItem) (k : Nat) (block : List Byte) (stored : Bool) : OutItem :=
  { o with blocks := SMap.insert k block (SMap.erase k o.blocks), noGain := o.noGain || stored }

/-! ### The commands -/

/-- CHURN_JOB_START (R33, R134). -/
def execChurnJobStart (hold : Option Hold) (s : State) : Host.Outcome State Fault Refusal :=
  s.go (s.toChip.startJob hold)

/-- CHURN_RESUME (R135): a holding engine goes on. -/
def execChurnResume (e : Fin 8) (hold : Option Hold) (s : State) : Host.Outcome State Fault Refusal :=
  s.go (if s.bitOf Reg.CHN_STATUS_HELD e.val then s.toChip.runTo e.val hold else s.toChip)

end Sys2Proof.Machine
end

