-- ==== Sys2Proof/Machine/Symbol.lean ====
section
/-! DEFINITION. Machine/Symbol.lean: the symbols of a head lane (R214, R215): 8b/10b code groups with running disparity, the
ordered sets, and the FILLs placed in a packet. The spec names IEEE 802.3 clause 36 for the code groups; their values here are
that standard's tables. -/

namespace Sys2Proof.Machine

/-- Sub-block abcdei of D.x at negative running disparity, a the most significant bit. PRESUMED from IEEE 802.3 clause 36. -/
def sixB : List Nat :=
  [0b100111, 0b011101, 0b101101, 0b110001, 0b110101, 0b101001, 0b011001, 0b111000,
   0b111001, 0b100101, 0b010101, 0b110100, 0b001101, 0b101100, 0b011100, 0b010111,
   0b011011, 0b100011, 0b010011, 0b110010, 0b001011, 0b101010, 0b011010, 0b111010,
   0b110011, 0b100110, 0b010110, 0b110110, 0b001110, 0b101110, 0b011110, 0b101011]

/-- Sub-block fghj of D.x.y at negative running disparity, with the primary form of y = 7. PRESUMED from IEEE 802.3
clause 36. -/
def fourB : List Nat := [0b1011, 0b1001, 0b0101, 0b1100, 0b1101, 0b1010, 0b0110, 0b1110]

/-- Ones among the low n bits. -/
def onesOf (n v : Nat) : Nat := ((List.range n).filter fun k => bit v k).length

/-- A sub-block of n bits from its code at negative disparity: complemented at positive disparity where it is not balanced, or
is the balanced code that alternates. The second component is the disparity after it. -/
def subBlock (n code : Nat) (alternates plus : Bool) : Nat × Bool :=
  let uneven := decide (2 * onesOf n code ≠ n)
  (if plus && (uneven || alternates) then 2 ^ n - 1 - code else code, plus != uneven)

/-- Sub-block abcdei of a symbol: K28 is the one control character with a code of its own. -/
def Symbol.abcdei (s : Symbol) (plus : Bool) : Nat × Bool :=
  let x := s.char.toNat % 32
  subBlock 6 (if s.ctl && decide (x = 28) then 0b001111 else sixB.getD x 0) (decide (x = 7)) plus

/-- Sub-block fghj of a symbol at the disparity after its first sub-block: a control character takes the alternate form of
y = 7 and the second column of y = 5, and a data character takes the alternate form where the primary one would make a run of
five. -/
def Symbol.fghj (s : Symbol) (plus : Bool) : Nat × Bool :=
  let x := s.char.toNat % 32
  let y := s.char.toNat / 32
  let run := if plus then decide (x = 11 ∨ x = 13 ∨ x = 14) else decide (x = 17 ∨ x = 18 ∨ x = 20)
  if y = 7 ∧ (s.ctl ∨ run) then (if plus then 0b1000 else 0b0111, !plus)
  else if s.ctl ∧ y = 5 then (if plus then 0b1010 else 0b0101, plus)
  else subBlock 4 (fourB.getD y 0) (decide (y = 3)) plus

/-- The code group of a symbol, bit a the most significant, and the running disparity after it (R214). -/
def Symbol.group (s : Symbol) (plus : Bool) : BitVec 10 × Bool :=
  let p := s.abcdei plus
  let q := s.fghj p.2
  (BitVec.ofNat 10 (16 * p.1 + q.1), q.2)

/-- The code groups of successive symbols, and the running disparity after them. -/
def codeGroups : Bool → List Symbol → List (BitVec 10) × Bool
  | plus, [] => ([], plus)
  | plus, s :: l =>
    let g := s.group plus
    let r := codeGroups g.2 l
    (g.1 :: r.1, r.2)

/-- A data character. -/
def dataSym (b : Byte) : Symbol := ⟨false, b⟩

/-- K28.5, which opens FILL and TRAIN. -/
def symComma : Symbol := ⟨true, 0xBC⟩
/-- FILL: K28.5 D16.2 (R214). -/
def symsFill : List Symbol := [symComma, dataSym 0x50]
/-- TRAIN: K28.5 D5.6 (R214). -/
def symsTrain : List Symbol := [symComma, dataSym 0xC5]
/-- SOP: K27.7 (R214). -/
def symSop : Symbol := ⟨true, 0xFB⟩
/-- EOP: K29.7 (R214). -/
def symEop : Symbol := ⟨true, 0xFD⟩
/-- ABORT: K30.7 (R214). -/
def symAbort : Symbol := ⟨true, 0xFE⟩

/-- Symbols with a FILL before each that would stand 1,024 symbols or more after the start of the last FILL (R215); gap is how
many symbols after that start the first one stands. -/
def withFills : Nat → List Symbol → List Symbol
  | _, [] => []
  | gap, s :: l => if 1024 ≤ gap then symsFill ++ s :: withFills 3 l else s :: withFills (gap + 1) l

/-- How many symbols after the start of the last FILL the next symbol stands, once these have been sent. -/
def gapAfter (gap : Nat) (l : List Symbol) : Nat := l.foldl (fun g s => if s = symComma then 1 else g + 1) gap

/-- The symbols of a packet, from SOP to EOP. -/
def packetSyms (bytes : List Byte) : List Symbol := symSop :: (bytes.map dataSym ++ [symEop])

/-! ### Test patterns (R243) -/

/-- One bit of the pattern of a code, PRBS7 or PRBS31, and the register after it; bit 0 of the register is its newest bit.
PRESUMED: x^7 + x^6 + 1 and x^31 + x^28 + 1, as these names are commonly defined. -/
def prbsBit (code r : Nat) : Bool × Nat :=
  let n := if code = 1 then 7 else 31
  let b := if code = 1 then bit r 6 != bit r 5 else bit r 30 != bit r 27
  (b, (2 * r + b2n b) % 2 ^ n)

/-- k bits of the pattern from a register on, the first as bit 0, and the register after them. -/
def prbsBits (code : Nat) : Nat → Nat → Nat × Nat
  | 0, r => (0, r)
  | k + 1, r =>
    let b := prbsBit code r
    let q := prbsBits code k b.2
    (b2n b.1 + 2 * q.1, q.2)

/-- k data characters of the pattern. -/
def prbsChars (code : Nat) : Nat → Nat → List Symbol
  | 0, _ => []
  | k + 1, r =>
    let q := prbsBits code 8 r
    dataSym (BitVec.ofNat 8 q.1) :: prbsChars code k q.2

/-- The first 1,024 symbols of a test pattern: FILL, then the pattern as data characters, from a register of ones. That it goes as
data characters is DEDUCED from R214; the spec gives no start (DESIGN CHOICE, log 93). -/
def prbsSyms (code : Nat) : List Symbol := symsFill ++ prbsChars code 1022 (if code = 1 then 127 else 2 ^ 31 - 1)

end Sys2Proof.Machine
end

