-- ==== Sys2Proof/Machine/Mirror.lean ====
section
/-! DEFINITION. Machine/Mirror.lean: what an owner sends its partner (R423, R427, R432, R433): frames, fire-log and change
records, and the completions that wait for the partner. -/

namespace Sys2Proof.Machine

/-- Whether this controller owns firing (R415). -/
def Chip.owns (c : Chip) : Bool := c.flag Reg.TDM_STATUS_OWNS

/-- The tandem state machine's own data replaced. -/
def Chip.setTdm (c : Chip) (t : Tandem) : Chip := { c with tdm := t }

/-- TDM.MIRROR_WAIT follows what waits. -/
def Chip.showWait (c : Chip) : Chip :=
  (c.put Reg.TDM_MIRROR_WAIT_ITEMS (min (c.mirrorWait.length + c.tdm.hbWait.length) 65535)).put Reg.TDM_MIRROR_WAIT_RECORDS
    (min (c.tdm.kept.map (·.records)).sum 65535)

/-- A frame from header to CRC (R423). LEN has 16 bits and the spec splits no item: of a body of 65,536 bytes or more it
carries the low 16 bits of the length (DESIGN CHOICE: log entry 91). -/
def tandemFrame (type seq ack : Nat) (body : List Byte) : List Byte :=
  let h := leBytes 1 type ++ leBytes 1 0 ++ leBytes 2 body.length ++ leBytes 4 seq ++ leBytes 4 ack ++ leBytes 4 0 ++ body
  h ++ leBytes 4 (crc32 h)

/-- The bytes of a frame that go on lane i of a bond: its 4-byte words w with w mod width = i (R423). -/
def stripe (width i : Nat) (bytes : List Byte) : List Byte :=
  (List.range ((bytes.length + 3) / 4)).flatMap fun w => if w % width = i then (bytes.drop (4 * w)).take 4 else []

/-- The lanes of the bond, in their order (R422). -/
def Chip.bondLanes (c : Chip) : List Nat := (List.range 5).filter fun k => decide (c.get (Reg.TDM_LANE_STATUS_STATE k) = 3)

/-- A frame goes out on the bond: each of its lanes carries SOP, its words and EOP, with a FILL before the lane's first symbol and
within every 1,024 symbols of it (R215, R421, R423). That SOP and EOP stand on every lane is the model's choice (DESIGN
CHOICE: log entry 91). -/
def Chip.tandemOut (c : Chip) (type : Nat) (bytes : List Byte) : Chip :=
  let bond := c.bondLanes
  if bond.isEmpty then c
  else
    let sent := (List.range bond.length).map fun i =>
      let k := bond.getD i 0
      (k, codeGroups (SMap.get false k c.tdm.plus) (withFills 2 (packetSyms (stripe bond.length i bytes))))
    (c.emit (.tandem type bytes (sent.map fun e => (e.1, e.2.1)))).setTdm { c.tdm with
      plus := sent.foldl (fun (m : SMap Bool) e => SMap.set false e.1 e.2.2 m) c.tdm.plus }

/-- A frame sent on the bond and kept until it is acknowledged; without a bond it is kept alone. Where no frame has been taken,
the SEQ acknowledged back is the one before the first (DESIGN CHOICE: log entry 91). -/
def Chip.sendFrame (c : Chip) (type records : Nat) (body : List Byte) : Chip :=
  let q := c.mirrorSeq
  let bytes := tandemFrame type q (c.tdm.rxSeq.getD 0xFFFFFFFF) body
  let c := { c.tandemOut type bytes with mirrorSeq := (q + 1) % 2 ^ 32 }
  (c.setTdm { c.tdm with kept := c.tdm.kept ++ [TFrame.mk q type records bytes] }).showWait

/-- SEQ of the frame sent last. -/
def Chip.lastSeq (c : Chip) : Nat := (c.mirrorSeq + 2 ^ 32 - 1) % 2 ^ 32

/-- A FIRE_LOG or CHANGE frame (R432, R433). -/
def Chip.sendLog (c : Chip) (type records : Nat) (body : List Byte) : Chip :=
  let c := c.sendFrame type records body
  c.setTdm { c.tdm with logSeq := c.lastSeq }

/-- Whether records go to the partner (R432, R433): an owner of a pair sends them, but for a partner declared unfit, which takes
none before a full firn (DEDUCED: log entry 82). -/
def Chip.sendsLog (c : Chip) : Bool := decide (c.get Reg.TDM_STATUS_STATE = 2) && c.tdm.unfit.isNone

/-- A FIRE_LOG record of 12 bytes (R432): 0 issued, 1 fired, 2 released, each with an index;
3 entered, with its cause. -/
def Chip.logFire (c : Chip) (kind h cause : Nat) (line : Int) (n : Nat) : Chip :=
  if c.sendsLog then
    c.sendLog 3 1 (leBytes 1 kind ++ leBytes 1 h ++ leBytes 1 cause ++ leBytes 1 0 ++ leBytes 4 (unsigned 32 line) ++
      leBytes 4 n)
  else c

/-- The CHANGE record of a table change as it is received (R433): 0 nozzle, 1 substitution, 2 grey, 4 map. -/
def Chip.logValue (c : Chip) (kind source key value : Nat) : Chip :=
  if c.sendsLog then
    let id := c.tdm.changeId
    (c.setTdm { c.tdm with changeId := id + 1 }).sendLog 4 0 (leBytes 1 kind ++ leBytes 1 source ++ leBytes 2 0 ++
      leBytes 4 id ++ leBytes 4 key ++ leBytes 8 value)
  else c

/-- The CHANGE record that a change has become ready, with b* of R198 on each head it applies from a band on (R433). -/
def Chip.logReady (c : Chip) (id : Nat) (bands : List (Nat × Nat)) : Chip :=
  if c.sendsLog then
    c.sendLog 4 0 (leBytes 1 3 ++ leBytes 1 bands.length ++ leBytes 2 0 ++ leBytes 4 id ++
      bands.flatMap fun b => leBytes 4 b.1 ++ leBytes 4 b.2)
  else c

/-- A table change that is ready as it is received: both its records. -/
def Chip.logChange (c : Chip) (kind source key value : Nat) (bands : List (Nat × Nat)) : Chip :=
  (c.logValue kind source key value).logReady c.tdm.changeId bands

/-- A descriptor completes: at once, or, while the partner tracks, once it has acknowledged the frame sent last (R427). -/
def Chip.completeSent (c : Chip) (p n code : Nat) (d result : List Byte) : Chip :=
  if c.tracked then
    let c := { c with mirrorWait := c.mirrorWait ++ [MirrorWait.mk c.lastSeq p n code d result c.clk] }
    (c.setRing p n { c.ring p n with acted := true }).showWait
  else c.complete p n code d result

/-- A descriptor whose item is mirrored in a frame of its own. -/
def Chip.completeMirrored (c : Chip) (p n code : Nat) (d result : List Byte) (type : Nat) (body : List Byte) : Chip :=
  (if c.tracked then c.sendFrame type 0 body else c).completeSent p n code d result

/-- A CMD descriptor whose effect has taken place: it completes at once, or, while the partner tracks, once the partner has
acknowledged a HEARTBEAT that shows the effect (R427). -/
def Chip.completeCmd (c : Chip) (p n code : Nat) (d result : List Byte) : Chip :=
  if c.tracked then
    let t := c.tdm
    let c := c.setTdm { t with hbWait := t.hbWait ++ [MirrorWait.mk 0 p n code d result c.clk] }
    (c.setRing p n { c.ring p n with acted := true }).showWait
  else c.complete p n code d result

/-- A waiting completion ends, unless its ring has lost the descriptor meanwhile. A table load waits no more for the partner,
and is then held as R196 says. -/
def Chip.release (c : Chip) (w : MirrorWait) : Chip :=
  let r := c.ring w.port w.ring
  if r.acted ∧ r.fetched.head? = some (some w.desc) ∧ c.ringState w.port w.ring = 1 then
    match r.load with
    | some t => c.setRing w.port w.ring { r with acted := false, load := some { t with waits := false } }
    | none => c.complete w.port w.ring w.code w.desc w.result
  else c

/-- The change records of a table load sent as its buffer is taken (R433); while the partner tracks, the load then waits for
it (R427). -/
def Chip.announce (c : Chip) (p n : Nat) (d buf : List Byte) (records : Chip → Chip) : Chip :=
  let base := if c.sendsLog then some c.tdm.changeId else none
  let c := records c
  let waits := c.tracked
  let c := c.setRing p n { c.ring p n with load := some ⟨buf, base, waits⟩ }
  if waits then c.completeSent p n 0 d [] else c

/-- A full firn carries no change that has not become ready: the records of those go again once they have (R429, R433). -/
def Chip.forgetLoads (c : Chip) : Chip :=
  { c with rings := c.rings.map fun e => (e.1, { e.2 with load := e.2.load.map fun t => { t with base := none } }) }

end Sys2Proof.Machine
end

