-- ==== Sys2Proof/Machine/Power.lean ====
section
/-! DEFINITION. Machine/Power.lean: the choice of a power state (R463, R466 to R468) and the start of an exit. The entry
and the end of an exit are in Clock.lean. -/

namespace Sys2Proof.Machine

/-- Exit latency of a state in nanoseconds (R463). -/
def exitLatency : Nat → Nat
  | 0 => 0
  | 1 => 2000
  | 2 => 80000
  | _ => 12000000

/-- The tolerance a host port imposes (R466); none while its link is down. -/
def Chip.portTol (c : Chip) (p : Nat) : Nat :=
  if c.get (Reg.HIF_STATUS_SPEED p) = 0 then 0xFFFFFFFF
  else c.get (if p = 0 then Reg.CKP_LTR_A_NS else Reg.CKP_LTR_B_NS)

/-- tol of R466. -/
def Chip.tol (c : Chip) : Nat := min (c.portTol 0) (c.portTol 1)

/-- CKP.LTR_NOW follows tol. -/
def Chip.showTol (c : Chip) : Chip := c.put Reg.CKP_LTR_NOW_NS c.tol

/-- A LAYER, TABLE or CMD ring holds a descriptor accepted and not yet completed (R467), fetched or not, stopped or not. -/
def Chip.hostWork (c : Chip) : Bool :=
  (List.range 2).any fun p => (List.range 64).any fun n =>
    c.ringOn p n && decide (c.get (Reg.HIF_RING_CFG_TYPE p n) < 3) && decide (c.outstanding p n ≠ 0)

/-- Frames received on the tandem link wait to be processed (R467): firns whose pieces are not all decoded, records that a full
firn is to come before, and changes that wait for their b*. -/
def Chip.tandemWork (c : Chip) : Bool := !c.tdm.firns.isEmpty || !c.tdm.later.isEmpty || !c.tdm.changes.isEmpty

/-- R467: P1 is allowed. -/
def Chip.allowsP1 (c : Chip) : Bool :=
  decide (c.get Reg.CRN_STATUS_STATE = 0) && c.layers.isEmpty && c.jobs.isEmpty && decide (c.get Reg.CHN_STATUS_BUSY = 0)

/-- R467: P2 is allowed. -/
def Chip.allowsP2 (c : Chip) : Bool :=
  c.allowsP1 && (List.range 8).all c.atRest && !c.hostWork && c.stateItems.isEmpty && c.migration.isNone &&
    c.eyeOwed.isEmpty && c.flag Reg.DRC_STATUS_INIT_DONE && !c.tandemWork

/-- R467: P3 is allowed. -/
def Chip.allowsP3 (c : Chip) : Bool :=
  c.allowsP2 && !c.owns && decide (c.get Reg.TDM_STATUS_STATE ≠ 0) &&
    (List.range 64).all fun s => !c.flag (Reg.LOP_LS_STATUS_ENABLED s)

/-- The conditions of R467 by state. -/
def Chip.allowed (c : Chip) (s : Nat) : Bool :=
  if s = 0 then true else if s = 1 then c.allowsP1 else if s = 2 then c.allowsP2 else c.allowsP3

/-- R466: the target state. -/
def Chip.target (c : Chip) : Nat :=
  let fits := fun (s : Nat) => decide (s ≤ c.get Reg.CKP_PSTATE_CFG_MAX_STATE) && decide (exitLatency s ≤ c.tol) && c.allowed s
  if fits 3 then 3 else if fits 2 then 2 else if fits 1 then 1 else 0

/-- CKP.STATUS.PSTATE. -/
def Chip.pstate (c : Chip) : Nat := c.get Reg.CKP_STATUS_PSTATE

/-- An exit to a shallower state starts, with the cause CKP.WAKE keeps; one in progress may only go further (R468). -/
def Chip.startExit (c : Chip) (st cause : Nat) : Chip :=
  if c.pstate ≤ st then c
  else
    match c.power.exit with
    | some e => { c with power := { c.power with exit := some (min e.1 st, e.2) } }
    | none =>
      { c.put Reg.CKP_WAKE_CAUSE cause with power := { c.power with exit := some (st, c.clk + exitLatency c.pstate) } }

/-- R468: a wake event. A doorbell wakes to P1 at least; any other to a state shallower than the present one. -/
def Chip.wake (c : Chip) (cause : Nat) : Chip :=
  c.startExit (min c.target (if cause = 1 then 1 else c.pstate - 1)) cause

/-- R466: a target shallower than the present state is an exit, and starts at once. -/
def Chip.retarget (c : Chip) (cause : Nat) : Chip :=
  let c := c.showTol
  c.startExit c.target cause

end Sys2Proof.Machine
end

