-- ==== Sys2Proof/Machine/Table.lean ====
section
/-! DEFINITION. Machine/Table.lean: the nozzle table, the substitution table and the grey tables (R175 to R193), the
staging of their changes (R194 to R202), protection and spare rows (R204 to R206), and the moraine ledger (R208 to R210). -/

namespace Sys2Proof.Machine

/-! ### Entry fields (R178, R187) -/

def ntState (v : Nat) : Nat := bits v 30 2
def ntLock (v : Nat) : Bool := bit v 29
def ntSubst (v : Nat) : Bool := bit v 28
def ntSlot (v : Nat) : Nat := bits v 23 5
def ntLofs (v : Nat) : Int := signed 11 (bits v 12 11)
def ntGtab (v : Nat) : Nat := bits v 8 4
def ntScore (v : Nat) : Nat := bits v 0 8
/-- STATE replaced in an entry. -/
def ntWithState (v st : Nat) : Nat := v % 2 ^ 30 + st * 2 ^ 30
/-- HSCORE replaced in an entry. -/
def ntWithScore (v sc : Nat) : Nat := v / 256 * 256 + sc % 256
/-- Whether a STATE prints (R179): active or weak. -/
def stPrints (st : Nat) : Bool := decide (st < 2)

def sbValid (v : Nat) : Bool := bit v 31
def sbHead (v : Nat) : Nat := bits v 25 6
def sbNozzle (v : Nat) : Nat := bits v 12 13
def sbXofs (v : Nat) : Int := signed 8 (bits v 4 8)
def sbGtab (v : Nat) : Nat := bits v 0 4

/-- The identity map of CRN.GREYt and CRN.WEAK_MAP after reset. -/
def identityMap : Nat := 0xFEDCBA9876543210

/-! ### Rows and versions -/

/-- NBASE of a head port (R175). -/
def Chip.nbase (c : Chip) (h : Nat) : Nat := c.get (Reg.CRN_NZT_BASE_ROW h)

/-- Rows of the configured heads, as the commit fixes them (R175, R176). -/
def Chip.rowsTotal (c : Chip) : Nat := ((List.range 48).map fun h => 32 * c.get (Reg.CRN_NZT_BASE_GROUPS h)).sum

/-- The head port a table row belongs to. -/
def Chip.rowHead (c : Chip) (row : Nat) : Nat :=
  ((List.range 48).find? fun h => decide (c.nbase h ≤ row ∧ row < c.nbase h + c.gOf h)).getD 0

/-- A nozzle table entry's versions. -/
def Chip.nztVer (c : Chip) (row : Nat) : Ver := SMap.get { force := 0 } row c.nzt

/-- A nozzle table entry's versions replaced. -/
def Chip.setNzt (c : Chip) (row : Nat) (v : Ver) : Chip := { c with nzt := SMap.set { force := 0 } row v c.nzt }

/-- A substitution entry's versions. -/
def Chip.subVer (c : Chip) (k : Nat) : Ver := SMap.get { force := 0 } k c.sub

/-- A substitution entry's versions replaced. -/
def Chip.setSub (c : Chip) (k : Nat) (v : Ver) : Chip := { c with sub := SMap.set { force := 0 } k v c.sub }

/-- A grey table's versions for one head. -/
def Chip.greyVer (c : Chip) (t h : Nat) : Ver := SMap.get { force := identityMap } (64 * t + h) c.grey

/-- A grey table's versions for one head replaced. -/
def Chip.setGrey (c : Chip) (t h : Nat) (v : Ver) : Chip :=
  { c with grey := SMap.set { force := identityMap } (64 * t + h) v c.grey }

/-- The newest value of an entry (R195). A deferred change of STATE does not count for the class of a write (R194). -/
def Ver.newestHeld (v : Ver) : Nat :=
  match v.arming with
  | some a => a.1
  | none => match v.band with
    | some b => b.value
    | none => v.force

/-- The newest value of an entry with a deferred STATE, as R180, R201, R265 and R318 take it (R199). -/
def Ver.newest (v : Ver) : Nat :=
  match v.deferred with
  | some d => ntWithState v.newestHeld d.1
  | none => v.newestHeld

/-- What a read of the nozzle table returns (R201): the newest value with the HSCORE in force. -/
def Ver.shown (v : Ver) : Nat := ntWithScore v.newest (ntScore v.force)

/-- The band of a raster line, for the version of an entry it reads (R198). Lines below 0 lie below every band. -/
def bandOf (r : Int) : Int := floorDiv r 1024

/-- The value a raster line of band b reads (R198): a band value waiting for a band at or below b counts for it, though the
entry's own head has not entered that band, as where a substitute on another head reads first (R190). -/
def Ver.forBand (v : Ver) (b : Int) : Nat :=
  match v.band.bind fun x => x.start.bind fun s => if (s : Int) ≤ b then some x.value else none with
  | some w => w
  | none =>
  match (v.priors.filter fun p => decide (b < (p.1 : Int))).foldl (fun best p => match best with
      | none => some p
      | some q => if p.1 < q.1 then some p else some q) none with
  | some p => p.2
  | none => v.force

/-- The armed layer. -/
def Chip.armed (c : Chip) : Option Layer := if c.run.isSome then c.layers.head? else none

/-- The band a change applies from, none where it applies after the armed layer completes: b* at or beyond the layer's last
band (R198; DEDUCED: log entry 80). -/
def Chip.startOf (c : Chip) (b : Nat) : Option Nat :=
  match c.armed with
  | some l => if b + 1 < l.bands then some b else none
  | none => none

/-- Whether a head is in the armed layer's HEADS. -/
def Chip.inArmed (c : Chip) (h : Nat) : Bool :=
  match c.armed with
  | some l => inMask l.heads h
  | none => false

/-- A head's run in the armed layer. -/
def Chip.headRun (c : Chip) (h : Nat) : HeadRun :=
  match c.run with
  | some r => SMap.get {} h r.heads
  | none => {}

/-- A head's run replaced. -/
def Chip.setHead (c : Chip) (h : Nat) (x : HeadRun) : Chip :=
  match c.run with
  | some r => { c with run := some { r with heads := SMap.set {} h x r.heads } }
  | none => c

/-- R189: how many entries in force below a row have SUBST set: the SUB entry a row uses. -/
def Chip.substRank (c : Chip) (row : Nat) : Nat :=
  (c.nzt.filter fun e => decide (e.1 < row) && ntSubst e.2.force).length

/-- CRN.SUB_COUNT and CRN.NZT_STAGE show the counts of R189 and R199. -/
def Chip.showStage (c : Chip) : Chip :=
  let host := fun (m : SMap Ver) => (m.map fun e =>
    (match e.2.band with | some b => b2n b.hostPlace | none => 0) +
    (match e.2.arming with | some _ => 1 | none => 0)).sum
  let greys := ((List.range 16).filter fun t => c.grey.any fun e => decide (e.1 / 64 = t) && e.2.band.isSome).length
  let inner := (c.nzt.filter fun e => match e.2.band with | some b => !b.hostPlace | none => false).length
  let c := (c.put Reg.CRN_NZT_STAGE_HOST (host c.nzt + host c.sub + greys)).put Reg.CRN_NZT_STAGE_INTERNAL inner
  let c := c.put Reg.CRN_SUB_COUNT_IN_FORCE (c.nzt.filter fun e => ntSubst e.2.force).length
  c.put Reg.CRN_SUB_COUNT_NEWEST (c.nzt.filter fun e => ntSubst e.2.newest).length

/-! ### The moraine ledger -/

/-- A record as its 32 bytes (R208). -/
def Moraine.bytes (m : Moraine) : List Byte :=
  leBytes 1 m.type ++ leBytes 1 m.source ++ leBytes 2 m.node ++ leBytes 4 m.seq ++ leBytes 8 m.et.toNat ++
    leBytes 4 m.layer ++ leBytes 4 m.band ++ leBytes 4 m.object ++ leBytes 4 m.detail

/-- CRN.LAYER's number where a layer is armed, else all ones (R208). -/
def Chip.armedNum (c : Chip) : Nat :=
  match c.armed with
  | some l => l.num
  | none => 0xFFFFFFFF

/-- A record written to the ledger (R208, R210): it takes the next SEQ and waits for flash; the first record that no
longer fits fills the ledger. -/
def Chip.record (c : Chip) (type source layer band object detail : Nat) : Chip :=
  let seq := c.get Reg.CRN_MORAINE_SEQ_NEXT
  let m : Moraine := ⟨type, source, c.now, layer, band, object, detail, seq, c.get Reg.GLB_NODE_NODE⟩
  let fits := decide (c.ledger.length + c.ledgerTorn + c.ledgerPend.length < 32768)
  let c := { c with ledgerPend := c.ledgerPend ++ [m.bytes] }
  let c := (c.put Reg.CRN_MORAINE_SEQ_NEXT (seq + 1)).put Reg.CRN_MORAINE_STATUS_UNWRITTEN (min c.ledgerPend.length 255)
  if fits ∨ c.ledgerFull then c
  else ({ c with ledgerFull := true }.put Reg.CRN_MORAINE_STATUS_FULL 1).raise 52 3 []

/-- OBJECT of a nozzle (R208). -/
def nozzleObject (h n : Nat) : Nat := h * 65536 + n

/-- Whether a row's SUB entry names a substitute; one that names the very nozzle it serves counts as not VALID (R188). -/
def Chip.sbLive (c : Chip) (row sb : Nat) : Bool :=
  sbValid sb && decide (c.nbase (sbHead sb) + sbNozzle sb ≠ row)

/-- The records and the event of a nozzle whose STATE in force changes: it becomes retired or disabled, or prints again (R209,
EV045). -/
def Chip.stateRecords (c : Chip) (row old new source layer band : Nat) : Chip :=
  let h := c.rowHead row
  let n := row - c.nbase h
  if ntState old ≠ ntState new ∧ stPrints (ntState new) = false then
    let c := c.record 1 source layer band (nozzleObject h n) new
    let sb := (c.subVer (c.substRank row)).force
    let c := if ntState new = 2 ∧ ntSubst new ∧ c.sbLive row sb then c.record 3 source layer band (nozzleObject h n) sb else c
    c.raise 45 0 [(1, h), (2, n), (1, source)]
  else if stPrints (ntState old) = false ∧ stPrints (ntState new) then c.record 2 source layer band (nozzleObject h n) new
  else c

/-- Run counts of a nozzle cleared when its STATE in force changes (R317). -/
def Chip.clearRuns (c : Chip) (row old new : Nat) : Chip :=
  if ntState old = ntState new then c else { c with runCounts := SMap.erase row c.runCounts }

/-- A value put in force at a row, its HSCORE kept (R181), with the records of R209. -/
def Chip.forceNzt (c : Chip) (row value source layer band : Nat) (f : Ver → Ver) : Chip :=
  let v := c.nztVer row
  let new := ntWithScore value (ntScore v.force)
  ((c.setNzt row (f { v with force := new })).clearRuns row v.force new).stateRecords row v.force new source layer band

/-! ### Staging -/

/-- Whether a host write of a value to an entry is of arming class (R194). -/
def armingClass (v : Ver) (w : Nat) : Bool :=
  let nv := v.newestHeld
  v.arming.isSome || decide (ntLofs w ≠ ntLofs nv) || decide (ntSlot w ≠ ntSlot nv) || decide (ntSubst w ≠ ntSubst nv) ||
    (!stPrints (ntState nv) && stPrints (ntState w))

/-- b* of R198 for a head: the lowest band the cornice has not entered. -/
def Chip.bStar (c : Chip) (h : Nat) : Nat := (c.headRun h).bandsIn

/-- A host write of one nozzle table entry becomes ready, a band value from a band on (R181, R194 to R198). -/
def Chip.stageNzt (c : Chip) (row w start : Nat) : Chip :=
  let v := c.nztVer row
  let arm := armingClass v w
  let h := c.rowHead row
  let c := c.setNzt row { v with force := ntWithScore v.force (ntScore w) }
  let v := c.nztVer row
  if c.armed.isNone ∨ (c.inArmed h = false ∧ arm = false) then
    c.forceNzt row w 0 c.armedNum 0xFFFFFFFF fun x => { x with band := none, arming := none, deferred := none }
  else if arm then c.setNzt row { v with arming := some (w, 0) }
  else c.setNzt row { v with band := some ⟨w, 0, true, c.startOf start⟩ }

/-- The bands a nozzle's change applies from: b* of its head while that is armed (R198, R433). -/
def Chip.rowBands (c : Chip) (row : Nat) : List (Nat × Nat) :=
  let h := c.rowHead row
  if c.inArmed h then [(h, c.bStar h)] else []

/-- A host write of one nozzle table entry. -/
def Chip.hostNzt (c : Chip) (row w : Nat) : Chip :=
  (c.stageNzt row w (c.bStar (c.rowHead row))).logChange 0 0 row w (c.rowBands row)

/-- A change of STATE by heal or measurement becomes ready, a band value from a band on (R195, R197 to R199). source is
SOURCE of R208. -/
def Chip.stageState (c : Chip) (row st source start : Nat) : Chip :=
  let v := c.nztVer row
  let h := c.rowHead row
  let arming := v.arming.map fun a => if ntLock a.1 then a else (ntWithState a.1 st, a.2)
  if c.inArmed h = false then
    c.forceNzt row (ntWithState v.force st) source c.armedNum 0xFFFFFFFF fun x => { x with arming := arming }
  else
    match v.band with
    | some b =>
      c.setNzt row { v with band := some { b with value := ntWithState b.value st, source := source,
                                                  start := c.startOf start }, arming := arming }
    | none =>
      if c.get Reg.CRN_NZT_STAGE_INTERNAL < 4096 then
        (c.setNzt row { v with band := some ⟨ntWithState v.force st, source, false, c.startOf start⟩,
                               arming := arming }).showStage
      else (c.setNzt row { v with deferred := some (st, source) }).raise 53 0 []

/-- A change of STATE by heal or measurement. -/
def Chip.innerNzt (c : Chip) (row st source : Nat) : Chip :=
  (c.stageState row st source (c.bStar (c.rowHead row))).logChange 0 source row (ntWithState (c.nztVer row).force st)
    (c.rowBands row)

/-- Band values of one head whose band has been entered come into force (R198). -/
def Chip.applyBand (c : Chip) (h b : Nat) : Chip :=
  let lo := c.nbase h
  let rows := (c.nzt.filter fun e => decide (lo ≤ e.1 ∧ e.1 < lo + c.gOf h) &&
    match e.2.band with | some x => decide (x.start = some b) | none => false).map (·.1)
  let c := rows.foldl (fun c row =>
    match (c.nztVer row).band with
    | some x => c.forceNzt row x.value x.source c.armedNum b fun v =>
        { v with band := none, priors := (b, (c.nztVer row).force) :: v.priors }
    | none => c) c
  let c := (List.range 16).foldl (fun c t =>
    let v := c.greyVer t h
    match v.band with
    | some x => if x.start = some b then
        c.setGrey t h { v with force := x.value, band := none, priors := (b, v.force) :: v.priors } else c
    | none => c) c
  c.showStage

/-- Band values still waiting when the armed layer completes come into force, and earlier versions go (R198, R209). -/
def Chip.applyRest (c : Chip) (layer : Nat) : Chip :=
  let rows := (c.nzt.filter fun e => e.2.band.isSome).map (·.1)
  let c := rows.foldl (fun c row =>
    match (c.nztVer row).band with
    | some x => c.forceNzt row x.value x.source layer 0xFFFFFFFF fun v => { v with band := none }
    | none => c) c
  let keys := (c.grey.filter fun e => e.2.band.isSome).map (·.1)
  let c := keys.foldl (fun c k =>
    match (c.greyVer (k / 64) (k % 64)).band with
    | some x => c.setGrey (k / 64) (k % 64) { c.greyVer (k / 64) (k % 64) with force := x.value, band := none }
    | none => c) c
  let clear := fun (d : Ver) (m : SMap Ver) =>
    m.foldl (fun (acc : SMap Ver) e => SMap.set d e.1 { e.2 with priors := [] } acc) m
  ({ c with nzt := clear { force := 0 } c.nzt, grey := clear { force := identityMap } c.grey }).showStage

/-- Deferred changes and arming values come into force at an arming (R197, R199). -/
def Chip.applyArming (c : Chip) (layer : Nat) : Chip :=
  let def' := (c.nzt.filter fun e => e.2.deferred.isSome).map (·.1)
  let c := def'.foldl (fun c row =>
    match (c.nztVer row).deferred with
    | some d =>
      let v := c.nztVer row
      let arming := v.arming.map fun a => if ntLock a.1 then a else (ntWithState a.1 d.1, a.2)
      c.forceNzt row (ntWithState v.force d.1) d.2 layer 0xFFFFFFFF fun x => { x with deferred := none, arming := arming }
    | none => c) c
  let subs := (c.sub.filter fun e => e.2.arming.isSome).map (·.1)
  let c := subs.foldl (fun c k =>
    match (c.subVer k).arming with
    | some a => c.setSub k { c.subVer k with force := a.1, arming := none }
    | none => c) c
  let rows := (c.nzt.filter fun e => e.2.arming.isSome).map (·.1)
  let c := rows.foldl (fun c row =>
    match (c.nztVer row).arming with
    | some a => c.forceNzt row a.1 a.2 layer 0xFFFFFFFF fun v => { v with arming := none }
    | none => c) c
  c.showStage

/-- A host write of one substitution entry becomes ready: always of arming class (R194, R197). -/
def Chip.stageSub (c : Chip) (k w : Nat) : Chip :=
  if c.armed.isNone then c.setSub k { force := w } else c.setSub k { c.subVer k with arming := some (w, 0) }

/-- A host write of one substitution entry. -/
def Chip.hostSub (c : Chip) (k w : Nat) : Chip := (c.stageSub k w).logChange 1 0 k w []

/-- The records of change i of a load as it becomes ready (R433): its bands, after its value if that has not gone before. -/
def Chip.logStaged (c : Chip) (base : Option Nat) (i kind key value : Nat) (bands : List (Nat × Nat)) : Chip :=
  match base with
  | some b => c.logReady (b + i) bands
  | none => c.logChange kind 0 key value bands

/-- A grey table as the newest value shows it in CRN.GREYt (R201). -/
def Chip.showGrey (c : Chip) (t w : Nat) : Chip := c.put64 (Reg.CRN_GREY_LO_CODES t) (Reg.CRN_GREY_HI_CODES t) w

/-- A host write of one grey table becomes ready, head by head, a band value from the band named for the head (R197,
R198). -/
def Chip.stageGrey (c : Chip) (t w : Nat) (start : Nat → Nat) : Chip :=
  (List.range 48).foldl (fun c h =>
    let v := c.greyVer t h
    if c.inArmed h then c.setGrey t h { v with band := some ⟨w, 0, true, c.startOf (start h)⟩ }
    else c.setGrey t h { v with force := w, band := none }) (c.showGrey t w)

/-- b* of R198 on every head of the armed layer. -/
def Chip.headBands (c : Chip) : List (Nat × Nat) := ((List.range 48).filter c.inArmed).map fun h => (h, c.bStar h)

/-- A host write of one grey table. -/
def Chip.hostGrey (c : Chip) (t w : Nat) : Chip := (c.stageGrey t w c.bStar).logChange 2 0 t w c.headBands

/-! ### TABLE descriptors -/

/-- FIRST and COUNT of a TABLE descriptor (R97). -/
def tdFirst (d : List Byte) : Nat := leField d 0x14 4
def tdCount (d : List Byte) : Nat := leField d 0x18 4
def tdLen (d : List Byte) : Nat := leField d 0x10 4

/-- Value i of a loaded buffer of 4-byte entries. -/
def bufWord (buf : List Byte) (i : Nat) : Nat := leField buf (4 * i) 4

/-- EV044: a host TABLE change is applied or has its band fixed; b* is the lowest over the heads on which a change of the
descriptor applies from a band (R211). -/
def Chip.tableApplied (c : Chip) (p n : Nat) (heads : List Nat) : Chip :=
  let bs := (heads.filter c.inArmed).filterMap fun h => c.startOf (c.bStar h)
  c.raise 44 0 [(1, p), (1, n), (2, c.ci p n), (4, bs.foldl min 0xFFFFFFFF)]

/-- Staging places a set of NZT writes would take that the entries do not hold yet (R199). -/
def Chip.placesNeeded (c : Chip) (first : Nat) (ws : List Nat) : Nat :=
  ((List.range ws.length).map fun i =>
    let v := c.nztVer (first + i)
    let w := ws.getD i 0
    let h := c.rowHead (first + i)
    if c.armed.isNone then 0
    else if armingClass v w then b2n v.arming.isNone
    else if !c.inArmed h then 0
    else match v.band with
      | none => 1
      | some b => b2n !b.hostPlace).sum

/-- Entries that would have SUBST set once a set of writes is staged (R189). -/
def Chip.substAfter (c : Chip) (first : Nat) (ws : List Nat) : Nat :=
  let inside := fun (r : Nat) => decide (first ≤ r ∧ r < first + ws.length)
  (c.nzt.filter fun e => !inside e.1 && ntSubst e.2.newest).length + (ws.filter ntSubst).length

/-- The entries of a loaded buffer. -/
def bufWords (d buf : List Byte) : List Nat := (List.range (tdCount d)).map (bufWord buf)

/-- NZT_LOAD once its changes are to be held: the check of R189, the wait of R199, or its entries staged and completed (R196). -/
def Chip.nztBuffer (c : Chip) (p n : Nat) (d buf : List Byte) (base : Option Nat) : Chip :=
  let first := tdFirst d
  let ws := bufWords d buf
  if 16384 < c.substAfter first ws then c.faultDesc p n 0x102
  else if 61440 < c.get Reg.CRN_NZT_STAGE_HOST + c.placesNeeded first ws then c
  else
    let heads := ((List.range ws.length).filter fun i =>
      c.armed.isSome && !armingClass (c.nztVer (first + i)) (ws.getD i 0)).map fun i => c.rowHead (first + i)
    let c := c.tableApplied p n heads
    let c := (List.range ws.length).foldl (fun c i =>
      let row := first + i
      let w := ws.getD i 0
      (c.stageNzt row w (c.bStar (c.rowHead row))).logStaged base i 0 row w (c.rowBands row)) c
    c.showStage.complete p n 0 d []

/-- The checks of NZT_LOAD before its buffer is read (R530 steps 5 and 6): the fault, if any. -/
def Chip.nztChecks (c : Chip) (d : List Byte) : Option Nat :=
  if tdLen d ≠ 4 * tdCount d then some 0x101
  else if tdCount d < 1 ∨ 16384 < tdCount d then some 0x101
  else if c.rowsTotal < tdFirst d + tdCount d then some 0x102
  else none

/-- The checks of SUB_LOAD before its buffer is read. -/
def subChecks (d : List Byte) : Option Nat :=
  if tdLen d ≠ 4 * tdCount d then some 0x101
  else if tdCount d < 1 ∨ 16384 < tdCount d ∨ 16384 < tdFirst d + tdCount d then some 0x101
  else none

/-- R188: whether a SUB entry may be loaded. -/
def Chip.subEntryOk (c : Chip) (w : Nat) : Bool :=
  !sbValid w || (decide (sbHead w < 48) && decide (c.gOf (sbHead w) ≠ 0) &&
    decide (sbNozzle w < c.get (Reg.HED_HEAD_CFG_NOZZLES (sbHead w))))

/-- SUB_LOAD once its changes are to be held. -/
def Chip.subBuffer (c : Chip) (p n : Nat) (d buf : List Byte) (base : Option Nat) : Chip :=
  let first := tdFirst d
  let ws := bufWords d buf
  let needed := if c.armed.isNone then 0
    else ((List.range ws.length).filter fun i => (c.subVer (first + i)).arming.isNone).length
  if 61440 < c.get Reg.CRN_NZT_STAGE_HOST + needed then c
  else
    let c := c.tableApplied p n []
    let c := (List.range ws.length).foldl (fun c i =>
      (c.stageSub (first + i) (ws.getD i 0)).logStaged base i 1 (first + i) (ws.getD i 0) []) c
    c.showStage.complete p n 0 d []

/-- The checks of GREY_LOAD before its buffer is read. -/
def greyChecks (d : List Byte) : Option Nat :=
  if tdLen d ≠ 8 * tdCount d then some 0x101
  else if tdCount d < 1 ∨ 16 < tdCount d ∨ 16 < tdFirst d + tdCount d then some 0x101
  else none

/-- Table i of a loaded buffer of grey tables. -/
def bufTable (buf : List Byte) (i : Nat) : Nat := leField buf (8 * i) 8

/-- GREY_LOAD once its changes are to be held: the waits of R199, or its tables staged. -/
def Chip.greyBuffer (c : Chip) (p n : Nat) (d buf : List Byte) (base : Option Nat) : Chip :=
  let first := tdFirst d
  let count := tdCount d
  let staged := fun t => c.grey.any fun e => decide (e.1 / 64 = t) && e.2.band.isSome
  if ((List.range count).any fun i => staged (first + i)) ∨
      (c.armed.isSome ∧ 61440 < c.get Reg.CRN_NZT_STAGE_HOST + count) then
    c
  else
    let c := c.tableApplied p n (List.range 48)
    let c := (List.range count).foldl (fun c i =>
      (c.stageGrey (first + i) (bufTable buf i) c.bStar).logStaged base i 2 (first + i) (bufTable buf i) c.headBands) c
    c.showStage.complete p n 0 d []

/-- MAP_LOAD's checks before its buffer is read (R299): lengths, then PIPE. -/
def mapChecks (d : List Byte) : Option Nat :=
  if tdLen d ≠ 4 * tdCount d then some 0x101
  else if tdCount d < 1 ∨ 16384 < tdCount d ∨ 16384 < tdFirst d + tdCount d then some 0x101
  else if 3 < leField d 0x1C 1 then some 0x102
  else none

/-- A map entry names a nozzle of a configured head, or is not VALID (R299). -/
def Chip.mapEntryOk (c : Chip) (w : Nat) : Bool :=
  !bit w 31 || (decide (bits w 25 6 < 48) && decide (bits w 12 13 < c.get (Reg.HED_HEAD_CFG_NOZZLES (bits w 25 6))))

/-- MAP_LOAD once its entries are to be held (R299). -/
def Chip.mapBuffer (c : Chip) (p n : Nat) (d buf : List Byte) : Chip :=
  let pipe := leField d 0x1C 1
  let ws := bufWords d buf
  let c := (List.range ws.length).foldl (fun c i => c.put (Reg.CAM_MAP_ENTRY pipe (tdFirst d + i)) (ws.getD i 0)) c
  c.complete p n 0 d []

/-- The checks of a load's buffer (R185, R188, R189, R299): the fault, if any. -/
def Chip.bufferFault (c : Chip) (op : Nat) (d buf : List Byte) : Option Nat :=
  let bad := match op with
    | 0x10 => decide (16384 < c.substAfter (tdFirst d) (bufWords d buf))
    | 0x11 => !(bufWords d buf).all c.subEntryOk
    | 0x12 => (List.range (tdCount d)).any fun i => decide (bufTable buf i % 16 ≠ 0)
    | _ => !(bufWords d buf).all c.mapEntryOk
  if bad then some 0x102 else none

/-- The change records of a load's values (R427, R433). -/
def Chip.loadRecords (c : Chip) (op : Nat) (d buf : List Byte) : Chip :=
  (List.range (tdCount d)).foldl (fun c i =>
    match op with
    | 0x10 => c.logValue 0 0 (tdFirst d + i) (bufWord buf i)
    | 0x11 => c.logValue 1 0 (tdFirst d + i) (bufWord buf i)
    | 0x12 => c.logValue 2 0 (tdFirst d + i) (bufTable buf i)
    | _ => c.logValue 4 (leField d 0x1C 1) (tdFirst d + i) (bufWord buf i)) c

/-- The table load at the head of a ring that has its buffer and need not wait for the partner: its changes are held and it
completes, or it waits for staging places (R196, R199). -/
def Chip.loadReady (c : Chip) (p n : Nat) : Chip :=
  match (c.ring p n).load with
  | none => c
  | some t =>
    if t.waits then c
    else
      match c.headOp p n 0x10, c.headOp p n 0x11, c.headOp p n 0x12, c.headOp p n 0x13 with
      | some d, _, _, _ => c.nztBuffer p n d t.buf t.base
      | none, some d, _, _ => c.subBuffer p n d t.buf t.base
      | none, none, some d, _ => c.greyBuffer p n d t.buf t.base
      | none, none, none, some d => c.mapBuffer p n d t.buf
      | none, none, none, none => c

/-- A table load: its checks, its buffer with its own checks, and its change records, which the partner acknowledges before the
changes are held (R196, R427, R433). -/
def Chip.tableLoad (c : Chip) (p n op : Nat) (buf : Option (List Byte)) (checks : List Byte → Option Nat) : Chip :=
  match c.headOp p n op with
  | none => c
  | some d =>
    if (c.ring p n).acted then c
    else if (c.ring p n).load.isSome then c.loadReady p n
    else
      match checks d, buf with
      | some code, _ => c.faultDesc p n code
      | none, none => c.faultDesc p n 0x103
      | none, some b =>
        match c.bufferFault op d b with
        | some code => c.faultDesc p n code
        | none => (c.announce p n d b fun c => c.loadRecords op d b).loadReady p n

/-- The bytes TABLE_READ returns (R201). -/
def Chip.tableBytes (c : Chip) (table first count : Nat) : List Byte :=
  (List.range count).flatMap fun i =>
    match table with
    | 0 => leBytes 4 (c.nztVer (first + i)).shown
    | 1 => leBytes 4 (c.subVer (first + i)).newest
    | 2 => leBytes 8 (c.get64 (Reg.CRN_GREY_LO_CODES (first + i)) (Reg.CRN_GREY_HI_CODES (first + i)))
    | t => leBytes 4 (c.get (Reg.CAM_MAP_ENTRY (t - 3) (first + i)))

/-- TABLE_READ's checks (R200, R530 step 5): TABLE first, then LEN and the bounds. -/
def Chip.readChecks (c : Chip) (d : List Byte) : Option Nat :=
  let table := leField d 0x1C 1
  let size := if table = 2 then 8 else 4
  let most := if table = 2 then 16 else 16384
  let bound := if table = 0 then c.rowsTotal else most
  if 6 < table then some 0x102
  else if tdCount d < 1 ∨ most < tdCount d ∨ bound < tdFirst d + tdCount d then some 0x101
  else if tdLen d ≠ size * tdCount d then some 0x101
  else none

/-- R201: TABLE_READ writes each entry's newest value to the buffer. -/
def Chip.tableReadOut (c : Chip) (p n : Nat) : Chip :=
  match c.headOp p n 0x14 with
  | none => c
  | some d =>
    match c.readChecks d with
    | some code => c.faultDesc p n code
    | none =>
      let c := c.emit (.post p (leField d 8 8) (c.tableBytes (leField d 0x1C 1) (tdFirst d) (tdCount d)))
      c.complete p n 0 d []

/-! ### Window and register writes (R202) -/

/-- A write of R202 outside IDLE is discarded with EV052. -/
def Chip.tableWrite (c : Chip) (off : Nat) (f : Chip → Chip) : Chip :=
  if c.get Reg.CRN_STATUS_STATE = 0 then f c else c.raise 52 1 [(4, off)]

/-- A write of one NZT window entry (R176, R202); the spare rows are read-only. R189 names no ring to stop for a write that would
bring the count of entries with SUBST set above 16,384: the write is discarded, with no event (DESIGN CHOICE: log entry
92). -/
def Chip.nztWindow (c : Chip) (i w : Nat) : Chip :=
  if i < 196608 then
    c.tableWrite (0x100000 + 4 * i) fun c =>
      if c.rowsTotal ≤ i ∨ 16384 < c.substAfter i [w] then c else (c.hostNzt i w).showStage
  else c

/-- A write of one SUB window entry (R177, R202). -/
def Chip.subWindow (c : Chip) (i w : Nat) : Chip :=
  c.tableWrite (0x240000 + 4 * i) fun c => (c.hostSub i w).showStage

/-- A write of CRN.GREYt_LO or _HI (R185, R202). -/
def Chip.greyWindow (c : Chip) (t : Nat) (hi : Bool) (w : Nat) : Chip :=
  c.tableWrite (0x60500 + 8 * t + 4 * b2n hi) fun c =>
    let old := c.get64 (Reg.CRN_GREY_LO_CODES t) (Reg.CRN_GREY_HI_CODES t)
    let new := if hi then old % 2 ^ 32 + w * 2 ^ 32 else old / 2 ^ 32 * 2 ^ 32 + w / 16 * 16
    (c.hostGrey t new).showStage

/-- A write of CRN.WEAK_MAP (R186, R202). -/
def Chip.weakWindow (c : Chip) (hi : Bool) (w : Nat) : Chip :=
  c.tableWrite (0x60418 + 4 * b2n hi) fun c =>
    c.put (if hi then Reg.CRN_WEAK_MAP_HI_MAP else Reg.CRN_WEAK_MAP_LO_MAP) w

/-! ### Protection (R205, R206) -/

/-- The spare row a memory row is redirected to at present, if any. -/
def Chip.spareOf (c : Chip) (row : Nat) : Option Nat :=
  (List.range 256).find? fun j => c.flag (Reg.CRN_SPARE_USED j) && !c.flag (Reg.CRN_SPARE_RETIRED j) &&
    decide (c.get (Reg.CRN_SPARE_ROW j) = row)

/-- R206: a memory row repaired with the lowest free spare row. EV050 is raised at the first repair that finds none free, not as
the last of the 256 is taken (DESIGN CHOICE: log entry 92). -/
def Chip.repairRow (c : Chip) (row : Nat) : Chip :=
  match (List.range 256).find? fun j => !c.flag (Reg.CRN_SPARE_USED j) with
  | none => if c.sparesOut then c else ({ c with sparesOut := true }).raise 50 0 []
  | some k =>
    let old := c.spareOf row
    let c := match old with
      | some j => c.put (Reg.CRN_SPARE_RETIRED j) 1
      | none => c
    let c := ((c.put (Reg.CRN_SPARE_ROW k) row).put (Reg.CRN_SPARE_USED k) 1).put Reg.CRN_NZT_ECC_SPARES_USED
      (c.get Reg.CRN_NZT_ECC_SPARES_USED + 1)
    let c := { c with rowErrs := SMap.erase row c.rowErrs }
    let c := c.record 4 3 c.armedNum 0xFFFFFFFF row (k + 65536 * b2n old.isSome)
    c.raise 49 0 [(2, row), (1, k)]

/-- What a read of the NZT window's word i returns (R176, R201): the newest value of a row, or of the row that a spare row in
use holds; a spare row not in use, and what lies above, read 0 (DESIGN CHOICE: log entry 80). -/
def Chip.nztRead (c : Chip) (i : Nat) : Nat :=
  if i < 196608 then (c.nztVer i).shown
  else if i < 204800 then
    let j := (i - 196608) / 32
    if c.flag (Reg.CRN_SPARE_USED j) ∧ c.flag (Reg.CRN_SPARE_RETIRED j) = false then
      (c.nztVer (32 * c.get (Reg.CRN_SPARE_ROW j) + i % 32)).shown
    else 0
  else 0

/-- A read of SUB window entry k: its newest value (R201). -/
def Chip.subRead (c : Chip) (k : Nat) : Nat := (c.subVer k).newest

/-- R204, R205: a read of the SUB or grey tables by a head meets an error. The row its event carries is free, since these
tables have no memory rows (DESIGN CHOICE: log entry 80). -/
def Chip.otherEcc (c : Chip) (h : Nat) (cell : TableCell) (correctable : Bool) : Chip :=
  let row := Config.freeNat c.fresh % 65536
  if correctable then (c.drawn.bump Reg.CRN_NZT_CE_COUNT 1).raise 47 0 [(2, row)]
  else
    let c := (c.drawn.bump Reg.CRN_NZT_UE_COUNT 1).raise 48 0 [(2, row), (1, 0), (1, 0)]
    c.setHead h { c.headRun h with eccHold := some cell }

/-- R205, R206: a nozzle table read of a head meets an error. An uncorrectable one holds the head's packing. -/
def Chip.nztEcc (c : Chip) (h : Nat) (e : NztError) : Chip :=
  match e.cell with
  | .sub k => c.otherEcc h (.sub k) e.correctable
  | .grey t g => c.otherEcc h (.grey t g) e.correctable
  | .nzt r =>
  let row := r.val / 32
  if e.correctable then
    let n := SMap.get 0 row c.rowErrs + 1
    let c := ({ c with rowErrs := SMap.set 0 row n c.rowErrs }.bump Reg.CRN_NZT_CE_COUNT 1).raise 47 0 [(2, row)]
    if c.get Reg.CRN_NZT_ECC_THR ≤ n then c.repairRow row else c
  else
    let c := (c.bump Reg.CRN_NZT_UE_COUNT 1).raise 48 0 [(2, row), (1, r.val % 32), (1, 0)]
    let c := c.setHead h { c.headRun h with eccHold := some (.nzt r) }
    c.repairRow row

/-- R205: a nozzle table entry that is lost is retired, with a RETIRE record whatever its STATE was, and EV045 where it becomes
so. -/
def Chip.loseEntry (c : Chip) (row : Nat) : Chip :=
  let h := c.rowHead row
  let n := row - c.nbase h
  let old := (c.nztVer row).force
  let c := (c.setNzt row { c.nztVer row with force := 0x80000000, band := none, arming := none, deferred := none }).clearRuns
    row old 0x80000000
  let c := c.record 1 3 c.armedNum 0xFFFFFFFF (nozzleObject h n) 0x80000000
  (c.raiseIf (decide (ntState old ≠ 2)) 45 0 [(1, h), (2, n), (1, 3)]).showStage

/-- R205: a nozzle table entry whose DRAM copy is unreadable too, told to the partner (R433). The number that CAUSE of EV048
gives to LOST, which the spec does not, is 1 (DESIGN CHOICE: log entry 92). -/
def Chip.nztLost (c : Chip) (row : Nat) : Chip :=
  ((c.loseEntry row).logChange 0 3 row 0x80000000 []).raise 48 1 [(2, row / 32), (1, row % 32), (1, 1)]

/-- R205: the value fetched from the DRAM copy is used and written back, or the copy is unreadable too. What a lost SUB entry
or grey table then holds is free, but that the entry is not VALID and nibble 0 is 0 (DESIGN CHOICE: log entry 80). -/
def Chip.nztCopy (c : Chip) (h : Nat) (copy : Option (BitVec 64)) : Chip :=
  match (c.headRun h).eccHold with
  | none => c
  | some cell =>
    let c := c.setHead h { c.headRun h with eccHold := none }
    let free := Config.freeNat c.fresh
    match cell, copy with
    | .nzt r, some w => c.setNzt r.val { c.nztVer r.val with force := w.toNat % 2 ^ 32 }
    | .nzt r, none => c.nztLost r.val
    | .sub k, some w => c.setSub k.val { c.subVer k.val with force := w.toNat % 2 ^ 32 }
    | .sub k, none =>
      (c.drawn.setSub k.val { force := free % 2 ^ 31 }).showStage.raise 48 1 [(2, free % 65536), (1, 0), (1, 1)]
    | .grey t g, some w => c.setGrey t.val g.val { c.greyVer t.val g.val with force := w.toNat }
    | .grey t g, none =>
      (c.drawn.setGrey t.val g.val { force := free % 2 ^ 60 * 16 }).showStage.raise 48 1 [(2, free % 65536), (1, 0), (1, 1)]

/-! ### The commands -/

/-- NZT_LOAD (R97, R189, R194 to R200). -/
def execNztLoad (p : Port) (n : Fin 64) (buf : Option (List Byte)) (s : State) : Host.Outcome State Fault Refusal :=
  s.go (s.toChip.tableLoad p.num n.val 0x10 buf s.toChip.nztChecks)

/-- SUB_LOAD (R188, R194, R200). -/
def execSubLoad (p : Port) (n : Fin 64) (buf : Option (List Byte)) (s : State) : Host.Outcome State Fault Refusal :=
  s.go (s.toChip.tableLoad p.num n.val 0x11 buf subChecks)

/-- GREY_LOAD (R184, R185, R199, R200). -/
def execGreyLoad (p : Port) (n : Fin 64) (buf : Option (List Byte)) (s : State) : Host.Outcome State Fault Refusal :=
  s.go (s.toChip.tableLoad p.num n.val 0x12 buf greyChecks)

/-- STAGING_PLACES_FREED (R199): the load at the head of a ring that waits with its buffer is tried again. -/
def execStagingPlacesFreed (p : Port) (n : Fin 64) (s : State) : Host.Outcome State Fault Refusal :=
  s.go (s.toChip.loadReady p.num n.val)

/-- TABLE_READ (R200, R201). -/
def execTableRead (p : Port) (n : Fin 64) (s : State) : Host.Outcome State Fault Refusal :=
  s.go (s.toChip.tableReadOut p.num n.val)

/-- A write of CRN.MORAINE_CTRL (R210): EXPORT queues the whole ledger as one STATE item of KIND 0x13. -/
def Chip.moraineCtrl (c : Chip) (v : Nat) : Chip :=
  if bit v 0 then
    c.queueState (c.get Reg.CRN_REPORT_PORT) (c.get Reg.CRN_REPORT_RING) 0x13 (c.ledger ++ c.ledgerPend).flatten
  else c

end Sys2Proof.Machine
end

