-- ==== Sys2Proof/Machine/Heal.lean ====
section
/-! DEFINITION. Machine/Heal.lean: expected deposit (R309, R310), evidence windows (R312 to R314), measured deposit
(R315), scoring and evaluation (R316 to R321), modes (R323 to R325), and the heal report (R327). -/

namespace Sys2Proof.Machine

/-! ### Expected deposit -/

/-- One accumulator set (R310). -/
def Chip.acc (c : Chip) (k : Nat) : SMap Nat := if k = 0 then c.acc0 else c.acc1

/-- One accumulator set replaced. -/
def Chip.setAcc (c : Chip) (k : Nat) (m : SMap Nat) : Chip := if k = 0 then { c with acc0 := m } else { c with acc1 := m }

/-- The accumulator set of the armed layer. -/
def Chip.accSet (c : Chip) : Nat :=
  match c.run with
  | some r => r.accSet
  | none => 0

/-- Counters of some rows added into the armed layer's accumulator set and cleared (R310). -/
def Chip.flushRows (c : Chip) (lo hi : Nat) : Chip :=
  let k := c.accSet
  let mine := c.deposit.filter fun e => decide (lo ≤ e.1 ∧ e.1 < hi)
  let m := mine.foldl (fun (m : SMap Nat) e => SMap.set 0 e.1 ((SMap.get 0 e.1 m + e.2) % 2 ^ 32) m) (c.acc k)
  ({ c with deposit := c.deposit.filter fun e => !decide (lo ≤ e.1 ∧ e.1 < hi) }).setAcc k m

/-- A head's counters flushed. -/
def Chip.flushHead (c : Chip) (h : Nat) : Chip := c.flushRows (c.nbase h) (c.nbase h + c.gOf h)

/-- One credit of R309: the counter grows, and at 49,152 it is flushed alone (R310). -/
def Chip.credit (c : Chip) (row w : Nat) : Chip :=
  let n := SMap.get 0 row c.deposit + w
  let c := { c with deposit := SMap.set 0 row n c.deposit }
  if 49152 ≤ n then c.flushRows row (row + 1) else c

/-- The weight of an emitted code (R309), by the weights latched at arming. -/
def weightOf (ws : List Nat) (code : Nat) : Nat := if code = 0 then 0 else ws.getD code 0

/-- The 16 weights of HEL.WEIGHTk now. -/
def Chip.weightsNow (c : Chip) : List Nat :=
  [0, c.get Reg.HEL_WEIGHT0_W1, c.get Reg.HEL_WEIGHT0_W2, c.get Reg.HEL_WEIGHT0_W3,
   c.get Reg.HEL_WEIGHT1_W0, c.get Reg.HEL_WEIGHT1_W1, c.get Reg.HEL_WEIGHT1_W2, c.get Reg.HEL_WEIGHT1_W3,
   c.get Reg.HEL_WEIGHT2_W0, c.get Reg.HEL_WEIGHT2_W1, c.get Reg.HEL_WEIGHT2_W2, c.get Reg.HEL_WEIGHT2_W3,
   c.get Reg.HEL_WEIGHT3_W0, c.get Reg.HEL_WEIGHT3_W1, c.get Reg.HEL_WEIGHT3_W2, c.get Reg.HEL_WEIGHT3_W3]

/-! ### Freezing -/

/-- R325: heal is frozen while the controller does not own firing, in P2 or P3, and while no enabled context is in
CTX_EN; after a loss of ownership until the next layer that an owner arms (R443). -/
def Chip.healFrozen (c : Chip) : Bool :=
  c.get Reg.TDM_STATUS_OWNS == 0 || c.tdm.inspStopped || decide (2 ≤ c.get Reg.CKP_STATUS_PSTATE) ||
    !(List.range 8).any fun x => c.bitOf Reg.HEL_CFG_CTX_EN x && c.flag (Reg.CAM_CTX_BIND_ENABLE x)

/-- HEL.STATUS.FROZEN follows R325; its changes raise EV060, and an open window remembers them. -/
def Chip.refreshFrozen (c : Chip) : Chip :=
  let f := c.healFrozen
  let c := if f then { c with healWin := c.healWin.map fun (w : HealWindow) => { w with frozen := true } } else c
  if f = c.flag Reg.HEL_STATUS_FROZEN then c else (c.putB Reg.HEL_STATUS_FROZEN f).raise 60 0 [(1, b2n f)]

/-! ### Evidence -/

/-- Whether an instant lies in the half-open window from a first to an end (R15). -/
def inWindow (t first stop : ET) : Bool := decide (0 ≤ wrapDiff t first) && decide (wrapDiff t stop < 0)

/-- Whether a record has an FS in the open window and comes before its end (R313). -/
def HealWindow.takes (w : HealWindow) (fs now : ET) : Bool := inWindow fs w.tDone w.tMax && later w.tMax now

/-- The place of the ended window that an FS lies in, the one that ended last first. -/
def Chip.pastWindow (c : Chip) (fs : ET) : Option Nat := c.healPast.findIdx? fun w => inWindow fs w.1 w.2.1

/-- An ended window tells its first unused record. -/
def Chip.tellPast (c : Chip) (k : Nat) (tell : Chip → Chip) : Chip :=
  match c.healPast[k]? with
  | some (first, stop, false) => tell { c with healPast := c.healPast.set k (first, stop, true) }
  | _ => c

/-- R313: a record that is no evidence adds 1 to HEL.UNUSED, and the first in each window raises EV058: in the ended window its FS
lies in, else in the open one, else in the one that ended last. Before any window there is none to be the first in, and each is
told (DESIGN CHOICE: log entry 84). -/
def Chip.unusedRecord (c : Chip) (ctx frame cause : Nat) (fs : ET) : Chip :=
  let c := c.bump Reg.HEL_UNUSED_COUNT 1
  let tell := fun (c : Chip) => c.raise 58 cause [(1, ctx), (2, frame)]
  match c.pastWindow fs, c.healWin with
  | some k, _ => c.tellPast k tell
  | none, some w => if w.unusedTold then c else tell { c with healWin := some { w with unusedTold := true } }
  | none, none => if c.healPast.isEmpty then tell c else c.tellPast 0 tell

/-- The cause of R313 for a record that is no evidence: 1 BAD; 3 LATE, its FS in a window that has ended; 2 OUTSIDE. -/
def Chip.unusedCause (c : Chip) (bad : Bool) (fs : ET) : Nat :=
  let ended := (c.pastWindow fs).isSome
  let passed := match c.healWin with
    | some w => inWindow fs w.tDone w.tMax
    | none => false
  if bad then 1 else if ended || passed then 3 else 2

/-- A statistics record handed to heal at its frame's close (R301, R313): profile entries are (head, nozzle, COLS, MEAN), of which
one that names no nozzle counts for none (R315). R313 names no cause for a record without a profile section: it is free (log entry 84). -/
def Chip.healRecord (c : Chip) (ctx frame : Nat) (bad profile : Bool) (fs : ET) (entries : List (Nat × Nat × Nat × Nat)) :
    Chip :=
  if !c.bitOf Reg.HEL_CFG_CTX_EN ctx then c
  else
    match c.healWin with
    | none => c.unusedRecord ctx frame (c.unusedCause bad fs) fs
    | some w =>
      if bad ∨ w.takes fs c.now = false then c.unusedRecord ctx frame (c.unusedCause bad fs) fs
      else if profile = false then c.drawn.unusedRecord ctx frame (Config.freeNat c.fresh % 256) fs
      else
        let pipe := ctx / 2
        let mine := entries.filter fun e => decide (e.2.1 < c.get (Reg.HED_HEAD_CFG_NOZZLES e.1))
        let ev := mine.foldl (fun (m : SMap (Nat × Nat)) e =>
          let k := 4 * (c.nbase e.1 + e.2.1) + pipe
          let o := SMap.get (0, 0) k m
          SMap.set (0, 0) k (o.1 + e.2.2.2 * e.2.2.1, o.2 + e.2.2.1) m) w.evidence
        { c with healWin := some { w with evidence := ev, records := w.records + 1 } }

/-! ### Evaluation -/

/-- One evaluated nozzle: row, head, nozzle, evidence e, new score, q, run counts, whether its newest value has LOCK set (R324),
and whether that value bars a change of its score (R180, R318). -/
structure Verdict where
  row : Nat
  head : Nat
  nozzle : Nat
  e : Nat
  score : Nat
  q : Nat
  hi : Nat
  lo : Nat
  locked : Bool
  barred : Bool
  deriving DecidableEq, Repr

/-- q of R315 from one pipeline's sums; the value where the expected deposit is 0 is free. -/
def qOf (sm sc : Nat) (bg gain : Int) (n a free : Nat) : Nat :=
  if a = 0 then free % 513
  else (clampI (floorDiv (256 * ((sm : Int) - bg * sc) * n) ((sc : Int) * gain * a)) 0 512).toNat

/-- The evidence of a nozzle by pipeline: those pipelines with a gain. -/
def Chip.nozzleQ (c : Chip) (w : HealWindow) (row : Nat) : Option Nat :=
  let a := SMap.get 0 row (c.acc w.accSet)
  let n := 1024 * w.bands
  let pipes := (List.range 4).filterMap fun p =>
    let e := SMap.get (0, 0) (4 * row + p) w.evidence
    let gain := c.getI (Reg.HEL_PIPE_MODEL_GAIN p)
    if e.2 = 0 ∨ gain = 0 then none
    else some (e, qOf e.1 e.2 (c.get (Reg.HEL_PIPE_MODEL_BG p)) gain n a (Config.freeNat (c.fresh + row)))
  let sc := (pipes.map (·.1.2)).sum
  if c.healPoison.contains (12288 * w.accSet + row / 16) ∨ pipes.isEmpty ∨ sc < max 1 (c.get Reg.HEL_CFG_MIN_COLS) ∨ 256 * a < c.get Reg.HEL_EMIN_EMIN * n then none
  else some ((pipes.map (·.2)).foldl min 512)

/-- The verdict on one nozzle, if it is evaluated (R315 to R317). -/
def Chip.verdict (c : Chip) (w : HealWindow) (h n : Nat) : Option Verdict :=
  let row := c.nbase h + n
  let v := c.nztVer row
  let spoilt := w.spoilt.any fun x => decide (x.1 = h ∧ x.2.1 ≤ n / 32 ∧ n / 32 < x.2.1 + x.2.2)
  if !stPrints (ntState v.force) ∨ spoilt then none
  else
    match c.nozzleQ w row with
    | none => none
    | some q =>
      let deficit := (256 - c.get Reg.HEL_SCORE_CFG_DEADBAND) - q
      let e := min (c.get Reg.HEL_SCORE_CFG_EV_MAX) (deficit * c.get Reg.HEL_SCORE_CFG_EGAIN / 256)
      let s := min 255 (ntScore v.force + e - c.get Reg.HEL_SCORE_CFG_DECAY)
      let runs := SMap.get 0 row c.runCounts
      let hi := if c.get Reg.HEL_THRESH_RETIRE ≤ s then min 7 (runs % 8 + 1) else 0
      let lo := if s ≤ c.get Reg.HEL_THRESH_RETURN then min 7 (runs / 8 + 1) else 0
      some ⟨row, h, n, e, s, q, hi, lo, ntLock v.newest, ntLock v.newest || decide (ntState v.newest = 3)⟩

/-- A candidate change (R319): its class in the order of R321 (0 retire, 1 weaken, 2 return). -/
def Chip.candidate (c : Chip) (x : Verdict) : Option Nat :=
  let st := ntState (c.nztVer x.row).newest
  if x.barred ∨ !stPrints st then none
  else if c.get Reg.HEL_THRESH_RETIRE_N ≤ x.hi then some 0
  else if st = 0 ∧ c.get Reg.HEL_THRESH_WEAK ≤ x.score then some 1
  else if st = 1 ∧ c.get Reg.HEL_THRESH_RETURN_N ≤ x.lo then some 2
  else none

/-- A list put in order by insertion. -/
def insertBy {α : Type} (before : α → α → Bool) (a : α) : List α → List α
  | [] => [a]
  | b :: l => if before a b then a :: b :: l else b :: insertBy before a l

/-- A list sorted by insertion. -/
def sortBy {α : Type} (before : α → α → Bool) (l : List α) : List α := l.foldr (insertBy before) []

/-- The order of R321 on candidates. -/
def candidateBefore (a b : Nat × Verdict) : Bool :=
  let key := fun (x : Nat × Verdict) => [x.1, if x.1 = 2 then x.2.score else 255 - x.2.score, x.2.row]
  rankBefore (key a) (key b)

/-- Whether a head is treated as in REPORT (R323). -/
def Chip.healVeto (c : Chip) (h : Nat) : Bool :=
  decide (c.get Reg.HEL_CTRL_MODE ≠ 2) || bit (c.get64 Reg.HEL_VETO_LO_HEADS Reg.HEL_VETO_HI_HEADS) h

/-- What becomes of a candidate: 0 issued, 4 deferred, 8 proposed (the ACTION bits of R327). -/
def Chip.keepCandidates (c : Chip) : List (Nat × Verdict) → List Nat → List ((Nat × Verdict) × Nat)
  | [], _ => []
  | x :: l, kept =>
    if c.healVeto x.2.head then (x, 8) :: c.keepCandidates l kept
    else if kept.length < c.get Reg.HEL_LIMIT_TOTAL ∧
        (kept.filter fun h => decide (h = x.2.head)).length < c.get Reg.HEL_LIMIT_HEAD then
      (x, 0) :: c.keepCandidates l (x.2.head :: kept)
    else (x, 4) :: c.keepCandidates l kept

/-- The header of a heal report (R327). -/
def healHeader (flags skip layer : Nat) (tEnd : ET) (records evaluated frozen weakened retired returned deferred entries : Nat) :
    List Byte :=
  leBytes 1 1 ++ leBytes 1 flags ++ leBytes 1 skip ++ leBytes 1 0 ++ leBytes 4 layer ++ leBytes 8 tEnd.toNat ++
    leBytes 4 records ++ leBytes 4 evaluated ++ leBytes 8 frozen ++ leBytes 2 weakened ++ leBytes 2 retired ++
    leBytes 2 returned ++ leBytes 2 deferred ++ leBytes 4 entries ++ leBytes 4 0

/-- One entry of a heal report. -/
def healEntry (x : (Nat × Verdict) × Nat) : List Byte :=
  let v := x.1.2
  let action := if x.1.1 = 0 then 2 else if x.1.1 = 1 then 1 else 3
  leBytes 1 v.head ++ leBytes 1 (action + x.2) ++ leBytes 2 v.nozzle ++ leBytes 1 v.score ++
    leBytes 1 (v.hi + 16 * v.lo) ++ leBytes 2 v.q

/-- The STATE ring heal reports go to. -/
def Chip.healQueue (c : Chip) (body : List Byte) : Chip :=
  c.queueState (c.get Reg.HEL_CFG_REPORT_PORT) (c.get Reg.HEL_CFG_REPORT_RING) 0x11 body

/-- Why heal skips a layer (R314), 0 if it does not: FROZEN before every other cause (DEDUCED from R325 and R443: log entry 84).
MODE OFF at T_end computes nothing either (R323): it is told as OFF
(DEDUCED: log entry 84). -/
def HealWindow.skipCause (w : HealWindow) (off : Bool) : Nat :=
  if w.frozen then 5 else if w.aborted then 1 else if w.truncated then 2 else if w.records = 0 then 3
  else if w.modeOff || off then 4 else 0

/-- FLAGS[2] of a heal report: REPORT mode (R327). -/
def Chip.reportMode (c : Chip) : Nat := 4 * b2n (decide (c.get Reg.HEL_CTRL_MODE = 1))

/-- The evaluation begun ends (R318, R327): its report is queued and EV054 raised. -/
def Chip.endEvaluation (c : Chip) : Chip :=
  match c.healEval with
  | none => c
  | some v =>
    let c := { c with healEval := none, healEvaluated := some v.layer }
    let c := if c.get Reg.HEL_STATUS_STATE = 2 then c.put Reg.HEL_STATUS_STATE (b2n c.healWin.isSome) else c
    let c := (c.bump Reg.HEL_EVALS_COUNT 1).put Reg.HEL_LAST_LAYER_LAYER v.layer
    let c := (c.raise 54 0 [(4, v.layer), (4, v.weakened), (4, v.retired), (4, v.returned), (4, v.deferred)]).healQueue v.report
    if 4096 < v.entries then c.raise 62 0 [] else c

/-- The score and the run counts of an evaluated nozzle written (R317, R318). -/
def Chip.writeVerdict (c : Chip) (v : Verdict) : Chip :=
  let x := c.nztVer v.row
  let c := if v.barred then c else c.setNzt v.row { x with force := ntWithScore x.force v.score }
  { c with runCounts := SMap.set 0 v.row (v.hi + 8 * v.lo) c.runCounts }

/-- T_end of a window that ends now (R312). -/
def Chip.windowEnd (c : Chip) (w : HealWindow) : ET := if later w.tMax c.now then c.now else w.tMax

/-- R318: the evaluation of a window: scores, guard, candidates, changes. -/
def Chip.evaluate (c : Chip) (w : HealWindow) : Chip :=
  let heads := (List.range 48).filter fun h => inMask w.heads h && !w.outHeads.contains h
  let verdicts := heads.flatMap fun h => (List.range (c.get (Reg.HED_HEAD_CFG_NOZZLES h))).filterMap (c.verdict w h)
  let frozen := heads.filter fun h =>
    let mine := verdicts.filter fun v => decide (v.head = h)
    decide (c.get Reg.HEL_LIMIT_GUARD * mine.length < 256 * (mine.filter fun v => decide (0 < v.e)).length)
  let c := { c with fresh := c.fresh + 196608 }
  let c := frozen.foldl (fun c h => c.raise 56 0 [(4, w.layer), (1, h)]) c
  let c := c.put64 Reg.HEL_FROZEN_LO_HEADS Reg.HEL_FROZEN_HI_HEADS ((frozen.map fun h => 2 ^ h).sum)
  let live := verdicts.filter fun v => !frozen.contains v.head && !v.locked
  let c := live.foldl (fun c v => c.writeVerdict v) c
  let cands := sortBy candidateBefore (live.filterMap fun v => (c.candidate v).map fun k => (k, v))
  let fates : List ((Nat × Verdict) × Nat) := c.keepCandidates cands []
  let issued := fates.filter fun x => decide (x.2 = 0)
  let deferred : Nat := (fates.filter fun x => decide (x.2 = 4)).length
  let count := fun k => (issued.filter fun x => decide (x.1.1 = k)).length
  let c : Chip := issued.foldl (fun c x =>
    c.innerNzt x.1.2.row (if x.1.1 = 0 then 2 else if x.1.1 = 1 then 1 else 0) 1) c
  let c := (c.showStage.bump Reg.HEL_CHANGES_COUNT issued.length).bump Reg.HEL_DEFERRED_COUNT deferred
  let c := ((c.put Reg.HEL_LAST_CHG_RETIRED (count 0)).put Reg.HEL_LAST_CHG_WEAKENED (count 1)).put
    Reg.HEL_LAST_CHG_RETURNED (count 2)
  let c : Chip := if deferred = 0 then c else c.raise 55 0 [(4, w.layer), (4, deferred)]
  let listed := fates.take 4096
  let flags := 2 * b2n (decide (4096 < fates.length)) + c.reportMode
  let report := healHeader flags 0 w.layer (c.windowEnd w) w.records verdicts.length ((frozen.map fun h => 2 ^ h).sum) (count 1)
    (count 0) (count 2) deferred listed.length ++ listed.flatMap healEntry
  { c with healEval := some ⟨w.accSet, w.layer, report, count 1, count 0, count 2, deferred, fates.length⟩ }

/-- T_end of the open window (R312): evaluation starts, or the layer is skipped (R314). -/
def Chip.closeWindow (c : Chip) : Chip :=
  match c.healWin with
  | none => c
  | some w =>
    let c := ({ c with healWin := none, healPast := (w.tDone, c.windowEnd w, w.unusedTold) :: c.healPast }).endEvaluation
    match w.skipCause (decide (c.get Reg.HEL_CTRL_MODE = 0)) with
    | 0 => (c.evaluate w).put Reg.HEL_STATUS_STATE 2
    | k =>
      let c := ((c.put Reg.HEL_STATUS_STATE 0).put Reg.HEL_LAST_LAYER_LAYER w.layer).raise 57 k [(4, w.layer)]
      c.healQueue (healHeader (1 + c.reportMode) k w.layer (c.windowEnd w) w.records 0 0 0 0 0 0 0)

/-- T_done of a layer (R312): an earlier window ends, and the layer's own opens. -/
def Chip.openWindow (c : Chip) (layer bands heads : Nat) (outs : List Nat) (aborted truncated : Bool)
    (spoilt : List (Nat × Nat × Nat)) (accSet : Nat) : Chip :=
  let c := c.closeWindow
  let w : HealWindow :=
    { layer := layer, bands := bands, heads := heads, outHeads := outs, aborted := aborted, truncated := truncated,
      modeOff := decide (c.get Reg.HEL_CTRL_MODE = 0), frozen := c.healFrozen, spoilt := spoilt, accSet := accSet,
      tDone := c.now, tMax := c.now + BitVec.ofNat 64 (65536 * 1000000 * c.get Reg.HEL_WINDOW_MS) }
  let c := { c with healWin := some w }
  let c := if c.get Reg.HEL_STATUS_STATE = 2 then c else c.put Reg.HEL_STATUS_STATE 1
  c.put Reg.HEL_LAYER_LAYER layer

/-! ### The commands -/

/-- WINDOW_TIMEOUT (R312): the window's HEL.WINDOW.MS have passed. -/
def execWindowTimeout (s : State) : Host.Outcome State Fault Refusal :=
  s.go <|
    match s.healWin with
    | none => s.toChip
    | some w => (s.toChip.advanceToEt w.tMax).closeWindow

/-- A write of HEL.CTRL: MODE (R323), and CLOSE, which ends the open window (R312). -/
def Chip.helCtrl (c : Chip) (v : Nat) : Chip :=
  let mode := bits v 0 2
  let c := c.put Reg.HEL_CTRL_MODE (if mode = 3 then 0 else mode)
  if bit v 4 then c.closeWindow else c

/-- EVALUATION_END (R311, R318, R327). -/
def execEvaluationEnd (s : State) : Host.Outcome State Fault Refusal := s.go s.toChip.endEvaluation

end Sys2Proof.Machine
end

