-- ==== Sys2Proof/Machine/Firn.lean ====
section
/-! DEFINITION. Machine/Firn.lean: firn snapshots as an owner takes them (R203, R431, R434, R435), and what a layer
completion means to the tandem state machine (R429, R445). The spec gives the content of a section's body, not its layout:
the layouts here are the model's (DESIGN CHOICE). -/

namespace Sys2Proof.Machine

/-- A section: TYPE, a reserved u16, LEN, body (R435). -/
def firnSection (type : Nat) (body : List Byte) : List Byte :=
  leBytes 2 type ++ leBytes 2 0 ++ leBytes 4 body.length ++ body

/-- Axes as a HEARTBEAT holds them (R431): the motion tick they describe, as its ET, and POS, VEL, MODE, FAULT_CAUSE and HOMED of
each. -/
def Chip.axisBytes (c : Chip) : List Byte :=
  leBytes 8 (BitVec.ofInt 64 (floorDiv c.longNs 1000 * 65536000)).toNat ++ (List.range 8).flatMap fun a =>
    leBytes 4 (c.get (Reg.MOT_AX_POS_POS a)) ++ leBytes 4 (c.get (Reg.MOT_AX_VEL_VEL a)) ++
      leBytes 1 (c.get (Reg.MOT_AX_STATUS_MODE a)) ++ leBytes 1 (c.get (Reg.MOT_AX_STATUS_FAULT_CAUSE a)) ++
      leBytes 1 (c.get (Reg.MOT_AX_STATUS_HOMED a)) ++ leBytes 1 0

/-- Enabled slots as a HEARTBEAT holds them (R431): SP, the integrator, the last v and y_prev of each. -/
def Chip.slotBytes (c : Chip) : List Byte :=
  ((List.range 64).filter fun s => c.flag (Reg.LOP_LS_STATUS_ENABLED s)).flatMap fun s =>
    let x := SMap.get {} s c.slots
    leBytes 4 s ++ leBytes 4 (c.get (Reg.LOP_LS_SP_VALUE s)) ++ leBytes 4 (c.get (Reg.LOP_LS_INTEG_VALUE s)) ++
      leBytes 4 (unsigned 32 x.last) ++ leBytes 4 (unsigned 32 (x.yPrev.getD 0)) ++ leBytes 4 (b2n x.yPrev.isSome)

/-- Consumer indices of every ring of both ports (R431). -/
def Chip.ringBytes (c : Chip) : List Byte := (List.range 128).flatMap fun k => leBytes 2 (c.get (Reg.HIF_RING_STATUS_CI (k / 64) (k % 64)))

/-- Section 1 of a firn. -/
def Chip.estBytes (c : Chip) : List Byte :=
  let e := c.est
  leBytes 1 (b2n e.back) ++ leBytes 1 (b2n e.ext.isSome) ++ leBytes 2 e.window.length ++ leBytes 4 (unsigned 32 (e.ext.getD 0)) ++
    leBytes 8 e.tExt.toNat ++ e.window.flatMap fun w => leBytes 8 (unsigned 64 w.1) ++ leBytes 8 (unsigned 64 w.2)

/-- Section 2 of a firn, for the band it closes. -/
def Chip.headBytes (c : Chip) (band : Nat) : List Byte :=
  match c.armed with
  | none => []
  | some l =>
    ((List.range 48).filter (inMask l.heads)).flatMap fun h =>
      let x := c.headRun h
      leBytes 1 h ++ leBytes 1 (b2n (x.notCompared.contains band)) ++ leBytes 1 (b2n x.await.isSome) ++ leBytes 1 0 ++
        leBytes 4 (unsigned 32 x.hwm) ++ leBytes 4 (c.get (Reg.CRN_HEAD_FIRED_INDEX h)) ++
        leBytes 4 (SMap.get 0 h c.nextIndex + 2 ^ 32 - 1) ++ leBytes 4 ((x.await.map (·.k)).getD 0) ++
        leBytes 4 (unsigned 32 x.lo) ++ leBytes 4 (unsigned 32 x.hi) ++ leBytes 4 (SMap.get 0 band x.crcs)

/-- Entries of a table that differ from what the previous firn carried; all of them in a full firn. -/
def changedIn (full : Bool) (d : Ver) (old now : SMap Ver) : List (Nat × Ver) :=
  (now.filter fun e => full || decide (SMap.get d e.1 old ≠ e.2)) ++
    (old.filter fun e => decide (SMap.get d e.1 now = d ∧ e.2 ≠ d)).map fun e => (e.1, d)

/-- Versions of one entry in a firn: in force, band value with its b*, arming value (R203, R435). -/
def verBytes (table : Nat) (e : Nat × Ver) : List Byte :=
  let b := match e.2.band with
    | some x => leBytes 8 x.value ++ leBytes 4 (x.start.getD 0xFFFFFFFF)
    | none => []
  let a := match e.2.arming with
    | some x => leBytes 8 x.1
    | none => []
  leBytes 1 table ++ leBytes 1 (b2n e.2.band.isSome) ++ leBytes 1 (b2n e.2.arming.isSome) ++ leBytes 1 0 ++ leBytes 4 e.1 ++
    leBytes 8 e.2.force ++ b ++ a

/-- Section 3 of a firn. -/
def Chip.tableSection (c : Chip) (full : Bool) : List Byte :=
  (changedIn full { force := 0 } c.tdm.nzt c.nzt).flatMap (verBytes 0) ++
    (changedIn full { force := 0 } c.tdm.sub c.sub).flatMap (verBytes 1) ++
    (changedIn full { force := identityMap } c.tdm.grey c.grey).flatMap (verBytes 2)

/-- Rows whose HSCORE in force differs from what the previous firn carried; all of them in a full firn (R326). -/
def Chip.scoresChanged (c : Chip) (full : Bool) : List (Nat × Nat) :=
  ((changedIn full { force := 0 } c.tdm.nzt c.nzt).filter fun e =>
    full || decide (ntScore e.2.force ≠ ntScore (SMap.get { force := 0 } e.1 c.tdm.nzt).force)).map fun e => (e.1, ntScore e.2.force)

/-- Section 4 of a firn: the layer last evaluated, run counts and HSCOREs changed (R326); all ones stand for no layer yet. -/
def Chip.healSection (c : Chip) (full : Bool) : List Byte :=
  let old := c.tdm.runs
  let now := (c.runCounts.filter fun e => full || decide (SMap.get 0 e.1 old ≠ e.2)) ++
    (old.filter fun e => decide (SMap.get 0 e.1 c.runCounts = 0)).map fun e => (e.1, 0)
  leBytes 4 (c.healEvaluated.getD 0xFFFFFFFF) ++ leBytes 4 now.length ++
    (now.flatMap fun e => leBytes 4 e.1 ++ leBytes 4 e.2) ++
    (c.scoresChanged full).flatMap fun e => leBytes 4 e.1 ++ leBytes 4 e.2

/-- Section 8 of a firn: the crevasse entries of the layer so far. -/
def Chip.mapSection (c : Chip) : List Byte :=
  match c.run with
  | some r => r.entries.flatMap fun (e : Crevasse) => leBytes 1 e.head ++ leBytes 1 e.cause ++ leBytes 2 e.firstGroup ++
      leBytes 2 e.groups ++ leBytes 2 0 ++ leBytes 4 (unsigned 32 e.first) ++ leBytes 4 e.count
  | none => []

/-- The bytes of a firn (R435). kind: 0 band end, 1 layer end, 2 idle, 3 full. -/
def Chip.firnBytes (c : Chip) (kind band : Nat) : List Byte :=
  let full := decide (kind = 3)
  let body := firnSection 1 c.estBytes ++ firnSection 2 (c.headBytes band) ++ firnSection 3 (c.tableSection full) ++
    firnSection 4 (c.healSection full) ++ firnSection 5 c.axisBytes ++ firnSection 6 c.slotBytes ++ firnSection 7 c.ringBytes ++
    firnSection 8 c.mapSection
  leBytes 4 0x4E524946 ++ leBytes 1 1 ++ leBytes 1 kind ++ leBytes 2 8 ++ leBytes 4 c.tdm.firnNext ++ leBytes 4 c.armedNum ++
    leBytes 4 (if kind = 0 then band else 0xFFFFFFFF) ++ leBytes 4 (0x40 + body.length) ++ leBytes 8 c.now.toNat ++
    leBytes 4 c.tdm.logSeq ++ leBytes 28 0 ++ body

/-- R434: an OWNER takes a firn and queues it for compression. -/
def Chip.takeFirn (c : Chip) (kind band : Nat) : Chip :=
  if c.get Reg.TDM_STATUS_STATE ≠ 2 then c
  else
    let n := c.tdm.firnNext
    let body := c.firnBytes kind band
    let c := (c.put Reg.TDM_FIRN_SEQ n).put Reg.TDM_FIRN_BYTES_BYTES body.length
    let c := if kind = 3 then c.forgetLoads else c
    let c := c.setTdm { c.tdm with firnNext := (n + 1) % 2 ^ 32, nzt := c.nzt, sub := c.sub, grey := c.grey, runs := c.runCounts }
    c.compressItem true ⟨c.get Reg.TDM_REPORT_PORT, c.get Reg.TDM_REPORT_RING, 0x10, 0, 0, 0, 0, body, 0, []⟩

/-- The firns of a layer completion: layer end, and a full one where it has been asked for (R429, R434). -/
def Chip.layerFirns (c : Chip) : Chip :=
  let c := c.takeFirn 1 0xFFFFFFFF
  if c.tdm.fullWanted then (c.setTdm { c.tdm with fullWanted := false }).takeFirn 3 0xFFFFFFFF else c

/-- R445 step 1: at a layer completion with every axis at rest, a secondary that owns and is asked for take-back arms no
further layer. -/
def Chip.holdForTakeback (c : Chip) : Chip :=
  if c.get Reg.TDM_STATUS_STATE = 2 ∧ c.flag Reg.TDM_STATUS_PRI = false ∧ c.flag Reg.TDM_STATUS_TAKEBACK_REQ = true ∧
      c.get Reg.MOT_STATUS_MOVING = 0 then
    c.setTdm { c.tdm with hold := true }
  else c

end Sys2Proof.Machine
end

