-- ==== Sys2Proof/Machine/Cornice.lean ====
section
/-! DEFINITION. Machine/Cornice.lean: layers (R147 to R151, R531), the position estimator (R152 to R156), issuing shots
(R141 to R146, R157 to R162, R191), retime and calve (R163 to R169), the governor limit (R170), and the crevasse map
(R171 to R173). -/

namespace Sys2Proof.Machine

/-! ### The estimator -/

/-- The integer square root, bit by bit from 2^(bits − 1) down. -/
def isqrt (n : Nat) : Nat → Nat → Nat
  | 0, r => r
  | k + 1, r => isqrt n k (if (r + 2 ^ k) * (r + 2 ^ k) ≤ n then r + 2 ^ k else r)

/-- A square root of a rational not below 0, rounded down to 2^-160. -/
def ratSqrt (q : Rat) : Rat := mkRat (isqrt (q.num.toNat * 2 ^ 320 / q.den) 256 0) (2 ^ 160)

/-- The free error of one prediction, within ±0.25 ns (R153), in 2^-16 ns. -/
def predictError (draw : Nat) (x : Int) : Int :=
  (Config.freeNat (draw * 2 ^ 64 + (unsigned 64 x)) % 32767 : Nat) - 16383

/-- predict() of R153 for a count in 1/65,536 counts: the unwrapped time in 2^-16 ns, or none for UNREACHABLE. -/
def Estimator.predict (e : Estimator) (x16 : Int) : Option Int :=
  let d : Rat := mkRat x16 65536 - e.fitC
  let q := e.fitV * e.fitV + 2 * e.fitA * d
  if e.fitted = false ∨ e.fitV ≤ 0 ∨ q < 0 then none
  else
    let den := e.fitV + ratSqrt q
    some (e.fitT + (2 * d / den).floor + predictError e.draw x16)

/-- The fit of R153 over a full window: velocity and acceleration, or none where a divisor is 0. -/
def fitOf (w : List (Int × Int)) : Option (Rat × Rat) :=
  let h := w.length / 2
  match w.head?, w[h - 1]?, w[h]?, w.getLast? with
  | some a, some b, some c, some d =>
    if b.2 = a.2 ∨ d.2 = c.2 then none
    else
      let va : Rat := mkRat (b.1 - a.1) 1 / (b.2 - a.2)
      let vb : Rat := mkRat (d.1 - c.1) 1 / (d.2 - c.2)
      let ma : Rat := mkRat (a.2 + b.2) 2
      let mb : Rat := mkRat (c.2 + d.2) 2
      if mb = ma then none
      else
        let acc := (vb - va) / (mb - ma)
        some (vb + acc * (d.2 - mb), acc)
  | _, _, _, _ => none

/-- W of R153. -/
def Chip.window (c : Chip) : Nat := 2 ^ c.get Reg.CRN_EST_CFG_WIN_LOG2

/-- VMIN in counts per 2^-16 ns (R154). -/
def Chip.vmin (c : Chip) : Rat :=
  mkRat (c.get Reg.CRN_VMIN_LPS * c.get Reg.CRN_PITCH_COUNTS) (65536 * 65536 * 1000000000)

/-- R154: the estimator is valid. -/
def Chip.estValid (c : Chip) : Bool :=
  !c.est.back && decide (c.est.window.length = c.window) && c.est.fitted && decide (c.vmin ≤ c.est.fitV)

/-- CRN.STATUS.EST_VALID, EST_POS and EST_VEL follow the estimator. -/
def Chip.showEst (c : Chip) : Chip :=
  let v := c.estValid
  let pitch := c.get Reg.CRN_PITCH_COUNTS
  let lps : Int := if v ∧ pitch ≠ 0 then (c.est.fitV * (65536 * 1000000000 * 65536 * 256) / pitch).floor else 0
  ((c.putB Reg.CRN_STATUS_EST_VALID v).putI Reg.CRN_EST_POS_COUNT (c.est.ext.getD 0)).putSat Reg.CRN_EST_VEL_VEL lps

/-- The estimator as it starts at commit, after reset and after a count write (R152). -/
def Chip.restartEst (c : Chip) : Chip := { c with est := { draw := c.est.draw, gaps := c.est.gaps } }.showEst

/-- A stamp as an unwrapped time near the window's newest entry. -/
def Estimator.unwrap (e : Estimator) (t : ET) : Int :=
  match e.window.getLast? with
  | some w => w.2 + wrapDiff t (BitVec.ofInt 64 w.2)
  | none => (t.toNat : Int)

/-- Forward progress (R152): an entry pushed, the oldest dropped beyond W, and the fit renewed (R153). -/
def Chip.pushEst (c : Chip) (n : Int) (t : ET) : Chip :=
  let e := c.est
  let u := e.unwrap t
  let w := e.window ++ [(n, u)]
  let w := w.drop (w.length - c.window)
  let e := { e with ext := some n, tExt := t, window := w, lastFwd := c.clk }
  let e := if w.length < c.window then { e with fitted := false }
    else match fitOf w with
      | some (v, a) => { e with fitV := v, fitA := a, fitC := n, fitT := u, fitted := true, draw := c.fresh }
      | none => e
  { c with est := e, fresh := c.fresh + 1 }

/-! ### The crevasse map -/

/-- Lines entered with a shot-level cause, kept as ranges in order. -/
def addLines (first : Int) (count : Nat) : List (Int × Nat) → List (Int × Nat)
  | [] => [(first, count)]
  | r :: l =>
    if r.1 + r.2 = first then (r.1, r.2 + count) :: l
    else if first < r.1 then (first, count) :: r :: l
    else r :: addLines first count l

/-- Whether a line has been entered with a shot-level cause. -/
def HeadRun.isEntered (x : HeadRun) (f : Int) : Bool := x.entered.any fun r => decide (r.1 ≤ f ∧ f < r.1 + r.2)

/-- The first line at or above f that is not entered. -/
def HeadRun.skipEntered (x : HeadRun) (f : Int) : Int :=
  x.entered.foldl (fun f r => if r.1 ≤ f ∧ f < r.1 + r.2 then r.1 + r.2 else f) f

/-- The run of the armed layer changed. -/
def Chip.onRun (c : Chip) (f : Run → Run) : Chip := { c with run := c.run.map f }

/-- R171, R172: lines entered in the crevasse map, joined to the last entry where they follow it. With its 8,192nd entry the map
is full: every further line adds to OVERFLOW. -/
def Chip.enterMap (c : Chip) (h cause firstGroup groups : Nat) (first : Int) (count : Nat) : Chip :=
  match c.run with
  | none => c
  | some r =>
    let firstEver := r.entries.isEmpty
    let joins := match r.entries.getLast? with
      | some e => decide (e.head = h ∧ e.cause = cause ∧ e.firstGroup = firstGroup ∧ e.groups = groups ∧
          e.first + e.count = first)
      | none => false
    let c := c.put Reg.CRN_STATUS_FLAWED 1
    let c := c.logFire 3 h cause first count
    if 8192 ≤ r.entries.length then
      c.onRun fun r => { r with overflow := (r.overflow + count * groups) % 2 ^ 32 }
    else if joins then
      c.onRun fun r => { r with entries := r.entries.dropLast ++
        (r.entries.getLast?.map fun e => { e with count := e.count + count }).toList }
    else
      let full := decide (r.entries.length = 8191)
      let c := c.onRun fun r => { r with
        entries := r.entries ++ [Crevasse.mk h cause firstGroup groups first count]
        truncTold := r.truncTold || full }
      let c := if firstEver then c.raise 33 0 [] else c
      if full ∧ r.truncTold = false then (c.put Reg.CRN_STATUS_TRUNC 1).raise 41 0 [] else c

/-- Lines of a head entered with a shot-level cause: all its groups (R168, R171). -/
def Chip.enterLines (c : Chip) (h cause : Nat) (first : Int) (count : Nat) : Chip :=
  if count = 0 then c
  else
    let x := c.headRun h
    (c.setHead h { x with entered := addLines first count x.entered }).enterMap h cause 0 (c.gOf h / 32) first count

/-! ### Firing lines, spans and codes -/

/-- x(h, F) of R141 in 1/65,536 counts, with the origin and offset latched at arming. -/
def Chip.lineX (c : Chip) (h : Nat) (f : Int) : Int :=
  match c.run with
  | some r => r.origin * 65536 + (f + SMap.get 0 h r.hofs) * c.get Reg.CRN_PITCH_COUNTS
  | none => 0

/-- p(F): the predicted crossing of a firing line (R144). -/
def Chip.predictLine (c : Chip) (h : Nat) (f : Int) : Option Int := c.est.predict (c.lineX h f)

/-- The predicted crossing of a line no further than HORIZON lines beyond the current position (R156). -/
def Chip.predictAhead (c : Chip) (h : Nat) (f : Int) : Option Int :=
  let far := c.est.ext.getD 0 * 65536 + (c.get Reg.CRN_EST_CFG_HORIZON : Int) * c.get Reg.CRN_PITCH_COUNTS
  if far < c.lineX h f then none else c.predictLine h f

/-- The predicted period at a line whose crossing is p (R144). -/
def Chip.periodAt (c : Chip) (h : Nat) (f p : Int) : Int :=
  match c.predictLine h (f + 1) with
  | some q => q - p
  | none =>
    let v : Rat := c.est.fitV + c.est.fitA * (p - c.est.fitT)
    if v ≤ 0 then 0 else (mkRat (c.get Reg.CRN_PITCH_COUNTS) 65536 / v).floor

/-- Lines of the armed layer. -/
def Chip.layerLines (c : Chip) : Int :=
  match c.armed with
  | some l => 1024 * (l.bands : Int)
  | none => 0

/-- The substitution pairs in force (R189): served row, its SUB entry. An entry that names the nozzle it serves counts as
not VALID (R188). -/
def Chip.subPairs (c : Chip) : List (Nat × Nat) :=
  let rows := (c.nzt.filter fun e => ntSubst e.2.force).map (·.1)
  (List.range rows.length).map fun k =>
    let row := rows.getD k 0
    let sb := (c.subVer k).force
    (row, if c.sbLive row sb then sb else sb % 2 ^ 31)

/-- TOFS of a substitution (R190): the substitute's line offset and the extra one. -/
def Chip.tofs (c : Chip) (sb : Nat) : Int :=
  ntLofs (c.nztVer (c.nbase (sbHead sb) + sbNozzle sb)).force + sbXofs sb

/-- The line offsets that fix a head's span (R143, R193). -/
def Chip.spanOffsets (c : Chip) (h : Nat) : List Int :=
  let own := ((List.range (c.get (Reg.HED_HEAD_CFG_NOZZLES h))).map fun n => (c.nztVer (c.nbase h + n)).force).filter
    fun v => stPrints (ntState v)
  (own.map ntLofs) ++ ((c.subPairs.filter fun q => sbValid q.2 && decide (sbHead q.2 = h)).map fun q => c.tofs q.2)

/-- The least and largest of some integers; 0 and 0 of none (R143). -/
def minMax : List Int → Int × Int
  | [] => (0, 0)
  | a :: l => l.foldl (fun b x => (min b.1 x, max b.2 x)) (a, a)

/-- Byte and nibble of a code in a slab (R117). -/
def codeIn (g : Nat) (bytes : List Byte) (line n : Nat) : Nat :=
  bits (bytes.getD (line * (g / 2) + n / 2) 0).toNat (4 * (n % 2)) 4

/-- code(h, r) of R191: the requested code of nozzle n of head h at raster line r; 0 outside the layer, for a slab
missing or not valid, and for a poisoned unit. -/
def Chip.codeAt (c : Chip) (h n : Nat) (r : Int) : Nat :=
  match c.armed with
  | none => 0
  | some l =>
    if r < 0 ∨ 1024 * (l.bands : Int) ≤ r then 0
    else
      let line := r.toNat
      let x := l.slab h (line / 128)
      let unit := 8192 * (line % 128) + n / 128
      if x.missing ∨ x.valid = false ∨ x.poison.contains unit ∨ x.poisonTold.contains unit then 0
      else codeIn (c.gOf h) x.bytes (line % 128) n

/-- Whether a head counts as out of firing for the raster lines of a band that a substitute's head would carry (R240). -/
def HeadRun.outAt (x : HeadRun) (q : Nat) (b : Int) : Bool := x.outFrom.any fun e => decide (e.1 = q ∧ (e.2 : Int) ≤ b)

/-- One emitted code: the code, the row it is credited to, and the served rows and slabs it read (R191, R309). -/
def Chip.emitCode (c : Chip) (pairs : List (Nat × Nat)) (h n : Nat) (f : Int) : Nat × Nat :=
  let row := c.nbase h + n
  let own := c.nztVer row
  let r := f - ntLofs own.force
  let e := own.forBand (bandOf r)
  if !stPrints (ntState e) then (0, row)
  else
    let t := if ntState e = 0 then ntGtab e
      else bits (c.get64 Reg.CRN_WEAK_MAP_LO_MAP Reg.CRN_WEAK_MAP_HI_MAP) (4 * ntGtab e) 4
    let req := c.codeAt h n r
    let x := c.headRun h
    let best := pairs.foldl (fun (b : Nat × Nat × Nat) q =>
      if sbValid q.2 ∧ sbHead q.2 = h ∧ sbNozzle q.2 = n then
        let rq := f - c.tofs q.2
        let qh := c.rowHead q.1
        let qe := (c.nztVer q.1).forBand (bandOf rq)
        let served := !stPrints (ntState qe) || x.outAt qh (bandOf rq)
        if served then
          let code := c.codeAt qh (q.1 - c.nbase qh) rq
          if b.1 < code then
            (code, q.1, bits ((c.greyVer (sbGtab q.2) qh).forBand (bandOf rq)) (4 * max req code) 4)
          else b
        else b
      else b) (0, row, 0)
    if best.1 = 0 then (bits ((c.greyVer t h).forBand (bandOf r)) (4 * req) 4, row)
    else (best.2.2, best.2.1)

/-- Emitted codes and credited rows of a shot, position by position to G (R117, R191). -/
def Chip.shotCodes (c : Chip) (h : Nat) (f : Int) : List (Nat × Nat) :=
  let pairs := c.subPairs
  let n := c.get (Reg.HED_HEAD_CFG_NOZZLES h)
  (List.range (c.gOf h)).map fun k => if k < n then c.emitCode pairs h k f else (0, c.nbase h + k)

/-- Codes packed two to a byte (R117). -/
def packCodes : List Nat → List Byte
  | a :: b :: l => BitVec.ofNat 8 (a + 16 * b) :: packCodes l
  | [a] => [BitVec.ofNat 8 a]
  | [] => []

/-- Whether a row's nozzle prints in the shot for a firing line, on its entry in the version of the raster line it reads
(R191). -/
def Chip.printsAt (c : Chip) (row : Nat) (f : Int) : Bool :=
  let v := c.nztVer row
  stPrints (ntState (v.forBand (bandOf (f - ntLofs v.force))))

/-- Whether the raster line of a pair's served nozzle is carried by its substitute on head h: the nozzle does not print it, or
counts as retired there (R190, R240). -/
def Chip.servesLine (c : Chip) (h : Nat) (q : Nat × Nat) (r : Int) : Bool :=
  sbValid q.2 && decide (sbHead q.2 = h) &&
    (!stPrints (ntState ((c.nztVer q.1).forBand (bandOf r))) || (c.headRun h).outAt (c.rowHead q.1) (bandOf r))

/-- The raster lines that a head's own printing nozzles read in the shot for a firing line, with the 64-byte unit of each,
without repeats (R117, R142). -/
def Chip.ownReads (c : Chip) (h : Nat) (f : Int) : List (Int × Nat) :=
  (((List.range (c.get (Reg.HED_HEAD_CFG_NOZZLES h))).filter fun n => c.printsAt (c.nbase h + n) f).map fun n =>
    (f - ntLofs (c.nztVer (c.nbase h + n)).force, n / 128)).dedup

/-- What a head's printing nozzles read of other nozzles they serve in the shot for a firing line: the served head, the raster
line and the unit (R190, R191). -/
def Chip.servedReads (c : Chip) (h : Nat) (f : Int) : List (Nat × Int × Nat) :=
  ((c.subPairs.filter fun q => c.servesLine h q (f - c.tofs q.2) && c.printsAt (c.nbase h + sbNozzle q.2) f).map fun q =>
    (c.rowHead q.1, f - c.tofs q.2, (q.1 - c.nbase (c.rowHead q.1)) / 128)).dedup

/-- The offsets at which the firing lines of head g read a raster line of head h: its own nozzles' where they are one, and those
of its substitutes for nozzles of h (R142, R190). -/
def Chip.readOffsets (c : Chip) (g h : Nat) (r : Int) : List Int :=
  (if g = h then ((List.range (c.get (Reg.HED_HEAD_CFG_NOZZLES h))).filter fun n =>
      stPrints (ntState ((c.nztVer (c.nbase h + n)).forBand (bandOf r)))).map fun n => ntLofs (c.nztVer (c.nbase h + n)).force
    else []) ++
    (c.subPairs.filter fun q => decide (c.rowHead q.1 = h) && c.servesLine g q r).map fun q => c.tofs q.2

/-- A MISSING or POISON entry for raster lines of a head: the bands of firing lines that read them are not compared (R437). A
substitute's head reads them too (DEDUCED: log entry 82). -/
def Chip.skipBands (c : Chip) (h : Nat) (r : Int) (count : Nat) : Chip :=
  ((List.range 48).filter c.inArmed).foldl (fun c g =>
    let bands := (c.readOffsets g h r).flatMap fun o => [bandOf (r + o), bandOf (r + count - 1 + o)]
    let new := ((bands.filter fun b => decide (0 ≤ b)).map Int.toNat).dedup
    let x := c.headRun g
    c.setHead g { x with notCompared := (new.filter fun b => !x.notCompared.contains b) ++ x.notCompared }) c

/-- A slab's first line is read (R160): it is missing if it is not valid. -/
def Chip.readSlab (c : Chip) (h slab : Nat) : Chip :=
  match c.armed with
  | none => c
  | some l =>
    let x := l.slab h slab
    if x.read then c
    else if x.valid then c.setLayer (l.setSlab h slab { x with read := true })
    else
      let l := l.setSlab h slab { x with read := true, missing := true }
      let c := (c.setLayer { l with missing := l.missing + 1 }).skipBands h (128 * (slab : Int)) 128
      let c := c.enterMap h 8 0 (c.gOf h / 32) (128 * (slab : Int)) 128
      (c.raise 19 0 [(4, l.num), (1, h), (4, slab)]).raise 38 8 [(1, h), (4, slab)]

/-- Bands of a head entered by packing its shot that reads a raster line of the layer, of its own or of a head it serves (R160,
R198). -/
def Chip.enterBands (c : Chip) (h : Nat) (r : Int) : Chip :=
  if r < 0 ∨ c.layerLines ≤ r then c
  else
    let b := (bandOf r).toNat + 1
    let old := (c.headRun h).bandsIn
    (List.range (b - old)).foldl (fun c i =>
      (c.setHead h { c.headRun h with bandsIn := old + i + 1 }).applyBand h (old + i)) c

/-- A poisoned unit of a raster line entered as POISON when first read (R160). -/
def Chip.poisonUnit (c : Chip) (h : Nat) (r : Int) (u : Nat) : Chip :=
  match c.armed with
  | none => c
  | some l =>
    let s := r.toNat / 128
    let x := l.slab h s
    let k := 8192 * (r.toNat % 128) + u
    if x.poison.contains k then
      let c := c.setLayer (l.setSlab h s { x with poison := x.poison.filter (fun u => decide (u ≠ k)), poisonTold := x.poisonTold ++ [k] })
      ((c.skipBands h r 1).enterMap h 9 (4 * u) (min 4 (c.gOf h / 32 - 4 * u)) r 1).raise 38 9 [(1, h), (4, r.toNat)]
    else c

/-- Whether a head out of firing counts as retired for a raster line of it that a substitute's head would carry (R240): from
that head's band at the moment it went out, and where no head would carry it at once. -/
def Chip.outRetired (c : Chip) (h : Nat) (sb : Nat) (r : Int) : Bool :=
  (c.headRun h).isOut && (!(sbValid sb && c.inArmed (sbHead sb)) || (c.headRun (sbHead sb)).outAt h (bandOf r))

/-- R192: served nozzles of a head whose drops are lost at this firing line: EV046 the first time for each. -/
def Chip.lostDrops (c : Chip) (h : Nat) (f : Int) : Chip :=
  c.subPairs.foldl (fun c q =>
    if c.rowHead q.1 ≠ h then c
    else
      let n := q.1 - c.nbase h
      let v := c.nztVer q.1
      let r := f - ntLofs v.force
      let e := v.forBand (bandOf r)
      let m := c.nztVer (c.nbase (sbHead q.2) + sbNozzle q.2)
      let mRead := r + c.tofs q.2 - ntLofs m.force
      let carried := sbValid q.2 && stPrints (ntState (m.forBand (bandOf mRead))) && c.inArmed (sbHead q.2) &&
        !(c.headRun (sbHead q.2)).isOut
      let own := stPrints (ntState e) && !c.outRetired h q.2 r
      if own ∨ carried ∨ c.codeAt h n r = 0 ∨ c.lostTold.contains q.1 then c
      else ({ c with lostTold := q.1 :: c.lostTold }).raise 46 0 [(1, h), (2, n)]) c

/-- R192 at a firing line of a head, and for every head out of firing at its own line at the same position (R240). -/
def Chip.losesDrops (c : Chip) (h : Nat) (f : Int) : Chip :=
  let outs := (List.range 48).filter fun g => c.inArmed g && (c.headRun g).isOut
  let hofs := match c.run with
    | some r => r.hofs
    | none => []
  outs.foldl (fun c g => c.lostDrops g (f + SMap.get 0 h hofs - SMap.get 0 g hofs)) (c.lostDrops h f)

/-- EMIT_CRC of R437 carried over one more firing line's emitted codes; lines below 0 lie in no band. -/
def Chip.crcLine (c : Chip) (h : Nat) (f : Int) (codes : List Nat) : Chip :=
  let x := c.headRun h
  if f ≠ x.crcNext then c
  else if f < 0 then c.setHead h { x with crcNext := f + 1 }
  else
    let r := crc32From x.crcNow (packCodes codes)
    let last := decide ((f + 1) % 1024 = 0) || decide (f + 1 = c.layerLines + x.hi)
    let b := (bandOf f).toNat
    c.setHead h { x with
      crcNext := f + 1
      crcNow := if last then 0xFFFFFFFF else r
      crcs := if last then SMap.insert b (r ^^^ 0xFFFFFFFF) (SMap.erase b x.crcs) else x.crcs }

/-- A unit of a raster line of a head is read: the first line of its slab may be, and the unit may be poisoned (R160). -/
def Chip.readUnit (c : Chip) (h : Nat) (r : Int) (u : Nat) : Chip :=
  if r < 0 ∨ c.layerLines ≤ r then c else (c.readSlab h (r.toNat / 128)).poisonUnit h r u

/-- The emitted codes of a firing line with the rows they are credited to, after every effect of reading its raster
lines (R160, R190 to R192, R198, R436). -/
def Chip.formLine (c : Chip) (h : Nat) (f : Int) : Chip × List (Nat × Nat) :=
  let own := c.ownReads h f
  let served := c.servedReads h f
  let c := (own.map (·.1) ++ served.map (·.2.1)).foldl (fun c r => c.enterBands h r) c
  let c := own.foldl (fun c r => c.readUnit h r.1 r.2) c
  let c := served.foldl (fun c q => c.readUnit q.1 q.2.1 q.2.2) c
  let c := c.losesDrops h f
  let codes := c.shotCodes h f
  (c.crcLine h f (codes.map (·.1)), codes)

/-- Emitted codes of lines that are never packed, up to the one before an end, taken into EMIT_CRC (R436, R437); nothing
else reads their raster lines. -/
def Chip.formTo (c : Chip) (h : Nat) (stop : Int) : Chip :=
  let from' := (c.headRun h).crcNext
  (List.range (stop - from').toNat).foldl (fun c i => c.crcLine h (from' + i) ((c.shotCodes h (from' + i)).map (·.1))) c

/-! ### Accounting -/

/-- A lane beyond its registers. -/
def Chip.lane (c : Chip) (n : Nat) : Lane := SMap.get {} n c.lanes

/-- A lane's own data replaced. -/
def Chip.setLane (c : Chip) (n : Nat) (x : Lane) : Chip := { c with lanes := SMap.set {} n x c.lanes }

/-- A head beyond its registers. -/
def Chip.head (c : Chip) (h : Nat) : HeadX := SMap.get {} h c.heads

/-- A head's own data replaced. -/
def Chip.setHeadX (c : Chip) (h : Nat) (x : HeadX) : Chip := { c with heads := SMap.set {} h x c.heads }

/-- A head is idle while it is UP and has no unaccounted shot; its first slot begins 2 ms later (R262). -/
def Chip.markIdle (c : Chip) (h : Nat) : Chip :=
  let x := c.head h
  if (c.headRun h).shots.isEmpty then
    if c.get (Reg.HED_HEAD_STATUS_STATE h) = 5 ∧ x.idleDue.isNone then
      c.setHeadX h { x with idleDue := some (c.clk + 2000000) }
    else c
  else c.setHeadX h { x with idleDue := none }

/-- The calve report awaited from a head (R165): of the armed layer, or of one that has ended (R150). -/
def Chip.awaitOf (c : Chip) (h : Nat) : Option Await := if c.inArmed h then (c.headRun h).await else (c.head h).await

/-- The calve report awaited from a head replaced. -/
def Chip.setAwait (c : Chip) (h : Nat) (a : Option Await) : Chip :=
  if c.inArmed h then c.setHead h { c.headRun h with await := a } else c.setHeadX h { c.head h with await := a }

/-- CRN.HEADn_STATE and HWM follow a head's run. -/
def Chip.showHead (c : Chip) (h : Nat) : Chip :=
  let c := c.markIdle h
  let x := c.headRun h
  let c := (c.putB (Reg.CRN_HEAD_STATE_OUT h) x.isOut).putB (Reg.CRN_HEAD_STATE_AWAIT h) (c.awaitOf h).isSome
  (c.put (Reg.CRN_HEAD_STATE_PENDING h) x.shots.length).putI (Reg.CRN_HEAD_HWM_LINE h) x.hwm

/-- Band buffers of a head released as its high-water mark passes them (R161). -/
def Chip.releaseBands (c : Chip) (h : Nat) : Chip :=
  let x := c.headRun h
  let free := (bandOf (x.hwm - x.hi + 1)).toNat
  let least := match x.shots.head? with
    | some s => (bandOf (s.line - x.hi)).toNat
    | none => free
  c.setHead h { x with released := max x.released (min free least) }

/-- What follows where a head's high-water mark has moved: counters flushed (R310), band buffers released (R161). -/
def Chip.passBands (c : Chip) (h : Nat) (old : Int) : Chip :=
  let moved := decide (bandOf (old + 1) < bandOf ((c.headRun h).hwm + 1))
  (if moved then c.flushHead h else c).releaseBands h

/-- Bands of the armed layer closed over every head not out of firing (R434). -/
def Chip.bandsShut (c : Chip) : Nat :=
  match c.armed, c.run with
  | some l, some r =>
    let live := (List.range 48).filter fun h => inMask l.heads h && !(c.headRun h).isOut
    let least := (minMax (live.map fun h => (c.headRun h).hwm - (c.headRun h).hi)).1
    if live.isEmpty then r.bandsClosed else max r.bandsClosed (floorDiv (least + 1) 1024).toNat
  | _, _ => 0

/-- A standby's own account of what its owner's log and firns tell: band buffers released and bands closed (R432, R434, R436). -/
def Chip.followBands (c : Chip) (h : Nat) : Chip :=
  let c := c.releaseBands h
  c.onRun fun r => { r with bandsClosed := c.bandsShut }

/-- The emitted codes of a band completed on every head of the armed layer, where a partner compares them (R436). -/
def Chip.formBand (c : Chip) (b : Nat) : Chip :=
  match c.armed with
  | some l =>
    if c.flag Reg.GLB_STRAPS_TDM_EN then
      ((List.range 48).filter (inMask l.heads)).foldl (fun c h =>
        c.formTo h (min (1024 * (b + 1 : Nat)) (1024 * (l.bands : Int) + (c.headRun h).hi))) c
    else c
  | none => c

/-- R434: a band-end firn for each band that has closed. -/
def Chip.closeBands (c : Chip) : Chip :=
  match c.run with
  | none => c
  | some r =>
    let shut := c.bandsShut
    let c := (List.range (shut - r.bandsClosed)).foldl (fun c i =>
      (c.formBand (r.bandsClosed + i)).takeFirn 0 (r.bandsClosed + i)) c
    c.onRun fun r => { r with bandsClosed := shut }

/-- Signed difference of two shot indices (R14, R145). -/
def idxDiff (a b : Nat) : Int := wrapDiff (BitVec.ofNat 32 a) (BitVec.ofNat 32 b)

/-- Whether the interval of a shot holds an instant of the 40 ns from a vote to stop (R272). -/
def cutBy (tag : ET) (per : Int) (vote : ET) : Bool :=
  decide (wrapDiff tag vote < 40 * 65536) && decide (0 < wrapDiff tag vote + per)

/-- The credits of a shot into the expected-deposit counters (R162, R309). -/
def Chip.creditAll (c : Chip) (l : List (Nat × Nat)) : Chip := l.foldl (fun c k => c.credit k.1 k.2) c

/-- ET_FIRST and ET_LAST of R173: the tags of the first and the last shot fired, whatever order they are accounted in. -/
def Run.firedAt (r : Run) (tag : ET) : Run :=
  let a := r.etFirst.getD tag
  let b := r.etLast.getD tag
  { r with etFirst := some (if wrapDiff tag a < 0 then tag else a), etLast := some (if wrapDiff tag b < 0 then b else tag) }

/-- fired(j) of R166 for a head's oldest unaccounted shot: deposit credited unless it is MISPLACED (R162, R309), the
high-water mark moved, UNCERTAIN entered where a vote to stop fell in the shot (R272). counted is false for the
accounting of R167. -/
def Chip.firedShot (c : Chip) (h : Nat) (s : Shot) (misplaced counted : Bool) : Chip :=
  let x := c.headRun h
  let old := x.hwm
  let left := s.per + wrapDiff s.tag c.now
  let c := c.setHead h { x with
    shots := x.shots.drop 1
    hwm := max x.hwm s.line
    ending := (x.ending.filter fun (e : Int × ET × Int) => decide (0 < e.2.2 + wrapDiff e.2.1 c.now)) ++
      (if 0 < left ∧ counted then [(s.line, s.tag, s.per)] else []) }
  let c := c.setHeadX h { c.head h with lastTag := some s.tag }
  let c := c.put (Reg.CRN_HEAD_FIRED_INDEX h) s.index
  let c := c.onRun fun r => r.firedAt s.tag
  let c := if counted ∧ misplaced = false then c.creditAll s.credits else c
  let c := c.logFire 1 h 0 s.line s.index
  let c := if misplaced then c.enterLines h 4 s.line 1 else c
  let votes := match c.run with
    | some r => r.votes
    | none => []
  let c := if counted ∧ votes.any (cutBy s.tag s.per) then c.enterLines h 5 s.line 1 else c
  (c.passBands h old).showHead h

/-- Shots up to index f accounted fired, lowest index first (R166). -/
def Chip.firedUpTo (c : Chip) (h f : Nat) : Chip :=
  let x := c.headRun h
  (x.shots.takeWhile fun (s : Shot) => decide (idxDiff s.index f ≤ 0)).foldl (fun c s =>
    let mis := match x.await with
      | some a => match a.tExt with
        | some t => decide (0 ≤ wrapDiff s.tag t)
        | none => false
      | none => false
    c.firedShot h s mis true) c

/-- release(j) of R166 for every unaccounted shot left: their lines are not fired, and their indices retire. -/
def Chip.releaseShots (c : Chip) (h : Nat) : Chip :=
  let x := c.headRun h
  let c := x.shots.foldl (fun c (s : Shot) => c.logFire 2 h 0 s.line s.index) c
  (c.setHead h { x with shots := [] }).showHead h

/-- Lines from a first to below an end that a list of entered ranges leaves out. -/
def gapsIn (first stop : Int) : List (Int × Nat) → List (Int × Nat)
  | [] => if first < stop then [(first, (stop - first).toNat)] else []
  | r :: l =>
    let e := r.1 + r.2
    if stop ≤ r.1 then (if first < stop then [(first, (stop - first).toNat)] else [])
    else if e ≤ first then gapsIn first stop l
    else if first < r.1 then (first, (r.1 - first).toNat) :: gapsIn e stop l
    else gapsIn e stop l

/-- The end of a head's span (R143). -/
def Chip.spanEnd (c : Chip) (h : Nat) : Int := c.layerLines + (c.headRun h).hi

/-- Every line of a head's span above its high-water mark and not yet entered, entered with a cause (R151, R169). -/
def Chip.enterRest (c : Chip) (h cause : Nat) : Chip :=
  let x := c.headRun h
  (gapsIn (x.hwm + 1) (c.spanEnd h) x.entered).foldl (fun c g => c.enterLines h cause g.1 g.2) c

/-- Every unaccounted shot of a head accounted fired and its line entered UNCERTAIN, with EV035 (R167). k is the K of
the calve whose report did not come, 0 where no calve is awaited. -/
def Chip.uncertainShots (c : Chip) (h k : Nat) : Chip :=
  let ss := (c.headRun h).shots
  let c := c.raise 35 0 [(1, h), (4, k), (4, ss.length)]
  let c := ss.foldl (fun c s => (c.firedShot h s false false).enterLines h 5 s.line 1) c
  c.showHead h

/-- A head's accounting is at its end: no report is awaited, and packing goes on above the high-water mark (R168), or the
rest of the span is ABORTED (R151). -/
def Chip.settled (c : Chip) (h : Nat) : Chip :=
  let x := c.headRun h
  let c := (c.setHead h { x with await := none, next := x.hwm + 1 }).showHead h
  match c.run with
  | some r => if r.aborted then c.enterRest h 6 else c
  | none => c

/-! ### Completion (R150) -/

/-- Whether every line of a head's span is decided; after ABORT all reports are in or timed out as well (R151). -/
def Chip.headDone (c : Chip) (h : Nat) : Bool :=
  let x := c.headRun h
  let aborted := match c.run with
    | some r => r.aborted
    | none => false
  x.shots.isEmpty && (x.await.isNone || !aborted) && decide (c.spanEnd h ≤ x.skipEntered (x.hwm + 1))

/-- The heads of the armed layer. -/
def Chip.layerHeads (c : Chip) : List Nat := (List.range 48).filter c.inArmed

/-- MISSING of a layer (R97, R160): blocks counted missing when read, and blocks never delivered nor read. -/
def Layer.missingCount (l : Layer) : Nat :=
  let heads := ((List.range 48).filter fun h => inMask l.heads h).length
  let readUndelivered := (l.slabs.filter fun e => e.2.missing && !SMap.get false e.1 l.delivered).length
  l.missing + (8 * l.bands * heads - l.delivered.length - readUndelivered)

/-- An entry of the layer report (R173). -/
def Crevasse.bytes (e : Crevasse) : List Byte :=
  leBytes 1 e.head ++ leBytes 1 e.cause ++ leBytes 2 e.firstGroup ++ leBytes 2 e.groups ++ leBytes 2 0 ++
    leBytes 4 (unsigned 32 e.first) ++ leBytes 4 e.count

/-- FLAGS of the layer report (R173). -/
def Chip.reportFlags (c : Chip) (r : Run) : Nat :=
  b2n (!r.entries.isEmpty) + 2 * b2n r.aborted + 4 * b2n (c.flag Reg.CRN_STATUS_TRUNC)

/-- The layer report (R173). -/
def Chip.layerReport (c : Chip) (l : Layer) (r : Run) : List Byte :=
  leBytes 4 l.num ++ leBytes 4 (c.reportFlags r) ++ leBytes 8 l.heads ++ leBytes 4 l.bands ++ leBytes 4 r.entries.length ++
    leBytes 8 ((r.etFirst.getD 0).toNat) ++ leBytes 8 ((r.etLast.getD 0).toNat) ++ leBytes 4 r.overflow ++
    leBytes 4 r.calves ++ leBytes 4 r.skipped ++ leBytes 12 0 ++ r.entries.flatMap Crevasse.bytes

/-- CRN.STATUS.NEXT follows the registered layers. -/
def Chip.showNext (c : Chip) : Chip := c.putB Reg.CRN_STATUS_NEXT (decide (2 ≤ c.layers.length))

/-- The cornice is IDLE, and the armed layer is registered no more; its jobs that have not ended are stale (R134, R150). A calve
report still awaited stays awaited (R165). -/
def Chip.disarm (c : Chip) (l : Layer) : Chip :=
  let c := c.layerHeads.foldl (fun c h => c.setHeadX h { c.head h with await := (c.headRun h).await }) c
  let c := (((c.put Reg.CRN_STATUS_STATE 0).put Reg.CRN_STATUS_FLAWED 0).put Reg.CRN_STATUS_TRUNC 0).put Reg.CRN_LAYER_LAYER 0
  let c := c.layerHeads.foldl (fun c h => ((c.put (Reg.CRN_HEAD_STATE_IN_LAYER h) 0).put (Reg.CRN_HEAD_STATE_OUT h) 0).put
    (Reg.CRN_HEAD_STATE_PENDING h) 0) c
  let c := ((c.put Reg.CRN_PMIN_NS 0).put Reg.CRN_GOV_LIMIT_LPS 0).staleJobs l.num
  { c with
    run := none
    layers := c.layers.filter fun (m : Layer) => decide (m.num ≠ l.num) }

/-- The armed layer has completed: LAYER_CLOSE finds it among the 16 that completed most recently (R531). -/
def Chip.leaveLayer (c : Chip) (l : Layer) : Chip :=
  let c := c.disarm l
  { c with recent := ((l.num, l.missingCount) :: c.recent.filter fun (e : Nat × Nat) => decide (e.1 ≠ l.num)).take 16 }

/-- Every registered layer discarded; each counts as never registered (R439, R531). -/
def Chip.discardLayers (c : Chip) : Chip :=
  let c := match c.armed with
    | some l => c.disarm l
    | none => c
  let c := c.layers.foldl (fun (c : Chip) (l : Layer) => c.staleJobs l.num) c
  ({ c with layers := [] }).showNext

/-- R150: the armed layer completes. -/
def Chip.completeLayer (c : Chip) : Chip :=
  match c.armed, c.run with
  | some l, some r =>
    let heads := c.layerHeads
    let c := heads.foldl (fun c h => c.flushHead h) c
    let spoilt := (r.entries.filter fun (e : Crevasse) => decide (e.cause = 4 ∨ e.cause = 5)).map
      fun (e : Crevasse) => (e.head, e.firstGroup, e.groups)
    let outs := heads.filter fun h => (c.headRun h).isOut
    let c := (heads.foldl (fun c h => if c.flag Reg.GLB_STRAPS_TDM_EN then c.formTo h (c.spanEnd h) else c) c).layerFirns
    let c := c.queueState (c.get Reg.CRN_REPORT_PORT) (c.get Reg.CRN_REPORT_RING) 0x12 (c.layerReport l r)
    let c := (c.put Reg.ETM_STATUS_INLAYER 0).raise 32 0 [(4, l.num), (4, c.reportFlags r), (4, r.entries.length)]
    let c := c.raiseIf r.aborted 42 0 []
    let trunc := c.flag Reg.CRN_STATUS_TRUNC
    let c := c.leaveLayer l
    (((c.applyRest l.num).showNext).openWindow l.num l.bands l.heads outs r.aborted trunc spoilt r.accSet).holdForTakeback
  | _, _ => c

/-- The armed layer completes if every line of every head is decided. A standby's follows the owner's firns. -/
def Chip.tryComplete (c : Chip) : Chip :=
  if c.owns = false then c
  else
  let c := c.closeBands
  if c.run.isSome ∧ c.layerHeads.all c.headDone then c.completeLayer else c

/-! ### Calves (R164 to R169) -/

/-- A CALVE queued for a head's lane (R165): a report is awaited, a lower K awaited already stands, and shots at or above
K that are kept for replay become VOID (R237). -/
def Chip.calveHead (c : Chip) (h k trigger : Nat) (tExt : Option ET) : Chip :=
  let x := c.headRun h
  let k := match x.await with
    | some a => if idxDiff a.k k < 0 then a.k else k
    | none => k
  let tExt := match x.await with
    | some a => if a.tExt.isSome then a.tExt else tExt
    | none => tExt
  let a : Await := ⟨k, trigger, c.clk + 1000 * c.get Reg.CRN_CALVE_TO_US, c.clk + 20000, tExt⟩
  let l := c.lane h
  let kept := l.kept.map fun (q : Kept) => match q.shot with
    | some s => if 0 ≤ idxDiff s.index k then { q with voided := true } else q
    | none => q
  ((c.setHead h { x with await := some a }).setLane h { l with calves := l.calves ++ [(k, trigger)], kept := kept }).showHead h

/-- The first shot a trigger for all heads cuts (R164): STALL 3, REVERSAL 4, GATE 5, ABORT 6. -/
def Chip.firstCut (c : Chip) (h trigger : Nat) (tExt : ET) : Option Nat :=
  let lim := c.now + BitVec.ofNat 64 (65536 * c.get Reg.CRN_LEAD_CALVE_LEAD)
  ((c.headRun h).shots.find? fun (s : Shot) =>
    if trigger = 3 then decide (0 ≤ wrapDiff s.tag lim)
    else if trigger = 4 then decide (0 ≤ wrapDiff s.tag tExt)
    else true).map (·.index)

/-- A trigger that applies to all heads (R164): CALVEs, HELD, EV034; a GATE marks the lines that follow (R168). A standby
has no shot of its own to cut (R436). -/
def Chip.triggerAll (c : Chip) (trigger : Nat) (tExt : ET) : Chip :=
  if c.owns = false then c.put Reg.CRN_STATUS_STATE 3
  else
  let heads := c.layerHeads.filter fun h => !(c.headRun h).isOut
  let cuts := heads.filterMap fun h => (c.firstCut h trigger tExt).map fun k => (h, k)
  let c := if trigger = 5 then heads.foldl (fun c h => c.setHead h { c.headRun h with gateRun := true }) c else c
  let c := cuts.foldl (fun c x => c.calveHead x.1 x.2 trigger (if trigger = 4 then some tExt else none)) c
  let c := if cuts.isEmpty then c else c.onRun fun r => { r with calves := r.calves + 1 }
  (c.put Reg.CRN_STATUS_STATE 3).raise 34 0 [(1, trigger)]

/-- STOP_PREDICTED (1) or SPACING (2) on one head. -/
def Chip.triggerHead (c : Chip) (h trigger k : Nat) : Chip :=
  (c.calveHead h k trigger none).onRun fun r => { r with calves := r.calves + 1 }

/-- The nozzles of a head gone out of firing count as retired from each substitute head's band not yet entered (R240). -/
def Chip.outBands (c : Chip) (h : Nat) : Chip :=
  c.layerHeads.foldl (fun c g =>
    if g = h then c
    else
      let x := c.headRun g
      c.setHead g { x with outFrom := (h, x.bandsIn) :: x.outFrom }) c

/-- R169: a head is taken out of firing for the rest of the layer. -/
def Chip.takeOut (c : Chip) (h : Nat) : Chip :=
  if c.owns = false ∨ !c.inArmed h ∨ (c.headRun h).isOut then c
  else
    let x := c.headRun h
    let k := match x.await with
      | some a => a.k
      | none => 0
    let c := (c.setHead h { x with isOut := true, waits := false }).outBands h
    let c := if x.shots.isEmpty then c else c.uncertainShots h k
    let c := c.setHead h { c.headRun h with await := none }
    ((c.enterRest h 7).showHead h).tryComplete

/-- CRN.CTRL.ABORT (R151). -/
def Chip.abortLayer (c : Chip) : Chip :=
  if c.run.isNone ∨ c.owns = false then c
  else
    let c := c.onRun fun r => { r with aborted := true }
    let c := c.triggerAll 6 0
    let idle := c.layerHeads.filter fun h => (c.headRun h).await.isNone
    (idle.foldl (fun c h => c.enterRest h 6) c).tryComplete

/-- A calve report taken (R166): what is left after f is released. -/
def Chip.calveReport (c : Chip) (h k : Nat) : Chip :=
  match c.awaitOf h with
  | none => c
  | some a =>
    if a.k ≠ k then c
    else if c.inArmed h then (c.releaseShots h).settled h
    else (c.setAwait h none).showHead h

/-- Model time at which ET passes or passed an instant, to the nanosecond. -/
def Chip.clkOf (c : Chip) (t : ET) : Nat :=
  if later t c.now then c.clk + c.nsUntil t else c.clk - (wrapDiff c.now t / 65536).toNat

/-- Model time at which a head's report is overdue (R167): CALVE_TO after the later of the issue of the CALVE and the tag
of shot K − 1, unaccounted or the last accounted fired. -/
def Chip.reportDue (c : Chip) (h : Nat) (a : Await) : Nat :=
  match ((c.headRun h).shots.filter fun (s : Shot) => decide (idxDiff s.index a.k < 0)).getLast? with
  | some s => max a.due (c.clkOf s.tag + 1000 * c.get Reg.CRN_CALVE_TO_US)
  | none =>
    match (c.head h).lastTag with
    | some t =>
      if (c.get (Reg.CRN_HEAD_FIRED_INDEX h) + 1) % 2 ^ 32 = a.k then max a.due (c.clkOf t + 1000 * c.get Reg.CRN_CALVE_TO_US)
      else a.due
    | none => a.due

/-- R167: no report has come. After its layer's end no shot is left to account for. -/
def Chip.calveOverdue (c : Chip) (h : Nat) : Chip :=
  if c.owns = false then c
  else
    match c.awaitOf h with
    | none => c
    | some a =>
      let c := c.advanceTo (c.reportDue h a)
      if c.inArmed h then ((c.uncertainShots h a.k).settled h).tryComplete
      else ((c.setAwait h none).raise 35 0 [(1, h), (4, a.k), (4, 0)]).showHead h

/-- R226: the CALVE goes again while its report is awaited and not overdue. -/
def Chip.calveAgain (c : Chip) (h : Nat) : Chip :=
  match c.awaitOf h with
  | none => c
  | some a =>
    if c.reportDue h a ≤ a.again ∨ c.owns = false then c
    else
      let c := c.advanceTo a.again
      let l := c.lane h
      (c.setAwait h (some { a with again := a.again + 20000 })).setLane h
        { l with calves := l.calves ++ [(a.k, a.trigger)] }

/-! ### Retime (R163) -/

/-- p(i) of R163 for the shot of an index, if it is unaccounted and reachable. -/
def Chip.predictShot (c : Chip) (h : Nat) (l : List Shot) (i : Nat) : Option Int :=
  match l.find? fun (s : Shot) => decide (s.index = i % 2 ^ 32) with
  | some s => c.predictLine h s.line
  | none => none

/-- The tags and periods a RETIME gives shot j + m and those that follow it index by index (R163). -/
def retimeFrom (t0 p d : Int) (j : Nat) : Nat → List Shot → List Shot
  | _, [] => []
  | m, s :: l =>
    if s.index = (j + m) % 2 ^ 32 then
      { s with tag := BitVec.ofInt 64 (t0 + m * p + (m * (m - 1) / 2 : Nat) * d), per := p + m * d } ::
        retimeFrom t0 p d j (m + 1) l
    else s :: l

/-- The tags and periods a RETIME gives, shots before j unchanged. -/
def retimeShots (t0 p d : Int) (j : Nat) : List Shot → List Shot
  | [] => []
  | s :: l => if s.index = j then retimeFrom t0 p d j 0 (s :: l) else s :: retimeShots t0 p d j l

/-- T0, P and D of the RETIME for a shot whose predicted crossing is p (R163). -/
def Chip.retimeFor (c : Chip) (h : Nat) (s : Shot) (p : Int) : Int × Int :=
  let l := (c.headRun h).shots
  match c.predictShot h l (s.index + 1) with
  | none => (c.periodAt h s.line p, 0)
  | some q => match c.predictShot h l (s.index + 2) with
    | none => (q - p, 0)
    | some r => (q - p, r - 2 * q + p)

/-- A RETIME queued for a head's lane, and its shots' tags moved. -/
def Chip.sendRetime (c : Chip) (h : Nat) (s : Shot) (t0 : Int) : Chip :=
  let pd := c.retimeFor h s t0
  let x := c.headRun h
  let l := c.lane h
  (c.setHead h { x with shots := retimeShots t0 pd.1 pd.2 s.index x.shots }).setLane h
    { l with retimes := l.retimes ++ [Retime.mk s.index (BitVec.ofInt 64 t0) pd.1 pd.2] }

/-- The loop of R163 over the indices still to treat; prev is the tag of the shot issued before the first of them. -/
def Chip.retimeLoop (h : Nat) : List Nat → Option ET → Chip → Chip
  | [], _, c => c
  | i :: rest, prev, c =>
    match (c.headRun h).shots.find? fun (s : Shot) => decide (s.index = i) with
    | none => c
    | some s =>
      match c.predictLine h s.line with
      | none => c.triggerHead h 1 i
      | some p =>
        let off := |wrapDiff (BitVec.ofInt 64 p) s.tag|
        let c := if 65536 * (c.get Reg.CRN_RETIME_THR_NS : Int) < off then c.sendRetime h s p else c
        let tag := match (c.headRun h).shots.find? fun (q : Shot) => decide (q.index = i) with
          | some q => q.tag
          | none => s.tag
        let close := match prev with
          | some t => decide (wrapDiff tag t < 65536 * (c.get Reg.CRN_PMIN_NS : Int))
          | none => false
        if close then c.triggerHead h 2 i else Chip.retimeLoop h rest (some tag) c

/-- R163 for one head. Shots a calve has cut are not treated. -/
def Chip.retimeHead (c : Chip) (h : Nat) : Chip :=
  let x := c.headRun h
  let lim := c.now + BitVec.ofNat 64 (65536 * c.get Reg.CRN_LEAD_CALVE_LEAD)
  let mine := match x.await with
    | some a => x.shots.filter fun (s : Shot) => decide (idxDiff s.index a.k < 0)
    | none => x.shots
  let before := mine.takeWhile fun (s : Shot) => decide (wrapDiff s.tag lim < 0)
  let prev := match before.getLast? with
    | some s => some s.tag
    | none => (c.head h).lastTag
  Chip.retimeLoop h ((mine.drop before.length).map (·.index)) prev c

/-- R163: the pass over every head of the armed layer after an estimator update. -/
def Chip.retimePass (c : Chip) : Chip :=
  if c.run.isNone ∨ c.est.fitted = false ∨ c.owns = false then c
  else (c.layerHeads.filter fun h => !(c.headRun h).isOut).foldl (fun c h => c.retimeHead h) c

/-! ### Estimator updates and turns (R152, R154) -/

/-- EV040: the estimator has become not valid in FIRING other than by a turn (R154). -/
def Chip.estLost (c : Chip) (was : Bool) : Chip :=
  c.raiseIf (was && !c.estValid && decide (c.get Reg.CRN_STATUS_STATE = 2)) 40 0 []

/-- turn() of R152: in FIRING, the REVERSAL calve (R164). -/
def Chip.turnBack (c : Chip) (n : Int) : Chip :=
  let e := c.est
  let t := e.tExt
  let c := { c with est := { e with back := true, ext := some n, window := [], fitted := false } }.showEst
  if c.get Reg.CRN_STATUS_STATE = 2 then (c.triggerAll 4 t).raise 39 0 [(8, t.toNat)] else c

/-- Forward progress reaches the estimator, and the pass of R163 follows. -/
def Chip.progress (c : Chip) (n : Int) (t : ET) : Chip :=
  let was := c.estValid
  (((c.pushEst n t).showEst).estLost was).retimePass

/-- R152: the stamp of a counted edge of the traverse encoder, with the count after it, forward upward. -/
def Chip.travEdge (c : Chip) (n : Int) (t : ET) : Chip :=
  let e := c.est
  let b : Int := c.get Reg.CRN_BACKLASH_COUNTS
  match e.ext with
  | none => c.progress n t
  | some x =>
    if e.back = false then
      if x < n then c.progress n t
      else if n < x - b then c.turnBack n
      else c
    else if n < x then { c with est := { e with ext := some n } }.showEst
    else if x + b < n then { c with est := { e with back := false } }.progress n t
    else c

/-! ### Issuing (R157 to R160) -/

/-- A line skipped by R158 or R159: counted, and entered. -/
def Chip.skipLine (c : Chip) (h cause : Nat) (f : Int) : Chip :=
  let c := (c.bump Reg.CRN_SKIPPED_COUNT 1).onRun fun r => { r with skipped := r.skipped + 1 }
  c.enterLines h cause f 1

/-- Whether the conditions of R157, R165, R183, R205 and R257 let a head's next line be tried. -/
def Chip.mayIssue (c : Chip) (h : Nat) : Bool :=
  let x := c.headRun h
  (decide (c.get Reg.CRN_STATUS_STATE = 1) || decide (c.get Reg.CRN_STATUS_STATE = 2)) && c.inArmed h && !x.isOut &&
    !x.waits && (x.await.isNone || !c.owns) && x.eccHold.isNone && c.estValid && decide (x.shots.length < 64)

/-- The next line of a head to pack (R157, R168). -/
def Chip.nextLine (c : Chip) (h : Nat) : Int :=
  let x := c.headRun h
  x.skipEntered (max x.next (x.hwm + 1))

/-- The credits of emitted codes (R309). -/
def creditsOf (ws : List Nat) (codes : List (Nat × Nat)) : List (Nat × Nat) :=
  (codes.filter fun k => decide (k.1 ≠ 0 ∧ weightOf ws k.1 ≠ 0)).map fun k => (k.2, weightOf ws k.1)

/-- t_prev of R159. -/
def Chip.tPrev (c : Chip) (h : Nat) : Option ET :=
  match (c.headRun h).shots.getLast? with
  | some s => some s.tag
  | none => (c.head h).lastTag

/-- R159: the first line of a run of skips raises EV036 (R170). -/
def Chip.overspeed (c : Chip) (h : Nat) (f : Int) : Chip :=
  let c := (c.formLine h f).1
  let x := c.headRun h
  let c := c.raiseIf (!x.overRun) 36 0 [(1, h), (4, unsigned 32 f)]
  let c := c.setHead h { c.headRun h with overRun := true, next := f + 1 }
  (c.skipLine h 1 f).tryComplete

/-- A shot packed and issued for a firing line predicted at p (R144, R145, R157). -/
def Chip.packShot (c : Chip) (h : Nat) (f p : Int) : Chip :=
  let r := c.formLine h f
  let c := r.1
  let i := SMap.get 0 h c.nextIndex
  let ws := match c.run with
    | some r => r.weights
    | none => []
  let s : Shot := ⟨i, f, BitVec.ofInt 64 p, c.periodAt h f p, r.2.map (·.1), creditsOf ws r.2, false⟩
  let x := c.headRun h
  let c := c.setHead h { x with shots := x.shots ++ [s], next := f + 1, overRun := false }
  let c := { c with nextIndex := SMap.set 0 h ((i + 1) % 2 ^ 32) c.nextIndex }
  (c.put Reg.CRN_STATUS_STATE 2).showHead h

/-- Whether a line whose crossing is predicted at p comes closer than PMIN to the one before it (R159). -/
def Chip.tooClose (c : Chip) (h : Nat) (p : Int) : Bool :=
  match c.tPrev h with
  | some t => decide (wrapDiff (BitVec.ofInt 64 p) t < 65536 * (c.get Reg.CRN_PMIN_NS : Int))
  | none => false

/-- One firing line of a head tried: issued, or skipped for OVERSPEED. A standby forms its codes alone (R436). -/
def Chip.issueLine (c : Chip) (h : Nat) : Chip :=
  let f := c.nextLine h
  if !c.mayIssue h ∨ c.spanEnd h ≤ f then c
  else
    match c.predictAhead h f with
    | none => c
    | some p =>
      if c.get Reg.TDM_STATUS_OWNS = 0 then
        let c := (c.formLine h f).1
        (c.setHead h { c.headRun h with next := f + 1 }).put Reg.CRN_STATUS_STATE 2
      else
        if c.tooClose h p then c.overspeed h f else c.packShot h f p

/-- R158: a shot that is too late to enter the lane is not sent: its line is entered LATE, or GATE before the first shot
sent after a GATE calve (R168). -/
def Chip.shotLate (c : Chip) (h : Nat) (s : Shot) : Chip :=
  let x := c.headRun h
  let c := c.raiseIf (!x.lateRun) 37 0 [(1, h), (4, unsigned 32 s.line)]
  let x := c.headRun h
  let c := c.setHead h { x with shots := x.shots.erase s, lateRun := true }
  let c := if SMap.get 0 h c.nextIndex = (s.index + 1) % 2 ^ 32 then
      { c with nextIndex := SMap.set 0 h s.index c.nextIndex }
    else c
  ((c.skipLine h (if x.gateRun then 3 else 2) s.line).showHead h).tryComplete

/-- A kept shot that a replay sends as VOID: its line is entered LATE (R237). -/
def Chip.shotVoid (c : Chip) (h : Nat) (s : Shot) : Chip :=
  let x := c.headRun h
  if (x.shots.any fun (q : Shot) => decide (q.index = s.index)) = false then c
  else
    let c := c.raiseIf (!x.lateRun) 37 0 [(1, h), (4, unsigned 32 s.line)]
    let x := c.headRun h
    let c := c.setHead h { x with
      shots := x.shots.filter fun (q : Shot) => decide (q.index ≠ s.index)
      lateRun := true }
    ((c.skipLine h 2 s.line).showHead h).tryComplete

/-- The shot a lane may send next: the first not sent, and below K while a report is awaited (R165). -/
def Chip.nextShot (c : Chip) (h : Nat) : Option Shot :=
  let x := c.headRun h
  match x.shots.find? fun (s : Shot) => !s.sent with
  | none => none
  | some s => match x.await with
    | some a => if idxDiff s.index a.k < 0 then some s else none
    | none => some s

/-- Whether a tag passes the check of R158 for a packet whose end leaves the lane so many ns from now. -/
def Chip.inTime (c : Chip) (tag : ET) (ns : Nat) : Bool :=
  decide ((65536 * (c.get Reg.CRN_LEAD_LEAD_MIN + ns) : Int) ≤ wrapDiff tag c.now)

/-- A shot starts on the lane: its FIRE_LOG record (R432), and the marks of R168 and R170. -/
def Chip.shotSent (c : Chip) (h i : Nat) : Chip :=
  let x := c.headRun h
  let c := match x.shots.find? fun (s : Shot) => decide (s.index = i) with
    | some s => c.logFire 0 h 0 s.line i
    | none => c
  c.setHead h { x with
    shots := x.shots.map fun (s : Shot) => if s.index = i then { s with sent := true } else s
    gateRun := false
    lateRun := false }

/-! ### HELD and stall -/

/-- Whether any head of the armed layer awaits a report. -/
def Chip.anyAwait (c : Chip) : Bool := c.layerHeads.any fun h => (c.headRun h).await.isSome

/-- R168: HELD is left for FIRING. -/
def Chip.leaveHeld (c : Chip) : Chip :=
  let aborted := match c.run with
    | some r => r.aborted
    | none => true
  if c.get Reg.CRN_STATUS_STATE = 3 ∧ aborted = false ∧ c.anyAwait = false ∧ c.tdm.takes.isEmpty = true ∧ c.flag Reg.HED_GATE_STATUS_PERMIT = true ∧
      c.estValid = true then
    (c.put Reg.CRN_STATUS_STATE 2).raise 43 0 []
  else c

/-- R154, R164: a stall in FIRING, at once for an estimator not valid, else when STOP_T has passed without progress. -/
def Chip.stallNow (c : Chip) : Chip :=
  if c.get Reg.CRN_STATUS_STATE ≠ 2 then c
  else if c.estValid = false ∧ c.est.back = false ∧ c.est.window.length = c.window then c.triggerAll 3 0
  else
    let c := c.advanceTo (c.est.lastFwd + 1000 * c.get Reg.CRN_STOP_T_US)
    c.triggerAll 3 0

/-! ### Layers (R147, R531) -/

/-- R147, R530: the fault of a LAYER_OPEN, if any. -/
def Chip.openFault (c : Chip) (d : List Byte) : Bool :=
  let bands := leField d 0x18 4
  let heads := leField d 0x1C 8
  (c.layer? (leField d 0x14 4)).isSome || decide (2 ^ 48 ≤ heads) || decide (bands = 0 ∨ 65536 < bands) ||
    (List.range 48).any fun h => bit heads h && decide (c.gOf h = 0)

/-- RESULT of a command turned away by R442: reason 1, NOT_OWNER. -/
def notOwner : List Byte := leBytes 4 1

/-- A layer registered, its bands counted on each head (R147, R390). -/
def Chip.registerLayer (c : Chip) (num bands heads : Nat) (mirrored : Bool) : Chip :=
  let hs := (List.range 48).filter (inMask heads)
  let firsts : SMap Nat := hs.foldl (fun (m : SMap Nat) h => SMap.set 0 h (SMap.get 0 h c.bandCount) m) []
  let l : Layer := { num := num, bands := bands, heads := heads, mirrored := mirrored, firstBand := firsts }
  ({ c with
    layers := c.layers ++ [l]
    bandCount := hs.foldl (fun (m : SMap Nat) h => SMap.set 0 h (SMap.get 0 h m + bands) m) c.bandCount }).showNext

/-- LAYER_OPEN at the head of a ring: its checks, its waits (R111, R147), or its layer registered. -/
def Chip.openLayer (c : Chip) (p n : Nat) : Chip :=
  match c.headOp p n 1 with
  | none => c
  | some d =>
    if (c.ring p n).acted then c
    else if c.openFault d then c.faultDesc p n 0x102
    else if c.owns = false then c.complete p n 2 d notOwner
    else if 2 ≤ c.layers.length ∨ c.flag (Reg.HIF_STATUS_STATE_HELD 0) then c
    else
      let c := c.registerLayer (leField d 0x14 4) (leField d 0x18 4) (leField d 0x1C 8) false
      c.completeMirrored p n 0 d [] 5 (d.drop 0x14 |>.take 16)

/-- Whether the LAYER_OPEN of a layer has not yet completed: it waits for the partner (R98, R427, R531). -/
def Chip.openPending (c : Chip) (num : Nat) : Bool :=
  c.mirrorWait.any fun (w : MirrorWait) => decide (leField w.desc 0 1 = 1 ∧ leField w.desc 0x14 4 = num)

/-- A registered layer whose LAYER_OPEN has completed (R98, R531). -/
def Chip.openLayer? (c : Chip) (num : Nat) : Option Layer := if c.openPending num then none else c.layer? num

/-- LAYER_CLOSE at the head of a ring (R531). While it waits for its layer it counts as acted on (R107; DESIGN CHOICE: log
entry 78). -/
def Chip.closeLayer (c : Chip) (p n : Nat) : Chip :=
  match c.headOp p n 3 with
  | none => c
  | some d =>
    let num := leField d 0x14 4
    if (c.openLayer? num).isSome then
      if c.owns then c.setRing p n { c.ring p n with acted := true } else c.complete p n 2 d notOwner
    else
      match c.recent.find? fun (e : Nat × Nat) => decide (e.1 = num) with
      | some e => if c.owns then c.complete p n 0 d (leBytes 4 e.2) else c.complete p n 2 d notOwner
      | none => c.faultDesc p n 0x102

/-- A waiting LAYER_CLOSE completes once its layer has completed (R531). -/
def Chip.closeDone (c : Chip) (p n : Nat) : Chip :=
  match c.headOp p n 3 with
  | none => c
  | some d =>
    if (c.ring p n).acted = false then c
    else
      match c.recent.find? fun (e : Nat × Nat) => decide (e.1 = leField d 0x14 4) with
      | some e => if (c.layer? (leField d 0x14 4)).isSome then c else c.complete p n 0 d (leBytes 4 e.2)
      | none => c

/-- The checks of R123 on a BLOCK's header, in its order: the fault of the first that fails. -/
def Chip.headerFault (c : Chip) (l : Layer) (len head slab : Nat) (hdr : List Byte) : Option Nat :=
  let clen := leField hdr 0x10 4
  let ulen := leField hdr 0x14 4
  if len ≠ 32 + clen ∨ clen = 0 ∨ 262144 < clen then some 0x101
  else if leField hdr 0 4 ≠ 0x31424843 ∨ leField hdr 5 1 ≠ 1 ∨ leField hdr 0x1C 4 ≠ crc32 (hdr.take 28) ∨
      2 ≤ leField hdr 4 1 then some 0x102
  else if leField hdr 6 1 ≠ 0 ∨ leField hdr 7 1 ≠ head ∨ leField hdr 8 4 ≠ l.num ∨ leField hdr 0x0C 4 ≠ slab then some 0x102
  else if 8 * l.bands ≤ slab then some 0x102
  else if ulen ≠ 64 * c.gOf head then some 0x101
  else if bit (leField hdr 4 1) 0 ∧ clen ≠ ulen then some 0x101
  else none

/-- The checks of R123 for a BLOCK descriptor. -/
def Chip.blockFault (c : Chip) (l : Layer) (d hdr : List Byte) : Option Nat :=
  c.headerFault l (leField d 0x10 4) (leField d 0x18 1) (leField d 0x1C 4) hdr

/-- A block copied into the block area and queued for decompression (R98, R124). -/
def Chip.acceptBlock (c : Chip) (l : Layer) (head slab : Nat) (hdr payload : List Byte) : Chip :=
  let area := blockBytes payload.length
  let c := c.setLayer { l with delivered := SMap.set false (slabKey head slab) true l.delivered }
  ({ c with blockUsed := c.blockUsed + area }).queueJob
    { kind := 1, layer := l.num, head := head, slab := slab, hdr := hdr, payload := payload, area := area,
      bandNo := SMap.get 0 head l.firstBand + slab / 8, item := 0 }

/-- BLOCK at the head of a ring (R98, R123, R442, R530). -/
def Chip.blockDesc (c : Chip) (p n : Nat) (hdr payload : Option (List Byte)) : Chip :=
  match c.headOp p n 2 with
  | none => c
  | some d =>
    if (c.ring p n).acted then c
    else
      let head := leField d 0x18 1
      let slab := leField d 0x1C 4
      match c.openLayer? (leField d 0x14 4) with
      | none => if descReplace d then c.complete p n 0 d [] else c.faultDesc p n 0x102
      | some l =>
        let seen := SMap.get false (slabKey head slab) l.delivered
        if head ≥ 48 ∨ inMask l.heads head = false then c.faultDesc p n 0x102
        else if seen = true ∧ descReplace d = false ∧ l.mirrored = false then c.faultDesc p n 0x102
        else
          match hdr with
          | none => c.faultDesc p n 0x103
          | some h =>
            match c.blockFault l d h, payload with
            | some code, _ => c.faultDesc p n code
            | none, none => c.faultDesc p n 0x103
            | none, some b =>
              if c.owns = false ∧ descReplace d = false then c.complete p n 2 d notOwner
              else if seen = true ∧ descReplace d = false then c.complete p n 0 d []
              else (c.acceptBlock l head slab h b).completeMirrored p n 0 d [] 5 (h ++ b)

/-! ### The commands that need nothing of the later chapters -/

/-- LAYER_OPEN (R147). -/
def execLayerOpen (p : Port) (n : Fin 64) (s : State) : Host.Outcome State Fault Refusal :=
  s.go (s.toChip.openLayer p.num n.val)

/-- LAYER_OPEN_RESUME (R111, R147): a waiting LAYER_OPEN is checked again. -/
def execLayerOpenResume (p : Port) (n : Fin 64) (s : State) : Host.Outcome State Fault Refusal :=
  s.go (s.toChip.openLayer p.num n.val)

/-- LAYER_CLOSE (R531). -/
def execLayerClose (p : Port) (n : Fin 64) (s : State) : Host.Outcome State Fault Refusal :=
  s.go (s.toChip.closeLayer p.num n.val)

/-- LAYER_CLOSE_COMPLETE (R531). -/
def execLayerCloseComplete (p : Port) (n : Fin 64) (s : State) : Host.Outcome State Fault Refusal :=
  s.go (s.toChip.closeDone p.num n.val)

/-- BLOCK (R98). -/
def execBlock (p : Port) (n : Fin 64) (hdr payload : Option (List Byte)) (s : State) : Host.Outcome State Fault Refusal :=
  s.go (s.toChip.blockDesc p.num n.val hdr payload)

/-- STALL (R154, R164). -/
def execStall (s : State) : Host.Outcome State Fault Refusal := s.go s.toChip.stallNow

/-- CALVE_REPEAT (R226). -/
def execCalveRepeat (h : Fin 48) (s : State) : Host.Outcome State Fault Refusal := s.go (s.toChip.calveAgain h.val)

/-- HELD_EXIT (R168). -/
def execHeldExit (s : State) : Host.Outcome State Fault Refusal := s.go s.toChip.leaveHeld

end Sys2Proof.Machine
end

