-- ==== Sys2Proof/Machine/Dram.lean ====
section
/-! DEFINITION. Machine/Dram.lean: the DRAM controller (R386 to R412): training, zeroing, refresh, pages, errors, patrol
scrub, rank sparing and lost blocks. -/

namespace Sys2Proof.Machine

/-- Ranks per channel (R386). -/
def Chip.ranks (c : Chip) : Nat := c.get Reg.DRC_CFG_RANKS + 1

/-- The spare rank, where one is held (R386). -/
def Chip.spareRank (c : Chip) : Option Nat :=
  if c.flag Reg.DRC_CFG_SPARE_EN && decide (c.get Reg.DRC_CFG_SPARE_RANK < c.ranks) then some (c.get Reg.DRC_CFG_SPARE_RANK) else none

/-- STATE of a rank of a channel. -/
def Chip.rankState (c : Chip) (ch r : Nat) : Nat := c.get (Reg.DRC_RANK_STATUS_STATE (4 * ch + r))

/-- STATE of a rank set. -/
def Chip.setRank (c : Chip) (ch r st : Nat) : Chip := c.put (Reg.DRC_RANK_STATUS_STATE (4 * ch + r)) st

/-- Whether a rank serves a logical rank now: in service, or being migrated from. -/
def Chip.serving (c : Chip) (ch r : Nat) : Bool := decide (c.rankState ch r = 1 ∨ c.rankState ch r = 3)

/-- The rank of a channel that serves a logical rank (R387). -/
def Chip.holder (c : Chip) (ch l : Nat) : Option Nat :=
  (List.range 4).find? fun r => c.serving ch r && decide (c.get (Reg.DRC_RANK_STATUS_LRANK (4 * ch + r)) = l)

/-- A logical rank is in service on both channels. -/
def Chip.inService (c : Chip) (l : Nat) : Bool := (c.holder 0 l).isSome && (c.holder 1 l).isSome

/-- 64-byte units of a logical rank (R388). -/
def Chip.lrankUnits (c : Chip) : Nat := if c.flag Reg.DRC_CFG_DENSITY then 2 ^ 30 else 2 ^ 29

/-! ### Addresses (R387 to R390)

Logical rank l holds the l-th part of the addresses, a row of a bank 16 KiB, and consecutive rows go to consecutive banks
(DESIGN CHOICE: log entry 96). -/

/-- The 64-byte unit at an offset in a region (R389). -/
def Chip.placeIn (c : Chip) (k off : Nat) : Nat :=
  let r := c.regions.getD k (0, 0)
  r.1 + (if r.2 = 0 then off else off % r.2) / 64 * 64

/-- Offset in the band buffers of a unit of a slab's line: the k-th band of a head uses its buffer k mod NB (R390). The buffers
stand head by head (DESIGN CHOICE: log entry 96). -/
def Chip.slabOff (c : Chip) (l : Layer) (h slab line unit : Nat) : Nat :=
  let nb := max 1 (c.get Reg.DRC_BAND_CFG_NB)
  let g := c.gOf h
  512 * nb * c.nbase h + 512 * g * ((SMap.get 0 h l.firstBand + slab / 8) % nb) + (128 * (slab % 8) + line) * (g / 2) + 64 * unit

/-- The DRAM address of a unit: computed for a band buffer's and an accumulator's, at the offset given in its region for one
whose place the spec leaves open. -/
def Chip.targetAddr (c : Chip) (off : Nat) : DramTarget → Nat
  | .slabUnit layer h slab line unit => c.placeIn 1 (match c.layer? layer.toNat with
    | some l => c.slabOff l h.val slab line.val unit
    | none => off)
  | .heapUnit k row => c.placeIn 0 (64 * (12288 * k.val + row.val / 16))
  | .copyUnit _ => c.placeIn 0 off
  | .blockUnit _ _ _ => c.placeIn 2 off
  | .itemUnit frames _ _ => c.placeIn (if frames then 4 else 3) off
  | .region k => c.placeIn k.val off

/-- What the unit at an address holds, where that is what a command says: nothing with an effect of its own otherwise. -/
def Chip.heldAt (c : Chip) (addr : Nat) (t : DramTarget) : DramTarget :=
  let within := fun (k : Fin 5) =>
    let r := c.regions.getD k.val (0, 0)
    if r.1 ≤ addr ∧ addr < r.1 + r.2 then t else .region k
  match t with
  | .slabUnit _ _ _ _ _ => if c.targetAddr 0 t = addr then t else .region 1
  | .heapUnit _ _ => if c.targetAddr 0 t = addr then t else .region 0
  | .copyUnit _ => within 0
  | .blockUnit _ _ _ => within 2
  | .itemUnit frames _ _ => within (if frames then 4 else 3)
  | .region k => .region k

/-- The logical rank of an address. -/
def Chip.lrankOf (c : Chip) (addr : Nat) : Nat := addr / 64 / c.lrankUnits % 4

/-- The unit of its logical rank at an address. -/
def Chip.rankUnit (c : Chip) (addr : Nat) : Nat := addr / 64 % c.lrankUnits

/-- The bank of a logical rank's unit, and its row. -/
def bankRow (unit : Nat) : Nat × Nat := (unit / 256 % 32, unit / 8192)

/-- Nanoseconds of the idle timer of a bank, IDLE clocks of 1.25 ns (R396). -/
def Chip.idleNs (c : Chip) : Nat := (5 * max 8 (c.get Reg.DRC_PAGE_CFG_IDLE) + 3) / 4

/-- An access at an address: a bank that has another row open, or whose idle timer has run out, is precharged first, and the row
stays open after it (R396). -/
def Chip.touch (c : Chip) (addr : Nat) : Chip :=
  let l := c.lrankOf addr
  let b := bankRow (c.rankUnit addr)
  let k := 32 * l + b.1
  let x := SMap.get (0, 0) k c.banks
  let c := if x.2 ≠ 0 ∧ (x.1 ≠ b.2 ∨ x.2 - 1 + c.idleNs ≤ c.clk) then c.emit (.dram 1 l b.1) else c
  { c with banks := SMap.set (0, 0) k (b.2, c.clk + 1) c.banks }

/-- The read of a unit of a raster line, where the layer has it. -/
def Chip.touchLine (c : Chip) (h : Nat) (r : Int) (u : Nat) : Chip :=
  match c.armed with
  | some l =>
    if r < 0 ∨ c.layerLines ≤ r then c
    else c.touch (c.placeIn 1 (c.slabOff l h (r.toNat / 128) (r.toNat % 128) u))
  | none => c

/-- The writes of a decompressed slab. -/
def Chip.touchSlab (c : Chip) (layer h slab : Nat) : Chip :=
  match c.layer? layer with
  | some l =>
    let base := c.placeIn 1 (c.slabOff l h slab 0 0)
    (List.range ((64 * c.gOf h + 16383) / 16384)).foldl (fun c i => c.touch (base + 16384 * i)) c
  | none => c

/-- A SPARE_RANK record (R410). -/
def Chip.spareRecord (c : Chip) (w : SpareWant) (flags : Nat) : Chip :=
  c.record 5 3 c.armedNum 0xFFFFFFFF (256 * w.channel + w.rank) (c.get Reg.DRC_CFG_SPARE_RANK + 16 * w.cause + flags)

/-! ### Training (R393, R394) -/

/-- The spare that stands in a rank's place from start-up, by the latest record that names the rank (R409). -/
def Chip.recordedSpare (c : Chip) (ch r : Nat) : Option Nat :=
  let d := SMap.get 0 (4 * ch + r) c.rankRecs
  if d = 0 ∨ bit (d - 1) 9 then none else some ((d - 1) % 4)

/-- Whether the latest record of some rank of a channel says that a spare failed (R409). -/
def Chip.spareLost (c : Chip) (ch sp : Nat) : Bool :=
  (List.range 4).any fun r =>
    let d := SMap.get 0 (4 * ch + r) c.rankRecs
    decide (d ≠ 0 ∧ (d - 1) % 4 = sp) && bit (d - 1) 9

/-- One rank that is not the spare takes its place in service, or its channel's spare does, or it fails. -/
def Chip.trainRank (c : Chip) (ch : Nat) (passed : Nat → Bool) (r : Nat) : Chip :=
  let spare := c.spareRank
  let sp := spare.getD 0
  let spareReady := spare.isSome && decide (c.rankState ch sp = 2)
  let place := fun (c : Chip) => (c.setRank ch sp 1).put (Reg.DRC_RANK_STATUS_LRANK (4 * ch + sp)) r
  let use := fun (c : Chip) => (place c).putBit Reg.DRC_SPARE_STATUS_USED ch true
  match c.recordedSpare ch r with
  | some s =>
    let c := c.setRank ch r 5
    if spareReady ∧ s = sp then use c else c
  | none =>
  if passed r then (c.setRank ch r 1).put (Reg.DRC_RANK_STATUS_LRANK (4 * ch + r)) r
  else if spareReady then
    (((use (c.setRank ch r 6)).spareRecord ⟨ch, r, 5⟩ 256)).raise 193 0 [(1, ch), (1, r), (1, 1)]
  else (c.setRank ch r 6).raise 193 0 [(1, ch), (1, r), (1, 3)]

/-- The ranks of one channel after training; one that a record retires has its spare before another that fails (R409). -/
def Chip.trainChannel (c : Chip) (ch : Nat) (eye : Nat → Nat) : Chip :=
  let least := max 1 (c.get Reg.DRC_TRAIN_CFG_MIN_EYE)
  let passed := fun (r : Nat) => decide (least ≤ eye (4 * ch + r))
  let c := (List.range c.ranks).foldl (fun c r => c.put (Reg.DRC_RANK_STATUS_EYE (4 * ch + r)) (min 127 (eye (4 * ch + r)))) c
  let c : Chip := match c.spareRank with
    | none => c
    | some sp =>
      if c.spareLost ch sp then c.setRank ch sp 5
      else if passed sp then c.setRank ch sp 2
      else (c.setRank ch sp 6).raise 193 0 [(1, ch), (1, sp), (1, 2)]
  let own : List Nat := (List.range c.ranks).filter fun (r : Nat) => (match c.spareRank with
    | some sp => decide (r ≠ sp)
    | none => true)
  let taken := own.filter fun r => (c.recordedSpare ch r).isSome
  (taken ++ own.filter fun r => (c.recordedSpare ch r).isNone).foldl (fun (c : Chip) r => c.trainRank ch passed r) c

/-- Logical ranks not held on both channels leave service, and the rest are numbered from 0 (R394). -/
def Chip.numberRanks (c : Chip) : Chip :=
  let keep := (List.range 4).filter c.inService
  (List.range 8).foldl (fun c k =>
    if c.serving (k / 4) (k % 4) then
      let l := c.get (Reg.DRC_RANK_STATUS_LRANK k)
      match keep.findIdx? fun q => decide (q = l) with
      | some i => c.put (Reg.DRC_RANK_STATUS_LRANK k) i
      | none => c.setRank (k / 4) (k % 4) 5
    else c) c

/-- Logical ranks in service. -/
def Chip.lranks (c : Chip) : Nat := ((List.range 4).filter c.inService).length

/-- Nanoseconds between refreshes of a logical rank (R397). -/
def Chip.trefi (c : Chip) (l : Nat) : Nat :=
  match c.holder 0 l with
  | some r => if c.flag (Reg.DRC_RANK_STATUS_DOUBLED r) then 1950 else 3900
  | none => 3900

/-- Nanoseconds between retrainings by interval (R395). -/
def Chip.retrainNs (c : Chip) : Nat := 1000000 * c.get Reg.DRC_RETRAIN_INTERVAL_MS

/-- Nanoseconds between polls of MR4 (R398). -/
def Chip.pollNs (c : Chip) : Nat := 1000000 * max 1 (c.get Reg.DRC_REF_CFG_POLL_MS)

/-- Nanoseconds between leaks of the buckets (R405). -/
def Chip.leakNs (c : Chip) : Nat := 1000000 * max 1 (c.get Reg.DRC_ECC_CFG_LEAK_MS)

/-- Training ends (R393, R394), after the loader has read the moraine ledger (R409). -/
def Chip.trainingEnd (c : Chip) (eyes : List Nat) : Chip :=
  if c.flag Reg.DRC_STATUS_TRAINED ∨ c.conf.scanned = false then c
  else
    let eye := fun (k : Nat) => eyes.getD k 0
    let c := ((c.trainChannel 0 eye).trainChannel 1 eye).numberRanks
    let l := c.lranks
    let narrow := ((List.range 8).filter fun k => decide (k % 4 < c.ranks)).foldl (fun m k => min m (eye k)) 127
    let c := ((c.put Reg.DRC_STATUS_TRAINED 1).putB Reg.DRC_STATUS_DRAM_OK (decide (l ≠ 0))).put Reg.DRC_CAPACITY_MIB
      (l * (if c.flag Reg.DRC_CFG_DENSITY then 65536 else 32768))
    let c := { c with
      refreshDue := (List.range l).foldl (fun (m : SMap Nat) i => SMap.set 0 i (c.clk + 3900) m) []
      pollDue := (List.range l).foldl (fun (m : SMap Nat) i => SMap.set 0 i (c.clk + c.pollNs) m) []
      eyeDue := (List.range 8).foldl (fun (m : SMap Nat) k => SMap.set 0 k (c.clk + c.retrainNs) m) []
      leakDue := c.clk + c.leakNs
      scrubStart := c.clk }
    c.raise 192 0 [(2, narrow)]

/-! ### Refresh (R397 to R399) -/

/-- B of a logical rank. -/
def Chip.owed (c : Chip) (l : Nat) : Int :=
  match c.holder 0 l with
  | some r => c.getI (Reg.DRC_RANK_STATUS_OWED r)
  | none => 0

/-- A field of every rank of a logical rank set: of those that serve it, and of a spare being migrated to. -/
def Chip.putPair (c : Chip) (l : Nat) (f : Nat → Field) (v : Int) : Chip :=
  (List.range 8).foldl (fun c k =>
    if (c.serving (k / 4) (k % 4) || decide (c.rankState (k / 4) (k % 4) = 4)) && decide (c.get (Reg.DRC_RANK_STATUS_LRANK k) = l) then
      c.putI (f k) v
    else c) c

/-- B of a logical rank set. -/
def Chip.setOwed (c : Chip) (l : Nat) (b : Int) : Chip := c.putPair l Reg.DRC_RANK_STATUS_OWED b

/-- Refreshes of a logical rank issued, its banks precharged first (R397). -/
def Chip.refresh (c : Chip) (l n : Nat) : Chip :=
  { c with banks := c.banks.filter fun e => decide (e.1 / 32 ≠ l) }.emits (List.replicate n (Output.dram 0 l 0))

/-- A refresh falls due (R397). -/
def Chip.refreshFalls (c : Chip) (l : Nat) (busy : Bool) : Chip :=
  if c.inService l = false ∨ c.selfRefresh then c
  else
    let due := SMap.get 0 l c.refreshDue
    let c := c.advanceTo due
    let c := { c with refreshDue := SMap.set 0 l (due + c.trefi l) c.refreshDue }
    let b := c.owed l
    if 4 ≤ b then (c.refresh l 1).raise 204 0 [(1, l), (4, 1)]
    else if busy then c.setOwed l (b + 1)
    else c.refresh l 1

/-- An owed refresh issued, or one pulled in (R397). -/
def Chip.catchUp (c : Chip) (l : Nat) (busy : Bool) : Chip :=
  let b := c.owed l
  if busy ∨ c.inService l = false ∨ c.selfRefresh then c
  else if 0 < b ∨ (c.flag Reg.DRC_REF_CFG_PULL_IN ∧ -4 < b) then (c.refresh l 1).setOwed l (b - 1)
  else c

/-- A rank's rate changes, and B is recounted (R399). -/
def Chip.changeRate (c : Chip) (l : Nat) (doubled : Bool) : Chip :=
  let b := c.owed l
  let c := c.putPair l Reg.DRC_RANK_STATUS_DOUBLED (b2n doubled)
  let c := { c with refreshDue := SMap.set 0 l (c.clk + c.trefi l) c.refreshDue
                    calmPolls := SMap.set 0 l 0 c.calmPolls }
  let c := c.raise 203 0 [(1, l), (2, 1 + b2n doubled)]
  if doubled then
    let n := (2 * b - 4).toNat
    let c := c.setOwed l (max (-4) (min 4 (2 * b)))
    if n = 0 then c else (c.refresh l n).raise 204 0 [(1, l), (4, n)]
  else c.setOwed l (if 0 ≤ b then (b + 1) / 2 else Int.tdiv b 2)

/-- A poll of MR4 of every device of a rank, every POLL_MS (R398). -/
def Chip.mr4Poll (c : Chip) (l : Nat) (doubled beyond : Bool) : Chip :=
  match c.holder 0 l with
  | none => c
  | some r =>
    if c.inService l = false ∨ c.selfRefresh then c
    else
      let due := SMap.get 0 l c.pollDue
      let c := c.advanceTo due
      let c := { c with pollDue := SMap.set 0 l (due + c.pollNs) c.pollDue }
      let at2 := c.flag (Reg.DRC_RANK_STATUS_DOUBLED r)
      let c := (c.emit (.dram 2 l 0)).raiseIf beyond 205 0 []
      if doubled ∨ beyond then
        let c := { c with calmPolls := SMap.set 0 l 0 c.calmPolls }
        if at2 then c else c.changeRate l true
      else if at2 then
        if 1 ≤ SMap.get 0 l c.calmPolls then c.changeRate l false
        else { c with calmPolls := SMap.set 0 l 1 c.calmPolls }
      else c

/-- An open bank's idle timer reaches IDLE clocks (R396). -/
def Chip.pageIdle (c : Chip) (l bank : Nat) : Chip :=
  let t := (SMap.get (0, 0) (32 * l + bank) c.banks).2
  if t = 0 ∨ c.inService l = false ∨ c.selfRefresh then c
  else
    let c := c.advanceTo (t - 1 + c.idleNs)
    { c with banks := SMap.set (0, 0) (32 * l + bank) (0, 0) c.banks }.emit (.dram 1 l bank)

/-! ### Sparing (R407 to R409) -/

/-- A migration starts (R408). The spare is refreshed with its logical rank from then on, with the B and the rate of it. -/
def Chip.startMigration (c : Chip) (w : SpareWant) : Chip :=
  let c := (c.spareRecord w 0).raise 198 w.cause [(1, w.channel), (1, w.rank)]
  let l := c.get (Reg.DRC_RANK_STATUS_LRANK (4 * w.channel + w.rank))
  let sp := c.get Reg.DRC_CFG_SPARE_RANK
  let c := ((c.setRank w.channel w.rank 3).setRank w.channel sp 4).put (Reg.DRC_RANK_STATUS_LRANK (4 * w.channel + sp)) l
  let c := c.put (Reg.DRC_RANK_STATUS_OWED (4 * w.channel + sp)) (c.get (Reg.DRC_RANK_STATUS_OWED (4 * w.channel + w.rank)))
  let c := c.put (Reg.DRC_RANK_STATUS_DOUBLED (4 * w.channel + sp)) (c.get (Reg.DRC_RANK_STATUS_DOUBLED (4 * w.channel + w.rank)))
  let c := ((c.put Reg.DRC_STATUS_MIGRATING 1).put Reg.DRC_SPARE_STATUS_CHANNEL w.channel).put Reg.DRC_SPARE_STATUS_RANK w.rank
  { c.put Reg.DRC_SPARE_STATUS_PERMILLE 0 with migration := some ⟨w, 0⟩ }

/-- A trigger of sparing (R407). One of a channel's spare that another rank already waits for cannot start. -/
def Chip.spare (c : Chip) (w : SpareWant) : Chip :=
  let busy := match c.migration with
    | some m => decide (m.want.channel = w.channel ∧ m.want.rank = w.rank)
    | none => false
  if busy then c
  else if c.flag Reg.DRC_CFG_SPARE_EN = false ∨ c.rankState w.channel (c.get Reg.DRC_CFG_SPARE_RANK) ≠ 2 ∨
      c.rankState w.channel w.rank ≠ 1 then c.raise 200 1 []
  else if c.migration.isSome then
    match c.wanted with
    | none => { c with wanted := some w }
    | some q => if q.channel = w.channel ∧ q.rank = w.rank then c else c.raise 200 1 []
  else c.startMigration w

/-- The migration in progress ends, and one that waits begins (R407). -/
def Chip.endMigration (c : Chip) : Chip :=
  let w := c.wanted
  let c := { c.put Reg.DRC_STATUS_MIGRATING 0 with migration := none, wanted := none }
  match w with
  | some w => c.spare w
  | none => c

/-! ### Errors (R403 to R405, R411) -/

/-- The migration is abandoned (R409): the old rank serves on, and the spare leaves service. -/
def Chip.abandonCopy (c : Chip) (w : SpareWant) : Chip :=
  let c := ((c.setRank w.channel w.rank 1).setRank w.channel (c.get Reg.DRC_CFG_SPARE_RANK) 5).spareRecord w 512
  (c.raise 200 2 []).endMigration

/-- The rank of a channel that a read at an address uses: of a unit below C the spare, during a migration (R408). -/
def Chip.rankAt (c : Chip) (ch addr : Nat) : Option Nat :=
  let l := c.lrankOf addr
  match c.migration with
  | some m =>
    if m.want.channel = ch ∧ c.get (Reg.DRC_RANK_STATUS_LRANK (4 * ch + m.want.rank)) = l ∧ c.rankUnit addr < m.copied then
      some (c.get Reg.DRC_CFG_SPARE_RANK)
    else c.holder ch l
  | none => c.holder ch l

/-- A unit of a layer's band buffer slab poisoned (R403); before its first line is read, found by another reader than the
cornice, the slab is lost (R411). -/
def Chip.poisonSlab (c : Chip) (layer head slab line unit reader : Nat) : Chip :=
  match c.layer? layer with
  | none => c
  | some l =>
    let x := l.slab head slab
    if x.valid = false then c
    else if x.read = false ∧ reader ≠ 0 then
      (c.setLayer (l.setSlab head slab { x with valid := false })).lostBlock l.num head slab
    else
      let u := 8192 * line + unit
      if x.poison.contains u ∨ x.poisonTold.contains u then c
      else c.setLayer (l.setSlab head slab { x with poison := x.poison ++ [u] })

/-- A number added to a list that does not hold it. -/
def insertNew (u : Nat) (l : List Nat) : List Nat := if l.contains u then l else l ++ [u]

/-- The unit of the copy of a table entry (R204): 16 entries of the nozzle table or of SUB, 8 of the grey tables. -/
def copyKey : TableCell → Nat
  | .nzt r => r.val / 16
  | .sub k => 12288 + k.val / 16
  | .grey t h => 13312 + (48 * t.val + h.val) / 8

/-- What poison in a unit spoils, until the unit is written whole (R403). -/
def Chip.poisonTarget (c : Chip) (reader : Nat) : DramTarget → Chip
  | .slabUnit layer head slab line unit => c.poisonSlab layer.toNat head.val slab line.val unit reader
  | .heapUnit k row => { c with healPoison := insertNew (12288 * k.val + row.val / 16) c.healPoison }
  | .copyUnit cell => { c with copyPoison := insertNew (copyKey cell) c.copyPoison }
  | .blockUnit layer head slab =>
    let f := fun (j : Job) => if j.ofBlock ∧ j.layer = layer.toNat ∧ j.head = head.val ∧ j.slab = slab then { j with poisoned := true } else j
    { c with
      jobs := c.jobs.map f
      engines := c.engines.map fun (x : Nat × Engine) => (x.1, { x.2 with job := f x.2.job }) }
  | .itemUnit false k u =>
    { c with stateItems := c.stateItems.modify k fun (it : StateItem) => { it with poison := insertNew u it.poison } }
  | .itemUnit true k u =>
    { c with inspItems := c.inspItems.modify k fun (it : InspItem) => { it with poison := insertNew u it.poison } }
  | .region _ => c

/-- The devices an error names (R401). -/
def DramKind.devices : DramKind → List Nat
  | .one d => [d.val]
  | .two a b => [a.val, b.val]
  | .unnamed => []

/-- Channels on which an error names a device: devices 0 to 9 lie on channel 0 (R401). -/
def errChannels (k : DramKind) : List Nat := (List.range 2).filter fun ch => (DramKind.devices k).any fun d => decide (d / 10 = ch)

/-- A correctable error counted in a rank's bucket (R404, R405). -/
def Chip.bucketUp (c : Chip) (ch r : Nat) : Chip :=
  let k := 4 * ch + r
  let since := SMap.get 0 k c.ceSince + 1
  let tell := decide (SMap.get 0 k c.ceTellFrom ≤ c.clk)
  let c := { c with ceSince := SMap.set 0 k (if tell then 0 else since) c.ceSince
                    ceTellFrom := if tell then SMap.set 0 k (c.clk + 100000000) c.ceTellFrom else c.ceTellFrom }
  let c := c.raiseIf tell 195 0 [(1, ch), (1, r), (4, since)]
  let b := c.get (Reg.DRC_RANK_STATUS_BUCKET k)
  let c := c.bump (Reg.DRC_RANK_STATUS_BUCKET k) 1
  let thr := max 1 (c.get Reg.DRC_ECC_CFG_CE_THR)
  if b < thr ∧ thr ≤ b + 1 then
    let c := c.raise 197 0 [(1, ch), (1, r)]
    if c.flag Reg.DRC_ECC_CFG_PRE_SPARE then c.spare ⟨ch, r, 2⟩ else c
  else c

/-- An uncorrectable error held and told, and sparing triggered (R404, R407); one that names a device of the spare being migrated
to abandons the migration (R409). -/
def Chip.uncorrectable (c : Chip) (addr reader : Nat) (k : DramKind) : Chip :=
  let dev := fun (i : Nat) => (DramKind.devices k).getD i 31
  let c := c.bump Reg.DRC_UE_COUNT_COUNT 1
  let c := if c.flag Reg.DRC_ERR_INFO_VALID then c
    else
      let c := (c.put64 Reg.DRC_ERR_ADDR_LO_ADDR Reg.DRC_ERR_ADDR_HI_ADDR addr).put Reg.DRC_ERR_INFO_VALID 1
      let c := (c.put Reg.DRC_ERR_INFO_DEV_A (dev 0)).put Reg.DRC_ERR_INFO_DEV_B (dev 1)
      (c.put Reg.DRC_ERR_INFO_LRANK (c.lrankOf addr)).put Reg.DRC_ERR_INFO_READER reader
  let c := c.raise 196 0 [(8, addr), (1, dev 0), (1, dev 1), (1, reader)]
  let named := errChannels k
  (if named.isEmpty then [0, 1] else named).foldl (fun c ch =>
    match if named.isEmpty then c.holder ch (c.lrankOf addr) else c.rankAt ch addr with
    | none => c
    | some r =>
      match c.migration with
      | some m =>
        if m.want.channel = ch ∧ c.rankState ch r = 4 then c.abandonCopy m.want else c.spare ⟨ch, r, 1⟩
      | none => c.spare ⟨ch, r, 1⟩) c

/-- A read error at an address (R404), with what its poison spoils. -/
def Chip.dramErrorAt (c : Chip) (addr reader : Nat) (k : DramKind) (t : DramTarget) : Chip :=
  if DramKind.correctable k then
    (DramKind.devices k).eraseDups.foldl (fun c d =>
      match c.rankAt (d / 10) addr with
      | some r => c.bucketUp (d / 10) r
      | none => c) (c.bump Reg.DRC_CE_COUNT_COUNT 1)
  else (c.uncorrectable addr reader k).poisonTarget reader t

/-- A DRAM read error (R404). -/
def Chip.dramError (c : Chip) (e : DramError) : Chip :=
  c.dramErrorAt (c.targetAddr e.off e.target) e.reader.val e.kind e.target

/-- A unit written as poisoned (R406, R408). -/
def Chip.writePoison (c : Chip) (addr : Nat) : Chip :=
  (c.bump Reg.DRC_POISON_COUNT_COUNT 1).raise 201 0 [(8, addr)]

/-- An error met by a controller that rewrites the unit it read (R402, R406, R408): one that cannot be corrected leaves it
poisoned. -/
def Chip.rewritten (c : Chip) (addr reader : Nat) (k : DramKind) (t : DramTarget) : Chip :=
  let c := c.dramErrorAt addr reader k t
  if DramKind.correctable k then c else c.writePoison addr

/-- A write shorter than a unit merged into it (R402): the unit is read first, and a read that cannot be corrected leaves it
poisoned; a write of whole units reads nothing. The read and the write are one step of one command, so no other access to the
unit comes between them. -/
def Chip.mergeWrite (c : Chip) (bytes : Nat) (e : DramError) : Chip :=
  if bytes % 64 = 0 then c else c.rewritten (c.targetAddr e.off e.target) e.reader.val e.kind e.target

/-- Errors met by the reads of an item for a host buffer, from a region (R403, R404). -/
def Chip.hostReads (c : Chip) (k : Fin 5) (reads : List UnitRead) : Chip :=
  reads.foldl (fun c r => c.dramError ⟨r.err.kind, r.err.off, 4, .region k⟩) c

/-- Whether class 6 work goes on: not in self-refresh, nor before the retraining after it (R400). -/
def Chip.classSix (c : Chip) : Bool := !c.selfRefresh && c.eyeOwed.isEmpty

/-- Patrol scrub reads the next unit in its turn, at the pace that takes every unit in HOURS (R406). A command that names another
rank or bank than the pass has reached does nothing. -/
def Chip.scrub (c : Chip) (l bank : Nat) (err : Option DramError) : Chip :=
  let hours := c.get Reg.DRC_SCRUB_HOURS
  let total := c.lranks * c.lrankUnits
  let addr := 64 * c.scrubbed
  if hours = 0 ∨ c.inService l = false ∨ c.classSix = false ∨ l ≠ c.lrankOf addr ∨ bank ≠ (bankRow (c.rankUnit addr)).1 then c
  else
    let period := 3600000000000 * hours
    let c := (c.advanceTo (c.scrubStart + period * c.scrubbed / total)).touch addr
    let c := match err with
      | none => c
      | some e => c.rewritten addr 5 e.kind (c.heldAt addr e.target)
    let n := c.scrubbed + 1
    if n < total then { c with scrubbed := n }
    else { c with scrubbed := 0, scrubStart := c.scrubStart + period }.raise 206 0 []

/-- One unit of the migration copied (R408), with an error that a read of the spare below C met, and one of the old rank at C. Of
two errors the spare's comes first; where it abandons the migration, nothing is copied (R409). -/
def Chip.migrationCopy (c : Chip) (oldErr spareErr : Option DramError) : Chip :=
  match c.migration with
  | none => c
  | some m =>
    if c.classSix = false then c
    else
      let w := m.want
      let sp := c.get Reg.DRC_CFG_SPARE_RANK
      let l := c.get (Reg.DRC_RANK_STATUS_LRANK (4 * w.channel + w.rank))
      let at' := fun (u : Nat) => 64 * (l * c.lrankUnits + u)
      let c := match spareErr with
        | some e =>
          if m.copied = 0 then c
          else
            let a := at' (e.off / 64 % m.copied)
            c.dramErrorAt a 6 e.kind (c.heldAt a e.target)
        | none => c
      if c.migration ≠ some m then c
      else
        let c := c.touch (at' m.copied)
        let c := match oldErr with
          | none => c
          | some e => c.rewritten (at' m.copied) 6 e.kind (c.heldAt (at' m.copied) e.target)
        let n := m.copied + 1
        let c := { c with migration := some { m with copied := n } }.put Reg.DRC_SPARE_STATUS_PERMILLE (1000 * n / c.lrankUnits)
        if n < c.lrankUnits then c
        else
          let c := (c.setRank w.channel w.rank 5).setRank w.channel sp 1
          let c := c.put (Reg.DRC_RANK_STATUS_LRANK (4 * w.channel + sp)) l
          let c := (c.putBit Reg.DRC_SPARE_STATUS_USED w.channel true).spareRecord w 256
          (c.raise 199 0 []).endMigration

/-- A rank retrained (R395): when its interval has passed, when its temperature has moved by 10 °C, or at once after
self-refresh, its channel's spare too (R400). -/
def Chip.retrain (c : Chip) (ch r : Nat) (m : EyeRead) (lane : Nat) : Chip :=
  let k := 4 * ch + r
  let owed := c.eyeOwed.contains k
  if c.selfRefresh ∨ (c.serving ch r || owed) = false then c
  else
    let due := SMap.get 0 k c.eyeDue
    let c : Chip := if owed then { c with eyeOwed := c.eyeOwed.filter fun (x : Nat) => decide (x ≠ k) }
      else if m.byTemp then c
      else { c.advanceTo due with eyeDue := SMap.set 0 k (due + c.retrainNs) c.eyeDue }
    let c := (c.emit (.dram 5 r ch)).put (Reg.DRC_RANK_STATUS_EYE k) (min 127 m.eye)
    if max 1 (c.get Reg.DRC_TRAIN_CFG_MIN_EYE) ≤ m.eye then c
    else
      let c := c.raise 194 0 [(1, ch), (1, r), (1, lane)]
      if c.flag Reg.DRC_ECC_CFG_PRE_SPARE ∧ c.serving ch r then c.spare ⟨ch, r, 3⟩ else c

/-- Every bucket loses 1 (R405). -/
def Chip.bucketLeak (c : Chip) : Chip :=
  if c.flag Reg.DRC_STATUS_TRAINED = false then c
  else
    let c := c.advanceTo c.leakDue
    let c := { c with leakDue := c.leakDue + c.leakNs }
    (List.range 8).foldl (fun c k =>
      c.put (Reg.DRC_RANK_STATUS_BUCKET k) (c.get (Reg.DRC_RANK_STATUS_BUCKET k) - 1)) c

/-- A write of DRC.SPARE_CTRL (R407). -/
def Chip.spareCtrl (c : Chip) (v : Nat) : Chip :=
  if bit v 0 then c.spare ⟨bits v 4 1, bits v 8 2, 4⟩ else c

/-- Ranks that hold data, serve, or stand by, as 4 × channel + rank. -/
def Chip.liveRanks (c : Chip) : List Nat :=
  (List.range 8).filter fun k => decide (1 ≤ c.rankState (k / 4) (k % 4) ∧ c.rankState (k / 4) (k % 4) ≤ 4)

/-- Owed refreshes issued, and every rank put in self-refresh (R400). -/
def Chip.dramSleep (c : Chip) : Chip :=
  let ls := (List.range 4).filter c.inService
  let c := ls.foldl (fun c l => (c.refresh l (c.owed l).toNat).setOwed l 0) c
  { c.emits (c.liveRanks.map fun k => Output.dram 3 (k % 4) (k / 4)) with selfRefresh := true }

/-- Self-refresh left: every rank is to be retrained before any traffic, and each schedule starts at B = 0 (R400). -/
def Chip.dramWake (c : Chip) : Chip :=
  let ls := (List.range 4).filter c.inService
  let c := ls.foldl (fun c l => c.setOwed l 0) c
  let due := ls.foldl (fun (m : SMap Nat) l => SMap.set 0 l (c.clk + c.trefi l) m) c.refreshDue
  { c.emits (c.liveRanks.map fun k => Output.dram 4 (k % 4) (k / 4)) with
    selfRefresh := false
    refreshDue := due
    eyeOwed := c.liveRanks }

/-- DRAM is zeroed (R391), after the controller is ready: the LAYER rings held for it fetch, and the CSI receivers are powered. -/
def Chip.initDone (c : Chip) : Chip :=
  if c.flag Reg.DRC_STATUS_TRAINED = false ∨ c.flag Reg.CFG_STATUS_READY = false ∨ c.flag Reg.DRC_STATUS_INIT_DONE then c
  else
    let c := c.emits ((List.range c.lranks).map fun l => Output.dram 6 l 0)
    let c := (c.put Reg.DRC_STATUS_INIT_DONE 1).putB Reg.CAM_STATUS_RUNNING (decide (c.pstate ≤ 1))
    (List.range 2).foldl (fun c p => (List.range 64).foldl (fun (c : Chip) n => c.spaceCome p n) c) c

/-! ### The commands -/

/-- TRAINING_END (R394). -/
def execTrainingEnd (eyes : List Nat) (s : State) : Host.Outcome State Fault Refusal := s.go (s.toChip.trainingEnd eyes)

/-- INIT_DONE (R391). -/
def execInitDone (s : State) : Host.Outcome State Fault Refusal := s.go s.toChip.initDone

/-- RETRAIN (R395). -/
def execRetrain (ch : Fin 2) (r : Fin 4) (m : EyeRead) (lane : Fin 10) (s : State) : Host.Outcome State Fault Refusal :=
  s.go (s.toChip.retrain ch.val r.val m lane.val)

/-- PAGE_IDLE_PRECHARGE (R396). -/
def execPageIdlePrecharge (r : Fin 4) (bank : Fin 32) (s : State) : Host.Outcome State Fault Refusal :=
  s.go (s.toChip.pageIdle r.val bank.val)

/-- REFRESH_DUE (R397). -/
def execRefreshDue (r : Fin 4) (busy : Bool) (s : State) : Host.Outcome State Fault Refusal :=
  s.go (s.toChip.refreshFalls r.val busy)

/-- REFRESH_CATCH_UP (R397). -/
def execRefreshCatchUp (r : Fin 4) (busy : Bool) (s : State) : Host.Outcome State Fault Refusal :=
  s.go (s.toChip.catchUp r.val busy)

/-- MR4_POLL (R398, R399). -/
def execMr4Poll (r : Fin 4) (doubled beyond : Bool) (s : State) : Host.Outcome State Fault Refusal :=
  s.go (s.toChip.mr4Poll r.val doubled beyond)

/-- BUCKET_LEAK (R405). -/
def execBucketLeak (s : State) : Host.Outcome State Fault Refusal := s.go s.toChip.bucketLeak

/-- PATROL_SCRUB (R406). -/
def execPatrolScrub (r : Fin 4) (bank : Fin 32) (err : Option DramError) (s : State) : Host.Outcome State Fault Refusal :=
  s.go (s.toChip.scrub r.val bank.val err)

/-- MIGRATION_COPY (R408, R409). -/
def execMigrationCopy (oldErr spareErr : Option DramError) (s : State) : Host.Outcome State Fault Refusal :=
  s.go (s.toChip.migrationCopy oldErr spareErr)

end Sys2Proof.Machine
end

