-- ==== Sys2Proof/Machine/Link.lean ====
section
/-! DEFINITION. Machine/Link.lean: the Tririd Head Link (R212 to R245): lane states and alignment, the elastic buffer,
loss of lock, packets, their symbols and their sending order, replay, TIME exchanges, MGMT requests, loopbacks and test patterns. -/

namespace Sys2Proof.Machine

/-- Symbol time of a rate code in tenths of a nanosecond (R212). -/
def symbolTenths (rate : Nat) : Nat :=
  match rate with
  | 0 => 80
  | 1 => 40
  | 2 => 32
  | 3 => 20
  | _ => 16

/-- Lane rate in Mb/s (R212). -/
def laneMbps (rate : Nat) : Nat :=
  match rate with
  | 0 => 1250
  | 1 => 2500
  | 2 => 3125
  | 3 => 5000
  | _ => 6250

/-- L of R213: lines per second a lane carries for a head of G nozzles. -/
def laneLines (rate g : Nat) : Nat := 3 * laneMbps rate * 1000000 / (4 * 10 * (g / 2 + 48))

/-- State of a lane (R218): 0 OFF, 1 SEEK, 2 LINKED, 3 READY, 4 LOOP. -/
def Chip.laneState (c : Chip) (n : Nat) : Nat := c.get (Reg.THL_LANE_STATUS_STATE n)

/-- Whether a lane is LINKED or READY. -/
def Chip.laneUp (c : Chip) (n : Nat) : Bool := decide (c.laneState n = 2) || decide (c.laneState n = 3)

/-- Rate in use on a lane. -/
def Chip.laneRate (c : Chip) (n : Nat) : Nat := c.get (Reg.THL_LANE_STATUS_RATE_NOW n)

/-- Whether a port has a head configured (R252). -/
def Chip.configured (c : Chip) (n : Nat) : Bool := decide (c.get (Reg.HED_HEAD_CFG_NOZZLES n) ≠ 0)

/-- One bit of a pair of LO and HI registers set or cleared. -/
def Chip.putPairBit (c : Chip) (lo hi : Field) (n : Nat) (b : Bool) : Chip :=
  if n < 32 then c.putBit lo n b else c.putBit hi (n - 32) b

/-- A lane's state changed, with STATE_CHG and the READY and LINKED bits. -/
def Chip.setLaneState (c : Chip) (n st : Nat) : Chip :=
  let was := c.laneState n
  let c := c.put (Reg.THL_LANE_STATUS_STATE n) st
  let c := if was = st then c else c.put (Reg.THL_LANE_STATUS_STATE_CHG n) 1
  let c := c.putPairBit Reg.THL_READY_LO_LANES Reg.THL_READY_HI_LANES n (decide (st = 3))
  c.putPairBit Reg.THL_LINKED_LO_LANES Reg.THL_LINKED_HI_LANES n (decide (st = 2 ∨ st = 3))

/-- R245: a lane source raised with a cause and the lane state. -/
def Chip.laneCause (c : Chip) (n cause : Nat) : Chip :=
  (c.put (Reg.THL_LANE_STATUS_LAST_CAUSE n) cause).raise (64 + n) cause [(1, c.laneState n)]

/-- R240: a head is taken out of firing, with cause HEAD_OUT. -/
def Chip.headOut (c : Chip) (h : Nat) : Chip :=
  if c.owns ∧ c.inArmed h ∧ (c.headRun h).isOut = false then (c.laneCause h 17).takeOut h else c

/-- A head's state set (R248), with STATE_CHG and the UP bit; a head that leaves UP raises EV121 (R249, R274). -/
def Chip.setHeadState (c : Chip) (h st : Nat) : Chip :=
  let was := c.get (Reg.HED_HEAD_STATUS_STATE h)
  let c := c.put (Reg.HED_HEAD_STATUS_STATE h) st
  let c := if was = st then c else c.put (Reg.HED_HEAD_STATUS_STATE_CHG h) 1
  let c := c.putPairBit Reg.HED_UP_LO_HEADS Reg.HED_UP_HI_HEADS h (decide (st = 5))
  c.raiseIf (decide (was = 5) && decide (st ≠ 5)) 121 0 []

/-- HED.HEADn_LOADED cleared. -/
def Chip.clearLoaded (c : Chip) (h : Nat) : Chip :=
  (((c.put (Reg.HED_HEAD_LOADED_DRIVE h) 0).put (Reg.HED_HEAD_LOADED_GROUPS h) 0).put (Reg.HED_HEAD_LOADED_TRIM h) 0).put
    (Reg.HED_HEAD_LOADED_SLOT h) 0

/-- A head whose lane has left LINKED and READY: ABSENT, with EV121 if it was UP (R249). -/
def Chip.headAbsent (c : Chip) (h : Nat) : Chip :=
  let x := c.head h
  let c := (c.setHeadX h { accepted := x.accepted, lastTag := x.lastTag }).clearLoaded h
  if c.get (Reg.HED_HEAD_STATUS_STATE h) = 0 then c else c.setHeadState h 0

/-! ### What a lane sends outside packets (R215, R218) -/

/-- The time of n symbols at a rate, rounded up (R212). -/
def wireNs (rate n : Nat) : Nat := (n * symbolTenths rate + 9) / 10

/-- When the next packet or ordered set of a lane may start: at once, or at the end of what is being sent. -/
def Chip.wireFree (c : Chip) (n : Nat) : Nat := max c.clk (c.lane n).currentEnd

/-- Symbols from the start of the last FILL to a packet that starts now: a lane that sends nothing else sends FILL after FILL
(R215). Where in a FILL the idle lane stands is the model's choice: at its end. -/
def Chip.wireGap (c : Chip) (n : Nat) : Nat := if (c.lane n).currentEnd < c.clk then 2 else (c.lane n).gap

/-- The lane turns to sending something other than packets: of what it repeats, the code groups put out are those of the first
round. After TRAIN or a pattern its running disparity is a free value. -/
def Chip.laneSends (c : Chip) (n : Nat) (what : LaneLine) : Chip :=
  let l := c.lane n
  let syms := match what with
    | .idle => []
    | .train => symsTrain
    | .fill => symsFill
    | .prbs code => prbsSyms code
  let c := c.emit (.laneLine n what (codeGroups l.plus syms).1)
  match what with
  | .idle => c
  | .fill => c
  | _ => c.drawn.setLane n { l with plus := Config.freeBool c.fresh }

/-- One FILL at a packet boundary with nothing to send (R215, R236). -/
def Chip.sendFill (c : Chip) (n : Nat) : Chip :=
  let start := c.wireFree n
  let c := c.laneSends n .fill
  c.setLane n { c.lane n with gap := 2, currentEnd := start + wireNs (c.laneRate n) 2 }

/-- The symbols of the packet in progress that have gone; a FILL begun is sent whole (R214). -/
def Chip.sentSyms (c : Chip) (n : Nat) : List Symbol :=
  let l := c.lane n
  let tenths := symbolTenths (c.laneRate n)
  let k := (10 * (c.clk - l.wireFrom) + tenths - 1) / tenths
  if (l.wire.take k).getLast? = some symComma then l.wire.take (k + 1) else l.wire.take k

/-- The running disparity after what a lane has sent by now (R214). -/
def Chip.plusNow (c : Chip) (n : Nat) : Bool :=
  let l := c.lane n
  if c.clk < l.currentEnd ∧ l.current.isSome then (codeGroups l.plusFrom (c.sentSyms n)).2 else l.plus

/-- What a lane keeps as it leaves LINKED or READY: it drops kept packets, series, exchanges and requests (R224, R229, R230); its
running disparity goes on (R214), and so does what the last TLM's faults rise against (R260). -/
def Lane.dropped (l : Lane) (plus : Bool) : Lane :=
  { errs := []
    level := 16
    plus := plus
    mtag := l.mtag
    tseq := l.tseq
    enabledAt := l.enabledAt
    failTold := l.failTold
    noSwitch := l.noSwitch
    common := l.common
    switching := l.switching
    fault := l.fault
    faultNew := l.faultNew }

/-- A lane goes to OFF, SEEK or LOOP (R218), and X10 and X11 of it are quarantined (R459). -/
def Chip.laneLeave (c : Chip) (n st : Nat) : Chip :=
  let c := c.setLane n ((c.lane n).dropped (c.plusNow n))
  let c := ((c.put (Reg.THL_LANE_STATUS_TIME_LOCK n) 0).put (Reg.THL_LANE_LSEQ_NEXT n) 0).put (Reg.THL_LANE_LSEQ_ACKED n) 0
  let c := (c.put (Reg.THL_LANE_CAPS_CAPS n) 0).put (Reg.THL_LANE_ALIGN_STATUS_COMMA_OK n) 0
  let c := if c.laneState n = 0 then c.quarantine 10 n else c.flushQueue 10 n (some 32)
  (c.quarantine 11 n).setLaneState n st

/-- A lane enters SEEK and sends TRAIN (R218); away from 1.25 Gb/s in independent clocking it has 10 ms (R222). -/
def Chip.laneSeek (c : Chip) (n : Nat) : Chip :=
  let c := (c.laneLeave n 1).laneSends n .train
  let l := c.lane n
  if c.laneRate n = 0 ∧ l.common = false then c else c.setLane n { l with seekSince := some c.clk }

/-- R221: a lane in LINKED or READY loses lock with a cause. -/
def Chip.loseLock (c : Chip) (n cause : Nat) : Chip :=
  if c.laneUp n = false then c
  else
    let l := c.lane n
    let base := decide (c.laneRate n = 0) && !l.common
    let c := (c.setLane n { l with noSwitch := l.noSwitch && !base, switching := false }).bump (Reg.THL_LANE_LOSSES_COUNT n) 1
    let c := (c.laneSeek n).laneCause n cause
    (c.headOut n).headAbsent n

/-! ### Alignment (R220) -/

/-- One search: the position found, or none of the ten. -/
def Chip.alignOnce (c : Chip) (n : Nat) (found : Option (Fin 10)) : Chip :=
  let c := (c.put (Reg.THL_LANE_ALIGN_STATUS_CODE_ERR n) 0).put (Reg.THL_LANE_ALIGN_STATUS_OFF_BOUNDARY n) 0
  match found with
  | some p =>
    let c := (c.put (Reg.THL_LANE_ALIGN_STATUS_POS n) p.val).put (Reg.THL_LANE_ALIGN_STATUS_COMMA_OK n) 1
    let c := c.put Reg.PHY_REF_STATUS_PLL_LOCK 1
    (c.setLane n { c.lane n with aligned := true, retryAt := none }).laneSends n .fill
  | none =>
    let c := c.put (Reg.THL_LANE_ALIGN_STATUS_COMMA_OK n) 0
    let again := if c.flag (Reg.THL_LANE_CFG_AUTO_ALIGN n) then some (c.clk + 2000000) else none
    (c.setLane n { c.lane n with aligned := false, retryAt := again }).laneSends n .train

/-- What the last 256 symbols of a powered lane held is the line's, a free value: COMMA_OK and OFF_BOUNDARY as they then stand
(R220). Every comma of a lane that is up is on the boundary (R221). -/
def Chip.lookLine (c : Chip) (n : Nat) : Chip :=
  if c.laneState n = 0 then c
  else
    let ok := Config.freeBool c.fresh
    let off := !ok && !c.laneUp n && Config.freeBool (c.fresh + 1)
    (c.drawn.drawn.putB (Reg.THL_LANE_ALIGN_STATUS_COMMA_OK n) ok).putB (Reg.THL_LANE_ALIGN_STATUS_OFF_BOUNDARY n) off

/-- A lane in SEEK that has found the boundary sends FILL in place of TRAIN (R220). -/
def Chip.seekSends (c : Chip) (n : Nat) : Chip :=
  if c.laneState n ≠ 1 then c
  else
    let ok := c.flag (Reg.THL_LANE_ALIGN_STATUS_COMMA_OK n)
    (c.setLane n { c.lane n with aligned := ok }).laneSends n (if ok then .fill else .train)

/-- A read of THL.LANEn_ALIGN_STATUS finds what the last 256 symbols held; with AUTO_ALIGN clear the host's search ends with the
read that finds the boundary (R220). -/
def Chip.alignRead (c : Chip) (n : Nat) : Chip :=
  let c := c.lookLine n
  if c.flag (Reg.THL_LANE_CFG_AUTO_ALIGN n) then c else c.seekSends n

/-- SLIP shifts the deserialiser by one bit. -/
def Chip.slipOnce (c : Chip) (n : Nat) : Chip :=
  ((c.put (Reg.THL_LANE_ALIGN_STATUS_POS n) ((c.get (Reg.THL_LANE_ALIGN_STATUS_POS n) + 1) % 10)).lookLine n).seekSends n

/-! ### The elastic buffer (R216, R217) -/

/-- Whether a lane's receiver takes symbols on their boundary: aligned in SEEK, LINKED, READY, or in a loopback. -/
def Chip.receives (c : Chip) (n : Nat) : Bool :=
  c.laneUp n || decide (c.laneState n = 4) || (decide (c.laneState n = 1) && (c.lane n).aligned)

/-- Whether a near-end loop returns a lane its own pattern (R242). The serial loop inverts it where only one polarity bit is
set: what the checker then finds is free. -/
def Chip.nearEnd (c : Chip) (n : Nat) : Bool :=
  decide (c.get (Reg.PHY_LANE_CTRL_LOOP n) = 2) ||
    (decide (c.get (Reg.PHY_LANE_CTRL_LOOP n) = 1) &&
      decide (c.get (Reg.PHY_LANE_CTRL_TX_INV n) = c.get (Reg.PHY_LANE_CTRL_RX_INV n)))

/-- The bit errors that a PRBS checker has found since the FILL before this one: a free count, and none where a near-end loop
returns the pattern (R243). -/
def Chip.prbsErrors (c : Chip) (n : Nat) : Chip :=
  if c.laneState n = 4 ∧ c.flag (Reg.PHY_LANE_CTRL_PRBS n) ∧ c.nearEnd n = false then
    c.drawn.bump (Reg.PHY_LANE_PRBS_ERR_COUNT n) (Config.freeNat c.fresh)
  else c

/-- A received FILL at a level of the buffer: deleted above 20, doubled below 12, and lock lost outside 2 to 30. -/
def Chip.fillTaken (c : Chip) (n level : Nat) : Chip :=
  if c.receives n = false then c
  else if 30 < level ∨ level < 2 then (c.setLane n { c.lane n with level := level }).loseLock n 5
  else if (c.lane n).common then c.setLane n { c.lane n with level := level }
  else if 20 < level then
    (c.countAcross 11 n (Reg.THL_LANE_FILL_DEL_COUNT n) 1).setLane n { c.lane n with level := level - 2 }
  else if level < 12 then
    (c.countAcross 11 n (Reg.THL_LANE_FILL_INS_COUNT n) 1).setLane n { c.lane n with level := level + 2 }
  else c.setLane n { c.lane n with level := level }

/-- An invalid code group, a disparity error, or a control character of no ordered set (R214), at a symbol number: the fourth
within 256 symbols loses lock (R221). -/
def Chip.codeError (c : Chip) (n symbol : Nat) : Chip :=
  let c := c.countAcross 11 n (Reg.THL_LANE_ALIGN_STATUS_CODE_ERR n) 1
  let l := c.lane n
  let errs := (symbol :: l.errs).take 4
  let c := c.setLane n { l with errs := errs }
  match errs with
  | [_, _, _, old] => if symbol < old + 256 then c.loseLock n 2 else c
  | _ => c

/-! ### MGMT requests (R231, R233) -/

/-- A MGMT request queued with the next MTAG. -/
def Chip.mgmt (c : Chip) (n : Nat) (q : MgmtReq) : Chip :=
  let l := c.lane n
  c.setLane n { l with mgmtQ := l.mgmtQ ++ [(l.mtag, q)], mtag := (l.mtag + 1) % 256 }

/-- A READ request. -/
def Chip.mgmtRead (c : Chip) (n space addr count : Nat) (why : MgmtWhy) : Chip :=
  c.mgmt n ⟨1, space, addr, count, [], why, false⟩

/-- A WRITE request of at most 1,024 bytes. -/
def Chip.mgmtWrite (c : Chip) (n space addr : Nat) (data : List Byte) (why : MgmtWhy) (arming : Bool) : Chip :=
  c.mgmt n ⟨2, space, addr, data.length, data, why, arming⟩

/-- Body of a MGMT request (R231). -/
def MgmtReq.body (q : MgmtReq) (tag : Nat) : List Byte :=
  leBytes 1 q.op ++ leBytes 1 q.space ++ leBytes 1 tag ++ leBytes 1 0 ++ leBytes 4 q.addr ++ leBytes 2 q.count ++ leBytes 2 0 ++
    q.data

/-! ### Sending (R223 to R228, R236, R237) -/

/-- A packet from SOP to EOP: header, body and CRC (R223). -/
def packet (type flags lseq : Nat) (body : List Byte) : List Byte :=
  let h := leBytes 1 type ++ leBytes 1 flags ++ leBytes 2 body.length ++ leBytes 2 lseq ++ leBytes 2 0 ++ body
  h ++ leBytes 4 (crc32 h)

/-- The symbols of a packet that starts now, with the FILLs that fall in it (R215). -/
def Chip.wireOf (c : Chip) (n : Nat) (bytes : List Byte) : List Symbol := withFills (c.wireGap n) (packetSyms bytes)

/-- The nanoseconds from now to the end of a packet's EOP, if it starts next (R158, R236). -/
def Chip.packetNs (c : Chip) (n : Nat) (bytes : List Byte) : Nat :=
  c.wireFree n + wireNs (c.laneRate n) (c.wireOf n bytes).length - c.clk

/-- Body of a SHOT (R225). -/
def Shot.body (s : Shot) (void : Bool) : List Byte :=
  leBytes 4 s.index ++ leBytes 8 s.tag.toNat ++ leBytes 8 (unsigned 64 s.per) ++ leBytes 4 0 ++
    (if void then [] else packCodes s.codes)

/-- Body of a RETIME (R227). -/
def Retime.body (r : Retime) : List Byte :=
  leBytes 4 r.j ++ leBytes 4 0 ++ leBytes 8 r.t0.toNat ++ leBytes 8 (unsigned 64 r.p) ++ leBytes 8 (unsigned 64 r.d)

/-- The shot of an index as it now stands, else as it was kept. -/
def Chip.shotNow (c : Chip) (h i : Nat) (old : Option Shot) : Option Shot :=
  match (c.headRun h).shots.find? fun (s : Shot) => decide (s.index = i) with
  | some s => some s
  | none => old

/-- ET at the SOP of a packet that starts next: after what is being sent, and after a FILL that is due (R215, R228). -/
def Chip.sopEt (c : Chip) (n : Nat) : ET :=
  let fill := if 1024 ≤ c.wireGap n then wireNs (c.laneRate n) 2 else 0
  (c.advance (c.wireFree n - c.clk + fill)).now

/-- The packet of an item, with its LSEQ. An ADJ's RATE of h + ρ beyond signed 32 bits, where the spec states no value, wraps
(DESIGN CHOICE, log 93). -/
def Chip.itemPacket (c : Chip) (n lseq : Nat) (it : LaneItem) (kept : Option Shot) : List Byte :=
  match it with
  | .calve k trigger => packet 2 0 0 (leBytes 4 k ++ leBytes 1 trigger ++ leBytes 3 0)
  | .retime r => packet 3 0 lseq r.body
  | .timeReq q => packet 4 0 0 (leBytes 2 0 ++ leBytes 2 q ++ leBytes 4 0 ++ leBytes 8 (c.sopEt n).toNat)
  | .adj q step rate lock => packet 4 0 0 (leBytes 2 2 ++ leBytes 2 q ++ leBytes 4 0 ++ leBytes 8 (unsigned 64 step) ++
      leBytes 4 (unsigned 32 rate) ++ leBytes 4 (b2n lock))
  | .shot i => match c.shotNow n i kept with
    | some s => packet 1 0 lseq (s.body false)
    | none => []
  | .void i tag per => packet 1 1 lseq (leBytes 4 i ++ leBytes 8 tag.toNat ++ leBytes 8 (unsigned 64 per) ++ leBytes 4 0)
  | .mgmt tag q => packet 5 0 lseq (q.body tag)

/-- Type of an item's packet. -/
def LaneItem.type : LaneItem → Nat
  | .shot _ => 1
  | .void _ _ _ => 1
  | .calve _ _ => 2
  | .retime _ => 3
  | .timeReq _ => 4
  | .adj _ _ _ _ => 4
  | .mgmt _ _ => 5

/-- Whether an item goes on a READY lane only (R219). -/
def LaneItem.needsReady (it : LaneItem) : Bool := decide (it.type ≤ 3)

/-- Whether an item is in the series of R224. -/
def LaneItem.sequenced : LaneItem → Bool
  | .shot _ => true
  | .void _ _ _ => true
  | .retime _ => true
  | .mgmt _ _ => true
  | _ => false

/-- A packet's symbols go on the lane from its SOP on. -/
def Chip.sendSyms (c : Chip) (n type : Nat) (bytes : List Byte) : Chip :=
  let l := c.lane n
  let gap := c.wireGap n
  let w := c.wireOf n bytes
  let g := codeGroups l.plus w
  let start := c.wireFree n
  (c.emit (.lane n type bytes g.1)).setLane n { l with
    wire := w, plusFrom := l.plus, gapFrom := gap, wireFrom := start, plus := g.2, gap := gapAfter gap w
    currentEnd := start + wireNs (c.laneRate n) w.length }

/-- ABORT after the symbols of the packet in progress that have gone (R236), and after a FILL that is due (R215). -/
def Chip.cutSyms (c : Chip) (n : Nat) : Chip :=
  let l := c.lane n
  let sent := c.sentSyms n
  let gap := gapAfter l.gapFrom sent
  let w := withFills gap [symAbort]
  let a := codeGroups (codeGroups l.plusFrom sent).2 w
  (c.emit (.laneAbort n sent.length a.1)).setLane n { l with
    wire := [], plus := a.2, gap := gapAfter gap w
    currentEnd := l.wireFrom + wireNs (c.laneRate n) (sent.length + w.length) }

/-- SOP of an item: it is in progress until its packet ends; a sequenced one takes the next LSEQ and is kept, and an ADJ's rate
is the last sent (R229). -/
def Chip.startPacket (c : Chip) (n : Nat) (it : LaneItem) (replay : Option Kept) : Chip :=
  let lseq := match replay with
    | some k => k.lseq
    | none => c.get (Reg.THL_LANE_LSEQ_NEXT n)
  let bytes := c.itemPacket n lseq it (match replay with
    | some k => k.shot
    | none => none)
  let shot := match it with
    | .shot i => c.shotNow n i none
    | _ => none
  let fresh := it.sequenced && replay.isNone
  let c := c.sendSyms n it.type bytes
  let l := c.lane n
  let c := c.setLane n { l with
    current := some it
    replaying := replay.map (·.lseq)
    kept := if fresh then l.kept ++ [Kept.mk lseq it c.clk shot false] else l.kept }
  let c := match it with
    | .adj _ _ rate _ => c.putSat (Reg.THL_LANE_HRATE_RATE n) rate
    | _ => c
  if fresh then c.put (Reg.THL_LANE_LSEQ_NEXT n) (lseq + 1) else c

/-- R236: the packet in progress ends with ABORT: a sequenced one gives its LSEQ up and waits its turn again, an aborted
replay goes again, and a TIME packet is dropped. -/
def Chip.abortPacket (c : Chip) (n : Nat) : Chip :=
  let l := c.lane n
  match l.current with
  | none => c
  | some it =>
    let was := l.replaying
    let c := (c.cutSyms n).bump (Reg.THL_LANE_ABORTS_COUNT n) 1
    let l := { c.lane n with current := none, replaying := none }
    match was with
    | some q => c.setLane n { l with replay := (l.kept.filter fun (k : Kept) => decide (k.lseq = q)) ++ l.replay }
    | none =>
      if it.sequenced = false then c.setLane n l
      else
        let c := c.put (Reg.THL_LANE_LSEQ_NEXT n) (c.get (Reg.THL_LANE_LSEQ_NEXT n) + 65535)
        let l := { l with kept := l.kept.dropLast }
        match it with
        | .shot i =>
          let x := c.headRun n
          (c.setLane n l).setHead n { x with
            shots := x.shots.map fun (s : Shot) => if s.index = i then { s with sent := false } else s }
        | .retime r => c.setLane n { l with retimes := r :: l.retimes }
        | .mgmt tag q => c.setLane n { l with mgmtQ := (tag, q) :: l.mgmtQ }
        | _ => c.setLane n l

/-- Whether what waits on a lane ends the packet in progress (R236). -/
def Chip.mustAbort (c : Chip) (n : Nat) : Bool :=
  let l := c.lane n
  match l.current with
  | none => false
  | some it =>
    decide (c.clk < l.currentEnd) && decide (c.laneState n = 3) &&
      ((decide (it.type ≠ 2) && !l.calves.isEmpty) ||
        (decide (it.type = 1 ∨ it.type = 4 ∨ it.type = 5) && l.replaying.isNone && l.replay.isEmpty &&
          !l.retimes.isEmpty && decide (l.kept.length < 256)))

/-- An ADJ due for a change of ETM.RATE or a step of ET since the last one (R229). -/
def Chip.adjDue (c : Chip) (n : Nat) : Option LaneItem :=
  let l := c.lane n
  let rho := c.getI Reg.ETM_RATE_RATE
  if c.owns = false ∨ (l.rateSent = rho ∧ l.stepSeen = c.stepSum) then none
  else some (.adj l.rspSeq (c.stepSum - l.stepSeen) (l.h + rho) (c.flag (Reg.THL_LANE_STATUS_TIME_LOCK n)))

/-- An ADJ takes in the rate and the steps of now. -/
def Chip.adjSent (c : Chip) (n : Nat) : Chip :=
  let rho := c.getI Reg.ETM_RATE_RATE
  c.setLane n { c.lane n with rateSent := rho, stepSeen := c.stepSum }

/-- A replayed packet goes again; a SHOT that is too late or calved goes as VOID, and its line is entered LATE (R237). -/
def Chip.sendReplay (c : Chip) (n : Nat) (k : Kept) : Chip :=
  match k.item with
  | .shot i =>
    match c.shotNow n i k.shot with
    | none => c
    | some s =>
      let ns := c.packetNs n (c.itemPacket n k.lseq k.item k.shot)
      if k.voided ∨ c.inTime s.tag ns = false then
        let c := c.shotVoid n s
        let l := c.lane n
        let v : LaneItem := .void i s.tag s.per
        let c := c.setLane n { l with kept := l.kept.map fun (q : Kept) => if q.lseq = k.lseq then { q with item := v } else q }
        c.startPacket n v (some k)
      else c.startPacket n k.item (some k)
  | _ => c.startPacket n k.item (some k)

/-- A new SHOT goes, or fails the check of R158. -/
def Chip.sendShot (c : Chip) (n : Nat) (s : Shot) : Chip :=
  let it : LaneItem := .shot s.index
  let ns := c.packetNs n (c.itemPacket n 0 it none)
  if c.inTime s.tag ns then (c.shotSent n s.index).startPacket n it none else c.shotLate n s

/-- A MGMT request goes and is outstanding; a repeat keeps its failures. -/
def Chip.sendMgmt (c : Chip) (n tag : Nat) (q : MgmtReq) : Chip :=
  let l := c.lane n
  let due := c.clk + 1000 * c.get Reg.THL_MGMT_TO_US
  let out := match l.mgmtOut.find? fun (o : MgmtOut) => decide (o.tag = tag) with
    | some _ => l.mgmtOut.map fun (o : MgmtOut) => if o.tag = tag then { o with due := due, busy := false } else o
    | none => l.mgmtOut ++ [MgmtOut.mk q tag 0 due false]
  (c.setLane n { l with mgmtQ := l.mgmtQ.drop 1, mgmtOut := out }).startPacket n (.mgmt tag q) none

/-- The order of R236 at a packet boundary. A replay whose next packet goes on a READY lane only holds every sequenced packet of a
lane that is not READY (R219, R224). -/
def Chip.sendNext (c : Chip) (n : Nat) : Chip :=
  let l := c.lane n
  let ready := decide (c.laneState n = 3)
  let held := !ready && l.replay.head?.any fun (k : Kept) => k.item.needsReady
  let room := decide (l.kept.length < 256) && !held
  let shot := if ready then c.nextShot n else none
  match ready, l.calves, (if held then [] else l.replay) with
  | true, (k, trigger) :: rest, _ =>
    ((c.setLane n { l with calves := rest }).bump Reg.CRN_CALVES_COUNT 1).startPacket n (.calve k trigger) none
  | _, _, k :: rest =>
    let c := c.setLane n { l with replay := rest }
    match l.kept.find? fun (q : Kept) => decide (q.lseq = k.lseq) with
    | some q => c.sendReplay n q
    | none => c
  | _, _, [] =>
    match ready && room, l.retimes, l.times, c.adjDue n with
    | true, r :: rest, _, _ =>
      ((c.setLane n { l with retimes := rest }).bump Reg.CRN_RETIMES_COUNT 1).startPacket n (.retime r) none
    | _, _, it :: rest, _ => (c.setLane n { l with times := rest }).startPacket n it none
    | _, _, [], some it => (c.adjSent n).startPacket n it none
    | _, _, [], none =>
      match room, shot, l.mgmtQ with
      | true, some s, _ => c.sendShot n s
      | true, none, (tag, q) :: _ =>
        if l.mgmtOut.length < 4 ∨ l.mgmtOut.any (fun (o : MgmtOut) => decide (o.tag = tag)) then c.sendMgmt n tag q
        else c.sendFill n
      | _, _, _ => c.sendFill n

/-- LANE_PACKET_SEND: the packet in progress ends, or is aborted, and the next item goes; in P2 and P3 a lane sends nothing
(R463). -/
def Chip.packetBoundary (c : Chip) (n : Nat) : Chip :=
  if c.laneUp n = false ∨ 2 ≤ c.pstate then c
  else if c.mustAbort n then (c.abortPacket n).sendNext n
  else
    let l := c.lane n
    let c := if l.current.isSome then c.advanceTo l.currentEnd else c
    (c.setLane n { c.lane n with current := none, replaying := none }).sendNext n

/-! ### TIME (R229, R230) -/

/-- A TIME REQ is due. -/
def Chip.timeRequest (c : Chip) (n : Nat) : Chip :=
  if c.laneUp n = false ∨ 2 ≤ c.pstate then c
  else
    let c := c.advanceTo (c.lane n).timeDue
    let l := c.lane n
    c.setLane n { l with
      times := l.times ++ [LaneItem.timeReq l.tseq]
      reqOut := some l.tseq
      tseq := (l.tseq + 1) % 65536
      timeDue := max l.timeDue c.clk + 1000 * c.get Reg.THL_TIME_CFG_PERIOD_US }

/-- TIME_LOCK, and the two exchanges that lose lock (R230). -/
def Chip.timeLock (c : Chip) (n : Nat) (theta : Int) : Chip :=
  let l := c.lane n
  let good := if |theta| ≤ 131072 then l.good + 1 else 0
  let far := decide (65536 * (c.get Reg.THL_TIME_CFG_ERR_NS : Int) < |theta|) && decide (c.laneState n = 3)
  let bad := if far then l.bad + 1 else 0
  let c := c.setLane n { l with good := good, bad := bad }
  let c := if 8 ≤ good then c.put (Reg.THL_LANE_STATUS_TIME_LOCK n) 1 else c
  if 2 ≤ bad then c.loseLock n 9 else c

/-- A packet that R223 discards is counted, on a lane that carries packets. -/
def Chip.rxDiscard (c : Chip) (n : Nat) : Chip :=
  if c.laneUp n then c.bump (Reg.THL_LANE_CRC_ERR_COUNT n) 1 else c

/-- A TIME RSP: rtt, θ, the rate loop, and the ADJ; each division rounds towards zero (R26). A step of ET that no ADJ has yet
taken to the head goes in a full-step ADJ before it. A negative rtt shows as 0 in the unsigned THL.LANEn_RTT, where the spec
states no value (DESIGN CHOICE, log 93). -/
def Chip.timeResponse (c : Chip) (n : Nat) (m : TimeRsp) : Chip :=
  let l := c.lane n
  if c.laneUp n = false ∨ l.reqOut ≠ some m.tseq.toNat then c
  else
    let asym := Int.tdiv (c.getI (Reg.THL_LANE_ASYM_PS n) * 65536) 1000
    let rtt := wrapDiff m.t4 m.t1 - wrapDiff m.t3 m.t2
    let oneWay := Int.tdiv rtt 2
    let theta := wrapDiff m.t2 m.t1 - (oneWay - Int.tdiv asym 2)
    let h := match l.thetaAt with
      | none => l.h
      | some t =>
        let tau := wrapDiff m.t4 t
        if tau ≤ 0 then l.h else l.h - (Int.tdiv (theta * 2 ^ 32) tau) >>> c.get Reg.THL_TIME_CFG_RATE_SHIFT
    let lim : Int := 65536 * c.get Reg.THL_TIME_CFG_MAX_STEP_NS
    let step := if (c.headRun n).shots.isEmpty then -theta else clampI (-theta) (-lim) lim
    let rho := c.getI Reg.ETM_RATE_RATE
    let lock := c.flag (Reg.THL_LANE_STATUS_TIME_LOCK n)
    let full := c.stepSum - l.stepSeen
    let adj : List LaneItem := (if full = 0 then [] else [LaneItem.adj m.tseq.toNat full (l.h + rho) lock]) ++
      [LaneItem.adj m.tseq.toNat step (h + rho) lock]
    let c := c.setLane n { l with
      h := h, theta := theta, oneWay := oneWay, thetaAt := some m.t4, reqOut := none, rspSeq := m.tseq.toNat
      times := if c.owns then l.times ++ adj else l.times, rateSent := rho, stepSeen := c.stepSum }
    let c := (c.put (Reg.THL_LANE_RTT_RTT n) (Int.tdiv rtt 256).toNat).putSat (Reg.THL_LANE_OFFSET_THETA n)
      (Int.tdiv theta 256)
    c.timeLock n theta

/-! ### READY (R213, R217, R219) -/

/-- Whether a lane runs at its configured rate and clocking. -/
def Chip.asConfigured (c : Chip) (n : Nat) : Bool :=
  decide (c.laneRate n = c.get (Reg.THL_LANE_CFG_RATE n)) && decide ((c.lane n).common = c.flag Reg.PHY_REF_CTRL_CLOCKING)

/-- Whether LINK.CAPS holds what the configuration asks for (R217, R219, R232). -/
def Chip.capsOk (c : Chip) (n caps : Nat) : Bool :=
  bit caps (c.get (Reg.THL_LANE_CFG_RATE n)) &&
    (if c.flag Reg.PHY_REF_CTRL_CLOCKING then bit caps 9 else bit caps 8) &&
    (!c.flag Reg.PHY_REF_CTRL_SPREAD || bit caps 10)

/-- RATE_LOW of R213: the head could be fired faster than its lane carries it. -/
def Chip.rateLow (c : Chip) (n : Nat) : Bool :=
  decide (c.get (Reg.HED_HEAD_PMIN_NS n) * laneLines (c.laneRate n) (c.gOf n) < 1000000000)

/-- A cause that holds a lane in LINKED, raised once. -/
def Chip.heldCause (c : Chip) (n cause : Nat) (told : Bool) (mark : Lane → Lane) : Chip :=
  if told then c else (c.setLane n (mark (c.lane n))).laneCause n cause

/-- The lane enters READY once every condition of R219 holds, while the controller owns (R420); what holds it back has its
cause. -/
def Chip.tryReady (c : Chip) (n : Nat) : Chip :=
  if c.laneState n ≠ 2 ∨ c.configured n = false ∨ c.asConfigured n = false ∨ c.owns = false then c
  else
    let l := c.lane n
    let caps := match l.caps with
      | some k => c.capsOk n k
      | none => false
    let up := decide (c.get (Reg.HED_HEAD_STATUS_STATE n) = 5) && c.flag (Reg.HED_HEAD_LOADED_SLOT n)
    if caps = false ∨ c.flag (Reg.THL_LANE_STATUS_TIME_LOCK n) = false ∨ up = false then c
    else if 300 * 65536 < l.oneWay then c.heldCause n 18 l.toldCable fun l => { l with toldCable := true }
    else if c.rateLow n then c.heldCause n 11 l.toldRate fun l => { l with toldRate := true }
    else (c.setLaneState n 3).laneCause n 16

/-! ### Loopbacks and test patterns (R242 to R244) -/

/-- LOOP entered or left as PHY.LANEn_CTRL stands. The checker of a near-end loop locks; else its lock is a free value (R243). -/
def Chip.loopState (c : Chip) (n : Nat) : Chip :=
  let on := c.flag (Reg.PHY_LANE_CTRL_LOOP n) || c.flag (Reg.PHY_LANE_CTRL_PRBS n)
  let c := if c.flag (Reg.PHY_LANE_CTRL_PRBS n) then
      c.drawn.putB (Reg.PHY_LANE_PRBS_STATUS_SYNC n) (c.nearEnd n || Config.freeBool c.fresh)
    else c.put (Reg.PHY_LANE_PRBS_STATUS_SYNC n) 0
  if on then
    let c := if c.laneState n = 4 then c else ((c.laneLeave n 4).headOut n).headAbsent n
    c.laneSends n (if c.get (Reg.PHY_LANE_CTRL_LOOP n) = 1 then .idle
      else if c.flag (Reg.PHY_LANE_CTRL_PRBS n) then .prbs (c.get (Reg.PHY_LANE_CTRL_PRBS n)) else .fill)
  else if c.laneState n = 4 then
    if c.flag (Reg.THL_LANE_CFG_ENABLE n) then c.laneSeek n else (c.laneLeave n 0).laneSends n .idle
  else c

/-- ENABLE set: the lane is powered and searches at 1.25 Gb/s in independent clocking (R218, R219); with a loopback or a pattern
set it is in LOOP. -/
def Chip.laneEnable (c : Chip) (n : Nat) : Chip :=
  let l := c.lane n
  let c := (c.put (Reg.THL_LANE_STATUS_RATE_NOW n) 0).setLane n { enabledAt := some c.clk
                                                                  fault := l.fault
                                                                  faultNew := l.faultNew }
  if c.flag (Reg.PHY_LANE_CTRL_LOOP n) ∨ c.flag (Reg.PHY_LANE_CTRL_PRBS n) then c.loopState n else c.laneSeek n

/-- ENABLE clear: the lane is OFF, its transmitter at electrical idle. -/
def Chip.laneDisable (c : Chip) (n : Nat) : Chip :=
  let l := c.lane n
  let c := ((c.setLane n { fault := l.fault
                           faultNew := l.faultNew }).put (Reg.THL_LANE_STATUS_RATE_NOW n) 0).laneLeave n 0
  ((c.laneSends n .idle).headOut n).headAbsent n

/-- What a lane's transmitter sends as its state stands (R218, R220, R242). -/
def Chip.laneLines (c : Chip) (n : Nat) : Chip :=
  if c.laneUp n then c.laneSends n .fill
  else if c.laneState n = 1 then c.laneSends n (if (c.lane n).aligned then .fill else .train)
  else if c.laneState n = 4 then c.loopState n
  else c

/-- Both transmitters of a powered lane at electrical idle, in low-power idle (R464). -/
def Chip.laneRests (c : Chip) (n : Nat) : Chip := if c.laneState n = 0 then c else c.laneSends n .idle

/-- LINK.LOOP is acknowledged: LOOP is set to 3, with the PRBS written beside it. A head that a layer has been armed with
meanwhile stays in the layer, and its lane raises LOOP_REFUSED (R242; DEDUCED: the write takes effect only now). -/
def Chip.loopAnswered (c : Chip) (n : Nat) : Chip :=
  let l := c.lane n
  match l.loopWants with
  | none => c
  | some prbs =>
    let c := c.setLane n { l with loopWants := none }
    if c.inArmed n then c.laneCause n 20
    else ((c.put (Reg.PHY_LANE_CTRL_LOOP n) 3).put (Reg.PHY_LANE_CTRL_PRBS n) prbs).loopState n

/-- A write of PHY.LANEn_CTRL. A far-end loopback on a lane that is up first has LINK.LOOP written (R242). -/
def Chip.phyCtrl (c : Chip) (n v : Nat) : Chip :=
  let loop := bits v 4 2
  let prbs := if bits v 8 2 = 3 then 0 else bits v 8 2
  if (loop ≠ 0 ∨ prbs ≠ 0) ∧ c.inArmed n then c.laneCause n 20
  else
    let c := (c.put (Reg.PHY_LANE_CTRL_TX_INV n) (bits v 0 1)).put (Reg.PHY_LANE_CTRL_RX_INV n) (bits v 1 1)
    let far := decide (loop = 3) && c.laneUp n
    let c := c.setLane n { c.lane n with loopWants := if far then some prbs else none }
    if far then c.mgmtWrite n 3 0x0C (leBytes 4 1) .loop false
    else ((c.put (Reg.PHY_LANE_CTRL_PRBS n) prbs).put (Reg.PHY_LANE_CTRL_LOOP n) loop).loopState n

/-! ### The commands that need nothing of the heads' chapter -/

/-- ALIGN_SEARCH (R220): the controller's own search in AUTO_ALIGN. -/
def execAlignSearch (n : Fin 48) (found : Option (Fin 10)) (s : State) : Host.Outcome State Fault Refusal :=
  let c := s.toChip
  s.go (if c.laneState n.val = 1 ∧ c.flag (Reg.THL_LANE_CFG_AUTO_ALIGN n.val) then c.alignOnce n.val found else c)

/-- ALIGN_RETRY (R220): in AUTO_ALIGN the search starts again 2 ms after one that found nothing. -/
def execAlignRetry (n : Fin 48) (found : Option (Fin 10)) (s : State) : Host.Outcome State Fault Refusal :=
  let c := s.toChip
  s.go <|
    match (c.lane n.val).retryAt with
    | none => c
    | some t => if c.laneState n.val = 1 ∧ c.flag (Reg.THL_LANE_CFG_AUTO_ALIGN n.val) then
        (c.advanceTo t).alignOnce n.val found else c

/-- A write of THL.LANEn_ALIGN (R220): SLIP, and SEARCH, with the position the search finds. -/
def Chip.alignCtrl (c : Chip) (n v : Nat) (found : Option (Fin 10)) : Chip :=
  let c := if bit v 0 then c.slipOnce n else c
  if bit v 1 ∧ c.laneState n = 1 then c.alignOnce n found else c

/-- ALIGN_FAIL (R220): not LINKED within 1 s of ENABLE. -/
def execAlignFail (n : Fin 48) (s : State) : Host.Outcome State Fault Refusal :=
  let c := s.toChip
  let l := c.lane n.val
  s.go <|
    match l.enabledAt with
    | none => c
    | some t =>
      if c.configured n.val ∧ l.failTold = false ∧ c.laneUp n.val = false then
        let c := c.advanceTo (t + 1000000000)
        (c.setLane n.val { c.lane n.val with failTold := true }).laneCause n.val 1
      else c

/-- RATE_FAIL (R222): not LINKED within 10 ms, the lane falls back to 1.25 Gb/s in independent clocking, where it searches
anew. -/
def execRateFail (n : Fin 48) (s : State) : Host.Outcome State Fault Refusal :=
  let c := s.toChip
  s.go <|
    match (c.lane n.val).seekSince with
    | none => c
    | some t =>
      if c.laneState n.val ≠ 1 then c
      else
        let c := c.advanceTo (t + 10000000)
        let l := c.lane n.val
        let c := (c.setLane n.val { l with switching := false, noSwitch := l.noSwitch || l.switching, common := false,
                                           seekSince := none, aligned := false }).put (Reg.THL_LANE_STATUS_RATE_NOW n.val) 0
        let c := (c.put (Reg.THL_LANE_ALIGN_STATUS_COMMA_OK n.val) 0).laneSends n.val .train
        if l.switching then c.laneCause n.val 12 else c

/-- FILL (R216), and the errors of a PRBS since the FILL before it (R243). -/
def execFill (n : Fin 48) (level : Fin 33) (s : State) : Host.Outcome State Fault Refusal :=
  s.go ((s.toChip.prbsErrors n.val).fillTaken n.val level.val)

/-- CODE_ERR (R221). -/
def execCodeErr (n : Fin 48) (symbol : Nat) (s : State) : Host.Outcome State Fault Refusal :=
  s.go (s.toChip.codeError n.val symbol)

/-- COMMA_SHIFT (R221). -/
def execCommaShift (n : Fin 48) (s : State) : Host.Outcome State Fault Refusal :=
  s.go ((s.toChip.put (Reg.THL_LANE_ALIGN_STATUS_OFF_BOUNDARY n.val) 1).loseLock n.val 3)

/-- PEER_SEEK (R221). -/
def execPeerSeek (n : Fin 48) (s : State) : Host.Outcome State Fault Refusal := s.go (s.toChip.loseLock n.val 6)

/-- NO_FILL (R221); in low-power idle a lane keeps its state (R464). -/
def execNoFill (n : Fin 48) (s : State) : Host.Outcome State Fault Refusal :=
  let c := s.toChip
  s.go (if c.get Reg.CKP_STATUS_PSTATE = 2 then c else c.loseLock n.val 4)

/-- ACK_TIMEOUT (R237): the oldest kept packet has waited THL.ACK_TO. -/
def execAckTimeout (n : Fin 48) (s : State) : Host.Outcome State Fault Refusal :=
  let c := s.toChip
  s.go <|
    match (c.lane n.val).kept.head? with
    | none => c
    | some k => (c.advanceTo (k.sentAt + 1000 * c.get Reg.THL_ACK_TO_US)).loseLock n.val 7

/-- LANE_PACKET_SEND (R236). -/
def execLanePacketSend (n : Fin 48) (s : State) : Host.Outcome State Fault Refusal := s.go (s.toChip.packetBoundary n.val)

/-- TIME_REQ (R229). -/
def execTimeReq (n : Fin 48) (s : State) : Host.Outcome State Fault Refusal := s.go (s.toChip.timeRequest n.val)

/-- TIME_RSP (R229, R230), or a packet that R223 discards; the lane may enter READY. -/
def execTimeRsp (n : Fin 48) (m : TimeRsp) (s : State) : Host.Outcome State Fault Refusal :=
  s.go (if m.good then (s.toChip.timeResponse n.val m).tryReady n.val else s.toChip.rxDiscard n.val)

end Sys2Proof.Machine
end

