-- ==== Sys2Proof/Machine/Head.lean ====
section
/-! DEFINITION. Machine/Head.lean: heads (R246 to R265): bring-up from the head record, drive sets, group tables, trims and
slot images, head faults, idle measurement; telemetry (R234, R235); and the arming of a layer (R148). -/

namespace Sys2Proof.Machine

/-! ### The head record (R246) -/

def recClass (r : List Byte) : Nat := leField r 5 1
def recRank (r : List Byte) : Nat := leField r 6 1
def recTrim (r : List Byte) : Nat := leField r 7 1
def recNozzles (r : List Byte) : Nat := leField r 0x14 2
def recMeasUs (r : List Byte) : Nat := leField r 0x16 2
def recPmin (r : List Byte) : Nat := leField r 0x18 4
def recNominal (r : List Byte) : Nat := leField r 0x1C 4
def recDriveMax (r : List Byte) : Nat := leField r 0x20 2
/-- MAKER, MODEL and SERIAL. -/
def recIdentity (r : List Byte) : Nat × Nat × Nat := (leField r 8 2, leField r 0x0A 2, leField r 0x0C 8)

/-- The checks on bytes 0x00 to 0x3F. -/
def recHeadOk (r : List Byte) : Bool :=
  decide (r.length = 0x40) && decide (leField r 0 4 = 0x43455248) && decide (leField r 4 1 = 1) && decide (recClass r ≤ 1) &&
    decide (recRank r ≤ 3) && decide (recTrim r ≤ 50) && decide (1 ≤ recNozzles r ∧ recNozzles r ≤ 8192) &&
    decide (1 ≤ recMeasUs r ∧ recMeasUs r ≤ 1500) && decide (1000 ≤ recPmin r ∧ recPmin r ≤ 1000000) &&
    decide (recNominal r ≠ 0) && (decide (recClass r = 1) || decide (recDriveMax r = 0)) && decide (leField r 0x24 28 = 0)

/-- Length of a record. -/
def recLen (r : List Byte) : Nat := 0x44 + 2 * recNozzles r

/-- The check of the whole record: its CRC, and the reserved bits of every STATUS. -/
def recAllOk (r : List Byte) : Bool :=
  decide (leField r (0x40 + 2 * recNozzles r) 4 = crc32 (r.take (0x40 + 2 * recNozzles r))) &&
    (List.range (recNozzles r)).all fun n => decide (leField r (0x41 + 2 * n) 1 < 2)

/-- Whether a nozzle is marked failed at the factory. -/
def recBad (r : List Byte) (n : Nat) : Bool := bit (leField r (0x41 + 2 * n) 1) 0

/-! ### What the controller writes to a head -/

/-- The 1,024 bytes of a drive set (R254). -/
def Chip.driveSet (c : Chip) (d : Nat) : List Byte :=
  (List.range 256).flatMap fun w => leBytes 4 (c.get (Reg.HED_DRIVESET_DATA d w))

/-- The bytes of a head's drive set that go to the head. -/
def Chip.driveBytes (c : Chip) (h : Nat) : List Byte := (c.driveSet (c.get (Reg.HED_HEAD_CFG_DSET h))).take 0x3C0

/-- A head's group table, TRIM cleared (R256). -/
def Chip.groupBytes (c : Chip) (h : Nat) : List Byte :=
  (List.range (c.gOf h / 32)).flatMap fun g =>
    leBytes 4 (c.get (Reg.HED_GROUP_SBASE h g) + 256 * c.get (Reg.HED_GROUP_GDELAY h g))

/-- The trims of groups lo to hi (R258). -/
def Chip.trimBytes (c : Chip) (h lo hi : Nat) : List Byte :=
  (List.range (hi + 1 - lo)).flatMap fun k => leBytes 2 (unsigned 16 (c.getI (Reg.HED_GROUP_TRIM h (lo + k))))

/-- A head's slot image (R183). -/
def Chip.slotImage (c : Chip) (h : Nat) : List Byte :=
  (List.range (c.gOf h)).map fun n =>
    BitVec.ofNat 8 (if n < c.get (Reg.HED_HEAD_CFG_NOZZLES h) then ntSlot (c.nztVer (c.nbase h + n)).force else 0)

/-- The check of R255 for a piezo entry. -/
def piezoOk (e : List Byte) (x pmin driveMax : Nat) : Bool :=
  let segs := (List.range 16).map fun k => (leField e (4 * k) 2, signed 16 (leField e (4 * k + 2) 2))
  let live := segs.filter fun q => decide (q.1 ≠ 0)
  decide (live ≠ []) && decide ((segs.map (·.1)).sum ≤ pmin) && decide (live.getLast?.map (·.2) = some 0) &&
    segs.all fun q => decide (q.2.natAbs * x ≤ 100 * driveMax)

/-- The check of R255 for a thermal entry. -/
def thermalOk (e : List Byte) (x pmin : Nat) : Bool :=
  let pre := leField e 0 2
  let dwell := leField e 2 2
  let main := leField e 4 2
  decide (main ≠ 0) && (decide (pre ≠ 0) || decide (dwell = 0)) && decide (leField e 6 2 = 0) &&
    decide (100 * (pre + dwell) + main * x ≤ 100 * pmin)

/-- R255: whether a drive set passes the check for a head. -/
def driveOk (set record : List Byte) : Bool :=
  let x := 100 + recTrim record
  let cls := leField set 0x3C0 4
  decide (cls = recClass record) && decide (leField set 0x3C4 60 = 0) &&
    (if recClass record = 1 then
      (List.range 15).all fun k => piezoOk ((set.drop (64 * k)).take 64) x (recPmin record) (recDriveMax record)
    else
      decide (leField set 0x78 (0x3C0 - 0x78) = 0) &&
        (List.range 15).all fun k => thermalOk ((set.drop (8 * k)).take 8) x (recPmin record))

/-- Whether the drive set named for a head passes. -/
def Chip.driveSetOk (c : Chip) (h : Nat) : Bool := driveOk (c.driveSet (c.get (Reg.HED_HEAD_CFG_DSET h))) (c.head h).record

/-- Whether a request of a kind is queued or outstanding on a lane. -/
def Chip.pendingWhy (c : Chip) (n : Nat) (p : MgmtReq → Bool) : Bool :=
  let l := c.lane n
  (l.mgmtQ.any fun q => p q.2) || l.mgmtOut.any fun (o : MgmtOut) => p o.req

/-- HED.HEADn_LOADED follows what the head has acknowledged. -/
def Chip.showLoaded (c : Chip) (h : Nat) : Chip :=
  let x := c.head h
  let c := c.putB (Reg.HED_HEAD_LOADED_DRIVE h) (decide (x.drive = some (c.driveBytes h)))
  let c := c.putB (Reg.HED_HEAD_LOADED_GROUPS h) (decide (x.groups = some (c.groupBytes h)))
  let trims := x.drive.isSome && x.trim.isNone && !c.pendingWhy h fun q => decide (q.why = .trims)
  let c := c.putB (Reg.HED_HEAD_LOADED_TRIM h) trims
  let slots := decide (x.slots = some (c.slotImage h)) && !c.pendingWhy h fun q => decide (q.why = .slot)
  c.putB (Reg.HED_HEAD_LOADED_SLOT h) slots

/-- The slot image written in requests of 1,024 bytes. -/
def Chip.writeSlots (c : Chip) (h : Nat) (arming : Bool) : Chip :=
  let img := c.slotImage h
  (List.range ((img.length + 1023) / 1024)).foldl (fun c k =>
    c.mgmtWrite h 2 (1024 * k) ((img.drop (1024 * k)).take 1024) .slot arming) c

/-! ### Bring-up (R248 to R252) -/

/-- Whether a request belongs to bring-up (R249). -/
def MgmtReq.ofBringUp (q : MgmtReq) : Bool :=
  !q.arming && (decide (q.why = .recFirst) || decide (q.why = .recRest) || decide (q.why = .drive) || decide (q.why = .group) ||
    decide (q.why = .trims) || decide (q.why = .slot))

/-- An outstanding request given up: one that the head has yet to answer stays outstanding (R233), its answer without effect. -/
def Lane.giveUp (l : Lane) (o : MgmtOut) : Option MgmtOut :=
  if o.req.ofBringUp = false then some o
  else if o.busy ∨ l.mgmtQ.any (fun q => decide (q.1 = o.tag)) then none
  else some { o with req := { o.req with why := .dropped } }

/-- The requests of a bring-up are given up: none goes any more, and a late answer is not taken for a new one's (R249, R251). -/
def Chip.dropBringUp (c : Chip) (n : Nat) : Chip :=
  let l := c.lane n
  c.setLane n { l with
    mgmtQ := l.mgmtQ.filter fun q => !q.2.ofBringUp
    mgmtOut := l.mgmtOut.filterMap l.giveUp }

/-- A failed check: HELD with its cause, and bring-up stops there (R249). -/
def Chip.headHeld (c : Chip) (h cause : Nat) : Chip :=
  (((c.dropBringUp h).setHeadState h 2).put (Reg.HED_HEAD_STATUS_CAUSE h) cause).raise 119 cause [(1, h)]

/-- Step 1: the first 64 bytes of the record are asked for. -/
def Chip.bringUp (c : Chip) (h : Nat) : Chip :=
  let x := c.head h
  let c := c.dropBringUp h
  let c := (c.setHeadX h { accepted := x.accepted, lastTag := x.lastTag }).clearLoaded h
  ((c.setHeadState h 1).put (Reg.HED_HEAD_STATUS_CAUSE h) 0).mgmtRead h 0 0 0x40 .recFirst

/-- Step 5 on a controller that does not own: what the head holds is read, to be compared (R420). -/
def Chip.readTables (c : Chip) (h : Nat) : Chip :=
  let c := (c.mgmtRead h 1 0 (c.driveBytes h).length .drive).mgmtRead h 1 0x400 (c.groupBytes h).length .group
  let g := c.gOf h
  (List.range ((g + 1023) / 1024)).foldl (fun c k => c.mgmtRead h 2 (1024 * k) (min 1024 (g - 1024 * k)) .slot) c

/-- Step 5: the drive set is checked, and everything is written; a standby compares instead (R420). -/
def Chip.startLoading (c : Chip) (h : Nat) : Chip :=
  let c := c.setHeadState h 4
  if c.driveSetOk h = false then c.headHeld h 5
  else if c.owns = false then c.readTables h
  else
    let c := c.mgmtWrite h 1 0 (c.driveBytes h) .drive false
    let c := c.mgmtWrite h 1 0x400 (c.groupBytes h) .group false
    let c := c.mgmtWrite h 1 0x800 (c.trimBytes h 0 (c.gOf h / 32 - 1)) .trims false
    c.writeSlots h false

/-- Steps 6 and 7: nozzles marked BAD are retired, and the head is UP. -/
def Chip.headUp (c : Chip) (h : Nat) : Chip :=
  let x := c.head h
  let c := (List.range (c.get (Reg.HED_HEAD_CFG_NOZZLES h))).foldl (fun c n =>
    let v := c.nztVer (c.nbase h + n)
    if recBad x.record n ∧ stPrints (ntState v.force) ∧ stPrints (ntState v.newest) ∧ ntLock v.newest = false then c.innerNzt (c.nbase h + n) 2 2 else c) c
  let c := c.showStage.setHeadState h 5
  let c := (c.setLane h { c.lane h with faultNew := true }).put (Reg.HED_HEAD_MEAS_SWEEPS h) 0
  (((c.markIdle h).raise 118 0 [(1, h), (8, (recIdentity x.record).2.2)]).showLoaded h).tryReady h

/-- Step 4: identity (R250). -/
def Chip.headIdentity (c : Chip) (h : Nat) : Chip :=
  let x := c.head h
  let i := recIdentity x.record
  match x.accepted with
  | none => (c.setHeadX h { x with accepted := some i }).startLoading h
  | some a => if a = i then c.startLoading h else (c.setHeadState h 3).raise 120 0 [(1, h), (8, i.2.2)]

/-- The identity registers show the record. -/
def Chip.showRecord (c : Chip) (h : Nat) (r : List Byte) : Chip :=
  let i := recIdentity r
  let c := (c.put (Reg.HED_HEAD_ID_MAKER h) i.1).put (Reg.HED_HEAD_ID_MODEL h) i.2.1
  let c := c.put64 (Reg.HED_HEAD_SERIAL_LO_SERIAL h) (Reg.HED_HEAD_SERIAL_HI_SERIAL h) i.2.2
  let c := (c.put (Reg.HED_HEAD_STATUS_CLASS h) (recClass r)).put (Reg.HED_HEAD_STATUS_RANK h) (recRank r)
  (c.put (Reg.HED_HEAD_PMIN_NS h) (recPmin r)).put (Reg.HED_HEAD_NOMINAL_VALUE h) (recNominal r)

/-- The rest of the record asked for, 1,024 bytes at a time (step 2). -/
def Chip.readMore (c : Chip) (h : Nat) : Chip :=
  let r := (c.head h).record
  c.mgmtRead h 0 r.length (min 1024 (recLen r - r.length)) .recRest

/-- Step 1's answer. -/
def Chip.recordHead (c : Chip) (h : Nat) (data : List Byte) : Chip :=
  if c.get (Reg.HED_HEAD_STATUS_STATE h) ≠ 1 then c
  else
    let c := c.showRecord h data
    if recHeadOk data then (c.setHeadX h { c.head h with record := data }).readMore h else c.headHeld h 1

/-- Step 2's answers, and the checks of steps 2 and 3. -/
def Chip.recordRest (c : Chip) (h : Nat) (data : List Byte) : Chip :=
  if c.get (Reg.HED_HEAD_STATUS_STATE h) ≠ 1 then c
  else
    let x := c.head h
    let r := x.record ++ data
    let c := c.setHeadX h { x with record := r }
    if r.length < recLen r ∧ data ≠ [] then c.readMore h
    else if recAllOk r = false then c.headHeld h 1
    else if c.configured h = false then (c.setHeadState h 6).raise 126 0 [(1, h), (8, (recIdentity r).2.2)]
    else if recNozzles r ≠ c.get (Reg.HED_HEAD_CFG_NOZZLES h) then c.headHeld h 2
    else if recClass r ≠ c.get (Reg.HED_HEAD_CFG_CLASS h) then c.headHeld h 3
    else if c.bitOf (Reg.HED_HEAD_CFG_RANKS h) (recRank r) = false then c.headHeld h 4
    else c.headIdentity h

/-- LINK.CAPS is read (R219): a rate or clocking switch, bring-up, or cause CAPS. -/
def Chip.capsRead (c : Chip) (n : Nat) (data : List Byte) : Chip :=
  let caps := leField data 0 4
  let c := (c.setLane n { c.lane n with caps := some caps }).put (Reg.THL_LANE_CAPS_CAPS n) caps
  let l := c.lane n
  if c.configured n = false then c
  else if c.capsOk n caps = false then c.heldCause n 14 l.toldCaps fun l => { l with toldCaps := true }
  else if c.asConfigured n then c.bringUp n
  else if l.noSwitch then c
  else
    let c := c.mgmtWrite n 3 8 (leBytes 4 (c.get Reg.PHY_REF_CTRL_CLOCKING)) .clocking false
    c.mgmtWrite n 3 4 (leBytes 4 (c.get (Reg.THL_LANE_CFG_RATE n))) .rate false

/-- LINK.RATE is acknowledged: both ends go to SEEK at the new rate and clocking. -/
def Chip.rateSwitch (c : Chip) (n : Nat) : Chip :=
  let l := c.lane n
  let c := c.setLane n { l with switching := true, common := c.flag Reg.PHY_REF_CTRL_CLOCKING }
  ((c.put (Reg.THL_LANE_STATUS_RATE_NOW n) (c.get (Reg.THL_LANE_CFG_RATE n))).laneSeek n).headAbsent n

/-- LINKED (R218, R219): TIME exchanges, the CAPS read, and bring-up of a port without a head configured. -/
def Chip.linkUp (c : Chip) (n : Nat) : Chip :=
  if c.laneState n ≠ 1 ∨ (c.lane n).aligned = false then c
  else
    let l := c.lane n
    let c := c.setLane n { l with
      seekSince := none, switching := false, enabledAt := none, retryAt := none, errs := [], h := 0, timeDue := c.clk
      rateSent := c.getI Reg.ETM_RATE_RATE, stepSeen := c.stepSum }
    let c := (c.endQuarantine 10 n).endQuarantine 11 n
    let c := (c.setLaneState n 2).mgmtRead n 3 0 4 .caps
    if c.configured n then c else (c.laneCause n 15).bringUp n

/-! ### Measurement (R262 to R265) -/

/-- The highest TEMP of a list, absent ones left out. -/
def highestTemp (l : List (BitVec 16)) : Int :=
  match (l.filter fun t => decide (t ≠ 0x8000)).map (·.toInt) with
  | [] => -32768
  | a :: r => r.foldl max a

/-- The group in measurement is given up for its slot. -/
def Chip.abandonGroup (c : Chip) (h : Nat) : Chip := c.setHeadX h { c.head h with measuring := none }

/-- A completed group (R265). -/
def Chip.evaluateGroup (c : Chip) (h g : Nat) (values : List Nat) : Chip :=
  let nominal := c.get (Reg.HED_HEAD_NOMINAL_VALUE h)
  let lo := nominal * c.get Reg.HED_MEAS_WIN_LOW / 256
  let hi := nominal * c.get Reg.HED_MEAS_WIN_HIGH / 256
  let bad := (List.range 32).filter fun k =>
    let n := 32 * g + k
    let v := values.getD k 0xFFFFFFFF
    decide (n < c.get (Reg.HED_HEAD_CFG_NOZZLES h)) && stPrints (ntState (c.nztVer (c.nbase h + n)).force) &&
      decide (v ≠ 0xFFFFFFFF) && !decide (lo ≤ v ∧ v ≤ hi)
  let c := (c.bump Reg.HED_MEAS_OOR_COUNT bad.length).bump Reg.HED_MEAS_DONE_COUNT 1
  let c := bad.foldl (fun c k =>
    let row := c.nbase h + 32 * g + k
    let v := (c.nztVer row).newest
    if c.flag Reg.HED_MEAS_CFG_RETIRE ∧ stPrints (ntState v) ∧ ntLock v = false then c.innerNzt row 2 2 else c) c
  let next := if (g + 1) * 32 < c.gOf h then g + 1 else 0
  let mask := (bad.map fun k => 2 ^ k).sum
  let c := ((c.showStage.put (Reg.HED_HEAD_MEAS_NEXT h) next).put (Reg.HED_HEAD_MEAS_LAST h) g).put
    (Reg.HED_HEAD_MEAS_LAST_OOR h) bad.length
  let c := (c.put (Reg.HED_HEAD_MEAS_MASK_MASK h) mask).bump (Reg.HED_HEAD_MEAS_SWEEPS h) (b2n (decide (next = 0)))
  (c.raiseIf (decide (mask ≠ 0)) 122 0 [(1, h), (1, g), (4, mask)]).abandonGroup h

/-- A read of MSTATE and the values (R263). -/
def Chip.measured (c : Chip) (h mstate : Nat) (values : List Nat) : Chip :=
  let x := c.head h
  match x.measuring with
  | none => c
  | some (g, reads) =>
    if mstate = 0 then c.evaluateGroup h g values
    else if mstate = 1 ∧ reads < 16 then
      c.setHeadX h { x with measuring := some (g, reads + 1), measDue := c.clk + 100000 }
    else c.abandonGroup h

/-- An idle slot (R262). A slot that begins while the group of the one before is still being measured, of which the spec says
nothing, starts the same group anew (DESIGN CHOICE, log 93). -/
def Chip.measSlot (c : Chip) (h : Nat) : Chip :=
  match (c.head h).idleDue with
  | none => c
  | some t =>
    let c := c.advanceTo t
    let x := c.head h
    let c := c.setHeadX h { x with idleDue := some (t + 2000000) }
    if c.flag Reg.HED_MEAS_CFG_ENABLE ∧ c.flag (Reg.HED_HEAD_CFG_MEAS_EN h) ∧
        c.get (Reg.HED_HEAD_STATUS_STATE h) = 5 ∧ (c.headRun h).shots.isEmpty then
      let g := c.get (Reg.HED_HEAD_MEAS_NEXT h)
      let c := c.setHeadX h { c.head h with measuring := some (g, 0), measDue := c.clk + 1000 * recMeasUs x.record }
      c.mgmt h ⟨3, 4, 0, 4, leBytes 2 g ++ leBytes 2 0, .exec, false⟩
    else c

/-! ### MGMT answers (R233) -/

/-- The writes of bring-up have all been acknowledged; on a standby, everything read matches (R420). -/
def Chip.loadingDone (c : Chip) (h : Nat) : Chip :=
  let more := c.pendingWhy h fun q => !q.arming &&
    (decide (q.why = .drive) || decide (q.why = .group) || decide (q.why = .trims) || decide (q.why = .slot))
  let same := c.owns || (c.flag (Reg.HED_HEAD_LOADED_DRIVE h) && c.flag (Reg.HED_HEAD_LOADED_GROUPS h) &&
    c.flag (Reg.HED_HEAD_LOADED_SLOT h))
  if c.get (Reg.HED_HEAD_STATUS_STATE h) = 4 ∧ more = false ∧ same then c.headUp h else c

/-- A rewrite of an arming has been acknowledged: the head waits no more once all have (R183, R257). -/
def Chip.armingDone (c : Chip) (h : Nat) : Chip :=
  if c.pendingWhy h (·.arming) then c
  else if (c.headRun h).waits then c.setHead h { c.headRun h with waits := false } else c

/-- A WRITE of a head's tables acknowledged. -/
def Chip.tableAcked (c : Chip) (h : Nat) (q : MgmtReq) : Chip :=
  let x := c.head h
  let old := x.slots.getD (leBytes (c.gOf h) 0)
  let c := c.setHeadX h (match q.why with
    | .drive => { x with drive := some q.data }
    | .group => { x with groups := some q.data }
    | .slot => { x with slots := some (old.take q.addr ++ q.data ++ old.drop (q.addr + q.data.length)) }
    | _ => x)
  (((c.showLoaded h).loadingDone h).armingDone h).tryReady h

/-- A request answered OK. -/
def Chip.answered (c : Chip) (n : Nat) (q : MgmtReq) (data : List Byte) : Chip :=
  match q.why with
  | .caps => c.capsRead n data
  | .clocking => c
  | .rate => c.rateSwitch n
  | .recFirst => c.recordHead n data
  | .recRest => c.recordRest n data
  | .drive => c.tableAcked n (if q.op = 1 then { q with data := data } else q)
  | .group => c.tableAcked n (if q.op = 1 then { q with data := data } else q)
  | .trims => c.tableAcked n q
  | .slot => c.tableAcked n (if q.op = 1 then { q with data := data } else q)
  | .exec => c
  | .measRead => c.measured n (leField data 0 4) ((List.range 32).map fun k => leField data (4 + 4 * k) 4)
  | .loop => c.loopAnswered n
  | .dropped => c

/-- Groups lo to hi of a head's trim table are to be written within 200 µs (R259). -/
def Chip.markTrim (c : Chip) (h lo hi : Nat) : Chip :=
  let x := c.head h
  let t := match x.trim with
    | some (a, b, due) => (min a lo, max b hi, due)
    | none => (lo, hi, c.clk + 200000)
  (c.setHeadX h { x with trim := some t }).put (Reg.HED_HEAD_LOADED_TRIM h) 0

/-- A request has failed: bring-up stops in HELD, a rewrite of an arming takes the head out (R233, R240, R257), and the trims
of a failed WRITE are still to be written (R259). -/
def Chip.requestFailed (c : Chip) (n : Nat) (q : MgmtReq) : Chip :=
  match q.why with
  | .exec => c.abandonGroup n
  | .measRead => c.abandonGroup n
  | .caps => c
  | .clocking => c
  | .rate => c
  | .dropped => c
  | .loop => c.setLane n { c.lane n with loopWants := none }
  | .trims =>
    if c.get (Reg.HED_HEAD_STATUS_STATE n) = 5 then
      c.markTrim n ((q.addr - 0x800) / 2) ((q.addr - 0x800 + q.count) / 2 - 1)
    else c.headHeld n 6
  | _ =>
    let c := if q.arming then c.headOut n else c
    if c.get (Reg.HED_HEAD_STATUS_STATE n) = 2 then c else c.headHeld n 6

/-- The outstanding request of a tag leaves, with a repeat of it that still waits. -/
def Chip.dropRequest (c : Chip) (n tag : Nat) : Chip :=
  let l := c.lane n
  c.setLane n { l with
    mgmtOut := l.mgmtOut.filter fun (o : MgmtOut) => decide (o.tag ≠ tag)
    mgmtQ := l.mgmtQ.filter fun q => decide (q.1 ≠ tag) }

/-- A failed attempt: tried again, or the request fails with cause MGMT_TIMEOUT. -/
def Chip.failedAttempt (c : Chip) (n : Nat) (o : MgmtOut) : Chip :=
  if 2 ≤ o.fails then ((c.dropRequest n o.tag).laneCause n 13).requestFailed n o.req
  else
    let l := c.lane n
    c.setLane n { l with
      mgmtOut := (l.mgmtOut.map fun (q : MgmtOut) => if q.tag = o.tag then { q with fails := o.fails + 1 } else q)
      mgmtQ := (o.tag, o.req) :: l.mgmtQ }

/-- A MGMT response (R231, R233), or a packet that R223 discards. -/
def Chip.mgmtAnswer (c : Chip) (n : Nat) (m : MgmtResponse) : Chip :=
  if c.laneUp n = false then c
  else if m.good = false then c.rxDiscard n
  else
    let l := c.lane n
    match l.mgmtOut.find? fun (o : MgmtOut) => decide (o.tag = m.mtag.toNat) with
    | none => c
    | some o =>
      match m.status with
      | .ok => (c.dropRequest n o.tag).answered n o.req m.data
      | .busy =>
        if o.req.why = .exec then (c.dropRequest n o.tag).abandonGroup n
        else if o.req.why = .dropped then c.dropRequest n o.tag
        else if 2 ≤ o.fails then c.failedAttempt n o
        else
          let due := c.clk + 1000 * c.get Reg.THL_MGMT_TO_US
          let out := l.mgmtOut.map fun (q : MgmtOut) =>
            if q.tag = o.tag then { q with fails := o.fails + 1, busy := true, due := due } else q
          c.setLane n { l with mgmtOut := out }
      | _ => (c.dropRequest n o.tag).requestFailed n o.req

/-- The outstanding request that is overdue first. -/
def firstDue : List MgmtOut → Option MgmtOut
  | [] => none
  | o :: l => match firstDue l with
    | none => some o
    | some q => if q.due < o.due then some q else some o

/-- The outstanding requests that have gone and wait for an answer: not those whose repeat still waits to go. -/
def Lane.awaiting (l : Lane) : List MgmtOut :=
  l.mgmtOut.filter fun (o : MgmtOut) => !l.mgmtQ.any fun q => decide (q.1 = o.tag)

/-- MGMT_TIMEOUT: no response within THL.MGMT_TO; a request answered BUSY is sent again. -/
def Chip.mgmtOverdue (c : Chip) (n : Nat) : Chip :=
  match firstDue (c.lane n).awaiting with
  | none => c
  | some o =>
    let c := c.advanceTo o.due
    if o.req.why = .dropped then c.dropRequest n o.tag
    else if o.busy then c.setLane n { c.lane n with mgmtQ := (o.tag, o.req) :: (c.lane n).mgmtQ } else c.failedAttempt n o

/-! ### Telemetry (R224, R234, R235, R237, R260, R261) -/

/-- Kept packets up to an acknowledged LSEQ leave. -/
def Chip.ackPackets (c : Chip) (n ack : Nat) : Chip :=
  let l := c.lane n
  let c := c.put (Reg.THL_LANE_LSEQ_ACKED n) ack
  let after := fun (k : Kept) => decide (0 < wrapDiff (BitVec.ofNat 16 k.lseq) (BitVec.ofNat 16 ack))
  c.setLane n { l with kept := l.kept.filter after, replay := l.replay.filter after }

/-- A NAK (R237): the kept packets from its LSEQ on go again, if that LSEQ has been sent; 8 within 1 ms lose lock. -/
def Chip.nakTaken (c : Chip) (n nak : Nat) : Chip :=
  let l := c.lane n
  let naks := (c.clk :: l.naks).take 8
  let c := c.setLane n { l with naks := naks }
  let sent := decide (wrapDiff (BitVec.ofNat 16 nak) (BitVec.ofNat 16 (c.get (Reg.THL_LANE_LSEQ_NEXT n))) < 0)
  let c := if sent = false then c
    else
      let c := if c.clk < (c.lane n).currentEnd then c.abortPacket n
        else c.setLane n { c.lane n with current := none, replaying := none }
      let l := c.lane n
      let again := l.kept.filter fun (k : Kept) => decide (0 ≤ wrapDiff (BitVec.ofNat 16 k.lseq) (BitVec.ofNat 16 nak))
      let c := c.setLane n { l with replay := again }
      (c.bump (Reg.THL_LANE_REPLAYS_COUNT n) 1).laneCause n 19
  match naks[7]? with
  | some t => if c.clk < t + 1000000 then c.loseLock n 8 else c
  | none => c

/-- What a FULL TLM shows in the head's registers (R260). -/
def Chip.showFull (c : Chip) (h : Nat) (fault : Nat) : Option TlmFull → Chip
  | none => c
  | some u =>
    let c := c.setHeadX h { c.head h with full := some u, fullAt := c.clk }
    ((c.put (Reg.HED_HEAD_STATUS_FAULT h) (fault % 256)).put (Reg.HED_HEAD_TLM_VDRIVE h) u.vdrive.toNat).putI
      (Reg.HED_HEAD_TLM_TEMP h) (highestTemp u.temps)

/-- The events of FAULT bits that rise (R260). -/
def Chip.faultRises (c : Chip) (h old f : Nat) : Chip :=
  let c := c.raiseIf (bit f 0 && !bit old 0) 123 0 [(1, h), (2, c.get (Reg.HED_HEAD_TLM_TEMP h))]
  let c := c.raiseIf (bit f 1 && !bit old 1) 124 0 [(1, h), (2, c.get (Reg.HED_HEAD_TLM_VDRIVE h))]
  let c := c.raiseIf (bit f 2 && !bit old 2) 125 1 [(1, h)]
  c.raiseIf (bit f 7 && !bit old 7) 125 2 [(1, h)]

/-- Whether FIRE_EN has been driven asserted for at least 1 µs. -/
def Chip.fireDriven (c : Chip) : Bool :=
  match c.fireSince with
  | some s => decide (s + 1000 ≤ c.clk)
  | none => false

/-- Whether the controller is issuing shots to a head. -/
def Chip.issuingTo (c : Chip) (h : Nat) : Bool :=
  c.owns && c.inArmed h && !(c.headRun h).isOut &&
    (decide (c.get Reg.CRN_STATUS_STATE = 1) || decide (c.get Reg.CRN_STATUS_STATE = 2))

/-- FIRE_EN_LOW and NO_CLAIM take the head out of firing (R261). -/
def Chip.faultOuts (c : Chip) (h f : Nat) : Chip :=
  let c := c.on (bit f 5 && c.fireDriven) fun c => (c.raise 116 0 [(1, h)]).takeOut h
  c.on (bit f 6 && c.issuingTo h) fun c => (c.raise 117 0 [(1, h)]).takeOut h

/-- The head's FAULT bits (R260, R261). -/
def Chip.headFaults (c : Chip) (h : Nat) (t : TlmPacket) : Chip :=
  let f := t.fault.toNat
  let l := c.lane h
  let old := if l.faultNew then 0 else l.fault.getD f
  let c := c.setLane h { l with fault := some f, faultNew := false }
  ((c.showFull h f t.full).faultRises h old f).faultOuts h f

/-- Whether a TLM is taken: its CRC, the lane's state, and its LSEQ after the last one taken. -/
def Chip.tlmTaken (c : Chip) (n : Nat) (t : TlmPacket) : Bool :=
  t.crcOk && c.laneUp n && (match (c.lane n).lastTlm with
    | none => true
    | some q => decide (0 < wrapDiff t.lseq (BitVec.ofNat 16 q)))

/-- A TLM's reports of shots (R166, R234), while the head takes part in the layer. -/
def Chip.tlmShots (c : Chip) (h : Nat) (t : TlmPacket) : Chip :=
  if c.owns = false ∨ c.inArmed h = false ∨ (c.headRun h).isOut then c
  else
    let c := if t.firedValid then c.firedUpTo h t.lastFired.toNat else c
    let c := if t.calveValid then c.calveReport h t.calveK.toNat else c
    c.tryComplete

/-- A TLM (R234). -/
def Chip.telemetry (c : Chip) (n : Nat) (t : TlmPacket) : Chip :=
  if t.crcOk = false then c.rxDiscard n
  else if c.tlmTaken n t = false then c
  else
    let c := c.setLane n { c.lane n with lastTlm := some t.lseq.toNat }
    let c := c.putB (Reg.THL_LANE_STATUS_TB_HOLD n) (bit t.fault.toNat 3)
    let c := if t.full.isSome then c.putB (Reg.THL_LANE_STATUS_RX_LOSS n) (bit t.fault.toNat 4) else c
    let c := (c.ackPackets n t.ackLseq.toNat).tlmShots n t
    let c := c.headFaults n t
    let c := if t.nak then c.nakTaken n t.nakLseq.toNat else c
    if t.late then c.loseLock n 10 else c

/-! ### Arming (R143, R148, R183, R240, R257) -/

/-- A head's tables written again at an arming where they differ from what it holds. -/
def Chip.rewriteHead (c : Chip) (h : Nat) : Chip :=
  let x := c.head h
  let drive := decide (x.drive ≠ some (c.driveBytes h))
  let group := decide (x.groups ≠ some (c.groupBytes h))
  let slot := decide (x.slots ≠ some (c.slotImage h))
  let c := if drive then c.mgmtWrite h 1 0 (c.driveBytes h) .drive true else c
  let c := if group then c.mgmtWrite h 1 0x400 (c.groupBytes h) .group true else c
  let c := if slot then c.writeSlots h true else c
  if drive ∨ group ∨ slot then (c.setHead h { c.headRun h with waits := true }).showLoaded h else c

/-- The owner has made a head hold what the tables in force ask for: a standby whose head matched follows (R183, R420). -/
def Chip.followHead (c : Chip) (h : Nat) : Chip :=
  let x := c.head h
  if x.slots.isNone then c
  else (c.setHeadX h { x with drive := some (c.driveBytes h), groups := some (c.groupBytes h), slots := some (c.slotImage h) }).showLoaded h

/-- The heads of the new layer that are out at its arming (R240, R257). On a standby, which drives no lane, none is. -/
def Chip.outAtArming (c : Chip) (h : Nat) : Bool :=
  c.owns && (decide (c.laneState h ≠ 3) || !c.driveSetOk h)

/-- The span of a head fixed at arming (R143). -/
def Chip.armHead (c : Chip) (h : Nat) : Chip :=
  let s := minMax (c.spanOffsets h)
  let held := c.get Reg.CRN_STATUS_STATE = 3
  (c.setHead h { lo := s.1, hi := s.2, next := s.1, hwm := s.1 - 1, crcNext := s.1, gateRun := decide held, await := (c.head h).await }).put
    (Reg.CRN_HEAD_STATE_IN_LAYER h) 1

/-- R148: the oldest registered layer is armed. -/
def Chip.armLayer (c : Chip) : Chip :=
  match c.run, c.layers with
  | none, l :: _ =>
    let heads := (List.range 48).filter (inMask l.heads)
    let c := c.applyArming l.num
    let hofs := (List.range 48).foldl (fun (m : SMap Int) h =>
      SMap.set 0 h (c.getI (Reg.CRN_HEAD_OFS_LINES h)) m) []
    let k := c.accNext
    let r : Run := { origin := c.getI Reg.CRN_ORIGIN_COUNT, hofs := hofs, accSet := k, weights := c.weightsNow }
    let c := ({ c with run := some r, accNext := 1 - k, deposit := [], armWaitSince := none,
                            healPoison := c.healPoison.filter (fun u => decide (u / 12288 ≠ k)) }.setAcc k []).put
      Reg.CRN_LAYER_LAYER l.num
    let c := (c.put Reg.CRN_STATUS_STATE (if c.flag Reg.HED_GATE_STATUS_PERMIT then 1 else 3)).putB Reg.ETM_STATUS_INLAYER c.owns
    let c := c.put Reg.HEL_STATUS_ARM_WAIT 0
    let c := if c.owns then (c.setTdm { c.tdm with inspStopped := false }).refreshFrozen else c
    let outs := heads.filter c.outAtArming
    let pmin := ((heads.filter fun h => !outs.contains h).map fun h => c.get (Reg.HED_HEAD_PMIN_NS h)).foldl max 0
    let c := (c.put Reg.CRN_PMIN_NS pmin).put Reg.CRN_GOV_LIMIT_LPS (if pmin = 0 then 0 else 980000000 / pmin)
    let c := heads.foldl (fun c h => c.armHead h) c
    let c := heads.foldl (fun c h =>
      if outs.contains h then c else if c.owns then c.rewriteHead h else c.followHead h) c
    let c := heads.foldl (fun c h => c.showHead h) c
    let c := outs.foldl (fun c h =>
      let bad := decide (c.laneState h = 3) && !c.driveSetOk h
      let c := c.headOut h
      if bad then c.headHeld h 5 else c) c
    c.tryComplete
  | _, _ => c

/-- The arming, with EV059 if it waited under R311. -/
def Chip.armAfterWait (c : Chip) : Chip :=
  match c.armWaitSince, c.layers with
  | some t, l :: _ => (c.raise 59 0 [(4, l.num), (4, (c.clk - t) / 1000)]).armLayer
  | _, _ => c.armLayer

/-- LAYER_ARM: the arming, or its wait for the evaluation that reads the layer's accumulator set (R311): HEL.STATUS.ARM_WAIT
is 1 meanwhile. A layer whose LAYER_OPEN has not yet completed is not armed (R98, R148). -/
def Chip.armOrWait (c : Chip) : Chip :=
  if c.run.isSome || c.layers.head?.all (fun (l : Layer) => c.openPending l.num) then c
  else
    match c.healEval with
    | none => c.armAfterWait
    | some v =>
      if v.accSet ≠ c.accNext then c.armAfterWait
      else { c with armWaitSince := some (c.armWaitSince.getD c.clk) }.put Reg.HEL_STATUS_ARM_WAIT 1

/-! ### Trims (R259) -/

/-- A TRIM set by the loop engine, within the head's range; the head is told within 200 µs, once its trims have been written
in LOADING. -/
def Chip.setTrim (c : Chip) (h g : Nat) (v : Int) : Chip :=
  let x := c.head h
  let lim : Int := if x.record.isEmpty then 512 else 10 * recTrim x.record
  let old := c.get (Reg.HED_GROUP_TRIM h g)
  let c := c.putI (Reg.HED_GROUP_TRIM h g) (clampI (clampI v (-512) 511) (-lim) lim)
  let held := decide (c.get (Reg.HED_HEAD_STATUS_STATE h) = 5 ∨ c.get (Reg.HED_HEAD_STATUS_STATE h) = 4)
  if c.get (Reg.HED_GROUP_TRIM h g) = old ∨ held = false then c else c.markTrim h g g

/-- TRIM_WRITE: one WRITE covers the groups whose TRIM has changed. -/
def Chip.writeTrim (c : Chip) (h : Nat) : Chip :=
  let x := c.head h
  match x.trim with
  | none => c
  | some (lo, hi, _) =>
    (c.mgmtWrite h 1 (0x800 + 2 * lo) (c.trimBytes h lo hi) .trims false).setHeadX h { x with trim := none }

/-! ### Host writes (R250, R251, R257) -/

/-- HED.HEADn_CTRL.ACCEPT (R250). -/
def Chip.acceptHead (c : Chip) (h : Nat) : Chip :=
  if c.get (Reg.HED_HEAD_STATUS_STATE h) ≠ 3 then c
  else
    let x := c.head h
    (c.setHeadX h { x with accepted := some (recIdentity x.record) }).startLoading h

/-- Whether the lane is up at the rate and clocking at which bring-up runs (R249, R252). -/
def Chip.mayBringUp (c : Chip) (h : Nat) : Bool := c.laneUp h && (!c.configured h || c.asConfigured h)

/-- HED.HEADn_CTRL.REREAD (R251). -/
def Chip.rereadHead (c : Chip) (h : Nat) : Chip :=
  if c.inArmed h ∨ c.mayBringUp h = false then c else c.bringUp h

/-- Both bits of HED.HEADn_CTRL. -/
def Chip.headCtrl (c : Chip) (h v : Nat) : Chip :=
  let c := if bit v 0 then c.acceptHead h else c
  if bit v 1 then c.rereadHead h else c

/-- A write of R257: at once while the cornice is IDLE, else discarded with EV127. -/
def Chip.idleWrite (c : Chip) (f : Chip → Chip) : Chip :=
  if c.get Reg.CRN_STATUS_STATE = 0 then f c else c.raise 127 0 []

/-- HED.HEADn_LOADED of every head. -/
def Chip.showAllLoaded (c : Chip) : Chip :=
  (List.range 48).foldl (fun c h => if c.get (Reg.HED_HEAD_STATUS_STATE h) = 5 then c.showLoaded h else c) c

/-! ### The commands -/

/-- LINKED (R218, R219). -/
def execLinked (n : Fin 48) (s : State) : Host.Outcome State Fault Refusal := s.go (s.toChip.linkUp n.val)

/-- MGMT_RESPONSE (R233). -/
def execMgmtResponse (n : Fin 48) (m : MgmtResponse) (s : State) : Host.Outcome State Fault Refusal :=
  s.go (s.toChip.mgmtAnswer n.val m)

/-- MGMT_TIMEOUT (R233). -/
def execMgmtTimeout (n : Fin 48) (s : State) : Host.Outcome State Fault Refusal := s.go (s.toChip.mgmtOverdue n.val)

/-- A write of one word of the drive sets (R254, R257). -/
def Chip.driveWrite (c : Chip) (w v : Nat) : Chip :=
  c.idleWrite fun c => (c.put (Reg.HED_DRIVESET_DATA (w / 256) (w % 256)) v).showAllLoaded

/-- A write of one group window entry (R256, R257): beyond the port's groups it is discarded. -/
def Chip.groupWrite (c : Chip) (h g v : Nat) : Chip :=
  if c.gOf h ≤ 32 * g then c
  else
    c.idleWrite fun c =>
      ((c.put (Reg.HED_GROUP_SBASE h g) (bits v 0 5)).put (Reg.HED_GROUP_GDELAY h g) (bits v 8 14)).showAllLoaded

/-- A write of HED.HEADn_CFG (R257, R529): outside IDLE its DSET keeps its value. -/
def Chip.headCfg (c : Chip) (h v : Nat) : Chip :=
  let old := c.get (Reg.HED_HEAD_CFG_DSET h)
  let c := (c.plainWrite (0x91000 + 0x40 * h) v).put (Reg.HED_HEAD_CFG_DSET h) old
  c.idleWrite fun c => (c.put (Reg.HED_HEAD_CFG_DSET h) (bits v 24 2)).showAllLoaded

/-- TRIM_WRITE (R259). -/
def execTrimWrite (h : Fin 48) (s : State) : Host.Outcome State Fault Refusal := s.go (s.toChip.writeTrim h.val)

/-- MEAS_SLOT (R262, R263). -/
def execMeasSlot (h : Fin 48) (s : State) : Host.Outcome State Fault Refusal := s.go (s.toChip.measSlot h.val)

/-- MEAS_READ (R263): the values are due; without a result the READ goes to the head. -/
def execMeasRead (h : Fin 48) (r : Option MeasResult) (s : State) : Host.Outcome State Fault Refusal :=
  let c := s.toChip
  let x := c.head h.val
  s.go <|
    if x.measuring.isNone then c
    else
      let c := c.advanceTo x.measDue
      match r with
      | none => c.mgmtRead h.val 4 0x10 132 .measRead
      | some m => c.measured h.val m.mstate.toNat (m.values.map (·.toNat))

end Sys2Proof.Machine
end

