-- ==== Sys2Proof/Machine/Gate.lean ====
section
/-! DEFINITION. Machine/Gate.lean: the firing gates (R266 to R273): the vote of nine inputs, PERMIT and its settle, the STRIKE
latch, the FIRE_EN lines, and faulty channels and voters. -/

namespace Sys2Proof.Machine

/-- Level of gate input i: LID A to C, SURFACE A to C, STRIKE A to C. -/
def Chip.gateInput (c : Chip) (i : Nat) : Bool := c.bitOf Reg.HED_GATE_STATUS_INPUTS i

/-- permit of condition k (R267): at least two of its three inputs asserted. -/
def Chip.gatePermit (c : Chip) (k : Nat) : Bool :=
  let a := c.gateInput (3 * k)
  let b := c.gateInput (3 * k + 1)
  let d := c.gateInput (3 * k + 2)
  (a && b) || (a && d) || (b && d)

/-- The vote V (R267): the three voters compute one raw vote. -/
def Chip.gateVote (c : Chip) : Bool :=
  c.gatePermit 0 && c.gatePermit 1 && c.gatePermit 2 && !c.flag Reg.HED_GATE_CTRL_FORCE_STOP

/-- The conditions voting stop, one bit each. -/
def Chip.condStop (c : Chip) : Nat :=
  b2n (!c.gatePermit 0) + 2 * b2n (!c.gatePermit 1) + 4 * b2n (!c.gatePermit 2)

/-- R269: whether the FIRE_EN lines are asserted. -/
def Chip.fireLevel (c : Chip) : Bool :=
  c.flag Reg.HED_GATE_STATUS_PERMIT && decide (c.get Reg.CKP_STATUS_PSTATE ≤ 1) && c.flag Reg.CFG_STATUS_COMMITTED

/-- The FIRE_EN lines follow R269. -/
def Chip.driveFire (c : Chip) : Chip :=
  let v := c.fireLevel
  if c.get Reg.HED_GATE_STATUS_FE = 15 * b2n v then c
  else
    let c := { c.put Reg.HED_GATE_STATUS_FE (15 * b2n v) with fireSince := if v then some c.clk else none }
    c.emits ((List.range 4).map fun i => Output.fireEn i v)

/-- PERMIT rises (R268, R269). -/
def Chip.permitUp (c : Chip) : Chip :=
  let c := { c with settleDue := none }
  (((c.put Reg.HED_GATE_STATUS_PERMIT 1).put Reg.CRN_STATUS_GATED 0).raise 113 0 []).driveFire

/-- R272: shots accounted fired before a vote whose interval holds it are entered UNCERTAIN. -/
def Chip.voteUncertain (c : Chip) (t : ET) : Chip :=
  c.layerHeads.foldl (fun c h =>
    let cut := (c.headRun h).ending.filter fun (e : Int × ET × Int) => cutBy e.2.1 e.2.2 t && !(c.headRun h).isEntered e.1
    cut.foldl (fun c e => c.enterLines h 5 e.1 1) c) c

/-- A vote to stop (R267 to R270, R272). -/
def Chip.voteStop (c : Chip) : Chip :=
  let t := c.now
  let c := ({ c with settleDue := none }.put Reg.HED_GATE_STATUS_PERMIT 0).put Reg.HED_GATE_STATUS_SETTLING 0
  let c := (c.put Reg.CRN_STATUS_GATED 1).driveFire
  let c := (c.put64 Reg.HED_GATE_STOP_ET_LO_ET Reg.HED_GATE_STOP_ET_HI_ET t.toNat).bump Reg.HED_GATE_STOPS_COUNT 1
  let c := c.raise 112 0 [(1, c.condStop), (8, t.toNat)]
  if c.get Reg.CRN_STATUS_STATE = 0 then c
  else ((c.onRun fun r => { r with votes := t :: r.votes }).triggerAll 5 0).voteUncertain t

/-- V rises: the settle of R268 begins. -/
def Chip.voteRise (c : Chip) : Chip :=
  let due := c.clk + 1000 * c.get Reg.HED_GATE_CFG_SETTLE_US
  { c with settleDue := some due }.put Reg.HED_GATE_STATUS_SETTLING 1

/-- The vote recomputed after a change that had the STRIKE condition permit or not before it. Until the loader sets
HED.GATE_CFG, as the core leaves reset, nothing stops or settles (R268, R489). -/
def Chip.revote (c : Chip) (strikeBefore : Bool) : Chip :=
  let was := c.flag Reg.HED_GATE_STATUS_VOTE
  let v := c.gateVote
  let c := (c.put Reg.HED_GATE_STATUS_COND_STOP c.condStop).putB Reg.HED_GATE_STATUS_VOTE v
  let c := if strikeBefore ∧ c.gatePermit 2 = false ∧ c.flag Reg.HED_GATE_CFG_STRIKE_AUTO = false then
      c.put Reg.HED_GATE_STATUS_STRIKE_LATCH 1
    else c
  if c.conf.scanned = false then c
  else if was ∧ v = false then c.voteStop else if was = false ∧ v then c.voteRise else c

/-- Whether a channel differs from its condition's vote. -/
def Chip.channelOdd (c : Chip) (i : Nat) : Bool := c.gateInput i != c.gatePermit (i / 3)

/-- Channels that have begun or ended a disagreement since an earlier moment, no earlier than reset release (R273). -/
def Chip.timeChannels (c old : Chip) : Chip :=
  (List.range 9).foldl (fun c i =>
    if c.channelOdd i = false then { c with chanSince := SMap.set 0 i 0 c.chanSince }
    else if old.channelOdd i = false then { c with chanSince := SMap.set 0 i (max c.clk c.island.relAt + 1) c.chanSince }
    else c) c

/-- The disagreements that stand at reset release, counted from it (R273). -/
def Chip.oddAtRelease (c : Chip) : Chip :=
  (List.range 9).foldl (fun c i =>
    { c with chanSince := SMap.set 0 i (if c.channelOdd i then c.island.relAt + 1 else 0) c.chanSince }) c

/-- A gate input changes level (R267); in P3 a change of the vote wakes the controller (R468). -/
def Chip.gateChange (c : Chip) (i : Nat) (level : Bool) : Chip :=
  let old := c
  let c := ((c.putBit Reg.HED_GATE_STATUS_INPUTS i level).timeChannels old).revote (old.gatePermit 2)
  c.on (decide (c.pstate = 3) && (c.flag Reg.HED_GATE_STATUS_VOTE != old.flag Reg.HED_GATE_STATUS_VOTE)) fun c => c.wake 5

/-- CLEAR_STRIKE (R268): PERMIT rises at once where the settle is over. -/
def Chip.clearStrike (c : Chip) : Chip :=
  if c.gatePermit 2 = false then c
  else
    let c := c.put Reg.HED_GATE_STATUS_STRIKE_LATCH 0
    match c.settleDue with
    | some t => if t ≤ c.clk ∧ c.flag Reg.HED_GATE_STATUS_VOTE then
        (c.put Reg.HED_GATE_STATUS_SETTLING 0).permitUp else c
    | none => c

/-- A CLEAR_STRIKE pulse crosses to the always-on island by the toggle of X03 (R453). The handshake of the pulse before it may be
in progress for three periods of 1 ns and three of 40 ns; while it may be, whether this one is merged into that is a free value. -/
def Chip.strikePulse (c : Chip) : Chip :=
  if c.strikeUntil ≤ c.clk then { c.clearStrike with strikeUntil := c.clk + 123 }
  else
    let merged := Config.freeBool c.fresh
    let was := c.bitOf Reg.CKP_XING_MERGED_MERGED 3
    let c := c.drawn
    if merged then (c.putBit Reg.CKP_XING_MERGED_MERGED 3 true).raiseIf (!was) 247 0 [(1, 3)]
    else { c.clearStrike with strikeUntil := c.clk + 123 }

/-- A write of HED.GATE_CTRL. -/
def Chip.gateCtrl (c : Chip) (v : Nat) : Chip :=
  let c := (c.put Reg.HED_GATE_CTRL_FORCE_STOP (bits v 0 1)).revote (c.gatePermit 2)
  if bit v 1 then c.strikePulse else c

/-- The end of the settle (R268). -/
def Chip.settleEnd (c : Chip) : Chip :=
  match c.settleDue with
  | none => c
  | some t =>
    let c := (c.advanceTo t).put Reg.HED_GATE_STATUS_SETTLING 0
    if c.flag Reg.HED_GATE_STATUS_VOTE ∧ c.flag Reg.HED_GATE_STATUS_STRIKE_LATCH = false then c.permitUp else c

/-- A channel that has disagreed for 50 ms (R273). -/
def Chip.channelFault (c : Chip) (i : Nat) : Chip :=
  let t := SMap.get 0 i c.chanSince
  if t = 0 then c
  else
    let c := c.advanceTo (t - 1 + 50000000)
    let c := { c with chanSince := SMap.set 0 i 0 c.chanSince }
    (c.putBit Reg.HED_GATE_FAULT_CHANNEL i true).raise 114 0 [(1, i / 3), (1, i % 3)]

/-! ### The commands -/

/-- GATE_INPUT_CHANGE (R267). -/
def execGateInputChange (i : Fin 9) (level : Bool) (s : State) : Host.Outcome State Fault Refusal :=
  s.go (s.toChip.gateChange i.val level)

/-- PERMIT_RISE (R268). -/
def execPermitRise (s : State) : Host.Outcome State Fault Refusal := s.go s.toChip.settleEnd

/-- GATE_CHANNEL_FAULT (R273). -/
def execGateChannelFault (i : Fin 9) (s : State) : Host.Outcome State Fault Refusal := s.go (s.toChip.channelFault i.val)

/-- VOTER_FAULT (R273). -/
def execVoterFault (k : Fin 3) (s : State) : Host.Outcome State Fault Refusal :=
  s.go ((s.toChip.putBit Reg.HED_GATE_FAULT_VOTER k.val true).raise 115 0 [(1, k.val)])

end Sys2Proof.Machine
end

