-- ==== Sys2Proof/Machine/Camera.lean ====
section
/-! DEFINITION. Machine/Camera.lean: camera ports, contexts and frames (R275 to R289), the pipeline's stages (R290 to R293),
parameter sets (R294, R295), skim (R297 to R301), triggers (R302, R303), items and their routing (R304 to R307). -/

namespace Sys2Proof.Machine

/-- Whether the receivers run (R277, R391). -/
def Chip.camRunning (c : Chip) : Bool := decide (c.get Reg.CKP_STATUS_PSTATE ≤ 1) && c.flag Reg.DRC_STATUS_INIT_DONE && !c.tdm.inspStopped

/-- Whether a port receives. -/
def Chip.portOn (c : Chip) (p : Nat) : Bool := c.camRunning && c.flag (Reg.CAM_PORT_CFG_ENABLE p)

/-- The enabled context of a port and virtual channel (R280). -/
def Chip.ctxOf (c : Chip) (p vc : Nat) : Option Nat :=
  (List.range 8).find? fun x => c.flag (Reg.CAM_CTX_BIND_ENABLE x) && decide (c.get (Reg.CAM_CTX_BIND_PORT x) = p) &&
    decide (c.get (Reg.CAM_CTX_BIND_VC x) = vc)

/-- A port heard from: its clock and data lanes are up. -/
def Chip.portHeard (c : Chip) (p : Nat) : Chip :=
  let c := (c.endQuarantine 13 p).endQuarantine 14 p
  ((c.put (Reg.CAM_PORT_STATUS_CLK_ACTIVE p) 1).put (Reg.CAM_PORT_STATUS_SYNC p) (2 ^ c.get (Reg.CAM_PORT_CFG_LANES p) - 1)).putBit
    Reg.CAM_STATUS_PORT_UP p true

/-- A receiver fault (R308). -/
def Chip.portFault (c : Chip) (p cause : Nat) : Chip :=
  (c.put (Reg.CAM_PORT_STATUS_ERR p) 1).raise (128 + p) cause []

/-! ### Pixels (R290) -/

/-- The bits of a pixel of a data type (R275). -/
def pixelBits (dt : Nat) : Nat :=
  match dt with
  | 0x2A => 8
  | 0x2B => 10
  | 0x2C => 12
  | 0x2D => 14
  | _ => 16

/-- A pixel's upper byte and low bits in the packing of CSI-2: groups of upper bytes followed by their low bits. -/
def rawPixel (dt : Nat) (b : List Byte) (i : Nat) : Nat :=
  let at' := fun k => (b.getD k 0).toNat
  match dt with
  | 0x2A => at' i
  | 0x2B =>
    let g := i / 4 * 5
    4 * at' (g + i % 4) + bits (at' (g + 4)) (2 * (i % 4)) 2
  | 0x2C =>
    let g := i / 2 * 3
    16 * at' (g + i % 2) + bits (at' (g + 2)) (4 * (i % 2)) 4
  | 0x2D =>
    let g := i / 4 * 7
    64 * at' (g + i % 4) + bits (at' (g + 4) + 256 * at' (g + 5) + 65536 * at' (g + 6)) (6 * (i % 4)) 6
  | _ => 256 * at' (2 * i) + at' (2 * i + 1)

/-- Whole pixels in so many payload bytes. -/
def pixelCount (dt n : Nat) : Nat := n * 8 / pixelBits dt

/-- A received line unpacked to WIDTH pixels: padded with 0, or cut (R281). -/
def unpackLine (dt width : Nat) (b : List Byte) : List Nat :=
  let n := pixelCount dt b.length
  (List.range width).map fun i => if i < n then rawPixel dt b i * 2 ^ (16 - pixelBits dt) else 0

/-- A parameter of a frame's active set. -/
def Frame.param (f : Frame) (r : Field) : Nat := SMap.get r.rst r.key f.params

/-- g(x) of R290. -/
def Frame.gain (f : Frame) (width x : Nat) : Nat :=
  let knot := fun k => if k % 2 = 0 then f.param (Reg.CAM_CTX_ACTSHADE_K0 f.ctx (k / 2))
    else f.param (Reg.CAM_CTX_ACTSHADE_K1 f.ctx (k / 2))
  let pos := if width ≤ 1 then 0 else x * 31 * 65536 / (width - 1)
  let k := min 31 (pos / 65536)
  let a : Int := knot k
  let b : Int := knot (min 31 (k + 1))
  (floorDiv (a * 65536 + (b - a) * (pos % 65536 : Nat)) 65536).toNat

/-- Black level and shading of one line. -/
def Frame.shadeLine (f : Frame) (width : Nat) (l : List Nat) : List Nat :=
  let black := f.param (Reg.CAM_CTX_ACTBLACK_BLACK f.ctx)
  (List.range width).map fun x => min 65535 ((l.getD x 0 - black) * f.gain width x / 4096)

/-- Geometric remap of one line. -/
def Frame.remapLine (f : Frame) (width outWidth : Nat) (l : List Nat) : List Nat :=
  let x0 := signed 32 (f.param (Reg.CAM_CTX_ACTREMAP_X0_X0 f.ctx))
  let step : Int := f.param (Reg.CAM_CTX_ACTREMAP_STEP_STEP f.ctx)
  let curv := signed 32 (f.param (Reg.CAM_CTX_ACTREMAP_CURV_CURV f.ctx))
  (List.range outWidth).map fun col =>
    let s := floorDiv (x0 * 2 ^ 24 + step * col * 2 ^ 16 + curv * (col * col : Nat)) 65536
    let i := floorDiv s 65536
    let fr := (s - i * 65536).toNat
    if i < 0 ∨ (width : Int) ≤ i ∨ (0 < fr ∧ i = (width : Int) - 1) then 0
    else
      let v : Int := l.getD i.toNat 0
      let w : Int := l.getD (i.toNat + 1) 0
      if fr = 0 then v.toNat else (v + floorDiv ((w - v) * fr) 65536).toNat

/-- An image as bytes, in 8 or 16 bits (R292). -/
def imageBytes (eight : Bool) (img : List (List Nat)) : List Byte :=
  img.flatMap fun l => l.flatMap fun v => if eight then leBytes 1 (v / 256) else leBytes 2 v

/-- A stream's image (R293); SX or SY above 4, which the rule does not give, acts as 4 (DESIGN CHOICE: log entry 86). -/
def streamImage (img : List (List Nat)) (x0 x1 y0 y1 sx sy : Nat) : List (List Nat) :=
  let bx := 2 ^ min 4 sx
  let by' := 2 ^ min 4 sy
  (List.range ((y1 - y0) / by')).map fun r => (List.range ((x1 - x0) / bx)).map fun col =>
    let block := (List.range by').flatMap fun dy => (List.range bx).map fun dx =>
      (img.getD (y0 + r * by' + dy) []).getD (x0 + col * bx + dx) 0
    block.sum / (bx * by')

/-! ### Skim (R297, R298) -/

/-- Pixels of a rectangle of an image. -/
def rectPixels (img : List (List Nat)) (x0 x1 y0 y1 : Nat) : List Nat :=
  ((img.drop y0).take (y1 - y0)).flatMap fun l => (l.drop x0).take (x1 - x0)

/-- The histogram section. -/
def Frame.histogram (f : Frame) (img : List (List Nat)) : List Byte :=
  let px := rectPixels img (f.param (Reg.CAM_CTX_ACTHIST_X_HX0 f.ctx)) (f.param (Reg.CAM_CTX_ACTHIST_X_HX1 f.ctx))
    (f.param (Reg.CAM_CTX_ACTHIST_Y_HY0 f.ctx)) (f.param (Reg.CAM_CTX_ACTHIST_Y_HY1 f.ctx))
  (List.range 256).flatMap fun b => leBytes 4 (px.filter fun v => decide (v / 256 = b)).length

/-- One window's eight bytes. -/
def Frame.window (f : Frame) (img : List (List Nat)) (w : Nat) : List Byte :=
  let px := rectPixels img (f.param (Reg.CAM_CTX_ACTWIN_X_X0 f.ctx w)) (f.param (Reg.CAM_CTX_ACTWIN_X_X1 f.ctx w))
    (f.param (Reg.CAM_CTX_ACTWIN_Y_Y0 f.ctx w)) (f.param (Reg.CAM_CTX_ACTWIN_Y_Y1 f.ctx w))
  leBytes 2 (if px.isEmpty then 0 else px.sum / px.length) ++ leBytes 2 0 ++ leBytes 4 px.length

/-- Column means of the remapped image over [PY0, PY1); a mean over no line is a free value. -/
def Frame.columnMeans (f : Frame) (img : List (List Nat)) (outWidth draw : Nat) : List Nat :=
  let y0 := f.param (Reg.CAM_CTX_ACTPROF_Y_PY0 f.ctx)
  let y1 := f.param (Reg.CAM_CTX_ACTPROF_Y_PY1 f.ctx)
  let ls := (img.drop y0).take (y1 - y0)
  (List.range outWidth).map fun col =>
    if ls.isEmpty then Config.freeNat (draw + col) % 65536 else (ls.map fun l => l.getD col 0).sum / ls.length

/-- The profile entries of R298: head, nozzle, COLS and the sum of the run's means, runs in column order. -/
def profileRuns (entries : List (Nat × Nat)) : List (Nat × Nat × Nat × Nat) :=
  entries.foldl (fun acc e =>
    if bit e.1 31 = false then acc ++ [(64, 0, 0, 0)]
    else
      let h := bits e.1 25 6
      let n := bits e.1 12 13
      match acc.getLast? with
      | some q => if q.1 = h ∧ q.2.1 = n ∧ q.2.2.1 ≠ 0 then acc.dropLast ++ [(h, n, q.2.2.1 + 1, q.2.2.2 + e.2)]
        else acc ++ [(h, n, 1, e.2)]
      | none => acc ++ [(h, n, 1, e.2)]) []

/-- The profile of a remapped image: head, nozzle, COLS and MEAN. -/
def Chip.profile (c : Chip) (f : Frame) (img : List (List Nat)) : List (Nat × Nat × Nat × Nat) :=
  let w := c.get (Reg.CAM_CTX_OUT_OUT_WIDTH f.ctx)
  let base := c.get (Reg.CAM_CTX_OUT_MAP_BASE f.ctx)
  let ms := f.columnMeans img w c.fresh
  let es := (List.range w).map fun col => (c.get (Reg.CAM_MAP_ENTRY (f.ctx / 2) (base + col)), ms.getD col 0)
  ((profileRuns es).filter fun e => decide (e.2.2.1 ≠ 0)).map fun e => (e.1, e.2.1, e.2.2.1, e.2.2.2 / e.2.2.1)

/-! ### Items (R304 to R307) -/

/-- The image header of R304. -/
structure ImgHdr where
  kind : Nat
  source : Nat
  width : Nat
  height : Nat
  format : Nat
  skim : Nat
  nwin : Nat
  tap : Nat
  pcount : Nat
  deriving DecidableEq, Repr

/-- An item: its header and data. -/
def Frame.item (f : Frame) (fe : ET) (h : ImgHdr) (data : List Byte) : List Byte :=
  leBytes 4 0x474D4943 ++ leBytes 1 1 ++ leBytes 1 h.kind ++ leBytes 1 h.source ++ leBytes 1 f.bad ++ leBytes 2 f.num ++
    leBytes 2 (f.param (Reg.CAM_CTX_ACTPARAMSET_ID f.ctx)) ++ leBytes 2 h.width ++ leBytes 2 h.height ++ leBytes 1 h.format ++
    leBytes 1 h.skim ++ leBytes 1 h.nwin ++ leBytes 1 h.tap ++ leBytes 4 h.pcount ++ leBytes 8 f.fsEt.toNat ++
    leBytes 8 fe.toNat ++ leBytes 8 f.trigEt.toNat ++ leBytes 4 f.trigSeq ++ leBytes 4 (64 + data.length) ++ leBytes 8 0 ++ data

/-- SOURCE of R99. -/
def sourceOf (x stream : Nat) : Nat := x / 2 + 4 * (x % 2) + 8 * stream

/-- Context of a SOURCE. -/
def sourceCtx (s : Nat) : Nat := 2 * (s % 4) + s / 4 % 2

/-- Whether a ring is an enabled INSPECT ring. -/
def Chip.inspectRing (c : Chip) (p n : Nat) : Bool :=
  decide (c.ringState p n ≠ 0) && decide (c.get (Reg.HIF_RING_CFG_TYPE p n) = 3)

/-- An item routed (R306); the flag says whether EV151 has been raised for its frame. -/
def Chip.route (c : Chip) (f : Frame) (told : Bool) (kind source : Nat) (body : List Byte) : Chip × Bool :=
  let p := f.ctx / 2
  let port := if kind = 3 then c.get (Reg.CAM_PIPE_ROUTE_STAT_PORT p) else c.get (Reg.CAM_PIPE_ROUTE_IMG_PORT p)
  let ring := if kind = 3 then c.get (Reg.CAM_PIPE_ROUTE_STAT_RING p) else c.get (Reg.CAM_PIPE_ROUTE_IMG_RING p)
  let it : InspItem := ⟨port, ring, kind, source, f.num, f.param (Reg.CAM_CTX_ACTPARAMSET_ID f.ctx),
    b2n (decide (f.bad ≠ 0)), body, f.slot, []⟩
  if c.inspectRing port ring = false then
    let c := c.bump (Reg.CAM_PIPE_UNROUTED_COUNT p) 1
    (if told then c else c.raise 151 0 [(1, p), (1, kind), (2, f.num)], true)
  else if c.flag Reg.CHN_CTRL_FRAME_COMP then (c.compressItem false it, told)
  else (c.queueInsp it, told)

/-- CAM.STATUS and CAM.PIPEp_STATUS follow the frames. -/
def Chip.showPipe (c : Chip) (p : Nat) : Chip :=
  let cur := match c.frames.find? fun f => decide (f.ctx / 2 = p) && f.current with
    | some f => 1 + f.ctx % 2
    | none => 0
  let waits := c.frames.any fun f => decide (f.ctx / 2 = p) && !f.current && !f.lost
  let c := (c.put (Reg.CAM_PIPE_STATUS_CURRENT p) cur).putB (Reg.CAM_PIPE_STATUS_WAITING p) waits
  let c := c.putBit Reg.CAM_STATUS_PIPE_BUSY p (decide (cur ≠ 0))
  c.showSlots p

/-- A frame marked bad is counted and told once (R283): at its close, or as it is lost (DESIGN CHOICE: log entry 86). -/
def Chip.tellBad (c : Chip) (f : Frame) : Chip :=
  if f.bad = 0 then c
  else (c.bump (Reg.CAM_CTX_BADFR_COUNT f.ctx) 1).raise (132 + f.ctx) 0 [(2, f.num), (1, f.bad)]

/-- A current frame that ends no longer limits its pipeline (R291). -/
def Chip.unthrottle (c : Chip) (f : Frame) : Chip :=
  if f.current then c.put (Reg.CAM_PIPE_STATUS_THROTTLED (f.ctx / 2)) 0 else c

/-- A lost frame (R289): counted, recorded, and told. Its data leaves the FIFO; it stays until its FE. -/
def Chip.loseFrame (c : Chip) (f : Frame) (cause : Nat) : Chip :=
  let p := f.ctx / 2
  let c := (c.tellBad f).unthrottle f
  let gone := { f with lost := true, current := false, lines := [], queued := 0 }
  let c := { c with frames := c.frames.filterMap fun g =>
    if g = f then (if f.ended.isSome then none else some gone) else some g }
  let c := (c.bump (Reg.CAM_CTX_LOSTFR_COUNT f.ctx) 1).bump (Reg.CAM_PIPE_LOST_COUNT p) 1
  let c := (c.put (Reg.CAM_CTX_LAST_LOST_FRAME f.ctx) f.num).put (Reg.CAM_CTX_LAST_LOST_CAUSE f.ctx) cause
  c.raise (140 + p) cause [(1, f.ctx), (2, f.num)]

/-- Bytes of a whole line of a context. -/
def Chip.lineBytes (c : Chip) (x : Nat) : Nat :=
  (c.get (Reg.CAM_CTX_GEOM_WIDTH x) * pixelBits (c.get (Reg.CAM_CTX_BIND_DT x)) + 7) / 8

/-- GEOMETRY of R281: a line short or long, or lines missing or beyond HEIGHT. -/
def Chip.geometryBad (c : Chip) (f : Frame) : Bool :=
  decide (f.lines.length ≠ c.get (Reg.CAM_CTX_GEOM_HEIGHT f.ctx)) ||
    f.lines.any fun l => decide (pixelCount (c.get (Reg.CAM_CTX_BIND_DT f.ctx)) l.length ≠ c.get (Reg.CAM_CTX_GEOM_WIDTH f.ctx))

/-- The three images of a frame: unpacked, corrected, remapped. -/
def Chip.images (c : Chip) (f : Frame) : List (List Nat) × List (List Nat) × List (List Nat) :=
  let w := c.get (Reg.CAM_CTX_GEOM_WIDTH f.ctx)
  let raw := (List.range (c.get (Reg.CAM_CTX_GEOM_HEIGHT f.ctx))).map fun r =>
    unpackLine (c.get (Reg.CAM_CTX_BIND_DT f.ctx)) w (f.lines.getD r [])
  let cor := raw.map (f.shadeLine w)
  (raw, cor, cor.map (f.remapLine w (c.get (Reg.CAM_CTX_OUT_OUT_WIDTH f.ctx))))

/-- The statistics record's sections (R305). -/
def Frame.skimBytes (f : Frame) (cor : List (List Nat)) (prof : List (Nat × Nat × Nat × Nat)) : List Byte :=
  let hist := decide (f.param (Reg.CAM_CTX_ACTSKIM_HIST f.ctx) = 1)
  let win := decide (f.param (Reg.CAM_CTX_ACTSKIM_WIN f.ctx) = 1)
  (if hist then f.histogram cor else []) ++
    (if win then (List.range (f.param (Reg.CAM_CTX_ACTSKIM_NWIN f.ctx))).flatMap (f.window cor) else []) ++
    prof.flatMap fun e => leBytes 1 e.1 ++ leBytes 1 0 ++ leBytes 2 e.2.1 ++ leBytes 2 e.2.2.2 ++ leBytes 2 e.2.2.1

/-- The statistics item (R301, R304). -/
def Chip.statItem (c : Chip) (f : Frame) (fe : ET) (cor : List (List Nat)) (prof : List (Nat × Nat × Nat × Nat)) : List Byte :=
  let x := f.ctx
  let win := f.param (Reg.CAM_CTX_ACTSKIM_WIN x)
  f.item fe { kind := 3, source := sourceOf x 0, width := c.get (Reg.CAM_CTX_OUT_OUT_WIDTH x)
              height := c.get (Reg.CAM_CTX_GEOM_HEIGHT x), format := 0
              skim := f.param (Reg.CAM_CTX_ACTSKIM_HIST x) + 2 * win + 4 * f.param (Reg.CAM_CTX_ACTSKIM_PROF x)
              nwin := win * f.param (Reg.CAM_CTX_ACTSKIM_NWIN x), tap := 0, pcount := prof.length }
    (f.skimBytes cor prof)

/-- The tap's item, if one is selected (R292). -/
def Chip.tapItem (c : Chip) (f : Frame) (fe : ET) (im : List (List Nat) × List (List Nat) × List (List Nat)) :
    Option (Nat × List Byte) :=
  let x := f.ctx
  let tap := c.get (Reg.CAM_CTX_OUT_TAP x)
  let eight := c.flag (Reg.CAM_CTX_BIND_TAP8 x)
  let img := if tap = 1 then im.1 else if tap = 2 then im.2.1 else im.2.2
  let w := if tap = 3 then c.get (Reg.CAM_CTX_OUT_OUT_WIDTH x) else c.get (Reg.CAM_CTX_GEOM_WIDTH x)
  let kind := if tap = 3 then 0 else 1
  if tap = 0 then none
  else some (kind, f.item fe { kind := kind, source := sourceOf x 0, width := w, height := c.get (Reg.CAM_CTX_GEOM_HEIGHT x)
                               format := if eight then 8 else 16, skim := 0, nwin := 0, tap := tap, pcount := 0 }
    (imageBytes eight img))

/-- The items of PIPE0's streams (R293). -/
def Chip.streamItems (c : Chip) (f : Frame) (fe : ET) (img : List (List Nat)) : List (Nat × List Byte) :=
  let x := f.ctx
  if 2 ≤ x then []
  else ((List.range 4).filter fun s => c.flag (Reg.CAM_CTX_STR_CFG_ENABLE x s)).map fun s =>
    let eight := c.flag (Reg.CAM_CTX_STR_CFG_FMT8 x s)
    let im := streamImage img (c.get (Reg.CAM_CTX_STR_X_X0 x s)) (c.get (Reg.CAM_CTX_STR_X_X1 x s))
      (c.get (Reg.CAM_CTX_STR_Y_Y0 x s)) (c.get (Reg.CAM_CTX_STR_Y_Y1 x s)) (c.get (Reg.CAM_CTX_STR_CFG_SX x s))
      (c.get (Reg.CAM_CTX_STR_CFG_SY x s))
    (sourceOf x s, f.item fe { kind := 2, source := sourceOf x s, width := (im.headD []).length, height := im.length
                               format := if eight then 8 else 16, skim := 0, nwin := 0, tap := 0, pcount := 0 }
      (imageBytes eight im))

/-- A frame closes (R283, R301): counted if bad, its statistics go to heal, its items become ready in order. -/
def Chip.closeFrame (c : Chip) (f : Frame) (fe : ET) : Chip :=
  let c := { c with frames := c.frames.erase f }
  let f := if c.geometryBad f ∧ bit f.bad 2 = false then { f with bad := f.bad + 4 } else f
  let c := (c.tellBad f).unthrottle f
  let im := c.images f
  let hasProf := decide (f.param (Reg.CAM_CTX_ACTSKIM_PROF f.ctx) = 1)
  let prof := if hasProf then c.profile f im.2.2 else []
  let c := { c with fresh := c.fresh + 16384 }
  let c := c.healRecord f.ctx f.num (decide (f.bad ≠ 0)) hasProf f.fsEt
    (prof.map fun e => (e.1, e.2.1, e.2.2.1, e.2.2.2))
  let stat := c.statItem f fe im.2.1 prof
  let r : Chip × Bool := if c.flag (Reg.CAM_PIPE_ROUTE_STAT_HOST (f.ctx / 2)) then
      c.route f false 3 (sourceOf f.ctx 0) stat else (c, false)
  let r : Chip × Bool := match c.tapItem f fe im with
    | some t => r.1.route f r.2 t.1 (sourceOf f.ctx 0) t.2
    | none => r
  ((c.streamItems f fe im.2.2).foldl (fun (r : Chip × Bool) t => r.1.route f r.2 2 t.1 t.2) r).1

/-- A pipeline without a current frame makes the oldest waiting one current; one whose FE has come closes (R285). -/
def Chip.nextFrame (p : Nat) : Nat → Chip → Chip
  | 0, c => c
  | fuel + 1, c =>
    if c.frames.any fun f => decide (f.ctx / 2 = p) && f.current then c
    else
      match c.frames.find? fun f => decide (f.ctx / 2 = p) && !f.lost with
      | none => c
      | some f =>
        let g := { f with current := true, queued := 0 }
        let c := { c with frames := c.frames.map fun q => if q = f then g else q }
        match f.ended with
        | none => c
        | some fe => Chip.nextFrame p fuel (c.closeFrame g fe)

/-- The next frame of a pipeline, and its status. -/
def Chip.pumpFrames (c : Chip) (p : Nat) : Chip := (Chip.nextFrame p (c.frames.length + 1) c).showPipe p

/-- The open frame of a context: the one whose FE has not come. -/
def Chip.openFrame (c : Chip) (x : Nat) : Option Frame := c.frames.find? fun f => decide (f.ctx = x) && f.ended.isNone

/-- A frame replaced by a changed one. -/
def Chip.setFrame (c : Chip) (f g : Frame) : Chip := { c with frames := c.frames.map fun q => if q = f then g else q }

/-- A cause of R283 added to a frame. -/
def Frame.mark (f : Frame) (k : Nat) : Frame := if bit f.bad k then f else { f with bad := f.bad + 2 ^ k }

/-- An FE for the open frame of a context: it closes, or waits to be made current. -/
def Chip.endFrame (c : Chip) (x : Nat) (fe : ET) (bad : Bool) : Chip :=
  match c.openFrame x with
  | none => c
  | some f =>
    let c := c.put (Reg.CAM_CTX_STATUS_OPEN x) 0
    if f.lost then ({ c with frames := c.frames.erase f }).pumpFrames (x / 2)
    else
      let g := { (if bad then f.mark 3 else f) with ended := some fe }
      let c := c.setFrame f g
      if f.current then (c.closeFrame g fe).pumpFrames (x / 2) else c.showPipe (x / 2)

/-! ### Parameter sets (R294, R295) -/

/-- The active set of a context becomes its shadow set: the words at +0x100 to +0x1FF copied to +0x200 to +0x2FF. -/
def Chip.copyShadow (c : Chip) (x : Nat) : Chip :=
  let base := 0xA1000 + 0x400 * x
  let c := c.resetRange (base + 0x200) (base + 0x300)
  (List.range 64).foldl (fun c w =>
    (fieldsAt (base + 0x100 + 4 * w)).foldl (fun c f =>
      c.put ⟨base + 0x200 + 4 * w, f.lo, f.width, f.rst⟩ (c.get (f.at (base + 0x100 + 4 * w)))) c) c

/-- The active set's fields, as a frame uses them. -/
def Chip.activeSet (c : Chip) (x : Nat) : SMap Nat :=
  let base := 0xA1000 + 0x400 * x
  c.regs.filter fun e => decide (32 * (base + 0x200) ≤ e.1 ∧ e.1 < 32 * (base + 0x300))

/-- R294: an armed set applies at an FS that has reached FROM. -/
def Chip.applySet (c : Chip) (x f : Nat) : Chip :=
  if c.flag (Reg.CAM_CTX_STATUS_ARMED x) ∧
      0 ≤ wrapDiff (BitVec.ofNat 16 f) (BitVec.ofNat 16 (c.get (Reg.CAM_CTX_APPLY_FROM x))) then
    let c := (c.copyShadow x).put (Reg.CAM_CTX_STATUS_ARMED x) 0
    c.raise (144 + x / 2) 0 [(1, x), (2, f), (2, c.get (Reg.CAM_CTX_ACTPARAMSET_ID x))]
  else c

/-- A write of CAM.CTXx_APPLY. -/
def Chip.applyCtl (c : Chip) (x v : Nat) : Chip :=
  let c := if c.flag (Reg.CAM_CTX_STATUS_ARMED x) then c else c.put (Reg.CAM_CTX_APPLY_FROM x) (bits v 0 16)
  let c := if bit v 16 then c.put (Reg.CAM_CTX_STATUS_ARMED x) 1 else c
  if bit v 17 then c.put (Reg.CAM_CTX_STATUS_ARMED x) 0 else c

/-! ### Frame start (R281, R282, R286, R303, R307) -/

/-- The number of a frame (R282). -/
def Chip.frameNumber (c : Chip) (x received : Nat) : Chip × Nat :=
  let prev := c.get (Reg.CAM_CTX_STATUS_FRAME x)
  let seen := (c.cam x).seen
  if c.flag (Reg.CAM_CTX_BIND_FNUM_MODE x) then (c, if seen then (prev + 1) % 65536 else 0)
  else
    let good := !seen || decide (received = (prev + 1) % 65536) || decide (prev = 65535 ∧ received = 1)
    (c.raiseIf (!good) 150 0 [(1, x), (2, (prev + 1) % 65536), (2, received)], received)

/-- The trigger of a MODE 1 run, among those whose commands have not come, that a stamp belongs to: the last whose time is not
after it (R303). -/
def Chip.trigAhead (c : Chip) (x : Nat) (t : ET) : List (Nat × ET) :=
  let k := (c.cam x).k
  let n := c.get (Reg.CAM_CTX_TRIG_CTL_COUNT x)
  let step := 65536 * c.get (Reg.CAM_CTX_TRIG_PERIOD_PERIOD x)
  match c.sched.find? fun (a : Sched) => decide (a.kind = SchedKind.camTrigger x) with
  | none => []
  | some a =>
    let d := wrapDiff t a.target
    if d < 0 then []
    else
      let more := d.toNat / step
      let j := if n = 0 then more else min more (n - 1 - k)
      [(k + j, a.target + BitVec.ofNat 64 (j * step))]

/-- The trigger a stamp belongs to (R303): the last whose time is not after it, whether or not its command has come. -/
def Chip.triggerOf (c : Chip) (x : Nat) (t : ET) : Nat × ET :=
  if c.get (Reg.CAM_CTX_TRIG_MODE x) = 0 then (0xFFFFFFFF, 0)
  else
    match (c.trigAhead x t ++ (c.cam x).posDue.reverse ++ (c.cam x).trigs).find? fun e => decide (0 ≤ wrapDiff t e.2) with
    | some e => e
    | none => (0xFFFFFFFF, 0)

/-- The lowest slot number not in use. -/
def freeSlot (used : List Nat) (slots : Nat) : Nat := ((List.range slots).find? fun k => !used.contains k).getD 0

/-- A frame takes a slot (R307): a free one, or the oldest, whose items still waiting for Churn are dropped. -/
def Chip.takeSlot (c : Chip) (x : Nat) : Chip × Nat :=
  let p := x / 2
  let slots := c.get (Reg.CAM_PIPE_CFG_SLOTS p)
  let used := c.slotsUsed p
  let c := { c with camSlots := c.camSlots.filter fun e => !decide (e.1 = p) || used.contains e.2 }
  let take := fun (c : Chip) (k : Nat) => ({ c with camSlots := c.camSlots ++ [(p, k)] }, k)
  match used.head? with
  | none => take c (freeSlot used slots)
  | some k =>
    if used.length < slots then take c (freeSlot used slots)
    else
      let mine := c.outItems.filter fun o => !o.firn && o.insp.holds p k
      let nos := mine.map (·.number)
      let c := { c with
        outItems := c.outItems.filter fun o => !nos.contains o.number
        jobs := c.jobs.filter (fun (j : Job) => !(decide (j.kind = 3) && nos.contains j.item))
        camSlots := c.camSlots.erase (p, k) }
      take (mine.foldl (fun c o => c.dropInsp o.insp.port o.insp.ring o.insp) c.showQueue) k

/-- An FS of a context: the old frame ends, the set applies, and the new frame opens. -/
def Chip.startFrame (c : Chip) (x received : Nat) (t : ET) : Chip :=
  let r := c.frameNumber x received
  let num := r.2
  let c := r.1.endFrame x t true
  let c := (c.setCam x { c.cam x with seen := true }).put (Reg.CAM_CTX_STATUS_FRAME x) num
  let c := (c.bump (Reg.CAM_CTX_FRAMES_COUNT x) 1).put64 (Reg.CAM_CTX_FS_ET_LO_ET x) (Reg.CAM_CTX_FS_ET_HI_ET x) t.toNat
  let s := ((c.put (Reg.CAM_CTX_STATUS_OPEN x) 1).applySet x num).takeSlot x
  let c := s.1
  let k := c.triggerOf x t
  { c with frames := c.frames ++
    [{ ctx := x, num := num, fsEt := t, params := c.activeSet x, trigSeq := k.1, trigEt := k.2,
       recv := received, slot := s.2 }] }

/-- The context of two that becomes current first (R286). -/
def Chip.firstOf (c : Chip) (x y : Nat) : Bool :=
  if x / 2 = 0 ∧ c.flag (Reg.CAM_PIPE_CFG_PRIV 0) then decide (x % 2 = c.get (Reg.CAM_PIPE_CFG_PRIV_CTX 0))
  else decide (x < y)

/-- The open frames of two contexts end in the same core clock cycle: in pipeline order (R301). -/
def Chip.endBoth (c : Chip) (x y : Nat) (t : ET) : Chip :=
  if x / 2 ≤ y / 2 then (c.endFrame x t true).endFrame y t true else (c.endFrame y t true).endFrame x t true

/-- FS packets: of one context, or of two in the same core clock cycle, whose old frames end first. -/
def Chip.frameStart (c : Chip) (m : CamShort) (t : ET) (second : Option CamShort) : Chip :=
  let ctx := fun (c : Chip) (m : CamShort) => if c.portOn m.port.val then c.ctxOf m.port.val m.vc.toNat else none
  let c := if c.portOn m.port.val then c.portHeard m.port.val else c
  let one := fun (c : Chip) (m : CamShort) => match ctx c m with
    | some x => (c.startFrame x m.num.toNat t).pumpFrames (x / 2)
    | none => c
  match second with
  | none => one c m
  | some n =>
    match ctx c m, ctx c n with
    | some x, some y =>
      let c := c.endBoth x y t
      if x / 2 = y / 2 ∧ c.firstOf x y = false then
        ((c.startFrame y n.num.toNat t).startFrame x m.num.toNat t).pumpFrames (x / 2)
      else
        (((c.startFrame x m.num.toNat t).startFrame y n.num.toNat t).pumpFrames (x / 2)).pumpFrames (y / 2)
    | _, _ => one (one c m) n

/-! ### Payload (R276, R285, R287, R288, R291) -/

/-- Bytes a port's FIFO holds. -/
def Chip.fifoBytes (c : Chip) (p : Nat) : Nat :=
  ((c.frames.filter fun f => decide (c.get (Reg.CAM_CTX_BIND_PORT f.ctx) = p)).map (·.queued)).sum

/-- Whether a context writes to DRAM, and so can be throttled (R291). -/
def Chip.ctxWrites (c : Chip) (x : Nat) : Bool :=
  decide (c.get (Reg.CAM_CTX_OUT_TAP x) ≠ 0) || (decide (x < 2) && (List.range 4).any fun s => c.flag (Reg.CAM_CTX_STR_CFG_ENABLE x s))

/-- Whether a context is PIPE0's privileged one. -/
def Chip.privileged (c : Chip) (x : Nat) : Bool :=
  decide (x < 2) && c.flag (Reg.CAM_PIPE_CFG_PRIV 0) && decide (c.get (Reg.CAM_PIPE_CFG_PRIV_CTX 0) = x % 2)

/-- A line taken into a frame. -/
def Frame.addLine (f : Frame) (payload : List Byte) (queued : Nat) : Frame :=
  { f with lines := f.lines ++ [payload], queued := queued }

/-- A privileged frame that finds the FIFO full takes PIPE0 from its current frame (R288). -/
def Chip.preempt (c : Chip) (f : Frame) : Chip :=
  let c := match c.frames.find? fun g => decide (g.ctx / 2 = 0) && g.current with
    | some g => if g = f then c else c.loseFrame g 2
    | none => c
  (c.setFrame f { f with current := true, queued := 0 }).showPipe 0

/-- Payload of an open frame enters the FIFO; a current frame's leaves it at once unless its pipeline is throttled, which
DRAM's rate decides and the model leaves free. -/
def Chip.payload (c : Chip) (f : Frame) (bytes : List Byte) : Chip :=
  let p := c.get (Reg.CAM_CTX_BIND_PORT f.ctx)
  let slow := f.current && c.ctxWrites f.ctx && Config.freeBool c.fresh
  let c := if f.current then c.drawn.putB (Reg.CAM_PIPE_STATUS_THROTTLED (f.ctx / 2)) slow else c
  let held := if f.current ∧ slow = false then 0 else f.queued + bytes.length
  let total := c.fifoBytes p - f.queued + held
  let c := c.put (Reg.CAM_PORT_FIFO_PEAK_BYTES p) (max (c.get (Reg.CAM_PORT_FIFO_PEAK_BYTES p)) (min total 262144))
  if total ≤ 262144 then c.setFrame f (f.addLine bytes held)
  else if c.privileged f.ctx then
    let g := f.addLine bytes f.queued
    (c.setFrame f g).preempt g
  else (c.loseFrame f (if f.current then 3 else 1)).pumpFrames (f.ctx / 2)

/-- A long packet (R276). -/
def Chip.longPacket (c : Chip) (p vc dt : Nat) (crcOk : Bool) (bytes : List Byte) : Chip :=
  if c.portOn p = false then c
  else
    let c := c.portHeard p
    let c := if crcOk then c else c.bump (Reg.CAM_PORT_CRC_ERR_COUNT p) 1
    let x? := if 0x2A ≤ dt ∧ dt ≤ 0x2E then c.ctxOf p vc else none
    match x? with
    | none => c.bump (Reg.CAM_PORT_DISCARD_COUNT p) 1
    | some x =>
      if c.get (Reg.CAM_CTX_BIND_DT x) ≠ dt then c.bump (Reg.CAM_PORT_DISCARD_COUNT p) 1
      else
        match c.openFrame x with
        | none => c.bump (Reg.CAM_PORT_DISCARD_COUNT p) 1
        | some f =>
          if f.lost then c
          else
            let g := if crcOk then f else f.mark 1
            (c.setFrame f g).payload g bytes

/-- A cause of R283 for every frame open on a port. -/
def Chip.markPort (c : Chip) (p k : Nat) : Chip :=
  { c with frames := c.frames.map fun f =>
      if c.get (Reg.CAM_CTX_BIND_PORT f.ctx) = p ∧ f.ended = none then f.mark k else f }

/-- An FE (R283, R301). -/
def Chip.oneEnd (c : Chip) (m : CamShort) (t : ET) : Chip :=
  if c.portOn m.port.val = false then c
  else
    match c.ctxOf m.port.val m.vc.toNat with
    | none => c
    | some x =>
      let bad := match c.openFrame x with
        | some f => decide (f.recv ≠ m.num.toNat)
        | none => false
      c.endFrame x t bad

/-- FE packets: of one context, or of two in the same core clock cycle, whose frames close in pipeline order (R301). -/
def Chip.frameEnd (c : Chip) (m : CamEnds) (t : ET) : Chip :=
  match m.second with
  | none => c.oneEnd m.first t
  | some n =>
    let pipe := fun (q : CamShort) => (c.ctxOf q.port.val q.vc.toNat).map (· / 2)
    if (pipe n).getD 4 < (pipe m.first).getD 4 then (c.oneEnd n t).oneEnd m.first t else (c.oneEnd m.first t).oneEnd n t

/-- Every frame open or waiting is lost, as the controller leaves P1 (R277) or stops owning (R278). -/
def Chip.loseFrames (c : Chip) : Chip :=
  let live := c.frames.filter fun f => !f.lost
  let c := live.foldl (fun c f => c.loseFrame f 4) c
  let c := { c with frames := [] }
  let c := (List.range 8).foldl (fun c x => c.put (Reg.CAM_CTX_STATUS_OPEN x) 0) c
  (List.range 4).foldl (fun c p => c.showPipe p) c

/-- The receivers are off as the controller leaves P1 (R277). -/
def Chip.camPowerOff (c : Chip) : Chip := c.loseFrames.put Reg.CAM_STATUS_RUNNING 0

/-! ### Triggers (R302) -/

/-- ET of trigger k in MODE 1. -/
def Chip.trigTarget (c : Chip) (x k : Nat) : ET :=
  BitVec.ofNat 64 (c.get64 (Reg.CAM_CTX_TRIG_T0_LO_T0 x) (Reg.CAM_CTX_TRIG_T0_HI_T0 x) +
    65536 * k * c.get (Reg.CAM_CTX_TRIG_PERIOD_PERIOD x))

/-- A run ends: no trigger of it is due any more. -/
def Chip.endRun (c : Chip) (x : Nat) : Chip :=
  let c := c.setCam x { c.cam x with posDue := [] }
  { c with sched := c.sched.filter fun (a : Sched) => decide (a.kind ≠ SchedKind.camTrigger x) }.put (Reg.CAM_CTX_STATUS_TRIG_RUN x) 0

/-- The next trigger of a MODE 1 run scheduled; refused, the run ends with EV149 (R52). -/
def Chip.scheduleTrigger (c : Chip) (x k : Nat) : Chip :=
  let r := c.schedule (c.trigTarget x k) (.camTrigger x)
  if r.2 then (r.1.endRun x).raise 149 2 [(1, x), (4, k)] else r.1

/-- Trigger k at t: the window [t, t + EXPO) opens, or the trigger is skipped while the previous window is open at t; then the
run goes on or ends. A skipped trigger counts among the COUNT of the run, and trigger k + 1 of a MODE 1 run is scheduled as
trigger k fires: one that a step of ET has passed is scheduled after it (DESIGN CHOICE: log entry 86). In MODE 0 nothing is
driven, and the run ends. -/
def Chip.fireTrigger (c : Chip) (x k : Nat) (t : ET) : Chip :=
  if c.get (Reg.CAM_CTX_TRIG_MODE x) = 0 then c.endRun x
  else
  let c := c.closePassed x t
  let v := c.cam x
  let c := if v.windowEnd.isSome then
      let c := (c.bump (Reg.CAM_CTX_TRIG_SKIP_COUNT x) 1).raiseIf (!v.skipping) 149 1 [(1, x), (4, k)]
      c.setCam x { v with k := v.k + 1, skipping := true, trigs := ((k, t) :: v.trigs).take 4 }
    else
      (c.driveTrig x true).setCam x { v with
        k := v.k + 1, skipping := false, trigs := ((k, t) :: v.trigs).take 4
        windowEnd := some (t + BitVec.ofNat 64 (65536 * c.get (Reg.CAM_CTX_EXPO_NS x))) }
  let n := c.get (Reg.CAM_CTX_TRIG_CTL_COUNT x)
  if n ≠ 0 ∧ n ≤ v.k + 1 then c.endRun x
  else if c.get (Reg.CAM_CTX_TRIG_MODE x) = 1 then c.scheduleTrigger x (k + 1)
  else c

/-- The traverse count now, forward upward (R141). -/
def Chip.travCount (c : Chip) : Int :=
  let n := c.getI (Reg.MOT_ENC_COUNT_COUNT (c.get Reg.CRN_TRAV_CFG_ENC))
  if c.flag Reg.CRN_TRAV_CFG_INVERT then -n else n

/-- START. -/
def Chip.trigStart (c : Chip) (x : Nat) : Chip :=
  if c.get (Reg.CAM_CTX_TRIG_MODE x) = 0 then c
  else
    let v := c.cam x
    let c := (c.endRun x).setCam x { seen := v.seen, windowEnd := v.windowEnd, least := c.travCount, greatest := c.est.ext }
    let c := c.put (Reg.CAM_CTX_STATUS_TRIG_RUN x) 1
    if c.get (Reg.CAM_CTX_TRIG_MODE x) = 1 then c.scheduleTrigger x 0 else c

/-- STOP: the run ends, and a window in progress is cut. -/
def Chip.trigStop (c : Chip) (x : Nat) : Chip :=
  (c.endRun x).closeExposure x

/-- A write of CAM.CTXx_TRIG: MODE 0 drives the GPIO no more, so that a run in progress ends and its window is cut (DESIGN CHOICE:
log entry 86). -/
def Chip.trigMode (c : Chip) (x v : Nat) : Chip :=
  let c := c.plainWrite (0xA100C + 0x400 * x) v
  if c.get (Reg.CAM_CTX_TRIG_MODE x) = 0 then c.trigStop x else c

/-- A write of CAM.CTXx_TRIG_CMD. -/
def Chip.trigCmd (c : Chip) (x v : Nat) : Chip :=
  let c := if bit v 0 then c.trigStart x else c
  if bit v 1 then c.trigStop x else c

/-- The points T0 + k × PERIOD, k from 0, that lie above one position and not above another. -/
def crossings (t0 period before after : Int) : List Nat :=
  if period ≤ 0 then []
  else
    let first := (floorDiv (before - t0) period + 1).toNat
    let stop := (floorDiv (after - t0) period + 1).toNat
    (List.range (stop - first)).map (first + ·)

/-- The points that an edge is the first of the run to reach, with the run's extreme positions after it: MODE 2 by ext of
R152, MODE 3 by the count. Points at or behind the position at START trigger nothing (DESIGN CHOICE: log entry 86). -/
def Chip.pointsReached (c : Chip) (x : Nat) (ext : Option Int) (count : Int) : CamCtx × List Nat :=
  let v := c.cam x
  let t0 := c.getI (Reg.CAM_CTX_TRIG_T0_LO_T0 x)
  let per : Int := c.get (Reg.CAM_CTX_TRIG_PERIOD_PERIOD x)
  let most := match v.greatest, ext with
    | some a, some b => some (max a b)
    | none, b => b
    | a, none => a
  let v' := { v with least := min v.least count, greatest := most }
  match c.get (Reg.CAM_CTX_TRIG_MODE x), v.greatest, ext with
  | 2, some a, some b => (v', crossings t0 per a b)
  | 3, _, _ => (v', crossings (-t0) per (-v.least) (-count))
  | _, _, _ => (v', [])

/-- The triggers of an edge of the traverse encoder, after which ext of R152 and the count are as given. -/
def Chip.edgeTriggers (c : Chip) (ext : Option Int) (count : Int) (t : ET) : Chip :=
  (List.range 8).foldl (fun c x =>
    if c.flag (Reg.CAM_CTX_STATUS_TRIG_RUN x) = false then c
    else
      let r := c.pointsReached x ext count
      c.setCam x { r.1 with posDue := r.1.posDue ++ r.2.map fun k => (k, t) }) c

/-- A trigger falls due: by ET its scheduled time is reached; by position its edge has come. -/
def Chip.triggerDue (c : Chip) (x : Nat) : Chip :=
  let v := c.cam x
  match c.sched.find? fun (a : Sched) => decide (a.kind = SchedKind.camTrigger x) with
  | some a =>
    let c := c.advanceToEt a.target
    ({ c with sched := c.sched.erase a }).fireTrigger x v.k a.target
  | none =>
    match v.posDue with
    | e :: rest => (c.setCam x { v with posDue := rest }).fireTrigger x e.1 e.2
    | [] => c

/-! ### Maps and compressed items -/

/-- A write of a map window (R300). Bits [11:0], which R298 reserves and the register table gives as part of a RW field, are
stored and read back as written (DESIGN CHOICE: log entry 86). -/
def Chip.mapWindow (c : Chip) (pipe i w : Nat) : Chip :=
  if c.flag (Reg.CAM_CTX_BIND_ENABLE (2 * pipe)) ∨ c.flag (Reg.CAM_CTX_BIND_ENABLE (2 * pipe + 1)) then
    c.raise 52 2 [(4, 0x250000 + 0x10000 * pipe + 4 * i)]
  else c.put (Reg.CAM_MAP_ENTRY pipe i) w

/-- A piece's block is held; the item, once its last piece is in (R137, R138). -/
def Chip.pieceDone (c : Chip) (e : Nat) : Chip × Option OutItem :=
  match c.endingJob e with
  | none => (c, none)
  | some x =>
    if x.job.kind = 1 then (c, none)
    else
      let j := x.job
      let c := c.engineIdle e
      match c.outItems.find? fun o => decide (o.number = j.item) with
      | none => (c, none)
      | some o =>
        let r := pieceBlock (if o.firn then 2 else 1) j.item j.slab j.payload
        let c := if r.2 then c.bump Reg.CHN_NO_GAIN_COUNT 1 else c
        let o' := o.addPiece j.slab r.1 r.2
        if o'.blocks.length = o'.pieces then
          ({ c with outItems := c.outItems.filter fun q => decide (q.number ≠ j.item) }, some o')
        else ({ c with outItems := c.outItems.map fun q => if q.number = j.item then o' else q }, none)

/-- A compressed inspection item becomes ready (R110, R137). -/
def Chip.inspDone (c : Chip) (o : OutItem) : Chip :=
  c.queueInsp { o.insp with
    iflags := o.insp.iflags + 2 + 4 * b2n o.noGain, body := joinPieces (o.blocks.map (·.2)) }

/-! ### The commands -/

/-- FS (R281). -/
def execFs (m : CamShort) (stamp : ET) (second : Option CamShort) (s : State) : Host.Outcome State Fault Refusal :=
  s.go (s.toChip.frameStart m stamp second)

/-- LONG_PACKET (R276, R285). -/
def execLongPacket (port : Fin 4) (vc : BitVec 4) (dt : BitVec 6) (crcOk : Bool) (payload : List Byte) (s : State) :
    Host.Outcome State Fault Refusal :=
  s.go (s.toChip.longPacket port.val vc.toNat dt.toNat crcOk payload)

/-- FE (R301). -/
def execFe (m : CamEnds) (stamp : ET) (s : State) : Host.Outcome State Fault Refusal := s.go (s.toChip.frameEnd m stamp)

/-- HEADER_ECC_ERROR (R283, R284). -/
def execHeaderEccError (port : Fin 4) (corrected : Bool) (s : State) : Host.Outcome State Fault Refusal :=
  let c := s.toChip
  s.go <|
    if c.portOn port.val = false then c
    else if corrected then (c.countAcross 14 port.val (Reg.CAM_PORT_ECC_CORR_COUNT port.val) 1).markPort port.val 0
    else ((c.countAcross 14 port.val (Reg.CAM_PORT_ECC_UNC_COUNT port.val) 1).markPort port.val 0).portFault port.val 4

/-- PHY_ERROR (R283, R308). -/
def execPhyError (port : Fin 4) (syncErr : Bool) (s : State) : Host.Outcome State Fault Refusal :=
  let c := s.toChip
  s.go (if c.portOn port.val then (c.markPort port.val 4).portFault port.val (1 + b2n syncErr) else c)

/-- DESKEW (R275, R308). -/
def execDeskew (port : Fin 4) (ok : Bool) (s : State) : Host.Outcome State Fault Refusal :=
  let c := s.toChip
  s.go <|
    if c.portOn port.val = false then c
    else
      let c := c.putB (Reg.CAM_PORT_STATUS_DESKEW_OK port.val) ok
      if ok then c else c.portFault port.val 3

/-- A write to a context's shadow set (R295); pos is the offset from +0x100. -/
def Chip.shadowWrite (c : Chip) (x pos v : Nat) : Chip :=
  if c.flag (Reg.CAM_CTX_STATUS_ARMED x) then c.raise 148 0 [(1, x), (4, 0xA1100 + 0x400 * x + pos)]
  else c.writeFields (0xA1100 + 0x400 * x + pos) false v

/-- MAP_LOAD (R299). -/
def execMapLoad (p : Port) (n : Fin 64) (buf : Option (List Byte)) (s : State) : Host.Outcome State Fault Refusal :=
  s.go (s.toChip.tableLoad p.num n.val 0x13 buf mapChecks)

/-- TRIGGER (R302). -/
def execTrigger (x : Fin 8) (s : State) : Host.Outcome State Fault Refusal := s.go (s.toChip.triggerDue x.val)

/-- EXPOSURE_END (R302). -/
def execExposureEnd (x : Fin 8) (s : State) : Host.Outcome State Fault Refusal :=
  let c := s.toChip
  s.go <|
    match (c.cam x.val).windowEnd with
    | some t => (c.advanceToEt t).closeExposure x.val
    | none => c

end Sys2Proof.Machine
end

