-- ==== Sys2Proof/Machine/Motion.lean ====
section
/-! DEFINITION. Machine/Motion.lean: encoders and capture units (R57 to R59, R329 to R332), motion commands (R336 to R341),
limits and homing (R358 to R361), the motion tick (R334) and DRV frames
(R349 to R353). -/

namespace Sys2Proof.Machine

/-! ### Encoders -/

/-- An encoder input beyond its registers. -/
def Chip.enc (c : Chip) (n : Nat) : EncX := SMap.get {} n c.encs

/-- An encoder input's own data replaced. -/
def Chip.setEnc (c : Chip) (n : Nat) (x : EncX) : Chip := { c with encs := SMap.set {} n x c.encs }

/-- The encoder that the cornice follows (R141). -/
def Chip.isTraverse (c : Chip) (n : Nat) : Bool := decide (c.get Reg.CRN_TRAV_CFG_ENC = n)

/-- What an edge adds to the count (R329): with the levels after it, and the mode's rule. -/
def countStep (mode : Nat) (line : EncLine) (a b : Bool) : Int :=
  match mode, line with
  | 1, .a => if a = b then -1 else 1
  | 1, .b => if a = b then 1 else -1
  | 2, .a => if a then (if b then -1 else 1) else 0
  | _, _ => 0

/-- The count as the cornice takes it: forward upward, unwrapped near ext (R14, R141). -/
def Chip.travAt (c : Chip) (n : Nat) : Int :=
  let v := BitVec.ofNat 32 (c.get (Reg.MOT_ENC_COUNT_COUNT n))
  let v := if c.flag Reg.CRN_TRAV_CFG_INVERT then -v else v
  match c.est.ext with
  | none => v.toInt
  | some x => x + wrapDiff v (BitVec.ofInt 32 x)

/-- The later of two moments in ET. -/
def laterOf (a b : ET) : ET := if later a b then a else b

/-- A stamp enters the encoder's queue, from which one entry is taken every 25 ns; the flag says that it was full (R58). The
queue's moments are told from the stamps, since the edges carry the time that passes between them. -/
def Chip.queueStamp (c : Chip) (n : Nat) (t : ET) : Chip × Bool :=
  let x := c.enc n
  let q := x.queue.filter fun u => later u t
  if 16 ≤ q.length then (c.setEnc n { x with queue := q }, true)
  else (c.setEnc n { x with queue := q ++ [laterOf t (q.getLast?.getD t) + 1638400] }, false)

/-- A stamp that finds the queue full is discarded: EV237, and the cornice is told of a gap of its encoder (R58). -/
def Chip.loseStamp (c : Chip) (n : Nat) : Chip :=
  let c := if c.isTraverse n then { c with est := { c.est with gaps := c.est.gaps + 1 } } else c
  c.raise 237 0 [(1, n), (4, c.get (Reg.MOT_ENC_COUNT_COUNT n))]

/-- The last stamp taken, shown in ETM.ENCn_TS. -/
def Chip.showStamp (c : Chip) (n : Nat) (t : Nat) : Chip :=
  c.put64 (Reg.ETM_ENC_TS_LO_TS_LO n) (Reg.ETM_ENC_TS_HI_TS_HI n) t

/-- A stamp delivered to the cornice and to the cameras' position triggers (R152, R302). -/
def Chip.deliverEdge (c : Chip) (n : Nat) (t : ET) : Chip :=
  if c.isTraverse n then
    let v := c.travAt n
    let c := c.travEdge v t
    c.edgeTriggers c.est.ext v t
  else c

/-- Ratio changes reached by an encoder's count, which take effect at the next motion tick (R334, R355). -/
def Chip.noteRatios (c : Chip) (n : Nat) : Chip :=
  let m := c.get (Reg.MOT_ENC_COUNT_COUNT n)
  (List.range 8).foldl (fun c a =>
    let x := c.axis a
    if c.axMode a = 4 ∧ x.enc = n then c.setAxis a { x with reached := x.reachedAt m } else c) c

/-- What an edge of an encoder may have to give back (R330). -/
def Chip.edgeMark (c : Chip) (n : Nat) (line : EncLine) (level : Bool) (t : ET) : LastEdge :=
  { line, level, stamp := t, before := c.get (Reg.MOT_ENC_COUNT_COUNT n), est := c.est
    shown := c.get64 (Reg.ETM_ENC_TS_LO_TS_LO n) (Reg.ETM_ENC_TS_HI_TS_HI n), queue := (c.enc n).queue
    zlatch := c.get (Reg.MOT_ENC_ZLATCH_COUNT n), zvalid := c.flag (Reg.MOT_ENC_STATUS_ZVALID n)
    gears := (List.range 8).map fun a => (a, (c.axis a).reached)
    cams := if c.isTraverse n then (List.range 8).map fun k => (k, (c.cam k).least, (c.cam k).greatest) else [] }

/-- An edge undone, and those after it, whose stamps are given: everything it changed is as before it, and position triggers that
it set off and that are still to be driven are off again. -/
def Chip.undoEdge (c : Chip) (n : Nat) (e : LastEdge) (stamps : List ET) : Chip :=
  let c := (c.put (Reg.MOT_ENC_COUNT_COUNT n) e.before).showStamp n e.shown
  let c := (c.put (Reg.MOT_ENC_ZLATCH_COUNT n) e.zlatch).putB (Reg.MOT_ENC_STATUS_ZVALID n) e.zvalid
  let c := e.gears.foldl (fun (c : Chip) g =>
    let x := c.axis g.1
    if x.enc = n then c.setAxis g.1 { x with reached := min x.reached g.2 } else c) c
  let c := e.cams.foldl (fun (c : Chip) g =>
    let v := c.cam g.1
    c.setCam g.1 { v with least := g.2.1, greatest := g.2.2, posDue := v.posDue.filter fun k => !stamps.contains k.2 }) c
  let c := c.setEnc n { c.enc n with queue := e.queue }
  if c.isTraverse n then { c with est := e.est }.showEst else c

/-- The level of one line of an encoder set. -/
def EncX.put (x : EncX) (line : EncLine) (level : Bool) : EncX :=
  match line with
  | .a => { x with a := level }
  | .b => { x with b := level }
  | .z => { x with z := level }

/-- The level of one line of an encoder. -/
def EncX.level (x : EncX) (line : EncLine) : Bool :=
  match line with
  | .a => x.a
  | .b => x.b
  | .z => x.z

/-- An edge of A or B counted, stamped and delivered (R57, R58, R329). -/
def Chip.countEdge (c : Chip) (n : Nat) (line : EncLine) (t : ET) : Chip :=
  let x := c.enc n
  let d := countStep (c.get (Reg.MOT_ENC_CFG_MODE n)) line x.a x.b
  if d = 0 then c
  else
    let d := if c.flag (Reg.MOT_ENC_CFG_INVERT n) then -d else d
    let c := c.putI (Reg.MOT_ENC_COUNT_COUNT n) ((c.get (Reg.MOT_ENC_COUNT_COUNT n) : Int) + d)
    let r := c.queueStamp n t
    let c := if r.2 then r.1.loseStamp n else (r.1.showStamp n t.toNat).deliverEdge n t
    c.noteRatios n

/-- A rising edge of Z copies the count (R331). -/
def Chip.latchZ (c : Chip) (n : Nat) : Chip :=
  if c.flag (Reg.MOT_ENC_CFG_Z_EN n) then
    (c.put (Reg.MOT_ENC_ZLATCH_COUNT n) (c.get (Reg.MOT_ENC_COUNT_COUNT n))).put (Reg.MOT_ENC_STATUS_ZVALID n) 1
  else c

/-- An edge of Z (R57, R331). Each edge of Z, rising or falling, is stamped as a counted edge whether or not Z_EN is set (DESIGN
CHOICE: log entry 85). -/
def Chip.zEdge (c : Chip) (n : Nat) (level : Bool) (t : ET) : Chip :=
  let c := if c.get (Reg.MOT_ENC_CFG_MODE n) = 0 then c
    else
      let r := c.queueStamp n t
      if r.2 then r.1.loseStamp n else r.1.showStamp n t.toNat
  if level then c.latchZ n else c

/-- Stamps carry 0.5 ns: bits [14:0] are 0 (R57). -/
def stampOf (t : ET) : ET := BitVec.ofNat 64 (t.toNat / 32768 * 32768)

/-- An edge that nothing has discarded: kept beside the edges of the last 17.5 ns, and acted on. -/
def Chip.takeEdge (c : Chip) (n : Nat) (line : EncLine) (level : Bool) (t : ET) : Chip :=
  let x := c.enc n
  let near := x.recent.filter fun e => decide (wrapDiff t e.stamp < 1146880)
  let c := c.setEnc n { x.put line level with recent := c.edgeMark n line level t :: near }
  match line with
  | .z => c.zEdge n level t
  | _ => c.countEdge n line t

/-- Later edges taken again, oldest first, after an earlier one has been discarded; one that an illegal transition has discarded
stays so. -/
def Chip.retake (c : Chip) (n : Nat) (later : List LastEdge) : Chip :=
  later.reverse.foldl (fun (c : Chip) e =>
    if e.dead then
      let m := { c.edgeMark n e.line e.level e.stamp with dead := true }
      let x := c.enc n
      c.setEnc n { x.put e.line e.level with recent := m :: x.recent }
    else c.takeEdge n e.line e.level e.stamp) c

/-- A recent edge discarded, given the edges after it and before it: the edges after it count as if it had not been. -/
def Chip.discardEdge (c : Chip) (n : Nat) (e : LastEdge) (later older : List LastEdge) : Chip :=
  if e.dead then c.setEnc n { c.enc n with recent := later ++ older }
  else
    let c := c.undoEdge n e (e.stamp :: later.map (·.stamp))
    (c.setEnc n { c.enc n with recent := older }).retake n later

/-- The newest recent edge that passes a test, with the edges after it and before it. -/
def EncX.find (x : EncX) (p : LastEdge → Bool) : Option (LastEdge × List LastEdge × List LastEdge) :=
  match x.recent.dropWhile fun e => !p e with
  | [] => none
  | e :: older => some (e, x.recent.takeWhile (fun e => !p e), older)

/-- An illegal transition counted and told (R330). -/
def Chip.tellIllegal (c : Chip) (n : Nat) : Chip :=
  let c := (c.bump (Reg.MOT_ENC_ILLEGAL_COUNT n) 1).put (Reg.MOT_ENC_STATUS_ILLEGAL n) 1
  let x := c.enc n
  if x.illegalFrom ≤ c.clk then (c.setEnc n { x with illegalFrom := c.clk + 1000000 }).raise (168 + n) 0 [] else c

/-- An illegal transition of a recent edge and this one: neither counts (R330). -/
def Chip.illegalEdge (c : Chip) (n : Nat) (line : EncLine) (level : Bool) (t : ET) (e : LastEdge) (later older : List LastEdge) :
    Chip :=
  let c := c.discardEdge n e later older
  let x := c.enc n
  let m := { c.edgeMark n line level t with dead := true }
  let k := later.length
  let back := x.recent.take k ++ { e with dead := true } :: x.recent.drop k
  (c.setEnc n { x.put line level with recent := m :: back }).tellIllegal n

/-- An edge that ends no short pulse: half of an illegal transition, or taken. -/
def Chip.newEdge (c : Chip) (n : Nat) (line : EncLine) (level : Bool) (t : ET) : Chip :=
  let other : Option EncLine := match line with
    | .a => some .b
    | .b => some .a
    | .z => none
  if c.get (Reg.MOT_ENC_CFG_MODE n) ≠ 1 then c.takeEdge n line level t
  else
    match (c.enc n).find (fun e => decide (some e.line = other) && decide (|wrapDiff t e.stamp| < 131072)) with
    | some (e, later, older) => c.illegalEdge n line level t e later older
    | none => c.takeEdge n line level t

/-- An edge of an encoder line (R57, R329 to R331): one that ends too short a pulse takes the pulse back; edges in P3 are not
counted (R465). -/
def Chip.encEdge (c : Chip) (n : Nat) (line : EncLine) (level : Bool) (stamp : ET) : Chip :=
  let t := stampOf stamp
  let x := c.enc n
  if c.pstate = 3 then c.setEnc n (x.put line level)
  else if x.level line = level then c
  else
    let short := 163840 * c.get (Reg.MOT_ENC_CFG_FILT n)
    match x.find (fun e => decide (e.line = line)) with
    | some (e, later, older) =>
      if wrapDiff t e.stamp < short then (c.setEnc n (x.put line level)).discardEdge n e later older
      else c.newEdge n line level t
    | none => c.newEdge n line level t

/-- A write of MOT.ENCn_COUNT (R332): it sets the count at the next motion tick. -/
def Chip.encCountWrite (c : Chip) (n v : Nat) : Chip :=
  if c.isTraverse n ∧ c.get Reg.CRN_STATUS_STATE ≠ 0 then c.raise (168 + n) 0 []
  else c.setEnc n { c.enc n with write := some v }

/-- A count written since the last motion tick is set (R332): the estimator of a traverse encoder starts again (R152). -/
def Chip.setCount (c : Chip) (n : Nat) : Chip :=
  let x := c.enc n
  match x.write with
  | none => c
  | some v =>
    let c := (c.put (Reg.MOT_ENC_COUNT_COUNT n) v).setEnc n { x with recent := [], write := none }
    let c := if c.isTraverse n then c.restartEst else c
    c.noteRatios n

/-- An edge on a capture unit's GPIO (R59). -/
def Chip.captureEdge (c : Chip) (n : Nat) (rising : Bool) (stamp : ET) : Chip :=
  let e := c.get (Reg.ETM_CAP_CTRL_EDGE n)
  if !(if rising then bit e 0 else bit e 1) ∨ c.pstate = 3 then c
  else
    let c := c.seeBall (c.get (Reg.ETM_CAP_CTRL_GPIO n)) rising
    let held := c.flag (Reg.ETM_CAP_CTRL_VALID n)
    let c := c.put64 (Reg.ETM_CAP_TS_LO_TS n) (Reg.ETM_CAP_TS_HI_TS n) (stampOf stamp).toNat
    let c := c.put (Reg.ETM_CAP_CTRL_VALID n) 1
    if held then (c.put (Reg.ETM_CAP_CTRL_OVR n) 1).raise 238 0 [(1, n)] else c

/-! ### Motion commands -/

/-- Fields of a motion command (R336). -/
structure MotCmd where
  axis : Nat
  at' : Bool
  neg : Bool
  a : Int
  b : Nat
  c : Nat
  d : Nat
  e : Int
  atEt : ET
  deriving DecidableEq, Repr

/-- A motion command read from its descriptor (R336). -/
def motCmd (d : List Byte) : MotCmd :=
  ⟨leField d 8 1, bit (leField d 9 1) 0, bit (leField d 9 1) 1, signed 32 (leField d 0xC 4), leField d 0x10 4,
   leField d 0x14 4, leField d 0x18 4, signed 32 (leField d 0x1C 4), BitVec.ofNat 64 (leField d 0x20 8)⟩

/-- AXIS in range and every reserved field 0 (R336, R337). -/
def motCmdOk (d : List Byte) : Bool :=
  decide (leField d 8 1 < 8) && decide (leField d 9 1 < 4) && decide (leField d 0xA 2 = 0) && decide (leField d 0x28 8 = 0)

/-- A motion in a direction would run towards a qualified limit (R359). -/
def Chip.limitAhead (c : Chip) (a : Nat) (dir : Int) : Bool :=
  (decide (0 < dir) && c.flag (Reg.MOT_AX_STATUS_LIMP a)) || (decide (dir < 0) && c.flag (Reg.MOT_AX_STATUS_LIMN a))

/-- The home input of an axis homing in a direction is qualified active (R358). -/
def Chip.homeActive (c : Chip) (a : Nat) (neg : Bool) : Bool :=
  if c.flag (Reg.MOT_AX_LIMCFG_HOME_SRC a) then (c.axis a).homeAct
  else if neg then c.flag (Reg.MOT_AX_STATUS_LIMN a) else c.flag (Reg.MOT_AX_STATUS_LIMP a)

/-- The modes R337 allows an opcode in. -/
def opModes (op : Nat) : List Nat :=
  match op with
  | 0x20 => [1]
  | 0x21 => [1]
  | 0x23 => [3]
  | 0x24 => [2]
  | 0x26 => [1, 3]
  | 0x27 => [4]
  | 0x28 => [1]
  | 0x2A => [0, 1, 2, 3]
  | _ => [0, 1, 2, 3, 4, 5]

/-- The opcodes R337 allows only at rest. -/
def opAtRest (op : Nat) : Bool := decide (op ∈ [0x20, 0x21, 0x26, 0x28, 0x29, 0x2A])

/-- A target given as a 32-bit position, near the commanded position (R14, R333). -/
def Axis.near (x : Axis) (v : Int) : Int :=
  let q := stepOf x.pos
  (q + wrapDiff (BitVec.ofInt 32 v) (BitVec.ofInt 32 q)) * stepUnit

/-- Where a queued move begins: the last queued target, or the commanded position (R345). -/
def Axis.queueEnd (x : Axis) : Int := (x.queue.getLast?.map (·.1)).getD x.pos

/-- The reason a motion command is refused with, if it is (R338, R340, R362). -/
def Chip.motRefusal (c : Chip) (op : Nat) (m : MotCmd) : Option Nat :=
  let a := m.axis
  let x := c.axis a
  if c.flag Reg.TDM_STATUS_OWNS = false then some 7
  else if c.get (Reg.MOT_AX_CFG_OUT a) = 0 then some 1
  else if c.inFault a ∧ op ≠ 0x25 ∧ op ≠ 0x22 then some 6
  else if c.axMode a ∉ opModes op then some 2
  else if opAtRest op ∧ c.atRest a = false then some 3
  else if op = 0x26 ∧ c.bound a then some 8
  else if op = 0x26 ∧ (m.b = 0 ∨ 3 < m.c ∨ c.get (Reg.MOT_ENC_CFG_MODE m.c) = 0) then some 10
  else if op = 0x27 ∧ m.b = 0 then some 10
  else if op = 0x29 ∧ 3 < m.c then some 10
  else if op = 0x24 ∧ 16 ≤ x.queue.length then some 4
  else if op = 0x27 ∧ 4 ≤ x.changes.length then some 9
  else if op = 0x20 ∧ c.limitAhead a (x.near m.a - x.pos) then some 5
  else if (op = 0x21 ∨ op = 0x23) ∧ c.limitAhead a m.a then some 5
  else if op = 0x24 ∧ c.limitAhead a (x.near m.a - x.queueEnd) then some 5
  else if op = 0x28 ∧ (c.limitAhead a (if m.neg then -1 else 1) ∨ c.homeActive a m.neg) then some 5
  else none

/-- MOVE_ABS and MOVE_REL begin a move (R342). -/
def Chip.beginMove (c : Chip) (a : Nat) (target : Int) (m : MotCmd) : Chip :=
  let x := c.axis a
  if target = x.pos then c.axisEvent a 1
  else c.setAxis a { x with target := some target, mv := m.b, ma := m.c, mj := m.d, planA := 0, planJ := 0, usedA := 0, usedJ := 0 }

/-- SET_LIMITS (R343): the registers written, and the move in progress bound by them. -/
def Chip.axisLimits (c : Chip) (a : Nat) (m : MotCmd) : Chip :=
  let x := c.axis a
  let c := if m.b = 0 then c else c.put (Reg.MOT_AX_VMAX_VALUE a) (min m.b 1024000000)
  let c := if m.c = 0 then c else c.put (Reg.MOT_AX_AMAX_VALUE a) m.c
  let c := if m.d = 0 then c else c.put (Reg.MOT_AX_JMAX_VALUE a) m.d
  c.setAxis a { x with mv := if m.b = 0 then x.mv else 0, ma := if m.c = 0 then x.ma else 0,
                       mj := if m.d = 0 then x.mj else 0 }

/-- STOP (R346). -/
def Chip.axisStop (c : Chip) (a : Nat) : Chip :=
  let homing := decide (c.axMode a = 5)
  let c := c.endMotion a 1
  if homing then c.put (Reg.MOT_AX_STATUS_HOMED a) 0 else c

/-- GEAR (R354). -/
def Chip.beginGear (c : Chip) (a : Nat) (m : MotCmd) : Chip :=
  let x := c.axis a
  let c := c.setAxis a { x with num := m.a, den := m.b, m0 := c.get (Reg.MOT_ENC_COUNT_COUNT m.c), p0 := x.pos,
                                enc := m.c, changes := [], reached := 0, prior := c.axMode a }
  c.put (Reg.MOT_AX_STATUS_MODE a) 4

/-- GEAR_CHANGE (R355). -/
def Chip.addRatio (c : Chip) (a : Nat) (m : MotCmd) : Chip :=
  let x := c.axis a
  let c := c.setAxis a { x with changes := x.changes ++ [⟨m.a, m.b, unsigned 32 m.e⟩] }
  c.takeRatios a ((c.axis a).reachedAt (c.get (Reg.MOT_ENC_COUNT_COUNT x.enc)))

/-- HOME (R360). -/
def Chip.beginHome (c : Chip) (a : Nat) (m : MotCmd) : Chip :=
  let x := c.axis a
  let c := c.setAxis a { x with
    stage := 1, hneg := m.neg, hofs := m.a * stepUnit, hpos := m.e * stepUnit
    hspeed := m.b, hstart := x.pos
    mv := 0, ma := 0, mj := 0, planA := 0, planJ := 0, usedA := 0, usedJ := 0 }
  c.put (Reg.MOT_AX_STATUS_MODE a) 5

/-- QUEUE_MOVE (R345): a move of zero length is dropped. -/
def Chip.addMove (c : Chip) (a : Nat) (m : MotCmd) : Chip :=
  let x := c.axis a
  if x.near m.a = x.queueEnd then c
  else
    c.setAxis a { x with queue := x.queue ++ [(x.near m.a, m.b)], mv := 0, ma := 0, mj := 0 }

/-- SET_POS (R337). -/
def Chip.setPosition (c : Chip) (a : Nat) (v : Int) : Chip :=
  c.setAxis a { c.axis a with pos := v * stepUnit, part := 0, out := v }

/-- What an accepted command does (R337). -/
def Chip.motApply (c : Chip) (op : Nat) (m : MotCmd) : Chip :=
  let a := m.axis
  let c := match op with
    | 0x20 => c.beginMove a ((c.axis a).near m.a) m
    | 0x21 => c.beginMove a ((c.axis a).pos + m.a * stepUnit) m
    | 0x22 => c.axisLimits a m
    | 0x23 => c.setAxis a { c.axis a with vset := m.a, mv := 0, ma := 0, mj := 0 }
    | 0x24 => c.addMove a m
    | 0x25 => c.axisStop a
    | 0x26 => c.beginGear a m
    | 0x27 => c.addRatio a m
    | 0x28 => c.beginHome a m
    | 0x29 => (c.setAxis a { c.axis a with vset := 0, queue := [], target := none }).put (Reg.MOT_AX_STATUS_MODE a) m.c
    | 0x2A => c.setPosition a m.a
    | _ => c
  c.showAxis a

/-- The commanded position as RESULT holds it (R337). -/
def Chip.resultPos (c : Chip) (a : Nat) : List Byte := leBytes 4 (unsigned 32 (stepOf (c.axis a).pos))

/-- A motion command acts and its descriptor completes (R337, R338). -/
def Chip.motAct (c : Chip) (p n : Nat) (d : List Byte) : Chip :=
  let op := leField d 0 1
  let m := motCmd d
  match c.motRefusal op m with
  | none =>
    let r := leBytes 4 0 ++ c.resultPos m.axis
    (c.motApply op m).completeCmd p n 0 d r
  | some 3 =>
    if op = 0x20 ∨ op = 0x21 then c.complete p n 3 d (leBytes 4 0 ++ c.resultPos m.axis)
    else c.complete p n 2 d (leBytes 4 3)
  | some r => c.complete p n 2 d (leBytes 4 r)

/-- A command with AT set is scheduled when it reaches the head of its ring, or refused (R52, R339). -/
def Chip.scheduleCmd (c : Chip) (p n : Nat) (d : List Byte) (t : ET) : Chip :=
  if (c.sched.any fun a => decide (a.kind = SchedKind.motionCmd p n)) || (c.ring p n).atDue.isSome then c
  else
    let r := c.schedule t (.motionCmd p n)
    if r.2 then r.1.complete p n 4 d [] else r.1

/-- A motion command of an opcode at the head of a ring (R336 to R339): accepted, it acts at the next motion tick, or at the one
its AT_ET gives (R334, R339). -/
def Chip.motRow (c : Chip) (p n op : Nat) : Chip :=
  match c.headOp p n op with
  | none => c
  | some d =>
    if !motCmdOk d then c.faultDesc p n 0x102
    else if (c.ring p n).acted then c
    else if (motCmd d).at' then c.scheduleCmd p n d (motCmd d).atEt
    else c.setRing p n { c.ring p n with atDue := some ((c.ring p n).atDue.getD c.nextDue) }

/-! ### Limits and homing -/

/-- One sample of an input with a qualified level: the new level, the run, and whether this sample qualifies an edge (R358). -/
def sample (qual : Nat) (level cur : Bool) (pos : Int) (s : Sampled) : Bool × Sampled × Bool :=
  if level = cur then (cur, {}, false)
  else
    let s : Sampled := ⟨s.run + 1, if s.run = 0 then pos else s.pos⟩
    if max 1 qual ≤ s.run then (level, { s with run := 0 }, true) else (cur, s, false)

/-- The axis homes with this limit as its home input, beyond the latch, or lies in the lockout: its edges do not count
(R360). -/
def Chip.deaf (c : Chip) (a : Nat) (gpio neg : Bool) : Bool :=
  let x := c.axis a
  let mine := if gpio then c.flag (Reg.MOT_AX_LIMCFG_HOME_SRC a)
    else !c.flag (Reg.MOT_AX_LIMCFG_HOME_SRC a) && (x.hneg == neg)
  mine && (decide (c.clk < x.lockout) || (decide (c.axMode a = 5) && decide (2 ≤ x.stage)))

/-- The reference latched and the lockout begun (R360). -/
def Chip.latchHome (c : Chip) (a : Nat) (pos : Int) : Chip :=
  let x := c.axis a
  let c := c.setAxis a { x with stage := 2, href := pos * stepUnit, homeIn := {},
                                lockout := c.clk + 1000000 * max 1 (c.get (Reg.MOT_AX_LOCKOUT_MS a)) }
  c.putI (Reg.MOT_AX_HOME_LATCH_POS a) pos

/-- A limit input sampled: STATUS shows its qualified level, and the flag an edge to active with its position. -/
def Chip.sampleLimit (c : Chip) (a : Nat) (neg level : Bool) : Chip × Option Int :=
  let x := c.axis a
  let f := if neg then Reg.MOT_AX_STATUS_LIMN a else Reg.MOT_AX_STATUS_LIMP a
  let en := c.flag (if neg then Reg.MOT_AX_LIMCFG_LIMN_EN a else Reg.MOT_AX_LIMCFG_LIMP_EN a)
  let pol := c.flag (if neg then Reg.MOT_AX_LIMCFG_LIMN_POL a else Reg.MOT_AX_LIMCFG_LIMP_POL a)
  let put := fun (c : Chip) (s : Sampled) => c.setAxis a (if neg then { x with limN := s } else { x with limP := s })
  if en = false then ((put c {}).put f 0, none)
  else if c.deaf a false neg then (put c {}, none)
  else
    let r := sample (c.get (Reg.MOT_AX_LIMCFG_QUAL a)) (level == pol) (c.flag f) x.out (if neg then x.limN else x.limP)
    ((put c r.2.1).putB f r.1, if r.2.2 ∧ r.1 then some r.2.1.pos else none)

/-- The GPIO home input sampled. -/
def Chip.sampleHome (c : Chip) (a : Nat) (gpio : BitVec 64) : Chip × Option Int :=
  let x := c.axis a
  if c.flag (Reg.MOT_AX_LIMCFG_HOME_SRC a) = false then (c, none)
  else if c.deaf a true false then (c.setAxis a { x with homeIn := {} }, none)
  else
    let level := gpio.getLsbD (c.get (Reg.MOT_AX_LIMCFG_HOME_GPIO a)) == c.flag (Reg.MOT_AX_LIMCFG_HOME_POL a)
    let r := sample (c.get (Reg.MOT_AX_LIMCFG_QUAL a)) level x.homeAct x.out x.homeIn
    (c.setAxis a { x with homeAct := r.1, homeIn := r.2.1 }, if r.2.2 ∧ r.1 then some r.2.1.pos else none)

/-- The axis is in FAULT with a cause. -/
def Chip.faultedBy (c : Chip) (a cause : Nat) : Bool := c.inFault a && decide (c.get (Reg.MOT_AX_STATUS_FAULT_CAUSE a) = cause)

/-- Orders 2 and 3 of R334 on one axis: limits (R359, R361), and the homing reference (R360). An axis that a fault already
decelerates at EDEC, or whose output it has disabled, keeps that fault's cause at a limit; one that decelerates at AMAX and JMAX
takes the limit's (DEDUCED: log entry 94). -/
def Chip.limitTick (c : Chip) (a : Nat) (limp limn : Bool) (gpio : BitVec 64) : Chip :=
  let rp := c.sampleLimit a false limp
  let rn := rp.1.sampleLimit a true limn
  let rh := rn.1.sampleHome a gpio
  let c := rh.1
  let x := c.axis a
  if c.axMode a = 5 then
    let opposite := if x.hneg then rp.2 else rn.2
    let ahead := if x.hneg then rn.2 else rp.2
    let bySw := c.flag (Reg.MOT_AX_LIMCFG_HOME_SRC a)
    if opposite.isSome then (c.axisFault a 2).put (Reg.MOT_AX_STATUS_HOMED a) 0
    else if bySw ∧ ahead.isSome then c.axisFault a 1
    else
      match (if bySw then rh.2 else ahead) with
      | some p => if x.stage = 1 then c.latchHome a p else c
      | none => c
  else if (c.inFault a = false ∨ c.faultedBy a 3) ∧ c.limitAhead a x.vel then c.axisFault a 1
  else c

/-! ### The motion tick -/

/-- Whether the command at a ring's head acts at this tick: its ET has come (R339). -/
def Chip.cmdDue (c : Chip) (p n : Nat) : Bool :=
  (c.ring p n).atDue.isSome || c.sched.any fun a =>
    decide (a.kind = SchedKind.motionCmd p n) && (a.stepped || !later a.target c.now)

/-- A ring put among others in the order in which their commands fell due. -/
def Chip.insertDue (c : Chip) (r : Nat × Nat) : List (Nat × Nat) → List (Nat × Nat)
  | [] => [r]
  | q :: l =>
    if (c.ring r.1 r.2).atDue.getD 0 < (c.ring q.1 q.2).atDue.getD 0 then r :: q :: l else q :: c.insertDue r l

/-- The rings whose commands act at a tick, in the order in which they fell due: commands without AT as they were accepted and
those whose target has run; then those whose target this tick reaches, in order of target, and for one target in the order in
which they were scheduled (R56, R74). -/
def Chip.dueRings (c : Chip) : List (Nat × Nat) :=
  let due := allRings.filter fun r => c.cmdDue r.1 r.2
  ((due.filter fun r => (c.ring r.1 r.2).atDue.isSome).foldl (fun l r => c.insertDue r l) []) ++
    (runOrder c.sched).filterMap fun a => match a.kind with
      | .motionCmd p n => if (p, n) ∈ due ∧ (c.ring p n).atDue = none then some (p, n) else none
      | _ => none

/-- The motion command at a ring's head acts. -/
def Chip.ringActs (c : Chip) (p n : Nat) : Chip :=
  if (c.ring p n).acted then c
  else
    let c := c.forgetCmd p n
    match (c.ring p n).fetched with
    | some d :: _ => if c.ringState p n = 1 then c.motAct p n d else c
    | _ => c

/-- Order 5 of R334: the commands accepted since the last tick, and those with AT whose time has come. -/
def Chip.tickCommands (c : Chip) : Chip := c.dueRings.foldl (fun (c : Chip) r => c.ringActs r.1 r.2) c

/-- Order 1 of R334: an ESTOP written since the last tick stops every axis (R346). -/
def Chip.estopAll (c : Chip) : Chip :=
  if c.estopDue = false then c
  else
    (List.range 8).foldl (fun c a =>
      let c := if c.axMode a = 5 then c.put (Reg.MOT_AX_STATUS_HOMED a) 0 else c
      c.axisFault a 7) { c with estopDue := false }

/-- ET of the next motion tick: the next whole microsecond, counted on over the wrap (R54, R334). -/
def Chip.nextTick (c : Chip) : ET := BitVec.ofInt 64 ((floorDiv c.longNs 1000 + 1) * 65536000)

/-- The orders of R334 at the present tick, with the limit inputs and GPIO levels sampled at it. Counts written are set before
order 1 (DESIGN CHOICE: log entry 47). -/
def Chip.runTick (c : Chip) (limp limn : BitVec 8) (gpio : BitVec 64) : Chip :=
  let c := { c with motionAt := some c.loopTick, limp := limp, limn := limn }.showCap
  let c := (c.put (Reg.IOX_GPIO_IN_BITS 0) (gpio.toNat % 2 ^ 32)).put (Reg.IOX_GPIO_IN_BITS 1) (gpio.toNat / 2 ^ 32)
  let c := ((List.range 4).foldl (fun c n => c.setCount n) c).estopAll
  let c := (List.range 8).foldl (fun c a => c.limitTick a (limp.getLsbD a) (limn.getLsbD a) gpio) c
  let c := ((List.range 8).foldl (fun c a => c.ratioTick a) c).tickCommands
  (List.range 8).foldl (fun c a => (((c.profileTick a).followPos a).loadTimer a).showAxis a) c

/-- One motion tick (R334). -/
def Chip.motionTick (c : Chip) (limp limn : BitVec 8) (gpio : BitVec 64) : Chip :=
  (c.advanceToEt c.nextTick).runTick limp limn gpio

/-- The motion tick of the present tick, if no command has brought it, with its inputs as they last stood: what follows in the
tick comes after its order 6 (R365; the inputs are a DESIGN CHOICE: log entry 95). -/
def Chip.afterTick (c : Chip) : Chip :=
  if c.motionAt = some c.loopTick then c
  else c.runTick c.limp c.limn
    (BitVec.ofNat 64 (c.get (Reg.IOX_GPIO_IN_BITS 0) + 2 ^ 32 * c.get (Reg.IOX_GPIO_IN_BITS 1)))

/-- The current scale goes from RUN to HOLD (R350). -/
def Chip.holdCurrent (c : Chip) (a : Nat) : Chip :=
  let x := c.axis a
  if c.atRest a ∧ x.hold = false then
    (c.advanceTo (x.restSince + 100000000)).setAxis a { x with hold := true }
  else c

/-! ### DRV frames -/

/-- Active microstep value: table 0 is TA, 1 is TB; entry i (R351). -/
def Axis.tableAt (x : Axis) (b : Bool) (i : Nat) : Nat :=
  match x.ustep with
  | some t => t.getD (i + 256 * b2n b) 0
  | none => if b then Reg.cosTable.getD (256 - i) 0 else Reg.cosTable.getD i 0

/-- IA and IB of R349 as (sign, value). -/
def Axis.phases (x : Axis) : (Int × Nat) × (Int × Nat) :=
  let e := (x.out % 1024).toNat
  let i := e % 256
  match e / 256 with
  | 0 => ((1, x.tableAt false i), (1, x.tableAt true i))
  | 1 => ((-1, x.tableAt true i), (1, x.tableAt false i))
  | 2 => ((-1, x.tableAt false i), (-1, x.tableAt true i))
  | _ => ((1, x.tableAt true i), (-1, x.tableAt false i))

/-- A 16-bit value most significant byte first (R352). -/
def beBytes2 (v : Nat) : List Byte := [BitVec.ofNat 8 (v / 256), BitVec.ofNat 8 v]

/-- A current as it is sent (R350). -/
def sentCurrent (t : Int × Nat) (scale : Nat) : List Byte := beBytes2 (unsigned 16 (t.1 * (t.2 * scale / 131072 : Nat)))

/-- The axes assigned to a line, in SLOT order (R352). -/
def Chip.lineAxes (c : Chip) (n : Nat) : List Nat :=
  (List.range 4).flatMap fun slot => (List.range 8).filter fun a =>
    decide (c.get (Reg.MOT_AX_CFG_OUT a) = 2 ∧ c.get (Reg.MOT_AX_CFG_LINE a) = n ∧ c.get (Reg.MOT_AX_CFG_SLOT a) = slot)

/-- An axis's record in a DO frame. -/
def Chip.drvRecord (c : Chip) (a : Nat) : List Byte :=
  let x := c.axis a
  let dead := decide (c.axMode a = 0) ||
    (c.inFault a && decide (c.get (Reg.MOT_AX_STATUS_FAULT_CAUSE a) = 5 ∨ c.get (Reg.MOT_AX_STATUS_FAULT_CAUSE a) = 6))
  let scale := if x.hold then c.get (Reg.MOT_AX_CUR_HOLD a) else c.get (Reg.MOT_AX_CUR_RUN a)
  let ph := x.phases
  [BitVec.ofNat 8 (c.get (Reg.MOT_AX_CFG_SLOT a) + 128 * b2n (!dead))] ++ sentCurrent ph.1 scale ++
    sentCurrent ph.2 scale ++ [0]

/-- A frame error counted; ERR_N in a row put the line's axes in FAULT (R353). -/
def Chip.drvError (c : Chip) (n : Nat) : Chip :=
  let run := c.get (Reg.MOT_DRV_STATUS_RUN n)
  let c := ((c.bump (Reg.MOT_DRV_ERR_COUNT n) 1).bump (Reg.MOT_DRV_STATUS_RUN n) 1).raiseIf (run = 0) 172 0 [(4, n)]
  if run + 1 < max 1 (c.get (Reg.MOT_DRV_CFG_ERR_N n)) then c
  else
    ((c.lineAxes n).filter fun a => !c.faultedBy a 5).foldl (fun c a => c.axisFault a 5)
      (c.put (Reg.MOT_DRV_STATUS_FAULTED n) 1)

/-- The STAT bytes of a good DI frame (R353). -/
def Chip.drvStat (c : Chip) (n : Nat) (di : List Byte) : Chip :=
  let axes := c.lineAxes n
  (List.range axes.length).foldl (fun c r =>
    let a := axes.getD r 0
    let st := leField di (2 + r) 1
    let c := if st % 8 ≠ 0 ∧ c.faultedBy a 6 = false then c.axisFault a 6 else c
    if bit st 3 then c.axisEvent a 6 else c) c

/-- Whether a DI frame is right (R353). -/
def drvGood (l : DrvLine) (di : List Byte) : Bool :=
  decide (di.length = 4 + l.nax) && decide (leField di 0 1 = 0x5A) && decide (leField di 1 1 = l.seq) &&
    decide (di.drop (2 + l.nax) = beBytes2 (crc16 (di.take (2 + l.nax))))

/-- The motion tick at which a line's next frame starts: the next one, or the first at or after FRAME_US from the last frame
(R352). -/
def Chip.frameAt (c : Chip) (n : Nat) : ET :=
  match (SMap.get {} n c.drv : DrvLine).due with
  | none => c.nextTick
  | some t => if later t c.now then t else if t = c.now then t else c.nextTick

/-- One DRV frame: sent at its tick, and its DI checked from the third frame on (R352, R353). -/
def Chip.drvFrame (c : Chip) (n : Nat) (di : List Byte) : Chip :=
  if c.flag (Reg.MOT_DRV_CFG_ENABLE n) = false ∨ c.flag Reg.MOT_STATUS_OUTPUT_EN = false then c
  else
    let start := c.frameAt n
    let next := start + BitVec.ofNat 64 (65536000 * c.get (Reg.MOT_DRV_CFG_FRAME_US n))
    let c := c.advanceToEt start
    let l : DrvLine := SMap.get {} n c.drv
    let axes := c.lineAxes n
    let seq := (l.seq + 1) % 256
    let body := [BitVec.ofNat 8 0xA5, BitVec.ofNat 8 seq, BitVec.ofNat 8 axes.length] ++ axes.flatMap c.drvRecord
    let c := (c.emit (.drv n (body ++ beBytes2 (crc16 body)))).put (Reg.MOT_DRV_STATUS_SEQ n) seq
    let c := { c with drv := SMap.set {} n (DrvLine.mk (min 2 l.frames + 1) axes.length seq (some next)) c.drv }
    if l.frames < 2 then c
    else if drvGood l di then (c.put (Reg.MOT_DRV_STATUS_RUN n) 0).drvStat n di
    else c.drvError n

/-- The shadow microstep table of an axis: TA then TB (R351). -/
def Chip.shadowTable (c : Chip) (a : Nat) : List Nat :=
  (List.range 256).flatMap fun w => [c.get (Reg.MOT_USTEP_LOW a w), c.get (Reg.MOT_USTEP_HIGH a w)]

/-- The first i at which a list of table values breaks a rule. -/
def firstBreak (ok : Nat → Nat → Bool) (l : List Nat) : Option Nat :=
  (List.range (l.length - 1)).find? fun i => !ok (l.getD i 0) (l.getD (i + 1) 0)

/-- USTEP_SWAP (R351). -/
def Chip.ustepSwap (c : Chip) (a : Nat) : Chip :=
  let t := c.shadowTable a
  match firstBreak (fun u v => decide (v ≤ u)) (t.take 256), firstBreak (fun u v => decide (u ≤ v)) (t.drop 256) with
  | some i, _ => c.raise 173 0 [(1, a), (1, 0), (1, i)]
  | none, some i => c.raise 173 0 [(1, a), (1, 1), (1, i)]
  | none, none => c.setAxis a { c.axis a with ustep := some t }

/-- CLEAR_FAULT (R362). -/
def Chip.clearFault (c : Chip) (a : Nat) : Chip :=
  if c.inFault a = false ∨ c.atRest a = false ∨
      (c.get (Reg.MOT_AX_STATUS_FAULT_CAUSE a) = 7 ∧ c.flag Reg.MOT_STATUS_ESTOP) then c
  else
    let c := (c.put (Reg.MOT_AX_STATUS_FAULT a) 0).put (Reg.MOT_AX_STATUS_FAULT_CAUSE a) 0
    (c.put (Reg.MOT_AX_STATUS_MODE a) 1).putBit Reg.MOT_STATUS_FAULT a false

/-- A write of MOT.AXa_CTRL. -/
def Chip.axisCtrl (c : Chip) (a v : Nat) : Chip :=
  let c := if bit v 0 then c.clearFault a else c
  if bit v 1 then c.ustepSwap a else c

/-- A write of MOT.CTRL: ESTOP, which stops the axes at the next motion tick (R334, R346), and ESTOP_CLR (R362). -/
def Chip.motCtrl (c : Chip) (v : Nat) : Chip :=
  let c := if bit v 1 then (c.put Reg.MOT_STATUS_ESTOP 0).raise 175 0 [] else c
  if bit v 0 then { c.put Reg.MOT_STATUS_ESTOP 1 with estopDue := true }.raise 175 0 [] else c

/-- A write of MOT.DRVn_CFG: a line not enabled starts again with its first frame (R353). -/
def Chip.drvCfg (c : Chip) (n v : Nat) : Chip :=
  let c := c.plainWrite (0xC0040 + 0x10 * n) v
  if c.flag (Reg.MOT_DRV_CFG_ENABLE n) then c
  else { c with drv := SMap.set {} n { (SMap.get {} n c.drv : DrvLine) with frames := 0, due := none } c.drv }

/-- The governor at arming (R357): a bound axis above CAP is slewed. -/
def Chip.governArm (c : Chip) : Chip :=
  let c := c.showCap
  match c.govCap with
  | none => c
  | some cap =>
    let a := c.get Reg.MOT_TRAV_BIND_AXIS
    if speedUnits (256 * cap) < |(c.axis a).vel| then (c.put (Reg.MOT_AX_STATUS_GOVERNED a) 1).raise 174 0 [] else c

/-! ### The commands -/

/-- ENCODER_EDGE (R57, R329). -/
def execEncoderEdge (n : Fin 4) (line : EncLine) (level : Bool) (stamp : ET) (s : State) :
    Host.Outcome State Fault Refusal := s.go (s.toChip.encEdge n.val line level stamp)

/-- CAPTURE_EDGE (R59). -/
def execCaptureEdge (n : Fin 4) (rising : Bool) (stamp : ET) (s : State) : Host.Outcome State Fault Refusal :=
  s.go (s.toChip.captureEdge n.val rising stamp)

/-- MOVE_ABS (R342). -/
def execMoveAbs (p : Port) (n : Fin 64) (s : State) : Host.Outcome State Fault Refusal :=
  s.go (s.toChip.motRow p.num n.val 0x20)

/-- MOVE_REL (R342). -/
def execMoveRel (p : Port) (n : Fin 64) (s : State) : Host.Outcome State Fault Refusal :=
  s.go (s.toChip.motRow p.num n.val 0x21)

/-- SET_LIMITS (R343). -/
def execSetLimits (p : Port) (n : Fin 64) (s : State) : Host.Outcome State Fault Refusal :=
  s.go (s.toChip.motRow p.num n.val 0x22)

/-- VELOCITY (R344). -/
def execVelocity (p : Port) (n : Fin 64) (s : State) : Host.Outcome State Fault Refusal :=
  s.go (s.toChip.motRow p.num n.val 0x23)

/-- QUEUE_MOVE (R345). -/
def execQueueMove (p : Port) (n : Fin 64) (s : State) : Host.Outcome State Fault Refusal :=
  s.go (s.toChip.motRow p.num n.val 0x24)

/-- STOP (R346). -/
def execStop (p : Port) (n : Fin 64) (s : State) : Host.Outcome State Fault Refusal :=
  s.go (s.toChip.motRow p.num n.val 0x25)

/-- GEAR (R354). -/
def execGear (p : Port) (n : Fin 64) (s : State) : Host.Outcome State Fault Refusal :=
  s.go (s.toChip.motRow p.num n.val 0x26)

/-- GEAR_CHANGE (R355). -/
def execGearChange (p : Port) (n : Fin 64) (s : State) : Host.Outcome State Fault Refusal :=
  s.go (s.toChip.motRow p.num n.val 0x27)

/-- HOME (R360). -/
def execHome (p : Port) (n : Fin 64) (s : State) : Host.Outcome State Fault Refusal :=
  s.go (s.toChip.motRow p.num n.val 0x28)

/-- SET_MODE (R341). -/
def execSetMode (p : Port) (n : Fin 64) (s : State) : Host.Outcome State Fault Refusal :=
  s.go (s.toChip.motRow p.num n.val 0x29)

/-- SET_POS (R337). -/
def execSetPos (p : Port) (n : Fin 64) (s : State) : Host.Outcome State Fault Refusal :=
  s.go (s.toChip.motRow p.num n.val 0x2A)

/-- MOTION_TICK (R334). -/
def execMotionTick (limp limn : BitVec 8) (gpio : BitVec 64) (s : State) : Host.Outcome State Fault Refusal :=
  s.goIn 2 fun c => c.motionTick limp limn gpio

/-- STEP_PULSE (R347, R348). -/
def execStepPulse (a : Fin 8) (s : State) : Host.Outcome State Fault Refusal := s.goIn 2 fun c => c.stepPulse a.val

/-- HOLD_CURRENT (R350). -/
def execHoldCurrent (a : Fin 8) (s : State) : Host.Outcome State Fault Refusal :=
  s.goIn 2 fun c => c.holdCurrent a.val

/-- DRV_FRAME (R352, R353). -/
def execDrvFrame (n : Fin 4) (di : List Byte) (s : State) : Host.Outcome State Fault Refusal :=
  s.goIn 2 fun c => c.drvFrame n.val di

end Sys2Proof.Machine
end

