-- ==== Sys2Proof/Machine/Loop.lean ====
section
/-! DEFINITION. Machine/Loop.lean: the loop engine (R364 to R378), analog inputs (R379 to R381), PWM (R382, R383),
general-purpose I/O (R384), and the actions scheduled in ET (R52). -/

namespace Sys2Proof.Machine

/-- R364: a slot is configured. -/
def Chip.slotConfigured (c : Chip) (s : Nat) : Bool := decide (c.get (Reg.LOP_LS_SCHED_DIV s) ≠ 0)

/-- A slot is enabled. -/
def Chip.slotOn (c : Chip) (s : Nat) : Bool := c.flag (Reg.LOP_LS_STATUS_ENABLED s)

/-- A slot is a member of a group (R373). -/
def Chip.grouped (c : Chip) (s : Nat) : Bool := c.flag (Reg.LOP_LS_GRP_GRP_EN s)

/-- Configured members of a group, in slot order (R373). -/
def Chip.members (c : Chip) (g : Nat) : List Nat :=
  (List.range 64).filter fun s => c.slotConfigured s && c.grouped s && decide (c.get (Reg.LOP_LS_GRP_GROUP s) = g)

/-- LOP.STATUS follows the slots. -/
def Chip.showLoop (c : Chip) : Chip :=
  (c.putB Reg.LOP_STATUS_RUNNING c.loopRuns).put Reg.LOP_STATUS_ENABLED ((List.range 64).filter c.slotOn).length

/-! ### Sources (R367) -/

/-- A field of the head's last FULL TLM: its value, none where it is absent or older than 4 × LINK.TLM_PERIOD, which stands at its
reset value of 50 µs, since the controller never writes it. -/
def Chip.tlmSource (c : Chip) (h item : Nat) : Option Int :=
  let x := c.head h
  if c.get (Reg.HED_HEAD_STATUS_STATE h) ≠ 5 ∨ x.fullAt + 200000 < c.clk then none
  else
    match x.full with
    | none => none
    | some u =>
      let raw : Option Int :=
        if item < 8 then (u.temps[item]?).map fun t => if t = 0x8000 then 32768 else t.toInt
        else if item = 8 then some (u.vdrive.toNat : Int)
        else if item = 9 then some (u.vlogic.toNat : Int)
        else none
      if raw = some 32768 then none else raw

/-- Whether a slot's measurement is valid, through k slots that take their measurement from one another; of slots that do so in a
ring, where the spec states no answer, as at the last evaluation (DESIGN CHOICE: log entry 95). -/
def Chip.measures (c : Chip) (s : Nat) : Nat → Bool
  | 0 => !c.flag (Reg.LOP_LS_STATUS_SRC_INVALID s)
  | k + 1 =>
    let sel := c.get (Reg.LOP_LS_SRC_MEAS_SEL s)
    match c.get (Reg.LOP_LS_SRC_MEAS_KIND s) with
    | 0 => c.flag (Reg.IOX_AIN_RES_VALID sel)
    | 1 => (c.tlmSource sel (c.get (Reg.LOP_LS_SRC_MEAS_ITEM s))).isSome
    | 4 => c.slotOn sel && c.measures sel k
    | _ => true

/-- The value of a source, none while it is invalid. -/
def Chip.source (c : Chip) (kind sel item : Nat) : Option Int :=
  match kind with
  | 0 => if c.flag (Reg.IOX_AIN_RES_VALID sel) then some (c.get (Reg.IOX_AIN_RES_CODE sel) : Int) else none
  | 1 => c.tlmSource sel item
  | 2 => some (c.getI (Reg.LOP_VAR_VALUE sel))
  | 3 => some (sat32 (Int.tdiv (c.axis sel).acc 1000000))
  | 4 => if c.slotOn sel && c.measures sel 64 then some (c.getI (Reg.LOP_LS_OUT_VALUE sel)) else none
  | 7 => some 0
  | _ => none

/-! ### One evaluation (R370) -/

/-- What one run of the control law gives (R370): output, integrator, p + d + f, e, and whether u was clamped. -/
structure LawOut where
  v : Int
  i : Int
  e : Int
  clamped : Bool
  deriving DecidableEq, Repr

/-- The control law of R370 on a valid measurement, with the setpoint already stepped. -/
def Chip.law (c : Chip) (s : Nat) (last sp y ff : Int) : LawOut :=
  let x := c.slot s
  let lo := c.getI (Reg.LOP_LS_OUTMIN_VALUE s)
  let hi := c.getI (Reg.LOP_LS_OUTMAX_VALUE s)
  let e := sat32 (sp - y)
  let p := sat32 ((c.getI (Reg.LOP_LS_KP_VALUE s) * e) >>> c.get (Reg.LOP_LS_SHIFT_SP s))
  let i := clampI (c.getI (Reg.LOP_LS_INTEG_VALUE s) +
    (c.getI (Reg.LOP_LS_KI_VALUE s) * e) >>> c.get (Reg.LOP_LS_SHIFT_SI s)) lo hi
  let d := sat32 ((c.getI (Reg.LOP_LS_KD_VALUE s) * (x.yPrev.getD y - y)) >>> c.get (Reg.LOP_LS_SHIFT_SD s))
  let f := sat32 ((c.getI (Reg.LOP_LS_KF_VALUE s) * ff) >>> c.get (Reg.LOP_LS_SHIFT_SF s))
  let man := c.flag (Reg.LOP_LS_STATUS_MANUAL s)
  let u := if man then x.man else sat32 (p + i + d + f)
  let u := if c.flag (Reg.LOP_LS_GRP_VFF_EN s) then sat32 ((u * c.get Reg.LOP_VFF_G_G) >>> 14) else u
  let w := clampI u lo hi
  let slew : Int := c.getI (Reg.LOP_LS_SLEW_VALUE s)
  let v := if slew = 0 then w else clampI w (last - slew) (last + slew)
  ⟨v, if man then clampI (v - p - d - f) lo hi else i, e, decide (w ≠ u)⟩

/-- The setpoint one evaluation on (R370). -/
def Chip.stepSp (c : Chip) (s : Nat) : Int :=
  let sp := c.getI (Reg.LOP_LS_SP_VALUE s)
  let tgt := c.getI (Reg.LOP_LS_SP_TGT_VALUE s)
  let ramp := c.getI (Reg.LOP_LS_RAMP_VALUE s)
  if ramp = 0 then tgt else clampI tgt (sp - ramp) (sp + ramp)

/-- An evaluation's e judged for the slot's alarm (R370): beyond the limit, the time to the alarm runs on or begins; within it, the
alarm is cleared. The alarm is set as time passes (Chip.passTo). -/
def Chip.slotAlarm (c : Chip) (s : Nat) (e : Int) : Chip :=
  let ms := c.get (Reg.LOP_LS_ALARM_MS_MS s)
  let x := c.slot s
  let beyond := decide ((c.get (Reg.LOP_LS_ALARM_ERR_ERR s) : Int) < |e|)
  if beyond ∧ ms ≠ 0 then c.setSlot s { x with alarmSince := some (x.alarmSince.getD c.loopTick), lastE := e }
  else
    let c := c.setSlot s { x with alarmSince := none }
    if c.flag (Reg.LOP_LS_STATUS_ALARM s) then c.tellAlarm s false e else c

/-- One evaluation of a slot given the value last written: its v. -/
def Chip.evalSlot (c : Chip) (s : Nat) (last : Int) : Chip × Int :=
  let kind := c.get (Reg.LOP_LS_SRC_MEAS_KIND s)
  let c := c.bump (Reg.LOP_LS_EVALS_COUNT s) 1
  let bad := c.flag (Reg.LOP_LS_STATUS_SRC_INVALID s)
  match c.source kind (c.get (Reg.LOP_LS_SRC_MEAS_SEL s)) (c.get (Reg.LOP_LS_SRC_MEAS_ITEM s)) with
  | none =>
    let v := c.getI (Reg.LOP_LS_SAFE_VALUE s)
    let c := (c.put (Reg.LOP_LS_STATUS_SRC_INVALID s) 1).raiseIf (!bad) 176 0 [(1, s), (1, kind)]
    (c.putI (Reg.LOP_LS_OUT_VALUE s) v, v)
  | some y =>
    let c := (c.put (Reg.LOP_LS_STATUS_SRC_INVALID s) 0).raiseIf bad 177 0 [(1, s)]
    let sp := c.stepSp s
    let ff := (c.source (c.get (Reg.LOP_LS_SRC_FF_KIND s)) (c.get (Reg.LOP_LS_SRC_FF_SEL s))
      (c.get (Reg.LOP_LS_SRC_FF_ITEM s))).getD 0
    let r := c.law s last sp y ff
    let c := ((c.putI (Reg.LOP_LS_SP_VALUE s) sp).putI (Reg.LOP_LS_MEAS_VALUE s) y).putI (Reg.LOP_LS_INTEG_VALUE s) r.i
    let c := (c.putB (Reg.LOP_LS_STATUS_AT_CLAMP s) r.clamped).putI (Reg.LOP_LS_OUT_VALUE s) r.v
    let c := c.setSlot s { c.slot s with yPrev := some y }
    (c.slotAlarm s r.e, r.v)

/-! ### Destinations (R372) -/

/-- A value written to a slot's destination. -/
def Chip.writeDest (c : Chip) (s : Nat) (w : Int) : Chip :=
  let sel := c.get (Reg.LOP_LS_DEST_SEL s)
  match c.get (Reg.LOP_LS_DEST_KIND s) with
  | 1 =>
    let d := c.get (Reg.IOX_PWM_CFG_PERIOD sel) * (clampI w 0 65536).toNat / 65536
    { c with pwmDuty := SMap.set 0 sel d c.pwmDuty }
  | 2 =>
    let g0 := c.get (Reg.LOP_LS_DEST_G0 s)
    (List.range (c.get (Reg.LOP_LS_DEST_G1 s) + 1 - g0)).foldl (fun c k => c.setTrim sel (g0 + k) (clampI w (-512) 511)) c
  | 3 => c.putI (Reg.LOP_VAR_VALUE sel) w
  | _ => c

/-- A value written to the destination of a slot outside a group. -/
def Chip.slotWrite (c : Chip) (s : Nat) (w : Int) : Chip := (c.writeDest s w).setSlot s { c.slot s with last := w }

/-- R373: the winner of a group, given each enabled member's v. -/
def winnerOf : List (Nat × Int) → Option (Nat × Int)
  | [] => none
  | a :: l =>
    match winnerOf l with
    | none => some a
    | some b => if b.2 < a.2 then some b else some a

/-- A loser's integrator back-calculated (R373). -/
def Chip.backCalc (c : Chip) (s : Nat) (w v : Int) : Chip :=
  if c.flag (Reg.LOP_LS_STATUS_MANUAL s) ∨ c.flag (Reg.LOP_LS_STATUS_SRC_INVALID s) then c
  else
    c.putI (Reg.LOP_LS_INTEG_VALUE s) (clampI (c.getI (Reg.LOP_LS_INTEG_VALUE s) +
      ((w - v) * c.getI (Reg.LOP_LS_KT_VALUE s)) >>> c.get (Reg.LOP_LS_SHIFT_ST s))
      (c.getI (Reg.LOP_LS_OUTMIN_VALUE s)) (c.getI (Reg.LOP_LS_OUTMAX_VALUE s)))

/-- The event of a change of winner, at most once in any 1 ms (R373). -/
def Chip.tellWinner (c : Chip) (g s : Nat) : Chip :=
  let x : Group := SMap.get {} g c.groups
  let changed := match x.winner with
    | some o => decide (o ≠ s)
    | none => false
  let tell := changed && decide (x.tellFrom ≤ c.clk)
  let y : Group := { winner := some s, tellFrom := if tell then c.clk + 1000000 else x.tellFrom }
  { c with groups := SMap.set {} g y c.groups }.raiseIf tell 179 0 [(1, g), (1, s)]

/-- A group evaluated as one unit (R373). -/
def Chip.evalGroup (c : Chip) (g : Nat) (ms : List Nat) : Chip :=
  let r := ms.foldl (fun (q : Chip × List (Nat × Int)) s =>
    let e := q.1.evalSlot s (q.1.slot s).last
    (e.1, q.2 ++ [(s, e.2)])) (c, [])
  match winnerOf r.2 with
  | none => r.1
  | some w =>
    let c := r.1.writeDest w.1 w.2
    let c := r.2.foldl (fun (c : Chip) m =>
      let c := c.putB (Reg.LOP_LS_STATUS_WINNING m.1) (decide (m.1 = w.1))
      if m.1 = w.1 then c else c.backCalc m.1 w.2 m.2) c
    let c := (c.members g).foldl (fun (c : Chip) m => c.setSlot m { c.slot m with last := w.2 }) c
    c.tellWinner g w.1

/-! ### Commands (R375 to R377) -/

/-- Every reserved field of a loop engine command 0, and SLOT in range (R375). -/
def loopCmdOk (d : List Byte) : Bool :=
  decide (leField d 8 1 < 64) && decide (leField d 9 1 < 2) && decide (leField d 0xA 2 = 0) && decide (leField d 0x24 4 = 0)

/-- V0 to V5 of a command. -/
def loopV (d : List Byte) (k : Nat) : Int := signed 32 (leField d (0xC + 4 * k) 4)

/-- The reason a loop engine command is refused with, if it is (R377). -/
def Chip.loopRefusal (c : Chip) (d : List Byte) : Option Nat :=
  let op := leField d 0 1
  let s := leField d 8 1
  if c.flag Reg.TDM_STATUS_OWNS = false then some 2
  else if c.slotConfigured s = false then some 1
  else if (op = 0x45 ∨ op = 0x46) ∧ c.grouped s then some 3
  else if op = 0x44 ∧ (loopV d 1 < loopV d 0 ∨ loopV d 2 < 0) then some 4
  else if op = 0x42 ∧ loopV d 1 < 0 then some 4
  else if op = 0x43 ∧ 2 ^ 25 ≤ leField d 0x20 4 then some 4
  else none

/-- The integrator set within OUTMIN and OUTMAX. -/
def Chip.setInteg (c : Chip) (s : Nat) (v : Int) : Chip :=
  c.putI (Reg.LOP_LS_INTEG_VALUE s) (clampI v (c.getI (Reg.LOP_LS_OUTMIN_VALUE s)) (c.getI (Reg.LOP_LS_OUTMAX_VALUE s)))

/-- A group with no member enabled: its destination receives the SAFE value of the lowest-numbered member (R373). -/
def Chip.groupSafe (c : Chip) (ms : List Nat) : Chip :=
  match ms.head?, ms.any c.slotOn with
  | some m, false =>
    let w := c.getI (Reg.LOP_LS_SAFE_VALUE m)
    ms.foldl (fun (c : Chip) k => c.setSlot k { c.slot k with last := w }) (c.writeDest m w)
  | _, _ => c

/-- DISABLE: the destination receives SAFE (R373, R376). -/
def Chip.disableSlot (c : Chip) (s : Nat) : Chip :=
  let c := ((c.put (Reg.LOP_LS_STATUS_ENABLED s) 0).put (Reg.LOP_LS_STATUS_WINNING s) 0).showLoop
  if c.grouped s then c.groupSafe (c.members (c.get (Reg.LOP_LS_GRP_GROUP s)))
  else c.slotWrite s (c.getI (Reg.LOP_LS_SAFE_VALUE s))

/-- What a loop engine command does (R376). -/
def Chip.loopApply (c : Chip) (d : List Byte) : Chip :=
  let s := leField d 8 1
  match leField d 0 1 with
  | 0x40 =>
    if c.slotOn s then c
    else
      let c := (c.setInteg s (loopV d 0)).put (Reg.LOP_LS_STATUS_ENABLED s) 1
      (c.setSlot s { c.slot s with yPrev := none, alarmSince := none }).showLoop
  | 0x41 => c.disableSlot s
  | 0x42 => (c.putI (Reg.LOP_LS_SP_TGT_VALUE s) (loopV d 0)).putI (Reg.LOP_LS_RAMP_VALUE s) (loopV d 1)
  | 0x43 =>
    let c := (c.putI (Reg.LOP_LS_KP_VALUE s) (loopV d 0)).putI (Reg.LOP_LS_KI_VALUE s) (loopV d 1)
    let c := (c.putI (Reg.LOP_LS_KD_VALUE s) (loopV d 2)).putI (Reg.LOP_LS_KF_VALUE s) (loopV d 3)
    let c := c.putI (Reg.LOP_LS_KT_VALUE s) (loopV d 4)
    let w := leField d 0x20 4
    let c := (c.put (Reg.LOP_LS_SHIFT_SP s) (bits w 0 5)).put (Reg.LOP_LS_SHIFT_SI s) (bits w 5 5)
    let c := (c.put (Reg.LOP_LS_SHIFT_SD s) (bits w 10 5)).put (Reg.LOP_LS_SHIFT_SF s) (bits w 15 5)
    c.put (Reg.LOP_LS_SHIFT_ST s) (bits w 20 5)
  | 0x44 =>
    let c := (c.putI (Reg.LOP_LS_OUTMIN_VALUE s) (loopV d 0)).putI (Reg.LOP_LS_OUTMAX_VALUE s) (loopV d 1)
    (c.putI (Reg.LOP_LS_SLEW_VALUE s) (loopV d 2)).putI (Reg.LOP_LS_SAFE_VALUE s) (loopV d 3)
  | 0x45 => (c.put (Reg.LOP_LS_STATUS_MANUAL s) 1).setSlot s { c.slot s with man := loopV d 0 }
  | 0x46 => c.put (Reg.LOP_LS_STATUS_MANUAL s) 0
  | 0x47 => c.setInteg s (loopV d 0)
  | _ => c

/-- RESULT of a loop engine command: the reason it is refused with, or 0, and the slot's last v (R376, R377). -/
def Chip.loopResult (c : Chip) (reason : Nat) (d : List Byte) : List Byte :=
  leBytes 4 reason ++ leBytes 4 (c.get (Reg.LOP_LS_OUT_VALUE (leField d 8 1)))

/-- A loop engine command takes effect and completes (R376, R377). -/
def Chip.loopAct (c : Chip) (p n : Nat) (d : List Byte) : Chip :=
  match c.loopRefusal d with
  | some r => c.complete p n 2 d (c.loopResult r d)
  | none =>
    let c := c.loopApply d
    c.completeCmd p n 0 d (c.loopResult 0 d)

/-- A command whose time has come: at once for a disabled slot, else at the slot's next evaluation (R376). -/
def Chip.loopAccept (c : Chip) (p n : Nat) (d : List Byte) : Chip :=
  if (c.loopRefusal d).isSome ∨ c.slotOn (leField d 8 1) = false then c.loopAct p n d
  else
    { c.setRing p n { c.ring p n with acted := true } with
      loopCmds := (c.loopCmds.filter fun k => decide (k ≠ (p, n))) ++ [(p, n)] }

/-- A loop engine command of an opcode at the head of a ring. -/
def Chip.loopRow (c : Chip) (p n op : Nat) : Chip :=
  match c.headOp p n op with
  | none => c
  | some d =>
    if !loopCmdOk d then c.faultDesc p n 0x102
    else if (c.ring p n).acted then c
    else if bit (leField d 9 1) 0 then
      if c.sched.any fun a => decide (a.kind = SchedKind.loopCmd p n) then c
      else
        let r := c.schedule (BitVec.ofNat 64 (leField d 0x28 8)) (.loopCmd p n)
        if r.2 then r.1.complete p n 4 d [] else r.1
    else c.loopAccept p n d

/-- The descriptor at a ring's head, if it is a loop engine command. -/
def Chip.loopHead (c : Chip) (p n : Nat) : Option (List Byte) :=
  if c.ringState p n = 1 then
    match (c.ring p n).fetched with
    | some d :: _ => if 0x40 ≤ leField d 0 1 ∧ leField d 0 1 ≤ 0x47 then some d else none
    | _ => none
  else none

/-- A scheduled loop engine command whose ET has come (R377). -/
def Chip.loopDue (c : Chip) (p n : Nat) : Chip :=
  let c := c.forgetCmd p n
  match c.loopHead p n with
  | some d => c.loopAccept p n d
  | none => c

/-- The accepted commands of a slot take effect, in the order accepted (R376). -/
def Chip.takeCmds (c : Chip) (s : Nat) : Chip :=
  c.loopCmds.foldl (fun (c : Chip) k =>
    match c.loopHead k.1 k.2 with
    | some d =>
      if (c.ring k.1 k.2).acted = false then { c with loopCmds := c.loopCmds.erase k }
      else if leField d 8 1 = s then ({ c with loopCmds := c.loopCmds.erase k }).loopAct k.1 k.2 d
      else c
    | none => { c with loopCmds := c.loopCmds.erase k }) c

/-- Commands waiting when ownership ends complete REFUSED (R378). -/
def Chip.refuseWaiting (c : Chip) : Chip :=
  c.loopCmds.foldl (fun (c : Chip) k =>
    let c := { c with loopCmds := c.loopCmds.erase k }
    match c.loopHead k.1 k.2 with
    | some d => if (c.ring k.1 k.2).acted then c.complete k.1 k.2 2 d (c.loopResult 2 d) else c
    | none => c) c

/-- Scheduled loop engine commands whose ET has come by this tick, in the order in which they run (R56, R74). -/
def Chip.dueCmds (c : Chip) : Chip :=
  (runOrder (c.sched.filter fun a => a.stepped || !later a.target c.now)).foldl (fun (c : Chip) a =>
    match a.kind with
    | .loopCmd p n => c.loopDue p n
    | _ => c) c

/-! ### The schedule (R365) -/

/-- The loop tick at which an enabled slot is next due: this one if it has not been evaluated at it (R365). -/
def Chip.dueTick (c : Chip) (s : Nat) : Nat :=
  let t := c.loopTick
  let div := max 1 (c.get (Reg.LOP_LS_SCHED_DIV s))
  let phase := c.get (Reg.LOP_LS_SCHED_PHASE s)
  if t % div = phase ∧ (c.slot s).evalAt ≠ some t then t else t + 1 + (div + phase - (t + 1) % div) % div

/-- The slot that the engine serves next: the one due earliest, and of those the lowest (R365). -/
def Chip.nextSlot (c : Chip) : Option Nat :=
  ((List.range 64).foldl (fun (b : Option (Nat × Nat)) s =>
    if c.slotConfigured s && c.slotOn s then
      let t := c.dueTick s
      match b with
      | some q => if t < q.1 then some (t, s) else b
      | none => some (t, s)
    else b) none).map (·.2)

/-- The slots evaluated as one unit with a slot: the members of its group, or itself alone (R365, R373). -/
def Chip.unitOf (c : Chip) (s : Nat) : List Nat :=
  if c.grouped s then c.members (c.get (Reg.LOP_LS_GRP_GROUP s)) else [s]

/-- Time advanced to the tick at which a slot is due, after order 6 of its motion tick (R365). -/
def Chip.toDue (c : Chip) (s : Nat) : Chip :=
  let t := c.dueTick s
  (if t = c.loopTick then c else c.advanceToEt (c.tickEt t)).afterTick

/-- A due slot, or the group it belongs to, evaluated (R365, R370, R373). -/
def Chip.serveSlot (c : Chip) (s : Nat) : Chip :=
  let c := (c.toDue s).dueCmds
  let unit := c.unitOf s
  let c := unit.foldl (fun (c : Chip) k => if c.slotOn k then c.takeCmds k else c) c
  let c := unit.foldl (fun (c : Chip) k => c.setSlot k { c.slot k with evalAt := some c.loopTick }) c
  if c.grouped s then c.evalGroup (c.get (Reg.LOP_LS_GRP_GROUP s)) (unit.filter c.slotOn)
  else if c.slotOn s then
    let r := c.evalSlot s (c.slot s).last
    r.1.slotWrite s r.2
  else c

/-- The engine serves slots in its order until the unit of a slot has been served; k evaluations at most. -/
def Chip.serveTo (c : Chip) (s : Nat) : Nat → Chip
  | 0 => c
  | k + 1 =>
    match c.nextSlot with
    | none => c
    | some n => if s ∈ c.unitOf n then c.serveSlot n else (c.serveSlot n).serveTo s k

/-- SLOT_EVALUATION: the next evaluation of a slot, and before it those that come before it (R365). Between two evaluations of a
slot lie at most 65,535 ticks, and no other slot is due more often than at every tenth. -/
def Chip.slotEvaluation (c : Chip) (s : Nat) : Chip :=
  if c.slotConfigured s = false ∨ c.slotOn s = false ∨ c.loopRuns = false then c else c.serveTo s 420000

/-! ### Analog inputs -/

/-- Entries of a converter's sequence (R380). -/
def Chip.adcLen (c : Chip) (k : Nat) : Nat := c.get (Reg.IOX_ADC_SEQ_CFG_LEN k) + 1

/-- Entry j of a converter's sequence: an input of its twelve (R380). -/
def Chip.adcEntry (c : Chip) (k j : Nat) : Nat :=
  bits (c.get (Reg.IOX_ADC_SEQ_LO_ENTRIES k) + 2 ^ 32 * c.get (Reg.IOX_ADC_SEQ_HI_ENTRIES k)) (4 * j) 4

/-- Whether a converter's running sequence names an input (R380). -/
def Chip.converts (c : Chip) (ch : Nat) : Bool :=
  let k := ch / 12
  c.flag (Reg.IOX_ADC_SEQ_CFG_ENABLE k) && decide (c.get Reg.CKP_STATUS_PSTATE ≤ 2) &&
    (List.range (c.adcLen k)).any fun j => decide (c.adcEntry k j = ch % 12)

/-- The loop tick at which the next result of an input is available: the conversion of an entry starts at each tick, one entry
after another in a loop, and its result comes a tick later (R380). At tick 0 the sequence is at its first entry (DESIGN CHOICE: log
entry 95). -/
def Chip.adcTick (c : Chip) (ch : Nat) : Nat :=
  let k := ch / 12
  let t := max c.loopTick (SMap.get 0 k c.adcAt)
  let n := c.adcLen k
  match (List.range n).find? fun d => decide (c.adcEntry k ((t + d + n - 1) % n) = ch % 12) with
  | some d => t + d
  | none => t

/-- Time advanced to the tick of an input's next result. -/
def Chip.toResult (c : Chip) (ch : Nat) : Chip :=
  let t := c.adcTick ch
  let c := if t = c.loopTick then c else c.advanceToEt (c.tickEt t)
  { c with adcAt := SMap.set 0 (ch / 12) (t + 1) c.adcAt }

/-- The code of an input voltage in nanovolts: full scale is 1.8 V (R379). -/
def adcCode (nv : Nat) : Nat := min 65535 (nv * 65536 / 1800000000)

/-- g of R371 for a code. -/
def Chip.vffGain (c : Chip) (code : Nat) : Nat :=
  let k := code / 1024
  let t0 : Int := c.get (Reg.LOP_VFF_TAB_G k)
  if k < 63 then
    (t0 + floorDiv (((c.get (Reg.LOP_VFF_TAB_G (k + 1)) : Int) - t0) * ((code : Int) - 1024 * k)) 1024).toNat
  else t0.toNat

/-- Whether an input is the bus voltage of R371. -/
def Chip.isVff (c : Chip) (ch : Nat) : Bool := c.flag Reg.LOP_VFF_CFG_ENABLE && decide (c.get Reg.LOP_VFF_CFG_CH = ch)

/-- The VFF input is valid, or has become invalid: g is held, and EV182 raised once (R371). -/
def Chip.vffValid (c : Chip) (ch : Nat) (valid : Bool) : Chip :=
  if c.isVff ch = false then c
  else if valid then { c.put Reg.LOP_VFF_G_VALID 1 with vffTold := false }
  else { c.put Reg.LOP_VFF_G_VALID 0 with vffTold := true }.raiseIf (!c.vffTold) 182 0 []

/-- The VFF input after a result (R371). -/
def Chip.vffResult (c : Chip) (ch code : Nat) (valid : Bool) : Chip :=
  (c.on (c.isVff ch && valid) fun c => c.put Reg.LOP_VFF_G_G (c.vffGain code)).vffValid ch valid

/-- A write of IOX.AINch_WIN: VALID follows the window at once, for an input that has been converted (R381). -/
def Chip.ainWindow (c : Chip) (ch v : Nat) : Chip :=
  let c := c.plainWrite (0xE0104 + 8 * ch) v
  let code := c.get (Reg.IOX_AIN_RES_CODE ch)
  if ch ∉ c.ainConv then c
  else
    let valid := decide (c.get (Reg.IOX_AIN_WIN_LO ch) ≤ code ∧ code ≤ c.get (Reg.IOX_AIN_WIN_HI ch))
    (c.putB (Reg.IOX_AIN_RES_VALID ch) valid).vffValid ch valid

/-- A conversion result (R380, R381). -/
def Chip.adcResult (c : Chip) (ch nv : Nat) : Chip :=
  if c.converts ch = false then c
  else
    let c := c.toResult ch
    let c := if ch ∈ c.ainConv then c else { c with ainConv := c.ainConv ++ [ch] }
    let code := adcCode nv
    let valid := decide (c.get (Reg.IOX_AIN_WIN_LO ch) ≤ code ∧ code ≤ c.get (Reg.IOX_AIN_WIN_HI ch))
    let seq := c.get (Reg.IOX_AIN_RES_SEQ ch)
    let c := ((c.put (Reg.IOX_AIN_RES_CODE ch) code).putB (Reg.IOX_AIN_RES_VALID ch) valid).put (Reg.IOX_AIN_RES_SEQ ch) (seq + 1)
    let left := decide (ch ∈ c.ainLeft)
    let c := if valid then
        { c with ainLeft := c.ainLeft.filter fun k => decide (k ≠ ch) }.raiseIf left 181 0 [(1, ch), (2, code)]
      else if left then c
      else { c with ainLeft := c.ainLeft ++ [ch] }.raise 180 0 [(1, ch), (2, code)]
    c.vffResult ch code valid

/-! ### PWM -/

/-- A slot or a group of slots owns a destination (R372), once a commit has formed the ownership table (R484). -/
def Chip.destOwned (c : Chip) (kind sel : Nat) : Bool :=
  c.flag Reg.CFG_STATUS_COMMITTED && (List.range 64).any fun s => c.slotConfigured s && decide (c.get (Reg.LOP_LS_DEST_KIND s) = kind) &&
    decide (c.get (Reg.LOP_LS_DEST_SEL s) = sel)

/-- A slot or a group of slots owns the trim of a firing group (R372). -/
def Chip.trimOwned (c : Chip) (h g : Nat) : Bool :=
  c.flag Reg.CFG_STATUS_COMMITTED && (List.range 64).any fun s =>
    c.slotConfigured s && decide (c.get (Reg.LOP_LS_DEST_KIND s) = 2 ∧ c.get (Reg.LOP_LS_DEST_SEL s) = h ∧
      c.get (Reg.LOP_LS_DEST_G0 s) ≤ g ∧ g ≤ c.get (Reg.LOP_LS_DEST_G1 s))

/-- The duty last written to a channel (R383). -/
def Chip.dutyWritten (c : Chip) (ch : Nat) : Nat :=
  if c.destOwned 1 ch then SMap.get 0 ch c.pwmDuty else c.get (Reg.IOX_PWM_DUTY_TICKS ch)

/-- The counter of a channel next reaches PHASE, at this tick if its duty has not been updated at it, and the last written duty takes
effect (R382, R383). -/
def Chip.pwmUpdate (c : Chip) (ch : Nat) : Chip :=
  if c.flag (Reg.IOX_PWM_CFG_ENABLE ch) = false ∨ c.flag Reg.CFG_STATUS_COMMITTED = false then c
  else
    let period := max 1 (c.get (Reg.IOX_PWM_CFG_PERIOD ch))
    let count := (c.clk - c.pwmStart) / 5
    let phase := c.get (Reg.IOX_PWM_PHASE_TICKS ch) % period
    let pass := max ((count + period - 1 - phase) / period) (SMap.get 0 ch c.pwmPass)
    let c : Chip := { c.advanceTo (c.pwmStart + 5 * (phase + pass * period)) with pwmPass := SMap.set 0 ch (pass + 1) c.pwmPass }
    let d := c.dutyWritten ch
    let c := c.put (Reg.IOX_PWM_NOW_TICKS ch) d
    if c.flag Reg.MOT_STATUS_OUTPUT_EN && decide (c.pstate ≠ 3) then c.emit (.pwm ch d) else c

/-- The level of a PWM ball at the present tick, none at high impedance (R378, R382): active over the D counter values from
PHASE on, POL giving the active level. -/
def Chip.pwmBall (c : Chip) (ch : Nat) : Option Bool :=
  if c.flag (Reg.IOX_PWM_CFG_ENABLE ch) && c.flag Reg.CFG_STATUS_COMMITTED && c.flag Reg.MOT_STATUS_OUTPUT_EN &&
      decide (c.pstate ≠ 3) then
    let period := max 1 (c.get (Reg.IOX_PWM_CFG_PERIOD ch))
    let past := ((c.clk - c.pwmStart) / 5 + period - c.get (Reg.IOX_PWM_PHASE_TICKS ch) % period) % period
    some (decide (past < c.get (Reg.IOX_PWM_NOW_TICKS ch)) == c.flag (Reg.IOX_PWM_CFG_POL ch))
  else none

/-! ### General-purpose I/O -/

/-- The level at which a GPIO that no feature claims is driven, none while it is an input or at high impedance (R378, R384). -/
def Chip.gpioBall (c : Chip) (i k : Nat) : Option Bool :=
  if c.bitOf (Reg.IOX_GPIO_DIR_BITS i) k && decide (c.pstate ≠ 3) &&
      (!c.bitOf (Reg.IOX_GPIO_OWNED_BITS i) k || c.flag Reg.MOT_STATUS_OUTPUT_EN) then
    some (c.bitOf (Reg.IOX_GPIO_OUT_BITS i) k)
  else none

/-- The balls of a GPIO bank that are driven otherwise than before are put out, and IOX.GPIO_IN shows them (R384). -/
def Chip.showBalls (c : Chip) (before : Chip) (i : Nat) : Chip :=
  let moved : List (Nat × Bool) := (List.range 32).filterMap fun k =>
    match c.gpioBall i k with
    | some l => if before.gpioBall i k = some l then none else some (32 * i + k, l)
    | none => none
  moved.foldl (fun (c : Chip) b => c.seeBall b.1 b.2) (c.emits (moved.map fun b => Output.gpio b.1 b.2))

/-- Bits of a GPIO bank's OUT or DIR written through a mask; claimed bits keep their value and raise EV183 (R384). -/
def Chip.gpioBits (c : Chip) (f : Field) (i mask v off : Nat) : Chip :=
  let claimed := c.get (Reg.IOX_GPIO_CLAIMED_BITS i)
  let old := c.get f
  let free := mask &&& (claimed ^^^ (2 ^ 32 - 1))
  let c := (c.put f ((old &&& (free ^^^ (2 ^ 32 - 1))) ||| (v &&& free))).showBalls c i
  c.raiseIf (decide (mask &&& claimed ≠ 0)) 183 0 [(4, off)]

/-- IOX.GPIO_SET (R384). -/
def Chip.gpioSet (c : Chip) (i v : Nat) : Chip := c.gpioBits (Reg.IOX_GPIO_OUT_BITS i) i v v (0xE2010 + 4 * i)

/-- IOX.GPIO_CLR (R384). -/
def Chip.gpioClr (c : Chip) (i v : Nat) : Chip := c.gpioBits (Reg.IOX_GPIO_OUT_BITS i) i v 0 (0xE2018 + 4 * i)

/-! ### Scheduled actions -/

/-- The scheduled action that comes next runs when ET reaches its target (R52, R55, R56). -/
def Chip.runScheduled (c : Chip) : Chip :=
  match nextSched c.sched with
  | none => c
  | some a =>
    let c := if a.stepped then c else c.advanceToEt a.target
    match a.kind with
    | .camTrigger x => c.triggerDue x
    | .motionCmd p n => ({ c with sched := c.sched.erase a }).setRing p n { c.ring p n with
        atDue := some c.nextDue }
    | .loopCmd p n => c.loopDue p n

/-! ### The commands -/

/-- SCHEDULED_ACTION (R52). -/
def execScheduledAction (s : State) : Host.Outcome State Fault Refusal := s.go s.toChip.runScheduled

/-- LOOP_ENABLE (R376). -/
def execLoopEnable (p : Port) (n : Fin 64) (s : State) : Host.Outcome State Fault Refusal :=
  s.go (s.toChip.loopRow p.num n.val 0x40)

/-- LOOP_DISABLE (R376). -/
def execLoopDisable (p : Port) (n : Fin 64) (s : State) : Host.Outcome State Fault Refusal :=
  s.go (s.toChip.loopRow p.num n.val 0x41)

/-- SET_POINT (R376). -/
def execSetPoint (p : Port) (n : Fin 64) (s : State) : Host.Outcome State Fault Refusal :=
  s.go (s.toChip.loopRow p.num n.val 0x42)

/-- SET_COEF (R376). -/
def execSetCoef (p : Port) (n : Fin 64) (s : State) : Host.Outcome State Fault Refusal :=
  s.go (s.toChip.loopRow p.num n.val 0x43)

/-- SET_LIMITS of the loop engine (R376). -/
def execLoopSetLimits (p : Port) (n : Fin 64) (s : State) : Host.Outcome State Fault Refusal :=
  s.go (s.toChip.loopRow p.num n.val 0x44)

/-- SET_MANUAL (R376). -/
def execSetManual (p : Port) (n : Fin 64) (s : State) : Host.Outcome State Fault Refusal :=
  s.go (s.toChip.loopRow p.num n.val 0x45)

/-- SET_AUTO (R376). -/
def execSetAuto (p : Port) (n : Fin 64) (s : State) : Host.Outcome State Fault Refusal :=
  s.go (s.toChip.loopRow p.num n.val 0x46)

/-- SET_INTEG (R376). -/
def execSetInteg (p : Port) (n : Fin 64) (s : State) : Host.Outcome State Fault Refusal :=
  s.go (s.toChip.loopRow p.num n.val 0x47)

/-- SLOT_EVALUATION (R370). -/
def execSlotEvaluation (k : Fin 64) (s : State) : Host.Outcome State Fault Refusal :=
  s.goIn 2 fun c => c.slotEvaluation k.val

/-- ADC_RESULT (R380). -/
def execAdcResult (ch : Fin 24) (nv : Nat) (s : State) : Host.Outcome State Fault Refusal :=
  s.go (s.toChip.adcResult ch.val nv)

/-- PWM_DUTY_UPDATE (R383). -/
def execPwmDutyUpdate (ch : Fin 32) (s : State) : Host.Outcome State Fault Refusal :=
  s.goIn 2 fun c => c.pwmUpdate ch.val

end Sys2Proof.Machine
end

