-- ==== Sys2Proof/Machine/Tandem.lean ====
section
/-! DEFINITION. Machine/Tandem.lean: the tandem state machine (R413 to R446): claim lines, ownership and what comes with it,
heartbeats, acknowledgement, what a standby applies, its shadow self-test, takeover, take-back, and the bond of lanes. -/

namespace Sys2Proof.Machine

/-! ### State -/

/-- The controller is strapped into a pair (R413). -/
def Chip.inPair (c : Chip) : Bool := c.flag Reg.GLB_STRAPS_TDM_EN

/-- The partner's claim line as sampled. -/
def Chip.otherClaim (c : Chip) : Bool :=
  if c.flag Reg.TDM_STATUS_PRI then c.flag Reg.TDM_STATUS_CLAIM_S_IN else c.flag Reg.TDM_STATUS_CLAIM_P_IN

/-- TDM.STATUS.STATE. -/
def Chip.tdmState (c : Chip) : Nat := c.get Reg.TDM_STATUS_STATE

/-- SYNC or FIT: the controller tracks the owner (R427). -/
def Chip.tracking (c : Chip) : Bool := decide (c.tdmState = 3 ∨ c.tdmState = 4)

/-- The tandem state changes, with STATE_CHG; a primary in FIT requests take-back of a secondary that owns (R445). -/
def Chip.setTdmState (c : Chip) (st : Nat) : Chip :=
  let was := c.tdmState
  let c := c.put Reg.TDM_STATUS_STATE st
  let c := if was = st then c else c.put Reg.TDM_STATUS_STATE_CHG 1
  let c := if st = 5 then c else c.put Reg.TDM_STATUS_STALE_CAUSE 0
  if c.flag Reg.TDM_STATUS_PRI then c.putB Reg.TDM_STATUS_TAKEBACK_REQ (decide (st = 4) && c.flag Reg.TDM_STATUS_CLAIM_S_IN) else c

/-- R428: a standby that tracks becomes STALE with a cause. -/
def Chip.stale (c : Chip) (cause : Nat) : Chip :=
  if c.tracking then
    let c := ((c.setTdmState 5).put Reg.TDM_STATUS_STALE_CAUSE cause).raise 211 cause []
    c.setTdm { c.tdm with whole := false, resynced := false }
  else c

/-- A standby that tracks on too narrow a bond is STALE (R428). -/
def Chip.linkStale (c : Chip) : Chip :=
  if c.get Reg.TDM_STATUS_WIDTH = 0 then c.stale 1 else if c.get Reg.TDM_STATUS_WIDTH = 1 then c.stale 3 else c

/-- What has been received from a partner in its former role counts no more: its next frame and firn are taken as the first
(DEDUCED: log entry 82). -/
def Chip.newPartner (c : Chip) : Chip := c.setTdm { c.tdm with rxSeq := none, firnHeard := none, later := [] }

/-- A controller becomes SYNC (R426), or at once STALE where its bond does not carry a standby (R428). -/
def Chip.enterSync (c : Chip) : Chip := ((c.newPartner).setTdmState 3).linkStale

/-- TDM.CFG.HB_TO_US in nanoseconds. -/
def Chip.hbTo (c : Chip) : Nat := 1000 * c.get Reg.TDM_CFG_HB_TO_US

/-- Completions that need wait no more end; table loads among them are then held (R196). -/
def Chip.releaseWaits (c : Chip) (ws : List MirrorWait) : Chip :=
  ws.foldl (fun c w => c.loadReady w.port w.ring) (ws.foldl (fun c w => c.release w) c)

/-- Every completion that waits for the partner ends (R427, R428). -/
def Chip.releaseAll (c : Chip) : Chip :=
  let ws := c.mirrorWait ++ c.tdm.hbWait
  let c := { c with mirrorWait := [] }.setTdm { c.tdm with hbWait := [] }
  (c.releaseWaits ws).showWait

/-- R428: an owner declares its partner unfit: 1 an item waited, 2 no heartbeat, 3 a mismatch. -/
def Chip.declareUnfit (c : Chip) (cause : Nat) : Chip :=
  if c.tdmState ≠ 2 ∨ c.tdm.unfit.isSome then c
  else
    let c := { c with tracked := false }.setTdm { c.tdm with
      unfit := some c.clk
      unfitSeq := none
      hold := c.tdm.hold && c.tdm.goAt.isSome }
    (c.put Reg.TDM_STATUS_PARTNER_FIT 0).raise 212 cause []

/-- The digest of R485 as shown, as one number. -/
def Chip.digestNow (c : Chip) : Nat := ((List.range 8).map fun k => c.get (Reg.CFG_DIGEST_BYTES k) * 2 ^ (32 * k)).sum

/-! ### Ownership (R415, R417, R420, R439, R441, R443) -/

/-- R420: the ADJ that the claim sends a LINKED lane; a lane close enough counts as TIME_LOCK, and may enter READY. -/
def Chip.claimLane (c : Chip) (n : Nat) : Chip :=
  let l := c.lane n
  if c.laneState n ≠ 2 ∨ l.thetaAt.isNone then c
  else
    let rho := c.getI Reg.ETM_RATE_RATE
    let near := decide (|l.theta| ≤ 65536 * (c.get Reg.THL_TIME_CFG_ERR_NS : Int))
    let c := if near then c.put (Reg.THL_LANE_STATUS_TIME_LOCK n) 1 else c
    let adj : LaneItem := .adj l.rspSeq (-l.theta) (l.h + rho) (c.flag (Reg.THL_LANE_STATUS_TIME_LOCK n))
    (c.setLane n { l with times := adj :: l.times, rateSent := rho, stepSeen := c.stepSum }).tryReady n

/-- A head that did not match what its tables ask for is written now that the controller owns (R249, R420). -/
def Chip.claimHead (c : Chip) (h : Nat) : Chip :=
  if c.get (Reg.HED_HEAD_STATUS_STATE h) = 4 then c.startLoading h else c

/-- R441: an axis takes the state of the last heartbeat at rest; one that was moving has lost steps. Gearing and homing do
not survive. -/
def Chip.claimAxis (c : Chip) (a : Nat) (m : HbAxis) : Chip :=
  let p := m.pos * stepUnit
  let mode := if m.mode.val = 4 ∨ m.mode.val = 5 then 1 else m.mode.val
  let c := c.setAxis a { pos := p, out := m.pos, limP := (c.axis a).limP, limN := (c.axis a).limN, tickAt := c.clk,
                         restSince := c.clk, ustep := (c.axis a).ustep }
  let c := (c.put (Reg.MOT_AX_STATUS_MODE a) mode).put (Reg.MOT_AX_STATUS_FAULT_CAUSE a) m.faultCause.toNat
  let f := decide (m.faultCause.toNat ≠ 0)
  let c := (c.putB (Reg.MOT_AX_STATUS_FAULT a) f).putBit Reg.MOT_STATUS_FAULT a f
  let c := (c.putB (Reg.MOT_AX_STATUS_HOMED a) (m.homed && decide (m.vel = 0))).showAxis a
  c.on (decide (m.vel ≠ 0)) fun c => c.axisEvent a 1

/-- R378, R441: the loop slots resume from the last heartbeat. It gives SP and no target: a ramp ends where it stood. -/
def Chip.claimSlots (c : Chip) (ms : List HbSlot) : Chip :=
  let c := (List.range 64).foldl (fun c s =>
    c.putB (Reg.LOP_LS_STATUS_ENABLED s) (ms.any fun m => decide (m.slot.val = s))) c
  ms.foldl (fun c m =>
    let s := m.slot.val
    let c := ((c.putI (Reg.LOP_LS_SP_VALUE s) m.sp).putI (Reg.LOP_LS_SP_TGT_VALUE s) m.sp).putI (Reg.LOP_LS_INTEG_VALUE s) m.integ
    (c.putI (Reg.LOP_LS_OUT_VALUE s) m.last).setSlot s { c.slot s with last := m.last, yPrev := some m.yPrev }) c

/-- The state a partner that owned left in its last heartbeat is taken over. -/
def Chip.claimState (c : Chip) : Chip :=
  match c.tdm.last with
  | none => c
  | some m =>
    if m.fromOwner then
      (((List.range m.axes.length).zip m.axes).foldl (fun c e => c.claimAxis e.1 e.2) c).claimSlots m.slots
    else c

/-- Outputs are driven: at once by a secondary, by a primary once CLAIM_S is deasserted (R417). GPIO balls with OWNED set go to
their level or to high impedance with it. -/
def Chip.driveOutputs (c : Chip) : Chip :=
  let d := c.putB Reg.MOT_STATUS_OUTPUT_EN (c.owns && !(c.flag Reg.TDM_STATUS_PRI && c.flag Reg.TDM_STATUS_CLAIM_S_IN))
  (d.showBalls c 0).showBalls c 1

/-- The controller asserts its claim and owns: EV208 carries how it came to (R446). -/
def Chip.gain (c : Chip) (st cause : Nat) : Chip :=
  let c := ((c.put Reg.TDM_STATUS_CLAIM_OUT 1).emit (.claim true)).put Reg.TDM_STATUS_OWNS 1
  let c := { c.driveOutputs with tracked := false, wdogLoss := false }
  let c := ((c.newPartner).setTdmState st).raise 208 cause []
  let c := c.setTdm { c.tdm with inspStopped := c.tdm.inspStopped || decide (cause ≠ 1), heard := c.clk, missTold := false, unfit := none, unfitSeq := none, kept := [], fullWanted := false,
                                 startDue := none, hold := false, goAt := none, idleDue := c.clk + 100000000 }
  let c := if cause = 1 then c else c.claimState
  let c := ((c.putB Reg.ETM_STATUS_INLAYER c.run.isSome).refreshFrozen).showLoop
  (List.range 48).foldl (fun c n => (c.claimHead n).claimLane n) c

/-- The claim output is deasserted, and what only an owner does ends (R340, R378, R420, R443). -/
def Chip.dropClaim (c : Chip) : Chip :=
  let c := ((c.put Reg.TDM_STATUS_CLAIM_OUT 0).emit (.claim false)).put Reg.TDM_STATUS_OWNS 0
  let c := { c with tracked := false }.driveOutputs
  let c := ((c.releaseAll.newPartner).refuseWaiting).put Reg.ETM_STATUS_INLAYER 0
  let c := c.loseFrames.setTdm { c.loseFrames.tdm with inspStopped := true, unfit := none, taking := false, takes := [] }
  let c := (c.refreshFrozen).showLoop
  (List.range 48).foldl (fun c n => if c.laneState n = 3 then c.setLaneState n 2 else c) c

/-- R426: after the first commit a controller alone owns; a primary of a pair settles its role, a secondary waits. -/
def Chip.tandemStart (c : Chip) : Chip :=
  let c := c.setTdm { c.tdm with hbDue := c.clk + 100000, healthDue := c.clk + 1000000000, heard := c.clk }
  if c.inPair = false then c.gain 0 1
  else
    let c := c.setTdmState 1
    if c.flag Reg.TDM_STATUS_PRI then
      if c.otherClaim then c.enterSync else c.gain 2 1
    else if c.otherClaim then c.enterSync
    else c.setTdm { c.tdm with startDue := some (c.clk + 1000000 * c.get Reg.TDM_START_WAIT_MS) }

/-! ### Takeover (R439, R440) -/

/-- x(h) of R440: the last firing line of a head crossed, by ext. -/
def Chip.lastCrossed (c : Chip) (h : Nat) : Int :=
  match c.run, c.est.ext with
  | some r, some x =>
    let pitch := c.get Reg.CRN_PITCH_COUNTS
    if pitch = 0 then (c.headRun h).hwm else floorDiv ((x - r.origin) * 65536) pitch - SMap.get 0 h r.hofs
  | _, _ => (c.headRun h).hwm

/-- Lines of a head entered in the map with a shot-level cause. -/
def HeadRun.enteredLines (x : HeadRun) : Nat := (x.entered.map (·.2)).sum

/-- Lines above a head's high-water mark up to x(h) entered UNCERTAIN, and the mark moved (R440). -/
def Chip.enterCrossed (c : Chip) (h : Nat) (x : Int) : Chip :=
  let r := c.headRun h
  let c := (gapsIn (r.hwm + 1) (x + 1) r.entered).foldl (fun c g => c.enterLines h 5 g.1 g.2) c
  let r := c.headRun h
  (c.setHead h { r with hwm := max r.hwm x }).showHead h

/-- A head's takeover accounting ends: its indices go on far above every one known. -/
def Chip.takeSettled (c : Chip) (h known before : Nat) : Chip :=
  let c := { c with nextIndex := SMap.set 0 h ((known + 65536) % 2 ^ 32) c.nextIndex }
  let c := c.settled h
  let t := c.tdm
  c.setTdm { t with
    takes := t.takes.filter fun (q : TakeHead) => decide (q.head ≠ h)
    takeLines := t.takeLines + ((c.headRun h).enteredLines - before) }

/-- The takeover ends once every head is accounted: EV218, and HELD is left under R168. -/
def Chip.takeDone (c : Chip) : Chip :=
  if c.tdm.taking ∧ c.tdm.takes.isEmpty then
    let n := c.tdm.takeLines
    (((c.setTdm { c.tdm with taking := false, takeLines := 0 }).raise 218 0 [(4, n)]).leaveHeld).tryComplete
  else c

/-- The highest index known for a head. -/
def Chip.knownIndex (c : Chip) (h : Nat) : Nat := (SMap.get 0 h c.nextIndex + 2 ^ 32 - 1) % 2 ^ 32

/-- The first TLM of a head after the claim (R440). -/
def Chip.takeTlm (c : Chip) (h f : Nat) : Chip :=
  match c.tdm.takes.find? fun (q : TakeHead) => decide (q.head = h) with
  | none => c
  | some q =>
    let before := (c.headRun h).enteredLines
    let known := c.knownIndex h
    let c := (c.firedUpTo h f).releaseShots h
    let lost := decide (0 < idxDiff f known)
    let c := if lost then c.enterCrossed h q.x else c
    (c.takeSettled h (if lost then f else known) before).takeDone

/-- No TLM of a head came within CRN.CALVE_TO of the claim (R440). -/
def Chip.takeOverdue (c : Chip) (h : Nat) : Chip :=
  match c.tdm.takes.find? fun (q : TakeHead) => decide (q.head = h) with
  | none => c
  | some q =>
    let c := c.advanceTo q.due
    let before := (c.headRun h).enteredLines
    let known := c.knownIndex h
    (((c.uncertainShots h 0).enterCrossed h q.x).takeSettled h known before).takeDone

/-- A change whose band the owner gave (R433): staged, and in force at once where this cornice has passed that band. -/
def Chip.stageChange (c : Chip) (r : ChangeRec) (bands : List (Nat × Nat)) : Chip :=
  let start := fun (h : Nat) => match bands.find? fun b => decide (b.1 = h) with
    | some b => b.2
    | none => c.bStar h
  let heads := fun (c : Chip) (hs : List Nat) => hs.foldl (fun c h =>
    if c.inArmed h ∧ start h < c.bStar h then c.applyBand h (start h) else c) c
  match r with
  | .nzt _ row _ ⟨3, _⟩ => c.loseEntry row
  | .nzt _ row v src =>
    let h := c.rowHead row
    let c := if src.val = 0 then c.stageNzt row v.toNat (start h) else c.stageState row (ntState v.toNat) src.val (start h)
    (heads c [h]).showStage
  | .sub _ k v => (c.stageSub k v.toNat).showStage
  | .grey _ t v => (heads (c.stageGrey t.val v.toNat start) (List.range 48)).showStage
  | .ready _ _ => c
  | .map _ _ _ => c

/-- A change still without b* becomes ready at the claim (R433). -/
def Chip.claimChanges (c : Chip) : Chip :=
  c.tdm.changes.foldl (fun c r => c.stageChange r []) (c.setTdm { c.tdm with changes := [] })

/-- The shots that the fire log has told of, with the codes they carry and the credits they make when accounted fired (R162, R432,
R440). -/
def Chip.formShots (c : Chip) (h : Nat) : Chip :=
  let x := c.headRun h
  let ws := match c.run with
    | some r => r.weights
    | none => []
  c.setHead h { x with shots := x.shots.map fun (s : Shot) =>
    let k := c.shotCodes h s.line
    { s with codes := k.map (·.1), credits := creditsOf ws k } }

/-- R439: a FIT standby takes over. -/
def Chip.takeover (c : Chip) : Chip :=
  let c := ((c.gain 2 2).bump Reg.TDM_TAKEOVERS_COUNT 1).claimChanges
  let heads := c.layerHeads.filter fun h => !(c.headRun h).isOut
  let due := c.clk + 1000 * c.get Reg.CRN_CALVE_TO_US
  let c := if c.run.isSome then c.put Reg.CRN_STATUS_STATE 3 else c
  let c := heads.foldl (fun c h => c.formShots h) c
  (c.setTdm { c.tdm with taking := true, takeLines := 0, takes := heads.map fun h => TakeHead.mk h due (c.lastCrossed h) }).takeDone

/-- TDM.CTRL.TAKE (R439): every registered layer is discarded. -/
def Chip.take (c : Chip) : Chip :=
  if c.owns ∨ c.otherClaim ∨ c.tdmState = 0 ∨ c.tdmState = 6 then c
  else
    (((c.discardLayers).claimChanges).applyRest 0xFFFFFFFF).gain 2 4

/-- A standby becomes FIT (R430, R445): STALE on too narrow a bond (R424), and the owner where the partner's claim is down
(R439). -/
def Chip.becomeFit (c : Chip) : Chip :=
  let c := (c.setTdmState 4).linkStale
  if c.tdmState = 4 ∧ c.otherClaim = false then c.takeover else c

/-- A claim line changes level (R415, R417, R426, R439, R445). -/
def Chip.claimLine (c : Chip) (p level : Bool) : Chip :=
  let c := c.putB (if p then Reg.TDM_STATUS_CLAIM_P_IN else Reg.TDM_STATUS_CLAIM_S_IN) level
  let both := c.flag Reg.TDM_STATUS_CLAIM_P_IN && c.flag Reg.TDM_STATUS_CLAIM_S_IN
  let c := c.setTdm { c.tdm with bothSince := if both then some (c.tdm.bothSince.getD c.clk) else none }
  let pri := c.flag Reg.TDM_STATUS_PRI
  if p = pri ∨ c.inPair = false then c
  else if level then
    if c.owns ∧ pri = false then
      if c.tdm.goAt.isSome then
        let d := ((c.dropClaim).raise 209 0 []).raise 210 0 []
        (d.setTdm { d.tdm with hold := false, goAt := none }).becomeFit
      else (c.dropClaim).enterSync
    else if c.tdmState = 1 then (c.setTdm { c.tdm with startDue := none }).enterSync
    else c.setTdmState c.tdmState
  else if c.tdmState = 4 then c.takeover
  else ((c.setTdm { c.tdm with backing := false }).driveOutputs).showLoop

/-! ### Heartbeats and acknowledgement (R427, R428, R431) -/

/-- What a HEARTBEAT carries (R431); its layout is the model's. -/
def Chip.hbBody (c : Chip) : List Byte :=
  let own := c.owns
  let digest := leBytes 32 c.digestNow
  let head := leBytes 1 c.tdmState ++ leBytes 1 (b2n own) ++ leBytes 1 (b2n c.tdm.unfit.isNone) ++
    leBytes 1 (c.get Reg.TDM_STATUS_LANES_OK + 32 * b2n (!own && c.flag Reg.TDM_STATUS_TAKEBACK_REQ)) ++
    leBytes 4 (c.get Reg.TDM_FIRN_SEQ)
  if own then
    head ++ leBytes 8 c.now.toNat ++ c.axisBytes ++ c.ringBytes ++
      leBytes 4 (b2n (c.flag Reg.HED_GATE_STATUS_PERMIT) + 2 * b2n (c.flag Reg.HED_GATE_STATUS_STRIKE_LATCH)) ++ digest ++
      c.slotBytes
  else head ++ digest

/-- A CONTROL frame received, which has the next SEQ: its command carries none, and none is taken twice (DESIGN CHOICE: log entry
91). -/
def Chip.rxControl (c : Chip) : Chip := c.setTdm { c.tdm with rxSeq := c.tdm.rxSeq.map fun q => (q + 1) % 2 ^ 32 }

/-- Receipt acknowledged (R423 type 6). -/
def Chip.sendAck (c : Chip) : Chip := c.sendFrame 6 0 (leBytes 4 (c.tdm.rxSeq.getD 0xFFFFFFFF))

/-- A CONTROL frame: 0 RESYNC, 2 TAKEBACK_GO, 3 TAKEBACK_ABORT. -/
def Chip.sendControl (c : Chip) (code : Nat) : Chip := c.sendFrame 8 0 (leBytes 4 code)

/-- R445 step 1: TAKEBACK_GO, once the layer-end firn and every mirrored item are acknowledged. -/
def Chip.tryGo (c : Chip) : Chip :=
  let t := c.tdm
  if t.hold ∧ t.goAt = none ∧ c.mirrorWait.isEmpty ∧ t.hbWait.isEmpty ∧ (t.kept.all fun k => decide (k.type = 1 ∨ 6 ≤ k.type)) = true ∧
      (c.outItems.any (·.firn)) = false then
    let c := c.sendControl 2
    c.setTdm { c.tdm with goAt := some c.clk }
  else c

/-- An acknowledgement up to a SEQ (R423, R427, R428). -/
def Chip.acked (c : Chip) (seq : Nat) : Chip :=
  let upTo := fun (q : Nat) => decide (idxDiff q seq ≤ 0)
  let done := c.mirrorWait.filter fun (w : MirrorWait) => upTo w.seq
  let c := { c with mirrorWait := c.mirrorWait.filter fun (w : MirrorWait) => !upTo w.seq }
  let c := c.setTdm { c.tdm with kept := c.tdm.kept.filter fun (k : TFrame) => !upTo k.seq }
  let c := (c.releaseWaits done).showWait
  let seen := match c.tdm.unfitSeq with
    | some q => upTo q
    | none => false
  (if seen then c.releaseAll else c).tryGo

/-! ### The bond (R421, R422) -/

/-- A lane is healthy: aligned, in the bond, or spare. -/
def Chip.laneWell (c : Chip) (k : Nat) : Bool :=
  let s := c.get (Reg.TDM_LANE_STATUS_STATE k)
  decide (s = 2 ∨ s = 3 ∨ s = 4)

/-- A tandem lane's state shown, with LANES_OK. -/
def Chip.setTdmLane (c : Chip) (k st : Nat) : Chip :=
  let was := c.get (Reg.TDM_LANE_STATUS_STATE k)
  let c := c.put (Reg.TDM_LANE_STATUS_STATE k) st
  let c := if was = st then c else c.put (Reg.TDM_LANE_STATUS_CHG k) 1
  c.putBit Reg.TDM_STATUS_LANES_OK k (c.laneWell k)

/-- The largest width that a number of healthy lanes allows. -/
def widthOf (n : Nat) : Nat := if 4 ≤ n then 4 else if 2 ≤ n then 2 else n

/-- The bond's lanes chosen: those in it first, then the others in order, the spare last of all. EV216 and SPARE_USED tell a spare
brought in, EV217 the width, and every frame not acknowledged goes again. -/
def Chip.bondOf (c : Chip) (width : Nat) : Chip :=
  let well := (List.range 5).filter c.laneWell
  let spare := c.tdm.spare
  let free := well.filter fun k => decide (k ≠ spare)
  let inBond := free.filter fun k => decide (c.get (Reg.TDM_LANE_STATUS_STATE k) = 3)
  let order := inBond ++ (free.filter fun k => !inBond.contains k) ++ well.filter fun k => decide (k = spare)
  let bond := order.take width
  let used := bond.contains spare
  let brought := used && !c.flag Reg.TDM_STATUS_SPARE_USED
  let c := well.foldl (fun c k => c.setTdmLane k (if bond.contains k then 3 else if k = spare then 4 else 2)) c
  let c := (c.putB Reg.TDM_STATUS_SPARE_USED used).raiseIf brought 216 0 []
  let c := (c.put Reg.TDM_STATUS_WIDTH width).raise 217 0 [(1, width)]
  (c.tdm.kept.foldl (fun c (k : TFrame) => c.tandemOut k.type k.bytes) c).linkStale

/-- A lane of the bond is lost (R422): a SPARE_LANE record tells the lane that replaces it, or 7. -/
def Chip.bondLoss (c : Chip) (k : Nat) : Chip :=
  let spare := (List.range 5).find? fun j => decide (c.get (Reg.TDM_LANE_STATUS_STATE j) = 4 ∨ c.get (Reg.TDM_LANE_STATUS_STATE j) = 2)
  let w := widthOf (((List.range 5).filter c.laneWell).length)
  let c := c.bondOf w
  match spare with
  | some j => if c.get (Reg.TDM_LANE_STATUS_STATE j) = 3 then c.record 6 3 c.armedNum 0xFFFFFFFF k (j + 16 * w) else c
  | none => c.record 6 3 c.armedNum 0xFFFFFFFF k (7 + 16 * w)

/-- The code that R245 gives the cause of a tandem lane's loss. -/
def causeCode : TandemCause → Nat
  | .codeErr _ => 2
  | .commaShift _ => 3
  | .noFill _ => 4
  | .elastic _ => 5

/-- The code and disparity errors a tandem lane counted before its loss: four at the least where they lost it (R221). -/
def causeErrors : TandemCause → Nat
  | .codeErr n => max 4 n
  | .commaShift n => n
  | .noFill n => n
  | .elastic n => n

/-- A tandem lane loses lock (R221, R421). -/
def Chip.tandemLoss (c : Chip) (k : Nat) (why : TandemCause) : Chip :=
  if c.laneWell k = false then c
  else
    let cause := causeCode why
    let c := c.countAcross 19 k (Reg.TDM_LANE_ERR_COUNT k) (causeErrors why)
    let bonded := decide (c.get (Reg.TDM_LANE_STATUS_STATE k) = 3)
    let c := (c.put (Reg.TDM_LANE_STATUS_LAST_CAUSE k) cause).setTdmLane k 1
    let c := (c.raise 215 cause [(1, k)]).flushQueue 19 k none
    if bonded then c.bondLoss k else c

/-- The bond widens where the healthy lanes allow it, while no layer is armed (R422); and it leaves the spare out once lanes that
come up for the first time suffice without it (DEDUCED: TL4 is the spare after reset). -/
def Chip.widen (c : Chip) : Chip :=
  let well := (List.range 5).filter c.laneWell
  let w := widthOf well.length
  let spared := c.flag Reg.TDM_STATUS_SPARE_USED && decide (w ≤ (well.filter fun k => decide (k ≠ c.tdm.spare)).length)
  if c.run.isNone ∧ (c.get Reg.TDM_STATUS_WIDTH < w ∨ spared) then c.bondOf w else c

/-- A tandem lane has held lock for 1 s: one that had lost it becomes the spare if the spare is in use; else it widens the
bond. -/
def Chip.tandemGain (c : Chip) (k : Nat) : Chip :=
  if c.inPair = false ∨ c.laneWell k then c
  else
    let c := c.endQuarantine 19 k
    let regained := decide (c.get (Reg.TDM_LANE_STATUS_LAST_CAUSE k) ≠ 0)
    let c := if c.flag Reg.TDM_STATUS_SPARE_USED ∧ regained then
        (c.setTdm { c.tdm with spare := k }).put Reg.TDM_STATUS_SPARE_USED 0
      else c
    (c.setTdmLane k (if k = c.tdm.spare then 4 else 2)).widen

/-! ### What a standby applies (R429, R430, R432 to R437) -/

/-- Frames received, n of successive SEQs: dropped where the first has been taken already (R422), and in P3, where the tandem link
is stopped (R463); a standby that misses a frame
before them, which may have been of the fire log, is STALE (R428). What they acknowledge back is kept no longer (R423). The flag
says whether they are taken. -/
def Chip.rxFrame (c : Chip) (f : FrameId) (n : Nat) : Chip × Bool :=
  let d := match c.tdm.rxSeq with
    | none => 0
    | some q => idxDiff f.seq.toNat (q + 1)
  if d < 0 ∨ c.pstate = 3 then (c, false)
  else
    let c := c.setTdm { c.tdm with rxSeq := some ((f.seq.toNat + n + 2 ^ 32 - 1) % 2 ^ 32) }
    ((if 0 < d then c.stale 5 else c).acked f.ack.toNat, true)

/-- One fire-log record applied to a head's accounts (R432). A record carries no tag, and calves and skips have none: after a
takeover, ET_FIRST, ET_LAST, CALVES and SKIPPED of the layer report cover what the new owner itself accounted (DESIGN CHOICE: log
entry 92). MISSING and POISON entries carry groups, which a record does not: they come with the firn (R435). -/
def Chip.applyLog (c : Chip) : FireLogRec → Chip
  | .issued h i line =>
    let c := { c with nextIndex := SMap.set 0 h.val ((i.toNat + 1) % 2 ^ 32) c.nextIndex }
    if c.inArmed h.val then
      let x := c.headRun h.val
      let tag : ET := BitVec.ofInt 64 ((c.predictLine h.val line).getD c.now.toNat)
      let s : Shot := ⟨i.toNat, line, tag, c.periodAt h.val line tag.toNat, [], [], true⟩
      (c.setHead h.val { x with shots := x.shots ++ [s] }).showHead h.val
    else c
  | .fired h i line =>
    if c.inArmed h.val then
      let x := c.headRun h.val
      let c := c.put (Reg.CRN_HEAD_FIRED_INDEX h.val) i.toNat
      let c := match x.shots.find? fun (s : Shot) => decide (s.index = i.toNat) with
        | some s => c.setHeadX h.val { c.head h.val with lastTag := some s.tag }
        | none => c
      ((c.setHead h.val { x with
        shots := x.shots.filter (fun (s : Shot) => decide (s.index ≠ i.toNat))
        hwm := max x.hwm line }).followBands h.val).showHead h.val
    else c
  | .released h i _ =>
    if c.inArmed h.val then
      let x := c.headRun h.val
      (c.setHead h.val { x with shots := x.shots.filter fun (s : Shot) => decide (s.index ≠ i.toNat) }).showHead h.val
    else c
  | .entered h cause line n =>
    if c.inArmed h.val ∧ cause.val < 8 then
      let x := c.headRun h.val
      let out := decide (cause.val = 7) && !x.isOut
      let c := if out then (c.setHead h.val { x with isOut := true }).outBands h.val else c
      ((c.enterLines h.val cause.val line n).followBands h.val).showHead h.val
    else c

/-- The identity of a change record. -/
def changeIdent : ChangeRec → Nat
  | .nzt i _ _ _ => i
  | .sub i _ _ => i
  | .grey i _ _ => i
  | .ready i _ => i
  | .map _ _ _ => 0

/-- One change record: kept until its band comes, then staged (R433); a map entry is taken at once (R427). -/
def Chip.applyChange (c : Chip) (r : ChangeRec) : Chip :=
  match r with
  | .map pipe e v => c.put (Reg.CAM_MAP_ENTRY pipe.val e.val) v.toNat
  | .ready i bands =>
    let mine := c.tdm.changes.filter fun (q : ChangeRec) => decide (changeIdent q = i)
    let c := c.setTdm { c.tdm with changes := c.tdm.changes.filter fun (q : ChangeRec) => decide (changeIdent q ≠ i) }
    mine.foldl (fun c q => c.stageChange q (bands.map fun b => (b.1.val, b.2))) c
  | q => c.setTdm { c.tdm with changes := c.tdm.changes ++ [q] }

/-- The records of a frame applied in their order (R432, R433). -/
def Chip.applyRecords (c : Chip) (fires : List FireLogRec) (changes : List ChangeRec) : Chip :=
  changes.foldl (fun c x => c.applyChange x) (fires.foldl (fun c x => c.applyLog x) c)

/-- A FIRE_LOG or CHANGE frame (R432, R433): applied by a standby that tracks, or is taking back (R445); kept by one that is
STALE, for the full firn that brings it back may be older (R429, R435; DEDUCED: log entry 82). Receipt is acknowledged. -/
def Chip.rxRecords (c : Chip) (f : FrameId) (fires : List FireLogRec) (changes : List ChangeRec) : Chip :=
  let r := c.rxFrame f 1
  let c := r.1
  if r.2 = false then c
  else if c.tracking ∨ c.tdmState = 6 then (c.applyRecords fires changes).sendAck
  else if c.tdmState = 5 then (c.setTdm { c.tdm with later := c.tdm.later ++ [(f.seq.toNat, fires, changes)] }).sendAck
  else c

/-- The records kept that a full firn does not reflect, applied after it (R435). -/
def Chip.applyLater (c : Chip) (logSeq : Nat) : Chip :=
  let due := c.tdm.later.filter fun (q : Nat × List FireLogRec × List ChangeRec) => decide (0 < idxDiff q.1 logSeq)
  due.foldl (fun (c : Chip) (q : Nat × List FireLogRec × List ChangeRec) => c.applyRecords q.2.1 q.2.2) (c.setTdm { c.tdm with later := [] })

/-- A mirrored block taken: its header is checked as R123 checks a BLOCK's, but for the descriptor. -/
def Chip.takeBlock (c : Chip) (bytes : List Byte) : Chip :=
  let hdr := bytes.take 32
  let head := leField hdr 7 1
  let slab := leField hdr 0x0C 4
  match c.layer? (leField hdr 8 4) with
  | some l =>
    if head < 48 ∧ inMask l.heads head ∧ c.headerFault l bytes.length head slab hdr = none then
      c.acceptBlock l head slab hdr (bytes.drop 32)
    else c
  | none => c

/-- A BLOCK frame: a registration, or a block for a registered layer, taken and acknowledged (R427); it wakes a standby
(R468). -/
def Chip.rxBlock (c : Chip) (m : MirrorFrame) : Chip :=
  let r := (c.on (decide (2 ≤ c.pstate)) fun c => c.wake 3).rxFrame m.frame 1
  let c := r.1
  if r.2 = false ∨ c.tracking = false then c
  else
    let c := match m.item with
      | .registration num bands heads =>
        if (c.layer? num.toNat).isSome then c else c.registerLayer num.toNat bands heads.toNat true
      | .block bytes => c.takeBlock bytes
    c.sendAck

/-- An entry's versions as a firn gives them (R203, R435). -/
def Ver.fromFirn (v : Ver) (m : FirnVer) : Ver :=
  { v with
    force := m.force.toNat
    band := m.band.map fun b => ⟨b.1.toNat, 0, true, b.2⟩
    arming := m.arming.map fun a => (a.toNat, 0) }

/-- The versions a firn carries (R203, R429). A band-end firn is taken while this cornice may stand at another band than the
owner's: the owner's changes come to it as CHANGE records, and of the tables it takes only what is in force at once, HSCORE
(R181, R433; DEDUCED: log entry 82). -/
def Chip.firnTables (c : Chip) (m : FirnMsg) : Chip :=
  let c := if m.kind.val = 3 then { c with nzt := [], sub := [], grey := [], runCounts := [] } else c
  let c := m.nzt.foldl (fun c e =>
    let v := c.nztVer e.1
    c.setNzt e.1 (if m.kind.val = 0 then { v with force := ntWithScore v.force (ntScore e.2.force.toNat) } else v.fromFirn e.2)) c
  let c := if m.kind.val = 0 then c else m.sub.foldl (fun c e => c.setSub e.1 ((c.subVer e.1).fromFirn e.2)) c
  let c := if m.kind.val = 0 then c else m.grey.foldl (fun c e =>
    c.setGrey (e.1 / 64) (e.1 % 64) ((c.greyVer (e.1 / 64) (e.1 % 64)).fromFirn e.2)) c
  let c := m.runs.foldl (fun (c : Chip) e => { c with runCounts := SMap.set 0 e.1 e.2 c.runCounts }) c
  let c := m.scores.foldl (fun c e =>
    let v := c.nztVer e.1
    c.setNzt e.1 { v with force := ntWithScore v.force e.2.toNat }) c
  if m.healLayer.toNat = 0xFFFFFFFF then c.showStage
  else ({ c with healEvaluated := some m.healLayer.toNat }.put Reg.HEL_LAST_LAYER_LAYER m.healLayer.toNat).showStage

/-- The accounts of a head as a firn gives them. -/
def Chip.firnHead (c : Chip) (band : Nat) (m : FirnHead) : Chip :=
  let h := m.head.val
  let c := c.setTdm { c.tdm with crcs := SMap.insert (65536 * h + band) (m.emitCrc.toNat, m.notCompared) (SMap.erase (65536 * h + band) c.tdm.crcs) }
  if c.inArmed h then
    let x := c.headRun h
    let next := (m.highestIssued.toNat + 1) % 2 ^ 32
    let known := SMap.get 0 h c.nextIndex
    let c := if known = 0 ∨ 0 < idxDiff next known then { c with nextIndex := SMap.set 0 h next c.nextIndex } else c
    let await := m.awaited.map fun k => Await.mk k.toNat 0 (c.clk + 1000 * c.get Reg.CRN_CALVE_TO_US) (c.clk + 20000) none
    ((c.setHead h { x with
      hwm := max x.hwm m.hwm
      lo := m.lo
      hi := m.hi
      await := await
      shots := x.shots.filter fun (s : Shot) => decide (0 < idxDiff s.index m.lastFired.toNat) }).followBands h).showHead h
  else c

/-- The lines of an entry of the owner's map that this one does not hold under the same head, cause and groups. -/
def Run.lacks (r : Run) (e : FirnEntry) : List (Int × Nat) :=
  let held := r.entries.filter fun (q : Crevasse) =>
    decide (q.head = e.head.val ∧ q.cause = e.cause.val ∧ q.firstGroup = e.firstGroup.toNat ∧ q.groups = e.groups.toNat)
  gapsIn e.first (e.first + e.count) (held.foldl (fun l (q : Crevasse) => addLines q.first q.count l) [])

/-- The owner's crevasse entries of the layer so far (R435): what the map lacks is entered, so that the layer report of a new
owner tells it. -/
def Chip.firnEntry (c : Chip) (e : FirnEntry) : Chip :=
  match c.run with
  | none => c
  | some r => (r.lacks e).foldl (fun c g =>
      if e.cause.val < 8 then c.enterLines e.head.val e.cause.val g.1 g.2
      else c.enterMap e.head.val e.cause.val e.firstGroup.toNat e.groups.toNat g.1 g.2) c

/-- One band comparison (R437). -/
def Chip.compareBand (c : Chip) (h b crc : Nat) (skip : Bool) : Chip :=
  let c := c.formTo h (min (1024 * (b + 1 : Nat)) (c.spanEnd h))
  let x := c.headRun h
  if skip ∨ x.notCompared.contains b then c
  else if SMap.get 0 b x.crcs = crc then
    (c.bump Reg.TDM_CRC_MATCH_COUNT 1).setTdm { c.tdm with matched := c.tdm.matched + 1 }
  else
    let c := (c.bump Reg.TDM_CRC_MISMATCH_COUNT 1).raise 214 0 [(1, h), (4, b)]
    (c.setTdm { c.tdm with mismatched := c.tdm.mismatched + 1 }).stale 4

/-- The comparisons of every band below a bound that the owner's firns have brought. -/
def Chip.compareBelow (c : Chip) (bound : Nat) : Chip :=
  let due := c.tdm.crcs.filter fun e => decide (e.1 % 65536 < bound)
  let c := c.setTdm { c.tdm with crcs := c.tdm.crcs.filter fun e => !decide (e.1 % 65536 < bound) }
  due.foldl (fun c e => if c.inArmed (e.1 / 65536) then c.compareBand (e.1 / 65536) (e.1 % 65536) e.2.1 e.2.2 else c) c

/-- The owner's layer has completed: the shadow's ends, and a standby that shadowed all of it is FIT (R430). -/
def Chip.shadowEnds (c : Chip) : Chip :=
  match c.armed with
  | none => c
  | some l =>
    let c := ((c.leaveLayer l).applyRest l.num).showNext
    let fit := c.tdm.whole && decide (c.tdmState = 3)
    let c := c.setTdm { c.tdm with whole := false, crcs := [] }
    if fit then (c.raise 210 0 []).becomeFit else c

/-- A full firn applied by a STALE standby: what it held of the build is discarded, and it is in SYNC (R429). -/
def Chip.resynced (c : Chip) : Chip :=
  if c.tdmState ≠ 5 then c
  else
    let c := (c.discardLayers).applyRest 0xFFFFFFFF
    (c.setTdm { c.tdm with whole := false, crcs := [], changes := [] }).setTdmState 3

/-- The estimator as a full firn gives it (R435). -/
def Chip.firnEst (c : Chip) (m : FirnMsg) : Chip :=
  { c with est := { c.est with back := m.estDir, ext := m.estExt, tExt := BitVec.ofNat 64 m.estTExt,
                               window := m.estWindow.map fun (w : Int × Nat) => (w.1, (w.2 : Int)), fitted := false } }.showEst

/-- A firn applied (R429, R434, R435, R437): axes, slots and rings as its heartbeat sections give them, where they are later than
the last heartbeat. One that brings a STALE standby back is followed by the records it does not
reflect. -/
def Chip.applyFirn (c : Chip) (m : FirnMsg) : Chip :=
  let full := decide (m.kind.val = 3)
  let back := decide (c.tdmState = 5)
  let c := if full then (c.resynced).firnEst m else c
  let c := (c.firnTables m).setTdm { (c.firnTables m).tdm with
    firnTaken := some m.seq.toNat
    last := c.tdm.last.map fun (q : HeartbeatMsg) =>
      if 0 < wrapDiff m.et q.et then { q with et := m.et, axes := m.axes, slots := m.slots, ringCi := m.ringCi } else q }
  let c := (c.put Reg.TDM_FIRN_SEQ m.seq.toNat).put Reg.TDM_FIRN_BYTES_BYTES m.length
  let mine := c.armed.isSome && decide (c.armedNum = m.layer.toNat)
  let c := if mine ∧ m.kind.val = 0 then
      let c := m.crevasse.foldl (fun c e => c.firnEntry e) c
      (m.heads.foldl (fun c x => c.firnHead m.band.toNat x) c).compareBelow (m.band.toNat - 1)
    else if mine ∧ m.kind.val = 1 then (c.compareBelow 65536).shadowEnds
    else c
  let c := if full then c.raise 222 0 [] else c
  if full && back then (c.applyLater m.logSeq.toNat).linkStale else c

/-- Whether a received firn is still to be applied: a standby that tracks, or a primary in TAKEBACK (R445), takes each; one that
is STALE a full one alone (R429). -/
def Chip.wantsFirn (c : Chip) (m : FirnMsg) : Bool :=
  c.tracking || decide (c.tdmState = 6) || (decide (c.tdmState = 5) && decide (m.kind.val = 3))

/-- R445 step 2: a primary in TAKEBACK that has applied everything outstanding claims, or gives up; which is free. -/
def Chip.goOn (c : Chip) : Chip :=
  if c.tdm.goWaits ∧ c.tdm.firns.isEmpty then
    let claims := Config.freeBool c.fresh
    let c := (c.drawn).setTdm { c.tdm with goWaits := false }
    if claims ∧ c.tdmState = 6 then
      let c := (c.gain 2 3).claimChanges
      c.setTdm { c.tdm with backing := c.flag Reg.TDM_STATUS_CLAIM_S_IN }
    else c
  else c

/-- Received firns whose pieces have all been decoded are applied, oldest first. -/
def Chip.applyFirns : Nat → Chip → Chip
  | 0, c => c
  | fuel + 1, c =>
    match c.tdm.firns with
    | q :: rest =>
      if q.2 = 0 then
        let c := c.setTdm { c.tdm with firns := rest }
        Chip.applyFirns fuel (if c.wantsFirn q.1 then c.applyFirn q.1 else c)
      else c
    | [] => c

/-- A piece of a received firn has been decompressed (R138), or has failed, which misses the firn (R428). -/
def Chip.firnPiece (c : Chip) (seq : Nat) (ok : Bool) : Chip :=
  let t := c.tdm
  if ok then
    let c := c.setTdm { t with firns := t.firns.map fun (q : FirnMsg × Nat) => if q.1.seq.toNat = seq then (q.1, q.2 - 1) else q }
    (Chip.applyFirns t.firns.length c).goOn
  else ((c.setTdm { t with firns := t.firns.filter fun (q : FirnMsg × Nat) => decide (q.1.seq.toNat ≠ seq) }).stale 5).goOn

/-- A FIRN, whole (R434): acknowledged, and its pieces queued for decompression (R138): in SYNC and FIT in its order; in STALE a
full one alone. -/
def Chip.rxFirn (c : Chip) (m : FirnMsg) : Chip :=
  let n := m.blocks.length
  let r := c.rxFrame m.frame n
  let c := r.1
  let full := decide (m.kind.val = 3)
  let next : Bool := match c.tdm.firnHeard with
    | none => true
    | some k => decide (m.seq.toNat = (k + 1) % 2 ^ 32)
  if r.2 = false then c
  else if c.tracking ∧ full = false ∧ next = false then c.stale 5
  else if c.wantsFirn m then
    let c := c.setTdm { c.tdm with firnHeard := some m.seq.toNat, firns := c.tdm.firns ++ [(m, n)] }
    (c.queueFirn m.seq.toNat m.blocks).sendAck
  else c

/-! ### Heartbeats received -/

/-- Whether the cause a standby is STALE for has cleared (R429). -/
def Chip.staleCleared (c : Chip) (m : HeartbeatMsg) : Bool :=
  match c.get Reg.TDM_STATUS_STALE_CAUSE with
  | 1 => decide (c.get Reg.TDM_STATUS_WIDTH ≠ 0)
  | 3 => decide (2 ≤ c.get Reg.TDM_STATUS_WIDTH)
  | 7 => decide (m.digest.toNat = c.digestNow)
  | _ => true

/-- RESYNC is sent once the cause has cleared (R429). -/
def Chip.askResync (c : Chip) (m : HeartbeatMsg) : Chip :=
  if c.tdmState = 5 ∧ c.tdm.resynced = false ∧ c.staleCleared m = true then
    (c.sendControl 0).setTdm { (c.sendControl 0).tdm with resynced := true }
  else c

/-- A standby takes its owner's heartbeat. -/
def Chip.hbFromOwner (c : Chip) (m : HeartbeatMsg) : Chip :=
  let c := c.putB Reg.TDM_STATUS_PARTNER_FIT m.partnerFit
  let c := if m.digest.toNat ≠ c.digestNow then c.stale 7 else c
  let c := if m.partnerFit = false then c.stale 6 else c
  c.askResync m

/-- An owner takes its partner's heartbeat. A partner declared unfit stays so until it resynchronises (R428, R429); while it does
not track, nothing waits (R427). -/
def Chip.hbFromStandby (c : Chip) (m : HeartbeatMsg) : Chip :=
  let shows := decide (m.state.val = 3 ∨ m.state.val = 4)
  let tracks := c.tdm.unfit.isNone && decide (m.state.val = 3 ∨ m.state.val = 4)
  let was := c.tracked
  let c := { c with tracked := tracks }.putB Reg.TDM_STATUS_PARTNER_FIT (tracks && decide (m.state.val = 4))
  let c := if c.flag Reg.TDM_STATUS_PRI then c else c.putB Reg.TDM_STATUS_TAKEBACK_REQ m.takebackReq
  let c := if tracks ∧ m.takebackReq then c else c.setTdm { c.tdm with hold := c.tdm.hold && c.tdm.goAt.isSome }
  if shows = false ∨ (was ∧ tracks = false ∧ c.tdm.unfit.isNone) then c.releaseAll else c

/-- A HEARTBEAT (R431). -/
def Chip.rxHeartbeat (c : Chip) (m : HeartbeatMsg) : Chip :=
  if c.inPair = false then c
  else
    let r := c.rxFrame m.frame 1
    let c := r.1
    if r.2 = false then c
    else
    let c := c.setTdm { c.tdm with last := some m, heard := c.clk, missTold := false }
    if m.fromOwner then (if c.owns then c else c.hbFromOwner m)
    else if c.owns then c.hbFromStandby m
    else c

/-- HEARTBEAT_SEND: every 100 µs (R431); completions of CMD descriptors now wait for its acknowledgement (R427). -/
def Chip.heartbeatSend (c : Chip) : Chip :=
  if c.inPair = false ∨ c.tdmState = 0 then c
  else
    let c := (c.advanceTo c.tdm.hbDue).widen
    let c := c.setTdm { c.tdm with hbDue := c.tdm.hbDue + 100000 }
    let c := c.sendFrame 1 0 c.hbBody
    let q := c.lastSeq
    let t := c.tdm
    let c := { c with mirrorWait := c.mirrorWait ++ t.hbWait.map fun (w : MirrorWait) => { w with seq := q } }
    ((c.setTdm { t with hbWait := [], unfitSeq := if t.unfit.isSome ∧ t.unfitSeq.isNone then some q else t.unfitSeq }).showWait).tryGo

/-- HEARTBEAT_TIMEOUT (R428, R444). -/
def Chip.heartbeatLost (c : Chip) : Chip :=
  if c.inPair = false ∨ c.tdm.missTold ∨ (c.tdmState ≠ 2 ∧ (c.tracking = false ∨ c.otherClaim = false)) then c
  else
    let c := c.advanceTo (c.tdm.heard + c.hbTo)
    let c := (c.setTdm { c.tdm with missTold := true }).raise 213 0 []
    if c.tdmState = 2 then c.declareUnfit 2 else c.stale 2

/-- The item that has waited longest for the partner. -/
def Chip.oldestWait (c : Chip) : Option MirrorWait := (c.mirrorWait ++ c.tdm.hbWait).head?

/-- ACK_WAIT_TIMEOUT (R428): an item has waited HB_TO_US; or HB_TO_US have passed since the partner was declared unfit, and
nothing waits any more. -/
def Chip.ackLost (c : Chip) : Chip :=
  match c.oldestWait, c.tdm.unfit with
  | none, _ => c
  | some _, some t => (c.advanceTo (t + c.hbTo)).releaseAll
  | some w, none => (c.advanceTo (w.since + c.hbTo)).declareUnfit 1

/-! ### Health (R438) -/

/-- The health report (R438). -/
def Chip.healthBytes (c : Chip) : List Byte :=
  let t := c.tdm
  let backlog := (c.jobs.filter fun j => decide (j.kind = 1)).length +
    (c.running.filter fun e => decide (e.job.kind = 1)).length + t.changes.length
  leBytes 1 2 ++ leBytes 1 c.tdmState ++ leBytes 1 (c.get Reg.TDM_STATUS_STALE_CAUSE) ++ leBytes 1 (c.get Reg.TDM_STATUS_WIDTH) ++
    leBytes 4 (t.firnTaken.getD 0) ++ leBytes 4 t.matched ++ leBytes 4 t.mismatched ++ leBytes 4 backlog ++ leBytes 12 0

/-- HEALTH_REPORT: once a second (R438). -/
def Chip.healthSend (c : Chip) : Chip :=
  if c.tracking = false ∧ c.tdmState ≠ 5 then c
  else
    let c := c.advanceTo c.tdm.healthDue
    let body := c.healthBytes
    let c := c.setTdm { c.tdm with matched := 0, mismatched := 0, healthDue := c.tdm.healthDue + 1000000000 }
    (c.queueState (c.get Reg.TDM_REPORT_PORT) (c.get Reg.TDM_REPORT_RING) 0x11 body).sendFrame 7 0 body

/-! ### Resynchronisation and take-back (R429, R445) -/

/-- A RESYNC: the full firn at once, or at the next layer completion. -/
def Chip.rxResync (c : Chip) : Chip :=
  let c := c.rxControl
  if c.tdmState ≠ 2 then c
  else
    let c := c.setTdm { c.tdm with unfit := none, unfitSeq := none }
    if c.run.isNone then c.takeFirn 3 0xFFFFFFFF else c.setTdm { c.tdm with fullWanted := true }

/-- TAKEBACK_GO (R445 step 2): a primary in FIT enters TAKEBACK and claims, or gives up; which is free. -/
def Chip.rxGo (c : Chip) : Chip :=
  let c := c.rxControl
  if c.tdmState ≠ 4 ∨ c.flag Reg.TDM_STATUS_PRI = false then c
  else
    let c := c.setTdmState 6
    (c.setTdm { c.tdm with goWaits := true }).goOn

/-- TAKEBACK_ABORT (R445 step 4). -/
def Chip.rxAbort (c : Chip) : Chip :=
  let c := c.rxControl
  if c.tdmState = 6 then (c.setTdm { c.tdm with goWaits := false }).becomeFit else c

/-- CLAIM_P is not asserted within 10 ms of GO (R445 step 4). -/
def Chip.goLost (c : Chip) : Chip :=
  match c.tdm.goAt with
  | none => c
  | some t =>
    let c := (c.advanceTo (t + 10000000)).sendControl 3
    (c.setTdm { c.tdm with hold := false, goAt := none }).raise 219 0 []

/-! ### Firns sent -/

/-- A firn's pieces sent, and its blocks queued for the host where FIRN_HOST asks for it (R137, R434). -/
def Chip.firnDone (c : Chip) (o : OutItem) : Chip :=
  let c := o.blocks.foldl (fun (c : Chip) (b : Nat × List Byte) => c.sendFrame 2 0 b.2) c
  if c.flag Reg.TDM_REPORT_FIRN_HOST then
    ({ c with stateItems := c.stateItems ++ [StateItem.mk o.insp.port o.insp.ring 0x10 (joinPieces (o.blocks.map fun (b : Nat × List Byte) => b.2))
      (!c.flag Reg.CFG_STATUS_COMMITTED) (2 + 4 * b2n o.noGain) []] }).stateHold
  else c

/-! ### The commands -/

/-- PIECE_COMPRESSED (R137, R138). -/
def execPieceCompressed (d : PieceEnd) (s : State) : Host.Outcome State Fault Refusal :=
  let c := s.toChip
  let c := match c.endingJob d.engine.val with
    | some x =>
      if x.job.kind = 1 then c
      else
        let k : Fin 5 := if x.job.kind = 3 then 4 else 0
        d.reads.foldl (fun (c : Chip) (e : RawRead) => c.dramError ⟨e.kind, e.off, 1, .region k⟩) c
    | none => c
  let r := c.pieceDone d.engine.val
  s.go <|
    match r.2 with
    | none => r.1
    | some o => if o.firn then r.1.firnDone o else r.1.inspDone o

/-- BLOCK_DECODED (R119, R129, R132, R138): errors met by the reads of the compressed block (R403, R404), and by the merges of
lines that are no whole units (R402). -/
def execBlockDecoded (e : Fin 8) (r : SlabRead) (s : State) : Host.Outcome State Fault Refusal :=
  let c := s.toChip
  s.go <|
    match c.endingJob e.val with
    | none => c
    | some x =>
      let j := x.job
      let c := r.reads.foldl (fun (c : Chip) (e : RawRead) => c.dramError ⟨e.kind, e.off, 1, .region 2⟩) c
      let f := c.jobEnds e.val (j.poisoned || r.reads.any fun e => !DramKind.correctable e.kind)
      let c := match f.2 with
        | none => f.1
        | some q => f.1.firnPiece q.1 q.2
      let wrote := j.ofBlock && decide (((c.layer? j.layer).map fun l => (l.slab j.head j.slab).valid) = some true)
      if wrote then
        r.merges.foldl (fun c e => c.mergeWrite (c.gOf j.head / 2)
          ⟨e.kind, 0, 1, .slabUnit (BitVec.ofNat 32 j.layer) (Fin.ofNat 48 j.head) j.slab e.line e.unit⟩)
          (c.touchSlab j.layer j.head j.slab)
      else c

/-- DICT_PARITY (R133). -/
def execDictParity (r : ParityRestart) (s : State) : Host.Outcome State Fault Refusal :=
  let f := s.toChip.parityError r.engine.val r.hold
  s.go <|
    match f.2 with
    | none => f.1
    | some q => f.1.firnPiece q false

/-- CLAIM_LINE_CHANGE (R415, R439). -/
def execClaimLineChange (lineP level : Bool) (s : State) : Host.Outcome State Fault Refusal :=
  let c := s.toChip
  s.go (c.claimLine lineP level |>.on (decide (c.pstate = 3)) fun c => c.wake 6)

/-- TAKEOVER_TLM_TIMEOUT (R440). -/
def execTakeoverTlmTimeout (h : Fin 48) (s : State) : Host.Outcome State Fault Refusal := s.go (s.toChip.takeOverdue h.val)

/-- TAKE (R439): TDM.CTRL written; RESYNC in the same word acts too. -/
def Chip.tdmCtrl (c : Chip) (v : Nat) : Chip :=
  let c := if bit v 0 then c.take else c
  if bit v 1 ∧ c.tdmState = 5 then c.sendControl 0 else c

/-- WATCHDOG (R416): the always-on island drops the claim. -/
def execWatchdog (s : State) : Host.Outcome State Fault Refusal :=
  let c := s.toChip
  s.go <|
    if c.flag Reg.TDM_STATUS_CLAIM_OUT then
      let c := (c.advance (1000 * c.get Reg.TDM_CFG_WDOG_US)).dropClaim
      { c with wdogLoss := true, island := { c.island with wdogDue := some (c.clk + 1000000) } }
    else c

/-- START_WAIT_END (R426). -/
def execStartWaitEnd (s : State) : Host.Outcome State Fault Refusal :=
  let c := s.toChip
  s.go <|
    match c.tdm.startDue with
    | some t => if c.tdmState = 1 then (c.advanceTo t).gain 2 1 else c
    | none => c

/-- HEARTBEAT_SEND (R431). -/
def execHeartbeatSend (s : State) : Host.Outcome State Fault Refusal := s.goIn 2 fun c => c.heartbeatSend

/-- HEARTBEAT (R431). -/
def execHeartbeat (m : HeartbeatMsg) (s : State) : Host.Outcome State Fault Refusal := s.go (s.toChip.rxHeartbeat m)

/-- HEARTBEAT_TIMEOUT (R428). -/
def execHeartbeatTimeout (s : State) : Host.Outcome State Fault Refusal := s.goIn 2 fun c => c.heartbeatLost

/-- ACK_WAIT_TIMEOUT (R428). -/
def execAckWaitTimeout (s : State) : Host.Outcome State Fault Refusal := s.goIn 2 fun c => c.ackLost

/-- FIRN (R434). -/
def execFirn (m : FirnMsg) (s : State) : Host.Outcome State Fault Refusal := s.go (s.toChip.rxFirn m)

/-- FIRN_IDLE (R434): every 100 ms while no layer is armed. -/
def execFirnIdle (s : State) : Host.Outcome State Fault Refusal :=
  let c := s.toChip
  s.go <|
    if c.tdmState = 2 ∧ c.run.isNone then
      let c := c.advanceTo c.tdm.idleDue
      (c.setTdm { c.tdm with idleDue := c.clk + 100000000 }).takeFirn 2 0xFFFFFFFF
    else c

/-- FIRE_LOG (R432). -/
def execFireLog (frame : FrameId) (recs : List FireLogRec) (s : State) : Host.Outcome State Fault Refusal :=
  s.go (s.toChip.rxRecords frame recs [])

/-- CHANGE (R433). -/
def execChange (frame : FrameId) (recs : List ChangeRec) (s : State) : Host.Outcome State Fault Refusal :=
  s.go (s.toChip.rxRecords frame [] recs)

/-- TANDEM_BLOCK (R427). -/
def execTandemBlock (m : MirrorFrame) (s : State) : Host.Outcome State Fault Refusal := s.go (s.toChip.rxBlock m)

/-- ACK (R427). -/
def execAck (m : AckMsg) (s : State) : Host.Outcome State Fault Refusal :=
  let r := s.toChip.rxFrame m.frame 1
  s.go (if r.2 then r.1.acked m.upTo.toNat else r.1)

/-- HEALTH (R428, R438). -/
def execHealth (m : HealthMsg) (s : State) : Host.Outcome State Fault Refusal :=
  let r := s.toChip.rxFrame m.frame 1
  s.go (if r.2 && m.mismatch then r.1.declareUnfit 3 else r.1)

/-- HEALTH_REPORT (R438). -/
def execHealthReport (s : State) : Host.Outcome State Fault Refusal := s.goIn 2 fun c => c.healthSend

/-- RESYNC (R429). -/
def execResync (s : State) : Host.Outcome State Fault Refusal := s.goIn 2 fun c => c.rxResync

/-- TAKEBACK_GO (R445). -/
def execTakebackGo (s : State) : Host.Outcome State Fault Refusal := s.goIn 2 fun c => c.rxGo

/-- TAKEBACK_ABORT (R445). -/
def execTakebackAbort (s : State) : Host.Outcome State Fault Refusal := s.goIn 2 fun c => c.rxAbort

/-- TAKEBACK_TIMEOUT (R445). -/
def execTakebackTimeout (s : State) : Host.Outcome State Fault Refusal := s.go s.toChip.goLost

/-- BOTH_CLAIMS (R446): for more than 1 µs, outside take-back. -/
def execBothClaims (s : State) : Host.Outcome State Fault Refusal :=
  let c := s.toChip
  s.go <|
    match c.tdm.bothSince with
    | some t => if c.tdmState = 6 ∨ c.tdm.goAt.isSome ∨ c.tdm.backing then c else (c.advanceTo (t + 1001)).raise 220 0 []
    | none => c

/-- TANDEM_LANE_LOSS (R421, R422). -/
def execTandemLaneLoss (k : Fin 5) (cause : TandemCause) (s : State) : Host.Outcome State Fault Refusal :=
  s.goIn 2 fun c => c.tandemLoss k.val cause

/-- TANDEM_LANE_RECOVERED (R422). -/
def execTandemLaneRecovered (k : Fin 5) (s : State) : Host.Outcome State Fault Refusal :=
  s.goIn 2 fun c => c.tandemGain k.val

end Sys2Proof.Machine
end

