-- ==== Sys2Proof/Machine/Clock.lean ====
section
/-! DEFINITION. Machine/Clock.lean: controller resets and what they keep (R460 to R462), the rail sequencer (R469 to R471),
the thermal monitor (R472), entry to and exit from the power states (R463 to R468), and the end of a quarantine (R459). -/

namespace Sys2Proof.Machine

/-! ### Rails (R469 to R471, R512) -/

/-- A change of the always-on island's own data. -/
def Chip.onIsland (c : Chip) (f : Island → Island) : Chip := { c with island := f c.island }

/-- An enable output changes. -/
def Chip.railOut (c : Chip) (step : Nat) (level : Bool) : Chip :=
  (c.putBit Reg.CKP_RAIL_STATUS_EN step level).emit (.rail step level)

/-- PG_TO_MS in nanoseconds. -/
def Chip.pgTo (c : Chip) : Nat := 1000000 * c.get Reg.CKP_SEQ_CFG_PG_TO_MS

/-- An enable is asserted, and its power-good awaited. -/
def Chip.railEnable (c : Chip) (step : Nat) : Chip :=
  (c.railOut step true).onIsland fun i => { i with phase := 1, step := step, due := c.clk + c.pgTo }

/-- The sequence starts, where the loader holds an image, the rails are down and nothing keeps them down. -/
def Chip.railsUp (c : Chip) : Chip :=
  let i := c.island
  if i.phase = 0 ∧ i.loaded ∧ i.retry = false ∧ i.thermHold = false ∧ i.vinOff = false ∧
      c.flag Reg.CKP_RAIL_STATUS_LOCKOUT = false then c.railEnable 0
  else c

/-- The rails are down: a retry is due 100 ms later where a fault asks for one. -/
def Chip.railsDown (c : Chip) : Chip :=
  (c.onIsland fun i => { i with phase := 0, retryDue := if i.retry then some (c.clk + 100000000) else none }).railsUp

/-- Enables below a step deasserted from the highest: each waits for the power-good before it to fall. -/
def Chip.railsOff (c : Chip) : Nat → Chip
  | 0 => c.railsDown
  | k + 1 =>
    let d := c.railOut k false
    if d.bitOf Reg.CKP_RAIL_STATUS_PG k then d.onIsland fun i => { i with phase := 4, step := k, due := d.clk + d.pgTo }
    else d.railsOff k

/-- The rails are brought down (R470), from the highest enable asserted. -/
def Chip.startDown (c : Chip) : Chip :=
  let top := (List.range 6).foldl (fun m k => if c.bitOf Reg.CKP_RAIL_STATUS_EN k then k + 1 else m) 0
  c.railsOff top

/-! ### Controller resets (R460 to R462) -/

/-- The register fields a controller reset leaves as they are: straps, sampled inputs, the STRIKE latch, the rail state, and
the sequencer's timing from the held image. -/
def resetKeeps : List Field :=
  [Reg.GLB_STRAPS_PRI, Reg.GLB_STRAPS_TDM_EN, Reg.GLB_STRAPS_SAFE_BOOT, Reg.GLB_REV_EXT_TEMP, Reg.TDM_STATUS_PRI,
   Reg.TDM_STATUS_CLAIM_P_IN, Reg.TDM_STATUS_CLAIM_S_IN, Reg.HED_GATE_STATUS_INPUTS, Reg.HED_GATE_STATUS_STRIKE_LATCH,
   Reg.CKP_RAIL_STATUS_EN, Reg.CKP_RAIL_STATUS_PG, Reg.CKP_RAIL_STATUS_FAIL_STEP, Reg.CKP_RAIL_STATUS_FAILS,
   Reg.CKP_RAIL_STATUS_LOCKOUT, Reg.CKP_SEQ_CFG_PG_TO_MS, Reg.CKP_SEQ_CFG_DWELL_US, Reg.CKP_RESET_CAUSE_CAUSE,
   Reg.CKP_RESET_CAUSE_COUNT]

/-- Outputs that a reset takes away (R416, R269). -/
def Chip.dropOutputs (c : Chip) : Chip :=
  let c := if c.flag Reg.TDM_STATUS_CLAIM_OUT then c.emit (.claim false) else c
  if c.get Reg.HED_GATE_STATUS_FE = 0 then c else c.emits ((List.range 4).map fun i => Output.fireEn i false)

/-- The state that a controller reset leaves: what R461 keeps, everything else at its reset value, and every crossing quarantined
(R459). -/
def Chip.cleared (c : Chip) : Chip :=
  let c := c.dropOutputs
  let i := c.island
  let n : Chip := { out := c.out, et := c.et, clk := c.clk, fresh := c.fresh, ledger := c.ledger, wdogLoss := c.wdogLoss }
  let n := resetKeeps.foldl (fun n f => n.put f (c.get f)) n
  let n := { n with tickBase := floorDiv n.longNs 1000 }
  let n := { n with island := { i with loaded := false, thermSeen := false, wdogDue := none, relAt := c.clk + 10000 } }
  let n := (List.range 25).foldl (fun (n : Chip) x => n.quarantine x 64) n
  let n := n.put Reg.CKP_THERM_CFG_WARN_C (if n.flag Reg.GLB_REV_EXT_TEMP then 105 else 90)
  ((n.putB Reg.HED_GATE_STATUS_VOTE n.gateVote).put Reg.HED_GATE_STATUS_COND_STOP n.condStop).oddAtRelease

/-- Whether a controller reset has begun in this cycle of the always-on island, of 40 ns: the reset ends 10 µs after it began. -/
def Chip.justReset (c : Chip) : Bool := decide (c.island.relAt ≤ c.clk + 10000 ∧ c.clk + 10000 < c.island.relAt + 40)

/-- A controller reset with a cause of R462; RAIL and THERMAL bring the rails down. Several sources in one always-on cycle are one
reset, of the lowest cause. -/
def Chip.resetWith (c : Chip) (cause : Nat) : Chip :=
  let again := c.justReset && decide (2 ≤ c.get Reg.CKP_RESET_CAUSE_CAUSE)
  let c := if again then c.put Reg.CKP_RESET_CAUSE_CAUSE (min (c.get Reg.CKP_RESET_CAUSE_CAUSE) cause)
    else (c.cleared.bump Reg.CKP_RESET_CAUSE_COUNT 1).put Reg.CKP_RESET_CAUSE_CAUSE cause
  if cause = 6 ∨ cause = 7 then c.startDown else c

/-- An event that waits for the next start-up. -/
def Chip.tellLater (c : Chip) (src cause : Nat) (items : List (Nat × Nat)) : Chip :=
  c.onIsland fun i => { i with bootEvents := i.bootEvents ++ [(src, cause, items)] }

/-- The straps sampled at reset release (R509). -/
def Chip.sampleStraps (c : Chip) (x : Straps) : Chip :=
  let c := (c.putB Reg.GLB_STRAPS_PRI x.pri).putB Reg.GLB_STRAPS_TDM_EN x.tdmEn
  let c := (c.putB Reg.GLB_STRAPS_SAFE_BOOT x.safeBoot).putB Reg.GLB_REV_EXT_TEMP x.ext
  (c.putB Reg.TDM_STATUS_PRI x.pri).put Reg.CKP_THERM_CFG_WARN_C (if x.ext then 105 else 90)

/-- RESET_N (R462): it also ends a lockout of the rails (R471). -/
def Chip.resetPin (c : Chip) (x : Straps) : Chip :=
  let c := (c.resetWith 2).sampleStraps x
  let c := c.onIsland fun i => { i with retry := false, retryDue := none }
  (c.put Reg.CKP_RAIL_STATUS_LOCKOUT 0).put Reg.CKP_RAIL_STATUS_FAILS 0

/-- Power-on reset: everything, always-on included; ET starts from 0, the flash and the levels of the inputs stay. -/
def Chip.powerOn (c : Chip) (x : Straps) : Chip :=
  let ons := (List.range 6).filter fun k => c.bitOf Reg.CKP_RAIL_STATUS_EN (5 - k)
  let c := c.dropOutputs.emits (ons.map fun k => Output.rail (5 - k) false)
  let n : Chip := { out := c.out, clk := c.clk, fresh := c.fresh, ledger := c.ledger }
  let keep := [Reg.TDM_STATUS_CLAIM_P_IN, Reg.TDM_STATUS_CLAIM_S_IN, Reg.HED_GATE_STATUS_INPUTS, Reg.CKP_RAIL_STATUS_PG]
  let n := (keep.foldl (fun n f => n.put f (c.get f)) n).sampleStraps x
  let n := n.onIsland fun i => { i with relAt := c.clk, thermDue := c.clk + 1000000 }
  ((n.putB Reg.HED_GATE_STATUS_VOTE n.gateVote).put Reg.HED_GATE_STATUS_COND_STOP n.condStop).oddAtRelease

/-- A write of CKP.CTRL (R462): any other KEY is discarded. -/
def Chip.ckpCtrl (c : Chip) (v : Nat) : Chip := if bit v 0 ∧ bits v 8 8 = 0xA5 then c.resetWith 3 else c

/-- A rail fault (R471): 0 a timeout, 1 a fall. -/
def Chip.railFault (c : Chip) (step how : Nat) : Chip :=
  let n := c.get Reg.CKP_RAIL_STATUS_FAILS + 1
  let c := (c.put Reg.CKP_RAIL_STATUS_FAIL_STEP step).put Reg.CKP_RAIL_STATUS_FAILS (min 3 n)
  let c := c.putB Reg.CKP_RAIL_STATUS_LOCKOUT (decide (3 ≤ n))
  let c := c.onIsland fun i => { i with retry := decide (n < 3), retryDue := none }
  (c.tellLater 243 0 [(1, step), (1, how)]).resetWith 6

/-- A power-good input changes (R470, R471); the fall of VDD_CORE's drops the claim at once (R416). -/
def Chip.powerGood (c : Chip) (step : Nat) (level : Bool) : Chip :=
  let c := c.putBit Reg.CKP_RAIL_STATUS_PG step level
  let i := c.island
  if level then
    if i.phase = 1 ∧ i.step = step then
      if i.due < c.clk then c.railFault step 0
      else c.onIsland fun i => { i with phase := 2, due := c.clk + 1000 * c.get Reg.CKP_SEQ_CFG_DWELL_US }
    else c
  else
    let c := c.on (decide (step = 2) && c.flag Reg.TDM_STATUS_CLAIM_OUT) fun c => c.dropClaim
    if i.phase = 4 ∧ i.step = step then c.railsOff step
    else if i.phase = 3 then c.railFault step 1
    else c

/-- DWELL_US has passed: the next enable, or the rails are up (R470). -/
def Chip.railDwell (c : Chip) : Chip :=
  let i := c.island
  if i.phase ≠ 2 then c
  else
    let c := c.advanceTo i.due
    if i.step < 5 then c.railEnable (i.step + 1)
    else (c.onIsland fun i => { i with phase := 3 }).put Reg.CKP_RAIL_STATUS_FAILS 0

/-- PG_TO_MS has passed (R470, R471). -/
def Chip.railTimeout (c : Chip) : Chip :=
  let i := c.island
  if i.phase = 1 then (c.advanceTo i.due).railFault i.step 0
  else if i.phase = 4 then (c.advanceTo i.due).railsOff i.step
  else c

/-- The retry of R471. -/
def Chip.railRetry (c : Chip) : Chip :=
  match c.island.retryDue with
  | none => c
  | some t => ((c.advanceTo t).onIsland fun i => { i with retry := false, retryDue := none }).railsUp

/-! ### Temperature (R472) -/

/-- The warning follows a reading, with hysteresis of 5 °C; it wakes a controller in P3 (R468). -/
def Chip.thermalWarn (c : Chip) (t : Int) (code : Nat) : Chip :=
  let w : Int := 16 * c.get Reg.CKP_THERM_CFG_WARN_C
  if c.flag Reg.CKP_STATUS_TEMP_WARN then
    if t ≤ w - 80 then (c.put Reg.CKP_STATUS_TEMP_WARN 0).raise 244 0 [(2, code)] else c
  else if w ≤ t then
    ((c.put Reg.CKP_STATUS_TEMP_WARN 1).raise 244 0 [(2, code)]).on (decide (c.pstate = 3)) fun c => c.wake 7
  else c

/-- A reading of the junction temperature, in sixteenths of a degree: each 1 ms. -/
def Chip.thermal (c : Chip) (code : Nat) : Chip :=
  let c := c.advanceTo c.island.thermDue
  let t := signed 16 code
  let top := if c.island.thermSeen then max t (c.getI Reg.CKP_TEMP_MAX) else t
  let c := (c.putI Reg.CKP_TEMP_TJ t).putI Reg.CKP_TEMP_MAX top
  let c := c.onIsland fun i => { i with thermDue := c.clk + 1000000, thermSeen := true }
  if 2000 ≤ t then
    if c.island.thermHold then c
    else (((c.thermalWarn t code).onIsland fun i => { i with thermHold := true }).tellLater 245 0 []).resetWith 7
  else
    let c := c.thermalWarn t code
    if c.island.thermHold ∧ t < 1600 then (c.onIsland fun i => { i with thermHold := false }).railsUp else c

/-! ### Entry and exit of power states (R463 to R468) -/

/-- What stops on entry to P2 or a deeper state: head lanes rest at electrical idle (R464). -/
def Chip.stopP2 (c : Chip) : Chip :=
  let c := if c.selfRefresh then c else c.dramSleep
  let c := (List.range 48).foldl (fun (c : Chip) n => c.laneRests n) c
  ((c.camPowerOff).refreshFrozen).driveFire

/-- What stops on entry to P3: lanes OFF, network ports down, the servo in HOLDOVER (R464, R465). -/
def Chip.stopP3 (c : Chip) : Chip :=
  let c := if c.flag Reg.TDM_STATUS_CLAIM_OUT then c.dropClaim else c
  let c := (List.range 48).foldl (fun c n => if c.laneState n = 0 then c else c.laneDisable n) c
  let c := if c.get Reg.ETM_STATUS_STATE = 0 then c else c.enterHoldover 3
  (List.range 2).foldl (fun c q => if c.flag (Reg.ENET_STATUS_LINK q) then c.ethLink q false false false else c) c

/-- A change of state: STATE_CHG, and EV240 with the wake cause (0 on an entry). -/
def Chip.setPstate (c : Chip) (st cause : Nat) : Chip :=
  let was := c.pstate
  ((c.put Reg.CKP_STATUS_PSTATE st).put Reg.CKP_STATUS_STATE_CHG 1).raise 240 cause [(1, was), (1, st)]

/-- The controller enters a deeper state. -/
def Chip.enterState (c : Chip) (st : Nat) : Chip :=
  let c := c.setPstate st 0
  let c := if 2 ≤ st then c.stopP2 else c
  (if st = 3 then c.stopP3 else c).showLoop

/-- R466: P1 is entered as soon as it is the target, P2 and P3 after ENTRY_US in which the target stayed. -/
def Chip.entryDue (c : Chip) : Chip :=
  if c.target ≤ c.pstate ∨ c.power.exit.isSome then c
  else if c.target = 1 then c.enterState 1
  else
    let c := c.advance (1000 * c.get Reg.CKP_PSTATE_CFG_ENTRY_US)
    c.enterState c.target

/-- An exit completes: what the state stopped works again. -/
def Chip.leaveState (c : Chip) (st due : Nat) : Chip :=
  let old := c.pstate
  let was := c
  let c := { c.advanceTo due with power := { c.power with exit := none } }
  let c := (c.setPstate st (c.get Reg.CKP_WAKE_CAUSE)).bump Reg.CKP_WAKE_EXITS 1
  let c := if old = 3 then
      let c := { c with heldVectors := [] }.emits (c.heldVectors.map fun (v : Nat × Nat) => Output.msix v.1 v.2)
      (List.range 48).foldl (fun c n => if c.flag (Reg.THL_LANE_CFG_ENABLE n) then c.laneEnable n else c) (c.stale 5)
    else c
  let c := if old = 2 ∧ st < 2 then (List.range 48).foldl (fun (c : Chip) n => c.laneLines n) c else c
  let c := if 2 ≤ old ∧ st < 2 then
      ((c.dramWake.putB Reg.CAM_STATUS_RUNNING (c.flag Reg.DRC_STATUS_INIT_DONE)).refreshFrozen).driveFire
    else c
  c.showLoop.on (decide (old = 3)) fun c => (c.showBalls was 0).showBalls was 1

/-- POWER_STATE_EXIT: the exit in progress completes; one that a change of the conditions of R467 calls for starts and
completes. -/
def Chip.exitDue (c : Chip) : Chip :=
  let c := if c.power.exit.isNone then c.startExit c.target 8 else c
  match c.power.exit with
  | some e => c.leaveState e.1 e.2
  | none => c

/-- A host access in P3 completes only after the exit (R468). -/
def Chip.accessWake (c : Chip) : Chip := if c.pstate = 3 then (c.wake 2).exitDue else c

/-- A write of CKP.LTR_A (0) or CKP.LTR_B (1): an exit starts at once, and so does an entry to P1 (R466). -/
def Chip.ltrWrite (c : Chip) (which v : Nat) : Chip :=
  let c := (c.put (if which = 0 then Reg.CKP_LTR_A_NS else Reg.CKP_LTR_B_NS) v).retarget 4
  if c.target = 1 ∧ c.pstate = 0 ∧ c.power.exit.isNone then c.enterState 1 else c

/-! ### Quarantine (R459) -/

/-- One side of a quarantined crossing is still in reset. -/
def Chip.sideReset (c : Chip) (x inst : Nat) : Bool :=
  if x = 10 ∨ x = 11 then decide (c.laneState inst = 0)
  else if x = 13 ∨ x = 14 then !c.flag (Reg.CAM_PORT_CFG_ENABLE inst)
  else if x = 15 ∨ x = 16 then decide (c.get (Reg.HIF_STATUS_SPEED inst) = 0)
  else if x = 18 then !c.flag (Reg.ENET_STATUS_BLOCK_LOCK inst)
  else false

/-- A crossing's instance leaves quarantine, 200 ns at most after both sides are out of reset. -/
def Chip.quarantineEnd (c : Chip) (x inst : Nat) : Chip :=
  if c.sideReset x inst then c else c.endQuarantine x inst

/-! ### The commands -/

/-- PLL_LOCK_LOSS (R449). -/
def execPllLockLoss (pll : Fin 5) (s : State) : Host.Outcome State Fault Refusal :=
  s.go ((s.toChip.tellLater 242 0 [(1, pll.val)]).resetWith 5)

/-- QUARANTINE_END (R459). -/
def execQuarantineEnd (x : Fin 25) (inst : BitVec 6) (s : State) : Host.Outcome State Fault Refusal :=
  s.go (s.toChip.quarantineEnd x.val inst.toNat)

/-- CONTROLLER_RESET (R460): by a source of R462 that the command does not name, so its cause is a free value among 2 to 7. -/
def execControllerReset (s : State) : Host.Outcome State Fault Refusal :=
  let c := s.toChip
  s.go (c.drawn.resetWith (2 + Config.freeNat c.fresh % 6))

/-- RESET_N (R462). -/
def execResetN (straps : Straps) (s : State) : Host.Outcome State Fault Refusal := s.go (s.toChip.resetPin straps)

/-- POR (R462). -/
def execPor (straps : Straps) (s : State) : Host.Outcome State Fault Refusal := s.go (s.toChip.powerOn straps)

/-- WATCHDOG_RESET (R462): 1 ms after the expiry. -/
def execWatchdogReset (s : State) : Host.Outcome State Fault Refusal :=
  let c := s.toChip
  s.go <|
    match c.island.wdogDue with
    | some t => (c.advanceTo t).resetWith 4
    | none => c

/-- POWER_STATE_ENTRY (R466). -/
def execPowerStateEntry (s : State) : Host.Outcome State Fault Refusal := s.go s.toChip.entryDue

/-- The code of a wake cause (CKP.WAKE). -/
def wakeCode : WakeCause → Nat
  | .doorbell => 1
  | .access => 2
  | .tandem => 3
  | .ltr => 4
  | .gate => 5
  | .claim => 6
  | .thermal => 7
  | .request => 8

/-- WAKE_EVENT (R468). -/
def execWakeEvent (cause : WakeCause) (s : State) : Host.Outcome State Fault Refusal :=
  s.go (s.toChip.wake (wakeCode cause))

/-- POWER_STATE_EXIT (R463). -/
def execPowerStateExit (s : State) : Host.Outcome State Fault Refusal := s.go s.toChip.exitDue

/-- RAIL_POWER_GOOD (R470). -/
def execRailPowerGood (step : Fin 6) (level : Bool) (s : State) : Host.Outcome State Fault Refusal :=
  s.go (s.toChip.powerGood step.val level)

/-- RAIL_STEP_DWELL (R470). -/
def execRailStepDwell (s : State) : Host.Outcome State Fault Refusal := s.go s.toChip.railDwell

/-- RAIL_PG_TIMEOUT (R471). -/
def execRailPgTimeout (s : State) : Host.Outcome State Fault Refusal := s.go s.toChip.railTimeout

/-- RAIL_RETRY (R471). -/
def execRailRetry (s : State) : Host.Outcome State Fault Refusal := s.go s.toChip.railRetry

/-- THERMAL_READING (R472). -/
def execThermalReading (tj : BitVec 16) (s : State) : Host.Outcome State Fault Refusal := s.go (s.toChip.thermal tj.toNat)

/-- VIN_LOSS (R470, R512). -/
def execVinLoss (s : State) : Host.Outcome State Fault Refusal :=
  s.go ((s.toChip.onIsland fun i => { i with vinOff := true, retry := false, retryDue := none }).startDown)

/-- LANE_PLL_UNLOCK (R449): every lane in LINKED or READY loses lock on whichever of CODE_ERR, COMMA_SHIFT, NO_FILL and
ELASTIC its receiver meets first, a free value. -/
def execLanePllUnlock (s : State) : Host.Outcome State Fault Refusal :=
  let c := ((s.toChip.put Reg.PHY_REF_STATUS_PLL_LOCK 0).put Reg.PHY_REF_STATUS_UNLOCKED 1).put Reg.CKP_STATUS_PLL_UNLOCKED 1
  s.go ((List.range 48).foldl (fun (c : Chip) n =>
    if c.laneUp n then c.drawn.loseLock n (2 + Config.freeNat c.fresh % 4) else c) c)

/-- AER_ERROR (R116). -/
def execAerError (_p : Port) (uncorrectable : Bool) (s : State) : Host.Outcome State Fault Refusal :=
  s.go (s.toChip.raise (if uncorrectable then 13 else 12) 0 [])

/-- ULTRA_LOW_POWER_ENTRY (R459): the port's receiver side resets, and X13 and X14 of it are quarantined. -/
def execUltraLowPowerEntry (port : Fin 4) (s : State) : Host.Outcome State Fault Refusal :=
  let p := port.val
  let c := (s.toChip.put (Reg.CAM_PORT_STATUS_CLK_ACTIVE p) 0).put (Reg.CAM_PORT_STATUS_SYNC p) 0
  s.go (((c.putBit Reg.CAM_STATUS_PORT_UP p false).flushQueue 13 p none).quarantine 14 p)

end Sys2Proof.Machine
end

