-- ==== Sys2Proof/Machine/Conf.lean ====
section
/-! DEFINITION. Machine/Conf.lean: the configuration flash and its image (R474 to R480), the moraine scan and its flash
(R486 to R488, R210), start-up (R489, R490), and the commit: its checks, static ownership, digest and effect (R481 to R485). -/

namespace Sys2Proof.Machine

/-- A change of the loader's and the flash's own data. -/
def Chip.onConf (c : Chip) (f : Conf → Conf) : Chip := { c with conf := f c.conf }

/-! ### Images (R475 to R477) -/

/-- Some of the image's bytes are 0. -/
def zeroBytes (bs : List Byte) (pos n : Nat) : Bool := ((bs.drop pos).take n).all fun b => decide (b = 0)

/-- LENGTH of an image. -/
def imageLength (bs : List Byte) : Nat := leField bs 0x0C 4

/-- SEQ of an image. -/
def imageSeq (bs : List Byte) : Nat := leField bs 8 4

/-- HEADER (R477). -/
def headerOk (bs : List Byte) : Bool :=
  let n := imageLength bs
  decide (64 ≤ bs.length) && decide (leField bs 0 4 = 0x47464E43) && decide (leField bs 4 1 = 1) &&
    decide (leField bs 5 1 < 2) && zeroBytes bs 6 2 && zeroBytes bs 0x30 12 && decide (64 ≤ n) && decide (n ≤ 64 + 8 * 6136) &&
    decide (n % 8 = 0) && decide (n ≤ bs.length)

/-- The records of an image, as (OFFSET, VALUE). -/
def imageRecords (bs : List Byte) : List (Nat × Nat) :=
  (List.range ((imageLength bs - 64) / 8)).map fun k => (leField bs (64 + 8 * k) 4, leField bs (68 + 8 * k) 4)

/-- The image fields of a register (R20, R476). -/
def imageFields (off : Nat) : List FieldSpec := (fieldsAt off).filter (·.image)

/-- The bits of a register's image fields. -/
def imageMask (off : Nat) : Nat := (imageFields off).foldl (fun m f => m + (2 ^ f.width - 1) * 2 ^ f.lo) 0

/-- The loader-formed registers (R476). -/
def loaderFormed : List Nat := [0x220008, 0x22000C, 0x220010, 0x60424, 0x60428, 0xE2030, 0xE2034]

/-- RECORD (R477): a record names a register with an image field that the loader does not form, and no other bit. -/
def recordOk (r : Nat × Nat) : Bool :=
  decide (r.1 % 4 = 0) && !(imageFields r.1).isEmpty && !loaderFormed.contains r.1 &&
    decide (r.2 &&& imageMask r.1 = r.2)

/-- R477: the first check that a slot's content fails; 0 where it is valid. -/
def imageCause : Option (List Byte) → Nat
  | none => 1
  | some bs =>
    if headerOk bs = false then 2
    else if crc32 (bs.take 0x3C) ≠ leField bs 0x3C 4 then 3
    else if sha256 ((bs.take (imageLength bs)).drop 0x40) ≠ (bs.drop 0x10).take 32 then 4
    else if (imageRecords bs).all recordOk = false then 5
    else 0

/-- A record put into its register's image fields, each stored within its limits. -/
def Chip.loadRecord (c : Chip) (r : Nat × Nat) : Chip :=
  (imageFields r.1).foldl (fun c f => c.put (f.at r.1) (f.value r.2)) c

/-- The slot that R478 loads: 1 A, 2 B, 0 none. -/
def chooseSlot (validA validB : Bool) (seqA seqB : Nat) : Nat :=
  if validA && validB then (if later (BitVec.ofNat 32 seqB) (BitVec.ofNat 32 seqA) then 2 else 1)
  else if validA then 1 else if validB then 2 else 0

/-- A slot as last checked, in CFG.SLOT_x_SEQ and CFG.SLOT_CAUSE, and whether it is valid. -/
def Chip.slotChecked (c : Chip) (b : Bool) (seq cause : Nat) : Chip :=
  let c := (c.put (if b then Reg.CFG_SLOT_B_SEQ_SEQ else Reg.CFG_SLOT_A_SEQ_SEQ) (if cause = 0 then seq else 0)).put
    (if b then Reg.CFG_SLOT_CAUSE_B else Reg.CFG_SLOT_CAUSE_A) cause
  c.onConf fun x => if b then { x with validB := decide (cause = 0) } else { x with validA := decide (cause = 0) }

/-- One slot read and checked at start-up; EV248 for an invalid one. -/
def Chip.checkSlot (c : Chip) (b : Bool) (content : Option (List Byte)) : Chip :=
  let cause := imageCause content
  let c := c.slotChecked b (imageSeq (content.getD [])) cause
  c.raiseIf (decide (cause ≠ 0)) 248 cause [(1, b2n b)]

/-- The chosen image loaded, or none. -/
def Chip.loadImage (c : Chip) (slot : Nat) (bs : List Byte) : Chip :=
  let c := (c.put Reg.CFG_SUBSYS_SVID 0x1E5A).put Reg.CFG_SUBSYS_SSID 0x0196
  let c := (c.put Reg.CKP_SEQ_CFG_PG_TO_MS 0).put Reg.CKP_SEQ_CFG_DWELL_US 0
  if slot = 0 then (c.put Reg.CFG_STATUS_DEFAULTS 1).raise 249 0 []
  else
    let c := (imageRecords bs).foldl (fun c r => c.loadRecord r) c
    let c := (c.showLatency 0).showLatency 1
    (c.put Reg.CFG_STATUS_SLOT slot).putB Reg.CFG_STATUS_AUTO (bit (leField bs 5 1) 0)

/-- IMAGE_LOAD (R478): the loader holds an image, and the rails may come up. -/
def Chip.imageLoad (c : Chip) (slotA slotB : Option (List Byte)) : Chip :=
  if c.island.loaded then c
  else
    let safe := c.flag Reg.GLB_STRAPS_SAFE_BOOT
    let c := if safe then c else (c.checkSlot false slotA).checkSlot true slotB
    let slot := if safe then 0
      else chooseSlot c.conf.validA c.conf.validB (c.get Reg.CFG_SLOT_A_SEQ_SEQ) (c.get Reg.CFG_SLOT_B_SEQ_SEQ)
    let c := c.loadImage slot ((if slot = 2 then slotB else slotA).getD [])
    (c.onIsland fun i => { i with loaded := true }).railsUp

/-! ### The moraine copies (R486, R487, R207, R409) -/

/-- Every byte is 0xFF. -/
def erased (bs : List Byte) : Bool := bs.all fun b => decide (b = 0xFF)

/-- A record is good in a copy: its check word matches and its SEQ is later than that of the last good record. -/
def recGood (entry : List Byte) (chk : Word) (last : Option Nat) : Bool :=
  decide (crc32 entry = chk.toNat) && (match last with
    | none => true
    | some q => later (BitVec.ofNat 32 (leField entry 4 4)) (BitVec.ofNat 32 q))

/-- A SPARE_ROW record replayed (R207). -/
def Chip.replayRow (c : Chip) (row j : Nat) : Chip :=
  let c := match c.spareOf row with
    | some k => c.put (Reg.CRN_SPARE_RETIRED k) 1
    | none => c
  let c := (c.put (Reg.CRN_SPARE_ROW j) row).put (Reg.CRN_SPARE_USED j) 1
  c.put Reg.CRN_NZT_ECC_SPARES_USED (c.get Reg.CRN_NZT_ECC_SPARES_USED + 1)

/-- A SPARE_RANK record acted on (R409): the last one that names a rank decides. -/
def Chip.replayRank (c : Chip) (object detail : Nat) : Chip :=
  { c with rankRecs := SMap.set 0 (4 * (object / 256 % 2) + object % 4) (detail + 1) c.rankRecs }

/-- What the loader does with a record it takes. -/
def Chip.takeRecord (c : Chip) (entry : List Byte) : Chip :=
  let c := { c with ledger := c.ledger ++ [entry] }.put Reg.CRN_MORAINE_SEQ_NEXT (leField entry 4 4 + 1)
  let object := leField entry 0x18 4
  let detail := leField entry 0x1C 4
  if leField entry 0 1 = 4 then c.replayRow object (detail % 256)
  else if leField entry 0 1 = 5 then c.replayRank object detail
  else c

/-- Positions scanned from one on, until one that is erased in both copies. -/
def Chip.scanFrom (c : Chip) (last : Option Nat) (k : Nat) : List LedgerPos → Chip
  | [] => c
  | p :: ps =>
    if erased p.rec0 && erased p.rec1 && decide (p.chk0 = 0xFFFFFFFF) && decide (p.chk1 = 0xFFFFFFFF) then c
    else
      let g0 := recGood p.rec0 p.chk0 last
      let g1 := recGood p.rec1 p.chk1 last
      if g0 || g1 then
        let entry := if g0 then p.rec0 else p.rec1
        let c := if g0 && g1 then c.raiseIf (decide (p.rec0 ≠ p.rec1)) 254 0 [(4, k)]
          else (c.bump Reg.CFG_LEDGER_DEGRADED 1).raise 254 0 [(4, k)]
        (c.takeRecord entry).scanFrom (some (leField entry 4 4)) (k + 1) ps
      else
        let c := ({ c with ledgerTorn := c.ledgerTorn + 1 }.bump Reg.CFG_LEDGER_TORN 1).raise 254 0 [(4, k)]
        c.scanFrom last (k + 1) ps

/-- Positions of the ledger in use. -/
def Chip.ledgerUsed (c : Chip) : Nat := c.ledger.length + c.ledgerTorn

/-- CRN.MORAINE_STATUS follows the ledger. FULL is 1 as soon as the copy holds 32,768 positions in use, for R210 calls such a copy
full; EV052 comes with the first record that no longer fits (DESIGN CHOICE: log entry 92). -/
def Chip.showLedger (c : Chip) : Chip :=
  let c := (c.put Reg.CRN_MORAINE_STATUS_RECORDS c.ledger.length).put Reg.CRN_MORAINE_STATUS_UNWRITTEN (min c.ledgerPend.length 255)
  c.putB Reg.CRN_MORAINE_STATUS_FULL (c.ledgerFull || decide (32768 ≤ c.ledgerUsed))

/-- Every crossing that a controller reset quarantined leaves quarantine, 200 ns at most after the core's reset is released (R459). -/
def Chip.openCrossings (c : Chip) : Chip := (List.range 25).foldl (fun (c : Chip) x => c.endQuarantine x 64) c

/-- MORAINE_SCAN (R487, R489): with the rails up and the PLLs locked. The core then leaves reset: V is taken as rising
(R268), GPIO outputs go to their levels, and lanes with ENABLE set search. -/
def Chip.moraineScan (c : Chip) (ps : List LedgerPos) : Chip :=
  if c.island.phase ≠ 3 ∨ c.island.loaded = false ∨ c.conf.scanned then c
  else
    let c := (c.put Reg.CKP_STATUS_PLL_LOCK 31).put Reg.PHY_REF_STATUS_PLL_LOCK 1
    let c := { c with ledger := [], ledgerTorn := 0, rankRecs := [] }
    let c := ((c.scanFrom none 0 (ps.take 32768)).showLedger).onConf fun x => { x with scanned := true }
    let c := c.openCrossings.put Reg.CRN_STATUS_GATED 1
    let c := if c.gateVote then c.voteRise else c
    let c := (c.showBalls {} 0).showBalls {} 1
    (List.range 48).foldl (fun c n => if c.flag (Reg.THL_LANE_CFG_ENABLE n) then c.laneEnable n else c) c

/-- R486: a record programmed at a position: record and check word of copy 0, then of copy 1, each read back. -/
def ledgerOps (pos : Nat) (entry : List Byte) : List Output :=
  let chk := leBytes 4 (crc32 entry)
  let op := fun (addr : Nat) (bs : List Byte) => [Output.flash 1 addr bs, Output.flash 2 addr bs]
  op (0x100000 + 32 * pos) entry ++ op (0x200000 + 4 * pos) chk ++ op (0x300000 + 32 * pos) entry ++ op (0x400000 + 4 * pos) chk

/-- MORAINE_FLASH_WRITE (R210): the oldest record not in flash is written, while it fits and no erase runs. -/
def Chip.flashRecord (c : Chip) : Chip :=
  match c.ledgerPend with
  | [] => c
  | r :: rest =>
    if c.conf.erasing ∨ 32768 ≤ c.ledgerUsed then c
    else
      let c := { c.emits (ledgerOps c.ledgerUsed r) with ledger := c.ledger ++ [r], ledgerPend := rest }
      (c.showLedger).raiseIf (decide (c.ledger.length = 30720)) 51 0 []

/-- A record with another SEQ. -/
def renumber (k : Nat) (r : List Byte) : List Byte := r.take 4 ++ leBytes 4 k ++ r.drop 8

/-- LEDGER_ERASE_DONE (R488): the series begins again at 0, with the records held. -/
def Chip.ledgerErased (c : Chip) : Chip :=
  if c.conf.erasing = false then c
  else
    let held := ((List.range c.ledgerPend.length).zip c.ledgerPend).map fun e => renumber e.1 e.2
    let c := { c with ledger := held, ledgerPend := [], ledgerTorn := 0, ledgerFull := false }
    let c := c.emits (((List.range held.length).zip held).flatMap fun e => ledgerOps e.1 e.2)
    let c := c.onConf fun x => { x with erasing := false }
    let c := (c.put Reg.CRN_MORAINE_SEQ_NEXT held.length).putB Reg.CFG_STATUS_FLASH_BUSY c.conf.writing.isSome
    c.showLedger

/-! ### Ready (R489, R490) -/

/-- The events told at start-up: those that waited, and the reset's own (R462, R471 to R473). -/
def Chip.tellStart (c : Chip) : Chip :=
  let waiting := c.island.bootEvents
  let c := waiting.foldl (fun c e => c.raise e.1 e.2.1 e.2.2) c
  let c := c.onIsland fun i => { i with bootEvents := [] }
  let c := c.raise 241 (c.get Reg.CKP_RESET_CAUSE_CAUSE) [(1, c.get Reg.CKP_RESET_CAUSE_COUNT)]
  let c := c.on c.wdogLoss fun c => { c.raise 221 0 [] with wdogLoss := false }
  c.refreshFrozen

/-! ### Commit: range checks (R482 reason 4) -/

/-- An offset where a rule is broken. -/
def badIf (b : Bool) (f : Field) : List Nat := if b then [f.off] else []

/-- A value of a field outside two limits. -/
def Chip.outside (c : Chip) (f : Field) (lo hi : Nat) : List Nat := badIf (decide (c.get f < lo ∨ hi < c.get f)) f

/-- PTP, host, cornice, head link and head registers. -/
def Chip.rangeLink (c : Chip) : List Nat :=
  let sBetween := fun (f : Field) (lo hi : Int) => badIf (decide (c.getI f < lo ∨ hi < c.getI f)) f
  c.outside Reg.HIF_BLOCK_AREA_MIB 64 16384 ++ c.outside Reg.HIF_STATE_AREA_MIB 16 4096 ++
    c.outside Reg.ETM_PTP_CFG_DOMAIN 0 127 ++ sBetween Reg.ETM_PTP_CFG_LOG_SYNC (-7) 0 ++
    sBetween Reg.ETM_PTP_CFG_LOG_DELAY (-7) 0 ++ sBetween Reg.ETM_PTP_CFG_LOG_ANNOUNCE (-3) 3 ++
    c.outside Reg.ETM_PTP_CFG_ANNOUNCE_TO 2 15 ++ c.outside Reg.ETM_PTP_CFG_SYNC_TO 2 15 ++
    ((List.range 2).flatMap fun q => c.outside (Reg.ENET_CTRL_MODE q) 0 2) ++
    c.outside Reg.CRN_PITCH_COUNTS 0x10000 0xFFFFFFFF ++
    ((List.range 48).flatMap fun n =>
      c.outside (Reg.THL_LANE_CFG_RATE n) 0 4 ++
      badIf (c.configured n && !c.flag (Reg.THL_LANE_CFG_ENABLE n)) (Reg.THL_LANE_CFG_ENABLE n) ++
      c.outside (Reg.HED_HEAD_CFG_NOZZLES n) 0 8192) ++
    badIf ((c.flag Reg.PHY_REF_CTRL_CLOCKING && !c.flag Reg.PHY_REF_CTRL_HREFCLK_EN) ||
      (c.flag Reg.PHY_REF_CTRL_SPREAD && !c.flag Reg.PHY_REF_CTRL_CLOCKING)) Reg.PHY_REF_CTRL_CLOCKING

/-- A context is enabled. -/
def Chip.ctxOn (c : Chip) (x : Nat) : Bool := c.flag (Reg.CAM_CTX_BIND_ENABLE x)

/-- A stream of a context is enabled. -/
def Chip.strOn (c : Chip) (x s : Nat) : Bool := c.flag (Reg.CAM_CTX_STR_CFG_ENABLE x s)

/-- R301: bytes of the largest item set of a context. -/
def Chip.itemSet (c : Chip) (x : Nat) : Nat :=
  let w := c.get (Reg.CAM_CTX_GEOM_WIDTH x)
  let h := c.get (Reg.CAM_CTX_GEOM_HEIGHT x)
  let ow := c.get (Reg.CAM_CTX_OUT_OUT_WIDTH x)
  let tap := c.get (Reg.CAM_CTX_OUT_TAP x)
  let pixel := if c.flag (Reg.CAM_CTX_BIND_TAP8 x) then 1 else 2
  let tapBytes := if tap = 0 then 0 else 64 + (if tap = 3 then ow else w) * h * pixel
  let str := fun (s : Nat) =>
    if c.strOn x s then
      64 + (c.get (Reg.CAM_CTX_STR_X_X1 x s) - c.get (Reg.CAM_CTX_STR_X_X0 x s)) / 2 ^ min 4 (c.get (Reg.CAM_CTX_STR_CFG_SX x s)) *
        ((c.get (Reg.CAM_CTX_STR_Y_Y1 x s) - c.get (Reg.CAM_CTX_STR_Y_Y0 x s)) / 2 ^ min 4 (c.get (Reg.CAM_CTX_STR_CFG_SY x s))) *
        (if c.flag (Reg.CAM_CTX_STR_CFG_FMT8 x s) then 1 else 2)
    else 0
  tapBytes + (64 + 1024 + 128 + 8 * ow) + (if x < 2 then ((List.range 4).map str).sum else 0)

/-- A stream crop is outside the remapped frame, or starts beyond its own end (R280). -/
def Chip.cropBad (c : Chip) (x s : Nat) : List Nat :=
  let side := fun (f g : Field) (size : Nat) =>
    badIf (decide (size < c.get g) || decide (size < c.get f) || decide (c.get g < c.get f)) f
  side (Reg.CAM_CTX_STR_X_X0 x s) (Reg.CAM_CTX_STR_X_X1 x s) (c.get (Reg.CAM_CTX_OUT_OUT_WIDTH x)) ++
    side (Reg.CAM_CTX_STR_Y_Y0 x s) (Reg.CAM_CTX_STR_Y_Y1 x s) (c.get (Reg.CAM_CTX_GEOM_HEIGHT x))

/-- One context's rows of R280: those that speak of an enabled context are judged of enabled contexts, the others of every
context. -/
def Chip.rangeCtx (c : Chip) (x : Nat) : List Nat :=
  let p := c.get (Reg.CAM_CTX_BIND_PORT x)
  let ow := c.get (Reg.CAM_CTX_OUT_OUT_WIDTH x)
  let dt := c.get (Reg.CAM_CTX_BIND_DT x)
  let same := (List.range 8).any fun y => decide (y ≠ x) && c.ctxOn y && decide (c.get (Reg.CAM_CTX_BIND_PORT y) = p) &&
    decide (c.get (Reg.CAM_CTX_BIND_VC y) = c.get (Reg.CAM_CTX_BIND_VC x))
  badIf (c.ctxOn x && (!c.flag (Reg.CAM_PORT_CFG_ENABLE p) || decide (dt < 0x2A ∨ 0x2E < dt) || same)) (Reg.CAM_CTX_BIND_PORT x) ++
    c.outside (Reg.CAM_CTX_GEOM_WIDTH x) 16 16384 ++ c.outside (Reg.CAM_CTX_GEOM_HEIGHT x) 1 8192 ++
    c.outside (Reg.CAM_CTX_OUT_OUT_WIDTH x) 1 16384 ++
    badIf (decide (16384 < c.get (Reg.CAM_CTX_OUT_MAP_BASE x) + ow)) (Reg.CAM_CTX_OUT_MAP_BASE x) ++
    (if x < 2 then (List.range 4).flatMap (c.cropBad x) else []) ++
    c.outside (Reg.CAM_PIPE_CFG_SLOTS (x / 2)) 2 16 ++
    badIf (decide (c.get (Reg.CAM_PIPE_CFG_SLOT_MIB (x / 2)) * 2 ^ 20 < c.itemSet x)) (Reg.CAM_PIPE_CFG_SLOTS (x / 2))

/-- Camera registers (R280). -/
def Chip.rangeCam (c : Chip) : List Nat :=
  let store := ((List.range 4).map fun p => c.get (Reg.CAM_PIPE_CFG_SLOTS p) * c.get (Reg.CAM_PIPE_CFG_SLOT_MIB p)).sum
  let lanesBad := fun (p : Nat) => decide (c.get (Reg.CAM_PORT_CFG_LANES p) ∉ [1, 2, 4])
  c.outside Reg.CAM_STORE_AREA_MIB 64 16384 ++ badIf (decide (c.get Reg.CAM_STORE_AREA_MIB < store)) Reg.CAM_STORE_AREA_MIB ++
    ((List.range 4).flatMap fun p =>
      if c.flag (Reg.CAM_PORT_CFG_ENABLE p) then
        badIf (lanesBad p) (Reg.CAM_PORT_CFG_LANES p) ++ c.outside (Reg.CAM_PORT_RATE_MBPS p) 80 2500
      else []) ++
    ((List.range 8).flatMap c.rangeCtx) ++
    ((List.range 6).flatMap fun k => (List.range 4).flatMap fun s => badIf (c.strOn (k + 2) s) (Reg.CAM_CTX_STR_CFG_ENABLE (k + 2) s))

/-- Motion, converters and PWM. -/
def Chip.rangeMot (c : Chip) : List Nat :=
  let item := fun (k j : Nat) =>
    let f := if j < 8 then Reg.IOX_ADC_SEQ_LO_ENTRIES k else Reg.IOX_ADC_SEQ_HI_ENTRIES k
    badIf (c.flag (Reg.IOX_ADC_SEQ_CFG_ENABLE k) && decide (j ≤ c.get (Reg.IOX_ADC_SEQ_CFG_LEN k)) &&
      decide (11 < bits (c.get f) (4 * (j % 8)) 4)) f
  ((List.range 4).flatMap fun n => c.outside (Reg.MOT_DRV_CFG_FRAME_US n) 10 100 ++ c.outside (Reg.MOT_ENC_CFG_MODE n) 0 2) ++
    ((List.range 8).flatMap fun a => c.outside (Reg.MOT_AX_CFG_OUT a) 0 2) ++
    ((List.range 2).flatMap fun k => (List.range 16).flatMap (item k)) ++
    ((List.range 32).flatMap fun ch =>
      if c.flag (Reg.IOX_PWM_CFG_ENABLE ch) then
        c.outside (Reg.IOX_PWM_CFG_PERIOD ch) 1000 16777215 ++
        badIf (decide (c.get (Reg.IOX_PWM_CFG_PERIOD ch) ≤ c.get (Reg.IOX_PWM_PHASE_TICKS ch))) (Reg.IOX_PWM_PHASE_TICKS ch)
      else [])

/-- A source is outside R367; a measurement may not be NONE. -/
def sourceBad (s kind sel item : Nat) (meas : Bool) : Bool :=
  match kind with
  | 0 => decide (23 < sel)
  | 1 => decide (47 < sel ∨ 9 < item)
  | 2 => decide (15 < sel)
  | 3 => decide (7 < sel)
  | 4 => decide (sel = s)
  | 7 => meas
  | _ => true

/-- R374 for a destination. -/
def Chip.destBad (c : Chip) (s : Nat) : Bool :=
  let sel := c.get (Reg.LOP_LS_DEST_SEL s)
  let g0 := c.get (Reg.LOP_LS_DEST_G0 s)
  let g1 := c.get (Reg.LOP_LS_DEST_G1 s)
  match c.get (Reg.LOP_LS_DEST_KIND s) with
  | 0 => false
  | 1 => decide (31 < sel) || !c.flag (Reg.IOX_PWM_CFG_ENABLE sel)
  | 2 => decide (47 < sel ∨ g1 < g0) || !c.configured sel || decide ((c.get (Reg.HED_HEAD_CFG_NOZZLES sel) + 31) / 32 ≤ g1)
  | _ => decide (15 < sel)

/-- R374 for a slot among its group's members. -/
def Chip.groupBad (c : Chip) (s : Nat) : Bool :=
  let ms := c.members (c.get (Reg.LOP_LS_GRP_GROUP s))
  let same := fun (f : Nat → Field) (m : Nat) => decide (c.get (f m) = c.get (f s))
  c.grouped s && (decide (8 < ms.length) || ms.any fun m =>
    !(same Reg.LOP_LS_DEST_KIND m && same Reg.LOP_LS_DEST_SEL m && same Reg.LOP_LS_DEST_G0 m && same Reg.LOP_LS_DEST_G1 m &&
      same Reg.LOP_LS_SCHED_DIV m && same Reg.LOP_LS_SCHED_PHASE m))

/-- R374 for one configured slot. -/
def Chip.rangeSlot (c : Chip) (s : Nat) : List Nat :=
  if c.slotConfigured s = false then []
  else
    c.outside (Reg.LOP_LS_SCHED_DIV s) 10 65535 ++
    badIf (decide (c.get (Reg.LOP_LS_SCHED_DIV s) ≤ c.get (Reg.LOP_LS_SCHED_PHASE s))) (Reg.LOP_LS_SCHED_DIV s) ++
    badIf (sourceBad s (c.get (Reg.LOP_LS_SRC_MEAS_KIND s)) (c.get (Reg.LOP_LS_SRC_MEAS_SEL s)) (c.get (Reg.LOP_LS_SRC_MEAS_ITEM s))
        true || sourceBad s (c.get (Reg.LOP_LS_SRC_FF_KIND s)) (c.get (Reg.LOP_LS_SRC_FF_SEL s)) (c.get (Reg.LOP_LS_SRC_FF_ITEM s))
        false) (Reg.LOP_LS_SRC_MEAS_KIND s) ++
    badIf (c.destBad s) (Reg.LOP_LS_DEST_KIND s) ++ badIf (c.groupBad s) (Reg.LOP_LS_GRP_GROUP s) ++
    badIf (c.flag (Reg.LOP_LS_GRP_VFF_EN s) && !c.flag Reg.LOP_VFF_CFG_ENABLE) (Reg.LOP_LS_GRP_VFF_EN s) ++
    badIf (decide (c.getI (Reg.LOP_LS_OUTMAX_VALUE s) < c.getI (Reg.LOP_LS_OUTMIN_VALUE s))) (Reg.LOP_LS_OUTMIN_VALUE s)

/-- The loop engine, DRAM, tandem and rail registers. -/
def Chip.rangeRest (c : Chip) : List Nat :=
  c.outside Reg.LOP_VFF_CFG_CH 0 23 ++ ((List.range 64).flatMap c.rangeSlot) ++ c.outside Reg.DRC_CFG_RATE 0 2 ++
    badIf (c.flag Reg.DRC_CFG_SPARE_EN && decide (c.get Reg.DRC_CFG_RANKS = 0)) Reg.DRC_CFG_SPARE_EN ++
    c.outside Reg.DRC_BAND_CFG_NB 8 32 ++ c.outside Reg.TDM_CFG_WDOG_US 10 1000 ++ c.outside Reg.TDM_CFG_HB_TO_US 2500 50000 ++
    c.outside Reg.TDM_START_WAIT_MS 100 60000 ++ c.outside Reg.CKP_SEQ_CFG_PG_TO_MS 1 100

/-- Every offset at which a rule marked as refused at commit is broken. -/
def Chip.rangeBad (c : Chip) : List Nat := c.rangeLink ++ c.rangeCam ++ c.rangeMot ++ c.rangeRest

/-! ### Static ownership (R484) -/

/-- A GPIO's resource code. -/
def gpioRes (n : Nat) : Nat := 2 ^ 28 + n

/-- The claims of features 2 to 4 on GPIO, as (resource, feature). -/
def Chip.gpioClaims (c : Chip) : List (Nat × Nat) :=
  ((List.range 4).filter fun n => decide (c.get (Reg.ETM_CAP_CTRL_EDGE n) ≠ 0)).map
      (fun n => (gpioRes (c.get (Reg.ETM_CAP_CTRL_GPIO n)), 0x200 + n)) ++
    ((List.range 8).filter c.ctxOn).map (fun x => (gpioRes (c.get (Reg.CAM_CTX_TRIG_GPIO x)), 0x300 + x)) ++
    ((List.range 8).filter fun a => decide (c.get (Reg.MOT_AX_CFG_OUT a) ≠ 0) && c.flag (Reg.MOT_AX_LIMCFG_HOME_SRC a)).map
      (fun a => (gpioRes (c.get (Reg.MOT_AX_LIMCFG_HOME_GPIO a)), 0x400 + a))

/-- The claims of a configured slot; a group is named by its lowest member. -/
def Chip.slotClaims (c : Chip) (s : Nat) : List (Nat × Nat) :=
  let owner := if c.grouped s then (c.members (c.get (Reg.LOP_LS_GRP_GROUP s))).headD s else s
  let sel := c.get (Reg.LOP_LS_DEST_SEL s)
  let g0 := c.get (Reg.LOP_LS_DEST_G0 s)
  let res := match c.get (Reg.LOP_LS_DEST_KIND s) with
    | 0 => []
    | 1 => [2 * 2 ^ 28 + sel]
    | 2 => (List.range (c.get (Reg.LOP_LS_DEST_G1 s) + 1 - g0)).map fun k => 5 * 2 ^ 28 + 256 * sel + g0 + k
    | _ => [4 * 2 ^ 28 + sel]
  res.map fun r => (r, 0x600 + owner)

/-- Every claim of R484. -/
def Chip.claims (c : Chip) : List (Nat × Nat) :=
  ((List.range 64).filter fun n => c.bitOf (Reg.IOX_GPIO_DIR_BITS (n / 32)) (n % 32)).map (fun n => (gpioRes n, 0x100 + n)) ++
    c.gpioClaims ++
    ((List.range 8).filter fun a => decide (c.get (Reg.MOT_AX_CFG_OUT a) = 2)).map
      (fun a => (3 * 2 ^ 28 + 4 * c.get (Reg.MOT_AX_CFG_LINE a) + c.get (Reg.MOT_AX_CFG_SLOT a), 0x500 + a)) ++
    ((List.range 64).filter c.slotConfigured).flatMap c.slotClaims

/-- The least number of a list. -/
def leastOf : List Nat → Option Nat
  | [] => none
  | a :: l => some (l.foldl min a)

/-- CONFLICT: the lowest resource with two claims, and the two lowest features that claim it. -/
def Chip.conflict (c : Chip) : Option (Nat × Nat × Nat) :=
  let cs := c.claims.dedup
  let twice := cs.filter fun e => cs.any fun d => decide (d.1 = e.1 ∧ d.2 ≠ e.2)
  match leastOf (twice.map (·.1)) with
  | none => none
  | some r =>
    let fs := (twice.filter fun e => decide (e.1 = r)).map (·.2)
    match leastOf fs with
    | none => none
    | some a => (leastOf (fs.filter fun f => decide (f ≠ a))).map fun b => (r, a, b)

/-- GPIO claimed by a capture unit, a camera trigger or a home input, one bit each (R384). -/
def Chip.claimedBits (c : Chip) : Nat := c.gpioClaims.foldl (fun m e => m ||| 2 ^ (e.1 - 2 ^ 28)) 0

/-! ### Digest (R485) -/

/-- Registers left out of the digest. -/
def digestSkips (off : Nat) : Bool :=
  decide (off = 0xC) || decide (0x40000 ≤ off ∧ off < 0x50000) || decide (off = 0x30044 ∨ off = 0x30048 ∨ off = 0x3004C) ||
    decide (0xA0000 ≤ off ∧ off < 0xB0000) || decide (0x231000 ≤ off ∧ off < 0x232000) || decide (off = 0x220050) ||
    loaderFormed.contains off

/-- The offsets of the digest, ascending. -/
def digestOffsets : List Nat :=
  sortBy (fun a b => decide (a ≤ b))
    (((regTable.filter fun r => r.fields.any (·.image)).flatMap RegRow.offsets).filter fun o => !digestSkips o)

/-- VALUE of a register in the digest: its image fields in their places (DEDUCED from R476: log entry 65). -/
def Chip.imageWord (c : Chip) (off : Nat) : Nat := (imageFields off).foldl (fun w f => w + c.get (f.at off) * 2 ^ f.lo) 0

/-- The digest's 32 bytes. -/
def Chip.digest (c : Chip) : List Byte := sha256 (digestOffsets.flatMap fun o => leBytes 4 o ++ leBytes 4 (c.imageWord o))

/-! ### Commit (R481 to R483) -/

/-- R366: evaluations per second of the configured slots. -/
def Chip.loopLoad (c : Chip) : Nat :=
  (((List.range 64).filter c.slotConfigured).map fun s => 1000000 / c.get (Reg.LOP_LS_SCHED_DIV s)).sum

/-- G of a port (R117, R175). -/
def Chip.gConfigured (c : Chip) (h : Nat) : Nat := 32 * ((c.get (Reg.HED_HEAD_CFG_NOZZLES h) + 31) / 32)

/-- ΣG. -/
def Chip.gSum (c : Chip) : Nat := ((List.range 48).map c.gConfigured).sum

/-- The sizes of the DRAM regions, in their order (R389): controller tables, band buffers, block area, STATE queue, frame
store. -/
def Chip.regionSizes (c : Chip) : List Nat :=
  [2 ^ 20 * 64, 512 * c.get Reg.DRC_BAND_CFG_NB * c.gSum, 2 ^ 20 * c.get Reg.HIF_BLOCK_AREA_MIB,
   2 ^ 20 * c.get Reg.HIF_STATE_AREA_MIB, 2 ^ 20 * c.get Reg.CAM_STORE_AREA_MIB]

/-- R389: bytes of the DRAM regions. -/
def Chip.regionBytes (c : Chip) : Nat := c.regionSizes.sum

/-- Regions laid out from an address in order (R389), each as base and size. -/
def layOut : Nat → List Nat → List (Nat × Nat)
  | _, [] => []
  | base, n :: ns => (base, n) :: layOut (base + n) ns

/-- The lowest-numbered failing check of R482 beyond the first three, with what it names: offset, resource, features. -/
def Chip.commitReason (c : Chip) : Nat × Nat × Nat × Nat × Nat :=
  match leastOf c.rangeBad with
  | some off => (4, off, 0, 0, 0)
  | none =>
    match c.conflict with
    | some (r, a, b) => (5, 0, r, a, b)
    | none =>
      if 12500000 < c.loopLoad then (6, 0, 0, 0, 0)
      else if 196608 < c.gSum then (7, 0, 0, 0, 0)
      else if c.flag Reg.DRC_STATUS_DRAM_OK = false then (9, 0, 0, 0, 0)
      else if 2 ^ 20 * c.get Reg.DRC_CAPACITY_MIB < c.regionBytes then (8, 0, 0, 0, 0)
      else (0, 0, 0, 0, 0)

/-- CFG.COMMIT_RESULT of a commit by port A (0), port B (1) or the loader (2). -/
def Chip.commitResult (c : Chip) (source reason : Nat) : Chip :=
  ((c.put Reg.CFG_COMMIT_RESULT_REASON reason).putB Reg.CFG_COMMIT_RESULT_BY_PORT (decide (source = 1))).putB
    Reg.CFG_COMMIT_RESULT_LOADER (decide (source = 2))

/-- A commit refused (R482): the reason recorded, and EV251. -/
def Chip.commitRefused (c : Chip) (source : Nat) (r : Nat × Nat × Nat × Nat × Nat) : Chip :=
  let c := c.commitResult source r.1
  let c := if r.1 = 4 then c.put Reg.CFG_COMMIT_OFFSET_OFFSET r.2.1 else c
  let c := if r.1 = 5 then
      ((c.put Reg.CFG_COMMIT_RESOURCE_RESOURCE r.2.2.1).put Reg.CFG_COMMIT_FEATURES_FEATURE_A r.2.2.2.1).put
        Reg.CFG_COMMIT_FEATURES_FEATURE_B r.2.2.2.2
    else c
  c.raise 251 0 [(1, r.1), (2, r.2.2.2.1), (2, r.2.2.2.2), (4, r.2.2.1), (4, r.2.1)]

/-- A commit starts, or is refused. -/
def Chip.startCommit (c : Chip) (source : Nat) : Chip :=
  if source < 2 ∧ c.get (Reg.GLB_SEM_OWNER 0) ≠ source + 1 then (c.commitResult source 1).raise 15 0 []
  else if c.flag Reg.CFG_STATUS_COMMITTED then c.commitRefused source (2, 0, 0, 0, 0)
  else if c.flag Reg.CFG_STATUS_BUSY then c.commitRefused source (3, 0, 0, 0, 0)
  else
    let r := c.commitReason
    if r.1 ≠ 0 then c.commitRefused source r
    else
      let digest := c.digest
      let claimed := c.claimedBits
      let caps := ((List.range 4).map fun n => if c.get (Reg.ETM_CAP_CTRL_EDGE n) = 0 then 0 else 2 ^ n).sum
      (c.onConf fun x => { x with commit := some ⟨source, digest, claimed, caps⟩ }).put Reg.CFG_STATUS_BUSY 1

/-- NBASE and G / 32 of every port (R175). -/
def Chip.layRows (c : Chip) : Chip :=
  ((List.range 48).foldl (fun (r : Chip × Nat) h =>
    let g := r.1.gConfigured h
    (((r.1.put (Reg.CRN_NZT_BASE_ROW h) r.2).put (Reg.CRN_NZT_BASE_GROUPS h) (g / 32)), r.2 + g)) (c, 0)).1

/-- The slots marked START begin enabled (R364). -/
def Chip.startSlots (c : Chip) : Chip :=
  (List.range 64).foldl (fun c s =>
    if c.slotConfigured s && c.flag (Reg.LOP_LS_GRP_START s) then c.put (Reg.LOP_LS_STATUS_ENABLED s) 1 else c) c

/-- The groups of which no member starts enabled (R373). -/
def Chip.idleGroups (c : Chip) : Chip := (List.range 8).foldl (fun c g => c.groupSafe (c.members g)) c

/-- The digest shown (R485). -/
def Chip.showDigest (c : Chip) (d : List Byte) : Chip :=
  (List.range 8).foldl (fun c k => c.put (Reg.CFG_DIGEST_BYTES k) (leField d (4 * k) 4)) c

/-- Items held on chip before the first commit are queued (R111). -/
def Chip.queueHeld (c : Chip) : Chip :=
  ({ c with stateItems := c.stateItems.map fun (it : StateItem) => { it with onChip := false } }).stateHold

/-- An accepted commit (R483). -/
def Chip.accept (c : Chip) (m : Commit) : Chip :=
  let c := ((c.put Reg.CFG_STATUS_BUSY 0).put Reg.CFG_STATUS_COMMITTED 1).commitResult m.source 0
  let c := (c.onConf fun x => { x with commit := none, caps := m.caps }).showDigest m.digest
  let c := (c.put (Reg.IOX_GPIO_CLAIMED_BITS 0) (m.claimed % 2 ^ 32)).put (Reg.IOX_GPIO_CLAIMED_BITS 1) (m.claimed / 2 ^ 32)
  let c := (({ c with regions := layOut 0 c.regionSizes }.layRows).put Reg.LOP_LOAD_EPS c.loopLoad).raise 250 0 [(1, m.source), (4, leField m.digest 0 4)]
  let c := { c with pwmStart := c.clk, pwmPass := [] }.startSlots.idleGroups
  let c := (c.restartEst.queueHeld).driveFire
  let c := (List.range 8).foldl (fun c x => c.setCam x { c.cam x with seen := false }) c
  let c := (List.range 4).foldl (fun c p => c.showPipe p) c
  (c.tandemStart).showLoop

/-- COMMIT_END (R481): the commit in progress ends. -/
def Chip.endCommit (c : Chip) : Chip :=
  match c.conf.commit with
  | none => c
  | some m => c.accept m

/-- READY_STATE (R490): once the controller tables are zeroed; a loader commit starts in the same cycle. -/
def Chip.becomeReady (c : Chip) : Chip :=
  if c.flag Reg.CFG_STATUS_READY ∨ c.conf.scanned = false ∨ c.flag Reg.DRC_STATUS_TRAINED = false then c
  else
    let t := min ((c.clk - c.island.relAt) / 16000) 65535
    let c := (c.put Reg.CFG_STATUS_READY 1).put Reg.CFG_START_TIME_US t
    let c := (c.tellStart).raise 255 0 [(2, t)]
    if c.flag Reg.CFG_STATUS_AUTO then c.startCommit 2 else c

/-! ### Writing an image (R479, R480, R523) -/

/-- Bytes of the image buffer. -/
def Chip.imageBuffer (c : Chip) (n : Nat) : List Byte :=
  (List.range ((n + 3) / 4)).flatMap fun i => leBytes 4 (c.get (Reg.CFG_IMAGE_DATA i))

/-- The buffer's image: its header gives its length. -/
def Chip.bufferedImage (c : Chip) : List Byte :=
  let head := c.imageBuffer 64
  c.imageBuffer (min 49152 (max 64 (imageLength head)))

/-- A refused or failed flash operation: RESULT, and EV253. -/
def Chip.flashResult (c : Chip) (result : Nat) : Chip :=
  (c.put Reg.CFG_FLASH_STATUS_RESULT result).raise 253 0 [(1, result)]

/-- A sector erased and programmed. -/
def Chip.writeSector (c : Chip) (slot k : Nat) : Chip :=
  let addr := 65536 * slot + 4096 * k
  c.emits [Output.flash 0 addr [], Output.flash 1 addr ((c.bufferedImage.drop (4096 * k)).take 4096)]

/-- SEQ is not later than that of every valid slot. -/
def Chip.seqOld (c : Chip) (seq : Nat) : Bool :=
  let notLater := fun (f : Field) => !later (BitVec.ofNat 32 seq) (BitVec.ofNat 32 (c.get f))
  (c.conf.validA && notLater Reg.CFG_SLOT_A_SEQ_SEQ) || (c.conf.validB && notLater Reg.CFG_SLOT_B_SEQ_SEQ)

/-- A port holds GLB.SEM00. -/
def Chip.holdsSem (c : Chip) (p : Nat) : Bool := decide (c.get (Reg.GLB_SEM_OWNER 0) = p + 1)

/-- FLASH_WRITE (R479). -/
def Chip.flashWrite (c : Chip) (p : Nat) : Chip :=
  if c.holdsSem p = false then c.flashResult 2
  else if c.conf.writing.isSome then c.flashResult 3
  else
    let img := c.bufferedImage
    if imageCause (some img) ≠ 0 then c.flashResult 4
    else if c.seqOld (imageSeq img) then c.flashResult 5
    else
      let now := chooseSlot c.conf.validA c.conf.validB (c.get Reg.CFG_SLOT_A_SEQ_SEQ) (c.get Reg.CFG_SLOT_B_SEQ_SEQ)
      let slot := if now = 1 then 1 else 0
      let n := (imageLength img + 4095) / 4096
      let c := c.onConf fun x => { x with
        writing := some slot, sectors := n
        validA := x.validA && decide (slot = 1)
        validB := x.validB && decide (slot = 0) }
      let c := ((c.put Reg.CFG_STATUS_FLASH_BUSY 1).put Reg.CFG_FLASH_STATUS_SLOT slot).put Reg.CFG_FLASH_STATUS_SECTORS 0
      (c.put Reg.CFG_FLASH_STATUS_RESULT 0).writeSector slot 0

/-- The write is over. -/
def Chip.writeOver (c : Chip) : Chip :=
  (c.onConf fun x => { x with writing := none }).putB Reg.CFG_STATUS_FLASH_BUSY c.conf.erasing

/-- FLASH_SECTOR_DONE (R480): the next sector, or the slot read back and checked. -/
def Chip.sectorDone (c : Chip) (readBack : Option (List Byte)) : Chip :=
  match c.conf.writing with
  | none => c
  | some slot =>
    let k := c.get Reg.CFG_FLASH_STATUS_SECTORS + 1
    let c := c.put Reg.CFG_FLASH_STATUS_SECTORS k
    if k < c.conf.sectors then c.writeSector slot k
    else
      let c := c.emit (.flash 2 (65536 * slot) (readBack.getD []))
      let cause := imageCause readBack
      let seq := imageSeq (readBack.getD [])
      let c := (c.slotChecked (decide (slot = 1)) seq cause).writeOver
      if cause = 0 then (c.put Reg.CFG_FLASH_STATUS_RESULT 1).raise 252 0 [(1, slot), (4, seq)] else c.flashResult 6

/-- FLASH_TIMEOUT (R523): the operation in progress fails. -/
def Chip.flashTimeout (c : Chip) : Chip :=
  if c.conf.writing.isSome then (c.writeOver).flashResult 6
  else if c.conf.erasing then ((c.onConf fun x => { x with erasing := false }).put Reg.CFG_STATUS_FLASH_BUSY 0).flashResult 6
  else c

/-- The sectors of both moraine copies, erased (R474, R488). -/
def ledgerSectors : List Output :=
  [(0x100000, 256), (0x200000, 32), (0x300000, 256), (0x400000, 32)].flatMap fun r =>
    (List.range r.2).map fun k => Output.flash 0 (r.1 + 4096 * k) []

/-- LEDGER_ERASE (R488). -/
def Chip.ledgerErase (c : Chip) (p key : Nat) : Chip :=
  if c.holdsSem p = false then c.flashResult 2
  else if key ≠ 0x5A ∨ c.get Reg.CRN_STATUS_STATE ≠ 0 ∨ c.conf.erasing then c.flashResult 3
  else
    let c := { c with ledger := [], ledgerTorn := 0, ledgerFull := false }.put Reg.CFG_STATUS_FLASH_BUSY 1
    (((c.onConf fun x => { x with erasing := true }).put Reg.CRN_MORAINE_SEQ_NEXT 0).showLedger).emits ledgerSectors

/-- A write of CFG.CTRL by a port. -/
def Chip.cfgCtrl (c : Chip) (p v : Nat) : Chip :=
  let c := if bit v 0 then c.startCommit p else c
  let c := if bit v 1 then c.flashWrite p else c
  if bit v 2 then c.ledgerErase p (bits v 8 8) else c

/-! ### The commands -/

/-- IMAGE_LOAD (R478). -/
def execImageLoad (slotA slotB : Option (List Byte)) (s : State) : Host.Outcome State Fault Refusal :=
  s.go (s.toChip.imageLoad slotA slotB)

/-- MORAINE_SCAN (R487). -/
def execMoraineScan (positions : List LedgerPos) (s : State) : Host.Outcome State Fault Refusal :=
  s.go (s.toChip.moraineScan positions)

/-- READY_STATE (R490). -/
def execReadyState (s : State) : Host.Outcome State Fault Refusal := s.go s.toChip.becomeReady

/-- COMMIT_END (R483). -/
def execCommitEnd (s : State) : Host.Outcome State Fault Refusal := s.go s.toChip.endCommit

/-- FLASH_SECTOR_DONE (R480). -/
def execFlashSectorDone (readBack : Option (List Byte)) (s : State) : Host.Outcome State Fault Refusal :=
  s.go (s.toChip.sectorDone readBack)

/-- LEDGER_ERASE_DONE (R488). -/
def execLedgerEraseDone (s : State) : Host.Outcome State Fault Refusal := s.go s.toChip.ledgerErased

/-- FLASH_TIMEOUT (R523). -/
def execFlashTimeout (s : State) : Host.Outcome State Fault Refusal := s.go s.toChip.flashTimeout

/-- MORAINE_FLASH_WRITE (R210, R486). -/
def execMoraineFlashWrite (s : State) : Host.Outcome State Fault Refusal := s.go s.toChip.flashRecord

end Sys2Proof.Machine
end

