-- ==== Sys2Proof/Machine/Fire.lean ====
section
/-! DEFINITION. Machine/Fire.lean: the cornice's commands that reach every part of the fire path: arming, the issue of a shot,
ABORT, a calve report that does not come, and a head's telemetry. -/

namespace Sys2Proof.Machine

/-- LAYER_ARM (R148): in P0 alone, after an exit from a deeper state; not while take-back is being settled (R445). The
governor takes the layer's limit, and a standby in SYNC tracks the layer whole (R430). -/
def Chip.layerArm (c : Chip) : Chip :=
  let c := if c.pstate = 0 then c else c.exitDue
  if c.pstate ≠ 0 ∨ c.tdm.hold then c
  else
    let was := c.run.isSome
    let c := c.armOrWait
    if was ∨ c.run.isNone then c
    else
      let c := if c.tdmState = 3 then c.setTdm { c.tdm with whole := true } else c
      c.governArm

/-- SHOT_ISSUE (R157): the reads of a line that is packed may meet an error in the nozzle table memory (R205) or in DRAM
(R404). -/
def Chip.shotIssue (c : Chip) (h : Nat) (nzt : Option NztError) (dram : Option DramError) : Chip :=
  match c.predictAhead h (c.nextLine h) with
  | none => c
  | some p =>
  if c.mayIssue h = false ∨ c.spanEnd h ≤ c.nextLine h then c
  else if c.owns ∧ c.tooClose h p then c.issueLine h
  else
    let c := match dram with
      | some e => c.dramError { e with reader := 0 }
      | none => c
    let c := match nzt with
      | some e => c.nztEcc h e
      | none => c
    let f := c.nextLine h
    let c := (c.ownReads h f).foldl (fun c r => c.touchLine h r.1 r.2) c
    let c := (c.servedReads h f).foldl (fun c q => c.touchLine q.1 q.2.1 q.2.2) c
    c.issueLine h

/-- A write of CRN.CTRL. -/
def Chip.crnCtrl (c : Chip) (v : Nat) : Chip := if bit v 0 then c.abortLayer else c

/-- TLM (R234): after a takeover, the first one taken of a head tells its accounting (R440). -/
def Chip.headTlm (c : Chip) (n : Nat) (t : TlmPacket) : Chip :=
  let c := if c.tlmTaken n t ∧ t.firedValid then c.takeTlm n t.lastFired.toNat else c
  c.telemetry n t

/-- The merge of a 4-byte accumulator that a command has added to (R310, R402). -/
def Chip.accMerge (c was : Chip) (merge : Option (Fin 196608 × DramKind)) : Chip :=
  match merge with
  | none => c
  | some m =>
    let k : Fin 2 := if SMap.get 0 m.1.val c.acc1 = SMap.get 0 m.1.val was.acc1 then 0 else 1
    if SMap.get 0 m.1.val (c.acc k.val) = SMap.get 0 m.1.val (was.acc k.val) then c
    else c.mergeWrite 4 ⟨m.2, 0, 3, .heapUnit k m.1⟩

/-! ### The commands -/

/-- LAYER_ARM (R148). -/
def execLayerArm (s : State) : Host.Outcome State Fault Refusal := s.go s.toChip.layerArm

/-- SHOT_ISSUE (R157). -/
def execShotIssue (h : Fin 48) (nzt : Option NztError) (dram : Option DramError) (s : State) :
    Host.Outcome State Fault Refusal := s.go (s.toChip.shotIssue h.val nzt dram)

/-- The DRAM copy of an entry is read (R205): an error may be met (R404), and one that cannot be corrected, or a unit that is
poisoned, loses it (R403). -/
def Chip.copyFetched (c : Chip) (h : Nat) (r : CopyRead) : Chip :=
  match (c.headRun h).eccHold with
  | none => c
  | some cell =>
    let poisoned := c.copyPoison.contains (copyKey cell)
    match r.dram with
    | some e =>
      (c.dramError ⟨e.kind, e.off, 2, .region 0⟩).nztCopy h (if poisoned || !DramKind.correctable e.kind then none else r.copy)
    | none => c.nztCopy h (if poisoned then none else r.copy)

/-- NZT_COPY_FETCHED (R205). -/
def execNztCopyFetched (h : Fin 48) (r : CopyRead) (s : State) : Host.Outcome State Fault Refusal :=
  s.go (s.toChip.copyFetched h.val r)

/-- CALVE_TIMEOUT (R167). -/
def execCalveTimeout (h : Fin 48) (s : State) : Host.Outcome State Fault Refusal := s.go (s.toChip.calveOverdue h.val)

/-- TLM (R234). The addition of one counter to its 4-byte accumulator (R310) is a merge (R402), whose read may meet an error. -/
def execTlm (n : Fin 48) (t : TlmTaken) (s : State) : Host.Outcome State Fault Refusal :=
  s.go ((s.toChip.headTlm n.val t.packet).accMerge s.toChip t.merge)

end Sys2Proof.Machine
end

