-- ==== Sys2Proof/Machine/Bus.lean ====
section
/-! DEFINITION. Machine/Bus.lean: what a host does through BAR0 and BAR2, and what its ports do: every register write,
each taken to the operation of its chapter; the reads that change something (RC fields, LO registers, capture stamps,
semaphores); access errors; port links and resets; and the rows of the descriptor rings. -/

namespace Sys2Proof.Machine

/-! ### Semaphores (R113, R114) -/

/-- A read of GLB.SEMnn by a port; tie: the other port reads it in the same core clock cycle. -/
def Chip.semRead (c : Chip) (p n : Nat) (tie : Bool) : Chip :=
  let owner := c.get (Reg.GLB_SEM_OWNER n)
  if owner ≠ 0 then
    let c := c.emit (.readData p (BitVec.ofNat 32 owner))
    if tie then c.emit (.readData (1 - p) (BitVec.ofNat 32 owner)) else c
  else if tie then
    let winner := if c.semTieA then 0 else 1
    let c := { c.put (Reg.GLB_SEM_OWNER n) (winner + 1) with semTieA := !c.semTieA }
    (c.emit (.readData winner 0)).emit (.readData (1 - winner) (BitVec.ofNat 32 (winner + 1)))
  else (c.put (Reg.GLB_SEM_OWNER n) (p + 1)).emit (.readData p 0)

/-- A write of GLB.SEMnn by a port. -/
def Chip.semWrite (c : Chip) (p n v : Nat) : Chip :=
  if v = p + 1 ∧ c.get (Reg.GLB_SEM_OWNER n) = p + 1 then c.put (Reg.GLB_SEM_OWNER n) 0
  else c.raise 6 0 [(1, p), (2, n), (4, v)]

/-! ### Ports (R82 to R87, R116) -/

/-- R85: a reset of a port. Its rings go to DISABLED with their registers at reset values, its semaphores are released,
its tolerance returns to 0 (R466), its MSI-X table and its configuration space return to reset values, and its two transaction
queues are emptied (R458), which comes first in the example of R468. -/
def Chip.portReset (c : Chip) (p : Nat) : Chip :=
  let c := (c.flushQueue 15 p none).flushQueue 16 p none
  let c := (List.range 64).foldl (fun c n => c.disableRing p n) c
  let c := c.resetRange (0x11000 + 0x1000 * p) (0x12000 + 0x1000 * p)
  let c := (List.range 32).foldl (fun c n =>
    if c.get (Reg.GLB_SEM_OWNER n) = p + 1 then c.put (Reg.GLB_SEM_OWNER n) 0 else c) c
  let c : Chip := { c with msix := SMap.drop (fun k => decide (k / 64 = p)) c.msix, pcie := SMap.erase p c.pcie }
  let c := (c.bump (Reg.HIF_STATUS_RESETS p) 1).raise (7 + p) 0 []
  (c.put (if p = 0 then Reg.CKP_LTR_A_NS else Reg.CKP_LTR_B_NS) 0).retarget 4

/-- Class code of each function (R81). -/
def pcieClass : Nat := 0x118000

/-- A port's function. -/
def Chip.pcieFn (c : Chip) (p : Nat) : PcieFn := SMap.get {} p c.pcie

/-- Whether a port answers configuration requests with Configuration Request Retry Status: until the controller is ready
(R82). -/
def Chip.configRetry (c : Chip) : Bool := !c.flag Reg.CFG_STATUS_READY

/-- EV000 and EV001 (R116): a link comes up or goes down, or changes speed or width; going down resets the port (R85). No
link has a width of three lanes, or is up with none (R81). -/
def Chip.pcieLink (c : Chip) (p speed width : Nat) : Chip :=
  let width := if speed = 0 then 0 else width
  let was := c.get (Reg.HIF_STATUS_SPEED p)
  if (was = speed ∧ c.get (Reg.HIF_STATUS_WIDTH p) = width) ∨ width = 3 ∨ (speed ≠ 0 ∧ width = 0) then c
  else
    let c := (c.put (Reg.HIF_STATUS_SPEED p) speed).put (Reg.HIF_STATUS_WIDTH p) width
    let c := (c.put (Reg.HIF_STATUS_LINK_CHG p) 1).raise p 0 []
    if was ≠ 0 ∧ speed = 0 then c.portReset p else c.retarget 4

/-- R86: an access that is not one aligned 32-bit read or write. -/
def Chip.accessError (c : Chip) (p : Nat) (bar2 : Bool) (off : Nat) (write : Bool) (be : Nat) (wide : Bool) : Chip :=
  let c := if write then c else c.emit (.completerAbort p)
  let c :=
    if c.flag Reg.HIF_ACC_ERR_INFO_VALID then c
    else
      let c := (c.put Reg.HIF_ACC_ERR_ADDR_OFFSET off).put Reg.HIF_ACC_ERR_INFO_VALID 1
      let c := (c.put Reg.HIF_ACC_ERR_INFO_PORT p).putB Reg.HIF_ACC_ERR_INFO_BAR bar2
      let c := (c.putB Reg.HIF_ACC_ERR_INFO_WRITE write).put Reg.HIF_ACC_ERR_INFO_BE be
      c.putB Reg.HIF_ACC_ERR_INFO_WIDE wide
  (c.bump Reg.HIF_ACC_ERR_INFO_COUNT 1).raise 2 0 [(1, p), (1, b2n bar2), (4, off)]

/-! ### Reads (R17, R18, R50, R59, R83, R92, R201) -/

/-- The RC fields of a register cleared by a read (R17, R18): delta is what the hardware adds to each in that same cycle. -/
def Chip.rcClear (c : Chip) (off delta : Nat) : Chip :=
  ((fieldsAt off).filter fun f => decide (f.access = .rc)).foldl (fun c f => (c.clear (f.at off)).bump (f.at off) delta) c

/-- The number of a 64-bit pair among those that latch (R50). -/
def latchOf : LoReg → Nat
  | .et => 0
  | .enc n => 1 + n.val
  | .gateStop => 5
  | .ctxFs x => 6 + x.val
  | .errAddr => 14

/-- The pair whose LO register stands at an offset. -/
def loAt (off : Nat) : Option LoReg :=
  if off = 0x30000 then some .et
  else if 0x30080 ≤ off ∧ off < 0x300A0 ∧ off % 8 = 0 then some (.enc (Fin.ofNat 4 ((off - 0x30080) / 8)))
  else if off = 0x90010 then some .gateStop
  else if 0xA1000 ≤ off ∧ off < 0xA3000 ∧ off % 0x400 = 0x40 then some (.ctxFs (Fin.ofNat 8 ((off - 0xA1000) / 0x400)))
  else if off = 0xF0040 then some .errAddr
  else none

/-- The capture unit whose TS register of a kind (4 LO, 8 HI) stands at an offset. -/
def capAt (off k : Nat) : Option Nat :=
  if 0x300C0 ≤ off ∧ off < 0x30100 ∧ off % 0x10 = k then some ((off - 0x300C0) / 0x10) else none

/-- The 64-bit value of a pair. -/
def Chip.loValue (c : Chip) : LoReg → Nat
  | .et => c.now.toNat
  | .enc n => c.get64 (Reg.ETM_ENC_TS_LO_TS_LO n.val) (Reg.ETM_ENC_TS_HI_TS_HI n.val)
  | .gateStop => c.get64 Reg.HED_GATE_STOP_ET_LO_ET Reg.HED_GATE_STOP_ET_HI_ET
  | .ctxFs x => c.get64 (Reg.CAM_CTX_FS_ET_LO_ET x.val) (Reg.CAM_CTX_FS_ET_HI_ET x.val)
  | .errAddr => c.get64 Reg.DRC_ERR_ADDR_LO_ADDR Reg.DRC_ERR_ADDR_HI_ADDR

/-- A read of a LO register: the low half is returned and the upper half goes into the reading port's latch (R50). -/
def Chip.latchRead (c : Chip) (p k v : Nat) : Chip :=
  { c with latches := SMap.set 0 (64 * p + k) (v / 2 ^ 32 % 2 ^ 32) c.latches }.emit (.readData p (BitVec.ofNat 32 v))

/-- A read of ETM.CAPn_TS_LO (R50, R59). -/
def Chip.capRead (c : Chip) (p n : Nat) : Chip :=
  let v := c.get64 (Reg.ETM_CAP_TS_LO_TS n) (Reg.ETM_CAP_TS_HI_TS n)
  (c.latchRead p (16 + n) v).put (Reg.ETM_CAP_CTRL_VALID n) 0

/-- The latch a HI register reads as (R50). -/
def hiLatch (off : Nat) : Option Nat :=
  match capAt off 8 with
  | some n => some (16 + n)
  | none => if 4 ≤ off then (loAt (off - 4)).map latchOf else none

/-- The word BAR0 holds at an offset for a port (R42, R50, R201). -/
def Chip.readBar0 (c : Chip) (p off : Nat) : Nat :=
  match hiLatch off with
  | some k => SMap.get 0 (64 * p + k) c.latches
  | none =>
    if 0x100000 ≤ off ∧ off < 0x200000 then c.nztRead ((off - 0x100000) / 4)
    else if off / 0x10000 = 0x24 then c.subRead (off % 0x10000 / 4)
    else if 0x94000 ≤ off ∧ off < 0xA0000 ∧ c.gOf ((off - 0x94000) / 0x400) ≤ 32 * (off % 0x400 / 4) then 0
    else c.readWord off

/-- Pending bits of 32 vectors of a port from k on. -/
def Chip.pendingBits (c : Chip) (p k : Nat) : Nat :=
  ((List.range 32).map fun j => b2n (SMap.get {} (64 * p + k + j) c.msix).pending * 2 ^ j).sum

/-- The word a port's BAR2 holds at an offset (R83, R92): doorbell pages, the MSI-X table, the pending bit array. -/
def Chip.readBar2 (c : Chip) (p off : Nat) : Nat :=
  let n := off / 0x1000
  if off < 0x40000 then
    if off % 0x1000 = 0 then c.pi p n
    else if off % 0x1000 = 4 then c.ci p n + 0x10000 * c.ringState p n
    else 0
  else if off < 0x40400 then
    let x := SMap.get {} (64 * p + off % 0x400 / 16) c.msix
    if off % 16 = 0 then x.addr.toNat % 2 ^ 32
    else if off % 16 = 4 then x.addr.toNat / 2 ^ 32
    else if off % 16 = 8 then x.data.toNat
    else b2n x.masked
  else if off = 0x41000 then c.pendingBits p 0
  else if off = 0x41004 then c.pendingBits p 32
  else 0

/-- A read of one aligned word of BAR0: the word, then what the read does: a semaphore is taken, a pair is latched, a capture is
released, RC fields are cleared. -/
def Chip.readEffect (c : Chip) (p off delta : Nat) : Chip :=
  if 0x100 ≤ off ∧ off < 0x180 then c.semRead p ((off - 0x100) / 4) false
  else
    match loAt off, capAt off 4 with
    | some r, _ => c.latchRead p (latchOf r) (c.loValue r)
    | none, some n => c.capRead p n
    | none, none => (c.emit (.readData p (BitVec.ofNat 32 (c.readBar0 p off)))).rcClear off delta

/-- CAM.WRITE_RATE as a read finds it: what the cameras wrote to DRAM in the last ms, a free value within R291's limit, or 0
where no context is in use. -/
def Chip.sampleRate (c : Chip) : Chip :=
  if (List.range 8).any fun x => c.flag (Reg.CAM_CTX_BIND_ENABLE x) then
    c.drawn.put Reg.CAM_WRITE_RATE_MBPS (Config.freeNat c.fresh % 5001)
  else c.put Reg.CAM_WRITE_RATE_MBPS 0

/-- A read of one word by a host (R17, R84); one that is not aligned is an access error (R86). -/
def Chip.hostRead (c : Chip) (p : Nat) (bar2 : Bool) (off delta : Nat) : Chip :=
  if off % 4 ≠ 0 then c.accessError p bar2 off false 0xF false
  else if bar2 then c.emit (.readData p (BitVec.ofNat 32 (c.readBar2 p off)))
  else if off = 0xA0008 then c.sampleRate.readEffect p off delta
  else if 0x71000 ≤ off ∧ off < 0x74000 ∧ off % 0x100 = 0x0C then (c.alignRead ((off - 0x71000) / 0x100)).readEffect p off delta
  else c.readEffect p off delta

/-! ### Rings -/

/-- A write of HIF.Pp_RINGn_CFG (R91). -/
def Chip.ringCfg (c : Chip) (p n v : Nat) : Chip := if bit v 31 then c.ringCfgOn p n v else c.ringCfgOff p n v

/-- A write of HIF.Pp_RINGn_CTRL (R106, R107). -/
def Chip.ringCtrl (c : Chip) (p n v : Nat) : Chip :=
  let c := if bit v 0 then (if bit v 1 then c.restartSkipRing p n else c.restartRing p n) else c
  if bit v 2 then c.hostStopRing p n else c

/-- A doorbell (R94); an accepted one wakes the controller (R468). -/
def Chip.doorbell (c : Chip) (p n v : Nat) : Chip :=
  let accepted := decide (c.ringState p n ≠ 0) && c.doorbellOk p n v
  let c := c.ringDoorbell p n v
  if accepted then c.wake 1 else c

/-- The hold-off of R104 ends. -/
def Chip.holdoffEnd (c : Chip) (p n : Nat) : Chip :=
  match (c.ring p n).irqDue with
  | some t => (c.advanceTo t).ringIrq p n
  | none => c

/-- EV010 (R116): a LAYER ring has been held for more than 10 ms; raised once for each wait. -/
def Chip.heldLong (c : Chip) (p n : Nat) : Chip :=
  let r := c.ring p n
  match r.heldSince with
  | some t =>
    if r.heldTold then c
    else ((c.advanceTo (t + 10000000)).setRing p n { r with heldTold := true }).raise 10 0 []
  | none => c

/-! ### Register writes, block by block (R17, R42) -/

/-- A field that a register keeps as it is on this write. -/
def Chip.keep (c : Chip) (f : Field) (old : Nat) : Chip := c.put f old

/-- A write that is discarded because a feature owns the register (R372, R376, R384). -/
def Chip.owned (c : Chip) (off : Nat) : Chip := c.raise 183 0 [(4, off)]

/-- A write of one group window entry: where a slot owns the group's trim, the host's write of it is discarded with EV183, and
SBASE and GDELAY are written as ever (R256, R257, R372; DEDUCED: log entry 95). -/
def Chip.groupWindow (c : Chip) (h g v : Nat) : Chip :=
  let was := c.trimOwned h g
  let c := c.groupWrite h g v
  if was then c.owned (0x94000 + 4 * (256 * h + g)) else c

/-- A write within GLB. -/
def Chip.writeGlb (c : Chip) (p off v : Nat) : Chip :=
  if 0x100 ≤ off ∧ off < 0x180 then c.semWrite p ((off - 0x100) / 4) v else c.plainWrite off v

/-- A write of a ring register of ring n of port p (R91). -/
def Chip.writeRing (c : Chip) (p n k v : Nat) : Chip :=
  let off := 0x11000 + 0x1000 * p + 0x40 * n + k
  if k = 0x10 then c.ringCfg p n v
  else if k = 0x14 then c.ringCtrl p n v
  else if k < 0x10 ∧ c.ringOn p n then c
  else c.plainWrite off v

/-- A write within HIF. -/
def Chip.writeHif (c : Chip) (off v : Nat) : Chip :=
  if 0x11000 ≤ off ∧ off < 0x13000 then
    c.writeRing ((off - 0x11000) / 0x1000) (off % 0x1000 / 0x40) (off % 0x40) v
  else c.plainWrite off v

/-- A write of ETM.CTRL (R70). -/
def Chip.etmCtrl (c : Chip) (v : Nat) : Chip :=
  let c := c.plainWrite 0x30010 v
  (if c.get Reg.ETM_CTRL_SRC = 0 then c.forceFree else c).bmca

/-- A write of ETM.CAPn_CTRL: after commit EDGE does not leave 0 for a unit that made no claim (R484). -/
def Chip.capCtrl (c : Chip) (n v : Nat) : Chip :=
  let f := Reg.ETM_CAP_CTRL_EDGE n
  let old := c.get f
  let c := c.plainWrite (0x300C0 + 0x10 * n) v
  if c.flag Reg.CFG_STATUS_COMMITTED ∧ old = 0 ∧ bit c.conf.caps n = false then c.keep f 0 else c

/-- A write within ETM. -/
def Chip.writeEtm (c : Chip) (off v : Nat) : Chip :=
  let free := decide (c.get Reg.ETM_CTRL_SRC = 0)
  if off = 0x30008 then if free then c.plainWrite off v else c
  else if off = 0x30010 then c.etmCtrl v
  else if off = 0x30028 then if free then c.setRate (signed 32 v) else c
  else if off = 0x3003C then c.setCmd v
  else if 0x300C0 ≤ off ∧ off < 0x30100 ∧ off % 0x10 = 0 then c.capCtrl ((off - 0x300C0) / 0x10) v
  else c.plainWrite off v

/-- A write within ENET: a change of MODE resets the port's side of X18 (R458), and the fixed latencies follow it (R67). -/
def Chip.writeEnet (c : Chip) (off v : Nat) : Chip :=
  let q := (off - 0x40000) / 0x1000
  if off = 0x40000 + 0x1000 * q ∧ q < 2 then
    let mode := c.get (Reg.ENET_CTRL_MODE q)
    let c := c.plainWrite off v
    (if c.get (Reg.ENET_CTRL_MODE q) = mode then c else (c.showLatency q).flushQueue 18 q none).bmca
  else c.plainWrite off v

/-- A write of CRN.EST_CFG clears the window; the estimator is then not valid (R154). -/
def Chip.estCfg (c : Chip) (v : Nat) : Chip :=
  let was := c.estValid
  let c := c.plainWrite 0x6001C v
  ({ c with est := { c.est with window := [], fitted := false } }.showEst).estLost was

/-- A write of CRN.VMIN, which R154 compares with at once. -/
def Chip.vminWrite (c : Chip) (v : Nat) : Chip :=
  let was := c.estValid
  ((c.plainWrite 0x60020 v).showEst).estLost was

/-- A write within CRN. -/
def Chip.writeCrn (c : Chip) (off v : Nat) : Chip :=
  if off = 0x60000 then c.crnCtrl v
  else if off = 0x6001C then c.estCfg v
  else if off = 0x60020 then c.vminWrite v
  else if off = 0x60418 then c.weakWindow false v
  else if off = 0x6041C then c.weakWindow true v
  else if off = 0x60420 then c.moraineCtrl v
  else if 0x60500 ≤ off ∧ off < 0x60580 then c.greyWindow ((off - 0x60500) / 8) (decide (off % 8 = 4)) v
  else c.plainWrite off v

/-- A write of THL.LANEn_CFG: a changed ENABLE takes the lane out of OFF or into it. -/
def Chip.laneCfg (c : Chip) (n v : Nat) : Chip :=
  let was := c.flag (Reg.THL_LANE_CFG_ENABLE n)
  let c := c.plainWrite (0x71000 + 0x100 * n) v
  let on := c.flag (Reg.THL_LANE_CFG_ENABLE n)
  if on && !was then c.laneEnable n else if was && !on then c.laneDisable n else c

/-- The position a search finds where the command does not carry it: a free value (R220). -/
def foundFree (draw : Nat) : Option (Fin 10) :=
  if h : Config.freeNat draw % 11 < 10 then some ⟨Config.freeNat draw % 11, h⟩ else none

/-- A write within THL. -/
def Chip.writeThl (c : Chip) (off v : Nat) : Chip :=
  let n := (off - 0x71000) / 0x100
  if 0x71000 ≤ off ∧ n < 48 then
    if off % 0x100 = 0 then c.laneCfg n v
    else if off % 0x100 = 8 then c.drawn.alignCtrl n v (foundFree c.fresh)
    else c.plainWrite off v
  else c.plainWrite off v

/-- A write within HED. -/
def Chip.writeHed (c : Chip) (off v : Nat) : Chip :=
  if off = 0x90004 then c.gateCtrl v
  else if 0x91000 ≤ off ∧ off < 0x91C00 then
    let h := (off - 0x91000) / 0x40
    if off % 0x40 = 0 then c.headCfg h v else if off % 0x40 = 4 then c.headCtrl h v else c.plainWrite off v
  else if 0x92000 ≤ off ∧ off < 0x93000 then c.driveWrite ((off - 0x92000) / 4) v
  else if 0x94000 ≤ off ∧ off < 0xA0000 then c.groupWindow ((off - 0x94000) / 0x400) (off % 0x400 / 4) v
  else c.plainWrite off v

/-- A write of CAM.CTXx_TRIG_PERIOD, within the limit of MODE. -/
def Chip.trigPeriod (c : Chip) (x v : Nat) : Chip :=
  let mode := c.get (Reg.CAM_CTX_TRIG_MODE x)
  let least := if mode = 1 then 1000 else if mode = 0 then 0 else 1
  c.put (Reg.CAM_CTX_TRIG_PERIOD_PERIOD x) (max least v)

/-- A write of CAM.PORTp_CFG: clearing ENABLE resets the port's side of X13 and X14 (R458). -/
def Chip.camPortCfg (c : Chip) (p v : Nat) : Chip :=
  let was := c.flag (Reg.CAM_PORT_CFG_ENABLE p)
  let c := c.plainWrite (0xA0100 + 0x20 * p) v
  if was && !c.flag (Reg.CAM_PORT_CFG_ENABLE p) then (c.flushQueue 13 p none).quarantine 14 p else c

/-- A write of CAM.PIPEp_CFG: PRIV and PRIV_CTX stand in PIPE0 only. -/
def Chip.pipeCfg (c : Chip) (p v : Nat) : Chip :=
  c.plainWrite (0xA0200 + 0x20 * p) (if p = 0 then v else v % 2 ^ 24)

/-- A write of a register of context x. -/
def Chip.writeCtx (c : Chip) (x k v : Nat) : Chip :=
  if k = 0x0C then c.trigMode x v
  else if k = 0x18 then c.trigPeriod x v
  else if k = 0x24 then c.trigCmd x v
  else if k = 0x28 then c.applyCtl x v
  else if 0x80 ≤ k ∧ k < 0xC0 then if x < 2 then c.plainWrite (0xA1000 + 0x400 * x + k) v else c
  else if 0x100 ≤ k ∧ k < 0x200 then c.shadowWrite x (k - 0x100) v
  else c.plainWrite (0xA1000 + 0x400 * x + k) v

/-- A write within CAM. -/
def Chip.writeCam (c : Chip) (off v : Nat) : Chip :=
  if 0xA0100 ≤ off ∧ off < 0xA0180 ∧ off % 0x20 = 0 then c.camPortCfg ((off - 0xA0100) / 0x20) v
  else if 0xA0200 ≤ off ∧ off < 0xA0280 ∧ off % 0x20 = 0 then c.pipeCfg ((off - 0xA0200) / 0x20) v
  else if 0xA1000 ≤ off ∧ off < 0xA3000 then c.writeCtx ((off - 0xA1000) / 0x400) (off % 0x400) v
  else c.plainWrite off v

/-- A write of HEL.THRESH: one that breaks R322 is discarded and raises EV061. -/
def Chip.helThresh (c : Chip) (v : Nat) : Chip :=
  let weak := bits v 0 8
  if bits v 16 8 < weak ∧ weak ≤ bits v 8 8 ∧ bits v 24 3 ≠ 0 ∧ bits v 28 3 ≠ 0 then c.plainWrite 0xB0018 v
  else c.raise 61 0 []

/-- A write within HEL. Heal freezes or resumes with HEL.CFG.CTX_EN (R325). -/
def Chip.writeHel (c : Chip) (off v : Nat) : Chip :=
  if off = 0xB0000 then c.helCtrl v else if off = 0xB0018 then c.helThresh v else if off = 0xB000C then (c.plainWrite off v).refreshFrozen
  else c.plainWrite off v

/-- A write within MOT. -/
def Chip.writeMot (c : Chip) (off v : Nat) : Chip :=
  if off = 0xC0000 then c.motCtrl v
  else if 0xC0040 ≤ off ∧ off < 0xC0080 ∧ off % 0x10 = 0 then c.drvCfg ((off - 0xC0040) / 0x10) v
  else if 0xC0100 ≤ off ∧ off < 0xC0180 ∧ off % 0x20 = 4 then c.encCountWrite ((off - 0xC0100) / 0x20) v
  else if 0xC1000 ≤ off ∧ off < 0xC1800 ∧ off % 0x100 = 0x3C then c.axisCtrl ((off - 0xC1000) / 0x100) v
  else c.plainWrite off v

/-- A write of a setpoint, coefficient, shift or limit register of a slot (R377); SP_TGT follows each write of SP. -/
def Chip.slotReg (c : Chip) (s k v : Nat) : Chip :=
  let off := 0xD1000 + 0x80 * s + k
  if c.slotOn s then c.owned off
  else
    let c := c.plainWrite off v
    if k = 0x10 then c.put (Reg.LOP_LS_SP_TGT_VALUE s) v else c

/-- A write within LOP. -/
def Chip.writeLop (c : Chip) (off v : Nat) : Chip :=
  let s := (off - 0xD1000) / 0x80
  if 0xD0040 ≤ off ∧ off < 0xD0080 then
    if c.destOwned 3 ((off - 0xD0040) / 4) then c.owned off else c.plainWrite off v
  else if 0xD1000 ≤ off ∧ s < 64 ∧ 0x10 ≤ off % 0x80 ∧ off % 0x80 ≤ 0x40 then c.slotReg s (off % 0x80) v
  else c.plainWrite off v

/-- A write of IOX.GPIO_DIR: the unclaimed bits are set, and balls that become outputs are driven (R384). -/
def Chip.gpioDir (c : Chip) (i v : Nat) : Chip := c.gpioBits (Reg.IOX_GPIO_DIR_BITS i) i (2 ^ 32 - 1) v (0xE2020 + 4 * i)

/-- A write within IOX. -/
def Chip.writeIox (c : Chip) (off v : Nat) : Chip :=
  let i := off % 8 / 4
  if 0xE0100 ≤ off ∧ off < 0xE01C0 ∧ off % 8 = 4 then c.ainWindow ((off - 0xE0100) / 8) v
  else if 0xE1000 ≤ off ∧ off < 0xE1200 ∧ off % 0x10 = 4 ∧ c.destOwned 1 ((off - 0xE1000) / 0x10) then c.owned off
  else if off = 0xE2008 + 4 * i then c.gpioBits (Reg.IOX_GPIO_OUT_BITS i) i (2 ^ 32 - 1) v off
  else if off = 0xE2010 + 4 * i then c.gpioSet i v
  else if off = 0xE2018 + 4 * i then c.gpioClr i v
  else if off = 0xE2020 + 4 * i then c.gpioDir i v
  else c.plainWrite off v

/-- A write of CKP.PSTATE_CFG: the target is computed anew (R466). -/
def Chip.pstateCfg (c : Chip) (v : Nat) : Chip :=
  let c := (c.plainWrite 0x210008 v).retarget 8
  if c.target = 1 ∧ c.pstate = 0 ∧ c.power.exit.isNone then c.enterState 1 else c

/-- A write within CKP. -/
def Chip.writeCkp (c : Chip) (off v : Nat) : Chip :=
  if off = 0x210004 then c.ckpCtrl v
  else if off = 0x210008 then c.pstateCfg v
  else if off = 0x21000C then c.ltrWrite 0 v
  else if off = 0x210010 then c.ltrWrite 1 v
  else c.plainWrite off v

/-- A write within CFG: CFG.IMAGE is closed while the flash is busy (R479). -/
def Chip.writeCfg (c : Chip) (p off v : Nat) : Chip :=
  if off = 0x220000 then c.cfgCtrl p v
  else if 0x224000 ≤ off ∧ c.flag Reg.CFG_STATUS_FLASH_BUSY then c
  else c.plainWrite off v

/-- A write within PHY. -/
def Chip.writePhy (c : Chip) (off v : Nat) : Chip :=
  if 0x231000 ≤ off ∧ off < 0x231C00 ∧ off % 0x40 = 0 then c.phyCtrl ((off - 0x231000) / 0x40) v else c.plainWrite off v

/-- An aligned write of one word to BAR0, by port p, below the table windows (R42). -/
def Chip.writeLow (c : Chip) (p off v : Nat) : Chip :=
  match off / 0x10000 with
  | 0x0 => c.writeGlb p off v
  | 0x1 => c.writeHif off v
  | 0x3 => c.writeEtm off v
  | 0x4 => c.writeEnet off v
  | 0x6 => c.writeCrn off v
  | 0x7 => c.writeThl off v
  | 0x9 => c.writeHed off v
  | 0xA => c.writeCam off v
  | 0xB => c.writeHel off v
  | 0xC => c.writeMot off v
  | 0xD => c.writeLop off v
  | 0xE => c.writeIox off v
  | 0xF => if off = 0xF002C then c.spareCtrl v else c.plainWrite off v
  | _ => c.plainWrite off v

/-- An aligned write of one word to BAR0, by port p (R42, R43). -/
def Chip.writeBar0 (c : Chip) (p off v : Nat) : Chip :=
  if off < 0x100000 then c.writeLow p off v
  else if off < 0x200000 then c.nztWindow ((off - 0x100000) / 4) v
  else
    match off / 0x10000 with
    | 0x20 => if off = 0x200008 then c.tdmCtrl v else c.plainWrite off v
    | 0x21 => c.writeCkp off v
    | 0x22 => c.writeCfg p off v
    | 0x23 => c.writePhy off v
    | 0x24 => c.subWindow (off % 0x10000 / 4) v
    | 0x25 => c.mapWindow 0 (off % 0x10000 / 4) v
    | 0x26 => c.mapWindow 1 (off % 0x10000 / 4) v
    | 0x27 => c.mapWindow 2 (off % 0x10000 / 4) v
    | 0x28 => c.mapWindow 3 (off % 0x10000 / 4) v
    | _ => c

/-- A write of one word of a port's MSI-X table (R83): address, data, and vector control, whose bit 0 masks; a vector
unmasked with its pending bit set is signalled (R498). -/
def Chip.msixWrite (c : Chip) (p e k v : Nat) : Chip :=
  let x := SMap.get {} (64 * p + e) c.msix
  let put := fun (c : Chip) (x : MsixEntry) => { c with msix := SMap.set {} (64 * p + e) x c.msix }
  if k = 0 then put c { x with addr := BitVec.ofNat 64 (x.addr.toNat / 2 ^ 32 * 2 ^ 32 + v / 4 * 4) }
  else if k = 1 then put c { x with addr := BitVec.ofNat 64 (x.addr.toNat % 2 ^ 32 + v * 2 ^ 32) }
  else if k = 2 then put c { x with data := BitVec.ofNat 32 v }
  else if bit v 0 then put c { x with masked := true }
  else
    let fire := x.pending
    let c := put c { x with masked := false, pending := false }
    if fire then c.vector p e else c

/-- An aligned write of one word to a port's BAR2 (R83, R92). -/
def Chip.writeBar2 (c : Chip) (p off v : Nat) : Chip :=
  if off < 0x40000 then if off % 0x1000 = 0 then c.doorbell p (off / 0x1000) v else c
  else if off < 0x40400 then c.msixWrite p (off % 0x400 / 16) (off % 16 / 4) v
  else c

/-- A write of one word by a host; one that is not aligned is an access error (R86). -/
def Chip.hostWrite (c : Chip) (p : Nat) (bar2 : Bool) (off v : Nat) : Chip :=
  if off % 4 ≠ 0 then c.accessError p bar2 off true 0xF false
  else if bar2 then c.writeBar2 p off v
  else c.writeBar0 p off v

/-- The outcome of a host access: in P3 the controller leaves the state first (R468). -/
def State.access (s : State) (f : Chip → Chip) : Host.Outcome State Fault Refusal := s.go (f s.toChip.accessWake)

/-! ### Host access -/

/-- The setting a port's function holds, replaced. -/
def Chip.setPcieFn (c : Chip) (p : Nat) (f : PcieFn) : Chip := { c with pcie := SMap.set {} p f c.pcie }

/-- The vectors of a port that wait and are masked no longer are signalled (R498). -/
def Chip.unmaskFn (c : Chip) (p : Nat) : Chip :=
  (List.range 64).foldl (fun (c : Chip) e =>
    let x := SMap.get {} (64 * p + e) c.msix
    if x.pending ∧ x.masked = false then
      ({ c with msix := SMap.set {} (64 * p + e) { x with pending := false } c.msix }).vector p e
    else c) c

/-- A write of a configuration register (R81, R498). A value the port does not support is discarded (DESIGN CHOICE: log entry
83). -/
def Chip.cfgWrite (c : Chip) (p : Nat) (r : CfgReg) (v : Nat) : Chip :=
  let f := c.pcieFn p
  match r with
  | .msixControl =>
    let c := c.setPcieFn p { f with fnMasked := bit v 14 }
    if f.fnMasked ∧ bit v 14 = false then c.unmaskFn p else c
  | .powerControl => if bits v 0 2 = 0 ∨ bits v 0 2 = 3 then c.setPcieFn p { f with d3hot := decide (bits v 0 2 = 3) } else c
  | .deviceControl => c.setPcieFn p { f with
      maxPayload := if bits v 5 3 ≤ 2 then 128 * 2 ^ bits v 5 3 else f.maxPayload
      readRequest := if bits v 12 3 ≤ 5 then 128 * 2 ^ bits v 12 3 else f.readRequest }
  | .deviceControl2 =>
    if bits v 0 4 ∈ [0, 5, 6, 9, 10, 13, 14] then c.setPcieFn p { f with timeoutRange := bits v 0 4 } else c
  | .linkControl => c.setPcieFn p { f with aspmL1 := bit v 1 }
  | .aerControl => c.setPcieFn p { f with
      ecrcGen := bit v 6
      ecrcCheck := bit v 8 }
  | _ => c

/-- log2 of a size in units of 128 bytes, as the Device Control register encodes it. -/
def sizeCode (n : Nat) : Nat := (n / 128).log2

/-- The word of a configuration register (R81); the revision ID, which the spec does not give, is free. -/
def Chip.cfgWord (c : Chip) (p : Nat) (r : CfgReg) : Nat :=
  let f := c.pcieFn p
  match r with
  | .id => 0x01961E5A
  | .classCode => pcieClass * 256 + (Config.freeByte c.fresh).toNat
  | .subsystem => c.readWord Reg.CFG_SUBSYS_SVID.off
  | .msixControl => 63 + 16384 * b2n f.fnMasked
  | .powerControl => if f.d3hot then 3 else 0
  | .deviceControl => 32 * sizeCode f.maxPayload + 4096 * sizeCode f.readRequest
  | .deviceControl2 => f.timeoutRange
  | .linkControl => 2 * b2n f.aspmL1
  | .aerControl => 64 * b2n f.ecrcGen + 256 * b2n f.ecrcCheck

/-- A configuration request: until the controller is ready it is answered with Retry Status and has no effect (R82). -/
def Chip.configRequest (c : Chip) (p : Nat) (f : Chip → Chip) : Chip :=
  if c.flag Reg.CFG_STATUS_READY then f c else c.emit (.configRetry p)

/-- REGISTER_WRITE (R17): a write to BAR0, BAR2 or configuration space; tie is the value the other port writes to the same BAR0 register in the same
core clock cycle: both writes act, and port A's comes last, so that its value stays (R87). -/
def execRegisterWrite (p : Port) (space : Space) (off : BitVec 24) (v : HostWord) (s : State) :
    Host.Outcome State Fault Refusal :=
  s.access fun c =>
    match space, v.tie with
    | .config r, _ => c.configRequest p.num fun c => c.cfgWrite p.num r v.word.toNat
    | .bar2, _ => c.hostWrite p.num true off.toNat v.word.toNat
    | .bar0, none => c.hostWrite p.num false off.toNat v.word.toNat
    | .bar0, some w =>
      let b := if p.num = 0 then w else v.word
      let a := if p.num = 0 then v.word else w
      (c.hostWrite 1 false off.toNat b.toNat).hostWrite 0 false off.toNat a.toNat

/-- RC_FIELD_READ (R18), and every other read of a word of BAR0, BAR2 or configuration space. -/
def execRcFieldRead (p : Port) (a : SpaceOff) (delta : Nat) (s : State) : Host.Outcome State Fault Refusal :=
  s.access fun c =>
    match a.space with
    | .config r => c.configRequest p.num fun c => c.drawn.emit (.readData p.num (BitVec.ofNat 32 (c.cfgWord p.num r)))
    | .bar2 => c.hostRead p.num true a.off.toNat delta
    | .bar0 => c.hostRead p.num false a.off.toNat delta

/-- ACCESS_ERROR (R86): nothing of the kind where the access is one aligned 32-bit access. -/
def execAccessError (p : Port) (bar2 : Bool) (off : BitVec 24) (write : Bool) (be : BitVec 4) (wide : Bool) (s : State) :
    Host.Outcome State Fault Refusal :=
  s.access fun c =>
    if be = 0xF ∧ wide = false ∧ off.toNat % 4 = 0 then c
    else c.accessError p.num bar2 off.toNat write be.toNat wide

/-- ET_LO_READ (R50). -/
def execEtLoRead (p : Port) (r : LoReg) (s : State) : Host.Outcome State Fault Refusal :=
  s.access fun c => c.latchRead p.num (latchOf r) (c.loValue r)

/-- CAP_TS_READ (R59). -/
def execCapTsRead (p : Port) (n : Fin 4) (s : State) : Host.Outcome State Fault Refusal :=
  s.access fun c => c.capRead p.num n.val

/-- SEM_READ (R113, R114). -/
def execSemRead (p : Port) (n : Fin 32) (tie : Bool) (s : State) : Host.Outcome State Fault Refusal :=
  s.access fun c => c.semRead p.num n.val tie

/-- SEM_WRITE (R113). -/
def execSemWrite (p : Port) (n : Fin 32) (v : Word) (s : State) : Host.Outcome State Fault Refusal :=
  s.access fun c => c.semWrite p.num n.val v.toNat

/-- PCIE_LINK_CHANGE (R116). -/
def execPcieLinkChange (p : Port) (speed width : Fin 5) (s : State) : Host.Outcome State Fault Refusal :=
  s.go (s.toChip.pcieLink p.num speed.val width.val)

/-- PORT_RESET (R85). -/
def execPortReset (p : Port) (s : State) : Host.Outcome State Fault Refusal := s.go (s.toChip.portReset p.num)

/-! ### Rings -/

/-- RING_ENABLE (R91): HIF.Pp_RINGn_CFG written. -/
def execRingEnable (_via p : Port) (n : Fin 64) (v : Word) (s : State) : Host.Outcome State Fault Refusal :=
  s.access fun c => c.ringCfg p.num n.val v.toNat

/-- RING_DISABLE (R91): HIF.Pp_RINGn_CFG written. -/
def execRingDisable (_via p : Port) (n : Fin 64) (v : Word) (s : State) : Host.Outcome State Fault Refusal :=
  s.access fun c => c.ringCfg p.num n.val v.toNat

/-- DOORBELL (R94). -/
def execDoorbell (p : Port) (n : Fin 64) (v : Word) (s : State) : Host.Outcome State Fault Refusal :=
  s.access fun c => c.doorbell p.num n.val v.toNat

/-- DESCRIPTOR_FETCH (R102): data is none where the read failed. A descriptor is 64 bytes (R96); another length is no
transfer of this hardware. -/
def execDescriptorFetch (p : Port) (n : Fin 64) (data : Option (List Byte)) (s : State) :
    Host.Outcome State Fault Refusal :=
  match data with
  | none => s.go (s.toChip.fetchDesc p.num n.val none)
  | some d => if d.length = 64 then s.go (s.toChip.fetchDesc p.num n.val (some d)) else .fault .malformed

/-- IRQ_HOLDOFF (R104). -/
def execIrqHoldoff (p : Port) (n : Fin 64) (s : State) : Host.Outcome State Fault Refusal :=
  s.go (s.toChip.holdoffEnd p.num n.val)

/-- RESTART (R106): HIF.Pp_RINGn_CTRL written. -/
def execRestart (_via p : Port) (n : Fin 64) (v : Word) (s : State) : Host.Outcome State Fault Refusal :=
  s.access fun c => c.ringCtrl p.num n.val v.toNat

/-- RESTART_SKIP (R106): HIF.Pp_RINGn_CTRL written. -/
def execRestartSkip (_via p : Port) (n : Fin 64) (v : Word) (s : State) : Host.Outcome State Fault Refusal :=
  s.access fun c => c.ringCtrl p.num n.val v.toNat

/-- HOST_STOP (R107): HIF.Pp_RINGn_CTRL written. -/
def execHostStop (_via p : Port) (n : Fin 64) (v : Word) (s : State) : Host.Outcome State Fault Refusal :=
  s.access fun c => c.ringCtrl p.num n.val v.toNat

/-- BLOCK_AREA_SPACE (R109). -/
def execBlockAreaSpace (p : Port) (n : Fin 64) (s : State) : Host.Outcome State Fault Refusal :=
  s.go (s.toChip.spaceCome p.num n.val)

/-- LAYER_HELD_TIMEOUT (R116). -/
def execLayerHeldTimeout (p : Port) (n : Fin 64) (s : State) : Host.Outcome State Fault Refusal :=
  s.go (s.toChip.heldLong p.num n.val)

/-- INSPECT_BUF (R110), with the errors that the reads of the item met (R403). -/
def execInspectBuf (p : Port) (r : ItemRead) (s : State) : Host.Outcome State Fault Refusal :=
  let c := s.toChip
  let item := c.inspItems.find? (InspItem.waits p.num r.ring.val)
  s.go ((c.inspectBuffer p.num r.ring.val r.reads).hostReads 4
    (if c.bufTakes p.num r.ring.val 0x60 (item.map (·.body.length)) then r.reads else []))

/-- STATE_BUF (R111), with the errors that the reads of the item met (R403). -/
def execStateBuf (p : Port) (r : ItemRead) (s : State) : Host.Outcome State Fault Refusal :=
  let c := s.toChip
  let item := c.stateItems.find? (StateItem.waits p.num r.ring.val)
  s.go ((c.stateBuffer p.num r.ring.val r.reads).hostReads 3
    (if c.bufTakes p.num r.ring.val 0x61 (item.map (·.body.length)) then r.reads else []))

/-- EVENT_SLOT (R112). -/
def execEventSlot (p : Port) (n : Fin 64) (s : State) : Host.Outcome State Fault Refusal :=
  s.go (s.toChip.eventSlotTake p.num n.val)

/-! ### Register writes with rows of their own -/

/-- ET_SET_GO (R74): ETM.SET_CMD written. -/
def execEtSetGo (_p : Port) (v : Word) (s : State) : Host.Outcome State Fault Refusal :=
  s.access fun c => c.setCmd v.toNat

/-- ABORT (R151): CRN.CTRL written. -/
def execAbort (_p : Port) (v : Word) (s : State) : Host.Outcome State Fault Refusal :=
  s.access fun c => c.crnCtrl v.toNat

/-- NZT_WINDOW_WRITE (R176, R202). -/
def execNztWindowWrite (_p : Port) (i : Fin 262144) (v : Word) (s : State) : Host.Outcome State Fault Refusal :=
  s.access fun c => c.nztWindow i.val v.toNat

/-- SUB_WINDOW_WRITE (R177, R202). -/
def execSubWindowWrite (_p : Port) (i : Fin 16384) (v : Word) (s : State) : Host.Outcome State Fault Refusal :=
  s.access fun c => c.subWindow i.val v.toNat

/-- GREY_WRITE (R185, R202). -/
def execGreyWrite (_p : Port) (t : Fin 16) (hi : Bool) (v : Word) (s : State) : Host.Outcome State Fault Refusal :=
  s.access fun c => c.greyWindow t.val hi v.toNat

/-- WEAK_MAP_WRITE (R186, R202). -/
def execWeakMapWrite (_p : Port) (hi : Bool) (v : Word) (s : State) : Host.Outcome State Fault Refusal :=
  s.access fun c => c.weakWindow hi v.toNat

/-- MORAINE_EXPORT (R210): CRN.MORAINE_CTRL written. -/
def execMoraineExport (_p : Port) (v : Word) (s : State) : Host.Outcome State Fault Refusal :=
  s.access fun c => c.moraineCtrl v.toNat

/-- SEARCH (R220): THL.LANEn_ALIGN written; found is the position its search finds. -/
def execSearch (_p : Port) (n : Fin 48) (v : Word) (found : Option (Fin 10)) (s : State) :
    Host.Outcome State Fault Refusal :=
  s.access fun c => c.alignCtrl n.val v.toNat found

/-- SLIP (R220): THL.LANEn_ALIGN written; a search that SEARCH of the same word starts finds a free position. -/
def execSlip (_p : Port) (n : Fin 48) (v : Word) (s : State) : Host.Outcome State Fault Refusal :=
  s.access fun c => c.drawn.alignCtrl n.val v.toNat (foundFree c.fresh)

/-- LOOP (R242): PHY.LANEn_CTRL written. -/
def execLoop (_p : Port) (n : Fin 48) (v : Word) (s : State) : Host.Outcome State Fault Refusal :=
  s.access fun c => c.phyCtrl n.val v.toNat

/-- PRBS (R243): PHY.LANEn_CTRL written. -/
def execPrbs (_p : Port) (n : Fin 48) (v : Word) (s : State) : Host.Outcome State Fault Refusal :=
  s.access fun c => c.phyCtrl n.val v.toNat

/-- ACCEPT (R250): HED.HEADn_CTRL written. -/
def execAccept (_p : Port) (h : Fin 48) (v : Word) (s : State) : Host.Outcome State Fault Refusal :=
  s.access fun c => c.headCtrl h.val v.toNat

/-- REREAD (R251): HED.HEADn_CTRL written. -/
def execReread (_p : Port) (h : Fin 48) (v : Word) (s : State) : Host.Outcome State Fault Refusal :=
  s.access fun c => c.headCtrl h.val v.toNat

/-- DRIVE_SET_WRITE (R254, R257). -/
def execDriveSetWrite (_p : Port) (w : Fin 1024) (v : Word) (s : State) : Host.Outcome State Fault Refusal :=
  s.access fun c => c.driveWrite w.val v.toNat

/-- GROUP_WINDOW_WRITE (R256, R257). -/
def execGroupWindowWrite (_p : Port) (h : Fin 48) (g : Fin 256) (v : Word) (s : State) :
    Host.Outcome State Fault Refusal :=
  s.access fun c => c.groupWindow h.val g.val v.toNat

/-- DSET_WRITE (R257): HED.HEADn_CFG written. -/
def execDsetWrite (_p : Port) (h : Fin 48) (v : Word) (s : State) : Host.Outcome State Fault Refusal :=
  s.access fun c => c.headCfg h.val v.toNat

/-- FORCE_STOP (R267): HED.GATE_CTRL written. -/
def execForceStop (_p : Port) (v : Word) (s : State) : Host.Outcome State Fault Refusal :=
  s.access fun c => c.gateCtrl v.toNat

/-- CLEAR_STRIKE (R268): HED.GATE_CTRL written. -/
def execClearStrike (_p : Port) (v : Word) (s : State) : Host.Outcome State Fault Refusal :=
  s.access fun c => c.gateCtrl v.toNat

/-- ARM (R294): CAM.CTXx_APPLY written. -/
def execArm (_p : Port) (x : Fin 8) (v : Word) (s : State) : Host.Outcome State Fault Refusal :=
  s.access fun c => c.applyCtl x.val v.toNat

/-- DISARM (R295): CAM.CTXx_APPLY written. -/
def execDisarm (_p : Port) (x : Fin 8) (v : Word) (s : State) : Host.Outcome State Fault Refusal :=
  s.access fun c => c.applyCtl x.val v.toNat

/-- SHADOW_WRITE (R295). -/
def execShadowWrite (_p : Port) (x : Fin 8) (off : BitVec 8) (v : Word) (s : State) : Host.Outcome State Fault Refusal :=
  s.access fun c => c.shadowWrite x.val off.toNat v.toNat

/-- MAP_WINDOW_WRITE (R300). -/
def execMapWindowWrite (_p : Port) (pipe : Fin 4) (i : Fin 16384) (v : Word) (s : State) :
    Host.Outcome State Fault Refusal :=
  s.access fun c => c.mapWindow pipe.val i.val v.toNat

/-- TRIG_START (R302): CAM.CTXx_TRIG_CMD written. -/
def execTrigStart (_p : Port) (x : Fin 8) (v : Word) (s : State) : Host.Outcome State Fault Refusal :=
  s.access fun c => c.trigCmd x.val v.toNat

/-- TRIG_STOP (R302): CAM.CTXx_TRIG_CMD written. -/
def execTrigStop (_p : Port) (x : Fin 8) (v : Word) (s : State) : Host.Outcome State Fault Refusal :=
  s.access fun c => c.trigCmd x.val v.toNat

/-- CLOSE (R312): HEL.CTRL written. -/
def execClose (_p : Port) (v : Word) (s : State) : Host.Outcome State Fault Refusal :=
  s.access fun c => c.helCtrl v.toNat

/-- ENC_COUNT_WRITE (R332). -/
def execEncCountWrite (_p : Port) (n : Fin 4) (v : Word) (s : State) : Host.Outcome State Fault Refusal :=
  s.access fun c => c.encCountWrite n.val v.toNat

/-- ESTOP (R346): MOT.CTRL written. -/
def execEstop (_p : Port) (v : Word) (s : State) : Host.Outcome State Fault Refusal :=
  s.access fun c => c.motCtrl v.toNat

/-- ESTOP_CLR (R362): MOT.CTRL written. -/
def execEstopClr (_p : Port) (v : Word) (s : State) : Host.Outcome State Fault Refusal :=
  s.access fun c => c.motCtrl v.toNat

/-- CLEAR_FAULT (R362): MOT.AXa_CTRL written. -/
def execClearFault (_p : Port) (a : Fin 8) (v : Word) (s : State) : Host.Outcome State Fault Refusal :=
  s.access fun c => c.axisCtrl a.val v.toNat

/-- USTEP_SWAP (R351): MOT.AXa_CTRL written. -/
def execUstepSwap (_p : Port) (a : Fin 8) (v : Word) (s : State) : Host.Outcome State Fault Refusal :=
  s.access fun c => c.axisCtrl a.val v.toNat

/-- GPIO_SET (R384). -/
def execGpioSet (_p : Port) (hi : Bool) (v : Word) (s : State) : Host.Outcome State Fault Refusal :=
  s.access fun c => c.gpioSet (b2n hi) v.toNat

/-- GPIO_CLR (R384). -/
def execGpioClr (_p : Port) (hi : Bool) (v : Word) (s : State) : Host.Outcome State Fault Refusal :=
  s.access fun c => c.gpioClr (b2n hi) v.toNat

/-- SPARE_START (R407): DRC.SPARE_CTRL written. -/
def execSpareStart (_p : Port) (v : Word) (s : State) : Host.Outcome State Fault Refusal :=
  s.access fun c => c.spareCtrl v.toNat

/-- TAKE (R439): TDM.CTRL written. -/
def execTake (_p : Port) (v : Word) (s : State) : Host.Outcome State Fault Refusal :=
  s.access fun c => c.tdmCtrl v.toNat

/-- CTRL_RESYNC (R429): TDM.CTRL written. -/
def execCtrlResync (_p : Port) (v : Word) (s : State) : Host.Outcome State Fault Refusal :=
  s.access fun c => c.tdmCtrl v.toNat

/-- SOFT_RESET (R462): CKP.CTRL written. -/
def execSoftReset (_p : Port) (v : Word) (s : State) : Host.Outcome State Fault Refusal :=
  s.access fun c => c.ckpCtrl v.toNat

/-- LTR_WRITE (R466). -/
def execLtrWrite (_p which : Port) (v : Word) (s : State) : Host.Outcome State Fault Refusal :=
  s.access fun c => c.ltrWrite which.num v.toNat

/-- COMMIT (R481): CFG.CTRL written. -/
def execCommit (p : Port) (v : Word) (s : State) : Host.Outcome State Fault Refusal :=
  s.access fun c => c.cfgCtrl p.num v.toNat

/-- FLASH_WRITE (R479): CFG.CTRL written. -/
def execFlashWrite (p : Port) (v : Word) (s : State) : Host.Outcome State Fault Refusal :=
  s.access fun c => c.cfgCtrl p.num v.toNat

/-- LEDGER_ERASE (R488): CFG.CTRL written. -/
def execLedgerErase (p : Port) (v : Word) (s : State) : Host.Outcome State Fault Refusal :=
  s.access fun c => c.cfgCtrl p.num v.toNat

end Sys2Proof.Machine
end

