-- ==== Sys2Proof/Machine/Dispatch.lean ====
section
/-! DEFINITION. Machine/Dispatch.lean: one arm per command, each one direct call of its meaning. -/

namespace Sys2Proof.Machine

def exec (i : Instr) (s : State) : Host.Outcome State Fault Refusal :=
  match i with
  | .registerWrite p space off v => Sys2Proof.Machine.execRegisterWrite p space off v s
  | .rcFieldRead p a delta => Sys2Proof.Machine.execRcFieldRead p a delta s
  | .accessError p bar2 off write be wide => Sys2Proof.Machine.execAccessError p bar2 off write be wide s
  | .etLoRead p r => Sys2Proof.Machine.execEtLoRead p r s
  | .capTsRead p n => Sys2Proof.Machine.execCapTsRead p n s
  | .semRead p n tie => Sys2Proof.Machine.execSemRead p n tie s
  | .semWrite p n v => Sys2Proof.Machine.execSemWrite p n v s
  | .etWrap => Sys2Proof.Machine.execEtWrap s
  | .scheduledAction => Sys2Proof.Machine.execScheduledAction s
  | .etSetGo p v => Sys2Proof.Machine.execEtSetGo p v s
  | .encoderEdge n line level stamp => Sys2Proof.Machine.execEncoderEdge n line level stamp s
  | .captureEdge n rising stamp => Sys2Proof.Machine.execCaptureEdge n rising stamp s
  | .ethFrameReceived port f => Sys2Proof.Machine.execEthFrameReceived port f s
  | .sync port h twoStep origin correction arrival => Sys2Proof.Machine.execSync port h twoStep origin correction arrival s
  | .followUp port h origin correction => Sys2Proof.Machine.execFollowUp port h origin correction s
  | .delayReq port m arrival => Sys2Proof.Machine.execDelayReq port m arrival s
  | .delayResp port h requester receipt correction => Sys2Proof.Machine.execDelayResp port h requester receipt correction s
  | .pdelayReq port m arrival departure => Sys2Proof.Machine.execPdelayReq port m arrival departure s
  | .pdelayResp port h m => Sys2Proof.Machine.execPdelayResp port h m s
  | .announce port h m => Sys2Proof.Machine.execAnnounce port h m s
  | .syncInterval port departure => Sys2Proof.Machine.execSyncInterval port departure s
  | .delayInterval port departure => Sys2Proof.Machine.execDelayInterval port departure s
  | .announceInterval port => Sys2Proof.Machine.execAnnounceInterval port s
  | .announceReceiptTimeout port => Sys2Proof.Machine.execAnnounceReceiptTimeout port s
  | .syncReceiptTimeout => Sys2Proof.Machine.execSyncReceiptTimeout s
  | .ethLinkChange port link blockLock fecLock => Sys2Proof.Machine.execEthLinkChange port link blockLock fecLock s
  | .pcieLinkChange p speed width => Sys2Proof.Machine.execPcieLinkChange p speed width s
  | .portReset p => Sys2Proof.Machine.execPortReset p s
  | .ringEnable via p n v => Sys2Proof.Machine.execRingEnable via p n v s
  | .ringDisable via p n v => Sys2Proof.Machine.execRingDisable via p n v s
  | .doorbell p n v => Sys2Proof.Machine.execDoorbell p n v s
  | .descriptorFetch p n data => Sys2Proof.Machine.execDescriptorFetch p n data s
  | .irqHoldoff p n => Sys2Proof.Machine.execIrqHoldoff p n s
  | .restart via p n v => Sys2Proof.Machine.execRestart via p n v s
  | .restartSkip via p n v => Sys2Proof.Machine.execRestartSkip via p n v s
  | .hostStop via p n v => Sys2Proof.Machine.execHostStop via p n v s
  | .blockAreaSpace p n => Sys2Proof.Machine.execBlockAreaSpace p n s
  | .layerHeldTimeout p n => Sys2Proof.Machine.execLayerHeldTimeout p n s
  | .layerOpen p n => Sys2Proof.Machine.execLayerOpen p n s
  | .layerOpenResume p n => Sys2Proof.Machine.execLayerOpenResume p n s
  | .block p n hdr payload => Sys2Proof.Machine.execBlock p n hdr payload s
  | .layerClose p n => Sys2Proof.Machine.execLayerClose p n s
  | .layerCloseComplete p n => Sys2Proof.Machine.execLayerCloseComplete p n s
  | .nztLoad p n buf => Sys2Proof.Machine.execNztLoad p n buf s
  | .subLoad p n buf => Sys2Proof.Machine.execSubLoad p n buf s
  | .greyLoad p n buf => Sys2Proof.Machine.execGreyLoad p n buf s
  | .mapLoad p n buf => Sys2Proof.Machine.execMapLoad p n buf s
  | .tableRead p n => Sys2Proof.Machine.execTableRead p n s
  | .stagingPlacesFreed p n => Sys2Proof.Machine.execStagingPlacesFreed p n s
  | .moveAbs p n => Sys2Proof.Machine.execMoveAbs p n s
  | .moveRel p n => Sys2Proof.Machine.execMoveRel p n s
  | .setLimits p n => Sys2Proof.Machine.execSetLimits p n s
  | .velocity p n => Sys2Proof.Machine.execVelocity p n s
  | .queueMove p n => Sys2Proof.Machine.execQueueMove p n s
  | .stop p n => Sys2Proof.Machine.execStop p n s
  | .gear p n => Sys2Proof.Machine.execGear p n s
  | .gearChange p n => Sys2Proof.Machine.execGearChange p n s
  | .home p n => Sys2Proof.Machine.execHome p n s
  | .setMode p n => Sys2Proof.Machine.execSetMode p n s
  | .setPos p n => Sys2Proof.Machine.execSetPos p n s
  | .loopEnable p n => Sys2Proof.Machine.execLoopEnable p n s
  | .loopDisable p n => Sys2Proof.Machine.execLoopDisable p n s
  | .setPoint p n => Sys2Proof.Machine.execSetPoint p n s
  | .setCoef p n => Sys2Proof.Machine.execSetCoef p n s
  | .loopSetLimits p n => Sys2Proof.Machine.execLoopSetLimits p n s
  | .setManual p n => Sys2Proof.Machine.execSetManual p n s
  | .setAuto p n => Sys2Proof.Machine.execSetAuto p n s
  | .setInteg p n => Sys2Proof.Machine.execSetInteg p n s
  | .inspectBuf p r => Sys2Proof.Machine.execInspectBuf p r s
  | .stateBuf p r => Sys2Proof.Machine.execStateBuf p r s
  | .eventSlot p n => Sys2Proof.Machine.execEventSlot p n s
  | .churnJobStart hold => Sys2Proof.Machine.execChurnJobStart hold s
  | .churnResume e hold => Sys2Proof.Machine.execChurnResume e hold s
  | .blockDecoded e r => Sys2Proof.Machine.execBlockDecoded e r s
  | .dictParity r => Sys2Proof.Machine.execDictParity r s
  | .pieceCompressed e => Sys2Proof.Machine.execPieceCompressed e s
  | .layerArm => Sys2Proof.Machine.execLayerArm s
  | .stall => Sys2Proof.Machine.execStall s
  | .shotIssue h nzt dram => Sys2Proof.Machine.execShotIssue h nzt dram s
  | .nztCopyFetched h r => Sys2Proof.Machine.execNztCopyFetched h r s
  | .abort p v => Sys2Proof.Machine.execAbort p v s
  | .calveTimeout h => Sys2Proof.Machine.execCalveTimeout h s
  | .calveRepeat h => Sys2Proof.Machine.execCalveRepeat h s
  | .heldExit => Sys2Proof.Machine.execHeldExit s
  | .tlm n t => Sys2Proof.Machine.execTlm n t s
  | .nztWindowWrite p k v => Sys2Proof.Machine.execNztWindowWrite p k v s
  | .subWindowWrite p k v => Sys2Proof.Machine.execSubWindowWrite p k v s
  | .greyWrite p t hi v => Sys2Proof.Machine.execGreyWrite p t hi v s
  | .weakMapWrite p hi v => Sys2Proof.Machine.execWeakMapWrite p hi v s
  | .moraineFlashWrite => Sys2Proof.Machine.execMoraineFlashWrite s
  | .moraineExport p v => Sys2Proof.Machine.execMoraineExport p v s
  | .alignSearch n found => Sys2Proof.Machine.execAlignSearch n found s
  | .alignRetry n found => Sys2Proof.Machine.execAlignRetry n found s
  | .search p n v found => Sys2Proof.Machine.execSearch p n v found s
  | .slip p n v => Sys2Proof.Machine.execSlip p n v s
  | .alignFail n => Sys2Proof.Machine.execAlignFail n s
  | .linked n => Sys2Proof.Machine.execLinked n s
  | .rateFail n => Sys2Proof.Machine.execRateFail n s
  | .fill n level => Sys2Proof.Machine.execFill n level s
  | .codeErr n symbol => Sys2Proof.Machine.execCodeErr n symbol s
  | .commaShift n => Sys2Proof.Machine.execCommaShift n s
  | .peerSeek n => Sys2Proof.Machine.execPeerSeek n s
  | .noFill n => Sys2Proof.Machine.execNoFill n s
  | .ackTimeout n => Sys2Proof.Machine.execAckTimeout n s
  | .lanePacketSend n => Sys2Proof.Machine.execLanePacketSend n s
  | .timeReq n => Sys2Proof.Machine.execTimeReq n s
  | .timeRsp n m => Sys2Proof.Machine.execTimeRsp n m s
  | .mgmtResponse n m => Sys2Proof.Machine.execMgmtResponse n m s
  | .mgmtTimeout n => Sys2Proof.Machine.execMgmtTimeout n s
  | .loop p n v => Sys2Proof.Machine.execLoop p n v s
  | .prbs p n v => Sys2Proof.Machine.execPrbs p n v s
  | .accept p h v => Sys2Proof.Machine.execAccept p h v s
  | .reread p h v => Sys2Proof.Machine.execReread p h v s
  | .driveSetWrite p w v => Sys2Proof.Machine.execDriveSetWrite p w v s
  | .groupWindowWrite p h g v => Sys2Proof.Machine.execGroupWindowWrite p h g v s
  | .dsetWrite p h v => Sys2Proof.Machine.execDsetWrite p h v s
  | .trimWrite h => Sys2Proof.Machine.execTrimWrite h s
  | .measSlot h => Sys2Proof.Machine.execMeasSlot h s
  | .measRead h r => Sys2Proof.Machine.execMeasRead h r s
  | .gateInputChange k level => Sys2Proof.Machine.execGateInputChange k level s
  | .forceStop p v => Sys2Proof.Machine.execForceStop p v s
  | .permitRise => Sys2Proof.Machine.execPermitRise s
  | .clearStrike p v => Sys2Proof.Machine.execClearStrike p v s
  | .gateChannelFault k => Sys2Proof.Machine.execGateChannelFault k s
  | .voterFault k => Sys2Proof.Machine.execVoterFault k s
  | .fs m stamp second => Sys2Proof.Machine.execFs m stamp second s
  | .longPacket port vc dt crcOk payload => Sys2Proof.Machine.execLongPacket port vc dt crcOk payload s
  | .fe m stamp => Sys2Proof.Machine.execFe m stamp s
  | .headerEccError port corrected => Sys2Proof.Machine.execHeaderEccError port corrected s
  | .phyError port syncErr => Sys2Proof.Machine.execPhyError port syncErr s
  | .arm p x v => Sys2Proof.Machine.execArm p x v s
  | .disarm p x v => Sys2Proof.Machine.execDisarm p x v s
  | .shadowWrite p x off v => Sys2Proof.Machine.execShadowWrite p x off v s
  | .mapWindowWrite p pipe k v => Sys2Proof.Machine.execMapWindowWrite p pipe k v s
  | .trigStart p x v => Sys2Proof.Machine.execTrigStart p x v s
  | .trigStop p x v => Sys2Proof.Machine.execTrigStop p x v s
  | .trigger x => Sys2Proof.Machine.execTrigger x s
  | .exposureEnd x => Sys2Proof.Machine.execExposureEnd x s
  | .windowTimeout => Sys2Proof.Machine.execWindowTimeout s
  | .close p v => Sys2Proof.Machine.execClose p v s
  | .evaluationEnd => Sys2Proof.Machine.execEvaluationEnd s
  | .motionTick limp limn gpio => Sys2Proof.Machine.execMotionTick limp limn gpio s
  | .stepPulse a => Sys2Proof.Machine.execStepPulse a s
  | .holdCurrent a => Sys2Proof.Machine.execHoldCurrent a s
  | .drvFrame n di => Sys2Proof.Machine.execDrvFrame n di s
  | .encCountWrite p n v => Sys2Proof.Machine.execEncCountWrite p n v s
  | .estop p v => Sys2Proof.Machine.execEstop p v s
  | .estopClr p v => Sys2Proof.Machine.execEstopClr p v s
  | .clearFault p a v => Sys2Proof.Machine.execClearFault p a v s
  | .ustepSwap p a v => Sys2Proof.Machine.execUstepSwap p a v s
  | .slotEvaluation k => Sys2Proof.Machine.execSlotEvaluation k s
  | .adcResult ch nv => Sys2Proof.Machine.execAdcResult ch nv s
  | .pwmDutyUpdate ch => Sys2Proof.Machine.execPwmDutyUpdate ch s
  | .gpioSet p hi v => Sys2Proof.Machine.execGpioSet p hi v s
  | .gpioClr p hi v => Sys2Proof.Machine.execGpioClr p hi v s
  | .trainingEnd eyes => Sys2Proof.Machine.execTrainingEnd eyes s
  | .initDone => Sys2Proof.Machine.execInitDone s
  | .retrain c r eye lane => Sys2Proof.Machine.execRetrain c r eye lane s
  | .pageIdlePrecharge r bank => Sys2Proof.Machine.execPageIdlePrecharge r bank s
  | .refreshDue r busy => Sys2Proof.Machine.execRefreshDue r busy s
  | .mr4Poll r doubled beyond => Sys2Proof.Machine.execMr4Poll r doubled beyond s
  | .bucketLeak => Sys2Proof.Machine.execBucketLeak s
  | .patrolScrub r bank err => Sys2Proof.Machine.execPatrolScrub r bank err s
  | .spareStart p v => Sys2Proof.Machine.execSpareStart p v s
  | .migrationCopy oldErr spareErr => Sys2Proof.Machine.execMigrationCopy oldErr spareErr s
  | .claimLineChange lineP level => Sys2Proof.Machine.execClaimLineChange lineP level s
  | .takeoverTlmTimeout h => Sys2Proof.Machine.execTakeoverTlmTimeout h s
  | .take p v => Sys2Proof.Machine.execTake p v s
  | .watchdog => Sys2Proof.Machine.execWatchdog s
  | .startWaitEnd => Sys2Proof.Machine.execStartWaitEnd s
  | .heartbeatSend => Sys2Proof.Machine.execHeartbeatSend s
  | .heartbeat m => Sys2Proof.Machine.execHeartbeat m s
  | .heartbeatTimeout => Sys2Proof.Machine.execHeartbeatTimeout s
  | .ackWaitTimeout => Sys2Proof.Machine.execAckWaitTimeout s
  | .firn m => Sys2Proof.Machine.execFirn m s
  | .firnIdle => Sys2Proof.Machine.execFirnIdle s
  | .fireLog seq recs => Sys2Proof.Machine.execFireLog seq recs s
  | .change seq recs => Sys2Proof.Machine.execChange seq recs s
  | .tandemBlock m => Sys2Proof.Machine.execTandemBlock m s
  | .ack seq => Sys2Proof.Machine.execAck seq s
  | .health mismatch => Sys2Proof.Machine.execHealth mismatch s
  | .healthReport => Sys2Proof.Machine.execHealthReport s
  | .resync => Sys2Proof.Machine.execResync s
  | .ctrlResync p v => Sys2Proof.Machine.execCtrlResync p v s
  | .takebackGo => Sys2Proof.Machine.execTakebackGo s
  | .takebackAbort => Sys2Proof.Machine.execTakebackAbort s
  | .takebackTimeout => Sys2Proof.Machine.execTakebackTimeout s
  | .bothClaims => Sys2Proof.Machine.execBothClaims s
  | .tandemLaneLoss k cause => Sys2Proof.Machine.execTandemLaneLoss k cause s
  | .tandemLaneRecovered k => Sys2Proof.Machine.execTandemLaneRecovered k s
  | .pllLockLoss pll => Sys2Proof.Machine.execPllLockLoss pll s
  | .quarantineEnd x inst => Sys2Proof.Machine.execQuarantineEnd x inst s
  | .controllerReset => Sys2Proof.Machine.execControllerReset s
  | .resetN straps => Sys2Proof.Machine.execResetN straps s
  | .softReset p v => Sys2Proof.Machine.execSoftReset p v s
  | .por straps => Sys2Proof.Machine.execPor straps s
  | .watchdogReset => Sys2Proof.Machine.execWatchdogReset s
  | .powerStateEntry => Sys2Proof.Machine.execPowerStateEntry s
  | .wakeEvent cause => Sys2Proof.Machine.execWakeEvent cause s
  | .powerStateExit => Sys2Proof.Machine.execPowerStateExit s
  | .ltrWrite p which v => Sys2Proof.Machine.execLtrWrite p which v s
  | .railPowerGood step level => Sys2Proof.Machine.execRailPowerGood step level s
  | .railStepDwell => Sys2Proof.Machine.execRailStepDwell s
  | .railPgTimeout => Sys2Proof.Machine.execRailPgTimeout s
  | .railRetry => Sys2Proof.Machine.execRailRetry s
  | .thermalReading tj => Sys2Proof.Machine.execThermalReading tj s
  | .imageLoad slotA slotB => Sys2Proof.Machine.execImageLoad slotA slotB s
  | .moraineScan positions => Sys2Proof.Machine.execMoraineScan positions s
  | .readyState => Sys2Proof.Machine.execReadyState s
  | .commit p v => Sys2Proof.Machine.execCommit p v s
  | .commitEnd => Sys2Proof.Machine.execCommitEnd s
  | .flashWrite p v => Sys2Proof.Machine.execFlashWrite p v s
  | .flashSectorDone readBack => Sys2Proof.Machine.execFlashSectorDone readBack s
  | .ledgerErase p v => Sys2Proof.Machine.execLedgerErase p v s
  | .ledgerEraseDone => Sys2Proof.Machine.execLedgerEraseDone s
  | .lanePllUnlock => Sys2Proof.Machine.execLanePllUnlock s
  | .aerError p uncorrectable => Sys2Proof.Machine.execAerError p uncorrectable s
  | .vinLoss => Sys2Proof.Machine.execVinLoss s
  | .flashTimeout => Sys2Proof.Machine.execFlashTimeout s
  | .refreshCatchUp r busy => Sys2Proof.Machine.execRefreshCatchUp r busy s
  | .deskew port ok => Sys2Proof.Machine.execDeskew port ok s
  | .ultraLowPowerEntry port => Sys2Proof.Machine.execUltraLowPowerEntry port s

end Sys2Proof.Machine
end

