-- ==== Sys2Proof/Machine/Step.lean ====
section
/-! DEFINITION. Machine/Step.lean: one step: the command at the front of the queue runs; on an empty queue ET ticks. -/

namespace Sys2Proof.Machine

/-- One tick of the ET counter, 4 ns of the reference, with no command waiting (R47). DESIGN CHOICE: log entry 2. -/
def State.tick (s : State) : State := { s with toChip := s.toChip.advance 4 }

/-- One step. -/
def step (s : State) : Host.Outcome State Fault Refusal :=
  match s.pending with
  | [] => .next s.tick
  | i :: rest => exec i { s with pending := rest }

/-- The state with the command a word spells put at the front of the queue; no word spells one. -/
def State.withFetchWord (s : State) (nbits w : Nat) : State :=
  match decodeTableWord nbits w with
  | none => s
  | some i => { s with pending := i :: s.pending }

end Sys2Proof.Machine
end

