-- ==== Sys2Proof/Safety.lean ====
section
/-! DEFINITION. Safety.lean: the terms statements are made in: what holds of every state a run passes through, the host's
access outside P3, and the frames: what a command leaves as it was. -/

namespace Sys2Proof.Machine

/-- The register map: keys strictly rising, and no value beyond one word. -/
def Chip.regsWf (c : Chip) : Prop := SMap.risingFrom 0 c.regs = true ∧ ∀ e ∈ c.regs, e.2 < 2 ^ 32

/-- A run of k steps from s never faults and never is refused. -/
def runsOn : Nat → State → Prop
  | 0, _ => True
  | k + 1, s => ∃ t, step s = .next t ∧ runsOn k t

/-- Commands carried out one after the other, each with the queue's rest waiting. -/
def execAll : List Instr → State → Host.Outcome State Fault Refusal
  | [], s => .next s
  | i :: l, s => match exec i { s with pending := l } with
    | .next t => execAll l t
    | .fault f => .fault f
    | .refused r => .refused r

/-- k steps. -/
def stepN : Nat → State → Host.Outcome State Fault Refusal
  | 0, s => .next s
  | k + 1, s => match step s with
    | .next t => stepN k t
    | .fault f => .fault f
    | .refused r => .refused r

/-- The state with its controller replaced; the queue of waiting commands stays. -/
def State.withChip (s : State) (c : Chip) : State := { s with toChip := c }

/-- The controller is not in P3, where a host access is held until the exit (R468). -/
def State.awake (s : State) : Prop := s.toChip.pstate ≠ 3

/-- Everything but the registers, the outputs, the pending records, the rings and the vectors is as it was. -/
def Chip.sameBut5 (c d : Chip) : Prop :=
  d = { c with regs := d.regs, out := d.out, evPend := d.evPend, rings := d.rings, msix := d.msix, heldVectors := d.heldVectors }

/-- No register outside the event block is written. -/
def Chip.eventRegs (c d : Chip) : Prop :=
  ∀ f : Field, f.lo < 32 → (f.off < 0x20000 ∨ 0x22000 ≤ f.off) → d.get f = c.get f

/-- No register outside the event block and outside a list of offsets is written. -/
def Chip.keepsRegs (c d : Chip) (offs : List Nat) : Prop :=
  ∀ f : Field, f.lo < 32 → (f.off < 0x20000 ∨ 0x22000 ≤ f.off) → f.off ∉ offs → d.get f = c.get f

/-- Nothing changes but the registers at a list of offsets. -/
def Chip.onlyRegs (c d : Chip) (offs : List Nat) : Prop :=
  d = { c with regs := d.regs } ∧ ∀ f : Field, f.lo < 32 → f.off ∉ offs → d.get f = c.get f

/-- One event was raised last: SEQ has gone on by 1, and EVT.LAST names its source, cause and class (R492, R500). -/
def Chip.tells (c d : Chip) (src cause : Nat) : Prop :=
  d.get Reg.EVT_SEQ_NEXT = (c.get Reg.EVT_SEQ_NEXT + 1) % 2 ^ 32 ∧ d.get Reg.EVT_LAST_SOURCE = src ∧
    d.get Reg.EVT_LAST_CAUSE = cause ∧ d.get Reg.EVT_LAST_CLASS = classOf src cause

/-- No host memory is written, and nothing put out is taken back. -/
def Chip.postsNothing (c d : Chip) : Prop :=
  c.out <+: d.out ∧ ∀ p a b, Output.post p a b ∈ d.out.drop c.out.length → False

/-- The offsets of BAR0 whose registers follow the access codes of R17 and nothing else: EVT, CHN, and DRC but for
DRC.SPARE_CTRL. -/
def plainOff (off : Nat) : Bool :=
  decide (off % 4 = 0) && (decide (off / 0x10000 = 2) || decide (off / 0x10000 = 5) ||
    (decide (off / 0x10000 = 15) && decide (off ≠ 0xF002C)))

/-- What a field holds after a write of the word v, by its access code (R17), before the commit. -/
def FieldSpec.written (f : FieldSpec) (old v : Nat) : Nat :=
  match f.access with
  | .rw => f.value v
  | .rwl => f.value v
  | .w1c => old &&& (2 ^ f.width - 1 - bits v f.lo f.width)
  | _ => old

/-- The rows of the command table that name a register write of their own, with the BAR0 offset they write. -/
def writeRow : Instr → Option (Port × Nat × Word)
  | .semWrite p n v => some (p, 0x100 + 4 * n.val, v)
  | .etSetGo p v => some (p, 0x3003C, v)
  | .ringEnable via p n v => some (via, 0x11010 + 0x1000 * p.num + 0x40 * n.val, v)
  | .ringDisable via p n v => some (via, 0x11010 + 0x1000 * p.num + 0x40 * n.val, v)
  | .restart via p n v => some (via, 0x11014 + 0x1000 * p.num + 0x40 * n.val, v)
  | .restartSkip via p n v => some (via, 0x11014 + 0x1000 * p.num + 0x40 * n.val, v)
  | .hostStop via p n v => some (via, 0x11014 + 0x1000 * p.num + 0x40 * n.val, v)
  | .abort p v => some (p, 0x60000, v)
  | .nztWindowWrite p i v => some (p, 0x100000 + 4 * i.val, v)
  | .subWindowWrite p i v => some (p, 0x240000 + 4 * i.val, v)
  | .greyWrite p t hi v => some (p, 0x60500 + 8 * t.val + (if hi then 4 else 0), v)
  | .weakMapWrite p hi v => some (p, if hi then 0x6041C else 0x60418, v)
  | .moraineExport p v => some (p, 0x60420, v)
  | .slip p n v => some (p, 0x71008 + 0x100 * n.val, v)
  | .loop p n v => some (p, 0x231000 + 0x40 * n.val, v)
  | .prbs p n v => some (p, 0x231000 + 0x40 * n.val, v)
  | .accept p h v => some (p, 0x91004 + 0x40 * h.val, v)
  | .reread p h v => some (p, 0x91004 + 0x40 * h.val, v)
  | .driveSetWrite p w v => some (p, 0x92000 + 4 * w.val, v)
  | .groupWindowWrite p h g v => some (p, 0x94000 + 0x400 * h.val + 4 * g.val, v)
  | .dsetWrite p h v => some (p, 0x91000 + 0x40 * h.val, v)
  | .forceStop p v => some (p, 0x90004, v)
  | .clearStrike p v => some (p, 0x90004, v)
  | .arm p x v => some (p, 0xA1028 + 0x400 * x.val, v)
  | .disarm p x v => some (p, 0xA1028 + 0x400 * x.val, v)
  | .shadowWrite p x off v => if off.toNat % 4 = 0 then some (p, 0xA1100 + 0x400 * x.val + off.toNat, v) else none
  | .mapWindowWrite p pipe i v => some (p, 0x250000 + 0x10000 * pipe.val + 4 * i.val, v)
  | .trigStart p x v => some (p, 0xA1024 + 0x400 * x.val, v)
  | .trigStop p x v => some (p, 0xA1024 + 0x400 * x.val, v)
  | .close p v => some (p, 0xB0000, v)
  | .encCountWrite p n v => some (p, 0xC0104 + 0x20 * n.val, v)
  | .estop p v => some (p, 0xC0000, v)
  | .estopClr p v => some (p, 0xC0000, v)
  | .clearFault p a v => some (p, 0xC103C + 0x100 * a.val, v)
  | .ustepSwap p a v => some (p, 0xC103C + 0x100 * a.val, v)
  | .gpioSet p hi v => some (p, if hi then 0xE2014 else 0xE2010, v)
  | .gpioClr p hi v => some (p, if hi then 0xE201C else 0xE2018, v)
  | .spareStart p v => some (p, 0xF002C, v)
  | .take p v => some (p, 0x200008, v)
  | .ctrlResync p v => some (p, 0x200008, v)
  | .softReset p v => some (p, 0x210004, v)
  | .ltrWrite p which v => some (p, if which.num = 0 then 0x21000C else 0x210010, v)
  | .commit p v => some (p, 0x220000, v)
  | .flashWrite p v => some (p, 0x220000, v)
  | .ledgerErase p v => some (p, 0x220000, v)
  | _ => none

end Sys2Proof.Machine
end

