-- ==== Sys2Proof/Certificates/Slice0/Obligations.lean ====
section
/-! DEFINITION. Certificates/Slice0/Obligations.lean: the statements for the provers, family by family. Where a statement names
a shared operation (raise, completeWith, stopRing, advanceTo and others), another statement says what that operation does. A clause about what is put out
rests on log entry 5, one about a row whose condition does not hold on entry 6, and one about the time a row of time runs to on
entries 1 and 74. -/

section

open Sys2Proof Sys2Proof.Machine

/-! ### The queue, time and reset -/

/-- A step takes the command at the front of the queue and is exec of it on the state with the queue's rest. -/
def Obligations.StepRunsTheFrontCommand : Prop :=
  ∀ (i : Instr) (rest : List Instr) (s : State), s.pending = i :: rest →
    step s = exec i { s with pending := rest }

/-- Every command completes: for every command and state exec answers a next state, that of the controller after the command with the
queue as it was, but for a descriptor transfer that came without its 64 bytes (log entry 8). exec neither reads nor changes the queue of
waiting commands: with another queue it has the same outcome, and where it answers a next state the queue is as it was. Commands are taken
first in, first out: as many steps as commands wait are these commands carried out in their order. What waits is at every step the end of
what waited before: a step inserts, drops and reorders nothing. (The queue is the model's own: log entry 7.) -/
def Obligations.QueueRunsInOrder : Prop :=
  ((∀ (i : Instr) (s : State), (∀ p n b, i = .descriptorFetch p n (some b) → b.length = 64) →
    ∃ d : Chip, exec i s = .next (s.withChip d)) ∧
  (∀ (i : Instr) (s : State) (l : List Instr),
    (∀ t, exec i s = .next t → t.pending = s.pending ∧ exec i { s with pending := l } = .next { t with pending := l }) ∧
    (∀ f, exec i s = .fault f → exec i { s with pending := l } = .fault f) ∧
    (∀ r, exec i s ≠ .refused r))) ∧
  (∀ s : State, stepN s.pending.length s = execAll s.pending s) ∧
  (∀ (l : List Instr) (s t : State), s.pending <:+ l → step s = .next t →
    t.pending <:+ l ∧ t.pending = s.pending.tail)

/-- With no command waiting one tick of 4 ns passes (R47; that an idle step is a tick is log entry 2): ET grows by 4 ns × (1 + ρ), ρ held
within ±1,000 ppm, and nothing else changes while ET does not wrap and no alarm of a loop slot is to be set. R46, R47: time runs on by
whole steps: to a model time ahead, ET grows by 4 ns × (1 + ρ) at each tick of its 250 MHz counter; a time not ahead changes nothing.
While ET does not wrap and no alarm of a loop slot is to be set (R370) nothing else changes. R54: at the wrap ET starts again from 0 and
ERA counts it; where no alarm of a loop slot is to be set on the way EV231 is raised once, and nothing else happens. -/
def Obligations.TimeRunsByTheRate : Prop :=
  (∀ s : State, s.pending = [] →
    ∃ t, step s = .next t ∧ t.clk = s.clk + 4 ∧ t.pending = [] ∧
      t.et.toNat = (s.et.toNat + (4 * (2 ^ 48 + clampI (s.toChip.getI Reg.ETM_RATE_RATE) (-4294967) 4294967 * 2 ^ 16)).toNat) %
        2 ^ 96 ∧
      (s.et.toNat < t.et.toNat → s.toChip.nextAlarm = none → t = { s with et := t.et, clk := t.clk })) ∧
  (∀ (c : Chip) (t : Nat),
    let d := c.advanceTo t
    let per : Int := 2 ^ 48 + clampI (c.getI Reg.ETM_RATE_RATE) (-4294967) 4294967 * 2 ^ 16
    d.clk = max c.clk t ∧
    (t ≤ c.clk → d = c) ∧
    let ns : Nat := 4 * (max c.clk t / 4 - c.clk / 4)
    d.et.toNat = (c.et.toNat + (per * ns).toNat) % 2 ^ 96 ∧
    (c.et.toNat + (per * ns).toNat < 2 ^ 96 → c.nextAlarm = none → d = { c with et := d.et, clk := d.clk })) ∧
  (∀ s : State,
    let c := s.toChip
    ∃ d, exec .etWrap s = .next (s.withChip d) ∧ d.now.toNat < 2 ^ 20 ∧ c.clk < d.clk ∧
      d.get Reg.ETM_ERA_ERA = (c.get Reg.ETM_ERA_ERA + 1) % 2 ^ Reg.ETM_ERA_ERA.width ∧
      (c.nextAlarm = none → c.tells d 231 0 ∧ c.keepsRegs d [Reg.ETM_ERA_ERA.off] ∧
        { c with et := d.et, clk := d.clk, wraps := c.wraps + 1 }.sameBut5 d))

/-- Right after reset every register field named by the register tables reads as its table's reset value, no command waits, nothing is put
out, and the register map is in its canonical form (R20; straps and image values are log entry 3). -/
def Obligations.ResetHoldsTheTablesValues : Prop :=
  (∀ f : Field, State.reset.toChip.get f = f.rst) ∧ State.reset.pending = [] ∧ State.reset.out = [] ∧
    State.reset.evPend = [] ∧ State.reset.toChip.regsWf

/-- Every step keeps the register map in its canonical form: keys strictly rising and every value one word. -/
def Obligations.EveryStepKeepsTheRegisterMap : Prop :=
  ∀ s t : State, s.toChip.regsWf → step s = .next t → t.toChip.regsWf

/-! ### Events, registers and the host -/

/-- R492: a raise takes the next SEQ, sets the source's bit and no other, counts its class, names itself in EVT.LAST, and outside the
event block writes no register; a masked source puts nothing into the pending records and nothing out. R493, R495: an unmasked source
routed to a ring with a free slot puts its record behind those that are pending, with its source, class, cause, SEQ and ET; the records
held for that ring have slots by then; a source without a ring puts none. R112, R493: an EVENT slot takes the next record of its ring into
the descriptor, at offset 8, with its count, and completes; the record is no longer pending, and where records were coalesced EV005
follows. In P3 none is delivered (R503). (The items' widths: log entry 11; EV005: log entry 12.) -/
def Obligations.EventsAreMarkedAndRecorded : Prop :=
  (∀ (c : Chip) (src cause : Nat) (items : List (Nat × Nat)), src < 256 → cause < 256 →
    let d := c.raise src cause items
    c.tells d src cause ∧ c.eventRegs d ∧ c.sameBut5 d ∧
    (∀ k i, k < 8 → i < 32 →
      d.bitOf (Reg.EVT_STATUS_RAISED k) i = (c.bitOf (Reg.EVT_STATUS_RAISED k) i || decide (32 * k + i = src))) ∧
    (∀ k, k < 5 → d.get (Reg.EVT_CLASS_CNT_COUNT k) =
      if k = classOf src cause then min (c.get (Reg.EVT_CLASS_CNT_COUNT k) + 1) (2 ^ 32 - 1)
      else c.get (Reg.EVT_CLASS_CNT_COUNT k)) ∧
    (c.bitOf (Reg.EVT_MASK_MASK (src / 32)) (src % 32) = true →
      d.evPend = c.evPend ∧ d.out = c.out ∧ d.rings = c.rings ∧ d.msix = c.msix)) ∧
  (∀ (c : Chip) (src cause : Nat) (items : List (Nat × Nat)), src < 256 → cause < 256 →
    c.bitOf (Reg.EVT_MASK_MASK (src / 32)) (src % 32) = false →
    let d := c.raise src cause items
    (∀ p n, c.flag (Reg.EVT_ROUTE_RING_EN src) = true → p = c.get (Reg.EVT_ROUTE_PORT src) →
      n = c.get (Reg.EVT_ROUTE_RING src) → c.freeSlots p n ≠ 0 →
      let r := EvRecord.mk src (classOf src cause) cause (c.get Reg.EVT_SEQ_NEXT) c.now (evData items) 1 true
      (∃ before, d.evPend = before ++ [r] ∧ before.length = c.evPend.length ∧
        ∀ q ∈ before, c.routeOf q.source = some (p, n) → q.slotted = true) ∧
      ((∀ q ∈ c.evPend, c.routeOf q.source = some (p, n) → q.slotted = true) → d.evPend = c.evPend ++ [r])) ∧
    (c.flag (Reg.EVT_ROUTE_RING_EN src) = false → d.evPend = c.evPend)) ∧
  (∀ (p : Port) (n : Fin 64) (s : State) (d : List Byte) (r : EvRecord),
    let c := s.toChip
    c.headOp p.num n.val 0x62 = some d → c.nextRecord p.num n.val = some r →
    (c.pstate = 3 → exec (.eventSlot p n) s = .next s) ∧ (c.pstate ≠ 3 →
    let e := ({ c with evPend := c.evPend.erase r }.showPending r.source).completeWith p.num n.val 0 (bit (leField d 1 1) 0)
      [.post p.num (c.descAddr p.num n.val (c.ci p.num n.val) + 8) (r.bytes ++ leBytes 4 r.count ++ leBytes 12 0)]
    exec (.eventSlot p n) s = .next (s.withChip (if (e.ring p.num n.val).coalesced then
      (e.setRing p.num n.val { e.ring p.num n.val with coalesced := false }).raise 5 0 [] else e))))

/-- R101: a completion posts RESULT, then STATUS with DONE set, then the consumer index with code 0, in this order; CI is one further.
R105: a faulting descriptor's STATUS gets the code with DONE clear, then the consumer-index location gets CI and the code; the ring is
STOPPED with its index in FAULT.IDX, what it fetched is discarded, and EV003 with cause FAULT is raised. A stop that names no descriptor's
fault writes no STATUS and does the rest. -/
def Obligations.RingsCompleteOrStop : Prop :=
  (∀ (c : Chip) (p n code : Nat) (irq : Bool) (first : List Output), p < 2 → n < 64 →
    let d := c.completeWith p n code irq first
    let ci := (c.ci p n + 1) % 65536
    c.out ++ first ++ [.post p (c.descAddr p n (c.ci p n) + 4) (leBytes 2 (0x8000 + code)),
      .post p (c.get64 (Reg.HIF_RING_CI_LO_ADDR p n) (Reg.HIF_RING_CI_HI_ADDR p n)) (leBytes 4 ci)] <+: d.out ∧
    d.ci p n = ci ∧
    (∀ q m, q < 2 → m < 64 → ¬(q = p ∧ m = n) → d.ci q m = c.ci q m ∧ d.ringState q m = c.ringState q m)) ∧
  (∀ (c : Chip) (p n code : Nat), p < 2 → n < 64 → code < 2 ^ 16 →
    let ciLoc := c.get64 (Reg.HIF_RING_CI_LO_ADDR p n) (Reg.HIF_RING_CI_HI_ADDR p n)
    let ciPost := Output.post p ciLoc (leBytes 4 (c.ci p n + 65536 * code))
    let shows := fun (d : Chip) => d.ringState p n = 2 ∧ d.get (Reg.HIF_RING_STATUS_FAULT p n) = code % 2 ^ (Reg.HIF_RING_STATUS_FAULT p n).width ∧
      d.get (Reg.HIF_RING_FAULT_IDX p n) = c.ci p n % 65536 ∧ d.ci p n = c.ci p n ∧ d.pi p n = c.pi p n ∧
      (d.ring p n).fetched = [] ∧ c.tells d 3 1
    c.out ++ [.post p (c.descAddr p n (c.ci p n) + 4) (leBytes 2 code), ciPost] <+: (c.faultDesc p n code).out ∧
    shows (c.faultDesc p n code) ∧
    c.out ++ [ciPost] <+: (c.stopRing p n code).out ∧ shows (c.stopRing p n code))

/-- R17: before the commit, a write to a register that follows the access codes sets its RW and RWL fields to the value written (held
within the field's limits), clears the bits of its W1C fields that are written 1, leaves RO, RC and WO fields, and changes nothing else.
R87: where both ports write one register in the same cycle port B's write comes first, so the value of port A stays. R529: from the start
of a commit on, a write leaves RWL fields as they are, and EV011 is raised where it would have changed one. -/
def Obligations.WritesFollowAccessCodes : Prop :=
  (∀ (p : Port) (off : BitVec 24) (v : Word) (s : State), s.awake → plainOff off.toNat = true → s.toChip.locked = false →
    (∃ d, exec (.registerWrite p .bar0 off ⟨v, none⟩) s = .next (s.withChip d) ∧
      (∀ f ∈ fieldsAt off.toNat, d.get (f.at off.toNat) = f.written (s.toChip.get (f.at off.toNat)) v.toNat) ∧
      s.toChip.onlyRegs d [off.toNat]) ∧
    (∀ w : Word, ∃ d, exec (.registerWrite p .bar0 off ⟨v, some w⟩) s = .next (s.withChip d) ∧
      (∀ f ∈ fieldsAt off.toNat, d.get (f.at off.toNat) =
        f.written (f.written (s.toChip.get (f.at off.toNat)) (if p.num = 0 then w else v).toNat) (if p.num = 0 then v else w).toNat) ∧
      s.toChip.onlyRegs d [off.toNat])) ∧
  (∀ (p : Port) (off : BitVec 24) (v : Word) (s : State), s.awake → plainOff off.toNat = true → 0x50000 ≤ off.toNat →
    s.toChip.locked = true →
    ∃ d, exec (.registerWrite p .bar0 off ⟨v, none⟩) s = .next (s.withChip d) ∧
      (∀ f ∈ fieldsAt off.toNat, f.access = .rwl → d.get (f.at off.toNat) = s.toChip.get (f.at off.toNat)) ∧
      (∀ f ∈ fieldsAt off.toNat, f.access ≠ .rwl →
        d.get (f.at off.toNat) = f.written (s.toChip.get (f.at off.toNat)) v.toNat) ∧
      ((∃ f ∈ fieldsAt off.toNat, f.access = .rwl ∧ bits v.toNat f.lo f.width ≠ s.toChip.get (f.at off.toNat)) →
        s.toChip.tells d 11 0) ∧
      ((∀ f ∈ fieldsAt off.toNat, f.access = .rwl → bits v.toNat f.lo f.width = s.toChip.get (f.at off.toNat)) →
        d = { s.toChip with regs := d.regs }) ∧
      s.toChip.keepsRegs d [off.toNat] ∧ s.toChip.sameBut5 d)

/-- R43: offsets from 0x0029_0000 to 0x00FF_FFFF are unassigned: reads return 0, an aligned write is discarded without error, and the
access rule of R21 applies: any other access is an access error (R86). -/
def Obligations.UnassignedOffsetsDiscardWrites : Prop :=
  ∀ (p : Port) (off : BitVec 24) (v : Word) (s : State), s.awake → 0x290000 ≤ off.toNat →
    s.toChip.readWord off.toNat = 0 ∧
    (off.toNat % 4 = 0 → exec (.registerWrite p .bar0 off ⟨v, none⟩) s = .next s ∧
      ∀ delta, exec (.rcFieldRead p ⟨.bar0, off⟩ delta) s = .next (s.withChip (s.toChip.emit (.readData p.num 0)))) ∧
    (∀ (w wide : Bool) (be : BitVec 4), ¬(be = 0xF ∧ wide = false ∧ off.toNat % 4 = 0) →
      exec (.accessError p false off w be wide) s =
        .next (s.withChip (s.toChip.accessError p.num false off.toNat w be.toNat wide)))

/-- R17, R18: a read of a register with RC fields returns the word before the change; each RC field is cleared, and then holds what the
hardware added in that cycle. Nothing else changes, but that THL.LANEn_ALIGN_STATUS shows what the last 256 symbols held when it is read
(R220; log entry 93). R50: a read of a LO register returns the low half and puts the upper half of the same instant into the reading
port's latch for that pair, and no other latch changes; a read of a HI register answers the reading port's latch; reading a capture stamp
ends its validity (R59). -/
def Obligations.ReadsWithEffects : Prop :=
  (∀ (p : Port) (off : BitVec 24) (delta : Nat) (s : State), s.awake →
    (∃ f ∈ fieldsAt off.toNat, f.access = .rc) →
    let c := if 0x71000 ≤ off.toNat ∧ off.toNat < 0x74000 ∧ off.toNat % 0x100 = 0x0C
      then s.toChip.alignRead ((off.toNat - 0x71000) / 0x100) else s.toChip
    ∃ d, exec (.rcFieldRead p ⟨.bar0, off⟩ delta) s = .next (s.withChip d) ∧
      d = { c with regs := d.regs, out := c.out ++ [.readData p.num (BitVec.ofNat 32 (c.readWord off.toNat))] } ∧
      (∀ f ∈ fieldsAt off.toNat, f.access = .rc → d.get (f.at off.toNat) = min delta (2 ^ f.width - 1)) ∧
      (∀ f ∈ fieldsAt off.toNat, f.access ≠ .rc → d.get (f.at off.toNat) = c.get (f.at off.toNat)) ∧
      (∀ g : Field, g.lo < 32 → g.off ≠ off.toNat → d.get g = c.get g)) ∧
  (∀ (p : Port) (s : State), s.awake →
    let c := s.toChip
    (∀ r : LoReg, ∃ d, exec (.etLoRead p r) s = .next (s.withChip d) ∧
      d = { c with latches := d.latches, out := c.out ++ [.readData p.num (BitVec.ofNat 32 (c.loValue r))] } ∧
      ∀ q k, q < 2 → k < 64 → SMap.get 0 (64 * q + k) d.latches =
        if q = p.num ∧ k = latchOf r then c.loValue r / 2 ^ 32 % 2 ^ 32 else SMap.get 0 (64 * q + k) c.latches) ∧
    (∀ n : Fin 4, ∃ d, exec (.capTsRead p n) s = .next (s.withChip d) ∧
      (let v := c.get64 (Reg.ETM_CAP_TS_LO_TS n.val) (Reg.ETM_CAP_TS_HI_TS n.val)
       d = { c with regs := d.regs, latches := d.latches, out := c.out ++ [.readData p.num (BitVec.ofNat 32 v)] } ∧
       d.get (Reg.ETM_CAP_CTRL_VALID n.val) = 0 ∧
       (∀ f : Field, f.key ≠ (Reg.ETM_CAP_CTRL_VALID n.val).key → d.get f = c.get f) ∧
       ∀ q k, q < 2 → k < 64 → SMap.get 0 (64 * q + k) d.latches =
         if q = p.num ∧ k = 16 + n.val then v / 2 ^ 32 % 2 ^ 32 else SMap.get 0 (64 * q + k) c.latches)) ∧
    (∀ (off : BitVec 24) (k delta : Nat), hiLatch off.toNat = some k → exec (.rcFieldRead p ⟨.bar0, off⟩ delta) s =
      .next (s.withChip (c.emit (.readData p.num (BitVec.ofNat 32 (SMap.get 0 (64 * p.num + k) c.latches)))))))

/-- R86: a read that is not one aligned 32-bit access completes with Completer Abort, a write is discarded; the access is recorded if no
earlier error is held, counted, and EV002 raised. Nothing else changes. -/
def Obligations.AccessErrorIsRecordedOnce : Prop :=
  ∀ (p : Port) (bar2 w wide : Bool) (off : BitVec 24) (be : BitVec 4) (s : State), s.awake →
    ¬(be = 0xF ∧ wide = false ∧ off.toNat % 4 = 0) →
    let c := s.toChip
    ∃ d, exec (.accessError p bar2 off w be wide) s = .next (s.withChip d) ∧
      c.out ++ (if w then [] else [Output.completerAbort p.num]) <+: d.out ∧
      d.flag Reg.HIF_ACC_ERR_INFO_VALID = true ∧
      d.get Reg.HIF_ACC_ERR_INFO_COUNT = min (c.get Reg.HIF_ACC_ERR_INFO_COUNT + 1) (2 ^ Reg.HIF_ACC_ERR_INFO_COUNT.width - 1) ∧
      (c.flag Reg.HIF_ACC_ERR_INFO_VALID = false →
        d.get Reg.HIF_ACC_ERR_ADDR_OFFSET = off.toNat ∧ d.get Reg.HIF_ACC_ERR_INFO_PORT = p.num ∧
        d.flag Reg.HIF_ACC_ERR_INFO_BAR = bar2 ∧ d.flag Reg.HIF_ACC_ERR_INFO_WRITE = w ∧
        d.get Reg.HIF_ACC_ERR_INFO_BE = be.toNat ∧ d.flag Reg.HIF_ACC_ERR_INFO_WIDE = wide) ∧
      (c.flag Reg.HIF_ACC_ERR_INFO_VALID = true →
        ∀ f ∈ [Reg.HIF_ACC_ERR_ADDR_OFFSET, Reg.HIF_ACC_ERR_INFO_PORT, Reg.HIF_ACC_ERR_INFO_BAR, Reg.HIF_ACC_ERR_INFO_WRITE,
          Reg.HIF_ACC_ERR_INFO_BE, Reg.HIF_ACC_ERR_INFO_WIDE], d.get f = c.get f) ∧
      (∀ q x, Output.readData q x ∉ d.out.drop c.out.length) ∧
      c.tells d 2 0 ∧ c.keepsRegs d [Reg.HIF_ACC_ERR_ADDR_OFFSET.off, Reg.HIF_ACC_ERR_INFO_VALID.off] ∧ c.sameBut5 d

/-- R113, R114: what a read and a write of a semaphore answer and do, whoever holds it, and which port wins a tie; port A wins the first
after reset. (The tie's two answers and the whole word compared: log entry 19; EV006's items are left open here.) -/
def Obligations.SemaphoresFollowTheirOwner : Prop :=
  State.reset.semTieA = true ∧
  ∀ (p : Port) (n : Fin 32) (v : Word) (s : State), s.awake →
    let c := s.toChip
    let sem := Reg.GLB_SEM_OWNER n.val
    let id := fun (q : Port) => BitVec.ofNat 32 (q.num + 1)
    (c.get sem = 0 →
      exec (.semRead p n false) s = .next (s.withChip ((c.put sem (p.num + 1)).emit (.readData p.num 0)))) ∧
    (∀ q : Port, c.get sem = q.num + 1 →
      exec (.semRead p n false) s = .next (s.withChip (c.emit (.readData p.num (id q)))) ∧
      exec (.semRead p n true) s = .next (s.withChip ((c.emit (.readData p.num (id q))).emit (.readData p.other.num (id q))))) ∧
    (c.get sem = 0 →
      let w := if c.semTieA then Port.a else Port.b
      exec (.semRead p n true) s = .next (s.withChip
        (({ c.put sem (w.num + 1) with semTieA := !c.semTieA }.emit (.readData w.num 0)).emit (.readData w.other.num (id w))))) ∧
    (v.toNat = p.num + 1 → c.get sem = p.num + 1 → exec (.semWrite p n v) s = .next (s.withChip (c.put sem 0))) ∧
    (¬(v.toNat = p.num + 1 ∧ c.get sem = p.num + 1) →
      ∃ items, exec (.semWrite p n v) s = .next (s.withChip (c.raise 6 0 items)))

/-- Every row that names a register write of its own is that write to BAR0, at the offset the register tables give. -/
def Obligations.WriteRowsAreRegisterWrites : Prop :=
  ∀ (i : Instr) (p : Port) (off : Nat) (v : Word) (s : State), writeRow i = some (p, off, v) →
    exec (.registerWrite p .bar0 (BitVec.ofNat 24 off) ⟨v, none⟩) s = exec i s

/-- R73: values written to ETM.STEP_THR and ETM.SLEW_LIM outside their ranges are stored as the nearer limit. -/
def Obligations.ServoLimitsAreStoredAsTheNearerLimit : Prop :=
  ∀ (p : Port) (v : Word) (s : State), s.awake →
    exec (.registerWrite p .bar0 (BitVec.ofNat 24 Reg.ETM_STEP_THR_NS.off) ⟨v, none⟩) s =
      .next (s.withChip (s.toChip.put Reg.ETM_STEP_THR_NS (max 64 (min 1000000 (v.toNat % 2 ^ 20))))) ∧
    exec (.registerWrite p .bar0 (BitVec.ofNat 24 Reg.ETM_SLEW_LIM_PPM.off) ⟨v, none⟩) s =
      .next (s.withChip (s.toChip.put Reg.ETM_SLEW_LIM_PPM (max 1 (min 1000 (v.toNat % 2 ^ 10)))))

/-! ### Engine Time and network time -/

/-- R52: an action is scheduled, run late at the next tick, or refused, by the signed difference of its target and ET. R52, R56: the
action that comes next runs when ET reaches its target: of those equal in time the one scheduled first. A camera trigger is driven or
skipped, a loop engine command acts and completes, and a motion command leaves the schedule and is due at its ring's head behind all that
are due there, where the next motion tick finds it (R334). With nothing scheduled nothing happens. R74: GO in FREE outside a layer loads
the written value at once and raises EV239, actions whose targets a forward step passes are marked to run at the next tick, exposure
windows the new ET has passed end (and their GPIO with them), and measurements begun in the old ET are forgotten (that last: log entry
77); in any other state or during a layer it is discarded and RANGE is set; a command word without GO does nothing. (That a word without
GO does nothing: log entry 6.) -/
def Obligations.ActionsRunAtTheirTargets : Prop :=
  (∀ (c : Chip) (target : ET) (kind : SchedKind),
    let d := wrapDiff target c.now
    (0 < d → c.schedule target kind = ({ c with sched := c.sched ++ [Sched.mk target kind false] }, false)) ∧
    (d ≤ 0 → -(1000000 * 65536) ≤ d →
      (c.schedule target kind).2 = false ∧ (c.schedule target kind).1.sched = c.sched ++ [Sched.mk target kind true] ∧
      (c.schedule target kind).1.get Reg.ETM_STATUS_LATE = 1 ∧ c.tells (c.schedule target kind).1 236 1) ∧
    (d < -(1000000 * 65536) →
      (c.schedule target kind).2 = true ∧ (c.schedule target kind).1.sched = c.sched ∧
      (c.schedule target kind).1.get Reg.ETM_STATUS_RANGE = 1 ∧ c.tells (c.schedule target kind).1 236 2)) ∧
  ((∀ (a b : Sched), a.stepped = b.stepped → a.target = b.target → nextSched [a, b] = some a) ∧
  (∀ (a b : Sched), a.stepped = b.stepped → later a.target b.target = true → nextSched [a, b] = some b) ∧
  (∀ s : State, s.toChip.sched = [] → exec .scheduledAction s = .next s) ∧
  (∀ (c : Chip) (p n k : Nat), p < 2 → n < 64 → (c.ring p n).atDue = some k → k < c.nextDue) ∧
  ∀ (s : State) (a : Sched), nextSched s.toChip.sched = some a →
    let c := if a.stepped then s.toChip else s.toChip.advanceToEt a.target
    (∀ x, a.kind = .camTrigger x → exec .scheduledAction s = .next (s.withChip (c.triggerDue x))) ∧
    (∀ p n d, a.kind = .loopCmd p n → (c.forgetCmd p n).loopHead p n = some d →
      exec .scheduledAction s = .next (s.withChip ((c.forgetCmd p n).loopAccept p n d))) ∧
    (∀ p n, a.kind = .motionCmd p n → exec .scheduledAction s =
      .next (s.withChip (({ c with sched := c.sched.erase a }).setRing p n { c.ring p n with atDue := some c.nextDue })))) ∧
  (∀ (p : Port) (v : Word) (s : State), s.awake →
    let c := s.toChip
    let x := BitVec.ofNat 64 (c.get64 Reg.ETM_SET_LO_VALUE Reg.ETM_SET_HI_VALUE)
    (v.getLsbD 0 = true → c.get Reg.ETM_STATUS_STATE = 0 → c.get Reg.ETM_STATUS_INLAYER = 0 →
      ∃ d, exec (.etSetGo p v) s = .next (s.withChip d) ∧ d.now = x ∧ c.tells d 239 0 ∧
        c.keepsRegs d [(Reg.IOX_GPIO_IN_BITS 0).off, (Reg.IOX_GPIO_IN_BITS 1).off] ∧
        d.stepSum = c.stepSum + wrapDiff x c.now ∧ d.sched.map (·.target) = c.sched.map (·.target) ∧
        (∀ a ∈ d.sched, a.stepped = true → a ∈ c.sched ∨
          (0 < wrapDiff x c.now ∧ 0 ≤ wrapDiff a.target c.now ∧ wrapDiff a.target c.now < wrapDiff x c.now)) ∧
        (∀ k e, k < 8 → (c.cam k).windowEnd = some e → (d.cam k).windowEnd = if later e x then some e else none) ∧
        (∀ q, q < 2 → (d.ptpPort q).forward = none ∧ (d.ptpPort q).reqSent = none) ∧
        { c with et := d.et, wraps := d.wraps, stepSum := d.stepSum, sched := d.sched, tickBase := d.tickBase, encs := d.encs, drv := d.drv,
                 ptp := d.ptp, camCtx := d.camCtx }.sameBut5 d) ∧
    (v.getLsbD 0 = true → ¬(c.get Reg.ETM_STATUS_STATE = 0 ∧ c.get Reg.ETM_STATUS_INLAYER = 0) →
      exec (.etSetGo p v) s = .next (s.withChip (c.put Reg.ETM_STATUS_RANGE 1))) ∧
    (v.getLsbD 0 = false → exec (.etSetGo p v) s = .next s))

/-- R57, R329 to R331: an edge of A or B of an encoder that is not the traverse encoder moves its count by the step of its mode and
direction, and stamps it in units of 0.5 ns; a rising Z edge copies the count and sets ZVALID. R59: an edge a capture unit watches is
stamped in its registers and made VALID, and its ball reads as the edge leaves it (R384); a stamp not yet read is overwritten, OVR is set
and EV238 raised. An edge it does not watch does nothing. (An edge the operand gives is the filtered one: log entries 6 and 46.) -/
def Obligations.EdgesCountAndStamp : Prop :=
  (∀ (n : Fin 4) (level : Bool) (stamp : ET) (s : State),
    let c := s.toChip
    let x := c.enc n.val
    let mode := c.get (Reg.MOT_ENC_CFG_MODE n.val)
    let t : ET := BitVec.ofNat 64 (stamp.toNat / 2 ^ 15 * 2 ^ 15)
    c.pstate ≠ 3 →
    (∀ (line : EncLine) (y : EncX), line ≠ .z → (line = .a → x.a ≠ level ∧ y = { x with a := level }) →
      (line = .b → x.b ≠ level ∧ y = { x with b := level }) → c.isTraverse n.val = false →
      (∀ a, a < 8 → c.axMode a ≠ 4) →
      (∀ e ∈ x.recent, ¬(mode = 1 ∧ e.line ≠ line ∧ e.line ≠ .z ∧ |wrapDiff t e.stamp| < 131072) ∧
        ¬(e.line = line ∧ wrapDiff t e.stamp < 163840 * c.get (Reg.MOT_ENC_CFG_FILT n.val))) →
      countStep mode line y.a y.b ≠ 0 → (x.queue.filter fun u => later u t).length < 16 →
      ∃ d, exec (.encoderEdge n line level stamp) s = .next (s.withChip d) ∧
        d.get (Reg.MOT_ENC_COUNT_COUNT n.val) = unsigned 32 ((c.get (Reg.MOT_ENC_COUNT_COUNT n.val) : Int) +
          (if c.flag (Reg.MOT_ENC_CFG_INVERT n.val) then -1 else 1) * countStep mode line y.a y.b) ∧
        d.get64 (Reg.ETM_ENC_TS_LO_TS_LO n.val) (Reg.ETM_ENC_TS_HI_TS_HI n.val) = t.toNat ∧
        (d.enc n.val).a = y.a ∧ (d.enc n.val).b = y.b ∧
        { c with encs := d.encs }.onlyRegs d [(Reg.MOT_ENC_COUNT_COUNT n.val).off, (Reg.ETM_ENC_TS_LO_TS_LO n.val).off,
          (Reg.ETM_ENC_TS_HI_TS_HI n.val).off]) ∧
    (x.z = false → c.flag (Reg.MOT_ENC_CFG_Z_EN n.val) = true → (x.queue.filter fun u => later u t).length < 16 →
      (∀ e ∈ x.recent, ¬(e.line = .z ∧ wrapDiff t e.stamp < 163840 * c.get (Reg.MOT_ENC_CFG_FILT n.val))) →
      ∃ d, exec (.encoderEdge n .z true stamp) s = .next (s.withChip d) ∧
        d.get (Reg.MOT_ENC_ZLATCH_COUNT n.val) = c.get (Reg.MOT_ENC_COUNT_COUNT n.val) % 2 ^ 32 ∧
        d.get (Reg.MOT_ENC_STATUS_ZVALID n.val) = 1 ∧ (d.enc n.val).z = true ∧
        (mode ≠ 0 → d.get64 (Reg.ETM_ENC_TS_LO_TS_LO n.val) (Reg.ETM_ENC_TS_HI_TS_HI n.val) = t.toNat) ∧
        { c with encs := d.encs }.onlyRegs d [(Reg.MOT_ENC_ZLATCH_COUNT n.val).off, (Reg.MOT_ENC_STATUS_ZVALID n.val).off,
          (Reg.ETM_ENC_TS_LO_TS_LO n.val).off, (Reg.ETM_ENC_TS_HI_TS_HI n.val).off])) ∧
  (∀ (n : Fin 4) (rising : Bool) (stamp : ET) (s : State), s.toChip.pstate ≠ 3 →
    let c := s.toChip
    let watched := bit (c.get (Reg.ETM_CAP_CTRL_EDGE n.val)) (if rising then 0 else 1)
    let d := ((c.seeBall (c.get (Reg.ETM_CAP_CTRL_GPIO n.val)) rising).put64 (Reg.ETM_CAP_TS_LO_TS n.val) (Reg.ETM_CAP_TS_HI_TS n.val) (stamp.toNat / 2 ^ 15 * 2 ^ 15)).put
      (Reg.ETM_CAP_CTRL_VALID n.val) 1
    (watched = false → exec (.captureEdge n rising stamp) s = .next s) ∧
    (watched = true → c.get (Reg.ETM_CAP_CTRL_VALID n.val) = 0 → exec (.captureEdge n rising stamp) s = .next (s.withChip d)) ∧
    (watched = true → c.get (Reg.ETM_CAP_CTRL_VALID n.val) ≠ 0 → exec (.captureEdge n rising stamp) s =
      .next (s.withChip ((d.put (Reg.ETM_CAP_CTRL_OVR n.val) 1).raise 238 0 [(1, n.val)]))))

/-- R62, R63: a frame that is not PTP or comes by the other transport is discarded and counted; a PTP message of another domain or
version, or a management or signalling message, is discarded, counted in PTP_ERR and told, whatever its type; one whose stamp is lost is
counted in TS_LOST. R63, R67, R71: what the messages of a port in PTP do: a Sync of the followed master, or the Follow_Up that completes
it, is the offset sample master time − ET with the path delay and the asymmetry; a Delay_Resp or Pdelay_Resp is one path delay
measurement, filtered with weight 2^-DELAY_FILT; Delay_Req and Pdelay_Req are answered; an Announce is recorded and the best master clock
algorithm run. R72: the rule of the servo for one offset sample: outside a layer the first setting steps ET whatever the size and EV224 is
raised; beyond STEP_THR nothing is stepped again, the refusal is shown and told, and RATE slews by SLEW_LIM from the held rate; a sample
beyond LOCK_THR in ACQUIRE outside a layer steps; else RATE stays within SLEW_LIM of the held rate. -/
def Obligations.PtpMessagesDriveTheServo : Prop :=
  (∀ (q : Fin 2) (s : State),
    let c := s.toChip
    let gone := s.withChip ((c.bump (Reg.ENET_PTP_ERR_COUNT q.val) 1).raise (234 + q.val) 0 [])
    (∀ f : EthFrame, (1522 < f.length ∨ f.isPtp = false ∨ f.transport ≠ c.flag Reg.ETM_PTP_CFG_TRANSPORT) →
      exec (.ethFrameReceived q f) s = .next (s.withChip (c.bump (Reg.ENET_DISCARD_COUNT q.val) 1))) ∧
    (∀ f : EthFrame, f.length ≤ 1522 → f.isPtp = true → f.transport = c.flag Reg.ETM_PTP_CFG_TRANSPORT →
      (f.managementOrSignalling = true ∨ f.domain.toNat ≠ c.get Reg.ETM_PTP_CFG_DOMAIN ∨ f.version ≠ 2) →
      exec (.ethFrameReceived q f) s = .next gone) ∧
    (∀ f : EthFrame, f.length ≤ 1522 → f.isPtp = true → f.transport = c.flag Reg.ETM_PTP_CFG_TRANSPORT → f.managementOrSignalling = false →
      f.domain.toNat = c.get Reg.ETM_PTP_CFG_DOMAIN → f.version = 2 →
      exec (.ethFrameReceived q f) s = .next (if f.stampLost then
        s.withChip ((c.bump (Reg.ENET_TS_LOST_COUNT q.val) 1).raise (234 + q.val) 0 []) else s)) ∧
    (∀ h : PtpHdr, (h.domain.toNat ≠ c.get Reg.ETM_PTP_CFG_DOMAIN ∨ h.version ≠ 2) →
      (∀ b o k a, exec (.sync q h b o k a) s = .next gone) ∧ (∀ o k, exec (.followUp q h o k) s = .next gone) ∧
      (∀ k a, exec (.delayReq q ⟨h, k⟩ a) s = .next gone) ∧ (∀ r o k, exec (.delayResp q h r o k) s = .next gone) ∧
      (∀ k a b, exec (.pdelayReq q ⟨h, k⟩ a b) s = .next gone) ∧ (∀ m, exec (.pdelayResp q h m) s = .next gone) ∧
      (∀ m, exec (.announce q h m) s = .next gone))) ∧
  ((∀ (c : Chip) (q : Nat) (t1 t2 mean : Int), c.servo.meanDelay = some mean → c.servo.delaysLeft = 0 →
    let e := c.setPtp q { c.ptpPort q with forward := some (t2 - t1) }
    let e := if c.get Reg.ETM_STATUS_STATE = 3 then
        (((e.put Reg.ETM_STATUS_STATE 1).put Reg.ETM_STATUS_HOLD_CAUSE 0).put (Reg.ENET_STATUS_PORT_STATE q) 9).raise 229 0 []
      else e
    c.servoSync q t1 t2 = e.servoSample (t1 + mean + floorDiv (c.getI (Reg.ENET_ASYM_PS q) * 65536) 1000 - t2)) ∧
  (∀ (c : Chip) (m k : Int), c.servo.meanDelay = some m →
    (c.pathDelay k).servo.meanDelay = some (m + (k - m) >>> c.get Reg.ETM_SERVO_DELAY_FILT) ∧
    (c.pathDelay k).servo.delaysLeft = c.servo.delaysLeft - 1) ∧
  ∀ (q : Fin 2) (h : PtpHdr) (s : State), s.toChip.ptpMatches h = true → s.toChip.ptpOn q.val = true →
    let c := s.toChip.ripen q.val
    let x := c.ptpPort q.val
    let stampIn := fun (a : PortStamp) => c.get Reg.ETM_ERA_ERA * 2 ^ 64 + (c.now.toNat : Int) + wrapDiff a.raw c.now -
      floorDiv ((c.get (Reg.ENET_LAT_RX_PS q.val) + a.variablePs.toNat) * 65536) 1000
    let heard := c.setServo { c.servo with
      syncDue := some (c.clk + c.get Reg.ETM_PTP_CFG_SYNC_TO * intervalNs (c.getI Reg.ETM_PTP_CFG_LOG_SYNC)) }
    (∀ o k a, c.followed q.val h.source = true →
      exec (.sync q h false o k a) s = .next (s.withChip (heard.servoSync q.val ((o : Int) * 65536 + k) (stampIn a)))) ∧
    (∀ o k a, exec (.sync q h true o k a) s = .next (s.withChip ((if c.followed q.val h.source then heard else c).setPtp q.val
      { x with syncHalf := some ⟨h.source, h.seq.toNat, stampIn a, k⟩ }))) ∧
    (∀ o k m, x.syncHalf = some m → m.source = h.source → m.seq = h.seq.toNat → c.followed q.val h.source = true →
      exec (.followUp q h o k) s = .next (s.withChip ((c.setPtp q.val { x with syncHalf := none }).servoSync q.val
        ((o : Int) * 65536 + m.corr + k) m.time))) ∧
    (∀ r o k t3 fwd, r = c.ownId q.val → h.seq.toNat = (x.seqDelay + 65535) % 65536 → c.followed q.val h.source = true →
      x.reqSent = some t3 → x.forward = some fwd →
      exec (.delayResp q h r o k) s = .next (s.withChip ((c.setPtp q.val { x with reqSent := none }).pathDelay
        (floorDiv (fwd + ((o : Int) * 65536 - k - t3)) 2)))) ∧
    (∀ k a, c.get (Reg.ENET_STATUS_PORT_STATE q.val) = 6 → c.get Reg.ETM_PTP_CFG_DELAY_MECH = 0 →
      exec (.delayReq q ⟨h, k⟩ a) s =
        .next (s.withChip (c.emit (.ptp q.val 9 h.seq.toNat (stampIn a) k (some h.source) none)))) ∧
    (∀ k a b, c.get Reg.ETM_PTP_CFG_DELAY_MECH = 1 →
      exec (.pdelayReq q ⟨h, k⟩ a b) s = .next (s.withChip (if c.flag Reg.ETM_PTP_CFG_ONE_STEP then
        c.emit (.ptp q.val 3 h.seq.toNat 0 (k + (c.egress q.val b - stampIn a)) (some h.source) none) else
        (c.emit (.ptp q.val 3 h.seq.toNat (stampIn a) 0 (some h.source) none)).emit
          (.ptp q.val 10 h.seq.toNat (c.egress q.val b) k (some h.source) none)))) ∧
    (∀ r o k a t1, r = c.ownId q.val → h.seq.toNat = (x.seqDelay + 65535) % 65536 → x.reqSent = some t1 →
      c.servo.parent.isSome = true → c.servo.parentPort = q.val →
      exec (.pdelayResp q h (.resp r o k false a)) s = .next (s.withChip ((c.setPtp q.val { x with reqSent := none }).pathDelay
        (floorDiv (stampIn a - t1 - k) 2)))) ∧
    (∀ m, h.source.clock ≠ (c.ownId q.val).clock → ∃ prev rest due,
      exec (.announce q h m) s = .next (s.withChip ((c.setPtp q.val { x with
        foreign := rest ++ [⟨h.source, m, c.clk, prev⟩], timedOut := false, announceDue := due }).bmca)) ∧
      (c.followed q.val h.source = true →
        due = some (c.clk + c.get Reg.ETM_PTP_CFG_ANNOUNCE_TO * intervalNs (c.getI Reg.ETM_PTP_CFG_LOG_ANNOUNCE))) ∧
      (∀ g ∈ rest, g ∈ x.foreign ∧ g.source ≠ h.source))) ∧
  (∀ (c : Chip) (o : Int),
    let d := c.servoSample o
    let step := (c.get Reg.ETM_STEP_THR_NS : Int) * 65536
    let lock := (c.get Reg.ETM_LOCK_THR_NS : Int) * 65536
    let lim := (c.get Reg.ETM_SLEW_LIM_PPM : Int) * 4294967296 / 1000000
    let mayNotSet := c.flag Reg.ETM_STATUS_SET = true ∨ c.get Reg.ETM_STATUS_INLAYER ≠ 0
    (c.flag Reg.ETM_STATUS_SET = false → c.get Reg.ETM_STATUS_INLAYER = 0 →
      d.stepSum = c.stepSum + o ∧ d.get Reg.ETM_STATUS_SET = 1 ∧ d.servo.integ = 0 ∧
      d.bitOf (Reg.EVT_STATUS_RAISED 7) 0 = true ∧ d.getI Reg.ETM_RATE_RATE = c.getI Reg.ETM_RATE_RATE) ∧
    (c.flag Reg.ETM_STATUS_SET = true → lock < |o| → |o| ≤ step → c.get Reg.ETM_STATUS_STATE = 1 →
      c.get Reg.ETM_STATUS_INLAYER = 0 → c.get Reg.ETM_STATUS_SLEWING = 0 →
      d.stepSum = c.stepSum + o ∧ d.servo.integ = 0 ∧ d.bitOf (Reg.EVT_STATUS_RAISED 7) 0 = true) ∧
    (mayNotSet → step < |o| → lock ≤ step →
      d.et = c.et ∧ d.stepSum = c.stepSum ∧ d.get Reg.ETM_STATUS_SLEWING = 1 ∧ d.servo.integ = c.servo.integ ∧
      (c.get Reg.ETM_STATUS_SLEWING = 0 → d.get Reg.ETM_STATUS_STEP_REFUSED = 1)) ∧
    (mayNotSet → (c.get Reg.ETM_STATUS_INLAYER ≠ 0 ∨ |o| ≤ lock) →
      d.et = c.et ∧ d.stepSum = c.stepSum) ∧
    (mayNotSet → |o| ≤ lock → |c.servo.base| + lim < 4294967 →
      c.servo.base - lim ≤ d.getI Reg.ETM_RATE_RATE ∧ d.getI Reg.ETM_RATE_RATE ≤ c.servo.base + lim))

/-- R65, R66: at its interval a port in MASTER, which it is too once its time in PRE_MASTER is over, sends Sync and Announce, and a slave
port, or with peer delay every port, sends its request; each message takes the next sequence number and the interval is counted from the
sending. R76: no Sync in time, and the loss of every master, put the servo in HOLDOVER with their cause and EV228; the announce receipt
timeout forgets the parent, or on a port without it its masters, and runs the algorithm again; a network port shows its link and lock, and
tells a change. (HOLDOVER from FREE: log entry 25.) -/
def Obligations.PtpIntervalsAndHoldover : Prop :=
  (∀ (q : Fin 2) (a : PortStamp) (s : State), s.toChip.ptpOn q.val = true →
    let e := s.toChip.qualify q.val
    let x := e.ptpPort q.val
    let out := fun (c : Chip) => c.get Reg.ETM_ERA_ERA * 2 ^ 64 + (c.now.toNat : Int) + wrapDiff a.raw c.now +
      floorDiv ((c.get (Reg.ENET_LAT_TX_PS q.val) + a.variablePs.toNat) * 65536) 1000
    (e.get (Reg.ENET_STATUS_PORT_STATE q.val) = 6 →
      let c := e.advanceTo x.nextSync
      exec (.syncInterval q a) s = .next (s.withChip (if c.flag Reg.ETM_PTP_CFG_ONE_STEP then
        (c.setPtp q.val { x with seqSync := (x.seqSync + 1) % 65536, nextSync := c.clk + intervalNs (c.getI Reg.ETM_PTP_CFG_LOG_SYNC) }).emit
          (.ptp q.val 0 x.seqSync (out c) 0 none none) else
        ((c.setPtp q.val { x with seqSync := (x.seqSync + 1) % 65536, nextSync := c.clk + intervalNs (c.getI Reg.ETM_PTP_CFG_LOG_SYNC) }).emit
          (.ptp q.val 0 x.seqSync 0 0 none none)).emit (.ptp q.val 8 x.seqSync (out c) 0 none none)))) ∧
    (e.get (Reg.ENET_STATUS_PORT_STATE q.val) = 6 →
      let c := e.advanceTo x.nextAnnounce
      let d := c.setPtp q.val { x with
        seqAnnounce := (x.seqAnnounce + 1) % 65536
        nextAnnounce := c.clk + intervalNs (c.getI Reg.ETM_PTP_CFG_LOG_ANNOUNCE) }
      exec (.announceInterval q) s = .next (s.withChip (d.emit
        (.ptp q.val 11 x.seqAnnounce (c.get Reg.ETM_ERA_ERA * 2 ^ 64 + (c.now.toNat : Int)) 0 none (some d.announced))))) ∧
    (let p2p := s.toChip.flag Reg.ETM_PTP_CFG_DELAY_MECH
     let x := s.toChip.ptpPort q.val
     (p2p = true ∨ s.toChip.get (Reg.ENET_STATUS_PORT_STATE q.val) = 9 ∨ s.toChip.get (Reg.ENET_STATUS_PORT_STATE q.val) = 8) →
      let c := s.toChip.advanceTo x.nextDelay
      exec (.delayInterval q a) s = .next (s.withChip ((c.setPtp q.val { x with
        seqDelay := (x.seqDelay + 1) % 65536
        nextDelay := c.clk + intervalNs (c.getI Reg.ETM_PTP_CFG_LOG_DELAY)
        reqSent := some (out c)
        pdelayHalf := none }).emit (.ptp q.val (if p2p then 2 else 1) x.seqDelay 0 0 none none))))) ∧
  ((∀ (s : State) (due : Nat), s.toChip.servo.syncDue = some due → s.toChip.get Reg.ETM_STATUS_STATE ≠ 3 →
    ∃ d, exec .syncReceiptTimeout s = .next (s.withChip d) ∧
      (let c := s.toChip.advanceTo due
       d.get Reg.ETM_STATUS_STATE = 3 ∧ d.get Reg.ETM_STATUS_HOLD_CAUSE = 1 ∧ c.tells d 228 1 ∧
       (c.servo.everLocked = true → d.getI Reg.ETM_RATE_RATE = clampI c.servo.base (-4294967) 4294967) ∧
       c.keepsRegs d [Reg.ETM_STATUS_STATE.off, Reg.ETM_RATE_RATE.off, (Reg.ENET_STATUS_PORT_STATE c.servo.parentPort).off] ∧ { c with servo := d.servo }.sameBut5 d)) ∧
  (∀ (q : Fin 2) (s : State) (due : Nat), (s.toChip.ptpPort q.val).announceDue = some due →
    let c := s.toChip.advanceTo due
    let left := (c.ptpPort q.val).foreign.filter fun f => !c.announceCounts q.val f.source
    exec (.announceReceiptTimeout q) s = .next (s.withChip ((c.setPtp q.val { c.ptpPort q.val with
      foreign := left, timedOut := left.isEmpty
      announceDue := if left.isEmpty then none else
        some (c.clk + c.get Reg.ETM_PTP_CFG_ANNOUNCE_TO * intervalNs (c.getI Reg.ETM_PTP_CFG_LOG_ANNOUNCE)) }).bmca))) ∧
  (∀ c : Chip, c.servo.parent.isSome = true → c.ebest = none → c.get Reg.ETM_STATUS_STATE ≠ 3 →
    c.bmca.get Reg.ETM_STATUS_STATE = 3 ∧ c.bmca.get Reg.ETM_STATUS_HOLD_CAUSE = 2 ∧ c.bmca.servo.parent = none ∧
    c.tells c.bmca 228 2) ∧
  (∀ (q : Fin 2) (link blockLock fecLock : Bool) (s : State),
    ∃ d, exec (.ethLinkChange q link blockLock fecLock) s = .next (s.withChip d) ∧
      d.flag (Reg.ENET_STATUS_LINK q.val) = link ∧ d.flag (Reg.ENET_STATUS_BLOCK_LOCK q.val) = blockLock ∧
      ((s.toChip.flag (Reg.ENET_STATUS_LINK q.val) ≠ link ∨ s.toChip.flag (Reg.ENET_STATUS_BLOCK_LOCK q.val) ≠ blockLock) →
        d.get (Reg.ENET_STATUS_LINK_CHG q.val) = 1)))

/-! ### The host interface -/

/-- R85, R116: a link's speed and width are shown, a change is told by EV000 or EV001, and a link that goes down resets its port; an AER
error raises EV012 or EV013. R85, R466: a port reset disables each of the port's rings, releases its semaphores and no other, clears its
MSI-X table and its tolerance, and writes no host memory; the other port's rings keep their indices and states. (Link codes and the MSI-X
table: log entries 10, 20 and 68.) -/
def Obligations.LinksAndPortReset : Prop :=
  (∀ (p : Port) (speed width : Fin 5) (s : State),
    let c := s.toChip
    let w := if speed.val = 0 then 0 else width.val
    let d := (((c.put (Reg.HIF_STATUS_SPEED p.num) speed.val).put (Reg.HIF_STATUS_WIDTH p.num) w).put
      (Reg.HIF_STATUS_LINK_CHG p.num) 1).raise p.num 0 []
    let same := (c.get (Reg.HIF_STATUS_SPEED p.num) = speed.val ∧ c.get (Reg.HIF_STATUS_WIDTH p.num) = w) ∨
      w = 3 ∨ (speed.val ≠ 0 ∧ w = 0)
    (same → exec (.pcieLinkChange p speed width) s = .next s) ∧
    (¬same → (c.get (Reg.HIF_STATUS_SPEED p.num) = 0 ∨ speed.val ≠ 0) →
      exec (.pcieLinkChange p speed width) s = .next (s.withChip (d.retarget 4))) ∧
    (¬same → c.get (Reg.HIF_STATUS_SPEED p.num) ≠ 0 → speed.val = 0 →
      exec (.pcieLinkChange p speed width) s = .next (s.withChip (d.portReset p.num)) ∧
      exec (.portReset p) (s.withChip d) = .next (s.withChip (d.portReset p.num))) ∧
    (∀ u, exec (.aerError p u) s = .next (s.withChip (c.raise (if u then 13 else 12) 0 [])))) ∧
  (∀ (p : Port) (s : State),
    let c := s.toChip
    ∃ d, exec (.portReset p) s = .next (s.withChip d) ∧
      (∀ n, n < 64 → d.ringState p.num n = 0 ∧ d.get (Reg.HIF_RING_CFG_ENABLE p.num n) = 0 ∧ (d.ring p.num n).fetched = []) ∧
      (∀ n, n < 64 → d.ringState p.other.num n = c.ringState p.other.num n ∧ d.ci p.other.num n = c.ci p.other.num n ∧
        d.pi p.other.num n = c.pi p.other.num n) ∧
      (∀ n, n < 32 → d.get (Reg.GLB_SEM_OWNER n) =
        if c.get (Reg.GLB_SEM_OWNER n) = p.num + 1 then 0 else c.get (Reg.GLB_SEM_OWNER n)) ∧
      (d.get (if p = .a then Reg.CKP_LTR_A_NS else Reg.CKP_LTR_B_NS) = 0) ∧
      c.postsNothing d)

/-- R90, R91: enabling a DISABLED ring of a valid set-up makes it RUNNING with CI and PI at 0 and the written TYPE, size and vector; a
set-up that breaks R88 or R89 raises EV003 with cause BAD_CFG and changes nothing else; while a ring is enabled its fixed fields keep
their values. R91, R110: disabling an enabled ring makes it DISABLED, abandons what it fetched, and writes no host memory. -/
def Obligations.RingsAreEnabledAndDisabled : Prop :=
  (∀ (via p : Port) (n : Fin 64) (v : Word) (s : State), s.awake → v.getLsbD 31 = true →
    let c := s.toChip
    let ok := bits v.toNat 0 3 ≤ 5 ∧ 6 ≤ bits v.toNat 8 4 ∧ c.get (Reg.HIF_RING_BASE_LO_BASE p.num n.val) % 4096 = 0 ∧
      c.get (Reg.HIF_RING_CI_LO_ADDR p.num n.val) % 4 = 0
    (c.ringOn p.num n.val = false → ok →
      ∃ d, exec (.ringEnable via p n v) s = .next (s.withChip d) ∧
        d.ringState p.num n.val = 1 ∧ d.ci p.num n.val = 0 ∧ d.pi p.num n.val = 0 ∧ d.ringOn p.num n.val = true ∧
        d.get (Reg.HIF_RING_CFG_TYPE p.num n.val) = bits v.toNat 0 3 ∧
        d.get (Reg.HIF_RING_CFG_SIZE_LOG2 p.num n.val) = bits v.toNat 8 4 ∧
        d.get (Reg.HIF_RING_CFG_VECTOR p.num n.val) = bits v.toNat 16 6 ∧ (d.ring p.num n.val).fetched = [] ∧
        (∀ m, m < 64 → m ≠ n.val → d.ring p.num m = c.ring p.num m) ∧
        { c with rings := d.rings }.onlyRegs d [(Reg.HIF_RING_CFG_TYPE p.num n.val).off, (Reg.HIF_RING_STATUS_CI p.num n.val).off,
          (Reg.HIF_RING_FAULT_PI p.num n.val).off]) ∧
    (c.ringOn p.num n.val = false → ¬ok →
      exec (.ringEnable via p n v) s = .next (s.withChip (c.raise 3 2 [(1, p.num), (1, n.val), (2, 0), (2, 0)]))) ∧
    (c.ringOn p.num n.val = true → bits v.toNat 0 3 ≤ 5 →
      exec (.ringEnable via p n v) s = .next (s.withChip (c.put (Reg.HIF_RING_CFG_VECTOR p.num n.val) (bits v.toNat 16 6)))) ∧
    (c.ringOn p.num n.val = true → ∀ (q : Port) (w : Word) (k : Fin 4),
      exec (.registerWrite q .bar0 (BitVec.ofNat 24 (0x11000 + 0x1000 * p.num + 0x40 * n.val + 4 * k.val)) ⟨w, none⟩) s = .next s)) ∧
  (∀ (via p : Port) (n : Fin 64) (v : Word) (s : State), s.awake → v.getLsbD 31 = false → bits v.toNat 0 3 ≤ 5 →
    s.toChip.ringOn p.num n.val = true →
    let c := s.toChip
    ∃ d, exec (.ringDisable via p n v) s = .next (s.withChip d) ∧
      d.ringState p.num n.val = 0 ∧ d.ringOn p.num n.val = false ∧ (d.ring p.num n.val).fetched = [] ∧
      (∀ it ∈ d.inspItems, it.port = p.num → it.ring = n.val → False) ∧ c.postsNothing d ∧
      (∀ m, m < 64 → m ≠ n.val → d.ringState p.num m = c.ringState p.num m ∧ d.ci p.num m = c.ci p.num m))

/-- R94: a doorbell is accepted while the new outstanding count is at most N and its advance is not negative; else a RUNNING ring stops
with DOORBELL_RANGE, once what it acted on has completed, and a DISABLED or STOPPED one discards it with EV014. R93, R102, R109: a
descriptor that the doorbell covers joins those fetched; a LAYER ring without space, or before DRAM is ready, waits and shows LAYER_HELD,
until space comes; after 10 ms EV010 is raised once. A transfer that is not 64 bytes is none of this hardware (R96). (The malformed fault:
log entry 8; when EV010 comes: log entry 22.) -/
def Obligations.DoorbellsLeadToFetches : Prop :=
  (∀ (p : Port) (n : Fin 64) (v : Word) (s : State), s.awake →
    let c := s.toChip
    let good := v.toNat < 65536 ∧ (v.toNat + 65536 - c.ci p.num n.val) % 65536 ≤ 2 ^ c.get (Reg.HIF_RING_CFG_SIZE_LOG2 p.num n.val) ∧
      0 ≤ wrapDiff (BitVec.ofNat 16 v.toNat) (BitVec.ofNat 16 (c.pi p.num n.val))
    (c.ringState p.num n.val = 0 →
      exec (.doorbell p n v) s = .next (s.withChip (c.raise 14 1 [(1, p.num), (1, n.val), (4, v.toNat)]))) ∧
    (c.ringState p.num n.val ≠ 0 → good →
      exec (.doorbell p n v) s = .next (s.withChip ((c.put (Reg.HIF_RING_FAULT_PI p.num n.val) v.toNat).wake 1))) ∧
    (c.ringState p.num n.val = 2 → ¬good →
      exec (.doorbell p n v) s = .next (s.withChip (c.raise 14 2 [(1, p.num), (1, n.val), (4, v.toNat)]))) ∧
    (c.ringState p.num n.val = 1 → ¬good → (c.ring p.num n.val).acted = false →
      exec (.doorbell p n v) s = .next (s.withChip (c.stopRing p.num n.val 0x104))) ∧
    (c.ringState p.num n.val = 1 → ¬good → (c.ring p.num n.val).acted = true →
      exec (.doorbell p n v) s = .next (s.withChip (c.setRing p.num n.val { c.ring p.num n.val with stopAfter := some 0x104 })))) ∧
  (∀ (p : Port) (n : Fin 64) (s : State),
    let c := s.toChip
    let r := c.ring p.num n.val
    let ready := c.ringState p.num n.val = 1 ∧ r.fetched.length < 32 ∧ r.fetched.length < c.outstanding p.num n.val
    let space := c.blockUsed + 263168 ≤ c.get Reg.HIF_BLOCK_AREA_MIB * 2 ^ 20 ∧ c.flag Reg.DRC_STATUS_INIT_DONE = true
    (∀ d : List Byte, d.length ≠ 64 → exec (.descriptorFetch p n (some d)) s = .fault .malformed) ∧
    (∀ d : List Byte, d.length = 64 → ready → r.fetched ≠ [] → (c.get (Reg.HIF_RING_CFG_TYPE p.num n.val) = 0 → space) →
      exec (.descriptorFetch p n (some d)) s = .next (s.withChip
        ((c.setRing p.num n.val { r with fetched := r.fetched ++ [some d], heldSince := none, heldTold := false }).showHeld p.num))) ∧
    (∀ d : List Byte, d.length = 64 → ready → c.get (Reg.HIF_RING_CFG_TYPE p.num n.val) = 0 → ¬space →
      exec (.descriptorFetch p n (some d)) s = .next (s.withChip
        ((c.setRing p.num n.val { r with heldSince := some (r.heldSince.getD c.clk) }).showHeld p.num))) ∧
    (ready → r.fetched = [] → c.get (Reg.HIF_RING_CFG_TYPE p.num n.val) ≠ 0 →
      exec (.descriptorFetch p n none) s = .next (s.withChip (((c.setRing p.num n.val
        { r with fetched := [none], heldSince := none, heldTold := false }).showHeld p.num).faultDesc p.num n.val 0x103))) ∧
    (r.heldSince.isSome = true → space → exec (.blockAreaSpace p n) s = .next (s.withChip
      ((c.setRing p.num n.val { r with heldSince := none, heldTold := false }).showHeld p.num))) ∧
    (∀ t, r.heldSince = some t → r.heldTold = false → exec (.layerHeldTimeout p n) s = .next (s.withChip
      (((c.advanceTo (t + 10000000)).setRing p.num n.val { r with heldTold := true }).raise 10 0 []))))

/-- R104: a hold-off that ends signals the ring's vector and begins the gathering afresh. R106, R107: RESTART makes a STOPPED ring RUNNING
at its CI, with SKIP the descriptor at CI completes SKIPPED if it has been posted; a RESTART to a ring that is not STOPPED is discarded;
STOP stops a RUNNING ring with HOST_STOP, once what it acted on has completed. R97, R99, R110, R111: a STATE or INSPECT buffer whose
length is wrong faults; one takes the first item of its ring, posts it and completes with its length and kind; one too small completes
TOO_SMALL, a STATE item then stays and an INSPECT item is dropped. R403: the TLP of a unit that is stored poisoned or reads uncorrectable
is written poisoned. (RESULT of a small buffer, a skipped descriptor, RESTART with STOP: log entries 14 to 16.) -/
def Obligations.RingsAreSignalledRestartedAndFilled : Prop :=
  (∀ (p : Port) (n : Fin 64) (s : State) (t : Nat), (s.toChip.ring p.num n.val).irqDue = some t →
    let c := s.toChip.advanceTo t
    exec (.irqHoldoff p n) s = .next (s.withChip
      ((c.setRing p.num n.val { c.ring p.num n.val with irqGathered := 0, irqDue := none }).vector p.num
        (c.get (Reg.HIF_RING_CFG_VECTOR p.num n.val))))) ∧
  (∀ (via p : Port) (n : Fin 64) (v : Word) (s : State), s.awake →
    let c := s.toChip
    let run := (c.put (Reg.HIF_RING_STATUS_STATE p.num n.val) 1).put (Reg.HIF_RING_STATUS_FAULT p.num n.val) 0
    (v.getLsbD 0 = true → v.getLsbD 1 = false → v.getLsbD 2 = false →
      exec (.restart via p n v) s = .next (s.withChip (if c.ringState p.num n.val = 2 then run else c))) ∧
    (v.getLsbD 0 = true → v.getLsbD 1 = true → v.getLsbD 2 = false → c.ringState p.num n.val = 2 →
      c.outstanding p.num n.val ≠ 0 →
      exec (.restartSkip via p n v) s = .next (s.withChip ((run.completeWith p.num n.val 1 (c.ring p.num n.val).stopIrq
        [.post p.num (c.descAddr p.num n.val (c.ci p.num n.val) + 0x30) (leBytes 16 0)]).trimInsp p.num n.val))) ∧
    (v.getLsbD 0 = true → v.getLsbD 1 = true → v.getLsbD 2 = false → c.ringState p.num n.val = 2 →
      c.outstanding p.num n.val = 0 → exec (.restartSkip via p n v) s = .next (s.withChip run)) ∧
    (v.getLsbD 0 = false → v.getLsbD 2 = true → c.ringState p.num n.val = 1 → (c.ring p.num n.val).acted = false →
      exec (.hostStop via p n v) s = .next (s.withChip (c.stopRing p.num n.val 0x106))) ∧
    (v.getLsbD 0 = false → v.getLsbD 2 = true → c.ringState p.num n.val = 1 → (c.ring p.num n.val).acted = true →
      exec (.hostStop via p n v) s = .next (s.withChip (c.setRing p.num n.val
        { c.ring p.num n.val with stopAfter := some 0x106 }))) ∧
    (v.getLsbD 0 = false → v.getLsbD 2 = true → c.ringState p.num n.val ≠ 1 → exec (.hostStop via p n v) s = .next s)) ∧
  (∀ (p : Port) (n : Fin 64) (reads : List UnitRead) (s : State) (d : List Byte),
    let c := s.toChip
    let bad := fun (poison : List Nat) (body : List Byte) (out : List Output) =>
      ∀ u ∈ poison ++ (reads.filter fun r => !DramKind.correctable r.err.kind).map (·.unit), 64 * u < body.length →
        Output.poisonedTlp p.num (leField d 8 8 + 64 * u) ∈ out
    let len := leField d 0x10 4
    (c.headOp p.num n.val 0x61 = some d →
      ((len % 64 ≠ 0 ∨ len < 4096) → exec (.stateBuf p ⟨n, reads⟩) s = .next (s.withChip (c.faultDesc p.num n.val 0x101))) ∧
      (len % 64 = 0 → 4096 ≤ len → ∀ it,
        c.stateItems.find? (StateItem.waits p.num n.val) = some it →
        (len < it.body.length → exec (.stateBuf p ⟨n, reads⟩) s = .next (s.withChip
          (c.complete p.num n.val 5 d (leBytes 4 0 ++ leBytes 1 it.kind ++ leBytes 11 0)))) ∧
        (it.body.length ≤ len → ∃ e, exec (.stateBuf p ⟨n, reads⟩) s = .next (s.withChip e) ∧
          c.out ++ [.post p.num (leField d 8 8) it.body] <+: e.out ∧ e.ci p.num n.val = (c.ci p.num n.val + 1) % 65536 ∧
          bad it.poison it.body e.out ∧ e.stateItems.length + 1 = c.stateItems.length))) ∧
    (c.headOp p.num n.val 0x60 = some d →
      ((len % 64 ≠ 0 ∨ len < 4096) → exec (.inspectBuf p ⟨n, reads⟩) s = .next (s.withChip (c.faultDesc p.num n.val 0x101))) ∧
      (len % 64 = 0 → 4096 ≤ len → ∀ it,
        c.inspItems.find? (InspItem.waits p.num n.val) = some it →
        ∃ e, exec (.inspectBuf p ⟨n, reads⟩) s = .next (s.withChip e) ∧ e.ci p.num n.val = (c.ci p.num n.val + 1) % 65536 ∧
          e.inspItems.length + 1 = c.inspItems.length ∧ (e.ring p.num n.val).dropped = 0 ∧
          (it.body.length ≤ len → c.out ++ [.post p.num (leField d 8 8) it.body] <+: e.out ∧ bad it.poison it.body e.out))))

/-! ### DRAM, clocks, power and reset -/

/-- R391, R394, R409: the end of training, once the ledger has been read, makes DRAM TRAINED, its capacity that of the logical ranks in
service, and raises EV192; zeroed after READY, it is ready, the CSI receivers run in P0 and P1, and LAYER rings held for it fetch. R396,
R397: a refresh that falls due is issued, or owed while the rank is busy, but not beyond 4 owed: then it is issued at once with EV204, and
the next falls due one interval after it; an owed one is issued, or one pulled in, when the rank is free; an open bank idle for IDLE
clocks is precharged, and one that is not open is left alone. R398: a poll doubles the refresh rate of a rank at once where a device asks
for it, and returns it to normal after the second poll in a row that does not; beyond the range EV205 is raised. The next poll falls due
POLL_MS after the one before it. (What a row does whose condition does not hold: log entry 6.) -/
def Obligations.DramRunsAndRefreshes : Prop :=
  (∀ (eyes : List Nat) (s : State),
    let c := s.toChip
    (c.flag Reg.DRC_STATUS_TRAINED = true → exec (.trainingEnd eyes) s = .next s) ∧
    (c.conf.scanned = false → exec (.trainingEnd eyes) s = .next s) ∧
    (c.flag Reg.DRC_STATUS_TRAINED = false → c.conf.scanned = true → ∃ d, exec (.trainingEnd eyes) s = .next (s.withChip d) ∧
      d.get Reg.DRC_STATUS_TRAINED = 1 ∧ d.flag Reg.DRC_STATUS_DRAM_OK = decide (d.lranks ≠ 0) ∧
      d.get Reg.DRC_CAPACITY_MIB = d.lranks * (if c.flag Reg.DRC_CFG_DENSITY then 65536 else 32768) ∧
      d.get Reg.EVT_LAST_SOURCE = 192 ∧ d.layers = c.layers ∧ d.et = c.et) ∧
    (c.flag Reg.DRC_STATUS_TRAINED = true → c.flag Reg.CFG_STATUS_READY = true → c.flag Reg.DRC_STATUS_INIT_DONE = false →
      ∃ d, exec .initDone s = .next (s.withChip d) ∧ d.get Reg.DRC_STATUS_INIT_DONE = 1 ∧
        d.flag Reg.CAM_STATUS_RUNNING = decide (c.pstate ≤ 1) ∧
        d.out = c.out ++ (List.range c.lranks).map (fun l => Output.dram 6 l 0) ∧
        (c.blockUsed + 263168 ≤ c.get Reg.HIF_BLOCK_AREA_MIB * 2 ^ 20 → ∀ p n, p < 2 → n < 64 → (d.ring p n).heldSince = none) ∧
        { c with rings := d.rings, out := d.out }.onlyRegs d [Reg.DRC_STATUS_INIT_DONE.off, Reg.CAM_STATUS_RUNNING.off,
          (Reg.HIF_STATUS_LAYER_HELD 0).off, (Reg.HIF_STATUS_LAYER_HELD 1).off])) ∧
  (∀ (r : Fin 4) (bank : Fin 32) (s : State), s.toChip.inService r.val = true → s.toChip.selfRefresh = false →
    let l := r.val
    let c := s.toChip
    let due := SMap.get 0 l c.refreshDue
    let e := c.advanceTo due
    let e := { e with refreshDue := SMap.set 0 l (due + e.trefi l) e.refreshDue }
    let issued := fun (c : Chip) => { c with banks := c.banks.filter fun x => decide (x.1 / 32 ≠ l) }.emit (.dram 0 l 0)
    (e.owed l < 4 → exec (.refreshDue r false) s = .next (s.withChip (issued e))) ∧
    (e.owed l < 4 → exec (.refreshDue r true) s = .next (s.withChip (e.setOwed l (e.owed l + 1)))) ∧
    (4 ≤ e.owed l → ∀ busy, exec (.refreshDue r busy) s = .next (s.withChip ((issued e).raise 204 0 [(1, l), (4, 1)]))) ∧
    ((0 < c.owed l ∨ (c.flag Reg.DRC_REF_CFG_PULL_IN = true ∧ -4 < c.owed l)) →
      exec (.refreshCatchUp r false) s = .next (s.withChip ((issued c).setOwed l (c.owed l - 1)))) ∧
    exec (.refreshCatchUp r true) s = .next s ∧
    (let t := (SMap.get (0, 0) (32 * l + bank.val) c.banks).2
     (t = 0 → exec (.pageIdlePrecharge r bank) s = .next s) ∧
     (t ≠ 0 →
       let c := c.advanceTo (t - 1 + (5 * max 8 (c.get Reg.DRC_PAGE_CFG_IDLE) + 3) / 4)
       exec (.pageIdlePrecharge r bank) s = .next (s.withChip
         ({ c with banks := SMap.set (0, 0) (32 * l + bank.val) (0, 0) c.banks }.emit (.dram 1 l bank.val)))))) ∧
  (∀ (r : Fin 4) (doubled : Bool) (s : State) (k : Nat), s.toChip.holder 0 r.val = some k → s.toChip.inService r.val = true →
    s.toChip.selfRefresh = false →
    let l := r.val
    let due := SMap.get 0 l s.toChip.pollDue
    let c := s.toChip.advanceTo due
    let c := { c with pollDue := SMap.set 0 l (due + 1000000 * max 1 (c.get Reg.DRC_REF_CFG_POLL_MS)) c.pollDue }.emit (.dram 2 l 0)
    let at2 := c.flag (Reg.DRC_RANK_STATUS_DOUBLED k)
    (at2 = false → exec (.mr4Poll r false false) s = .next (s.withChip c)) ∧
    (at2 = false → exec (.mr4Poll r true false) s =
      .next (s.withChip ({ c with calmPolls := SMap.set 0 l 0 c.calmPolls }.changeRate l true))) ∧
    (at2 = true → exec (.mr4Poll r true false) s = .next (s.withChip { c with calmPolls := SMap.set 0 l 0 c.calmPolls })) ∧
    (at2 = true → SMap.get 0 l c.calmPolls = 0 →
      exec (.mr4Poll r false false) s = .next (s.withChip { c with calmPolls := SMap.set 0 l 1 c.calmPolls })) ∧
    (at2 = true → 1 ≤ SMap.get 0 l c.calmPolls →
      exec (.mr4Poll r false false) s = .next (s.withChip (c.changeRate l false))) ∧
    (at2 = true → exec (.mr4Poll r doubled true) s = .next (s.withChip
      { c.raise 205 0 [] with calmPolls := SMap.set 0 l 0 c.calmPolls })))

/-- R395, R404 to R407: a correctable error counts in its rank's bucket, and every bucket loses 1 per leak; the first uncorrectable error
is held; patrol scrub reads the unit its pass has reached and tells the end of the pass; a rank is retrained by its interval, by its
temperature and after self-refresh, and told where its eye is narrow. R407, R408: START spares the named rank: with a ready spare and no
migration its rank goes to MIGRATING, the spare to its place with its owed refreshes and its rate, and EV198 tells it; without a spare
EV200 with cause 1 is raised. Each copied unit moves the copy pointer; an uncorrectable error of the spare at a unit below the pointer
ends the migration, the rank stays in service and EV200 with cause 2 is raised. -/
def Obligations.DramErrorsAndSparing : Prop :=
  ((∀ s : State, s.toChip.flag Reg.DRC_STATUS_TRAINED = true →
    ∃ d, exec .bucketLeak s = .next (s.withChip d) ∧
      (let c := s.toChip.advanceTo s.toChip.leakDue
       (∀ k, k < 8 → d.get (Reg.DRC_RANK_STATUS_BUCKET k) = (c.get (Reg.DRC_RANK_STATUS_BUCKET k) - 1) % 2 ^ (Reg.DRC_RANK_STATUS_BUCKET k).width) ∧
       (∀ f : Field, (∀ k, k < 8 → f.key ≠ (Reg.DRC_RANK_STATUS_BUCKET k).key) → d.get f = c.get f) ∧
       d = { c with regs := d.regs, leakDue := c.leakDue + 1000000 * max 1 (c.get Reg.DRC_ECC_CFG_LEAK_MS) })) ∧
  (∀ (c : Chip) (e : DramError) (dev : Fin 20) (r : Nat), e.kind = .one dev →
    c.rankAt (dev.val / 10) (c.targetAddr e.off e.target) = some r → r < 4 →
    (c.dramError e).get Reg.DRC_CE_COUNT_COUNT = min (c.get Reg.DRC_CE_COUNT_COUNT + 1) (2 ^ 32 - 1) ∧
    (c.dramError e).get (Reg.DRC_RANK_STATUS_BUCKET (4 * (dev.val / 10) + r)) =
      min (c.get (Reg.DRC_RANK_STATUS_BUCKET (4 * (dev.val / 10) + r)) + 1) 255) ∧
  (∀ (c : Chip) (e : DramError) (k : Fin 5), DramKind.correctable e.kind = false → c.flag Reg.DRC_ERR_INFO_VALID = false →
    e.target = .region k →
    let addr := c.targetAddr e.off e.target
    let d := c.dramError e
    (addr < 2 ^ 64 → d.get64 Reg.DRC_ERR_ADDR_LO_ADDR Reg.DRC_ERR_ADDR_HI_ADDR = addr) ∧
    d.get Reg.DRC_ERR_INFO_VALID = 1 ∧ d.get Reg.DRC_ERR_INFO_READER = e.reader.val ∧
    d.get Reg.DRC_UE_COUNT_COUNT = min (c.get Reg.DRC_UE_COUNT_COUNT + 1) (2 ^ 32 - 1) ∧
    (c.migration = none → c.holder 0 (c.lrankOf addr) = none → c.holder 1 (c.lrankOf addr) = none → c.tells d 196 0)) ∧
  (∀ (r : Fin 4) (bank : Fin 32) (s : State), s.toChip.inService r.val = true → s.toChip.selfRefresh = false →
    s.toChip.eyeOwed = [] → s.toChip.get Reg.DRC_SCRUB_HOURS ≠ 0 →
    let c := s.toChip
    let total := c.lranks * c.lrankUnits
    let period := 3600000000000 * c.get Reg.DRC_SCRUB_HOURS
    let addr := 64 * c.scrubbed
    let e := (c.advanceTo (c.scrubStart + period * c.scrubbed / total)).touch addr
    (r.val = c.lrankOf addr → bank.val = (bankRow (c.rankUnit addr)).1 →
      (c.scrubbed + 1 < total → exec (.patrolScrub r bank none) s = .next (s.withChip { e with scrubbed := c.scrubbed + 1 })) ∧
      (total ≤ c.scrubbed + 1 → exec (.patrolScrub r bank none) s = .next (s.withChip
        ({ e with scrubbed := 0, scrubStart := c.scrubStart + period }.raise 206 0 [])))) ∧
    (¬(r.val = c.lrankOf addr ∧ bank.val = (bankRow (c.rankUnit addr)).1) → ∀ err, exec (.patrolScrub r bank err) s = .next s)) ∧
  (∀ (ch : Fin 2) (r : Fin 4) (m : EyeRead) (lane : Fin 10) (s : State), s.toChip.selfRefresh = false →
    s.toChip.flag Reg.DRC_ECC_CFG_PRE_SPARE = false →
    let k := 4 * ch.val + r.val
    let due := SMap.get 0 k s.toChip.eyeDue
    let after := fun (c : Chip) =>
      let c := (c.emit (.dram 5 r.val ch.val)).put (Reg.DRC_RANK_STATUS_EYE k) (min 127 m.eye)
      if max 1 (s.toChip.get Reg.DRC_TRAIN_CFG_MIN_EYE) ≤ m.eye then c
        else c.raise 194 0 [(1, ch.val), (1, r.val), (1, lane.val)]
    (k ∈ s.toChip.eyeOwed → exec (.retrain ch r m lane) s = .next (s.withChip
      (after { s.toChip with eyeOwed := s.toChip.eyeOwed.filter fun (x : Nat) => decide (x ≠ k) }))) ∧
    (k ∉ s.toChip.eyeOwed → s.toChip.serving ch.val r.val = true → m.byTemp = true →
      exec (.retrain ch r m lane) s = .next (s.withChip (after s.toChip))) ∧
    (k ∉ s.toChip.eyeOwed → s.toChip.serving ch.val r.val = true → m.byTemp = false →
      exec (.retrain ch r m lane) s = .next (s.withChip (after { s.toChip.advanceTo due with
        eyeDue := SMap.set 0 k (due + 1000000 * s.toChip.get Reg.DRC_RETRAIN_INTERVAL_MS) s.toChip.eyeDue }))))) ∧
  ((∀ (p : Port) (v : Word) (s : State), s.awake → v.getLsbD 0 = true → s.toChip.migration = none →
    let c := s.toChip
    let ch := bits v.toNat 4 1
    let r := bits v.toNat 8 2
    let sp := c.get Reg.DRC_CFG_SPARE_RANK
    let able := c.flag Reg.DRC_CFG_SPARE_EN = true ∧ c.rankState ch sp = 2 ∧ c.rankState ch r = 1
    (¬able → exec (.spareStart p v) s = .next (s.withChip (c.raise 200 1 []))) ∧
    (able → sp < 4 → ∃ d, exec (.spareStart p v) s = .next (s.withChip d) ∧
      d.rankState ch r = 3 ∧ d.rankState ch sp = 4 ∧ d.get Reg.DRC_STATUS_MIGRATING = 1 ∧
      d.get (Reg.DRC_RANK_STATUS_LRANK (4 * ch + sp)) = c.get (Reg.DRC_RANK_STATUS_LRANK (4 * ch + r)) % 4 ∧
      d.get (Reg.DRC_RANK_STATUS_OWED (4 * ch + sp)) = c.get (Reg.DRC_RANK_STATUS_OWED (4 * ch + r)) ∧
      d.get (Reg.DRC_RANK_STATUS_DOUBLED (4 * ch + sp)) = c.get (Reg.DRC_RANK_STATUS_DOUBLED (4 * ch + r)) ∧
      d.get Reg.EVT_LAST_SOURCE = 198 ∧ d.get Reg.EVT_LAST_CAUSE = 4 ∧ ∃ m, d.migration = some m ∧ m.copied = 0)) ∧
  (∀ (s : State) (m : Migration), s.toChip.migration = some m → s.toChip.selfRefresh = false → s.toChip.eyeOwed = [] →
    m.copied + 1 < s.toChip.lrankUnits →
    let l := s.toChip.get (Reg.DRC_RANK_STATUS_LRANK (4 * m.want.channel + m.want.rank))
    exec (.migrationCopy none none) s = .next (s.withChip
      ({ s.toChip.touch (64 * (l * s.toChip.lrankUnits + m.copied)) with migration := some { m with copied := m.copied + 1 } }.put Reg.DRC_SPARE_STATUS_PERMILLE
        (1000 * (m.copied + 1) / s.toChip.lrankUnits)))) ∧
  (∀ (s : State) (m : Migration), s.toChip.migration = some m → s.toChip.selfRefresh = false → s.toChip.eyeOwed = [] →
    s.toChip.wanted = none → m.want.channel < 2 → m.want.rank < 4 → m.want.rank ≠ s.toChip.get Reg.DRC_CFG_SPARE_RANK →
    s.toChip.rankState m.want.channel (s.toChip.get Reg.DRC_CFG_SPARE_RANK) = 4 → 0 < m.copied → m.copied ≤ s.toChip.lrankUnits →
    ∀ (e : DramError) (k : Fin 5), DramKind.correctable e.kind = false → e.target = .region k →
    errChannels e.kind = [m.want.channel] →
    ∃ d, exec (.migrationCopy none (some e)) s = .next (s.withChip d) ∧ d.migration = none ∧ d.get Reg.DRC_STATUS_MIGRATING = 0 ∧
      d.rankState m.want.channel m.want.rank = 1 ∧ d.rankState m.want.channel (s.toChip.get Reg.DRC_CFG_SPARE_RANK) = 5 ∧
      d.get Reg.EVT_LAST_SOURCE = 200 ∧ d.get Reg.EVT_LAST_CAUSE = 2))

/-- R461, R459: a controller reset leaves ET, the ledger in flash, the claim-loss note, and the kept registers as they were, counts itself
with its cause, quarantines every crossing, and puts everything else at its reset value (the loop ticks start again with it, and a gate
channel that disagrees at release is timed from then: R273); what has been put out stays put out. A source that resets within 40 ns of the
one before it is the same reset, with the lower cause (R462; log entry 97). R449, R460, R462: which resets happen when: SOFT_RESET with
its key, the loss of a PLL's lock, the watchdog 1 ms after it expires, a reset by a source not named (cause 2 to 7, a free value), RESET_N
with the straps sampled anew, and power-on, from which ET starts at 0. (The cause of a reset not named, and what power-on keeps: log
entries 3 and 60.) -/
def Obligations.ResetsKeepOnlyTheKept : Prop :=
  (∀ (c : Chip) (cause : Nat), cause < 6 →
    let d := c.resetWith cause
    (c.justReset = true → 2 ≤ c.get Reg.CKP_RESET_CAUSE_CAUSE →
      d = c.put Reg.CKP_RESET_CAUSE_CAUSE (min (c.get Reg.CKP_RESET_CAUSE_CAUSE) cause)) ∧
    (¬(c.justReset = true ∧ 2 ≤ c.get Reg.CKP_RESET_CAUSE_CAUSE) →
    d.quar = (List.range 25).map (fun x => (x, 64)) ∧ d.get Reg.CKP_XING_QUAR_QUAR = 2 ^ 25 - 1 ∧
    d = { ({} : Chip) with regs := d.regs, quar := d.quar, out := d.out, et := c.et, clk := c.clk, fresh := c.fresh, ledger := c.ledger, wdogLoss := c.wdogLoss, island := d.island, tickBase := d.tickBase, chanSince := d.chanSince } ∧
    c.out <+: d.out ∧
    d.get Reg.CKP_RESET_CAUSE_CAUSE = cause ∧
    d.get Reg.CKP_RESET_CAUSE_COUNT = min (c.get Reg.CKP_RESET_CAUSE_COUNT % 2 ^ Reg.CKP_RESET_CAUSE_COUNT.width + 1)
      (2 ^ Reg.CKP_RESET_CAUSE_COUNT.width - 1) ∧
    d.get Reg.HED_GATE_STATUS_STRIKE_LATCH = c.get Reg.HED_GATE_STATUS_STRIKE_LATCH % 2 ∧
    d.get Reg.TDM_STATUS_STATE = 0 ∧ d.get Reg.CFG_STATUS_COMMITTED = 0 ∧ d.get Reg.CRN_STATUS_STATE = 0 ∧
    (∀ f : Field, (∀ g ∈ resetKeeps, f.key ≠ g.key) → (∀ g ∈ [Reg.CKP_THERM_CFG_WARN_C, Reg.HED_GATE_STATUS_VOTE,
        Reg.HED_GATE_STATUS_COND_STOP, Reg.CKP_XING_QUAR_QUAR], f.key ≠ g.key) → d.get f = f.rst))) ∧
  ((∀ (p : Port) (v : Word) (s : State), s.awake →
    (v.getLsbD 0 = true → bits v.toNat 8 8 = 0xA5 → exec (.softReset p v) s = .next (s.withChip (s.toChip.resetWith 3))) ∧
    (¬(v.getLsbD 0 = true ∧ bits v.toNat 8 8 = 0xA5) → exec (.softReset p v) s = .next s)) ∧
  (∀ (pll : Fin 5) (s : State), exec (.pllLockLoss pll) s = .next (s.withChip
    ({ s.toChip with island := { s.toChip.island with bootEvents := s.toChip.island.bootEvents ++ [(242, 0, [(1, pll.val)])] } }.resetWith 5))) ∧
  (∀ (s : State) (t : Nat), s.toChip.island.wdogDue = some t →
    exec .watchdogReset s = .next (s.withChip ((s.toChip.advanceTo t).resetWith 4))) ∧
  (∀ s : State, ∃ k, 2 ≤ k ∧ k ≤ 7 ∧ exec .controllerReset s =
    .next (s.withChip ({ s.toChip with fresh := s.toChip.fresh + 1 }.resetWith k))) ∧
  (∀ (x : Straps) (s : State), ∃ d, exec (.resetN x) s = .next (s.withChip d) ∧
    d.flag Reg.GLB_STRAPS_PRI = x.pri ∧ d.flag Reg.GLB_STRAPS_TDM_EN = x.tdmEn ∧ d.flag Reg.GLB_STRAPS_SAFE_BOOT = x.safeBoot ∧
    d.get Reg.CKP_RESET_CAUSE_CAUSE = 2 ∧ d.get Reg.CKP_RAIL_STATUS_LOCKOUT = 0 ∧ d.get Reg.CKP_RAIL_STATUS_FAILS = 0 ∧
    d.et = s.et ∧ (s.toChip.justReset = false → d.layers = [] ∧ d.rings = [] ∧ d.run = none)) ∧
  (∀ (x : Straps) (s : State), ∃ d, exec (.por x) s = .next (s.withChip d) ∧
    d.flag Reg.GLB_STRAPS_PRI = x.pri ∧ d.flag Reg.GLB_STRAPS_TDM_EN = x.tdmEn ∧ d.flag Reg.GLB_STRAPS_SAFE_BOOT = x.safeBoot ∧
    d.get Reg.HED_GATE_STATUS_STRIKE_LATCH = 0 ∧ d.get Reg.CKP_RESET_CAUSE_CAUSE = Reg.CKP_RESET_CAUSE_CAUSE.rst ∧ d.et = 0 ∧
    d.ledger = s.ledger ∧ d.layers = [] ∧ d.rings = [] ∧ d.run = none))

/-- R463, R466 to R468: the target state is the deepest that MAX_STATE, the tolerance and R467 allow; a target deeper than the present
state is entered, P1 at once, P2 and P3 after ENTRY_US; a target shallower, or a wake event, starts an exit, which takes the exit latency
and ends in its state with EXITS counted and EV240. R449, R459: a lane PLL that unlocks is shown, and lanes that are up lose lock with
cause CODE_ERR, COMMA_SHIFT, NO_FILL or ELASTIC; a crossing whose sides are out of reset leaves quarantine; a camera port that enters
ultra-low power resets its receiver side and quarantines its crossings. (Entries are atomic; what a quarantine discards is free: log
entries 58, 59 and 67.) -/
def Obligations.PowerStatesAndCrossings : Prop :=
  ((∀ (c : Chip), (∀ st, st ≤ 3 → c.target < st →
      ¬(st ≤ c.get Reg.CKP_PSTATE_CFG_MAX_STATE ∧ exitLatency st ≤ c.tol ∧ c.allowed st = true)) ∧
    (c.target ≠ 0 → c.target ≤ c.get Reg.CKP_PSTATE_CFG_MAX_STATE ∧ exitLatency c.target ≤ c.tol ∧ c.allowed c.target = true)) ∧
  (∀ s : State, (s.toChip.target ≤ s.toChip.pstate ∨ s.toChip.power.exit.isSome = true) →
    exec .powerStateEntry s = .next s) ∧
  (∀ s : State, s.toChip.pstate = 0 → s.toChip.power.exit = none → s.toChip.target = 1 →
    exec .powerStateEntry s = .next (s.withChip ((((s.toChip.put Reg.CKP_STATUS_PSTATE 1).put Reg.CKP_STATUS_STATE_CHG 1).raise
      240 0 [(1, 0), (1, 1)]).showLoop))) ∧
  (∀ s : State, s.toChip.pstate < s.toChip.target → s.toChip.power.exit = none → 2 ≤ s.toChip.target →
    let c := s.toChip.advance (1000 * s.toChip.get Reg.CKP_PSTATE_CFG_ENTRY_US)
    exec .powerStateEntry s = .next (s.withChip (c.enterState c.target))) ∧
  (∀ (w : WakeCause) (s : State), s.toChip.power.exit = none →
    let c := s.toChip
    let st := min c.target (if w = .doorbell then 1 else c.pstate - 1)
    (c.pstate ≤ st → exec (.wakeEvent w) s = .next s) ∧
    (st < c.pstate → ∃ d, exec (.wakeEvent w) s = .next (s.withChip d) ∧ d.get Reg.CKP_WAKE_CAUSE = wakeCode w ∧
      d.power.exit = some (st, c.clk + exitLatency c.pstate) ∧
      { c with power := d.power }.onlyRegs d [Reg.CKP_WAKE_CAUSE.off])) ∧
  (∀ (s : State) (st due : Nat), s.toChip.power.exit = some (st, due) → s.toChip.pstate = 1 → st < 4 →
    let c := { s.toChip.advanceTo due with power := { s.toChip.power with exit := none } }
    exec .powerStateExit s = .next (s.withChip (((((c.put Reg.CKP_STATUS_PSTATE st).put Reg.CKP_STATUS_STATE_CHG 1).raise 240
      (s.toChip.get Reg.CKP_WAKE_CAUSE) [(1, 1), (1, st)]).bump Reg.CKP_WAKE_EXITS 1).showLoop))) ∧
  (∀ (p which : Port) (v : Word) (s : State), s.awake →
    let c := (s.toChip.put (if which = .a then Reg.CKP_LTR_A_NS else Reg.CKP_LTR_B_NS) v.toNat).retarget 4
    exec (.ltrWrite p which v) s = .next (s.withChip
      (if c.target = 1 ∧ c.pstate = 0 ∧ c.power.exit.isNone = true then c.enterState 1 else c)) ∧
    c.get Reg.CKP_LTR_NOW_NS = (s.toChip.put (if which = .a then Reg.CKP_LTR_A_NS else Reg.CKP_LTR_B_NS) v.toNat).tol)) ∧
  ((∀ s : State,
    let c := ((s.toChip.put Reg.PHY_REF_STATUS_PLL_LOCK 0).put Reg.PHY_REF_STATUS_UNLOCKED 1).put Reg.CKP_STATUS_PLL_UNLOCKED 1
    ∃ cause : Chip → Nat, (∀ e, 2 ≤ cause e ∧ cause e ≤ 5) ∧
      exec .lanePllUnlock s = .next (s.withChip ((List.range 48).foldl (fun e n =>
        if e.laneUp n then { e with fresh := e.fresh + 1 }.loseLock n (cause e) else e) c)) ∧
      ((∀ n, n < 48 → c.laneUp n = false) → exec .lanePllUnlock s = .next (s.withChip c))) ∧
  (∀ (x : Fin 25) (inst : BitVec 6) (s : State),
    (s.toChip.sideReset x.val inst.toNat = true → exec (.quarantineEnd x inst) s = .next s) ∧
    (s.toChip.sideReset x.val inst.toNat = false → ∃ d, exec (.quarantineEnd x inst) s = .next (s.withChip d) ∧
      (∀ y, y ∈ d.quar ↔ y ∈ s.toChip.quar ∧ y ≠ (x.val, inst.toNat)) ∧
      (∀ k, k < 25 → d.bitOf Reg.CKP_XING_QUAR_QUAR k = if k = x.val then d.quar.any (fun q => decide (q.1 = x.val))
        else s.toChip.bitOf Reg.CKP_XING_QUAR_QUAR k) ∧
      { s.toChip with quar := d.quar }.onlyRegs d [Reg.CKP_XING_QUAR_QUAR.off])) ∧
  (∀ (port : Fin 4) (s : State), ∃ d, exec (.ultraLowPowerEntry port) s = .next (s.withChip d) ∧
    d.get (Reg.CAM_PORT_STATUS_CLK_ACTIVE port.val) = 0 ∧ d.get (Reg.CAM_PORT_STATUS_SYNC port.val) = 0 ∧
    d.bitOf Reg.CAM_STATUS_PORT_UP port.val = false ∧ (13, port.val) ∈ d.quar ∧ (14, port.val) ∈ d.quar ∧
    d.bitOf Reg.CKP_XING_QUAR_QUAR 13 = true ∧ d.bitOf Reg.CKP_XING_QUAR_QUAR 14 = true))

/-- R470, R471: the rails come up in order: power-good starts the dwell, the dwell ends in the next enable, and after the last the rails
are up; a rail whose power-good does not come in time is a fault: counted, told at the next start-up, with a reset; after the third the
rails stay down until RESET_N or power-on. The retry starts the sequence anew. R470, R471, R512: the rails go down from the highest: at
the loss of VIN, and one that falls while they are up is a fault. R472: each reading shows TJ and the highest so far; at the warning level
EV244 is raised once and TEMP_WARN set, it clears 5 °C below with EV244; at 125 °C the controller resets with cause THERMAL and the rails
stay down. (The retry's time and the reset's: log entry 61; VIN: log entry 67.) -/
def Obligations.RailsFollowTheirOrder : Prop :=
  ((∀ (step : Fin 6) (s : State), s.toChip.island.phase = 1 → s.toChip.island.step = step.val → s.toChip.clk ≤ s.toChip.island.due →
    let c := s.toChip.putBit Reg.CKP_RAIL_STATUS_PG step.val true
    exec (.railPowerGood step true) s = .next (s.withChip { c with
      island := { c.island with phase := 2, due := c.clk + 1000 * c.get Reg.CKP_SEQ_CFG_DWELL_US } })) ∧
  (∀ s : State, s.toChip.island.phase = 2 → s.toChip.island.step < 5 →
    let c := s.toChip.advanceTo s.toChip.island.due
    let k := s.toChip.island.step + 1
    let e := (c.putBit Reg.CKP_RAIL_STATUS_EN k true).emit (.rail k true)
    exec .railStepDwell s = .next (s.withChip { e with
      island := { e.island with phase := 1, step := k, due := e.clk + 1000000 * e.get Reg.CKP_SEQ_CFG_PG_TO_MS } })) ∧
  (∀ s : State, s.toChip.island.phase = 2 → s.toChip.island.step = 5 →
    let c := s.toChip.advanceTo s.toChip.island.due
    exec .railStepDwell s = .next (s.withChip
      ({ c with island := { c.island with phase := 3 } }.put Reg.CKP_RAIL_STATUS_FAILS 0))) ∧
  (∀ s : State, s.toChip.island.phase = 1 →
    exec .railPgTimeout s = .next (s.withChip ((s.toChip.advanceTo s.toChip.island.due).railFault s.toChip.island.step 0))) ∧
  (∀ (c : Chip) (step how : Nat),
    let n := c.get Reg.CKP_RAIL_STATUS_FAILS + 1
    let e := ((c.put Reg.CKP_RAIL_STATUS_FAIL_STEP step).put Reg.CKP_RAIL_STATUS_FAILS (min 3 n)).putB Reg.CKP_RAIL_STATUS_LOCKOUT (decide (3 ≤ n))
    let told := e.island.bootEvents ++ [(243, 0, [(1, step), (1, how)])]
    c.railFault step how =
      { e with island := { e.island with retry := decide (n < 3), retryDue := none, bootEvents := told } }.resetWith 6) ∧
  (∀ (s : State) (t : Nat), s.toChip.island.retryDue = some t → s.toChip.island.phase = 0 → s.toChip.island.loaded = true →
    s.toChip.island.thermHold = false → s.toChip.island.vinOff = false →
    let c := s.toChip.advanceTo t
    c.flag Reg.CKP_RAIL_STATUS_LOCKOUT = false →
    ∃ d, exec .railRetry s = .next (s.withChip d) ∧ d.out = c.out ++ [.rail 0 true] ∧ d.island.phase = 1 ∧ d.island.step = 0 ∧
      d.island.retryDue = none ∧ d.island.due = c.clk + 1000000 * c.get Reg.CKP_SEQ_CFG_PG_TO_MS)) ∧
  ((∀ (s : State) (k : Nat), k < 6 → s.toChip.get Reg.CKP_RAIL_STATUS_EN = 2 ^ (k + 1) - 1 →
    s.toChip.bitOf Reg.CKP_RAIL_STATUS_PG k = true →
    ∃ d, exec .vinLoss s = .next (s.withChip d) ∧ d.out = s.out ++ [.rail k false] ∧ d.island.phase = 4 ∧ d.island.step = k ∧
      d.island.vinOff = true ∧ d.get Reg.CKP_RAIL_STATUS_EN = 2 ^ k - 1 ∧
      { s.toChip with island := d.island, out := d.out }.onlyRegs d [Reg.CKP_RAIL_STATUS_EN.off]) ∧
  (∀ (step : Fin 6) (s : State), s.toChip.island.phase = 3 → step.val ≠ 2 →
    exec (.railPowerGood step false) s = .next (s.withChip
      ((s.toChip.putBit Reg.CKP_RAIL_STATUS_PG step.val false).railFault step.val 1))) ∧
  (∀ s : State, s.toChip.island.phase = 4 → s.toChip.island.step = 0 →
    s.toChip.island.retry = false → s.toChip.island.loaded = false →
    let c := s.toChip.advanceTo s.toChip.island.due
    exec .railPgTimeout s = .next (s.withChip { c with island := { c.island with phase := 0, retryDue := none } }))) ∧
  (∀ (tj : BitVec 16) (s : State), s.toChip.island.thermHold = false → s.toChip.pstate ≠ 3 →
    let c := s.toChip.advanceTo s.toChip.island.thermDue
    let t := tj.toInt
    let top := if s.toChip.island.thermSeen then max t (c.getI Reg.CKP_TEMP_MAX) else t
    let w : Int := 16 * c.get Reg.CKP_THERM_CFG_WARN_C
    let e := (c.putI Reg.CKP_TEMP_TJ t).putI Reg.CKP_TEMP_MAX top
    let e := { e with island := { e.island with thermDue := c.clk + 1000000, thermSeen := true } }
    (t < 2000 → c.flag Reg.CKP_STATUS_TEMP_WARN = false → t < w → exec (.thermalReading tj) s = .next (s.withChip e)) ∧
    (t < 2000 → c.flag Reg.CKP_STATUS_TEMP_WARN = false → w ≤ t → exec (.thermalReading tj) s =
      .next (s.withChip ((e.put Reg.CKP_STATUS_TEMP_WARN 1).raise 244 0 [(2, tj.toNat)]))) ∧
    (t < 2000 → c.flag Reg.CKP_STATUS_TEMP_WARN = true → w - 80 < t → exec (.thermalReading tj) s = .next (s.withChip e)) ∧
    (t < 2000 → c.flag Reg.CKP_STATUS_TEMP_WARN = true → t ≤ w - 80 → exec (.thermalReading tj) s =
      .next (s.withChip ((e.put Reg.CKP_STATUS_TEMP_WARN 0).raise 244 0 [(2, tj.toNat)]))) ∧
    (2000 ≤ t → ∃ d : Chip, exec (.thermalReading tj) s = .next (s.withChip (d.resetWith 7)) ∧ d.island.thermHold = true))

/-! ### Head links, heads and gates -/

/-- R220: a search shows the position it finds as POS with COMMA_OK, and the lane sends FILL; one that finds none clears COMMA_OK, the
lane sends TRAIN (R218), and with AUTO_ALIGN it starts again 2 ms later; the controller's own search, its retry and SEARCH act alike; SLIP
moves POS on by one of ten. R218, R219, R220, R222, R459: a lane that has found its alignment links, ends its crossings' quarantine (log
entry 97) and reads the head's capabilities; one that has not linked 1 s after ENABLE tells ALIGN_FAIL once; one that has not linked
within 10 ms at its rate falls back to 1.25 Gb/s, where it searches anew. R221, R245: a lane that is up loses lock: LOSSES counts it, the
lane goes to SEEK with the cause, and the event of the lane is raised; the comma shift is shown. A lane that is not up does nothing. (What
a search sees is the row's operand: log entries 9 and 33.) -/
def Obligations.LanesAlignLinkAndFallBack : Prop :=
  (∀ (n : Fin 48) (s : State), s.toChip.laneState n.val = 1 →
    let base := fun (c : Chip) => (c.put (Reg.THL_LANE_ALIGN_STATUS_CODE_ERR n.val) 0).put (Reg.THL_LANE_ALIGN_STATUS_OFF_BOUNDARY n.val) 0
    let hit := fun (c : Chip) (k : Fin 10) =>
      let d := (((base c).put (Reg.THL_LANE_ALIGN_STATUS_POS n.val) k.val).put (Reg.THL_LANE_ALIGN_STATUS_COMMA_OK n.val) 1).put
        Reg.PHY_REF_STATUS_PLL_LOCK 1
      (d.setLane n.val { d.lane n.val with aligned := true, retryAt := none }).laneSends n.val .fill
    let miss := fun (c : Chip) =>
      let d := (base c).put (Reg.THL_LANE_ALIGN_STATUS_COMMA_OK n.val) 0
      (d.setLane n.val { d.lane n.val with
        aligned := false
        retryAt := if c.flag (Reg.THL_LANE_CFG_AUTO_ALIGN n.val) then some (c.clk + 2000000) else none }).laneSends n.val .train
    let c := s.toChip
    (∀ k, c.flag (Reg.THL_LANE_CFG_AUTO_ALIGN n.val) = true → exec (.alignSearch n (some k)) s = .next (s.withChip (hit c k))) ∧
    (c.flag (Reg.THL_LANE_CFG_AUTO_ALIGN n.val) = true → exec (.alignSearch n none) s = .next (s.withChip (miss c))) ∧
    (∀ t k, (c.lane n.val).retryAt = some t → c.flag (Reg.THL_LANE_CFG_AUTO_ALIGN n.val) = true →
      exec (.alignRetry n (some k)) s = .next (s.withChip (hit (c.advanceTo t) k)) ∧
      exec (.alignRetry n none) s = .next (s.withChip (miss (c.advanceTo t)))) ∧
    (c.flag (Reg.THL_LANE_CFG_AUTO_ALIGN n.val) = false → ∀ k, exec (.alignRetry n k) s = .next s) ∧
    (∀ (p : Port) (v : Word) (k : Fin 10), s.awake → v.getLsbD 0 = false → v.getLsbD 1 = true →
      exec (.search p n v (some k)) s = .next (s.withChip (hit c k)) ∧ exec (.search p n v none) s = .next (s.withChip (miss c))) ∧
    (∀ (p : Port) (v : Word), s.awake → v.getLsbD 0 = true → v.getLsbD 1 = false →
      ∃ d, exec (.slip p n v) s = .next (s.withChip d) ∧
        d.get (Reg.THL_LANE_ALIGN_STATUS_POS n.val) = (c.get (Reg.THL_LANE_ALIGN_STATUS_POS n.val) + 1) % 10 ∧
        (d.lane n.val).aligned = d.flag (Reg.THL_LANE_ALIGN_STATUS_COMMA_OK n.val) ∧
        { c with fresh := d.fresh, lanes := d.lanes, out := d.out }.onlyRegs d [(Reg.THL_LANE_ALIGN_STATUS_POS n.val).off])) ∧
  (∀ (n : Fin 48) (s : State),
    let c := s.toChip
    (c.laneState n.val = 1 → (c.lane n.val).aligned = true → c.configured n.val = true →
      ∃ d, exec (.linked n) s = .next (s.withChip d) ∧ d.laneState n.val = 2 ∧
        (d.lane n.val).mgmtQ = (c.lane n.val).mgmtQ ++ [((c.lane n.val).mtag, MgmtReq.mk 1 3 0 4 [] .caps false)] ∧
        d.get (Reg.THL_LANE_STATUS_STATE_CHG n.val) = 1 ∧
        (10, n.val) ∉ d.quar ∧ (11, n.val) ∉ d.quar ∧
        { c with lanes := d.lanes, quar := d.quar }.onlyRegs d [(Reg.THL_LANE_STATUS_STATE n.val).off, Reg.THL_READY_LO_LANES.off,
          Reg.THL_READY_HI_LANES.off, Reg.THL_LINKED_LO_LANES.off, Reg.THL_LINKED_HI_LANES.off, Reg.CKP_XING_QUAR_QUAR.off]) ∧
    (∀ t, (c.lane n.val).enabledAt = some t → c.configured n.val = true → (c.lane n.val).failTold = false →
      c.laneUp n.val = false →
      let e := c.advanceTo (t + 1000000000)
      exec (.alignFail n) s = .next (s.withChip ((e.setLane n.val { e.lane n.val with failTold := true }).laneCause n.val 1))) ∧
    (∀ t, (c.lane n.val).seekSince = some t → c.laneState n.val = 1 →
      let e := c.advanceTo (t + 10000000)
      let l := e.lane n.val
      let e := (e.setLane n.val { l with
        switching := false
        noSwitch := l.noSwitch || l.switching
        common := false
        seekSince := none
        aligned := false }).put (Reg.THL_LANE_STATUS_RATE_NOW n.val) 0
      let e := (e.put (Reg.THL_LANE_ALIGN_STATUS_COMMA_OK n.val) 0).laneSends n.val .train
      exec (.rateFail n) s = .next (s.withChip (if l.switching then e.laneCause n.val 12 else e)))) ∧
  ((∀ (c : Chip) (n cause : Nat), n < 48 → cause < 16 → c.laneUp n = true → c.inArmed n = false →
    c.get (Reg.HED_HEAD_STATUS_STATE n) ≠ 5 →
    let d := c.loseLock n cause
    d.laneState n = 1 ∧ d.get (Reg.THL_LANE_STATUS_LAST_CAUSE n) = cause ∧ d.get Reg.EVT_LAST_SOURCE = 64 + n ∧
    d.get Reg.EVT_LAST_CAUSE = cause ∧ (d.lane n).kept = [] ∧ (d.lane n).current = none ∧
    d.get (Reg.THL_LANE_LOSSES_COUNT n) = min (c.get (Reg.THL_LANE_LOSSES_COUNT n) + 1) (2 ^ (Reg.THL_LANE_LOSSES_COUNT n).width - 1) ∧
    (∀ m, m < 48 → m ≠ n → d.laneState m = c.laneState m ∧ d.lane m = c.lane m)) ∧
  ∀ (n : Fin 48) (s : State),
    let c := s.toChip
    (c.laneUp n.val = false → exec (.peerSeek n) s = .next s ∧ exec (.noFill n) s = .next s) ∧
    (c.receives n.val = false → ∀ level, exec (.fill n level) s = .next s) ∧
    exec (.peerSeek n) s = .next (s.withChip (c.loseLock n.val 6)) ∧
    exec (.noFill n) s = .next (s.withChip (if c.get Reg.CKP_STATUS_PSTATE = 2 then c else c.loseLock n.val 4)) ∧
    exec (.commaShift n) s = .next (s.withChip ((c.put (Reg.THL_LANE_ALIGN_STATUS_OFF_BOUNDARY n.val) 1).loseLock n.val 3)) ∧
    (∀ k l, (c.lane n.val).kept = k :: l → exec (.ackTimeout n) s =
      .next (s.withChip ((c.advanceTo (k.sentAt + 1000 * c.get Reg.THL_ACK_TO_US)).loseLock n.val 7))))

/-- R216, R221, R243: on a lane that receives, a FILL is deleted from a buffer above 20, doubled below 12, and lock is lost outside 2 to
30; with a test pattern on that no near-end loop returns, the bit errors found since the last FILL are counted first, however many there
were; code errors are counted, and the fourth within 256 symbols loses lock. A quarantined crossing counts nothing (R458). R214, R236: at
a packet boundary of a READY lane a waiting CALVE goes first, as its code groups; a packet in progress that it may cut ends with ABORT
before it; with nothing waiting the lane sends FILL (R215). -/
def Obligations.PacketsAndCalvesOnALane : Prop :=
  (∀ (n : Fin 48) (s : State),
    (∃ errors : Nat,
      let b := s.toChip
      let c := if b.laneState n.val = 4 ∧ b.flag (Reg.PHY_LANE_CTRL_PRBS n.val) = true ∧ b.nearEnd n.val = false then
        { b with fresh := b.fresh + 1 }.bump (Reg.PHY_LANE_PRBS_ERR_COUNT n.val) errors else b
      let l := c.lane n.val
      let count := fun (f : Field) => if c.quar.contains (11, n.val) then c else c.bump f 1
      ∀ level : Fin 33, c.receives n.val = true → l.common = false →
        (20 < level.val → level.val ≤ 30 → exec (.fill n level) s = .next (s.withChip
          ((count (Reg.THL_LANE_FILL_DEL_COUNT n.val)).setLane n.val { l with level := level.val - 2 }))) ∧
        (12 ≤ level.val → level.val ≤ 20 → exec (.fill n level) s = .next (s.withChip (c.setLane n.val { l with level := level.val }))) ∧
        (2 ≤ level.val → level.val < 12 → exec (.fill n level) s = .next (s.withChip
          ((count (Reg.THL_LANE_FILL_INS_COUNT n.val)).setLane n.val { l with level := level.val + 2 }))) ∧
        (30 < level.val ∨ level.val < 2 → exec (.fill n level) s = .next (s.withChip
          ((c.setLane n.val { l with level := level.val }).loseLock n.val 5)))) ∧
    (let c := s.toChip
     let l := c.lane n.val
     ∀ symbol : Nat,
      let e := (if c.quar.contains (11, n.val) then c else c.bump (Reg.THL_LANE_ALIGN_STATUS_CODE_ERR n.val) 1).setLane n.val { l with errs := (symbol :: l.errs).take 4 }
      (l.errs.length < 3 → exec (.codeErr n symbol) s = .next (s.withChip e)) ∧
      (∀ x y old r, l.errs = x :: y :: old :: r → exec (.codeErr n symbol) s =
        .next (s.withChip (if symbol < old + 256 then e.loseLock n.val 2 else e))))) ∧
  (∀ (n : Fin 48) (s : State), s.toChip.laneState n.val = 3 → s.toChip.pstate < 2 →
    let c := s.toChip
    let l := c.lane n.val
    let calve := fun (k trigger : Nat) => packet 2 0 0 (leBytes 4 k ++ leBytes 1 trigger ++ leBytes 3 0)
    (∀ k trigger rest, l.calves = (k, trigger) :: rest → l.current = none →
      ∃ d, exec (.lanePacketSend n) s = .next (s.withChip d) ∧
        d.out = c.out ++ [.lane n.val 2 (calve k trigger) (codeGroups l.plus (withFills (c.wireGap n.val) (packetSyms (calve k trigger)))).1] ∧
        (d.lane n.val).calves = rest ∧ (d.lane n.val).current = some (.calve k trigger) ∧ (d.lane n.val).kept = l.kept ∧
        { c with lanes := d.lanes, out := d.out }.onlyRegs d [Reg.CRN_CALVES_COUNT.off]) ∧
    (∀ k trigger rest tq, l.calves = (k, trigger) :: rest → l.current = some (.timeReq tq) → l.replaying = none →
      c.clk < l.currentEnd →
      let sent := c.sentSyms n.val
      let cut := codeGroups (codeGroups l.plusFrom sent).2 (withFills (gapAfter l.gapFrom sent) [symAbort])
      ∃ d g, exec (.lanePacketSend n) s = .next (s.withChip d) ∧
        d.out = c.out ++ [.laneAbort n.val sent.length cut.1, .lane n.val 2 (calve k trigger) g]) ∧
    (l.calves = [] → l.replay = [] → l.retimes = [] → l.times = [] → l.mgmtQ = [] → l.current = none →
      c.adjDue n.val = none → c.nextShot n.val = none →
      ∃ d, exec (.lanePacketSend n) s = .next (s.withChip d) ∧ (d.lane n.val).current = none ∧
        (d.lane n.val).currentEnd = max c.clk l.currentEnd + wireNs (c.laneRate n.val) 2 ∧
        d = { c with lanes := d.lanes, out := c.out ++ [.laneLine n.val .fill (codeGroups l.plus symsFill).1] }))

/-- R229, R230: a TIME REQ is queued each PERIOD with the next TSEQ; a RSP to it gives the round trip, θ and the one-way delay, and on the
owner an ADJ is queued, behind one with the whole of a step of ET not yet told to the head; a RSP to another exchange gives none; a packet
that R223 discards is counted. R242 to R244: LOOP or PRBS of a lane in the armed layer is refused with cause 20 of the lane; otherwise the
pattern and the loopback are set and the lane is in LOOP; a far-end loopback on a lane that is up first has LINK.LOOP written; both
cleared, the lane leaves LOOP. (LOCK in an ADJ: log entry 34.) -/
def Obligations.LanesMeasureTimeAndLoopBack : Prop :=
  (∀ (n : Fin 48) (s : State), s.toChip.laneUp n.val = true →
    let c := s.toChip
    (c.pstate < 2 →
      let e := c.advanceTo (c.lane n.val).timeDue
      let l := e.lane n.val
      exec (.timeReq n) s = .next (s.withChip (e.setLane n.val { l with
        times := l.times ++ [LaneItem.timeReq l.tseq]
        reqOut := some l.tseq
        tseq := (l.tseq + 1) % 65536
        timeDue := max l.timeDue e.clk + 1000 * e.get Reg.THL_TIME_CFG_PERIOD_US }))) ∧
    (∀ m : TimeRsp, m.good = true → (c.lane n.val).reqOut = some m.tseq.toNat →
      let asym := Int.tdiv (c.getI (Reg.THL_LANE_ASYM_PS n.val) * 65536) 1000
      let rtt := wrapDiff m.t4 m.t1 - wrapDiff m.t3 m.t2
      let theta := wrapDiff m.t2 m.t1 - (Int.tdiv rtt 2 - Int.tdiv asym 2)
      |theta| ≤ 65536 * (c.get Reg.THL_TIME_CFG_ERR_NS : Int) →
      ∃ d, exec (.timeRsp n m) s = .next (s.withChip d) ∧ (d.lane n.val).theta = theta ∧
        (d.lane n.val).oneWay = Int.tdiv rtt 2 ∧ (d.lane n.val).reqOut = none ∧ (d.lane n.val).thetaAt = some m.t4 ∧
        (c.owns = true → ∃ step rate lock, (d.lane n.val).times = (c.lane n.val).times ++
          (if c.stepSum = (c.lane n.val).stepSeen then [] else
            [.adj m.tseq.toNat (c.stepSum - (c.lane n.val).stepSeen) ((c.lane n.val).h + c.getI Reg.ETM_RATE_RATE) lock]) ++
          [.adj m.tseq.toNat step rate lock] ∧
          ((c.headRun n.val).shots = [] → step = -theta)) ∧
        (c.owns = false → (d.lane n.val).times = (c.lane n.val).times)) ∧
    (∀ m : TimeRsp, m.good = true → (c.lane n.val).reqOut ≠ some m.tseq.toNat →
      exec (.timeRsp n m) s = .next (s.withChip (c.tryReady n.val))) ∧
    (∀ m : TimeRsp, m.good = false →
      exec (.timeRsp n m) s = .next (s.withChip (c.bump (Reg.THL_LANE_CRC_ERR_COUNT n.val) 1)))) ∧
  (∀ (p : Port) (n : Fin 48) (v : Word) (s : State), s.awake →
    let c := s.toChip
    let loop := bits v.toNat 4 2
    let prbs := if bits v.toNat 8 2 = 3 then 0 else bits v.toNat 8 2
    let far := loop = 3 ∧ c.laneUp n.val = true
    let inv := (c.put (Reg.PHY_LANE_CTRL_TX_INV n.val) (bits v.toNat 0 1)).put (Reg.PHY_LANE_CTRL_RX_INV n.val) (bits v.toNat 1 1)
    exec (.loop p n v) s = exec (.prbs p n v) s ∧
    (loop ≠ 0 ∨ prbs ≠ 0 → c.inArmed n.val = true → exec (.loop p n v) s = .next (s.withChip (c.laneCause n.val 20))) ∧
    (loop ≠ 0 ∨ prbs ≠ 0 → c.inArmed n.val = false → ¬far →
      ∃ d, exec (.loop p n v) s = .next (s.withChip d) ∧ exec (.prbs p n v) s = .next (s.withChip d) ∧ d.laneState n.val = 4 ∧ d.get (Reg.PHY_LANE_CTRL_LOOP n.val) = loop ∧
        d.get (Reg.PHY_LANE_CTRL_PRBS n.val) = prbs) ∧
    (far → c.inArmed n.val = false → exec (.loop p n v) s = .next (s.withChip
      ((inv.setLane n.val { c.lane n.val with loopWants := some prbs }).mgmtWrite n.val 3 0x0C (leBytes 4 1) .loop false))) ∧
    (loop = 0 → prbs = 0 → c.laneState n.val ≠ 4 → exec (.loop p n v) s = .next (s.withChip
      ((((inv.setLane n.val { c.lane n.val with loopWants := none }).put (Reg.PHY_LANE_CTRL_PRBS n.val) 0).put
        (Reg.PHY_LANE_CTRL_LOOP n.val) 0).put (Reg.PHY_LANE_PRBS_STATUS_SYNC n.val) 0))))

/-- R231, R233: an answer OK ends its request; a BUSY one is tried again after THL.MGMT_TO, and the third failed attempt fails the
request; any other status fails it; an answer to no request does nothing, and a packet that R223 discards is counted; a request overdue
fails an attempt, but not while its repeat still waits to go; one of a bring-up that was begun again is only taken off. R250, R251: ACCEPT
of a head in CHANGED takes its record as accepted and loads it, and is discarded otherwise; REREAD of a head outside the armed layer whose
lane is up as configured repeats bring-up from step 1, and is discarded otherwise. (Other statuses: log entry 35.) -/
def Obligations.HeadRequestsEndOrAreTriedAgain : Prop :=
  (∀ (n : Fin 48) (s : State), s.toChip.laneUp n.val = true →
    let c := s.toChip
    let l := c.lane n.val
    let without := fun (tag : Nat) => c.setLane n.val { l with
      mgmtOut := l.mgmtOut.filter fun (q : MgmtOut) => decide (q.tag ≠ tag)
      mgmtQ := l.mgmtQ.filter fun q => decide (q.1 ≠ tag) }
    (∀ m : MgmtResponse, m.good = false →
      exec (.mgmtResponse n m) s = .next (s.withChip (c.bump (Reg.THL_LANE_CRC_ERR_COUNT n.val) 1))) ∧
    (∀ m : MgmtResponse, m.good = true → l.mgmtOut.find? (fun (o : MgmtOut) => decide (o.tag = m.mtag.toNat)) = none →
      exec (.mgmtResponse n m) s = .next s) ∧
    (∀ (m : MgmtResponse) (o : MgmtOut), m.good = true → l.mgmtOut.find? (fun (o : MgmtOut) => decide (o.tag = m.mtag.toNat)) = some o →
      let gone := without o.tag
      (m.status = .ok → exec (.mgmtResponse n m) s = .next (s.withChip (gone.answered n.val o.req m.data))) ∧
      (m.status ≠ .ok → m.status ≠ .busy → exec (.mgmtResponse n m) s = .next (s.withChip (gone.requestFailed n.val o.req))) ∧
      (m.status = .busy → o.req.why = .dropped → exec (.mgmtResponse n m) s = .next (s.withChip gone)) ∧
      (m.status = .busy → o.req.why ≠ .exec → o.req.why ≠ .dropped → o.fails < 2 → exec (.mgmtResponse n m) s = .next (s.withChip (c.setLane n.val { l with
        mgmtOut := l.mgmtOut.map fun (q : MgmtOut) =>
          if q.tag = o.tag then { q with fails := o.fails + 1, busy := true, due := c.clk + 1000 * c.get Reg.THL_MGMT_TO_US } else q })))) ∧
    (∀ o : MgmtOut, l.mgmtOut = [o] →
      let e := c.advanceTo o.due
      let repeats := l.mgmtQ.any fun q => decide (q.1 = o.tag)
      (repeats = true → exec (.mgmtTimeout n) s = .next s) ∧
      (repeats = false → o.req.why = .dropped →
        exec (.mgmtTimeout n) s = .next (s.withChip (e.setLane n.val { l with
          mgmtOut := []
          mgmtQ := l.mgmtQ.filter fun q => decide (q.1 ≠ o.tag) }))) ∧
      (repeats = false → o.req.why ≠ .dropped → o.busy = true →
        exec (.mgmtTimeout n) s = .next (s.withChip (e.setLane n.val { l with mgmtQ := (o.tag, o.req) :: l.mgmtQ }))) ∧
      (repeats = false → o.req.why ≠ .dropped → o.busy = false → o.fails < 2 → exec (.mgmtTimeout n) s = .next (s.withChip (e.setLane n.val { l with
        mgmtOut := [{ o with fails := o.fails + 1 }]
        mgmtQ := (o.tag, o.req) :: l.mgmtQ }))) ∧
      (repeats = false → o.req.why ≠ .dropped → o.busy = false → 2 ≤ o.fails → exec (.mgmtTimeout n) s = .next (s.withChip
        (((e.setLane n.val { l with mgmtOut := [] }).laneCause n.val 13).requestFailed n.val o.req))))) ∧
  (∀ (p : Port) (h : Fin 48) (v : Word) (s : State), s.awake →
    let c := s.toChip
    let x := c.head h.val
    (v.getLsbD 0 = true → v.getLsbD 1 = false → c.get (Reg.HED_HEAD_STATUS_STATE h.val) = 3 → exec (.accept p h v) s =
      .next (s.withChip ((c.setHeadX h.val { x with accepted := some (recIdentity x.record) }).startLoading h.val))) ∧
    (v.getLsbD 0 = true → v.getLsbD 1 = false → c.get (Reg.HED_HEAD_STATUS_STATE h.val) ≠ 3 → exec (.accept p h v) s = .next s) ∧
    (v.getLsbD 0 = false → v.getLsbD 1 = true → (c.inArmed h.val = true ∨ c.laneUp h.val = false ∨
      (c.configured h.val = true ∧ c.asConfigured h.val = false)) → exec (.reread p h v) s = .next s) ∧
    (v.getLsbD 0 = false → v.getLsbD 1 = true → c.inArmed h.val = false → c.laneUp h.val = true →
      (c.configured h.val = true → c.asConfigured h.val = true) →
      ∃ d, exec (.reread p h v) s = .next (s.withChip d) ∧ d.get (Reg.HED_HEAD_STATUS_STATE h.val) = 1 ∧
        d.get (Reg.HED_HEAD_STATUS_CAUSE h.val) = 0 ∧ d.laneState h.val = c.laneState h.val ∧ (d.head h.val).record = [] ∧
        (d.head h.val).accepted = x.accepted ∧
        (d.lane h.val).mgmtQ = ((c.lane h.val).mgmtQ.filter fun q => !q.2.ofBringUp) ++ [((c.lane h.val).mtag, MgmtReq.mk 1 0 0 0x40 [] .recFirst false)]))

/-- R254, R256, R257: while the cornice is IDLE a drive set word, a group entry and a head's DSET take the value written at once; in any
other state the write is discarded with EV127. A group whose TRIM a loop slot writes tells EV183 beside it (R372). R259, R262, R263, R265:
changed trims go to the head in one WRITE; an idle slot of a head that may measure begins a group with its EXEC; its values are read once
they are due; a read that finds the measurement running is tried again, and one beyond 16 gives the group up. (DSET outside IDLE: log
entry 52.) -/
def Obligations.HeadTablesAndMeasurement : Prop :=
  (∀ (p : Port) (s : State), s.awake →
    let c := s.toChip
    (c.get Reg.CRN_STATUS_STATE ≠ 0 →
      (∀ w v, exec (.driveSetWrite p w v) s = .next (s.withChip (c.raise 127 0 []))) ∧
      (∀ h g v, 32 * g.val < c.gOf h.val → exec (.groupWindowWrite p h g v) s = .next (s.withChip
        (let d := c.raise 127 0 []
         if c.trimOwned h.val g.val then d.raise 183 0 [(4, 0x94000 + 4 * (256 * h.val + g.val))] else d)))) ∧
    (c.get Reg.CRN_STATUS_STATE = 0 →
      (∀ w v, ∃ d, exec (.driveSetWrite p w v) s = .next (s.withChip d) ∧
        d.get (Reg.HED_DRIVESET_DATA (w.val / 256) (w.val % 256)) = v.toNat ∧
        (∀ f : Field, f.lo < 32 → 0x92000 ≤ f.off → f.off < 0x93000 → f.off ≠ 0x92000 + 4 * w.val → d.get f = c.get f) ∧
        d.out = c.out ∧ d.lanes = c.lanes) ∧
      (∀ h g v, 32 * g.val < c.gOf h.val → ∃ d, exec (.groupWindowWrite p h g v) s = .next (s.withChip d) ∧
        d.get (Reg.HED_GROUP_SBASE h.val g.val) = bits v.toNat 0 5 ∧ d.get (Reg.HED_GROUP_GDELAY h.val g.val) = bits v.toNat 8 14 ∧
        d.get (Reg.HED_GROUP_TRIM h.val g.val) = c.get (Reg.HED_GROUP_TRIM h.val g.val) ∧ d.lanes = c.lanes ∧
        (c.trimOwned h.val g.val = false → d.out = c.out) ∧ (c.trimOwned h.val g.val = true → c.tells d 183 0)) ∧
      (∀ h v, ∃ d, exec (.dsetWrite p h v) s = .next (s.withChip d) ∧
        d.get (Reg.HED_HEAD_CFG_DSET h.val) = bits v.toNat 24 2 ∧
        (c.locked = true → d.get (Reg.HED_HEAD_CFG_NOZZLES h.val) = c.get (Reg.HED_HEAD_CFG_NOZZLES h.val)) ∧ d.lanes = c.lanes)) ∧
    (∀ h g v, c.gOf h.val ≤ 32 * g.val → c.trimOwned h.val g.val = false → exec (.groupWindowWrite p h g v) s = .next s)) ∧
  (∀ (h : Fin 48) (s : State),
    let c := s.toChip
    let x := c.head h.val
    (∀ lo hi due, x.trim = some (lo, hi, due) → exec (.trimWrite h) s = .next (s.withChip
      ((c.mgmtWrite h.val 1 (0x800 + 2 * lo) (c.trimBytes h.val lo hi) .trims false).setHeadX h.val { x with trim := none }))) ∧
    (∀ t, x.idleDue = some t →
      let e := c.advanceTo t
      let g := e.get (Reg.HED_HEAD_MEAS_NEXT h.val)
      let able := c.flag Reg.HED_MEAS_CFG_ENABLE = true ∧ c.flag (Reg.HED_HEAD_CFG_MEAS_EN h.val) = true ∧
        c.get (Reg.HED_HEAD_STATUS_STATE h.val) = 5 ∧ (c.headRun h.val).shots = []
      (able → exec (.measSlot h) s = .next (s.withChip ((e.setHeadX h.val { x with
        idleDue := some (t + 2000000)
        measuring := some (g, 0)
        measDue := e.clk + 1000 * recMeasUs x.record }).mgmt h.val ⟨3, 4, 0, 4, leBytes 2 g ++ leBytes 2 0, .exec, false⟩))) ∧
      (¬able → exec (.measSlot h) s = .next (s.withChip (e.setHeadX h.val { x with idleDue := some (t + 2000000) })))) ∧
    (x.measuring = none → ∀ r, exec (.measRead h r) s = .next s) ∧
    (∀ g k, x.measuring = some (g, k) →
      let e := c.advanceTo x.measDue
      exec (.measRead h none) s = .next (s.withChip (e.mgmtRead h.val 4 0x10 132 .measRead)) ∧
      (∀ m : MeasResult, m.mstate = 1 → k < 16 → exec (.measRead h (some m)) s = .next (s.withChip
        (e.setHeadX h.val { x with measuring := some (g, k + 1), measDue := e.clk + 100000 }))) ∧
      (∀ m : MeasResult, m.mstate ≠ 0 → (m.mstate ≠ 1 ∨ 16 ≤ k) → exec (.measRead h (some m)) s = .next (s.withChip
        (e.setHeadX h.val { x with measuring := none }))) ∧
      (∀ m : MeasResult, m.mstate = 0 → ∃ d, exec (.measRead h (some m)) s = .next (s.withChip d) ∧
        d.get (Reg.HED_HEAD_MEAS_LAST h.val) = g % 2 ^ (Reg.HED_HEAD_MEAS_LAST h.val).width ∧ (d.head h.val).measuring = none)))

/-- R267, R268, R270: a change of an input is shown and voted on, two of three in each condition; a vote to stop drops PERMIT at once and
a rise begins the settle; a stop of the STRIKE condition latches STRIKE unless STRIKE_AUTO; FORCE_STOP is a vote to stop. Before the
loader has set HED.GATE_CFG nothing stops or settles (R489). R268, R269, R273: PERMIT rises at the end of the settle while the vote holds
and STRIKE is not latched, with EV113; CLEAR_STRIKE clears the latch while the STRIKE condition permits, and lets PERMIT rise where the
settle is over; a second pulse of it within the crossing's 123 ns acts alike or is merged, which XING_MERGED shows (R453; log entry 97); a
channel that has disagreed for 50 ms and a voter that fails are shown and told. -/
def Obligations.GatesVoteThenSettle : Prop :=
  ((∀ (c : Chip) (k : Nat), c.gatePermit k = true ↔
    2 ≤ b2n (c.gateInput (3 * k)) + b2n (c.gateInput (3 * k + 1)) + b2n (c.gateInput (3 * k + 2))) ∧
  (∀ c : Chip, c.gateVote = true ↔ c.gatePermit 0 = true ∧ c.gatePermit 1 = true ∧ c.gatePermit 2 = true ∧
    c.get Reg.HED_GATE_CTRL_FORCE_STOP = 0) ∧
  (∀ (c : Chip), c.get Reg.CRN_STATUS_STATE = 0 →
    let d := c.voteStop
    d.get Reg.HED_GATE_STATUS_PERMIT = 0 ∧ d.get Reg.HED_GATE_STATUS_SETTLING = 0 ∧ d.get Reg.CRN_STATUS_GATED = 1 ∧
    d.get Reg.HED_GATE_STATUS_FE = 0 ∧ d.settleDue = none ∧
    d.get64 Reg.HED_GATE_STOP_ET_LO_ET Reg.HED_GATE_STOP_ET_HI_ET = c.now.toNat ∧
    d.get Reg.HED_GATE_STOPS_COUNT = min (c.get Reg.HED_GATE_STOPS_COUNT + 1) (2 ^ Reg.HED_GATE_STOPS_COUNT.width - 1) ∧
    c.tells d 112 0 ∧ d.layers = c.layers ∧ d.run = c.run ∧ d.lanes = c.lanes) ∧
  (∀ (i : Fin 9) (level : Bool) (s : State), s.toChip.pstate ≠ 3 →
    let c := s.toChip
    let e := (c.putBit Reg.HED_GATE_STATUS_INPUTS i.val level).timeChannels c
    let was := c.flag Reg.HED_GATE_STATUS_VOTE
    let f := (e.put Reg.HED_GATE_STATUS_COND_STOP e.condStop).putB Reg.HED_GATE_STATUS_VOTE e.gateVote
    let f := if c.gatePermit 2 = true ∧ e.gatePermit 2 = false ∧ c.flag Reg.HED_GATE_CFG_STRIKE_AUTO = false then
      f.put Reg.HED_GATE_STATUS_STRIKE_LATCH 1 else f
    exec (.gateInputChange i level) s = .next (s.withChip (
      if c.conf.scanned = false then f
      else if was = true ∧ e.gateVote = false then f.voteStop
      else if was = false ∧ e.gateVote = true then
        { f with settleDue := some (c.clk + 1000 * c.get Reg.HED_GATE_CFG_SETTLE_US) }.put Reg.HED_GATE_STATUS_SETTLING 1
      else f))) ∧
  (∀ (p : Port) (v : Word) (s : State), s.awake → v.getLsbD 1 = false → v.getLsbD 0 = true →
    s.toChip.flag Reg.HED_GATE_STATUS_VOTE = true →
    let c := s.toChip.put Reg.HED_GATE_CTRL_FORCE_STOP 1
    let d := (c.put Reg.HED_GATE_STATUS_COND_STOP c.condStop).putB Reg.HED_GATE_STATUS_VOTE false
    exec (.forceStop p v) s = .next (s.withChip (if c.conf.scanned = true then d.voteStop else d)))) ∧
  ((∀ (s : State) (t : Nat), s.toChip.settleDue = some t →
    let c := s.toChip.advanceTo t
    (c.flag Reg.HED_GATE_STATUS_VOTE = true → c.flag Reg.HED_GATE_STATUS_STRIKE_LATCH = false →
      ∃ d, exec .permitRise s = .next (s.withChip d) ∧ d.get Reg.HED_GATE_STATUS_PERMIT = 1 ∧ d.get Reg.CRN_STATUS_GATED = 0 ∧
        d.get Reg.HED_GATE_STATUS_SETTLING = 0 ∧ d.settleDue = none ∧ c.tells d 113 0 ∧
        (c.get Reg.CKP_STATUS_PSTATE ≤ 1 → c.flag Reg.CFG_STATUS_COMMITTED = true → d.get Reg.HED_GATE_STATUS_FE = 15) ∧
        (c.flag Reg.CFG_STATUS_COMMITTED = false → d.get Reg.HED_GATE_STATUS_FE = 0)) ∧
    ((c.flag Reg.HED_GATE_STATUS_VOTE = false ∨ c.flag Reg.HED_GATE_STATUS_STRIKE_LATCH = true) →
      exec .permitRise s = .next (s.withChip (c.put Reg.HED_GATE_STATUS_SETTLING 0)))) ∧
  (∀ (p : Port) (v : Word) (s : State), s.awake → v.getLsbD 0 = false → v.getLsbD 1 = true →
    s.toChip.get Reg.HED_GATE_CTRL_FORCE_STOP = 0 → s.toChip.flag Reg.HED_GATE_STATUS_VOTE = s.toChip.gateVote →
    ∃ d, exec (.clearStrike p v) s = .next (s.withChip d) ∧
      (s.toChip.clk < s.toChip.strikeUntil → d.strikeUntil = s.toChip.clk + 123 ∨
        (d.bitOf Reg.CKP_XING_MERGED_MERGED 3 = true ∧
          d.get Reg.HED_GATE_STATUS_STRIKE_LATCH = s.toChip.get Reg.HED_GATE_STATUS_STRIKE_LATCH)) ∧
      (s.toChip.strikeUntil ≤ s.toChip.clk →
      (s.toChip.gatePermit 2 = true → d.get Reg.HED_GATE_STATUS_STRIKE_LATCH = 0) ∧
      (s.toChip.gatePermit 2 = false → d.get Reg.HED_GATE_STATUS_STRIKE_LATCH = s.toChip.get Reg.HED_GATE_STATUS_STRIKE_LATCH) ∧
      (∀ t, s.toChip.gatePermit 2 = true → s.toChip.settleDue = some t → t ≤ s.toChip.clk → s.toChip.gateVote = true →
        d.get Reg.HED_GATE_STATUS_PERMIT = 1 ∧ s.toChip.tells d 113 0) ∧
      (s.toChip.settleDue = none → d.get Reg.HED_GATE_STATUS_PERMIT = s.toChip.get Reg.HED_GATE_STATUS_PERMIT))) ∧
  (∀ (i : Fin 9) (s : State) (t : Nat), SMap.get 0 i.val s.toChip.chanSince = t + 1 →
    let c := s.toChip.advanceTo (t + 50000000)
    exec (.gateChannelFault i) s = .next (s.withChip (({ c with chanSince := SMap.set 0 i.val 0 c.chanSince }.putBit
      Reg.HED_GATE_FAULT_CHANNEL i.val true).raise 114 0 [(1, i.val / 3), (1, i.val % 3)]))) ∧
  (∀ (k : Fin 3) (s : State), exec (.voterFault k) s = .next (s.withChip
    ((s.toChip.putBit Reg.HED_GATE_FAULT_VOTER k.val true).raise 115 0 [(1, k.val)]))))

/-! ### The cornice and its tables -/

/-- R176, R177, R185, R186, R202: in IDLE with no layer armed a write to the NZT, SUB, grey and weak map windows is in force at once, and
nothing else of the tables changes (nibble 0 of a grey table is stored 0); in any other state it is discarded with EV052 and its offset;
rows the configuration leaves out and the spare rows take no write. R97, R105, R188, R189, R199, R200: a table load whose length, count or
range is wrong, whose buffer cannot be read, or whose entries may not be loaded stops its ring with the code of its first failing check;
else its change records go to a partner that takes them, and while the partner tracks it keeps its buffer and waits for the
acknowledgement, with nothing staged (R196, R427, R433). Then, or at once without a partner, one for which staging places are short keeps
its buffer and is tried again when places are freed; else its entries are staged one by one, EV044 is raised, and it completes. -/
def Obligations.TablesAreWrittenAndStaged : Prop :=
  (∀ (p : Port) (s : State), s.awake →
    let c := s.toChip
    (c.get Reg.CRN_STATUS_STATE ≠ 0 →
      (∀ i v, i.val < 196608 → exec (.nztWindowWrite p i v) s = .next (s.withChip (c.raise 52 1 [(4, 0x100000 + 4 * i.val)]))) ∧
      (∀ i v, exec (.subWindowWrite p i v) s = .next (s.withChip (c.raise 52 1 [(4, 0x240000 + 4 * i.val)]))) ∧
      (∀ t hi v, exec (.greyWrite p t hi v) s = .next (s.withChip (c.raise 52 1 [(4, 0x60500 + 8 * t.val + 4 * b2n hi)]))) ∧
      (∀ hi v, exec (.weakMapWrite p hi v) s = .next (s.withChip (c.raise 52 1 [(4, 0x60418 + 4 * b2n hi)])))) ∧
    (∀ i v, 196608 ≤ i.val → exec (.nztWindowWrite p i v) s = .next s) ∧
    (c.get Reg.CRN_STATUS_STATE = 0 → ∀ i v, c.rowsTotal ≤ i.val → exec (.nztWindowWrite p i v) s = .next s) ∧
    (c.get Reg.CRN_STATUS_STATE = 0 → c.armed = none →
      (∀ i v, i.val < 196608 → i.val < c.rowsTotal → c.substAfter i.val [v.toNat] ≤ 16384 →
        ∃ d, exec (.nztWindowWrite p i v) s = .next (s.withChip d) ∧ (d.nztVer i.val).force = v.toNat ∧
          (d.nztVer i.val).newest = v.toNat ∧ (∀ j, j ≠ i.val → d.nztVer j = c.nztVer j) ∧ d.sub = c.sub ∧ d.grey = c.grey) ∧
      (∀ i v, ∃ d, exec (.subWindowWrite p i v) s = .next (s.withChip d) ∧ (d.subVer i.val).force = v.toNat ∧
        (∀ j, j ≠ i.val → d.subVer j = c.subVer j) ∧ d.nzt = c.nzt ∧ d.grey = c.grey) ∧
      (∀ t v, c.get (Reg.CRN_GREY_LO_CODES t.val) < 2 ^ 32 → ∃ d, exec (.greyWrite p t false v) s = .next (s.withChip d) ∧
        d.get (Reg.CRN_GREY_LO_CODES t.val) = v.toNat / 16 * 16 ∧
        d.get (Reg.CRN_GREY_HI_CODES t.val) = c.get (Reg.CRN_GREY_HI_CODES t.val) % 2 ^ 32 ∧ d.nzt = c.nzt ∧ d.sub = c.sub) ∧
      (∀ hi v, exec (.weakMapWrite p hi v) s = .next (s.withChip
        (c.put (if hi then Reg.CRN_WEAK_MAP_HI_MAP else Reg.CRN_WEAK_MAP_LO_MAP) v.toNat))))) ∧
  (∀ (p : Port) (n : Fin 64) (s : State) (d : List Byte), (s.toChip.ring p.num n.val).acted = false →
    let c := s.toChip
    let r := c.ring p.num n.val
    let len := leField d 0x10 4
    let first := leField d 0x14 4
    let count := leField d 0x18 4
    let fault := fun (code : Nat) => (Host.Outcome.next (s.withChip (c.faultDesc p.num n.val code)) : Host.Outcome State Fault Refusal)
    let held := fun (op : Nat) (b : List Byte) => (Host.Outcome.next (s.withChip
      ((c.announce p.num n.val d b fun c => c.loadRecords op d b).loadReady p.num n.val)) : Host.Outcome State Fault Refusal)
    let alone := c.sendsLog = false ∧ c.tracked = false
    let kept := fun (b : List Byte) => c.setRing p.num n.val { r with load := some ⟨b, none, false⟩ }
    let words := fun (b : List Byte) => (List.range count).map fun i => leField b (4 * i) 4
    (c.headOp p.num n.val 0x10 = some d →
      ((len ≠ 4 * count ∨ count < 1 ∨ 16384 < count) → ∀ b, exec (.nztLoad p n b) s = fault 0x101) ∧
      (len = 4 * count → 1 ≤ count → count ≤ 16384 → c.rowsTotal < first + count → ∀ b, exec (.nztLoad p n b) s = fault 0x102) ∧
      (len = 4 * count → 1 ≤ count → count ≤ 16384 → first + count ≤ c.rowsTotal → r.load = none →
        exec (.nztLoad p n none) s = fault 0x103 ∧
        (∀ b, 16384 < c.substAfter first (words b) → exec (.nztLoad p n (some b)) s = fault 0x102) ∧
        (∀ b, c.substAfter first (words b) ≤ 16384 → exec (.nztLoad p n (some b)) s = held 0x10 b ∧
          (c.tracked = true → ∃ e base, held 0x10 b = .next (s.withChip e) ∧ (e.ring p.num n.val).load = some ⟨b, base, true⟩ ∧
            (e.ring p.num n.val).acted = true ∧ e.ci p.num n.val = c.ci p.num n.val ∧ e.nzt = c.nzt)) ∧
        (∀ b, alone → c.substAfter first (words b) ≤ 16384 →
          61440 < c.get Reg.CRN_NZT_STAGE_HOST + c.placesNeeded first (words b) →
          exec (.nztLoad p n (some b)) s = .next (s.withChip (kept b))) ∧
        (∀ b, alone → c.substAfter first (words b) ≤ 16384 →
          c.get Reg.CRN_NZT_STAGE_HOST + c.placesNeeded first (words b) ≤ 61440 → ∃ heads,
          exec (.nztLoad p n (some b)) s = .next (s.withChip
            ((((List.range count).foldl (fun (c : Chip) i => c.hostNzt (first + i) (leField b (4 * i) 4))
              ((kept b).tableApplied p.num n.val heads)).showStage).complete p.num n.val 0 d []))))) ∧
    (c.headOp p.num n.val 0x11 = some d →
      ((len ≠ 4 * count ∨ count < 1 ∨ 16384 < count ∨ 16384 < first + count) → ∀ b, exec (.subLoad p n b) s = fault 0x101) ∧
      (len = 4 * count → 1 ≤ count → first + count ≤ 16384 → r.load = none → ∀ b,
        ((words b).all c.subEntryOk = false → exec (.subLoad p n (some b)) s = fault 0x102) ∧
        ((words b).all c.subEntryOk = true → exec (.subLoad p n (some b)) s = held 0x11 b) ∧
        ((words b).all c.subEntryOk = true → alone → c.armed = none → c.get Reg.CRN_NZT_STAGE_HOST ≤ 61440 →
          exec (.subLoad p n (some b)) s = .next (s.withChip
            ((((List.range count).foldl (fun (c : Chip) i => c.hostSub (first + i) (leField b (4 * i) 4))
              ((kept b).tableApplied p.num n.val [])).showStage).complete p.num n.val 0 d []))))) ∧
    (c.headOp p.num n.val 0x12 = some d →
      ((len ≠ 8 * count ∨ count < 1 ∨ 16 < count ∨ 16 < first + count) → ∀ b, exec (.greyLoad p n b) s = fault 0x101) ∧
      (len = 8 * count → 1 ≤ count → first + count ≤ 16 → r.load = none → ∀ b,
        ((∃ i, i < count ∧ leField b (8 * i) 8 % 16 ≠ 0) → exec (.greyLoad p n (some b)) s = fault 0x102) ∧
        ((∀ i, i < count → leField b (8 * i) 8 % 16 = 0) → exec (.greyLoad p n (some b)) s = held 0x12 b) ∧
        ((∀ i, i < count → leField b (8 * i) 8 % 16 = 0) → alone → c.armed = none → (∀ e ∈ c.grey, e.2.band = none) →
          exec (.greyLoad p n (some b)) s = .next (s.withChip
            ((((List.range count).foldl (fun (c : Chip) i => c.hostGrey (first + i) (leField b (8 * i) 8))
              ((kept b).tableApplied p.num n.val (List.range 48))).showStage).complete p.num n.val 0 d []))))) ∧
    (r.load = none → exec (.stagingPlacesFreed p n) s = .next s) ∧
    (∀ t, r.load = some t → t.waits = true → exec (.stagingPlacesFreed p n) s = .next s) ∧
    (∀ t, r.load = some t → t.waits = false → t.base = none →
      (c.headOp p.num n.val 0x10 = some d → c.substAfter first (words t.buf) ≤ 16384 →
        (61440 < c.get Reg.CRN_NZT_STAGE_HOST + c.placesNeeded first (words t.buf) → exec (.stagingPlacesFreed p n) s = .next s) ∧
        (c.get Reg.CRN_NZT_STAGE_HOST + c.placesNeeded first (words t.buf) ≤ 61440 → ∃ heads,
          exec (.stagingPlacesFreed p n) s = .next (s.withChip
            ((((List.range count).foldl (fun (c : Chip) i => c.hostNzt (first + i) (leField t.buf (4 * i) 4))
              (c.tableApplied p.num n.val heads)).showStage).complete p.num n.val 0 d [])))) ∧
      (c.headOp p.num n.val 0x11 = some d → c.armed = none → c.get Reg.CRN_NZT_STAGE_HOST ≤ 61440 →
        exec (.stagingPlacesFreed p n) s = .next (s.withChip
          ((((List.range count).foldl (fun (c : Chip) i => c.hostSub (first + i) (leField t.buf (4 * i) 4))
            (c.tableApplied p.num n.val [])).showStage).complete p.num n.val 0 d []))) ∧
      (c.headOp p.num n.val 0x12 = some d → c.armed = none → (∀ e ∈ c.grey, e.2.band = none) →
        exec (.stagingPlacesFreed p n) s = .next (s.withChip
          ((((List.range count).foldl (fun (c : Chip) i => c.hostGrey (first + i) (leField t.buf (8 * i) 8))
            (c.tableApplied p.num n.val (List.range 48))).showStage).complete p.num n.val 0 d [])))))

/-- R200, R201: a TABLE_READ that passes its checks posts each entry's newest value in order, then completes; one of an unknown table or
with a wrong length or range stops its ring. R204, R205: a value fetched from the DRAM copy is in force and ends the wait of the head's
packing; a nozzle entry whose copy is unreadable too is retired by the controller with EV048, and a substitution or grey entry is reported
by EV048 (which value such an entry then has is free: log entry 80). A copy that is stored poisoned reads as lost, and an error of the
read itself comes first (R403, R404). R208, R210: EXPORT queues the whole ledger as one STATE item of KIND 0x13 for the report ring; a
record written takes the next SEQ and waits for flash, which takes the records in order. R210, R486: a record that waits is written to
flash as both copies with their check words, in the order of the records, while it fits and no erase runs; the 30,720th raises EV051.
(Order of a record and its events: log entry 72.) -/
def Obligations.TablesAreReadAndMoraineIsKept : Prop :=
  (∀ (p : Port) (n : Fin 64) (s : State) (d : List Byte), s.toChip.headOp p.num n.val 0x14 = some d →
    let c := s.toChip
    let table := leField d 0x1C 1
    let first := leField d 0x14 4
    let count := leField d 0x18 4
    (6 < table → exec (.tableRead p n) s = .next (s.withChip (c.faultDesc p.num n.val 0x102))) ∧
    (table ≤ 6 → count < 1 → exec (.tableRead p n) s = .next (s.withChip (c.faultDesc p.num n.val 0x101))) ∧
    (table = 0 → 1 ≤ count → count ≤ 16384 → first + count ≤ c.rowsTotal → leField d 0x10 4 = 4 * count →
      exec (.tableRead p n) s = .next (s.withChip ((c.emit (.post p.num (leField d 8 8) ((List.range count).flatMap fun i =>
        leBytes 4 (ntWithScore (c.nztVer (first + i)).newest (ntScore (c.nztVer (first + i)).force))))).complete p.num n.val 0 d []))) ∧
    (table = 1 → 1 ≤ count → first + count ≤ 16384 → leField d 0x10 4 = 4 * count →
      exec (.tableRead p n) s = .next (s.withChip ((c.emit (.post p.num (leField d 8 8) ((List.range count).flatMap fun i =>
        leBytes 4 (c.subVer (first + i)).newest))).complete p.num n.val 0 d [])))) ∧
  (∀ (h : Fin 48) (s : State),
    let c := s.toChip
    let x := c.headRun h.val
    let e := c.setHead h.val { x with eccHold := none }
    (x.eccHold = none → ∀ v dram, exec (.nztCopyFetched h ⟨v, dram⟩) s = .next s) ∧
    (∀ cell w, x.eccHold = some cell → copyKey cell ∈ c.copyPoison →
      exec (.nztCopyFetched h ⟨some w, none⟩) s = exec (.nztCopyFetched h ⟨none, none⟩) s) ∧
    (∀ r, x.eccHold = some (.nzt r) →
      (∀ w, copyKey (.nzt r) ∉ c.copyPoison → exec (.nztCopyFetched h ⟨some w, none⟩) s =
        .next (s.withChip (e.setNzt r.val { c.nztVer r.val with force := w.toNat % 2 ^ 32 }))) ∧
      ∃ d, exec (.nztCopyFetched h ⟨none, none⟩) s = .next (s.withChip d) ∧ (d.nztVer r.val).force = 0x80000000 ∧
        (d.nztVer r.val).newest = 0x80000000 ∧ (d.headRun h.val).eccHold = none ∧ d.get Reg.EVT_LAST_SOURCE = 48 ∧
        d.get Reg.EVT_LAST_CAUSE = 1 ∧ (∀ j, j ≠ r.val → d.nztVer j = c.nztVer j)) ∧
    (∀ k, x.eccHold = some (.sub k) →
      (∀ w, copyKey (.sub k) ∉ c.copyPoison → exec (.nztCopyFetched h ⟨some w, none⟩) s =
        .next (s.withChip (e.setSub k.val { c.subVer k.val with force := w.toNat % 2 ^ 32 }))) ∧
      ∃ d, exec (.nztCopyFetched h ⟨none, none⟩) s = .next (s.withChip d) ∧ (d.headRun h.val).eccHold = none ∧
        d.get Reg.EVT_LAST_SOURCE = 48 ∧ d.get Reg.EVT_LAST_CAUSE = 1 ∧ d.nzt = c.nzt ∧ (∀ j, j ≠ k.val → d.subVer j = c.subVer j)) ∧
    (∀ t g, x.eccHold = some (.grey t g) → ∀ w, copyKey (.grey t g) ∉ c.copyPoison → exec (.nztCopyFetched h ⟨some w, none⟩) s =
      .next (s.withChip (e.setGrey t.val g.val { c.greyVer t.val g.val with force := w.toNat }))) ∧
    (∀ copy err, x.eccHold ≠ none → exec (.nztCopyFetched h ⟨copy, some err⟩) s =
      exec (.nztCopyFetched h ⟨if DramKind.correctable err.kind then copy else none, none⟩)
        (s.withChip (c.dramError ⟨err.kind, err.off, 2, .region 0⟩)))) ∧
  ((∀ (p : Port) (v : Word) (s : State), s.awake → v.getLsbD 0 = true →
    ∃ d, exec (.moraineExport p v) s = .next (s.withChip d) ∧ ∃ it, d.stateItems = s.toChip.stateItems ++ [it] ∧ it.kind = 0x13 ∧
      it.port = s.toChip.get Reg.CRN_REPORT_PORT ∧ it.ring = s.toChip.get Reg.CRN_REPORT_RING ∧
      it.body = (s.toChip.ledger ++ s.toChip.ledgerPend).flatten) ∧
  (∀ (p : Port) (v : Word) (s : State), s.awake → v.getLsbD 0 = false → exec (.moraineExport p v) s = .next s) ∧
  (∀ (c : Chip) (type source layer band object detail : Nat),
    let d := c.record type source layer band object detail
    d.get Reg.CRN_MORAINE_SEQ_NEXT = (c.get Reg.CRN_MORAINE_SEQ_NEXT + 1) % 2 ^ 32 ∧ d.ledger = c.ledger ∧
      ∃ b, d.ledgerPend = c.ledgerPend ++ [b])) ∧
  (∀ (s : State) (r : List Byte) (rest : List (List Byte)), s.toChip.ledgerPend = r :: rest →
    let c := s.toChip
    let pos := c.ledger.length + c.ledgerTorn
    ((c.conf.erasing = true ∨ 32768 ≤ pos) → exec .moraineFlashWrite s = .next s) ∧
    (c.conf.erasing = false → pos < 32768 → ∃ d, exec .moraineFlashWrite s = .next (s.withChip d) ∧ d.ledger = c.ledger ++ [r] ∧
      d.ledgerPend = rest ∧ c.out ++ [.flash 1 (0x100000 + 32 * pos) r, .flash 2 (0x100000 + 32 * pos) r,
        .flash 1 (0x200000 + 4 * pos) (leBytes 4 (crc32 r)), .flash 2 (0x200000 + 4 * pos) (leBytes 4 (crc32 r)),
        .flash 1 (0x300000 + 32 * pos) r, .flash 2 (0x300000 + 32 * pos) r,
        .flash 1 (0x400000 + 4 * pos) (leBytes 4 (crc32 r)), .flash 2 (0x400000 + 4 * pos) (leBytes 4 (crc32 r))] <+: d.out ∧
      (c.ledger.length + 1 = 30720 → d.get Reg.EVT_LAST_SOURCE = 51) ∧
      d.get Reg.CRN_MORAINE_STATUS_UNWRITTEN = min rest.length 255 ∧
      { c with ledger := d.ledger, ledgerPend := d.ledgerPend }.keepsRegs d [Reg.CRN_MORAINE_STATUS_RECORDS.off]))

/-- R147, R442, R530, R531: a LAYER_OPEN whose layer is registered, whose heads or bands are none of the set-up's, faults; a controller
that does not own firing returns it NOT_OWNER; with two layers registered or the STATE hold set it waits, and LAYER_OPEN_RESUME tries it
again by the same checks; else its layer is registered with its bands counted on each head, and it completes. A LAYER_CLOSE waits for its
layer, once the LAYER_OPEN has completed, and completes with MISSING once the layer has completed; a controller that does not own firing
returns it NOT_OWNER. (That a LAYER_CLOSE that waits counts as acted on is the model's choice: log entry 78.) R98, R109, R123, R124, R442:
a BLOCK of a layer not registered, or whose LAYER_OPEN has not completed, of a head outside it, or delivered before faults unless REPLACE
allows it; one whose header fails a check faults with that check's code; else it is copied, queued for decompression with the block area's
bytes taken, marked delivered, and completes. -/
def Obligations.LayersAreOpenedFilledAndClosed : Prop :=
  (∀ (p : Port) (n : Fin 64) (s : State) (d : List Byte),
    let c := s.toChip
    let r := c.ring p.num n.val
    let num := leField d 0x14 4
    let bands := leField d 0x18 4
    let heads := leField d 0x1C 8
    let known := ∃ l ∈ c.layers, l.num = num
    let opening := ∃ w ∈ c.mirrorWait, leField w.desc 0 1 = 1 ∧ leField w.desc 0x14 4 = num
    let bad := known ∨ 2 ^ 48 ≤ heads ∨ bands = 0 ∨ 65536 < bands ∨ ∃ h, h < 48 ∧ bit heads h = true ∧ c.gOf h = 0
    (c.headOp p.num n.val 1 = some d → r.acted = false → ∀ i ∈ [Instr.layerOpen p n, Instr.layerOpenResume p n],
      (bad → exec i s = .next (s.withChip (c.faultDesc p.num n.val 0x102))) ∧
      (¬bad → c.owns = false → exec i s = .next (s.withChip (c.complete p.num n.val 2 d (leBytes 4 1)))) ∧
      (¬bad → c.owns = true → (2 ≤ c.layers.length ∨ c.flag (Reg.HIF_STATUS_STATE_HELD 0) = true) → exec i s = .next s) ∧
      (¬bad → c.owns = true → c.layers.length < 2 → c.flag (Reg.HIF_STATUS_STATE_HELD 0) = false →
        ∃ e : Chip, exec i s =
            .next (s.withChip (e.completeMirrored p.num n.val 0 d [] 5 ((d.drop 0x14).take 16))) ∧
          (∃ l, e.layers = c.layers ++ [l] ∧ l.num = num ∧ l.bands = bands ∧ l.heads = heads ∧ l.delivered = [] ∧ l.slabs = [] ∧
            ∀ h, h < 48 → bit heads h = true → SMap.get 0 h l.firstBand = SMap.get 0 h c.bandCount) ∧
          (∀ h, SMap.get 0 h e.bandCount = SMap.get 0 h c.bandCount + (if h < 48 ∧ bit heads h = true then bands else 0)) ∧
          e.get Reg.CRN_STATUS_NEXT = b2n (decide (1 ≤ c.layers.length)) ∧
          { c with layers := e.layers, bandCount := e.bandCount }.onlyRegs e [Reg.CRN_STATUS_NEXT.off])) ∧
    (c.headOp p.num n.val 3 = some d →
      (known → ¬opening → exec (.layerClose p n) s = .next (s.withChip (if c.owns then
        c.setRing p.num n.val { r with acted := true } else c.complete p.num n.val 2 d (leBytes 4 1)))) ∧
      (¬known ∨ opening → (∀ e ∈ c.recent, e.1 ≠ num) →
        exec (.layerClose p n) s = .next (s.withChip (c.faultDesc p.num n.val 0x102))) ∧
      (¬known ∨ opening → ∀ e, c.recent.find? (fun (x : Nat × Nat) => decide (x.1 = num)) = some e →
        exec (.layerClose p n) s = .next (s.withChip (if c.owns then c.complete p.num n.val 0 d (leBytes 4 e.2)
          else c.complete p.num n.val 2 d (leBytes 4 1)))) ∧
      (¬known → ∀ e, c.recent.find? (fun (x : Nat × Nat) => decide (x.1 = num)) = some e → r.acted = true →
        exec (.layerCloseComplete p n) s = .next (s.withChip (c.complete p.num n.val 0 d (leBytes 4 e.2)))) ∧
      (known ∨ r.acted = false → exec (.layerCloseComplete p n) s = .next s))) ∧
  (∀ (p : Port) (n : Fin 64) (s : State) (d : List Byte), s.toChip.headOp p.num n.val 2 = some d →
    (s.toChip.ring p.num n.val).acted = false →
    let c := s.toChip
    let head := leField d 0x18 1
    let slab := leField d 0x1C 4
    let replace := bit (leField d 1 1) 1
    let fault := fun (code : Nat) => (Host.Outcome.next (s.withChip (c.faultDesc p.num n.val code)) : Host.Outcome State Fault Refusal)
    (c.openLayer? (leField d 0x14 4) = none → ∀ h b, exec (.block p n h b) s =
      if replace then .next (s.withChip (c.complete p.num n.val 0 d [])) else fault 0x102) ∧
    (∀ l, c.openLayer? (leField d 0x14 4) = some l →
      ((48 ≤ head ∨ bit l.heads head = false) → ∀ h b, exec (.block p n h b) s = fault 0x102) ∧
      (head < 48 → bit l.heads head = true →
        let seen := SMap.get false (slabKey head slab) l.delivered
        (seen = true → replace = false → l.mirrored = false → ∀ h b, exec (.block p n h b) s = fault 0x102) ∧
        (¬(seen = true ∧ replace = false ∧ l.mirrored = false) →
          (∀ b, exec (.block p n none b) s = fault 0x103) ∧
          (∀ h code b, c.blockFault l d h = some code → exec (.block p n (some h) b) s = fault code) ∧
          (∀ h, c.blockFault l d h = none → exec (.block p n (some h) none) s = fault 0x103) ∧
          (∀ h b, c.blockFault l d h = none → c.owns = false → replace = false →
            exec (.block p n (some h) (some b)) s = .next (s.withChip (c.complete p.num n.val 2 d (leBytes 4 1)))) ∧
          (∀ h b, c.blockFault l d h = none → c.owns = true → replace = false → seen = true →
            exec (.block p n (some h) (some b)) s = .next (s.withChip (c.complete p.num n.val 0 d []))) ∧
          (∀ h b, c.blockFault l d h = none → (c.owns = true ∨ replace = true) → (seen = false ∨ replace = true) →
            ∃ (e : Chip) (j : Job), exec (.block p n (some h) (some b)) s =
                .next (s.withChip (e.completeMirrored p.num n.val 0 d [] 5 (h ++ b))) ∧
              e.jobs = c.jobs ++ [j] ∧ j.kind = 1 ∧ j.layer = l.num ∧ j.head = head ∧ j.slab = slab ∧ j.hdr = h ∧ j.payload = b ∧
              j.area = blockBytes b.length ∧ e.blockUsed = c.blockUsed + blockBytes b.length ∧
              (∃ l', e.layer? l.num = some l' ∧ SMap.get false (slabKey head slab) l'.delivered = true) ∧
              { c with jobs := e.jobs, blockUsed := e.blockUsed, layers := e.layers }.onlyRegs e [Reg.CHN_QUEUE_DEC.off])))))

/-- R148, R311, R430, R445: with no layer armed, in P0 and outside take-back's settling, LAYER_ARM arms the oldest registered layer; with
an evaluation that still reads the accumulators the layer would use it waits with ARM_WAIT; with a layer armed or none registered whose
LAYER_OPEN has completed it does nothing. A layer of at least one head whose lanes are READY and whose drive sets are loaded stays armed.
R144, R145, R156, R157, R159, R436: where the conditions of R157 hold, SHOT_ISSUE packs the head's next firing line: on the owner a shot
with the next index and the predicted crossing as its tag is issued and the cornice is FIRING; one closer to the one before than PMIN is
skipped as OVERSPEED and counted; a standby forms the line alone. Where they do not hold, or the line lies further than HORIZON lines
beyond the position, nothing is issued. (That a line beyond the horizon waits is log entry 81.) (The predicted crossing: log entries 27
and 28; which head goes first: log entry 71.) -/
def Obligations.LayersAreArmedAndFired : Prop :=
  (∀ s : State, s.toChip.pstate = 0 → s.toChip.tdm.hold = false →
    let c := s.toChip
    ((c.run.isSome = true ∨ c.layers = []) → exec .layerArm s = .next s) ∧
    (∀ l rest, c.layers = l :: rest → c.openPending l.num = true → exec .layerArm s = .next s) ∧
    (∀ v l rest, c.run = none → c.layers = l :: rest → c.openPending l.num = false → c.healEval = some v → v.accSet = c.accNext → exec .layerArm s = .next (s.withChip
      ({ c with armWaitSince := some (c.armWaitSince.getD c.clk) }.put Reg.HEL_STATUS_ARM_WAIT 1))) ∧
    (∀ (l : Layer) (rest : List Layer), c.run = none → c.layers = l :: rest → c.openPending l.num = false →
      (∀ v, c.healEval = some v → v.accSet ≠ c.accNext) → 1 ≤ l.bands → (∃ h, h < 48 ∧ inMask l.heads h = true) →
      (c.owns = false ∨ ∀ h, h < 48 → inMask l.heads h = true → c.laneState h = 3 ∧ c.driveSetOk h = true) →
      ∃ d, exec .layerArm s = .next (s.withChip d) ∧ d.run.isSome = true ∧ d.layers = c.layers ∧
        d.get Reg.CRN_LAYER_LAYER = l.num % 2 ^ 32 ∧
        d.get Reg.CRN_STATUS_STATE = (if c.flag Reg.HED_GATE_STATUS_PERMIT then 1 else 3) ∧
        d.flag Reg.ETM_STATUS_INLAYER = c.owns ∧ d.armWaitSince = none ∧ d.accNext = 1 - c.accNext ∧
        (∀ h, h < 48 → d.flag (Reg.CRN_HEAD_STATE_IN_LAYER h) = (inMask l.heads h || c.flag (Reg.CRN_HEAD_STATE_IN_LAYER h))) ∧
        (∀ h, h < 48 → inMask l.heads h = true → (d.headRun h).shots = [] ∧ (d.headRun h).isOut = false ∧
          (d.headRun h).next = (d.headRun h).lo ∧ (d.headRun h).hwm = (d.headRun h).lo - 1))) ∧
  (∀ (h : Fin 48) (s : State),
    let c := s.toChip
    let f := c.nextLine h.val
    let early := ∃ t, c.tPrev h.val = some t ∧ ∃ p, c.predictAhead h.val f = some p ∧
      wrapDiff (BitVec.ofInt 64 p) t < 65536 * (c.get Reg.CRN_PMIN_NS : Int)
    (c.mayIssue h.val = false ∨ c.spanEnd h.val ≤ f → ∀ z e, exec (.shotIssue h z e) s = .next s) ∧
    (c.mayIssue h.val = true → f < c.spanEnd h.val → c.predictAhead h.val f = none → exec (.shotIssue h none none) s = .next s) ∧
    (let far := c.est.ext.getD 0 * 65536 + (c.get Reg.CRN_EST_CFG_HORIZON : Int) * c.get Reg.CRN_PITCH_COUNTS
     (far < c.lineX h.val f → c.predictAhead h.val f = none) ∧
     (c.lineX h.val f ≤ far → c.predictAhead h.val f = c.predictLine h.val f)) ∧
    (∀ p, c.mayIssue h.val = true → f < c.spanEnd h.val → c.predictAhead h.val f = some p →
      (c.owns = false → ∃ d, exec (.shotIssue h none none) s = .next (s.withChip d) ∧ (d.headRun h.val).next = f + 1 ∧
        (d.headRun h.val).shots = (c.headRun h.val).shots ∧ d.get Reg.CRN_STATUS_STATE = 2 ∧ d.nextIndex = c.nextIndex) ∧
      (c.owns = true → ¬early → ∃ (d : Chip) (x : Shot), exec (.shotIssue h none none) s = .next (s.withChip d) ∧
        (d.headRun h.val).shots = (c.headRun h.val).shots ++ [x] ∧ x.index = SMap.get 0 h.val c.nextIndex ∧ x.line = f ∧
        x.tag = BitVec.ofInt 64 p ∧ x.sent = false ∧ (d.headRun h.val).next = f + 1 ∧ d.get Reg.CRN_STATUS_STATE = 2 ∧
        SMap.get 0 h.val d.nextIndex = (x.index + 1) % 2 ^ 32 ∧
        (∀ g, g ≠ h.val → SMap.get 0 g d.nextIndex = SMap.get 0 g c.nextIndex ∧ (d.headRun g).shots = (c.headRun g).shots)) ∧
      (c.owns = true → early → ∃ e : Chip, exec (.shotIssue h none none) s = .next (s.withChip e.tryComplete) ∧
        (e.headRun h.val).next = f + 1 ∧ (e.headRun h.val).shots = (c.headRun h.val).shots ∧
        e.get Reg.CRN_SKIPPED_COUNT = min (c.get Reg.CRN_SKIPPED_COUNT + 1) (2 ^ Reg.CRN_SKIPPED_COUNT.width - 1))))

/-- R151, R154, R164, R165: a stall in FIRING calves every head of the layer that has a shot it cuts, the cornice goes to HELD and EV034
names the trigger; each such head awaits a report, with the CALVE queued for its lane. ABORT marks the layer and calves likewise; without
an armed layer on the owner, or with the bit clear, it does nothing. R150, R166 to R168, R226: on the owner a CALVE goes again every 20 µs
while its report is awaited and not overdue; a report that does not come makes the head's shots UNCERTAIN and packing goes on above the
high-water mark, or, where the layer has completed meanwhile, is told by EV035 alone; HELD is left for FIRING with EV043 once no report is
awaited, no takeover is unsettled, PERMIT is asserted and the estimator is valid. (Two calves of one head, and a layer's end: log entries
31 and 32.) -/
def Obligations.CalvesAndReportsOfALayer : Prop :=
  ((∀ (c : Chip) (trigger : Nat) (t : ET), trigger < 8 → c.owns = true →
    let d := c.triggerAll trigger t
    d.get Reg.CRN_STATUS_STATE = 3 ∧ c.tells d 34 0 ∧ d.layers = c.layers ∧
    (∀ h, h < 48 → c.inArmed h = true → (c.headRun h).isOut = false → (c.headRun h).await = none →
      (∀ k, c.firstCut h trigger t = some k →
        (∃ a, (d.headRun h).await = some a ∧ a.k = k ∧ a.trigger = trigger ∧ a.due = c.clk + 1000 * c.get Reg.CRN_CALVE_TO_US) ∧
        (d.lane h).calves = (c.lane h).calves ++ [(k, trigger)] ∧ (d.headRun h).shots = (c.headRun h).shots) ∧
      (c.firstCut h trigger t = none → (d.headRun h).await = none ∧ (d.lane h).calves = (c.lane h).calves))) ∧
  (∀ s : State, s.toChip.get Reg.CRN_STATUS_STATE = 2 →
    let c := s.toChip
    let now := c.estValid = false ∧ c.est.back = false ∧ c.est.window.length = c.window
    (now → exec .stall s = .next (s.withChip (c.triggerAll 3 0))) ∧
    (¬now → exec .stall s = .next (s.withChip ((c.advanceTo (c.est.lastFwd + 1000 * c.get Reg.CRN_STOP_T_US)).triggerAll 3 0)))) ∧
  (∀ s : State, s.toChip.get Reg.CRN_STATUS_STATE ≠ 2 → exec .stall s = .next s) ∧
  (∀ (p : Port) (v : Word) (s : State), s.awake →
    ((v.getLsbD 0 = false ∨ s.toChip.run = none ∨ s.toChip.owns = false) → exec (.abort p v) s = .next s) ∧
    (v.getLsbD 0 = true → s.toChip.run.isSome = true → s.toChip.owns = true → ∃ e : Chip,
      exec (.abort p v) s = .next (s.withChip e.tryComplete) ∧ e.get Reg.CRN_STATUS_STATE = 3 ∧
      (∃ r, e.run = some r ∧ r.aborted = true) ∧ e.layers = s.toChip.layers))) ∧
  ((∀ (h : Fin 48) (s : State),
    let c := s.toChip
    ((c.awaitOf h.val = none ∨ c.owns = false) → exec (.calveTimeout h) s = .next s ∧ exec (.calveRepeat h) s = .next s) ∧
    (∀ a, c.owns = true → c.inArmed h.val = false → (c.head h.val).await = some a →
      let e := c.advanceTo (c.reportDue h.val a)
      exec (.calveTimeout h) s = .next (s.withChip
        (((e.setHeadX h.val { e.head h.val with await := none }).raise 35 0 [(1, h.val), (4, a.k), (4, 0)]).showHead h.val))) ∧
    (∀ a, c.owns = true → c.inArmed h.val = true → (c.headRun h.val).await = some a →
      (let e := c.advanceTo (c.reportDue h.val a)
       exec (.calveTimeout h) s = .next (s.withChip ((e.uncertainShots h.val a.k).settled h.val).tryComplete)) ∧
      (a.again < c.reportDue h.val a →
        let e := c.advanceTo a.again
        exec (.calveRepeat h) s = .next (s.withChip ((e.setHead h.val
          { e.headRun h.val with await := some { a with again := a.again + 20000 } }).setLane h.val
            { e.lane h.val with calves := (e.lane h.val).calves ++ [(a.k, a.trigger)] }))))) ∧
  (∀ (c : Chip) (h : Nat), (∃ r, c.run = some r ∧ r.aborted = false) →
    ((c.settled h).headRun h).await = none ∧ ((c.settled h).headRun h).next = (c.headRun h).hwm + 1 ∧
    ((c.settled h).headRun h).shots = (c.headRun h).shots ∧ ((c.settled h).headRun h).hwm = (c.headRun h).hwm) ∧
  (∀ (c : Chip) (h : Nat), ((c.releaseShots h).headRun h).shots = [] ∧ ((c.releaseShots h).headRun h).hwm = (c.headRun h).hwm) ∧
  (∀ s : State,
    let c := s.toChip
    let free := c.get Reg.CRN_STATUS_STATE = 3 ∧ (∃ r, c.run = some r ∧ r.aborted = false) ∧
      (∀ h, h < 48 → c.inArmed h = true → (c.headRun h).await = none) ∧ c.tdm.takes = [] ∧
      c.flag Reg.HED_GATE_STATUS_PERMIT = true ∧ c.estValid = true
    (free → exec .heldExit s = .next (s.withChip ((c.put Reg.CRN_STATUS_STATE 2).raise 43 0 []))) ∧
    (¬free → exec .heldExit s = .next s)))

/-- R224, R234, R244: a TLM with a wrong CRC is counted and nothing else; one on a lane that is not up, or not later than the last taken,
does nothing; one taken records its LSEQ, shows TB_HOLD, and lets go the packets it acknowledges. (What a TLM acts on: log entry 36.) -/
def Obligations.TelemetryAcknowledgesPackets : Prop :=
  ∀ (n : Fin 48) (t : TlmPacket) (m : Option (Fin 196608 × DramKind)) (s : State),
    let c := s.toChip
    let l := c.lane n.val
    let later := ∀ q, l.lastTlm = some q → 0 < wrapDiff t.lseq (BitVec.ofNat 16 q)
    (t.crcOk = false → c.laneUp n.val = true →
      exec (.tlm n ⟨t, m⟩) s = .next (s.withChip (c.bump (Reg.THL_LANE_CRC_ERR_COUNT n.val) 1))) ∧
    (t.crcOk = false → c.laneUp n.val = false → exec (.tlm n ⟨t, m⟩) s = .next s) ∧
    (t.crcOk = true → (c.laneUp n.val = false ∨ ¬later) → exec (.tlm n ⟨t, m⟩) s = .next s) ∧
    (t.crcOk = true → c.laneUp n.val = true → later → c.tdm.takes = [] → (c.owns = false ∨ c.inArmed n.val = false) →
      t.fault = 0 → t.full = none → t.nak = false → t.late = false →
      exec (.tlm n ⟨t, m⟩) s = .next (s.withChip ((((c.putB (Reg.THL_LANE_STATUS_TB_HOLD n.val) false).put
        (Reg.THL_LANE_LSEQ_ACKED n.val) t.ackLseq.toNat)).setLane n.val { l with
          lastTlm := some t.lseq.toNat
          kept := l.kept.filter fun (k : Kept) => decide (0 < wrapDiff (BitVec.ofNat 16 k.lseq) (BitVec.ofNat 16 t.ackLseq.toNat))
          replay := l.replay.filter fun (k : Kept) => decide (0 < wrapDiff (BitVec.ofNat 16 k.lseq) (BitVec.ofNat 16 t.ackLseq.toNat))
          fault := some 0
          faultNew := false })))

/-- R33, R119, R134, R135: CHURN_JOB_START: the lowest free engine takes the next job in class order, and runs it to its end or to where
it holds; a decompression job that comes too late is discarded with EV020 and its block area freed. CHURN_RESUME: a holding engine goes
on, to its end or to where it holds next. BLOCK_DECODED: a holding engine ends nothing. -/
def Obligations.JobsAreTakenAndHeld : Prop :=
  (∀ (hold : Option Hold) (s : State),
    let c := s.toChip
    ((c.freeEngine = none ∨ c.nextJob = none) → exec (.churnJobStart hold) s = .next s) ∧
    (∀ e j, c.freeEngine = some e → c.nextJob = some j →
      (j.ofBlock = true → c.jobPassed j = true → ∃ d, exec (.churnJobStart hold) s = .next (s.withChip d) ∧
        d.jobs = c.jobs.erase j ∧ d.blockUsed = c.blockUsed - j.area ∧ d.engines = c.engines ∧ c.tells d 20 0 ∧
        c.keepsRegs d [Reg.CHN_QUEUE_DEC.off]) ∧
      (¬(j.ofBlock = true ∧ c.jobPassed j = true) → j.kind < 4 → ∃ d, exec (.churnJobStart hold) s = .next (s.withChip d) ∧
        d.jobs = c.jobs.erase j ∧ (d.engineJob e).map (·.job) = some j ∧ d.bitOf Reg.CHN_STATUS_BUSY e = true ∧
        d.get (Reg.CHN_ENG_STATE_KIND e) = j.kind ∧ (∀ k, k < 8 → k ≠ e → d.bitOf Reg.CHN_STATUS_BUSY k = c.bitOf Reg.CHN_STATUS_BUSY k ∧
          d.bitOf Reg.CHN_STATUS_HELD k = c.bitOf Reg.CHN_STATUS_HELD k) ∧
        d.bitOf Reg.CHN_STATUS_HELD e = hold.isSome ∧ d.out = c.out))) ∧
  (∀ (e : Fin 8) (s : State),
    let c := s.toChip
    (c.bitOf Reg.CHN_STATUS_HELD e.val = false → ∀ hold, exec (.churnResume e hold) s = .next s) ∧
    (c.bitOf Reg.CHN_STATUS_HELD e.val = true →
      (∃ d, exec (.churnResume e none) s = .next (s.withChip d) ∧
        d.bitOf Reg.CHN_STATUS_HELD e.val = false ∧ d.get (Reg.CHN_ENG_STATE_HELD_OUT e.val) = 0 ∧
        d.get (Reg.CHN_ENG_STATE_HELD_IN e.val) = 0 ∧ d.engines.map (fun x => (x.1, x.2.job, x.2.restarted)) =
          c.engines.map (fun x => (x.1, x.2.job, x.2.restarted)) ∧ d.jobs = c.jobs ∧ d.layers = c.layers ∧ d.out = c.out) ∧
      (∀ h, ∃ d, exec (.churnResume e (some h)) s = .next (s.withChip d) ∧
        d.bitOf Reg.CHN_STATUS_HELD e.val = true ∧ d.flag (Reg.CHN_ENG_STATE_HELD_OUT e.val) = h.forOutput ∧
        d.get (Reg.CHN_ENG_DONE_BYTES e.val) = min h.atByte 0xFFFFF ∧
        d.get Reg.CHN_HOLDS_COUNT = min (c.get Reg.CHN_HOLDS_COUNT + 1) (2 ^ Reg.CHN_HOLDS_COUNT.width - 1) ∧
        d.engines.map (fun x => (x.1, x.2.job, x.2.restarted)) = c.engines.map (fun x => (x.1, x.2.job, x.2.restarted)) ∧
        d.jobs = c.jobs ∧ d.layers = c.layers ∧ d.out = c.out) ∧
      ∀ r, exec (.blockDecoded e r) s = .next s))

/-- R119, R129, R132, R133, R138, R403, R411: BLOCK_DECODED: a decoded block is marked valid with its bytes, or its failure is counted and
told, which an uncorrectable read or stored poison of the compressed block is with cause 7; one whose layer is gone leaves nothing; a
piece of a received firn goes to its firn. DICT_PARITY: the first parity error restarts the job, the second fails it (a compression is
queued again: log entry 90) and the engine leaves service. -/
def Obligations.JobsEndWithTheirOutcome : Prop :=
  ∀ (e : Fin 8) (s : State) (x : Engine), s.toChip.engineJob e.val = some x →
    let c := s.toChip
    (∀ reads : List RawRead, x.job.kind = 1 → x.job.firn = none → c.bitOf Reg.CHN_STATUS_HELD e.val = false →
      let bad := x.job.poisoned || reads.any fun r => !DramKind.correctable r.kind
      (bad = true → jobResult x.job bad = .fail 7 0) ∧
      (∀ cause pos, jobResult x.job bad = .fail cause pos → ∃ d, exec (.blockDecoded e ⟨reads, []⟩) s = .next (s.withChip d) ∧
        d.blockUsed = c.blockUsed - x.job.area ∧ d.bitOf Reg.CHN_STATUS_BUSY e.val = false ∧ d.layers = c.layers ∧
        d.get Reg.CHN_DEC_FAIL_COUNT = min (c.get Reg.CHN_DEC_FAIL_COUNT + 1) (2 ^ Reg.CHN_DEC_FAIL_COUNT.width - 1) ∧
        d.get Reg.EVT_LAST_SOURCE = 202 ∧ d.flag Reg.CHN_FAIL_INFO_VALID = true) ∧
      (∀ bytes l, jobResult x.job bad = .ok bytes → x.job.stale = false → c.layer? x.job.layer = some l →
        ∃ d, exec (.blockDecoded e ⟨reads, []⟩) s = .next (s.withChip d) ∧ d.blockUsed = c.blockUsed - x.job.area ∧
          d.bitOf Reg.CHN_STATUS_BUSY e.val = false ∧
          (∃ l', d.layer? x.job.layer = some l' ∧ (l'.slab x.job.head x.job.slab).valid = true ∧
            (l'.slab x.job.head x.job.slab).bytes = bytes) ∧
          d.get Reg.CHN_DEC_BLOCKS_COUNT = min (c.get Reg.CHN_DEC_BLOCKS_COUNT + 1) (2 ^ Reg.CHN_DEC_BLOCKS_COUNT.width - 1) ∧
          c.postsNothing d) ∧
      (∀ bytes, jobResult x.job bad = .ok bytes → x.job.stale = true →
        ∃ d, exec (.blockDecoded e ⟨reads, []⟩) s = .next (s.withChip d) ∧ d.blockUsed = c.blockUsed - x.job.area ∧
          d.layers = c.layers ∧ c.postsNothing d)) ∧
    (∀ q, x.job.kind = 1 → x.job.firn = some q → c.bitOf Reg.CHN_STATUS_HELD e.val = false →
      ∃ (d : Chip) (ok : Bool), exec (.blockDecoded e ⟨[], []⟩) s = .next (s.withChip (d.firnPiece q ok)) ∧
        d.bitOf Reg.CHN_STATUS_BUSY e.val = false ∧ (ok = true ↔ ∃ bytes, jobResult x.job x.job.poisoned = .ok bytes)) ∧
    (x.restarted = false → ∃ d, exec (.dictParity ⟨e, none⟩) s = .next (s.withChip d) ∧
      (∃ y, d.engineJob e.val = some y ∧ y.job = x.job ∧ y.restarted = true) ∧ d.get (Reg.CHN_ENG_DONE_BYTES e.val) = 0 ∧ c.tells d 17 0) ∧
    (∀ hold, x.restarted = true → x.job.firn = none → ∃ d, exec (.dictParity ⟨e, hold⟩) s = .next (s.withChip d) ∧
      d.bitOf Reg.CHN_STATUS_INSERVICE e.val = false ∧ d.bitOf Reg.CHN_STATUS_BUSY e.val = false ∧ d.engineJob e.val = none ∧
      d.get Reg.EVT_LAST_SOURCE = 18 ∧ (x.job.kind ≠ 1 → x.job ∈ d.jobs))

/-! ### Cameras and healing -/

/-- R281, R282, R283, R301, R458: an FS on a receiving port opens a frame of its context, with the stamp and the number R282 gives it; a
packet's payload becomes the open frame's next line, with BAD.CRC where its CRC fails; an FE for a frame that is not current has it wait,
and of two in one cycle the one of the lower pipeline comes first; a frame that closes leaves, no longer throttles its pipeline, and is
counted where it is bad. A port that does not receive changes nothing. R275, R283, R284, R308: a header error is counted and marks every
frame open on its port ECC, one not corrected is a receiver fault with cause 4; an error of a data lane marks them PHY with cause 1 or 2;
a deskew that fails is a fault with cause 3. A port that does not receive changes nothing (R277), and a quarantined crossing counts
nothing (R458). (Formed records and stamps: log entry 39.) -/
def Obligations.FramesAreReceived : Prop :=
  ((∀ (m : CamShort) (t : ET) (s : State),
    let c := s.toChip
    let p := m.port.val
    (c.portOn p = false → exec (.fs m t none) s = .next s ∧ exec (.fe ⟨m, none⟩ t) s = .next s ∧
      ∀ dt ok b, exec (.longPacket m.port m.vc dt ok b) s = .next s) ∧
    (c.portOn p = true → c.ctxOf p m.vc.toNat = none → exec (.fs m t none) s = .next (s.withChip (c.portHeard p)) ∧
      exec (.fe ⟨m, none⟩ t) s = .next s) ∧
    (∀ x, c.portOn p = true → c.ctxOf p m.vc.toNat = some x →
      let num := if c.flag (Reg.CAM_CTX_BIND_FNUM_MODE x) then
          (if (c.cam x).seen then (c.get (Reg.CAM_CTX_STATUS_FRAME x) + 1) % 65536 else 0)
        else m.num.toNat
      (∃ d, exec (.fs m t none) s = .next (s.withChip d) ∧ d.get (Reg.CAM_CTX_STATUS_FRAME x) = num ∧
        d.get (Reg.CAM_CTX_STATUS_OPEN x) = 1 ∧ d.get64 (Reg.CAM_CTX_FS_ET_LO_ET x) (Reg.CAM_CTX_FS_ET_HI_ET x) = t.toNat ∧
        d.get (Reg.CAM_CTX_FRAMES_COUNT x) = min (c.get (Reg.CAM_CTX_FRAMES_COUNT x) + 1) (2 ^ (Reg.CAM_CTX_FRAMES_COUNT x).width - 1) ∧
        ∃ f ∈ d.frames, f.ctx = x ∧ f.num = num ∧ f.recv = m.num.toNat ∧ f.fsEt = t ∧ f.lines = [] ∧ f.bad = 0 ∧ f.ended = none) ∧
      (∀ n y, c.ctxOf n.port.val n.vc.toNat = some y → exec (.fe ⟨m, some n⟩ t) s = .next (s.withChip
        (if y / 2 < x / 2 then (c.oneEnd n t).oneEnd m t else (c.oneEnd m t).oneEnd n t))) ∧
      (c.openFrame x = none → exec (.fe ⟨m, none⟩ t) s = .next s) ∧
      (∀ f, c.openFrame x = some f → f.lost = false →
        let wrong := f.recv ≠ m.num.toNat
        let g := { (if wrong then f.mark 3 else f) with ended := some t }
        let e := (c.put (Reg.CAM_CTX_STATUS_OPEN x) 0).setFrame f g
        exec (.fe ⟨m, none⟩ t) s = .next (s.withChip (if f.current then (e.closeFrame g t).pumpFrames (x / 2) else e.showPipe (x / 2)))))) ∧
  (∀ (p : Fin 4) (vc : BitVec 4) (dt : BitVec 6) (ok : Bool) (b : List Byte) (s : State), s.toChip.portOn p.val = true →
    let c := s.toChip
    let e := if ok then c.portHeard p.val else (c.portHeard p.val).bump (Reg.CAM_PORT_CRC_ERR_COUNT p.val) 1
    ((dt.toNat < 0x2A ∨ 0x2E < dt.toNat ∨ c.ctxOf p.val vc.toNat = none) →
      exec (.longPacket p vc dt ok b) s = .next (s.withChip (e.bump (Reg.CAM_PORT_DISCARD_COUNT p.val) 1))) ∧
    (∀ x, 0x2A ≤ dt.toNat → dt.toNat ≤ 0x2E → c.ctxOf p.val vc.toNat = some x →
      ((c.get (Reg.CAM_CTX_BIND_DT x) ≠ dt.toNat ∨ c.openFrame x = none) →
        exec (.longPacket p vc dt ok b) s = .next (s.withChip (e.bump (Reg.CAM_PORT_DISCARD_COUNT p.val) 1))) ∧
      (∀ f, c.get (Reg.CAM_CTX_BIND_DT x) = dt.toNat → c.openFrame x = some f → f.lost = true →
        exec (.longPacket p vc dt ok b) s = .next (s.withChip e)) ∧
      (∀ f, c.get (Reg.CAM_CTX_BIND_DT x) = dt.toNat → c.openFrame x = some f → f.lost = false →
        c.fifoBytes p.val + b.length ≤ 262144 →
        ∃ d, exec (.longPacket p vc dt ok b) s = .next (s.withChip d) ∧ d.out = c.out ∧ d.frames.length = c.frames.length ∧
          ∃ g ∈ d.frames, g.ctx = x ∧ g.num = f.num ∧ g.lines = f.lines ++ [b] ∧ g.bad = if ok then f.bad else (f.mark 1).bad))) ∧
  (∀ (c : Chip) (f : Frame) (t : ET), f.ctx < 8 →
    (c.closeFrame f t).frames = c.frames.erase f ∧
    (f.current = true → (c.closeFrame f t).get (Reg.CAM_PIPE_STATUS_THROTTLED (f.ctx / 2)) = 0) ∧
    (c.closeFrame f t).get (Reg.CAM_CTX_BADFR_COUNT f.ctx) =
      if f.bad = 0 ∧ c.geometryBad f = false then c.get (Reg.CAM_CTX_BADFR_COUNT f.ctx)
      else min (c.get (Reg.CAM_CTX_BADFR_COUNT f.ctx) + 1) (2 ^ (Reg.CAM_CTX_BADFR_COUNT f.ctx).width - 1))) ∧
  ((∀ (c : Chip) (p k : Nat),
    let d := c.markPort p k
    d = { c with frames := d.frames } ∧ d.frames.length = c.frames.length ∧
    ∀ (i : Nat) (f : Frame), c.frames[i]? = some f → d.frames[i]? = some
      (if c.get (Reg.CAM_CTX_BIND_PORT f.ctx) = p ∧ f.ended = none then { f with bad := if bit f.bad k then f.bad else f.bad + 2 ^ k } else f)) ∧
  ∀ (p : Fin 4) (s : State),
    let c := s.toChip
    let fault := fun (d : Chip) (cause : Nat) => (d.put (Reg.CAM_PORT_STATUS_ERR p.val) 1).raise (128 + p.val) cause []
    (c.portOn p.val = false → (∀ b, exec (.headerEccError p b) s = .next s ∧ exec (.phyError p b) s = .next s ∧
      exec (.deskew p b) s = .next s)) ∧
    let count := fun (f : Field) => if c.quar.contains (14, p.val) then c else c.bump f 1
    (c.portOn p.val = true →
      exec (.headerEccError p true) s = .next (s.withChip ((count (Reg.CAM_PORT_ECC_CORR_COUNT p.val)).markPort p.val 0)) ∧
      exec (.headerEccError p false) s =
        .next (s.withChip (fault ((count (Reg.CAM_PORT_ECC_UNC_COUNT p.val)).markPort p.val 0) 4)) ∧
      exec (.phyError p false) s = .next (s.withChip (fault (c.markPort p.val 4) 1)) ∧
      exec (.phyError p true) s = .next (s.withChip (fault (c.markPort p.val 4) 2)) ∧
      exec (.deskew p true) s = .next (s.withChip (c.put (Reg.CAM_PORT_STATUS_DESKEW_OK p.val) 1)) ∧
      exec (.deskew p false) s = .next (s.withChip (fault (c.put (Reg.CAM_PORT_STATUS_DESKEW_OK p.val) 0) 3))))

/-- R294, R295: ARM sets ARMED with the FROM written, DISARM clears it; a shadow write is taken by its access codes, or, while ARMED,
discarded with EV148; the set that applies is the shadow set word by word, and the shadow set stays. R97, R299, R300: a MAP_LOAD whose
length, range or pipeline is wrong, or that holds an entry that may not be loaded, stops its ring; else, once a partner that tracks has
acknowledged them (R427), its entries are in the map when it completes. A map window write takes effect while neither context of its
pipeline is enabled, and is discarded with EV052 otherwise. (That bits [11:0] of a window write are kept is the model's choice: log entry
86.) (Active parameters at reset: log entry 41.) -/
def Obligations.ParameterSetsAndMaps : Prop :=
  ((∀ (p : Port) (x : Fin 8) (v : Word) (s : State), s.awake →
    let c := s.toChip
    let d := if c.flag (Reg.CAM_CTX_STATUS_ARMED x.val) then c else c.put (Reg.CAM_CTX_APPLY_FROM x.val) (bits v.toNat 0 16)
    (v.getLsbD 16 = true → v.getLsbD 17 = false →
      exec (.arm p x v) s = .next (s.withChip (d.put (Reg.CAM_CTX_STATUS_ARMED x.val) 1))) ∧
    (v.getLsbD 16 = false → v.getLsbD 17 = true →
      exec (.disarm p x v) s = .next (s.withChip (d.put (Reg.CAM_CTX_STATUS_ARMED x.val) 0))) ∧
    (∀ off : BitVec 8, off.toNat % 4 = 0 →
      (c.flag (Reg.CAM_CTX_STATUS_ARMED x.val) = true → exec (.shadowWrite p x off v) s = .next (s.withChip
        (c.raise 148 0 [(1, x.val), (4, 0xA1100 + 0x400 * x.val + off.toNat)]))) ∧
      (c.flag (Reg.CAM_CTX_STATUS_ARMED x.val) = false → ∃ e, exec (.shadowWrite p x off v) s = .next (s.withChip e) ∧
        (let o := 0xA1100 + 0x400 * x.val + off.toNat
         (∀ f ∈ fieldsAt o, e.get (f.at o) = f.written (c.get (f.at o)) v.toNat) ∧ c.onlyRegs e [o])))) ∧
  (∀ (c : Chip) (x w : Nat) (f : FieldSpec), x < 8 → w < 64 → f ∈ fieldsAt (0xA1100 + 0x400 * x + 4 * w) →
    let o := 0xA1100 + 0x400 * x + 4 * w
    (c.copyShadow x).get ⟨o + 0x100, f.lo, f.width, f.rst⟩ = c.get (f.at o) % 2 ^ f.width ∧
    (c.copyShadow x).get (f.at o) = c.get (f.at o))) ∧
  ((∀ (p : Port) (n : Fin 64) (s : State) (d : List Byte), s.toChip.headOp p.num n.val 0x13 = some d →
    (s.toChip.ring p.num n.val).acted = false → (s.toChip.ring p.num n.val).load = none →
    let c := s.toChip
    let kept := fun (b : List Byte) => c.setRing p.num n.val { c.ring p.num n.val with load := some ⟨b, none, false⟩ }
    let len := leField d 0x10 4
    let first := leField d 0x14 4
    let count := leField d 0x18 4
    let pipe := leField d 0x1C 1
    let good := len = 4 * count ∧ 1 ≤ count ∧ count ≤ 16384 ∧ first + count ≤ 16384
    let ok := fun (w : Nat) => bit w 31 = false ∨ (bits w 25 6 < 48 ∧ bits w 12 13 < c.get (Reg.HED_HEAD_CFG_NOZZLES (bits w 25 6)))
    (¬good → ∀ b, exec (.mapLoad p n b) s = .next (s.withChip (c.faultDesc p.num n.val 0x101))) ∧
    (good → 3 < pipe → ∀ b, exec (.mapLoad p n b) s = .next (s.withChip (c.faultDesc p.num n.val 0x102))) ∧
    (good → pipe ≤ 3 → exec (.mapLoad p n none) s = .next (s.withChip (c.faultDesc p.num n.val 0x103)) ∧
      ∀ b, (¬(∀ i, i < count → ok (leField b (4 * i) 4)) →
        exec (.mapLoad p n (some b)) s = .next (s.withChip (c.faultDesc p.num n.val 0x102))) ∧
      ((∀ i, i < count → ok (leField b (4 * i) 4)) → c.tracked = true → ∃ (e : Chip) (base : Option Nat),
        exec (.mapLoad p n (some b)) s = .next (s.withChip e) ∧ (e.ring p.num n.val).load = some ⟨b, base, true⟩ ∧
        (e.ring p.num n.val).acted = true ∧ e.ci p.num n.val = c.ci p.num n.val ∧
        (∀ q i, q < 4 → i < 16384 → e.get (Reg.CAM_MAP_ENTRY q i) = c.get (Reg.CAM_MAP_ENTRY q i))) ∧
      ((∀ i, i < count → ok (leField b (4 * i) 4)) → c.sendsLog = false → c.tracked = false → ∃ e : Chip,
        exec (.mapLoad p n (some b)) s = .next (s.withChip (e.complete p.num n.val 0 d [])) ∧
        e = { kept b with regs := e.regs } ∧
        (∀ i, i < count → e.get (Reg.CAM_MAP_ENTRY pipe (first + i)) = leField b (4 * i) 4 % 2 ^ 32) ∧
        (∀ q i, q < 4 → i < 16384 → ¬(q = pipe ∧ first ≤ i ∧ i < first + count) →
          e.get (Reg.CAM_MAP_ENTRY q i) = c.get (Reg.CAM_MAP_ENTRY q i))))) ∧
  (∀ (p : Port) (pipe : Fin 4) (i : Fin 16384) (v : Word) (s : State), s.awake →
    let c := s.toChip
    let used := c.flag (Reg.CAM_CTX_BIND_ENABLE (2 * pipe.val)) = true ∨ c.flag (Reg.CAM_CTX_BIND_ENABLE (2 * pipe.val + 1)) = true
    (used → exec (.mapWindowWrite p pipe i v) s =
      .next (s.withChip (c.raise 52 2 [(4, 0x250000 + 0x10000 * pipe.val + 4 * i.val)]))) ∧
    (¬used → exec (.mapWindowWrite p pipe i v) s = .next (s.withChip (c.put (Reg.CAM_MAP_ENTRY pipe.val i.val) v.toNat)))))

/-- R302: START begins a run at k = 0 and, by ET, schedules its first trigger at T0; STOP ends the run and cuts the window; a trigger
drives the GPIO to its active level over EXPO from its ET, or, while a window is open at that ET, is skipped and counted; a run ends after
COUNT triggers, and at its next trigger where MODE has become 0; the level goes back at the window's end. -/
def Obligations.TriggersDriveTheirWindow : Prop :=
  (∀ (p : Port) (x : Fin 8) (v : Word) (s : State), s.awake →
    let c := s.toChip
    let mode := c.get (Reg.CAM_CTX_TRIG_MODE x.val)
    let t0 : ET := BitVec.ofNat 64 (c.get64 (Reg.CAM_CTX_TRIG_T0_LO_T0 x.val) (Reg.CAM_CTX_TRIG_T0_HI_T0 x.val))
    let others := c.sched.filter fun (a : Sched) => decide (a.kind ≠ SchedKind.camTrigger x.val)
    (v.getLsbD 0 = true → v.getLsbD 1 = false → mode = 0 → exec (.trigStart p x v) s = .next s) ∧
    (v.getLsbD 0 = true → v.getLsbD 1 = false → mode ≠ 0 → (mode = 1 → 0 < wrapDiff t0 c.now) →
      ∃ d, exec (.trigStart p x v) s = .next (s.withChip d) ∧ d.get (Reg.CAM_CTX_STATUS_TRIG_RUN x.val) = 1 ∧ (d.cam x.val).k = 0 ∧
        (d.cam x.val).posDue = [] ∧ (d.cam x.val).trigs = [] ∧ (d.cam x.val).windowEnd = (c.cam x.val).windowEnd ∧
        d.sched = others ++ (if mode = 1 then [⟨t0, .camTrigger x.val, false⟩] else []) ∧
        { c with sched := d.sched, camCtx := d.camCtx }.onlyRegs d [(Reg.CAM_CTX_STATUS_TRIG_RUN x.val).off]) ∧
    (v.getLsbD 0 = false → v.getLsbD 1 = true → ∃ d, exec (.trigStop p x v) s = .next (s.withChip d) ∧
      d.get (Reg.CAM_CTX_STATUS_TRIG_RUN x.val) = 0 ∧ (d.cam x.val).windowEnd = none ∧ (d.cam x.val).posDue = [] ∧ d.sched = others ∧
      d.out = c.out ++ (if (c.cam x.val).windowEnd.isSome then [c.trigLevel x.val false] else []))) ∧
  (∀ (c : Chip) (x k : Nat) (t : ET), c.get (Reg.CAM_CTX_TRIG_MODE x) = 0 → c.fireTrigger x k t = c.endRun x) ∧
  (∀ (c : Chip) (x k : Nat) (t : ET), x < 8 → c.get (Reg.CAM_CTX_TRIG_MODE x) ≠ 0 →
    let d := c.fireTrigger x k t
    let count := c.get (Reg.CAM_CTX_TRIG_CTL_COUNT x)
    let within := ∃ w, (c.cam x).windowEnd = some w ∧ 0 < wrapDiff w t
    (d.cam x).k = (c.cam x).k + 1 ∧ (d.cam x).trigs = ((k, t) :: (c.cam x).trigs).take 4 ∧
    (¬within → (d.cam x).windowEnd = some (t + BitVec.ofNat 64 (65536 * c.get (Reg.CAM_CTX_EXPO_NS x))) ∧
      c.out ++ (if (c.cam x).windowEnd.isSome then [c.trigLevel x false] else []) ++ [c.trigLevel x true] <+: d.out) ∧
    (within → (d.cam x).windowEnd = (c.cam x).windowEnd ∧ d.get (Reg.CAM_CTX_TRIG_SKIP_COUNT x) =
      min (c.get (Reg.CAM_CTX_TRIG_SKIP_COUNT x) + 1) (2 ^ (Reg.CAM_CTX_TRIG_SKIP_COUNT x).width - 1)) ∧
    (count ≠ 0 → count ≤ (c.cam x).k + 1 → d.get (Reg.CAM_CTX_STATUS_TRIG_RUN x) = 0)) ∧
  (∀ (x : Fin 8) (s : State),
    let c := s.toChip
    let mine := c.sched.find? fun (a : Sched) => decide (a.kind = SchedKind.camTrigger x.val)
    (∀ a, mine = some a →
      let e := c.advanceToEt a.target
      exec (.trigger x) s = .next (s.withChip (({ e with sched := e.sched.erase a }).fireTrigger x.val (c.cam x.val).k a.target))) ∧
    (∀ e rest, mine = none → (c.cam x.val).posDue = e :: rest → exec (.trigger x) s = .next (s.withChip
      ((c.setCam x.val { c.cam x.val with posDue := rest }).fireTrigger x.val e.1 e.2))) ∧
    (mine = none → (c.cam x.val).posDue = [] → exec (.trigger x) s = .next s) ∧
    ((c.cam x.val).windowEnd = none → exec (.exposureEnd x) s = .next s) ∧
    (∀ t, (c.cam x.val).windowEnd = some t →
      let e := c.advanceToEt t
      exec (.exposureEnd x) s = .next (s.withChip ((e.driveTrig x.val false).setCam x.val
        { e.cam x.val with windowEnd := none })))) ∧
  (∀ (c : Chip) (x : Nat) (active : Bool), (c.driveTrig x active).out = c.out ++ [c.trigLevel x active] ∧
    (c.driveTrig x active).bitOf (Reg.IOX_GPIO_IN_BITS (c.get (Reg.CAM_CTX_TRIG_GPIO x) / 32)) (c.get (Reg.CAM_CTX_TRIG_GPIO x) % 32) =
      (active == c.flag (Reg.CAM_CTX_TRIG_POL x)))

/-- R110, R137, R138, R404: an engine that has compressed a piece is idle again, the errors its reads met having been dealt with; the
piece's block, stored where compression gains nothing, is held with its item, and the item goes on to its ring with its last piece. R312,
R314, R318, R323, R327: the open window ends after its time, or when CLOSE is written; the evaluation begun before then ends; a layer that
is skipped is reported with its cause and heal is idle; else the layer's evaluation is in progress. The end of an evaluation counts it and
queues its report, and EV054 is raised. -/
def Obligations.ItemsAndWindowsEnd : Prop :=
  (∀ (e : Fin 8) (s : State),
    (s.toChip.engineJob e.val = none → ∀ reads, exec (.pieceCompressed ⟨e, reads⟩) s = .next s) ∧
    (∀ x, s.toChip.engineJob e.val = some x → (x.job.kind = 1 ∨ s.toChip.bitOf Reg.CHN_STATUS_HELD e.val = true) →
      ∀ reads, exec (.pieceCompressed ⟨e, reads⟩) s = .next s) ∧
    (∀ x o reads, s.toChip.engineJob e.val = some x → x.job.kind ≠ 1 → s.toChip.bitOf Reg.CHN_STATUS_HELD e.val = false →
      let c := reads.foldl (fun (c : Chip) (r : RawRead) => c.dramError ⟨r.kind, r.off, 1, .region (if x.job.kind = 3 then 4 else 0)⟩) s.toChip
      c.outItems.find? (fun (q : OutItem) => decide (q.number = x.job.item)) = some o →
      let r := pieceBlock (if o.firn then 2 else 1) x.job.item x.job.slab x.job.payload
      let joined := o.addPiece x.job.slab r.1 r.2
      (joined.blocks.length ≠ joined.pieces → ∃ d, exec (.pieceCompressed ⟨e, reads⟩) s = .next (s.withChip d) ∧ d.engineJob e.val = none ∧
        d.outItems = (c.outItems.map fun (q : OutItem) => if q.number = x.job.item then joined else q) ∧ d.out = c.out ∧
        d.get Reg.CHN_NO_GAIN_COUNT = if r.2 then min (c.get Reg.CHN_NO_GAIN_COUNT + 1) (2 ^ Reg.CHN_NO_GAIN_COUNT.width - 1)
          else c.get Reg.CHN_NO_GAIN_COUNT) ∧
      (joined.blocks.length = joined.pieces → o.firn = false →
        let it := { o.insp with
          iflags := o.insp.iflags + 2 + 4 * b2n joined.noGain
          body := joinPieces (joined.blocks.map (·.2)) }
        ∃ d : Chip, exec (.pieceCompressed ⟨e, reads⟩) s = .next (s.withChip (d.queueInsp it)) ∧ d.engineJob e.val = none ∧
          d.outItems = (c.outItems.filter fun (q : OutItem) => decide (q.number ≠ x.job.item)) ∧ d.inspItems = c.inspItems))) ∧
  ((∀ s : State,
    let c := s.toChip
    (c.healWin = none → exec .windowTimeout s = .next s) ∧
    (∀ w, c.healWin = some w → exec .windowTimeout s = .next (s.withChip ((c.advanceToEt w.tMax).closeWindow))) ∧
    (c.healEval = none → exec .evaluationEnd s = .next s) ∧
    (∀ v, c.healEval = some v → ∃ d, exec .evaluationEnd s = .next (s.withChip d) ∧ d.healEval = none ∧ d.healWin = c.healWin ∧
      d.get Reg.HEL_EVALS_COUNT = min (c.get Reg.HEL_EVALS_COUNT + 1) (2 ^ Reg.HEL_EVALS_COUNT.width - 1) ∧
      d.get Reg.HEL_LAST_LAYER_LAYER = v.layer % 2 ^ 32 ∧ d.bitOf (Reg.EVT_STATUS_RAISED 1) 22 = true ∧
      (c.get Reg.HEL_STATUS_STATE = 2 → d.get Reg.HEL_STATUS_STATE = b2n c.healWin.isSome) ∧
      ∃ it, d.stateItems = c.stateItems ++ [it] ∧ it.kind = 0x11 ∧ it.body = v.report)) ∧
  (∀ (p : Port) (v : Word) (s : State), s.awake →
    let c := s.toChip.put Reg.HEL_CTRL_MODE (if bits v.toNat 0 2 = 3 then 0 else bits v.toNat 0 2)
    exec (.close p v) s = .next (s.withChip (if v.getLsbD 4 then c.closeWindow else c))) ∧
  (∀ c : Chip,
    (c.healWin = none → c.closeWindow = c) ∧
    (∀ w, c.healWin = some w → c.healEval = none →
      let d := c.closeWindow
      d.healWin = none ∧ d.healPast = (w.tDone, (if 0 < wrapDiff w.tMax c.now then c.now else w.tMax), w.unusedTold) :: c.healPast ∧
      (w.skipCause (decide (c.get Reg.HEL_CTRL_MODE = 0)) ≠ 0 → d.get Reg.HEL_STATUS_STATE = 0 ∧ d.get Reg.HEL_LAST_LAYER_LAYER = w.layer % 2 ^ 32 ∧ d.healEval = none ∧
        d.bitOf (Reg.EVT_STATUS_RAISED 1) 25 = true ∧ d.nzt = c.nzt ∧ d.runCounts = c.runCounts ∧
        ∃ it, d.stateItems = c.stateItems ++ [it] ∧ it.kind = 0x11) ∧
      (w.skipCause (decide (c.get Reg.HEL_CTRL_MODE = 0)) = 0 → d.get Reg.HEL_STATUS_STATE = 2 ∧ d.stateItems = c.stateItems ∧
        ∃ v, d.healEval = some v ∧ v.layer = w.layer ∧ v.accSet = w.accSet))) ∧
  (∀ (w : HealWindow) (off : Bool), w.skipCause off = if w.frozen then 5 else if w.aborted then 1 else if w.truncated then 2
    else if w.records = 0 then 3 else if w.modeOff || off then 4 else 0))

/-! ### Motion, loops and I/O -/

/-- R334, R336 to R340: a motion command whose AXIS is out of range or whose reserved fields are not 0 stops its ring with BAD_FIELD; one
with AT set is scheduled once, or completes RANGE where the schedule refuses it; one without AT is due, behind those due before it. The
commands that are due, or whose AT_ET has come, act at the next motion tick, those due in the order they became so and then those whose
target has passed in the order of the schedule (R56): one that R338 refuses completes with its reason, a move of an axis that moves
TARGET_IN_MOTION with the commanded position; an accepted one acts and completes with that position. (When a command acts and the order of
refusals: log entry 44.) -/
def Obligations.MotionCommandsAreCheckedThenAct : Prop :=
  (∀ (p : Port) (n : Fin 64) (op : Nat) (i : Instr),
    (op, i) ∈ [(0x20, Instr.moveAbs p n), (0x21, .moveRel p n), (0x22, .setLimits p n), (0x23, .velocity p n), (0x24, .queueMove p n),
      (0x25, .stop p n), (0x26, .gear p n), (0x27, .gearChange p n), (0x28, .home p n), (0x29, .setMode p n), (0x2A, .setPos p n)] →
    ∀ (s : State) (d : List Byte), s.toChip.headOp p.num n.val op = some d → (s.toChip.ring p.num n.val).acted = false →
      let c := s.toChip
      let m := motCmd d
      let ok := leField d 8 1 < 8 ∧ leField d 9 1 < 4 ∧ leField d 0xA 2 = 0 ∧ leField d 0x28 8 = 0
      (¬ok → exec i s = .next (s.withChip (c.faultDesc p.num n.val 0x102))) ∧
      (ok → m.at' = true → (∀ a ∈ c.sched, a.kind ≠ .motionCmd p.num n.val) → (c.ring p.num n.val).atDue = none →
        let r := c.schedule m.atEt (.motionCmd p.num n.val)
        exec i s = .next (s.withChip (if r.2 then r.1.complete p.num n.val 4 d [] else r.1))) ∧
      (ok → m.at' = false →
        exec i s = .next (s.withChip (c.setRing p.num n.val { c.ring p.num n.val with
          atDue := some ((c.ring p.num n.val).atDue.getD c.nextDue) })))) ∧
  (∀ (c : Chip) (p n : Nat), p < 2 → n < 64 → (c.ring p n).atDue.getD 0 < c.nextDue ∧
    ((p, n) ∈ c.dueRings ↔ (c.ring p n).atDue.isSome = true ∨
      ∃ a ∈ c.sched, a.kind = .motionCmd p n ∧ (a.stepped = true ∨ wrapDiff a.target c.now ≤ 0))) ∧
  (∀ c : Chip, ∃ held passed : List (Nat × Nat), c.dueRings = held ++ passed ∧ (∀ r ∈ held, (c.ring r.1 r.2).atDue.isSome = true) ∧
    held.Pairwise (fun r q => (c.ring r.1 r.2).atDue.getD 0 ≤ (c.ring q.1 q.2).atDue.getD 0) ∧
    passed.Sublist ((runOrder c.sched).filterMap fun a => match a.kind with
      | .motionCmd p n => some (p, n)
      | _ => none)) ∧
  (∀ c : Chip, c.tickCommands = c.dueRings.foldl (fun (e : Chip) r => e.ringActs r.1 r.2) c) ∧
  (∀ (c : Chip) (p n : Nat) (d : List Byte), c.headOp p n (leField d 0 1) = some d → (c.ring p n).acted = false →
    let op := leField d 0 1
    let m := motCmd d
    let e := c.forgetCmd p n
    let pos := leBytes 4 (unsigned 32 (stepOf (c.axis m.axis).pos))
    (c.motRefusal op m = none → c.ringActs p n = (e.motApply op m).completeCmd p n 0 d (leBytes 4 0 ++ pos)) ∧
    (∀ r, c.motRefusal op m = some r → c.ringActs p n =
      if r = 3 ∧ (op = 0x20 ∨ op = 0x21) then e.complete p n 3 d (leBytes 4 0 ++ pos) else e.complete p n 2 d (leBytes 4 r))) ∧
  (∀ (c : Chip) (op : Nat) (m : MotCmd),
    let a := m.axis
    let out := c.get (Reg.MOT_AX_CFG_OUT a)
    (c.owns = false → c.motRefusal op m = some 7) ∧
    (c.owns = true → out = 0 → c.motRefusal op m = some 1) ∧
    (c.owns = true → out ≠ 0 → c.inFault a = true → op ≠ 0x25 → op ≠ 0x22 → c.motRefusal op m = some 6) ∧
    (c.owns = true → out ≠ 0 → c.inFault a = false → c.axMode a ∉ opModes op → c.motRefusal op m = some 2) ∧
    (c.owns = true → out ≠ 0 → c.inFault a = false → c.axMode a ∈ opModes op → opAtRest op = true → c.atRest a = false →
      c.motRefusal op m = some 3) ∧
    (c.owns = true → out ≠ 0 → c.inFault a = false → c.axMode a ∈ opModes op → (opAtRest op = true → c.atRest a = true) →
      c.bound a = false → m.b ≠ 0 → m.c ≤ 3 → c.get (Reg.MOT_ENC_CFG_MODE m.c) ≠ 0 → (c.axis a).queue.length < 16 →
      (c.axis a).changes.length < 4 → c.flag (Reg.MOT_AX_STATUS_LIMP a) = false → c.flag (Reg.MOT_AX_STATUS_LIMN a) = false →
      (c.flag (Reg.MOT_AX_LIMCFG_HOME_SRC a) = true → (c.axis a).homeAct = false) → c.motRefusal op m = none))

/-- R337, R342 to R346, R354, R355, R360: what an accepted command does to its axis, and that it changes no other axis and no register but
those of its axis and MOT.STATUS. (What the operands bind, and homing: log entries 43 and 45; the axis's own data are the model's: log
entry 42.) -/
def Obligations.MotionCommandsActOnTheirAxis : Prop :=
  ∀ (c : Chip) (m : MotCmd), m.axis < 8 →
    let a := m.axis
    let x := c.axis a
    let after := fun (op : Nat) => (c.motApply op m).axis a
    let get := fun (op : Nat) (f : Field) => (c.motApply op m).get f
    let limits := fun (y : Axis) => y.mv = m.b ∧ y.ma = m.c ∧ y.mj = m.d
    (∀ op b, b ≠ a → (c.motApply op m).axis b = c.axis b) ∧
    (∀ op, { c with axes := (c.motApply op m).axes }.sameBut5 (c.motApply op m)) ∧
    (∀ op (f : Field), f.lo < 32 → (f.off < 0x20000 ∨ 0x22000 ≤ f.off) → f.off ≠ Reg.MOT_STATUS_MOVING.off →
      (f.off < 0xC1000 + 0x100 * a ∨ 0xC1100 + 0x100 * a ≤ f.off) → get op f = c.get f) ∧
    (x.near m.a ≠ x.pos → (after 0x20).target = some (x.near m.a) ∧ limits (after 0x20)) ∧
    (x.near m.a = x.pos → (after 0x20).target = x.target ∧ c.tells (c.motApply 0x20 m) (160 + a) 1) ∧
    (m.a ≠ 0 → (after 0x21).target = some (x.pos + m.a * 4294967296) ∧ limits (after 0x21)) ∧
    (m.a = 0 → (after 0x21).target = x.target ∧ c.tells (c.motApply 0x21 m) (160 + a) 1) ∧
    (get 0x22 (Reg.MOT_AX_VMAX_VALUE a) = (if m.b = 0 then c.get (Reg.MOT_AX_VMAX_VALUE a) else min m.b 1024000000) ∧
      get 0x22 (Reg.MOT_AX_AMAX_VALUE a) = (if m.c = 0 then c.get (Reg.MOT_AX_AMAX_VALUE a) else m.c % 2 ^ 32) ∧
      get 0x22 (Reg.MOT_AX_JMAX_VALUE a) = (if m.d = 0 then c.get (Reg.MOT_AX_JMAX_VALUE a) else m.d % 2 ^ 32) ∧
      (after 0x22).target = x.target) ∧
    (after 0x23).vset = m.a ∧
    (x.near m.a ≠ x.queueEnd → (after 0x24).queue = x.queue ++ [(x.near m.a, m.b)]) ∧
    (x.near m.a = x.queueEnd → (after 0x24).queue = x.queue) ∧
    ((after 0x25).target = none ∧ (after 0x25).queue = [] ∧ (after 0x25).changes = [] ∧ (after 0x25).vset = 0 ∧ (after 0x25).stage = 0 ∧
      get 0x25 (Reg.MOT_AX_STATUS_MODE a) = (if c.axMode a = 4 then x.prior % 8 else if c.axMode a = 5 then 1 else c.axMode a) ∧
      (c.axMode a = 5 → get 0x25 (Reg.MOT_AX_STATUS_HOMED a) = 0) ∧
      (after 0x25).slow = (if x.vel = 0 ∧ x.acc = 0 then 0 else max x.slow 1)) ∧
    ((after 0x26).num = m.a ∧ (after 0x26).den = m.b ∧ (after 0x26).enc = m.c ∧ (after 0x26).p0 = x.pos ∧
      (after 0x26).m0 = c.get (Reg.MOT_ENC_COUNT_COUNT m.c) ∧ (after 0x26).changes = [] ∧ (after 0x26).prior = c.axMode a ∧
      get 0x26 (Reg.MOT_AX_STATUS_MODE a) = 4) ∧
    (x.changes = [] → x.reached = 0 →
      let now := c.get (Reg.MOT_ENC_COUNT_COUNT x.enc)
      (unsigned 32 m.e ≠ now → (after 0x27).changes = [⟨m.a, m.b, unsigned 32 m.e⟩] ∧ (after 0x27).num = x.num) ∧
      (unsigned 32 m.e = now → (after 0x27).changes = [] ∧ (after 0x27).num = m.a ∧ (after 0x27).den = m.b ∧ (after 0x27).m0 = now ∧
        (after 0x27).p0 = x.gearPos now ∧ c.tells (c.motApply 0x27 m) (160 + a) 4)) ∧
    ((after 0x28).stage = 1 ∧ (after 0x28).hneg = m.neg ∧ (after 0x28).hstart = x.pos ∧ (after 0x28).homeIn = x.homeIn ∧
      (after 0x28).hofs = m.a * 4294967296 ∧
      (after 0x28).hpos = m.e * 4294967296 ∧ get 0x28 (Reg.MOT_AX_STATUS_MODE a) = 5) ∧
    (get 0x29 (Reg.MOT_AX_STATUS_MODE a) = m.c % 8 ∧ (after 0x29).pos = x.pos) ∧
    ((after 0x2A).pos = m.a * 4294967296 ∧ (after 0x2A).out = m.a)

/-- R346, R359, R362, R363: an axis put in FAULT shows it with its cause, ends its move, queue, gearing or homing, and raises its event; a
qualified limit ahead of a moving axis, though it be in FAULT HOME_NOT_FOUND, is a fault of cause LIMIT; ESTOP shows at once, and at the
next motion tick puts every axis in FAULT with cause ESTOP; ESTOP_CLR clears ESTOP; CLEAR_FAULT ends the fault of an axis at rest, of an
ESTOP only after ESTOP_CLR, and is discarded otherwise. (How limits and homing are judged: log entry 45.) -/
def Obligations.FaultsStopTheirAxis : Prop :=
  (∀ (c : Chip) (a cause : Nat), a < 8 → cause < 8 →
    let d := c.axisFault a cause
    d.get (Reg.MOT_AX_STATUS_FAULT a) = 1 ∧ d.get (Reg.MOT_AX_STATUS_FAULT_CAUSE a) = cause ∧ d.bitOf Reg.MOT_STATUS_FAULT a = true ∧
    (d.axis a).target = none ∧ (d.axis a).queue = [] ∧ (d.axis a).changes = [] ∧ (d.axis a).vset = 0 ∧
    (c.axMode a = 5 → d.axMode a = 1) ∧ c.tells d (160 + a) 2 ∧ (∀ b, b ≠ a → d.axis b = c.axis b) ∧
    ((cause = 5 ∨ cause = 6) → (d.axis a).vel = 0)) ∧
  (∀ (c : Chip) (a : Nat) (limp limn : Bool) (gpio : BitVec 64), a < 8 →
    c.flag (Reg.MOT_AX_LIMCFG_LIMP_EN a) = true → c.flag (Reg.MOT_AX_STATUS_LIMP a) = true → c.deaf a false false = false →
    (limp == c.flag (Reg.MOT_AX_LIMCFG_LIMP_POL a)) = true → c.axMode a ≠ 5 → (c.inFault a = false ∨ c.faultedBy a 3 = true) → 0 < (c.axis a).vel →
    (c.limitTick a limp limn gpio).get (Reg.MOT_AX_STATUS_FAULT_CAUSE a) = 1) ∧
  (∀ (p : Port) (v : Word) (s : State), s.awake → v.getLsbD 0 = true → v.getLsbD 1 = false →
    exec (.estop p v) s = .next (s.withChip
      (({ s.toChip.put Reg.MOT_STATUS_ESTOP 1 with estopDue := true } : Chip).raise 175 0 []))) ∧
  (∀ c : Chip, (c.estopDue = false → c.estopAll = c) ∧ (c.estopDue = true →
    let d := c.estopAll
    d.estopDue = false ∧ ∀ a, a < 8 → d.inFault a = true ∧ d.get (Reg.MOT_AX_STATUS_FAULT_CAUSE a) = 7 ∧ (d.axis a).target = none ∧
      (d.axis a).queue = [] ∧ (c.axMode a = 5 → d.get (Reg.MOT_AX_STATUS_HOMED a) = 0))) ∧
  (∀ (p : Port) (v : Word) (s : State), s.awake → v.getLsbD 0 = false → v.getLsbD 1 = true →
    exec (.estopClr p v) s = .next (s.withChip ((s.toChip.put Reg.MOT_STATUS_ESTOP 0).raise 175 0 []))) ∧
  (∀ (p : Port) (a : Fin 8) (v : Word) (s : State), s.awake → v.getLsbD 0 = true → v.getLsbD 1 = false →
    let c := s.toChip
    let able := c.inFault a.val = true ∧ c.atRest a.val = true ∧
      ¬(c.get (Reg.MOT_AX_STATUS_FAULT_CAUSE a.val) = 7 ∧ c.flag Reg.MOT_STATUS_ESTOP = true)
    (¬able → exec (.clearFault p a v) s = .next s) ∧
    (able → ∃ d, exec (.clearFault p a v) s = .next (s.withChip d) ∧ d.inFault a.val = false ∧ d.axMode a.val = 1 ∧
      d.get (Reg.MOT_AX_STATUS_FAULT_CAUSE a.val) = 0 ∧ d.bitOf Reg.MOT_STATUS_FAULT a.val = false ∧
      c.onlyRegs d [(Reg.MOT_AX_STATUS_MODE a.val).off, Reg.MOT_STATUS_FAULT.off]))

/-- R332: a write of a count is held until the next motion tick, at which it sets the count and forgets the edges before, and restarts the
estimator where it is the traverse encoder's; while the cornice is not IDLE a write of the traverse encoder's count is discarded with the
encoder's event. R351: USTEP_SWAP makes the shadow tables active where TA does not rise and TB does not fall, and raises EV173 with the
table and the entry otherwise. R334, R347 to R350, R352, R353: a motion tick comes at the next whole microsecond of ET and shows the GPIO
levels; a step pulse moves the output position by one step in the direction of the axis, which at rest and in GEARED is towards its
position, and no step goes out in MODE 0 or below P2; the current goes to HOLD 100 ms after rest; a DRV frame is sent at its tick,
FRAME_US after the one before, with the next SEQ from 0 on, checked from the third on: one that is wrong counts, and ERR_N in a row put
the line's axes in FAULT with cause 5. (When a count write acts, and one DRV frame a row: log entries 47 and 48.) -/
def Obligations.CountsTicksAndSteps : Prop :=
  ((∀ (p : Port) (n : Fin 4) (v : Word) (s : State), s.awake →
    let c := s.toChip
    (c.get Reg.CRN_TRAV_CFG_ENC = n.val → c.get Reg.CRN_STATUS_STATE ≠ 0 →
      exec (.encCountWrite p n v) s = .next (s.withChip (c.raise (168 + n.val) 0 []))) ∧
    ((c.get Reg.CRN_TRAV_CFG_ENC ≠ n.val ∨ c.get Reg.CRN_STATUS_STATE = 0) →
      exec (.encCountWrite p n v) s = .next (s.withChip (c.setEnc n.val { c.enc n.val with write := some v.toNat })))) ∧
  (∀ (c : Chip) (n : Nat), n < 4 → ((c.enc n).write = none → c.setCount n = c) ∧ ∀ v, (c.enc n).write = some v →
    let d := c.setCount n
    d.get (Reg.MOT_ENC_COUNT_COUNT n) = v % 2 ^ 32 ∧ (d.enc n).recent = [] ∧ (d.enc n).write = none ∧
    (∀ m, m ≠ n → d.enc m = c.enc m) ∧ d.layers = c.layers ∧
    (c.get Reg.CRN_TRAV_CFG_ENC = n → d.est.window = [] ∧ d.est.fitted = false ∧ d.est.ext = none) ∧
    (c.get Reg.CRN_TRAV_CFG_ENC ≠ n → d.est = c.est)) ∧
  (∀ (limp limn : BitVec 8) (gpio : BitVec 64) (s : State), s.toChip.get Reg.CKP_STATUS_PSTATE ≤ 2 →
    ∃ d, exec (.motionTick limp limn gpio) s = .next (s.withChip d) ∧ ∀ n, n < 4 → (d.enc n).write = none) ∧
  (∀ (p : Port) (a : Fin 8) (v : Word) (s : State), s.awake → v.getLsbD 0 = false → v.getLsbD 1 = true →
    let c := s.toChip
    let t := c.shadowTable a.val
    let fine := (∀ i, i < 255 → t.getD (i + 1) 0 ≤ t.getD i 0) ∧ ∀ i, i < 255 → t.getD (256 + i) 0 ≤ t.getD (256 + i + 1) 0
    (fine → exec (.ustepSwap p a v) s = .next (s.withChip (c.setAxis a.val { c.axis a.val with ustep := some t }))) ∧
    (¬fine → ∃ table i, table < 2 ∧ i < 255 ∧ ¬(if table = 0 then t.getD (i + 1) 0 ≤ t.getD i 0
        else t.getD (256 + i) 0 ≤ t.getD (256 + i + 1) 0) ∧
      exec (.ustepSwap p a v) s = .next (s.withChip (c.raise 173 0 [(1, a.val), (1, table), (1, i)])))) ∧
  (∀ (c : Chip) (a w : Nat), w < 256 → (c.shadowTable a).length = 512 ∧ (c.shadowTable a).getD (2 * w) 0 = c.get (Reg.MOT_USTEP_LOW a w) ∧
    (c.shadowTable a).getD (2 * w + 1) 0 = c.get (Reg.MOT_USTEP_HIGH a w))) ∧
  ((∀ (limp limn : BitVec 8) (gpio : BitVec 64) (s : State), s.toChip.get Reg.CKP_STATUS_PSTATE ≤ 2 →
    let ns := s.toChip.wraps * 2 ^ 48 + ((s.toChip.now.toNat / 65536 : Nat) : Int)
    let e := s.toChip.advanceToEt (BitVec.ofInt 64 ((floorDiv ns 1000 + 1) * 65536000))
    ∃ d, exec (.motionTick limp limn gpio) s = .next (s.withChip d) ∧ d.clk = e.clk ∧ d.et = e.et ∧
      d.get (Reg.IOX_GPIO_IN_BITS 0) = gpio.toNat % 2 ^ 32 ∧ d.get (Reg.IOX_GPIO_IN_BITS 1) = gpio.toNat / 2 ^ 32 ∧
      d.layers = s.toChip.layers ∧ d.run = s.toChip.run ∧
      (∀ a, a < 8 → d.flag (Reg.MOT_AX_STATUS_MOVING a) = !d.atRest a ∧
        d.get (Reg.MOT_AX_POS_POS a) = unsigned 32 (d.axis a).out ∧ (d.axis a).tickAt = d.clk)) ∧
  (∀ (a : Fin 8) (s : State) (t : Nat), (s.toChip.axis a.val).stepDue = some t → s.toChip.get (Reg.MOT_AX_CFG_OUT a.val) = 1 →
    s.toChip.flag Reg.MOT_STATUS_OUTPUT_EN = true → s.toChip.axMode a.val ≠ 0 → s.toChip.get Reg.CKP_STATUS_PSTATE ≤ 2 →
    let e := s.toChip.advanceTo t
    let x := s.toChip.axis a.val
    ∃ d, exec (.stepPulse a) s = .next (s.withChip d) ∧ (d.axis a.val).out = x.out + (if x.neg then -1 else 1) ∧
      (d.axis a.val).lastStep = e.clk ∧ d.get (Reg.MOT_AX_POS_POS a.val) = unsigned 32 (d.axis a.val).out ∧
      (∃ width, d.out = e.out ++ [.step a.val (x.neg != e.flag (Reg.MOT_AX_CFG_DIR_INV a.val)) width] ∧
        width ≤ e.get (Reg.MOT_AX_CFG_PW a.val)) ∧
      { e with axes := d.axes, out := d.out }.onlyRegs d [(Reg.MOT_AX_POS_POS a.val).off] ∧ (∀ b, b ≠ a.val → d.axis b = e.axis b)) ∧
  (∀ (a : Fin 8) (s : State), (s.toChip.axis a.val).stepDue = none ∨ s.toChip.axMode a.val = 0 ∨
    s.toChip.flag Reg.MOT_STATUS_OUTPUT_EN = false ∨ 2 < s.toChip.get Reg.CKP_STATUS_PSTATE → exec (.stepPulse a) s = .next s) ∧
  (∀ (c : Chip) (a : Nat),
    let x := c.axis a
    let y := (c.loadTimer a).axis a
    let lag := stepOf x.pos - x.out
    (0 < x.vel → y.neg = false) ∧ (x.vel < 0 → y.neg = true) ∧ (x.vel = 0 → 0 < lag → y.neg = false) ∧
    (x.vel = 0 → x.pos ≤ (x.out - 1) * 4294967296 → y.neg = true) ∧
    (c.axMode a = 4 ∨ x.vel = 0 → y.stepDue ≠ none → if y.neg then lag < 0 else 0 < lag)) ∧
  (∀ (a : Fin 8) (s : State),
    let c := s.toChip
    let x := c.axis a.val
    (c.atRest a.val = false ∨ x.hold = true → exec (.holdCurrent a) s = .next s) ∧
    (c.atRest a.val = true → x.hold = false → c.get Reg.CKP_STATUS_PSTATE ≤ 2 → exec (.holdCurrent a) s =
      .next (s.withChip ((c.advanceTo (x.restSince + 100000000)).setAxis a.val { x with hold := true })))) ∧
  (∀ (n : Fin 4) (di : List Byte) (s : State),
    let c := s.toChip
    let l : DrvLine := SMap.get {} n.val c.drv
    let seq := (l.seq + 1) % 256
    let on := c.flag (Reg.MOT_DRV_CFG_ENABLE n.val) = true ∧ c.flag Reg.MOT_STATUS_OUTPUT_EN = true ∧
      c.get Reg.CKP_STATUS_PSTATE ≤ 2
    let start := c.frameAt n.val
    let e := c.advanceToEt start
    let axes := e.lineAxes n.val
    let body := [0xA5, BitVec.ofNat 8 seq, BitVec.ofNat 8 axes.length] ++ axes.flatMap e.drvRecord
    let next := start + BitVec.ofNat 64 (65536000 * c.get (Reg.MOT_DRV_CFG_FRAME_US n.val))
    let sent := (e.emit (.drv n.val (body ++ beBytes2 (crc16 body)))).put (Reg.MOT_DRV_STATUS_SEQ n.val) seq
    let sent := { sent with drv := SMap.set {} n.val (DrvLine.mk (min 2 l.frames + 1) axes.length seq (some next)) c.drv }
    (l = {} → seq = 0) ∧ (l.due = none → start = c.nextTick) ∧ (∀ t, l.due = some t → 0 ≤ wrapDiff t c.now → start = t) ∧
    (¬on → exec (.drvFrame n di) s = .next s) ∧
    (on → l.frames < 2 → exec (.drvFrame n di) s = .next (s.withChip sent)) ∧
    (on → 2 ≤ l.frames → drvGood l di = true →
      exec (.drvFrame n di) s = .next (s.withChip ((sent.put (Reg.MOT_DRV_STATUS_RUN n.val) 0).drvStat n.val di))) ∧
    (on → 2 ≤ l.frames → drvGood l di = false → ∃ d, exec (.drvFrame n di) s = .next (s.withChip d) ∧
      d.get (Reg.MOT_DRV_ERR_COUNT n.val) = min (c.get (Reg.MOT_DRV_ERR_COUNT n.val) + 1) (2 ^ (Reg.MOT_DRV_ERR_COUNT n.val).width - 1) ∧
      d.get (Reg.MOT_DRV_STATUS_RUN n.val) = min (c.get (Reg.MOT_DRV_STATUS_RUN n.val) + 1) 15 ∧
      (c.get (Reg.MOT_DRV_STATUS_RUN n.val) = 0 → d.bitOf (Reg.EVT_STATUS_RAISED 5) 12 = true) ∧
      (max 1 (c.get (Reg.MOT_DRV_CFG_ERR_N n.val)) ≤ c.get (Reg.MOT_DRV_STATUS_RUN n.val) + 1 →
        d.get (Reg.MOT_DRV_STATUS_FAULTED n.val) = 1 ∧ ∀ a ∈ axes, d.inFault a = true))))

/-- R375 to R377: a loop engine command whose SLOT is out of range or whose reserved fields are not 0 stops its ring with BAD_FIELD; one
with AT set is scheduled, or completes RANGE; a refused one completes with its reason and the slot's last v; one to a disabled slot takes
effect at once and completes with the slot's last v; one to an enabled slot waits for the slot's next evaluation. R376: what each loop
engine command does to its slot's registers, and that it changes no other slot's. DISABLE writes SAFE to the destination of a slot that is
disabled already too; ENABLE of an enabled slot has no effect. (A group's evaluation: log entry 49.) -/
def Obligations.LoopCommandsAreCheckedThenAct : Prop :=
  ((∀ (p : Port) (n : Fin 64) (op : Nat) (i : Instr),
    (op, i) ∈ [(0x40, Instr.loopEnable p n), (0x41, .loopDisable p n), (0x42, .setPoint p n), (0x43, .setCoef p n),
      (0x44, .loopSetLimits p n), (0x45, .setManual p n), (0x46, .setAuto p n), (0x47, .setInteg p n)] →
    ∀ (s : State) (d : List Byte), s.toChip.headOp p.num n.val op = some d → (s.toChip.ring p.num n.val).acted = false →
      let c := s.toChip
      let k := leField d 8 1
      let ok := k < 64 ∧ leField d 9 1 < 2 ∧ leField d 0xA 2 = 0 ∧ leField d 0x24 4 = 0
      let at' := bit (leField d 9 1) 0
      (¬ok → exec i s = .next (s.withChip (c.faultDesc p.num n.val 0x102))) ∧
      (ok → at' = true → (∀ a ∈ c.sched, a.kind ≠ .loopCmd p.num n.val) →
        let r := c.schedule (BitVec.ofNat 64 (leField d 0x28 8)) (.loopCmd p.num n.val)
        exec i s = .next (s.withChip (if r.2 then r.1.complete p.num n.val 4 d [] else r.1))) ∧
      (ok → at' = false → ∀ r, c.loopRefusal d = some r → exec i s = .next (s.withChip
        (c.complete p.num n.val 2 d (leBytes 4 r ++ leBytes 4 (c.get (Reg.LOP_LS_OUT_VALUE k)))))) ∧
      (ok → at' = false → c.loopRefusal d = none → c.slotOn k = false → exec i s = .next (s.withChip
        ((c.loopApply d).completeCmd p.num n.val 0 d (leBytes 4 0 ++ leBytes 4 ((c.loopApply d).get (Reg.LOP_LS_OUT_VALUE k)))))) ∧
      (ok → at' = false → c.loopRefusal d = none → c.slotOn k = true → exec i s = .next (s.withChip
        { c.setRing p.num n.val { c.ring p.num n.val with acted := true } with
          loopCmds := (c.loopCmds.filter fun q => decide (q ≠ (p.num, n.val))) ++ [(p.num, n.val)] }))) ∧
  (∀ (c : Chip) (d : List Byte),
    let op := leField d 0 1
    let k := leField d 8 1
    (c.owns = false → c.loopRefusal d = some 2) ∧
    (c.owns = true → c.slotConfigured k = false → c.loopRefusal d = some 1) ∧
    (c.owns = true → c.slotConfigured k = true → (op = 0x45 ∨ op = 0x46) → c.grouped k = true → c.loopRefusal d = some 3) ∧
    (c.owns = true → c.slotConfigured k = true → op = 0x44 → (loopV d 1 < loopV d 0 ∨ loopV d 2 < 0) → c.loopRefusal d = some 4) ∧
    (c.owns = true → c.slotConfigured k = true → op = 0x42 → loopV d 1 < 0 → c.loopRefusal d = some 4) ∧
    (c.owns = true → c.slotConfigured k = true → (op = 0x45 ∨ op = 0x46 → c.grouped k = false) →
      (op = 0x44 → loopV d 0 ≤ loopV d 1 ∧ 0 ≤ loopV d 2) → (op = 0x42 → 0 ≤ loopV d 1) → (op = 0x43 → leField d 0x20 4 < 2 ^ 25) →
      c.loopRefusal d = none))) ∧
  (∀ (c : Chip) (d : List Byte), leField d 8 1 < 64 →
    let k := leField d 8 1
    let op := leField d 0 1
    let e := c.loopApply d
    let clamp := fun (v : Int) => clampI v (c.getI (Reg.LOP_LS_OUTMIN_VALUE k)) (c.getI (Reg.LOP_LS_OUTMAX_VALUE k))
    (op ≠ 0x41 → ∀ f : Field, f.lo < 32 → f.off ≠ Reg.LOP_STATUS_ENABLED.off → (f.off < 0xD1000 + 0x80 * k ∨ 0xD1080 + 0x80 * k ≤ f.off) →
      e.get f = c.get f) ∧
    (op ≠ 0x41 → e = { c with regs := e.regs, slots := e.slots }) ∧
    (op = 0x40 → c.slotOn k = true → e = c) ∧
    (op = 0x40 → c.slotOn k = false → e.slotOn k = true ∧ e.getI (Reg.LOP_LS_INTEG_VALUE k) = clamp (loopV d 0) ∧
      (e.slot k).yPrev = none) ∧
    (op = 0x41 → e.slotOn k = false ∧ (c.grouped k = false → (e.slot k).last = c.getI (Reg.LOP_LS_SAFE_VALUE k)) ∧
      (c.grouped k = false → c.get (Reg.LOP_LS_DEST_KIND k) = 3 →
        e.getI (Reg.LOP_VAR_VALUE (c.get (Reg.LOP_LS_DEST_SEL k))) = c.getI (Reg.LOP_LS_SAFE_VALUE k))) ∧
    (op = 0x42 → e.getI (Reg.LOP_LS_SP_TGT_VALUE k) = loopV d 0 ∧ e.getI (Reg.LOP_LS_RAMP_VALUE k) = loopV d 1) ∧
    (op = 0x43 → e.getI (Reg.LOP_LS_KP_VALUE k) = loopV d 0 ∧ e.getI (Reg.LOP_LS_KI_VALUE k) = loopV d 1 ∧
      e.getI (Reg.LOP_LS_KD_VALUE k) = loopV d 2 ∧ e.getI (Reg.LOP_LS_KF_VALUE k) = loopV d 3 ∧ e.getI (Reg.LOP_LS_KT_VALUE k) = loopV d 4 ∧
      e.get (Reg.LOP_LS_SHIFT_SP k) = bits (leField d 0x20 4) 0 5 ∧ e.get (Reg.LOP_LS_SHIFT_ST k) = bits (leField d 0x20 4) 20 5) ∧
    (op = 0x44 → e.getI (Reg.LOP_LS_OUTMIN_VALUE k) = loopV d 0 ∧ e.getI (Reg.LOP_LS_OUTMAX_VALUE k) = loopV d 1 ∧
      e.getI (Reg.LOP_LS_SLEW_VALUE k) = loopV d 2 ∧ e.getI (Reg.LOP_LS_SAFE_VALUE k) = loopV d 3) ∧
    (op = 0x45 → e.flag (Reg.LOP_LS_STATUS_MANUAL k) = true ∧ (e.slot k).man = loopV d 0) ∧
    (op = 0x46 → e.flag (Reg.LOP_LS_STATUS_MANUAL k) = false) ∧
    (op = 0x47 → e.getI (Reg.LOP_LS_INTEG_VALUE k) = clamp (loopV d 0)))

/-- R364, R365, R370, R372, R378: an evaluation with an invalid source gives SAFE; else the control law's value, within SLEW of the value
last written, or within OUTMIN and OUTMAX where SLEW is 0; the destination receives it. A slot that is not configured, not enabled, or
while slots are not evaluated, is left as it is. A slot is due at the first tick of its DIV and PHASE it was not evaluated at, the slot
with the earliest due tick is served first, of one tick the lower slot, and an evaluation comes after the motion tick of its tick. (A
group's evaluation: log entry 49.) -/
def Obligations.EvaluationsStayWithinTheirLimits : Prop :=
  (∀ (c : Chip) (k : Nat) (last sp y ff : Int),
    let lo := c.getI (Reg.LOP_LS_OUTMIN_VALUE k)
    let hi := c.getI (Reg.LOP_LS_OUTMAX_VALUE k)
    let slew := c.getI (Reg.LOP_LS_SLEW_VALUE k)
    let r := c.law k last sp y ff
    (slew = 0 → lo ≤ hi → lo ≤ r.v ∧ r.v ≤ hi) ∧ (0 < slew → |r.v - last| ≤ slew) ∧
    (lo ≤ hi → lo ≤ r.i ∧ r.i ≤ hi) ∧ (lo ≤ hi → 0 < slew → lo ≤ last → last ≤ hi → lo ≤ r.v ∧ r.v ≤ hi)) ∧
  (∀ (c : Chip) (k : Nat) (last : Int), k < 64 →
    let src := c.source (c.get (Reg.LOP_LS_SRC_MEAS_KIND k)) (c.get (Reg.LOP_LS_SRC_MEAS_SEL k)) (c.get (Reg.LOP_LS_SRC_MEAS_ITEM k))
    let r := c.evalSlot k last
    r.1.get (Reg.LOP_LS_EVALS_COUNT k) = min (c.get (Reg.LOP_LS_EVALS_COUNT k) + 1) (2 ^ 32 - 1) ∧
    (src = none → r.2 = c.getI (Reg.LOP_LS_SAFE_VALUE k) ∧ r.1.flag (Reg.LOP_LS_STATUS_SRC_INVALID k) = true ∧
      r.1.getI (Reg.LOP_LS_OUT_VALUE k) = r.2 ∧
      (c.flag (Reg.LOP_LS_STATUS_SRC_INVALID k) = false → c.tells r.1 176 0)) ∧
    (∀ y, src = some y → r.1.flag (Reg.LOP_LS_STATUS_SRC_INVALID k) = false ∧ r.1.get (Reg.LOP_LS_MEAS_VALUE k) = unsigned 32 y ∧
      r.1.get (Reg.LOP_LS_OUT_VALUE k) = unsigned 32 r.2 ∧ (r.1.slot k).yPrev = some y)) ∧
  (∀ (k : Fin 64) (s : State),
    let c := s.toChip
    let runs := c.slotConfigured k.val = true ∧ c.slotOn k.val = true ∧ c.owns = true ∧ c.get Reg.CKP_STATUS_PSTATE ≤ 2 ∧
      c.flag Reg.CFG_STATUS_COMMITTED = true
    (¬runs → exec (.slotEvaluation k) s = .next s) ∧
    (runs → c.nextSlot = some k.val → c.dueTick k.val = c.loopTick → c.motionAt = some c.loopTick → c.grouped k.val = false →
      c.loopCmds = [] → c.sched = [] →
      let f := c.setSlot k.val { c.slot k.val with evalAt := some c.loopTick }
      let r := f.evalSlot k.val (f.slot k.val).last
      exec (.slotEvaluation k) s = .next (s.withChip ((r.1.writeDest k.val r.2).setSlot k.val { r.1.slot k.val with last := r.2 }))) ∧
    (runs → ∀ n, c.nextSlot = some n → k.val ∈ c.unitOf n → exec (.slotEvaluation k) s = .next (s.withChip (c.serveSlot n))) ∧
    (runs → ∃ n, c.nextSlot = some n)) ∧
  (∀ (c : Chip) (n : Nat), c.nextSlot = some n → n < 64 ∧ c.slotConfigured n = true ∧ c.slotOn n = true ∧
    ∀ m, m < 64 → c.slotConfigured m = true → c.slotOn m = true → c.dueTick n < c.dueTick m ∨ (c.dueTick n = c.dueTick m ∧ n ≤ m)) ∧
  (∀ (c : Chip) (k : Nat),
    let t := c.loopTick
    let div := max 1 (c.get (Reg.LOP_LS_SCHED_DIV k))
    let phase := c.get (Reg.LOP_LS_SCHED_PHASE k)
    let due := c.dueTick k
    phase < div → t ≤ due ∧ due % div = phase ∧ (due = t → (c.slot k).evalAt ≠ some t) ∧
      (∀ u, t ≤ u → u < due → u % div = phase → u = t ∧ (c.slot k).evalAt = some t)) ∧
  (∀ (c : Chip) (k : Nat),
    (c.dueTick k = c.loopTick → c.toDue k = c.afterTick) ∧
    (c.dueTick k ≠ c.loopTick → c.toDue k =
      (c.advanceToEt (BitVec.ofInt 64 ((c.dueTick k + c.tickBase) * 65536000))).afterTick) ∧
    (c.motionAt = some c.loopTick → c.afterTick = c) ∧ (c.motionAt ≠ some c.loopTick → c.afterTick = c.runTick c.limp c.limn
      (BitVec.ofNat 64 (c.get (Reg.IOX_GPIO_IN_BITS 0) + 4294967296 * c.get (Reg.IOX_GPIO_IN_BITS 1)))))

/-- R379 to R384: a conversion result of an input a running sequence names comes at the next tick of its sequence's entry, one entry a
tick, with the code of its voltage; it is shown with its SEQ and its validity by its window, whose changes raise EV180 and EV181; a duty
takes effect where the counter reaches PHASE, once for each time it does; SET and CLR change the bits written 1 that no feature claims,
EV183 tells those that one does, and a ball whose drive they change reads its new level. (AIN windows and whole-word GPIO writes: log
entries 50 and 51.) -/
def Obligations.InputsAndOutputsFollowTheirRules : Prop :=
  (∀ (ch : Fin 24) (nv : Nat) (s : State),
    let c := s.toChip
    let code := min 65535 (nv * 65536 / 1800000000)
    let valid := c.get (Reg.IOX_AIN_WIN_LO ch.val) ≤ code ∧ code ≤ c.get (Reg.IOX_AIN_WIN_HI ch.val)
    let n := c.get (Reg.IOX_ADC_SEQ_CFG_LEN (ch.val / 12)) + 1
    let t := c.adcTick ch.val
    let e := if t = c.loopTick then c else c.advanceToEt (BitVec.ofInt 64 ((t + c.tickBase) * 65536000))
    (c.converts ch.val = false → exec (.adcResult ch nv) s = .next s) ∧
    (c.converts ch.val = true → max c.loopTick (SMap.get 0 (ch.val / 12) c.adcAt) ≤ t ∧
      t < max c.loopTick (SMap.get 0 (ch.val / 12) c.adcAt) + n ∧ c.adcEntry (ch.val / 12) ((t + n - 1) % n) = ch.val % 12 ∧
      ∃ d, exec (.adcResult ch nv) s = .next (s.withChip d) ∧ d.clk = e.clk ∧ SMap.get 0 (ch.val / 12) d.adcAt = t + 1 ∧
      d.get (Reg.IOX_AIN_RES_CODE ch.val) = code ∧ (d.flag (Reg.IOX_AIN_RES_VALID ch.val) = true ↔ valid) ∧
      d.get (Reg.IOX_AIN_RES_SEQ ch.val) = (c.get (Reg.IOX_AIN_RES_SEQ ch.val) + 1) % 256 ∧
      (∀ k, k ∈ d.ainLeft ↔ if k = ch.val then ¬valid else k ∈ c.ainLeft) ∧
      (¬valid → ch.val ∉ c.ainLeft → d.bitOf (Reg.EVT_STATUS_RAISED 5) 20 = true) ∧
      (valid → ch.val ∈ c.ainLeft → d.bitOf (Reg.EVT_STATUS_RAISED 5) 21 = true) ∧
      e.keepsRegs d [(Reg.IOX_AIN_RES_CODE ch.val).off, Reg.LOP_VFF_G_G.off])) ∧
  (∀ (ch : Fin 32) (s : State),
    let c := s.toChip
    let on := c.flag (Reg.IOX_PWM_CFG_ENABLE ch.val) = true ∧ c.flag Reg.CFG_STATUS_COMMITTED = true ∧
      c.get Reg.CKP_STATUS_PSTATE ≤ 2
    let period := c.get (Reg.IOX_PWM_CFG_PERIOD ch.val)
    let passed := SMap.get 0 ch.val c.pwmPass
    (¬on → exec (.pwmDutyUpdate ch) s = .next s) ∧
    (on → 0 < period → ∃ m k, k = c.get (Reg.IOX_PWM_PHASE_TICKS ch.val) % period + m * period ∧
      passed ≤ m ∧ (c.clk - c.pwmStart) / 5 ≤ k ∧ (m = passed ∨ k < (c.clk - c.pwmStart) / 5 + period) ∧
      (let e : Chip := { c.advanceTo (c.pwmStart + 5 * k) with pwmPass := SMap.set 0 ch.val (m + 1) c.pwmPass }
       let d := e.put (Reg.IOX_PWM_NOW_TICKS ch.val) (e.dutyWritten ch.val)
       exec (.pwmDutyUpdate ch) s = .next (s.withChip
         (if c.flag Reg.MOT_STATUS_OUTPUT_EN && decide (c.pstate ≠ 3) then d.emit (.pwm ch.val (e.dutyWritten ch.val)) else d))))) ∧
  (∀ (p : Port) (hi : Bool) (v : Word) (s : State), s.awake →
    let c := s.toChip
    let f := Reg.IOX_GPIO_OUT_BITS (b2n hi)
    let claimed := fun (k : Nat) => bit (c.get (Reg.IOX_GPIO_CLAIMED_BITS (b2n hi))) k
    let reads := fun (d : Chip) => ∀ k, k < 32 → d.bitOf (Reg.IOX_GPIO_IN_BITS (b2n hi)) k =
      if d.gpioBall (b2n hi) k = c.gpioBall (b2n hi) k then c.bitOf (Reg.IOX_GPIO_IN_BITS (b2n hi)) k
      else (d.gpioBall (b2n hi) k).getD (c.bitOf (Reg.IOX_GPIO_IN_BITS (b2n hi)) k)
    (∃ d, exec (.gpioSet p hi v) s = .next (s.withChip d) ∧
      (∀ k, k < 32 → bit (d.get f) k = (bit (c.get f) k || (bit v.toNat k && !claimed k))) ∧
      ((∃ k, k < 32 ∧ bit v.toNat k = true ∧ claimed k = true) → c.tells d 183 0) ∧ reads d ∧
      c.keepsRegs d [f.off, (Reg.IOX_GPIO_IN_BITS (b2n hi)).off] ∧ c.out <+: d.out) ∧
    (∃ d, exec (.gpioClr p hi v) s = .next (s.withChip d) ∧
      (∀ k, k < 32 → bit (d.get f) k = (bit (c.get f) k && !(bit v.toNat k && !claimed k))) ∧
      ((∃ k, k < 32 ∧ bit v.toNat k = true ∧ claimed k = true) → c.tells d 183 0) ∧ reads d ∧
      c.keepsRegs d [f.off, (Reg.IOX_GPIO_IN_BITS (b2n hi)).off] ∧ c.out <+: d.out))

/-! ### Tandem -/

/-- R415, R417, R439, R441 to R443: gaining ownership asserts the claim, drives the outputs (a primary only once CLAIM_S is deasserted),
and raises EV208; losing it deasserts the claim, drives nothing, ends tracking and takes every READY lane back to LINKED. Assumes of the
last heartbeat held that it is no longer than its format, and, for the registers a loss leaves, that nothing waits for the partner. R415,
R416, R426, R439, R445, R446: what a claim line, TAKE, the watchdog and the end of the start wait do to ownership, that a standby which
becomes FIT with its partner's claim down takes over, and that both claims asserted for more than 1 µs outside take-back raise EV220.
(Moments in the state machine: log entry 55.) -/
def Obligations.OwnershipFollowsTheClaims : Prop :=
  ((∀ (c : Chip) (st cause : Nat), st < 8 → cause < 256 → (∀ m ∈ c.tdm.last, m.axes.length ≤ 8) →
    let d := c.gain st cause
    d.get Reg.TDM_STATUS_CLAIM_OUT = 1 ∧ d.owns = true ∧ d.tdmState = st ∧ d.tracked = false ∧ Output.claim true ∈ d.out ∧
    d.bitOf (Reg.EVT_STATUS_RAISED 6) 16 = true ∧ d.run = c.run ∧ d.tdm.startDue = none ∧ d.tdm.goAt = none ∧ d.tdm.hold = false ∧
    d.tdm.rxSeq = none ∧ d.tdm.firnHeard = none ∧ d.tdm.later = [] ∧
    d.flag Reg.MOT_STATUS_OUTPUT_EN = !(c.flag Reg.TDM_STATUS_PRI && c.flag Reg.TDM_STATUS_CLAIM_S_IN)) ∧
  ∀ c : Chip,
    let d := c.dropClaim
    Output.claim false ∈ d.out ∧ d.tracked = false ∧ d.frames = [] ∧ d.tdm.takes = [] ∧ d.tdm.taking = false ∧ d.tdm.rxSeq = none ∧
    (c.mirrorWait = [] → c.tdm.hbWait = [] → c.loopCmds = [] → c.frames = [] →
      d.get Reg.TDM_STATUS_CLAIM_OUT = 0 ∧ d.owns = false ∧ d.tdmState = c.tdmState ∧ d.get Reg.MOT_STATUS_OUTPUT_EN = 0 ∧
      d.get Reg.ETM_STATUS_INLAYER = 0 ∧ (∀ n, n < 48 → d.laneState n = if c.laneState n = 3 then 2 else c.laneState n))) ∧
  ((∀ (p level : Bool) (s : State), s.awake →
    let c := s.toChip
    let pri := c.flag Reg.TDM_STATUS_PRI
    exec (.claimLineChange p level) s = .next (s.withChip (c.claimLine p level)) ∧
    (c.claimLine p level).flag (if p then Reg.TDM_STATUS_CLAIM_P_IN else Reg.TDM_STATUS_CLAIM_S_IN) = level ∧
    ((p = pri ∨ c.inPair = false) → (c.claimLine p level).owns = c.owns ∧ (c.claimLine p level).tdmState = c.tdmState ∧
      (c.claimLine p level).out = c.out) ∧
    (p ≠ pri → c.inPair = true → level = true → c.owns = true → pri = false →
      (c.claimLine p level).tdmState = (if c.get Reg.TDM_STATUS_WIDTH < 2 then 5 else if c.tdm.goAt.isSome then 4 else 3) ∧
      (c.claimLine p level).tracked = false ∧ Output.claim false ∈ (c.claimLine p level).out ∧
      (c.tdm.goAt.isSome = true → (c.claimLine p level).bitOf (Reg.EVT_STATUS_RAISED 6) 17 = true ∧
        (c.claimLine p level).bitOf (Reg.EVT_STATUS_RAISED 6) 18 = true ∧ (c.claimLine p level).tdm.hold = false)) ∧
    (p ≠ pri → c.inPair = true → level = true → (c.owns = false ∨ pri = true) → c.tdmState = 1 →
      (c.claimLine p level).tdmState = (if 2 ≤ c.get Reg.TDM_STATUS_WIDTH then 3 else 5) ∧ (c.claimLine p level).tdm.startDue = none ∧ (c.claimLine p level).owns = c.owns) ∧
    (p ≠ pri → c.inPair = true → level = false → c.tdmState = 4 → (∀ m ∈ c.tdm.last, m.axes.length ≤ 8) →
      let d := c.claimLine p level
      d.owns = true ∧ d.tdmState = 2 ∧ d.get Reg.TDM_TAKEOVERS_COUNT = satAdd 32 (c.get Reg.TDM_TAKEOVERS_COUNT) 1 ∧
      Output.claim true ∈ d.out ∧ d.tdm.changes = [] ∧ d.bitOf (Reg.EVT_STATUS_RAISED 6) 16 = true)) ∧
  (∀ c : Chip,
    (c.get Reg.TDM_STATUS_WIDTH < 2 → c.becomeFit.tdmState = 5) ∧
    (2 ≤ c.get Reg.TDM_STATUS_WIDTH → c.otherClaim = true → c.becomeFit.tdmState = 4 ∧ c.becomeFit.owns = c.owns) ∧
    (2 ≤ c.get Reg.TDM_STATUS_WIDTH → c.otherClaim = false → (∀ m ∈ c.tdm.last, m.axes.length ≤ 8) →
      c.becomeFit.tdmState = 2 ∧ c.becomeFit.owns = true)) ∧
  (∀ (p : Port) (v : Word) (s : State), s.awake → v.getLsbD 0 = true → v.getLsbD 1 = false →
    let c := s.toChip
    let no := c.owns = true ∨ c.otherClaim = true ∨ c.tdmState = 0 ∨ c.tdmState = 6
    (no → exec (.take p v) s = .next s) ∧
    (¬no → (∀ m ∈ c.tdm.last, m.axes.length ≤ 8) →
      ∃ d, exec (.take p v) s = .next (s.withChip d) ∧ d.owns = true ∧ d.tdmState = 2 ∧ d.layers = [] ∧
        d.recent = c.recent)) ∧
  (∀ s : State,
    let c := s.toChip
    (c.get Reg.TDM_STATUS_CLAIM_OUT = 0 → exec .watchdog s = .next s) ∧
    (c.get Reg.TDM_STATUS_CLAIM_OUT = 1 →
      let e := (c.advance (1000 * c.get Reg.TDM_CFG_WDOG_US)).dropClaim
      exec .watchdog s =
        .next (s.withChip { e with wdogLoss := true, island := { e.island with wdogDue := some (e.clk + 1000000) } }))) ∧
  (∀ (s : State) (t : Nat), s.toChip.tdm.startDue = some t →
    let c := s.toChip
    (c.tdmState = 1 → ∃ d, exec .startWaitEnd s = .next (s.withChip d) ∧ d.clk = max c.clk t ∧ d.owns = true ∧ d.tdmState = 2) ∧
    (c.tdmState ≠ 1 → exec .startWaitEnd s = .next s)) ∧
  (∀ s : State, s.toChip.tdm.startDue = none → exec .startWaitEnd s = .next s) ∧
  (∀ s : State,
    let c := s.toChip
    (∀ t, c.tdm.bothSince = some t → c.tdmState ≠ 6 → c.tdm.goAt = none → c.tdm.backing = false →
      exec .bothClaims s = .next (s.withChip ((c.advanceTo (t + 1001)).raise 220 0 []))) ∧
    ((c.tdm.bothSince = none ∨ c.tdmState = 6 ∨ c.tdm.goAt.isSome = true ∨ c.tdm.backing = true) → exec .bothClaims s = .next s)))

/-- R427, R428, R431: a heartbeat goes every 100 µs and carries the completions that wait for one; a heartbeat received says what the
partner is; a partner not heard, or that leaves an item waiting, is told unfit by an owner, and stays so whatever its heartbeats say; and
makes a tracking standby STALE. R427: a completion waits for the partner while it tracks and is at once otherwise; an acknowledgement ends
what it covers. R422, R423: a frame is taken once, and acknowledges back. R428, R438: a mismatch tells the partner unfit, and a standby
reports its health once a second. (Frames' bodies and their one SEQ series: log entry 54.) -/
def Obligations.ThePairKeepsItsWord : Prop :=
  ((∀ s : State, (s.toChip.inPair = false ∨ s.toChip.tdmState = 0 ∨ 2 < s.toChip.pstate) → exec .heartbeatSend s = .next s) ∧
  (∀ s : State, s.toChip.inPair = true → s.toChip.tdmState ≠ 0 → s.toChip.pstate ≤ 2 → s.toChip.tdm.hold = false →
    let c := s.toChip
    ∃ (d : Chip) (k : TFrame), exec .heartbeatSend s = .next (s.withChip d) ∧ d.clk = max c.clk c.tdm.hbDue ∧
      d.tdm.hbDue = c.tdm.hbDue + 100000 ∧ d.mirrorSeq = (c.mirrorSeq + 1) % 2 ^ 32 ∧ d.tdm.kept = c.tdm.kept ++ [k] ∧ k.type = 1 ∧
      k.seq = c.mirrorSeq ∧ (d.bondLanes ≠ [] → ∃ lanes, Output.tandem 1 k.bytes lanes ∈ d.out ∧ lanes.map (·.1) = d.bondLanes) ∧ d.tdm.hbWait = [] ∧
      d.mirrorWait = c.mirrorWait ++ c.tdm.hbWait.map (fun (w : MirrorWait) => { w with seq := c.mirrorSeq % 2 ^ 32 })) ∧
  (∀ (m : HeartbeatMsg) (s : State),
    let c := s.toChip
    let r := c.rxFrame m.frame 1
    let e := r.1
    ((c.inPair = false ∨ r.2 = false) → exec (.heartbeat m) s = .next s) ∧
    (c.inPair = true → r.2 = true → ∃ d, exec (.heartbeat m) s = .next (s.withChip d) ∧ d.tdm.last = some m ∧ d.tdm.heard = e.clk ∧
      d.tdm.missTold = false ∧
      (m.fromOwner = e.owns → d.regs = e.regs ∧ d.tracked = e.tracked ∧ d.out = e.out) ∧
      (m.fromOwner = true → e.owns = false → d.get Reg.TDM_STATUS_PARTNER_FIT = b2n m.partnerFit ∧
        (e.tracking = true → m.digest.toNat ≠ e.digestNow → d.tdmState = 5 ∧ d.get Reg.TDM_STATUS_STALE_CAUSE = 7) ∧
        (e.tracking = true → m.digest.toNat = e.digestNow → m.partnerFit = false →
          d.tdmState = 5 ∧ d.get Reg.TDM_STATUS_STALE_CAUSE = 6) ∧
        (e.tracking = true → m.digest.toNat = e.digestNow → m.partnerFit = true → d.tdmState = e.tdmState ∧ d.out = e.out)) ∧
      (m.fromOwner = false → e.owns = true → (m.state.val = 3 ∨ m.state.val = 4) →
        d.tracked = e.tdm.unfit.isNone ∧ d.tdm.unfit = e.tdm.unfit ∧
        d.get Reg.TDM_STATUS_PARTNER_FIT = b2n (e.tdm.unfit.isNone && decide (m.state.val = 4)) ∧
        (e.flag Reg.TDM_STATUS_PRI = false → d.flag Reg.TDM_STATUS_TAKEBACK_REQ = m.takebackReq)) ∧
      (m.fromOwner = false → e.owns = true → m.state.val ≠ 3 → m.state.val ≠ 4 → d.tracked = false ∧ d.tdm.unfit = e.tdm.unfit ∧
        (e.mirrorWait = [] → e.tdm.hbWait = [] → d.get Reg.TDM_STATUS_PARTNER_FIT = 0)))) ∧
  (∀ s : State,
    let c := s.toChip
    let e := (c.advanceTo (c.tdm.heard + 1000 * c.get Reg.TDM_CFG_HB_TO_US)).raise 213 0 []
    let no := c.inPair = false ∨ c.tdm.missTold = true ∨ (c.tdmState ≠ 2 ∧ (c.tracking = false ∨ c.otherClaim = false)) ∨ 2 < c.pstate
    (no → exec .heartbeatTimeout s = .next s) ∧
    (¬no → ∃ d, exec .heartbeatTimeout s = .next (s.withChip d) ∧ d.clk = e.clk ∧ d.tdm.missTold = true ∧
      (c.tdmState = 2 → c.tdm.unfit = none → d.tdm.unfit = some e.clk ∧ d.tracked = false ∧
        d.get Reg.TDM_STATUS_PARTNER_FIT = 0 ∧ e.tells d 212 2) ∧
      (c.tdmState = 2 → c.tdm.unfit.isSome = true → d.regs = e.regs) ∧
      (c.tdmState ≠ 2 → d.tdmState = 5 ∧ d.get Reg.TDM_STATUS_STALE_CAUSE = 2 ∧ e.tells d 211 2))) ∧
  (∀ s : State,
    let c := s.toChip
    let wait := 1000 * c.get Reg.TDM_CFG_HB_TO_US
    (((c.mirrorWait ++ c.tdm.hbWait).head? = none ∨ 2 < c.pstate) → exec .ackWaitTimeout s = .next s) ∧
    (∀ w, (c.mirrorWait ++ c.tdm.hbWait).head? = some w → c.pstate ≤ 2 →
      (∀ t, c.tdm.unfit = some t → exec .ackWaitTimeout s = .next (s.withChip (c.advanceTo (t + wait)).releaseAll)) ∧
      (c.tdm.unfit = none → c.tdmState = 2 → ∃ d, exec .ackWaitTimeout s = .next (s.withChip d) ∧ d.clk = max c.clk (w.since + wait) ∧
        d.tdm.unfit = some d.clk ∧ d.tracked = false ∧ d.get Reg.TDM_STATUS_PARTNER_FIT = 0 ∧
        (c.advanceTo (w.since + wait)).tells d 212 1)))) ∧
  ((∀ (c : Chip) (p n code : Nat) (d result : List Byte),
    (c.tracked = false → c.completeCmd p n code d result = c.complete p n code d result ∧
      c.completeSent p n code d result = c.complete p n code d result) ∧
    (c.tracked = true →
      (c.completeCmd p n code d result).tdm.hbWait = c.tdm.hbWait ++ [MirrorWait.mk 0 p n code d result c.clk] ∧
      (c.completeSent p n code d result).mirrorWait = c.mirrorWait ++ [MirrorWait.mk c.lastSeq p n code d result c.clk] ∧
      (c.completeCmd p n code d result).out = c.out ∧ (c.completeSent p n code d result).out = c.out ∧
      ((c.completeCmd p n code d result).ring p n).acted = true ∧ ((c.completeSent p n code d result).ring p n).acted = true)) ∧
  (∀ (c : Chip) (w : MirrorWait),
    let able := (c.ring w.port w.ring).acted = true ∧ (c.ring w.port w.ring).fetched.head? = some (some w.desc) ∧
      c.ringState w.port w.ring = 1
    ((c.ring w.port w.ring).load = none → able → c.release w = c.complete w.port w.ring w.code w.desc w.result) ∧
    (∀ t, (c.ring w.port w.ring).load = some t → able → c.release w = c.setRing w.port w.ring { c.ring w.port w.ring with
      acted := false
      load := some { t with waits := false } }) ∧
    (¬able → c.release w = c)) ∧
  (∀ (c : Chip) (f : FrameId) (n : Nat),
    let d := match c.tdm.rxSeq with
      | none => 0
      | some q => idxDiff f.seq.toNat (q + 1)
    let e := c.setTdm { c.tdm with rxSeq := some ((f.seq.toNat + n + 2 ^ 32 - 1) % 2 ^ 32) }
    ((d < 0 ∨ c.pstate = 3) → c.rxFrame f n = (c, false)) ∧
    (d = 0 → c.pstate ≠ 3 → c.rxFrame f n = (e.acked f.ack.toNat, true)) ∧
    (0 < d → c.pstate ≠ 3 → c.rxFrame f n = ((e.stale 5).acked f.ack.toNat, true))) ∧
  (∀ (c : Chip) (seq : Nat), c.tdm.hold = false → c.tdm.unfitSeq = none → (∀ w ∈ c.mirrorWait, 0 < idxDiff w.seq seq) →
    let d := c.acked seq
    d.mirrorWait = c.mirrorWait ∧ d.out = c.out ∧ d.tdm.kept = c.tdm.kept.filter (fun k => decide (0 < idxDiff k.seq seq))) ∧
  (∀ (c : Chip) (seq : Nat) (w : MirrorWait), c.tdm.hold = false → c.tdm.unfitSeq = none → c.mirrorWait = [w] → idxDiff w.seq seq ≤ 0 →
    (c.ring w.port w.ring).load = none →
    c.acked seq = ((({ c with mirrorWait := [] }.setTdm { c.tdm with
      kept := c.tdm.kept.filter (fun k => decide (0 < idxDiff k.seq seq)) }).release w).loadReady w.port w.ring).showWait.tryGo) ∧
  (∀ (m : AckMsg) (s : State),
    let r := s.toChip.rxFrame m.frame 1
    (r.2 = true → exec (.ack m) s = .next (s.withChip (r.1.acked m.upTo.toNat))) ∧ (r.2 = false → exec (.ack m) s = .next s)) ∧
  (∀ (m : HealthMsg) (s : State),
    let r := s.toChip.rxFrame m.frame 1
    let e := r.1
    (r.2 = false → exec (.health m) s = .next s) ∧
    (r.2 = true → (m.mismatch = false ∨ e.tdmState ≠ 2 ∨ e.tdm.unfit.isSome = true) → exec (.health m) s = .next (s.withChip e)) ∧
    (r.2 = true → m.mismatch = true → e.tdmState = 2 → e.tdm.unfit = none → ∃ d, exec (.health m) s = .next (s.withChip d) ∧
      d.tdm.unfit = some e.clk ∧ d.tracked = false ∧ d.get Reg.TDM_STATUS_PARTNER_FIT = 0 ∧ e.tells d 212 3)) ∧
  (∀ s : State, ((s.toChip.tracking = false ∧ s.toChip.tdmState ≠ 5) ∨ 2 < s.toChip.pstate) → exec .healthReport s = .next s) ∧
  (∀ s : State, (s.toChip.tracking = true ∨ s.toChip.tdmState = 5) → s.toChip.pstate ≤ 2 →
    let c := s.toChip
    ∃ (d : Chip) (k : TFrame) (body : List Byte), exec .healthReport s = .next (s.withChip d) ∧ d.clk = max c.clk c.tdm.healthDue ∧
      d.tdm.healthDue = c.tdm.healthDue + 1000000000 ∧ d.tdm.matched = 0 ∧ d.tdm.mismatched = 0 ∧
      d.tdm.kept = c.tdm.kept ++ [k] ∧ k.type = 7 ∧ k.seq = c.mirrorSeq ∧
      d.stateItems = c.stateItems ++ [StateItem.mk (c.get Reg.TDM_REPORT_PORT) (c.get Reg.TDM_REPORT_RING) 0x11 body
        (!c.flag Reg.CFG_STATUS_COMMITTED) 0 []] ∧
      body.length = 32 ∧ leField body 1 1 = c.tdmState % 256 ∧ leField body 2 1 = c.get Reg.TDM_STATUS_STALE_CAUSE % 256 ∧
      leField body 3 1 = c.get Reg.TDM_STATUS_WIDTH % 256 ∧ leField body 8 4 = c.tdm.matched % 2 ^ 32 ∧
      leField body 12 4 = c.tdm.mismatched % 2 ^ 32))

/-- R428, R430, R432 to R434, R440: a standby that tracks applies its owner's records, changes, blocks and firns in their order, and a gap
makes it STALE with cause 5; a full firn brings a STALE one back to SYNC; a head not accounted within CALVE_TO of a takeover ends. (What a
shadow does and leaves out: log entries 54, 55 and 57.) -/
def Obligations.StandbyFollowsItsOwner : Prop :=
  (∀ (f : FrameId) (s : State),
    let r := s.toChip.rxFrame f 1
    let e := r.1
    let taken := fun (fires : List FireLogRec) (changes : List ChangeRec) =>
      if r.2 = false then s.toChip
      else if e.tracking = true ∨ e.tdmState = 6 then
        (changes.foldl (fun (c : Chip) x => c.applyChange x) (fires.foldl (fun (c : Chip) x => c.applyLog x) e)).sendAck
      else if e.tdmState = 5 then (e.setTdm { e.tdm with later := e.tdm.later ++ [(f.seq.toNat, fires, changes)] }).sendAck
      else e
    (∀ recs, exec (.fireLog f recs) s = .next (s.withChip (taken recs []))) ∧
    (∀ recs, exec (.change f recs) s = .next (s.withChip (taken [] recs)))) ∧
  (∀ (c : Chip) (h : Fin 48) (i : BitVec 32) (line : Int), c.inArmed h.val = true →
    let x := c.headRun h.val
    let after := fun (r : FireLogRec) => (c.applyLog r).headRun h.val
    (∃ t, (after (.issued h i line)).shots = x.shots ++ [t] ∧ t.index = i.toNat ∧ t.line = line) ∧
    (after (.fired h i line)).shots = x.shots.filter (fun (t : Shot) => decide (t.index ≠ i.toNat)) ∧
    (after (.fired h i line)).hwm = max x.hwm line ∧ (c.applyLog (.fired h i line)).get (Reg.CRN_HEAD_FIRED_INDEX h.val) = i.toNat ∧
    (after (.released h i line)).shots = x.shots.filter (fun (t : Shot) => decide (t.index ≠ i.toNat)) ∧
    (after (.released h i line)).hwm = x.hwm ∧
    (∀ (cause : Fin 10) (n : Nat), cause.val < 8 → n ≠ 0 → (after (.entered h cause line n)).entered = addLines line n x.entered ∧
      (after (.entered h cause line n)).shots = x.shots)) ∧
  (∀ (c : Chip) (h : Fin 48) (i : BitVec 32) (line : Int),
    SMap.get 0 h.val (c.applyLog (.issued h i line)).nextIndex = (i.toNat + 1) % 2 ^ 32) ∧
  (∀ (c : Chip) (pipe : Fin 4) (e : Fin 16384) (v : Word),
    c.applyChange (.map pipe e v) = c.put (Reg.CAM_MAP_ENTRY pipe.val e.val) v.toNat) ∧
  (∀ (c : Chip) (r : ChangeRec), (∀ i b, r ≠ .ready i b) → (∀ p e v, r ≠ .map p e v) → c.applyChange r = c.setTdm { c.tdm with changes := c.tdm.changes ++ [r] }) ∧
  (∀ (c : Chip) (i : Nat) (b : List (Fin 48 × Nat)),
    (c.applyChange (.ready i b)).tdm.changes = c.tdm.changes.filter (fun q => decide (changeIdent q ≠ i))) ∧
  (∀ (m : MirrorFrame) (s : State),
    let r := (if 2 ≤ s.toChip.pstate then s.toChip.wake 3 else s.toChip).rxFrame m.frame 1
    let e := r.1
    (r.2 = false ∨ e.tracking = false → exec (.tandemBlock m) s = .next (s.withChip e)) ∧
    (r.2 = true → e.tracking = true →
      (∀ num bands heads, m.item = .registration num bands heads → e.layer? num.toNat = none →
        exec (.tandemBlock m) s = .next (s.withChip (e.registerLayer num.toNat bands heads.toNat true).sendAck)) ∧
      (∀ num bands heads l, m.item = .registration num bands heads → e.layer? num.toNat = some l →
        exec (.tandemBlock m) s = .next (s.withChip e.sendAck)) ∧
      (∀ bytes, m.item = .block bytes → exec (.tandemBlock m) s = .next (s.withChip (e.takeBlock bytes).sendAck)))) ∧
  (∀ (c : Chip) (bytes : List Byte),
    let hdr := bytes.take 32
    let head := leField hdr 7 1
    let slab := leField hdr 0x0C 4
    (c.layer? (leField hdr 8 4) = none → c.takeBlock bytes = c) ∧
    (∀ l, c.layer? (leField hdr 8 4) = some l →
      let good := head < 48 ∧ inMask l.heads head = true ∧ c.headerFault l bytes.length head slab hdr = none
      (good → c.takeBlock bytes = c.acceptBlock l head slab hdr (bytes.drop 32)) ∧ (¬good → c.takeBlock bytes = c))) ∧
  (∀ (m : FirnMsg) (s : State),
    let n := m.blocks.length
    let r := s.toChip.rxFrame m.frame n
    let e := r.1
    let full := m.kind.val = 3
    let next := ∀ k, e.tdm.firnHeard = some k → m.seq.toNat = (k + 1) % 2 ^ 32
    let gap := e.tracking = true ∧ ¬full ∧ ¬next
    let wanted := e.tracking = true ∨ e.tdmState = 6 ∨ (e.tdmState = 5 ∧ full)
    let held := e.setTdm { e.tdm with firnHeard := some m.seq.toNat, firns := e.tdm.firns ++ [(m, n)] }
    (r.2 = false → exec (.firn m) s = .next s) ∧
    (r.2 = true → ¬gap → wanted → exec (.firn m) s = .next (s.withChip (held.queueFirn m.seq.toNat m.blocks).sendAck)) ∧
    (r.2 = true → gap → ∃ d, exec (.firn m) s = .next (s.withChip d) ∧ d.tdmState = 5 ∧
      d.get Reg.TDM_STATUS_STALE_CAUSE = 5 ∧ e.tells d 211 5 ∧ d.nzt = e.nzt ∧ d.tdm.firns = e.tdm.firns) ∧
    (r.2 = true → ¬wanted → exec (.firn m) s = .next (s.withChip e))) ∧
  (∀ (c : Chip) (k : Nat) (bs : List (List Byte)), ∃ js : List Job, (c.queueFirn k bs).jobs = c.jobs ++ js ∧ js.length = bs.length ∧
    ∀ i b, bs[i]? = some b → ∃ j : Job, js[i]? = some j ∧ j.kind = 1 ∧ j.firn = some k ∧ j.slab = i ∧ j.area = 0 ∧ j.hdr = b.take 32 ∧
      j.payload = (b.drop 32).take (leField b 0x10 4)) ∧
  (∀ (c : Chip) (m : FirnMsg), c.tdm.goWaits = false →
    (∀ n, c.tdm.firns = [(m, n + 2)] → c.firnPiece m.seq.toNat true = c.setTdm { c.tdm with firns := [(m, n + 1)] }) ∧
    (c.tdm.firns = [(m, 1)] →
      let d := c.setTdm { c.tdm with firns := [] }
      c.firnPiece m.seq.toNat true =
        (if c.tracking = true ∨ c.tdmState = 6 ∨ (c.tdmState = 5 ∧ m.kind.val = 3) then d.applyFirn m else d).goOn) ∧
    (c.firnPiece m.seq.toNat false =
      (c.setTdm { c.tdm with firns := c.tdm.firns.filter (fun q => decide (q.1.seq.toNat ≠ m.seq.toNat)) }).stale 5)) ∧
  (∀ (c : Chip) (m : FirnMsg), (m.kind.val = 2 ∨ (m.kind.val = 3 ∧ c.tdmState = 5)) → c.tdm.later = [] →
    let d := c.applyFirn m
    d.get Reg.TDM_FIRN_SEQ = m.seq.toNat ∧ d.tdm.firnTaken = some m.seq.toNat ∧
    (m.nzt.Pairwise (fun a b => a.1 ≠ b.1) → ∀ e ∈ m.nzt,
      ((∀ q ∈ m.scores, q.1 ≠ e.1) → (d.nztVer e.1).force = e.2.force.toNat) ∧
      (d.nztVer e.1).band.map (fun b => (b.value, b.start)) = e.2.band.map (fun b => (b.1.toNat, b.2)) ∧
      (d.nztVer e.1).arming.map (·.1) = e.2.arming.map (·.toNat)) ∧
    (m.scores.Pairwise (fun a b => a.1 ≠ b.1) → ∀ q ∈ m.scores, ntScore (d.nztVer q.1).force = q.2.toNat) ∧
    (∀ q : HeartbeatMsg, c.tdm.last = some q → d.tdm.last = if 0 < wrapDiff m.et q.et then
      some { q with et := m.et, axes := m.axes, slots := m.slots, ringCi := m.ringCi } else some q) ∧
    (m.healLayer.toNat ≠ 0xFFFFFFFF → d.get Reg.HEL_LAST_LAYER_LAYER = m.healLayer.toNat ∧
      d.healEvaluated = some m.healLayer.toNat) ∧
    (m.sub.Pairwise (fun a b => a.1 ≠ b.1) → ∀ e ∈ m.sub, (d.subVer e.1).force = e.2.force.toNat) ∧
    (m.kind.val = 2 → d.tdmState = c.tdmState ∧ d.layers = c.layers ∧ d.run = c.run ∧
      (∀ k, (∀ e ∈ m.nzt, e.1 ≠ k) → (∀ q ∈ m.scores, q.1 ≠ k) → d.nztVer k = c.nztVer k)) ∧
    (m.kind.val = 3 → (2 ≤ c.get Reg.TDM_STATUS_WIDTH → d.tdmState = 3 ∧ d.get Reg.TDM_STATUS_STALE_CAUSE = 0) ∧
      d.layers = [] ∧ d.tdm.changes = [] ∧ d.tdm.later = [] ∧ d.bitOf (Reg.EVT_STATUS_RAISED 6) 30 = true ∧ d.est.ext = m.estExt ∧ d.est.back = m.estDir ∧
      (∀ k, (∀ e ∈ m.nzt, e.1 ≠ k) → (∀ q ∈ m.scores, q.1 ≠ k) → (d.nztVer k).force = 0))) ∧
  (∀ (c : Chip) (h b crc : Nat) (skip : Bool),
    let e := c.formTo h (min (1024 * (b + 1 : Nat)) (c.spanEnd h))
    let x := e.headRun h
    ((skip = true ∨ b ∈ x.notCompared) → c.compareBand h b crc skip = e) ∧
    (skip = false → b ∉ x.notCompared → SMap.get 0 b x.crcs = crc →
      c.compareBand h b crc skip = (e.bump Reg.TDM_CRC_MATCH_COUNT 1).setTdm { e.tdm with matched := e.tdm.matched + 1 }) ∧
    (skip = false → b ∉ x.notCompared → SMap.get 0 b x.crcs ≠ crc → e.tracking = true →
      let d := c.compareBand h b crc skip
      d.tdmState = 5 ∧ d.get Reg.TDM_STATUS_STALE_CAUSE = 4 ∧ d.tdm.mismatched = e.tdm.mismatched + 1 ∧
      d.get Reg.TDM_CRC_MISMATCH_COUNT = satAdd 32 (e.get Reg.TDM_CRC_MISMATCH_COUNT) 1 ∧
      d.bitOf (Reg.EVT_STATUS_RAISED 6) 22 = true)) ∧
  (∀ (c : Chip) (l : Layer), c.armed = some l →
    let d := c.shadowEnds
    let fit := c.tdm.whole = true ∧ c.tdmState = 3
    let wide := 2 ≤ c.get Reg.TDM_STATUS_WIDTH
    (¬fit ∨ c.otherClaim = true → d.run = none ∧ ∀ m ∈ d.layers, m.num ≠ l.num) ∧
    (fit → wide → c.otherClaim = true → d.tdmState = 4 ∧ d.get Reg.EVT_LAST_SOURCE = 210) ∧
    (fit → ¬wide → d.tdmState = 5 ∧ d.get Reg.EVT_LAST_SOURCE = 211) ∧
    (fit → wide → c.otherClaim = false → (∀ m ∈ c.tdm.last, m.axes.length ≤ 8) → d.tdmState = 2 ∧ d.owns = true) ∧
    (¬fit → d.tdmState = c.tdmState)) ∧
  (∀ (h : Fin 48) (s : State),
    let c := s.toChip
    ((∀ q ∈ c.tdm.takes, q.head ≠ h.val) → exec (.takeoverTlmTimeout h) s = .next s) ∧
    (∀ q, c.tdm.takes.find? (fun (q : TakeHead) => decide (q.head = h.val)) = some q →
      ∃ d, exec (.takeoverTlmTimeout h) s = .next (s.withChip d) ∧ d.clk = max c.clk q.due ∧
        d.tdm.takes = c.tdm.takes.filter (fun (q : TakeHead) => decide (q.head ≠ h.val)) ∧
        SMap.get 0 h.val d.nextIndex = ((SMap.get 0 h.val c.nextIndex + 2 ^ 32 - 1) % 2 ^ 32 + 65536) % 2 ^ 32 ∧
        d.bitOf (Reg.EVT_STATUS_RAISED 1) 3 = true)) ∧
  (∀ s : State,
    let c := s.toChip
    let e := c.advanceTo c.tdm.idleDue
    (¬(c.tdmState = 2 ∧ c.run = none) → exec .firnIdle s = .next s) ∧
    (c.tdmState = 2 → c.run = none →
      exec .firnIdle s = .next (s.withChip ((e.setTdm { e.tdm with idleDue := e.clk + 100000000 }).takeFirn 2 0xFFFFFFFF))))

/-- R434: an owner takes a firn: FIRN_SEQ and FIRN_BYTES name it, and its pieces are queued for compression. R429, R445: a RESYNC asks for
a full firn, at once where no layer is armed; take-back goes by GO, a claim or a give-up, and an ABORT, which also comes 10 ms after GO.
(Claim or give-up is a free choice: log entry 56; bodies: log entry 54.) -/
def Obligations.ResyncAndTakebackGoByTheirSteps : Prop :=
  (∀ (c : Chip) (kind band : Nat), c.tdmState = 2 →
    let d := c.takeFirn kind band
    let body := c.firnBytes kind band
    d.get Reg.TDM_FIRN_SEQ = c.tdm.firnNext % 2 ^ 32 ∧ d.get Reg.TDM_FIRN_BYTES_BYTES = body.length % 2 ^ 24 ∧
    d.tdm.firnNext = (c.tdm.firnNext + 1) % 2 ^ 32 ∧ d.itemNo = c.itemNo + 1 ∧
    (∃ o, d.outItems = c.outItems ++ [o] ∧ o.firn = true ∧ o.insp.body = body) ∧
    leField body 0 4 = 0x4E524946 ∧ leField body 5 1 = kind % 256 ∧ leField body 0x0C 4 = c.armedNum % 2 ^ 32) ∧
  (∀ s : State,
    let c := s.toChip
    let e := c.rxControl
    let r := e.setTdm { e.tdm with unfit := none, unfitSeq := none }
    (2 < c.pstate → exec .resync s = .next s) ∧
    (c.pstate ≤ 2 → c.tdmState ≠ 2 → exec .resync s = .next (s.withChip e)) ∧
    (c.pstate ≤ 2 → c.tdmState = 2 → c.run = none → exec .resync s = .next (s.withChip (r.takeFirn 3 0xFFFFFFFF))) ∧
    (c.pstate ≤ 2 → c.tdmState = 2 → c.run.isSome = true → exec .resync s = .next (s.withChip (r.setTdm { r.tdm with fullWanted := true })))) ∧
  (∀ (p : Port) (v : Word) (s : State), s.awake → v.getLsbD 0 = false → v.getLsbD 1 = true →
    (s.toChip.tdmState ≠ 5 → exec (.ctrlResync p v) s = .next s) ∧
    (s.toChip.tdmState = 5 → exec (.ctrlResync p v) s = .next (s.withChip (s.toChip.sendControl 0)))) ∧
  (∀ (c : Chip) (code : Nat), ∃ k : TFrame, (c.sendControl code).tdm.kept = c.tdm.kept ++ [k] ∧ k.type = 8 ∧ k.seq = c.mirrorSeq ∧
    (c.sendControl code).mirrorSeq = (c.mirrorSeq + 1) % 2 ^ 32 ∧ leField k.bytes 16 4 = code % 2 ^ 32 ∧
    ∃ lanes, lanes.map (·.1) = c.bondLanes ∧
      (c.sendControl code).out = (if c.bondLanes = [] then c.out else c.out ++ [.tandem 8 k.bytes lanes])) ∧
  (∀ c : Chip,
    let t := c.tdm
    let may := t.hold = true ∧ t.goAt = none ∧ c.mirrorWait = [] ∧ t.hbWait = [] ∧ (∀ k ∈ t.kept, k.type = 1 ∨ 6 ≤ k.type) ∧
      ∀ o ∈ c.outItems, o.firn = false
    (may → c.tryGo.tdm.goAt = some c.clk ∧ c.tryGo.mirrorSeq = (c.mirrorSeq + 1) % 2 ^ 32) ∧ (¬may → c.tryGo = c)) ∧
  (∀ s : State,
    let c := s.toChip
    (2 < c.pstate → exec .takebackGo s = .next s ∧ exec .takebackAbort s = .next s) ∧
    (c.pstate ≤ 2 → (c.tdmState ≠ 4 ∨ c.flag Reg.TDM_STATUS_PRI = false) → exec .takebackGo s = .next (s.withChip c.rxControl)) ∧
    (c.pstate ≤ 2 → c.tdmState = 4 → c.flag Reg.TDM_STATUS_PRI = true → (∀ m ∈ c.tdm.last, m.axes.length ≤ 8) →
      ∃ d, exec .takebackGo s = .next (s.withChip d) ∧
        (c.tdm.firns ≠ [] → d.tdmState = 6 ∧ d.tdm.goWaits = true) ∧
        ((d.tdmState = 6 ∧ d.owns = c.owns ∧ d.out = c.out) ∨ (d.tdmState = 2 ∧ d.owns = true ∧ Output.claim true ∈ d.out))) ∧
    (c.pstate ≤ 2 → c.tdmState ≠ 6 → exec .takebackAbort s = .next (s.withChip c.rxControl)) ∧
    (c.pstate ≤ 2 → c.tdmState = 6 → exec .takebackAbort s =
      .next (s.withChip (c.rxControl.setTdm { c.rxControl.tdm with goWaits := false }).becomeFit)) ∧
    (c.tdm.goAt = none → exec .takebackTimeout s = .next s) ∧
    (∀ t, c.tdm.goAt = some t → ∃ d, exec .takebackTimeout s = .next (s.withChip d) ∧ d.clk = max c.clk (t + 10000000) ∧
      d.tdm.hold = false ∧ d.tdm.goAt = none ∧ d.mirrorSeq = (c.mirrorSeq + 1) % 2 ^ 32 ∧ d.get Reg.EVT_LAST_SOURCE = 219))

/-- R421, R422: a healthy tandem lane that loses lock counts its errors and leaves the bond, which narrows to what the lanes left allow or
takes the spare; a lane recovered is the spare where the spare is in use, and the bond widens with it while no layer is armed. -/
def Obligations.TandemLanesFormTheBond : Prop :=
  ∀ (k : Fin 5) (s : State),
    let c := s.toChip
    let others := ((List.range 5).filter fun j => decide (j ≠ k.val) && c.laneWell j).length
    let st := fun (d : Chip) (j : Nat) => d.get (Reg.TDM_LANE_STATUS_STATE j)
    (∀ cause, (c.laneWell k.val = false ∨ 2 < c.pstate) → exec (.tandemLaneLoss k cause) s = .next s) ∧
    (∀ cause, c.laneWell k.val = true → c.pstate ≤ 2 → ∃ d, exec (.tandemLaneLoss k cause) s = .next (s.withChip d) ∧ st d k.val = 1 ∧
      d.get (Reg.TDM_LANE_STATUS_LAST_CAUSE k.val) = causeCode cause ∧ d.flag (Reg.TDM_LANE_STATUS_CHG k.val) = true ∧
      d.bitOf Reg.TDM_STATUS_LANES_OK k.val = false ∧ d.bitOf (Reg.EVT_STATUS_RAISED 6) 23 = true ∧
      ((19, k.val) ∉ c.quar → d.get (Reg.TDM_LANE_ERR_COUNT k.val) =
        min (c.get (Reg.TDM_LANE_ERR_COUNT k.val) + causeErrors cause) (2 ^ 32 - 1)) ∧
      (st c k.val ≠ 3 → d.get Reg.TDM_STATUS_WIDTH = c.get Reg.TDM_STATUS_WIDTH ∧ ∀ j, j < 5 → j ≠ k.val → st d j = st c j) ∧
      (st c k.val = 3 → d.get Reg.TDM_STATUS_WIDTH = widthOf others ∧ d.bitOf (Reg.EVT_STATUS_RAISED 6) 25 = true ∧
        (c.tracking = true → others = 0 → d.tdmState = 5 ∧ d.get Reg.TDM_STATUS_STALE_CAUSE = 1) ∧
        (c.tracking = true → others = 1 → d.tdmState = 5 ∧ d.get Reg.TDM_STATUS_STALE_CAUSE = 3) ∧
        (2 ≤ others → d.tdmState = c.tdmState) ∧
        (∀ j, j < 5 → j ≠ k.val → st c j = 4 → c.tdm.spare = j → c.flag Reg.TDM_STATUS_SPARE_USED = false → (∀ i, i < 5 → i ≠ j → st c i = 3) →
          st d j = 3 ∧ d.get Reg.TDM_STATUS_WIDTH = 4 ∧ d.flag Reg.TDM_STATUS_SPARE_USED = true ∧
          d.bitOf (Reg.EVT_STATUS_RAISED 6) 24 = true))) ∧
    ((c.inPair = false ∨ c.laneWell k.val = true ∨ 2 < c.pstate) → exec (.tandemLaneRecovered k) s = .next s) ∧
    (c.inPair = true → c.laneWell k.val = false → c.pstate ≤ 2 →
      let renamed := c.flag Reg.TDM_STATUS_SPARE_USED && decide (c.get (Reg.TDM_LANE_STATUS_LAST_CAUSE k.val) ≠ 0)
      let spare := renamed = true ∨ c.tdm.spare = k.val
      ∃ d, exec (.tandemLaneRecovered k) s = .next (s.withChip d) ∧ d.bitOf Reg.TDM_STATUS_LANES_OK k.val = true ∧
        (c.run.isSome = true → d.get Reg.TDM_STATUS_WIDTH = c.get Reg.TDM_STATUS_WIDTH ∧ st d k.val = (if spare then 4 else 2) ∧
          d.flag Reg.TDM_STATUS_SPARE_USED = (c.flag Reg.TDM_STATUS_SPARE_USED && !renamed) ∧
          d.out = c.out) ∧
        (c.run = none → c.get Reg.TDM_STATUS_WIDTH ≤ widthOf (others + 1) → d.get Reg.TDM_STATUS_WIDTH = widthOf (others + 1)))

/-! ### Configuration -/

/-- R477, R478, R487, R490: the loader judges both slots and loads the later valid image, or runs on defaults; the moraine scan takes
every record that is good in a copy; the controller then becomes ready, tells a claim its watchdog dropped, and starts a loader commit
where the image asks for one. (Image values: log entry 63; START_TIME: log entry 61.) -/
def Obligations.StartUpLoadsScansAndReadies : Prop :=
  (∀ (slotA slotB : Option (List Byte)) (s : State),
    let c := s.toChip
    let a := imageCause slotA
    let b := imageCause slotB
    let bsA := slotA.getD []
    let bsB := slotB.getD []
    let pick := chooseSlot (decide (a = 0)) (decide (b = 0)) (imageSeq bsA) (imageSeq bsB)
    let bs := if pick = 2 then bsB else bsA
    (c.island.loaded = true → exec (.imageLoad slotA slotB) s = .next s) ∧
    (c.island.loaded = false → ∃ d, exec (.imageLoad slotA slotB) s = .next (s.withChip d) ∧ d.island.loaded = true ∧
      (c.flag Reg.GLB_STRAPS_SAFE_BOOT = true → d.get Reg.CFG_STATUS_DEFAULTS = 1 ∧ d.bitOf (Reg.EVT_STATUS_RAISED 7) 25 = true ∧
        d.get Reg.CKP_SEQ_CFG_PG_TO_MS = 0 ∧ d.get Reg.CKP_SEQ_CFG_DWELL_US = 0 ∧
        d.get Reg.CFG_SLOT_CAUSE_A = c.get Reg.CFG_SLOT_CAUSE_A ∧ d.conf.validA = c.conf.validA) ∧
      (c.flag Reg.GLB_STRAPS_SAFE_BOOT = false →
        d.get Reg.CFG_SLOT_CAUSE_A = a ∧ d.get Reg.CFG_SLOT_CAUSE_B = b ∧
        d.get Reg.CFG_SLOT_A_SEQ_SEQ = (if a = 0 then imageSeq bsA else 0) ∧
        d.get Reg.CFG_SLOT_B_SEQ_SEQ = (if b = 0 then imageSeq bsB else 0) ∧
        d.conf.validA = decide (a = 0) ∧ d.conf.validB = decide (b = 0) ∧
        ((a ≠ 0 ∨ b ≠ 0) → d.bitOf (Reg.EVT_STATUS_RAISED 7) 24 = true) ∧
        (pick = 0 → d.get Reg.CFG_STATUS_DEFAULTS = 1 ∧ d.bitOf (Reg.EVT_STATUS_RAISED 7) 25 = true ∧
          d.get Reg.CKP_SEQ_CFG_PG_TO_MS = 0 ∧ d.get Reg.CKP_SEQ_CFG_DWELL_US = 0) ∧
        (pick ≠ 0 → d.get Reg.CFG_STATUS_SLOT = pick ∧ d.flag Reg.CFG_STATUS_AUTO = bit (leField bs 5 1) 0 ∧
          ((imageRecords bs).Pairwise (fun x y => x.1 ≠ y.1) → ∀ r ∈ imageRecords bs, ∀ f ∈ imageFields r.1,
            d.get (f.at r.1) = f.value r.2 % 2 ^ f.width))))) ∧
  (∀ (ps : List LedgerPos) (s : State),
    let c := s.toChip
    let no := c.island.phase ≠ 3 ∨ c.island.loaded = false ∨ c.conf.scanned = true
    (no → exec (.moraineScan ps) s = .next s) ∧
    (¬no → ∃ d, exec (.moraineScan ps) s = .next (s.withChip d) ∧ d.conf.scanned = true ∧ d.get Reg.CKP_STATUS_PLL_LOCK = 31 ∧
      d.get Reg.CRN_STATUS_GATED = 1 ∧ d.get Reg.CRN_MORAINE_STATUS_RECORDS = d.ledger.length % 2 ^ 16 ∧
      (∀ x, x < 25 → (x, 64) ∉ d.quar) ∧ (ps = [] → d.ledger = [] ∧ d.ledgerTorn = 0 ∧ d.rankRecs = []))) ∧
  (∀ (c : Chip) (last : Option Nat) (k : Nat) (p : LedgerPos) (ps : List LedgerPos),
    let blank := (∀ b ∈ p.rec0, b = 0xFF) ∧ (∀ b ∈ p.rec1, b = 0xFF) ∧ p.chk0 = 0xFFFFFFFF ∧ p.chk1 = 0xFFFFFFFF
    let g0 := recGood p.rec0 p.chk0 last
    let g1 := recGood p.rec1 p.chk1 last
    let one := (c.bump Reg.CFG_LEDGER_DEGRADED 1).raise 254 0 [(4, k)]
    (blank → c.scanFrom last k (p :: ps) = c) ∧
    (¬blank → g0 = true → g1 = true → p.rec0 = p.rec1 →
      c.scanFrom last k (p :: ps) = (c.takeRecord p.rec0).scanFrom (some (leField p.rec0 4 4)) (k + 1) ps) ∧
    (¬blank → g0 = true → g1 = true → p.rec0 ≠ p.rec1 → c.scanFrom last k (p :: ps) =
      ((c.raise 254 0 [(4, k)]).takeRecord p.rec0).scanFrom (some (leField p.rec0 4 4)) (k + 1) ps) ∧
    (¬blank → g0 = true → g1 = false →
      c.scanFrom last k (p :: ps) = (one.takeRecord p.rec0).scanFrom (some (leField p.rec0 4 4)) (k + 1) ps) ∧
    (¬blank → g0 = false → g1 = true →
      c.scanFrom last k (p :: ps) = (one.takeRecord p.rec1).scanFrom (some (leField p.rec1 4 4)) (k + 1) ps) ∧
    (¬blank → g0 = false → g1 = false → ∃ d, c.scanFrom last k (p :: ps) = d.scanFrom last (k + 1) ps ∧ d.ledger = c.ledger ∧
      d.ledgerTorn = c.ledgerTorn + 1 ∧ c.tells d 254 0)) ∧
  (∀ (c : Chip) (e : List Byte), (c.takeRecord e).ledger = c.ledger ++ [e] ∧
    (leField e 0 1 ≠ 4 → leField e 0 1 ≠ 5 → (c.takeRecord e).get Reg.CRN_MORAINE_SEQ_NEXT = (leField e 4 4 + 1) % 2 ^ 32 ∧
      (c.takeRecord e).rankRecs = c.rankRecs)) ∧
  ∀ s : State,
    let c := s.toChip
    let no := c.flag Reg.CFG_STATUS_READY = true ∨ c.conf.scanned = false ∨ c.flag Reg.DRC_STATUS_TRAINED = false
    (no → exec .readyState s = .next s) ∧
    (¬no → (∀ e ∈ c.island.bootEvents, e.1 < 256) → ∃ e : Chip, e.get Reg.CFG_STATUS_READY = 1 ∧
      e.get Reg.CFG_START_TIME_US = min ((c.clk - c.island.relAt) / 16000) 65535 ∧ e.island.bootEvents = [] ∧
      e.get Reg.EVT_LAST_SOURCE = 255 ∧ e.bitOf (Reg.EVT_STATUS_RAISED 7) 17 = true ∧ e.wdogLoss = false ∧
      (c.wdogLoss = true → e.bitOf (Reg.EVT_STATUS_RAISED 6) 29 = true) ∧
      exec .readyState s = .next (s.withChip (if c.flag Reg.CFG_STATUS_AUTO then e.startCommit 2 else e)))

/-- R481, R482: a commit is refused with the reason of the first check that fails, and starts where none does; R483, R175, R364, R485: its
end commits the controller, shows the digest and the rows of every head, lays out the regions of memory from address 0 on (R389), and
raises EV250. (Which limits are judged and in which order refusals come: log entries 64 and 65.) -/
def Obligations.CommitsAreCheckedThenTakeEffect : Prop :=
  (∀ (p : Port) (v : Word) (s : State), s.awake → v.getLsbD 0 = true → v.getLsbD 1 = false → v.getLsbD 2 = false →
    exec (.commit p v) s = .next (s.withChip (s.toChip.startCommit p.num))) ∧
  (∀ (c : Chip) (source : Nat), source < 3 →
    let d := c.startCommit source
    let reason := fun (n : Nat) => d.get Reg.CFG_COMMIT_RESULT_REASON = n ∧ c.tells d 251 0 ∧ d.conf = c.conf ∧
      d.get Reg.CFG_STATUS_BUSY = c.get Reg.CFG_STATUS_BUSY ∧ d.flag Reg.CFG_COMMIT_RESULT_LOADER = decide (source = 2) ∧
      d.flag Reg.CFG_COMMIT_RESULT_BY_PORT = decide (source = 1)
    let free := (source = 2 ∨ c.get (Reg.GLB_SEM_OWNER 0) = source + 1) ∧ c.flag Reg.CFG_STATUS_COMMITTED = false ∧
      c.flag Reg.CFG_STATUS_BUSY = false
    (source < 2 → c.get (Reg.GLB_SEM_OWNER 0) ≠ source + 1 →
      d.get Reg.CFG_COMMIT_RESULT_REASON = 1 ∧ c.tells d 15 0 ∧ d.conf = c.conf) ∧
    ((source = 2 ∨ c.get (Reg.GLB_SEM_OWNER 0) = source + 1) → c.flag Reg.CFG_STATUS_COMMITTED = true → reason 2) ∧
    ((source = 2 ∨ c.get (Reg.GLB_SEM_OWNER 0) = source + 1) → c.flag Reg.CFG_STATUS_COMMITTED = false →
      c.flag Reg.CFG_STATUS_BUSY = true → reason 3) ∧
    (free → ∀ off ∈ c.rangeBad, (∀ o ∈ c.rangeBad, off ≤ o) →
      reason 4 ∧ d.get Reg.CFG_COMMIT_OFFSET_OFFSET = off % 2 ^ 24) ∧
    (free → c.rangeBad = [] → ∀ r a b, c.conflict = some (r, a, b) → reason 5 ∧
      d.get Reg.CFG_COMMIT_RESOURCE_RESOURCE = r % 2 ^ 32 ∧ d.get Reg.CFG_COMMIT_FEATURES_FEATURE_A = a % 2 ^ 16 ∧
      d.get Reg.CFG_COMMIT_FEATURES_FEATURE_B = b % 2 ^ 16) ∧
    (free → c.rangeBad = [] → c.conflict = none →
      let dram := c.flag Reg.DRC_STATUS_DRAM_OK
      let fits := c.regionBytes ≤ 2 ^ 20 * c.get Reg.DRC_CAPACITY_MIB
      (12500000 < c.loopLoad → reason 6) ∧
      (c.loopLoad ≤ 12500000 → 196608 < c.gSum → reason 7) ∧
      (c.loopLoad ≤ 12500000 → c.gSum ≤ 196608 → dram = false → reason 9) ∧
      (c.loopLoad ≤ 12500000 → c.gSum ≤ 196608 → dram = true → ¬fits → reason 8) ∧
      (c.loopLoad ≤ 12500000 → c.gSum ≤ 196608 → dram = true → fits →
        d.get Reg.CFG_STATUS_BUSY = 1 ∧ (∃ m, d.conf.commit = some m ∧ m.source = source ∧ m.digest = c.digest) ∧ d.out = c.out ∧
        d.get Reg.CFG_COMMIT_RESULT_REASON = c.get Reg.CFG_COMMIT_RESULT_REASON))) ∧
  (∀ c : Chip, (∀ r a b, c.conflict = some (r, a, b) → (r, a) ∈ c.claims ∧ (r, b) ∈ c.claims ∧ a < b ∧
      ∀ e ∈ c.claims, ∀ f ∈ c.claims, e.1 = f.1 → e.2 ≠ f.2 → r ≤ e.1) ∧
    (c.conflict = none ↔ ∀ e ∈ c.claims, ∀ f ∈ c.claims, e.1 = f.1 → e.2 = f.2)) ∧
  (∀ s : State, s.toChip.conf.commit = none → exec .commitEnd s = .next s) ∧
  ∀ (s : State) (m : Commit), s.toChip.conf.commit = some m →
    let c := s.toChip
    ∃ d, exec .commitEnd s = .next (s.withChip d) ∧ d.get Reg.CFG_STATUS_BUSY = 0 ∧ d.get Reg.CFG_STATUS_COMMITTED = 1 ∧
      d.get Reg.CFG_COMMIT_RESULT_REASON = 0 ∧ d.conf.commit = none ∧
      (∀ k, k < 8 → d.get (Reg.CFG_DIGEST_BYTES k) = leField m.digest (4 * k) 4) ∧
      d.get (Reg.IOX_GPIO_CLAIMED_BITS 0) = m.claimed % 2 ^ 32 ∧ d.bitOf (Reg.EVT_STATUS_RAISED 7) 26 = true ∧
      (∀ h, h < 48 → d.get (Reg.CRN_NZT_BASE_ROW h) = (((List.range h).map fun j => c.gConfigured j).sum) % 2 ^ 18 ∧
        d.get (Reg.CRN_NZT_BASE_GROUPS h) = c.gConfigured h / 32 % 2 ^ 9) ∧
      (∀ n, n < 64 → c.slotConfigured n = true → c.flag (Reg.LOP_LS_GRP_START n) = true → d.slotOn n = true) ∧
      (∀ k, k < 5 → d.regions.getD k (0, 0) = ((c.regionSizes.take k).sum, c.regionSizes.getD k 0)) ∧
      c.regionSizes = [2 ^ 26, 512 * c.get Reg.DRC_BAND_CFG_NB * c.gSum, 2 ^ 20 * c.get Reg.HIF_BLOCK_AREA_MIB,
        2 ^ 20 * c.get Reg.HIF_STATE_AREA_MIB, 2 ^ 20 * c.get Reg.CAM_STORE_AREA_MIB] ∧
      (∀ x, x < 8 → (d.cam x).seen = false) ∧ (c.inPair = false → d.owns = true ∧ d.tdmState = 0)

/-- R479, R480, R488, R523: a flash write is refused with its reason or writes the slot not in use sector by sector, and ends with the
slot read back and checked; the ledger is erased only with its key, by the semaphore's holder, with the cornice IDLE; an operation that
times out fails with RESULT 6. (Whole sectors, and a refused erase: log entry 66.) -/
def Obligations.FlashOperationsFollowTheirChecks : Prop :=
  (∀ (p : Port) (v : Word) (s : State), s.awake → v.getLsbD 0 = false → v.getLsbD 1 = true → v.getLsbD 2 = false →
    let c := s.toChip
    let img := c.bufferedImage
    let mine := c.get (Reg.GLB_SEM_OWNER 0) = p.num + 1
    let busy := c.conf.writing.isSome = true
    let old := c.seqOld (imageSeq img) = true
    let fails := fun (n : Nat) => ∃ d, exec (.flashWrite p v) s = .next (s.withChip d) ∧ d.get Reg.CFG_FLASH_STATUS_RESULT = n ∧
      c.tells d 253 0 ∧ d.conf = c.conf
    (¬mine → fails 2) ∧ (mine → busy → fails 3) ∧ (mine → ¬busy → imageCause (some img) ≠ 0 → fails 4) ∧
    (mine → ¬busy → imageCause (some img) = 0 → old → fails 5) ∧
    (mine → ¬busy → imageCause (some img) = 0 → ¬old →
      let now := chooseSlot c.conf.validA c.conf.validB (c.get Reg.CFG_SLOT_A_SEQ_SEQ) (c.get Reg.CFG_SLOT_B_SEQ_SEQ)
      let slot := if now = 1 then 1 else 0
      ∃ d, exec (.flashWrite p v) s = .next (s.withChip d) ∧ d.conf.writing = some slot ∧
        d.conf.sectors = (imageLength img + 4095) / 4096 ∧ d.get Reg.CFG_STATUS_FLASH_BUSY = 1 ∧
        d.get Reg.CFG_FLASH_STATUS_RESULT = 0 ∧ d.get Reg.CFG_FLASH_STATUS_SECTORS = 0 ∧ d.get Reg.CFG_FLASH_STATUS_SLOT = slot ∧
        d.out = c.out ++ [.flash 0 (65536 * slot) [], .flash 1 (65536 * slot) (img.take 4096)] ∧
        { c with regs := d.regs, out := d.out, conf := d.conf } = d)) ∧
  (∀ (back : Option (List Byte)) (s : State),
    let c := s.toChip
    let k := c.get Reg.CFG_FLASH_STATUS_SECTORS + 1
    let bs := back.getD []
    (c.conf.writing = none → exec (.flashSectorDone back) s = .next s) ∧
    (∀ slot, c.conf.writing = some slot → k < c.conf.sectors → exec (.flashSectorDone back) s =
      .next (s.withChip ((c.put Reg.CFG_FLASH_STATUS_SECTORS k).writeSector slot k))) ∧
    (∀ slot, c.conf.writing = some slot → c.conf.sectors ≤ k → ∃ d, exec (.flashSectorDone back) s = .next (s.withChip d) ∧
      d.conf.writing = none ∧ d.flag Reg.CFG_STATUS_FLASH_BUSY = c.conf.erasing ∧
      Output.flash 2 (65536 * slot) bs ∈ d.out ∧
      (imageCause back = 0 → d.get Reg.CFG_FLASH_STATUS_RESULT = 1 ∧ c.tells d 252 0 ∧
        d.get (if slot = 1 then Reg.CFG_SLOT_B_SEQ_SEQ else Reg.CFG_SLOT_A_SEQ_SEQ) = imageSeq bs ∧
        (if slot = 1 then d.conf.validB else d.conf.validA) = true) ∧
      (imageCause back ≠ 0 → d.get Reg.CFG_FLASH_STATUS_RESULT = 6 ∧ c.tells d 253 0 ∧
        (if slot = 1 then d.conf.validB else d.conf.validA) = false))) ∧
  (∀ (p : Port) (v : Word) (s : State), s.awake → v.getLsbD 0 = false → v.getLsbD 1 = false → v.getLsbD 2 = true →
    let c := s.toChip
    let mine := c.get (Reg.GLB_SEM_OWNER 0) = p.num + 1
    let able := v.toNat / 256 % 256 = 0x5A ∧ c.get Reg.CRN_STATUS_STATE = 0 ∧ c.conf.erasing = false
    let fails := fun (n : Nat) => exec (.ledgerErase p v) s =
      .next (s.withChip ((c.put Reg.CFG_FLASH_STATUS_RESULT n).raise 253 0 [(1, n)]))
    (¬mine → fails 2) ∧ (mine → ¬able → fails 3) ∧
    (mine → able → ∃ d, exec (.ledgerErase p v) s = .next (s.withChip d) ∧ d.conf.erasing = true ∧ d.ledger = [] ∧ d.ledgerTorn = 0 ∧
      d.ledgerPend = c.ledgerPend ∧ d.get Reg.CRN_MORAINE_SEQ_NEXT = 0 ∧ d.get Reg.CRN_MORAINE_STATUS_RECORDS = 0 ∧
      d.get Reg.CFG_STATUS_FLASH_BUSY = 1 ∧ d.out = c.out ++ ledgerSectors)) ∧
  (∀ s : State,
    let c := s.toChip
    (c.conf.erasing = false → exec .ledgerEraseDone s = .next s) ∧
    (c.conf.erasing = true → ∃ d, exec .ledgerEraseDone s = .next (s.withChip d) ∧ d.conf.erasing = false ∧ d.ledgerPend = [] ∧
      d.ledger.length = c.ledgerPend.length ∧
      (∀ i, i < c.ledgerPend.length → d.ledger.getD i [] = renumber i (c.ledgerPend.getD i [])) ∧
      d.get Reg.CRN_MORAINE_SEQ_NEXT = c.ledgerPend.length % 2 ^ 32 ∧
      d.flag Reg.CFG_STATUS_FLASH_BUSY = c.conf.writing.isSome)) ∧
  ∀ s : State,
    let c := s.toChip
    (c.conf.writing = none → c.conf.erasing = false → exec .flashTimeout s = .next s) ∧
    ((c.conf.writing.isSome = true ∨ c.conf.erasing = true) → ∃ d, exec .flashTimeout s = .next (s.withChip d) ∧
      d.get Reg.CFG_FLASH_STATUS_RESULT = 6 ∧ c.tells d 253 0 ∧ d.conf.writing = none ∧
      (c.conf.writing = none → d.conf.erasing = false) ∧
      d.flag Reg.CFG_STATUS_FLASH_BUSY = (c.conf.writing.isSome && c.conf.erasing))


end
end

