-- ==== Sys2Proof/Laws/Map.lean ====
section
/-! SUPPORT. Laws/Map.lean: reading, writing and dropping entries of a map, and its canonical form. -/

namespace Sys2Proof.Machine

variable {V : Type}

@[simp] theorem SMap.get_nil (d : V) (k : Nat) : SMap.get d k [] = d := rfl

theorem SMap.get_cons (d : V) (k : Nat) (e : Nat × V) (m : SMap V) :
    SMap.get d k (e :: m) = if e.1 = k then e.2 else SMap.get d k m := rfl

theorem SMap.get_erase_self (d : V) (k : Nat) (m : SMap V) : SMap.get d k (SMap.erase k m) = d := by
  induction m with
  | nil => rfl
  | cons e m ih =>
    unfold SMap.erase
    split
    · exact ih
    · rename_i h
      simp [SMap.get_cons, h, ih]

theorem SMap.get_erase_ne (d : V) {k j : Nat} (h : k ≠ j) (m : SMap V) :
    SMap.get d k (SMap.erase j m) = SMap.get d k m := by
  induction m with
  | nil => rfl
  | cons e m ih =>
    unfold SMap.erase
    split
    · rename_i hj
      simp only [SMap.get_cons, ih]
      rw [if_neg (by omega)]
    · simp only [SMap.get_cons, ih]

/-- No entry of a map without the key has that key. -/
theorem SMap.ne_of_mem_erase {k : Nat} {m : SMap V} {e : Nat × V} (h : e ∈ SMap.erase k m) : e.1 ≠ k ∧ e ∈ m := by
  induction m with
  | nil => simp [SMap.erase] at h
  | cons a m ih =>
    unfold SMap.erase at h
    split at h
    · exact ⟨(ih h).1, List.mem_cons_of_mem _ (ih h).2⟩
    · rename_i hk
      rcases List.mem_cons.1 h with rfl | h
      · exact ⟨hk, List.mem_cons_self ..⟩
      · exact ⟨(ih h).1, List.mem_cons_of_mem _ (ih h).2⟩

theorem SMap.get_insert_self (d v : V) (k : Nat) (m : SMap V) (h : ∀ e ∈ m, e.1 ≠ k) :
    SMap.get d k (SMap.insert k v m) = v := by
  induction m with
  | nil => simp [SMap.insert, SMap.get_cons]
  | cons e m ih =>
    unfold SMap.insert
    split
    · simp [SMap.get_cons]
    · simp only [SMap.get_cons]
      rw [if_neg (h e (List.mem_cons_self ..))]
      exact ih fun a ha => h a (List.mem_cons_of_mem _ ha)

theorem SMap.get_insert_ne (d v : V) {k j : Nat} (h : k ≠ j) (m : SMap V) :
    SMap.get d k (SMap.insert j v m) = SMap.get d k m := by
  induction m with
  | nil =>
    have : ¬ j = k := fun e => h e.symm
    simp [SMap.insert, SMap.get_cons, this]
  | cons e m ih =>
    unfold SMap.insert
    split
    · have : ¬ j = k := fun e => h e.symm
      simp [SMap.get_cons, this]
    · simp only [SMap.get_cons, ih]

/-- The value just set is the value read. -/
@[simp] theorem SMap.get_set_self [DecidableEq V] (d v : V) (k : Nat) (m : SMap V) :
    SMap.get d k (SMap.set d k v m) = v := by
  unfold SMap.set
  split
  · rename_i h
    rw [SMap.get_erase_self, h]
  · exact SMap.get_insert_self d v k _ fun e he => (SMap.ne_of_mem_erase he).1

/-- Setting one key leaves what every other key reads as. -/
theorem SMap.get_set_ne [DecidableEq V] (d d' v : V) {k j : Nat} (h : k ≠ j) (m : SMap V) :
    SMap.get d k (SMap.set d' j v m) = SMap.get d k m := by
  unfold SMap.set
  split
  · exact SMap.get_erase_ne d h m
  · rw [SMap.get_insert_ne d v h, SMap.get_erase_ne d h]

/-- Dropping entries leaves what a kept key reads as. -/
theorem SMap.get_drop (d : V) (p : Nat → Bool) (k : Nat) (h : p k = false) (m : SMap V) :
    SMap.get d k (SMap.drop p m) = SMap.get d k m := by
  induction m with
  | nil => rfl
  | cons e m ih =>
    unfold SMap.drop at *
    by_cases hp : p e.1
    · have : e.1 ≠ k := fun hk => by simp [hk, h] at hp
      simp [List.filter_cons, hp, SMap.get_cons, this, ih]
    · simp [List.filter_cons, hp, SMap.get_cons, ih]

/-! ### Canonical form -/

/-- Strictly rising keys at or above a bound, as a proposition. -/
theorem SMap.risingFrom_cons (lo : Nat) (e : Nat × V) (m : SMap V) :
    SMap.risingFrom lo (e :: m) = true ↔ lo ≤ e.1 ∧ SMap.risingFrom (e.1 + 1) m = true := by
  simp [SMap.risingFrom]

theorem SMap.risingFrom_mono {lo hi : Nat} (h : lo ≤ hi) {m : SMap V} (hm : SMap.risingFrom hi m = true) :
    SMap.risingFrom lo m = true := by
  cases m with
  | nil => rfl
  | cons e m =>
    rw [SMap.risingFrom_cons] at *
    exact ⟨by omega, hm.2⟩

theorem SMap.rising_filter (q : Nat × V → Bool) {lo : Nat} {m : SMap V} (h : SMap.risingFrom lo m = true) :
    SMap.risingFrom lo (m.filter q) = true := by
  induction m generalizing lo with
  | nil => rfl
  | cons e m ih =>
    rw [SMap.risingFrom_cons] at h
    rw [List.filter_cons]
    split
    · rw [SMap.risingFrom_cons]
      exact ⟨h.1, ih h.2⟩
    · exact SMap.risingFrom_mono (by omega) (ih h.2)

theorem SMap.erase_eq_filter (k : Nat) (m : SMap V) : SMap.erase k m = m.filter fun e => decide (e.1 ≠ k) := by
  induction m with
  | nil => rfl
  | cons e m ih =>
    unfold SMap.erase
    by_cases h : e.1 = k <;> simp [List.filter_cons, h, ih]

theorem SMap.rising_erase (k : Nat) {lo : Nat} {m : SMap V} (h : SMap.risingFrom lo m = true) :
    SMap.risingFrom lo (SMap.erase k m) = true := by
  rw [SMap.erase_eq_filter]
  exact SMap.rising_filter _ h

theorem SMap.rising_insert (k : Nat) (v : V) {lo : Nat} (hk : lo ≤ k) {m : SMap V} (h : SMap.risingFrom lo m = true)
    (hn : ∀ e ∈ m, e.1 ≠ k) : SMap.risingFrom lo (SMap.insert k v m) = true := by
  induction m generalizing lo with
  | nil => simp [SMap.insert, SMap.risingFrom, hk]
  | cons e m ih =>
    rw [SMap.risingFrom_cons] at h
    unfold SMap.insert
    have hne := hn e (List.mem_cons_self ..)
    split
    · simp only [SMap.risingFrom_cons]
      exact ⟨hk, by omega, h.2⟩
    · rw [SMap.risingFrom_cons]
      exact ⟨h.1, ih (by omega) h.2 fun a ha => hn a (List.mem_cons_of_mem _ ha)⟩

/-- Setting a value keeps the keys strictly rising. -/
theorem SMap.rising_set [DecidableEq V] (d v : V) (k : Nat) {m : SMap V} (h : SMap.risingFrom 0 m = true) :
    SMap.risingFrom 0 (SMap.set d k v m) = true := by
  unfold SMap.set
  split
  · exact SMap.rising_erase k h
  · exact SMap.rising_insert k v (Nat.zero_le _) (SMap.rising_erase k h) fun e he => (SMap.ne_of_mem_erase he).1

theorem SMap.rising_drop (p : Nat → Bool) {m : SMap V} (h : SMap.risingFrom 0 m = true) :
    SMap.risingFrom 0 (SMap.drop p m) = true := SMap.rising_filter _ h

theorem SMap.mem_insert {k : Nat} {v : V} {m : SMap V} {e : Nat × V} (h : e ∈ SMap.insert k v m) : e = (k, v) ∨ e ∈ m := by
  induction m with
  | nil => simpa [SMap.insert] using h
  | cons a m ih =>
    unfold SMap.insert at h
    split at h
    · rcases List.mem_cons.1 h with h | h
      · exact .inl h
      · exact .inr h
    · rcases List.mem_cons.1 h with rfl | h
      · exact .inr (List.mem_cons_self ..)
      · exact (ih h).imp id (List.mem_cons_of_mem _)

/-- An entry after a value is set is the one set or was there before. -/
theorem SMap.mem_set [DecidableEq V] {d v : V} {k : Nat} {m : SMap V} {e : Nat × V} (h : e ∈ SMap.set d k v m) :
    e = (k, v) ∨ e ∈ m := by
  unfold SMap.set at h
  split at h
  · exact .inr (SMap.ne_of_mem_erase h).2
  · exact (SMap.mem_insert h).imp id fun h => (SMap.ne_of_mem_erase h).2

/-- Setting a value keeps the canonical form. -/
theorem SMap.wf_set [DecidableEq V] (d v : V) (k : Nat) {m : SMap V} (h : SMap.wf d m = true) :
    SMap.wf d (SMap.set d k v m) = true := by
  simp only [SMap.wf, Bool.and_eq_true, List.all_eq_true, decide_eq_true_eq] at *
  refine ⟨SMap.rising_set d v k h.1, fun e he => ?_⟩
  unfold SMap.set at he
  split at he
  · exact h.2 e (SMap.ne_of_mem_erase he).2
  · rename_i hv
    rcases SMap.mem_insert he with rfl | he
    · exact hv
    · exact h.2 e (SMap.ne_of_mem_erase he).2

end Sys2Proof.Machine
end

