-- ==== Sys2Proof/Laws/State.lean ====
section
/-! SUPPORT. Laws/State.lean: what each operation on the controller leaves as it is, field by field, and what it reads
back, so that no proof unfolds a record update. -/

namespace Sys2Proof.Machine

/-! ### A register field set -/

@[simp] theorem Chip.put_out (c : Chip) (g : Field) (v : Nat) : (c.put g v).out = c.out := rfl
@[simp] theorem Chip.put_et (c : Chip) (g : Field) (v : Nat) : (c.put g v).et = c.et := rfl
@[simp] theorem Chip.put_clk (c : Chip) (g : Field) (v : Nat) : (c.put g v).clk = c.clk := rfl
@[simp] theorem Chip.put_fresh (c : Chip) (g : Field) (v : Nat) : (c.put g v).fresh = c.fresh := rfl
@[simp] theorem Chip.put_evPend (c : Chip) (g : Field) (v : Nat) : (c.put g v).evPend = c.evPend := rfl
@[simp] theorem Chip.put_msix (c : Chip) (g : Field) (v : Nat) : (c.put g v).msix = c.msix := rfl
@[simp] theorem Chip.put_pcie (c : Chip) (g : Field) (v : Nat) : (c.put g v).pcie = c.pcie := rfl
@[simp] theorem Chip.put_heldVectors (c : Chip) (g : Field) (v : Nat) : (c.put g v).heldVectors = c.heldVectors := rfl
@[simp] theorem Chip.put_rings (c : Chip) (g : Field) (v : Nat) : (c.put g v).rings = c.rings := rfl
@[simp] theorem Chip.put_stateItems (c : Chip) (g : Field) (v : Nat) : (c.put g v).stateItems = c.stateItems := rfl
@[simp] theorem Chip.put_inspItems (c : Chip) (g : Field) (v : Nat) : (c.put g v).inspItems = c.inspItems := rfl
@[simp] theorem Chip.put_semTieA (c : Chip) (g : Field) (v : Nat) : (c.put g v).semTieA = c.semTieA := rfl
@[simp] theorem Chip.put_latches (c : Chip) (g : Field) (v : Nat) : (c.put g v).latches = c.latches := rfl
@[simp] theorem Chip.put_servo (c : Chip) (g : Field) (v : Nat) : (c.put g v).servo = c.servo := rfl
@[simp] theorem Chip.put_ptp (c : Chip) (g : Field) (v : Nat) : (c.put g v).ptp = c.ptp := rfl
@[simp] theorem Chip.put_sched (c : Chip) (g : Field) (v : Nat) : (c.put g v).sched = c.sched := rfl
@[simp] theorem Chip.put_blockUsed (c : Chip) (g : Field) (v : Nat) : (c.put g v).blockUsed = c.blockUsed := rfl
@[simp] theorem Chip.put_layers (c : Chip) (g : Field) (v : Nat) : (c.put g v).layers = c.layers := rfl
@[simp] theorem Chip.put_run (c : Chip) (g : Field) (v : Nat) : (c.put g v).run = c.run := rfl
@[simp] theorem Chip.put_recent (c : Chip) (g : Field) (v : Nat) : (c.put g v).recent = c.recent := rfl
@[simp] theorem Chip.put_est (c : Chip) (g : Field) (v : Nat) : (c.put g v).est = c.est := rfl
@[simp] theorem Chip.put_nextIndex (c : Chip) (g : Field) (v : Nat) : (c.put g v).nextIndex = c.nextIndex := rfl
@[simp] theorem Chip.put_bandCount (c : Chip) (g : Field) (v : Nat) : (c.put g v).bandCount = c.bandCount := rfl
@[simp] theorem Chip.put_nzt (c : Chip) (g : Field) (v : Nat) : (c.put g v).nzt = c.nzt := rfl
@[simp] theorem Chip.put_sub (c : Chip) (g : Field) (v : Nat) : (c.put g v).sub = c.sub := rfl
@[simp] theorem Chip.put_grey (c : Chip) (g : Field) (v : Nat) : (c.put g v).grey = c.grey := rfl
@[simp] theorem Chip.put_rowErrs (c : Chip) (g : Field) (v : Nat) : (c.put g v).rowErrs = c.rowErrs := rfl
@[simp] theorem Chip.put_sparesOut (c : Chip) (g : Field) (v : Nat) : (c.put g v).sparesOut = c.sparesOut := rfl
@[simp] theorem Chip.put_ledger (c : Chip) (g : Field) (v : Nat) : (c.put g v).ledger = c.ledger := rfl
@[simp] theorem Chip.put_ledgerPend (c : Chip) (g : Field) (v : Nat) : (c.put g v).ledgerPend = c.ledgerPend := rfl
@[simp] theorem Chip.put_ledgerFull (c : Chip) (g : Field) (v : Nat) : (c.put g v).ledgerFull = c.ledgerFull := rfl
@[simp] theorem Chip.put_jobs (c : Chip) (g : Field) (v : Nat) : (c.put g v).jobs = c.jobs := rfl
@[simp] theorem Chip.put_engines (c : Chip) (g : Field) (v : Nat) : (c.put g v).engines = c.engines := rfl
@[simp] theorem Chip.put_outItems (c : Chip) (g : Field) (v : Nat) : (c.put g v).outItems = c.outItems := rfl
@[simp] theorem Chip.put_itemNo (c : Chip) (g : Field) (v : Nat) : (c.put g v).itemNo = c.itemNo := rfl
@[simp] theorem Chip.put_deposit (c : Chip) (g : Field) (v : Nat) : (c.put g v).deposit = c.deposit := rfl
@[simp] theorem Chip.put_acc0 (c : Chip) (g : Field) (v : Nat) : (c.put g v).acc0 = c.acc0 := rfl
@[simp] theorem Chip.put_acc1 (c : Chip) (g : Field) (v : Nat) : (c.put g v).acc1 = c.acc1 := rfl
@[simp] theorem Chip.put_accNext (c : Chip) (g : Field) (v : Nat) : (c.put g v).accNext = c.accNext := rfl
@[simp] theorem Chip.put_tracked (c : Chip) (g : Field) (v : Nat) : (c.put g v).tracked = c.tracked := rfl
@[simp] theorem Chip.put_mirrorSeq (c : Chip) (g : Field) (v : Nat) : (c.put g v).mirrorSeq = c.mirrorSeq := rfl
@[simp] theorem Chip.put_mirrorWait (c : Chip) (g : Field) (v : Nat) : (c.put g v).mirrorWait = c.mirrorWait := rfl
@[simp] theorem Chip.put_lanes (c : Chip) (g : Field) (v : Nat) : (c.put g v).lanes = c.lanes := rfl
@[simp] theorem Chip.put_heads (c : Chip) (g : Field) (v : Nat) : (c.put g v).heads = c.heads := rfl
@[simp] theorem Chip.put_stepSum (c : Chip) (g : Field) (v : Nat) : (c.put g v).stepSum = c.stepSum := rfl
@[simp] theorem Chip.put_wraps (c : Chip) (g : Field) (v : Nat) : (c.put g v).wraps = c.wraps := rfl
@[simp] theorem Chip.put_tickBase (c : Chip) (g : Field) (v : Nat) : (c.put g v).tickBase = c.tickBase := rfl
@[simp] theorem Chip.put_estopDue (c : Chip) (g : Field) (v : Nat) : (c.put g v).estopDue = c.estopDue := rfl
@[simp] theorem Chip.put_fireSince (c : Chip) (g : Field) (v : Nat) : (c.put g v).fireSince = c.fireSince := rfl
@[simp] theorem Chip.put_settleDue (c : Chip) (g : Field) (v : Nat) : (c.put g v).settleDue = c.settleDue := rfl
@[simp] theorem Chip.put_chanSince (c : Chip) (g : Field) (v : Nat) : (c.put g v).chanSince = c.chanSince := rfl
@[simp] theorem Chip.put_frames (c : Chip) (g : Field) (v : Nat) : (c.put g v).frames = c.frames := rfl
@[simp] theorem Chip.put_camSlots (c : Chip) (g : Field) (v : Nat) : (c.put g v).camSlots = c.camSlots := rfl
@[simp] theorem Chip.put_camCtx (c : Chip) (g : Field) (v : Nat) : (c.put g v).camCtx = c.camCtx := rfl
@[simp] theorem Chip.put_runCounts (c : Chip) (g : Field) (v : Nat) : (c.put g v).runCounts = c.runCounts := rfl
@[simp] theorem Chip.put_healWin (c : Chip) (g : Field) (v : Nat) : (c.put g v).healWin = c.healWin := rfl
@[simp] theorem Chip.put_healEval (c : Chip) (g : Field) (v : Nat) : (c.put g v).healEval = c.healEval := rfl
@[simp] theorem Chip.put_healPast (c : Chip) (g : Field) (v : Nat) : (c.put g v).healPast = c.healPast := rfl
@[simp] theorem Chip.put_healEvaluated (c : Chip) (g : Field) (v : Nat) : (c.put g v).healEvaluated = c.healEvaluated := rfl
@[simp] theorem Chip.put_lostTold (c : Chip) (g : Field) (v : Nat) : (c.put g v).lostTold = c.lostTold := rfl
@[simp] theorem Chip.put_armWaitSince (c : Chip) (g : Field) (v : Nat) : (c.put g v).armWaitSince = c.armWaitSince := rfl
@[simp] theorem Chip.put_encs (c : Chip) (g : Field) (v : Nat) : (c.put g v).encs = c.encs := rfl
@[simp] theorem Chip.put_axes (c : Chip) (g : Field) (v : Nat) : (c.put g v).axes = c.axes := rfl
@[simp] theorem Chip.put_drv (c : Chip) (g : Field) (v : Nat) : (c.put g v).drv = c.drv := rfl
@[simp] theorem Chip.put_slots (c : Chip) (g : Field) (v : Nat) : (c.put g v).slots = c.slots := rfl
@[simp] theorem Chip.put_groups (c : Chip) (g : Field) (v : Nat) : (c.put g v).groups = c.groups := rfl
@[simp] theorem Chip.put_loopCmds (c : Chip) (g : Field) (v : Nat) : (c.put g v).loopCmds = c.loopCmds := rfl
@[simp] theorem Chip.put_ainLeft (c : Chip) (g : Field) (v : Nat) : (c.put g v).ainLeft = c.ainLeft := rfl
@[simp] theorem Chip.put_vffTold (c : Chip) (g : Field) (v : Nat) : (c.put g v).vffTold = c.vffTold := rfl
@[simp] theorem Chip.put_ainConv (c : Chip) (g : Field) (v : Nat) : (c.put g v).ainConv = c.ainConv := rfl
@[simp] theorem Chip.put_adcAt (c : Chip) (g : Field) (v : Nat) : (c.put g v).adcAt = c.adcAt := rfl
@[simp] theorem Chip.put_pwmDuty (c : Chip) (g : Field) (v : Nat) : (c.put g v).pwmDuty = c.pwmDuty := rfl
@[simp] theorem Chip.put_pwmStart (c : Chip) (g : Field) (v : Nat) : (c.put g v).pwmStart = c.pwmStart := rfl
@[simp] theorem Chip.put_pwmPass (c : Chip) (g : Field) (v : Nat) : (c.put g v).pwmPass = c.pwmPass := rfl
@[simp] theorem Chip.put_motionAt (c : Chip) (g : Field) (v : Nat) : (c.put g v).motionAt = c.motionAt := rfl
@[simp] theorem Chip.put_limp (c : Chip) (g : Field) (v : Nat) : (c.put g v).limp = c.limp := rfl
@[simp] theorem Chip.put_limn (c : Chip) (g : Field) (v : Nat) : (c.put g v).limn = c.limn := rfl
@[simp] theorem Chip.put_regions (c : Chip) (g : Field) (v : Nat) : (c.put g v).regions = c.regions := rfl
@[simp] theorem Chip.put_rankRecs (c : Chip) (g : Field) (v : Nat) : (c.put g v).rankRecs = c.rankRecs := rfl
@[simp] theorem Chip.put_migration (c : Chip) (g : Field) (v : Nat) : (c.put g v).migration = c.migration := rfl
@[simp] theorem Chip.put_wanted (c : Chip) (g : Field) (v : Nat) : (c.put g v).wanted = c.wanted := rfl
@[simp] theorem Chip.put_calmPolls (c : Chip) (g : Field) (v : Nat) : (c.put g v).calmPolls = c.calmPolls := rfl
@[simp] theorem Chip.put_refreshDue (c : Chip) (g : Field) (v : Nat) : (c.put g v).refreshDue = c.refreshDue := rfl
@[simp] theorem Chip.put_leakDue (c : Chip) (g : Field) (v : Nat) : (c.put g v).leakDue = c.leakDue := rfl
@[simp] theorem Chip.put_eyeDue (c : Chip) (g : Field) (v : Nat) : (c.put g v).eyeDue = c.eyeDue := rfl
@[simp] theorem Chip.put_eyeOwed (c : Chip) (g : Field) (v : Nat) : (c.put g v).eyeOwed = c.eyeOwed := rfl
@[simp] theorem Chip.put_pollDue (c : Chip) (g : Field) (v : Nat) : (c.put g v).pollDue = c.pollDue := rfl
@[simp] theorem Chip.put_scrubbed (c : Chip) (g : Field) (v : Nat) : (c.put g v).scrubbed = c.scrubbed := rfl
@[simp] theorem Chip.put_scrubStart (c : Chip) (g : Field) (v : Nat) : (c.put g v).scrubStart = c.scrubStart := rfl
@[simp] theorem Chip.put_banks (c : Chip) (g : Field) (v : Nat) : (c.put g v).banks = c.banks := rfl
@[simp] theorem Chip.put_ceSince (c : Chip) (g : Field) (v : Nat) : (c.put g v).ceSince = c.ceSince := rfl
@[simp] theorem Chip.put_ceTellFrom (c : Chip) (g : Field) (v : Nat) : (c.put g v).ceTellFrom = c.ceTellFrom := rfl
@[simp] theorem Chip.put_selfRefresh (c : Chip) (g : Field) (v : Nat) : (c.put g v).selfRefresh = c.selfRefresh := rfl
@[simp] theorem Chip.put_healPoison (c : Chip) (g : Field) (v : Nat) : (c.put g v).healPoison = c.healPoison := rfl
@[simp] theorem Chip.put_copyPoison (c : Chip) (g : Field) (v : Nat) : (c.put g v).copyPoison = c.copyPoison := rfl
@[simp] theorem Chip.put_tdm (c : Chip) (g : Field) (v : Nat) : (c.put g v).tdm = c.tdm := rfl
@[simp] theorem Chip.put_wdogLoss (c : Chip) (g : Field) (v : Nat) : (c.put g v).wdogLoss = c.wdogLoss := rfl
@[simp] theorem Chip.put_power (c : Chip) (g : Field) (v : Nat) : (c.put g v).power = c.power := rfl
@[simp] theorem Chip.put_island (c : Chip) (g : Field) (v : Nat) : (c.put g v).island = c.island := rfl
@[simp] theorem Chip.put_strikeUntil (c : Chip) (g : Field) (v : Nat) : (c.put g v).strikeUntil = c.strikeUntil := rfl
@[simp] theorem Chip.put_quar (c : Chip) (g : Field) (v : Nat) : (c.put g v).quar = c.quar := rfl
@[simp] theorem Chip.put_conf (c : Chip) (g : Field) (v : Nat) : (c.put g v).conf = c.conf := rfl
@[simp] theorem Chip.put_ledgerTorn (c : Chip) (g : Field) (v : Nat) : (c.put g v).ledgerTorn = c.ledgerTorn := rfl

/-! ### Something put out -/

@[simp] theorem Chip.emit_regs (c : Chip) (o : Output) : (c.emit o).regs = c.regs := rfl
@[simp] theorem Chip.emit_et (c : Chip) (o : Output) : (c.emit o).et = c.et := rfl
@[simp] theorem Chip.emit_clk (c : Chip) (o : Output) : (c.emit o).clk = c.clk := rfl
@[simp] theorem Chip.emit_fresh (c : Chip) (o : Output) : (c.emit o).fresh = c.fresh := rfl
@[simp] theorem Chip.emit_evPend (c : Chip) (o : Output) : (c.emit o).evPend = c.evPend := rfl
@[simp] theorem Chip.emit_msix (c : Chip) (o : Output) : (c.emit o).msix = c.msix := rfl
@[simp] theorem Chip.emit_pcie (c : Chip) (o : Output) : (c.emit o).pcie = c.pcie := rfl
@[simp] theorem Chip.emit_heldVectors (c : Chip) (o : Output) : (c.emit o).heldVectors = c.heldVectors := rfl
@[simp] theorem Chip.emit_rings (c : Chip) (o : Output) : (c.emit o).rings = c.rings := rfl
@[simp] theorem Chip.emit_stateItems (c : Chip) (o : Output) : (c.emit o).stateItems = c.stateItems := rfl
@[simp] theorem Chip.emit_inspItems (c : Chip) (o : Output) : (c.emit o).inspItems = c.inspItems := rfl
@[simp] theorem Chip.emit_semTieA (c : Chip) (o : Output) : (c.emit o).semTieA = c.semTieA := rfl
@[simp] theorem Chip.emit_latches (c : Chip) (o : Output) : (c.emit o).latches = c.latches := rfl
@[simp] theorem Chip.emit_servo (c : Chip) (o : Output) : (c.emit o).servo = c.servo := rfl
@[simp] theorem Chip.emit_ptp (c : Chip) (o : Output) : (c.emit o).ptp = c.ptp := rfl
@[simp] theorem Chip.emit_sched (c : Chip) (o : Output) : (c.emit o).sched = c.sched := rfl
@[simp] theorem Chip.emit_blockUsed (c : Chip) (o : Output) : (c.emit o).blockUsed = c.blockUsed := rfl
@[simp] theorem Chip.emit_layers (c : Chip) (o : Output) : (c.emit o).layers = c.layers := rfl
@[simp] theorem Chip.emit_run (c : Chip) (o : Output) : (c.emit o).run = c.run := rfl
@[simp] theorem Chip.emit_recent (c : Chip) (o : Output) : (c.emit o).recent = c.recent := rfl
@[simp] theorem Chip.emit_est (c : Chip) (o : Output) : (c.emit o).est = c.est := rfl
@[simp] theorem Chip.emit_nextIndex (c : Chip) (o : Output) : (c.emit o).nextIndex = c.nextIndex := rfl
@[simp] theorem Chip.emit_bandCount (c : Chip) (o : Output) : (c.emit o).bandCount = c.bandCount := rfl
@[simp] theorem Chip.emit_nzt (c : Chip) (o : Output) : (c.emit o).nzt = c.nzt := rfl
@[simp] theorem Chip.emit_sub (c : Chip) (o : Output) : (c.emit o).sub = c.sub := rfl
@[simp] theorem Chip.emit_grey (c : Chip) (o : Output) : (c.emit o).grey = c.grey := rfl
@[simp] theorem Chip.emit_rowErrs (c : Chip) (o : Output) : (c.emit o).rowErrs = c.rowErrs := rfl
@[simp] theorem Chip.emit_sparesOut (c : Chip) (o : Output) : (c.emit o).sparesOut = c.sparesOut := rfl
@[simp] theorem Chip.emit_ledger (c : Chip) (o : Output) : (c.emit o).ledger = c.ledger := rfl
@[simp] theorem Chip.emit_ledgerPend (c : Chip) (o : Output) : (c.emit o).ledgerPend = c.ledgerPend := rfl
@[simp] theorem Chip.emit_ledgerFull (c : Chip) (o : Output) : (c.emit o).ledgerFull = c.ledgerFull := rfl
@[simp] theorem Chip.emit_jobs (c : Chip) (o : Output) : (c.emit o).jobs = c.jobs := rfl
@[simp] theorem Chip.emit_engines (c : Chip) (o : Output) : (c.emit o).engines = c.engines := rfl
@[simp] theorem Chip.emit_outItems (c : Chip) (o : Output) : (c.emit o).outItems = c.outItems := rfl
@[simp] theorem Chip.emit_itemNo (c : Chip) (o : Output) : (c.emit o).itemNo = c.itemNo := rfl
@[simp] theorem Chip.emit_deposit (c : Chip) (o : Output) : (c.emit o).deposit = c.deposit := rfl
@[simp] theorem Chip.emit_acc0 (c : Chip) (o : Output) : (c.emit o).acc0 = c.acc0 := rfl
@[simp] theorem Chip.emit_acc1 (c : Chip) (o : Output) : (c.emit o).acc1 = c.acc1 := rfl
@[simp] theorem Chip.emit_accNext (c : Chip) (o : Output) : (c.emit o).accNext = c.accNext := rfl
@[simp] theorem Chip.emit_tracked (c : Chip) (o : Output) : (c.emit o).tracked = c.tracked := rfl
@[simp] theorem Chip.emit_mirrorSeq (c : Chip) (o : Output) : (c.emit o).mirrorSeq = c.mirrorSeq := rfl
@[simp] theorem Chip.emit_mirrorWait (c : Chip) (o : Output) : (c.emit o).mirrorWait = c.mirrorWait := rfl
@[simp] theorem Chip.emit_lanes (c : Chip) (o : Output) : (c.emit o).lanes = c.lanes := rfl
@[simp] theorem Chip.emit_heads (c : Chip) (o : Output) : (c.emit o).heads = c.heads := rfl
@[simp] theorem Chip.emit_stepSum (c : Chip) (o : Output) : (c.emit o).stepSum = c.stepSum := rfl
@[simp] theorem Chip.emit_wraps (c : Chip) (o : Output) : (c.emit o).wraps = c.wraps := rfl
@[simp] theorem Chip.emit_tickBase (c : Chip) (o : Output) : (c.emit o).tickBase = c.tickBase := rfl
@[simp] theorem Chip.emit_estopDue (c : Chip) (o : Output) : (c.emit o).estopDue = c.estopDue := rfl
@[simp] theorem Chip.emit_fireSince (c : Chip) (o : Output) : (c.emit o).fireSince = c.fireSince := rfl
@[simp] theorem Chip.emit_settleDue (c : Chip) (o : Output) : (c.emit o).settleDue = c.settleDue := rfl
@[simp] theorem Chip.emit_chanSince (c : Chip) (o : Output) : (c.emit o).chanSince = c.chanSince := rfl
@[simp] theorem Chip.emit_frames (c : Chip) (o : Output) : (c.emit o).frames = c.frames := rfl
@[simp] theorem Chip.emit_camSlots (c : Chip) (o : Output) : (c.emit o).camSlots = c.camSlots := rfl
@[simp] theorem Chip.emit_camCtx (c : Chip) (o : Output) : (c.emit o).camCtx = c.camCtx := rfl
@[simp] theorem Chip.emit_runCounts (c : Chip) (o : Output) : (c.emit o).runCounts = c.runCounts := rfl
@[simp] theorem Chip.emit_healWin (c : Chip) (o : Output) : (c.emit o).healWin = c.healWin := rfl
@[simp] theorem Chip.emit_healEval (c : Chip) (o : Output) : (c.emit o).healEval = c.healEval := rfl
@[simp] theorem Chip.emit_healPast (c : Chip) (o : Output) : (c.emit o).healPast = c.healPast := rfl
@[simp] theorem Chip.emit_healEvaluated (c : Chip) (o : Output) : (c.emit o).healEvaluated = c.healEvaluated := rfl
@[simp] theorem Chip.emit_lostTold (c : Chip) (o : Output) : (c.emit o).lostTold = c.lostTold := rfl
@[simp] theorem Chip.emit_armWaitSince (c : Chip) (o : Output) : (c.emit o).armWaitSince = c.armWaitSince := rfl
@[simp] theorem Chip.emit_encs (c : Chip) (o : Output) : (c.emit o).encs = c.encs := rfl
@[simp] theorem Chip.emit_axes (c : Chip) (o : Output) : (c.emit o).axes = c.axes := rfl
@[simp] theorem Chip.emit_drv (c : Chip) (o : Output) : (c.emit o).drv = c.drv := rfl
@[simp] theorem Chip.emit_slots (c : Chip) (o : Output) : (c.emit o).slots = c.slots := rfl
@[simp] theorem Chip.emit_groups (c : Chip) (o : Output) : (c.emit o).groups = c.groups := rfl
@[simp] theorem Chip.emit_loopCmds (c : Chip) (o : Output) : (c.emit o).loopCmds = c.loopCmds := rfl
@[simp] theorem Chip.emit_ainLeft (c : Chip) (o : Output) : (c.emit o).ainLeft = c.ainLeft := rfl
@[simp] theorem Chip.emit_vffTold (c : Chip) (o : Output) : (c.emit o).vffTold = c.vffTold := rfl
@[simp] theorem Chip.emit_ainConv (c : Chip) (o : Output) : (c.emit o).ainConv = c.ainConv := rfl
@[simp] theorem Chip.emit_adcAt (c : Chip) (o : Output) : (c.emit o).adcAt = c.adcAt := rfl
@[simp] theorem Chip.emit_pwmDuty (c : Chip) (o : Output) : (c.emit o).pwmDuty = c.pwmDuty := rfl
@[simp] theorem Chip.emit_pwmStart (c : Chip) (o : Output) : (c.emit o).pwmStart = c.pwmStart := rfl
@[simp] theorem Chip.emit_pwmPass (c : Chip) (o : Output) : (c.emit o).pwmPass = c.pwmPass := rfl
@[simp] theorem Chip.emit_motionAt (c : Chip) (o : Output) : (c.emit o).motionAt = c.motionAt := rfl
@[simp] theorem Chip.emit_limp (c : Chip) (o : Output) : (c.emit o).limp = c.limp := rfl
@[simp] theorem Chip.emit_limn (c : Chip) (o : Output) : (c.emit o).limn = c.limn := rfl
@[simp] theorem Chip.emit_regions (c : Chip) (o : Output) : (c.emit o).regions = c.regions := rfl
@[simp] theorem Chip.emit_rankRecs (c : Chip) (o : Output) : (c.emit o).rankRecs = c.rankRecs := rfl
@[simp] theorem Chip.emit_migration (c : Chip) (o : Output) : (c.emit o).migration = c.migration := rfl
@[simp] theorem Chip.emit_wanted (c : Chip) (o : Output) : (c.emit o).wanted = c.wanted := rfl
@[simp] theorem Chip.emit_calmPolls (c : Chip) (o : Output) : (c.emit o).calmPolls = c.calmPolls := rfl
@[simp] theorem Chip.emit_refreshDue (c : Chip) (o : Output) : (c.emit o).refreshDue = c.refreshDue := rfl
@[simp] theorem Chip.emit_leakDue (c : Chip) (o : Output) : (c.emit o).leakDue = c.leakDue := rfl
@[simp] theorem Chip.emit_eyeDue (c : Chip) (o : Output) : (c.emit o).eyeDue = c.eyeDue := rfl
@[simp] theorem Chip.emit_eyeOwed (c : Chip) (o : Output) : (c.emit o).eyeOwed = c.eyeOwed := rfl
@[simp] theorem Chip.emit_pollDue (c : Chip) (o : Output) : (c.emit o).pollDue = c.pollDue := rfl
@[simp] theorem Chip.emit_scrubbed (c : Chip) (o : Output) : (c.emit o).scrubbed = c.scrubbed := rfl
@[simp] theorem Chip.emit_scrubStart (c : Chip) (o : Output) : (c.emit o).scrubStart = c.scrubStart := rfl
@[simp] theorem Chip.emit_banks (c : Chip) (o : Output) : (c.emit o).banks = c.banks := rfl
@[simp] theorem Chip.emit_ceSince (c : Chip) (o : Output) : (c.emit o).ceSince = c.ceSince := rfl
@[simp] theorem Chip.emit_ceTellFrom (c : Chip) (o : Output) : (c.emit o).ceTellFrom = c.ceTellFrom := rfl
@[simp] theorem Chip.emit_selfRefresh (c : Chip) (o : Output) : (c.emit o).selfRefresh = c.selfRefresh := rfl
@[simp] theorem Chip.emit_healPoison (c : Chip) (o : Output) : (c.emit o).healPoison = c.healPoison := rfl
@[simp] theorem Chip.emit_copyPoison (c : Chip) (o : Output) : (c.emit o).copyPoison = c.copyPoison := rfl
@[simp] theorem Chip.emit_tdm (c : Chip) (o : Output) : (c.emit o).tdm = c.tdm := rfl
@[simp] theorem Chip.emit_wdogLoss (c : Chip) (o : Output) : (c.emit o).wdogLoss = c.wdogLoss := rfl
@[simp] theorem Chip.emit_power (c : Chip) (o : Output) : (c.emit o).power = c.power := rfl
@[simp] theorem Chip.emit_island (c : Chip) (o : Output) : (c.emit o).island = c.island := rfl
@[simp] theorem Chip.emit_strikeUntil (c : Chip) (o : Output) : (c.emit o).strikeUntil = c.strikeUntil := rfl
@[simp] theorem Chip.emit_quar (c : Chip) (o : Output) : (c.emit o).quar = c.quar := rfl
@[simp] theorem Chip.emit_conf (c : Chip) (o : Output) : (c.emit o).conf = c.conf := rfl
@[simp] theorem Chip.emit_ledgerTorn (c : Chip) (o : Output) : (c.emit o).ledgerTorn = c.ledgerTorn := rfl
@[simp] theorem Chip.emit_out (c : Chip) (o : Output) : (c.emit o).out = c.out ++ [o] := rfl

/-! ### A free value drawn -/

@[simp] theorem Chip.drawn_regs (c : Chip) : c.drawn.regs = c.regs := rfl
@[simp] theorem Chip.drawn_out (c : Chip) : c.drawn.out = c.out := rfl
@[simp] theorem Chip.drawn_et (c : Chip) : c.drawn.et = c.et := rfl
@[simp] theorem Chip.drawn_clk (c : Chip) : c.drawn.clk = c.clk := rfl
@[simp] theorem Chip.drawn_evPend (c : Chip) : c.drawn.evPend = c.evPend := rfl
@[simp] theorem Chip.drawn_msix (c : Chip) : c.drawn.msix = c.msix := rfl
@[simp] theorem Chip.drawn_pcie (c : Chip) : c.drawn.pcie = c.pcie := rfl
@[simp] theorem Chip.drawn_heldVectors (c : Chip) : c.drawn.heldVectors = c.heldVectors := rfl
@[simp] theorem Chip.drawn_rings (c : Chip) : c.drawn.rings = c.rings := rfl
@[simp] theorem Chip.drawn_stateItems (c : Chip) : c.drawn.stateItems = c.stateItems := rfl
@[simp] theorem Chip.drawn_inspItems (c : Chip) : c.drawn.inspItems = c.inspItems := rfl
@[simp] theorem Chip.drawn_semTieA (c : Chip) : c.drawn.semTieA = c.semTieA := rfl
@[simp] theorem Chip.drawn_latches (c : Chip) : c.drawn.latches = c.latches := rfl
@[simp] theorem Chip.drawn_servo (c : Chip) : c.drawn.servo = c.servo := rfl
@[simp] theorem Chip.drawn_ptp (c : Chip) : c.drawn.ptp = c.ptp := rfl
@[simp] theorem Chip.drawn_sched (c : Chip) : c.drawn.sched = c.sched := rfl
@[simp] theorem Chip.drawn_blockUsed (c : Chip) : c.drawn.blockUsed = c.blockUsed := rfl
@[simp] theorem Chip.drawn_layers (c : Chip) : c.drawn.layers = c.layers := rfl
@[simp] theorem Chip.drawn_run (c : Chip) : c.drawn.run = c.run := rfl
@[simp] theorem Chip.drawn_recent (c : Chip) : c.drawn.recent = c.recent := rfl
@[simp] theorem Chip.drawn_est (c : Chip) : c.drawn.est = c.est := rfl
@[simp] theorem Chip.drawn_nextIndex (c : Chip) : c.drawn.nextIndex = c.nextIndex := rfl
@[simp] theorem Chip.drawn_bandCount (c : Chip) : c.drawn.bandCount = c.bandCount := rfl
@[simp] theorem Chip.drawn_nzt (c : Chip) : c.drawn.nzt = c.nzt := rfl
@[simp] theorem Chip.drawn_sub (c : Chip) : c.drawn.sub = c.sub := rfl
@[simp] theorem Chip.drawn_grey (c : Chip) : c.drawn.grey = c.grey := rfl
@[simp] theorem Chip.drawn_rowErrs (c : Chip) : c.drawn.rowErrs = c.rowErrs := rfl
@[simp] theorem Chip.drawn_sparesOut (c : Chip) : c.drawn.sparesOut = c.sparesOut := rfl
@[simp] theorem Chip.drawn_ledger (c : Chip) : c.drawn.ledger = c.ledger := rfl
@[simp] theorem Chip.drawn_ledgerPend (c : Chip) : c.drawn.ledgerPend = c.ledgerPend := rfl
@[simp] theorem Chip.drawn_ledgerFull (c : Chip) : c.drawn.ledgerFull = c.ledgerFull := rfl
@[simp] theorem Chip.drawn_jobs (c : Chip) : c.drawn.jobs = c.jobs := rfl
@[simp] theorem Chip.drawn_engines (c : Chip) : c.drawn.engines = c.engines := rfl
@[simp] theorem Chip.drawn_outItems (c : Chip) : c.drawn.outItems = c.outItems := rfl
@[simp] theorem Chip.drawn_itemNo (c : Chip) : c.drawn.itemNo = c.itemNo := rfl
@[simp] theorem Chip.drawn_deposit (c : Chip) : c.drawn.deposit = c.deposit := rfl
@[simp] theorem Chip.drawn_acc0 (c : Chip) : c.drawn.acc0 = c.acc0 := rfl
@[simp] theorem Chip.drawn_acc1 (c : Chip) : c.drawn.acc1 = c.acc1 := rfl
@[simp] theorem Chip.drawn_accNext (c : Chip) : c.drawn.accNext = c.accNext := rfl
@[simp] theorem Chip.drawn_tracked (c : Chip) : c.drawn.tracked = c.tracked := rfl
@[simp] theorem Chip.drawn_mirrorSeq (c : Chip) : c.drawn.mirrorSeq = c.mirrorSeq := rfl
@[simp] theorem Chip.drawn_mirrorWait (c : Chip) : c.drawn.mirrorWait = c.mirrorWait := rfl
@[simp] theorem Chip.drawn_lanes (c : Chip) : c.drawn.lanes = c.lanes := rfl
@[simp] theorem Chip.drawn_heads (c : Chip) : c.drawn.heads = c.heads := rfl
@[simp] theorem Chip.drawn_stepSum (c : Chip) : c.drawn.stepSum = c.stepSum := rfl
@[simp] theorem Chip.drawn_wraps (c : Chip) : c.drawn.wraps = c.wraps := rfl
@[simp] theorem Chip.drawn_tickBase (c : Chip) : c.drawn.tickBase = c.tickBase := rfl
@[simp] theorem Chip.drawn_estopDue (c : Chip) : c.drawn.estopDue = c.estopDue := rfl
@[simp] theorem Chip.drawn_fireSince (c : Chip) : c.drawn.fireSince = c.fireSince := rfl
@[simp] theorem Chip.drawn_settleDue (c : Chip) : c.drawn.settleDue = c.settleDue := rfl
@[simp] theorem Chip.drawn_chanSince (c : Chip) : c.drawn.chanSince = c.chanSince := rfl
@[simp] theorem Chip.drawn_frames (c : Chip) : c.drawn.frames = c.frames := rfl
@[simp] theorem Chip.drawn_camSlots (c : Chip) : c.drawn.camSlots = c.camSlots := rfl
@[simp] theorem Chip.drawn_camCtx (c : Chip) : c.drawn.camCtx = c.camCtx := rfl
@[simp] theorem Chip.drawn_runCounts (c : Chip) : c.drawn.runCounts = c.runCounts := rfl
@[simp] theorem Chip.drawn_healWin (c : Chip) : c.drawn.healWin = c.healWin := rfl
@[simp] theorem Chip.drawn_healEval (c : Chip) : c.drawn.healEval = c.healEval := rfl
@[simp] theorem Chip.drawn_healPast (c : Chip) : c.drawn.healPast = c.healPast := rfl
@[simp] theorem Chip.drawn_healEvaluated (c : Chip) : c.drawn.healEvaluated = c.healEvaluated := rfl
@[simp] theorem Chip.drawn_lostTold (c : Chip) : c.drawn.lostTold = c.lostTold := rfl
@[simp] theorem Chip.drawn_armWaitSince (c : Chip) : c.drawn.armWaitSince = c.armWaitSince := rfl
@[simp] theorem Chip.drawn_encs (c : Chip) : c.drawn.encs = c.encs := rfl
@[simp] theorem Chip.drawn_axes (c : Chip) : c.drawn.axes = c.axes := rfl
@[simp] theorem Chip.drawn_drv (c : Chip) : c.drawn.drv = c.drv := rfl
@[simp] theorem Chip.drawn_slots (c : Chip) : c.drawn.slots = c.slots := rfl
@[simp] theorem Chip.drawn_groups (c : Chip) : c.drawn.groups = c.groups := rfl
@[simp] theorem Chip.drawn_loopCmds (c : Chip) : c.drawn.loopCmds = c.loopCmds := rfl
@[simp] theorem Chip.drawn_ainLeft (c : Chip) : c.drawn.ainLeft = c.ainLeft := rfl
@[simp] theorem Chip.drawn_vffTold (c : Chip) : c.drawn.vffTold = c.vffTold := rfl
@[simp] theorem Chip.drawn_ainConv (c : Chip) : c.drawn.ainConv = c.ainConv := rfl
@[simp] theorem Chip.drawn_adcAt (c : Chip) : c.drawn.adcAt = c.adcAt := rfl
@[simp] theorem Chip.drawn_pwmDuty (c : Chip) : c.drawn.pwmDuty = c.pwmDuty := rfl
@[simp] theorem Chip.drawn_pwmStart (c : Chip) : c.drawn.pwmStart = c.pwmStart := rfl
@[simp] theorem Chip.drawn_pwmPass (c : Chip) : c.drawn.pwmPass = c.pwmPass := rfl
@[simp] theorem Chip.drawn_motionAt (c : Chip) : c.drawn.motionAt = c.motionAt := rfl
@[simp] theorem Chip.drawn_limp (c : Chip) : c.drawn.limp = c.limp := rfl
@[simp] theorem Chip.drawn_limn (c : Chip) : c.drawn.limn = c.limn := rfl
@[simp] theorem Chip.drawn_regions (c : Chip) : c.drawn.regions = c.regions := rfl
@[simp] theorem Chip.drawn_rankRecs (c : Chip) : c.drawn.rankRecs = c.rankRecs := rfl
@[simp] theorem Chip.drawn_migration (c : Chip) : c.drawn.migration = c.migration := rfl
@[simp] theorem Chip.drawn_wanted (c : Chip) : c.drawn.wanted = c.wanted := rfl
@[simp] theorem Chip.drawn_calmPolls (c : Chip) : c.drawn.calmPolls = c.calmPolls := rfl
@[simp] theorem Chip.drawn_refreshDue (c : Chip) : c.drawn.refreshDue = c.refreshDue := rfl
@[simp] theorem Chip.drawn_leakDue (c : Chip) : c.drawn.leakDue = c.leakDue := rfl
@[simp] theorem Chip.drawn_eyeDue (c : Chip) : c.drawn.eyeDue = c.eyeDue := rfl
@[simp] theorem Chip.drawn_eyeOwed (c : Chip) : c.drawn.eyeOwed = c.eyeOwed := rfl
@[simp] theorem Chip.drawn_pollDue (c : Chip) : c.drawn.pollDue = c.pollDue := rfl
@[simp] theorem Chip.drawn_scrubbed (c : Chip) : c.drawn.scrubbed = c.scrubbed := rfl
@[simp] theorem Chip.drawn_scrubStart (c : Chip) : c.drawn.scrubStart = c.scrubStart := rfl
@[simp] theorem Chip.drawn_banks (c : Chip) : c.drawn.banks = c.banks := rfl
@[simp] theorem Chip.drawn_ceSince (c : Chip) : c.drawn.ceSince = c.ceSince := rfl
@[simp] theorem Chip.drawn_ceTellFrom (c : Chip) : c.drawn.ceTellFrom = c.ceTellFrom := rfl
@[simp] theorem Chip.drawn_selfRefresh (c : Chip) : c.drawn.selfRefresh = c.selfRefresh := rfl
@[simp] theorem Chip.drawn_healPoison (c : Chip) : c.drawn.healPoison = c.healPoison := rfl
@[simp] theorem Chip.drawn_copyPoison (c : Chip) : c.drawn.copyPoison = c.copyPoison := rfl
@[simp] theorem Chip.drawn_tdm (c : Chip) : c.drawn.tdm = c.tdm := rfl
@[simp] theorem Chip.drawn_wdogLoss (c : Chip) : c.drawn.wdogLoss = c.wdogLoss := rfl
@[simp] theorem Chip.drawn_power (c : Chip) : c.drawn.power = c.power := rfl
@[simp] theorem Chip.drawn_island (c : Chip) : c.drawn.island = c.island := rfl
@[simp] theorem Chip.drawn_strikeUntil (c : Chip) : c.drawn.strikeUntil = c.strikeUntil := rfl
@[simp] theorem Chip.drawn_quar (c : Chip) : c.drawn.quar = c.quar := rfl
@[simp] theorem Chip.drawn_conf (c : Chip) : c.drawn.conf = c.conf := rfl
@[simp] theorem Chip.drawn_ledgerTorn (c : Chip) : c.drawn.ledgerTorn = c.ledgerTorn := rfl
@[simp] theorem Chip.drawn_fresh (c : Chip) : c.drawn.fresh = c.fresh + 1 := rfl

/-! ### The queue -/

@[simp] theorem State.go_eq (s : State) (c : Chip) : s.go c = .next { s with toChip := c } := rfl

/-- A command's outcome holds the queue it was given. -/
theorem State.go_pending {s t : State} {c : Chip} (h : s.go c = .next t) : t.pending = s.pending ∧ t.toChip = c := by
  simp only [State.go_eq, Host.Outcome.next.injEq] at h
  subst h
  exact ⟨rfl, rfl⟩

end Sys2Proof.Machine
end

