-- ==== Sys2Proof/Laws/Ops.lean ====
section
/-! SUPPORT. Laws/Ops.lean: what reading and writing a register field does: the value written is the value read, every
other field reads as before, and the shared operations built on it. -/

namespace Sys2Proof.Machine

theorem Chip.get_eq (c : Chip) (f : Field) : c.get f = SMap.get f.rst f.key c.regs := rfl

/-- Two controllers with the same register map read the same. -/
theorem Chip.get_congr {c d : Chip} (h : c.regs = d.regs) (f : Field) : c.get f = d.get f := by
  simp only [Chip.get, h]

/-- A field just set reads as the value's low bits. -/
@[simp] theorem Chip.get_put_self (c : Chip) (f : Field) (v : Nat) : (c.put f v).get f = v % 2 ^ f.width := by
  simp [Chip.get, Chip.put]

/-- A field at the same place with the same reset value, whatever its name, reads as the value just set. -/
theorem Chip.get_put_key (c : Chip) (f g : Field) (v : Nat) (h : g.key = f.key) (hr : g.rst = f.rst) :
    (c.put f v).get g = v % 2 ^ f.width := by
  simp only [Chip.get, Chip.put, h, hr, SMap.get_set_self]

/-- Every other field reads as before. -/
theorem Chip.get_put_ne (c : Chip) (f g : Field) (v : Nat) (h : g.key ≠ f.key) : (c.put f v).get g = c.get g := by
  simp only [Chip.get, Chip.put]
  exact SMap.get_set_ne _ _ _ h _

@[simp] theorem Chip.get_emit (c : Chip) (o : Output) (f : Field) : (c.emit o).get f = c.get f := rfl

@[simp] theorem Chip.get_emits (c : Chip) (os : List Output) (f : Field) : (c.emits os).get f = c.get f := rfl

@[simp] theorem Chip.get_drawn (c : Chip) (f : Field) : c.drawn.get f = c.get f := rfl

@[simp] theorem Chip.get_setRing (c : Chip) (p n : Nat) (r : RingX) (f : Field) : (c.setRing p n r).get f = c.get f := rfl

@[simp] theorem Chip.ring_setRing (c : Chip) (p n : Nat) (r : RingX) : (c.setRing p n r).ring p n = r := by
  simp [Chip.ring, Chip.setRing]

@[simp] theorem Chip.get_setPtp (c : Chip) (q : Nat) (x : PtpPort) (f : Field) : (c.setPtp q x).get f = c.get f := rfl

/-- A field in another register is another place. -/
theorem Field.key_ne {f g : Field} (hf : f.lo < 32) (hg : g.lo < 32) (h : f.off ≠ g.off) : f.key ≠ g.key := by
  unfold Field.key
  omega

/-- A write to a field of another register leaves a field. -/
theorem Chip.get_put_off (c : Chip) (f g : Field) (v : Nat) (hf : f.lo < 32) (hg : g.lo < 32) (h : g.off ≠ f.off) :
    (c.put f v).get g = c.get g := Chip.get_put_ne c f g v (Field.key_ne hg hf h)

/-- Putting a bit writes the field's own place and no other. -/
theorem Chip.get_putBit_ne (c : Chip) (f g : Field) (i : Nat) (b : Bool) (h : g.key ≠ f.key) :
    (c.putBit f i b).get g = c.get g := Chip.get_put_ne c f g _ h

theorem Chip.get_bump_ne (c : Chip) (f g : Field) (n : Nat) (h : g.key ≠ f.key) : (c.bump f n).get g = c.get g :=
  Chip.get_put_ne c f g _ h

theorem Chip.get_putB_ne (c : Chip) (f g : Field) (b : Bool) (h : g.key ≠ f.key) : (c.putB f b).get g = c.get g :=
  Chip.get_put_ne c f g _ h

/-- A count saturates at the largest value of its field. -/
theorem Chip.get_bump_self (c : Chip) (f : Field) (n : Nat) :
    (c.bump f n).get f = min (c.get f + n) (2 ^ f.width - 1) := by
  unfold Chip.bump satAdd
  rw [Chip.get_put_self]
  apply Nat.mod_eq_of_lt
  have : 0 < 2 ^ f.width := Nat.two_pow_pos _
  omega

/-- A one-bit field set or cleared reads as 1 or 0. -/
theorem Chip.get_putB_self (c : Chip) (f : Field) (b : Bool) (h : 0 < f.width) : (c.putB f b).get f = b2n b := by
  unfold Chip.putB
  rw [Chip.get_put_self]
  apply Nat.mod_eq_of_lt
  have : 2 ^ 1 ≤ 2 ^ f.width := Nat.pow_le_pow_right (by omega) h
  cases b
  · exact Nat.two_pow_pos _
  · show 1 < 2 ^ f.width; omega

end Sys2Proof.Machine
end

