-- ==== Sys2Proof/Laws/Event.lean ====
section
/-! SUPPORT. Laws/Event.lean: what raising an event source does (R492): the registers of the event block that change and
what they then hold, and that nothing else of the controller changes but the waiting records, the rings' note of a
coalesced record, the vectors and what is put out. -/

namespace Sys2Proof.Machine

theorem Chip.sameBut5_refl (c : Chip) : c.sameBut5 c := rfl

theorem Chip.sameBut5_trans {a b c : Chip} (h : a.sameBut5 b) (k : b.sameBut5 c) : a.sameBut5 c := by
  unfold Chip.sameBut5 at *
  rw [h] at k
  exact k

theorem Chip.sameBut5_put (c : Chip) (f : Field) (v : Nat) : c.sameBut5 (c.put f v) := rfl

theorem Chip.eventRegs_refl (c : Chip) : c.eventRegs c := fun _ _ _ => rfl

theorem Chip.eventRegs_trans {a b c : Chip} (h : a.eventRegs b) (k : b.eventRegs c) : a.eventRegs c :=
  fun f l o => (k f l o).trans (h f l o)

theorem Chip.eventRegs_put (c : Chip) (f : Field) (v : Nat) (l : f.lo < 32) (h : 0x20000 ≤ f.off ∧ f.off < 0x22000) :
    c.eventRegs (c.put f v) := fun g gl o => Chip.get_put_off c f g v l gl (by omega)

theorem Chip.eventRegs_of_regs {c d : Chip} (h : d.regs = c.regs) : c.eventRegs d :=
  fun f _ _ => Chip.get_congr h f

/-! ### Showing and offering a record -/

theorem Chip.showPending_rest (c : Chip) (src : Nat) : c.sameBut5 (c.showPending src) := rfl

theorem Chip.showPending_regs (c : Chip) (src : Nat) (h : src < 256) : c.eventRegs (c.showPending src) := by
  unfold Chip.showPending
  refine Chip.eventRegs_trans (Chip.eventRegs_put _ _ _ ?_ ?_) (Chip.eventRegs_put _ _ _ ?_ ?_)
  · show (0 : Nat) < 32; omega
  · show 0x20000 ≤ 0x20300 + 4 * (src / 32) ∧ 0x20300 + 4 * (src / 32) < 0x22000; omega
  · show (0 : Nat) < 32; omega
  · show 0x20000 ≤ 0x20008 ∧ 0x20008 < 0x22000; omega

theorem Chip.showPending_get (c : Chip) (src : Nat) (h : src < 256) (f : Field) (l : f.lo < 32)
    (k : f.off ≠ 0x20008) (r : f.off < 0x20300 ∨ 0x20400 ≤ f.off) : (c.showPending src).get f = c.get f := by
  unfold Chip.showPending
  rw [Chip.get_put_off _ _ _ _ (by show (0 : Nat) < 32; omega) l (by show f.off ≠ 0x20008; exact k)]
  exact Chip.get_put_off _ _ _ _ (by show (0 : Nat) < 32; omega) l
    (by show f.off ≠ 0x20300 + 4 * (src / 32); omega)

/-- Holding a record changes nothing but the pending records. -/
theorem Chip.holdRecord_eq (c : Chip) (r : EvRecord) : c.holdRecord r = { c with evPend := (c.holdRecord r).evPend } := by
  unfold Chip.holdRecord
  split <;> rfl

theorem Chip.holdRecord_rest (c : Chip) (r : EvRecord) : c.sameBut5 (c.holdRecord r) := by
  rw [Chip.holdRecord_eq]; rfl

@[simp] theorem Chip.holdRecord_regs (c : Chip) (r : EvRecord) : (c.holdRecord r).regs = c.regs := by
  rw [Chip.holdRecord_eq]

@[simp] theorem Chip.holdRecord_out (c : Chip) (r : EvRecord) : (c.holdRecord r).out = c.out := by
  rw [Chip.holdRecord_eq]

theorem Chip.offer_rest (c : Chip) (r : EvRecord) : c.sameBut5 (c.offer r) := by
  unfold Chip.offer
  split
  · rfl
  · split
    · rfl
    · split
      · exact Chip.sameBut5_trans (Chip.holdRecord_rest c r) rfl
      · exact Chip.sameBut5_trans (Chip.holdRecord_rest c r) rfl

theorem Chip.offer_get (c : Chip) (r : EvRecord) (h : r.source < 256) (f : Field) (l : f.lo < 32)
    (k : f.off ≠ 0x20008) (o : f.off < 0x20300 ∨ 0x20400 ≤ f.off) : (c.offer r).get f = c.get f := by
  unfold Chip.offer
  split
  · rfl
  · split
    · exact Chip.showPending_get _ _ h f l k o
    · split
      · exact (Chip.showPending_get _ _ h f l k o).trans (Chip.get_congr (Chip.holdRecord_regs c r) f)
      · exact (Chip.showPending_get _ _ h f l k o).trans (Chip.get_congr (Chip.holdRecord_regs c r) f)

theorem Chip.vector_rest (c : Chip) (p v : Nat) : c.sameBut5 (c.vector p v) := by
  unfold Chip.vector
  dsimp only
  (repeat' split) <;> rfl

theorem Chip.vector_regs (c : Chip) (p v : Nat) : (c.vector p v).regs = c.regs := by
  unfold Chip.vector
  dsimp only
  (repeat' split) <;> rfl

/-! ### Raising -/

/-- The register writes with which a raise begins. -/
def Chip.raiseMark (c : Chip) (src cause : Nat) : Chip :=
  let cls := classOf src cause
  let c' := ((c.put Reg.EVT_SEQ_NEXT (c.get Reg.EVT_SEQ_NEXT + 1)).putBit (Reg.EVT_STATUS_RAISED (src / 32)) (src % 32) true).bump
    (Reg.EVT_CLASS_CNT_COUNT cls) 1
  let c' := ((c'.put Reg.EVT_LAST_SOURCE src).put Reg.EVT_LAST_CLASS cls).put Reg.EVT_LAST_CAUSE cause
  if classVaries src then c'.put (Reg.EVT_ROUTE_CLASS src) cls else c'

theorem Chip.raise_eq (c : Chip) (src cause : Nat) (items : List (Nat × Nat)) :
    c.raise src cause items =
      if c.bitOf (Reg.EVT_MASK_MASK (src / 32)) (src % 32) then c.raiseMark src cause
      else
        let d := (c.raiseMark src cause).offer
          ⟨src, classOf src cause, cause, c.get Reg.EVT_SEQ_NEXT, (c.raiseMark src cause).now, evData items, 1, false⟩
        if (!c.bitOf (Reg.EVT_STATUS_RAISED (src / 32)) (src % 32)) = true ∧ d.flag (Reg.EVT_ROUTE_VEC_EN src) = true then
          d.vector (d.get (Reg.EVT_ROUTE_PORT src)) (d.get (Reg.EVT_ROUTE_VECTOR src))
        else d := rfl

theorem ite_le_of {p : Prop} [Decidable p] {a b n : Nat} (ha : a ≤ n) (hb : b ≤ n) : (if p then a else b) ≤ n := by
  split
  · exact ha
  · exact hb

theorem classOf_lt (src cause : Nat) : classOf src cause ≤ 4 := by
  unfold classOf Reg.sourceClass
  repeat' apply ite_le_of
  all_goals decide

theorem Chip.raiseMark_rest (c : Chip) (src cause : Nat) : c.sameBut5 (c.raiseMark src cause) := by
  unfold Chip.raiseMark
  dsimp only
  split <;> rfl

theorem Chip.raiseMark_regs (c : Chip) (src cause : Nat) (h : src < 256) : c.eventRegs (c.raiseMark src cause) := by
  have hc := classOf_lt src cause
  intro f l o
  have hs : f.off ≠ 0x20100 + 4 * (src / 32) := by omega
  have hk : f.off ≠ 0x20010 + 4 * classOf src cause := by omega
  have hr : f.off ≠ 0x21000 + 4 * src := by omega
  have key : ∀ (d : Chip) (g : Field) (v : Nat), g.lo < 32 → f.off ≠ g.off → (d.put g v).get f = d.get f :=
    fun d g v gl go => Chip.get_put_off d g f v gl l go
  unfold Chip.raiseMark Chip.putBit Chip.bump
  dsimp only
  split
  · rw [key _ _ _ (by show (29 : Nat) < 32; omega) hr, key _ _ _ (by show (16 : Nat) < 32; omega) (by show f.off ≠ 0x20004; omega),
      key _ _ _ (by show (8 : Nat) < 32; omega) (by show f.off ≠ 0x20004; omega),
      key _ _ _ (by show (0 : Nat) < 32; omega) (by show f.off ≠ 0x20004; omega),
      key _ _ _ (by show (0 : Nat) < 32; omega) hk, key _ _ _ (by show (0 : Nat) < 32; omega) hs,
      key _ _ _ (by show (0 : Nat) < 32; omega) (by show f.off ≠ 0x20000; omega)]
  · rw [key _ _ _ (by show (16 : Nat) < 32; omega) (by show f.off ≠ 0x20004; omega),
      key _ _ _ (by show (8 : Nat) < 32; omega) (by show f.off ≠ 0x20004; omega),
      key _ _ _ (by show (0 : Nat) < 32; omega) (by show f.off ≠ 0x20004; omega),
      key _ _ _ (by show (0 : Nat) < 32; omega) hk, key _ _ _ (by show (0 : Nat) < 32; omega) hs,
      key _ _ _ (by show (0 : Nat) < 32; omega) (by show f.off ≠ 0x20000; omega)]

/-- What a raise leaves after its marks: only the pending registers may differ, and the vector. -/
theorem Chip.raise_get_mark (c : Chip) (src cause : Nat) (items : List (Nat × Nat)) (h : src < 256) (f : Field)
    (l : f.lo < 32) (k : f.off ≠ 0x20008) (o : f.off < 0x20300 ∨ 0x20400 ≤ f.off) :
    (c.raise src cause items).get f = (c.raiseMark src cause).get f := by
  rw [Chip.raise_eq]
  split
  · rfl
  · dsimp only
    split
    · rw [Chip.get_congr (Chip.vector_regs _ _ _), Chip.offer_get _ _ h f l k o]
    · exact Chip.offer_get _ _ h f l k o

/-- Raising writes no register outside the event block. -/
theorem Chip.raise_regs (c : Chip) (src cause : Nat) (items : List (Nat × Nat)) (h : src < 256) :
    c.eventRegs (c.raise src cause items) := by
  intro f l o
  rw [Chip.raise_get_mark c src cause items h f l (by omega) (by omega)]
  exact Chip.raiseMark_regs c src cause h f l o

/-- Raising changes nothing but registers, outputs, pending records, rings and vectors. -/
theorem Chip.raise_rest (c : Chip) (src cause : Nat) (items : List (Nat × Nat)) :
    c.sameBut5 (c.raise src cause items) := by
  rw [Chip.raise_eq]
  split
  · exact Chip.raiseMark_rest c src cause
  · dsimp only
    split
    · exact Chip.sameBut5_trans (Chip.sameBut5_trans (Chip.raiseMark_rest _ _ _) (Chip.offer_rest _ _)) (Chip.vector_rest _ _ _)
    · exact Chip.sameBut5_trans (Chip.raiseMark_rest _ _ _) (Chip.offer_rest _ _)

theorem Chip.raiseMark_lower (c : Chip) (src cause : Nat) (f : Field) (h : f.key ≠ (Reg.EVT_ROUTE_CLASS src).key) :
    (c.raiseMark src cause).get f = ((((((c.put Reg.EVT_SEQ_NEXT (c.get Reg.EVT_SEQ_NEXT + 1)).putBit
      (Reg.EVT_STATUS_RAISED (src / 32)) (src % 32) true).bump (Reg.EVT_CLASS_CNT_COUNT (classOf src cause)) 1).put
      Reg.EVT_LAST_SOURCE src).put Reg.EVT_LAST_CLASS (classOf src cause)).put Reg.EVT_LAST_CAUSE cause).get f := by
  unfold Chip.raiseMark
  dsimp only
  split
  · exact Chip.get_put_ne _ _ _ _ h
  · rfl

/-- Raising counts on in EVT.SEQ. -/
theorem Chip.raise_seq (c : Chip) (src cause : Nat) (items : List (Nat × Nat)) (h : src < 256) :
    (c.raise src cause items).get Reg.EVT_SEQ_NEXT = (c.get Reg.EVT_SEQ_NEXT + 1) % 2 ^ 32 := by
  have hc := classOf_lt src cause
  rw [Chip.raise_get_mark c src cause items h _ (by decide) (by decide) (by decide),
    Chip.raiseMark_lower _ _ _ _ (by show 0x20000 * 32 + 0 ≠ (0x21000 + 4 * src) * 32 + 29; omega)]
  rw [Chip.get_put_ne _ _ _ _ (by decide), Chip.get_put_ne _ _ _ _ (by decide), Chip.get_put_ne _ _ _ _ (by decide),
    Chip.get_bump_ne _ _ _ _ (by show 0x20000 * 32 + 0 ≠ (0x20010 + 4 * classOf src cause) * 32 + 0; omega),
    Chip.get_putBit_ne _ _ _ _ _ (by show 0x20000 * 32 + 0 ≠ (0x20100 + 4 * (src / 32)) * 32 + 0; omega), Chip.get_put_self]
  rfl

/-- EVT.LAST names the source. -/
theorem Chip.raise_source (c : Chip) (src cause : Nat) (items : List (Nat × Nat)) (h : src < 256) :
    (c.raise src cause items).get Reg.EVT_LAST_SOURCE = src := by
  rw [Chip.raise_get_mark c src cause items h _ (by decide) (by decide) (by decide),
    Chip.raiseMark_lower _ _ _ _ (by show 0x20004 * 32 + 0 ≠ (0x21000 + 4 * src) * 32 + 29; omega)]
  rw [Chip.get_put_ne _ _ _ _ (by decide), Chip.get_put_ne _ _ _ _ (by decide), Chip.get_put_self]
  exact Nat.mod_eq_of_lt h

/-- EVT.LAST names the cause. -/
theorem Chip.raise_cause (c : Chip) (src cause : Nat) (items : List (Nat × Nat)) (h : src < 256) (k : cause < 256) :
    (c.raise src cause items).get Reg.EVT_LAST_CAUSE = cause := by
  rw [Chip.raise_get_mark c src cause items h _ (by decide) (by decide) (by decide),
    Chip.raiseMark_lower _ _ _ _ (by show 0x20004 * 32 + 16 ≠ (0x21000 + 4 * src) * 32 + 29; omega), Chip.get_put_self]
  exact Nat.mod_eq_of_lt k

/-- EVT.LAST names the class. -/
theorem Chip.raise_class (c : Chip) (src cause : Nat) (items : List (Nat × Nat)) (h : src < 256) :
    (c.raise src cause items).get Reg.EVT_LAST_CLASS = classOf src cause := by
  have hc := classOf_lt src cause
  rw [Chip.raise_get_mark c src cause items h _ (by decide) (by decide) (by decide),
    Chip.raiseMark_lower _ _ _ _ (by show 0x20004 * 32 + 8 ≠ (0x21000 + 4 * src) * 32 + 29; omega)]
  rw [Chip.get_put_ne _ _ _ _ (by decide), Chip.get_put_self]
  exact Nat.mod_eq_of_lt (by show classOf src cause < 2 ^ 3; omega)

end Sys2Proof.Machine
end

