-- ==== Sys2Proof/Laws/PerInstr.lean ====
section
/-! SUPPORT. Laws/PerInstr.lean: what holds of every row of the command table as it is written, one lemma per row. -/

namespace Sys2Proof.Laws.OffsetsFit

open Sys2Proof.Machine

/-- A row that names a register write of its own names an aligned offset below the unassigned part of BAR0 (R21, R43). -/
def Statement (i : Instr) : Prop :=
  ∀ (p : Port) (off : Nat) (v : Word), writeRow i = some (p, off, v) → off % 4 = 0 ∧ off < 0x290000

/-- A row that names no register write of its own. -/
theorem of_none {i : Instr} (h : writeRow i = none) : Statement i := by
  intro p off v k
  rw [h] at k
  cases k

/-- A row that names one whose offset fits. -/
theorem of_some {i : Instr} {p : Port} {off : Nat} {v : Word} (h : writeRow i = some (p, off, v)) (a : off % 4 = 0)
    (b : off < 0x290000) : Statement i := by
  intro q o w k
  rw [h] at k
  cases k
  exact ⟨a, b⟩

theorem port_lt (p : Port) : p.num < 2 := by cases p <;> decide

theorem registerWrite (p : Port) (space : Space) (off : BitVec 24) (v : HostWord) : Statement (.registerWrite p space off v) := of_none rfl

theorem rcFieldRead (p : Port) (a : SpaceOff) (delta : Nat) : Statement (.rcFieldRead p a delta) := of_none rfl

theorem accessError (p : Port) (bar2 : Bool) (off : BitVec 24) (write : Bool) (be : BitVec 4) (wide : Bool) : Statement (.accessError p bar2 off write be wide) := of_none rfl

theorem etLoRead (p : Port) (r : LoReg) : Statement (.etLoRead p r) := of_none rfl

theorem capTsRead (p : Port) (n : Fin 4) : Statement (.capTsRead p n) := of_none rfl

theorem semRead (p : Port) (n : Fin 32) (tie : Bool) : Statement (.semRead p n tie) := of_none rfl

theorem semWrite (p : Port) (n : Fin 32) (v : Word) : Statement (.semWrite p n v) := by
  have kp := port_lt p
  have ln := n.isLt
  exact of_some rfl (by omega) (by omega)

theorem etWrap : Statement .etWrap := of_none rfl

theorem scheduledAction : Statement .scheduledAction := of_none rfl

theorem etSetGo (p : Port) (v : Word) : Statement (.etSetGo p v) := by
  have kp := port_lt p
  exact of_some rfl (by omega) (by omega)

theorem encoderEdge (n : Fin 4) (line : EncLine) (level : Bool) (stamp : ET) : Statement (.encoderEdge n line level stamp) := of_none rfl

theorem captureEdge (n : Fin 4) (rising : Bool) (stamp : ET) : Statement (.captureEdge n rising stamp) := of_none rfl

theorem ethFrameReceived (port : Fin 2) (f : EthFrame) : Statement (.ethFrameReceived port f) := of_none rfl

theorem sync (port : Fin 2) (h : PtpHdr) (twoStep : Bool) (origin : Nat) (correction : Int) (arrival : PortStamp) : Statement (.sync port h twoStep origin correction arrival) := of_none rfl

theorem followUp (port : Fin 2) (h : PtpHdr) (origin : Nat) (correction : Int) : Statement (.followUp port h origin correction) := of_none rfl

theorem delayReq (port : Fin 2) (m : PtpReq) (arrival : PortStamp) : Statement (.delayReq port m arrival) := of_none rfl

theorem delayResp (port : Fin 2) (h : PtpHdr) (requester : PortId) (receipt : Nat) (correction : Int) : Statement (.delayResp port h requester receipt correction) := of_none rfl

theorem pdelayReq (port : Fin 2) (m : PtpReq) (arrival : PortStamp) (departure : PortStamp) : Statement (.pdelayReq port m arrival departure) := of_none rfl

theorem pdelayResp (port : Fin 2) (h : PtpHdr) (m : PdelayAnswer) : Statement (.pdelayResp port h m) := of_none rfl

theorem announce (port : Fin 2) (h : PtpHdr) (m : AnnounceMsg) : Statement (.announce port h m) := of_none rfl

theorem syncInterval (port : Fin 2) (departure : PortStamp) : Statement (.syncInterval port departure) := of_none rfl

theorem delayInterval (port : Fin 2) (departure : PortStamp) : Statement (.delayInterval port departure) := of_none rfl

theorem announceInterval (port : Fin 2) : Statement (.announceInterval port) := of_none rfl

theorem announceReceiptTimeout (port : Fin 2) : Statement (.announceReceiptTimeout port) := of_none rfl

theorem syncReceiptTimeout : Statement .syncReceiptTimeout := of_none rfl

theorem ethLinkChange (port : Fin 2) (link : Bool) (blockLock : Bool) (fecLock : Bool) : Statement (.ethLinkChange port link blockLock fecLock) := of_none rfl

theorem pcieLinkChange (p : Port) (speed : Fin 5) (width : Fin 5) : Statement (.pcieLinkChange p speed width) := of_none rfl

theorem portReset (p : Port) : Statement (.portReset p) := of_none rfl

theorem ringEnable (via : Port) (p : Port) (n : Fin 64) (v : Word) : Statement (.ringEnable via p n v) := by
  have kvia := port_lt via
  have kp := port_lt p
  have ln := n.isLt
  exact of_some rfl (by omega) (by omega)

theorem ringDisable (via : Port) (p : Port) (n : Fin 64) (v : Word) : Statement (.ringDisable via p n v) := by
  have kvia := port_lt via
  have kp := port_lt p
  have ln := n.isLt
  exact of_some rfl (by omega) (by omega)

theorem doorbell (p : Port) (n : Fin 64) (v : Word) : Statement (.doorbell p n v) := of_none rfl

theorem descriptorFetch (p : Port) (n : Fin 64) (data : Option (List Byte)) : Statement (.descriptorFetch p n data) := of_none rfl

theorem irqHoldoff (p : Port) (n : Fin 64) : Statement (.irqHoldoff p n) := of_none rfl

theorem restart (via : Port) (p : Port) (n : Fin 64) (v : Word) : Statement (.restart via p n v) := by
  have kvia := port_lt via
  have kp := port_lt p
  have ln := n.isLt
  exact of_some rfl (by omega) (by omega)

theorem restartSkip (via : Port) (p : Port) (n : Fin 64) (v : Word) : Statement (.restartSkip via p n v) := by
  have kvia := port_lt via
  have kp := port_lt p
  have ln := n.isLt
  exact of_some rfl (by omega) (by omega)

theorem hostStop (via : Port) (p : Port) (n : Fin 64) (v : Word) : Statement (.hostStop via p n v) := by
  have kvia := port_lt via
  have kp := port_lt p
  have ln := n.isLt
  exact of_some rfl (by omega) (by omega)

theorem blockAreaSpace (p : Port) (n : Fin 64) : Statement (.blockAreaSpace p n) := of_none rfl

theorem layerHeldTimeout (p : Port) (n : Fin 64) : Statement (.layerHeldTimeout p n) := of_none rfl

theorem layerOpen (p : Port) (n : Fin 64) : Statement (.layerOpen p n) := of_none rfl

theorem layerOpenResume (p : Port) (n : Fin 64) : Statement (.layerOpenResume p n) := of_none rfl

theorem block (p : Port) (n : Fin 64) (hdr : Option (List Byte)) (payload : Option (List Byte)) : Statement (.block p n hdr payload) := of_none rfl

theorem layerClose (p : Port) (n : Fin 64) : Statement (.layerClose p n) := of_none rfl

theorem layerCloseComplete (p : Port) (n : Fin 64) : Statement (.layerCloseComplete p n) := of_none rfl

theorem nztLoad (p : Port) (n : Fin 64) (buf : Option (List Byte)) : Statement (.nztLoad p n buf) := of_none rfl

theorem subLoad (p : Port) (n : Fin 64) (buf : Option (List Byte)) : Statement (.subLoad p n buf) := of_none rfl

theorem greyLoad (p : Port) (n : Fin 64) (buf : Option (List Byte)) : Statement (.greyLoad p n buf) := of_none rfl

theorem mapLoad (p : Port) (n : Fin 64) (buf : Option (List Byte)) : Statement (.mapLoad p n buf) := of_none rfl

theorem tableRead (p : Port) (n : Fin 64) : Statement (.tableRead p n) := of_none rfl

theorem stagingPlacesFreed (p : Port) (n : Fin 64) : Statement (.stagingPlacesFreed p n) := of_none rfl

theorem moveAbs (p : Port) (n : Fin 64) : Statement (.moveAbs p n) := of_none rfl

theorem moveRel (p : Port) (n : Fin 64) : Statement (.moveRel p n) := of_none rfl

theorem setLimits (p : Port) (n : Fin 64) : Statement (.setLimits p n) := of_none rfl

theorem velocity (p : Port) (n : Fin 64) : Statement (.velocity p n) := of_none rfl

theorem queueMove (p : Port) (n : Fin 64) : Statement (.queueMove p n) := of_none rfl

theorem stop (p : Port) (n : Fin 64) : Statement (.stop p n) := of_none rfl

theorem gear (p : Port) (n : Fin 64) : Statement (.gear p n) := of_none rfl

theorem gearChange (p : Port) (n : Fin 64) : Statement (.gearChange p n) := of_none rfl

theorem home (p : Port) (n : Fin 64) : Statement (.home p n) := of_none rfl

theorem setMode (p : Port) (n : Fin 64) : Statement (.setMode p n) := of_none rfl

theorem setPos (p : Port) (n : Fin 64) : Statement (.setPos p n) := of_none rfl

theorem loopEnable (p : Port) (n : Fin 64) : Statement (.loopEnable p n) := of_none rfl

theorem loopDisable (p : Port) (n : Fin 64) : Statement (.loopDisable p n) := of_none rfl

theorem setPoint (p : Port) (n : Fin 64) : Statement (.setPoint p n) := of_none rfl

theorem setCoef (p : Port) (n : Fin 64) : Statement (.setCoef p n) := of_none rfl

theorem loopSetLimits (p : Port) (n : Fin 64) : Statement (.loopSetLimits p n) := of_none rfl

theorem setManual (p : Port) (n : Fin 64) : Statement (.setManual p n) := of_none rfl

theorem setAuto (p : Port) (n : Fin 64) : Statement (.setAuto p n) := of_none rfl

theorem setInteg (p : Port) (n : Fin 64) : Statement (.setInteg p n) := of_none rfl

theorem inspectBuf (p : Port) (r : ItemRead) : Statement (.inspectBuf p r) := of_none rfl

theorem stateBuf (p : Port) (r : ItemRead) : Statement (.stateBuf p r) := of_none rfl

theorem eventSlot (p : Port) (n : Fin 64) : Statement (.eventSlot p n) := of_none rfl

theorem churnJobStart (hold : Option Hold) : Statement (.churnJobStart hold) := of_none rfl

theorem churnResume (e : Fin 8) (hold : Option Hold) : Statement (.churnResume e hold) := of_none rfl

theorem blockDecoded (e : Fin 8) (r : SlabRead) : Statement (.blockDecoded e r) := of_none rfl

theorem dictParity (r : ParityRestart) : Statement (.dictParity r) := of_none rfl

theorem pieceCompressed (d : PieceEnd) : Statement (.pieceCompressed d) := of_none rfl

theorem layerArm : Statement .layerArm := of_none rfl

theorem stall : Statement .stall := of_none rfl

theorem shotIssue (h : Fin 48) (nzt : Option NztError) (dram : Option DramError) : Statement (.shotIssue h nzt dram) := of_none rfl

theorem nztCopyFetched (h : Fin 48) (r : CopyRead) : Statement (.nztCopyFetched h r) := of_none rfl

theorem abort (p : Port) (v : Word) : Statement (.abort p v) := by
  have kp := port_lt p
  exact of_some rfl (by omega) (by omega)

theorem calveTimeout (h : Fin 48) : Statement (.calveTimeout h) := of_none rfl

theorem calveRepeat (h : Fin 48) : Statement (.calveRepeat h) := of_none rfl

theorem heldExit : Statement .heldExit := of_none rfl

theorem tlm (n : Fin 48) (t : TlmTaken) : Statement (.tlm n t) := of_none rfl

theorem nztWindowWrite (p : Port) (i : Fin 262144) (v : Word) : Statement (.nztWindowWrite p i v) := by
  have kp := port_lt p
  have li := i.isLt
  exact of_some rfl (by omega) (by omega)

theorem subWindowWrite (p : Port) (i : Fin 16384) (v : Word) : Statement (.subWindowWrite p i v) := by
  have kp := port_lt p
  have li := i.isLt
  exact of_some rfl (by omega) (by omega)

theorem greyWrite (p : Port) (t : Fin 16) (hi : Bool) (v : Word) : Statement (.greyWrite p t hi v) := by
  have kp := port_lt p
  have lt := t.isLt
  refine of_some rfl ?_ ?_ <;> split <;> omega

theorem weakMapWrite (p : Port) (hi : Bool) (v : Word) : Statement (.weakMapWrite p hi v) := by
  have kp := port_lt p
  refine of_some rfl ?_ ?_ <;> split <;> omega

theorem moraineFlashWrite : Statement .moraineFlashWrite := of_none rfl

theorem moraineExport (p : Port) (v : Word) : Statement (.moraineExport p v) := by
  have kp := port_lt p
  exact of_some rfl (by omega) (by omega)

theorem alignSearch (n : Fin 48) (found : Option (Fin 10)) : Statement (.alignSearch n found) := of_none rfl

theorem alignRetry (n : Fin 48) (found : Option (Fin 10)) : Statement (.alignRetry n found) := of_none rfl

theorem search (p : Port) (n : Fin 48) (v : Word) (found : Option (Fin 10)) : Statement (.search p n v found) := of_none rfl

theorem slip (p : Port) (n : Fin 48) (v : Word) : Statement (.slip p n v) := by
  have kp := port_lt p
  have ln := n.isLt
  exact of_some rfl (by omega) (by omega)

theorem alignFail (n : Fin 48) : Statement (.alignFail n) := of_none rfl

theorem linked (n : Fin 48) : Statement (.linked n) := of_none rfl

theorem rateFail (n : Fin 48) : Statement (.rateFail n) := of_none rfl

theorem fill (n : Fin 48) (level : Fin 33) : Statement (.fill n level) := of_none rfl

theorem codeErr (n : Fin 48) (symbol : Nat) : Statement (.codeErr n symbol) := of_none rfl

theorem commaShift (n : Fin 48) : Statement (.commaShift n) := of_none rfl

theorem peerSeek (n : Fin 48) : Statement (.peerSeek n) := of_none rfl

theorem noFill (n : Fin 48) : Statement (.noFill n) := of_none rfl

theorem ackTimeout (n : Fin 48) : Statement (.ackTimeout n) := of_none rfl

theorem lanePacketSend (n : Fin 48) : Statement (.lanePacketSend n) := of_none rfl

theorem timeReq (n : Fin 48) : Statement (.timeReq n) := of_none rfl

theorem timeRsp (n : Fin 48) (m : TimeRsp) : Statement (.timeRsp n m) := of_none rfl

theorem mgmtResponse (n : Fin 48) (m : MgmtResponse) : Statement (.mgmtResponse n m) := of_none rfl

theorem mgmtTimeout (n : Fin 48) : Statement (.mgmtTimeout n) := of_none rfl

theorem loop (p : Port) (n : Fin 48) (v : Word) : Statement (.loop p n v) := by
  have kp := port_lt p
  have ln := n.isLt
  exact of_some rfl (by omega) (by omega)

theorem prbs (p : Port) (n : Fin 48) (v : Word) : Statement (.prbs p n v) := by
  have kp := port_lt p
  have ln := n.isLt
  exact of_some rfl (by omega) (by omega)

theorem accept (p : Port) (h : Fin 48) (v : Word) : Statement (.accept p h v) := by
  have kp := port_lt p
  have lh := h.isLt
  exact of_some rfl (by omega) (by omega)

theorem reread (p : Port) (h : Fin 48) (v : Word) : Statement (.reread p h v) := by
  have kp := port_lt p
  have lh := h.isLt
  exact of_some rfl (by omega) (by omega)

theorem driveSetWrite (p : Port) (w : Fin 1024) (v : Word) : Statement (.driveSetWrite p w v) := by
  have kp := port_lt p
  have lw := w.isLt
  exact of_some rfl (by omega) (by omega)

theorem groupWindowWrite (p : Port) (h : Fin 48) (g : Fin 256) (v : Word) : Statement (.groupWindowWrite p h g v) := by
  have kp := port_lt p
  have lh := h.isLt
  have lg := g.isLt
  exact of_some rfl (by omega) (by omega)

theorem dsetWrite (p : Port) (h : Fin 48) (v : Word) : Statement (.dsetWrite p h v) := by
  have kp := port_lt p
  have lh := h.isLt
  exact of_some rfl (by omega) (by omega)

theorem trimWrite (h : Fin 48) : Statement (.trimWrite h) := of_none rfl

theorem measSlot (h : Fin 48) : Statement (.measSlot h) := of_none rfl

theorem measRead (h : Fin 48) (r : Option MeasResult) : Statement (.measRead h r) := of_none rfl

theorem gateInputChange (i : Fin 9) (level : Bool) : Statement (.gateInputChange i level) := of_none rfl

theorem forceStop (p : Port) (v : Word) : Statement (.forceStop p v) := by
  have kp := port_lt p
  exact of_some rfl (by omega) (by omega)

theorem permitRise : Statement .permitRise := of_none rfl

theorem clearStrike (p : Port) (v : Word) : Statement (.clearStrike p v) := by
  have kp := port_lt p
  exact of_some rfl (by omega) (by omega)

theorem gateChannelFault (i : Fin 9) : Statement (.gateChannelFault i) := of_none rfl

theorem voterFault (k : Fin 3) : Statement (.voterFault k) := of_none rfl

theorem fs (m : CamShort) (stamp : ET) (second : Option CamShort) : Statement (.fs m stamp second) := of_none rfl

theorem longPacket (port : Fin 4) (vc : BitVec 4) (dt : BitVec 6) (crcOk : Bool) (payload : List Byte) : Statement (.longPacket port vc dt crcOk payload) := of_none rfl

theorem fe (m : CamEnds) (stamp : ET) : Statement (.fe m stamp) := of_none rfl

theorem headerEccError (port : Fin 4) (corrected : Bool) : Statement (.headerEccError port corrected) := of_none rfl

theorem phyError (port : Fin 4) (syncErr : Bool) : Statement (.phyError port syncErr) := of_none rfl

theorem arm (p : Port) (x : Fin 8) (v : Word) : Statement (.arm p x v) := by
  have kp := port_lt p
  have lx := x.isLt
  exact of_some rfl (by omega) (by omega)

theorem disarm (p : Port) (x : Fin 8) (v : Word) : Statement (.disarm p x v) := by
  have kp := port_lt p
  have lx := x.isLt
  exact of_some rfl (by omega) (by omega)

theorem shadowWrite (p : Port) (x : Fin 8) (off : BitVec 8) (v : Word) : Statement (.shadowWrite p x off v) := by
  intro q o w k
  have h := x.isLt
  have l := off.isLt
  unfold writeRow at k
  dsimp only at k
  split at k
  · cases k; exact ⟨by omega, by omega⟩
  · cases k

theorem mapWindowWrite (p : Port) (pipe : Fin 4) (i : Fin 16384) (v : Word) : Statement (.mapWindowWrite p pipe i v) := by
  have kp := port_lt p
  have lpipe := pipe.isLt
  have li := i.isLt
  exact of_some rfl (by omega) (by omega)

theorem trigStart (p : Port) (x : Fin 8) (v : Word) : Statement (.trigStart p x v) := by
  have kp := port_lt p
  have lx := x.isLt
  exact of_some rfl (by omega) (by omega)

theorem trigStop (p : Port) (x : Fin 8) (v : Word) : Statement (.trigStop p x v) := by
  have kp := port_lt p
  have lx := x.isLt
  exact of_some rfl (by omega) (by omega)

theorem trigger (x : Fin 8) : Statement (.trigger x) := of_none rfl

theorem exposureEnd (x : Fin 8) : Statement (.exposureEnd x) := of_none rfl

theorem windowTimeout : Statement .windowTimeout := of_none rfl

theorem close (p : Port) (v : Word) : Statement (.close p v) := by
  have kp := port_lt p
  exact of_some rfl (by omega) (by omega)

theorem evaluationEnd : Statement .evaluationEnd := of_none rfl

theorem motionTick (limp : BitVec 8) (limn : BitVec 8) (gpio : BitVec 64) : Statement (.motionTick limp limn gpio) := of_none rfl

theorem stepPulse (a : Fin 8) : Statement (.stepPulse a) := of_none rfl

theorem holdCurrent (a : Fin 8) : Statement (.holdCurrent a) := of_none rfl

theorem drvFrame (n : Fin 4) (di : List Byte) : Statement (.drvFrame n di) := of_none rfl

theorem encCountWrite (p : Port) (n : Fin 4) (v : Word) : Statement (.encCountWrite p n v) := by
  have kp := port_lt p
  have ln := n.isLt
  exact of_some rfl (by omega) (by omega)

theorem estop (p : Port) (v : Word) : Statement (.estop p v) := by
  have kp := port_lt p
  exact of_some rfl (by omega) (by omega)

theorem estopClr (p : Port) (v : Word) : Statement (.estopClr p v) := by
  have kp := port_lt p
  exact of_some rfl (by omega) (by omega)

theorem clearFault (p : Port) (a : Fin 8) (v : Word) : Statement (.clearFault p a v) := by
  have kp := port_lt p
  have la := a.isLt
  exact of_some rfl (by omega) (by omega)

theorem ustepSwap (p : Port) (a : Fin 8) (v : Word) : Statement (.ustepSwap p a v) := by
  have kp := port_lt p
  have la := a.isLt
  exact of_some rfl (by omega) (by omega)

theorem slotEvaluation (k : Fin 64) : Statement (.slotEvaluation k) := of_none rfl

theorem adcResult (ch : Fin 24) (nv : Nat) : Statement (.adcResult ch nv) := of_none rfl

theorem pwmDutyUpdate (ch : Fin 32) : Statement (.pwmDutyUpdate ch) := of_none rfl

theorem gpioSet (p : Port) (hi : Bool) (v : Word) : Statement (.gpioSet p hi v) := by
  have kp := port_lt p
  refine of_some rfl ?_ ?_ <;> split <;> omega

theorem gpioClr (p : Port) (hi : Bool) (v : Word) : Statement (.gpioClr p hi v) := by
  have kp := port_lt p
  refine of_some rfl ?_ ?_ <;> split <;> omega

theorem trainingEnd (eyes : List Nat) : Statement (.trainingEnd eyes) := of_none rfl

theorem initDone : Statement .initDone := of_none rfl

theorem retrain (c : Fin 2) (r : Fin 4) (m : EyeRead) (lane : Fin 10) : Statement (.retrain c r m lane) := of_none rfl

theorem pageIdlePrecharge (r : Fin 4) (bank : Fin 32) : Statement (.pageIdlePrecharge r bank) := of_none rfl

theorem refreshDue (r : Fin 4) (busy : Bool) : Statement (.refreshDue r busy) := of_none rfl

theorem mr4Poll (r : Fin 4) (doubled : Bool) (beyond : Bool) : Statement (.mr4Poll r doubled beyond) := of_none rfl

theorem bucketLeak : Statement .bucketLeak := of_none rfl

theorem patrolScrub (r : Fin 4) (bank : Fin 32) (err : Option DramError) : Statement (.patrolScrub r bank err) := of_none rfl

theorem spareStart (p : Port) (v : Word) : Statement (.spareStart p v) := by
  have kp := port_lt p
  exact of_some rfl (by omega) (by omega)

theorem migrationCopy (oldErr : Option DramError) (spareErr : Option DramError) : Statement (.migrationCopy oldErr spareErr) := of_none rfl

theorem claimLineChange (lineP : Bool) (level : Bool) : Statement (.claimLineChange lineP level) := of_none rfl

theorem takeoverTlmTimeout (h : Fin 48) : Statement (.takeoverTlmTimeout h) := of_none rfl

theorem take (p : Port) (v : Word) : Statement (.take p v) := by
  have kp := port_lt p
  exact of_some rfl (by omega) (by omega)

theorem watchdog : Statement .watchdog := of_none rfl

theorem startWaitEnd : Statement .startWaitEnd := of_none rfl

theorem heartbeatSend : Statement .heartbeatSend := of_none rfl

theorem heartbeat (m : HeartbeatMsg) : Statement (.heartbeat m) := of_none rfl

theorem heartbeatTimeout : Statement .heartbeatTimeout := of_none rfl

theorem ackWaitTimeout : Statement .ackWaitTimeout := of_none rfl

theorem firn (m : FirnMsg) : Statement (.firn m) := of_none rfl

theorem firnIdle : Statement .firnIdle := of_none rfl

theorem fireLog (frame : FrameId) (recs : List FireLogRec) : Statement (.fireLog frame recs) := of_none rfl

theorem change (frame : FrameId) (recs : List ChangeRec) : Statement (.change frame recs) := of_none rfl

theorem tandemBlock (m : MirrorFrame) : Statement (.tandemBlock m) := of_none rfl

theorem ack (m : AckMsg) : Statement (.ack m) := of_none rfl

theorem health (m : HealthMsg) : Statement (.health m) := of_none rfl

theorem healthReport : Statement .healthReport := of_none rfl

theorem resync : Statement .resync := of_none rfl

theorem ctrlResync (p : Port) (v : Word) : Statement (.ctrlResync p v) := by
  have kp := port_lt p
  exact of_some rfl (by omega) (by omega)

theorem takebackGo : Statement .takebackGo := of_none rfl

theorem takebackAbort : Statement .takebackAbort := of_none rfl

theorem takebackTimeout : Statement .takebackTimeout := of_none rfl

theorem bothClaims : Statement .bothClaims := of_none rfl

theorem tandemLaneLoss (k : Fin 5) (cause : TandemCause) : Statement (.tandemLaneLoss k cause) := of_none rfl

theorem tandemLaneRecovered (k : Fin 5) : Statement (.tandemLaneRecovered k) := of_none rfl

theorem pllLockLoss (pll : Fin 5) : Statement (.pllLockLoss pll) := of_none rfl

theorem quarantineEnd (x : Fin 25) (inst : BitVec 6) : Statement (.quarantineEnd x inst) := of_none rfl

theorem controllerReset : Statement .controllerReset := of_none rfl

theorem resetN (straps : Straps) : Statement (.resetN straps) := of_none rfl

theorem softReset (p : Port) (v : Word) : Statement (.softReset p v) := by
  have kp := port_lt p
  exact of_some rfl (by omega) (by omega)

theorem por (straps : Straps) : Statement (.por straps) := of_none rfl

theorem watchdogReset : Statement .watchdogReset := of_none rfl

theorem powerStateEntry : Statement .powerStateEntry := of_none rfl

theorem wakeEvent (cause : WakeCause) : Statement (.wakeEvent cause) := of_none rfl

theorem powerStateExit : Statement .powerStateExit := of_none rfl

theorem ltrWrite (p : Port) (which : Port) (v : Word) : Statement (.ltrWrite p which v) := by
  refine of_some rfl ?_ ?_ <;> split <;> omega

theorem railPowerGood (step : Fin 6) (level : Bool) : Statement (.railPowerGood step level) := of_none rfl

theorem railStepDwell : Statement .railStepDwell := of_none rfl

theorem railPgTimeout : Statement .railPgTimeout := of_none rfl

theorem railRetry : Statement .railRetry := of_none rfl

theorem thermalReading (tj : BitVec 16) : Statement (.thermalReading tj) := of_none rfl

theorem imageLoad (slotA : Option (List Byte)) (slotB : Option (List Byte)) : Statement (.imageLoad slotA slotB) := of_none rfl

theorem moraineScan (positions : List LedgerPos) : Statement (.moraineScan positions) := of_none rfl

theorem readyState : Statement .readyState := of_none rfl

theorem commit (p : Port) (v : Word) : Statement (.commit p v) := by
  have kp := port_lt p
  exact of_some rfl (by omega) (by omega)

theorem commitEnd : Statement .commitEnd := of_none rfl

theorem flashWrite (p : Port) (v : Word) : Statement (.flashWrite p v) := by
  have kp := port_lt p
  exact of_some rfl (by omega) (by omega)

theorem flashSectorDone (readBack : Option (List Byte)) : Statement (.flashSectorDone readBack) := of_none rfl

theorem ledgerErase (p : Port) (v : Word) : Statement (.ledgerErase p v) := by
  have kp := port_lt p
  exact of_some rfl (by omega) (by omega)

theorem ledgerEraseDone : Statement .ledgerEraseDone := of_none rfl

theorem lanePllUnlock : Statement .lanePllUnlock := of_none rfl

theorem aerError (p : Port) (uncorrectable : Bool) : Statement (.aerError p uncorrectable) := of_none rfl

theorem vinLoss : Statement .vinLoss := of_none rfl

theorem flashTimeout : Statement .flashTimeout := of_none rfl

theorem refreshCatchUp (r : Fin 4) (busy : Bool) : Statement (.refreshCatchUp r busy) := of_none rfl

theorem deskew (port : Fin 4) (ok : Bool) : Statement (.deskew port ok) := of_none rfl

theorem ultraLowPowerEntry (port : Fin 4) : Statement (.ultraLowPowerEntry port) := of_none rfl

end Sys2Proof.Laws.OffsetsFit
end

