-- ==== Sys2Proof/Laws/Regs.lean ====
section
/-! SUPPORT. Laws/Regs.lean: what every row of the register tables meets: its fields start at different bits, lie within the
word, and their limits fit their widths. -/

namespace Sys2Proof.Machine

theorem regTable_fields : ∀ r ∈ regTable, r.fields.Pairwise (fun f g => f.lo ≠ g.lo) ∧
    ∀ f ∈ r.fields, f.lo < 32 ∧ 0 < f.width ∧ f.lo + f.width ≤ 32 ∧ f.max < 2 ^ f.width ∧ f.min ≤ f.max := by
  decide +kernel

/-- The fields of an offset are those of one row of the tables, or none. -/
theorem fieldsAt_row (off : Nat) : fieldsAt off = [] ∨ ∃ r ∈ regTable, fieldsAt off = r.fields := by
  unfold fieldsAt
  cases h : rowAt off with
  | none => exact Or.inl rfl
  | some e =>
    obtain ⟨r, hr, he⟩ := List.exists_of_findSome?_eq_some h
    refine Or.inr ⟨r, hr, ?_⟩
    split at he
    · cases he
    · cases hi : dimIndex r.dims (off - r.base) with
      | none => rw [hi] at he; cases he
      | some is => rw [hi] at he; cases he; rfl

theorem fieldsAt_bounds {off : Nat} {f : FieldSpec} (h : f ∈ fieldsAt off) :
    f.lo < 32 ∧ 0 < f.width ∧ f.lo + f.width ≤ 32 ∧ f.max < 2 ^ f.width ∧ f.min ≤ f.max := by
  rcases fieldsAt_row off with e | ⟨r, hr, e⟩
  · rw [e] at h; cases h
  · rw [e] at h; exact (regTable_fields r hr).2 f h

theorem fieldsAt_pairwise (off : Nat) : (fieldsAt off).Pairwise (fun f g => f.lo ≠ g.lo) := by
  rcases fieldsAt_row off with e | ⟨r, hr, e⟩
  · rw [e]; exact List.Pairwise.nil
  · rw [e]; exact (regTable_fields r hr).1

/-- A value stored within a field's limits fits the field. -/
theorem FieldSpec.value_lt {off : Nat} {f : FieldSpec} (h : f ∈ fieldsAt off) (v : Nat) : f.value v < 2 ^ f.width := by
  have b := fieldsAt_bounds h
  unfold FieldSpec.value clampN
  omega

end Sys2Proof.Machine
end

