-- ==== Sys2Proof/Laws/Read.lean ====
section
/-! SUPPORT. Laws/Read.lean: what a host read of BAR0 does (R17, R18, R50): a register with RC fields is no semaphore, no pair
and no window, so its read answers its word and clears. -/

namespace Sys2Proof.Machine

/-- Offsets whose read is that of a register word and nothing else. -/
def wordOff (o : Nat) : Bool :=
  decide (o % 4 = 0) && decide (o < 0x100 ∨ 0x180 ≤ o) && decide (loAt o = none) && decide (capAt o 4 = none) &&
    decide (hiLatch o = none) && decide (o < 0x100000 ∨ 0x200000 ≤ o) && decide (o / 0x10000 ≠ 0x24) && decide (o ≠ 0xA0008) &&
    decide (¬(0x71000 ≤ o ∧ o < 0x74000 ∧ o % 0x100 = 0x0C)) && decide (o < 0x94000 ∨ 0xA0000 ≤ o)

/-- The offsets of THL.LANEn_ALIGN_STATUS, whose read first looks at the line (R220). -/
def alignOff (o : Nat) : Bool := decide (0x71000 ≤ o ∧ o < 0x74000 ∧ o % 0x100 = 0x0C)

theorem wordOff_rc : ∀ r ∈ regTable, (r.fields.any fun f => decide (f.access = .rc)) = true →
    (r.offsets.all fun o => wordOff o || alignOff o) = true := by
  decide +kernel

theorem mem_offsets (ds : List (Nat × Nat)) : ∀ (acc : List Nat) (b rem : Nat) (is : List Nat), b ∈ acc →
    dimIndex ds rem = some is →
    b + rem ∈ ds.foldl (fun acc d => acc.flatMap fun o => (List.range d.2).map (o + d.1 * ·)) acc := by
  induction ds with
  | nil =>
    intro acc b rem is hb h
    unfold dimIndex at h
    split at h
    · next e => subst e; exact hb
    · cases h
  | cons d ds ih =>
    intro acc b rem is hb h
    unfold dimIndex at h
    split at h
    · next lt =>
      obtain ⟨js, hj, -⟩ := Option.map_eq_some_iff.mp h
      have m : b + d.1 * (rem / d.1) ∈ acc.flatMap fun o => (List.range d.2).map (o + d.1 * ·) :=
        List.mem_flatMap.mpr ⟨b, hb, List.mem_map.mpr ⟨rem / d.1, List.mem_range.mpr lt, rfl⟩⟩
      have k := ih _ _ _ js m hj
      rwa [Nat.add_assoc, Nat.div_add_mod] at k
    · cases h

/-- The row of an offset holds it among its offsets. -/
theorem fieldsAt_offsets (off : Nat) : fieldsAt off = [] ∨ ∃ r ∈ regTable, fieldsAt off = r.fields ∧ off ∈ r.offsets := by
  unfold fieldsAt
  cases h : rowAt off with
  | none => exact Or.inl rfl
  | some e =>
    obtain ⟨r, hr, he⟩ := List.exists_of_findSome?_eq_some h
    refine Or.inr ⟨r, hr, ?_⟩
    split at he
    · cases he
    · next ge =>
      cases hi : dimIndex r.dims (off - r.base) with
      | none => rw [hi] at he; cases he
      | some is =>
        rw [hi] at he
        cases he
        refine ⟨rfl, ?_⟩
        have m := mem_offsets r.dims [r.base] r.base (off - r.base) is (List.mem_singleton.mpr rfl) hi
        rwa [Nat.add_sub_cancel' (Nat.le_of_not_lt ge)] at m

theorem wordOff_of_rc {off : Nat} (h : ∃ f ∈ fieldsAt off, f.access = .rc) : wordOff off = true ∨ alignOff off = true := by
  obtain ⟨f, hf, ha⟩ := h
  rcases fieldsAt_offsets off with e | ⟨r, hr, e, m⟩
  · rw [e] at hf; cases hf
  · refine (Bool.or_eq_true _ _).mp (List.all_eq_true.mp (wordOff_rc r hr ?_) off m)
    exact List.any_eq_true.mpr ⟨f, e ▸ hf, decide_eq_true ha⟩

/-- A read of a register word: the word is answered, and its RC fields are cleared. -/
theorem Chip.hostRead_word (c : Chip) (p off delta : Nat) (h : wordOff off = true) :
    c.hostRead p false off delta = (c.emit (.readData p (BitVec.ofNat 32 (c.readWord off)))).rcClear off delta := by
  simp only [wordOff, Bool.and_eq_true, decide_eq_true_eq] at h
  obtain ⟨⟨⟨⟨⟨⟨⟨⟨⟨al, sem⟩, lo⟩, cap⟩, hi⟩, win⟩, sub⟩, rate⟩, line⟩, group⟩ := h
  have ns : ¬(0x100 ≤ off ∧ off < 0x180) := by omega
  have nw : ¬(0x100000 ≤ off ∧ off < 0x200000) := by omega
  unfold Chip.hostRead Chip.readEffect Chip.readBar0
  rw [if_neg (by omega : ¬off % 4 ≠ 0), if_neg (by decide : ¬false = true), if_neg rate, if_neg line, if_neg ns, lo, cap, hi]
  simp only [if_neg nw, if_neg sub]
  rw [if_neg (fun k => by omega)]

end Sys2Proof.Machine
end

