-- ==== Sys2Proof/Laws/Wf.lean ====
section
/-! SUPPORT. Laws/Wf.lean: the canonical form of the register map through the shared operations. -/

namespace Sys2Proof.Machine

theorem Chip.regsWf_of_regs {c d : Chip} (h : d.regs = c.regs) (w : c.regsWf) : d.regsWf := by
  unfold Chip.regsWf at *; rw [h]; exact w

theorem Chip.regsWf_put (c : Chip) (f : Field) (v : Nat) (hw : f.width ≤ 32) (w : c.regsWf) : (c.put f v).regsWf := by
  refine ⟨SMap.rising_set _ _ _ w.1, ?_⟩
  intro e he
  rcases SMap.mem_set he with h | h
  · rw [h]
    exact lt_of_lt_of_le (Nat.mod_lt _ (Nat.two_pow_pos _)) (Nat.pow_le_pow_right (by omega) hw)
  · exact w.2 e h

theorem Chip.regsWf_putB (c : Chip) (f : Field) (b : Bool) (hw : f.width ≤ 32) (w : c.regsWf) : (c.putB f b).regsWf :=
  Chip.regsWf_put c f _ hw w

theorem Chip.regsWf_putBit (c : Chip) (f : Field) (i : Nat) (b : Bool) (hw : f.width ≤ 32) (w : c.regsWf) :
    (c.putBit f i b).regsWf := Chip.regsWf_put c f _ hw w

theorem Chip.regsWf_bump (c : Chip) (f : Field) (n : Nat) (hw : f.width ≤ 32) (w : c.regsWf) : (c.bump f n).regsWf :=
  Chip.regsWf_put c f _ hw w

theorem Chip.regsWf_showPending (c : Chip) (src : Nat) (w : c.regsWf) : (c.showPending src).regsWf :=
  Chip.regsWf_put _ _ _ (by decide) (Chip.regsWf_putBit _ _ _ _ (by decide : (32 : Nat) ≤ 32) w)

theorem Chip.regsWf_offer (c : Chip) (r : EvRecord) (w : c.regsWf) : (c.offer r).regsWf := by
  unfold Chip.offer
  split
  · exact w
  · split
    · exact Chip.regsWf_showPending _ _ w
    · have h := Chip.regsWf_of_regs (Chip.holdRecord_regs c r) w
      split
      · exact Chip.regsWf_showPending _ _ h
      · exact Chip.regsWf_showPending _ _ h

theorem Chip.regsWf_raiseMark (c : Chip) (src cause : Nat) (w : c.regsWf) : (c.raiseMark src cause).regsWf := by
  unfold Chip.raiseMark
  dsimp only
  have h : ∀ (d : Chip) (f : Field) (v : Nat), f.width ≤ 32 → d.regsWf → (d.put f v).regsWf := Chip.regsWf_put
  have b : (((((c.put Reg.EVT_SEQ_NEXT (c.get Reg.EVT_SEQ_NEXT + 1)).putBit (Reg.EVT_STATUS_RAISED (src / 32)) (src % 32) true).bump
      (Reg.EVT_CLASS_CNT_COUNT (classOf src cause)) 1).put Reg.EVT_LAST_SOURCE src).put Reg.EVT_LAST_CLASS (classOf src cause) |>.put
      Reg.EVT_LAST_CAUSE cause).regsWf := by
    refine h _ _ _ (by decide) (h _ _ _ (by decide) (h _ _ _ (by decide) (Chip.regsWf_bump _ _ _ ?_ (Chip.regsWf_putBit _ _ _ _ ?_ (h _ _ _ (by decide) w)))))
    · show (32 : Nat) ≤ 32; omega
    · show (32 : Nat) ≤ 32; omega
  split
  · exact h _ _ _ (by show (3 : Nat) ≤ 32; omega) b
  · exact b

/-- A raise keeps the canonical form. -/
theorem Chip.regsWf_raise (c : Chip) (src cause : Nat) (items : List (Nat × Nat)) (w : c.regsWf) :
    (c.raise src cause items).regsWf := by
  rw [Chip.raise_eq]
  split
  · exact Chip.regsWf_raiseMark c src cause w
  · dsimp only
    have o := Chip.regsWf_offer _ ⟨src, classOf src cause, cause, c.get Reg.EVT_SEQ_NEXT, (c.raiseMark src cause).now, evData items, 1, false⟩
      (Chip.regsWf_raiseMark c src cause w)
    split
    · exact Chip.regsWf_of_regs (Chip.vector_regs _ _ _) o
    · exact o

/-- A fold of steps that keep the canonical form keeps it. -/
theorem Chip.regsWf_foldl {α : Type} (l : List α) (g : Chip → α → Chip) (h : ∀ d x, d.regsWf → (g d x).regsWf) (c : Chip)
    (w : c.regsWf) : (l.foldl g c).regsWf := by
  induction l generalizing c with
  | nil => exact w
  | cons a l ih => exact ih _ (h _ _ w)

end Sys2Proof.Machine
end

