-- ==== Sys2Proof/Laws/Ring.lean ====
section
/-! SUPPORT. Laws/Ring.lean: what the shared operations of the rings do: outputs only grow, a completion begins with its posts,
and the canonical form of the register map is kept. -/

namespace Sys2Proof.Machine

theorem Chip.offer_out (c : Chip) (r : EvRecord) : (c.offer r).out = c.out := by
  unfold Chip.offer
  split
  · rfl
  · split
    · rfl
    · split <;> exact Chip.holdRecord_out c r

theorem Chip.vector_out (c : Chip) (p v : Nat) : c.out <+: (c.vector p v).out := by
  unfold Chip.vector
  dsimp only
  repeat' split
  · exact List.prefix_rfl
  · exact List.prefix_rfl
  · exact List.prefix_rfl
  · exact List.prefix_append _ _

theorem Chip.raiseMark_out (c : Chip) (src cause : Nat) : (c.raiseMark src cause).out = c.out := by
  unfold Chip.raiseMark
  dsimp only
  split <;> rfl

/-- A raise takes nothing back that has been put out. -/
theorem Chip.raise_out (c : Chip) (src cause : Nat) (items : List (Nat × Nat)) : c.out <+: (c.raise src cause items).out := by
  rw [Chip.raise_eq]
  split
  · rw [Chip.raiseMark_out]
  · dsimp only
    split
    · have h := Chip.vector_out ((c.raiseMark src cause).offer
        ⟨src, classOf src cause, cause, c.get Reg.EVT_SEQ_NEXT, (c.raiseMark src cause).now, evData items, 1, false⟩)
      rw [Chip.offer_out, Chip.raiseMark_out] at h
      exact h _ _
    · rw [Chip.offer_out, Chip.raiseMark_out]

theorem Chip.ringIrq_out (c : Chip) (p n : Nat) : c.out <+: (c.ringIrq p n).out := by
  exact Chip.vector_out (c.setRing p n { c.ring p n with irqGathered := 0, irqDue := none }) _ _

theorem Chip.gatherIrq_out (c : Chip) (p n : Nat) : c.out <+: (c.gatherIrq p n).out := by
  unfold Chip.gatherIrq
  dsimp only
  split
  · exact Chip.ringIrq_out _ _ _
  · exact List.prefix_refl _

/-- A stop posts the consumer index, and puts out nothing before it (R105). -/
theorem Chip.stopRing_out (c : Chip) (p n code : Nat) : c.out <+: (c.stopRing p n code).out := by
  unfold Chip.stopRing
  dsimp only
  refine List.IsPrefix.trans ?_ (Chip.raise_out _ _ _ _)
  refine List.IsPrefix.trans ?_ (Chip.ringIrq_out _ _ _)
  exact List.prefix_append _ _

theorem Chip.faultDesc_out (c : Chip) (p n code : Nat) : c.out <+: (c.faultDesc p n code).out := by
  have h : c.out <+: (c.emit (.post p (c.descAddr p n (c.ci p n) + 4) (leBytes 2 code))).out := List.prefix_append _ _
  exact h.trans (Chip.stopRing_out _ _ _ _)

theorem Chip.settleHead_out (c : Chip) (p n : Nat) : c.out <+: (c.settleHead p n).out := by
  unfold Chip.settleHead
  split
  · exact List.prefix_refl _
  · split
    · exact List.prefix_refl _
    · exact Chip.faultDesc_out _ _ _ _
    · dsimp only
      split
      · exact Chip.faultDesc_out _ _ _ _
      · split
        · exact Chip.faultDesc_out _ _ _ _
        · exact List.prefix_refl _

theorem Chip.irq_out (c : Chip) (p n : Nat) (irq : Bool) : c.out <+: (if irq then c.gatherIrq p n else c).out := by
  split
  · exact Chip.gatherIrq_out _ _ _
  · exact List.prefix_refl _

/-- A completion posts what it is given, then the status with DONE (R101); the consumer index follows. -/
theorem Chip.completeWith_out (c : Chip) (p n code : Nat) (irq : Bool) (first : List Output) :
    c.out ++ first ++ [.post p (c.descAddr p n (c.ci p n) + 4) (leBytes 2 (0x8000 + code))] <+:
      (c.completeWith p n code irq first).out := by
  have key : ∀ (d : Chip) (r : RingX),
      (c.emits first).emit (.post p (c.descAddr p n (c.ci p n) + 4) (leBytes 2 (0x8000 + code))) = d → 
      d.out <+: (((d.put (Reg.HIF_RING_STATUS_CI p n) (c.ci p n + 1)).postCi p n 0).setRing p n r).out :=
    fun d r _ => List.prefix_append _ _
  have base := fun r => key _ r rfl
  unfold Chip.completeWith
  dsimp only
  split
  · exact ((base _).trans (Chip.irq_out _ _ _ _)).trans (Chip.stopRing_out _ _ _ _)
  · exact ((base _).trans (Chip.irq_out _ _ _ _)).trans (Chip.settleHead_out _ _ _)

theorem Chip.regsWf_vector (c : Chip) (p v : Nat) (w : c.regsWf) : (c.vector p v).regsWf :=
  Chip.regsWf_of_regs (Chip.vector_regs c p v) w

theorem Chip.regsWf_ringIrq (c : Chip) (p n : Nat) (w : c.regsWf) : (c.ringIrq p n).regsWf := by
  unfold Chip.ringIrq
  exact Chip.regsWf_vector _ _ _ w

theorem Chip.regsWf_gatherIrq (c : Chip) (p n : Nat) (w : c.regsWf) : (c.gatherIrq p n).regsWf := by
  unfold Chip.gatherIrq
  dsimp only
  split
  · exact Chip.regsWf_ringIrq _ _ _ w
  · exact w

theorem Chip.regsWf_stopRing (c : Chip) (p n code : Nat) (w : c.regsWf) : (c.stopRing p n code).regsWf := by
  unfold Chip.stopRing
  dsimp only
  refine Chip.regsWf_raise _ _ _ _ (Chip.regsWf_ringIrq _ _ _ ?_)
  have a : ((c.forgetCmd p n).put (Reg.HIF_RING_STATUS_STATE p n) 2).regsWf := Chip.regsWf_put _ _ _ (by show (2 : Nat) ≤ 32; omega) w
  have b := Chip.regsWf_put _ (Reg.HIF_RING_STATUS_FAULT p n) code (by show (12 : Nat) ≤ 32; omega) a
  have d := Chip.regsWf_put _ (Reg.HIF_RING_FAULT_IDX p n) (((c.forgetCmd p n).put (Reg.HIF_RING_STATUS_STATE p n) 2).put
    (Reg.HIF_RING_STATUS_FAULT p n) code |>.ci p n) (by show (16 : Nat) ≤ 32; omega) b
  exact Chip.regsWf_putB (Chip.setRing _ p n _) _ _ (by show (1 : Nat) ≤ 32; omega) d

theorem Chip.regsWf_faultDesc (c : Chip) (p n code : Nat) (w : c.regsWf) : (c.faultDesc p n code).regsWf := by
  unfold Chip.faultDesc
  exact Chip.regsWf_stopRing _ _ _ _ w

theorem Chip.regsWf_settleHead (c : Chip) (p n : Nat) (w : c.regsWf) : (c.settleHead p n).regsWf := by
  unfold Chip.settleHead
  split
  · exact w
  · split
    · exact w
    · exact Chip.regsWf_faultDesc _ _ _ _ w
    · dsimp only
      split
      · exact Chip.regsWf_faultDesc _ _ _ _ w
      · split
        · exact Chip.regsWf_faultDesc _ _ _ _ w
        · exact w

/-- A completion keeps the canonical form. -/
theorem Chip.regsWf_completeWith (c : Chip) (p n code : Nat) (irq : Bool) (first : List Output) (w : c.regsWf) :
    (c.completeWith p n code irq first).regsWf := by
  unfold Chip.completeWith
  dsimp only
  have a : ((c.put (Reg.HIF_RING_STATUS_CI p n) (c.ci p n + 1))).regsWf :=
    Chip.regsWf_put _ _ _ (by show (16 : Nat) ≤ 32; omega) w
  have g : ∀ (d : Chip), d.regsWf → (if irq then d.gatherIrq p n else d).regsWf := by
    intro d h
    split
    · exact Chip.regsWf_gatherIrq _ _ _ h
    · exact h
  split
  · exact Chip.regsWf_stopRing _ _ _ _ (g _ a)
  · exact Chip.regsWf_settleHead _ _ _ (g _ a)

end Sys2Proof.Machine
end

