-- ==== Sys2Proof/Laws/Time.lean ====
section
/-! SUPPORT. Laws/Time.lean: what the run of time does (R46, R47, R54, R370). -/

namespace Sys2Proof.Machine

/-- One wrap of ET (R54). -/
theorem Chip.wrap_rest (c : Chip) :
    { c with wraps := c.wraps + 1 }.sameBut5
      ((({ c with wraps := c.wraps + 1 } : Chip).put Reg.ETM_ERA_ERA (c.get Reg.ETM_ERA_ERA + 1)).raise 231 0
        [(2, (c.get Reg.ETM_ERA_ERA + 1) % 65536)]) :=
  Chip.sameBut5_trans (Chip.sameBut5_put _ _ _) (Chip.raise_rest _ _ _ _)

/-- A change of the wraps commutes with what an event leaves alone. -/
theorem Chip.sameBut5_wraps {c d : Chip} (h : c.sameBut5 d) (n : Int) :
    { c with wraps := n }.sameBut5 { d with wraps := n } := by
  unfold Chip.sameBut5 at *
  rw [h]

/-- What a run of time keeps while it raises EV231 at each wrap. -/
theorem Chip.wraps_rest (l : List Nat) (c : Chip) :
    let d := l.foldl (fun (c : Chip) _ =>
      let c := { c with wraps := c.wraps + 1 }
      let era := c.get Reg.ETM_ERA_ERA + 1
      (c.put Reg.ETM_ERA_ERA era).raise 231 0 [(2, era % 65536)]) c
    { c with wraps := d.wraps }.sameBut5 d := by
  induction l generalizing c with
  | nil => rfl
  | cons a l ih =>
    have k := ih ((({ c with wraps := c.wraps + 1 } : Chip).put Reg.ETM_ERA_ERA (c.get Reg.ETM_ERA_ERA + 1)).raise 231 0
        [(2, (c.get Reg.ETM_ERA_ERA + 1) % 65536)])
    exact Chip.sameBut5_trans (Chip.sameBut5_wraps (Chip.wrap_rest c) _) k

/-- Time that passes changes ET, its wraps and the model clock, and what the raise of EV231 changes. -/
theorem Chip.pass_rest (c : Chip) (ns : Nat) :
    { c with et := (c.pass ns).et, clk := c.clk + ns, wraps := (c.pass ns).wraps }.sameBut5 (c.pass ns) := by
  have k := Chip.wraps_rest (List.range (min ((c.et.toNat + (c.etPerNs * (4 * c.ticksIn ns : Nat)).toNat) / 2 ^ 96) 4))
    { c with et := BitVec.ofNat 96 (c.et.toNat + (c.etPerNs * (4 * c.ticksIn ns : Nat)).toNat), clk := c.clk + ns }
  have e : (c.pass ns).et = BitVec.ofNat 96 (c.et.toNat + (c.etPerNs * (4 * c.ticksIn ns : Nat)).toNat) := by
    unfold Chip.pass; dsimp only; dsimp only at k; rw [k]
  rw [e]
  exact k

theorem Chip.sameBut5_clk {c d : Chip} (h : c.sameBut5 d) : d.clk = c.clk := by
  unfold Chip.sameBut5 at h; rw [h]

theorem Chip.pass_clk (c : Chip) (ns : Nat) : (c.pass ns).clk = c.clk + ns := Chip.sameBut5_clk (Chip.pass_rest c ns)

/-- Setting an alarm changes registers, and what its event changes. -/
theorem Chip.tellAlarm_rest (c : Chip) (s : Nat) (set : Bool) (e : Int) : c.sameBut5 (c.tellAlarm s set e) :=
  Chip.sameBut5_trans (Chip.sameBut5_put c _ _) (Chip.raise_rest _ _ _ _)

/-- Two steps of time, one after the other, are one. -/
theorem Chip.pass_trans {a b d : Chip} (h : { a with et := b.et, clk := b.clk, wraps := b.wraps }.sameBut5 b)
    (k : { b with et := d.et, clk := d.clk, wraps := d.wraps }.sameBut5 d) :
    { a with et := d.et, clk := d.clk, wraps := d.wraps }.sameBut5 d := by
  unfold Chip.sameBut5 at *
  rw [h] at k
  exact k

/-- Time that passes with the alarms it sets: of what no event changes, ET, its wraps and the model clock alone. -/
theorem Chip.passTo_rest (t k : Nat) (c : Chip) :
    { c with et := (c.passTo t k).et, clk := (c.passTo t k).clk, wraps := (c.passTo t k).wraps }.sameBut5 (c.passTo t k) := by
  have one : ∀ (c : Chip) (n : Nat), { c with et := (c.pass n).et, clk := (c.pass n).clk, wraps := (c.pass n).wraps }.sameBut5 (c.pass n) := by
    intro c n
    rw [Chip.pass_clk]
    exact Chip.pass_rest c n
  induction k generalizing c with
  | zero => exact one c _
  | succ k ih =>
    unfold Chip.passTo
    split
    · exact one c _
    · next a _ =>
      dsimp only
      generalize (if a.1 ≤ c.loopTick then 0 else c.nsUntil (c.tickEt a.1)) = w
      split
      · refine Chip.pass_trans (b := (c.pass w).tellAlarm a.2 true (c.slot a.2).lastE) ?_ (ih _)
        refine Chip.pass_trans (one c w) ?_
        have q := Chip.tellAlarm_rest (c.pass w) a.2 true (c.slot a.2).lastE
        unfold Chip.sameBut5 at *
        rw [q]
      · exact one c _

theorem Chip.passTo_clk (t k : Nat) (c : Chip) (h : c.clk ≤ t) : (c.passTo t k).clk = t := by
  induction k generalizing c with
  | zero => unfold Chip.passTo; rw [Chip.pass_clk]; omega
  | succ k ih =>
    unfold Chip.passTo
    split
    · rw [Chip.pass_clk]; omega
    · next a _ =>
      dsimp only
      generalize (if a.1 ≤ c.loopTick then 0 else c.nsUntil (c.tickEt a.1)) = w
      split
      · next le =>
        refine ih _ ?_
        rw [Chip.sameBut5_clk (Chip.tellAlarm_rest _ _ _ _), Chip.pass_clk]
        exact le
      · rw [Chip.pass_clk]; omega

theorem Chip.advance_clk (c : Chip) (ns : Nat) : (c.advance ns).clk = c.clk + ns := Chip.passTo_clk _ _ c (by omega)

/-- A run of time changes ET, its wraps and the model clock, and what the raises of EV231 and EV178 change. -/
theorem Chip.advance_rest (c : Chip) (ns : Nat) :
    { c with et := (c.advance ns).et, clk := (c.advance ns).clk, wraps := (c.advance ns).wraps }.sameBut5 (c.advance ns) :=
  Chip.passTo_rest _ _ c

theorem Chip.advanceTo_clk (c : Chip) (t : Nat) : (c.advanceTo t).clk = max c.clk t := by
  unfold Chip.advanceTo
  split
  · rw [Chip.advance_clk]; omega
  · omega

theorem Chip.advanceTo_rest (c : Chip) (t : Nat) :
    { c with et := (c.advanceTo t).et, clk := (c.advanceTo t).clk, wraps := (c.advanceTo t).wraps }.sameBut5 (c.advanceTo t) := by
  unfold Chip.advanceTo
  split
  · exact Chip.advance_rest c _
  · rfl

theorem Chip.regsWf_pass (c : Chip) (ns : Nat) (w : c.regsWf) : (c.pass ns).regsWf := by
  unfold Chip.pass
  refine Chip.regsWf_foldl _ _ (fun d _ h => ?_) _ (Chip.regsWf_of_regs rfl w)
  exact Chip.regsWf_raise _ _ _ _ (Chip.regsWf_put _ _ _ (by decide) (Chip.regsWf_of_regs rfl h))

theorem Chip.regsWf_passTo (t k : Nat) (c : Chip) (h : c.regsWf) : (c.passTo t k).regsWf := by
  induction k generalizing c with
  | zero => exact Chip.regsWf_pass c _ h
  | succ k ih =>
    unfold Chip.passTo
    split
    · exact Chip.regsWf_pass c _ h
    · next a _ =>
      dsimp only
      generalize (if a.1 ≤ c.loopTick then 0 else c.nsUntil (c.tickEt a.1)) = w
      split
      · exact ih _ (Chip.regsWf_raise _ _ _ _ (Chip.regsWf_putB _ _ _ (by show (1 : Nat) ≤ 32; omega) (Chip.regsWf_pass c _ h)))
      · exact Chip.regsWf_pass c _ h

theorem Chip.regsWf_advance (c : Chip) (ns : Nat) (w : c.regsWf) : (c.advance ns).regsWf := Chip.regsWf_passTo _ _ c w

theorem Chip.regsWf_advanceTo (c : Chip) (t : Nat) (w : c.regsWf) : (c.advanceTo t).regsWf := by
  unfold Chip.advanceTo
  split
  · exact Chip.regsWf_advance c _ w
  · exact w

end Sys2Proof.Machine
end

