-- ==== Sys2Proof/WellFormed.lean ====
section
/-! DEFINITION. WellFormed.lean: what the operands of a command must satisfy for the command to be one the hardware can
be given: an aligned offset, the bit that makes a register write that row, a transfer of its size. The meanings are
defined on every command all the same. -/

namespace Sys2Proof

/-- Aligned to 4 bytes (R21). -/
def aligned (off : Nat) : Bool := decide (off % 4 = 0)

/-- A transfer that came has so many bytes. -/
def lengthIs (n : Nat) : Option (List Byte) → Bool
  | none => true
  | some b => decide (b.length = n)

/-- A buffer that came is a whole number of entries (R97). -/
def wordsOf (n : Nat) : Option (List Byte) → Bool
  | none => true
  | some b => decide (b.length % n = 0)

/-- A block read from the host: a header of 32 bytes, and a payload of CLEN where the header gives a legal CLEN (R120, R123). -/
def blockWf (hdr payload : Option (List Byte)) : Bool :=
  match hdr, payload with
  | some h, some d => decide (h.length = 32) && (decide (leField h 0x10 4 = 0 ∨ 262144 < leField h 0x10 4) || lengthIs (leField h 0x10 4) (some d))
  | some h, none => decide (h.length = 32)
  | none, _ => true

/-- A trained width, or 0 with the link down (R81). -/
def linkWf (speed width : Nat) : Bool :=
  if speed = 0 then decide (width = 0) else decide (width = 1 ∨ width = 2 ∨ width = 4)

/-- A FULL TLM carries eight temperatures (R234). -/
def tlmWf (t : TlmPacket) : Bool :=
  match t.full with
  | none => true
  | some f => decide (f.temps.length = 8)

/-- A mirrored block carries its header (R442). -/
def mirrorWf : MirrorItem → Bool
  | .registration _ _ _ => true
  | .block bytes => decide (32 < bytes.length)

/-- A command the hardware can be given. -/
def Instr.wf (i : Instr) : Bool :=
  match i with
  | .registerWrite _ sp off _ => aligned off.toNat && (!decide (sp = Space.bar2) || decide (off.toNat < 0x80000))
  | .rcFieldRead _ a _ => aligned a.off.toNat && (!decide (a.space = Space.bar2) || decide (a.off.toNat < 0x80000))
  | .accessError _ bar2 off _ be wide => (decide (be ≠ 0xF) || wide || !aligned off.toNat) && (!bar2 || decide (off.toNat < 0x80000))
  | .etLoRead _ _ => true
  | .capTsRead _ _ => true
  | .semRead _ _ _ => true
  | .semWrite _ _ _ => true
  | .etWrap => true
  | .scheduledAction => true
  | .etSetGo _ v => bit v.toNat 0
  | .encoderEdge _ _ _ _ => true
  | .captureEdge _ _ _ => true
  | .ethFrameReceived _ _ => true
  | .sync _ _ _ _ _ _ => true
  | .followUp _ _ _ _ => true
  | .delayReq _ _ _ => true
  | .delayResp _ _ _ _ _ => true
  | .pdelayReq _ _ _ _ => true
  | .pdelayResp _ _ _ => true
  | .announce _ _ _ => true
  | .syncInterval _ _ => true
  | .delayInterval _ _ => true
  | .announceInterval _ => true
  | .announceReceiptTimeout _ => true
  | .syncReceiptTimeout => true
  | .ethLinkChange _ _ _ _ => true
  | .pcieLinkChange _ speed width => linkWf speed.val width.val
  | .portReset _ => true
  | .ringEnable _ _ _ v => bit v.toNat 31
  | .ringDisable _ _ _ v => !bit v.toNat 31
  | .doorbell _ _ _ => true
  | .descriptorFetch _ _ data => lengthIs 64 data
  | .irqHoldoff _ _ => true
  | .restart _ _ _ v => bit v.toNat 0 && !bit v.toNat 1
  | .restartSkip _ _ _ v => bit v.toNat 0 && bit v.toNat 1
  | .hostStop _ _ _ v => bit v.toNat 2
  | .blockAreaSpace _ _ => true
  | .layerHeldTimeout _ _ => true
  | .layerOpen _ _ => true
  | .layerOpenResume _ _ => true
  | .block _ _ hdr payload => blockWf hdr payload
  | .layerClose _ _ => true
  | .layerCloseComplete _ _ => true
  | .nztLoad _ _ buf => wordsOf 4 buf
  | .subLoad _ _ buf => wordsOf 4 buf
  | .greyLoad _ _ buf => wordsOf 8 buf
  | .mapLoad _ _ buf => wordsOf 4 buf
  | .tableRead _ _ => true
  | .stagingPlacesFreed _ _ => true
  | .moveAbs _ _ => true
  | .moveRel _ _ => true
  | .setLimits _ _ => true
  | .velocity _ _ => true
  | .queueMove _ _ => true
  | .stop _ _ => true
  | .gear _ _ => true
  | .gearChange _ _ => true
  | .home _ _ => true
  | .setMode _ _ => true
  | .setPos _ _ => true
  | .loopEnable _ _ => true
  | .loopDisable _ _ => true
  | .setPoint _ _ => true
  | .setCoef _ _ => true
  | .loopSetLimits _ _ => true
  | .setManual _ _ => true
  | .setAuto _ _ => true
  | .setInteg _ _ => true
  | .inspectBuf _ _ => true
  | .stateBuf _ _ => true
  | .eventSlot _ _ => true
  | .churnJobStart _ => true
  | .churnResume _ _ => true
  | .blockDecoded _ _ => true
  | .dictParity _ => true
  | .pieceCompressed _ => true
  | .layerArm => true
  | .stall => true
  | .shotIssue _ _ _ => true
  | .nztCopyFetched _ _ => true
  | .abort _ v => bit v.toNat 0
  | .calveTimeout _ => true
  | .calveRepeat _ => true
  | .heldExit => true
  | .tlm _ t => tlmWf t.packet
  | .nztWindowWrite _ _ _ => true
  | .subWindowWrite _ _ _ => true
  | .greyWrite _ _ _ _ => true
  | .weakMapWrite _ _ _ => true
  | .moraineFlashWrite => true
  | .moraineExport _ v => bit v.toNat 0
  | .alignSearch _ _ => true
  | .alignRetry _ _ => true
  | .search _ _ v _ => bit v.toNat 1
  | .slip _ _ v => bit v.toNat 0
  | .alignFail _ => true
  | .linked _ => true
  | .rateFail _ => true
  | .fill _ _ => true
  | .codeErr _ _ => true
  | .commaShift _ => true
  | .peerSeek _ => true
  | .noFill _ => true
  | .ackTimeout _ => true
  | .lanePacketSend _ => true
  | .timeReq _ => true
  | .timeRsp _ _ => true
  | .mgmtResponse _ _ => true
  | .mgmtTimeout _ => true
  | .loop _ _ _ => true
  | .prbs _ _ _ => true
  | .accept _ _ v => bit v.toNat 0
  | .reread _ _ v => bit v.toNat 1
  | .driveSetWrite _ _ _ => true
  | .groupWindowWrite _ _ _ _ => true
  | .dsetWrite _ _ _ => true
  | .trimWrite _ => true
  | .measSlot _ => true
  | .measRead _ _ => true
  | .gateInputChange _ _ => true
  | .forceStop _ v => !bit v.toNat 1
  | .permitRise => true
  | .clearStrike _ v => bit v.toNat 1
  | .gateChannelFault _ => true
  | .voterFault _ => true
  | .fs _ _ _ => true
  | .longPacket _ _ _ _ payload => decide (payload.length ≤ 65535)
  | .fe _ _ => true
  | .headerEccError _ _ => true
  | .phyError _ _ => true
  | .arm _ _ v => bit v.toNat 16
  | .disarm _ _ v => bit v.toNat 17
  | .shadowWrite _ _ off _ => aligned off.toNat
  | .mapWindowWrite _ _ _ _ => true
  | .trigStart _ _ v => bit v.toNat 0
  | .trigStop _ _ v => bit v.toNat 1
  | .trigger _ => true
  | .exposureEnd _ => true
  | .windowTimeout => true
  | .close _ v => bit v.toNat 4
  | .evaluationEnd => true
  | .motionTick _ _ _ => true
  | .stepPulse _ => true
  | .holdCurrent _ => true
  | .drvFrame _ _ => true
  | .encCountWrite _ _ _ => true
  | .estop _ v => bit v.toNat 0
  | .estopClr _ v => bit v.toNat 1
  | .clearFault _ _ v => bit v.toNat 0
  | .ustepSwap _ _ v => bit v.toNat 1
  | .slotEvaluation _ => true
  | .adcResult _ _ => true
  | .pwmDutyUpdate _ => true
  | .gpioSet _ _ _ => true
  | .gpioClr _ _ _ => true
  | .trainingEnd eyes => decide (eyes.length = 8)
  | .initDone => true
  | .retrain _ _ _ _ => true
  | .pageIdlePrecharge _ _ => true
  | .refreshDue _ _ => true
  | .mr4Poll _ _ _ => true
  | .bucketLeak => true
  | .patrolScrub _ _ _ => true
  | .spareStart _ v => bit v.toNat 0
  | .migrationCopy _ _ => true
  | .claimLineChange _ _ => true
  | .takeoverTlmTimeout _ => true
  | .take _ v => bit v.toNat 0
  | .watchdog => true
  | .startWaitEnd => true
  | .heartbeatSend => true
  | .heartbeat m => decide (m.axes.length ≤ 8) && decide (m.slots.length ≤ 64)
  | .heartbeatTimeout => true
  | .ackWaitTimeout => true
  | .firn m => decide (m.axes.length ≤ 8) && decide (m.slots.length ≤ 64) && decide (m.heads.length ≤ 48)
  | .firnIdle => true
  | .fireLog _ _ => true
  | .change _ _ => true
  | .tandemBlock m => mirrorWf m.item
  | .ack _ => true
  | .health _ => true
  | .healthReport => true
  | .resync => true
  | .ctrlResync _ v => bit v.toNat 1
  | .takebackGo => true
  | .takebackAbort => true
  | .takebackTimeout => true
  | .bothClaims => true
  | .tandemLaneLoss _ _ => true
  | .tandemLaneRecovered _ => true
  | .pllLockLoss _ => true
  | .quarantineEnd _ _ => true
  | .controllerReset => true
  | .resetN _ => true
  | .softReset _ v => bit v.toNat 0
  | .por _ => true
  | .watchdogReset => true
  | .powerStateEntry => true
  | .wakeEvent _ => true
  | .powerStateExit => true
  | .ltrWrite _ _ _ => true
  | .railPowerGood _ _ => true
  | .railStepDwell => true
  | .railPgTimeout => true
  | .railRetry => true
  | .thermalReading _ => true
  | .imageLoad _ _ => true
  | .moraineScan _ => true
  | .readyState => true
  | .commit _ v => bit v.toNat 0
  | .commitEnd => true
  | .flashWrite _ v => bit v.toNat 1
  | .flashSectorDone _ => true
  | .ledgerErase _ v => bit v.toNat 2
  | .ledgerEraseDone => true
  | .lanePllUnlock => true
  | .aerError _ _ => true
  | .vinLoss => true
  | .flashTimeout => true
  | .refreshCatchUp _ _ => true
  | .deskew _ _ => true
  | .ultraLowPowerEntry _ => true

end Sys2Proof
end

