-- ==== Sys2Proof/Tests/Slice0.lean ====
section
/-! SUPPORT. Tests/Slice0.lean: commands the checks of WellFormed refuse, worked values of the spec, one-step tests, and for every
statement with hypotheses a state and operands that meet them, clause by clause. -/

namespace Sys2Proof.Tests

set_option Elab.async false

open Sys2Proof Sys2Proof.Machine

/-- The reset controller with register fields set. -/
def regsOf (fs : List (Field × Nat)) : Chip := fs.foldl (fun (c : Chip) f => c.put f.1 f.2) State.reset.toChip

/-- The reset state with register fields set. -/
def stOf (fs : List (Field × Nat)) : State := State.reset.withChip (regsOf fs)

/-- A descriptor: its OPCODE, FLAGS and some bytes at other offsets. -/
def desc (op flags : Nat) (fs : List (Nat × Nat × Nat)) : List Byte :=
  fs.foldl (fun b f => b.take f.1 ++ leBytes f.2.1 f.2.2 ++ b.drop (f.1 + f.2.1))
    (leBytes 1 op ++ leBytes 1 flags ++ leBytes 62 0)

/-- Ring 0 of port A RUNNING with 64 entries and a descriptor at its head. -/
def headOf (c : Chip) (type : Nat) (d : List Byte) : Chip :=
  ((((((c.put (Reg.HIF_RING_CFG_ENABLE 0 0) 1).put (Reg.HIF_RING_CFG_TYPE 0 0) type).put (Reg.HIF_RING_CFG_SIZE_LOG2 0 0) 6).put
    (Reg.HIF_RING_STATUS_STATE 0 0) 1).put (Reg.HIF_RING_FAULT_PI 0 0) 1).setRing 0 0 { fetched := [some d] })

/-! ### What the checks of WellFormed refuse -/

theorem test_wf_offset_aligned : (Instr.registerWrite .a .bar0 0x30002 ⟨0, none⟩).wf = false := by decide
theorem test_wf_bar2_size : (Instr.registerWrite .a .bar2 0x80000 ⟨0, none⟩).wf = false := by decide
theorem test_wf_rc_aligned : (Instr.rcFieldRead .a ⟨.bar0, 0x10005⟩ 0).wf = false := by decide
theorem test_wf_rc_bar2 : (Instr.rcFieldRead .a ⟨.bar2, 0x80000⟩ 0).wf = false := by decide
theorem test_wf_access_error : (Instr.accessError .a false 0x100 true 0xF false).wf = false := by decide
theorem test_wf_access_bar2 : (Instr.accessError .a true 0x80000 true 0x3 false).wf = false := by decide
theorem test_wf_set_go : (Instr.etSetGo .a 0).wf = false := by decide
theorem test_wf_link_down : (Instr.pcieLinkChange .a 0 1).wf = false := by decide
theorem test_wf_link_width : (Instr.pcieLinkChange .a 1 3).wf = false := by decide
theorem test_wf_ring_enable : (Instr.ringEnable .a .a 0 0x600).wf = false := by decide
theorem test_wf_ring_disable : (Instr.ringDisable .a .a 0 0x80000600).wf = false := by decide
theorem test_wf_descriptor : (Instr.descriptorFetch .a 0 (some [0])).wf = false := by decide
theorem test_wf_restart : (Instr.restart .a .a 0 3).wf = false := by decide
theorem test_wf_restart_skip : (Instr.restartSkip .a .a 0 1).wf = false := by decide
theorem test_wf_host_stop : (Instr.hostStop .a .a 0 3).wf = false := by decide
theorem test_wf_block_header : (Instr.block .a 0 (some [0]) none).wf = false := by decide
theorem test_wf_nzt_buffer : (Instr.nztLoad .a 0 (some [0])).wf = false := by decide
theorem test_wf_sub_buffer : (Instr.subLoad .a 0 (some [0, 0])).wf = false := by decide
theorem test_wf_grey_buffer : (Instr.greyLoad .a 0 (some [0, 0, 0, 0])).wf = false := by decide
theorem test_wf_map_buffer : (Instr.mapLoad .a 0 (some [0, 0, 0])).wf = false := by decide
theorem test_wf_abort : (Instr.abort .a 2).wf = false := by decide
theorem test_wf_tlm_temps : (Instr.tlm 0 ⟨⟨true, 0, false, false, false, false, 0, 0, 0, 0, 0, 0, some ⟨[0], 0, 0, 0, 0⟩⟩, none⟩).wf = false := by
  decide
theorem test_wf_moraine_export : (Instr.moraineExport .a 2).wf = false := by decide
theorem test_wf_search : (Instr.search .a 0 1 none).wf = false := by decide
theorem test_wf_slip : (Instr.slip .a 0 2).wf = false := by decide
theorem test_wf_accept : (Instr.accept .a 0 2).wf = false := by decide
theorem test_wf_reread : (Instr.reread .a 0 1).wf = false := by decide
theorem test_wf_force_stop : (Instr.forceStop .a 3).wf = false := by decide
theorem test_wf_clear_strike : (Instr.clearStrike .a 1).wf = false := by decide
theorem test_wf_long_packet : (Instr.longPacket 0 0 0x2A true (List.replicate 65536 0)).wf = false := by
  show decide ((List.replicate 65536 (0 : Byte)).length ≤ 65535) = false
  rw [List.length_replicate]
  decide
theorem test_wf_arm : (Instr.arm .a 0 0).wf = false := by decide
theorem test_wf_disarm : (Instr.disarm .a 0 0x10000).wf = false := by decide
theorem test_wf_shadow : (Instr.shadowWrite .a 0 2 0).wf = false := by decide
theorem test_wf_trig_start : (Instr.trigStart .a 0 2).wf = false := by decide
theorem test_wf_trig_stop : (Instr.trigStop .a 0 1).wf = false := by decide
theorem test_wf_close : (Instr.close .a 1).wf = false := by decide
theorem test_wf_estop : (Instr.estop .a 2).wf = false := by decide
theorem test_wf_estop_clr : (Instr.estopClr .a 1).wf = false := by decide
theorem test_wf_clear_fault : (Instr.clearFault .a 0 2).wf = false := by decide
theorem test_wf_ustep_swap : (Instr.ustepSwap .a 0 1).wf = false := by decide
theorem test_wf_training : (Instr.trainingEnd [48]).wf = false := by decide
theorem test_wf_spare_start : (Instr.spareStart .a 2).wf = false := by decide
theorem test_wf_take : (Instr.take .a 2).wf = false := by decide
theorem test_wf_heartbeat : (Instr.heartbeat ⟨⟨0, 0⟩, false, 0, 0, 0, List.replicate 9 ⟨0, 0, 0, 0, false⟩, [], [], false, false, false, false,
    0, 0, 0⟩).wf = false := by decide
theorem test_wf_firn : (Instr.firn ⟨⟨0, 0⟩, 0, 0, 0, 0, 0, 0, [], 0, false, none, 0, [], [], [], [], [], [], [], 0, [],
    List.replicate 65 ⟨0, 0, 0, 0, 0⟩, [], []⟩).wf = false := by decide
theorem test_wf_tandem_block : (Instr.tandemBlock ⟨⟨0, 0⟩, .block (List.replicate 32 0)⟩).wf = false := by decide
theorem test_wf_ctrl_resync : (Instr.ctrlResync .a 1).wf = false := by decide
theorem test_wf_soft_reset : (Instr.softReset .a 2).wf = false := by decide
theorem test_wf_commit : (Instr.commit .a 2).wf = false := by decide
theorem test_wf_flash_write : (Instr.flashWrite .a 1).wf = false := by decide
theorem test_wf_ledger_erase : (Instr.ledgerErase .a 2).wf = false := by decide

/-! ### Worked values of the spec -/

/-- R121: the CRC-32 of the nine digits. -/
theorem test_crc32_check : crc32 [0x31, 0x32, 0x33, 0x34, 0x35, 0x36, 0x37, 0x38, 0x39] = 0xCBF43926 := by decide +kernel

/-- R131: the ten bytes of the worked decode are encoded as the eight bytes it lists. -/
theorem test_churn_encode : churnEncode [0, 0, 0, 0, 0, 0, 0x21, 0x21, 0x21, 0x21] =
    [0x00, 0x04, 0x0E, 0x0C, 0x51, 0x30, 0x44, 0x40] := by decide +kernel

/-- R129: and those eight bytes decode to the ten. -/
theorem test_churn_decode : churnDecode [0x00, 0x04, 0x0E, 0x0C, 0x51, 0x30, 0x44, 0x40] 10
    (crc32 [0, 0, 0, 0, 0, 0, 0x21, 0x21, 0x21, 0x21]) = .ok [0, 0, 0, 0, 0, 0, 0x21, 0x21, 0x21, 0x21] := by decide +kernel

/-- R14: frame number 0x0003 is later than 0xFFFE, by 5. -/
theorem test_wrap_difference : wrapDiff (0x0003#16) 0xFFFE#16 = 5 ∧ later (0x0003#16) 0xFFFE#16 = true := by decide

/-- R53: a target behind the wrap is 1 ms ahead. -/
theorem test_difference_over_the_wrap :
    wrapDiff (BitVec.ofNat 64 (289344 * 65536)) (BitVec.ofNat 64 (281474976000000 * 65536)) = 1000000 * 65536 := by decide

/-- R315: q of the healthy nozzle of the worked case, and of the clogged one. -/
theorem test_heal_q : qOf 29100 1 52000 (-2000) 48128 560000 0 = 251 ∧ qOf 51700 1 52000 (-2000) 48128 560000 0 = 3 := by
  decide +kernel

/-- SHA-256 of no bytes begins E3 B0 C4 42 (FIPS 180-4, the standard R484 names). -/
theorem test_sha256_empty : (sha256 []).take 4 = [0xE3, 0xB0, 0xC4, 0x42] := by decide +kernel

/-- R114: a free semaphore read by port A is granted to it: the read returns 1, and port B's read then returns 0. -/
theorem test_sem_read : ∃ t u : State, exec (.semRead .a 0 false) State.reset = .next t ∧ exec (.semRead .b 0 false) t = .next u ∧
    t.toChip.get (Reg.GLB_SEM_OWNER 0) = 1 ∧ u.toChip.get (Reg.GLB_SEM_OWNER 0) = 1 :=
  ⟨_, _, rfl, rfl, by decide +kernel, by decide +kernel⟩

/-- R43, R20: an RW register keeps the word written, within its field. -/
theorem test_register_write : ∃ t : State, exec (.registerWrite .a .bar0 0x20200 ⟨0xFFFFFFFF, none⟩) State.reset = .next t ∧
    t.toChip.get (Reg.EVT_MASK_MASK 0) = 0xFFFFFFFF := ⟨_, rfl, by decide +kernel⟩

/-! ### Witnesses: the machine, events and host access -/

theorem wit_StepRunsTheFrontCommand : ({ State.reset with pending := [.etWrap, .initDone] } : State).pending = .etWrap :: [.initDone] :=
  rfl

theorem wit_QueueRunsInOrder : (∃ t, exec .etWrap State.reset = .next t) ∧
    exec (.descriptorFetch .a 0 (some [0])) State.reset = .fault .malformed ∧
    (let s : State := { State.reset with pending := [.initDone] }
     s.pending <:+ [.etWrap, .initDone] ∧ ∃ t, step s = .next t) ∧
    (∀ i ∈ [Instr.readyState, .etWrap, .estop .a 1, .descriptorFetch .b 63 none, .firnIdle], ∀ p n b,
      i ≠ .descriptorFetch p n (some b)) ∧ (desc 0x20 0 []).length = 64 :=
  ⟨⟨_, rfl⟩, rfl, ⟨⟨[.etWrap], rfl⟩, _, rfl⟩, by simp, by decide +kernel⟩

theorem wit_TimeRunsByTheRate_idle : State.reset.pending = [] ∧ State.reset.toChip.nextAlarm = none ∧ ∃ t, step State.reset = .next t ∧ State.reset.et.toNat < t.et.toNat :=
  ⟨rfl, by decide +kernel, _, rfl, by decide +kernel⟩

theorem wit_EveryStepKeepsTheRegisterMap : State.reset.toChip.regsWf ∧ ∃ t, step State.reset = .next t :=
  ⟨⟨rfl, by intro e h; cases h⟩, _, rfl⟩

theorem wit_EventsAreMarkedAndRecorded : 255 < 256 ∧
    (regsOf [(Reg.EVT_MASK_MASK 7, 0x80000000)]).bitOf (Reg.EVT_MASK_MASK (255 / 32)) (255 % 32) = true ∧
    (let c := regsOf [(Reg.EVT_ROUTE_RING_EN 255, 1), (Reg.EVT_ROUTE_PORT 255, 1), (Reg.EVT_ROUTE_RING 255, 63),
       (Reg.HIF_RING_STATUS_STATE 1 63, 1), (Reg.HIF_RING_CFG_TYPE 1 63, 5), (Reg.HIF_RING_FAULT_PI 1 63, 1)]
     c.bitOf (Reg.EVT_MASK_MASK (255 / 32)) (255 % 32) = false ∧ c.flag (Reg.EVT_ROUTE_RING_EN 255) = true ∧
       1 = c.get (Reg.EVT_ROUTE_PORT 255) ∧ 63 = c.get (Reg.EVT_ROUTE_RING 255) ∧ c.freeSlots 1 63 ≠ 0) ∧
    State.reset.toChip.bitOf (Reg.EVT_MASK_MASK 0) 0 = false ∧ State.reset.toChip.flag (Reg.EVT_ROUTE_RING_EN 0) = false ∧
    (let r := EvRecord.mk 3 2 1 7 0 [] 1 true
     let c := { headOf (regsOf [(Reg.EVT_ROUTE_RING_EN 3, 1)]) 5 (desc 0x62 1 []) with evPend := [r] }
     (c.headOp 0 0 0x62).isSome = true ∧ c.nextRecord 0 0 = some r ∧ c.pstate ≠ 3) := by decide +kernel

theorem wit_RingsCompleteOrStop : 1 < 2 ∧ 63 < 64 ∧ 0xFFFF < 2 ^ 16 ∧ 0 < 2 ∧ 0 < 64 ∧ ¬(0 = 1 ∧ 0 = 63) := by decide

theorem wit_WritesFollowAccessCodes : State.reset.toChip.pstate ≠ 3 ∧ State.reset.toChip.locked = false ∧
    plainOff (0x20200#24).toNat = true ∧
    (let c := regsOf [(Reg.CFG_STATUS_COMMITTED, 1)]
     c.pstate ≠ 3 ∧ c.locked = true ∧ plainOff (0xF0000#24).toNat = true ∧ 0x50000 ≤ (0xF0000#24).toNat ∧
       (∃ f ∈ fieldsAt 0xF0000, f.access = .rwl ∧ bits 0xFFFFFFFF f.lo f.width ≠ c.get (f.at 0xF0000)) ∧
       (∀ f ∈ fieldsAt 0xF0000, f.access = .rwl → bits 0 f.lo f.width = c.get (f.at 0xF0000)) ∧
       ∃ f ∈ fieldsAt 0x50010, f.access ≠ .rwl) := by decide +kernel

theorem wit_UnassignedOffsetsDiscardWrites : State.reset.toChip.pstate ≠ 3 ∧ 0x290000 ≤ (0x290000#24).toNat ∧
    0x290000 ≤ (0xFFFFFC#24).toNat ∧ (0xFFFFFC#24).toNat % 4 = 0 ∧
    ¬((0xF : BitVec 4) = 0xF ∧ false = false ∧ (0xFFFFFD#24).toNat % 4 = 0) := by decide +kernel

theorem wit_AccessErrorIsRecordedOnce : State.reset.toChip.pstate ≠ 3 ∧ ¬((0x7 : BitVec 4) = 0xF ∧ false = false ∧ (0x104#24).toNat % 4 = 0) ∧
    ¬((0xF : BitVec 4) = 0xF ∧ true = false ∧ (0x104#24).toNat % 4 = 0) ∧
    State.reset.toChip.flag Reg.HIF_ACC_ERR_INFO_VALID = false ∧
    (regsOf [(Reg.HIF_ACC_ERR_INFO_VALID, 1)]).flag Reg.HIF_ACC_ERR_INFO_VALID = true := by decide +kernel

theorem wit_ReadsWithEffects : State.reset.toChip.pstate ≠ 3 ∧ (∃ f ∈ fieldsAt (0x20010#24).toNat, f.access = .rc) ∧
    (∃ f ∈ fieldsAt (0x20020#24).toNat, f.access = .rc) ∧ (1 < 2 ∧ 63 < 64) := by decide +kernel

theorem wit_SemaphoresFollowTheirOwner : State.reset.toChip.pstate ≠ 3 ∧ State.reset.toChip.get (Reg.GLB_SEM_OWNER 31) = 0 ∧
    (regsOf [(Reg.GLB_SEM_OWNER 31, 2)]).get (Reg.GLB_SEM_OWNER 31) = Port.num .b + 1 ∧
    ((2#32).toNat = Port.num .b + 1 ∧ (regsOf [(Reg.GLB_SEM_OWNER 31, 2)]).get (Reg.GLB_SEM_OWNER 31) = Port.num .b + 1) ∧
    ¬((1#32).toNat = Port.num .a + 1 ∧ (regsOf [(Reg.GLB_SEM_OWNER 31, 2)]).get (Reg.GLB_SEM_OWNER 31) = Port.num .a + 1) := by
  decide +kernel

theorem wit_WriteRowsAreRegisterWrites : writeRow (.semWrite .b 31 2) = some (.b, 0x17C, 2) := by decide

theorem wit_ServoLimitsAreStoredAsTheNearerLimit : State.reset.toChip.pstate ≠ 3 := by decide +kernel

/-! ### Witnesses: Engine Time and network time -/

/-- A message header of the reset domain. -/
def hdr0 : PtpHdr := ⟨0, 2, ⟨7, 1⟩, 65535⟩

/-- Port 1 runs PTP. -/
def ptpRegs : List (Field × Nat) := [(Reg.ENET_CTRL_ENABLE 1, 1), (Reg.ENET_CTRL_PTP_EN 1, 1), (Reg.ENET_STATUS_LINK 1, 1)]

/-- Port 1 in PTP follows the master that sends hdr0, and has a request and a Sync in progress. -/
def slave1 : Chip :=
  ({ regsOf (ptpRegs ++ [(Reg.ENET_STATUS_PORT_STATE 1, 9)]) with servo :=
    { parent := some ⟨7, 1⟩, parentPort := 1, meanDelay := some 5, syncDue := some 100 } }).setPtp 1
    { forward := some 3, reqSent := some 4, syncHalf := some ⟨⟨7, 1⟩, 65535, 0, 0⟩, announceDue := some 9 }

theorem wit_TimeRunsByTheRate : State.reset.toChip.clk < 4 ∧ State.reset.toChip.nextAlarm = none ∧
    State.reset.toChip.et.toNat + ((2 ^ 48 + clampI (State.reset.toChip.getI Reg.ETM_RATE_RATE) (-4294967) 4294967 * 2 ^ 16 : Int) *
      ((4 * (4 / 4 - 0) : Nat) : Int)).toNat < 2 ^ 96 := by decide +kernel

theorem wit_ActionsRunAtTheirTargets :
    later (5#64) (4#64) = true ∧ ((regsOf []).setRing 1 63 { atDue := some 5 } |>.ring 1 63).atDue = some 5 ∧
    (let d := desc 0x40 1 []
     let c := { headOf (regsOf []) 2 d with sched := [⟨5, .loopCmd 0 0, true⟩] }
     nextSched c.sched = some ⟨5, .loopCmd 0 0, true⟩ ∧ (c.forgetCmd 0 0).loopHead 0 0 = some d) ∧
    nextSched [⟨0, .camTrigger 7, false⟩] = some ⟨0, .camTrigger 7, false⟩ ∧
    0 < wrapDiff (1#64) State.reset.toChip.now ∧
    (wrapDiff (0#64) State.reset.toChip.now ≤ 0 ∧ -(1000000 * 65536) ≤ wrapDiff (0#64) State.reset.toChip.now) ∧
    -(1000000 * 65536) ≤ wrapDiff (BitVec.ofInt 64 (-65536000000)) State.reset.toChip.now ∧
    wrapDiff (BitVec.ofInt 64 (-65536000001)) State.reset.toChip.now < -(1000000 * 65536) ∧
    later (1#64) (0#64) = true ∧
    nextSched ({ State.reset.toChip with sched := [⟨0, .motionCmd 1 63, true⟩] }).sched = some ⟨0, .motionCmd 1 63, true⟩ ∧
    nextSched ({ State.reset.toChip with sched := [⟨5, .motionCmd 1 63, false⟩] }).sched = some ⟨5, .motionCmd 1 63, false⟩ := by
  decide +kernel

theorem wit_ActionsRunAtTheirTargets_go : State.reset.toChip.pstate ≠ 3 ∧ (1#32).getLsbD 0 = true ∧
    State.reset.toChip.get Reg.ETM_STATUS_STATE = 0 ∧ State.reset.toChip.get Reg.ETM_STATUS_INLAYER = 0 ∧
    ¬((regsOf [(Reg.ETM_STATUS_STATE, 3)]).get Reg.ETM_STATUS_STATE = 0 ∧ True) ∧
    ¬((regsOf [(Reg.ETM_STATUS_INLAYER, 1)]).get Reg.ETM_STATUS_INLAYER = 0) ∧ (0xFFFFFFFE#32).getLsbD 0 = false ∧
    (((regsOf []).setCam 7 { windowEnd := some 4 }).cam 7).windowEnd = some 4 := by decide +kernel

theorem wit_EdgesCountAndStamp :
    (let c := regsOf [(Reg.MOT_ENC_CFG_MODE 3, 1), (Reg.CRN_TRAV_CFG_ENC, 0)]
     c.pstate ≠ 3 ∧ EncLine.a ≠ .z ∧ (c.enc 3).a ≠ true ∧ c.isTraverse 3 = false ∧ (∀ a, a < 8 → c.axMode a ≠ 4) ∧
       (c.enc 3).recent = [] ∧ countStep 1 .a true false ≠ 0 ∧ (c.enc 3).queue.length < 16 ∧ (c.enc 3).b ≠ true ∧
       countStep 1 .b false true ≠ 0) ∧
    (let c := regsOf [(Reg.MOT_ENC_CFG_MODE 3, 0), (Reg.MOT_ENC_CFG_Z_EN 3, 1)]
     c.get (Reg.MOT_ENC_CFG_MODE 3) = 0 ∧ (c.enc 3).z = false ∧ c.flag (Reg.MOT_ENC_CFG_Z_EN 3) = true) ∧
    bit (State.reset.toChip.get (Reg.ETM_CAP_CTRL_EDGE 3)) 1 = false ∧
    (let c := regsOf [(Reg.ETM_CAP_CTRL_EDGE 3, 2)]
     bit (c.get (Reg.ETM_CAP_CTRL_EDGE 3)) 1 = true ∧ c.get (Reg.ETM_CAP_CTRL_VALID 3) = 0) ∧
    (let c := regsOf [(Reg.ETM_CAP_CTRL_EDGE 3, 2), (Reg.ETM_CAP_CTRL_VALID 3, 1)]
     bit (c.get (Reg.ETM_CAP_CTRL_EDGE 3)) 1 = true ∧ c.get (Reg.ETM_CAP_CTRL_VALID 3) ≠ 0) := by decide +kernel

theorem wit_PtpMessagesDriveTheServo :
    (let c := regsOf []
     (false ≠ true ∧ true ≠ c.flag Reg.ETM_PTP_CFG_TRANSPORT) ∧ false = c.flag Reg.ETM_PTP_CFG_TRANSPORT ∧
       (0 : BitVec 8).toNat = c.get Reg.ETM_PTP_CFG_DOMAIN ∧ (255 : BitVec 8).toNat ≠ c.get Reg.ETM_PTP_CFG_DOMAIN ∧
       (1 : BitVec 4) ≠ 2) ∧
    slave1.servo.meanDelay = some 5 ∧ slave1.servo.delaysLeft = 0 ∧
    (slave1.ptpMatches hdr0 = true ∧ slave1.ptpOn 1 = true ∧ slave1.followed 1 hdr0.source = true) ∧
    ((slave1.ptpPort 1).syncHalf = some ⟨hdr0.source, hdr0.seq.toNat, 0, 0⟩) ∧
    (hdr0.seq.toNat = ((slave1.ptpPort 1).seqDelay + 65535) % 65536 ∧ (slave1.ptpPort 1).reqSent = some 4 ∧
      (slave1.ptpPort 1).forward = some 3) ∧
    (let c := regsOf (ptpRegs ++ [(Reg.ENET_STATUS_PORT_STATE 1, 6)])
     c.ptpOn 1 = true ∧ c.ptpMatches hdr0 = true ∧ c.get (Reg.ENET_STATUS_PORT_STATE 1) = 6 ∧ c.get Reg.ETM_PTP_CFG_DELAY_MECH = 0) ∧
    (let c := regsOf (ptpRegs ++ [(Reg.ETM_PTP_CFG_DELAY_MECH, 1), (Reg.ETM_PTP_CFG_ONE_STEP, 1)])
     c.ptpOn 1 = true ∧ c.ptpMatches hdr0 = true ∧ c.get Reg.ETM_PTP_CFG_DELAY_MECH = 1 ∧ c.flag Reg.ETM_PTP_CFG_ONE_STEP = true) ∧
    (slave1.servo.parent.isSome = true ∧ slave1.servo.parentPort = 1) ∧ hdr0.source.clock ≠ (slave1.ownId 1).clock ∧
    State.reset.toChip.flag Reg.ETM_STATUS_SET = false ∧
    (let c := regsOf [(Reg.ETM_STATUS_SET, 1), (Reg.ETM_STATUS_STATE, 1)]
     let step := (c.get Reg.ETM_STEP_THR_NS : Int) * 65536
     let lock := (c.get Reg.ETM_LOCK_THR_NS : Int) * 65536
     c.flag Reg.ETM_STATUS_SET = true ∧ lock < |step| ∧ |step| ≤ step ∧ c.get Reg.ETM_STATUS_STATE = 1 ∧
       c.get Reg.ETM_STATUS_INLAYER = 0 ∧ c.get Reg.ETM_STATUS_SLEWING = 0 ∧ step < |step + 1| ∧ lock ≤ step ∧ |lock| ≤ lock ∧
       |c.servo.base| + (c.get Reg.ETM_SLEW_LIM_PPM : Int) * 4294967296 / 1000000 < 4294967) ∧
    (regsOf [(Reg.ETM_STATUS_INLAYER, 1)]).get Reg.ETM_STATUS_INLAYER ≠ 0 := by decide +kernel

theorem wit_PtpIntervalsAndHoldover :
    (let c := regsOf (ptpRegs ++ [(Reg.ENET_STATUS_PORT_STATE 1, 6)])
     c.ptpOn 1 = true ∧ c.get (Reg.ENET_STATUS_PORT_STATE 1) = 6) ∧
    (slave1.ptpOn 1 = true ∧ slave1.get (Reg.ENET_STATUS_PORT_STATE 1) = 9) ∧
    (let c := regsOf (ptpRegs ++ [(Reg.ETM_PTP_CFG_DELAY_MECH, 1)])
     c.ptpOn 1 = true ∧ c.flag Reg.ETM_PTP_CFG_DELAY_MECH = true) ∧
    (slave1.servo.syncDue = some 100 ∧ slave1.get Reg.ETM_STATUS_STATE ≠ 3) ∧
    (slave1.ptpPort 1).announceDue = some 9 ∧ (slave1.servo.parent.isSome = true ∧ slave1.ebest = none) ∧
    ({ slave1.servo with everLocked := true }).everLocked = true ∧ slave1.flag (Reg.ENET_STATUS_LINK 1) ≠ false := by decide +kernel

/-! ### Witnesses: the host interface -/

theorem wit_LinksAndPortReset :
    (let c := State.reset.toChip
     (c.get (Reg.HIF_STATUS_SPEED 1) = (0 : Fin 5).val ∧ c.get (Reg.HIF_STATUS_WIDTH 1) = 0) ∧
       ¬(c.get (Reg.HIF_STATUS_SPEED 1) = (4 : Fin 5).val) ∧ c.get (Reg.HIF_STATUS_SPEED 1) = 0) ∧
    (let c := regsOf [(Reg.HIF_STATUS_SPEED 1, 4), (Reg.HIF_STATUS_WIDTH 1, 4)]
     ¬(c.get (Reg.HIF_STATUS_SPEED 1) = (0 : Fin 5).val) ∧ c.get (Reg.HIF_STATUS_SPEED 1) ≠ 0 ∧
       ¬(c.get (Reg.HIF_STATUS_WIDTH 1) = (2 : Fin 5).val) ∧ (4 : Fin 5).val ≠ 0) ∧ 63 < 64 ∧ 31 < 32 := by
  and_intros <;> decide +kernel

/-- Ring 63 of port B in a state, of 64 entries, with its indices and its own data. -/
def ring63 (fs : List (Field × Nat)) (state ci pi : Nat) (r : RingX) : Chip :=
  (regsOf ([(Reg.HIF_RING_CFG_ENABLE 1 63, 1), (Reg.HIF_RING_CFG_SIZE_LOG2 1 63, 6), (Reg.HIF_RING_STATUS_STATE 1 63, state),
    (Reg.HIF_RING_STATUS_CI 1 63, ci), (Reg.HIF_RING_FAULT_PI 1 63, pi)] ++ fs)).setRing 1 63 r

theorem wit_RingsAreEnabledAndDisabled :
    (let c := State.reset.toChip
     let v := 0x80000605#32
     c.pstate ≠ 3 ∧ v.getLsbD 31 = true ∧ c.ringOn 1 63 = false ∧ bits v.toNat 0 3 ≤ 5 ∧ 6 ≤ bits v.toNat 8 4 ∧
       c.get (Reg.HIF_RING_BASE_LO_BASE 1 63) % 4096 = 0 ∧ c.get (Reg.HIF_RING_CI_LO_ADDR 1 63) % 4 = 0 ∧
       (0x80000505#32).getLsbD 31 = true ∧ ¬(6 ≤ bits (0x80000505#32).toNat 8 4)) ∧
    ((ring63 [] 1 0 0 {}).ringOn 1 63 = true ∧ bits (0x80000505#32).toNat 0 3 ≤ 5) ∧
    ((0x605#32).getLsbD 31 = false ∧ bits (0x605#32).toNat 0 3 ≤ 5) := by
  and_intros <;> decide +kernel

theorem wit_DoorbellsLeadToFetches :
    State.reset.toChip.pstate ≠ 3 ∧ State.reset.toChip.ringState 1 63 = 0 ∧
    (let c := ring63 [] 1 65535 65535 {}
     let v := 63#32
     c.ringState 1 63 ≠ 0 ∧ v.toNat < 65536 ∧
       (v.toNat + 65536 - c.ci 1 63) % 65536 ≤ 2 ^ c.get (Reg.HIF_RING_CFG_SIZE_LOG2 1 63) ∧
       0 ≤ wrapDiff (BitVec.ofNat 16 v.toNat) (BitVec.ofNat 16 (c.pi 1 63)) ∧ c.ringState 1 63 = 1 ∧
       ¬(((64#32).toNat + 65536 - c.ci 1 63) % 65536 ≤ 2 ^ c.get (Reg.HIF_RING_CFG_SIZE_LOG2 1 63)) ∧ (c.ring 1 63).acted = false) ∧
    (ring63 [] 2 0 0 {}).ringState 1 63 = 2 ∧ ¬((65536#32).toNat < 65536) ∧ ((ring63 [] 1 0 0 { acted := true }).ring 1 63).acted = true ∧
    [(0 : Byte)].length ≠ 64 ∧ (desc 0 0 []).length = 64 ∧
    (let c := ring63 [(Reg.HIF_RING_CFG_TYPE 1 63, 3)] 1 0 32 { fetched := List.replicate 31 none }
     c.ringState 1 63 = 1 ∧ (c.ring 1 63).fetched.length < 32 ∧ (c.ring 1 63).fetched.length < c.outstanding 1 63 ∧ (c.ring 1 63).fetched ≠ [] ∧
       c.get (Reg.HIF_RING_CFG_TYPE 1 63) ≠ 0) ∧
    (let c := ring63 [] 1 0 1 { heldSince := some 0 }
     c.ringState 1 63 = 1 ∧ (c.ring 1 63).fetched.length < 32 ∧ (c.ring 1 63).fetched.length < c.outstanding 1 63 ∧
       c.get (Reg.HIF_RING_CFG_TYPE 1 63) = 0 ∧
       ¬(c.blockUsed + 263168 ≤ c.get Reg.HIF_BLOCK_AREA_MIB * 2 ^ 20 ∧ c.flag Reg.DRC_STATUS_INIT_DONE = true) ∧
       (c.ring 1 63).heldSince = some 0 ∧ (c.ring 1 63).heldTold = false) ∧
    (let c := ring63 [(Reg.HIF_BLOCK_AREA_MIB, 64), (Reg.DRC_STATUS_INIT_DONE, 1)] 1 0 1 { heldSince := some 0 }
     (c.ring 1 63).heldSince.isSome = true ∧ c.blockUsed + 263168 ≤ c.get Reg.HIF_BLOCK_AREA_MIB * 2 ^ 20 ∧
       c.flag Reg.DRC_STATUS_INIT_DONE = true) ∧
    (let c := ring63 [(Reg.HIF_RING_CFG_TYPE 1 63, 3)] 1 0 1 {}
     c.ringState 1 63 = 1 ∧ (c.ring 1 63).fetched = [] ∧ 0 < c.outstanding 1 63 ∧ c.get (Reg.HIF_RING_CFG_TYPE 1 63) ≠ 0) := by
  and_intros <;> decide +kernel

theorem wit_RingsAreSignalledRestartedAndFilled :
    ((ring63 [] 1 0 0 { irqDue := some 9 }).ring 1 63).irqDue = some 9 ∧ State.reset.toChip.pstate ≠ 3 ∧
    ((1#32).getLsbD 0 = true ∧ (1#32).getLsbD 1 = false ∧ (1#32).getLsbD 2 = false) ∧
    ((3#32).getLsbD 0 = true ∧ (3#32).getLsbD 1 = true ∧ (3#32).getLsbD 2 = false) ∧
    ((4#32).getLsbD 0 = false ∧ (4#32).getLsbD 2 = true) ∧
    ((ring63 [] 2 65535 0 {}).ringState 1 63 = 2 ∧ (ring63 [] 2 65535 0 {}).outstanding 1 63 ≠ 0) ∧
    (ring63 [] 2 65535 65535 {}).outstanding 1 63 = 0 ∧
    ((ring63 [] 1 0 0 {}).ringState 1 63 = 1 ∧ ((ring63 [] 1 0 0 {}).ring 1 63).acted = false) ∧
    ((ring63 [] 1 0 0 { acted := true }).ring 1 63).acted = true ∧ (ring63 [] 2 0 0 {}).ringState 1 63 ≠ 1 ∧
    (let d := desc 0x61 1 [(0x10, 4, 4032)]
     (headOf (regsOf []) 5 d).headOp 0 0 0x61 = some d ∧ leField d 0x10 4 < 4096) ∧
    (let d := desc 0x61 1 [(0x10, 4, 4096)]
     let it : StateItem := { port := 0, ring := 0, kind := 1, body := [0], onChip := false }
     let c := { headOf (regsOf []) 5 d with stateItems := [it] }
     c.headOp 0 0 0x61 = some d ∧ leField d 0x10 4 % 64 = 0 ∧ 4096 ≤ leField d 0x10 4 ∧
       c.stateItems.find? (StateItem.waits 0 0) = some it ∧ it.body.length ≤ leField d 0x10 4) ∧
    (let d := desc 0x60 1 [(0x10, 4, 4096)]
     let it : InspItem := { port := 0, ring := 0, kind := 1, source := 0, frame := 0, paramset := 0, iflags := 0, body := [0] }
     let c := { headOf (regsOf []) 5 d with inspItems := [it] }
     c.headOp 0 0 0x60 = some d ∧ leField d 0x10 4 % 64 = 0 ∧ 4096 ≤ leField d 0x10 4 ∧
       c.inspItems.find? (InspItem.waits 0 0) = some it ∧ it.body.length ≤ leField d 0x10 4) ∧
    leField (desc 0x61 1 [(0x10, 4, 4096)]) 0x10 4 < (List.replicate 4097 (0 : Byte)).length := by
  and_intros <;> decide +kernel

/-! ### Witnesses: DRAM, clocks, power and reset -/

/-- Rank 3 of both channels serves as logical rank 3. -/
def rank3 : List (Field × Nat) := [(Reg.DRC_RANK_STATUS_STATE 3, 1), (Reg.DRC_RANK_STATUS_STATE 7, 1), (Reg.DRC_RANK_STATUS_LRANK 3, 3),
  (Reg.DRC_RANK_STATUS_LRANK 7, 3)]

/-- Rank 0 of both channels serves as logical rank 0, and rank 3 of channel 0 is the spare that takes its place. -/
def migrating (copied : Nat) : Chip :=
  { regsOf [(Reg.DRC_CFG_SPARE_RANK, 3), (Reg.DRC_RANK_STATUS_STATE 0, 3), (Reg.DRC_RANK_STATUS_STATE 4, 1),
      (Reg.DRC_RANK_STATUS_STATE 3, 4)] with migration := some ⟨⟨0, 0, 1⟩, copied⟩ }

theorem wit_DramRunsAndRefreshes_training :
    (regsOf [(Reg.DRC_STATUS_TRAINED, 1)]).flag Reg.DRC_STATUS_TRAINED = true ∧ State.reset.toChip.conf.scanned = false ∧
    (let c := { regsOf [] with conf := { (regsOf []).conf with scanned := true } }
     c.flag Reg.DRC_STATUS_TRAINED = false ∧ c.conf.scanned = true) ∧
    (let c := regsOf [(Reg.DRC_STATUS_TRAINED, 1), (Reg.CFG_STATUS_READY, 1), (Reg.HIF_BLOCK_AREA_MIB, 1)]
     c.flag Reg.CFG_STATUS_READY = true ∧ c.flag Reg.DRC_STATUS_INIT_DONE = false ∧
       c.blockUsed + 263168 ≤ c.get Reg.HIF_BLOCK_AREA_MIB * 2 ^ 20) := by decide +kernel

theorem wit_DramRunsAndRefreshes_refreshes :
    (let c := regsOf rank3
     c.inService 3 = true ∧ c.selfRefresh = false ∧ (c.advanceTo (SMap.get 0 3 c.refreshDue)).owed 3 < 4 ∧
       (c.flag Reg.DRC_REF_CFG_PULL_IN = true ∧ -4 < c.owed 3) ∧ (SMap.get (0, 0) (32 * 3 + 31) c.banks).2 = 0) ∧
    (let c := { regsOf (rank3 ++ [(Reg.DRC_RANK_STATUS_OWED 3, 3)]) with banks := [(127, (5, 9))] }
     c.inService 3 = true ∧ c.selfRefresh = false ∧ c.owed 3 < 4 ∧ 0 < c.owed 3 ∧ (SMap.get (0, 0) (32 * 3 + 31) c.banks).2 ≠ 0) ∧
    (let c := regsOf (rank3 ++ [(Reg.DRC_RANK_STATUS_OWED 3, 4)])
     c.inService 3 = true ∧ c.selfRefresh = false ∧ 4 ≤ (c.advanceTo (SMap.get 0 3 c.refreshDue)).owed 3) := by decide +kernel

theorem wit_DramRunsAndRefreshes_polls :
    (let c := regsOf rank3
     c.holder 0 3 = some 3 ∧ c.inService 3 = true ∧ c.selfRefresh = false ∧ c.flag (Reg.DRC_RANK_STATUS_DOUBLED 3) = false) ∧
    (let c := regsOf (rank3 ++ [(Reg.DRC_RANK_STATUS_DOUBLED 3, 1)])
     c.holder 0 3 = some 3 ∧ c.inService 3 = true ∧ c.flag (Reg.DRC_RANK_STATUS_DOUBLED 3) = true ∧ SMap.get 0 3 c.calmPolls = 0) ∧
    1 ≤ SMap.get 0 3 ({ regsOf (rank3 ++ [(Reg.DRC_RANK_STATUS_DOUBLED 3, 1)]) with calmPolls := [(3, 1)] }).calmPolls := by decide +kernel

theorem wit_DramErrorsAndSparing_errors :
    (regsOf [(Reg.DRC_STATUS_TRAINED, 1)]).flag Reg.DRC_STATUS_TRAINED = true ∧ 7 < 8 ∧
    (let e : DramError := ⟨.one 19, 64 * (3 * 2 ^ 29), 6, .region 4⟩
     e.kind = .one 19 ∧ (regsOf rank3).rankAt 1 ((regsOf rank3).targetAddr e.off e.target) = some 3) ∧
    (let e : DramError := ⟨.unnamed, 0, 6, .region 4⟩
     let c := State.reset.toChip
     DramKind.correctable e.kind = false ∧ c.flag Reg.DRC_ERR_INFO_VALID = false ∧ e.target = .region 4 ∧
       c.targetAddr e.off e.target < 2 ^ 64 ∧ c.migration = none ∧ c.holder 0 (c.lrankOf (c.targetAddr e.off e.target)) = none ∧
       c.holder 1 (c.lrankOf (c.targetAddr e.off e.target)) = none) ∧
    (let c := regsOf [(Reg.DRC_RANK_STATUS_STATE 0, 1), (Reg.DRC_RANK_STATUS_STATE 4, 1), (Reg.DRC_SCRUB_HOURS, 1),
       (Reg.DRC_ECC_CFG_PRE_SPARE, 0)]
     c.inService 0 = true ∧ c.selfRefresh = false ∧ c.eyeOwed = [] ∧ c.get Reg.DRC_SCRUB_HOURS ≠ 0 ∧ 0 = c.lrankOf 0 ∧
       0 = (bankRow (c.rankUnit 0)).1 ∧ 0 + 1 < c.lranks * c.lrankUnits ∧
       (let last := 2 ^ 29 - 1
        0 = c.lrankOf (64 * last) ∧ 31 = (bankRow (c.rankUnit (64 * last))).1 ∧ c.lranks * c.lrankUnits ≤ last + 1 ∧
          ¬(0 = c.lrankOf (64 * last) ∧ 30 = (bankRow (c.rankUnit (64 * last))).1)) ∧
       c.flag Reg.DRC_ECC_CFG_PRE_SPARE = false ∧ 4 * 1 + 0 ∉ c.eyeOwed ∧ c.serving 1 0 = true) ∧
    4 * 1 + 3 ∈ ({ regsOf [] with eyeOwed := [7] }).eyeOwed := by decide +kernel

theorem wit_DramErrorsAndSparing_sparing :
    (let c := regsOf []
     c.pstate ≠ 3 ∧ (1#32).getLsbD 0 = true ∧ c.migration = none ∧ ¬(c.flag Reg.DRC_CFG_SPARE_EN = true)) ∧
    (let c := regsOf [(Reg.DRC_CFG_SPARE_EN, 1), (Reg.DRC_CFG_SPARE_RANK, 3), (Reg.DRC_RANK_STATUS_STATE 7, 2),
       (Reg.DRC_RANK_STATUS_STATE 6, 1)]
     let v := 0x211#32
     c.pstate ≠ 3 ∧ v.getLsbD 0 = true ∧ c.migration = none ∧ c.flag Reg.DRC_CFG_SPARE_EN = true ∧
       c.rankState (bits v.toNat 4 1) (c.get Reg.DRC_CFG_SPARE_RANK) = 2 ∧ c.rankState (bits v.toNat 4 1) (bits v.toNat 8 2) = 1 ∧
       c.get Reg.DRC_CFG_SPARE_RANK < 4) ∧
    (let c := migrating 0
     c.migration = some ⟨⟨0, 0, 1⟩, 0⟩ ∧ c.selfRefresh = false ∧ c.eyeOwed = [] ∧ 0 + 1 < c.lrankUnits) ∧
    (let c := migrating (2 ^ 29)
     let e : DramError := ⟨.two 0 9, 0, 6, .region 1⟩
     c.migration = some ⟨⟨0, 0, 1⟩, 2 ^ 29⟩ ∧ c.selfRefresh = false ∧ c.eyeOwed = [] ∧ c.wanted = none ∧ 0 < 2 ∧ 0 < 4 ∧
       0 ≠ c.get Reg.DRC_CFG_SPARE_RANK ∧ c.rankState 0 (c.get Reg.DRC_CFG_SPARE_RANK) = 4 ∧ 0 < 2 ^ 29 ∧ 2 ^ 29 ≤ c.lrankUnits ∧
       DramKind.correctable e.kind = false ∧ e.target = .region 1 ∧ errChannels e.kind = [0]) := by
  and_intros <;> decide +kernel

theorem wit_ResetsKeepOnlyTheKept : 5 < 6 ∧
    (Reg.CRN_STATUS_STATE ∉ [Reg.CKP_THERM_CFG_WARN_C, Reg.HED_GATE_STATUS_VOTE, Reg.HED_GATE_STATUS_COND_STOP] ∧
      (∀ g ∈ resetKeeps, Reg.CRN_STATUS_STATE.key ≠ g.key) ∧
      ∀ g ∈ [Reg.CKP_THERM_CFG_WARN_C, Reg.HED_GATE_STATUS_VOTE, Reg.HED_GATE_STATUS_COND_STOP, Reg.CKP_XING_QUAR_QUAR],
        Reg.CRN_STATUS_STATE.key ≠ g.key) ∧
    (let c := { regsOf [(Reg.CKP_RESET_CAUSE_CAUSE, 2)] with island := { (regsOf []).island with relAt := 10000 } }
     c.justReset = true ∧ 2 ≤ c.get Reg.CKP_RESET_CAUSE_CAUSE) ∧ State.reset.toChip.justReset = false ∧
    State.reset.toChip.pstate ≠ 3 ∧ ((0xA501#32).getLsbD 0 = true ∧ bits (0xA501#32).toNat 8 8 = 0xA5) ∧
    ¬((0xA401#32).getLsbD 0 = true ∧ bits (0xA401#32).toNat 8 8 = 0xA5) ∧
    ({ State.reset.toChip.island with wdogDue := some 1000000 }).wdogDue = some 1000000 := by decide +kernel

theorem wit_PowerStatesAndCrossings :
    (let c := State.reset.toChip
     c.target ≤ c.pstate ∧ c.target < 3) ∧
    (let c := regsOf [(Reg.CKP_PSTATE_CFG_MAX_STATE, 1)]
     c.target ≠ 0 ∧ c.pstate = 0 ∧ c.power.exit = none ∧ c.target = 1) ∧
    (let c := regsOf [(Reg.CKP_PSTATE_CFG_MAX_STATE, 2), (Reg.DRC_STATUS_INIT_DONE, 1)]
     c.pstate < c.target ∧ c.power.exit = none ∧ 2 ≤ c.target) ∧
    ({ State.reset.toChip with power := { exit := some (0, 9) } }).power.exit.isSome = true ∧
    (let c := State.reset.toChip
     c.power.exit = none ∧ c.pstate ≤ min c.target 1) ∧
    (let c := regsOf [(Reg.CKP_STATUS_PSTATE, 3)]
     c.power.exit = none ∧ min c.target (if WakeCause.access = .doorbell then 1 else c.pstate - 1) < c.pstate) ∧
    (let c := { regsOf [(Reg.CKP_STATUS_PSTATE, 1)] with power := { exit := some (0, 9) } }
     c.power.exit = some (0, 9) ∧ c.pstate = 1 ∧ 0 < 4) ∧
    State.reset.toChip.pstate ≠ 3 ∧ (∀ n, n < 48 → State.reset.toChip.laneUp n = false) ∧
    State.reset.toChip.sideReset 13 3 = true ∧ State.reset.toChip.sideReset 24 63 = false := by decide +kernel

/-- The reset controller with its rail sequence at some phase and step. -/
def railsAt (fs : List (Field × Nat)) (phase step : Nat) : Chip :=
  { regsOf fs with island := { (regsOf fs).island with phase := phase, step := step, loaded := true, retryDue := some 5 } }

theorem wit_RailsFollowTheirOrder :
    (let c := railsAt [] 1 5
     c.island.phase = 1 ∧ c.island.step = (5 : Fin 6).val ∧ c.clk ≤ c.island.due) ∧
    ((railsAt [] 2 4).island.phase = 2 ∧ (railsAt [] 2 4).island.step < 5) ∧
    ((railsAt [] 2 5).island.phase = 2 ∧ (railsAt [] 2 5).island.step = 5) ∧
    (let c := railsAt [] 0 0
     c.island.retryDue = some 5 ∧ c.island.phase = 0 ∧ c.island.loaded = true ∧ c.island.thermHold = false ∧ c.island.vinOff = false ∧
       (c.advanceTo 5).flag Reg.CKP_RAIL_STATUS_LOCKOUT = false) ∧
    (let c := railsAt [(Reg.CKP_RAIL_STATUS_EN, 63), (Reg.CKP_RAIL_STATUS_PG, 63)] 3 5
     5 < 6 ∧ c.get Reg.CKP_RAIL_STATUS_EN = 2 ^ (5 + 1) - 1 ∧ c.bitOf Reg.CKP_RAIL_STATUS_PG 5 = true ∧ c.island.phase = 3 ∧
       (5 : Fin 6).val ≠ 2) ∧
    (let c := { regsOf [] with island := { (regsOf []).island with phase := 4 } }
     c.island.phase = 4 ∧ c.island.step = 0 ∧ c.island.retry = false ∧ c.island.loaded = false) ∧
    (let c := State.reset.toChip
     let w : Int := 16 * (c.advanceTo c.island.thermDue).get Reg.CKP_THERM_CFG_WARN_C
     c.island.thermHold = false ∧ c.pstate ≠ 3 ∧ w < 2000 ∧ w - 1 < w ∧ w ≤ w ∧ (c.advanceTo c.island.thermDue).flag Reg.CKP_STATUS_TEMP_WARN = false) ∧
    (regsOf [(Reg.CKP_STATUS_TEMP_WARN, 1)]).flag Reg.CKP_STATUS_TEMP_WARN = true ∧ 2000 ≤ (2000#16).toInt := by decide +kernel

/-! ### Witnesses: head links, heads and gates -/

/-- Lane 47 in a state, with its own data. -/
def lane47 (fs : List (Field × Nat)) (state : Nat) (l : Lane) : Chip :=
  (regsOf ((Reg.THL_LANE_STATUS_STATE 47, state) :: (Reg.HED_HEAD_CFG_NOZZLES 47, 128) :: fs)).setLane 47 l

/-- Head 47 in the armed layer. -/
def armed47 (fs : List (Field × Nat)) : Chip :=
  { regsOf ((Reg.CRN_STATUS_STATE, 2) :: fs) with layers := [{ num := 1, bands := 1, heads := 2 ^ 47 }], run := some {} }

/-- A request to a head, outstanding. -/
def out47 (fails : Nat) (busy : Bool) : MgmtOut := ⟨⟨1, 0, 0, 0x40, [], .recFirst, false⟩, 255, fails, 5, busy⟩

theorem wit_LanesAlignLinkAndFallBack :
    (let c := lane47 [(Reg.THL_LANE_CFG_AUTO_ALIGN 47, 1)] 1 { retryAt := some 9, aligned := true, seekSince := some 3 }
     c.laneState 47 = 1 ∧ c.flag (Reg.THL_LANE_CFG_AUTO_ALIGN 47) = true ∧ (c.lane 47).retryAt = some 9 ∧ c.pstate ≠ 3 ∧
       ((2#32).getLsbD 0 = false ∧ (2#32).getLsbD 1 = true) ∧ ((1#32).getLsbD 0 = true ∧ (1#32).getLsbD 1 = false) ∧
       (c.lane 47).aligned = true ∧ c.configured 47 = true ∧ (c.lane 47).seekSince = some 3) ∧
    State.reset.toChip.flag (Reg.THL_LANE_CFG_AUTO_ALIGN 47) = false ∧ State.reset.toChip.receives 47 = false ∧
    (let c := lane47 [] 1 { enabledAt := some 0 }
     (c.lane 47).enabledAt = some 0 ∧ c.configured 47 = true ∧ (c.lane 47).failTold = false ∧ c.laneUp 47 = false) ∧
    (let c := lane47 [] 2 { kept := [⟨0, .shot 1, 7, none, false⟩] }
     47 < 48 ∧ 15 < 16 ∧ c.laneUp 47 = true ∧ c.inArmed 47 = false ∧ c.get (Reg.HED_HEAD_STATUS_STATE 47) ≠ 5 ∧
       (c.lane 47).kept = ⟨0, .shot 1, 7, none, false⟩ :: []) := by decide +kernel

theorem wit_PacketsAndCalvesOnALane :
    (let c := lane47 [] 2 { errs := [3, 2, 1] }
     c.laneUp 47 = true ∧ c.receives 47 = true ∧ (c.lane 47).common = false ∧ (20 < (21 : Fin 33).val ∧ (21 : Fin 33).val ≤ 30) ∧
       (20 < (30 : Fin 33).val ∧ (30 : Fin 33).val ≤ 30) ∧ (12 ≤ (12 : Fin 33).val ∧ (20 : Fin 33).val ≤ 20) ∧
       (2 ≤ (2 : Fin 33).val ∧ (11 : Fin 33).val < 12) ∧ 30 < (31 : Fin 33).val ∧ (1 : Fin 33).val < 2 ∧
       (c.lane 47).errs = 3 :: 2 :: 1 :: []) ∧
    (let b := lane47 [(Reg.PHY_LANE_CTRL_PRBS 47, 1)] 4 {}
     b.laneState 47 = 4 ∧ b.flag (Reg.PHY_LANE_CTRL_PRBS 47) = true ∧ b.nearEnd 47 = false ∧ b.receives 47 = true ∧
       (b.lane 47).common = false ∧ b.quar.contains (11, 47) = false ∧ (1 : Fin 33).val < 2) ∧
    { lane47 [] 2 {} with quar := [(11, 47)] }.quar.contains (11, 47) = true ∧
    (lane47 [] 2 { errs := [1, 2] }).lane 47 = { errs := [1, 2] } ∧ [1, 2].length < 3 ∧
    (let c := lane47 [] 3 { calves := [(4, 1)] }
     c.laneState 47 = 3 ∧ c.pstate < 2 ∧ (c.lane 47).calves = (4, 1) :: [] ∧ (c.lane 47).current = none) ∧
    (let c := lane47 [] 3 { calves := [(4, 1)], current := some (.timeReq 6), currentEnd := 1 }
     (c.lane 47).calves = (4, 1) :: [] ∧ (c.lane 47).current = some (.timeReq 6) ∧ (c.lane 47).replaying = none ∧
       c.clk < (c.lane 47).currentEnd) ∧
    (let c := lane47 [] 3 {}
     (c.lane 47).calves = [] ∧ (c.lane 47).replay = [] ∧ (c.lane 47).retimes = [] ∧ (c.lane 47).times = [] ∧
       (c.lane 47).mgmtQ = [] ∧ (c.lane 47).current = none ∧ c.adjDue 47 = none ∧ c.nextShot 47 = none) := by decide +kernel

theorem wit_LanesMeasureTimeAndLoopBack :
    (let c := lane47 [(Reg.TDM_STATUS_OWNS, 1)] 2 { reqOut := some 65535 }
     let m : TimeRsp := ⟨65535, 0, 0, 0, 0, true⟩
     c.laneUp 47 = true ∧ c.pstate < 2 ∧ (c.lane 47).reqOut = some m.tseq.toNat ∧
       |wrapDiff m.t2 m.t1 - (Int.tdiv (wrapDiff m.t4 m.t1 - wrapDiff m.t3 m.t2) 2 -
         Int.tdiv (Int.tdiv (c.getI (Reg.THL_LANE_ASYM_PS 47) * 65536) 1000) 2)| ≤
         65536 * (c.get Reg.THL_TIME_CFG_ERR_NS : Int) ∧ c.owns = true ∧ (c.headRun 47).shots = []) ∧
    (lane47 [] 2 { reqOut := some 65535 }).owns = false ∧
    (let c := lane47 [] 2 { reqOut := some 65535 }
     c.laneUp 47 = true ∧ (c.lane 47).reqOut ≠ some (0 : BitVec 16).toNat ∧ (TimeRsp.mk 0 0 0 0 0 false).good = false) ∧
    (let c := { lane47 [(Reg.TDM_STATUS_OWNS, 1)] 2 { reqOut := some 65535 } with stepSum := 9 }
     c.laneUp 47 = true ∧ c.owns = true ∧ c.stepSum ≠ (c.lane 47).stepSeen) ∧
    (bits (0x30#32).toNat 4 2 ≠ 0 ∧ (armed47 []).inArmed 47 = true) ∧
    (let c := lane47 [] 2 {}
     c.pstate ≠ 3 ∧ bits (0x10#32).toNat 4 2 ≠ 0 ∧ c.inArmed 47 = false ∧ ¬(bits (0x10#32).toNat 4 2 = 3) ∧
       bits (0x30#32).toNat 4 2 = 3 ∧ (if bits (0x30#32).toNat 8 2 = 3 then 0 else bits (0x30#32).toNat 8 2) = 0 ∧ c.laneUp 47 = true ∧
       bits (0x300#32).toNat 4 2 = 0 ∧ (if bits (0x300#32).toNat 8 2 = 3 then 0 else bits (0x300#32).toNat 8 2) = 0 ∧
       c.laneState 47 ≠ 4) := by decide +kernel

theorem wit_HeadRequestsEndOrAreTriedAgain :
    (let c := lane47 [] 2 { mgmtOut := [out47 1 false] }
     let find := fun (tag : BitVec 8) => (c.lane 47).mgmtOut.find? (fun (o : MgmtOut) => decide (o.tag = tag.toNat))
     c.laneUp 47 = true ∧ find 0 = none ∧ find 255 = some (out47 1 false) ∧ (MgmtResponse.mk 255 .ok [] true).good = true ∧ (out47 1 false).req.why ≠ .exec ∧ (out47 1 false).fails < 2 ∧
       (c.lane 47).mgmtOut = [out47 1 false] ∧ (out47 1 false).busy = false ∧
       ((c.lane 47).mgmtQ.any fun q => decide (q.1 = (out47 1 false).tag)) = false) ∧
    (let c := lane47 [] 2 { mgmtOut := [out47 1 false], mgmtQ := [(255, (out47 1 false).req)] }
     (c.lane 47).mgmtOut = [out47 1 false] ∧ ((c.lane 47).mgmtQ.any fun q => decide (q.1 = (out47 1 false).tag)) = true) ∧
    (MgmtStatus.failed ≠ .ok ∧ MgmtStatus.failed ≠ .busy) ∧ (MgmtResponse.mk 255 .ok [] false).good = false ∧
    (let o : MgmtOut := ⟨⟨1, 0, 0, 0x40, [], .dropped, true⟩, 255, 0, 5, false⟩
     let c := lane47 [] 2 { mgmtOut := [o] }
     c.laneUp 47 = true ∧ (c.lane 47).mgmtOut.find? (fun (q : MgmtOut) => decide (q.tag = (255 : BitVec 8).toNat)) = some o ∧
       o.req.why = .dropped ∧ (c.lane 47).mgmtOut = [o] ∧ ((c.lane 47).mgmtQ.any fun q => decide (q.1 = o.tag)) = false) ∧
    (((lane47 [] 2 { mgmtOut := [out47 1 true] }).lane 47).mgmtOut = [out47 1 true] ∧ (out47 1 true).busy = true) ∧
    (((lane47 [] 2 { mgmtOut := [out47 2 false] }).lane 47).mgmtOut = [out47 2 false] ∧ 2 ≤ (out47 2 false).fails) ∧
    (let c := lane47 [(Reg.HED_HEAD_STATUS_STATE 47, 3)] 2 {}
     c.pstate ≠ 3 ∧ ((1#32).getLsbD 0 = true ∧ (1#32).getLsbD 1 = false) ∧ c.get (Reg.HED_HEAD_STATUS_STATE 47) = 3 ∧
       ((2#32).getLsbD 0 = false ∧ (2#32).getLsbD 1 = true) ∧ c.inArmed 47 = false ∧ c.laneUp 47 = true ∧ c.configured 47 = true ∧
       c.asConfigured 47 = true) ∧
    State.reset.toChip.get (Reg.HED_HEAD_STATUS_STATE 47) ≠ 3 ∧ (armed47 []).inArmed 47 = true ∧ State.reset.toChip.laneUp 47 = false ∧
    (let c := lane47 [(Reg.THL_LANE_CFG_RATE 47, 2)] 2 {}
     c.configured 47 = true ∧ c.asConfigured 47 = false) := by decide +kernel

theorem wit_HeadTablesAndMeasurement :
    ((regsOf [(Reg.CRN_STATUS_STATE, 2), (Reg.HED_HEAD_CFG_NOZZLES 47, 8192)]).get Reg.CRN_STATUS_STATE ≠ 0 ∧
      32 * (255 : Fin 256).val < (regsOf [(Reg.CRN_STATUS_STATE, 2), (Reg.HED_HEAD_CFG_NOZZLES 47, 8192)]).gOf 47) ∧
    (State.reset.toChip.pstate ≠ 3 ∧ State.reset.toChip.get Reg.CRN_STATUS_STATE = 0 ∧ State.reset.toChip.gOf 47 ≤ 32 * (0 : Fin 256).val) ∧
    32 * (255 : Fin 256).val < (regsOf [(Reg.HED_HEAD_CFG_NOZZLES 47, 8192)]).gOf 47 ∧
    (let c := regsOf [(Reg.HED_HEAD_CFG_NOZZLES 47, 8192), (Reg.CFG_STATUS_COMMITTED, 1), (Reg.LOP_LS_DEST_KIND 63, 2),
       (Reg.LOP_LS_DEST_SEL 63, 47), (Reg.LOP_LS_DEST_G0 63, 255), (Reg.LOP_LS_DEST_G1 63, 255), (Reg.LOP_LS_SCHED_DIV 63, 1)]
     c.trimOwned 47 255 = true ∧ c.get Reg.CRN_STATUS_STATE = 0) ∧
    State.reset.toChip.trimOwned 47 255 = false ∧
    (regsOf [(Reg.CFG_STATUS_BUSY, 1)]).locked = true ∧
    (let c := (regsOf [(Reg.HED_MEAS_CFG_ENABLE, 1), (Reg.HED_HEAD_CFG_MEAS_EN 47, 1), (Reg.HED_HEAD_STATUS_STATE 47, 5)]).setHeadX 47
       { trim := some (0, 255, 9), idleDue := some 2000000, measuring := some (255, 16) }
     (c.head 47).trim = some (0, 255, 9) ∧ (c.head 47).idleDue = some 2000000 ∧ c.flag Reg.HED_MEAS_CFG_ENABLE = true ∧
       c.flag (Reg.HED_HEAD_CFG_MEAS_EN 47) = true ∧ c.get (Reg.HED_HEAD_STATUS_STATE 47) = 5 ∧ (c.headRun 47).shots = [] ∧
       (c.head 47).measuring = some (255, 16) ∧ 16 ≤ 16) ∧
    (let c := (regsOf []).setHeadX 47 { idleDue := some 2000000, measuring := some (255, 15) }
     ¬(c.flag Reg.HED_MEAS_CFG_ENABLE = true) ∧ (c.head 47).measuring = some (255, 15) ∧ 15 < 16) ∧
    (State.reset.toChip.head 47).measuring = none ∧
    ((MeasResult.mk 1 []).mstate = 1 ∧ (MeasResult.mk 2 []).mstate ≠ 0 ∧ (MeasResult.mk 2 []).mstate ≠ 1 ∧ (MeasResult.mk 0 []).mstate = 0) := by
  decide +kernel

theorem wit_GatesVoteThenSettle :
    State.reset.toChip.get Reg.CRN_STATUS_STATE = 0 ∧ State.reset.toChip.pstate ≠ 3 ∧
    ((1#32).getLsbD 1 = false ∧ (1#32).getLsbD 0 = true ∧
      (regsOf [(Reg.HED_GATE_STATUS_VOTE, 1)]).flag Reg.HED_GATE_STATUS_VOTE = true) ∧
    (let c := { regsOf [(Reg.HED_GATE_STATUS_VOTE, 1), (Reg.CFG_STATUS_COMMITTED, 1)] with settleDue := some 6 }
     c.settleDue = some 6 ∧ (c.advanceTo 6).flag Reg.HED_GATE_STATUS_VOTE = true ∧
       (c.advanceTo 6).flag Reg.HED_GATE_STATUS_STRIKE_LATCH = false ∧ (c.advanceTo 6).get Reg.CKP_STATUS_PSTATE ≤ 1 ∧
       (c.advanceTo 6).flag Reg.CFG_STATUS_COMMITTED = true) ∧
    (State.reset.toChip.advanceTo 6).flag Reg.CFG_STATUS_COMMITTED = false ∧
    (State.reset.toChip.advanceTo 6).flag Reg.HED_GATE_STATUS_VOTE = false ∧
    (regsOf [(Reg.HED_GATE_STATUS_STRIKE_LATCH, 1)]).flag Reg.HED_GATE_STATUS_STRIKE_LATCH = true ∧
    (let c := { regsOf [(Reg.HED_GATE_STATUS_INPUTS, 0x1FF), (Reg.HED_GATE_STATUS_VOTE, 1)] with settleDue := some 0 }
     c.pstate ≠ 3 ∧ ((2#32).getLsbD 0 = false ∧ (2#32).getLsbD 1 = true) ∧ c.get Reg.HED_GATE_CTRL_FORCE_STOP = 0 ∧
       c.flag Reg.HED_GATE_STATUS_VOTE = c.gateVote ∧ c.gatePermit 2 = true ∧ c.settleDue = some 0 ∧ 0 ≤ c.clk ∧ c.gateVote = true) ∧
    (let c := State.reset.toChip
     c.flag Reg.HED_GATE_STATUS_VOTE = c.gateVote ∧ c.gatePermit 2 = false ∧ c.settleDue = none ∧ c.strikeUntil ≤ c.clk) ∧
    (let c := { State.reset.toChip with strikeUntil := 123 }
     c.flag Reg.HED_GATE_STATUS_VOTE = c.gateVote ∧ c.clk < c.strikeUntil) ∧
    SMap.get 0 8 ({ State.reset.toChip with chanSince := [(8, 1)] }).chanSince = 0 + 1 := by decide +kernel

/-! ### Witnesses: tables, layers and the fire path -/

/-- The reset controller with the rows of one head of 32 nozzles. -/
def oneHead (fs : List (Field × Nat)) : Chip := regsOf ((Reg.CRN_NZT_BASE_GROUPS 47, 1) :: (Reg.HED_HEAD_CFG_NOZZLES 47, 32) :: fs)

theorem wit_TablesAreWrittenAndStaged :
    (let c := oneHead [(Reg.CRN_STATUS_STATE, 2)]
     c.pstate ≠ 3 ∧ c.get Reg.CRN_STATUS_STATE ≠ 0 ∧ (31 : Fin 262144).val < c.rowsTotal ∧ c.rowsTotal ≤ (32 : Fin 262144).val) ∧
    (let c := oneHead []
     c.get Reg.CRN_STATUS_STATE = 0 ∧ c.armed = none ∧ (31 : Fin 262144).val < c.rowsTotal ∧ c.substAfter 31 [0xFFFFFFFF] ≤ 16384 ∧
       c.get (Reg.CRN_GREY_LO_CODES 15) < 2 ^ 32) ∧
    (let d := desc 0x10 1 [(0x10, 4, 4)]
     let c := headOf (oneHead []) 1 d
     (c.ring 0 0).acted = false ∧ c.headOp 0 0 0x10 = some d ∧ leField d 0x10 4 ≠ 4 * leField d 0x18 4 ∧ leField d 0x18 4 < 1) ∧
    (let d := desc 0x10 1 [(0x10, 4, 8), (0x14, 4, 31), (0x18, 4, 2)]
     let c := headOf (oneHead []) 1 d
     c.headOp 0 0 0x10 = some d ∧ leField d 0x10 4 = 4 * leField d 0x18 4 ∧ 1 ≤ leField d 0x18 4 ∧ leField d 0x18 4 ≤ 16384 ∧
       c.rowsTotal < leField d 0x14 4 + leField d 0x18 4) ∧
    (let d := desc 0x10 1 [(0x10, 4, 4), (0x14, 4, 31), (0x18, 4, 1)]
     let c := headOf (oneHead []) 1 d
     c.headOp 0 0 0x10 = some d ∧ leField d 0x10 4 = 4 * leField d 0x18 4 ∧ 1 ≤ leField d 0x18 4 ∧ leField d 0x18 4 ≤ 16384 ∧
       leField d 0x14 4 + leField d 0x18 4 ≤ c.rowsTotal ∧ (c.ring 0 0).load = none ∧ c.sendsLog = false ∧ c.tracked = false ∧ c.substAfter 31 [0] ≤ 16384 ∧
       c.get Reg.CRN_NZT_STAGE_HOST + c.placesNeeded 31 [0] ≤ 61440) ∧
    (let d := desc 0x10 1 [(0x10, 4, 4), (0x14, 4, 31), (0x18, 4, 1)]
     let c := { headOf (oneHead [(Reg.CRN_NZT_STAGE_HOST, 61440)]) 1 d with run := some {}, layers := [{ num := 1, bands := 1, heads := 2 ^ 47 }] }
     c.headOp 0 0 0x10 = some d ∧ c.substAfter 31 [1] ≤ 16384 ∧ 61440 < c.get Reg.CRN_NZT_STAGE_HOST + c.placesNeeded 31 [1]) ∧
    (let d := desc 0x11 1 [(0x10, 4, 8), (0x14, 4, 16383), (0x18, 4, 2)]
     (headOf (oneHead []) 1 d).headOp 0 0 0x11 = some d ∧ 16384 < leField d 0x14 4 + leField d 0x18 4) ∧
    (let d := desc 0x11 1 [(0x10, 4, 4), (0x14, 4, 16383), (0x18, 4, 1)]
     let c := headOf (oneHead []) 1 d
     c.headOp 0 0 0x11 = some d ∧ leField d 0x10 4 = 4 * leField d 0x18 4 ∧ 1 ≤ leField d 0x18 4 ∧
       leField d 0x14 4 + leField d 0x18 4 ≤ 16384 ∧ (c.ring 0 0).load = none ∧ c.sendsLog = false ∧ c.tracked = false ∧ [0x80000000].all c.subEntryOk = false ∧
       [0].all c.subEntryOk = true ∧ c.armed = none ∧ c.get Reg.CRN_NZT_STAGE_HOST ≤ 61440) ∧
    (let d := desc 0x12 1 [(0x10, 4, 8), (0x14, 4, 16), (0x18, 4, 1)]
     (headOf (oneHead []) 1 d).headOp 0 0 0x12 = some d ∧ 16 < leField d 0x14 4 + leField d 0x18 4) ∧
    (let d := desc 0x12 1 [(0x10, 4, 8), (0x14, 4, 15), (0x18, 4, 1)]
     let c := headOf (oneHead []) 1 d
     c.headOp 0 0 0x12 = some d ∧ leField d 0x10 4 = 8 * leField d 0x18 4 ∧ 1 ≤ leField d 0x18 4 ∧
       leField d 0x14 4 + leField d 0x18 4 ≤ 16 ∧ (c.ring 0 0).load = none ∧ c.sendsLog = false ∧ c.tracked = false ∧ (∃ i, i < 1 ∧ leField (leBytes 8 1) (8 * i) 8 % 16 ≠ 0) ∧
       (∀ i, i < 1 → leField (leBytes 8 16) (8 * i) 8 % 16 = 0) ∧ c.armed = none ∧ ∀ e ∈ c.grey, e.2.band = none) ∧
    (let d := desc 0x10 1 [(0x10, 4, 4), (0x14, 4, 31), (0x18, 4, 1)]
     let c := { headOf (oneHead []) 1 d with tracked := true }
     c.headOp 0 0 0x10 = some d ∧ (c.ring 0 0).acted = false ∧ c.tracked = true ∧ (c.ring 0 0).load = none ∧ c.substAfter 31 [0] ≤ 16384) ∧
    (let d := desc 0x10 1 [(0x10, 4, 4), (0x14, 4, 31), (0x18, 4, 1)]
     let r : RingX := { fetched := [some d], load := some ⟨[1, 0, 0, 0], none, false⟩ }
     let c := (headOf (oneHead []) 1 d).setRing 0 0 r
     (c.ring 0 0).acted = false ∧ (c.ring 0 0).load = some ⟨[1, 0, 0, 0], none, false⟩ ∧ c.headOp 0 0 0x10 = some d ∧
       c.substAfter 31 [1] ≤ 16384 ∧ c.get Reg.CRN_NZT_STAGE_HOST + c.placesNeeded 31 [1] ≤ 61440 ∧
     (let f := { headOf (oneHead [(Reg.CRN_NZT_STAGE_HOST, 61440)]) 1 d with
        run := some {}
        layers := [{ num := 1, bands := 1, heads := 2 ^ 47 }] }.setRing 0 0 r
      (f.ring 0 0).load = some ⟨[1, 0, 0, 0], none, false⟩ ∧ f.headOp 0 0 0x10 = some d ∧ f.substAfter 31 [1] ≤ 16384 ∧
        61440 < f.get Reg.CRN_NZT_STAGE_HOST + f.placesNeeded 31 [1])) ∧
    (let d := desc 0x11 1 []
     let c := (headOf (oneHead []) 1 d).setRing 0 0 { fetched := [some d], load := some ⟨[], none, false⟩ }
     (c.ring 0 0).acted = false ∧ (c.ring 0 0).load = some ⟨[], none, false⟩ ∧ c.headOp 0 0 0x11 = some d ∧ c.armed = none ∧
       c.get Reg.CRN_NZT_STAGE_HOST ≤ 61440) ∧
    (let d := desc 0x12 1 []
     let c := (headOf (oneHead []) 1 d).setRing 0 0 { fetched := [some d], load := some ⟨[], none, false⟩ }
     (c.ring 0 0).load = some ⟨[], none, false⟩ ∧ c.headOp 0 0 0x12 = some d ∧ c.armed = none ∧ ∀ e ∈ c.grey, e.2.band = none) ∧
    (let d := desc 0x12 1 []
     (((headOf (oneHead []) 1 d).setRing 0 0 { fetched := [some d], load := some ⟨[], none, true⟩ }).ring 0 0).load = some ⟨[], none, true⟩) := by
  and_intros <;> decide +kernel

/-- A head waits for a table value. -/
def waiting47 (x : TableCell) : Chip := { regsOf [] with run := some { heads := [(47, { eccHold := some x })] } }

theorem wit_TablesAreReadAndMoraineIsKept :
    (let d := desc 0x14 1 [(0x1C, 1, 7)]
     (headOf (oneHead []) 1 d).headOp 0 0 0x14 = some d ∧ 6 < leField d 0x1C 1) ∧
    (let d := desc 0x14 1 [(0x1C, 1, 6)]
     (headOf (oneHead []) 1 d).headOp 0 0 0x14 = some d ∧ leField d 0x1C 1 ≤ 6 ∧ leField d 0x18 4 < 1) ∧
    (let d := desc 0x14 1 [(0x10, 4, 128), (0x18, 4, 32)]
     let c := headOf (oneHead []) 1 d
     c.headOp 0 0 0x14 = some d ∧ leField d 0x1C 1 = 0 ∧ 1 ≤ leField d 0x18 4 ∧ leField d 0x18 4 ≤ 16384 ∧
       leField d 0x14 4 + leField d 0x18 4 ≤ c.rowsTotal ∧ leField d 0x10 4 = 4 * leField d 0x18 4) ∧
    (let d := desc 0x14 1 [(0x10, 4, 4), (0x14, 4, 16383), (0x18, 4, 1), (0x1C, 1, 1)]
     (headOf (oneHead []) 1 d).headOp 0 0 0x14 = some d ∧ leField d 0x1C 1 = 1 ∧ leField d 0x14 4 + leField d 0x18 4 ≤ 16384) ∧
    (State.reset.toChip.headRun 47).eccHold = none ∧ ((waiting47 (.nzt 31)).headRun 47).eccHold = some (.nzt 31) ∧
    ((waiting47 (.sub 16383)).headRun 47).eccHold = some (.sub 16383) ∧ ((waiting47 (.grey 15 47)).headRun 47).eccHold = some (.grey 15 47) ∧
    (let c := { waiting47 (.sub 16383) with copyPoison := [copyKey (.sub 16383)] }
     (c.headRun 47).eccHold = some (.sub 16383) ∧ copyKey (.sub 16383) ∈ c.copyPoison) ∧
    copyKey (.nzt 31) ∉ (waiting47 (.nzt 31)).copyPoison ∧ copyKey (.sub 16383) ∉ (waiting47 (.sub 16383)).copyPoison ∧
    copyKey (.grey 15 47) ∉ (waiting47 (.grey 15 47)).copyPoison ∧
    (State.reset.toChip.pstate ≠ 3 ∧ (1#32).getLsbD 0 = true ∧ (2#32).getLsbD 0 = false) ∧
    (let c := { State.reset.toChip with ledgerPend := [leBytes 32 1], ledger := [leBytes 32 2] }
     c.ledgerPend = leBytes 32 1 :: [] ∧ c.conf.erasing = false ∧ c.ledger.length + c.ledgerTorn < 32768) ∧
    ({ State.reset.toChip.conf with erasing := true }).erasing = true ∧
    (let c := { State.reset.toChip with ledgerPend := [leBytes 32 1], ledgerTorn := 32768 }
     32768 ≤ c.ledger.length + c.ledgerTorn) := by
  and_intros <;> decide +kernel

/-- LAYER_OPEN of layer 9 with 2 bands on head 47, and the layer. -/
def open9 : List Byte := desc 1 1 [(0x14, 4, 9), (0x18, 4, 2), (0x1C, 8, 2 ^ 47)]
def layer9 : Layer := { num := 9, bands := 2, heads := 2 ^ 47 }

/-- BLOCK of layer 9, head 47, slab 15, and its header. -/
def block9 (flags : Nat) : List Byte := desc 2 flags [(0x10, 4, 2080), (0x14, 4, 9), (0x18, 1, 47), (0x1C, 4, 15)]
def hdr9 : List Byte := blockHeader true 0 47 9 15 2048 2048 0

/-- Ring 0 of port A holds that BLOCK, with layer 9 registered. -/
def blockChip (owns flags : Nat) (l : Layer) : Chip :=
  { headOf (oneHead [(Reg.TDM_STATUS_OWNS, owns)]) 0 (block9 flags) with layers := [l] }

theorem wit_LayersAreOpenedFilledAndClosed :
    (let c := headOf (oneHead [(Reg.TDM_STATUS_OWNS, 1)]) 0 open9
     c.headOp 0 0 1 = some open9 ∧ (c.ring 0 0).acted = false ∧ (∀ l ∈ c.layers, l.num ≠ leField open9 0x14 4) ∧
       leField open9 0x1C 8 < 2 ^ 48 ∧ leField open9 0x18 4 ≠ 0 ∧ leField open9 0x18 4 ≤ 65536 ∧
       (∀ h, h < 48 → bit (leField open9 0x1C 8) h = true → c.gOf h ≠ 0) ∧ c.owns = true ∧ c.layers.length < 2 ∧
       c.flag (Reg.HIF_STATUS_STATE_HELD 0) = false) ∧
    (let c := headOf (oneHead []) 0 open9
     c.headOp 0 0 1 = some open9 ∧ c.owns = false) ∧
    (let c := { headOf (oneHead [(Reg.TDM_STATUS_OWNS, 1)]) 0 open9 with layers := [{ layer9 with num := 1 }, { layer9 with num := 2 }] }
     c.headOp 0 0 1 = some open9 ∧ (∀ l ∈ c.layers, l.num ≠ leField open9 0x14 4) ∧ c.owns = true ∧ 2 ≤ c.layers.length) ∧
    (let c := { headOf (oneHead []) 0 open9 with layers := [layer9] }
     c.headOp 0 0 1 = some open9 ∧ ∃ l ∈ c.layers, l.num = leField open9 0x14 4) ∧
    (let d := desc 3 1 [(0x14, 4, 9)]
     let c := headOf (oneHead [(Reg.TDM_STATUS_OWNS, 1)]) 0 d
     c.headOp 0 0 3 = some d ∧ (∀ l ∈ c.layers, l.num ≠ leField d 0x14 4) ∧ (∀ e ∈ c.recent, e.1 ≠ leField d 0x14 4) ∧
       ({ c with layers := [layer9] }).layers.any (fun l => decide (l.num = leField d 0x14 4)) = true ∧
       ({ c with recent := [(9, 1)] }).recent.find? (fun (x : Nat × Nat) => decide (x.1 = leField d 0x14 4)) = some (9, 1) ∧
       (c.ring 0 0).acted = false ∧ ((c.setRing 0 0 { fetched := [some d], acted := true }).ring 0 0).acted = true ∧
       ∃ w ∈ ({ c with mirrorWait := [⟨1, 1, 0, 0, open9, [], 0⟩] }).mirrorWait, leField w.desc 0 1 = 1 ∧ leField w.desc 0x14 4 = 9) ∧
    (let c := headOf (oneHead []) 0 (block9 3)
     c.headOp 0 0 2 = some (block9 3) ∧ (c.ring 0 0).acted = false ∧ c.openLayer? (leField (block9 3) 0x14 4) = none) ∧
    (let c := blockChip 1 1 layer9
     c.headOp 0 0 2 = some (block9 1) ∧ (c.ring 0 0).acted = false ∧ c.openLayer? (leField (block9 1) 0x14 4) = some layer9 ∧
       leField (block9 1) 0x18 1 < 48 ∧ bit layer9.heads (leField (block9 1) 0x18 1) = true ∧
       SMap.get false (slabKey 47 15) layer9.delivered = false ∧ c.blockFault layer9 (block9 1) [] = some 0x101 ∧
       c.blockFault layer9 (block9 1) hdr9 = none ∧ c.owns = true) ∧
    (let c := blockChip 0 1 layer9
     c.blockFault layer9 (block9 1) hdr9 = none ∧ c.owns = false ∧ bit (leField (block9 1) 1 1) 1 = false ∧ bit (leField (block9 3) 1 1) 1 = true) ∧
    (let l := { layer9 with delivered := [(slabKey 47 15, true)] }
     let c := blockChip 1 1 l
     c.openLayer? (leField (block9 1) 0x14 4) = some l ∧ SMap.get false (slabKey 47 15) l.delivered = true ∧ l.mirrored = false ∧
       c.blockFault l (block9 1) hdr9 = none ∧ c.owns = true) ∧
    bit ({ layer9 with heads := 1 }).heads (leField (block9 1) 0x18 1) = false := by
  and_intros <;> decide +kernel

/-- Head 47 passes bring-up: thermal, with a drive set within its least period. -/
def ready47 (fs : List (Field × Nat)) : Chip :=
  (oneHead (fs ++ [(Reg.THL_LANE_STATUS_STATE 47, 3)] ++ (List.range 15).map fun k => (Reg.HED_DRIVESET_DATA 0 (2 * k + 1), 1))).setHeadX 47
    { record := leBytes 0x18 0 ++ leBytes 4 10 }

/-- An estimator whose window is one entry and whose fit is one count per 2^-16 ns. -/
def est1 : Estimator := { window := [(0, 0)], fitted := true, fitV := 1 }

/-- Layer 9 armed, with a valid estimator and head 47's run. -/
def firing (fs : List (Field × Nat)) (state : Nat) (x : HeadRun) : Chip :=
  { oneHead ((Reg.CRN_STATUS_STATE, state) :: (Reg.CRN_EST_CFG_WIN_LOG2, 0) :: fs) with
    layers := [layer9], est := est1, run := some { heads := [(47, x)] } }

/-- A shot of head 47. -/
def shot1 : Shot := { index := 4, line := 0, tag := 0, per := 0, codes := [], credits := [], sent := true }

theorem wit_LayersAreArmedAndFired :
    (let c := { ready47 [(Reg.TDM_STATUS_OWNS, 1)] with layers := [layer9] }
     c.pstate = 0 ∧ c.tdm.hold = false ∧ c.run = none ∧ c.layers = layer9 :: [] ∧ c.openPending 9 = false ∧ c.healEval = none ∧ 1 ≤ layer9.bands ∧
       (∃ h, h < 48 ∧ inMask layer9.heads h = true) ∧
       ∀ h, h < 48 → inMask layer9.heads h = true → c.laneState h = 3 ∧ c.driveSetOk h = true) ∧
    (State.reset.toChip.layers = [] ∧ State.reset.toChip.owns = false) ∧
    (let v : HealEval := ⟨0, 1, [], 0, 0, 0, 0, 0⟩
     let c := { ready47 [] with layers := [layer9], healEval := some v }
     c.run = none ∧ c.layers = layer9 :: [] ∧ c.openPending 9 = false ∧ c.healEval = some v ∧ v.accSet = c.accNext) ∧
    ({ ready47 [] with layers := [layer9], mirrorWait := [⟨1, 1, 0, 0, open9, [], 0⟩] }).openPending 9 = true ∧
    State.reset.toChip.mayIssue 47 = false ∧
    (let c := firing [] 2 { hi := 2047, next := 0, hwm := -1 }
     c.mayIssue 47 = true ∧ c.nextLine 47 < c.spanEnd 47 ∧ c.owns = false ∧ (c.predictAhead 47 (c.nextLine 47)).isSome = true) ∧
    (let c := firing [(Reg.TDM_STATUS_OWNS, 1)] 1 { hi := 0, next := 2047, hwm := -1 }
     c.mayIssue 47 = true ∧ c.nextLine 47 < c.spanEnd 47 ∧ c.owns = true ∧ c.tPrev 47 = none ∧
       (c.predictAhead 47 (c.nextLine 47)).isSome = true) ∧
    (let c := firing [] 2 { hi := 0, next := 2048, hwm := -1 }
     c.spanEnd 47 ≤ c.nextLine 47) ∧
    (let c := firing [(Reg.CRN_PITCH_COUNTS, 65536), (Reg.CRN_EST_CFG_HORIZON, 1)] 2 { hi := 2047, next := 3, hwm := -1 }
     c.est.ext.getD 0 * 65536 + (c.get Reg.CRN_EST_CFG_HORIZON : Int) * c.get Reg.CRN_PITCH_COUNTS < c.lineX 47 (c.nextLine 47)) ∧
    (let c := { firing [] 2 {} with est := { est1 with fitA := -1, fitC := -1 } }
     c.mayIssue 47 = true ∧ c.nextLine 47 < c.spanEnd 47 ∧ c.predictAhead 47 (c.nextLine 47) = none) := by
  and_intros <;> decide +kernel

/-- A shot that follows the one before within the least period. -/
theorem wit_early_shot :
    let c := firing [(Reg.TDM_STATUS_OWNS, 1), (Reg.CRN_PMIN_NS, 1)] 2 { hi := 0, next := 0, hwm := -1, shots := [shot1] }
    c.mayIssue 47 = true ∧ c.nextLine 47 < c.spanEnd 47 ∧ c.owns = true ∧ c.tPrev 47 = some 0 ∧
      ∃ p, c.predictAhead 47 (c.nextLine 47) = some p ∧ wrapDiff (BitVec.ofInt 64 p) 0 < 65536 * (c.get Reg.CRN_PMIN_NS : Int) := by
  intro c
  have e : est1.predict 0 = some (predictError 0 0) := by
    have q : ¬(est1.fitted = false ∨ est1.fitV ≤ 0 ∨ est1.fitV * est1.fitV + 2 * est1.fitA * (mkRat 0 65536 - est1.fitC) < 0) := by
      decide +kernel
    have r : (2 * (mkRat 0 65536 - est1.fitC) / (est1.fitV + ratSqrt (est1.fitV * est1.fitV + 2 * est1.fitA *
        (mkRat 0 65536 - est1.fitC)))).floor = 0 := by decide +kernel
    unfold Estimator.predict
    rw [if_neg q]
    dsimp only
    rw [r, show est1.fitT = 0 from rfl, show est1.draw = 0 from rfl, Int.zero_add, Int.zero_add]
  have x : c.lineX 47 (c.nextLine 47) = 0 := by decide +kernel
  have k : c.get Reg.CRN_PMIN_NS = 1 := by decide +kernel
  have h : -16383 ≤ predictError 0 0 ∧ predictError 0 0 ≤ 16383 := by unfold predictError; omega
  refine ⟨by decide +kernel, by decide +kernel, by decide +kernel, by decide +kernel, predictError 0 0, ?_, ?_⟩
  · unfold Chip.predictAhead Chip.predictLine
    rw [x, if_neg (by decide +kernel)]
    exact e
  · rw [k]
    have z : wrapDiff (BitVec.ofInt 64 (predictError 0 0)) 0 = (BitVec.ofInt 64 (predictError 0 0)).toInt := by
      rw [wrapDiff, show (BitVec.ofInt 64 (predictError 0 0) - 0) = BitVec.ofInt 64 (predictError 0 0) from by simp]
    rw [z, BitVec.toInt_ofInt, Int.bmod]
    omega

/-- A calve of head 47 whose report is awaited. -/
def await1 : Await := { k := 4, trigger := 0, due := 100, again := 20 }

theorem wit_CalvesAndReportsOfALayer :
    (let c := firing [(Reg.TDM_STATUS_OWNS, 1)] 2 { shots := [shot1] }
     7 < 8 ∧ c.owns = true ∧ c.inArmed 47 = true ∧ (c.headRun 47).isOut = false ∧ (c.headRun 47).await = none ∧
       c.firstCut 47 7 0 = some 4 ∧ c.get Reg.CRN_STATUS_STATE = 2) ∧
    (firing [(Reg.TDM_STATUS_OWNS, 1)] 2 {}).firstCut 47 7 0 = none ∧
    (let c := { firing [] 2 {} with est := { window := [(0, 0)] } }
     c.get Reg.CRN_STATUS_STATE = 2 ∧ c.estValid = false ∧ c.est.back = false ∧ c.est.window.length = c.window) ∧
    (let c := firing [] 2 {}
     c.get Reg.CRN_STATUS_STATE = 2 ∧ ¬(c.estValid = false)) ∧
    State.reset.toChip.get Reg.CRN_STATUS_STATE ≠ 2 ∧ State.reset.toChip.pstate ≠ 3 ∧ State.reset.toChip.run = none ∧
    (let c := firing [(Reg.TDM_STATUS_OWNS, 1)] 2 {}
     (1#32).getLsbD 0 = true ∧ c.run.isSome = true ∧ c.owns = true) ∧
    State.reset.toChip.awaitOf 47 = none ∧ State.reset.toChip.owns = false ∧
    (let c := firing [(Reg.TDM_STATUS_OWNS, 1)] 2 { await := some await1 }
     c.owns = true ∧ c.inArmed 47 = true ∧ (c.headRun 47).await = some await1 ∧ await1.again < c.reportDue 47 await1) ∧
    (let c := (regsOf [(Reg.TDM_STATUS_OWNS, 1)]).setHeadX 47 { await := some await1 }
     c.owns = true ∧ c.inArmed 47 = false ∧ (c.head 47).await = some await1) ∧
    (∃ r, (firing [] 2 {}).run = some r ∧ r.aborted = false) ∧
    (let c := firing [(Reg.HED_GATE_STATUS_PERMIT, 1)] 3 {}
     c.get Reg.CRN_STATUS_STATE = 3 ∧ (∃ r, c.run = some r ∧ r.aborted = false) ∧
       (∀ h, h < 48 → c.inArmed h = true → (c.headRun h).await = none) ∧ c.tdm.takes = [] ∧ c.flag Reg.HED_GATE_STATUS_PERMIT = true ∧
       c.estValid = true) ∧
    ¬(State.reset.toChip.get Reg.CRN_STATUS_STATE = 3) :=
  ⟨by decide +kernel, by decide +kernel, by decide +kernel, by decide +kernel, by decide +kernel, by decide +kernel, by decide +kernel,
    by decide +kernel, by decide +kernel, by decide +kernel, by decide +kernel, by decide +kernel, ⟨_, rfl, rfl⟩,
    ⟨by decide +kernel, ⟨_, rfl, rfl⟩, by decide +kernel, rfl, by decide +kernel, by decide +kernel⟩, by decide +kernel⟩

/-- A telemetry packet that acknowledges packet 7. -/
def tlm1 : TlmPacket := ⟨true, 0, false, false, false, false, 7, 0, 0, 0, 0, 0, none⟩

theorem wit_TelemetryAcknowledgesPackets :
    ({ tlm1 with crcOk := false }).crcOk = false ∧ tlm1.crcOk = true ∧ State.reset.toChip.laneUp 47 = false ∧
    ¬(0 < wrapDiff tlm1.lseq (BitVec.ofNat 16 0)) ∧
    (let c := lane47 [] 3 { lastTlm := some 65535 }
     c.laneUp 47 = true ∧ (c.lane 47).lastTlm = some 65535 ∧ 0 < wrapDiff tlm1.lseq (BitVec.ofNat 16 65535) ∧ c.tdm.takes = [] ∧
       c.owns = false ∧ c.inArmed 47 = false ∧ tlm1.fault = 0 ∧ tlm1.full = none ∧ tlm1.nak = false ∧ tlm1.late = false) := by
  decide +kernel

/-- A decompression job of layer 9, stored, with one byte of payload. -/
def job9 : Job :=
  { kind := 1, layer := 9, head := 47, slab := 15, hdr := blockHeader true 1 47 9 15 1 1 (crc32 [0]), payload := [0], area := 1024,
    bandNo := 0, item := 0 }

/-- Engine 7 runs that job, and holds or not. -/
def busy7 (restarted : Bool) (held : Nat) : Chip :=
  { regsOf [(Reg.CHN_STATUS_BUSY, 128), (Reg.CHN_STATUS_HELD, held)] with engines := [(7, ⟨job9, restarted, none⟩)], layers := [layer9] }

theorem wit_JobsAreTakenAndHeld :
    State.reset.toChip.nextJob = none ∧ (regsOf [(Reg.CHN_STATUS_BUSY, 255)]).freeEngine = none ∧
    (let c := { regsOf [] with jobs := [job9] }
     c.freeEngine = some 0 ∧ c.nextJob = some job9 ∧ job9.ofBlock = true ∧ c.jobPassed job9 = true) ∧
    (let c := { regsOf [(Reg.DRC_BAND_CFG_NB, 2)] with jobs := [job9], layers := [layer9] }
     c.freeEngine = some 0 ∧ c.nextJob = some job9 ∧ ¬(job9.ofBlock = true ∧ c.jobPassed job9 = true) ∧ job9.kind < 4) ∧
    State.reset.toChip.bitOf Reg.CHN_STATUS_HELD 7 = false ∧ (busy7 false 128).bitOf Reg.CHN_STATUS_HELD 7 = true := by
  and_intros <;> decide +kernel

theorem wit_JobsEndWithTheirOutcome :
    ((busy7 false 0).engineJob 7 = some ⟨job9, false, none⟩ ∧ (busy7 false 0).bitOf Reg.CHN_STATUS_HELD 7 = false ∧ job9.firn = none ∧
      job9.stale = false ∧ jobResult job9 true = .fail 7 0 ∧ jobResult job9 false = .ok [0] ∧ (busy7 false 0).layer? 9 = some layer9 ∧
      jobResult { job9 with stale := true } false = .ok [0]) ∧
    (busy7 true 0).engineJob 7 = some ⟨job9, true, none⟩ ∧ job9.firn = none ∧
    jobResult { job9 with poisoned := true } true = .fail 7 0 ∧
    ([⟨.unnamed, 0⟩].any fun (r : RawRead) => !DramKind.correctable r.kind) = true ∧
    (let j := { job9 with firn := some 3 }
     let c := { busy7 false 0 with engines := [(7, ⟨j, true, none⟩)] }
     c.engineJob 7 = some ⟨j, true, none⟩ ∧ j.kind = 1 ∧ j.firn = some 3 ∧ c.bitOf Reg.CHN_STATUS_HELD 7 = false) ∧
    ({ job9 with kind := 3 }).kind ≠ 1 := by
  and_intros <;> decide +kernel

/-! ### Witnesses: cameras and healing -/

/-- Port 3 receives, and context 7 is bound to its virtual channel 15 with data type 0x2E. -/
def camOn (fs : List (Field × Nat)) : Chip :=
  regsOf ([(Reg.DRC_STATUS_INIT_DONE, 1), (Reg.CAM_PORT_CFG_ENABLE 3, 1), (Reg.CAM_CTX_BIND_PORT 7, 3), (Reg.CAM_CTX_BIND_VC 7, 15),
    (Reg.CAM_CTX_BIND_DT 7, 0x2E), (Reg.CAM_CTX_BIND_ENABLE 7, 1)] ++ fs)

/-- A frame of context 7. -/
def frame7 : Frame := { ctx := 7, num := 65535, fsEt := 0, params := [], trigSeq := 0, trigEt := 0, queued := 262143 }

theorem wit_FramesAreReceived :
    State.reset.toChip.portOn 3 = false ∧
    (let c := camOn []
     c.portOn 3 = true ∧ c.ctxOf 3 (0 : BitVec 4).toNat = none ∧ c.ctxOf 3 (15 : BitVec 4).toNat = some 7 ∧ c.openFrame 7 = none ∧
       c.ctxOf (CamShort.mk 3 15 9).port.val (CamShort.mk 3 15 9).vc.toNat = some 7) ∧
    (let c := { camOn [] with frames := [frame7] }
     c.portOn 3 = true ∧ c.openFrame 7 = some frame7 ∧ frame7.lost = false ∧ ({ frame7 with current := true }).current = true ∧ c.get (Reg.CAM_CTX_BIND_DT 7) = (0x2E : BitVec 6).toNat ∧
       c.fifoBytes 3 + [(0 : Byte)].length ≤ 262144) ∧
    (let f := { frame7 with lost := true }
     ({ camOn [] with frames := [f] }).openFrame 7 = some f ∧ f.lost = true) ∧
    ((0x29 : BitVec 6).toNat < 0x2A ∧ 0x2E < (0x2F : BitVec 6).toNat ∧ 0x2A ≤ (0x2A : BitVec 6).toNat ∧ (0x2E : BitVec 6).toNat ≤ 0x2E) ∧
    (camOn []).get (Reg.CAM_CTX_BIND_DT 7) ≠ (0x2A : BitVec 6).toNat ∧ frame7.ctx < 8 ∧ ({ camOn [] with frames := [frame7] }).frames[0]? = some frame7 := by
  and_intros <;> decide +kernel

theorem wit_ParameterSetsAndMaps :
    State.reset.toChip.pstate ≠ 3 ∧ ((0x1FFFF#32).getLsbD 16 = true ∧ (0x1FFFF#32).getLsbD 17 = false) ∧
    ((0x20000#32).getLsbD 16 = false ∧ (0x20000#32).getLsbD 17 = true) ∧ (0xFC#8).toNat % 4 = 0 ∧
    (regsOf [(Reg.CAM_CTX_STATUS_ARMED 7, 1)]).flag (Reg.CAM_CTX_STATUS_ARMED 7) = true ∧
    State.reset.toChip.flag (Reg.CAM_CTX_STATUS_ARMED 7) = false ∧ (∃ f ∈ fieldsAt (0xA1100 + 0x400 * 7), f.lo < 32) ∧
    (let d := desc 0x13 1 [(0x10, 4, 8), (0x14, 4, 16383), (0x18, 4, 2)]
     let c := headOf (oneHead []) 1 d
     c.headOp 0 0 0x13 = some d ∧ (c.ring 0 0).acted = false ∧ (c.ring 0 0).load = none ∧ ¬(leField d 0x14 4 + leField d 0x18 4 ≤ 16384)) ∧
    (let d := desc 0x13 1 [(0x10, 4, 4), (0x14, 4, 16383), (0x18, 4, 1), (0x1C, 1, 4)]
     let c := headOf (oneHead []) 1 d
     c.headOp 0 0 0x13 = some d ∧ leField d 0x10 4 = 4 * leField d 0x18 4 ∧ 1 ≤ leField d 0x18 4 ∧
       leField d 0x14 4 + leField d 0x18 4 ≤ 16384 ∧ 3 < leField d 0x1C 1) ∧
    (let d := desc 0x13 1 [(0x10, 4, 4), (0x14, 4, 16383), (0x18, 4, 1), (0x1C, 1, 3)]
     let c := headOf (oneHead []) 1 d
     let w := 0x80000000 + 47 * 2 ^ 25 + 31 * 2 ^ 12
     c.headOp 0 0 0x13 = some d ∧ leField d 0x1C 1 ≤ 3 ∧ c.sendsLog = false ∧ c.tracked = false ∧ ({ c with tracked := true }).tracked = true ∧
       (bits w 25 6 < 48 ∧ bits w 12 13 < c.get (Reg.HED_HEAD_CFG_NOZZLES (bits w 25 6))) ∧
       ¬(bit (w + 2 ^ 12) 31 = false ∨ bits (w + 2 ^ 12) 12 13 < c.get (Reg.HED_HEAD_CFG_NOZZLES (bits (w + 2 ^ 12) 25 6)))) ∧
    (camOn []).flag (Reg.CAM_CTX_BIND_ENABLE (2 * (3 : Fin 4).val + 1)) = true ∧
    ¬(State.reset.toChip.flag (Reg.CAM_CTX_BIND_ENABLE (2 * (3 : Fin 4).val)) = true ∨
      State.reset.toChip.flag (Reg.CAM_CTX_BIND_ENABLE (2 * (3 : Fin 4).val + 1)) = true) := by
  and_intros <;> decide +kernel

theorem wit_TriggersDriveTheirWindow :
    State.reset.toChip.pstate ≠ 3 ∧ ((1#32).getLsbD 0 = true ∧ (1#32).getLsbD 1 = false) ∧
    State.reset.toChip.get (Reg.CAM_CTX_TRIG_MODE 7) = 0 ∧
    (let c := regsOf [(Reg.CAM_CTX_TRIG_MODE 7, 1), (Reg.CAM_CTX_TRIG_T0_LO_T0 7, 1)]
     c.get (Reg.CAM_CTX_TRIG_MODE 7) ≠ 0 ∧ 0 < wrapDiff (BitVec.ofNat 64 (c.get64 (Reg.CAM_CTX_TRIG_T0_LO_T0 7) (Reg.CAM_CTX_TRIG_T0_HI_T0 7))) c.now) ∧
    (regsOf [(Reg.CAM_CTX_TRIG_MODE 7, 3)]).get (Reg.CAM_CTX_TRIG_MODE 7) ≠ 0 ∧ (State.reset.toChip.cam 7).windowEnd = none ∧
    ((2#32).getLsbD 0 = false ∧ (2#32).getLsbD 1 = true) ∧
    (let c := ((regsOf [(Reg.CAM_CTX_TRIG_CTL_COUNT 7, 1)]).setCam 7 { windowEnd := some 5, posDue := [(0, 3)] })
     (c.cam 7).windowEnd = some 5 ∧ 0 < wrapDiff (5 : ET) 4 ∧ ¬(0 < wrapDiff (5 : ET) 5) ∧ (c.cam 7).posDue = (0, 3) :: [] ∧ c.get (Reg.CAM_CTX_TRIG_CTL_COUNT 7) ≠ 0 ∧
       c.get (Reg.CAM_CTX_TRIG_CTL_COUNT 7) ≤ (c.cam 7).k + 1 ∧ c.sched.find? (fun (a : Sched) => decide (a.kind = SchedKind.camTrigger 7)) = none) ∧
    ((State.reset.toChip.cam 7).posDue = [] ∧ State.reset.toChip.sched.find? (fun (a : Sched) => decide (a.kind = SchedKind.camTrigger 7)) = none) ∧
    ({ State.reset.toChip with sched := [⟨9, .camTrigger 7, false⟩] }).sched.find? (fun (a : Sched) => decide (a.kind = SchedKind.camTrigger 7)) =
      some ⟨9, .camTrigger 7, false⟩ := by
  and_intros <;> decide +kernel

/-- A piece of one byte of item 5, and the item with one or two pieces. -/
def piece5 : Job := { job9 with kind := 3, item := 5, slab := 0, payload := [0] }
def item5 (pieces : Nat) : OutItem :=
  { number := 5, firn := false, pieces := pieces,
    insp := { port := 0, ring := 0, kind := 1, source := 0, frame := 0, paramset := 0, iflags := 0, body := [] } }
def compressing (pieces : Nat) : Chip :=
  { regsOf [(Reg.CHN_STATUS_BUSY, 128)] with engines := [(7, ⟨piece5, false, none⟩)], outItems := [item5 pieces] }

/-- A window of heal, and an evaluation. -/
def window9 : HealWindow :=
  { layer := 9, bands := 2, heads := 2 ^ 47, outHeads := [], aborted := false, truncated := false, modeOff := false, frozen := false,
    spoilt := [], accSet := 0, tDone := 0, tMax := 7, records := 1 }
def eval9 : HealEval := ⟨0, 9, [], 0, 0, 0, 0, 0⟩

theorem wit_ItemsAndWindowsEnd :
    State.reset.toChip.engineJob 7 = none ∧ ((busy7 false 0).engineJob 7 = some ⟨job9, false, none⟩ ∧ job9.kind = 1) ∧
    (let c := compressing 2
     let r := pieceBlock 1 5 0 [0]
     c.engineJob 7 = some ⟨piece5, false, none⟩ ∧ c.bitOf Reg.CHN_STATUS_HELD 7 = false ∧ piece5.kind ≠ 1 ∧
       c.outItems.find? (fun (q : OutItem) => decide (q.number = piece5.item)) = some (item5 2) ∧
       ((item5 2).addPiece 0 r.1 r.2).blocks.length ≠ ((item5 2).addPiece 0 r.1 r.2).pieces ∧
       ((item5 1).addPiece 0 r.1 r.2).blocks.length = ((item5 1).addPiece 0 r.1 r.2).pieces ∧ (item5 1).firn = false) ∧
    (State.reset.toChip.healWin = none ∧ State.reset.toChip.healEval = none) ∧
    (let c := { regsOf [(Reg.HEL_STATUS_STATE, 2)] with healWin := some window9, healEval := some eval9 }
     c.healWin = some window9 ∧ c.healEval = some eval9 ∧ c.get Reg.HEL_STATUS_STATE = 2) ∧
    State.reset.toChip.pstate ≠ 3 ∧ window9.skipCause false = 0 ∧ ({ window9 with records := 0 }).skipCause false ≠ 0 ∧
    ({ window9 with frozen := true, records := 0 }).skipCause false = 5 ∧
    (regsOf [(Reg.HEL_CTRL_MODE, 2)]).get Reg.HEL_CTRL_MODE ≠ 0 := by
  and_intros <;> decide +kernel

/-! ### Witnesses: motion, loops and I/O -/

/-- A motion command for axis 7, and a loop command for slot 63. -/
def mot7 (op flags : Nat) : List Byte := desc op 1 [(8, 1, 7), (9, 1, flags)]
def loop63 (op flags v0 v1 : Nat) : List Byte := desc op 1 [(8, 1, 63), (9, 1, flags), (0xC, 4, v0), (0x10, 4, v1)]

/-- Axis 7 with its step output in use, on the owner. -/
def axis7 (fs : List (Field × Nat)) (x : Axis) : Chip :=
  { regsOf ([(Reg.TDM_STATUS_OWNS, 1), (Reg.MOT_AX_CFG_OUT 7, 1)] ++ fs) with axes := [(7, x)] }

/-- The operands of a motion command for axis 7. -/
def cmd7 : MotCmd := motCmd (desc 0x20 1 [(8, 1, 7), (0xC, 4, 1), (0x10, 4, 1), (0x14, 4, 3)])

theorem wit_MotionCommandsAreCheckedThenAct :
    (0x2A, Instr.setPos .a 0) ∈ [(0x20, Instr.moveAbs .a 0), (0x21, .moveRel .a 0), (0x22, .setLimits .a 0), (0x23, .velocity .a 0),
      (0x24, .queueMove .a 0), (0x25, .stop .a 0), (0x26, .gear .a 0), (0x27, .gearChange .a 0), (0x28, .home .a 0), (0x29, .setMode .a 0),
      (0x2A, .setPos .a 0)] ∧
    (let d := desc 0x2A 1 [(8, 1, 8)]
     let c := headOf (regsOf []) 3 d
     c.headOp 0 0 0x2A = some d ∧ (c.ring 0 0).acted = false ∧ ¬(leField d 8 1 < 8)) ∧
    (let d := mot7 0x2A 1
     let c := headOf (regsOf []) 3 d
     c.headOp 0 0 0x2A = some d ∧ (leField d 8 1 < 8 ∧ leField d 9 1 < 4 ∧ leField d 0xA 2 = 0 ∧ leField d 0x28 8 = 0) ∧
       (motCmd d).at' = true ∧ (∀ a ∈ c.sched, a.kind ≠ .motionCmd 0 0) ∧ (c.ring 0 0).atDue = none) ∧
    (let d := mot7 0x2A 0
     let c := headOf (axis7 [] {}) 3 d
     c.headOp 0 0 0x2A = some d ∧ leField d 8 1 < 8 ∧ (motCmd d).at' = false) ∧
    (let d := mot7 0x2A 0
     let c := headOf (axis7 [] {}) 3 d
     c.headOp 0 0 (leField d 0 1) = some d ∧ (c.ring 0 0).acted = false ∧ c.motRefusal (leField d 0 1) (motCmd d) = none) ∧
    (let d := mot7 0x2A 0
     let c := headOf (regsOf []) 3 d
     c.headOp 0 0 (leField d 0 1) = some d ∧ (c.ring 0 0).acted = false ∧ c.motRefusal (leField d 0 1) (motCmd d) = some 7 ∧ c.owns = false) ∧
    (let d := mot7 0x20 0
     let c := headOf (axis7 [(Reg.MOT_AX_STATUS_MODE 7, 1)] { vel := 1 }) 3 d
     c.headOp 0 0 (leField d 0 1) = some d ∧ (c.ring 0 0).acted = false ∧ c.motRefusal (leField d 0 1) (motCmd d) = some 3) ∧
    ((1 : Nat) < 2 ∧ (63 : Nat) < 64) ∧
    (let c := ({ regsOf [] with sched := [⟨0, .motionCmd 1 63, false⟩] }).setRing 0 0 { atDue := some 3 }
     (0, 0) ∈ c.dueRings ∧ (1, 63) ∈ c.dueRings ∧ c.nextDue = 4) ∧
    (let c := regsOf [(Reg.TDM_STATUS_OWNS, 1)]
     c.owns = true ∧ c.get (Reg.MOT_AX_CFG_OUT 7) = 0) ∧
    (let c := axis7 [(Reg.MOT_AX_STATUS_FAULT 7, 1)] {}
     c.owns = true ∧ c.get (Reg.MOT_AX_CFG_OUT 7) ≠ 0 ∧ c.inFault 7 = true ∧ 0x20 ≠ 0x25 ∧ 0x20 ≠ 0x22) ∧
    (let c := axis7 [(Reg.MOT_AX_STATUS_MODE 7, 5)] {}
     c.inFault 7 = false ∧ c.axMode 7 ∉ opModes 0x2A) ∧
    (let c := axis7 [(Reg.MOT_AX_STATUS_MODE 7, 1)] { vel := -1 }
     c.inFault 7 = false ∧ c.axMode 7 ∈ opModes 0x20 ∧ opAtRest 0x20 = true ∧ c.atRest 7 = false) ∧
    (let c := axis7 [(Reg.MOT_AX_STATUS_MODE 7, 1), (Reg.MOT_ENC_CFG_MODE 3, 1)] {}
     c.owns = true ∧ c.get (Reg.MOT_AX_CFG_OUT 7) ≠ 0 ∧ c.inFault 7 = false ∧ c.axMode 7 ∈ opModes 0x26 ∧ c.atRest 7 = true ∧
       c.bound 7 = false ∧ cmd7.axis = 7 ∧ cmd7.b ≠ 0 ∧ cmd7.c ≤ 3 ∧ c.get (Reg.MOT_ENC_CFG_MODE cmd7.c) ≠ 0 ∧
       (c.axis 7).queue.length < 16 ∧ (c.axis 7).changes.length < 4 ∧ c.flag (Reg.MOT_AX_STATUS_LIMP 7) = false ∧
       c.flag (Reg.MOT_AX_STATUS_LIMN 7) = false ∧ (c.axis 7).homeAct = false) := by
  and_intros <;> decide +kernel

theorem wit_MotionCommandsActOnTheirAxis :
    (let x := (axis7 [] {}).axis 7
     cmd7.axis < 8 ∧ x.near cmd7.a ≠ x.pos ∧ cmd7.a ≠ 0 ∧ x.near cmd7.a ≠ x.queueEnd ∧ x.changes = [] ∧ x.reached = 0 ∧ x.near 0 = x.pos ∧
       x.near 0 = x.queueEnd) ∧
    (motCmd (mot7 0x20 0)).a = 0 ∧ 6 ≠ 7 ∧ 7 < 8 ∧ (regsOf [(Reg.MOT_AX_STATUS_MODE 7, 5)]).axMode 7 = 5 ∧
    (let f := Reg.MOT_AX_VMAX_VALUE 6
     f.lo < 32 ∧ 0x22000 ≤ f.off ∧ f.off ≠ Reg.MOT_STATUS_MOVING.off ∧ f.off < 0xC1000 + 0x100 * 7) ∧
    (let c := axis7 [] {}
     unsigned 32 0 = c.get (Reg.MOT_ENC_COUNT_COUNT (c.axis 7).enc) ∧ unsigned 32 1 ≠ c.get (Reg.MOT_ENC_COUNT_COUNT (c.axis 7).enc)) := by
  and_intros <;> decide +kernel

theorem wit_FaultsStopTheirAxis :
    7 < 8 ∧ (let c := axis7 [(Reg.MOT_AX_LIMCFG_LIMP_EN 7, 1), (Reg.MOT_AX_STATUS_LIMP 7, 1), (Reg.MOT_AX_LIMCFG_LIMP_POL 7, 1)] { vel := 1 }
      c.flag (Reg.MOT_AX_LIMCFG_LIMP_EN 7) = true ∧ c.flag (Reg.MOT_AX_STATUS_LIMP 7) = true ∧ c.deaf 7 false false = false ∧
        (true == c.flag (Reg.MOT_AX_LIMCFG_LIMP_POL 7)) = true ∧ c.axMode 7 ≠ 5 ∧ c.inFault 7 = false ∧ 0 < (c.axis 7).vel) ∧
    (let c := axis7 [(Reg.MOT_AX_STATUS_FAULT 7, 1), (Reg.MOT_AX_STATUS_FAULT_CAUSE 7, 3)] { vel := 1 }
     c.faultedBy 7 3 = true ∧ c.axMode 7 ≠ 5 ∧ 0 < (c.axis 7).vel) ∧
    (State.reset.toChip.estopDue = false ∧ ({ State.reset.toChip with estopDue := true } : Chip).estopDue = true) ∧
    (State.reset.toChip.pstate ≠ 3 ∧ ((1#32).getLsbD 0 = true ∧ (1#32).getLsbD 1 = false) ∧ ((2#32).getLsbD 0 = false ∧ (2#32).getLsbD 1 = true)) ∧
    (let c := axis7 [(Reg.MOT_AX_STATUS_FAULT 7, 1), (Reg.MOT_AX_STATUS_FAULT_CAUSE 7, 7)] {}
     c.inFault 7 = true ∧ c.atRest 7 = true ∧ ¬(c.get (Reg.MOT_AX_STATUS_FAULT_CAUSE 7) = 7 ∧ c.flag Reg.MOT_STATUS_ESTOP = true)) ∧
    ¬(State.reset.toChip.inFault 7 = true) := by
  and_intros <;> decide +kernel

/-- A relation that holds of every two neighbours of a list holds of its entries by index. -/
theorem steps_of_all (r : Nat → Nat → Bool) (l : List Nat) (h : (l.zip l.tail).all (fun p => r p.1 p.2) = true) (i : Nat)
    (hi : i + 1 < l.length) : r (l.getD i 0) (l.getD (i + 1) 0) = true := by
  have m := List.all_eq_true.1 h ((l.zip l.tail)[i]'(by simp; omega)) (List.getElem_mem _)
  rw [List.getD_eq_getElem _ _ hi, List.getD_eq_getElem _ _ (Nat.lt_of_succ_lt hi)]
  simpa using m

theorem wit_fine_microstep_tables :
    let t := State.reset.toChip.shadowTable 7
    (∀ i, i < 255 → t.getD (i + 1) 0 ≤ t.getD i 0) ∧ ∀ i, i < 255 → t.getD (256 + i) 0 ≤ t.getD (256 + i + 1) 0 := by
  intro t
  have a : ((t.take 256).zip (t.take 256).tail).all (fun p => decide (p.2 ≤ p.1)) = true := by decide +kernel
  have b : ((t.drop 256).zip (t.drop 256).tail).all (fun p => decide (p.1 ≤ p.2)) = true := by decide +kernel
  have n : t.length = 512 := by decide +kernel
  refine ⟨fun i hi => ?_, fun i hi => ?_⟩
  · have := steps_of_all (fun x y => decide (y ≤ x)) _ a i (by simp [n]; omega)
    simpa [List.getD_eq_getElem?_getD, List.getElem?_take, show i < 256 by omega, show i + 1 < 256 by omega] using this
  · have := steps_of_all (fun x y => decide (x ≤ y)) _ b i (by simp [n]; omega)
    simpa [List.getD_eq_getElem?_getD, List.getElem?_drop, Nat.add_assoc] using this

/-- A DRV line that has sent nothing. -/
def drv0 : DrvLine := {}

theorem wit_CountsTicksAndSteps :
    State.reset.toChip.pstate ≠ 3 ∧
    (let c := regsOf [(Reg.CRN_TRAV_CFG_ENC, 3), (Reg.CRN_STATUS_STATE, 2)]
     c.get Reg.CRN_TRAV_CFG_ENC = (3 : Fin 4).val ∧ c.get Reg.CRN_STATUS_STATE ≠ 0) ∧
    (let c := regsOf [(Reg.CRN_TRAV_CFG_ENC, 3)]
     c.get Reg.CRN_TRAV_CFG_ENC = (3 : Fin 4).val ∧ c.get Reg.CRN_STATUS_STATE = 0) ∧
    (regsOf [(Reg.CRN_TRAV_CFG_ENC, 3)]).get Reg.CRN_TRAV_CFG_ENC ≠ (2 : Fin 4).val ∧
    (3 < 4 ∧ (State.reset.toChip.enc 3).write = none ∧
      ((State.reset.toChip.setEnc 3 { State.reset.toChip.enc 3 with write := some 7 }).enc 3).write = some 7) ∧
    ((2#32).getLsbD 0 = false ∧ (2#32).getLsbD 1 = true) ∧
    (let t := (regsOf [(Reg.MOT_USTEP_LOW 7 0, 0), (Reg.MOT_USTEP_HIGH 7 0, 1)]).shadowTable 7
     ¬(t.getD 1 0 ≤ t.getD 0 0)) ∧
    255 < 256 ∧
    (let c := axis7 [(Reg.MOT_STATUS_OUTPUT_EN, 1), (Reg.MOT_AX_STATUS_MODE 7, 1)] { stepDue := some 5 }
     (c.axis 7).stepDue = some 5 ∧ c.get (Reg.MOT_AX_CFG_OUT 7) = 1 ∧ c.flag Reg.MOT_STATUS_OUTPUT_EN = true ∧ c.axMode 7 ≠ 0 ∧
       c.get Reg.CKP_STATUS_PSTATE ≤ 2) ∧ 2 < (regsOf [(Reg.CKP_STATUS_PSTATE, 3)]).get Reg.CKP_STATUS_PSTATE ∧
    (let c := axis7 [(Reg.MOT_AX_STATUS_MODE 7, 1), (Reg.MOT_STATUS_OUTPUT_EN, 1)] { pos := 4294967296 }
     (c.axis 7).vel = 0 ∧ 0 < stepOf (c.axis 7).pos - (c.axis 7).out ∧ ((c.loadTimer 7).axis 7).stepDue ≠ none) ∧
    (let c := axis7 [(Reg.MOT_AX_STATUS_MODE 7, 1)] { pos := -4294967296 }
     (c.axis 7).vel = 0 ∧ (c.axis 7).pos ≤ ((c.axis 7).out - 1) * 4294967296) ∧
    SMap.get ({} : DrvLine) 3 State.reset.toChip.drv = {} ∧
    ((axis7 [] {}).axis 7).stepDue = none ∧ (axis7 [] {}).axMode 7 = 0 ∧ (axis7 [] {}).flag Reg.MOT_STATUS_OUTPUT_EN = false ∧
    ((SMap.get drv0 3 State.reset.toChip.drv).due = none ∧
      (let c := { regsOf [] with drv := [(3, { due := some 9 })] }
       (SMap.get drv0 3 c.drv).due = some 9 ∧ 0 ≤ wrapDiff 9 c.now)) ∧
    (axis7 [] { vel := 1 }).atRest 7 = false ∧ ((axis7 [] {}).atRest 7 = true ∧ ((axis7 [] {}).axis 7).hold = false) ∧
    ((axis7 [] { hold := true }).axis 7).hold = true ∧ ¬(State.reset.toChip.flag (Reg.MOT_DRV_CFG_ENABLE 3) = true) ∧
    (let c := { regsOf [(Reg.MOT_DRV_CFG_ENABLE 3, 1), (Reg.MOT_STATUS_OUTPUT_EN, 1)] with drv := [(3, { frames := 2, seq := 0 })] }
     let di := [0x5A#8, 0] ++ beBytes2 (crc16 [0x5A#8, 0])
     c.flag (Reg.MOT_DRV_CFG_ENABLE 3) = true ∧ c.flag Reg.MOT_STATUS_OUTPUT_EN = true ∧ 2 ≤ (SMap.get drv0 3 c.drv).frames ∧
       drvGood (SMap.get drv0 3 c.drv) di = true ∧ drvGood (SMap.get drv0 3 c.drv) [] = false ∧
       max 1 ((regsOf [(Reg.MOT_DRV_CFG_ERR_N 3, 1)]).get (Reg.MOT_DRV_CFG_ERR_N 3)) ≤ c.get (Reg.MOT_DRV_STATUS_RUN 3) + 1 ∧
       c.get (Reg.MOT_DRV_STATUS_RUN 3) = 0) ∧
    (SMap.get drv0 3 State.reset.toChip.drv).frames < 2 := by
  and_intros <;> decide +kernel

/-- Slot 63 configured, on the owner of a committed controller. -/
def slot63 (fs : List (Field × Nat)) : Chip :=
  regsOf ([(Reg.TDM_STATUS_OWNS, 1), (Reg.CFG_STATUS_COMMITTED, 1), (Reg.LOP_LS_SCHED_DIV 63, 1)] ++ fs)

theorem wit_LoopCommandsAreCheckedThenAct :
    (0x47, Instr.setInteg .a 0) ∈ [(0x40, Instr.loopEnable .a 0), (0x41, .loopDisable .a 0), (0x42, .setPoint .a 0), (0x43, .setCoef .a 0),
      (0x44, .loopSetLimits .a 0), (0x45, .setManual .a 0), (0x46, .setAuto .a 0), (0x47, .setInteg .a 0)] ∧
    (let d := desc 0x47 1 [(8, 1, 64)]
     let c := headOf (regsOf []) 4 d
     c.headOp 0 0 0x47 = some d ∧ (c.ring 0 0).acted = false ∧ ¬(leField d 8 1 < 64)) ∧
    (let d := loop63 0x47 1 0 0
     let c := headOf (slot63 []) 4 d
     c.headOp 0 0 0x47 = some d ∧ (leField d 8 1 < 64 ∧ leField d 9 1 < 2 ∧ leField d 0xA 2 = 0 ∧ leField d 0x24 4 = 0) ∧
       bit (leField d 9 1) 0 = true ∧ ∀ a ∈ c.sched, a.kind ≠ .loopCmd 0 0) ∧
    (let d := loop63 0x47 0 0 0
     let c := headOf (slot63 []) 4 d
     c.headOp 0 0 0x47 = some d ∧ bit (leField d 9 1) 0 = false ∧ c.loopRefusal d = none ∧ c.slotOn 63 = false ∧ c.owns = true ∧
       c.slotConfigured 63 = true) ∧
    ((slot63 [(Reg.LOP_LS_STATUS_ENABLED 63, 1)]).slotOn 63 = true ∧ (slot63 [(Reg.LOP_LS_STATUS_ENABLED 63, 1)]).loopRefusal (loop63 0x47 0 0 0) = none) ∧
    (State.reset.toChip.loopRefusal (loop63 0x47 0 0 0) = some 2 ∧ State.reset.toChip.owns = false) ∧
    (let c := regsOf [(Reg.TDM_STATUS_OWNS, 1)]
     c.owns = true ∧ c.slotConfigured 63 = false) ∧
    ((slot63 [(Reg.LOP_LS_GRP_GRP_EN 63, 1)]).slotConfigured 63 = true ∧ leField (loop63 0x46 0 0 0) 0 1 = 0x46 ∧
      (slot63 [(Reg.LOP_LS_GRP_GRP_EN 63, 1)]).grouped 63 = true) ∧
    (leField (loop63 0x44 0 1 0) 0 1 = 0x44 ∧ loopV (loop63 0x44 0 1 0) 1 < loopV (loop63 0x44 0 1 0) 0) ∧
    (leField (loop63 0x42 0 0 0xFFFFFFFF) 0 1 = 0x42 ∧ loopV (loop63 0x42 0 0 0xFFFFFFFF) 1 < 0) ∧
    (let d := loop63 0x44 0 5 5
     leField d 0 1 = 0x44 ∧ loopV d 0 ≤ loopV d 1 ∧ 0 ≤ loopV d 2 ∧ (slot63 []).grouped 63 = false ∧ leField d 0x20 4 < 2 ^ 25) ∧
    (let d := desc 0x43 1 [(8, 1, 63), (0x20, 4, 2 ^ 25 - 1)]
     leField d 0 1 = 0x43 ∧ leField d 0x20 4 < 2 ^ 25) ∧
    ((slot63 [(Reg.LOP_LS_STATUS_ENABLED 63, 1), (Reg.LOP_LS_DEST_KIND 63, 3)]).slotOn 63 = true ∧
      (slot63 [(Reg.LOP_LS_DEST_KIND 63, 3)]).get (Reg.LOP_LS_DEST_KIND 63) = 3 ∧ leField (loop63 0x41 0 0 0) 0 1 = 0x41 ∧
      leField (loop63 0x40 0 0 0) 0 1 = 0x40 ∧ leField (loop63 0x45 0 0 0) 0 1 = 0x45) := by
  and_intros <;> decide +kernel

theorem wit_EvaluationsStayWithinTheirLimits :
    (State.reset.toChip.getI (Reg.LOP_LS_SLEW_VALUE 63) = 0 ∧
      State.reset.toChip.getI (Reg.LOP_LS_OUTMIN_VALUE 63) ≤ State.reset.toChip.getI (Reg.LOP_LS_OUTMAX_VALUE 63)) ∧
    (let c := regsOf [(Reg.LOP_LS_SLEW_VALUE 63, 1)]
     0 < c.getI (Reg.LOP_LS_SLEW_VALUE 63) ∧ c.getI (Reg.LOP_LS_OUTMIN_VALUE 63) ≤ 0 ∧ 0 ≤ c.getI (Reg.LOP_LS_OUTMAX_VALUE 63)) ∧
    63 < 64 ∧ State.reset.toChip.source 0 23 0 = none ∧ State.reset.toChip.flag (Reg.LOP_LS_STATUS_SRC_INVALID 63) = false ∧
    State.reset.toChip.source 7 0 0 = some 0 ∧ ¬(State.reset.toChip.slotConfigured 63 = true) ∧
    (let c := slot63 [(Reg.LOP_LS_STATUS_ENABLED 63, 1), (Reg.CKP_STATUS_PSTATE, 2)]
     let e := { c with motionAt := some 0 }
     e.nextSlot = some 63 ∧ e.dueTick 63 = e.loopTick ∧ e.motionAt = some e.loopTick ∧ 63 ∈ e.unitOf 63 ∧ c.motionAt ≠ some c.loopTick ∧
       c.get (Reg.LOP_LS_SCHED_PHASE 63) < max 1 (c.get (Reg.LOP_LS_SCHED_DIV 63)) ∧
       (e.setSlot 63 { e.slot 63 with evalAt := some 0 }).dueTick 63 ≠ e.loopTick ∧
       c.slotConfigured 63 = true ∧ c.slotOn 63 = true ∧ c.owns = true ∧ c.get Reg.CKP_STATUS_PSTATE ≤ 2 ∧
       c.flag Reg.CFG_STATUS_COMMITTED = true ∧ c.grouped 63 = false ∧ c.loopCmds = [] ∧ c.sched = []) := by
  and_intros <;> decide +kernel

theorem wit_InputsAndOutputsFollowTheirRules :
    State.reset.toChip.converts 23 = false ∧
    (let c := regsOf [(Reg.IOX_ADC_SEQ_CFG_ENABLE 1, 1), (Reg.CFG_STATUS_COMMITTED, 1), (Reg.IOX_ADC_SEQ_LO_ENTRIES 1, 11),
       (Reg.IOX_AIN_WIN_LO 23, 5), (Reg.IOX_AIN_WIN_HI 23, 5)]
     let code := fun (nv : Nat) => min 65535 (nv * 65536 / 1800000000)
     c.converts 23 = true ∧ code 137330 = 5 ∧ code 4000000000 = 65535 ∧
       (c.get (Reg.IOX_AIN_WIN_LO 23) ≤ code 137330 ∧ code 137330 ≤ c.get (Reg.IOX_AIN_WIN_HI 23)) ∧
       ¬(code 164796 ≤ c.get (Reg.IOX_AIN_WIN_HI 23)) ∧ 23 ∉ c.ainLeft ∧ 23 ∈ ({ c with ainLeft := [23] }).ainLeft) ∧
    ¬(State.reset.toChip.flag (Reg.IOX_PWM_CFG_ENABLE 31) = true) ∧
    (let c := regsOf [(Reg.IOX_PWM_CFG_ENABLE 31, 1), (Reg.CFG_STATUS_COMMITTED, 1), (Reg.IOX_PWM_CFG_PERIOD 31, 1)]
     c.flag (Reg.IOX_PWM_CFG_ENABLE 31) = true ∧ c.flag Reg.CFG_STATUS_COMMITTED = true ∧ c.get Reg.CKP_STATUS_PSTATE ≤ 2 ∧ 0 < c.get (Reg.IOX_PWM_CFG_PERIOD 31)) ∧
    State.reset.toChip.pstate ≠ 3 ∧ (∃ k, k < 32 ∧ bit (0x80000000#32).toNat k = true ∧
      bit ((regsOf [(Reg.IOX_GPIO_CLAIMED_BITS 1, 0x80000000)]).get (Reg.IOX_GPIO_CLAIMED_BITS 1)) k = true) := by
  and_intros <;> decide +kernel

/-! ### Witnesses: tandem -/

/-- A controller of a pair, with register fields and its tandem data. -/
def pair (fs : List (Field × Nat)) (t : Tandem) : Chip := (regsOf ((Reg.GLB_STRAPS_TDM_EN, 1) :: fs)).setTdm t

/-- A heartbeat, and a completion that waits for the partner on ring 0 of port A. -/
def beat (fromOwner : Bool) (state : Fin 7) (fit : Bool) : HeartbeatMsg :=
  ⟨⟨0, 0⟩, fromOwner, state, 0, 0, List.replicate 8 ⟨0, 0, 0, 0, false⟩, [], [], false, false, fit, false, 0, 0, 0⟩
def wait0 : MirrorWait := { seq := 2, port := 0, ring := 0, code := 0, desc := mot7 0x20 0, result := [], since := 3 }

theorem wit_OwnershipFollowsTheClaims :
    7 < 8 ∧ 255 < 256 ∧ (∀ m ∈ (pair [] { last := some (beat true 2 true) }).tdm.last, m.axes.length ≤ 8) ∧
    (let c := State.reset.toChip
     c.mirrorWait = [] ∧ c.tdm.hbWait = [] ∧ c.loopCmds = [] ∧ c.frames = []) ∧
    (State.reset.toChip.pstate ≠ 3 ∧ State.reset.toChip.inPair = false ∧ false = State.reset.toChip.flag Reg.TDM_STATUS_PRI) ∧
    (let c := pair [(Reg.TDM_STATUS_STATE, 3)] {}
     c.get Reg.TDM_STATUS_WIDTH < 2) ∧
    (let c := pair [(Reg.TDM_STATUS_WIDTH, 2), (Reg.TDM_STATUS_CLAIM_P_IN, 1)] {}
     2 ≤ c.get Reg.TDM_STATUS_WIDTH ∧ c.otherClaim = true) ∧
    (let c := pair [(Reg.TDM_STATUS_WIDTH, 2)] { last := some (beat true 2 true) }
     2 ≤ c.get Reg.TDM_STATUS_WIDTH ∧ c.otherClaim = false ∧ (∀ m ∈ c.tdm.last, m.axes.length ≤ 8)) ∧
    (let c := pair [(Reg.TDM_STATUS_OWNS, 1)] { goAt := some 1 }
     true ≠ c.flag Reg.TDM_STATUS_PRI ∧ c.inPair = true ∧ c.owns = true ∧ c.flag Reg.TDM_STATUS_PRI = false ∧ c.tdm.goAt.isSome = true) ∧
    (let c := pair [(Reg.TDM_STATUS_STATE, 1)] { startDue := some 9 }
     c.inPair = true ∧ c.owns = false ∧ c.tdmState = 1 ∧ c.tdm.startDue = some 9) ∧
    (pair [(Reg.TDM_STATUS_STATE, 4)] {}).tdmState = 4 ∧
    ((1#32).getLsbD 0 = true ∧ (1#32).getLsbD 1 = false) ∧
    (let c := pair [(Reg.TDM_STATUS_STATE, 5)] {}
     ¬(c.owns = true ∨ c.otherClaim = true ∨ c.tdmState = 0 ∨ c.tdmState = 6)) ∧
    State.reset.toChip.tdmState = 0 ∧
    (State.reset.toChip.get Reg.TDM_STATUS_CLAIM_OUT = 0 ∧ (regsOf [(Reg.TDM_STATUS_CLAIM_OUT, 1)]).get Reg.TDM_STATUS_CLAIM_OUT = 1) ∧
    ((pair [] { startDue := some 9 }).tdm.startDue = some 9 ∧ (pair [] { startDue := some 9 }).tdmState ≠ 1) ∧
    State.reset.toChip.tdm.startDue = none ∧
    (let c := pair [] { bothSince := some 4 }
     c.tdm.bothSince = some 4 ∧ c.tdmState ≠ 6 ∧ c.tdm.goAt = none ∧ c.tdm.backing = false) ∧ State.reset.toChip.tdm.bothSince = none := by
  and_intros <;> decide +kernel

theorem wit_ThePairKeepsItsWord :
    State.reset.toChip.inPair = false ∧
    (let c := pair [(Reg.TDM_STATUS_STATE, 2), (Reg.TDM_STATUS_WIDTH, 1)] {}
     c.inPair = true ∧ c.tdmState ≠ 0 ∧ c.pstate ≤ 2 ∧ c.tdm.hold = false) ∧ 2 < (regsOf [(Reg.CKP_STATUS_PSTATE, 3)]).pstate ∧
    (let c := pair [] { rxSeq := some 0xFFFFFFFF }
     (c.rxFrame ⟨0xFFFFFFFF, 0⟩ 1).2 = false ∧ (c.rxFrame ⟨0, 0⟩ 1).2 = true ∧ (c.rxFrame ⟨1, 0⟩ 1).2 = true ∧ c.pstate ≠ 3 ∧
       idxDiff (0xFFFFFFFF#32).toNat (0xFFFFFFFF + 1) < 0 ∧ idxDiff (0#32).toNat (0xFFFFFFFF + 1) = 0 ∧
       0 < idxDiff (1#32).toNat (0xFFFFFFFF + 1)) ∧ (regsOf [(Reg.CKP_STATUS_PSTATE, 3)]).pstate = 3 ∧
    (let r := (pair [(Reg.TDM_STATUS_STATE, 3)] {}).rxFrame ⟨0, 0⟩ 1
     r.2 = true ∧ (beat true 2 true).fromOwner = true ∧ r.1.owns = false ∧ r.1.tracking = true) ∧
    (let r := (pair [(Reg.TDM_STATUS_STATE, 2), (Reg.TDM_STATUS_OWNS, 1)] {}).rxFrame ⟨0, 0⟩ 1
     r.2 = true ∧ r.1.owns = true ∧ r.1.tdmState = 2 ∧ r.1.tdm.unfit = none ∧ r.1.mirrorWait = [] ∧ r.1.tdm.hbWait = []) ∧
    (let c := pair [(Reg.TDM_STATUS_STATE, 3)] {}
     (beat false 2 true).fromOwner = c.owns ∧ (beat true 2 true).fromOwner = true ∧ c.owns = false ∧ c.tracking = true ∧
       ({ beat true 2 true with digest := 1 }).digest.toNat ≠ c.digestNow ∧ (beat true 2 false).digest.toNat = c.digestNow ∧
       (beat true 2 false).partnerFit = false ∧ (beat true 2 true).partnerFit = true) ∧
    (let c := pair [(Reg.TDM_STATUS_STATE, 2), (Reg.TDM_STATUS_OWNS, 1)] {}
     (beat false 3 true).fromOwner = false ∧ c.owns = true ∧ (beat false 3 true).state.val = 3 ∧ (beat false 5 true).state.val ≠ 3 ∧
       (beat false 5 true).state.val ≠ 4 ∧ c.tracked = false ∧ c.flag Reg.TDM_STATUS_PRI = false) ∧
    (let c := pair [(Reg.TDM_STATUS_STATE, 2)] {}
     ¬(c.inPair = false ∨ c.tdm.missTold = true ∨ (c.tdmState ≠ 2 ∧ (c.tracking = false ∨ c.otherClaim = false))) ∧ c.tdmState = 2 ∧
       c.tdm.unfit = none) ∧
    (pair [(Reg.TDM_STATUS_STATE, 2)] { unfit := some 1 }).tdm.unfit.isSome = true ∧
    (let c := pair [(Reg.TDM_STATUS_STATE, 4), (Reg.TDM_STATUS_CLAIM_P_IN, 1)] {}
     ¬(c.inPair = false ∨ c.tdm.missTold = true ∨ (c.tdmState ≠ 2 ∧ (c.tracking = false ∨ c.otherClaim = false))) ∧ c.tdmState ≠ 2) ∧
    (pair [] { missTold := true }).tdm.missTold = true ∧
    ((State.reset.toChip.mirrorWait ++ State.reset.toChip.tdm.hbWait).head? = none) ∧
    (let c := { pair [(Reg.TDM_STATUS_STATE, 2)] {} with mirrorWait := [wait0] }
     (c.mirrorWait ++ c.tdm.hbWait).head? = some wait0 ∧ c.tdm.unfit = none ∧ c.tdmState = 2) ∧
    (let c := { pair [] { unfit := some 6 } with mirrorWait := [wait0] }
     (c.mirrorWait ++ c.tdm.hbWait).head? = some wait0 ∧ c.tdm.unfit = some 6) ∧
    (State.reset.toChip.tracked = false ∧ ({ State.reset.toChip with tracked := true }).tracked = true) ∧
    (let c := (headOf (regsOf []) 3 (mot7 0x20 0)).setRing 0 0 { fetched := [some (mot7 0x20 0)], acted := true }
     (c.ring wait0.port wait0.ring).acted = true ∧ (c.ring wait0.port wait0.ring).fetched.head? = some (some wait0.desc) ∧
       c.ringState wait0.port wait0.ring = 1) ∧
    ¬((State.reset.toChip.ring wait0.port wait0.ring).acted = true) ∧
    (let c := (pair [] {}).setRing 0 0 { fetched := [some (mot7 0x20 0)], acted := true, load := some ⟨[], none, true⟩ }
     (c.ring wait0.port wait0.ring).load = some ⟨[], none, true⟩) ∧
    (let c := { pair [] {} with mirrorWait := [wait0] }
     c.mirrorWait = [wait0] ∧ idxDiff wait0.seq 2 ≤ 0 ∧ (c.ring wait0.port wait0.ring).load = none) ∧
    (let c := { pair [] {} with mirrorWait := [wait0] }
     c.tdm.hold = false ∧ c.tdm.unfitSeq = none ∧ ∀ w ∈ c.mirrorWait, 0 < idxDiff w.seq (1#32).toNat) ∧
    (State.reset.toChip.tracking = false ∧ State.reset.toChip.tdmState ≠ 5 ∧ (pair [(Reg.TDM_STATUS_STATE, 5)] {}).tdmState = 5) := by
  and_intros <;> decide +kernel

/-- A firn of some kind and sequence number. -/
def firn1 (kind : Fin 4) (seq : BitVec 32) : FirnMsg := 
  ⟨⟨0, 0⟩, kind, seq, 0, 0, 100, 0, [[0]], 0, false, none, 0, [], [], [(31, ⟨5, some (6, some 2), none⟩)], [(7, ⟨6, none, none⟩)], [], [],
    [(9, 3)], 8, [], [], [], []⟩

theorem wit_StandbyFollowsItsOwner :
    (let r := (pair [(Reg.TDM_STATUS_STATE, 3)] {}).rxFrame ⟨0, 0⟩ 1
     r.2 = true ∧ r.1.tracking = true ∧ r.1.layer? (9 : BitVec 32).toNat = none) ∧
    ((pair [(Reg.TDM_STATUS_STATE, 5)] {}).rxFrame ⟨0, 0⟩ 1).1.tdmState = 5 ∧
    ((pair [(Reg.TDM_STATUS_STATE, 6)] {}).rxFrame ⟨0, 0⟩ 1).1.tdmState = 6 ∧
    (let r := State.reset.toChip.rxFrame ⟨0, 0⟩ 1
     r.2 = true ∧ r.1.tracking = false ∧ r.1.tdmState ≠ 6 ∧ r.1.tdmState ≠ 5) ∧
    (firing [] 2 {}).inArmed 47 = true ∧ (9 : Fin 10).val ≥ 8 ∧ (7 : Fin 10).val < 8 ∧
    ((∀ i b, ChangeRec.nzt 0 31 0 3 ≠ .ready i b) ∧ ∀ p e v, ChangeRec.nzt 0 31 0 3 ≠ .map p e v) ∧
    (let c := { pair [(Reg.TDM_STATUS_STATE, 3)] {} with layers := [layer9] }
     let r := c.rxFrame ⟨0, 0⟩ 1
     r.2 = true ∧ r.1.tracking = true ∧ r.1.layer? (9 : BitVec 32).toNat = some layer9 ∧
       c.layer? (leField hdr9 8 4) = some layer9 ∧ leField hdr9 7 1 < 48 ∧ inMask layer9.heads (leField hdr9 7 1) = true) ∧
    ((oneHead []).headerFault layer9 2080 47 15 hdr9 = none ∧ (oneHead []).headerFault layer9 2080 47 15 [] ≠ none) ∧
    State.reset.toChip.layer? (leField (hdr9.take 32) 8 4) = none ∧
    (2 ≤ (regsOf [(Reg.CKP_STATUS_PSTATE, 2)]).pstate ∧ (regsOf [(Reg.CKP_STATUS_PSTATE, 2)]).tracking = false) ∧
    (let r := (pair [(Reg.TDM_STATUS_STATE, 3)] { firnHeard := some 0xFFFFFFFF }).rxFrame ⟨0, 0⟩ 1
     r.2 = true ∧ r.1.tracking = true ∧ (firn1 3 5).kind.val = 3 ∧ r.1.tdm.firnHeard = some 0xFFFFFFFF ∧
       (firn1 1 0).seq.toNat = (0xFFFFFFFF + 1) % 2 ^ 32 ∧ ¬((firn1 1 5).kind.val = 3) ∧ ¬((firn1 1 5).seq.toNat = (0xFFFFFFFF + 1) % 2 ^ 32)) ∧
    [[(0 : Byte)]][0]? = some [0] ∧
    (let c := pair [(Reg.TDM_STATUS_STATE, 5)] { firns := [(firn1 3 5, 1)] }
     c.tdm.goWaits = false ∧ c.tdm.firns = [(firn1 3 5, 1)] ∧ c.tdmState = 5 ∧ (firn1 3 5).kind.val = 3 ∧
       (pair [] { firns := [(firn1 3 5, 4)] }).tdm.firns = [(firn1 3 5, 2 + 2)]) ∧
    (pair [(Reg.TDM_STATUS_STATE, 5), (Reg.TDM_STATUS_WIDTH, 2)] {}).tdm.later = [] ∧
    2 ≤ (pair [(Reg.TDM_STATUS_STATE, 5), (Reg.TDM_STATUS_WIDTH, 2)] {}).get Reg.TDM_STATUS_WIDTH ∧
    ((firn1 2 5).kind.val = 2 ∧ (firn1 2 5).nzt.Pairwise (fun a b => a.1 ≠ b.1) ∧ (firn1 2 5).sub.Pairwise (fun a b => a.1 ≠ b.1) ∧
      (firn1 2 5).scores.Pairwise (fun a b => a.1 ≠ b.1) ∧ (∀ e ∈ (firn1 2 5).nzt, e.1 ≠ 30) ∧ (∀ q ∈ (firn1 2 5).scores, q.1 ≠ 30) ∧
      (∀ q ∈ (firn1 2 5).scores, q.1 ≠ 31) ∧ (firn1 2 5).healLayer.toNat ≠ 0xFFFFFFFF) ∧
    ((pair [] { last := some (beat true 2 true) }).tdm.last = some (beat true 2 true) ∧
      0 < wrapDiff ({ firn1 2 5 with et := 1 }).et (beat true 2 true).et) ∧
    (let e := (regsOf [(Reg.TDM_STATUS_STATE, 3)]).formTo 47 (min (1024 * (0 + 1 : Nat)) ((regsOf [(Reg.TDM_STATUS_STATE, 3)]).spanEnd 47))
     0 ∉ (e.headRun 47).notCompared ∧ SMap.get 0 0 (e.headRun 47).crcs = 0 ∧ SMap.get 0 0 (e.headRun 47).crcs ≠ 1 ∧ e.tracking = true) ∧
    (let c := { firing [(Reg.TDM_STATUS_STATE, 3), (Reg.TDM_STATUS_WIDTH, 2)] 2 {} with tdm := { whole := true } }
     c.armed = some layer9 ∧ c.tdm.whole = true ∧ c.tdmState = 3 ∧ 2 ≤ c.get Reg.TDM_STATUS_WIDTH ∧ c.otherClaim = false ∧
       (∀ m ∈ c.tdm.last, m.axes.length ≤ 8)) ∧
    (firing [(Reg.TDM_STATUS_STATE, 3), (Reg.TDM_STATUS_CLAIM_P_IN, 1)] 2 {}).otherClaim = true ∧
    ((firing [] 2 {}).armed = some layer9 ∧ (firing [] 2 {}).tdm.whole = false ∧ ¬(2 ≤ (firing [] 2 {}).get Reg.TDM_STATUS_WIDTH)) ∧
    (∀ q ∈ State.reset.toChip.tdm.takes, q.head ≠ (47 : Fin 48).val) ∧
    (pair [] { takes := [⟨47, 6, 0⟩] }).tdm.takes.find? (fun (q : TakeHead) => decide (q.head = (47 : Fin 48).val)) = some ⟨47, 6, 0⟩ ∧
    (¬(State.reset.toChip.tdmState = 2) ∧ (pair [(Reg.TDM_STATUS_STATE, 2)] {}).tdmState = 2 ∧ (pair [(Reg.TDM_STATUS_STATE, 2)] {}).run = none) := by
  and_intros
  all_goals first | decide +kernel | (intros; exact fun h => nomatch h)

theorem wit_ResyncAndTakebackGoByTheirSteps :
    ((pair [(Reg.TDM_STATUS_STATE, 2)] {}).tdmState = 2 ∧ (pair [(Reg.TDM_STATUS_STATE, 2)] {}).run = none) ∧
    State.reset.toChip.tdmState ≠ 2 ∧ ((firing [(Reg.TDM_STATUS_STATE, 2)] 2 {}).tdmState = 2 ∧ (firing [(Reg.TDM_STATUS_STATE, 2)] 2 {}).run.isSome = true) ∧
    (State.reset.toChip.pstate ≠ 3 ∧ (2#32).getLsbD 0 = false ∧ (2#32).getLsbD 1 = true) ∧
    (State.reset.toChip.tdmState ≠ 5 ∧ (pair [(Reg.TDM_STATUS_STATE, 5)] {}).tdmState = 5) ∧
    (let c := pair [] { hold := true, kept := [⟨4, 1, 0, []⟩] }
     c.tdm.hold = true ∧ c.tdm.goAt = none ∧ c.mirrorWait = [] ∧ c.tdm.hbWait = [] ∧ (∀ k ∈ c.tdm.kept, k.type = 1) ∧
       ∀ o ∈ c.outItems, o.firn = false) ∧
    ¬(State.reset.toChip.tdm.hold = true) ∧ State.reset.toChip.tdmState ≠ 4 ∧
    (let c := pair [(Reg.TDM_STATUS_STATE, 4), (Reg.TDM_STATUS_PRI, 1)] { last := some (beat true 2 true) }
     c.tdmState = 4 ∧ c.flag Reg.TDM_STATUS_PRI = true ∧ (∀ m ∈ c.tdm.last, m.axes.length ≤ 8) ∧
       ({ c.tdm with firns := [(firn1 1 5, 1)] } : Tandem).firns ≠ []) ∧
    (State.reset.toChip.tdmState ≠ 6 ∧ (pair [(Reg.TDM_STATUS_STATE, 6)] {}).tdmState = 6) ∧
    (State.reset.toChip.tdm.goAt = none ∧ (pair [] { goAt := some 8 }).tdm.goAt = some 8) := by
  and_intros <;> decide +kernel

/-- Lanes 0 to 3 carry the bond and lane 4 is the spare. -/
def bonded (fs : List (Field × Nat)) : Chip :=
  pair ([(Reg.TDM_LANE_STATUS_STATE 0, 3), (Reg.TDM_LANE_STATUS_STATE 1, 3), (Reg.TDM_LANE_STATUS_STATE 2, 3), (Reg.TDM_LANE_STATUS_STATE 3, 3),
    (Reg.TDM_LANE_STATUS_STATE 4, 4), (Reg.TDM_STATUS_WIDTH, 4)] ++ fs) {}

theorem wit_TandemLanesFormTheBond :
    State.reset.toChip.laneWell 4 = false ∧ ((bonded []).laneWell 4 = true ∧ (bonded []).get (Reg.TDM_LANE_STATUS_STATE 4) ≠ 3) ∧
    (let c := bonded []
     c.laneWell 0 = true ∧ c.get (Reg.TDM_LANE_STATUS_STATE 0) = 3 ∧
       c.pstate ≤ 2 ∧ (19, 0) ∉ c.quar ∧ c.tdm.spare = 4 ∧ c.flag Reg.TDM_STATUS_SPARE_USED = false ∧ c.bondLanes ≠ [] ∧
       2 ≤ ((List.range 5).filter fun j => decide (j ≠ 0) && c.laneWell j).length ∧ c.get (Reg.TDM_LANE_STATUS_STATE 4) = 4 ∧
       ∀ i, i < 5 → i ≠ 4 → c.get (Reg.TDM_LANE_STATUS_STATE i) = 3) ∧
    (let c := pair [(Reg.TDM_LANE_STATUS_STATE 0, 3), (Reg.TDM_STATUS_STATE, 3)] {}
     c.laneWell 0 = true ∧ c.tracking = true ∧ ((List.range 5).filter fun j => decide (j ≠ 0) && c.laneWell j).length = 0) ∧
    (let c := pair [(Reg.TDM_LANE_STATUS_STATE 0, 3), (Reg.TDM_LANE_STATUS_STATE 4, 2), (Reg.TDM_STATUS_STATE, 4)] {}
     c.tracking = true ∧ ((List.range 5).filter fun j => decide (j ≠ 0) && c.laneWell j).length = 1) ∧
    (State.reset.toChip.inPair = false ∧ (pair [] {}).inPair = true ∧ (pair [] {}).laneWell 4 = false ∧ (pair [] {}).run = none) ∧
    (let c := { pair [] {} with run := some {} }
     c.inPair = true ∧ c.laneWell 4 = false ∧ c.run.isSome = true) ∧
    (let c := pair [(Reg.TDM_LANE_STATUS_STATE 0, 3), (Reg.TDM_STATUS_WIDTH, 2)] {}
     c.laneWell 4 = false ∧ c.run = none ∧
       widthOf (((List.range 5).filter fun j => decide (j ≠ 4) && c.laneWell j).length + 1) ≤ c.get Reg.TDM_STATUS_WIDTH) := by
  and_intros <;> decide +kernel

/-! ### Witnesses: configuration -/

/-- A valid configuration image without records, with its SEQ. -/
def image0 (seq : Nat) : List Byte :=
  let h := leBytes 4 0x47464E43 ++ leBytes 1 1 ++ leBytes 3 0 ++ leBytes 4 seq ++ leBytes 4 64 ++ sha256 [] ++ leBytes 12 0
  h ++ leBytes 4 (crc32 h)

/-- A position of the ledger as a copy holds it. -/
def rec0 : List Byte := leBytes 32 1
def blank32 : List Byte := List.replicate 32 0xFF

theorem wit_StartUpLoadsScansAndReadies :
    (State.reset.toChip.island.loaded = false ∧ ({ State.reset.toChip.island with loaded := true }).loaded = true) ∧
    ((regsOf [(Reg.GLB_STRAPS_SAFE_BOOT, 1)]).flag Reg.GLB_STRAPS_SAFE_BOOT = true ∧ State.reset.toChip.flag Reg.GLB_STRAPS_SAFE_BOOT = false) ∧
    (imageCause (some (image0 0)) = 0 ∧ imageCause none ≠ 0 ∧ chooseSlot false false 0 0 = 0 ∧ chooseSlot true true 0xFFFFFFFF 0 ≠ 0 ∧
      (imageRecords (image0 0)).Pairwise (fun x y => x.1 ≠ y.1)) ∧
    (let c := { State.reset.toChip with island := { State.reset.toChip.island with phase := 3, loaded := true } }
     ¬(c.island.phase ≠ 3 ∨ c.island.loaded = false ∨ c.conf.scanned = true)) ∧
    State.reset.toChip.island.phase ≠ 3 ∧
    ((∀ b ∈ blank32, b = 0xFF) ∧ ¬(∀ b ∈ rec0, b = 0xFF)) ∧
    (recGood rec0 (BitVec.ofNat 32 (crc32 rec0)) none = true ∧ recGood rec0 (BitVec.ofNat 32 (crc32 rec0)) (some 0) = false ∧
      recGood (leBytes 32 2) (BitVec.ofNat 32 (crc32 (leBytes 32 2))) none = true ∧ rec0 ≠ leBytes 32 2) ∧
    (leField rec0 0 1 ≠ 4 ∧ leField rec0 0 1 ≠ 5) ∧
    (let c := { regsOf [(Reg.DRC_STATUS_TRAINED, 1)] with conf := { State.reset.toChip.conf with scanned := true } }
     ¬(c.flag Reg.CFG_STATUS_READY = true ∨ c.conf.scanned = false ∨ c.flag Reg.DRC_STATUS_TRAINED = false) ∧
       ∀ e ∈ c.island.bootEvents, e.1 < 256) ∧
    ({ State.reset.toChip with wdogLoss := true } : Chip).wdogLoss = true ∧ State.reset.toChip.conf.scanned = false := by
  and_intros <;> decide +kernel

/-- Port B holds the configuration semaphore, and every register is within its range. -/
def inRange (fs : List (Field × Nat)) : Chip :=
  regsOf ([(Reg.GLB_SEM_OWNER 0, 2), (Reg.HIF_BLOCK_AREA_MIB, 64), (Reg.HIF_STATE_AREA_MIB, 16), (Reg.CAM_STORE_AREA_MIB, 64),
    (Reg.ETM_PTP_CFG_ANNOUNCE_TO, 2), (Reg.ETM_PTP_CFG_SYNC_TO, 2), (Reg.CRN_PITCH_COUNTS, 0x10000), (Reg.DRC_BAND_CFG_NB, 8),
    (Reg.TDM_CFG_WDOG_US, 10), (Reg.TDM_CFG_HB_TO_US, 2500), (Reg.TDM_START_WAIT_MS, 100), (Reg.CKP_SEQ_CFG_PG_TO_MS, 1)] ++
    ((List.range 4).flatMap fun n => [(Reg.MOT_DRV_CFG_FRAME_US n, 10), (Reg.CAM_PIPE_CFG_SLOTS n, 2), (Reg.CAM_PIPE_CFG_SLOT_MIB n, 1)]) ++
    ((List.range 8).flatMap fun x => [(Reg.CAM_CTX_GEOM_WIDTH x, 16), (Reg.CAM_CTX_GEOM_HEIGHT x, 1), (Reg.CAM_CTX_OUT_OUT_WIDTH x, 1)]) ++ fs)

theorem wit_CommitsAreCheckedThenTakeEffect :
    (State.reset.toChip.pstate ≠ 3 ∧ (1#32).getLsbD 0 = true ∧ (1#32).getLsbD 1 = false ∧ (1#32).getLsbD 2 = false) ∧
    (2 < 3 ∧ 1 < 2 ∧ State.reset.toChip.get (Reg.GLB_SEM_OWNER 0) ≠ 1 + 1) ∧
    ((inRange []).get (Reg.GLB_SEM_OWNER 0) = 1 + 1 ∧ (inRange []).flag Reg.CFG_STATUS_COMMITTED = false ∧ (inRange []).flag Reg.CFG_STATUS_BUSY = false) ∧
    ((inRange [(Reg.CFG_STATUS_COMMITTED, 1)]).get (Reg.GLB_SEM_OWNER 0) = 1 + 1 ∧ (inRange [(Reg.CFG_STATUS_COMMITTED, 1)]).flag Reg.CFG_STATUS_COMMITTED = true) ∧
    (inRange [(Reg.CFG_STATUS_BUSY, 1)]).flag Reg.CFG_STATUS_BUSY = true ∧
    ((inRange [(Reg.HIF_BLOCK_AREA_MIB, 63)]).rangeBad = [Reg.HIF_BLOCK_AREA_MIB.off]) ∧
    (inRange []).rangeBad = [] ∧ (inRange []).conflict = none ∧
    (let c := inRange [(Reg.MOT_AX_CFG_OUT 0, 2), (Reg.MOT_AX_CFG_OUT 1, 2)]
     c.rangeBad = [] ∧ c.conflict = some (3 * 2 ^ 28, 0x500, 0x501)) ∧
    (let c := inRange ((List.range 13).map fun k => (Reg.LOP_LS_SCHED_DIV k, 1))
     12500000 < c.loopLoad) ∧
    (let c := inRange ((List.range 25).map fun n => (Reg.HED_HEAD_CFG_NOZZLES n, 8192))
     c.loopLoad ≤ 12500000 ∧ 196608 < c.gSum) ∧
    ((inRange []).loopLoad ≤ 12500000 ∧ (inRange []).gSum ≤ 196608 ∧ (inRange []).flag Reg.DRC_STATUS_DRAM_OK = false) ∧
    (let c := inRange [(Reg.DRC_STATUS_DRAM_OK, 1)]
     c.flag Reg.DRC_STATUS_DRAM_OK = true ∧ ¬(c.regionBytes ≤ 2 ^ 20 * c.get Reg.DRC_CAPACITY_MIB)) ∧
    (let c := inRange [(Reg.DRC_STATUS_DRAM_OK, 1), (Reg.DRC_CAPACITY_MIB, 208)]
     c.rangeBad = [] ∧ c.conflict = none ∧ c.loopLoad ≤ 12500000 ∧ c.gSum ≤ 196608 ∧ c.flag Reg.DRC_STATUS_DRAM_OK = true ∧
       c.regionBytes ≤ 2 ^ 20 * c.get Reg.DRC_CAPACITY_MIB) ∧
    (State.reset.toChip.conf.commit = none ∧ ({ State.reset.toChip.conf with commit := some ⟨1, [], 0, 0⟩ }).commit = some ⟨1, [], 0, 0⟩) ∧
    ((slot63 [(Reg.LOP_LS_GRP_START 63, 1)]).slotConfigured 63 = true ∧ (slot63 [(Reg.LOP_LS_GRP_START 63, 1)]).flag (Reg.LOP_LS_GRP_START 63) = true) ∧
    State.reset.toChip.inPair = false := by
  and_intros <;> decide +kernel

/-- Port A holds the configuration semaphore, with image0 in the buffer. -/
def imageIn (seq : Nat) : Chip :=
  regsOf ((Reg.GLB_SEM_OWNER 0, 1) :: (List.range 16).map fun k => (Reg.CFG_IMAGE_DATA k, leField (image0 seq) (4 * k) 4))

theorem wit_FlashOperationsFollowTheirChecks :
    (State.reset.toChip.pstate ≠ 3 ∧ ((2#32).getLsbD 0 = false ∧ (2#32).getLsbD 1 = true ∧ (2#32).getLsbD 2 = false)) ∧
    State.reset.toChip.get (Reg.GLB_SEM_OWNER 0) ≠ Port.num .a + 1 ∧
    (let c := { regsOf [(Reg.GLB_SEM_OWNER 0, 1)] with conf := { State.reset.toChip.conf with writing := some 1 } }
     c.get (Reg.GLB_SEM_OWNER 0) = Port.num .a + 1 ∧ c.conf.writing.isSome = true) ∧
    (let c := regsOf [(Reg.GLB_SEM_OWNER 0, 1)]
     c.get (Reg.GLB_SEM_OWNER 0) = Port.num .a + 1 ∧ ¬(c.conf.writing.isSome = true) ∧ imageCause (some c.bufferedImage) ≠ 0) ∧
    (let c := imageIn 7
     c.get (Reg.GLB_SEM_OWNER 0) = Port.num .a + 1 ∧ imageCause (some c.bufferedImage) = 0 ∧ ¬(c.seqOld (imageSeq c.bufferedImage) = true)) ∧
    (let c := { imageIn 0 with conf := { State.reset.toChip.conf with validA := true } }
     imageCause (some c.bufferedImage) = 0 ∧ c.seqOld (imageSeq c.bufferedImage) = true) ∧
    State.reset.toChip.conf.writing = none ∧
    (let c := { regsOf [] with conf := { State.reset.toChip.conf with writing := some 1, sectors := 2 } }
     c.conf.writing = some 1 ∧ c.get Reg.CFG_FLASH_STATUS_SECTORS + 1 < c.conf.sectors ∧ c.conf.writing.isSome = true) ∧
    (let c := { regsOf [] with conf := { State.reset.toChip.conf with writing := some 0, sectors := 1 } }
     c.conf.writing = some 0 ∧ c.conf.sectors ≤ c.get Reg.CFG_FLASH_STATUS_SECTORS + 1) ∧
    (imageCause (some (image0 0)) = 0 ∧ imageCause none ≠ 0) ∧
    ((0x5A04#32).getLsbD 0 = false ∧ (0x5A04#32).getLsbD 1 = false ∧ (0x5A04#32).getLsbD 2 = true ∧ (0x5A04#32).toNat / 256 % 256 = 0x5A ∧
      ¬((0x5B04#32).toNat / 256 % 256 = 0x5A)) ∧
    (State.reset.toChip.get Reg.CRN_STATUS_STATE = 0 ∧ State.reset.toChip.conf.erasing = false ∧
      ({ State.reset.toChip.conf with erasing := true }).erasing = true) := by
  and_intros <;> decide +kernel

/-! ### Worked cases of the spec -/

/-- The worked case behind R371 and R373: code 50,062 gives g = 19,500, and LS12 gives v = 52,644. -/
theorem test_worked_loop :
    (regsOf [(Reg.LOP_VFF_TAB_G 48, 20227), (Reg.LOP_VFF_TAB_G 49, 19410)]).vffGain 50062 = 19500 ∧
    (let c := regsOf [(Reg.LOP_LS_KP_VALUE 12, 1311), (Reg.LOP_LS_KI_VALUE 12, 5), (Reg.LOP_LS_SHIFT_SI 12, 3), (Reg.LOP_LS_OUTMAX_VALUE 12, 60000),
       (Reg.LOP_LS_SLEW_VALUE 12, 4000), (Reg.LOP_LS_INTEG_VALUE 12, 18000), (Reg.LOP_LS_GRP_VFF_EN 12, 1), (Reg.LOP_VFF_G_G, 19500)]
     (c.law 12 50000 720 700 0).v = 52644 ∧ (c.law 12 50000 720 700 0).i = 18012) := by decide +kernel

/-- The worked case behind R229: with T1 to T4 and ASYM as given, θ is 190.300 ns and the one-way delay 23.5 ns. -/
theorem test_worked_time_exchange :
    let c := lane47 [(Reg.THL_LANE_ASYM_PS 47, 600), (Reg.THL_TIME_CFG_ERR_NS, 300)] 2 { reqOut := some 1 }
    let t := fun (ps : Nat) => BitVec.ofNat 64 (ps * 65536 / 1000)
    let m : TimeRsp := ⟨1, t 5000000000, t 5000213500, t 5000613500, t 5000447000, true⟩
    ∃ d, exec (.timeRsp 47 m) (State.reset.withChip c) = .next d ∧ (d.toChip.lane 47).theta = 12471500 ∧
      (d.toChip.lane 47).oneWay = 1540096 := ⟨_, rfl, by decide +kernel, by decide +kernel⟩

/-- The worked case behind R177: nozzle 2,047 of H05 is row 22,527, and its window offset 0x0011_5FFC; the entry's fields. -/
theorem test_worked_nozzle_entry :
    let row := (regsOf [(Reg.CRN_NZT_BASE_ROW 5, 20480)]).nbase 5 + 2047
    row = 22527 ∧ 0x100000 + 4 * row = 0x115FFC ∧ ntState 0x14FFD211 = 0 ∧ ntSubst 0x14FFD211 = true ∧ ntSlot 0x14FFD211 = 9 := by
  decide +kernel

/-- R47: an idle step is 4 ns of ET at RATE 0. -/
theorem test_idle_tick : ∃ t, step State.reset = .next t ∧ t.toChip.now = BitVec.ofNat 64 (4 * 65536) := ⟨_, rfl, by decide +kernel⟩

/-- A command at the front of the queue runs, and leaves the queue. -/
theorem test_queue : ∃ t, step { State.reset with pending := [.estop .a 1, .etWrap] } = .next t ∧ t.pending = [.etWrap] ∧
    t.toChip.get Reg.MOT_STATUS_ESTOP = 1 := ⟨_, rfl, rfl, by decide +kernel⟩

/-- R86: the second access error leaves the record of the first and counts to 2. -/
theorem test_access_errors : ∃ t u, exec (.accessError .b false 0x104 true 0x1 false) State.reset = .next t ∧
    exec (.accessError .a false 0x200 false 0x2 false) t = .next u ∧ u.toChip.get Reg.HIF_ACC_ERR_ADDR_OFFSET = 0x104 ∧
    u.toChip.get Reg.HIF_ACC_ERR_INFO_PORT = 1 ∧ u.toChip.get Reg.HIF_ACC_ERR_INFO_COUNT = 2 :=
  ⟨_, _, rfl, rfl, by decide +kernel, by decide +kernel, by decide +kernel⟩

end Sys2Proof.Tests
end

