-- ==== Sys2Proof/Proofs/Unassigned.lean ====
section
/-! PROOF. Proofs/Unassigned.lean: the offsets of BAR0 from 0x0029_0000 on, where no register row and no window lies (R43). -/

namespace Sys2Proof.Machine

/-! ### Host access outside P3 (R468) -/

/-- Outside P3 a host access acts on the controller as it stands. -/
theorem State.access_of_awake {s : State} (h : s.awake) (f : Chip → Chip) : s.access f = .next (s.withChip (f s.toChip)) := by
  have w : s.toChip.accessWake = s.toChip := if_neg h
  unfold State.access
  rw [w]
  rfl

@[simp] theorem State.withChip_toChip (s : State) : s.withChip s.toChip = s := rfl

/-! ### The extent of a register row -/

/-- How far the last register of an array lies above its base. -/
def dimExtent (ds : List (Nat × Nat)) : Nat := (ds.map fun d => d.1 * (d.2 - 1)).sum

/-- An array holds no offset beyond its last register. -/
theorem le_dimExtent_of_dimIndex {ds : List (Nat × Nat)} {rem : Nat} {is : List Nat} (h : dimIndex ds rem = some is) :
    rem ≤ dimExtent ds := by
  induction ds generalizing rem is with
  | nil =>
    unfold dimIndex at h
    split at h
    · next e => exact e.le.trans (Nat.zero_le _)
    · cases h
  | cons d ds ih =>
    unfold dimIndex at h
    split at h
    · next lt =>
      obtain ⟨js, hj, -⟩ := Option.map_eq_some_iff.mp h
      calc rem = d.1 * (rem / d.1) + rem % d.1 := (Nat.div_add_mod rem d.1).symm
        _ ≤ d.1 * (d.2 - 1) + dimExtent ds := Nat.add_le_add (Nat.mul_le_mul_left _ (Nat.le_sub_one_of_lt lt)) (ih hj)
        _ = dimExtent (d :: ds) := rfl
    · cases h

/-- The last register of every row of the tables lies below 0x0029_0000 (R42). -/
theorem regTable_below_unassigned : ∀ r ∈ regTable, r.base + dimExtent r.dims < 0x290000 := by
  decide +kernel

/-- No register row holds an unassigned offset. -/
theorem rowAt_unassigned {off : Nat} (h : 0x290000 ≤ off) : rowAt off = none := by
  unfold rowAt
  rw [List.findSome?_eq_none_iff]
  intro r hr
  have below := regTable_below_unassigned r hr
  split
  · rfl
  · cases hi : dimIndex r.dims (off - r.base) with
    | none => rfl
    | some is =>
      have within := le_dimExtent_of_dimIndex hi
      omega

/-! ### Reads and writes of an unassigned offset (R43) -/

theorem fieldsAt_unassigned {off : Nat} (h : 0x290000 ≤ off) : fieldsAt off = [] := by
  simp [fieldsAt, rowAt_unassigned h]

theorem Chip.readWord_of_fieldsAt_nil {off : Nat} (h : fieldsAt off = []) (c : Chip) : c.readWord off = 0 := by
  simp [Chip.readWord, h]

theorem Chip.rcClear_of_fieldsAt_nil {off : Nat} (h : fieldsAt off = []) (c : Chip) (delta : Nat) : c.rcClear off delta = c := by
  simp [Chip.rcClear, h]

/-- No LO register lies above the blocks that hold one (R50). -/
theorem loAt_high {off : Nat} (h : 0xF0041 ≤ off) : loAt off = none := by
  unfold loAt
  rw [if_neg (by omega), if_neg (by omega), if_neg (by omega), if_neg (by omega), if_neg (by omega)]

/-- No capture stamp lies above ETM (R59). -/
theorem capAt_high {off : Nat} (h : 0x30100 ≤ off) (k : Nat) : capAt off k = none := if_neg (by omega)

/-- No HI register lies above the blocks that hold one (R50). -/
theorem hiLatch_high {off : Nat} (h : 0xF0045 ≤ off) : hiLatch off = none := by
  simp [hiLatch, capAt_high (by omega : 0x30100 ≤ off), loAt_high (by omega : 0xF0041 ≤ off - 4)]

/-- A read of an aligned unassigned offset is that of a register word: no semaphore, no pair and no window lies there. -/
theorem wordOff_unassigned {off : Nat} (h : 0x290000 ≤ off) (al : off % 4 = 0) : wordOff off = true := by
  simp only [wordOff, Bool.and_eq_true, decide_eq_true_eq]
  refine ⟨⟨⟨⟨⟨⟨⟨⟨⟨al, ?_⟩, loAt_high ?_⟩, capAt_high ?_ 4⟩, hiLatch_high ?_⟩, ?_⟩, ?_⟩, ?_⟩, ?_⟩, ?_⟩ <;> omega

theorem Chip.hostRead_unassigned (c : Chip) (p delta : Nat) {off : Nat} (h : 0x290000 ≤ off) (al : off % 4 = 0) :
    c.hostRead p false off delta = c.emit (.readData p 0) := by
  have nil := fieldsAt_unassigned h
  rw [Chip.hostRead_word c p off delta (wordOff_unassigned h al), Chip.rcClear_of_fieldsAt_nil nil,
    Chip.readWord_of_fieldsAt_nil nil]
  rfl

/-- No block and no window takes a write of an unassigned offset. -/
theorem Chip.writeBar0_unassigned (c : Chip) (p v : Nat) {off : Nat} (h : 0x290000 ≤ off) : c.writeBar0 p off v = c := by
  have block : 0x29 ≤ off / 0x10000 := by omega
  unfold Chip.writeBar0
  rw [if_neg (by omega), if_neg (by omega)]
  generalize off / 0x10000 = b at block
  split
  case h_10 => rfl
  all_goals omega

theorem Chip.hostWrite_unassigned (c : Chip) (p v : Nat) {off : Nat} (h : 0x290000 ≤ off) (al : off % 4 = 0) :
    c.hostWrite p false off v = c := by
  unfold Chip.hostWrite
  rw [if_neg (by omega), if_neg Bool.false_ne_true, Chip.writeBar0_unassigned c p v h]

/-! ### The host's commands outside P3 -/

/-- A write of one word of BAR0 by one port. -/
theorem exec_registerWrite_bar0 {s : State} (h : s.awake) (p : Port) (off : BitVec 24) (v : Word) :
    exec (.registerWrite p .bar0 off ⟨v, none⟩) s = .next (s.withChip (s.toChip.hostWrite p.num false off.toNat v.toNat)) :=
  State.access_of_awake h fun c => c.hostWrite p.num false off.toNat v.toNat

/-- A read of one word of BAR0. -/
theorem exec_rcFieldRead_bar0 {s : State} (h : s.awake) (p : Port) (off : BitVec 24) (delta : Nat) :
    exec (.rcFieldRead p ⟨.bar0, off⟩ delta) s = .next (s.withChip (s.toChip.hostRead p.num false off.toNat delta)) :=
  State.access_of_awake h fun c => c.hostRead p.num false off.toNat delta

/-- An access that is not one aligned access of 32 bits (R86). -/
theorem exec_accessError_of_not_word {s : State} (h : s.awake) (p : Port) (bar2 : Bool) (off : BitVec 24) (write : Bool)
    {be : BitVec 4} {wide : Bool} (bad : ¬(be = 0xF ∧ wide = false ∧ off.toNat % 4 = 0)) :
    exec (.accessError p bar2 off write be wide) s =
      .next (s.withChip (s.toChip.accessError p.num bar2 off.toNat write be.toNat wide)) := by
  have run := State.access_of_awake h fun c =>
    if be = 0xF ∧ wide = false ∧ off.toNat % 4 = 0 then c else c.accessError p.num bar2 off.toNat write be.toNat wide
  rwa [if_neg bad] at run

/-- Settles O9: no register row and no window reaches 0x0029_0000, and an access that is not aligned never gets as far as the map. -/
theorem unassignedOffsetsDiscardWrites : Obligations.UnassignedOffsetsDiscardWrites := by
  intro p off v s awake high
  refine ⟨Chip.readWord_of_fieldsAt_nil (fieldsAt_unassigned high) _, fun al => ⟨?_, fun delta => ?_⟩, fun w wide be bad => ?_⟩
  · rw [exec_registerWrite_bar0 awake, Chip.hostWrite_unassigned _ _ _ high al, State.withChip_toChip]
  · rw [exec_rcFieldRead_bar0 awake, Chip.hostRead_unassigned _ _ _ high al]
  · exact exec_accessError_of_not_word awake p false off w bad

end Sys2Proof.Machine
end

