-- ==== Sys2Proof/Proofs/EventRules.lean ====
section
/-! PROOF. Proofs/EventRules.lean: the raise of an event as later proofs use it: what it changes and what it leaves (R492), and signed fields as they are written and read (R12). -/

namespace Sys2Proof.Machine

/-! ### What an event changes and what it leaves -/

section
variable {c d : Chip}

theorem Chip.sameBut5_et (h : c.sameBut5 d) : d.et = c.et := by unfold Chip.sameBut5 at h; rw [h]
theorem Chip.sameBut5_servo (h : c.sameBut5 d) : d.servo = c.servo := by unfold Chip.sameBut5 at h; rw [h]
theorem Chip.sameBut5_stepSum (h : c.sameBut5 d) : d.stepSum = c.stepSum := by unfold Chip.sameBut5 at h; rw [h]

end

section
variable (c : Chip) (src cause : Nat) (items : List (Nat × Nat))

@[simp] theorem Chip.raise_et : (c.raise src cause items).et = c.et := Chip.sameBut5_et (Chip.raise_rest ..)
@[simp] theorem Chip.raise_servo : (c.raise src cause items).servo = c.servo := Chip.sameBut5_servo (Chip.raise_rest ..)
@[simp] theorem Chip.raise_stepSum : (c.raise src cause items).stepSum = c.stepSum := Chip.sameBut5_stepSum (Chip.raise_rest ..)

end

/-- A field outside the event block reads after a raise as before it. -/
theorem Chip.get_raise (c : Chip) {src : Nat} (cause : Nat) (items : List (Nat × Nat)) {f : Field} (hs : src < 256) (l : f.lo < 32)
    (o : f.off < 0x20000 ∨ 0x22000 ≤ f.off) : (c.raise src cause items).get f = c.get f :=
  Chip.raise_regs c src cause items hs f l o

/-- A raise tells its source and cause of whatever has the same EVT.SEQ before it. -/
theorem Chip.tells_raise {c d : Chip} {src cause : Nat} (items : List (Nat × Nat))
    (seq : d.get Reg.EVT_SEQ_NEXT = c.get Reg.EVT_SEQ_NEXT) (hs : src < 256) (hc : cause < 256) :
    c.tells (d.raise src cause items) src cause :=
  ⟨by rw [Chip.raise_seq d src cause items hs, seq], Chip.raise_source d src cause items hs,
    Chip.raise_cause d src cause items hs hc, Chip.raise_class d src cause items hs⟩

/-- What has been told stays told while EVT.SEQ and EVT.LAST are left alone. -/
theorem Chip.tells_congr {c d e : Chip} {src cause : Nat} (h : c.tells d src cause)
    (k : ∀ f : Field, f.lo < 32 → f.off < 0x22000 → e.get f = d.get f) : c.tells e src cause := by
  obtain ⟨seq, source, cse, cls⟩ := h
  exact ⟨(k _ (by decide) (by decide)).trans seq, (k _ (by decide) (by decide)).trans source,
    (k _ (by decide) (by decide)).trans cse, (k _ (by decide) (by decide)).trans cls⟩

theorem Chip.keepsRegs_trans {a b d : Chip} {offs : List Nat} (h : a.keepsRegs b offs) (k : b.keepsRegs d offs) :
    a.keepsRegs d offs :=
  fun f l o n => (k f l o n).trans (h f l o n)

theorem Chip.keepsRegs_put (c : Chip) {f : Field} (v : Nat) {offs : List Nat} (l : f.lo < 32) (h : f.off ∈ offs) :
    c.keepsRegs (c.put f v) offs :=
  fun g gl _ n => Chip.get_put_off c f g v l gl fun e => n (e ▸ h)

theorem Chip.keepsRegs_raise (c : Chip) {src : Nat} (cause : Nat) (items : List (Nat × Nat)) (offs : List Nat) (hs : src < 256) :
    c.keepsRegs (c.raise src cause items) offs :=
  fun _ l o _ => Chip.get_raise c cause items hs l o

theorem Chip.keepsRegs_of_regs {c d : Chip} (h : d.regs = c.regs) (offs : List Nat) : c.keepsRegs d offs :=
  fun f _ _ _ => Chip.get_congr h f

/-! ### Signed fields -/

/-- A signed field just set reads as the value set, if the field can hold it (R12). -/
theorem Chip.getI_putI (c : Chip) (f : Field) {v : Int} (lo : -2 ^ (f.width - 1) ≤ v) (hi : v < 2 ^ (f.width - 1)) (w : 0 < f.width) :
    (c.putI f v).getI f = v := by
  unfold Chip.getI Chip.putI signed unsigned
  rw [Chip.get_put_self, Nat.mod_eq_of_lt (BitVec.isLt _), BitVec.ofNat_toNat, BitVec.setWidth_eq]
  exact BitVec.toInt_ofInt_eq_self w lo hi

/-- RATE is held within ±1,000 ppm. -/
theorem clampRate_bounds (r : Int) : -4294967 ≤ clampRate r ∧ clampRate r ≤ 4294967 := by
  unfold clampRate clampI
  omega

/-- RATE reads as the rate set, held within ±1,000 ppm (R47). -/
theorem Chip.getI_setRate (c : Chip) (r : Int) : (c.setRate r).getI Reg.ETM_RATE_RATE = clampRate r := by
  have h := clampRate_bounds r
  refine Chip.getI_putI c _ ?_ ?_ (by decide)
  · exact le_trans (by decide) h.1
  · exact lt_of_le_of_lt h.2 (by decide)

theorem Chip.getI_congr {c d : Chip} {f : Field} (h : d.get f = c.get f) : d.getI f = c.getI f := by
  unfold Chip.getI
  rw [h]

theorem Chip.flag_congr {c d : Chip} {f : Field} (h : d.get f = c.get f) : d.flag f = c.flag f := by
  unfold Chip.flag
  rw [h]

end Sys2Proof.Machine
end

