-- ==== Sys2Proof/Proofs/TimeRun.lean ====
section
/-! PROOF. Proofs/TimeRun.lean: the run of time (R46, R47, R54): what ET gains and ERA counts on it, with or without alarms on its way. -/

namespace Sys2Proof.Machine

/-! ### The rate (R47) -/

/-- A nanosecond of the reference always adds to ET, and less than 2 ns. -/
theorem Chip.etPerNs_bounds (c : Chip) : 0 < c.etPerNs ∧ c.etPerNs < 2 ^ 49 := by
  have h := clampRate_bounds (c.getI Reg.ETM_RATE_RATE)
  unfold Chip.etPerNs
  omega

theorem Chip.etPerNs_congr {c d : Chip} (h : d.get Reg.ETM_RATE_RATE = c.get Reg.ETM_RATE_RATE) : d.etPerNs = c.etPerNs := by
  unfold Chip.etPerNs
  rw [Chip.getI_congr h]

/-- What ET gains, in 2^-48 ns, until a model time (R47). -/
def Chip.etGain (c : Chip) (t : Nat) : Nat := (c.etPerNs * (4 * (t / 4 - c.clk / 4) : Nat)).toNat

/-- The gain of a run of time is that of its two parts. -/
theorem Chip.etGain_add {c d : Chip} {t : Nat} (rate : d.etPerNs = c.etPerNs) (h : c.clk ≤ d.clk) (k : d.clk ≤ t) :
    c.etGain d.clk + d.etGain t = c.etGain t := by
  have pos := c.etPerNs_bounds.1.le
  have split : t / 4 - c.clk / 4 = (d.clk / 4 - c.clk / 4) + (t / 4 - d.clk / 4) := by omega
  unfold Chip.etGain
  rw [rate, ← Int.toNat_add (by positivity) (by positivity), split]
  congr 1
  push_cast
  ring

/-! ### One run of time without an alarm -/

/-- ERA after n wraps (R54, R66). -/
def eraAfter (era : Nat) : Nat → Nat
  | 0 => era
  | n + 1 => (eraAfter era n + 1) % 2 ^ 16

theorem eraAfter_add (era m n : Nat) : eraAfter (eraAfter era m) n = eraAfter era (m + n) := by
  induction n with
  | zero => rfl
  | succ n ih => exact congrArg (fun e => (e + 1) % 2 ^ 16) ih

/-- n wraps of ET, each told as EV231 (R54). -/
def Chip.wrapped (c : Chip) (n : Nat) : Chip :=
  (List.range n).foldl (fun (c : Chip) _ =>
    let c := { c with wraps := c.wraps + 1 }
    let era := c.get Reg.ETM_ERA_ERA + 1
    (c.put Reg.ETM_ERA_ERA era).raise 231 0 [(2, era % 65536)]) c

theorem Chip.wrapped_succ (c : Chip) (n : Nat) :
    c.wrapped (n + 1) = ((({ c.wrapped n with wraps := (c.wrapped n).wraps + 1 } : Chip).put Reg.ETM_ERA_ERA
      ((c.wrapped n).get Reg.ETM_ERA_ERA + 1)).raise 231 0 [(2, ((c.wrapped n).get Reg.ETM_ERA_ERA + 1) % 65536)]) := by
  unfold Chip.wrapped
  rw [List.range_succ, List.foldl_append]
  rfl

theorem Chip.pass_eq_wrapped (c : Chip) (ns : Nat) :
    c.pass ns = ({ c with et := BitVec.ofNat 96 (c.et.toNat + c.etGain (c.clk + ns)), clk := c.clk + ns } : Chip).wrapped
      (min ((c.et.toNat + c.etGain (c.clk + ns)) / 2 ^ 96) 4) := rfl

theorem Chip.wrapped_et (c : Chip) (n : Nat) : (c.wrapped n).et = c.et := by
  induction n with
  | zero => rfl
  | succ n ih => rw [Chip.wrapped_succ, Chip.raise_et, Chip.put_et]; exact ih

/-- Fields that the run of time leaves: all but ERA, those of the event block, and those of the loop engine and beyond, where the
alarms stand. -/
abbrev Field.timeless (f : Field) : Prop :=
  f.lo < 32 ∧ (f.off < 0x20000 ∨ 0x22000 ≤ f.off) ∧ f.off < 0xd1000 ∧ f.key ≠ Reg.ETM_ERA_ERA.key

theorem Chip.get_wrapped (c : Chip) (n : Nat) {f : Field} (h : f.timeless) : (c.wrapped n).get f = c.get f := by
  obtain ⟨lo, out, -, ne⟩ := h
  induction n with
  | zero => rfl
  | succ n ih => rw [Chip.wrapped_succ, Chip.get_raise _ _ _ (by decide) lo out, Chip.get_put_ne _ _ _ _ ne]; exact ih

theorem Chip.wrapped_era (c : Chip) (n : Nat) : (c.wrapped n).get Reg.ETM_ERA_ERA = eraAfter (c.get Reg.ETM_ERA_ERA) n := by
  induction n with
  | zero => rfl
  | succ n ih => rw [Chip.wrapped_succ, Chip.get_raise _ _ _ (by decide) (by decide) (by decide), Chip.get_put_self, ih]; rfl

theorem Chip.pass_et (c : Chip) (ns : Nat) : (c.pass ns).et.toNat = (c.et.toNat + c.etGain (c.clk + ns)) % 2 ^ 96 := by
  rw [Chip.pass_eq_wrapped, Chip.wrapped_et]
  exact BitVec.toNat_ofNat ..

theorem Chip.get_pass (c : Chip) (ns : Nat) {f : Field} (h : f.timeless) : (c.pass ns).get f = c.get f := by
  rw [Chip.pass_eq_wrapped, Chip.get_wrapped _ _ h]
  rfl

theorem Chip.pass_era (c : Chip) (ns : Nat) (h : (c.et.toNat + c.etGain (c.clk + ns)) / 2 ^ 96 ≤ 4) :
    (c.pass ns).get Reg.ETM_ERA_ERA = eraAfter (c.get Reg.ETM_ERA_ERA) ((c.et.toNat + c.etGain (c.clk + ns)) / 2 ^ 96) := by
  rw [Chip.pass_eq_wrapped, Chip.wrapped_era, Nat.min_eq_left h]
  rfl

/-! ### Alarms on the way (R370) -/

@[simp] theorem Chip.tellAlarm_et (c : Chip) (s : Nat) (set : Bool) (e : Int) : (c.tellAlarm s set e).et = c.et :=
  Chip.sameBut5_et (Chip.tellAlarm_rest ..)

@[simp] theorem Chip.tellAlarm_clk (c : Chip) (s : Nat) (set : Bool) (e : Int) : (c.tellAlarm s set e).clk = c.clk :=
  Chip.sameBut5_clk (Chip.tellAlarm_rest ..)

/-- An alarm writes no register below the loop engine's. -/
theorem Chip.get_tellAlarm (c : Chip) (s : Nat) (set : Bool) (e : Int) {f : Field} (lo : f.lo < 32)
    (out : f.off < 0x20000 ∨ 0x22000 ≤ f.off) (low : f.off < 0xd1000) : (c.tellAlarm s set e).get f = c.get f := by
  have far : f.off ≠ (Reg.LOP_LS_STATUS_ALARM s).off := by
    show f.off ≠ 0xd104c + 0x80 * s
    omega
  unfold Chip.tellAlarm Chip.putB
  rw [Chip.get_raise _ _ _ (by decide) lo out]
  exact Chip.get_put_off c _ f _ (by show 4 < 32; omega) lo far

/-- What holds of a run of time without an alarm, and of a run with an alarm on its way if it holds of the rest after the alarm,
holds of every run of time. -/
theorem Chip.passTo_induct {P : Chip → Chip → Prop} (t : Nat)
    (last : ∀ c : Chip, c.clk ≤ t → P c (c.pass (t - c.clk)))
    (alarm : ∀ (c d : Chip) (w s : Nat) (set : Bool) (e : Int), c.clk + w ≤ t → P ((c.pass w).tellAlarm s set e) d → P c d) :
    ∀ (k : Nat) (c : Chip), c.clk ≤ t → P c (c.passTo t k) := by
  intro k
  induction k with
  | zero => exact last
  | succ k ih =>
    intro c h
    unfold Chip.passTo
    split
    · exact last c h
    · next a _ =>
      dsimp only
      generalize (if a.1 ≤ c.loopTick then 0 else c.nsUntil (c.tickEt a.1)) = w
      split
      · next within =>
        refine alarm c _ w a.2 true _ within (ih _ ?_)
        rw [Chip.tellAlarm_clk, Chip.pass_clk]
        exact within
      · exact last c h

theorem Chip.get_passTo {f : Field} (h : f.timeless) (t k : Nat) (c : Chip) (le : c.clk ≤ t) : (c.passTo t k).get f = c.get f := by
  refine Chip.passTo_induct (P := fun c d => d.get f = c.get f) t (fun c _ => Chip.get_pass c _ h) ?_ k c le
  intro c d w s set e _ ih
  rw [ih, Chip.get_tellAlarm _ _ _ _ h.1 h.2.1 h.2.2.1, Chip.get_pass _ _ h]

/-- The run up to an alarm and the rest make one gain. -/
theorem Chip.etGain_alarm (c : Chip) {w t : Nat} (s : Nat) (set : Bool) (e : Int) (h : c.clk + w ≤ t) :
    c.etGain (c.clk + w) + ((c.pass w).tellAlarm s set e).etGain t = c.etGain t := by
  have clk : ((c.pass w).tellAlarm s set e).clk = c.clk + w := by rw [Chip.tellAlarm_clk, Chip.pass_clk]
  have rate : ((c.pass w).tellAlarm s set e).etPerNs = c.etPerNs := by
    refine Chip.etPerNs_congr ?_
    rw [Chip.get_tellAlarm _ _ _ _ (by decide) (by decide) (by decide), Chip.get_pass _ _ (by decide)]
  have sum := Chip.etGain_add (t := t) rate (by omega) (by omega)
  rwa [clk] at sum

/-- ET grows by the gain of the whole run, whatever alarms are set on the way. -/
theorem Chip.passTo_et (t k : Nat) (c : Chip) (le : c.clk ≤ t) :
    (c.passTo t k).et.toNat = (c.et.toNat + c.etGain t) % 2 ^ 96 := by
  refine Chip.passTo_induct (P := fun c d => d.et.toNat = (c.et.toNat + c.etGain t) % 2 ^ 96) t ?_ ?_ k c le
  · intro c h
    rw [Chip.pass_et, Nat.add_sub_cancel' h]
  · intro c d w s set e h ih
    rw [ih, Chip.tellAlarm_et, Chip.pass_et, ← Chip.etGain_alarm c s set e h, Nat.mod_add_mod, Nat.add_assoc]

/-- ERA counts the wraps of the whole run, where they are few. -/
theorem Chip.passTo_era (t k : Nat) (c : Chip) (le : c.clk ≤ t) (few : (c.et.toNat + c.etGain t) / 2 ^ 96 ≤ 4) :
    (c.passTo t k).get Reg.ETM_ERA_ERA = eraAfter (c.get Reg.ETM_ERA_ERA) ((c.et.toNat + c.etGain t) / 2 ^ 96) := by
  refine Chip.passTo_induct (P := fun c d => (c.et.toNat + c.etGain t) / 2 ^ 96 ≤ 4 →
    d.get Reg.ETM_ERA_ERA = eraAfter (c.get Reg.ETM_ERA_ERA) ((c.et.toNat + c.etGain t) / 2 ^ 96)) t ?_ ?_ k c le few
  · intro c h few
    have all : c.clk + (t - c.clk) = t := Nat.add_sub_cancel' h
    rw [Chip.pass_era c _ (by rwa [all]), all]
  · intro c d w s set e h ih few
    have sum := Chip.etGain_alarm c s set e h
    have et := Chip.pass_et c w
    rw [Chip.tellAlarm_et, et] at ih
    rw [ih (by omega), Chip.get_tellAlarm _ _ _ _ (by decide) (by decide) (by decide), Chip.pass_era c w (by omega), eraAfter_add]
    congr 1
    omega

/-! ### Time advanced -/

theorem Chip.advance_et (c : Chip) (ns : Nat) : (c.advance ns).et.toNat = (c.et.toNat + c.etGain (c.clk + ns)) % 2 ^ 96 :=
  Chip.passTo_et _ _ c (Nat.le_add_right ..)

theorem Chip.get_advanceTo (c : Chip) (t : Nat) {f : Field} (h : f.timeless) : (c.advanceTo t).get f = c.get f := by
  unfold Chip.advanceTo
  split
  · exact Chip.get_passTo h _ _ c (Nat.le_add_right ..)
  · rfl

/-- With no alarm to be set time runs on in one piece. -/
theorem Chip.advance_eq_pass {c : Chip} (h : c.nextAlarm = none) (ns : Nat) : c.advance ns = c.pass ns := by
  have piece : c.clk + ns - c.clk = ns := Nat.add_sub_cancel_left ..
  unfold Chip.advance
  cases c.slots.length with
  | zero => unfold Chip.passTo; rw [piece]
  | succ k => unfold Chip.passTo; rw [h]; dsimp only; rw [piece]

/-- While ET does not wrap and no alarm is to be set, ET and the model clock alone change. -/
theorem Chip.advance_of_no_wrap {c : Chip} {ns : Nat} (h : c.nextAlarm = none) (k : c.et.toNat + c.etGain (c.clk + ns) < 2 ^ 96) :
    c.advance ns = { c with et := (c.advance ns).et, clk := (c.advance ns).clk } := by
  rw [Chip.advance_eq_pass h, Chip.pass_eq_wrapped, Nat.div_eq_of_lt k]
  rfl

/-- A run over one wrap with no alarm to be set: ERA counts on, and EV231 is raised once (R54). -/
theorem Chip.advance_of_one_wrap {c : Chip} {ns : Nat} (h : c.nextAlarm = none) (k : (c.et.toNat + c.etGain (c.clk + ns)) / 2 ^ 96 = 1) :
    c.advance ns = ((({ c with et := (c.advance ns).et, clk := (c.advance ns).clk, wraps := c.wraps + 1 } : Chip).put Reg.ETM_ERA_ERA
      (c.get Reg.ETM_ERA_ERA + 1)).raise 231 0 [(2, (c.get Reg.ETM_ERA_ERA + 1) % 65536)]) := by
  have et : (c.pass ns).et = BitVec.ofNat 96 (c.et.toNat + c.etGain (c.clk + ns)) := by
    rw [Chip.pass_eq_wrapped, Chip.wrapped_et]
  rw [Chip.advance_eq_pass h, et, Chip.pass_clk, Chip.pass_eq_wrapped, k]
  rfl

/-! ### The wrap (R54) -/

/-- Nanoseconds of the reference until the tick at which ET wraps. -/
def Chip.nsToWrap (c : Chip) : Nat :=
  let perTick := (4 * c.etPerNs).toNat
  4 * ((2 ^ 96 - c.et.toNat + perTick - 1) / perTick)

theorem exec_etWrap (s : State) : exec .etWrap s = .next (s.withChip (s.toChip.advance s.toChip.nsToWrap)) := rfl

/-- The run to the wrap is of whole ticks, and what ET gains on it carries it over the wrap by less than one tick's gain. -/
theorem Chip.etGain_nsToWrap (c : Chip) : 0 < c.nsToWrap ∧ 2 ^ 96 ≤ c.et.toNat + c.etGain (c.clk + c.nsToWrap) ∧
    c.et.toNat + c.etGain (c.clk + c.nsToWrap) < 2 ^ 96 + 2 ^ 51 := by
  obtain ⟨pos, small⟩ := c.etPerNs_bounds
  obtain ⟨q, hq⟩ : ∃ q : Nat, c.etPerNs = q := ⟨_, (Int.toNat_of_nonneg pos.le).symm⟩
  have et := c.et.isLt
  have tick : (4 * c.etPerNs).toNat = 4 * q := by omega
  generalize hk : (2 ^ 96 - c.et.toNat + 4 * q - 1) / (4 * q) = k
  have ns : c.nsToWrap = 4 * k := by
    unfold Chip.nsToWrap
    dsimp only
    rw [tick, hk]
  have ticks : (c.clk + 4 * k) / 4 - c.clk / 4 = k := by omega
  have gain : c.etGain (c.clk + 4 * k) = 4 * q * k := by
    unfold Chip.etGain
    rw [ticks, hq, ← Int.natCast_mul, Int.toNat_natCast]
    ring
  have lower := Nat.lt_mul_div_succ (2 ^ 96 - c.et.toNat + 4 * q - 1) (show 0 < 4 * q by omega)
  have upper := Nat.mul_div_le (2 ^ 96 - c.et.toNat + 4 * q - 1) (4 * q)
  rw [hk] at lower upper
  rw [Nat.mul_add] at lower
  rw [ns, gain]
  refine ⟨?_, by omega, by omega⟩
  rcases Nat.eq_zero_or_pos k with z | z
  · subst z; omega
  · omega

/-- With no command waiting a step is one tick of 4 ns. -/
theorem step_of_idle {s : State} (h : s.pending = []) : step s = .next (s.withChip (s.toChip.advance 4)) := by
  unfold step
  rw [h]
  rfl

theorem Chip.etGain_eq_clampI (c : Chip) (t : Nat) :
    c.etGain t = ((2 ^ 48 + clampI (c.getI Reg.ETM_RATE_RATE) (-4294967) 4294967 * 2 ^ 16) * (4 * (t / 4 - c.clk / 4) : Nat)).toNat := rfl

/-- One tick gains 4 ns × (1 + ρ). -/
theorem Chip.etGain_tick (c : Chip) : c.etGain (c.clk + 4) =
    (4 * (2 ^ 48 + clampI (c.getI Reg.ETM_RATE_RATE) (-4294967) 4294967 * 2 ^ 16)).toNat := by
  have one : (c.clk + 4) / 4 - c.clk / 4 = 1 := by omega
  rw [Chip.etGain_eq_clampI, one, mul_comm]
  rfl

/-- A tick that leaves ET greater has not wrapped it. -/
theorem Chip.no_wrap_of_tick {c : Chip} (h : c.et.toNat < (c.advance 4).et.toNat) : c.et.toNat + c.etGain (c.clk + 4) < 2 ^ 96 := by
  obtain ⟨pos, small⟩ := c.etPerNs_bounds
  have one : (c.clk + 4) / 4 - c.clk / 4 = 1 := by omega
  have gain : c.etGain (c.clk + 4) < 2 ^ 96 := by
    unfold Chip.etGain
    rw [one]
    omega
  rw [Chip.advance_et] at h
  have et := c.et.isLt
  omega

/-- R47 of one step on an empty queue. -/
theorem idle_step_ticks {s : State} (h : s.pending = []) :
    ∃ t, step s = .next t ∧ t.clk = s.clk + 4 ∧ t.pending = [] ∧
      t.et.toNat = (s.et.toNat + (4 * (2 ^ 48 + clampI (s.toChip.getI Reg.ETM_RATE_RATE) (-4294967) 4294967 * 2 ^ 16)).toNat) % 2 ^ 96 ∧
      (s.et.toNat < t.et.toNat → s.toChip.nextAlarm = none → t = { s with et := t.et, clk := t.clk }) := by
  refine ⟨_, step_of_idle h, Chip.advance_clk .., h, ?_, fun grows still => ?_⟩
  · rw [← Chip.etGain_tick]
    exact Chip.advance_et ..
  · exact congrArg s.withChip (Chip.advance_of_no_wrap still (Chip.no_wrap_of_tick grows))

theorem Chip.advanceTo_of_le {c : Chip} {t : Nat} (h : t ≤ c.clk) : c.advanceTo t = c := if_neg (Nat.not_lt.mpr h)

theorem Chip.advanceTo_of_lt {c : Chip} {t : Nat} (h : c.clk < t) : c.advanceTo t = c.advance (t - c.clk) := if_pos h

theorem Chip.advanceTo_et (c : Chip) (t : Nat) : (c.advanceTo t).et.toNat = (c.et.toNat + c.etGain (max c.clk t)) % 2 ^ 96 := by
  rcases Nat.lt_or_ge c.clk t with lt | le
  · rw [Chip.advanceTo_of_lt lt, Chip.advance_et, Nat.max_eq_right lt.le, Nat.add_sub_cancel' lt.le]
  · have still : c.etGain (max c.clk t) = 0 := by simp [Chip.etGain, Nat.max_eq_left le]
    rw [Chip.advanceTo_of_le le, still]
    exact (Nat.mod_eq_of_lt c.et.isLt).symm

theorem Chip.advanceTo_of_no_wrap {c : Chip} {t : Nat} (k : c.et.toNat + c.etGain (max c.clk t) < 2 ^ 96) (h : c.nextAlarm = none) :
    c.advanceTo t = { c with et := (c.advanceTo t).et, clk := (c.advanceTo t).clk } := by
  rcases Nat.lt_or_ge c.clk t with lt | le
  · rw [Nat.max_eq_right lt.le] at k
    rw [Chip.advanceTo_of_lt lt]
    exact Chip.advance_of_no_wrap h (by rwa [Nat.add_sub_cancel' lt.le])
  · rw [Chip.advanceTo_of_le le]

/-- ERA after the run to the wrap. -/
theorem Chip.nsToWrap_era (c : Chip) :
    (c.advance c.nsToWrap).get Reg.ETM_ERA_ERA = (c.get Reg.ETM_ERA_ERA + 1) % 2 ^ Reg.ETM_ERA_ERA.width := by
  obtain ⟨-, wraps, less⟩ := c.etGain_nsToWrap
  have one : (c.et.toNat + c.etGain (c.clk + c.nsToWrap)) / 2 ^ 96 = 1 := by omega
  have era := Chip.passTo_era (c.clk + c.nsToWrap) c.slots.length c (Nat.le_add_right ..) (by omega)
  rwa [one] at era

/-- The wrap with no alarm on the way: EV231 once, and nothing else. -/
theorem Chip.wrap_without_alarm {c : Chip} (h : c.nextAlarm = none) :
    let d := c.advance c.nsToWrap
    c.tells d 231 0 ∧ c.keepsRegs d [Reg.ETM_ERA_ERA.off] ∧ { c with et := d.et, clk := d.clk, wraps := c.wraps + 1 }.sameBut5 d := by
  obtain ⟨-, wraps, less⟩ := c.etGain_nsToWrap
  have one : (c.et.toNat + c.etGain (c.clk + c.nsToWrap)) / 2 ^ 96 = 1 := by omega
  dsimp only
  have run := Chip.advance_of_one_wrap h one
  generalize c.advance c.nsToWrap = d at run
  generalize ha : ({ c with et := d.et, clk := d.clk, wraps := c.wraps + 1 } : Chip) = a at run
  have regs : a.regs = c.regs := by rw [← ha]
  rw [run]
  refine ⟨Chip.tells_raise _ ?_ (by decide) (by decide), ?_, ?_⟩
  · rw [Chip.get_put_ne _ _ _ _ (by decide)]
    exact Chip.get_congr regs _
  · refine Chip.keepsRegs_trans (Chip.keepsRegs_of_regs regs _) ?_
    exact Chip.keepsRegs_trans (Chip.keepsRegs_put a _ (by decide) (by decide)) (Chip.keepsRegs_raise _ _ _ _ (by decide))
  · exact Chip.sameBut5_trans (Chip.sameBut5_put ..) (Chip.raise_rest ..)

/-- Settles O3: a run of time with alarms on its way gains in ET what one piece would, so a run to the wrap wraps once. -/
theorem timeRunsByTheRate : Obligations.TimeRunsByTheRate := by
  refine ⟨fun s idle => idle_step_ticks idle, fun c t => ?_, fun s => ?_⟩
  · exact ⟨Chip.advanceTo_clk .., Chip.advanceTo_of_le, Chip.advanceTo_et .., Chip.advanceTo_of_no_wrap⟩
  · obtain ⟨ahead, wraps, less⟩ := s.toChip.etGain_nsToWrap
    refine ⟨_, exec_etWrap s, ?_, ?_, Chip.nsToWrap_era _, Chip.wrap_without_alarm⟩
    · have et := Chip.advance_et s.toChip s.toChip.nsToWrap
      have small : (s.toChip.advance s.toChip.nsToWrap).et.toNat / 2 ^ 32 < 2 ^ 20 := by omega
      exact lt_of_le_of_lt (Nat.mod_le ..) small
    · rw [Chip.advance_clk]
      omega

end Sys2Proof.Machine
end

