-- ==== Sys2Proof/Proofs/ServoLimits.lean ====
section
/-! PROOF. Proofs/ServoLimits.lean: a write of a register of ETM that holds one RW field (R17, R73). -/

namespace Sys2Proof.Machine

/-- A write of one aligned word of ETM is its block's (R42). -/
theorem exec_registerWrite_etm {s : State} (h : s.awake) (p : Port) (v : Word) {off : Nat} (block : off / 0x10000 = 3) (al : off % 4 = 0) :
    exec (.registerWrite p .bar0 (BitVec.ofNat 24 off) ⟨v, none⟩) s = .next (s.withChip (s.toChip.writeEtm off v.toNat)) := by
  have fits : (BitVec.ofNat 24 off).toNat = off := Nat.mod_eq_of_lt (by omega)
  rw [exec_registerWrite_bar0 h, fits]
  unfold Chip.hostWrite Chip.writeBar0 Chip.writeLow
  rw [if_neg (by omega), if_neg (by decide), if_pos (by omega), block]
  rfl

/-- The registers from ETM.STEP_THR to ETM.OFFSET take a write by their access codes alone. -/
theorem Chip.writeEtm_plain (c : Chip) {off : Nat} (v : Nat) (low : 0x30014 ≤ off) (high : off < 0x30028) :
    c.writeEtm off v = c.plainWrite off v := by
  unfold Chip.writeEtm
  rw [if_neg (by omega), if_neg (by omega), if_neg (by omega), if_neg (by omega), if_neg (by omega)]

/-- A register of one RW field takes a written word within the field's limits, whatever is locked (R17, R529). -/
theorem Chip.plainWrite_rw (c : Chip) {off : Nat} (v : Nat) {f : FieldSpec} (one : fieldsAt off = [f]) (rw : f.access = .rw) :
    c.plainWrite off v = c.put (f.at off) (f.value v) := by
  have free : c.changesRwl off v = false := by simp [Chip.changesRwl, one, rw]
  unfold Chip.plainWrite Chip.raiseIf Chip.writeFields
  rw [free, Bool.and_false, one]
  simp [Chip.writeField, rw]

/-- What a field at the low end of its register stores: the nearer limit of a value outside its range. -/
theorem fieldValue_of_lo_zero {f : FieldSpec} (h : f.lo = 0) (v : Nat) :
    f.value v = max f.min (min f.max (v % 2 ^ f.width)) := by
  unfold FieldSpec.value clampN bits
  rw [h, pow_zero, Nat.div_one]

/-- Settles O14: each of the two registers is one RW field whose limits are the table's. -/
theorem servoLimitsAreStoredAsTheNearerLimit : Obligations.ServoLimitsAreStoredAsTheNearerLimit := by
  intro p v s awake
  have stepThr : fieldsAt Reg.ETM_STEP_THR_NS.off = [⟨0, 20, .rw, 1000, false, 64, 1000000⟩] := by decide +kernel
  have slewLim : fieldsAt Reg.ETM_SLEW_LIM_PPM.off = [⟨0, 10, .rw, 100, false, 1, 1000⟩] := by decide +kernel
  refine ⟨?_, ?_⟩
  · rw [exec_registerWrite_etm awake p v (by decide) (by decide), Chip.writeEtm_plain _ _ (by decide) (by decide),
      Chip.plainWrite_rw _ _ stepThr rfl, fieldValue_of_lo_zero rfl]
    rfl
  · rw [exec_registerWrite_etm awake p v (by decide) (by decide), Chip.writeEtm_plain _ _ (by decide) (by decide),
      Chip.plainWrite_rw _ _ slewLim rfl, fieldValue_of_lo_zero rfl]
    rfl

end Sys2Proof.Machine
end

