-- ==== Sys2Proof/Proofs/ActionsInTime.lean ====
section
/-! PROOF. Proofs/ActionsInTime.lean: the frame of GO (R74) outside the states that a run reaches. -/

namespace Sys2Proof.Machine

/-! ### A trigger ball that its field cannot name

The frame of GO (R74) names IOX.GPIO_IN 0 and 1, since CAM.CTXn.TRIG_GPIO has 6 bits; but it is claimed of every state, also of one
whose register map holds 64 for that field. No write stores such a value (Chip.put keeps a field's low bits), so the witness is no state
a run reaches; GO then ends the exposure window of the context by showing ball 64, at the place of IOX.GPIO_OUT 0. -/

/-- Ball 64 as the trigger of context 0, and an exposure window of it that ends as ET reads 0. -/
def strayTrigger : State :=
  { State.reset with regs := [((Reg.CAM_CTX_TRIG_GPIO 0).key, 64)], camCtx := [(0, { windowEnd := some 0 })] }

/-- GO on the witness writes IOX.GPIO_OUT. -/
theorem setGo_strayTrigger : strayTrigger.toChip.setGo.get (Reg.IOX_GPIO_OUT_BITS 0) = 1 ∧
    strayTrigger.toChip.get (Reg.IOX_GPIO_OUT_BITS 0) = 0 := by decide +kernel

/-- A write of ETM.SET_CMD outside P3 with GO set (R74). -/
theorem exec_etSetGo {s : State} (h : s.awake) (p : Port) {v : Word} (go : v.getLsbD 0 = true) :
    exec (.etSetGo p v) s = .next (s.withChip s.toChip.setGo) := by
  have set : s.toChip.setCmd v.toNat = s.toChip.setGo := if_pos go
  rw [← set]
  exact State.access_of_awake h fun c => c.setCmd v.toNat

/-- Refutes O15: with TRIG_GPIO holding 64 the window that GO ends writes IOX.GPIO_OUT, outside the registers the statement names. -/
theorem not_actionsRunAtTheirTargets : ¬ Obligations.ActionsRunAtTheirTargets := by
  rintro ⟨-, -, go⟩
  have awake : strayTrigger.awake := by unfold State.awake; decide +kernel
  obtain ⟨loads, -, -⟩ := go .a 1 strayTrigger awake
  obtain ⟨d, run, -, -, keeps, -⟩ := loads (by decide) (by decide +kernel) (by decide +kernel)
  rw [exec_etSetGo awake .a (by decide)] at run
  have same : strayTrigger.toChip.setGo = d := congrArg State.toChip (Host.Outcome.next.inj run)
  obtain ⟨after, before⟩ := setGo_strayTrigger
  have kept := keeps (Reg.IOX_GPIO_OUT_BITS 0) (by decide) (by decide) (by decide)
  rw [← same, after, before] at kept
  exact absurd kept (by decide)

end Sys2Proof.Machine
end

