-- ==== Sys2Proof/Proofs/EncoderEdges.lean ====
section
/-! PROOF. Proofs/EncoderEdges.lean: edges of encoders and capture units (R57, R59, R329 to R331). -/

namespace Sys2Proof.Machine

/-! ### Registers written and nothing else -/

theorem Chip.onlyRegs_trans {a b d : Chip} {offs : List Nat} (h : a.onlyRegs b offs) (k : b.onlyRegs d offs) : a.onlyRegs d offs := by
  obtain ⟨hb, hget⟩ := h
  obtain ⟨kd, kget⟩ := k
  refine ⟨?_, fun f l n => (kget f l n).trans (hget f l n)⟩
  rw [hb] at kd
  exact kd

theorem Chip.onlyRegs_put (c : Chip) {f : Field} (v : Nat) {offs : List Nat} (l : f.lo < 32) (h : f.off ∈ offs) :
    c.onlyRegs (c.put f v) offs :=
  ⟨rfl, fun g gl n => Chip.get_put_off c f g v l gl fun e => n (e ▸ h)⟩

theorem Chip.onlyRegs_put64 (c : Chip) {lo hi : Field} (v : Nat) {offs : List Nat} (l : lo.lo < 32) (h : lo.off ∈ offs)
    (l' : hi.lo < 32) (h' : hi.off ∈ offs) : c.onlyRegs (c.put64 lo hi v) offs :=
  Chip.onlyRegs_trans (Chip.onlyRegs_put c _ l h) (Chip.onlyRegs_put _ _ l' h')

/-- A 64-bit value just put into two registers reads as put. -/
theorem Chip.get64_put64 (c : Chip) {lo hi : Field} {v : Nat} (h : v < 2 ^ 64) (wl : lo.width = 32) (wh : hi.width = 32)
    (ne : lo.key ≠ hi.key) : (c.put64 lo hi v).get64 lo hi = v := by
  unfold Chip.put64 Chip.get64
  rw [Chip.get_put_ne _ _ _ _ ne, Chip.get_put_self, Chip.get_put_self, wl, wh]
  omega

/-! ### Stamps (R57, R58) -/

/-- A stamp is in units of 0.5 ns. -/
theorem stampOf_toNat (t : ET) : (stampOf t).toNat = t.toNat / 2 ^ 15 * 2 ^ 15 := by
  have h := t.isLt
  exact Nat.mod_eq_of_lt (by omega)

@[simp] theorem Chip.enc_setEnc (c : Chip) (n : Nat) (x : EncX) : (c.setEnc n x).enc n = x := SMap.get_set_self ..

@[simp] theorem Chip.get_setEnc (c : Chip) (n : Nat) (x : EncX) (f : Field) : (c.setEnc n x).get f = c.get f := rfl

/-- A stamp that finds room in the queue. -/
theorem Chip.queueStamp_of_room {c : Chip} {n : Nat} {t : ET} (h : ((c.enc n).queue.filter fun u => later u t).length < 16) :
    ∃ q, c.queueStamp n t = (c.setEnc n { c.enc n with queue := q }, false) :=
  ⟨_, if_neg (Nat.not_le.mpr h)⟩

theorem Chip.onlyRegs_showStamp (c : Chip) (n t : Nat) {offs : List Nat} (lo : (Reg.ETM_ENC_TS_LO_TS_LO n).off ∈ offs)
    (hi : (Reg.ETM_ENC_TS_HI_TS_HI n).off ∈ offs) : c.onlyRegs (c.showStamp n t) offs :=
  Chip.onlyRegs_put64 c t (by show 0 < 32; omega) lo (by show 0 < 32; omega) hi

theorem Chip.get64_showStamp (c : Chip) (n : Nat) (t : ET) :
    (c.showStamp n t.toNat).get64 (Reg.ETM_ENC_TS_LO_TS_LO n) (Reg.ETM_ENC_TS_HI_TS_HI n) = t.toNat :=
  Chip.get64_put64 c t.isLt rfl rfl (by show (0x30080 + 8 * n) * 32 + 0 ≠ (0x30084 + 8 * n) * 32 + 0; omega)

/-- No register of MOT or CRN is an encoder's stamp. -/
theorem Chip.get_showStamp (c : Chip) (n t : Nat) {f : Field} (l : f.lo < 32) (h : 0x60000 ≤ f.off) (hn : n < 4) :
    (c.showStamp n t).get f = c.get f := by
  refine (Chip.onlyRegs_showStamp c n t (offs := [0x30080 + 8 * n, 0x30084 + 8 * n]) (by simp [Reg.ETM_ENC_TS_LO_TS_LO])
    (by simp [Reg.ETM_ENC_TS_HI_TS_HI])).2 f l ?_
  simp only [List.mem_cons, List.not_mem_nil, or_false]
  omega

/-! ### Edges that end no short pulse and make no illegal transition (R330) -/

/-- An edge that is found passes the test and is one of the recent edges. -/
theorem EncX.find_eq_some {x : EncX} {p : LastEdge → Bool} {e : LastEdge} {l o : List LastEdge} (h : x.find p = some (e, l, o)) :
    e ∈ x.recent ∧ p e = true := by
  unfold EncX.find at h
  split at h
  · cases h
  · next a older eq =>
    cases h
    refine ⟨(List.dropWhile_suffix _).mem (eq ▸ List.mem_cons_self ..), ?_⟩
    have head := List.head_dropWhile_not (fun e => !p e) (l := x.recent) (by rw [eq]; exact List.cons_ne_nil _ _)
    simpa [eq] using head

/-- With no recent edge of the other line near, an edge is taken. -/
theorem Chip.newEdge_eq_takeEdge {c : Chip} {n : Nat} {line : EncLine} {level : Bool} {t : ET}
    (legal : ∀ e ∈ (c.enc n).recent, ¬(c.get (Reg.MOT_ENC_CFG_MODE n) = 1 ∧ line ≠ .z ∧ e.line ≠ line ∧ e.line ≠ .z ∧
      |wrapDiff t e.stamp| < 131072)) :
    c.newEdge n line level t = c.takeEdge n line level t := by
  unfold Chip.newEdge
  dsimp only
  split
  · rfl
  · next quad =>
    split
    · next e l o found =>
      obtain ⟨mem, test⟩ := EncX.find_eq_some found
      rw [Bool.and_eq_true, decide_eq_true_eq, decide_eq_true_eq] at test
      obtain ⟨other, near⟩ := test
      have apart : line ≠ .z ∧ e.line ≠ line ∧ e.line ≠ .z := by
        cases line with
        | a => rw [Option.some.inj other]; decide
        | b => rw [Option.some.inj other]; decide
        | z => cases other
      exact absurd ⟨not_not.mp quad, apart.1, apart.2.1, apart.2.2, near⟩ (legal e mem)
    · rfl

/-- Outside P3 an edge that ends no short pulse and makes no illegal transition is taken. -/
theorem Chip.encEdge_eq_takeEdge {c : Chip} {n : Nat} {line : EncLine} {level : Bool} {stamp : ET} (awake : c.pstate ≠ 3)
    (moves : (c.enc n).level line ≠ level)
    (long : ∀ e ∈ (c.enc n).recent, ¬(e.line = line ∧
      wrapDiff (stampOf stamp) e.stamp < (163840 * c.get (Reg.MOT_ENC_CFG_FILT n) : Nat)))
    (legal : ∀ e ∈ (c.enc n).recent, ¬(c.get (Reg.MOT_ENC_CFG_MODE n) = 1 ∧ line ≠ .z ∧ e.line ≠ line ∧ e.line ≠ .z ∧
      |wrapDiff (stampOf stamp) e.stamp| < 131072)) :
    c.encEdge n line level stamp = c.takeEdge n line level (stampOf stamp) := by
  unfold Chip.encEdge
  dsimp only
  rw [if_neg awake, if_neg moves]
  split
  · next e l o found =>
    obtain ⟨mem, same⟩ := EncX.find_eq_some found
    rw [if_neg fun short => long e mem ⟨of_decide_eq_true same, short⟩]
    exact Chip.newEdge_eq_takeEdge legal
  · exact Chip.newEdge_eq_takeEdge legal

/-! ### Edges of A and B (R329) -/

theorem foldl_eq_self {α β : Type} {f : β → α → β} {b : β} {l : List α} (h : ∀ a ∈ l, f b a = b) : l.foldl f b = b := by
  induction l with
  | nil => rfl
  | cons a l ih =>
    rw [List.foldl_cons, h a (List.mem_cons_self ..)]
    exact ih fun x hx => h x (List.mem_cons_of_mem _ hx)

/-- Where no axis is geared no ratio change is reached. -/
theorem Chip.noteRatios_of_ungeared {c : Chip} (n : Nat) (h : ∀ a, a < 8 → c.axMode a ≠ 4) : c.noteRatios n = c :=
  foldl_eq_self fun a ha => if_neg fun k => h a (List.mem_range.mp ha) k.1

theorem Chip.deliverEdge_of_not_traverse {c : Chip} {n : Nat} (t : ET) (h : c.isTraverse n = false) : c.deliverEdge n t = c :=
  if_neg (Bool.not_eq_true _ ▸ h)

/-- A counted edge of an encoder that neither the cornice nor a geared axis follows moves the count and is stamped. -/
theorem Chip.countEdge_eq {c : Chip} {n : Nat} {line : EncLine} {t : ET} (hn : n < 4)
    (counts : countStep (c.get (Reg.MOT_ENC_CFG_MODE n)) line (c.enc n).a (c.enc n).b ≠ 0)
    (room : ((c.enc n).queue.filter fun u => later u t).length < 16) (apart : c.isTraverse n = false)
    (ungeared : ∀ a, a < 8 → c.axMode a ≠ 4) :
    ∃ q, c.countEdge n line t = ((c.setEnc n { c.enc n with queue := q }).putI (Reg.MOT_ENC_COUNT_COUNT n)
      ((c.get (Reg.MOT_ENC_COUNT_COUNT n) : Int) + (if c.flag (Reg.MOT_ENC_CFG_INVERT n) then -1 else 1) *
        countStep (c.get (Reg.MOT_ENC_CFG_MODE n)) line (c.enc n).a (c.enc n).b)).showStamp n t.toNat := by
  generalize hs : countStep (c.get (Reg.MOT_ENC_CFG_MODE n)) line (c.enc n).a (c.enc n).b = step at counts
  have sign : (if c.flag (Reg.MOT_ENC_CFG_INVERT n) then -step else step) =
      (if c.flag (Reg.MOT_ENC_CFG_INVERT n) then -1 else 1) * step := by split <;> simp
  generalize hv : (c.get (Reg.MOT_ENC_COUNT_COUNT n) : Int) + (if c.flag (Reg.MOT_ENC_CFG_INVERT n) then -1 else 1) * step = v
  obtain ⟨q, queued⟩ := Chip.queueStamp_of_room (c := c.putI (Reg.MOT_ENC_COUNT_COUNT n) v) (n := n) (t := t) room
  refine ⟨q, ?_⟩
  have away : ∀ f : Field, f.lo < 32 → 0x60000 ≤ f.off → f.off ≠ 0xc0104 + 0x20 * n →
      (((c.putI (Reg.MOT_ENC_COUNT_COUNT n) v).setEnc n { c.enc n with queue := q }).showStamp n t.toNat).get f = c.get f := by
    intro f l h ne
    rw [Chip.get_showStamp _ _ _ l h hn, Chip.get_setEnc]
    exact Chip.get_put_off c _ f _ (by show 0 < 32; omega) l ne
  unfold Chip.countEdge
  dsimp only
  rw [hs, if_neg counts, sign, hv, queued]
  dsimp only
  rw [if_neg (by decide), Chip.deliverEdge_of_not_traverse, Chip.noteRatios_of_ungeared]
  · rfl
  · intro a ha
    unfold Chip.axMode
    exact (away (Reg.MOT_AX_STATUS_MODE a) (by show 0 < 32; omega)
      (by show 0x60000 ≤ 0xc1028 + 0x100 * a; omega) (by show 0xc1028 + 0x100 * a ≠ _; omega)).symm ▸ ungeared a ha
  · unfold Chip.isTraverse at apart ⊢
    rw [← apart]
    congr 2
    exact away Reg.CRN_TRAV_CFG_ENC (by decide) (by decide) (by show 0x6000c ≠ _; omega)

/-- The offsets at which an edge of A or B is counted and stamped. -/
def edgeOffs (n : Nat) : List Nat :=
  [(Reg.MOT_ENC_COUNT_COUNT n).off, (Reg.ETM_ENC_TS_LO_TS_LO n).off, (Reg.ETM_ENC_TS_HI_TS_HI n).off]

/-- An edge of A or B that is taken moves the count and is stamped, and nothing else changes but its encoder. -/
theorem Chip.takeEdge_counts {c : Chip} {n : Nat} {line : EncLine} {level : Bool} {t : ET} {y : EncX} (hn : n < 4) (ab : line ≠ .z)
    (lines : (c.enc n).put line level = y)
    (counts : countStep (c.get (Reg.MOT_ENC_CFG_MODE n)) line y.a y.b ≠ 0)
    (room : ((c.enc n).queue.filter fun u => later u t).length < 16) (apart : c.isTraverse n = false)
    (ungeared : ∀ a, a < 8 → c.axMode a ≠ 4) :
    let d := c.takeEdge n line level t
    d.get (Reg.MOT_ENC_COUNT_COUNT n) = unsigned 32 ((c.get (Reg.MOT_ENC_COUNT_COUNT n) : Int) +
      (if c.flag (Reg.MOT_ENC_CFG_INVERT n) then -1 else 1) * countStep (c.get (Reg.MOT_ENC_CFG_MODE n)) line y.a y.b) ∧
    d.get64 (Reg.ETM_ENC_TS_LO_TS_LO n) (Reg.ETM_ENC_TS_HI_TS_HI n) = t.toNat ∧ (d.enc n).a = y.a ∧ (d.enc n).b = y.b ∧
    { c with encs := d.encs }.onlyRegs d (edgeOffs n) := by
  dsimp only
  obtain ⟨marked, run, ha, hb, hq⟩ : ∃ x, c.takeEdge n line level t = (c.setEnc n x).countEdge n line t ∧ x.a = y.a ∧ x.b = y.b ∧
      x.queue = (c.enc n).queue := by
    subst lines
    cases line with
    | a => exact ⟨_, rfl, rfl, rfl, rfl⟩
    | b => exact ⟨_, rfl, rfl, rfl, rfl⟩
    | z => exact absurd rfl ab
  have own : (c.setEnc n marked).enc n = marked := Chip.enc_setEnc ..
  obtain ⟨q, counted⟩ := Chip.countEdge_eq (c := c.setEnc n marked) (line := line) (t := t) hn
    (by rw [own, ha, hb]; exact counts) (by rw [own, hq]; exact room) apart ungeared
  rw [own, ha, hb] at counted
  rw [run, counted]
  refine ⟨?_, Chip.get64_showStamp .., ?_, ?_, ?_⟩
  · rw [Chip.get_showStamp _ _ _ (by show 0 < 32; omega) (by show 0x60000 ≤ 0xc0104 + 0x20 * n; omega) hn]
    unfold Chip.putI
    rw [Chip.get_put_self]
    exact Nat.mod_eq_of_lt (BitVec.isLt _)
  · exact (congrArg EncX.a (Chip.enc_setEnc ..)).trans ha
  · exact (congrArg EncX.b (Chip.enc_setEnc ..)).trans hb
  · exact Chip.onlyRegs_trans (Chip.onlyRegs_put _ _ (by show 0 < 32; omega) (by simp [edgeOffs]))
      (Chip.onlyRegs_showStamp _ _ _ (by simp [edgeOffs]) (by simp [edgeOffs]))

/-! ### Edges of Z (R331) -/

/-- The offsets at which an edge of Z is latched and stamped. -/
def zOffs (n : Nat) : List Nat :=
  [(Reg.MOT_ENC_ZLATCH_COUNT n).off, (Reg.MOT_ENC_STATUS_ZVALID n).off, (Reg.ETM_ENC_TS_LO_TS_LO n).off,
    (Reg.ETM_ENC_TS_HI_TS_HI n).off]

/-- A rising edge of Z copies the count, where Z_EN is set. -/
theorem Chip.latchZ_copies {c : Chip} {n : Nat} (en : c.flag (Reg.MOT_ENC_CFG_Z_EN n) = true) :
    (c.latchZ n).get (Reg.MOT_ENC_ZLATCH_COUNT n) = c.get (Reg.MOT_ENC_COUNT_COUNT n) % 2 ^ 32 ∧
    (c.latchZ n).get (Reg.MOT_ENC_STATUS_ZVALID n) = 1 ∧ c.onlyRegs (c.latchZ n) (zOffs n) ∧
    ∀ f : Field, f.lo < 32 → f.off < 0x60000 → (c.latchZ n).get f = c.get f := by
  unfold Chip.latchZ
  rw [if_pos en]
  refine ⟨?_, Chip.get_put_self .., ?_, fun f l low => ?_⟩
  · rw [Chip.get_put_off _ _ _ _ (by show 0 < 32; omega) (by show 0 < 32; omega)
      (by show 0xc0108 + 0x20 * n ≠ 0xc0110 + 0x20 * n; omega), Chip.get_put_self]
    rfl
  · exact Chip.onlyRegs_trans (Chip.onlyRegs_put _ _ (by show 0 < 32; omega) (by simp [zOffs]))
      (Chip.onlyRegs_put _ _ (by show 0 < 32; omega) (by simp [zOffs]))
  · rw [Chip.get_put_off _ _ _ _ (by show 0 < 32; omega) l (by show f.off ≠ 0xc0110 + 0x20 * n; omega),
      Chip.get_put_off _ _ _ _ (by show 0 < 32; omega) l (by show f.off ≠ 0xc0108 + 0x20 * n; omega)]

/-- A rising edge of Z is stamped where edges count, and then latched. -/
theorem Chip.zEdge_eq {c : Chip} {n : Nat} {t : ET} (room : ((c.enc n).queue.filter fun u => later u t).length < 16) :
    ∃ e : Chip, c.zEdge n true t = e.latchZ n ∧ { c with encs := e.encs }.onlyRegs e [(Reg.ETM_ENC_TS_LO_TS_LO n).off,
      (Reg.ETM_ENC_TS_HI_TS_HI n).off] ∧ (e.enc n).z = (c.enc n).z ∧ (c.get (Reg.MOT_ENC_CFG_MODE n) ≠ 0 →
      e.get64 (Reg.ETM_ENC_TS_LO_TS_LO n) (Reg.ETM_ENC_TS_HI_TS_HI n) = t.toNat) := by
  obtain ⟨q, queued⟩ := Chip.queueStamp_of_room room
  unfold Chip.zEdge
  dsimp only
  by_cases off : c.get (Reg.MOT_ENC_CFG_MODE n) = 0
  · rw [if_pos off]
    exact ⟨c, rfl, ⟨rfl, fun _ _ _ => rfl⟩, rfl, fun on => absurd off on⟩
  · rw [if_neg off, queued]
    refine ⟨_, rfl, ?_, ?_, fun _ => ?_⟩
    · exact Chip.onlyRegs_showStamp (c.setEnc n _) _ _ (by simp) (by simp)
    · show ((c.setEnc n { c.enc n with queue := q }).enc n).z = (c.enc n).z
      rw [Chip.enc_setEnc]
    · exact Chip.get64_showStamp ..

/-- A rising edge of Z that is taken copies the count, and is stamped where edges count. -/
theorem Chip.takeEdge_latches {c : Chip} {n : Nat} {t : ET} (hn : n < 4) (en : c.flag (Reg.MOT_ENC_CFG_Z_EN n) = true)
    (room : ((c.enc n).queue.filter fun u => later u t).length < 16) :
    let d := c.takeEdge n .z true t
    d.get (Reg.MOT_ENC_ZLATCH_COUNT n) = c.get (Reg.MOT_ENC_COUNT_COUNT n) % 2 ^ 32 ∧
    d.get (Reg.MOT_ENC_STATUS_ZVALID n) = 1 ∧ (d.enc n).z = true ∧
    (c.get (Reg.MOT_ENC_CFG_MODE n) ≠ 0 →
      d.get64 (Reg.ETM_ENC_TS_LO_TS_LO n) (Reg.ETM_ENC_TS_HI_TS_HI n) = t.toNat) ∧
    { c with encs := d.encs }.onlyRegs d (zOffs n) := by
  dsimp only
  obtain ⟨marked, run, hz, hq⟩ : ∃ x, c.takeEdge n .z true t = (c.setEnc n x).zEdge n true t ∧ x.z = true ∧
      x.queue = (c.enc n).queue := ⟨_, rfl, rfl, rfl⟩
  have own : (c.setEnc n marked).enc n = marked := Chip.enc_setEnc ..
  obtain ⟨e, latched, stamped, level, shown⟩ := Chip.zEdge_eq (c := c.setEnc n marked) (n := n) (t := t)
    (by rw [own, hq]; exact room)
  have away : ∀ f : Field, f.lo < 32 → 0x60000 ≤ f.off → e.get f = c.get f := fun f l high =>
    stamped.2 f l (by simp [Reg.ETM_ENC_TS_LO_TS_LO, Reg.ETM_ENC_TS_HI_TS_HI]; omega)
  have enabled : e.flag (Reg.MOT_ENC_CFG_Z_EN n) = true := by
    rw [← en]
    exact Chip.flag_congr (away _ (by show 8 < 32; omega) (by show 0x60000 ≤ 0xc0100 + 0x20 * n; omega))
  obtain ⟨copy, valid, rest, low⟩ := Chip.latchZ_copies enabled
  rw [run, latched]
  have encs : (e.latchZ n).encs = e.encs := by rw [rest.1]
  refine ⟨?_, valid, ?_, fun on => ?_, ?_⟩
  · rw [copy, away _ (by show 0 < 32; omega) (by show 0x60000 ≤ 0xc0104 + 0x20 * n; omega)]
  · rw [← hz, ← own, ← level]
    unfold Chip.enc
    rw [encs]
  · rw [← shown on]
    unfold Chip.get64
    rw [low _ (by show 0 < 32; omega) (by show 0x30080 + 8 * n < 0x60000; omega),
      low _ (by show 0 < 32; omega) (by show 0x30084 + 8 * n < 0x60000; omega)]
  · rw [encs]
    refine Chip.onlyRegs_trans (b := e) ⟨stamped.1, fun f l out => stamped.2 f l fun k => out ?_⟩ rest
    exact List.mem_cons_of_mem _ (List.mem_cons_of_mem _ k)

/-! ### Capture units (R59) -/

/-- A watched edge's stamp in its registers. -/
def Chip.captured (c : Chip) (n : Nat) (rising : Bool) (stamp : ET) : Chip :=
  ((c.seeBall (c.get (Reg.ETM_CAP_CTRL_GPIO n)) rising).put64 (Reg.ETM_CAP_TS_LO_TS n) (Reg.ETM_CAP_TS_HI_TS n)
    (stampOf stamp).toNat).put (Reg.ETM_CAP_CTRL_VALID n) 1

/-- An edge that its unit does not watch does nothing; one that it watches is stamped, and a stamp not yet read is told as lost. -/
theorem Chip.captureEdge_eq (c : Chip) {n : Nat} (hn : n < 4) (rising : Bool) (stamp : ET) (awake : c.pstate ≠ 3) :
    c.captureEdge n rising stamp =
      if bit (c.get (Reg.ETM_CAP_CTRL_EDGE n)) (if rising then 0 else 1) = false then c
      else if c.get (Reg.ETM_CAP_CTRL_VALID n) = 0 then c.captured n rising stamp
      else ((c.captured n rising stamp).put (Reg.ETM_CAP_CTRL_OVR n) 1).raise 238 0 [(1, n)] := by
  have held : (c.seeBall (c.get (Reg.ETM_CAP_CTRL_GPIO n)) rising).get (Reg.ETM_CAP_CTRL_VALID n) =
      c.get (Reg.ETM_CAP_CTRL_VALID n) := by
    refine Chip.get_put_off c _ _ _ (by show 0 < 32; omega) (by show 17 < 32; omega) ?_
    show 0x300c0 + 0x10 * n ≠ 0xe2000 + 4 * (c.get (Reg.ETM_CAP_CTRL_GPIO n) / 32)
    omega
  have watch : (if rising then bit (c.get (Reg.ETM_CAP_CTRL_EDGE n)) 0 else bit (c.get (Reg.ETM_CAP_CTRL_EDGE n)) 1) =
      bit (c.get (Reg.ETM_CAP_CTRL_EDGE n)) (if rising then 0 else 1) := by cases rising <;> rfl
  unfold Chip.captureEdge Chip.flag
  dsimp only
  rw [watch, held]
  by_cases w : bit (c.get (Reg.ETM_CAP_CTRL_EDGE n)) (if rising then 0 else 1) = false
  · rw [if_pos (Or.inl (by rw [w]; rfl)), if_pos w]
  · rw [if_neg (by simp [w, awake]), if_neg w]
    by_cases v : c.get (Reg.ETM_CAP_CTRL_VALID n) = 0
    · rw [if_pos v, if_neg (by simp [v])]
      rfl
    · rw [if_neg v, if_pos (by simp [v])]
      rfl

theorem exec_encoderEdge (n : Fin 4) (line : EncLine) (level : Bool) (stamp : ET) (s : State) :
    exec (.encoderEdge n line level stamp) s = .next (s.withChip (s.toChip.encEdge n.val line level stamp)) := rfl

theorem exec_captureEdge (n : Fin 4) (rising : Bool) (stamp : ET) (s : State) :
    exec (.captureEdge n rising stamp) s = .next (s.withChip (s.toChip.captureEdge n.val rising stamp)) := rfl

/-- Settles O16: an edge that ends no short pulse and makes no illegal transition is taken as it comes. -/
theorem edgesCountAndStamp : Obligations.EdgesCountAndStamp := by
  refine ⟨fun n level stamp s awake => ?_, fun n rising stamp s awake => ?_⟩
  · have same : (BitVec.ofNat 64 (stamp.toNat / 2 ^ 15 * 2 ^ 15) : ET) = stampOf stamp := rfl
    rw [same]
    refine ⟨fun line y ab isA isB apart ungeared clean counts room => ?_, fun low en room long => ?_⟩
    · have put : (s.toChip.enc n.val).put line level = y ∧ (s.toChip.enc n.val).level line ≠ level := by
        cases line with
        | a => exact ⟨(isA rfl).2.symm, (isA rfl).1⟩
        | b => exact ⟨(isB rfl).2.symm, (isB rfl).1⟩
        | z => exact absurd rfl ab
      obtain ⟨lines, moves⟩ := put
      refine ⟨_, exec_encoderEdge .., ?_⟩
      rw [Chip.encEdge_eq_takeEdge awake moves (fun e he => (clean e he).2)
        (fun e he ⟨quad, _, other, notZ, near⟩ => (clean e he).1 ⟨quad, other, notZ, near⟩)]
      exact Chip.takeEdge_counts n.isLt ab lines counts room apart ungeared
    · refine ⟨_, exec_encoderEdge .., ?_⟩
      rw [Chip.encEdge_eq_takeEdge awake (by rw [show (s.toChip.enc n.val).level .z = false from low]; decide) long
        (fun e _ k => k.2.1 rfl)]
      exact Chip.takeEdge_latches n.isLt en room
  · rw [exec_captureEdge, Chip.captureEdge_eq s.toChip n.isLt rising stamp awake, ← stampOf_toNat]
    refine ⟨fun w => ?_, fun w v => ?_, fun w v => ?_⟩
    · rw [if_pos w]
      rfl
    · rw [if_neg (by rw [w]; decide), if_pos v]
      rfl
    · rw [if_neg (by rw [w]; decide), if_neg v]
      rfl

end Sys2Proof.Machine
end

