-- ==== Sys2Proof/Proofs/PtpServo.lean ====
section
/-! PROOF. Proofs/PtpServo.lean: the rule of the servo for one offset sample (R70, R72). -/

namespace Sys2Proof.Machine

/-! ### The bit that a raise sets (R492) -/

/-- A raise sets its source's bit of EVT.STATUS and leaves every other. -/
theorem Chip.bitOf_raised_raise (c : Chip) {src k i : Nat} (cause : Nat) (items : List (Nat × Nat)) (hs : src < 256) (hk : k < 8)
    (hi : i < 32) : (c.raise src cause items).bitOf (Reg.EVT_STATUS_RAISED k) i =
      (c.bitOf (Reg.EVT_STATUS_RAISED k) i || decide (src = 32 * k + i)) := by
  have cls := classOf_lt src cause
  have mark : (c.raise src cause items).get (Reg.EVT_STATUS_RAISED k) =
      ((c.put Reg.EVT_SEQ_NEXT (c.get Reg.EVT_SEQ_NEXT + 1)).putBit (Reg.EVT_STATUS_RAISED (src / 32)) (src % 32) true).get
        (Reg.EVT_STATUS_RAISED k) := by
    have off : ∀ (d : Chip) (g : Field) (v : Nat), g.lo < 32 → g.off ≠ 0x20100 + 4 * k →
        (d.put g v).get (Reg.EVT_STATUS_RAISED k) = d.get (Reg.EVT_STATUS_RAISED k) :=
      fun d g v gl go => Chip.get_put_off d g _ v gl (by show 0 < 32; omega) (Ne.symm go)
    rw [Chip.raise_get_mark c src cause items hs _ (by show 0 < 32; omega) (by show 0x20100 + 4 * k ≠ 0x20008; omega)
        (by show 0x20100 + 4 * k < 0x20300 ∨ _; omega),
      Chip.raiseMark_lower _ _ _ _ (by show (0x20100 + 4 * k) * 32 + 0 ≠ (0x21000 + 4 * src) * 32 + 29; omega)]
    unfold Chip.bump
    rw [off _ _ _ (by decide) (by show 0x20004 ≠ _; omega), off _ _ _ (by decide) (by show 0x20004 ≠ _; omega),
      off _ _ _ (by decide) (by show 0x20004 ≠ _; omega),
      off _ _ _ (by show 0 < 32; omega) (by show 0x20010 + 4 * classOf src cause ≠ _; omega)]
  have seq : ∀ j, j < 8 → (c.put Reg.EVT_SEQ_NEXT (c.get Reg.EVT_SEQ_NEXT + 1)).get (Reg.EVT_STATUS_RAISED j) =
      c.get (Reg.EVT_STATUS_RAISED j) := fun j _ =>
    Chip.get_put_off _ _ _ _ (by decide) (by show 0 < 32; omega) (by show 0x20100 + 4 * j ≠ 0x20000; omega)
  unfold Chip.bitOf
  rw [mark]
  by_cases same : src / 32 = k
  · subst same
    have sum : (src = 32 * (src / 32) + i) = (src % 32 = i) := by
      rw [eq_iff_iff]
      omega
    unfold Chip.putBit
    dsimp only
    rw [if_pos rfl, Chip.get_put_self, seq _ hk]
    unfold bit
    rw [Nat.testBit_mod_two_pow, Nat.testBit_or, Nat.testBit_two_pow]
    simp only [sum, show (Reg.EVT_STATUS_RAISED (src / 32)).width = 32 from rfl, hi, decide_true, Bool.true_and]
  · have other : ¬src = 32 * k + i := by omega
    rw [Chip.get_putBit_ne _ _ _ _ _ (by
      show (0x20100 + 4 * k) * 32 + 0 ≠ (0x20100 + 4 * (src / 32)) * 32 + 0; omega), seq k hk, decide_eq_false other, Bool.or_false]

/-! ### A step of ET (R74) -/

/-- Below the registers of GPIO nothing is written, and beside registers and outputs only the contexts change. -/
def Chip.closes (c d : Chip) : Prop :=
  d = { c with regs := d.regs, out := d.out, camCtx := d.camCtx } ∧
    ∀ f : Field, f.lo < 32 → f.off < 0xe2000 → d.get f = c.get f

theorem Chip.closes_trans {a b d : Chip} (h : a.closes b) (k : b.closes d) : a.closes d := by
  obtain ⟨hb, hget⟩ := h
  obtain ⟨kd, kget⟩ := k
  refine ⟨?_, fun f l o => (kget f l o).trans (hget f l o)⟩
  rw [hb] at kd
  exact kd

/-- An exposure window that ends drives its ball. -/
theorem Chip.closes_closePassed (c : Chip) (x : Nat) (t : ET) : c.closes (c.closePassed x t) := by
  unfold Chip.closePassed Chip.closeExposure
  split
  · split
    · exact ⟨rfl, fun _ _ _ => rfl⟩
    · split
      · refine ⟨rfl, fun f l o => ?_⟩
        refine Chip.get_put_off (c.emit _) _ f _ (by show 0 < 32; omega) l ?_
        show f.off ≠ 0xe2000 + 4 * (c.get (Reg.CAM_CTX_TRIG_GPIO x) / 32)
        omega
      · exact ⟨rfl, fun _ _ _ => rfl⟩
  · exact ⟨rfl, fun _ _ _ => rfl⟩

theorem Chip.closes_foldl (l : List Nat) (c : Chip) : c.closes (l.foldl (fun c x => c.closePassed x c.now) c) := by
  induction l generalizing c with
  | nil => exact ⟨rfl, fun _ _ _ => rfl⟩
  | cons x l ih => exact Chip.closes_trans (Chip.closes_closePassed c x c.now) (ih _)

/-- What goes with a step by d: the sum of steps moves by its size, and the servo and the registers below those of GPIO stay. -/
theorem Chip.stepOthers_frame (c : Chip) (before : ET) (d : Int) :
    (c.stepOthers before d).stepSum = c.stepSum + d ∧ (c.stepOthers before d).servo = c.servo ∧
      ∀ f : Field, f.lo < 32 → f.off < 0xe2000 → (c.stepOthers before d).get f = c.get f := by
  unfold Chip.stepOthers
  dsimp only
  generalize hb : ({ c with stepSum := _, tickBase := _, encs := _, drv := _, sched := _ } : Chip) = b
  obtain ⟨rest, low⟩ := Chip.closes_foldl (List.range 8) b
  generalize List.foldl _ b _ = e at rest low
  have steps : e.stepSum = b.stepSum := by rw [rest]
  have servo : e.servo = b.servo := by rw [rest]
  subst hb
  exact ⟨steps, servo, low⟩

/-- A step of ET leaves the servo and the registers but ERA and those of GPIO. -/
theorem Chip.etStep_frame (c : Chip) (o : Int) :
    (c.etStep o).stepSum = c.stepSum + o ∧ (c.etStep o).servo = c.servo ∧
      ∀ f : Field, f.lo < 32 → f.off < 0xe2000 → f.key ≠ Reg.ETM_ERA_ERA.key → (c.etStep o).get f = c.get f := by
  unfold Chip.etStep
  dsimp only
  generalize hb : Chip.putI { c with et := _, wraps := _ } Reg.ETM_ERA_ERA _ = b
  obtain ⟨steps, servo, low⟩ := b.stepOthers_frame c.now o
  subst hb
  exact ⟨steps, servo, fun f l o ne => (low f l o).trans (Chip.get_put_ne _ _ _ _ ne)⟩

/-! ### What counting a sample keeps (R70, R75) -/

/-- ET, the sum of steps, the integrator, every field outside the event block but STATE, and the bit of EV224 once set. -/
structure Chip.keepsSample (c d : Chip) : Prop where
  et : d.et = c.et
  steps : d.stepSum = c.stepSum
  integ : d.servo.integ = c.servo.integ
  regs : ∀ f : Field, f.lo < 32 → (f.off < 0x20000 ∨ 0x22000 ≤ f.off) → f.key ≠ Reg.ETM_STATUS_STATE.key → d.get f = c.get f
  told : c.bitOf (Reg.EVT_STATUS_RAISED 7) 0 = true → d.bitOf (Reg.EVT_STATUS_RAISED 7) 0 = true

theorem Chip.keepsSample_refl (c : Chip) : c.keepsSample c := ⟨rfl, rfl, rfl, fun _ _ _ _ => rfl, id⟩

section
variable {c d : Chip}

theorem Chip.keepsSample.setServo (h : c.keepsSample d) {v : Servo} (integ : v.integ = d.servo.integ) : c.keepsSample (d.setServo v) :=
  ⟨h.et, h.steps, integ.trans h.integ, h.regs, h.told⟩

theorem Chip.keepsSample.servoState (h : c.keepsSample d) (st : Nat) : c.keepsSample (d.servoState st) where
  et := h.et
  steps := h.steps
  integ := h.integ
  regs f l o ne := (Chip.get_put_ne d _ f st ne).trans (h.regs f l o ne)
  told t := by
    have same := Chip.get_put_ne d Reg.ETM_STATUS_STATE (Reg.EVT_STATUS_RAISED 7) st (by decide)
    exact (congrArg (bit · 0) same).trans (h.told t)

theorem Chip.keepsSample.raise (h : c.keepsSample d) {src : Nat} (hs : src < 256) (cause : Nat) (items : List (Nat × Nat)) :
    c.keepsSample (d.raise src cause items) where
  et := (Chip.raise_et ..).trans h.et
  steps := (Chip.raise_stepSum ..).trans h.steps
  integ := (congrArg Servo.integ (Chip.raise_servo ..)).trans h.integ
  regs f l o ne := (Chip.get_raise d cause items hs l o).trans (h.regs f l o ne)
  told t := by rw [Chip.bitOf_raised_raise d cause items hs (by decide) (by decide), h.told t, Bool.true_or]

end

/-- Counting a sample changes STATE and the servo's counts, and may raise EV226 or EV227. -/
theorem Chip.keepsSample_servoLock (c : Chip) (o : Int) : c.keepsSample (c.servoLock o) := by
  unfold Chip.servoLock
  dsimp only
  generalize (if |o| ≤ c.lockThr then c.servo.inside + 1 else 0) = inside
  generalize (if 4 * c.lockThr < |o| then c.servo.large + 1 else 0) = large
  generalize hv : ({ c.servo with inside := _, large := _, rates := _ } : Servo) = v
  have counted : c.keepsSample (c.setServo v) := (Chip.keepsSample_refl c).setServo (by rw [← hv])
  generalize c.setServo v = d at counted
  split
  · split
    · refine Chip.keepsSample.raise ?_ (by decide) _ _
      exact (counted.servoState 2).setServo rfl
    · exact counted
  · split
    · refine Chip.keepsSample.raise ?_ (by decide) _ _
      refine Chip.keepsSample.servoState ?_ 1
      exact counted.setServo rfl
    · exact counted.setServo rfl
  · exact counted

/-! ### The rate of a sample (R72) -/

@[simp] theorem Chip.setServo_stepSum (c : Chip) (v : Servo) : (c.setServo v).stepSum = c.stepSum := rfl

@[simp] theorem Chip.setServo_servo (c : Chip) (v : Servo) : (c.setServo v).servo = v := rfl

@[simp] theorem Chip.get_setServo (c : Chip) (v : Servo) (f : Field) : (c.setServo v).get f = c.get f := rfl

theorem Chip.setRate_servo (c : Chip) (r : Int) : (c.setRate r).servo = c.servo := rfl

/-- Setting RATE leaves every other field. -/
theorem Chip.get_setRate (c : Chip) (r : Int) {f : Field} (h : f.key ≠ Reg.ETM_RATE_RATE.key) : (c.setRate r).get f = c.get f :=
  Chip.get_put_ne _ _ _ _ h

/-- A slew that has come within LOCK_THR ends, with the integrator at 0. -/
def Chip.endSlew (c : Chip) (o : Int) : Chip :=
  if c.flag Reg.ETM_STATUS_SLEWING ∧ |o| ≤ c.lockThr then
    (c.put Reg.ETM_STATUS_SLEWING 0).setServo { c.servo with integ := 0 }
  else c

/-- The PI loop. -/
def Chip.piRate (c : Chip) (o : Int) : Chip :=
  let v := Int.tdiv (o * 2 ^ (16 + (-c.logSync).toNat)) 1000000000
  let integ := c.servo.integ + v >>> c.get Reg.ETM_SERVO_KI_SHIFT
  let c := c.setServo { c.servo with integ := integ }
  c.setRate (clampI (c.servo.base + v >>> c.get Reg.ETM_SERVO_KP_SHIFT + integ)
    (c.servo.base - c.slewLim) (c.servo.base + c.slewLim))

theorem Chip.servoRate_eq (c : Chip) (o : Int) : c.servoRate o =
    if (c.endSlew o).flag Reg.ETM_STATUS_SLEWING then
      (c.endSlew o).setRate ((c.endSlew o).servo.base + o.sign * (c.endSlew o).slewLim)
    else (c.endSlew o).piRate o := rfl

theorem Chip.endSlew_time (c : Chip) (o : Int) : (c.endSlew o).et = c.et ∧ (c.endSlew o).stepSum = c.stepSum := by
  unfold Chip.endSlew
  split <;> exact ⟨rfl, rfl⟩

theorem Chip.slewLim_congr {c d : Chip} (h : d.get Reg.ETM_SLEW_LIM_PPM = c.get Reg.ETM_SLEW_LIM_PPM) : d.slewLim = c.slewLim := by
  unfold Chip.slewLim
  rw [h]

theorem Chip.lockThr_congr {c d : Chip} (h : d.get Reg.ETM_LOCK_THR_NS = c.get Reg.ETM_LOCK_THR_NS) : d.lockThr = c.lockThr := by
  unfold Chip.lockThr
  rw [h]

theorem Chip.stepThr_congr {c d : Chip} (h : d.get Reg.ETM_STEP_THR_NS = c.get Reg.ETM_STEP_THR_NS) : d.stepThr = c.stepThr := by
  unfold Chip.stepThr
  rw [h]

/-- Within LOCK_THR no slew goes on, and the held rate and SLEW_LIM are as before. -/
theorem Chip.endSlew_near {c : Chip} {o : Int} (near : |o| ≤ c.lockThr) :
    (c.endSlew o).flag Reg.ETM_STATUS_SLEWING = false ∧ (c.endSlew o).servo.base = c.servo.base ∧ (c.endSlew o).slewLim = c.slewLim := by
  unfold Chip.endSlew
  split
  · have zero : (c.put Reg.ETM_STATUS_SLEWING 0).get Reg.ETM_STATUS_SLEWING = 0 := Chip.get_put_self ..
    exact ⟨decide_eq_false (not_not.mpr zero), rfl, Chip.slewLim_congr (Chip.get_put_ne c Reg.ETM_STATUS_SLEWING Reg.ETM_SLEW_LIM_PPM 0 (by decide))⟩
  · next still =>
    exact ⟨Bool.eq_false_iff.mpr fun on => still ⟨on, near⟩, rfl, rfl⟩

theorem Chip.endSlew_far {c : Chip} {o : Int} (far : c.lockThr < |o|) : c.endSlew o = c :=
  if_neg fun k => absurd k.2 (not_le.mpr far)

/-- The end of the rule moves no time. -/
theorem Chip.servoRate_time (c : Chip) (o : Int) : (c.servoRate o).et = c.et ∧ (c.servoRate o).stepSum = c.stepSum := by
  rw [Chip.servoRate_eq]
  split
  · exact c.endSlew_time o
  · exact c.endSlew_time o

/-- Beyond LOCK_THR a slew goes on: RATE is set, and nothing else changes. -/
theorem Chip.servoRate_slew {c : Chip} {o : Int} (on : c.flag Reg.ETM_STATUS_SLEWING = true) (far : c.lockThr < |o|) :
    c.servoRate o = c.setRate (c.servo.base + o.sign * c.slewLim) := by
  rw [Chip.servoRate_eq, Chip.endSlew_far far, if_pos on]

theorem Chip.slewLim_nonneg (c : Chip) : 0 ≤ c.slewLim := by
  unfold Chip.slewLim
  positivity

/-- Within LOCK_THR the PI loop runs, and RATE stays within SLEW_LIM of the held rate. -/
theorem Chip.servoRate_near {c : Chip} {o : Int} (near : |o| ≤ c.lockThr) (room : |c.servo.base| + c.slewLim < 4294967) :
    c.servo.base - c.slewLim ≤ (c.servoRate o).getI Reg.ETM_RATE_RATE ∧
      (c.servoRate o).getI Reg.ETM_RATE_RATE ≤ c.servo.base + c.slewLim := by
  obtain ⟨off, base, lim⟩ := Chip.endSlew_near near
  obtain ⟨d, r, run⟩ : ∃ (d : Chip) (r : Int), (c.endSlew o).piRate o =
      d.setRate (clampI r ((c.endSlew o).servo.base - (c.endSlew o).slewLim) ((c.endSlew o).servo.base + (c.endSlew o).slewLim)) :=
    ⟨_, _, rfl⟩
  have nonneg := c.slewLim_nonneg
  have bounds := abs_lt.mp (show |c.servo.base| < 4294967 - c.slewLim by omega)
  rw [Chip.servoRate_eq, if_neg (by rw [off]; decide), run, base, lim, Chip.getI_setRate]
  unfold clampRate clampI
  omega

/-! ### One offset sample (R72) -/

/-- The sample shown in ETM.OFFSET, with which the rule begins. -/
def Chip.showSample (c : Chip) (o : Int) : Chip := c.putSat Reg.ETM_OFFSET_OFFSET (floorDiv o 256)

theorem Chip.get_showSample (c : Chip) (o : Int) {f : Field} (h : f.key ≠ Reg.ETM_OFFSET_OFFSET.key) :
    (c.showSample o).get f = c.get f := Chip.get_put_ne _ _ _ _ h

/-- A step beyond STEP_THR refused, where the sample is so large: SLEWING is set, and the refusal is shown and told once. -/
def Chip.refuseStep (c : Chip) (o : Int) : Chip :=
  if c.stepThr < |o| then
    (if c.flag Reg.ETM_STATUS_SLEWING then c else (c.put Reg.ETM_STATUS_STEP_REFUSED 1).raise 225 0 []).put Reg.ETM_STATUS_SLEWING 1
  else c

/-- The rule where ET may be set for the first time. -/
theorem Chip.servoSample_first {c : Chip} {o : Int} (unset : c.flag Reg.ETM_STATUS_SET = false)
    (outside : c.get Reg.ETM_STATUS_INLAYER = 0) :
    c.servoSample o = ((((c.showSample o).etStep o).put Reg.ETM_STATUS_SET 1).setServo { c.servo with integ := 0 } |>.raise 224 0 []
      |>.servoLock o) := by
  refine if_pos ⟨?_, (Chip.get_showSample c o (by decide)).trans outside⟩
  rw [show (c.putSat Reg.ETM_OFFSET_OFFSET (floorDiv o 256)).flag Reg.ETM_STATUS_SET = c.flag Reg.ETM_STATUS_SET from
    Chip.flag_congr (Chip.get_showSample c o (by decide)), unset]
  rfl

/-- The rule where ET may be stepped in ACQUIRE. -/
theorem Chip.servoSample_acquire {c : Chip} {o : Int} (set : c.flag Reg.ETM_STATUS_SET = true) (far : c.lockThr < |o|)
    (within : |o| ≤ c.stepThr) (acquire : c.get Reg.ETM_STATUS_STATE = 1) (outside : c.get Reg.ETM_STATUS_INLAYER = 0)
    (calm : c.get Reg.ETM_STATUS_SLEWING = 0) :
    c.servoSample o = (((c.showSample o).etStep o).setServo { c.servo with integ := 0 } |>.raise 224 0 [] |>.servoLock o) := by
  have keep : ∀ f : Field, f.key ≠ Reg.ETM_OFFSET_OFFSET.key → (c.showSample o).get f = c.get f := fun f => Chip.get_showSample c o
  have notFirst : ¬((!(c.showSample o).flag Reg.ETM_STATUS_SET) = true ∧ (c.showSample o).get Reg.ETM_STATUS_INLAYER = 0) := by
    rw [Chip.flag_congr (keep _ (by decide)), set]
    exact fun k => absurd k.1 (by decide)
  have step : (!decide ((c.showSample o).stepThr < |o|)) = true ∧ (c.showSample o).lockThr < |o| ∧
      (c.showSample o).get Reg.ETM_STATUS_STATE = 1 ∧ (c.showSample o).get Reg.ETM_STATUS_INLAYER = 0 ∧
      (c.showSample o).get Reg.ETM_STATUS_SLEWING = 0 := by
    rw [Chip.stepThr_congr (keep _ (by decide)), Chip.lockThr_congr (keep _ (by decide)), keep _ (by decide), keep _ (by decide),
      keep _ (by decide), decide_eq_false (not_lt.mpr within)]
    exact ⟨rfl, far, acquire, outside, calm⟩
  exact (if_neg notFirst).trans (if_pos step)

/-- The rule where ET is not stepped: a refusal beyond STEP_THR, and the rate. -/
theorem Chip.servoSample_rate {c : Chip} {o : Int} (notFirst : c.flag Reg.ETM_STATUS_SET = true ∨ c.get Reg.ETM_STATUS_INLAYER ≠ 0)
    (noStep : c.stepThr < |o| ∨ |o| ≤ c.lockThr ∨ c.get Reg.ETM_STATUS_INLAYER ≠ 0) :
    c.servoSample o = (((c.showSample o).refuseStep o).servoRate o).servoLock o := by
  have keep : ∀ f : Field, f.key ≠ Reg.ETM_OFFSET_OFFSET.key → (c.showSample o).get f = c.get f := fun f => Chip.get_showSample c o
  have first : ¬((!(c.showSample o).flag Reg.ETM_STATUS_SET) = true ∧ (c.showSample o).get Reg.ETM_STATUS_INLAYER = 0) := by
    rw [Chip.flag_congr (keep _ (by decide)), keep _ (by decide)]
    rintro ⟨unset, outside⟩
    rcases notFirst with set | inside
    · rw [set] at unset
      exact absurd unset (by decide)
    · exact inside outside
  have step : ¬((!decide ((c.showSample o).stepThr < |o|)) = true ∧ (c.showSample o).lockThr < |o| ∧
      (c.showSample o).get Reg.ETM_STATUS_STATE = 1 ∧ (c.showSample o).get Reg.ETM_STATUS_INLAYER = 0 ∧
      (c.showSample o).get Reg.ETM_STATUS_SLEWING = 0) := by
    rw [Chip.stepThr_congr (keep _ (by decide)), Chip.lockThr_congr (keep _ (by decide)), keep Reg.ETM_STATUS_INLAYER (by decide)]
    rintro ⟨within, far, -, outside, -⟩
    rcases noStep with beyond | near | inside
    · rw [decide_eq_true beyond] at within
      exact absurd within (by decide)
    · exact absurd far (not_lt.mpr near)
    · exact inside outside
  have refused : (if decide ((c.showSample o).stepThr < |o|) = true then
      (if (c.showSample o).flag Reg.ETM_STATUS_SLEWING then c.showSample o
        else ((c.showSample o).put Reg.ETM_STATUS_STEP_REFUSED 1).raise 225 0 []).put Reg.ETM_STATUS_SLEWING 1
      else c.showSample o) = (c.showSample o).refuseStep o := by
    unfold Chip.refuseStep
    simp only [decide_eq_true_eq]
  rw [← refused]
  exact (if_neg first).trans (if_neg step)

/-- What a sample leaves that only shows its offset, or is also refused: time, the servo, and the fields that are not of
ETM.OFFSET and ETM.STATUS. -/
theorem Chip.refuseStep_frame (c : Chip) (o : Int) :
    (c.refuseStep o).et = c.et ∧ (c.refuseStep o).stepSum = c.stepSum ∧ (c.refuseStep o).servo = c.servo ∧
      ∀ f : Field, f.lo < 32 → (f.off < 0x20000 ∨ 0x22000 ≤ f.off) → f.off ≠ 0x30014 → (c.refuseStep o).get f = c.get f := by
  unfold Chip.refuseStep
  split
  · split
    · exact ⟨rfl, rfl, rfl, fun f l _ ne => Chip.get_put_off _ _ _ _ (by decide) l ne⟩
    · refine ⟨Chip.raise_et .., Chip.raise_stepSum .., Chip.raise_servo .., fun f l o ne => ?_⟩
      rw [Chip.get_put_off _ _ _ _ (by decide) l ne, Chip.get_raise _ _ _ (by decide) l o, Chip.get_put_off _ _ _ _ (by decide) l ne]
  · exact ⟨rfl, rfl, rfl, fun _ _ _ _ => rfl⟩

/-- Beyond STEP_THR SLEWING is set, and a refusal not yet shown is shown. -/
theorem Chip.refuseStep_beyond {c : Chip} {o : Int} (beyond : c.stepThr < |o|) :
    (c.refuseStep o).get Reg.ETM_STATUS_SLEWING = 1 ∧
      (c.get Reg.ETM_STATUS_SLEWING = 0 → (c.refuseStep o).get Reg.ETM_STATUS_STEP_REFUSED = 1) := by
  unfold Chip.refuseStep
  rw [if_pos beyond]
  refine ⟨Chip.get_put_self .., fun calm => ?_⟩
  have off : c.flag Reg.ETM_STATUS_SLEWING = false := decide_eq_false (not_not.mpr calm)
  rw [Chip.get_put_ne _ _ _ _ (by decide), if_neg (by rw [off]; decide), Chip.get_raise _ _ _ (by decide) (by decide) (by decide)]
  exact Chip.get_put_self ..

/-- A sample that steps ET: the sum of steps, the integrator, EV224 and the fields below GPIO's are as the step leaves them. -/
theorem Chip.steppedSample (c : Chip) (o : Int) {d : Chip} (time : d.stepSum = ((c.showSample o).etStep o).stepSum)
    (integ : d.servo.integ = 0) :
    let e := (d.raise 224 0 []).servoLock o
    e.stepSum = c.stepSum + o ∧ e.servo.integ = 0 ∧ e.bitOf (Reg.EVT_STATUS_RAISED 7) 0 = true ∧
      ∀ f : Field, f.lo < 32 → (f.off < 0x20000 ∨ 0x22000 ≤ f.off) → f.key ≠ Reg.ETM_STATUS_STATE.key → e.get f = d.get f := by
  dsimp only
  have kept := Chip.keepsSample_servoLock (d.raise 224 0 []) o
  obtain ⟨steps, -, -⟩ := (c.showSample o).etStep_frame o
  refine ⟨?_, ?_, kept.told ?_, fun f l out ne => ?_⟩
  · rw [kept.steps, Chip.raise_stepSum, time, steps]
    rfl
  · rw [kept.integ, Chip.raise_servo, integ]
  · rw [Chip.bitOf_raised_raise _ _ _ (by decide) (by decide) (by decide)]
    exact Bool.or_true _
  · rw [kept.regs f l out ne, Chip.get_raise _ _ _ (by decide) l out]

/-- R72 of one sample. -/
theorem Chip.servoSample_rule (c : Chip) (o : Int) :
    let d := c.servoSample o
    let mayNotSet := c.flag Reg.ETM_STATUS_SET = true ∨ c.get Reg.ETM_STATUS_INLAYER ≠ 0
    (c.flag Reg.ETM_STATUS_SET = false → c.get Reg.ETM_STATUS_INLAYER = 0 →
      d.stepSum = c.stepSum + o ∧ d.get Reg.ETM_STATUS_SET = 1 ∧ d.servo.integ = 0 ∧
      d.bitOf (Reg.EVT_STATUS_RAISED 7) 0 = true ∧ d.getI Reg.ETM_RATE_RATE = c.getI Reg.ETM_RATE_RATE) ∧
    (c.flag Reg.ETM_STATUS_SET = true → c.lockThr < |o| → |o| ≤ c.stepThr → c.get Reg.ETM_STATUS_STATE = 1 →
      c.get Reg.ETM_STATUS_INLAYER = 0 → c.get Reg.ETM_STATUS_SLEWING = 0 →
      d.stepSum = c.stepSum + o ∧ d.servo.integ = 0 ∧ d.bitOf (Reg.EVT_STATUS_RAISED 7) 0 = true) ∧
    (mayNotSet → c.stepThr < |o| → c.lockThr ≤ c.stepThr →
      d.et = c.et ∧ d.stepSum = c.stepSum ∧ d.get Reg.ETM_STATUS_SLEWING = 1 ∧ d.servo.integ = c.servo.integ ∧
      (c.get Reg.ETM_STATUS_SLEWING = 0 → d.get Reg.ETM_STATUS_STEP_REFUSED = 1)) ∧
    (mayNotSet → (c.get Reg.ETM_STATUS_INLAYER ≠ 0 ∨ |o| ≤ c.lockThr) → d.et = c.et ∧ d.stepSum = c.stepSum) ∧
    (mayNotSet → |o| ≤ c.lockThr → |c.servo.base| + c.slewLim < 4294967 →
      c.servo.base - c.slewLim ≤ d.getI Reg.ETM_RATE_RATE ∧ d.getI Reg.ETM_RATE_RATE ≤ c.servo.base + c.slewLim) := by
  dsimp only
  have keep : ∀ f : Field, f.key ≠ Reg.ETM_OFFSET_OFFSET.key → (c.showSample o).get f = c.get f := fun f => Chip.get_showSample c o
  obtain ⟨et, steps, servo, regs⟩ := (c.showSample o).refuseStep_frame o
  have time : (((c.showSample o).refuseStep o).servoRate o).et = c.et ∧
      (((c.showSample o).refuseStep o).servoRate o).stepSum = c.stepSum := by
    obtain ⟨e, t⟩ := ((c.showSample o).refuseStep o).servoRate_time o
    exact ⟨e.trans et, t.trans steps⟩
  have locked := Chip.keepsSample_servoLock (((c.showSample o).refuseStep o).servoRate o) o
  refine ⟨fun unset outside => ?_, fun set far within acquire outside calm => ?_, fun may beyond order => ?_,
    fun may noStep => ?_, fun may near room => ?_⟩
  · rw [Chip.servoSample_first unset outside]
    obtain ⟨sum, integ, told, rest⟩ := Chip.steppedSample c o
      (d := (((c.showSample o).etStep o).put Reg.ETM_STATUS_SET 1).setServo { c.servo with integ := 0 }) (by simp) (by simp)
    obtain ⟨-, -, low⟩ := (c.showSample o).etStep_frame o
    refine ⟨sum, ?_, integ, told, Chip.getI_congr ?_⟩
    · rw [rest _ (by decide) (by decide) (by decide), Chip.get_setServo, Chip.get_put_self]
      rfl
    · rw [rest _ (by decide) (by decide) (by decide), Chip.get_setServo, Chip.get_put_ne _ _ _ _ (by decide),
        low _ (by decide) (by decide) (by decide), keep _ (by decide)]
  · rw [Chip.servoSample_acquire set far within acquire outside calm]
    obtain ⟨sum, integ, told, -⟩ := Chip.steppedSample c o
      (d := ((c.showSample o).etStep o).setServo { c.servo with integ := 0 }) (by simp) (by simp)
    exact ⟨sum, integ, told⟩
  · rw [Chip.servoSample_rate may (Or.inl beyond)]
    obtain ⟨slewing, shown⟩ := Chip.refuseStep_beyond (c := c.showSample o) (o := o)
      (by rw [Chip.stepThr_congr (keep _ (by decide))]; exact beyond)
    have on : ((c.showSample o).refuseStep o).flag Reg.ETM_STATUS_SLEWING = true := by
      unfold Chip.flag
      rw [slewing]
      rfl
    have far : ((c.showSample o).refuseStep o).lockThr < |o| := by
      rw [Chip.lockThr_congr (regs _ (by decide) (by decide) (by decide)), Chip.lockThr_congr (keep _ (by decide))]
      exact lt_of_le_of_lt order beyond
    have slews := Chip.servoRate_slew on far
    refine ⟨locked.et.trans time.1, locked.steps.trans time.2, ?_, ?_, fun calm => ?_⟩
    · rw [locked.regs _ (by decide) (by decide) (by decide), slews, Chip.get_setRate _ _ (by decide), slewing]
    · rw [locked.integ, slews, Chip.setRate_servo, servo]
      rfl
    · rw [locked.regs _ (by decide) (by decide) (by decide), slews, Chip.get_setRate _ _ (by decide)]
      exact shown (by rw [keep _ (by decide)]; exact calm)
  · rw [Chip.servoSample_rate may (Or.inr noStep.symm)]
    exact ⟨locked.et.trans time.1, locked.steps.trans time.2⟩
  · rw [Chip.servoSample_rate may (Or.inr (Or.inl near))]
    have base : ((c.showSample o).refuseStep o).servo.base = c.servo.base := by rw [servo]; rfl
    have lim : ((c.showSample o).refuseStep o).slewLim = c.slewLim := by
      rw [Chip.slewLim_congr (regs _ (by decide) (by decide) (by decide)), Chip.slewLim_congr (keep _ (by decide))]
    have close : |o| ≤ ((c.showSample o).refuseStep o).lockThr := by
      rw [Chip.lockThr_congr (regs _ (by decide) (by decide) (by decide)), Chip.lockThr_congr (keep _ (by decide))]
      exact near
    have rate := Chip.servoRate_near close (by rw [base, lim]; exact room)
    rw [base, lim] at rate
    rwa [Chip.getI_congr (locked.regs Reg.ETM_RATE_RATE (by decide) (by decide) (by decide))]

end Sys2Proof.Machine
end

