-- ==== Sys2Proof/Proofs/PtpMessages.lean ====
section
/-! PROOF. Proofs/PtpMessages.lean: what PTP frames and messages do (R62, R63, R67, R71). -/

namespace Sys2Proof.Machine

/-! ### Frames and messages that are discarded (R62, R63) -/

/-- A frame that passes no test beyond its kind is counted by the first that it fails. -/
theorem exec_ethFrameReceived (q : Fin 2) (f : EthFrame) (s : State) :
    exec (.ethFrameReceived q f) s = .next (s.withChip
      (if 1522 < f.length ∨ !f.isPtp ∨ f.transport ≠ s.toChip.flag Reg.ETM_PTP_CFG_TRANSPORT then
        s.toChip.bump (Reg.ENET_DISCARD_COUNT q.val) 1
      else if f.managementOrSignalling ∨ f.domain.toNat ≠ s.toChip.get Reg.ETM_PTP_CFG_DOMAIN ∨ f.version.toNat ≠ 2 then
        s.toChip.ptpDiscard q.val
      else if f.stampLost then (s.toChip.bump (Reg.ENET_TS_LOST_COUNT q.val) 1).raise (234 + q.val) 0 []
      else s.toChip)) := rfl

theorem version_toNat_ne {v : BitVec 4} : v.toNat ≠ 2 ↔ v ≠ 2 := by
  rw [Ne, Ne, ← BitVec.toNat_inj]
  rfl

/-- A message of another domain or version does not match. -/
theorem Chip.ptpMatches_eq_false {c : Chip} {h : PtpHdr} (other : h.domain.toNat ≠ c.get Reg.ETM_PTP_CFG_DOMAIN ∨ h.version ≠ 2) :
    c.ptpMatches h = false := by
  unfold Chip.ptpMatches
  rcases other with d | v
  · rw [decide_eq_false d, Bool.false_and]
  · rw [decide_eq_false (version_toNat_ne.mpr v), Bool.and_false]

theorem Chip.ptpTake_of_mismatch {c : Chip} {h : PtpHdr} (other : c.ptpMatches h = false) (q : Nat) (f : Chip → Chip) :
    c.ptpTake q h f = c.ptpDiscard q := if_pos (by rw [other]; rfl)

theorem Chip.ptpTake_of_match {c : Chip} {h : PtpHdr} {q : Nat} (same : c.ptpMatches h = true) (on : c.ptpOn q = true) (f : Chip → Chip) :
    c.ptpTake q h f = f (c.ripen q) := by
  unfold Chip.ptpTake
  rw [if_neg (by rw [same]; decide), if_pos on]

/-- Frames and messages that go no further. -/
theorem discarded_messages (q : Fin 2) (s : State) :
    let c := s.toChip
    let gone := s.withChip ((c.bump (Reg.ENET_PTP_ERR_COUNT q.val) 1).raise (234 + q.val) 0 [])
    (∀ f : EthFrame, (1522 < f.length ∨ f.isPtp = false ∨ f.transport ≠ c.flag Reg.ETM_PTP_CFG_TRANSPORT) →
      exec (.ethFrameReceived q f) s = .next (s.withChip (c.bump (Reg.ENET_DISCARD_COUNT q.val) 1))) ∧
    (∀ f : EthFrame, f.length ≤ 1522 → f.isPtp = true → f.transport = c.flag Reg.ETM_PTP_CFG_TRANSPORT →
      (f.managementOrSignalling = true ∨ f.domain.toNat ≠ c.get Reg.ETM_PTP_CFG_DOMAIN ∨ f.version ≠ 2) →
      exec (.ethFrameReceived q f) s = .next gone) ∧
    (∀ f : EthFrame, f.length ≤ 1522 → f.isPtp = true → f.transport = c.flag Reg.ETM_PTP_CFG_TRANSPORT → f.managementOrSignalling = false →
      f.domain.toNat = c.get Reg.ETM_PTP_CFG_DOMAIN → f.version = 2 →
      exec (.ethFrameReceived q f) s = .next (if f.stampLost then
        s.withChip ((c.bump (Reg.ENET_TS_LOST_COUNT q.val) 1).raise (234 + q.val) 0 []) else s)) ∧
    (∀ h : PtpHdr, (h.domain.toNat ≠ c.get Reg.ETM_PTP_CFG_DOMAIN ∨ h.version ≠ 2) →
      (∀ b o k a, exec (.sync q h b o k a) s = .next gone) ∧ (∀ o k, exec (.followUp q h o k) s = .next gone) ∧
      (∀ k a, exec (.delayReq q ⟨h, k⟩ a) s = .next gone) ∧ (∀ r o k, exec (.delayResp q h r o k) s = .next gone) ∧
      (∀ k a b, exec (.pdelayReq q ⟨h, k⟩ a b) s = .next gone) ∧ (∀ m, exec (.pdelayResp q h m) s = .next gone) ∧
      (∀ m, exec (.announce q h m) s = .next gone)) := by
  refine ⟨fun f other => ?_, fun f short ptp same odd => ?_, fun f short ptp same plain domain version => ?_, fun h other => ?_⟩
  · rw [exec_ethFrameReceived, if_pos]
    simpa using other
  · rw [exec_ethFrameReceived, if_neg (by simp [ptp, same]; omega), if_pos]
    · rfl
    · rwa [version_toNat_ne]
  · rw [exec_ethFrameReceived, if_neg (by simp [ptp, same]; omega), if_neg (by simp [plain, domain, version])]
    split <;> rfl
  · have gone : ∀ f, s.toChip.ptpTake q.val h f = s.toChip.ptpDiscard q.val :=
      Chip.ptpTake_of_mismatch (Chip.ptpMatches_eq_false other) q.val
    have out : ∀ f, s.go (s.toChip.ptpTake q.val h f) = .next (s.withChip (s.toChip.ptpDiscard q.val)) := fun f => by rw [gone]; rfl
    exact ⟨fun _ _ _ _ => out _, fun _ _ => out _, fun _ _ => out _, fun _ _ _ => out _, fun _ _ _ => out _, fun _ => out _,
      fun _ => out _⟩

/-! ### Samples and path delays (R71) -/

/-- A Sync with a valid path delay is one sample; in HOLDOVER it first leads back to ACQUIRE. -/
theorem Chip.servoSync_sample {c : Chip} {mean : Int} (q : Nat) (t1 t2 : Int) (valid : c.servo.meanDelay = some mean)
    (none : c.servo.delaysLeft = 0) :
    let e := c.setPtp q { c.ptpPort q with forward := some (t2 - t1) }
    let e := if c.get Reg.ETM_STATUS_STATE = 3 then
        (((e.put Reg.ETM_STATUS_STATE 1).put Reg.ETM_STATUS_HOLD_CAUSE 0).put (Reg.ENET_STATUS_PORT_STATE q) 9).raise 229 0 []
      else e
    c.servoSync q t1 t2 = e.servoSample (t1 + mean + floorDiv (c.getI (Reg.ENET_ASYM_PS q) * 65536) 1000 - t2) := by
  dsimp only
  unfold Chip.servoSync
  dsimp only
  rw [show (c.setPtp q { c.ptpPort q with forward := some (t2 - t1) }).servo = c.servo from rfl, valid]
  dsimp only
  rw [if_neg (not_not.mpr none)]
  rfl

/-- A further path delay measurement is filtered with weight 2^-DELAY_FILT. -/
theorem Chip.pathDelay_filters {c : Chip} {m : Int} (k : Int) (mean : c.servo.meanDelay = some m) :
    (c.pathDelay k).servo.meanDelay = some (m + (k - m) >>> c.get Reg.ETM_SERVO_DELAY_FILT) ∧
    (c.pathDelay k).servo.delaysLeft = c.servo.delaysLeft - 1 := by
  unfold Chip.pathDelay
  dsimp only
  rw [mean]
  exact ⟨rfl, rfl⟩

/-! ### What the messages of a port in PTP do (R63, R67, R71) -/

section
variable {q : Fin 2} {h : PtpHdr} {s : State}

/-- A message that is taken acts on the controller with the port's qualification seen to. -/
theorem go_ptpTake (same : s.toChip.ptpMatches h = true) (on : s.toChip.ptpOn q.val = true) (f : Chip → Chip) :
    s.go (s.toChip.ptpTake q.val h f) = .next (s.withChip (f (s.toChip.ripen q.val))) := by
  rw [Chip.ptpTake_of_match same on]
  rfl

theorem exec_sync_oneStep (same : s.toChip.ptpMatches h = true) (on : s.toChip.ptpOn q.val = true) {o : Nat} {k : Int} {a : PortStamp}
    (followed : (s.toChip.ripen q.val).followed q.val h.source = true) :
    exec (.sync q h false o k a) s = .next (s.withChip ((s.toChip.ripen q.val).syncHeard.servoSync q.val ((o : Int) * 65536 + k)
      ((s.toChip.ripen q.val).ingress q.val a))) := by
  refine (go_ptpTake same on _).trans ?_
  dsimp only
  rw [if_pos followed]
  exact congrArg (fun c => Host.Outcome.next (s.withChip c)) (if_pos ⟨followed, rfl⟩)

theorem exec_sync_twoStep (same : s.toChip.ptpMatches h = true) (on : s.toChip.ptpOn q.val = true) {o : Nat} {k : Int} {a : PortStamp} :
    exec (.sync q h true o k a) s = .next (s.withChip (
      (if (s.toChip.ripen q.val).followed q.val h.source then (s.toChip.ripen q.val).syncHeard else s.toChip.ripen q.val).setPtp q.val
        { (s.toChip.ripen q.val).ptpPort q.val with
          syncHalf := some ⟨h.source, h.seq.toNat, (s.toChip.ripen q.val).ingress q.val a, k⟩ })) := by
  refine (go_ptpTake same on _).trans ?_
  dsimp only
  rw [if_pos rfl, if_neg (fun k => absurd k.2 (by decide))]
  split <;> rfl

theorem exec_followUp_completes (same : s.toChip.ptpMatches h = true) (on : s.toChip.ptpOn q.val = true) {o : Nat} {k : Int} {m : HalfMsg}
    (half : ((s.toChip.ripen q.val).ptpPort q.val).syncHalf = some m) (source : m.source = h.source) (seq : m.seq = h.seq.toNat)
    (followed : (s.toChip.ripen q.val).followed q.val h.source = true) :
    exec (.followUp q h o k) s = .next (s.withChip (((s.toChip.ripen q.val).setPtp q.val
      { (s.toChip.ripen q.val).ptpPort q.val with syncHalf := none }).servoSync q.val ((o : Int) * 65536 + m.corr + k) m.time)) := by
  refine (go_ptpTake same on _).trans ?_
  dsimp only
  rw [half]
  dsimp only
  rw [if_pos ⟨source, seq⟩]
  exact congrArg (fun c => Host.Outcome.next (s.withChip c)) (if_pos followed)

theorem exec_delayResp_measures (same : s.toChip.ptpMatches h = true) (on : s.toChip.ptpOn q.val = true) {r : PortId} {o : Nat}
    {k t3 fwd : Int} (own : r = (s.toChip.ripen q.val).ownId q.val)
    (seq : h.seq.toNat = (((s.toChip.ripen q.val).ptpPort q.val).seqDelay + 65535) % 65536)
    (followed : (s.toChip.ripen q.val).followed q.val h.source = true)
    (sent : ((s.toChip.ripen q.val).ptpPort q.val).reqSent = some t3)
    (forward : ((s.toChip.ripen q.val).ptpPort q.val).forward = some fwd) :
    exec (.delayResp q h r o k) s = .next (s.withChip (((s.toChip.ripen q.val).setPtp q.val
      { (s.toChip.ripen q.val).ptpPort q.val with reqSent := none }).pathDelay
        (floorDiv (fwd + ((o : Int) * 65536 - k - t3)) 2))) := by
  refine (go_ptpTake same on _).trans ?_
  dsimp only
  rw [if_pos ⟨own, seq, followed⟩, sent, forward]

theorem exec_delayReq_answers (same : s.toChip.ptpMatches h = true) (on : s.toChip.ptpOn q.val = true) {k : Int} {a : PortStamp}
    (master : (s.toChip.ripen q.val).get (Reg.ENET_STATUS_PORT_STATE q.val) = 6)
    (e2e : (s.toChip.ripen q.val).get Reg.ETM_PTP_CFG_DELAY_MECH = 0) :
    exec (.delayReq q ⟨h, k⟩ a) s = .next (s.withChip ((s.toChip.ripen q.val).ptpAnswer q.val 9 h.seq.toNat
      ((s.toChip.ripen q.val).ingress q.val a) k h.source)) := by
  refine (go_ptpTake same on _).trans ?_
  dsimp only
  rw [if_pos ⟨master, e2e⟩]

theorem exec_pdelayReq_answers (same : s.toChip.ptpMatches h = true) (on : s.toChip.ptpOn q.val = true) {k : Int} {a b : PortStamp}
    (p2p : (s.toChip.ripen q.val).get Reg.ETM_PTP_CFG_DELAY_MECH = 1) :
    let c := s.toChip.ripen q.val
    exec (.pdelayReq q ⟨h, k⟩ a b) s = .next (s.withChip (if c.flag Reg.ETM_PTP_CFG_ONE_STEP then
      c.ptpAnswer q.val 3 h.seq.toNat 0 (k + (c.egress q.val b - c.ingress q.val a)) h.source else
      (c.ptpAnswer q.val 3 h.seq.toNat (c.ingress q.val a) 0 h.source).ptpAnswer q.val 10 h.seq.toNat (c.egress q.val b) k h.source)) := by
  refine (go_ptpTake same on _).trans ?_
  dsimp only
  rw [if_pos p2p]

theorem exec_pdelayResp_measures (same : s.toChip.ptpMatches h = true) (on : s.toChip.ptpOn q.val = true) {r : PortId} {o : Nat}
    {k t1 : Int} {a : PortStamp} (own : r = (s.toChip.ripen q.val).ownId q.val)
    (seq : h.seq.toNat = (((s.toChip.ripen q.val).ptpPort q.val).seqDelay + 65535) % 65536)
    (sent : ((s.toChip.ripen q.val).ptpPort q.val).reqSent = some t1)
    (parent : (s.toChip.ripen q.val).servo.parent.isSome = true) (here : (s.toChip.ripen q.val).servo.parentPort = q.val) :
    exec (.pdelayResp q h (.resp r o k false a)) s = .next (s.withChip (((s.toChip.ripen q.val).setPtp q.val
      { (s.toChip.ripen q.val).ptpPort q.val with reqSent := none }).pathDelay
        (floorDiv ((s.toChip.ripen q.val).ingress q.val a - t1 - k) 2))) := by
  refine (go_ptpTake same on _).trans ?_
  dsimp only
  rw [sent]
  dsimp only
  rw [if_pos ⟨own, seq⟩, if_neg (by decide)]
  exact congrArg (fun c => Host.Outcome.next (s.withChip c)) (if_pos ⟨parent, here⟩)

/-- An Announce of another clock takes the place of what was heard from its sender, and the algorithm is run. -/
theorem exec_announce_records (same : s.toChip.ptpMatches h = true) (on : s.toChip.ptpOn q.val = true) (m : AnnounceMsg)
    (other : h.source.clock ≠ ((s.toChip.ripen q.val).ownId q.val).clock) :
    let c := s.toChip.ripen q.val
    let x := c.ptpPort q.val
    exec (.announce q h m) s = .next (s.withChip ((c.setPtp q.val { x with
      foreign := (x.foreign.filter fun (f : Foreign) => !decide (f.source = h.source)) ++
        [⟨h.source, m, c.clk, (x.foreign.find? fun (f : Foreign) => decide (f.source = h.source)).map (·.last)⟩]
      timedOut := false
      announceDue := if c.announceCounts q.val h.source then some (c.clk + c.announceWait) else x.announceDue }).bmca)) := by
  refine (go_ptpTake same on _).trans ?_
  dsimp only
  rw [if_neg other]

end

/-- Settles O17: the messages by one equation each, the sample by the branch of the rule it takes. -/
theorem ptpMessagesDriveTheServo : Obligations.PtpMessagesDriveTheServo := by
  refine ⟨discarded_messages, ⟨fun c q t1 t2 mean valid none => Chip.servoSync_sample q t1 t2 valid none,
    fun c m k mean => Chip.pathDelay_filters k mean, fun q h s same on => ?_⟩, Chip.servoSample_rule⟩
  refine ⟨fun o k a followed => exec_sync_oneStep same on followed, fun o k a => exec_sync_twoStep same on,
    fun o k m half source seq followed => exec_followUp_completes same on half source seq followed,
    fun r o k t3 fwd own seq followed sent forward => exec_delayResp_measures same on own seq followed sent forward,
    fun k a master e2e => exec_delayReq_answers same on master e2e, fun k a b p2p => exec_pdelayReq_answers same on p2p,
    fun r o k a t1 own seq sent parent here => exec_pdelayResp_measures same on own seq sent parent here, fun m other => ?_⟩
  refine ⟨_, _, _, exec_announce_records same on m other, fun followed => ?_, fun g mem => ?_⟩
  · exact if_pos (by unfold Chip.announceCounts; rw [followed]; rfl)
  · obtain ⟨heard, apart⟩ := List.mem_filter.mp mem
    exact ⟨heard, by simpa using apart⟩

end Sys2Proof.Machine
end

