-- ==== Sys2Proof/Proofs/PtpIntervals.lean ====
section
/-! PROOF. Proofs/PtpIntervals.lean: PTP intervals, receipt timeouts and links (R65, R66, R76). -/

namespace Sys2Proof.Machine

/-! ### Intervals (R65, R66) -/

section
variable {q : Fin 2} {s : State}

/-- A port in MASTER sends Sync, with its time or with a Follow_Up. -/
theorem exec_syncInterval_master (a : PortStamp) (on : s.toChip.ptpOn q.val = true)
    (master : (s.toChip.qualify q.val).get (Reg.ENET_STATUS_PORT_STATE q.val) = 6) :
    let e := s.toChip.qualify q.val
    let x := e.ptpPort q.val
    let c := e.advanceTo x.nextSync
    let d := c.setPtp q.val { x with seqSync := (x.seqSync + 1) % 65536, nextSync := c.clk + intervalNs c.logSync }
    exec (.syncInterval q a) s = .next (s.withChip (if c.flag Reg.ETM_PTP_CFG_ONE_STEP then
      d.ptpSend q.val 0 x.seqSync (c.egress q.val a) 0 else
      (d.ptpSend q.val 0 x.seqSync 0 0).ptpSend q.val 8 x.seqSync (c.egress q.val a) 0)) :=
  congrArg (fun c => Host.Outcome.next (s.withChip c)) (if_pos ⟨on, master⟩)

/-- A port in MASTER sends Announce. -/
theorem exec_announceInterval_master (on : s.toChip.ptpOn q.val = true)
    (master : (s.toChip.qualify q.val).get (Reg.ENET_STATUS_PORT_STATE q.val) = 6) :
    let e := s.toChip.qualify q.val
    let x := e.ptpPort q.val
    let c := e.advanceTo x.nextAnnounce
    let d := c.setPtp q.val { x with
      seqAnnounce := (x.seqAnnounce + 1) % 65536
      nextAnnounce := c.clk + intervalNs (c.getI Reg.ETM_PTP_CFG_LOG_ANNOUNCE) }
    exec (.announceInterval q) s = .next (s.withChip (d.emit (.ptp q.val 11 x.seqAnnounce d.ptpNow 0 none (some d.announced)))) :=
  congrArg (fun c => Host.Outcome.next (s.withChip c)) (if_pos ⟨on, master⟩)

/-- A slave port, or with peer delay every port, sends its request. -/
theorem exec_delayInterval_sends (a : PortStamp) (on : s.toChip.ptpOn q.val = true)
    (asks : s.toChip.flag Reg.ETM_PTP_CFG_DELAY_MECH = true ∨ s.toChip.get (Reg.ENET_STATUS_PORT_STATE q.val) = 8 ∨
      s.toChip.get (Reg.ENET_STATUS_PORT_STATE q.val) = 9) :
    let x := s.toChip.ptpPort q.val
    let c := s.toChip.advanceTo x.nextDelay
    exec (.delayInterval q a) s = .next (s.withChip ((c.setPtp q.val { x with
      seqDelay := (x.seqDelay + 1) % 65536
      nextDelay := c.clk + intervalNs (c.getI Reg.ETM_PTP_CFG_LOG_DELAY)
      reqSent := some (c.egress q.val a)
      pdelayHalf := none }).ptpSend q.val (if s.toChip.flag Reg.ETM_PTP_CFG_DELAY_MECH then 2 else 1) x.seqDelay 0 0)) :=
  congrArg (fun c => Host.Outcome.next (s.withChip c)) (if_pos ⟨on, asks⟩)

end

/-! ### HOLDOVER (R75, R76) -/

/-- HOLDOVER entered from another state: its cause and EV228, and RATE the held rate once the servo has been in LOCKED. -/
theorem Chip.enterHoldover_enters {c : Chip} {cause : Nat} (h : c.get Reg.ETM_STATUS_STATE ≠ 3) (small : cause < 4) :
    let d := c.enterHoldover cause
    d.get Reg.ETM_STATUS_STATE = 3 ∧ d.get Reg.ETM_STATUS_HOLD_CAUSE = cause ∧ c.tells d 228 cause ∧
      (c.servo.everLocked = true → d.getI Reg.ETM_RATE_RATE = clampRate c.servo.base) ∧
      c.keepsRegs d [Reg.ETM_STATUS_STATE.off, Reg.ETM_RATE_RATE.off] ∧ { c with servo := d.servo }.sameBut5 d := by
  dsimp only
  obtain ⟨v, base, run, held⟩ : ∃ v base, c.enterHoldover cause = ((((((c.setServo v).setRate base).put Reg.ETM_STATUS_SLEWING 0).put
      Reg.ETM_STATUS_HOLD_CAUSE cause).servoState 3).raise 228 cause []) ∧ (c.servo.everLocked = true → base = c.servo.base) :=
    ⟨_, _, if_neg h, fun locked => if_pos locked⟩
  rw [run]
  have seen : ∀ f : Field, f.lo < 32 → (f.off < 0x20000 ∨ 0x22000 ≤ f.off) → ∀ d : Chip,
      (d.raise 228 cause []).get f = d.get f := fun f l o d => Chip.get_raise d _ _ (by decide) l o
  refine ⟨?_, ?_, Chip.tells_raise _ ?_ (by decide) (by omega), fun locked => ?_, ?_, ?_⟩
  · rw [seen _ (by decide) (by decide)]
    exact Chip.get_put_self ..
  · rw [seen _ (by decide) (by decide)]
    unfold Chip.servoState
    rw [Chip.get_put_ne _ _ _ _ (by decide), Chip.get_put_self]
    exact Nat.mod_eq_of_lt small
  · unfold Chip.servoState
    rw [Chip.get_put_ne _ _ _ _ (by decide), Chip.get_put_ne _ _ _ _ (by decide), Chip.get_put_ne _ _ _ _ (by decide),
      Chip.get_setRate _ _ (by decide), Chip.get_setServo]
  · rw [Chip.getI_congr (seen _ (by decide) (by decide) _)]
    unfold Chip.servoState
    rw [Chip.getI_congr (Chip.get_put_ne _ _ _ _ (by decide)), Chip.getI_congr (Chip.get_put_ne _ _ _ _ (by decide)),
      Chip.getI_congr (Chip.get_put_ne _ _ _ _ (by decide)), Chip.getI_setRate, held locked]
  · refine Chip.keepsRegs_trans ?_ (Chip.keepsRegs_raise _ _ _ _ (by decide))
    refine Chip.keepsRegs_trans ?_ (Chip.keepsRegs_put _ _ (by decide) (by decide))
    refine Chip.keepsRegs_trans ?_ (Chip.keepsRegs_put _ _ (by decide) (by decide))
    refine Chip.keepsRegs_trans ?_ (Chip.keepsRegs_put _ _ (by decide) (by decide))
    exact Chip.keepsRegs_trans (Chip.keepsRegs_of_regs rfl _) (Chip.keepsRegs_put (c.setServo v) _ (by decide) (by decide))
  · rw [Chip.raise_servo]
    exact Chip.raise_rest _ _ _ _

/-- Nothing of the network ports is written but the port states. -/
def Chip.keepsPorts (c d : Chip) : Prop :=
  ∀ f : Field, f.lo < 32 → 0x40000 ≤ f.off → f.off < 0x210000 → f.key ≠ (Reg.ENET_STATUS_PORT_STATE 0).key →
    f.key ≠ (Reg.ENET_STATUS_PORT_STATE 1).key → d.get f = c.get f

theorem Chip.keepsPorts_refl (c : Chip) : c.keepsPorts c := fun _ _ _ _ _ _ => rfl

section
variable {c d : Chip}

theorem Chip.keepsPorts.trans {e : Chip} (h : c.keepsPorts d) (k : d.keepsPorts e) : c.keepsPorts e :=
  fun f l lo hi a b => (k f l lo hi a b).trans (h f l lo hi a b)

theorem Chip.keepsPorts.of_regs {e : Chip} (h : c.keepsPorts d) (k : e.regs = d.regs) : c.keepsPorts e :=
  fun f l lo hi a b => (Chip.get_congr k f).trans (h f l lo hi a b)

theorem Chip.keepsPorts.setPtp (h : c.keepsPorts d) (q : Nat) (x : PtpPort) : c.keepsPorts (d.setPtp q x) := h

theorem Chip.keepsPorts.setServo (h : c.keepsPorts d) (v : Servo) : c.keepsPorts (d.setServo v) := h

theorem Chip.keepsPorts.forgetHalves (h : c.keepsPorts d) (q : Nat) : c.keepsPorts (d.forgetHalves q) := h

theorem Chip.keepsPorts.put (h : c.keepsPorts d) {g : Field} (gl : g.lo < 32) (far : g.off < 0x40000 ∨ 0x210000 ≤ g.off) (v : Nat) :
    c.keepsPorts (d.put g v) :=
  fun f l lo hi a b => (Chip.get_put_off d g f v gl l (by omega)).trans (h f l lo hi a b)

theorem Chip.keepsPorts.put64 (h : c.keepsPorts d) {lo hi : Field} (ll : lo.lo < 32) (lf : lo.off < 0x40000 ∨ 0x210000 ≤ lo.off)
    (hl : hi.lo < 32) (hf : hi.off < 0x40000 ∨ 0x210000 ≤ hi.off) (v : Nat) : c.keepsPorts (d.put64 lo hi v) :=
  (h.put ll lf _).put hl hf _

theorem Chip.keepsPorts.raise (h : c.keepsPorts d) {src : Nat} (hs : src < 256) (cause : Nat) (items : List (Nat × Nat)) :
    c.keepsPorts (d.raise src cause items) :=
  fun f l lo hi a b => (Chip.get_raise d cause items hs l (by omega)).trans (h f l lo hi a b)

/-- The state decision of a port writes its state. -/
theorem Chip.keepsPorts.decidePort (h : c.keepsPorts d) {q : Nat} (hq : q < 2) (sel : Option (Foreign × Nat)) :
    c.keepsPorts (d.decidePort q sel) := by
  obtain ⟨v, x, run⟩ : ∃ v x, d.decidePort q sel = (d.put (Reg.ENET_STATUS_PORT_STATE q) v).setPtp q x := by
    unfold Chip.decidePort
    dsimp only
    split
    · split <;> exact ⟨_, _, rfl⟩
    · exact ⟨_, _, rfl⟩
  intro f l lo hi a b
  have ne : f.key ≠ (Reg.ENET_STATUS_PORT_STATE q).key := by
    rcases (by omega : q = 0 ∨ q = 1) with rfl | rfl
    · exact a
    · exact b
  rw [run, Chip.get_setPtp, Chip.get_put_ne _ _ _ _ ne]
  exact h f l lo hi a b

/-- HOLDOVER writes registers of ETM. -/
theorem Chip.keepsPorts.enterHoldover (h : c.keepsPorts d) (cause : Nat) : c.keepsPorts (d.enterHoldover cause) := by
  unfold Chip.enterHoldover
  dsimp only
  generalize hb : Chip.setRate _ _ = b
  have rate : c.keepsPorts b := by
    rw [← hb]
    refine Chip.keepsPorts.put ?_ (by decide) (by decide) _
    exact h.of_regs rfl
  have shown := (rate.put (g := Reg.ETM_STATUS_SLEWING) (by decide) (by decide) 0).put (g := Reg.ETM_STATUS_HOLD_CAUSE) (by decide)
    (by decide) cause
  split
  · exact shown
  · exact (shown.put (g := Reg.ETM_STATUS_STATE) (by decide) (by decide) 3).raise (by decide) _ _

/-- The algorithm writes registers of ETM and the port states. -/
theorem Chip.keepsPorts_bmca (c : Chip) : c.keepsPorts c.bmca := by
  unfold Chip.bmca
  dsimp only
  split
  · refine Chip.keepsPorts.decidePort (Chip.keepsPorts.decidePort ?_ (by decide) _) (by decide) _
    split
    · exact ((Chip.keepsPorts_refl c).enterHoldover 2).of_regs rfl
    · exact Chip.keepsPorts_refl c
  · split
    · exact ((Chip.keepsPorts_refl c).decidePort (by decide) _).decidePort (by decide) _
    · refine Chip.keepsPorts.raise ?_ (by decide) _ _
      refine Chip.keepsPorts.decidePort (Chip.keepsPorts.decidePort ?_ (by decide) _) (by decide) _
      have entered : c.keepsPorts (c.enterHoldover 2) := (Chip.keepsPorts_refl c).enterHoldover 2
      generalize c.enterHoldover 2 = b at entered
      refine Chip.keepsPorts.setPtp (Chip.keepsPorts.forgetHalves ?_ _) _ _
      refine Chip.keepsPorts.put (Chip.keepsPorts.put ?_ (by decide) (by decide) _) (by decide) (by decide) _
      refine Chip.keepsPorts.put64 ?_ (by decide) (by decide) (by decide) (by decide) _
      exact entered.setServo _

end

/-- With no master left a followed parent is given up: HOLDOVER with its cause (R76). -/
theorem Chip.bmca_of_no_master {c : Chip} (parent : c.servo.parent.isSome = true) (alone : c.ebest = none) :
    c.bmca = (((c.enterHoldover 2).setServo { (c.enterHoldover 2).servo with parent := none }).decidePort 0 none).decidePort 1 none := by
  unfold Chip.bmca
  rw [alone]
  dsimp only [Option.filter_none]
  rw [if_pos parent]

/-- A decision without a master leaves the servo and the registers below those of the network ports. -/
theorem Chip.decidePort_none_frame (c : Chip) (q : Nat) : (c.decidePort q none).servo = c.servo ∧
    ∀ f : Field, f.lo < 32 → f.off < 0x40000 → (c.decidePort q none).get f = c.get f :=
  ⟨rfl, fun f l low => Chip.get_put_off c _ f _ (by show 4 < 32; omega) l (by show f.off ≠ 0x40004 + 0x1000 * q; omega)⟩

/-- The loss of every master (R76). -/
theorem Chip.bmca_loses_parent {c : Chip} (parent : c.servo.parent.isSome = true) (alone : c.ebest = none)
    (h : c.get Reg.ETM_STATUS_STATE ≠ 3) :
    c.bmca.get Reg.ETM_STATUS_STATE = 3 ∧ c.bmca.get Reg.ETM_STATUS_HOLD_CAUSE = 2 ∧ c.bmca.servo.parent = none ∧
      c.tells c.bmca 228 2 := by
  obtain ⟨state, cause, tells, -, -, -⟩ := Chip.enterHoldover_enters h (cause := 2) (by decide)
  generalize hd : (c.enterHoldover 2).setServo { (c.enterHoldover 2).servo with parent := none } = d
  have run : c.bmca = (d.decidePort 0 none).decidePort 1 none := by rw [← hd, Chip.bmca_of_no_master parent alone]
  have low : ∀ f : Field, f.lo < 32 → f.off < 0x40000 → c.bmca.get f = (c.enterHoldover 2).get f := fun f l o => by
    rw [run, (Chip.decidePort_none_frame _ 1).2 f l o, (Chip.decidePort_none_frame d 0).2 f l o, ← hd, Chip.get_setServo]
  refine ⟨(low _ (by decide) (by decide)).trans state, (low _ (by decide) (by decide)).trans cause, ?_,
    Chip.tells_congr tells fun f l o => low f l (by omega)⟩
  rw [run, (Chip.decidePort_none_frame _ 1).1, (Chip.decidePort_none_frame d 0).1, ← hd, Chip.setServo_servo]

/-! ### Receipt timeouts (R76) -/

theorem exec_syncReceiptTimeout {s : State} {due : Nat} (waits : s.toChip.servo.syncDue = some due)
    (h : s.toChip.get Reg.ETM_STATUS_STATE ≠ 3) :
    exec .syncReceiptTimeout s = .next (s.withChip (((s.toChip.advanceTo due).enterHoldover 1).put
      (Reg.ENET_STATUS_PORT_STATE s.toChip.servo.parentPort) 8)) := by
  refine congrArg (fun c => Host.Outcome.next (s.withChip c)) ?_
  rw [waits]
  exact if_neg h

theorem exec_announceReceiptTimeout {q : Fin 2} {s : State} {due : Nat} (waits : (s.toChip.ptpPort q.val).announceDue = some due) :
    exec (.announceReceiptTimeout q) s = .next (s.withChip ((s.toChip.advanceTo due).announceLost q.val)) := by
  refine congrArg (fun c => Host.Outcome.next (s.withChip c)) ?_
  rw [waits]

theorem Chip.advanceTo_servo (c : Chip) (t : Nat) : (c.advanceTo t).servo = c.servo := by
  rw [Chip.advanceTo_rest c t]

/-- No Sync in time: HOLDOVER with its cause, and the parent's port in UNCALIBRATED. -/
theorem Chip.syncLost {c : Chip} (h : c.get Reg.ETM_STATUS_STATE ≠ 3) (p : Nat) :
    let d := (c.enterHoldover 1).put (Reg.ENET_STATUS_PORT_STATE p) 8
    d.get Reg.ETM_STATUS_STATE = 3 ∧ d.get Reg.ETM_STATUS_HOLD_CAUSE = 1 ∧ c.tells d 228 1 ∧
      (c.servo.everLocked = true → d.getI Reg.ETM_RATE_RATE = clampI c.servo.base (-4294967) 4294967) ∧
      c.keepsRegs d [Reg.ETM_STATUS_STATE.off, Reg.ETM_RATE_RATE.off, (Reg.ENET_STATUS_PORT_STATE p).off] ∧
      { c with servo := d.servo }.sameBut5 d := by
  dsimp only
  obtain ⟨state, cause, tells, rate, regs, rest⟩ := Chip.enterHoldover_enters h (cause := 1) (by decide)
  have low : ∀ f : Field, f.lo < 32 → f.off < 0x40000 → ((c.enterHoldover 1).put (Reg.ENET_STATUS_PORT_STATE p) 8).get f =
      (c.enterHoldover 1).get f := fun f l o =>
    Chip.get_put_off _ _ _ _ (by show 4 < 32; omega) l (by show f.off ≠ 0x40004 + 0x1000 * p; omega)
  refine ⟨(low _ (by decide) (by decide)).trans state, (low _ (by decide) (by decide)).trans cause,
    Chip.tells_congr tells fun f l o => low f l (by omega), fun locked => ?_, ?_, ?_⟩
  · exact (Chip.getI_congr (low _ (by decide) (by decide))).trans (rate locked)
  · refine Chip.keepsRegs_trans (fun f l o n => regs f l o fun k => n ?_) (Chip.keepsRegs_put _ _ (by show 4 < 32; omega) (by simp))
    exact List.mem_append_left [(Reg.ENET_STATUS_PORT_STATE p).off] k
  · exact Chip.sameBut5_trans rest (Chip.sameBut5_put ..)

/-! ### Links of the network ports (R76, R80) -/

/-- Link and lock of a port shown, with the reset of its side of X18 where block lock is lost (R459). -/
def Chip.showLink (c : Chip) (q : Nat) (link blockLock fecLock : Bool) : Chip :=
  let had := c.flag (Reg.ENET_STATUS_BLOCK_LOCK q)
  let c := (c.putB (Reg.ENET_STATUS_LINK q) link).putB (Reg.ENET_STATUS_BLOCK_LOCK q) blockLock
  let c := c.putB (Reg.ENET_STATUS_FEC_LOCK q) (fecLock && decide (c.get (Reg.ENET_CTRL_MODE q) = 2))
  c.on (had && !blockLock) fun c => c.flushQueue 18 q none

/-- What a change told of a port's link leads to. -/
def Chip.linkChanged (c : Chip) (q : Nat) (up : Bool) : Chip :=
  let c := (c.put (Reg.ENET_STATUS_LINK_CHG q) 1).raise (232 + q) 0 []
  if up then (c.setPtp q { c.ptpPort q with announceDue := some (c.clk + c.announceWait) }).bmca
  else
    let lost := c.servo.parent.isSome && decide (c.servo.parentPort = q)
    let c := c.setPtp q { seqSync := (c.ptpPort q).seqSync, seqDelay := (c.ptpPort q).seqDelay,
                          seqAnnounce := (c.ptpPort q).seqAnnounce }
    let c := if lost then
        let c := c.enterHoldover 3
        c.setServo { c.servo with parent := none }
      else c
    c.bmca

theorem Chip.ethLink_eq (c : Chip) (q : Nat) (link blockLock fecLock : Bool) :
    c.ethLink q link blockLock fecLock =
      if decide (c.flag (Reg.ENET_STATUS_LINK q) ≠ link) || decide (c.flag (Reg.ENET_STATUS_BLOCK_LOCK q) ≠ blockLock) then
        (c.showLink q link blockLock fecLock).linkChanged q (link && blockLock)
      else c.showLink q link blockLock fecLock := by
  unfold Chip.ethLink Chip.linkChanged
  dsimp only
  simp only [Bool.and_eq_true]
  rfl

theorem exec_ethLinkChange (q : Fin 2) (link blockLock fecLock : Bool) (s : State) :
    exec (.ethLinkChange q link blockLock fecLock) s = .next (s.withChip (s.toChip.ethLink q.val link blockLock fecLock)) := rfl

/-- A queue crossing that is flushed writes registers of CKP. -/
theorem Chip.keepsPorts_flushQueue (c : Chip) (x inst : Nat) (depth : Option Nat) : c.keepsPorts (c.flushQueue x inst depth) := by
  obtain ⟨n, run⟩ : ∃ n, c.flushQueue x inst depth =
      if n = 0 then (c.quarantine x inst).drawn
      else ((((((c.quarantine x inst).drawn.bump Reg.CKP_XING_FLUSHED_COUNT n).put Reg.CKP_XING_LAST_XING x).put
        Reg.CKP_XING_LAST_INSTANCE inst).put Reg.CKP_XING_LAST_ENTRIES (min n 65535)).raise 246 0 [(1, x), (4, n)]) := ⟨_, rfl⟩
  have quarantined : c.keepsPorts (c.quarantine x inst).drawn := by
    refine Chip.keepsPorts.of_regs (d := c.quarantine x inst) ?_ rfl
    refine Chip.keepsPorts.put ?_ (by decide) (by decide) _
    exact (Chip.keepsPorts_refl c).of_regs rfl
  rw [run]
  split
  · exact quarantined
  · refine Chip.keepsPorts.raise ?_ (by decide) _ _
    refine Chip.keepsPorts.put (Chip.keepsPorts.put (Chip.keepsPorts.put ?_ (by decide) (by decide) _) (by decide) (by decide) _)
      (by decide) (by decide) _
    exact quarantined.put (by decide) (by decide) _

/-- What follows a change leaves the port's link and lock as shown, and the note of the change. -/
theorem Chip.keepsPorts_linkChanged (c : Chip) {q : Nat} (hq : q < 2) (up : Bool) :
    (c.put (Reg.ENET_STATUS_LINK_CHG q) 1).keepsPorts (c.linkChanged q up) := by
  unfold Chip.linkChanged
  dsimp only
  have told := (Chip.keepsPorts_refl (c.put (Reg.ENET_STATUS_LINK_CHG q) 1)).raise (src := 232 + q) (by omega) 0 []
  generalize (c.put (Reg.ENET_STATUS_LINK_CHG q) 1).raise (232 + q) 0 [] = d at told
  split
  · exact (told.setPtp _ _).trans (Chip.keepsPorts_bmca _)
  · split
    · exact (((told.setPtp _ _).enterHoldover 3).setServo _).trans (Chip.keepsPorts_bmca _)
    · exact (told.setPtp _ _).trans (Chip.keepsPorts_bmca _)

theorem Chip.flag_putB (c : Chip) {f : Field} (b : Bool) (w : 0 < f.width) : (c.putB f b).flag f = b := by
  unfold Chip.flag
  rw [Chip.get_putB_self c f b w]
  cases b <;> rfl

/-- A field of a port's ENET.STATUS but PORT_STATE reads as before. -/
theorem Chip.keepsPorts.get_status {c d : Chip} (h : c.keepsPorts d) {q : Nat} (hq : q < 2) {f : Field} (here : f.off = 0x40004 + 0x1000 * q)
    (l : f.lo < 32) (ne : f.lo ≠ 4) : d.get f = c.get f := by
  refine h f l (by omega) (by omega) ?_ ?_
  · show f.off * 32 + f.lo ≠ (0x40004 + 0x1000 * 0) * 32 + 4
    omega
  · show f.off * 32 + f.lo ≠ (0x40004 + 0x1000 * 1) * 32 + 4
    omega

/-- A port's link and lock read as shown. -/
theorem Chip.flag_showLink (c : Chip) {q : Nat} (hq : q < 2) (link blockLock fecLock : Bool) :
    (c.showLink q link blockLock fecLock).flag (Reg.ENET_STATUS_LINK q) = link ∧
      (c.showLink q link blockLock fecLock).flag (Reg.ENET_STATUS_BLOCK_LOCK q) = blockLock := by
  unfold Chip.showLink
  dsimp only
  generalize (fecLock && _) = fec
  generalize hd : (c.putB (Reg.ENET_STATUS_LINK q) link).putB (Reg.ENET_STATUS_BLOCK_LOCK q) blockLock = d
  have flushed : ∀ lost : Bool, (d.putB (Reg.ENET_STATUS_FEC_LOCK q) fec).keepsPorts
      ((d.putB (Reg.ENET_STATUS_FEC_LOCK q) fec).on lost fun c => c.flushQueue 18 q none) := by
    intro lost
    cases lost
    · exact Chip.keepsPorts_refl _
    · exact Chip.keepsPorts_flushQueue _ 18 q none
  have apart : (Reg.ENET_STATUS_LINK q).key ≠ (Reg.ENET_STATUS_BLOCK_LOCK q).key ∧
      (Reg.ENET_STATUS_LINK q).key ≠ (Reg.ENET_STATUS_FEC_LOCK q).key ∧
      (Reg.ENET_STATUS_BLOCK_LOCK q).key ≠ (Reg.ENET_STATUS_FEC_LOCK q).key := by
    simp [Field.key, Reg.ENET_STATUS_LINK, Reg.ENET_STATUS_BLOCK_LOCK, Reg.ENET_STATUS_FEC_LOCK]
  obtain ⟨linkBlock, linkFec, blockFec⟩ := apart
  constructor
  · rw [Chip.flag_congr ((flushed _).get_status hq rfl (by show 0 < 32; omega) (by show 0 ≠ 4; omega)),
      Chip.flag_congr (Chip.get_putB_ne _ _ _ _ linkFec), ← hd, Chip.flag_congr (Chip.get_putB_ne _ _ _ _ linkBlock)]
    exact Chip.flag_putB _ _ (by show 0 < 1; omega)
  · rw [Chip.flag_congr ((flushed _).get_status hq rfl (by show 1 < 32; omega) (by show 1 ≠ 4; omega)),
      Chip.flag_congr (Chip.get_putB_ne _ _ _ _ blockFec), ← hd]
    exact Chip.flag_putB _ _ (by show 0 < 1; omega)

/-- A network port shows its link and lock, and notes a change. -/
theorem Chip.ethLink_shows (c : Chip) {q : Nat} (hq : q < 2) (link blockLock fecLock : Bool) :
    let d := c.ethLink q link blockLock fecLock
    d.flag (Reg.ENET_STATUS_LINK q) = link ∧ d.flag (Reg.ENET_STATUS_BLOCK_LOCK q) = blockLock ∧
      ((c.flag (Reg.ENET_STATUS_LINK q) ≠ link ∨ c.flag (Reg.ENET_STATUS_BLOCK_LOCK q) ≠ blockLock) →
        d.get (Reg.ENET_STATUS_LINK_CHG q) = 1) := by
  dsimp only
  rw [Chip.ethLink_eq]
  obtain ⟨shownLink, shownLock⟩ := c.flag_showLink hq link blockLock fecLock
  generalize c.showLink q link blockLock fecLock = d at shownLink shownLock
  split
  · have kept := d.keepsPorts_linkChanged hq (link && blockLock)
    refine ⟨?_, ?_, fun _ => ?_⟩
    · rw [Chip.flag_congr (kept.get_status hq rfl (by show 0 < 32; omega) (by show 0 ≠ 4; omega)),
        Chip.flag_congr (Chip.get_put_ne _ _ _ _ (by simp [Field.key, Reg.ENET_STATUS_LINK, Reg.ENET_STATUS_LINK_CHG]))]
      exact shownLink
    · rw [Chip.flag_congr (kept.get_status hq rfl (by show 1 < 32; omega) (by show 1 ≠ 4; omega)),
        Chip.flag_congr (Chip.get_put_ne _ _ _ _ (by simp [Field.key, Reg.ENET_STATUS_BLOCK_LOCK, Reg.ENET_STATUS_LINK_CHG]))]
      exact shownLock
    · rw [kept.get_status hq rfl (by show 8 < 32; omega) (by show 8 ≠ 4; omega)]
      exact Chip.get_put_self ..
  · next same =>
    refine ⟨shownLink, shownLock, fun changed => absurd ?_ same⟩
    rwa [Bool.or_eq_true, decide_eq_true_eq, decide_eq_true_eq]

/-- Settles O18: intervals send by one equation each, HOLDOVER is entered in one way, and a link change keeps what it shows. -/
theorem ptpIntervalsAndHoldover : Obligations.PtpIntervalsAndHoldover := by
  refine ⟨fun q a s on => ⟨fun master => exec_syncInterval_master a on master, fun master => exec_announceInterval_master on master,
    fun asks => exec_delayInterval_sends a on (asks.imp_right Or.symm)⟩,
    fun s due waits h => ?_, fun q s due waits => exec_announceReceiptTimeout waits,
    fun c parent alone h => Chip.bmca_loses_parent parent alone h, fun q link blockLock fecLock s => ?_⟩
  · refine ⟨_, exec_syncReceiptTimeout waits h, ?_⟩
    rw [← Chip.advanceTo_servo s.toChip due]
    exact Chip.syncLost (by rw [Chip.get_advanceTo _ _ (by decide)]; exact h) _
  · exact ⟨_, exec_ethLinkChange .., Chip.ethLink_shows _ q.isLt link blockLock fecLock⟩

end Sys2Proof.Machine
end

