-- ==== Sys2Proof/Proofs/RingFrames.lean ====
section
/-! PROOF. Proofs/RingFrames.lean: what an operation keeps, as the proofs of the host interface use it: registers at a set of
offsets, rings, and outputs that are MSI-X messages alone. -/

namespace Sys2Proof.Machine

/-! ### Registers kept at a set of offsets -/

/-- Every field whose offset is in a set reads as before. -/
def Chip.keepsAt (c d : Chip) (P : Nat → Prop) : Prop := ∀ f : Field, f.lo < 32 → P f.off → d.get f = c.get f

section
variable {c d e : Chip} {P : Nat → Prop}

theorem Chip.keepsAt_refl (c : Chip) (P : Nat → Prop) : c.keepsAt c P := fun _ _ _ => rfl

theorem Chip.keepsAt.trans (h : c.keepsAt d P) (k : d.keepsAt e P) : c.keepsAt e P :=
  fun f l o => (k f l o).trans (h f l o)

theorem Chip.keepsAt.of_regs (h : c.keepsAt d P) (k : e.regs = d.regs) : c.keepsAt e P :=
  fun f l o => (Chip.get_congr k f).trans (h f l o)

theorem Chip.keepsAt.mono (h : c.keepsAt d P) {Q : Nat → Prop} (sub : ∀ o, Q o → P o) : c.keepsAt d Q :=
  fun f l o => h f l (sub _ o)

theorem Chip.keepsAt.put (h : c.keepsAt d P) (g : Field) (v : Nat) (n : ¬P g.off) (l : g.lo < 32 := by exact of_decide_eq_true rfl) :
    c.keepsAt (d.put g v) P :=
  fun f fl o => (Chip.get_put_off d g f v l fl fun same => n (same ▸ o)).trans (h f fl o)

theorem Chip.keepsAt.raise (h : c.keepsAt d P) {src : Nat} (hs : src < 256) (cause : Nat) (items : List (Nat × Nat))
    (far : ∀ o, P o → o < 0x20000 ∨ 0x22000 ≤ o) : c.keepsAt (d.raise src cause items) P :=
  fun f l o => (Chip.get_raise d cause items hs l (far _ o)).trans (h f l o)

theorem Chip.keepsAt_foldl {α : Type} {g : Chip → α → Chip} {l : List α} (step : ∀ d : Chip, ∀ x ∈ l, d.keepsAt (g d x) P) (c : Chip) :
    c.keepsAt (l.foldl g c) P := by
  induction l generalizing c with
  | nil => exact Chip.keepsAt_refl c P
  | cons a l ih => exact (step c a (List.mem_cons_self ..)).trans (ih (fun d x m => step d x (List.mem_cons_of_mem _ m)) _)

end

/-- The offsets outside the event block and outside a list. -/
def quietOff (offs : List Nat) (o : Nat) : Prop := (o < 0x20000 ∨ 0x22000 ≤ o) ∧ o ∉ offs

section
variable {c d : Chip} {offs : List Nat}

theorem Chip.keepsAt.keepsRegs (h : c.keepsAt d (quietOff offs)) : c.keepsRegs d offs := fun f l o n => h f l ⟨o, n⟩

theorem Chip.keepsAt.putIn (h : c.keepsAt d (quietOff offs)) (g : Field) (v : Nat) (m : g.off ∈ offs)
    (l : g.lo < 32 := by exact of_decide_eq_true rfl) : c.keepsAt (d.put g v) (quietOff offs) :=
  h.put g v (fun q => q.2 m) l

theorem Chip.keepsAt.raiseQuiet (h : c.keepsAt d (quietOff offs)) {src : Nat} (hs : src < 256) (cause : Nat)
    (items : List (Nat × Nat)) : c.keepsAt (d.raise src cause items) (quietOff offs) :=
  h.raise hs cause items fun _ q => q.1

end

theorem Chip.onlyRegs_refl (c : Chip) (offs : List Nat) : c.onlyRegs c offs := ⟨rfl, fun _ _ _ => rfl⟩

theorem Chip.onlyRegs.put {c d : Chip} {offs : List Nat} (h : c.onlyRegs d offs) (g : Field) (v : Nat) (m : g.off ∈ offs)
    (l : g.lo < 32 := by exact of_decide_eq_true rfl) : c.onlyRegs (d.put g v) offs :=
  Chip.onlyRegs_trans h (Chip.onlyRegs_put d v l m)

/-! ### Rings -/

/-- A ring's number is its own among the 128 rings. -/
theorem ringId_ne {p n q m : Nat} (hn : n < 64) (hm : m < 64) (h : ¬(q = p ∧ m = n)) : ringId q m ≠ ringId p n := by
  unfold ringId
  omega

theorem Chip.ring_setRing_ne (c : Chip) {p n q m : Nat} (h : ringId q m ≠ ringId p n) (r : RingX) :
    (c.setRing p n r).ring q m = c.ring q m := SMap.get_set_ne _ _ _ h _

theorem Chip.ring_congr {c d : Chip} (h : d.rings = c.rings) (p n : Nat) : d.ring p n = c.ring p n := by
  unfold Chip.ring
  rw [h]

/-- The rings are as they were, but for their note of a coalesced record (R112). -/
def Chip.keepsRings (c d : Chip) : Prop := ∀ p n, ∃ b, d.ring p n = { c.ring p n with coalesced := b }

section
variable {c d e : Chip}

theorem Chip.keepsRings_of_rings (h : d.rings = c.rings) : c.keepsRings d := fun p n => ⟨_, Chip.ring_congr h p n⟩

theorem Chip.keepsRings.trans (h : c.keepsRings d) (k : d.keepsRings e) : c.keepsRings e := by
  intro p n
  obtain ⟨b, hb⟩ := h p n
  obtain ⟨b', hb'⟩ := k p n
  exact ⟨b', by rw [hb', hb]⟩

/-- What a ring has fetched stays. -/
theorem Chip.keepsRings.fetched (h : c.keepsRings d) (p n : Nat) : (d.ring p n).fetched = (c.ring p n).fetched := by
  obtain ⟨b, hb⟩ := h p n
  rw [hb]

end

theorem Chip.keepsRings_setRing (c : Chip) (p n : Nat) (b : Bool) :
    c.keepsRings (c.setRing p n { c.ring p n with coalesced := b }) := by
  intro q m
  by_cases same : ringId q m = ringId p n
  · have at' : ∀ e : Chip, e.ring q m = e.ring p n := fun e => by unfold Chip.ring; rw [same]
    exact ⟨b, by rw [at', at', Chip.ring_setRing]⟩
  · exact ⟨_, Chip.ring_setRing_ne c same _⟩

theorem Chip.holdRecord_rings (c : Chip) (r : EvRecord) : (c.holdRecord r).rings = c.rings := by rw [Chip.holdRecord_eq]

theorem Chip.keepsRings_offer (c : Chip) (r : EvRecord) : c.keepsRings (c.offer r) := by
  unfold Chip.offer
  split
  · exact Chip.keepsRings_of_rings rfl
  · split
    · exact Chip.keepsRings_of_rings rfl
    · have held := Chip.keepsRings_of_rings (Chip.holdRecord_rings c r)
      split
      · exact held
      · exact (held.trans (Chip.keepsRings_setRing _ _ _ true)).trans (Chip.keepsRings_of_rings rfl)

theorem Chip.vector_rings (c : Chip) (p v : Nat) : (c.vector p v).rings = c.rings := by
  unfold Chip.vector
  dsimp only
  (repeat' split) <;> rfl

theorem Chip.raiseMark_rings (c : Chip) (src cause : Nat) : (c.raiseMark src cause).rings = c.rings := by
  unfold Chip.raiseMark
  dsimp only
  split <;> rfl

/-- A raise changes of the rings no more than the note of a coalesced record. -/
theorem Chip.keepsRings_raise (c : Chip) (src cause : Nat) (items : List (Nat × Nat)) : c.keepsRings (c.raise src cause items) := by
  have marked := Chip.keepsRings_of_rings (Chip.raiseMark_rings c src cause)
  rw [Chip.raise_eq]
  split
  · exact marked
  · have offered := marked.trans (Chip.keepsRings_offer (c.raiseMark src cause)
      ⟨src, classOf src cause, cause, c.get Reg.EVT_SEQ_NEXT, (c.raiseMark src cause).now, evData items, 1, false⟩)
    dsimp only
    split
    · exact offered.trans (Chip.keepsRings_of_rings (Chip.vector_rings ..))
    · exact offered

theorem Chip.fetched_raise (c : Chip) (src cause : Nat) (items : List (Nat × Nat)) (p n : Nat) :
    ((c.raise src cause items).ring p n).fetched = (c.ring p n).fetched :=
  Chip.keepsRings.fetched (Chip.keepsRings_raise c src cause items) p n

/-! ### Outputs -/

/-- Nothing is put out but MSI-X messages. -/
def Chip.signals (c d : Chip) : Prop := ∃ l, d.out = c.out ++ l ∧ ∀ o ∈ l, ∃ p v, o = Output.msix p v

section
variable {c d e : Chip}

theorem Chip.signals_of_out (h : d.out = c.out) : c.signals d := ⟨[], by rw [h, List.append_nil], by simp⟩

theorem Chip.signals.trans (h : c.signals d) (k : d.signals e) : c.signals e := by
  obtain ⟨l, hl, ml⟩ := h
  obtain ⟨m, hm, mm⟩ := k
  refine ⟨l ++ m, by rw [hm, hl, List.append_assoc], fun o ho => ?_⟩
  exact (List.mem_append.mp ho).elim (ml o) (mm o)

theorem Chip.signals.outputs (h : c.signals d) {o : Output} (m : o ∈ d.out.drop c.out.length) : ∃ p v, o = .msix p v := by
  obtain ⟨l, hl, ml⟩ := h
  rw [hl, List.drop_left] at m
  exact ml o m

theorem Chip.signals.postsNothing (h : c.signals d) : c.postsNothing d := by
  refine ⟨h.imp fun l hl => hl.1.symm, fun p a b m => ?_⟩
  obtain ⟨_, _, eq⟩ := h.outputs m
  cases eq

theorem Chip.signals_foldl {α : Type} {g : Chip → α → Chip} (step : ∀ (d : Chip) x, d.signals (g d x)) (l : List α) (c : Chip) :
    c.signals (l.foldl g c) := by
  induction l generalizing c with
  | nil => exact Chip.signals_of_out rfl
  | cons a l ih => exact (step c a).trans (ih _)

end

theorem Chip.signals_vector (c : Chip) (p v : Nat) : c.signals (c.vector p v) := by
  unfold Chip.vector
  dsimp only
  repeat' split
  · exact Chip.signals_of_out rfl
  · exact Chip.signals_of_out rfl
  · exact Chip.signals_of_out rfl
  · exact ⟨[.msix p v], rfl, by simp⟩

/-- A raise puts out no more than its vector's message. -/
theorem Chip.signals_raise (c : Chip) (src cause : Nat) (items : List (Nat × Nat)) : c.signals (c.raise src cause items) := by
  have marked := Chip.signals_of_out (Chip.raiseMark_out c src cause)
  rw [Chip.raise_eq]
  split
  · exact marked
  · have offered := marked.trans (Chip.signals_of_out (Chip.offer_out (c.raiseMark src cause)
      ⟨src, classOf src cause, cause, c.get Reg.EVT_SEQ_NEXT, (c.raiseMark src cause).now, evData items, 1, false⟩))
    dsimp only
    split
    · exact offered.trans (Chip.signals_vector ..)
    · exact offered

end Sys2Proof.Machine
end

