-- ==== Sys2Proof/Proofs/RingStops.lean ====
section
/-! PROOF. Proofs/RingStops.lean: rings that stop, fault and complete (R101, R105). -/

namespace Sys2Proof.Machine

/-! ### The vector and the gathering (R104) -/

theorem Chip.ringIrq_regs (c : Chip) (p n : Nat) : (c.ringIrq p n).regs = c.regs := Chip.vector_regs ..

theorem Chip.ringIrq_fetched (c : Chip) (p n : Nat) : ((c.ringIrq p n).ring p n).fetched = (c.ring p n).fetched := by
  unfold Chip.ringIrq
  rw [Chip.ring_congr (Chip.vector_rings ..), Chip.ring_setRing]

theorem Chip.gatherIrq_regs (c : Chip) (p n : Nat) : (c.gatherIrq p n).regs = c.regs := by
  unfold Chip.gatherIrq
  dsimp only
  split
  · exact Chip.ringIrq_regs ..
  · rfl

/-! ### Stops (R105, R107) -/

/-- A ring's own data after a stop. -/
def RingX.stopped (r : RingX) : RingX :=
  { r with
    fetched := []
    acted := false
    stopIrq := match r.fetched.head? with
      | some (some d) => bit (leField d 1 1) 0
      | _ => false
    stopAfter := none
    atDue := none
    load := none
    heldSince := none
    heldTold := false }

/-- What a stop shows of its ring before it writes and signals. -/
def Chip.markStopped (c : Chip) (p n code : Nat) : Chip :=
  (((((c.forgetCmd p n).put (Reg.HIF_RING_STATUS_STATE p n) 2).put (Reg.HIF_RING_STATUS_FAULT p n) code).put
    (Reg.HIF_RING_FAULT_IDX p n) (c.ci p n)).setRing p n (c.ring p n).stopped).showHeld p

/-- The ring's STATE and FAULT stand beside CI in one register, and leave it. -/
theorem Chip.ci_put_status (c : Chip) (p n st code : Nat) :
    ((c.put (Reg.HIF_RING_STATUS_STATE p n) st).put (Reg.HIF_RING_STATUS_FAULT p n) code).ci p n = c.ci p n := by
  unfold Chip.ci
  rw [Chip.get_put_ne _ _ _ _ (by simp [Field.key, Reg.HIF_RING_STATUS_CI, Reg.HIF_RING_STATUS_FAULT]),
    Chip.get_put_ne _ _ _ _ (by simp [Field.key, Reg.HIF_RING_STATUS_CI, Reg.HIF_RING_STATUS_STATE])]

theorem Chip.stopRing_eq (c : Chip) (p n code : Nat) :
    c.stopRing p n code = (((c.markStopped p n code).postCi p n code).ringIrq p n).raise 3 1
      [(1, p), (1, n), (2, (((c.markStopped p n code).postCi p n code).ringIrq p n).ci p n), (2, code)] := by
  have ci := (c.forgetCmd p n).ci_put_status p n 2 code
  unfold Chip.stopRing
  dsimp only
  rw [ci]
  rfl

/-- The registers that a stop writes: STATUS and FAULT of the ring, and the STATUS of its port. -/
def stopOffs (p n : Nat) : List Nat := [0x11018 + 0x1000 * p + 0x40 * n, 0x1101c + 0x1000 * p + 0x40 * n, 0x10100 + 0x100 * p]

theorem Chip.keepsAt_markStopped (c : Chip) (p n code : Nat) : c.keepsAt (c.markStopped p n code) (· ∉ stopOffs p n) := by
  have state := (Chip.keepsAt_refl c (· ∉ stopOffs p n)).put (Reg.HIF_RING_STATUS_STATE p n) 2 (by simp [stopOffs, Reg.HIF_RING_STATUS_STATE])
  have fault := state.put (Reg.HIF_RING_STATUS_FAULT p n) code (by simp [stopOffs, Reg.HIF_RING_STATUS_FAULT])
  have idx := fault.put (Reg.HIF_RING_FAULT_IDX p n) (c.ci p n) (by simp [stopOffs, Reg.HIF_RING_FAULT_IDX])
  have ring : c.keepsAt (((((c.forgetCmd p n).put (Reg.HIF_RING_STATUS_STATE p n) 2).put (Reg.HIF_RING_STATUS_FAULT p n) code).put
    (Reg.HIF_RING_FAULT_IDX p n) (c.ci p n)).setRing p n (c.ring p n).stopped) (· ∉ stopOffs p n) := idx.of_regs rfl
  exact ring.put (Reg.HIF_STATUS_LAYER_HELD p) _ (by simp [stopOffs, Reg.HIF_STATUS_LAYER_HELD])

theorem Chip.markStopped_fetched (c : Chip) (p n code : Nat) : ((c.markStopped p n code).ring p n).fetched = [] := by
  show ((Chip.setRing _ p n _).ring p n).fetched = []
  rw [Chip.ring_setRing]
  rfl

/-- The ring shows STOPPED, the code and the index; its indices stay. -/
theorem Chip.markStopped_shows (c : Chip) {p : Nat} (n code : Nat) (hp : p < 2) :
    (c.markStopped p n code).ringState p n = 2 ∧
    (c.markStopped p n code).get (Reg.HIF_RING_STATUS_FAULT p n) = code % 2 ^ (Reg.HIF_RING_STATUS_FAULT p n).width ∧
    (c.markStopped p n code).get (Reg.HIF_RING_FAULT_IDX p n) = c.ci p n % 65536 ∧
    (c.markStopped p n code).ci p n = c.ci p n ∧ (c.markStopped p n code).pi p n = c.pi p n := by
  have shown (g : Field) (l : g.lo < 32) (o : 0x11000 ≤ g.off) : (c.markStopped p n code).get g =
      ((((c.forgetCmd p n).put (Reg.HIF_RING_STATUS_STATE p n) 2).put (Reg.HIF_RING_STATUS_FAULT p n) code).put
        (Reg.HIF_RING_FAULT_IDX p n) (c.ci p n)).get g :=
    Chip.get_put_off _ _ g _ (of_decide_eq_true rfl) l (by show g.off ≠ 0x10100 + 0x100 * p; omega)
  have status (d : Chip) (v : Nat) (g : Field) (l : g.lo < 32) (o : g.off = 0x11018 + 0x1000 * p + 0x40 * n) :
      (d.put (Reg.HIF_RING_FAULT_IDX p n) v).get g = d.get g :=
    Chip.get_put_off d _ g _ (of_decide_eq_true rfl) l (by show g.off ≠ 0x1101c + 0x1000 * p + 0x40 * n; omega)
  have low (k : Nat) : 0x11000 ≤ 0x11018 + 0x1000 * p + 0x40 * n ∧ 0x11000 ≤ 0x1101c + 0x1000 * p + 0x40 * n := by omega
  refine ⟨?_, ?_, ?_, ?_, ?_⟩
  · unfold Chip.ringState
    rw [shown _ (of_decide_eq_true rfl) (low 0).1, status _ _ _ (of_decide_eq_true rfl) rfl,
      Chip.get_put_ne _ _ _ _ (by simp [Field.key, Reg.HIF_RING_STATUS_STATE, Reg.HIF_RING_STATUS_FAULT]), Chip.get_put_self]
    rfl
  · rw [shown _ (of_decide_eq_true rfl) (low 0).1, status _ _ _ (of_decide_eq_true rfl) rfl, Chip.get_put_self]
  · rw [shown _ (of_decide_eq_true rfl) (low 0).2, Chip.get_put_self]
    rfl
  · unfold Chip.ci
    rw [shown _ (of_decide_eq_true rfl) (low 0).1, status _ _ _ (of_decide_eq_true rfl) rfl]
    exact Chip.ci_put_status ..
  · unfold Chip.pi
    rw [shown _ (of_decide_eq_true rfl) (low 0).2,
      Chip.get_put_ne _ _ _ _ (by simp [Field.key, Reg.HIF_RING_FAULT_PI, Reg.HIF_RING_FAULT_IDX]),
      Chip.get_put_off _ _ _ _ (of_decide_eq_true rfl) (of_decide_eq_true rfl) (by simp [Reg.HIF_RING_FAULT_PI, Reg.HIF_RING_STATUS_FAULT]),
      Chip.get_put_off _ _ _ _ (of_decide_eq_true rfl) (of_decide_eq_true rfl) (by simp [Reg.HIF_RING_FAULT_PI, Reg.HIF_RING_STATUS_STATE])]
    rfl

/-- Everything a stop writes is written before it signals. -/
theorem Chip.get_stopRing (c : Chip) (p n code : Nat) {f : Field} (l : f.lo < 32) (o : f.off < 0x20000 ∨ 0x22000 ≤ f.off) :
    (c.stopRing p n code).get f = (c.markStopped p n code).get f := by
  rw [Chip.stopRing_eq, Chip.get_raise _ _ _ (by decide) l o, Chip.get_congr (Chip.ringIrq_regs ..)]
  rfl

theorem Chip.keepsAt_stopRing (c : Chip) (p n code : Nat) : c.keepsAt (c.stopRing p n code) (quietOff (stopOffs p n)) :=
  fun f l o => (Chip.get_stopRing c p n code l o.1).trans (Chip.keepsAt_markStopped c p n code f l o.2)

/-- A stopped ring shows its code and its index, has nothing fetched, and is told as EV003 (R105). -/
structure Chip.showsStop (c d : Chip) (p n code : Nat) : Prop where
  state : d.ringState p n = 2
  fault : d.get (Reg.HIF_RING_STATUS_FAULT p n) = code % 2 ^ (Reg.HIF_RING_STATUS_FAULT p n).width
  idx : d.get (Reg.HIF_RING_FAULT_IDX p n) = c.ci p n % 65536
  ci : d.ci p n = c.ci p n
  pi : d.pi p n = c.pi p n
  fetched : (d.ring p n).fetched = []
  told : c.tells d 3 1

theorem Chip.stopRing_shows (c : Chip) {p n : Nat} (code : Nat) (hp : p < 2) (hn : n < 64) :
    c.showsStop (c.stopRing p n code) p n code := by
  obtain ⟨state, fault, idx, ci, pi⟩ := c.markStopped_shows n code hp
  have outside (g : Field) (l : g.lo < 32) (o : g.off < 0x20000) := Chip.get_stopRing c p n code l (.inl o)
  have status : 0x11018 + 0x1000 * p + 0x40 * n < 0x20000 := by omega
  have second : 0x1101c + 0x1000 * p + 0x40 * n < 0x20000 := by omega
  refine ⟨(outside _ (of_decide_eq_true rfl) status).trans state, (outside _ (of_decide_eq_true rfl) status).trans fault,
    (outside _ (of_decide_eq_true rfl) second).trans idx, (outside _ (of_decide_eq_true rfl) status).trans ci,
    (outside _ (of_decide_eq_true rfl) second).trans pi, ?_, ?_⟩
  · rw [Chip.stopRing_eq, Chip.fetched_raise, Chip.ringIrq_fetched]
    exact Chip.markStopped_fetched ..
  · rw [Chip.stopRing_eq]
    refine Chip.tells_raise _ ?_ (by decide) (by decide)
    rw [Chip.get_congr (Chip.ringIrq_regs ..)]
    exact Chip.keepsAt_markStopped c p n code Reg.EVT_SEQ_NEXT (by decide) (by simp [stopOffs, Reg.EVT_SEQ_NEXT]; omega)

/-- A stop writes the consumer-index location before it signals (R105). -/
theorem Chip.stopRing_posts (c : Chip) {p : Nat} (n code : Nat) (hp : p < 2) :
    c.out ++ [.post p (c.get64 (Reg.HIF_RING_CI_LO_ADDR p n) (Reg.HIF_RING_CI_HI_ADDR p n)) (leBytes 4 (c.ci p n + 65536 * code))] <+:
      (c.stopRing p n code).out := by
  have addr (g : Field) (l : g.lo < 32) (o : g.off = 0x11008 + 0x1000 * p + 0x40 * n ∨ g.off = 0x1100c + 0x1000 * p + 0x40 * n) :
      (c.markStopped p n code).get g = c.get g :=
    Chip.keepsAt_markStopped c p n code g l (by simp [stopOffs]; omega)
  have posted : ((c.markStopped p n code).postCi p n code).out =
      c.out ++ [.post p (c.get64 (Reg.HIF_RING_CI_LO_ADDR p n) (Reg.HIF_RING_CI_HI_ADDR p n)) (leBytes 4 (c.ci p n + 65536 * code))] := by
    unfold Chip.postCi Chip.get64
    rw [Chip.emit_out, addr _ (of_decide_eq_true rfl) (.inl rfl), addr _ (of_decide_eq_true rfl) (.inr rfl),
      (c.markStopped_shows n code hp).2.2.2.1]
    rfl
  rw [Chip.stopRing_eq, ← posted]
  exact (Chip.ringIrq_out ..).trans (Chip.raise_out ..)

/-! ### Completions (R101) -/

/-- What a completion posts and shows, and its gathering, before a stop that waited for it or the checks of the next descriptor. -/
def Chip.completed (c : Chip) (p n code : Nat) (irq : Bool) (first : List Output) : Chip :=
  let i := c.ci p n
  let c := (c.emits first).emit (.post p (c.descAddr p n i + 4) (leBytes 2 (0x8000 + code)))
  let c := (c.put (Reg.HIF_RING_STATUS_CI p n) (i + 1)).postCi p n 0
  let c := c.setRing p n { c.ring p n with
    fetched := (c.ring p n).fetched.tail, acted := false, stopAfter := none, atDue := none, load := none }
  if irq then c.gatherIrq p n else c

/-- The head of a ring is left to act, or faults. -/
theorem Chip.settleHead_cases (c : Chip) (p n : Nat) : c.settleHead p n = c ∨ ∃ code, c.settleHead p n = c.faultDesc p n code := by
  unfold Chip.settleHead
  split
  · exact .inl rfl
  · split
    · exact .inl rfl
    · exact .inr ⟨_, rfl⟩
    · dsimp only
      split
      · exact .inr ⟨_, rfl⟩
      · split
        · exact .inr ⟨_, rfl⟩
        · exact .inl rfl

/-- After a completion the ring goes on, stops, or faults at its next descriptor. -/
theorem Chip.completeWith_cases (c : Chip) (p n code : Nat) (irq : Bool) (first : List Output) :
    c.completeWith p n code irq first = c.completed p n code irq first ∨
    (∃ stop, c.completeWith p n code irq first = (c.completed p n code irq first).stopRing p n stop) ∨
    ∃ fault, c.completeWith p n code irq first = (c.completed p n code irq first).faultDesc p n fault := by
  unfold Chip.completeWith Chip.completed
  dsimp only
  split
  · exact .inr (.inl ⟨_, rfl⟩)
  · exact (Chip.settleHead_cases ..).imp_right .inr

theorem Chip.completed_regs (c : Chip) (p n code : Nat) (irq : Bool) (first : List Output) :
    (c.completed p n code irq first).regs = (c.put (Reg.HIF_RING_STATUS_CI p n) (c.ci p n + 1)).regs := by
  unfold Chip.completed
  dsimp only
  split
  · exact Chip.gatherIrq_regs ..
  · rfl

theorem Chip.completed_ci (c : Chip) (p n code : Nat) (irq : Bool) (first : List Output) :
    (c.completed p n code irq first).ci p n = (c.ci p n + 1) % 65536 := by
  unfold Chip.ci
  rw [Chip.get_congr (Chip.completed_regs ..), Chip.get_put_self]
  rfl

theorem Chip.completed_posts (c : Chip) (p n code : Nat) (irq : Bool) (first : List Output) :
    c.out ++ first ++ [.post p (c.descAddr p n (c.ci p n) + 4) (leBytes 2 (0x8000 + code)),
      .post p (c.get64 (Reg.HIF_RING_CI_LO_ADDR p n) (Reg.HIF_RING_CI_HI_ADDR p n)) (leBytes 4 ((c.ci p n + 1) % 65536))] <+:
      (c.completed p n code irq first).out := by
  have ci (d : Chip) : (d.put (Reg.HIF_RING_STATUS_CI p n) (c.ci p n + 1)).ci p n = (c.ci p n + 1) % 65536 := Chip.get_put_self ..
  have location (d : Chip) (v : Nat) : (d.put (Reg.HIF_RING_STATUS_CI p n) v).get64 (Reg.HIF_RING_CI_LO_ADDR p n)
      (Reg.HIF_RING_CI_HI_ADDR p n) = d.get64 (Reg.HIF_RING_CI_LO_ADDR p n) (Reg.HIF_RING_CI_HI_ADDR p n) := by
    unfold Chip.get64
    rw [Chip.get_put_off _ _ _ _ (of_decide_eq_true rfl) (of_decide_eq_true rfl) (by simp [Reg.HIF_RING_CI_LO_ADDR, Reg.HIF_RING_STATUS_CI]),
      Chip.get_put_off _ _ _ _ (of_decide_eq_true rfl) (of_decide_eq_true rfl) (by simp [Reg.HIF_RING_CI_HI_ADDR, Reg.HIF_RING_STATUS_CI])]
  have posted (d : Chip) : ((d.put (Reg.HIF_RING_STATUS_CI p n) (c.ci p n + 1)).postCi p n 0).out =
      d.out ++ [.post p (d.get64 (Reg.HIF_RING_CI_LO_ADDR p n) (Reg.HIF_RING_CI_HI_ADDR p n)) (leBytes 4 ((c.ci p n + 1) % 65536))] := by
    unfold Chip.postCi
    rw [Chip.emit_out, ci, location]
    rfl
  have all := posted ((c.emits first).emit (.post p (c.descAddr p n (c.ci p n) + 4) (leBytes 2 (0x8000 + code))))
  rw [Chip.emit_out, List.append_assoc] at all
  unfold Chip.completed
  dsimp only
  refine List.IsPrefix.trans ?_ (Chip.irq_out _ p n irq)
  exact all ▸ List.prefix_rfl

theorem Chip.keepsAt_completed (c : Chip) (p n code : Nat) (irq : Bool) (first : List Output) :
    c.keepsAt (c.completed p n code irq first) (quietOff (stopOffs p n)) :=
  ((Chip.keepsAt_refl c _).putIn (Reg.HIF_RING_STATUS_CI p n) _ (List.mem_cons_self ..)).of_regs (Chip.completed_regs ..)

theorem Chip.keepsAt_faultDesc (c : Chip) (p n code : Nat) : c.keepsAt (c.faultDesc p n code) (quietOff (stopOffs p n)) :=
  Chip.keepsAt_stopRing (c.emit _) p n code

theorem Chip.keepsAt_completeWith (c : Chip) (p n code : Nat) (irq : Bool) (first : List Output) :
    c.keepsAt (c.completeWith p n code irq first) (quietOff (stopOffs p n)) := by
  have done := c.keepsAt_completed p n code irq first
  rcases c.completeWith_cases p n code irq first with eq | ⟨_, eq⟩ | ⟨_, eq⟩
  · exact eq ▸ done
  · exact eq ▸ done.trans (Chip.keepsAt_stopRing _ p n _)
  · exact eq ▸ done.trans (Chip.keepsAt_faultDesc _ p n _)

theorem Chip.faultDesc_shows (c : Chip) {p n : Nat} (code : Nat) (hp : p < 2) (hn : n < 64) :
    c.showsStop (c.faultDesc p n code) p n code := by
  obtain ⟨state, fault, idx, ci, pi, fetched, told⟩ :=
    Chip.stopRing_shows (c.emit (.post p (c.descAddr p n (c.ci p n) + 4) (leBytes 2 code))) code hp hn
  exact ⟨state, fault, idx, ci, pi, fetched, told⟩

/-- A completion moves CI on by one, whatever follows it. -/
theorem Chip.completeWith_ci (c : Chip) {p n : Nat} (code : Nat) (irq : Bool) (first : List Output) (hp : p < 2) (hn : n < 64) :
    (c.completeWith p n code irq first).ci p n = (c.ci p n + 1) % 65536 := by
  rw [← c.completed_ci p n code irq first]
  rcases c.completeWith_cases p n code irq first with eq | ⟨stop, eq⟩ | ⟨fault, eq⟩
  · rw [eq]
  · rw [eq, (Chip.stopRing_shows _ stop hp hn).ci]
  · rw [eq, (Chip.faultDesc_shows _ fault hp hn).ci]

/-- The registers of another ring are none that a stop writes. -/
theorem status_quiet_of_other {p n q m : Nat} (hn : n < 64) (hq : q < 2) (hm : m < 64) (other : ¬(q = p ∧ m = n)) :
    quietOff (stopOffs p n) (0x11018 + 0x1000 * q + 0x40 * m) := by
  refine ⟨by omega, ?_⟩
  simp only [stopOffs, List.mem_cons, List.not_mem_nil, or_false, not_or]
  omega

/-- Settles O7: a completion is its posts followed by a stop or by none, and a stop writes and marks before it raises EV003. -/
theorem ringsCompleteOrStop : Obligations.RingsCompleteOrStop := by
  refine ⟨fun c p n code irq first hp hn => ⟨?_, c.completeWith_ci code irq first hp hn, fun q m hq hm other => ?_⟩,
    fun c p n code hp hn _ => ?_⟩
  · have posts := c.completed_posts p n code irq first
    rcases c.completeWith_cases p n code irq first with eq | ⟨_, eq⟩ | ⟨_, eq⟩
    · exact eq ▸ posts
    · exact eq ▸ posts.trans (Chip.stopRing_out ..)
    · exact eq ▸ posts.trans (Chip.faultDesc_out ..)
  · have kept (f : Field) (l : f.lo < 32) (at' : f.off = 0x11018 + 0x1000 * q + 0x40 * m) :=
      c.keepsAt_completeWith p n code irq first f l (at' ▸ status_quiet_of_other hn hq hm other)
    exact ⟨kept (Reg.HIF_RING_STATUS_CI q m) (of_decide_eq_true rfl) rfl, kept (Reg.HIF_RING_STATUS_STATE q m) (of_decide_eq_true rfl) rfl⟩
  · have stop := c.stopRing_shows code hp hn
    have fault := c.faultDesc_shows code hp hn
    refine ⟨?_, ⟨fault.state, fault.fault, fault.idx, fault.ci, fault.pi, fault.fetched, fault.told⟩,
      c.stopRing_posts n code hp, ⟨stop.state, stop.fault, stop.idx, stop.ci, stop.pi, stop.fetched, stop.told⟩⟩
    have posts := (c.emit (.post p (c.descAddr p n (c.ci p n) + 4) (leBytes 2 code))).stopRing_posts n code hp
    rw [Chip.emit_out, List.append_assoc] at posts
    exact posts

end Sys2Proof.Machine
end

