-- ==== Sys2Proof/Proofs/AccessAndSemaphores.lean ====
section
/-! PROOF. Proofs/AccessAndSemaphores.lean: access errors (R86) and semaphores (R113, R114). -/

namespace Sys2Proof.Machine

/-! ### Access errors (R86) -/

/-- An access error recorded where none is held. -/
def Chip.recordAccess (c : Chip) (p : Nat) (bar2 : Bool) (off : Nat) (write : Bool) (be : Nat) (wide : Bool) : Chip :=
  if c.flag Reg.HIF_ACC_ERR_INFO_VALID then c
  else
    ((((((c.put Reg.HIF_ACC_ERR_ADDR_OFFSET off).put Reg.HIF_ACC_ERR_INFO_VALID 1).put Reg.HIF_ACC_ERR_INFO_PORT p).putB
      Reg.HIF_ACC_ERR_INFO_BAR bar2).putB Reg.HIF_ACC_ERR_INFO_WRITE write).put Reg.HIF_ACC_ERR_INFO_BE be).putB
      Reg.HIF_ACC_ERR_INFO_WIDE wide

section
variable (c : Chip) (p : Nat) (bar2 : Bool) (off : Nat) (write : Bool) (be : Nat) (wide : Bool)

theorem Chip.recordAccess_held (held : c.flag Reg.HIF_ACC_ERR_INFO_VALID = true) :
    c.recordAccess p bar2 off write be wide = c := if_pos held

/-- Recording an access writes the record and nothing else. -/
theorem Chip.recordAccess_rest : c.sameBut5 (c.recordAccess p bar2 off write be wide) ∧
    (c.recordAccess p bar2 off write be wide).out = c.out ∧
    c.keepsAt (c.recordAccess p bar2 off write be wide) (· ∉ [Reg.HIF_ACC_ERR_ADDR_OFFSET.off, Reg.HIF_ACC_ERR_INFO_VALID.off]) ∧
    (c.recordAccess p bar2 off write be wide).get Reg.HIF_ACC_ERR_INFO_COUNT = c.get Reg.HIF_ACC_ERR_INFO_COUNT := by
  unfold Chip.recordAccess
  split
  · exact ⟨rfl, rfl, Chip.keepsAt_refl c _, rfl⟩
  · refine ⟨rfl, rfl, ?_, ?_⟩
    · exact (((((((Chip.keepsAt_refl c _).put Reg.HIF_ACC_ERR_ADDR_OFFSET off (by decide)).put Reg.HIF_ACC_ERR_INFO_VALID 1
        (by decide)).put Reg.HIF_ACC_ERR_INFO_PORT p (by decide)).put Reg.HIF_ACC_ERR_INFO_BAR _ (by decide)).put
        Reg.HIF_ACC_ERR_INFO_WRITE _ (by decide)).put Reg.HIF_ACC_ERR_INFO_BE be (by decide)).put Reg.HIF_ACC_ERR_INFO_WIDE _
        (by decide)
    · simp (disch := decide) only [Chip.get_put_ne, Chip.get_putB_ne]

theorem Chip.recordAccess_valid : (c.recordAccess p bar2 off write be wide).flag Reg.HIF_ACC_ERR_INFO_VALID = true := by
  unfold Chip.recordAccess
  split
  · assumption
  · unfold Chip.flag
    simp (disch := decide) only [Chip.get_put_ne, Chip.get_putB_ne, Chip.get_put_self]
    decide

/-- What is recorded where no error is held. -/
theorem Chip.recordAccess_shows (free : c.flag Reg.HIF_ACC_ERR_INFO_VALID = false) :
    (c.recordAccess p bar2 off write be wide).get Reg.HIF_ACC_ERR_ADDR_OFFSET = off % 2 ^ 24 ∧
    (c.recordAccess p bar2 off write be wide).get Reg.HIF_ACC_ERR_INFO_PORT = p % 2 ^ 1 ∧
    (c.recordAccess p bar2 off write be wide).flag Reg.HIF_ACC_ERR_INFO_BAR = bar2 ∧
    (c.recordAccess p bar2 off write be wide).flag Reg.HIF_ACC_ERR_INFO_WRITE = write ∧
    (c.recordAccess p bar2 off write be wide).get Reg.HIF_ACC_ERR_INFO_BE = be % 2 ^ 4 ∧
    (c.recordAccess p bar2 off write be wide).flag Reg.HIF_ACC_ERR_INFO_WIDE = wide := by
  have bit (b : Bool) : decide (b2n b ≠ 0) = b := by cases b <;> rfl
  unfold Chip.recordAccess Chip.flag
  rw [Chip.flag] at free
  rw [free]
  simp (disch := decide) only [Bool.false_eq_true, if_false, Chip.get_put_ne, Chip.get_putB_ne, Chip.get_put_self, Chip.get_putB_self, bit]
  exact ⟨rfl, rfl, trivial, trivial, rfl, trivial⟩

end

/-- The completion with which a port's access error is answered. -/
def Chip.abortRead (c : Chip) (p : Nat) (write : Bool) : Chip := c.emits (if write then [] else [.completerAbort p])

theorem Chip.accessError_eq (c : Chip) (p : Nat) (bar2 : Bool) (off : Nat) (write : Bool) (be : Nat) (wide : Bool) :
    c.accessError p bar2 off write be wide = (((c.abortRead p write).recordAccess p bar2 off write be wide).bump
      Reg.HIF_ACC_ERR_INFO_COUNT 1).raise 2 0 [(1, p), (1, b2n bar2), (4, off)] := by
  have abort : (if write then c else c.emit (.completerAbort p)) = c.abortRead p write := by
    cases write
    · rfl
    · show c = { c with out := c.out ++ [] }
      rw [List.append_nil]
  unfold Chip.accessError
  rw [abort]
  rfl

/-- An access error is answered, recorded, counted and told; it returns no data and changes nothing else. -/
theorem Chip.accessError_rest (c : Chip) (p : Nat) (bar2 : Bool) (off : Nat) (write : Bool) (be : Nat) (wide : Bool) :
    let d := c.accessError p bar2 off write be wide
    c.sameBut5 d ∧ c.tells d 2 0 ∧ c.keepsRegs d [Reg.HIF_ACC_ERR_ADDR_OFFSET.off, Reg.HIF_ACC_ERR_INFO_VALID.off] ∧
    (c.abortRead p write).signals d ∧
    d.get Reg.HIF_ACC_ERR_INFO_COUNT = min (c.get Reg.HIF_ACC_ERR_INFO_COUNT + 1) (2 ^ Reg.HIF_ACC_ERR_INFO_COUNT.width - 1) := by
  obtain ⟨same, out, kept, count⟩ := (c.abortRead p write).recordAccess_rest p bar2 off write be wide
  have counted := kept.put Reg.HIF_ACC_ERR_INFO_COUNT (satAdd 16 (((c.abortRead p write).recordAccess p bar2 off write be wide).get
    Reg.HIF_ACC_ERR_INFO_COUNT) 1) (by decide)
  rw [Chip.accessError_eq]
  refine ⟨Chip.sameBut5_trans (Chip.sameBut5_trans same (Chip.sameBut5_put ..)) (Chip.raise_rest ..),
    Chip.tells_raise _ (counted Reg.EVT_SEQ_NEXT (by decide) (by decide)) (by decide) (by decide), ?_,
    (Chip.signals_of_out out).trans (Chip.signals_raise ..), ?_⟩
  · exact ((counted.mono (fun _ q => q.2)).raiseQuiet (by decide) _ _).keepsRegs
  · rw [Chip.get_raise _ _ _ (by decide) (by decide) (by decide), Chip.get_bump_self, count]
    rfl

theorem Chip.get_accessError (c : Chip) (p : Nat) (bar2 : Bool) (off : Nat) (write : Bool) (be : Nat) (wide : Bool) {f : Field}
    (l : f.lo < 32) (o : f.off < 0x20000) (ne : f.key ≠ Reg.HIF_ACC_ERR_INFO_COUNT.key) :
    (c.accessError p bar2 off write be wide).get f = ((c.abortRead p write).recordAccess p bar2 off write be wide).get f := by
  rw [Chip.accessError_eq, Chip.get_raise _ _ _ (by decide) l (.inl o), Chip.get_bump_ne _ _ _ _ ne]

theorem portNum_lt (p : Port) : p.num < 2 := by cases p <;> decide

/-- Settles O11: the record is written where none is held; the count and the event follow it and leave it. -/
theorem accessErrorIsRecordedOnce : Obligations.AccessErrorIsRecordedOnce := by
  intro p bar2 w wide off be s awake bad
  obtain ⟨same, told, kept, signals, count⟩ := s.toChip.accessError_rest p.num bar2 off.toNat w be.toNat wide
  have record (f : Field) (l : f.lo < 32) (o : f.off < 0x20000) (ne : f.key ≠ Reg.HIF_ACC_ERR_INFO_COUNT.key) :=
    s.toChip.get_accessError p.num bar2 off.toNat w be.toNat wide l o ne
  refine ⟨_, exec_accessError_of_not_word awake p bar2 off w bad, ?_, ?_, count, fun free => ?_, fun held => ?_, fun q x m => ?_, told, kept, same⟩
  · exact signals.postsNothing.1
  · rw [Chip.flag_congr (record _ (by decide) (by decide) (by decide))]
    exact Chip.recordAccess_valid ..
  · obtain ⟨offset, port, bar, write, bytes, wider⟩ := (s.toChip.abortRead p.num w).recordAccess_shows p.num bar2 off.toNat w be.toNat wide free
    refine ⟨?_, ?_, ?_, ?_, ?_, ?_⟩
    · rw [record _ (by decide) (by decide) (by decide), offset, Nat.mod_eq_of_lt off.isLt]
    · exact (record _ (by decide) (by decide) (by decide)).trans (port.trans (Nat.mod_eq_of_lt (portNum_lt p)))
    · rw [Chip.flag_congr (record _ (by decide) (by decide) (by decide)), bar]
    · rw [Chip.flag_congr (record _ (by decide) (by decide) (by decide)), write]
    · rw [record _ (by decide) (by decide) (by decide), bytes, Nat.mod_eq_of_lt be.isLt]
    · rw [Chip.flag_congr (record _ (by decide) (by decide) (by decide)), wider]
  · intro f hf
    have part : f.lo < 32 ∧ f.off < 0x20000 ∧ f.key ≠ Reg.HIF_ACC_ERR_INFO_COUNT.key := by
      simp only [List.mem_cons, List.not_mem_nil, or_false] at hf
      rcases hf with rfl | rfl | rfl | rfl | rfl | rfl <;> decide
    rw [record f part.1 part.2.1 part.2.2, Chip.recordAccess_held (c := s.toChip.abortRead p.num w) (held := held)]
    rfl
  · obtain ⟨l, out, messages⟩ := signals
    have abort : (s.toChip.abortRead p.num w).out = s.toChip.out ++ (if w then [] else [.completerAbort p.num]) := rfl
    rw [out, abort, List.append_assoc, List.drop_left] at m
    rcases List.mem_append.mp m with answer | message
    · cases w <;> simp at answer
    · obtain ⟨_, _, eq⟩ := messages _ message
      cases eq

/-! ### Semaphores (R113, R114) -/

section
variable {c : Chip} {n : Nat}

theorem Chip.semRead_free (p : Nat) (free : c.get (Reg.GLB_SEM_OWNER n) = 0) :
    c.semRead p n false = (c.put (Reg.GLB_SEM_OWNER n) (p + 1)).emit (.readData p 0) := by
  unfold Chip.semRead
  rw [if_neg (not_not.mpr free), if_neg Bool.false_ne_true]

/-- A held semaphore answers its owner's ID to every reader. -/
theorem Chip.semRead_held (p : Nat) (tie : Bool) (held : c.get (Reg.GLB_SEM_OWNER n) ≠ 0) :
    c.semRead p n tie =
      let d := c.emit (.readData p (BitVec.ofNat 32 (c.get (Reg.GLB_SEM_OWNER n))))
      if tie then d.emit (.readData (1 - p) (BitVec.ofNat 32 (c.get (Reg.GLB_SEM_OWNER n)))) else d := by
  unfold Chip.semRead
  rw [if_pos held]

/-- Of two ports that read a free semaphore in one cycle the one whose turn it is wins; the other reads the winner's ID (R114). -/
theorem Chip.semRead_tie (p : Nat) (free : c.get (Reg.GLB_SEM_OWNER n) = 0) {w : Port} (turn : w = if c.semTieA then Port.a else .b) :
    c.semRead p n true =
      ({ c.put (Reg.GLB_SEM_OWNER n) (w.num + 1) with semTieA := !c.semTieA }.emit (.readData w.num 0)).emit
        (.readData w.other.num (BitVec.ofNat 32 (w.num + 1))) := by
  unfold Chip.semRead
  rw [if_neg (not_not.mpr free), if_pos rfl, turn]
  cases c.semTieA <;> rfl

theorem Chip.semWrite_owner {p v : Nat} (id : v = p + 1) (own : c.get (Reg.GLB_SEM_OWNER n) = p + 1) :
    c.semWrite p n v = c.put (Reg.GLB_SEM_OWNER n) 0 := if_pos ⟨id, own⟩

theorem Chip.semWrite_other {p v : Nat} (other : ¬(v = p + 1 ∧ c.get (Reg.GLB_SEM_OWNER n) = p + 1)) :
    c.semWrite p n v = c.raise 6 0 [(1, p), (2, n), (4, v)] := if_neg other

end

section
variable {s : State}

theorem exec_semRead (h : s.awake) (p : Port) (n : Fin 32) (tie : Bool) :
    exec (.semRead p n tie) s = .next (s.withChip (s.toChip.semRead p.num n.val tie)) :=
  State.access_of_awake h fun c => c.semRead p.num n.val tie

theorem exec_semWrite (h : s.awake) (p : Port) (n : Fin 32) (v : Word) :
    exec (.semWrite p n v) s = .next (s.withChip (s.toChip.semWrite p.num n.val v.toNat)) :=
  State.access_of_awake h fun c => c.semWrite p.num n.val v.toNat

end

theorem portNum_other (p : Port) : p.other.num = 1 - p.num := by cases p <;> rfl

/-- Settles O12: a read goes by the owner and the tie, a write by the owner and the word. -/
theorem semaphoresFollowTheirOwner : Obligations.SemaphoresFollowTheirOwner := by
  refine ⟨rfl, fun p n v s awake => ⟨fun free => ?_, fun q held => ?_, fun free => ?_, fun id own => ?_, fun other => ?_⟩⟩
  · rw [exec_semRead awake, Chip.semRead_free _ free]
  · have owned : s.toChip.get (Reg.GLB_SEM_OWNER n.val) ≠ 0 := by omega
    rw [exec_semRead awake, exec_semRead awake, Chip.semRead_held _ _ owned, Chip.semRead_held _ _ owned, held, portNum_other]
    exact ⟨rfl, rfl⟩
  · rw [exec_semRead awake, Chip.semRead_tie p.num free rfl]
  · rw [exec_semWrite awake, Chip.semWrite_owner id own]
  · exact ⟨_, by rw [exec_semWrite awake, Chip.semWrite_other other]⟩

end Sys2Proof.Machine
end

