-- ==== Sys2Proof/Proofs/RingSetUp.lean ====
section
/-! PROOF. Proofs/RingSetUp.lean: rings enabled and disabled (R88 to R91, R110). -/

namespace Sys2Proof.Machine

/-! ### Enabling (R88 to R91) -/

section
variable {s : State}

theorem exec_ringEnable (h : s.awake) (via p : Port) (n : Fin 64) (v : Word) :
    exec (.ringEnable via p n v) s = .next (s.withChip (s.toChip.ringCfg p.num n.val v.toNat)) :=
  State.access_of_awake h fun c => c.ringCfg p.num n.val v.toNat

theorem exec_ringDisable (h : s.awake) (via p : Port) (n : Fin 64) (v : Word) :
    exec (.ringDisable via p n v) s = .next (s.withChip (s.toChip.ringCfg p.num n.val v.toNat)) :=
  State.access_of_awake h fun c => c.ringCfg p.num n.val v.toNat

end

/-- A ring's own data as it begins, or ends: what is told of drops and of coalesced records stays. -/
def RingX.cleared (r : RingX) : RingX := { ({} : RingX) with coalesced := r.coalesced, dropped := r.dropped }

/-- The registers of a ring that takes the set-up written. -/
def Chip.putStart (c : Chip) (p n v : Nat) : Chip :=
  let c := (c.put (Reg.HIF_RING_CFG_TYPE p n) (bits v 0 3)).put (Reg.HIF_RING_CFG_SIZE_LOG2 p n) (bits v 8 4)
  let c := (c.put (Reg.HIF_RING_CFG_VECTOR p n) (bits v 16 6)).put (Reg.HIF_RING_CFG_ENABLE p n) 1
  let c := (c.put (Reg.HIF_RING_STATUS_CI p n) 0).put (Reg.HIF_RING_FAULT_PI p n) 0
  (c.put (Reg.HIF_RING_STATUS_STATE p n) 1).put (Reg.HIF_RING_STATUS_FAULT p n) 0

/-- A ring that takes the set-up written becomes RUNNING, with its indices at 0. -/
def Chip.startRing (c : Chip) (p n v : Nat) : Chip :=
  (c.putStart p n v).setRing p n ((c.putStart p n v).ring p n).cleared

section
variable {c : Chip} {p n v : Nat}

theorem Chip.ringSetupOk_iff : c.ringSetupOk p n v = true ↔ bits v 0 3 ≤ 5 ∧ 6 ≤ bits v 8 4 ∧
    c.get (Reg.HIF_RING_BASE_LO_BASE p n) % 4096 = 0 ∧ c.get (Reg.HIF_RING_CI_LO_ADDR p n) % 4 = 0 := by
  simp only [Chip.ringSetupOk, Bool.and_eq_true, decide_eq_true_eq, and_assoc]

theorem Chip.ringCfgOn_starts (off : c.ringOn p n = false) (ok : c.ringSetupOk p n v = true) :
    c.ringCfgOn p n v = c.startRing p n v := by
  have type : ¬6 ≤ bits v 0 3 := by have := (Chip.ringSetupOk_iff.mp ok).1; omega
  unfold Chip.ringCfgOn
  rw [if_neg type, off, ok]
  rfl

theorem Chip.ringCfgOn_refused (off : c.ringOn p n = false) (bad : ¬c.ringSetupOk p n v = true) :
    c.ringCfgOn p n v = c.badCfg p n := by
  unfold Chip.ringCfgOn
  split
  · rfl
  · rw [off, (Bool.not_eq_true _).mp bad]
    rfl

/-- While a ring is enabled a write of its set-up changes its vector alone. -/
theorem Chip.ringCfgOn_running (on : c.ringOn p n = true) (type : bits v 0 3 ≤ 5) :
    c.ringCfgOn p n v = c.put (Reg.HIF_RING_CFG_VECTOR p n) (bits v 16 6) := by
  unfold Chip.ringCfgOn
  rw [if_neg (by omega), on]
  rfl

end

theorem Chip.ringCfg_enable (c : Chip) (p n : Nat) {v : Word} (on : v.getLsbD 31 = true) :
    c.ringCfg p n v.toNat = c.ringCfgOn p n v.toNat := if_pos on

theorem Chip.ringCfg_disable (c : Chip) (p n : Nat) {v : Word} (off : v.getLsbD 31 = false) :
    c.ringCfg p n v.toNat = c.ringCfgOff p n v.toNat := if_neg (by rw [← Bool.not_eq_true] at off; exact off)

theorem bits_lt (v lo w : Nat) : bits v lo w < 2 ^ w := Nat.mod_lt _ (Nat.two_pow_pos w)

/-- What a ring shows once it has started. -/
theorem Chip.startRing_shows (c : Chip) (p n v : Nat) :
    (c.startRing p n v).ringState p n = 1 ∧ (c.startRing p n v).ci p n = 0 ∧ (c.startRing p n v).pi p n = 0 ∧
    (c.startRing p n v).get (Reg.HIF_RING_CFG_ENABLE p n) = 1 ∧
    (c.startRing p n v).get (Reg.HIF_RING_CFG_TYPE p n) = bits v 0 3 ∧
    (c.startRing p n v).get (Reg.HIF_RING_CFG_SIZE_LOG2 p n) = bits v 8 4 ∧
    (c.startRing p n v).get (Reg.HIF_RING_CFG_VECTOR p n) = bits v 16 6 := by
  unfold Chip.startRing Chip.putStart Chip.ringState Chip.ci Chip.pi
  simp (disch := (simp only [Field.key, Reg.HIF_RING_CFG_TYPE, Reg.HIF_RING_CFG_SIZE_LOG2, Reg.HIF_RING_CFG_VECTOR, Reg.HIF_RING_CFG_ENABLE,
    Reg.HIF_RING_STATUS_CI, Reg.HIF_RING_STATUS_STATE, Reg.HIF_RING_STATUS_FAULT, Reg.HIF_RING_FAULT_PI]; omega)) only
    [Chip.get_setRing, Chip.get_put_ne, Chip.get_put_self]
  exact ⟨rfl, rfl, rfl, rfl, Nat.mod_eq_of_lt (bits_lt ..), Nat.mod_eq_of_lt (bits_lt ..), Nat.mod_eq_of_lt (bits_lt ..)⟩

/-- The registers that an enabled ring's set-up writes. -/
def startOffs (p n : Nat) : List Nat :=
  [(Reg.HIF_RING_CFG_TYPE p n).off, (Reg.HIF_RING_STATUS_CI p n).off, (Reg.HIF_RING_FAULT_PI p n).off]

theorem Chip.onlyRegs_putStart (c : Chip) (p n v : Nat) : c.onlyRegs (c.putStart p n v) (startOffs p n) := by
  have cfg := (((Chip.onlyRegs_refl c (startOffs p n)).put (Reg.HIF_RING_CFG_TYPE p n) (bits v 0 3) (.head _)).put
    (Reg.HIF_RING_CFG_SIZE_LOG2 p n) (bits v 8 4) (.head _)).put (Reg.HIF_RING_CFG_VECTOR p n) (bits v 16 6) (.head _)
  have indices := ((cfg.put (Reg.HIF_RING_CFG_ENABLE p n) 1 (.head _)).put (Reg.HIF_RING_STATUS_CI p n) 0 (.tail _ (.head _))).put
    (Reg.HIF_RING_FAULT_PI p n) 0 (.tail _ (.tail _ (.head _)))
  exact (indices.put (Reg.HIF_RING_STATUS_STATE p n) 1 (.tail _ (.head _))).put (Reg.HIF_RING_STATUS_FAULT p n) 0 (.tail _ (.head _))

theorem Chip.startRing_regs (c : Chip) (p n v : Nat) :
    { c with rings := (c.startRing p n v).rings }.onlyRegs (c.startRing p n v) (startOffs p n) := by
  obtain ⟨same, kept⟩ := c.onlyRegs_putStart p n v
  unfold Chip.startRing
  generalize c.putStart p n v = d at same kept
  refine ⟨?_, kept⟩
  rw [same]
  rfl

theorem Chip.startRing_ring (c : Chip) (p n v : Nat) {m : Nat} (ne : m ≠ n) : (c.startRing p n v).ring p m = c.ring p m := by
  obtain ⟨same, -⟩ := c.onlyRegs_putStart p n v
  unfold Chip.startRing
  rw [Chip.ring_setRing_ne _ (by unfold ringId; omega), same]
  rfl

/-! ### What abandons descriptors, items and records -/

/-- Registers at a set of offsets and what rings have fetched stay, and nothing is put out but MSI-X messages. -/
structure Chip.calm (c d : Chip) (P : Nat → Prop) : Prop where
  regs : c.keepsAt d P
  signals : c.signals d
  fetched : ∀ q m, (d.ring q m).fetched = (c.ring q m).fetched

section
variable {c d e : Chip} {P : Nat → Prop}

theorem Chip.calm_of_same (regs : d.regs = c.regs) (out : d.out = c.out) (rings : d.rings = c.rings) : c.calm d P :=
  ⟨(Chip.keepsAt_refl c P).of_regs regs, Chip.signals_of_out out, fun q m => by rw [Chip.ring_congr rings]⟩

theorem Chip.calm_refl (c : Chip) (P : Nat → Prop) : c.calm c P := Chip.calm_of_same rfl rfl rfl

theorem Chip.calm.trans (h : c.calm d P) (k : d.calm e P) : c.calm e P :=
  ⟨h.regs.trans k.regs, h.signals.trans k.signals, fun q m => (k.fetched q m).trans (h.fetched q m)⟩

theorem Chip.calm.mono (h : c.calm d P) {Q : Nat → Prop} (sub : ∀ o, Q o → P o) : c.calm d Q :=
  ⟨h.regs.mono sub, h.signals, h.fetched⟩

theorem Chip.calm.put (h : c.calm d P) (g : Field) (v : Nat) (n : ¬P g.off) (l : g.lo < 32 := by exact of_decide_eq_true rfl) :
    c.calm (d.put g v) P :=
  ⟨h.regs.put g v n l, h.signals, h.fetched⟩

theorem Chip.calm.bump (h : c.calm d P) (g : Field) (v : Nat) (n : ¬P g.off) (l : g.lo < 32 := by exact of_decide_eq_true rfl) :
    c.calm (d.bump g v) P := h.put g _ n l

theorem Chip.calm.raise (h : c.calm d P) {src : Nat} (hs : src < 256) (cause : Nat) (items : List (Nat × Nat))
    (far : ∀ o, P o → o < 0x20000 ∨ 0x22000 ≤ o) : c.calm (d.raise src cause items) P :=
  ⟨h.regs.raise hs cause items far, h.signals.trans (Chip.signals_raise ..),
    fun q m => (Chip.fetched_raise ..).trans (h.fetched q m)⟩

theorem Chip.calm.setRing (h : c.calm d P) (p n : Nat) {r : RingX} (same : r.fetched = (d.ring p n).fetched) :
    c.calm (d.setRing p n r) P := by
  refine ⟨h.regs, h.signals, fun q m => ?_⟩
  rw [← h.fetched q m]
  by_cases own : ringId q m = ringId p n
  · have at' (e : Chip) : e.ring q m = e.ring p n := by unfold Chip.ring; rw [own]
    rw [at', at', Chip.ring_setRing, same]
  · rw [Chip.ring_setRing_ne _ own]

theorem Chip.calm_foldl {α : Type} {g : Chip → α → Chip} {l : List α} (step : ∀ d : Chip, ∀ x ∈ l, d.calm (g d x) P) (c : Chip) :
    c.calm (l.foldl g c) P := by
  induction l generalizing c with
  | nil => exact Chip.calm_refl c P
  | cons a l ih => exact (step c a (List.mem_cons_self ..)).trans (ih (fun d x m => step d x (List.mem_cons_of_mem _ m)) _)

end

/-- Records that lose their slots are held; no register is written and nothing put out (R496). -/
theorem Chip.calm_loseSlots (c : Chip) (p n : Nat) (P : Nat → Prop) : c.calm (c.loseSlots p n) P := by
  have hold (l : List EvRecord) (b : Chip) : b.calm (l.foldl (fun c r => c.holdRecord r) b) P :=
    Chip.calm_foldl (fun d r _ => Chip.calm_of_same (Chip.holdRecord_regs d r) (Chip.holdRecord_out d r) (Chip.holdRecord_rings d r)) b
  unfold Chip.loseSlots
  dsimp only
  generalize (c.evPend.filter fun r => decide (c.routeOf r.source = some (p, n)) && r.slotted) = lost
  have held := (Chip.calm_of_same (P := P) (c := c) (d := { c with
    evPend := c.evPend.filter fun r => !(decide (c.routeOf r.source = some (p, n)) && r.slotted) }) rfl rfl rfl).trans (hold lost _)
  split
  · exact held.setRing p n rfl
  · exact held

section
variable {P : Nat → Prop} (low : ∀ o, P o → o < 0x20000)
include low

/-- A dropped item is counted and told, and frees its frame store slot (R110, R307). -/
theorem Chip.calm_dropInsp (c : Chip) (p n : Nat) (it : InspItem) (drop : ¬P (Reg.HIF_RING_DROP_COUNT p n).off) :
    c.calm (c.dropInsp p n it) P := by
  have noted := (Chip.calm_refl c P).setRing p n (r := { c.ring p n with dropped := satAdd 16 (c.ring p n).dropped 1 }) rfl
  have told := (noted.bump (Reg.HIF_RING_DROP_COUNT p n) 1 drop).raise (src := 4) (by decide) 0 [(1, p), (1, n), (1, it.source % 4), (2, it.frame)] fun o q => .inl (low o q)
  refine told.put (Reg.CAM_PIPE_STATUS_SLOTS_FREE (it.source % 4)) _ fun q => ?_
  have := low _ q
  simp [Reg.CAM_PIPE_STATUS_SLOTS_FREE] at this
  omega

theorem Chip.calm_dropInspAll (c : Chip) (p n : Nat) (drop : ¬P (Reg.HIF_RING_DROP_COUNT p n).off) :
    c.calm (c.dropInspAll p n) P := by
  unfold Chip.dropInspAll
  refine Chip.calm.trans ?_ (Chip.calm_foldl (fun d it _ => Chip.calm_dropInsp low d p n it drop) _)
  exact Chip.calm_of_same rfl rfl rfl

end

theorem Chip.dropInsp_inspItems (c : Chip) (p n : Nat) (it : InspItem) : (c.dropInsp p n it).inspItems = c.inspItems := by
  have told := Chip.raise_rest ((c.setRing p n { c.ring p n with dropped := satAdd 16 (c.ring p n).dropped 1 }).bump
    (Reg.HIF_RING_DROP_COUNT p n) 1) 4 0 [(1, p), (1, n), (1, it.source % 4), (2, it.frame)]
  unfold Chip.dropInsp Chip.showSlots
  dsimp only
  rw [Chip.put_inspItems, told]
  rfl

/-- No item waits for the ring's buffers any more. -/
theorem Chip.dropInspAll_inspItems (c : Chip) (p n : Nat) :
    (c.dropInspAll p n).inspItems = c.inspItems.filter fun it => !decide (it.port = p ∧ it.ring = n) := by
  have items (l : List InspItem) (b : Chip) : (l.foldl (fun c it => c.dropInsp p n it) b).inspItems = b.inspItems := by
    induction l generalizing b with
    | nil => rfl
    | cons it l ih => exact (ih _).trans (b.dropInsp_inspItems p n it)
  exact items _ _

/-! ### Disabling (R91, R110) -/

/-- A ring that shows DISABLED. -/
def Chip.markDisabled (c : Chip) (p n : Nat) : Chip :=
  ((c.put (Reg.HIF_RING_CFG_ENABLE p n) 0).put (Reg.HIF_RING_STATUS_STATE p n) 0).put (Reg.HIF_RING_STATUS_FAULT p n) 0

/-- What a disabled ring's records and items come to. -/
def Chip.abandon (c : Chip) (p n : Nat) : Chip := ((c.loseSlots p n).dropInspAll p n).forgetCmd p n

theorem Chip.keepsAt_showHeld (c : Chip) {p : Nat} {P : Nat → Prop} (n : ¬P (Reg.HIF_STATUS_LAYER_HELD p).off) :
    c.keepsAt (c.showHeld p) P := (Chip.keepsAt_refl c P).put (Reg.HIF_STATUS_LAYER_HELD p) _ n

theorem Chip.showHeld_out (c : Chip) (p : Nat) : (c.showHeld p).out = c.out := rfl

theorem Chip.ring_showHeld (c : Chip) (p q m : Nat) : (c.showHeld p).ring q m = c.ring q m := rfl

theorem Chip.disableRing_eq (c : Chip) (p n : Nat) : c.disableRing p n =
    (((c.markDisabled p n).abandon p n).setRing p n (((c.markDisabled p n).abandon p n).ring p n).cleared).showHeld p := rfl

section
variable (c : Chip) {p n : Nat}

/-- What a disabled ring abandons writes no register of GLB or HIF but its DROP count. -/
theorem Chip.calm_abandon : c.calm (c.abandon p n) fun o => o < 0x20000 ∧ o ≠ 0x11024 + 0x1000 * p + 0x40 * n := by
  have lost := c.calm_loseSlots p n fun o => o < 0x20000 ∧ o ≠ 0x11024 + 0x1000 * p + 0x40 * n
  have dropped := lost.trans (Chip.calm_dropInspAll (fun _ q => q.1) (c.loseSlots p n) p n fun q => q.2 rfl)
  unfold Chip.abandon
  generalize (c.loseSlots p n).dropInspAll p n = d at dropped
  exact dropped.trans (Chip.calm_of_same rfl rfl rfl)

theorem Chip.calm_markDisabled : c.calm (c.markDisabled p n) fun o => o < 0x11000 + 0x1000 * p + 0x40 * n ∨
    0x11000 + 0x1000 * p + 0x40 * n + 0x40 ≤ o := by
  refine (((Chip.calm_refl c _).put (Reg.HIF_RING_CFG_ENABLE p n) 0 ?_).put (Reg.HIF_RING_STATUS_STATE p n) 0 ?_).put
    (Reg.HIF_RING_STATUS_FAULT p n) 0 ?_
  · simp only [Reg.HIF_RING_CFG_ENABLE]
    omega
  · simp only [Reg.HIF_RING_STATUS_STATE]
    omega
  · simp only [Reg.HIF_RING_STATUS_FAULT]
    omega

/-- A disabled ring shows it. -/
theorem Chip.disableRing_shows (hp : p < 2) (hn : n < 64) :
    (c.disableRing p n).ringState p n = 0 ∧ (c.disableRing p n).get (Reg.HIF_RING_CFG_ENABLE p n) = 0 := by
  have kept (f : Field) (l : f.lo < 32) (o : f.off = 0x11018 + 0x1000 * p + 0x40 * n ∨ f.off = 0x11010 + 0x1000 * p + 0x40 * n) :
      (c.disableRing p n).get f = (c.markDisabled p n).get f := by
    rw [Chip.disableRing_eq, Chip.keepsAt_showHeld (P := fun o => 0x11000 ≤ o) _ (by simp only [Reg.HIF_STATUS_LAYER_HELD]; omega) f l (by omega)]
    exact (Chip.calm_abandon (c.markDisabled p n)).regs f l (by omega)
  unfold Chip.ringState
  rw [kept _ (of_decide_eq_true rfl) (.inl rfl), kept _ (of_decide_eq_true rfl) (.inr rfl)]
  unfold Chip.markDisabled
  simp (disch := (simp only [Field.key, Reg.HIF_RING_CFG_ENABLE, Reg.HIF_RING_STATUS_STATE, Reg.HIF_RING_STATUS_FAULT]; omega)) only
    [Chip.get_put_ne, Chip.get_put_self]
  exact ⟨rfl, rfl⟩

/-- Disabling writes no register of GLB or HIF but the ring's own and its port's STATUS. -/
theorem Chip.keepsAt_disableRing : c.keepsAt (c.disableRing p n) fun o => o < 0x20000 ∧ o ≠ 0x10100 + 0x100 * p ∧
    (o < 0x11000 + 0x1000 * p + 0x40 * n ∨ 0x11000 + 0x1000 * p + 0x40 * n + 0x40 ≤ o) := by
  have marked := c.calm_markDisabled (p := p) (n := n)
  have left := (Chip.calm_abandon (c.markDisabled p n) (p := p) (n := n)).regs
  rw [Chip.disableRing_eq]
  generalize (c.markDisabled p n).abandon p n = d at left
  refine Chip.keepsAt.trans ?_ (Chip.keepsAt_showHeld (d.setRing p n (d.ring p n).cleared) fun q => q.2.1 rfl)
  refine Chip.keepsAt.of_regs (d := d) ?_ rfl
  exact (marked.regs.mono fun o q => q.2.2).trans (left.mono fun o q => ⟨q.1, by omega⟩)

theorem Chip.signals_disableRing : c.signals (c.disableRing p n) := by
  have marked := (c.calm_markDisabled (p := p) (n := n)).signals
  have left := (Chip.calm_abandon (c.markDisabled p n) (p := p) (n := n)).signals
  rw [Chip.disableRing_eq]
  generalize (c.markDisabled p n).abandon p n = d at left
  exact (marked.trans left).trans (Chip.signals_of_out (Chip.showHeld_out ..))

/-- A disabled ring has nothing fetched; every other keeps what it has. -/
theorem Chip.fetched_disableRing (q m : Nat) : ((c.disableRing p n).ring q m).fetched =
    if ringId q m = ringId p n then [] else (c.ring q m).fetched := by
  rw [Chip.disableRing_eq, Chip.ring_showHeld]
  split
  · next own =>
    have at' (e : Chip) : e.ring q m = e.ring p n := by unfold Chip.ring; rw [own]
    rw [at', Chip.ring_setRing]
    rfl
  · next other =>
    rw [Chip.ring_setRing_ne _ other, (Chip.calm_abandon _).fetched, c.calm_markDisabled.fetched]

theorem Chip.disableRing_inspItems : (c.disableRing p n).inspItems =
    ((c.markDisabled p n).loseSlots p n).inspItems.filter fun it => !decide (it.port = p ∧ it.ring = n) := by
  have items (d : Chip) (r : RingX) : (((d.forgetCmd p n).setRing p n r).showHeld p).inspItems = d.inspItems := rfl
  rw [Chip.disableRing_eq, Chip.abandon, items, Chip.dropInspAll_inspItems]

end

theorem Chip.ringCfgOff_disables {c : Chip} {p n v : Nat} (on : c.ringOn p n = true) (type : bits v 0 3 ≤ 5) :
    c.ringCfgOff p n v = (c.put (Reg.HIF_RING_CFG_VECTOR p n) (bits v 16 6)).disableRing p n := by
  unfold Chip.ringCfgOff
  rw [if_neg (by omega), on]
  rfl

/-- While a ring is enabled, a write of its base or of its consumer-index location is discarded (R91). -/
theorem Chip.writeHif_fixed {c : Chip} {p n k : Nat} (v : Nat) (hp : p < 2) (hn : n < 64) (hk : k < 4) (on : c.ringOn p n = true) :
    c.writeHif (0x11000 + 0x1000 * p + 0x40 * n + 4 * k) v = c := by
  have port : (0x11000 + 0x1000 * p + 0x40 * n + 4 * k - 0x11000) / 0x1000 = p := by omega
  have ring : (0x11000 + 0x1000 * p + 0x40 * n + 4 * k) % 0x1000 / 0x40 = n := by omega
  have reg : (0x11000 + 0x1000 * p + 0x40 * n + 4 * k) % 0x40 = 4 * k := by omega
  unfold Chip.writeHif Chip.writeRing
  rw [if_pos (by omega), port, ring, reg, if_neg (by omega), if_neg (by omega), if_pos ⟨by omega, on⟩]

/-- A write of one aligned word of HIF is its block's (R42). -/
theorem exec_registerWrite_hif {s : State} (h : s.awake) (p : Port) (v : Word) {off : Nat} (block : off / 0x10000 = 1) (al : off % 4 = 0) :
    exec (.registerWrite p .bar0 (BitVec.ofNat 24 off) ⟨v, none⟩) s = .next (s.withChip (s.toChip.writeHif off v.toNat)) := by
  have fits : (BitVec.ofNat 24 off).toNat = off := Nat.mod_eq_of_lt (by omega)
  rw [exec_registerWrite_bar0 h, fits]
  unfold Chip.hostWrite Chip.writeBar0 Chip.writeLow
  rw [if_neg (by omega), if_neg (by decide), if_pos (by omega), block]
  rfl

/-- Settles O20: the set-up written starts the ring or is refused, and a disabled ring abandons what it has. -/
theorem ringsAreEnabledAndDisabled : Obligations.RingsAreEnabledAndDisabled := by
  refine ⟨fun via p n v s awake enable => ⟨fun off ok => ?_, fun off bad => ?_, fun on type => ?_, fun on q w k => ?_⟩,
    fun via p n v s awake disable type on => ?_⟩
  · refine ⟨s.toChip.startRing p.num n.val v.toNat, ?_, ?_⟩
    · rw [exec_ringEnable awake, Chip.ringCfg_enable _ _ _ enable, Chip.ringCfgOn_starts off (Chip.ringSetupOk_iff.mpr ok)]
    · obtain ⟨state, ci, pi, on, type, size, vector⟩ := s.toChip.startRing_shows p.num n.val v.toNat
      refine ⟨state, ci, pi, ?_, type, size, vector, ?_, fun m _ ne => Chip.startRing_ring _ _ _ _ ne, Chip.startRing_regs ..⟩
      · unfold Chip.ringOn Chip.flag
        rw [on]
        rfl
      · unfold Chip.startRing
        rw [Chip.ring_setRing]
        rfl
  · rw [exec_ringEnable awake, Chip.ringCfg_enable _ _ _ enable, Chip.ringCfgOn_refused off (mt Chip.ringSetupOk_iff.mp bad)]
    rfl
  · rw [exec_ringEnable awake, Chip.ringCfg_enable _ _ _ enable, Chip.ringCfgOn_running on type]
  · have hp := portNum_lt p
    have hn := n.isLt
    have hk := k.isLt
    rw [exec_registerWrite_hif awake q w (by omega) (by omega), Chip.writeHif_fixed _ hp hn hk on, State.withChip_toChip]
  · have hp := portNum_lt p
    refine ⟨(s.toChip.put (Reg.HIF_RING_CFG_VECTOR p.num n.val) (bits v.toNat 16 6)).disableRing p.num n.val, ?_, ?_⟩
    · rw [exec_ringDisable awake, Chip.ringCfg_disable _ _ _ disable, Chip.ringCfgOff_disables on type]
    · generalize hd : s.toChip.put (Reg.HIF_RING_CFG_VECTOR p.num n.val) (bits v.toNat 16 6) = d
      obtain ⟨state, enable⟩ := d.disableRing_shows hp n.isLt
      refine ⟨state, ?_, ?_, fun it mem port ring => ?_, ?_, fun m hm ne => ?_⟩
      · unfold Chip.ringOn Chip.flag
        rw [enable]
        rfl
      · rw [Chip.fetched_disableRing, if_pos rfl]
      · rw [Chip.disableRing_inspItems, List.mem_filter] at mem
        simp [port, ring] at mem
      · have same : s.toChip.signals d := Chip.signals_of_out (by rw [← hd, Chip.put_out])
        exact (same.trans d.signals_disableRing).postsNothing
      · have kept (f : Field) (l : f.lo < 32) (o : f.off = 0x11018 + 0x1000 * p.num + 0x40 * m) :
            (d.disableRing p.num n.val).get f = s.toChip.get f := by
          rw [d.keepsAt_disableRing f l (by omega), ← hd]
          exact Chip.get_put_off _ _ f _ (of_decide_eq_true rfl) l (by simp only [Reg.HIF_RING_CFG_VECTOR]; omega)
        exact ⟨kept _ (of_decide_eq_true rfl) rfl, kept _ (of_decide_eq_true rfl) rfl⟩

end Sys2Proof.Machine
end

