-- ==== Sys2Proof/Proofs/PortReset.lean ====
section
/-! PROOF. Proofs/PortReset.lean: links of the host ports and their resets (R85, R116, R466). -/

namespace Sys2Proof.Machine

/-! ### Queues flushed and power states chosen again -/

/-- A queue crossing that is flushed writes registers of CKP and the event block, and puts out no more than a message (R458). -/
theorem Chip.calm_flushQueue (c : Chip) (x inst : Nat) (depth : Option Nat) : c.calm (c.flushQueue x inst depth) (· < 0x20000) := by
  obtain ⟨n, run⟩ : ∃ n, c.flushQueue x inst depth =
      if n = 0 then (c.quarantine x inst).drawn
      else ((((((c.quarantine x inst).drawn.bump Reg.CKP_XING_FLUSHED_COUNT n).put Reg.CKP_XING_LAST_XING x).put
        Reg.CKP_XING_LAST_INSTANCE inst).put Reg.CKP_XING_LAST_ENTRIES (min n 65535)).raise 246 0 [(1, x), (4, n)]) := ⟨_, rfl⟩
  obtain ⟨quar, v, quarantined⟩ : ∃ l v, (c.quarantine x inst).drawn = ({ c with quar := l }.put Reg.CKP_XING_QUAR_QUAR v).drawn := ⟨_, _, rfl⟩
  have held : c.calm (c.quarantine x inst).drawn (· < 0x20000) := by
    rw [quarantined]
    exact ((Chip.calm_of_same (c := c) (d := { c with quar := quar }) rfl rfl rfl).put Reg.CKP_XING_QUAR_QUAR v (by decide)).trans
      (Chip.calm_of_same rfl rfl rfl)
  generalize (c.quarantine x inst).drawn = d at run held
  rw [run]
  split
  · exact held
  · exact (((((held.bump Reg.CKP_XING_FLUSHED_COUNT _ (by decide)).put Reg.CKP_XING_LAST_XING _ (by decide)).put
      Reg.CKP_XING_LAST_INSTANCE _ (by decide)).put Reg.CKP_XING_LAST_ENTRIES _ (by decide)).raise (by decide) _ _ fun _ => Or.inl)

/-- An exit that starts writes CKP.WAKE at most. -/
theorem Chip.calm_startExit (c : Chip) (st cause : Nat) : c.calm (c.startExit st cause) (· ≠ 0x210018) := by
  unfold Chip.startExit
  split
  · exact Chip.calm_refl c _
  · split
    · exact Chip.calm_of_same rfl rfl rfl
    · exact ((Chip.calm_refl c _).put Reg.CKP_WAKE_CAUSE cause (by decide)).trans (Chip.calm_of_same rfl rfl rfl)

/-- The choice of a power state writes CKP.LTR_NOW and CKP.WAKE at most (R466). -/
theorem Chip.calm_retarget (c : Chip) (cause : Nat) : c.calm (c.retarget cause) fun o => o ≠ 0x210014 ∧ o ≠ 0x210018 := by
  have shown : c.calm c.showTol fun o => o ≠ 0x210014 ∧ o ≠ 0x210018 := (Chip.calm_refl c _).put Reg.CKP_LTR_NOW_NS _ (by decide)
  exact shown.trans ((Chip.calm_startExit _ _ cause).mono fun o q => q.2)

/-! ### Ranges returned to their reset values -/

theorem SMap.get_drop_of_dropped {V : Type} (d : V) (p : Nat → Bool) {k : Nat} (h : p k = true) (m : SMap V) :
    SMap.get d k (SMap.drop p m) = d := by
  induction m with
  | nil => rfl
  | cons e m ih =>
    unfold SMap.drop at *
    rw [List.filter_cons]
    split
    · next kept =>
      have ne : e.1 ≠ k := fun same => by simp [same, h] at kept
      rw [SMap.get_cons, if_neg ne, ih]
    · exact ih

theorem Chip.get_resetRange_inside (c : Chip) {lo hi : Nat} {f : Field} (l : f.lo < 32) (h : lo ≤ f.off) (k : f.off < hi) :
    (c.resetRange lo hi).get f = f.rst := by
  refine SMap.get_drop_of_dropped _ (fun k => decide (32 * lo ≤ k ∧ k < 32 * hi)) ?_ c.regs
  rw [decide_eq_true_eq, Field.key]
  omega

theorem Chip.keepsAt_resetRange (c : Chip) (lo hi : Nat) : c.keepsAt (c.resetRange lo hi) fun o => o < lo ∨ hi ≤ o := by
  intro f l o
  refine SMap.get_drop _ (fun k => decide (32 * lo ≤ k ∧ k < 32 * hi)) _ ?_ c.regs
  rw [decide_eq_false_iff_not, Field.key]
  omega

/-! ### The parts of a port reset (R85) -/

/-- Both transaction queues of a port flushed. -/
def Chip.flushPort (c : Chip) (p : Nat) : Chip := (c.flushQueue 15 p none).flushQueue 16 p none

/-- Rings of a port disabled. -/
def Chip.disableRings (c : Chip) (p : Nat) (l : List Nat) : Chip := l.foldl (fun c n => c.disableRing p n) c

/-- Those of a list of semaphores that a port owns released. -/
def Chip.releaseSems (c : Chip) (p : Nat) (l : List Nat) : Chip :=
  l.foldl (fun c n => if c.get (Reg.GLB_SEM_OWNER n) = p + 1 then c.put (Reg.GLB_SEM_OWNER n) 0 else c) c

/-- The end of a port's reset: MSI-X table and configuration space, the count, the event and the tolerance. -/
def Chip.endReset (c : Chip) (p : Nat) : Chip :=
  let c : Chip := { c with msix := SMap.drop (fun k => decide (k / 64 = p)) c.msix, pcie := SMap.erase p c.pcie }
  let c := (c.bump (Reg.HIF_STATUS_RESETS p) 1).raise (7 + p) 0 []
  (c.put (if p = 0 then Reg.CKP_LTR_A_NS else Reg.CKP_LTR_B_NS) 0).retarget 4

theorem Chip.portReset_eq (c : Chip) (p : Nat) : c.portReset p =
    (((((c.flushPort p).disableRings p (List.range 64)).resetRange (0x11000 + 0x1000 * p) (0x12000 + 0x1000 * p)).releaseSems p
      (List.range 32)).endReset p) := rfl

/-- The offsets of GLB and HIF but a port's STATUS and its rings. -/
def apartFrom (p o : Nat) : Prop := o < 0x20000 ∧ o ≠ 0x10100 + 0x100 * p ∧ (o < 0x11000 + 0x1000 * p ∨ 0x12000 + 0x1000 * p ≤ o)

section
variable (c : Chip) {p : Nat} (l : List Nat)

theorem Chip.keepsAt_disableRings (hl : ∀ n ∈ l, n < 64) : c.keepsAt (c.disableRings p l) (apartFrom p) :=
  Chip.keepsAt_foldl (fun d n m => (d.keepsAt_disableRing (p := p) (n := n)).mono fun o q => ⟨q.1, q.2.1, by
    have := hl n m
    have := q.2.2
    omega⟩) c

theorem Chip.signals_disableRings : c.signals (c.disableRings p l) :=
  Chip.signals_foldl (fun d _ => d.signals_disableRing) l c

theorem Chip.fetched_disableRings {n : Nat} (h : n ∈ l ∨ (c.ring p n).fetched = []) :
    ((c.disableRings p l).ring p n).fetched = [] := by
  induction l generalizing c with
  | nil => exact h.resolve_left (List.not_mem_nil)
  | cons a l ih =>
    refine ih (c.disableRing p a) ?_
    rw [Chip.fetched_disableRing]
    by_cases own : n = a
    · exact .inr (if_pos (by rw [own]))
    · have other : ringId p n ≠ ringId p a := by unfold ringId; omega
      rw [if_neg other]
      exact h.imp_left fun m => (List.mem_cons.mp m).resolve_left own

theorem Chip.releaseSems_cons (a : Nat) : c.releaseSems p (a :: l) =
    (if c.get (Reg.GLB_SEM_OWNER a) = p + 1 then c.put (Reg.GLB_SEM_OWNER a) 0 else c).releaseSems p l := rfl

/-- A semaphore of the list is released if the port owns it; every other stays as it is. -/
theorem Chip.get_releaseSems (n : Nat) : (c.releaseSems p l).get (Reg.GLB_SEM_OWNER n) =
    if n ∈ l ∧ c.get (Reg.GLB_SEM_OWNER n) = p + 1 then 0 else c.get (Reg.GLB_SEM_OWNER n) := by
  induction l generalizing c with
  | nil => simp [Chip.releaseSems]
  | cons a l ih =>
    rw [Chip.releaseSems_cons, ih]
    by_cases own : n = a
    · subst own
      by_cases mine : c.get (Reg.GLB_SEM_OWNER n) = p + 1
      · simp [mine, Chip.get_put_self]
      · simp [mine]
    · have other : (if c.get (Reg.GLB_SEM_OWNER a) = p + 1 then c.put (Reg.GLB_SEM_OWNER a) 0 else c).get (Reg.GLB_SEM_OWNER n) =
          c.get (Reg.GLB_SEM_OWNER n) := by
        split
        · exact Chip.get_put_ne _ _ _ _ (by simp only [Field.key, Reg.GLB_SEM_OWNER]; omega)
        · rfl
      rw [other]
      simp [own]

/-- Releasing semaphores writes no register but theirs. -/
theorem Chip.calm_releaseSems (hl : ∀ n ∈ l, n < 32) : c.calm (c.releaseSems p l) (0x180 ≤ ·) := by
  refine Chip.calm_foldl (fun d n m => ?_) c
  have := hl n m
  split
  · exact (Chip.calm_refl d _).put _ _ (by simp only [Reg.GLB_SEM_OWNER]; omega)
  · exact Chip.calm_refl d _

end

theorem Chip.calm_flushPort (c : Chip) (p : Nat) : c.calm (c.flushPort p) (· < 0x20000) :=
  (c.calm_flushQueue 15 p none).trans (Chip.calm_flushQueue _ 16 p none)

/-- The end of a port's reset writes of GLB and HIF the port's STATUS alone, and clears its tolerance (R466). -/
theorem Chip.endReset_ends (c : Chip) (p : Port) :
    c.calm (c.endReset p.num) (fun o => o < 0x20000 ∧ o ≠ 0x10100 + 0x100 * p.num) ∧
    (c.endReset p.num).get (if p = .a then Reg.CKP_LTR_A_NS else Reg.CKP_LTR_B_NS) = 0 := by
  have hp := portNum_lt p
  have which : (if p.num = 0 then Reg.CKP_LTR_A_NS else Reg.CKP_LTR_B_NS) = if p = .a then Reg.CKP_LTR_A_NS else Reg.CKP_LTR_B_NS := by
    cases p <;> rfl
  have here : ∀ f : Field, f = (if p = .a then Reg.CKP_LTR_A_NS else Reg.CKP_LTR_B_NS) →
      f.lo < 32 ∧ f.width = 32 ∧ 0x21000c ≤ f.off ∧ f.off < 0x210014 := by
    rintro _ rfl
    cases p <;> decide
  unfold Chip.endReset
  dsimp only
  rw [which]
  generalize hf : (if p = Port.a then Reg.CKP_LTR_A_NS else Reg.CKP_LTR_B_NS) = f at here
  obtain ⟨lo, width, above, below⟩ := here f rfl
  generalize hd : ({ c with msix := SMap.drop (fun k => decide (k / 64 = p.num)) c.msix, pcie := SMap.erase p.num c.pcie } : Chip) = d
  have left : c.calm d (fun o => o < 0x20000 ∧ o ≠ 0x10100 + 0x100 * p.num) := by rw [← hd]; exact Chip.calm_of_same rfl rfl rfl
  have told := (left.bump (Reg.HIF_STATUS_RESETS p.num) 1 fun q => q.2 rfl).raise
    (src := 7 + p.num) (by omega) 0 [] fun o q => .inl q.1
  have cleared := told.put f 0 (fun q => by have := q.1; omega) lo
  refine ⟨cleared.trans ((Chip.calm_retarget _ 4).mono fun o q => ?_), ?_⟩
  · have := q.1
    omega
  · rw [(Chip.calm_retarget _ 4).regs f lo (by omega), Chip.get_put_self]
    exact Nat.zero_mod _

/-! ### A port reset (R85) -/

section
variable (c : Chip) (p : Port)

/-- Registers of GLB and HIF apart from a port's stay in its reset, but for the semaphores. -/
theorem Chip.keepsAt_portReset : c.keepsAt (c.portReset p.num) fun o => 0x180 ≤ o ∧ apartFrom p.num o := by
  rw [Chip.portReset_eq]
  refine ((((c.calm_flushPort p.num).regs.mono ?_).trans ((Chip.keepsAt_disableRings _ _ ?_).mono ?_)).trans
    ((Chip.keepsAt_resetRange _ _ _).mono ?_)).trans (((Chip.calm_releaseSems _ _ ?_).regs.mono ?_).trans
    ((Chip.endReset_ends _ p).1.regs.mono ?_))
  · exact fun o q => q.2.1
  · exact fun n => List.mem_range.mp
  · exact fun o q => q.2
  · exact fun o q => q.2.2.2
  · exact fun n => List.mem_range.mp
  · exact fun o q => q.1
  · exact fun o q => ⟨q.2.1, q.2.2.1⟩

theorem Chip.signals_portReset : c.signals (c.portReset p.num) := by
  have disabled := (c.calm_flushPort p.num).signals.trans (Chip.signals_disableRings (c.flushPort p.num) (p := p.num) (List.range 64))
  rw [Chip.portReset_eq]
  generalize (c.flushPort p.num).disableRings p.num (List.range 64) = d at disabled
  have ranged : c.signals (d.resetRange (0x11000 + 0x1000 * p.num) (0x12000 + 0x1000 * p.num)) :=
    disabled.trans (Chip.signals_of_out rfl)
  exact (ranged.trans (Chip.calm_releaseSems _ (List.range 32) fun n => List.mem_range.mp).signals).trans (Chip.endReset_ends _ p).1.signals

/-- A ring of the port holds its reset values and has nothing fetched. -/
theorem Chip.portReset_rings {n : Nat} (hn : n < 64) : (c.portReset p.num).ringState p.num n = 0 ∧
    (c.portReset p.num).get (Reg.HIF_RING_CFG_ENABLE p.num n) = 0 ∧ ((c.portReset p.num).ring p.num n).fetched = [] := by
  have hp := portNum_lt p
  have empty := Chip.fetched_disableRings (c.flushPort p.num) (p := p.num) (List.range 64) (.inl (List.mem_range.mpr hn))
  rw [Chip.portReset_eq]
  generalize (c.flushPort p.num).disableRings p.num (List.range 64) = d at empty
  have range (f : Field) (l : f.lo < 32) (lo : 0x11000 + 0x1000 * p.num ≤ f.off) (hi : f.off < 0x12000 + 0x1000 * p.num) :=
    d.get_resetRange_inside l lo hi
  have ranged : ((d.resetRange (0x11000 + 0x1000 * p.num) (0x12000 + 0x1000 * p.num)).ring p.num n).fetched = [] := empty
  generalize d.resetRange (0x11000 + 0x1000 * p.num) (0x12000 + 0x1000 * p.num) = e at range ranged
  have sems := Chip.calm_releaseSems e (p := p.num) (List.range 32) fun n => List.mem_range.mp
  have ended := (Chip.endReset_ends (e.releaseSems p.num (List.range 32)) p).1
  have reset (f : Field) (l : f.lo < 32) (lo : 0x11000 + 0x1000 * p.num ≤ f.off) (hi : f.off < 0x12000 + 0x1000 * p.num) :
      ((e.releaseSems p.num (List.range 32)).endReset p.num).get f = f.rst := by
    rw [ended.regs f l (by omega), sems.regs f l (by omega), range f l lo hi]
  refine ⟨reset _ (of_decide_eq_true rfl) ?_ ?_, reset _ (of_decide_eq_true rfl) ?_ ?_, ?_⟩
  · simp only [Reg.HIF_RING_STATUS_STATE]
    omega
  · simp only [Reg.HIF_RING_STATUS_STATE]
    omega
  · simp only [Reg.HIF_RING_CFG_ENABLE]
    omega
  · simp only [Reg.HIF_RING_CFG_ENABLE]
    omega
  · rw [ended.fetched, sems.fetched, ranged]

/-- The port's semaphores are released and no other. -/
theorem Chip.portReset_sems {n : Nat} (hn : n < 32) : (c.portReset p.num).get (Reg.GLB_SEM_OWNER n) =
    if c.get (Reg.GLB_SEM_OWNER n) = p.num + 1 then 0 else c.get (Reg.GLB_SEM_OWNER n) := by
  have sem : (Reg.GLB_SEM_OWNER n).off < 0x180 := by
    simp only [Reg.GLB_SEM_OWNER]
    omega
  have low : (Reg.GLB_SEM_OWNER n).lo < 32 := of_decide_eq_true rfl
  have apart : apartFrom p.num (Reg.GLB_SEM_OWNER n).off := ⟨by omega, by omega, by omega⟩
  rw [Chip.portReset_eq, (Chip.endReset_ends _ p).1.regs _ low ⟨apart.1, apart.2.1⟩, Chip.get_releaseSems,
    Chip.keepsAt_resetRange _ _ _ _ low apart.2.2, Chip.keepsAt_disableRings _ _ (fun n => List.mem_range.mp) _ low apart,
    (c.calm_flushPort p.num).regs _ low apart.1]
  simp only [List.mem_range, hn, true_and]

theorem Chip.portReset_tolerance : (c.portReset p.num).get (if p = .a then Reg.CKP_LTR_A_NS else Reg.CKP_LTR_B_NS) = 0 := by
  rw [Chip.portReset_eq]
  exact (Chip.endReset_ends _ p).2

end

/-! ### Links (R85, R116) -/

/-- A link that changes is shown and told; one that goes down resets its port (R85). -/
theorem Chip.pcieLink_eq (c : Chip) (p speed width : Nat) : c.pcieLink p speed width =
    let w := if speed = 0 then 0 else width
    let d := (((c.put (Reg.HIF_STATUS_SPEED p) speed).put (Reg.HIF_STATUS_WIDTH p) w).put (Reg.HIF_STATUS_LINK_CHG p) 1).raise p 0 []
    if (c.get (Reg.HIF_STATUS_SPEED p) = speed ∧ c.get (Reg.HIF_STATUS_WIDTH p) = w) ∨ w = 3 ∨ (speed ≠ 0 ∧ w = 0) then c
    else if c.get (Reg.HIF_STATUS_SPEED p) ≠ 0 ∧ speed = 0 then d.portReset p else d.retarget 4 := rfl

theorem exec_pcieLinkChange (p : Port) (speed width : Fin 5) (s : State) :
    exec (.pcieLinkChange p speed width) s = .next (s.withChip (s.toChip.pcieLink p.num speed.val width.val)) := rfl

theorem exec_portReset (p : Port) (s : State) : exec (.portReset p) s = .next (s.withChip (s.toChip.portReset p.num)) := rfl

/-- Settles O19: a link goes by one equation, and a port reset is its flush, its disabled rings, its range and its end. -/
theorem linksAndPortReset : Obligations.LinksAndPortReset := by
  refine ⟨fun p speed width s => ⟨fun same => ?_, fun change up => ?_, fun change was down => ⟨?_, exec_portReset p _⟩, fun u => rfl⟩,
    fun p s => ⟨_, exec_portReset p s, fun n hn => s.toChip.portReset_rings p hn, fun n hn => ?_, fun n hn => s.toChip.portReset_sems p hn,
      s.toChip.portReset_tolerance p, (s.toChip.signals_portReset p).postsNothing⟩⟩
  · rw [exec_pcieLinkChange, Chip.pcieLink_eq]
    dsimp only
    rw [if_pos same, State.withChip_toChip]
  · rw [exec_pcieLinkChange, Chip.pcieLink_eq]
    dsimp only
    rw [if_neg change, if_neg (by tauto)]
  · rw [exec_pcieLinkChange, Chip.pcieLink_eq]
    dsimp only
    rw [if_neg change, if_pos ⟨was, down⟩]
  · have hp := portNum_lt p
    have other : p.other.num = 1 - p.num := portNum_other p
    have kept (f : Field) (l : f.lo < 32) (lo : 0x11000 + 0x1000 * p.other.num ≤ f.off) (hi : f.off < 0x12000 + 0x1000 * p.other.num) :=
      s.toChip.keepsAt_portReset p f l ⟨by omega, by omega, by omega, by omega⟩
    refine ⟨kept _ (of_decide_eq_true rfl) ?_ ?_, kept _ (of_decide_eq_true rfl) ?_ ?_, kept _ (of_decide_eq_true rfl) ?_ ?_⟩
    all_goals
      simp only [Reg.HIF_RING_STATUS_STATE, Reg.HIF_RING_STATUS_CI, Reg.HIF_RING_FAULT_PI]
      omega

end Sys2Proof.Machine
end

