-- ==== Sys2Proof/Proofs/Doorbells.lean ====
section
/-! PROOF. Proofs/Doorbells.lean: doorbells, and the descriptors fetched under them (R93, R94, R96, R102, R109). -/

namespace Sys2Proof.Machine

/-! ### Doorbells (R94) -/

theorem exec_doorbell {s : State} (h : s.awake) (p : Port) (n : Fin 64) (v : Word) :
    exec (.doorbell p n v) s = .next (s.withChip (s.toChip.doorbell p.num n.val v.toNat)) :=
  State.access_of_awake h fun c => c.doorbell p.num n.val v.toNat

section
variable {c : Chip} {p n v : Nat}

theorem Chip.doorbellOk_iff : c.doorbellOk p n v = true ↔ v < 65536 ∧
    (v + 65536 - c.ci p n) % 65536 ≤ 2 ^ c.get (Reg.HIF_RING_CFG_SIZE_LOG2 p n) ∧
    0 ≤ wrapDiff (BitVec.ofNat 16 v) (BitVec.ofNat 16 (c.pi p n)) := by
  unfold Chip.doorbellOk Chip.ringSlots
  simp only [Bool.and_eq_true, decide_eq_true_eq, and_assoc]
  refine ⟨fun ⟨high, count, advance⟩ => ?_, fun ⟨high, count, advance⟩ => ?_⟩
  · have small : v < 65536 := by omega
    rw [Nat.mod_eq_of_lt small] at count
    exact ⟨small, count, advance⟩
  · rw [Nat.mod_eq_of_lt high]
    exact ⟨by omega, count, advance⟩

theorem Chip.doorbell_disabled (off : c.ringState p n = 0) : c.doorbell p n v = c.raise 14 1 [(1, p), (1, n), (4, v)] := by
  unfold Chip.doorbell Chip.ringDoorbell
  simp [off]

theorem Chip.doorbell_accepted (on : c.ringState p n ≠ 0) (ok : c.doorbellOk p n v = true) :
    c.doorbell p n v = (c.put (Reg.HIF_RING_FAULT_PI p n) v).wake 1 := by
  unfold Chip.doorbell Chip.ringDoorbell
  simp [on, ok]

/-- A doorbell out of range: a STOPPED ring discards it, a RUNNING one is to stop. -/
theorem Chip.doorbell_refused (on : c.ringState p n ≠ 0) (bad : ¬c.doorbellOk p n v = true) : c.doorbell p n v =
    if c.ringState p n = 2 then c.raise 14 2 [(1, p), (1, n), (4, v)] else c.requestStop p n 0x104 := by
  unfold Chip.doorbell Chip.ringDoorbell
  simp [on, bad]

/-- A stop that is asked for waits for what the ring has acted on (R94, R107). -/
theorem Chip.requestStop_eq (code : Nat) : c.requestStop p n code =
    if (c.ring p n).acted then c.setRing p n { c.ring p n with stopAfter := some code } else c.stopRing p n code := rfl

end

/-! ### Fetches (R93, R96, R102, R109) -/

theorem exec_descriptorFetch_bytes (p : Port) (n : Fin 64) {d : List Byte} (s : State) (h : d.length = 64) :
    exec (.descriptorFetch p n (some d)) s = .next (s.withChip (s.toChip.fetchDesc p.num n.val (some d))) := if_pos h

theorem exec_descriptorFetch_malformed (p : Port) (n : Fin 64) {d : List Byte} (s : State) (h : d.length ≠ 64) :
    exec (.descriptorFetch p n (some d)) s = .fault .malformed := if_neg h

theorem exec_descriptorFetch_failed (p : Port) (n : Fin 64) (s : State) :
    exec (.descriptorFetch p n none) s = .next (s.withChip (s.toChip.fetchDesc p.num n.val none)) := rfl

/-- What R109 and R391 ask of the block area and DRAM before a LAYER ring fetches. -/
def Chip.layerSpace (c : Chip) : Prop :=
  c.blockUsed + 263168 ≤ c.get Reg.HIF_BLOCK_AREA_MIB * 2 ^ 20 ∧ c.flag Reg.DRC_STATUS_INIT_DONE = true

/-- A descriptor joins those fetched. -/
def Chip.takeDesc (c : Chip) (p n : Nat) (data : Option (List Byte)) : Chip :=
  (c.setRing p n { c.ring p n with fetched := (c.ring p n).fetched ++ [data], heldSince := none, heldTold := false }).showHeld p

section
variable {c : Chip} {p n : Nat} {data : Option (List Byte)}

theorem Chip.canFetch_iff : c.canFetch p n = true ↔
    c.ringState p n = 1 ∧ (c.ring p n).fetched.length < 32 ∧ (c.ring p n).fetched.length < c.outstanding p n := by
  simp only [Chip.canFetch, Bool.and_eq_true, decide_eq_true_eq, and_assoc]

theorem Chip.layerSpace_iff : ¬(c.blockRoom = false ∨ c.flag Reg.DRC_STATUS_INIT_DONE = false) ↔ c.layerSpace := by
  unfold Chip.layerSpace Chip.blockRoom Chip.blockArea
  rw [not_or, Bool.not_eq_false, Bool.not_eq_false, decide_eq_true_eq]

theorem Chip.fetchDesc_takes (ready : c.canFetch p n = true) (room : c.get (Reg.HIF_RING_CFG_TYPE p n) = 0 → c.layerSpace) :
    c.fetchDesc p n data =
      if (c.ring p n).fetched.isEmpty then (c.takeDesc p n data).settleHead p n else c.takeDesc p n data := by
  have free : ¬(c.get (Reg.HIF_RING_CFG_TYPE p n) = 0 ∧ (c.blockRoom = false ∨ c.flag Reg.DRC_STATUS_INIT_DONE = false)) :=
    fun held => Chip.layerSpace_iff.mpr (room held.1) held.2
  unfold Chip.fetchDesc
  rw [ready]
  dsimp only
  rw [if_neg free]
  rfl

/-- A LAYER ring without space waits (R109). -/
theorem Chip.fetchDesc_waits (ready : c.canFetch p n = true) (layer : c.get (Reg.HIF_RING_CFG_TYPE p n) = 0) (full : ¬c.layerSpace) :
    c.fetchDesc p n data = (c.setRing p n { c.ring p n with heldSince := some ((c.ring p n).heldSince.getD c.clk) }).showHeld p := by
  have held : c.get (Reg.HIF_RING_CFG_TYPE p n) = 0 ∧ (c.blockRoom = false ∨ c.flag Reg.DRC_STATUS_INIT_DONE = false) :=
    ⟨layer, not_not.mp (mt Chip.layerSpace_iff.mp full)⟩
  unfold Chip.fetchDesc
  rw [if_neg (by rw [ready]; decide)]
  dsimp only
  rw [if_pos held]

/-- A ring whose first descriptor could not be read faults at it (R102). -/
theorem Chip.settleHead_failed (run : c.ringState p n = 1) {l : List (Option (List Byte))} (head : (c.ring p n).fetched = none :: l) :
    c.settleHead p n = c.faultDesc p n 0x103 := by
  unfold Chip.settleHead
  rw [if_neg (not_not.mpr run), head]

theorem Chip.takeDesc_ringState (hp : p < 2) : (c.takeDesc p n data).ringState p n = c.ringState p n :=
  Chip.keepsAt_showHeld (P := fun o => 0x11000 ≤ o) _ (by simp only [Reg.HIF_STATUS_LAYER_HELD]; omega) _ (of_decide_eq_true rfl)
    (by simp only [Reg.HIF_RING_STATUS_STATE]; omega)

theorem Chip.takeDesc_fetched : ((c.takeDesc p n data).ring p n).fetched = (c.ring p n).fetched ++ [data] := by
  unfold Chip.takeDesc
  rw [Chip.ring_showHeld, Chip.ring_setRing]

theorem Chip.spaceCome_of_space (held : (c.ring p n).heldSince.isSome = true) (space : c.layerSpace) :
    c.spaceCome p n = (c.setRing p n { c.ring p n with heldSince := none, heldTold := false }).showHeld p := by
  have room := Chip.layerSpace_iff.mpr space
  rw [not_or, Bool.not_eq_false, Bool.not_eq_false] at room
  unfold Chip.spaceCome
  dsimp only
  rw [if_pos ⟨held, room.1, room.2⟩]

theorem Chip.heldLong_tells {t : Nat} (held : (c.ring p n).heldSince = some t) (untold : (c.ring p n).heldTold = false) :
    c.heldLong p n = ((c.advanceTo (t + 10000000)).setRing p n { c.ring p n with heldTold := true }).raise 10 0 [] := by
  unfold Chip.heldLong
  dsimp only
  rw [held]
  dsimp only
  rw [if_neg (by rw [untold]; decide)]

end

/-- Settles O21: a doorbell goes by the state and R94, a fetch by the space and by what was fetched before it. -/
theorem doorbellsLeadToFetches : Obligations.DoorbellsLeadToFetches := by
  refine ⟨fun p n v s awake => ?_, fun p n s => ?_⟩
  · rw [exec_doorbell awake]
    refine ⟨fun off => ?_, fun on good => ?_, fun stopped bad => ?_, fun run bad idle => ?_, fun run bad acted => ?_⟩
    · rw [Chip.doorbell_disabled off]
    · rw [Chip.doorbell_accepted on (Chip.doorbellOk_iff.mpr good)]
    · rw [Chip.doorbell_refused (by omega) (mt Chip.doorbellOk_iff.mp bad), if_pos stopped]
    · rw [Chip.doorbell_refused (by omega) (mt Chip.doorbellOk_iff.mp bad), if_neg (by omega), Chip.requestStop_eq, idle]
      rfl
    · rw [Chip.doorbell_refused (by omega) (mt Chip.doorbellOk_iff.mp bad), if_neg (by omega), Chip.requestStop_eq, acted]
      rfl
  · have hp := portNum_lt p
    refine ⟨fun d bad => exec_descriptorFetch_malformed p n s bad, fun d len ready some' space => ?_, fun d len ready layer full => ?_,
      fun ready empty other => ?_, fun held space => ?_, fun t held untold => ?_⟩
    · rw [exec_descriptorFetch_bytes p n s len, Chip.fetchDesc_takes (Chip.canFetch_iff.mpr ready) space,
        if_neg (by rwa [List.isEmpty_iff])]
      rfl
    · rw [exec_descriptorFetch_bytes p n s len, Chip.fetchDesc_waits (Chip.canFetch_iff.mpr ready) layer full]
    · rw [exec_descriptorFetch_failed, Chip.fetchDesc_takes (Chip.canFetch_iff.mpr ready) fun layer => absurd layer other,
        if_pos (by rw [empty]; rfl), Chip.settleHead_failed (l := []) ((Chip.takeDesc_ringState hp).trans ready.1)
        (by rw [Chip.takeDesc_fetched, empty]; rfl)]
      unfold Chip.takeDesc
      rw [empty]
      rfl
    · show State.go _ _ = _
      rw [Chip.spaceCome_of_space held space]
      rfl
    · show State.go _ _ = _
      rw [Chip.heldLong_tells held untold]
      rfl

end Sys2Proof.Machine
end

