-- ==== Sys2Proof/Proofs/KeptWork.lean ====
section
/-! PROOF. Proofs/KeptWork.lean: the reads of a compressed piece leave the engines and the heal window alone, and so does the
evaluation of a window; both leave the items queued for the STATE rings. -/

namespace Sys2Proof.Machine

/-- The engines with CHN.STATUS, the heal window and the items queued for the STATE rings are as they were. -/
structure Chip.keepsWork (c d : Chip) : Prop where
  engines : d.engines = c.engines
  stateItems : d.stateItems = c.stateItems
  healWin : d.healWin = c.healWin
  healPast : d.healPast = c.healPast
  regs : c.keepsAt d (· = Reg.CHN_STATUS_BUSY.off)

section
variable {c d e : Chip}

theorem Chip.keepsWork_refl (c : Chip) : c.keepsWork c := ⟨rfl, rfl, rfl, rfl, Chip.keepsAt_refl c _⟩

theorem Chip.keepsWork.trans (h : c.keepsWork d) (k : d.keepsWork e) : c.keepsWork e :=
  ⟨k.engines.trans h.engines, k.stateItems.trans h.stateItems, k.healWin.trans h.healWin, k.healPast.trans h.healPast,
    h.regs.trans k.regs⟩

theorem Chip.keepsWork.put (h : c.keepsWork d) (g : Field) (v : Nat) (n : g.off ≠ Reg.CHN_STATUS_BUSY.off := by decide)
    (l : g.lo < 32 := by exact of_decide_eq_true rfl) : c.keepsWork (d.put g v) :=
  ⟨h.engines, h.stateItems, h.healWin, h.healPast, h.regs.put g v n l⟩

theorem Chip.keepsWork.raise (h : c.keepsWork d) {src : Nat} (cause : Nat) (items : List (Nat × Nat)) (hs : src < 256 := by decide) :
    c.keepsWork (d.raise src cause items) := by
  have same := Chip.raise_rest d src cause items
  refine h.trans ⟨?_, ?_, ?_, ?_, (Chip.keepsAt_refl d _).raise hs cause items fun o at' => .inr (by rw [at']; decide)⟩ <;>
    rw [same]

theorem Chip.keepsWork.congr (h : c.keepsWork d) (engines : e.engines = d.engines := by rfl)
    (items : e.stateItems = d.stateItems := by rfl) (win : e.healWin = d.healWin := by rfl)
    (past : e.healPast = d.healPast := by rfl) (regs : e.regs = d.regs := by rfl) : c.keepsWork e :=
  h.trans ⟨engines, items, win, past, (Chip.keepsAt_refl d _).of_regs regs⟩

theorem Chip.keepsWork_foldl {α : Type} {g : Chip → α → Chip} (step : ∀ (d : Chip) x, d.keepsWork (g d x)) (l : List α) (c : Chip) :
    c.keepsWork (l.foldl g c) := by
  induction l generalizing c with
  | nil => exact Chip.keepsWork_refl c
  | cons a l ih => exact (step c a).trans (ih _)

/-! ### The moraine ledger -/

theorem Chip.keepsWork.record (h : c.keepsWork d) (type source layer band object detail : Nat) :
    c.keepsWork (d.record type source layer band object detail) := by
  refine h.trans ?_
  unfold Chip.record
  dsimp only
  have pending (l : List (List Byte)) (n m : Nat) : d.keepsWork
      (({ d with ledgerPend := l }.put Reg.CRN_MORAINE_SEQ_NEXT n).put Reg.CRN_MORAINE_STATUS_UNWRITTEN m) :=
    ((Chip.keepsWork_refl d).congr.put _ _).put _ _
  split
  · exact pending ..
  · exact ((pending ..).congr.put _ _).raise 3 []

/-! ### Sparing (R407 to R409) -/

theorem rankStatus_off (n : Nat) : 0xF0100 + 0x10 * n ≠ Reg.CHN_STATUS_BUSY.off := by
  show _ ≠ 0x50004
  omega

theorem Chip.keepsWork.setRank (h : c.keepsWork d) (ch r st : Nat) : c.keepsWork (d.setRank ch r st) :=
  h.put _ _ (rankStatus_off _)

theorem Chip.keepsWork.startMigration (h : c.keepsWork d) (w : SpareWant) : c.keepsWork (d.startMigration w) := by
  unfold Chip.startMigration
  extract_lets c1 l sp c2 c3 c4 c5 c6
  have told : c.keepsWork c1 := (h.record ..).raise ..
  have moved : c.keepsWork c2 := ((told.setRank ..).setRank ..).put _ _ (rankStatus_off _)
  have owed : c.keepsWork c3 := moved.put _ _ (rankStatus_off _)
  have paired : c.keepsWork c4 := owed.put _ _ (rankStatus_off _)
  have shown : c.keepsWork c5 := ((paired.put ..).put ..).put ..
  have begun : c.keepsWork c6 := shown.put ..
  clear_value c6
  exact begun.congr

theorem Chip.keepsWork.spare (h : c.keepsWork d) (w : SpareWant) : c.keepsWork (d.spare w) := by
  unfold Chip.spare
  extract_lets busy
  split
  · exact h
  · split
    · exact h.raise 1 []
    · split
      · split
        · exact h.congr
        · split
          · exact h
          · exact h.raise 1 []
      · exact h.startMigration w

theorem Chip.keepsWork.endMigration (h : c.keepsWork d) : c.keepsWork d.endMigration := by
  unfold Chip.endMigration
  extract_lets w c1 c2
  have closed : c.keepsWork c1 := h.put ..
  have ended : c.keepsWork c2 := closed.congr
  clear_value w c2
  cases w with
  | none => exact ended
  | some w => exact ended.spare w

theorem Chip.keepsWork.abandonCopy (h : c.keepsWork d) (w : SpareWant) : c.keepsWork (d.abandonCopy w) := by
  unfold Chip.abandonCopy
  extract_lets c1
  have back : c.keepsWork c1 := ((h.setRank ..).setRank ..).record ..
  exact (back.raise ..).endMigration

/-! ### Errors met by a read (R404) -/

theorem Chip.keepsWork.bucketUp (h : c.keepsWork d) (ch r : Nat) : c.keepsWork (d.bucketUp ch r) := by
  unfold Chip.bucketUp Chip.raiseIf
  extract_lets k since tell c1 c2 b c3 thr c4
  have counted : c.keepsWork c1 := h.congr
  have told : c.keepsWork c2 := by
    unfold c2
    split
    · exact counted.raise ..
    · exact counted
  have filled : c.keepsWork c3 := told.put _ _ (rankStatus_off _)
  split
  · have full : c.keepsWork c4 := filled.raise ..
    split
    · exact full.spare _
    · exact full
  · exact filled

theorem Chip.keepsWork.uncorrectable (h : c.keepsWork d) (addr reader : Nat) (k : DramKind) :
    c.keepsWork (d.uncorrectable addr reader k) := by
  unfold Chip.uncorrectable
  extract_lets dev c1 c2 c3 c4 c5 named
  have counted : c.keepsWork c1 := h.put ..
  have address : c.keepsWork c2 := ((counted.put ..).put ..).put ..
  have devices : c.keepsWork c3 := (address.put ..).put ..
  have held : c.keepsWork c4 := by
    unfold c4
    split
    · exact counted
    · exact (devices.put ..).put ..
  have told : c.keepsWork c5 := held.raise ..
  refine told.trans (Chip.keepsWork_foldl (fun e ch => ?_) _ _)
  have same := Chip.keepsWork_refl e
  split
  · exact same
  · split
    · split
      · exact same.abandonCopy _
      · exact same.spare _
    · exact same.spare _

/-- A read error whose poison spoils nothing that is registered leaves the work alone. -/
theorem Chip.keepsWork.dramError_region (h : c.keepsWork d) (kind : DramKind) (off : Nat) (reader : Fin 7) (k : Fin 5) :
    c.keepsWork (d.dramError ⟨kind, off, reader, .region k⟩) := by
  unfold Chip.dramError Chip.dramErrorAt
  split
  · refine Chip.keepsWork.trans (h.put ..) (Chip.keepsWork_foldl (fun e x => ?_) _ _)
    split
    · exact (Chip.keepsWork_refl e).bucketUp ..
    · exact Chip.keepsWork_refl e
  · exact h.uncorrectable ..

/-! ### The tandem log (R432, R433) -/

theorem Chip.keepsWork.tandemOut (h : c.keepsWork d) (type : Nat) (bytes : List Byte) : c.keepsWork (d.tandemOut type bytes) := by
  unfold Chip.tandemOut
  extract_lets bond sent
  split
  · exact h
  · exact h.congr

theorem Chip.keepsWork.setTdm (h : c.keepsWork d) (t : Tandem) : c.keepsWork (d.setTdm t) := h.congr

theorem Chip.keepsWork.sendFrame (h : c.keepsWork d) (type records : Nat) (body : List Byte) :
    c.keepsWork (d.sendFrame type records body) := by
  unfold Chip.sendFrame
  extract_lets q bytes c1 c2
  have out : c.keepsWork c1 := h.tandemOut type bytes
  clear_value c1
  have counted : c.keepsWork c2 := out.congr
  clear_value c2
  exact ((counted.setTdm _).put Reg.TDM_MIRROR_WAIT_ITEMS _).put Reg.TDM_MIRROR_WAIT_RECORDS _

theorem Chip.keepsWork.sendLog (h : c.keepsWork d) (type records : Nat) (body : List Byte) :
    c.keepsWork (d.sendLog type records body) := by
  unfold Chip.sendLog
  extract_lets c1
  have sent : c.keepsWork c1 := h.sendFrame ..
  exact sent.setTdm _

theorem Chip.keepsWork.logChange (h : c.keepsWork d) (kind source key value : Nat) (bands : List (Nat × Nat)) :
    c.keepsWork (d.logChange kind source key value bands) := by
  have logged : c.keepsWork (d.logValue kind source key value) := by
    unfold Chip.logValue
    split
    · exact Chip.keepsWork.sendLog (h.congr) ..
    · exact h
  unfold Chip.logChange Chip.logReady
  split
  · exact logged.sendLog ..
  · exact logged

/-! ### The nozzle table -/

theorem Chip.keepsWork.stateRecords (h : c.keepsWork d) (row old new source layer band : Nat) :
    c.keepsWork (d.stateRecords row old new source layer band) := by
  unfold Chip.stateRecords
  extract_lets hd n c1 sb c2
  split
  · have out : c.keepsWork c1 := h.record ..
    have replaced : c.keepsWork c2 := by
      unfold c2
      split
      · exact out.record ..
      · exact out
    exact replaced.raise ..
  · split
    · exact h.record ..
    · exact h

theorem Chip.keepsWork.forceNzt (h : c.keepsWork d) (row value source layer band : Nat) (f : Ver → Ver) :
    c.keepsWork (d.forceNzt row value source layer band f) := by
  unfold Chip.forceNzt Chip.clearRuns
  extract_lets v new
  refine Chip.keepsWork.stateRecords ?_ ..
  split
  · exact h.congr
  · exact h.congr

theorem Chip.keepsWork.showStage (h : c.keepsWork d) : c.keepsWork d.showStage :=
  (((h.put ..).put ..).put ..).put ..

theorem Chip.keepsWork.innerNzt (h : c.keepsWork d) (row st source : Nat) : c.keepsWork (d.innerNzt row st source) := by
  refine Chip.keepsWork.logChange ?_ ..
  unfold Chip.stageState
  extract_lets v hd arming
  split
  · exact h.forceNzt ..
  · split
    · exact h.congr
    · split
      · exact Chip.keepsWork.showStage h.congr
      · exact Chip.keepsWork.raise h.congr ..

/-! ### The evaluation of a window (R318) -/

theorem Chip.keepsWork.writeVerdict (h : c.keepsWork d) (v : Verdict) : c.keepsWork (d.writeVerdict v) := by
  unfold Chip.writeVerdict
  extract_lets x c1
  have scored : c.keepsWork c1 := by
    unfold c1
    split
    · exact h
    · exact h.congr
  exact scored.congr

theorem Chip.keepsWork_evaluate (c : Chip) (w : HealWindow) : c.keepsWork (c.evaluate w) := by
  unfold Chip.evaluate
  extract_lets heads verdicts frozen c1 c2 c3 live c4 cands fates issued deferred count c5 c6 c7 c8 listed flags report
  have drew : c.keepsWork c1 := (Chip.keepsWork_refl c).congr
  have told : c.keepsWork c2 := drew.trans (Chip.keepsWork_foldl (fun d _ => (Chip.keepsWork_refl d).raise ..) _ _)
  have shown : c.keepsWork c3 := (told.put ..).put ..
  have scored : c.keepsWork c4 := shown.trans (Chip.keepsWork_foldl (fun d v => (Chip.keepsWork_refl d).writeVerdict v) _ _)
  have changed : c.keepsWork c5 := scored.trans (Chip.keepsWork_foldl (fun d _ => (Chip.keepsWork_refl d).innerNzt ..) _ _)
  have counted : c.keepsWork c6 := (changed.showStage.put ..).put ..
  have recorded : c.keepsWork c7 := ((counted.put ..).put ..).put ..
  have late : c.keepsWork c8 := by
    unfold c8
    split
    · exact recorded
    · exact recorded.raise ..
  clear_value c8
  exact late.congr

end
end Sys2Proof.Machine
end

