-- ==== Sys2Proof/Proofs/ItemsAndWindows.lean ====
section
/-! PROOF. Proofs/ItemsAndWindows.lean: compressed pieces join their item (R137, R138), and heal windows end in an evaluation or
are skipped (R312, R314, R318, R327). -/

namespace Sys2Proof.Machine

/-! ### The engine of a piece -/

section
variable {c d : Chip} {e : Nat}

theorem Chip.engineJob_of_absent (absent : ∀ x ∈ c.engines, x.1 ≠ e) : c.engineJob e = none := by
  have free : c.engines.find? (fun x => decide (x.1 = e)) = none :=
    List.find?_eq_none.mpr fun x m at' => absent x m (of_decide_eq_true at')
  unfold Chip.engineJob
  rw [free]
  exact ite_self _

theorem Chip.endingJob_eq : c.endingJob e = if c.bitOf Reg.CHN_STATUS_HELD e then none else c.engineJob e := rfl

/-- What leaves the engines and CHN.STATUS alone leaves the job an engine can end. -/
theorem Chip.keepsWork.endingJob (h : c.keepsWork d) (e : Nat) : d.endingJob e = c.endingJob e := by
  have busy : d.get Reg.CHN_STATUS_BUSY = c.get Reg.CHN_STATUS_BUSY := h.regs _ (by decide) rfl
  have held : d.get Reg.CHN_STATUS_HELD = c.get Reg.CHN_STATUS_HELD := h.regs _ (by decide) rfl
  unfold Chip.endingJob Chip.engineJob Chip.bitOf
  rw [busy, held, h.engines]

/-- An engine that has ended its job: it runs none, and nothing is put out and no item moves. -/
structure Chip.engineEnds (c d : Chip) (e : Nat) : Prop where
  absent : ∀ x ∈ d.engines, x.1 ≠ e
  out : d.out = c.out
  outItems : d.outItems = c.outItems
  inspItems : d.inspItems = c.inspItems
  noGain : d.get Reg.CHN_NO_GAIN_COUNT = c.get Reg.CHN_NO_GAIN_COUNT

theorem Chip.engineIdle_ends (c : Chip) (e : Nat) : c.engineEnds (c.engineIdle e) e := by
  refine ⟨fun x m => ?_, rfl, rfl, rfl, ?_⟩
  · obtain ⟨y, erased, shown⟩ := List.mem_map.mp (show x ∈ (SMap.erase e c.engines).map fun (x : Nat × Engine) =>
      if x.1 = e then (x.1, { x.2 with held := none }) else x from m)
    have other := (SMap.ne_of_mem_erase erased).1
    rw [if_neg other] at shown
    exact shown ▸ other
  · have far : ¬0x50100 + 0x10 * e = Reg.CHN_NO_GAIN_COUNT.off := by
      show ¬_ = 0x50018
      omega
    have idle : c.keepsAt (c.engineIdle e) (· = Reg.CHN_NO_GAIN_COUNT.off) := by
      unfold Chip.engineIdle Chip.runTo
      extract_lets c1 c2
      have out : c.keepsAt c2 (· = Reg.CHN_NO_GAIN_COUNT.off) :=
        ((Chip.keepsAt_refl c _).put Reg.CHN_STATUS_BUSY _ (by decide)).of_regs rfl
      exact ((((out.put Reg.CHN_STATUS_HELD _ (by decide)).put (Reg.CHN_ENG_STATE_HELD_OUT e) 0 far).put
        (Reg.CHN_ENG_STATE_HELD_IN e) 0 far).put (Reg.CHN_ENG_STATE_KIND e) 0 far).put (Reg.CHN_ENG_STATE_HEAD e) 0 far
    exact idle _ (by decide) rfl

/-! ### A piece (R137, R138) -/

/-- The compressed items replaced. -/
def Chip.withItems (c : Chip) (l : List OutItem) : Chip := { c with outItems := l }

/-- The engine of a piece idle again, and a piece that is stored counted. -/
def Chip.pieceOut (c : Chip) (e : Nat) (stored : Bool) : Chip :=
  if stored then (c.engineIdle e).bump Reg.CHN_NO_GAIN_COUNT 1 else c.engineIdle e

theorem Chip.pieceOut_ends (c : Chip) (e : Nat) (stored : Bool) :
    (c.pieceOut e stored).engineJob e = none ∧ (c.pieceOut e stored).out = c.out ∧ (c.pieceOut e stored).outItems = c.outItems ∧
    (c.pieceOut e stored).inspItems = c.inspItems ∧
    (c.pieceOut e stored).get Reg.CHN_NO_GAIN_COUNT =
      if stored then min (c.get Reg.CHN_NO_GAIN_COUNT + 1) (2 ^ Reg.CHN_NO_GAIN_COUNT.width - 1) else c.get Reg.CHN_NO_GAIN_COUNT := by
  obtain ⟨absent, out, outItems, inspItems, noGain⟩ := c.engineIdle_ends e
  unfold Chip.pieceOut
  cases stored with
  | false => exact ⟨Chip.engineJob_of_absent absent, out, outItems, inspItems, noGain⟩
  | true => exact ⟨Chip.engineJob_of_absent absent, out, outItems, inspItems, by rw [if_pos rfl, Chip.get_bump_self, noGain]; rfl⟩

theorem Chip.pieceDone_none (h : c.endingJob e = none) : c.pieceDone e = (c, none) := by
  unfold Chip.pieceDone
  rw [h]

theorem Chip.pieceDone_decoding {x : Engine} (h : c.endingJob e = some x) (decodes : x.job.kind = 1) :
    c.pieceDone e = (c, none) := by
  unfold Chip.pieceDone
  rw [h]
  exact if_pos decodes

section
variable {x : Engine} {o : OutItem} (h : c.endingJob e = some x) (compresses : x.job.kind ≠ 1)
  (item : c.outItems.find? (fun (q : OutItem) => decide (q.number = x.job.item)) = some o)
include h compresses item

/-- A piece's block joins its item, which is complete with its last piece. -/
theorem Chip.pieceDone_joins :
    let r := pieceBlock (if o.firn then 2 else 1) x.job.item x.job.slab x.job.payload
    let joined := o.addPiece x.job.slab r.1 r.2
    c.pieceDone e =
      if joined.blocks.length = joined.pieces then
        ((c.pieceOut e r.2).withItems (c.outItems.filter fun (q : OutItem) => decide (q.number ≠ x.job.item)), some joined)
      else ((c.pieceOut e r.2).withItems (c.outItems.map fun (q : OutItem) => if q.number = x.job.item then joined else q), none) := by
  intro r joined
  rw [← (c.pieceOut_ends e r.2).2.2.1]
  unfold Chip.pieceDone
  rw [h]
  dsimp only
  rw [if_neg compresses, (c.engineIdle_ends e).outItems, item]
  rfl

end
end

/-- The errors met by the reads of a piece. -/
def Chip.pieceReads (c : Chip) (x : Engine) (reads : List RawRead) : Chip :=
  reads.foldl (fun (c : Chip) (r : RawRead) => c.dramError ⟨r.kind, r.off, 1, .region (if x.job.kind = 3 then 4 else 0)⟩) c

theorem Chip.keepsWork_pieceReads (c : Chip) (x : Engine) (reads : List RawRead) : c.keepsWork (c.pieceReads x reads) :=
  Chip.keepsWork_foldl (fun d _ => (Chip.keepsWork_refl d).dramError_region ..) _ _

/-- What becomes of a piece that has ended. -/
def pieceFate (r : Chip × Option OutItem) : Chip :=
  match r.2 with
  | none => r.1
  | some o => if o.firn then r.1.firnDone o else r.1.inspDone o

theorem pieceFate_host {o : OutItem} {c : Chip} (h : o.firn = false) :
    pieceFate (c, some o) = c.inspDone o := by
  unfold pieceFate
  dsimp only
  rw [h]
  rfl

section
variable {s : State} {e : Fin 8} {reads : List RawRead}

theorem exec_pieceCompressed_none (h : s.toChip.endingJob e.val = none) : exec (.pieceCompressed ⟨e, reads⟩) s = .next s := by
  show execPieceCompressed _ s = _
  unfold execPieceCompressed
  dsimp only
  rw [h]
  dsimp only
  rw [Chip.pieceDone_none h]
  rfl

theorem exec_pieceCompressed_decoding {x : Engine} (h : s.toChip.endingJob e.val = some x) (decodes : x.job.kind = 1) :
    exec (.pieceCompressed ⟨e, reads⟩) s = .next s := by
  show execPieceCompressed _ s = _
  unfold execPieceCompressed
  dsimp only
  rw [h]
  dsimp only
  rw [if_pos decodes, Chip.pieceDone_decoding h decodes]
  rfl

theorem exec_pieceCompressed {x : Engine} (h : s.toChip.endingJob e.val = some x) (compresses : x.job.kind ≠ 1) :
    exec (.pieceCompressed ⟨e, reads⟩) s = .next (s.withChip (pieceFate ((s.toChip.pieceReads x reads).pieceDone e.val))) := by
  show execPieceCompressed _ s = _
  unfold execPieceCompressed
  dsimp only
  rw [h]
  dsimp only
  rw [if_neg compresses]
  rfl

end

/-! ### A heal report queued (R327) -/

/-- Events raised and the hold of R111 set or cleared: the heal block reads as before, and no source's bit is cleared. -/
structure Chip.told (c d : Chip) : Prop where
  rest : c.sameBut5 d
  heal : c.keepsAt d (0xB0000 ≤ ·)
  raised : ∀ i, i < 32 → c.bitOf (Reg.EVT_STATUS_RAISED 1) i = true → d.bitOf (Reg.EVT_STATUS_RAISED 1) i = true

section
variable {c d e : Chip}

theorem Chip.told_refl (c : Chip) : c.told c := ⟨Chip.sameBut5_refl c, Chip.keepsAt_refl c _, fun _ _ r => r⟩

theorem Chip.told.raise (h : c.told d) {src : Nat} (cause : Nat) (items : List (Nat × Nat)) (hs : src < 256 := by decide) :
    c.told (d.raise src cause items) := by
  refine ⟨Chip.sameBut5_trans h.rest (Chip.raise_rest ..), h.heal.raise hs cause items fun o high => .inr (by omega), fun i hi r => ?_⟩
  rw [Chip.bitOf_raised_raise d cause items hs (by decide) hi, h.raised i hi r, Bool.true_or]

/-- A field of the ring block set. -/
theorem Chip.told.put (h : c.told d) (f : Field) (v : Nat) (low : f.off < 0x20000 := by decide) (l : f.lo < 32 := by decide) :
    c.told (d.put f v) := by
  refine ⟨Chip.sameBut5_trans h.rest (Chip.sameBut5_put ..), h.heal.put f v (by omega) l, fun i hi r => ?_⟩
  rw [← h.raised i hi r]
  unfold Chip.bitOf
  rw [Chip.get_put_off _ _ _ _ l (by decide) (Nat.ne_of_gt (Nat.lt_trans low (by decide)))]

theorem Chip.told_stateHold (c : Chip) : c.told c.stateHold := by
  have same := Chip.told_refl c
  unfold Chip.stateHold
  extract_lets used
  split
  · split
    · exact (same.put ..).put ..
    · exact same
  · split
    · exact ((same.put ..).put ..).raise ..
    · exact same

end

/-- The item of a heal report. -/
def Chip.healItem (c : Chip) (body : List Byte) : StateItem :=
  { port := c.get Reg.HEL_CFG_REPORT_PORT, ring := c.get Reg.HEL_CFG_REPORT_RING, kind := 0x11, body := body,
    onChip := !c.flag Reg.CFG_STATUS_COMMITTED }

/-- A heal report waits for its STATE ring. -/
def Chip.withReport (c : Chip) (body : List Byte) : Chip := { c with stateItems := c.stateItems ++ [c.healItem body] }

theorem Chip.told_healQueue (c : Chip) (body : List Byte) : (c.withReport body).told (c.healQueue body) :=
  Chip.told_stateHold _

/-! ### The end of an evaluation (R318, R327) -/

/-- The evaluation counted, its layer shown, and heal in the state of the window open now. -/
def Chip.evalCounted (c : Chip) (v : HealEval) : Chip :=
  let c := { c with healEval := none, healEvaluated := some v.layer }
  let c := if c.get Reg.HEL_STATUS_STATE = 2 then c.put Reg.HEL_STATUS_STATE (b2n c.healWin.isSome) else c
  (c.bump Reg.HEL_EVALS_COUNT 1).put Reg.HEL_LAST_LAYER_LAYER v.layer

/-- The evaluation counted and EV054 raised. -/
def Chip.evalTold (c : Chip) (v : HealEval) : Chip :=
  (c.evalCounted v).raise 54 0 [(4, v.layer), (4, v.weakened), (4, v.retired), (4, v.returned), (4, v.deferred)]

section
variable {c : Chip} {v : HealEval} {w : HealWindow}

theorem Chip.endEvaluation_none (h : c.healEval = none) : c.endEvaluation = c := by
  unfold Chip.endEvaluation
  rw [h]

theorem Chip.endEvaluation_told (h : c.healEval = some v) : ((c.evalTold v).withReport v.report).told c.endEvaluation := by
  have queued := (c.evalTold v).told_healQueue v.report
  unfold Chip.endEvaluation
  rw [h]
  change Chip.told _ (if 4096 < v.entries then ((c.evalTold v).healQueue v.report).raise 62 0 [] else
    (c.evalTold v).healQueue v.report)
  split
  · exact queued.raise ..
  · exact queued

theorem Chip.evalCounted_shows (c : Chip) (v : HealEval) :
    (c.evalCounted v).get Reg.HEL_EVALS_COUNT = min (c.get Reg.HEL_EVALS_COUNT + 1) (2 ^ Reg.HEL_EVALS_COUNT.width - 1) ∧
    (c.evalCounted v).get Reg.HEL_LAST_LAYER_LAYER = v.layer % 2 ^ 32 ∧
    (c.get Reg.HEL_STATUS_STATE = 2 → (c.evalCounted v).get Reg.HEL_STATUS_STATE = b2n c.healWin.isSome) := by
  unfold Chip.evalCounted
  extract_lets c1 c2
  have evals : c2.get Reg.HEL_EVALS_COUNT = c.get Reg.HEL_EVALS_COUNT := by
    unfold c2
    split
    · exact Chip.get_put_ne _ _ _ _ (by decide)
    · rfl
  have state (r : c.get Reg.HEL_STATUS_STATE = 2) : c2.get Reg.HEL_STATUS_STATE = b2n c.healWin.isSome := by
    have bit : b2n c.healWin.isSome % 2 ^ 2 = b2n c.healWin.isSome := by cases c.healWin <;> rfl
    unfold c2
    rw [if_pos (show c1.get Reg.HEL_STATUS_STATE = 2 from r), Chip.get_put_self]
    exact bit
  simp (disch := decide) only [Chip.get_put_ne, Chip.get_bump_ne, Chip.get_put_self, Chip.get_bump_self]
  exact ⟨by rw [evals], rfl, state⟩

theorem Chip.evalCounted_rest (c : Chip) (v : HealEval) : (c.evalCounted v).healEval = none ∧
    (c.evalCounted v).healWin = c.healWin ∧ (c.evalCounted v).stateItems = c.stateItems := by
  unfold Chip.evalCounted
  extract_lets c1 c2
  have same : c1.sameBut5 c2 := by
    unfold c2
    split <;> rfl
  change c2.healEval = none ∧ c2.healWin = c.healWin ∧ c2.stateItems = c.stateItems
  rw [same]
  exact ⟨rfl, rfl, rfl⟩

/-- The end of an evaluation (R318, R327). -/
theorem Chip.endEvaluation_shows (h : c.healEval = some v) :
    c.endEvaluation.healEval = none ∧ c.endEvaluation.healWin = c.healWin ∧
    c.endEvaluation.get Reg.HEL_EVALS_COUNT = min (c.get Reg.HEL_EVALS_COUNT + 1) (2 ^ Reg.HEL_EVALS_COUNT.width - 1) ∧
    c.endEvaluation.get Reg.HEL_LAST_LAYER_LAYER = v.layer % 2 ^ 32 ∧
    c.endEvaluation.bitOf (Reg.EVT_STATUS_RAISED 1) 22 = true ∧
    (c.get Reg.HEL_STATUS_STATE = 2 → c.endEvaluation.get Reg.HEL_STATUS_STATE = b2n c.healWin.isSome) ∧
    c.endEvaluation.stateItems = c.stateItems ++ [(c.evalTold v).healItem v.report] := by
  obtain ⟨rest, heal, raised⟩ := Chip.endEvaluation_told h
  obtain ⟨evals, layer, state⟩ := c.evalCounted_shows v
  obtain ⟨noEval, win, items⟩ := c.evalCounted_rest v
  have event : (c.evalCounted v).sameBut5 (c.evalTold v) := Chip.raise_rest ..
  have reads (f : Field) (l : f.lo < 32) (high : 0xB0000 ≤ f.off) : c.endEvaluation.get f = (c.evalCounted v).get f :=
    (heal f l high).trans (Chip.raise_regs _ 54 _ _ (by decide) f l (.inr (by omega)))
  rw [reads _ (by decide) (by decide), reads _ (by decide) (by decide), reads _ (by decide) (by decide)]
  refine ⟨?_, ?_, evals, layer, raised 22 (by decide) ?_, state, ?_⟩
  · rw [rest]
    change (c.evalTold v).healEval = none
    rw [event]
    exact noEval
  · rw [rest]
    change (c.evalTold v).healWin = _
    rw [event]
    exact win
  · change (c.evalTold v).bitOf _ 22 = true
    unfold Chip.evalTold
    rw [Chip.bitOf_raised_raise _ _ _ (by decide) (by decide) (by decide), Bool.or_eq_true]
    exact .inr rfl
  · rw [rest]
    change (c.evalTold v).stateItems ++ _ = _
    have told : (c.evalTold v).stateItems = c.stateItems := by
      rw [event]
      exact items
    rw [told]

/-! ### The end of a window (R312, R314) -/

/-- The open window closed, at T_end of R312. -/
def Chip.windowShut (c : Chip) (w : HealWindow) : Chip :=
  { c with healWin := none, healPast := (w.tDone, c.windowEnd w, w.unusedTold) :: c.healPast }

/-- A window whose layer is skipped, shown and told (R314). -/
def Chip.skipTold (c : Chip) (w : HealWindow) (k : Nat) : Chip :=
  ((c.put Reg.HEL_STATUS_STATE 0).put Reg.HEL_LAST_LAYER_LAYER w.layer).raise 57 k [(4, w.layer)]

/-- The layer of a window that is shut evaluated, or skipped for a cause (R314). -/
def Chip.windowFate (c : Chip) (w : HealWindow) : Nat → Chip
  | 0 => (c.evaluate w).put Reg.HEL_STATUS_STATE 2
  | k => (c.skipTold w k).healQueue
      (healHeader (1 + (c.skipTold w k).reportMode) k w.layer ((c.skipTold w k).windowEnd w) w.records 0 0 0 0 0 0 0)

theorem Chip.closeWindow_none (h : c.healWin = none) : c.closeWindow = c := by
  unfold Chip.closeWindow
  rw [h]

theorem Chip.closeWindow_some (h : c.healWin = some w) (free : c.healEval = none) :
    c.closeWindow = (c.windowShut w).windowFate w (w.skipCause (decide (c.get Reg.HEL_CTRL_MODE = 0))) := by
  have shut : (c.windowShut w).endEvaluation = c.windowShut w := Chip.endEvaluation_none free
  unfold Chip.closeWindow
  rw [h]
  change (c.windowShut w).endEvaluation.windowFate w
    (w.skipCause (decide ((c.windowShut w).endEvaluation.get Reg.HEL_CTRL_MODE = 0))) = _
  rw [shut]
  rfl

theorem Chip.skipTold_rest (c : Chip) (w : HealWindow) (k : Nat) : c.sameBut5 (c.skipTold w k) :=
  Chip.sameBut5_trans (Chip.sameBut5_trans (Chip.sameBut5_put ..) (Chip.sameBut5_put ..)) (Chip.raise_rest ..)

/-- A layer that is skipped (R314). -/
theorem Chip.windowFate_skips (c : Chip) (w : HealWindow) {k : Nat} (skip : k ≠ 0) :
    (c.windowFate w k).get Reg.HEL_STATUS_STATE = 0 ∧ (c.windowFate w k).get Reg.HEL_LAST_LAYER_LAYER = w.layer % 2 ^ 32 ∧
    (c.windowFate w k).healEval = c.healEval ∧ (c.windowFate w k).bitOf (Reg.EVT_STATUS_RAISED 1) 25 = true ∧
    (c.windowFate w k).nzt = c.nzt ∧ (c.windowFate w k).runCounts = c.runCounts ∧
    ∃ it, (c.windowFate w k).stateItems = c.stateItems ++ [it] ∧ it.kind = 0x11 := by
  obtain ⟨j, rfl⟩ := Nat.exists_eq_succ_of_ne_zero skip
  obtain ⟨body, queued⟩ : ∃ body, c.windowFate w (j + 1) = (c.skipTold w (j + 1)).healQueue body := ⟨_, rfl⟩
  obtain ⟨rest, heal, raised⟩ := (c.skipTold w (j + 1)).told_healQueue body
  have event : c.sameBut5 (c.skipTold w (j + 1)) := c.skipTold_rest w _
  have reads (f : Field) (l : f.lo < 32) (high : 0xB0000 ≤ f.off) : ((c.skipTold w (j + 1)).healQueue body).get f =
      ((c.put Reg.HEL_STATUS_STATE 0).put Reg.HEL_LAST_LAYER_LAYER w.layer).get f :=
    (heal f l high).trans (Chip.raise_regs _ 57 _ _ (by decide) f l (.inr (by omega)))
  have bit : (c.skipTold w (j + 1)).bitOf (Reg.EVT_STATUS_RAISED 1) 25 = true := by
    unfold Chip.skipTold
    rw [Chip.bitOf_raised_raise _ _ _ (by decide) (by decide) (by decide), Bool.or_eq_true]
    exact .inr rfl
  rw [queued, reads _ (by decide) (by decide), reads _ (by decide) (by decide)]
  simp (disch := decide) only [Chip.get_put_ne, Chip.get_put_self]
  refine ⟨rfl, rfl, ?_, raised 25 (by decide) bit, ?_, ?_, (c.skipTold w (j + 1)).healItem body, ?_, rfl⟩ <;>
    rw [rest, Chip.withReport, event]

/-- A layer that is evaluated (R318). -/
theorem Chip.windowFate_evaluates (c : Chip) (w : HealWindow) :
    (c.windowFate w 0).get Reg.HEL_STATUS_STATE = 2 ∧ (c.windowFate w 0).stateItems = c.stateItems ∧
    ∃ v, (c.windowFate w 0).healEval = some v ∧ v.layer = w.layer ∧ v.accSet = w.accSet := by
  have work := (c.keepsWork_evaluate w).put Reg.HEL_STATUS_STATE 2
  exact ⟨Chip.get_put_self .., work.stateItems, _, rfl, rfl, rfl⟩

/-- The window that is shut stays so. -/
theorem Chip.windowFate_shut (c : Chip) (w : HealWindow) (k : Nat) :
    (c.windowFate w k).healWin = c.healWin ∧ (c.windowFate w k).healPast = c.healPast := by
  cases k with
  | zero =>
    have work := (c.keepsWork_evaluate w).put Reg.HEL_STATUS_STATE 2
    exact ⟨work.healWin, work.healPast⟩
  | succ j =>
    have rest : ((c.skipTold w (j + 1)).withReport _).sameBut5 (c.windowFate w (j + 1)) := (Chip.told_healQueue ..).rest
    have event : c.sameBut5 (c.skipTold w (j + 1)) := c.skipTold_rest w _
    rw [rest, Chip.withReport, event]
    exact ⟨rfl, rfl⟩

theorem Chip.windowShut_past (c : Chip) (w : HealWindow) : (c.windowShut w).healPast =
    (w.tDone, (if 0 < wrapDiff w.tMax c.now then c.now else w.tMax), w.unusedTold) :: c.healPast := by
  have last : c.windowEnd w = if 0 < wrapDiff w.tMax c.now then c.now else w.tMax := by
    unfold Chip.windowEnd later
    simp only [decide_eq_true_eq]
  rw [← last]
  rfl

end

section
variable {s : State} {w : HealWindow}

theorem exec_windowTimeout_none (h : s.toChip.healWin = none) : exec .windowTimeout s = .next s := by
  show execWindowTimeout s = _
  unfold execWindowTimeout
  rw [h]
  rfl

theorem exec_windowTimeout_some (h : s.toChip.healWin = some w) :
    exec .windowTimeout s = .next (s.withChip ((s.toChip.advanceToEt w.tMax).closeWindow)) := by
  show execWindowTimeout s = _
  unfold execWindowTimeout
  rw [h]
  rfl

end

/-- Settles O45: a piece by what its engine ran and whether it is its item's last; a window by the cause it is skipped for. -/
theorem itemsAndWindowsEnd : Obligations.ItemsAndWindowsEnd := by
  refine ⟨fun e s => ⟨fun idle reads => ?_, fun x runs ends reads => ?_, fun x o reads runs compresses out => ?_⟩,
    fun s => ⟨fun none' => ?_, fun w open' => ?_, fun none' => ?_, fun v begun => ?_⟩, fun p v s awake => ?_,
    fun c => ⟨Chip.closeWindow_none, fun w open' free => ?_⟩, fun _ _ => rfl⟩
  · exact exec_pieceCompressed_none (by rw [Chip.endingJob_eq, idle, ite_self])
  · cases held : s.toChip.bitOf Reg.CHN_STATUS_HELD e.val with
    | true => exact exec_pieceCompressed_none (by rw [Chip.endingJob_eq, if_pos held])
    | false =>
      have ending : s.toChip.endingJob e.val = some x := by rw [Chip.endingJob_eq, held, ← runs]; rfl
      exact exec_pieceCompressed_decoding ending (ends.resolve_right (by rw [held]; decide))
  · have ending : s.toChip.endingJob e.val = some x := by rw [Chip.endingJob_eq, out, ← runs]; rfl
    intro c item r joined
    have after : c.endingJob e.val = some x := ((s.toChip.keepsWork_pieceReads x reads).endingJob e.val).trans ending
    have joins := Chip.pieceDone_joins after compresses item
    obtain ⟨idle, quiet, -, insp, gain⟩ := c.pieceOut_ends e.val r.2
    rw [exec_pieceCompressed ending compresses]
    refine ⟨fun more => ?_, fun last host => ?_⟩
    · rw [show (s.toChip.pieceReads x reads).pieceDone e.val = _ from joins.trans (if_neg more)]
      exact ⟨_, rfl, idle, rfl, quiet, gain⟩
    · rw [show (s.toChip.pieceReads x reads).pieceDone e.val = _ from joins.trans (if_pos last),
        pieceFate_host (o := o.addPiece ..) host]
      exact ⟨_, rfl, idle, rfl, insp⟩
  · exact exec_windowTimeout_none none'
  · exact exec_windowTimeout_some open'
  · show State.go _ _ = _
    rw [Chip.endEvaluation_none none']
    rfl
  · obtain ⟨noEval, win, evals, layer, bit, state, items⟩ := Chip.endEvaluation_shows begun
    exact ⟨_, rfl, noEval, win, evals, layer, bit, state, _, items, rfl, rfl⟩
  · exact State.access_of_awake awake fun c => c.helCtrl v.toNat
  · rw [Chip.closeWindow_some open' free]
    refine ⟨?_, ?_, fun skip => ?_, fun evaluates => ?_⟩
    · exact (Chip.windowFate_shut ..).1
    · exact (Chip.windowFate_shut ..).2.trans (c.windowShut_past w)
    · obtain ⟨state, layer, eval, bit, nzt, runs, items⟩ := (c.windowShut w).windowFate_skips w skip
      exact ⟨state, layer, eval.trans free, bit, nzt, runs, items⟩
    · rw [evaluates]
      exact (c.windowShut w).windowFate_evaluates w

end Sys2Proof.Machine
end

