-- ==== Sys2Proof/Proofs/ReadErrors.lean ====
section
/-! PROOF. Proofs/ReadErrors.lean: all that a DRAM read error changes, where its poison spoils nothing registered (R403, R404): the
registers of the DRAM controller and the ledger, what is kept of migrations and buckets, and what events change. -/

namespace Sys2Proof.Machine

/-- The offsets that neither an event, nor the ledger's record, nor the DRAM controller writes. -/
def readApart (o : Nat) : Prop :=
  (o < 0x20000 ∨ 0x22000 ≤ o) ∧ o ≠ Reg.CRN_MORAINE_STATUS_FULL.off ∧ o ≠ Reg.CRN_MORAINE_SEQ_NEXT.off ∧ o < 0xF0000

/-- The registers outside `readApart`, the ledger's waiting records, the migrations, the buckets and the records of events may
change, and nothing is put out but MSI-X messages. Every other part of the controller is as it was, of which `Chip.keepsWork` names
the engines, the heal window and the items for the STATE rings. -/
structure Chip.readOnly (c d : Chip) : Prop where
  rest : d = { c with regs := d.regs, out := d.out, evPend := d.evPend, rings := d.rings, msix := d.msix, heldVectors := d.heldVectors,
                      ledgerPend := d.ledgerPend, ledgerFull := d.ledgerFull, migration := d.migration, wanted := d.wanted,
                      ceSince := d.ceSince, ceTellFrom := d.ceTellFrom }
  regs : c.keepsAt d readApart
  signals : c.signals d

section
variable {c d e : Chip}

theorem Chip.readOnly_refl (c : Chip) : c.readOnly c := ⟨rfl, Chip.keepsAt_refl c _, Chip.signals_of_out rfl⟩

theorem Chip.readOnly.trans (h : c.readOnly d) (k : d.readOnly e) : c.readOnly e := by
  refine ⟨?_, h.regs.trans k.regs, h.signals.trans k.signals⟩
  have step := k.rest
  rw [h.rest] at step
  exact step

theorem Chip.readOnly.put (h : c.readOnly d) (g : Field) (v : Nat) (n : ¬readApart g.off := by unfold readApart; decide)
    (l : g.lo < 32 := by exact of_decide_eq_true rfl) : c.readOnly (d.put g v) :=
  h.trans ⟨rfl, (Chip.keepsAt_refl d _).put g v n l, Chip.signals_of_out rfl⟩

theorem Chip.readOnly.raise (h : c.readOnly d) {src : Nat} (cause : Nat) (items : List (Nat × Nat)) (hs : src < 256 := by decide) :
    c.readOnly (d.raise src cause items) := by
  refine h.trans ⟨?_, (Chip.keepsAt_refl d _).raise hs cause items fun _ apart => apart.1, Chip.signals_raise ..⟩
  rw [Chip.raise_rest d src cause items]

/-- What is kept of the ledger, of migrations and of buckets replaced. -/
theorem Chip.readOnly.book (h : c.readOnly d)
    (same : e = { d with ledgerPend := e.ledgerPend, ledgerFull := e.ledgerFull, migration := e.migration, wanted := e.wanted,
                         ceSince := e.ceSince, ceTellFrom := e.ceTellFrom } := by rfl) : c.readOnly e := by
  refine h.trans ⟨?_, (Chip.keepsAt_refl d _).of_regs ?_, Chip.signals_of_out ?_⟩ <;> rw [same]

theorem Chip.readOnly_foldl {α : Type} {g : Chip → α → Chip} (step : ∀ (d : Chip) x, d.readOnly (g d x)) (l : List α) (c : Chip) :
    c.readOnly (l.foldl g c) := by
  induction l generalizing c with
  | nil => exact Chip.readOnly_refl c
  | cons a l ih => exact (step c a).trans (ih _)

/-! ### Sparing (R407 to R409) -/

theorem rankStatus_notApart (n : Nat) : ¬readApart (0xF0100 + 0x10 * n) := fun apart => by
  have := apart.2.2.2
  omega

theorem Chip.readOnly_setRank (c : Chip) (ch r st : Nat) : c.readOnly (c.setRank ch r st) :=
  (Chip.readOnly_refl c).put _ _ (rankStatus_notApart _)

theorem Chip.readOnly_record (c : Chip) (type source layer band object detail : Nat) :
    c.readOnly (c.record type source layer band object detail) := by
  have entered (l : List (List Byte)) (n m : Nat) : c.readOnly
      (({ c with ledgerPend := l }.put Reg.CRN_MORAINE_SEQ_NEXT n).put Reg.CRN_MORAINE_STATUS_UNWRITTEN m) :=
    (((Chip.readOnly_refl c).book).put _ _).put _ _
  unfold Chip.record
  dsimp only
  split
  · exact entered ..
  · exact ((entered ..).book.put _ _).raise ..

theorem Chip.readOnly_startMigration (c : Chip) (w : SpareWant) : c.readOnly (c.startMigration w) := by
  have told := (c.readOnly_record 5 3 c.armedNum 0xFFFFFFFF (256 * w.channel + w.rank)
    (c.get Reg.DRC_CFG_SPARE_RANK + 16 * w.cause + 0)).raise (src := 198) w.cause [(1, w.channel), (1, w.rank)]
  unfold Chip.startMigration
  extract_lets c1 l sp c2 c3 c4 c5 c6
  have paired : c.readOnly c4 := ((((told.trans (Chip.readOnly_setRank ..)).trans (Chip.readOnly_setRank ..)).put _ _
    (rankStatus_notApart _)).put _ _ (rankStatus_notApart _)).put _ _ (rankStatus_notApart _)
  have shown : c.readOnly c5 := ((paired.put ..).put ..).put ..
  have begun : c.readOnly c6 := shown.put ..
  clear_value c6
  exact begun.book

theorem Chip.readOnly_spare (c : Chip) (w : SpareWant) : c.readOnly (c.spare w) := by
  have same := Chip.readOnly_refl c
  unfold Chip.spare
  extract_lets busy
  split_ifs
  · exact same
  · exact same.raise ..
  · split
    · exact same.book
    · split_ifs
      · exact same
      · exact same.raise ..
  · exact c.readOnly_startMigration w

theorem Chip.readOnly_endMigration (c : Chip) : c.readOnly c.endMigration := by
  have ended : c.readOnly { c.put Reg.DRC_STATUS_MIGRATING 0 with migration := none, wanted := none } :=
    ((Chip.readOnly_refl c).put Reg.DRC_STATUS_MIGRATING 0).book
  unfold Chip.endMigration
  dsimp only
  split
  · exact ended.trans (Chip.readOnly_spare ..)
  · exact ended

theorem Chip.readOnly_abandonCopy (c : Chip) (w : SpareWant) : c.readOnly (c.abandonCopy w) :=
  ((((c.readOnly_setRank ..).trans (Chip.readOnly_setRank ..)).trans (Chip.readOnly_record ..)).raise ..).trans
    (Chip.readOnly_endMigration _)

/-! ### The error (R404) -/

theorem Chip.readOnly_bucketUp (c : Chip) (ch r : Nat) : c.readOnly (c.bucketUp ch r) := by
  unfold Chip.bucketUp Chip.raiseIf
  extract_lets k since tell c1 c2 b c3 thr c4
  have counted : c.readOnly c1 := (Chip.readOnly_refl c).book
  have told : c.readOnly c2 := by
    unfold c2
    split
    · exact counted.raise ..
    · exact counted
  have filled : c.readOnly c3 := told.put _ _ (rankStatus_notApart _)
  split_ifs
  · exact (filled.raise ..).trans (Chip.readOnly_spare ..)
  · exact filled.raise ..
  · exact filled

theorem Chip.readOnly_uncorrectable (c : Chip) (addr reader : Nat) (k : DramKind) : c.readOnly (c.uncorrectable addr reader k) := by
  unfold Chip.uncorrectable
  extract_lets dev c1 c2 c3 c4 c5 named
  have counted : c.readOnly c1 := (Chip.readOnly_refl c).put ..
  have held : c.readOnly c4 := by
    unfold c4
    split
    · exact counted
    · exact (((((((counted.put Reg.DRC_ERR_ADDR_LO_ADDR _).put Reg.DRC_ERR_ADDR_HI_ADDR _).put ..).put ..).put ..).put ..).put ..)
  refine (held.raise ..).trans (Chip.readOnly_foldl (fun e ch => ?_) _ _)
  split
  · exact Chip.readOnly_refl e
  · split
    · split
      · exact e.readOnly_abandonCopy _
      · exact e.readOnly_spare _
    · exact e.readOnly_spare _

/-- A read error of a region changes no more than the controller of the DRAM keeps of it. -/
theorem Chip.readOnly_dramError (c : Chip) (kind : DramKind) (off : Nat) (reader : Fin 7) (k : Fin 5) :
    c.readOnly (c.dramError ⟨kind, off, reader, .region k⟩) := by
  unfold Chip.dramError Chip.dramErrorAt
  split
  · refine ((Chip.readOnly_refl c).put ..).trans (Chip.readOnly_foldl (fun e x => ?_) _ _)
    split
    · exact e.readOnly_bucketUp ..
    · exact Chip.readOnly_refl e
  · exact c.readOnly_uncorrectable ..

end
end Sys2Proof.Machine
end

