-- ==== Sys2Proof/Proofs/JobOutcomes.lean ====
section
/-! PROOF. Proofs/JobOutcomes.lean: what the end of a Churn engine's job leaves behind (R119, R132, R138, R411), and a dictionary
parity error (R133). -/

namespace Sys2Proof.Machine

/-! ### A bit put -/

theorem testBit_sub_two_pow_self {v i : Nat} (set : v.testBit i = true) : (v - 2 ^ i).testBit i = false := by
  have split : 2 ^ i + (v - 2 ^ i) = v := Nat.add_sub_cancel' (Nat.ge_two_pow_of_testBit set)
  have flips := Nat.testBit_two_pow_add_eq (v - 2 ^ i) i
  rw [split, set] at flips
  exact Bool.not_eq_true' _ ▸ flips.symm

/-- A bit just cleared reads as clear. -/
theorem Chip.bitOf_putBit_false (c : Chip) (f : Field) (i : Nat) : (c.putBit f i false).bitOf f i = false := by
  unfold Chip.bitOf Chip.putBit bit
  dsimp only
  rw [if_neg Bool.false_ne_true, Chip.get_put_self, Nat.testBit_mod_two_pow]
  split
  · next set => rw [testBit_sub_two_pow_self set, Bool.and_false]
  · next clear => rw [Bool.eq_false_iff.mpr clear, Bool.and_false]

theorem Chip.bitOf_congr {c d : Chip} {f : Field} (h : d.get f = c.get f) (i : Nat) : d.bitOf f i = c.bitOf f i := by
  unfold Chip.bitOf
  rw [h]

/-! ### What an event leaves (R492) -/

section
variable {c d : Chip}

theorem Chip.sameBut5_engines (h : c.sameBut5 d) : d.engines = c.engines := by unfold Chip.sameBut5 at h; rw [h]
theorem Chip.sameBut5_jobs (h : c.sameBut5 d) : d.jobs = c.jobs := by unfold Chip.sameBut5 at h; rw [h]
theorem Chip.sameBut5_layers (h : c.sameBut5 d) : d.layers = c.layers := by unfold Chip.sameBut5 at h; rw [h]
theorem Chip.sameBut5_blockUsed (h : c.sameBut5 d) : d.blockUsed = c.blockUsed := by unfold Chip.sameBut5 at h; rw [h]

end

/-! ### Nothing posted -/

section
variable {c d e : Chip}

theorem Chip.postsNothing_of_out (h : d.out = c.out) : c.postsNothing d := (Chip.signals_of_out h).postsNothing

theorem Chip.postsNothing.trans (h : c.postsNothing d) (k : d.postsNothing e) : c.postsNothing e := by
  obtain ⟨⟨l, hl⟩, first⟩ := h
  obtain ⟨⟨m, hm⟩, second⟩ := k
  rw [← hl, List.drop_left] at first
  rw [← hm, List.drop_left] at second
  refine ⟨⟨l ++ m, by rw [← List.append_assoc, hl, hm]⟩, fun p a b posted => ?_⟩
  rw [← hm, ← hl, List.append_assoc, List.drop_left] at posted
  exact (List.mem_append.mp posted).elim (first p a b) (second p a b)

/-- Rows of DRAM banks are opened and precharged, and nothing else changes. -/
def Chip.opensRows (c d : Chip) : Prop := d = { c with out := d.out, banks := d.banks } ∧ c.postsNothing d

theorem Chip.opensRows_refl (c : Chip) : c.opensRows c := ⟨rfl, Chip.postsNothing_of_out rfl⟩

theorem Chip.opensRows.trans (h : c.opensRows d) (k : d.opensRows e) : c.opensRows e := by
  refine ⟨?_, h.2.trans k.2⟩
  have step := k.1
  rw [h.1] at step
  exact step

theorem Chip.opensRows.get (h : c.opensRows d) (f : Field) : d.get f = c.get f := Chip.get_congr (by rw [h.1]) f

theorem Chip.opensRows.layers (h : c.opensRows d) : d.layers = c.layers := by rw [h.1]

theorem Chip.opensRows.blockUsed (h : c.opensRows d) : d.blockUsed = c.blockUsed := by rw [h.1]

end

theorem Chip.opensRows_touch (c : Chip) (addr : Nat) : c.opensRows (c.touch addr) := by
  unfold Chip.touch
  extract_lets l b k x c1
  have precharged : c.opensRows c1 := by
    unfold c1
    split
    · refine ⟨rfl, ⟨_, rfl⟩, fun p a b posted => ?_⟩
      rw [Chip.emit_out, List.drop_left] at posted
      cases List.mem_singleton.mp posted
    · exact Chip.opensRows_refl c
  exact precharged.trans ⟨rfl, Chip.postsNothing_of_out rfl⟩

theorem Chip.opensRows_touchSlab (c : Chip) (layer h slab : Nat) : c.opensRows (c.touchSlab layer h slab) := by
  have fold (l : List Nat) (base : Nat) (d : Chip) : d.opensRows (l.foldl (fun c i => c.touch (base + 16384 * i)) d) := by
    induction l generalizing d with
    | nil => exact Chip.opensRows_refl d
    | cons i l ih => exact (d.opensRows_touch _).trans (ih _)
  unfold Chip.touchSlab
  split
  · exact fold ..
  · exact Chip.opensRows_refl c

/-! ### Layers and their slabs -/

theorem Chip.layer?_num {c : Chip} {n : Nat} {l : Layer} (h : c.layer? n = some l) : l.num = n :=
  of_decide_eq_true (List.find?_some (p := fun (m : Layer) => decide (m.num = n)) h)

theorem Chip.layer?_congr {c d : Chip} (h : d.layers = c.layers) (n : Nat) : d.layer? n = c.layer? n := by
  unfold Chip.layer?
  rw [h]

/-- The layer just replaced is the one found under its number. -/
theorem Chip.layer?_setLayer {c : Chip} {n : Nat} {l l' : Layer} (h : c.layer? n = some l) (num : l'.num = n) :
    (c.setLayer l').layer? n = some l' := by
  have key (m : Layer) : (if m.num = l'.num then l' else m).num = m.num := by
    split
    · next same => exact same.symm
    · rfl
  have found : l.num = l'.num := (Chip.layer?_num h).trans num.symm
  unfold Chip.layer? at h
  unfold Chip.layer? Chip.setLayer
  simp only [List.find?_map, Function.comp_def, key, h, Option.map_some, if_pos found]

@[simp] theorem Layer.slab_setSlab (l : Layer) (h slab : Nat) (x : Slab) : (l.setSlab h slab x).slab h slab = x :=
  SMap.get_set_self ..

/-! ### An engine idle again, or begun again -/

section
variable (c : Chip) (e : Nat)

/-- An engine that runs on without holding writes HELD and its own state register, and no other. -/
theorem Chip.get_runTo_none {f : Field} (l : f.lo < 32) (held : f.key ≠ Reg.CHN_STATUS_HELD.key) (own : f.off ≠ 0x50100 + 0x10 * e) :
    (c.runTo e none).get f = c.get f := by
  unfold Chip.runTo
  dsimp only
  rw [Chip.get_put_off _ (Reg.CHN_ENG_STATE_HELD_IN e) _ _ (of_decide_eq_true rfl) l own,
    Chip.get_put_off _ (Reg.CHN_ENG_STATE_HELD_OUT e) _ _ (of_decide_eq_true rfl) l own, Chip.get_putBit_ne _ _ _ _ _ held]
  rfl

theorem Chip.engineIdle_eq : c.engineIdle e =
    (((({ c with engines := SMap.erase e c.engines }).putBit Reg.CHN_STATUS_BUSY e false).runTo e none).put
      (Reg.CHN_ENG_STATE_KIND e) 0).put (Reg.CHN_ENG_STATE_HEAD e) 0 := rfl

/-- Beside BUSY and HELD, an engine that goes idle writes its own state register alone. -/
theorem Chip.get_engineIdle {f : Field} (l : f.lo < 32) (held : f.key ≠ Reg.CHN_STATUS_HELD.key) (own : f.off ≠ 0x50100 + 0x10 * e) :
    (c.engineIdle e).get f = (c.putBit Reg.CHN_STATUS_BUSY e false).get f := by
  rw [Chip.engineIdle_eq, Chip.get_put_off _ (Reg.CHN_ENG_STATE_HEAD e) _ _ (of_decide_eq_true rfl) l own,
    Chip.get_put_off _ (Reg.CHN_ENG_STATE_KIND e) _ _ (of_decide_eq_true rfl) l own, Chip.get_runTo_none _ _ l held own]
  rfl

theorem Chip.engineIdle_busy : (c.engineIdle e).bitOf Reg.CHN_STATUS_BUSY e = false := by
  rw [Chip.bitOf_congr (c.get_engineIdle e (by decide) (by decide) (by show 0x50004 ≠ _; omega)), Chip.bitOf_putBit_false]

/-- The counts and the first failure's registers do not change as an engine goes idle. -/
theorem Chip.get_engineIdle_low {f : Field} (l : f.lo < 32) (o : f.off < 0x50100) (n : f.off ≠ 0x50004) :
    (c.engineIdle e).get f = c.get f := by
  rw [Chip.get_engineIdle _ _ l (Field.key_ne l (by decide) n) (by omega), Chip.get_putBit_ne _ _ _ _ _ (Field.key_ne l (by decide) n)]

end

/-! ### The block area of an ended job (R124) -/

section
variable (c : Chip) (e : Nat) (j : Job)

/-- The engine of an ended job idle, and the job's block area free. -/
def Chip.jobOut : Chip := (c.engineIdle e).freeArea j

theorem Chip.freeArea_engines : (c.freeArea j).engines = c.engines := rfl
theorem Chip.freeArea_layers : (c.freeArea j).layers = c.layers := rfl
theorem Chip.freeArea_out : (c.freeArea j).out = c.out := rfl
theorem Chip.get_freeArea (f : Field) : (c.freeArea j).get f = c.get f := rfl

theorem Chip.jobOut_layers : (c.jobOut e j).layers = c.layers := Chip.freeArea_layers ..

theorem Chip.jobOut_out : (c.jobOut e j).out = c.out := (Chip.freeArea_out ..).trans (c.engineIdle_ends e).out

theorem Chip.jobOut_used : (c.jobOut e j).blockUsed = c.blockUsed - j.area := rfl

theorem Chip.get_jobOut (f : Field) : (c.jobOut e j).get f = (c.engineIdle e).get f := Chip.get_freeArea ..

theorem Chip.jobOut_busy : (c.jobOut e j).bitOf Reg.CHN_STATUS_BUSY e = false :=
  (Chip.bitOf_congr (c.get_jobOut e j _) e).trans (c.engineIdle_busy e)

end

/-! ### A block that fails (R132, R411) -/

section
variable (c : Chip) (e : Nat) (j : Job) (cause bitPos : Nat)

/-- The first failure's registers. -/
def Chip.firstFailure : Chip :=
  ((((((c.put Reg.CHN_FAIL_INFO_CAUSE cause).put Reg.CHN_FAIL_INFO_ENGINE e).put Reg.CHN_FAIL_INFO_HEAD j.head).put
    Reg.CHN_FAIL_INFO_VALID 1).put Reg.CHN_FAIL_LAYER_LAYER j.layer).put Reg.CHN_FAIL_SLAB_SLAB j.slab).put
      Reg.CHN_FAIL_BITPOS_BITPOS bitPos

/-- A failure counted, and held where it is the first. -/
def Chip.failNoted : Chip :=
  let d := c.bump Reg.CHN_DEC_FAIL_COUNT 1
  if d.flag Reg.CHN_FAIL_INFO_VALID then d else d.firstFailure e j cause bitPos

theorem Chip.blockFails_eq : c.blockFails e j cause bitPos =
    let d := (c.failNoted e j cause bitPos).raise 16 cause [(4, j.layer), (1, j.head), (4, j.slab), (1, e)]
    if j.ofBlock then d.lostBlock j.layer j.head j.slab else d := rfl

theorem Chip.sameBut5_failNoted : c.sameBut5 (c.failNoted e j cause bitPos) := by
  unfold Chip.failNoted
  extract_lets d
  split <;> rfl

/-- A failure changes registers and tells events, and leaves jobs, engines and layers. -/
theorem Chip.sameBut5_blockFails : c.sameBut5 (c.blockFails e j cause bitPos) := by
  have told := Chip.sameBut5_trans (c.sameBut5_failNoted e j cause bitPos)
    (Chip.raise_rest _ 16 cause [(4, j.layer), (1, j.head), (4, j.slab), (1, e)])
  rw [Chip.blockFails_eq]
  dsimp only
  split
  · exact Chip.sameBut5_trans told (Chip.raise_rest ..)
  · exact told

theorem Chip.keepsAt_firstFailure : c.keepsAt (c.firstFailure e j cause bitPos) fun o => o < 0x50020 ∨ 0x50030 ≤ o :=
  (((((((Chip.keepsAt_refl c _).put _ _ (by decide)).put _ _ (by decide)).put _ _ (by decide)).put _ _ (by decide)).put _ _
    (by decide)).put _ _ (by decide)).put _ _ (by decide)

theorem Chip.firstFailure_valid : (c.firstFailure e j cause bitPos).flag Reg.CHN_FAIL_INFO_VALID = true := by
  unfold Chip.flag Chip.firstFailure
  rw [Chip.get_put_ne _ _ _ _ (by decide), Chip.get_put_ne _ _ _ _ (by decide), Chip.get_put_ne _ _ _ _ (by decide), Chip.get_put_self]
  rfl

/-- Below the first failure's registers a failure writes its count alone. -/
theorem Chip.get_failNoted {f : Field} (l : f.lo < 32) (o : f.off < 0x50020) :
    (c.failNoted e j cause bitPos).get f = (c.bump Reg.CHN_DEC_FAIL_COUNT 1).get f := by
  unfold Chip.failNoted
  dsimp only
  split
  · rfl
  · exact Chip.keepsAt_firstFailure _ _ _ _ _ f l (.inl o)

/-- Outside the event block a failure writes what it notes. -/
theorem Chip.get_blockFails {f : Field} (l : f.lo < 32) (o : 0x22000 ≤ f.off) :
    (c.blockFails e j cause bitPos).get f = (c.failNoted e j cause bitPos).get f := by
  have told := Chip.get_raise (c.failNoted e j cause bitPos) (src := 16) cause [(4, j.layer), (1, j.head), (4, j.slab), (1, e)]
    (by decide) l (.inr o)
  rw [Chip.blockFails_eq]
  dsimp only
  split
  · exact (Chip.get_raise _ _ _ (by decide) l (.inr o)).trans told
  · exact told

/-- A failure leaves CHN.STATUS. -/
theorem Chip.get_blockFails_status {f : Field} (l : f.lo < 32) (o : f.off = 0x50004) : (c.blockFails e j cause bitPos).get f = c.get f := by
  rw [c.get_blockFails e j cause bitPos l (by omega), c.get_failNoted e j cause bitPos l (by omega)]
  exact Chip.get_put_off _ _ _ _ (by decide) l (by rw [o]; decide)

theorem Chip.blockFails_count : (c.blockFails e j cause bitPos).get Reg.CHN_DEC_FAIL_COUNT =
    min (c.get Reg.CHN_DEC_FAIL_COUNT + 1) (2 ^ Reg.CHN_DEC_FAIL_COUNT.width - 1) := by
  rw [Chip.get_blockFails _ _ _ _ _ (by decide) (by decide), Chip.get_failNoted _ _ _ _ _ (by decide) (by decide), Chip.get_bump_self]

/-- After a failure the registers of a first failure are valid. -/
theorem Chip.blockFails_valid : (c.blockFails e j cause bitPos).flag Reg.CHN_FAIL_INFO_VALID = true := by
  rw [Chip.flag_congr (Chip.get_blockFails _ _ _ _ _ (by decide) (by decide))]
  unfold Chip.failNoted
  dsimp only
  split
  · assumption
  · exact Chip.firstFailure_valid ..

/-- A layer's block that fails is told as lost last (R411). -/
theorem Chip.blockFails_source (block : j.ofBlock = true) : (c.blockFails e j cause bitPos).get Reg.EVT_LAST_SOURCE = 202 := by
  rw [Chip.blockFails_eq]
  dsimp only
  rw [if_pos block]
  exact Chip.raise_source _ _ _ _ (by decide)

end

/-! ### BLOCK_DECODED -/

/-- The errors met by the reads of a compressed block. -/
def Chip.blockReads (c : Chip) (reads : List RawRead) : Chip :=
  reads.foldl (fun (c : Chip) (r : RawRead) => c.dramError ⟨r.kind, r.off, 1, .region 2⟩) c

theorem Chip.readOnly_blockReads (c : Chip) (reads : List RawRead) : c.readOnly (c.blockReads reads) :=
  Chip.readOnly_foldl (fun d _ => d.readOnly_dramError ..) _ _

/-- A read error leaves the job an engine can end. -/
theorem Chip.readOnly.endingJob {c d : Chip} (h : c.readOnly d) (e : Nat) : d.endingJob e = c.endingJob e := by
  have status (f : Field) (l : f.lo < 32) (o : f.off = 0x50004) : d.get f = c.get f := h.regs f l (by
    rw [o]
    unfold readApart
    decide)
  unfold Chip.endingJob Chip.engineJob Chip.bitOf
  rw [status Reg.CHN_STATUS_HELD (by decide) rfl, status Reg.CHN_STATUS_BUSY (by decide) rfl, h.rest]

/-- A decompression's outcome taken up: a firn's piece goes to its firn. -/
def decodeFate (r : Chip × Option (Nat × Bool)) : Chip :=
  match r.2 with
  | none => r.1
  | some q => r.1.firnPiece q.1 q.2

section
variable {c : Chip} {e : Nat} {x : Engine} (p : Bool) (h : c.endingJob e = some x) (decodes : x.job.kind = 1)
include h decodes

/-- A layer's block ends. -/
theorem Chip.jobEnds_block (layer : x.job.firn = none) : c.jobEnds e p = ((c.jobOut e x.job).blockEnds e x.job p, none) := by
  unfold Chip.jobEnds
  rw [h]
  dsimp only
  rw [if_neg (not_not.mpr decodes), layer]
  rfl

/-- A firn's piece that decodes. -/
theorem Chip.jobEnds_decoded {q : Nat} {bytes : List Byte} (firn : x.job.firn = some q) (decoded : jobResult x.job p = .ok bytes) :
    c.jobEnds e p = (c.jobOut e x.job, some (q, true)) := by
  unfold Chip.jobEnds
  rw [h]
  dsimp only
  rw [if_neg (not_not.mpr decodes), firn, decoded]
  rfl

/-- A firn's piece that fails. -/
theorem Chip.jobEnds_failed {q cause pos : Nat} (firn : x.job.firn = some q) (fails : jobResult x.job p = .fail cause pos) :
    c.jobEnds e p = ((c.jobOut e x.job).blockFails e x.job cause pos, some (q, false)) := by
  unfold Chip.jobEnds
  rw [h]
  dsimp only
  rw [if_neg (not_not.mpr decodes), firn, fails]
  rfl

end

section
variable {s : State} {e : Fin 8} {x : Engine} (ending : s.toChip.endingJob e.val = some x) (reads : List RawRead)
include ending

/-- BLOCK_DECODED takes up the job's outcome; a slab written opens rows and does no more. -/
theorem exec_blockDecoded : ∃ d, exec (.blockDecoded e ⟨reads, []⟩) s = .next (s.withChip d) ∧
    (decodeFate ((s.toChip.blockReads reads).jobEnds e.val
      (x.job.poisoned || reads.any fun r => !DramKind.correctable r.kind))).opensRows d := by
  show ∃ d, execBlockDecoded _ _ s = _ ∧ _
  unfold execBlockDecoded
  dsimp only
  rw [ending]
  refine ⟨_, rfl, ?_⟩
  dsimp only
  split
  · exact Chip.opensRows_touchSlab ..
  · exact Chip.opensRows_refl _

/-- A piece of a firn writes no slab. -/
theorem exec_blockDecoded_piece (firn : x.job.firn.isSome = true) : exec (.blockDecoded e ⟨[], []⟩) s =
    .next (s.withChip (decodeFate (s.toChip.jobEnds e.val x.job.poisoned))) := by
  have layerless : x.job.ofBlock = false := by
    unfold Job.ofBlock
    rw [← Option.not_isSome, firn]
    exact Bool.and_false _
  show execBlockDecoded _ _ s = _
  unfold execBlockDecoded
  dsimp only
  rw [ending]
  simp only [layerless, Bool.false_and, List.any_nil, Bool.or_false, List.foldl_nil]
  rfl

end

/-! ### A layer's block (R119, R132, R134) -/

section
variable {c : Chip} {e : Nat} {j : Job} {p : Bool}

theorem Chip.blockEnds_fail {cause pos : Nat} (fails : jobResult j p = .fail cause pos) :
    c.blockEnds e j p = c.blockFails e j cause pos := by
  unfold Chip.blockEnds
  rw [fails]

/-- A stale job leaves its slab. -/
theorem Chip.blockEnds_stale {bytes : List Byte} (decoded : jobResult j p = .ok bytes) (stale : j.stale = true) :
    c.blockEnds e j p = c := by
  unfold Chip.blockEnds
  rw [decoded, stale]
  rfl

/-- A layer with a decoded block's slab valid. -/
def Layer.withBlock (l : Layer) (j : Job) (bytes : List Byte) : Layer :=
  l.setSlab j.head j.slab { l.slab j.head j.slab with valid := true, bytes := bytes, poison := [] }

/-- A decoded block is valid in its layer. -/
theorem Chip.blockEnds_layer {bytes : List Byte} {l : Layer} (decoded : jobResult j p = .ok bytes) (fresh : j.stale = false)
    (layer : c.layer? j.layer = some l) : c.blockEnds e j p = (c.setLayer (l.withBlock j bytes)).bump Reg.CHN_DEC_BLOCKS_COUNT 1 := by
  unfold Chip.blockEnds
  rw [decoded, fresh]
  dsimp only
  rw [if_neg Bool.false_ne_true, layer]
  rfl

end

/-- What an engine leaves that has ended its job after reads that met errors. -/
structure Chip.jobLeft (c d : Chip) (e : Nat) (j : Job) : Prop where
  layers : d.layers = c.layers
  used : d.blockUsed = c.blockUsed - j.area
  idle : d.bitOf Reg.CHN_STATUS_BUSY e = false
  silent : c.postsNothing d
  counts : c.keepsAt d fun o => 0x50008 ≤ o ∧ o < 0x50100

theorem Chip.readOnly.jobOut {c b : Chip} (h : c.readOnly b) (e : Nat) (j : Job) : c.jobLeft (b.jobOut e j) e j where
  layers := (b.jobOut_layers e j).trans (by rw [h.rest])
  used := (b.jobOut_used e j).trans (by rw [h.rest])
  idle := b.jobOut_busy e j
  silent := h.signals.postsNothing.trans (Chip.postsNothing_of_out (b.jobOut_out e j))
  counts f l o := ((b.get_jobOut e j f).trans (b.get_engineIdle_low e l o.2 (by omega))).trans (h.regs f l (by
    unfold readApart Reg.CRN_MORAINE_STATUS_FULL Reg.CRN_MORAINE_SEQ_NEXT
    dsimp only
    omega))

section
variable {c b d : Chip} {e : Nat} {j : Job} {p : Bool} (left : c.jobLeft b e j) (opens : (b.blockEnds e j p).opensRows d)
include left opens

/-- A block that fails is counted, held where it is the first, and told as lost (R132, R411). -/
theorem Chip.jobLeft.fails {cause pos : Nat} (block : j.ofBlock = true) (fails : jobResult j p = .fail cause pos) :
    d.blockUsed = c.blockUsed - j.area ∧ d.bitOf Reg.CHN_STATUS_BUSY e = false ∧ d.layers = c.layers ∧
    d.get Reg.CHN_DEC_FAIL_COUNT = min (c.get Reg.CHN_DEC_FAIL_COUNT + 1) (2 ^ Reg.CHN_DEC_FAIL_COUNT.width - 1) ∧
    d.get Reg.EVT_LAST_SOURCE = 202 ∧ d.flag Reg.CHN_FAIL_INFO_VALID = true := by
  have same := b.sameBut5_blockFails e j cause pos
  rw [Chip.blockEnds_fail fails] at opens
  refine ⟨?_, ?_, ?_, ?_, ?_, ?_⟩
  · exact opens.blockUsed.trans ((Chip.sameBut5_blockUsed same).trans left.used)
  · rw [← left.idle]
    exact Chip.bitOf_congr ((opens.get _).trans (b.get_blockFails_status _ _ _ _ (by decide) rfl)) _
  · exact opens.layers.trans ((Chip.sameBut5_layers same).trans left.layers)
  · rw [opens.get, Chip.blockFails_count, left.counts Reg.CHN_DEC_FAIL_COUNT (by decide) (by decide)]
  · rw [opens.get, Chip.blockFails_source _ _ _ _ _ block]
  · rw [Chip.flag_congr (opens.get _), Chip.blockFails_valid]

/-- A decoded block is counted and valid in its layer, with its bytes (R119). -/
theorem Chip.jobLeft.decodes {bytes : List Byte} {l : Layer} (decoded : jobResult j p = .ok bytes) (fresh : j.stale = false)
    (layer : c.layer? j.layer = some l) :
    d.blockUsed = c.blockUsed - j.area ∧ d.bitOf Reg.CHN_STATUS_BUSY e = false ∧
    (∃ l', d.layer? j.layer = some l' ∧ (l'.slab j.head j.slab).valid = true ∧ (l'.slab j.head j.slab).bytes = bytes) ∧
    d.get Reg.CHN_DEC_BLOCKS_COUNT = min (c.get Reg.CHN_DEC_BLOCKS_COUNT + 1) (2 ^ Reg.CHN_DEC_BLOCKS_COUNT.width - 1) ∧
    c.postsNothing d := by
  have kept : b.layer? j.layer = some l := (Chip.layer?_congr left.layers _).trans layer
  rw [Chip.blockEnds_layer decoded fresh kept] at opens
  have valid : (b.setLayer (l.withBlock j bytes)).layer? j.layer = some (l.withBlock j bytes) :=
    Chip.layer?_setLayer kept (show l.num = j.layer from Chip.layer?_num kept)
  refine ⟨opens.blockUsed.trans left.used, ?_, ⟨l.withBlock j bytes, (Chip.layer?_congr opens.layers _).trans valid, ?_, ?_⟩, ?_, ?_⟩
  · rw [← left.idle]
    exact Chip.bitOf_congr ((opens.get _).trans (Chip.get_bump_ne _ _ _ _ (by decide))) _
  · rw [Layer.withBlock, Layer.slab_setSlab]
  · rw [Layer.withBlock, Layer.slab_setSlab]
  · rw [opens.get, Chip.get_bump_self]
    exact congrArg (fun n => min (n + 1) _) (left.counts Reg.CHN_DEC_BLOCKS_COUNT (by decide) (by decide))
  · exact left.silent.trans ((Chip.postsNothing_of_out rfl).trans opens.2)

/-- A stale block leaves nothing (R134). -/
theorem Chip.jobLeft.stale {bytes : List Byte} (decoded : jobResult j p = .ok bytes) (stale : j.stale = true) :
    d.blockUsed = c.blockUsed - j.area ∧ d.layers = c.layers ∧ c.postsNothing d := by
  rw [Chip.blockEnds_stale decoded stale] at opens
  exact ⟨opens.blockUsed.trans left.used, opens.layers.trans left.layers, left.silent.trans opens.2⟩

end

/-! ### DICT_PARITY (R133) -/

theorem SMap.find?_insert {V : Type} {k : Nat} {v : V} {m : SMap V} (absent : ∀ a ∈ m, a.1 ≠ k) :
    (SMap.insert k v m).find? (fun a => decide (a.1 = k)) = some (k, v) := by
  induction m with
  | nil => simp [SMap.insert]
  | cons a m ih =>
    unfold SMap.insert
    split
    · simp
    · rw [List.find?_cons_of_neg (by simpa using absent a (List.mem_cons_self ..))]
      exact ih fun b mem => absent b (List.mem_cons_of_mem _ mem)

section
variable (c : Chip) (e : Nat) (x : Engine)

/-- The job begun again. -/
def Chip.jobAgain : Chip :=
  (({ c with engines := SMap.insert e { x with restarted := true } (SMap.erase e c.engines) }).put (Reg.CHN_ENG_DONE_BYTES e) 0).runTo
    e none

/-- An engine that begins its job again runs it still. -/
theorem Chip.engineJob_jobAgain (busy : c.bitOf Reg.CHN_STATUS_BUSY e = true) :
    (c.jobAgain e x).engineJob e = some { x with restarted := true, held := none } := by
  have still : (c.jobAgain e x).bitOf Reg.CHN_STATUS_BUSY e = true := by
    rw [← busy]
    refine Chip.bitOf_congr ((Chip.get_runTo_none _ _ (by decide) (by decide) (by show 0x50004 ≠ _; omega)).trans ?_) e
    exact Chip.get_put_off _ _ _ _ (of_decide_eq_true rfl) (by decide) (by show 0x50004 ≠ 0x50104 + 0x10 * e; omega)
  have engines : (c.jobAgain e x).engines = (SMap.insert e { x with restarted := true } (SMap.erase e c.engines)).map
      fun (y : Nat × Engine) => if y.1 = e then (y.1, { y.2 with held := none }) else y := rfl
  have key (y : Nat × Engine) : (if y.1 = e then (y.1, { y.2 with held := none }) else y).1 = y.1 := by split <;> rfl
  unfold Chip.engineJob
  rw [if_pos still, engines, List.find?_map]
  simp only [Function.comp_def, key, SMap.find?_insert fun a mem => (SMap.ne_of_mem_erase mem).1, Option.map_some, if_true]

theorem Chip.jobAgain_done : (c.jobAgain e x).get (Reg.CHN_ENG_DONE_BYTES e) = 0 := by
  unfold Chip.jobAgain
  rw [Chip.get_runTo_none _ _ (of_decide_eq_true rfl) (by show (0x50104 + 0x10 * e) * 32 + 0 ≠ 0x50004 * 32 + 16; omega)
    (by show 0x50104 + 0x10 * e ≠ _; omega), Chip.get_put_self, Nat.zero_mod]

theorem Chip.jobAgain_seq : (c.jobAgain e x).get Reg.EVT_SEQ_NEXT = c.get Reg.EVT_SEQ_NEXT := by
  unfold Chip.jobAgain
  rw [Chip.get_runTo_none _ _ (by decide) (by decide) (by show 0x20000 ≠ _; omega),
    Chip.get_put_off _ (Reg.CHN_ENG_DONE_BYTES e) _ _ (of_decide_eq_true rfl) (by decide) (by show 0x20000 ≠ 0x50104 + 0x10 * e; omega)]
  rfl

/-- A job given up after a second error: a block fails, a compression waits again (log entry 90). -/
def Chip.jobGiven (c : Chip) (e : Nat) (j : Job) : Chip :=
  if j.kind = 1 then (c.freeArea j).blockFails e j 8 0 else c.queueJob j

theorem Chip.jobGiven_engines (j : Job) : (c.jobGiven e j).engines = c.engines := by
  unfold Chip.jobGiven
  split
  · exact (Chip.sameBut5_engines (Chip.sameBut5_blockFails ..)).trans (c.freeArea_engines j)
  · rfl

theorem Chip.get_jobGiven_status (j : Job) {f : Field} (l : f.lo < 32) (o : f.off = 0x50004) :
    (c.jobGiven e j).get f = c.get f := by
  unfold Chip.jobGiven
  split
  · exact (Chip.get_blockFails_status _ _ _ _ _ l o).trans (c.get_freeArea j f)
  · have queued : c.keepsAt (c.queueJob j) (· = 0x50004) :=
      (((Chip.keepsAt_refl c _).of_regs (e := { c with jobs := c.jobs ++ [j] }) rfl).put Reg.CHN_QUEUE_DEC _ (by decide)).put
        Reg.CHN_QUEUE_COMP _ (by decide)
    exact queued f l o

theorem Chip.mem_jobs_jobGiven {j : Job} (compresses : j.kind ≠ 1) : j ∈ (c.jobGiven e j).jobs := by
  unfold Chip.jobGiven
  rw [if_neg compresses]
  exact List.mem_append_right _ (List.mem_singleton_self j)

/-- The engine leaves service. -/
def Chip.engineLost : Chip :=
  (((c.engineIdle e).jobGiven e x.job).putBit Reg.CHN_STATUS_INSERVICE e false).raise 18 0 [(1, e)]

theorem Chip.engineLost_engines : (c.engineLost e x).engines = (c.engineIdle e).engines :=
  (Chip.sameBut5_engines (Chip.raise_rest ..)).trans (Chip.jobGiven_engines ..)

theorem Chip.engineLost_busy : (c.engineLost e x).bitOf Reg.CHN_STATUS_BUSY e = false := by
  rw [← c.engineIdle_busy e]
  refine Chip.bitOf_congr ?_ e
  unfold Chip.engineLost
  rw [Chip.get_raise _ _ _ (by decide) (by decide) (by decide), Chip.get_putBit_ne _ _ _ _ _ (by decide),
    Chip.get_jobGiven_status _ _ _ (by decide) rfl]

theorem Chip.engineLost_inService : (c.engineLost e x).bitOf Reg.CHN_STATUS_INSERVICE e = false := by
  unfold Chip.engineLost
  rw [Chip.bitOf_congr (Chip.get_raise _ _ _ (by decide) (by decide) (by decide)), Chip.bitOf_putBit_false]

theorem Chip.mem_jobs_engineLost (compresses : x.job.kind ≠ 1) : x.job ∈ (c.engineLost e x).jobs := by
  unfold Chip.engineLost
  rw [Chip.sameBut5_jobs (Chip.raise_rest ..)]
  exact Chip.mem_jobs_jobGiven _ _ compresses

end

section
variable {s : State} {e : Fin 8} {x : Engine} (runs : s.toChip.engineJob e.val = some x)
include runs

theorem exec_dictParity_first (first : x.restarted = false) :
    exec (.dictParity ⟨e, none⟩) s = .next (s.withChip ((s.toChip.jobAgain e.val x).raise 17 0 [])) := by
  show execDictParity _ s = _
  unfold execDictParity Chip.parityError
  dsimp only
  rw [runs]
  dsimp only
  rw [first]
  rfl

theorem exec_dictParity_again (hold : Option Hold) (again : x.restarted = true) (layer : x.job.firn = none) :
    exec (.dictParity ⟨e, hold⟩) s = .next (s.withChip (s.toChip.engineLost e.val x)) := by
  show execDictParity _ s = _
  unfold execDictParity Chip.parityError
  dsimp only
  rw [runs]
  dsimp only
  rw [again, layer]
  rfl

end

/-! ### The obligation -/

theorem Chip.engineJob_congr {c d : Chip} {e : Nat} (engines : d.engines = c.engines)
    (busy : d.get Reg.CHN_STATUS_BUSY = c.get Reg.CHN_STATUS_BUSY) : d.engineJob e = c.engineJob e := by
  unfold Chip.engineJob
  rw [Chip.bitOf_congr busy, engines]

theorem Chip.busy_of_engineJob {c : Chip} {e : Nat} {x : Engine} (runs : c.engineJob e = some x) :
    c.bitOf Reg.CHN_STATUS_BUSY e = true := by
  unfold Chip.engineJob at runs
  by_contra idle
  rw [if_neg idle] at runs
  cases runs

section
variable {s : State} {e : Fin 8} {x : Engine} (ending : s.toChip.endingJob e.val = some x) (decodes : x.job.kind = 1)
include ending decodes

/-- A layer's block has ended: the engine is idle, its outcome taken up, and rows of the banks may be open. -/
theorem exec_blockDecoded_block (reads : List RawRead) (layer : x.job.firn = none) :
    ∃ b d, s.toChip.jobLeft b e.val x.job ∧ exec (.blockDecoded e ⟨reads, []⟩) s = .next (s.withChip d) ∧
      (b.blockEnds e.val x.job (x.job.poisoned || reads.any fun r => !DramKind.correctable r.kind)).opensRows d := by
  have met := s.toChip.readOnly_blockReads reads
  obtain ⟨d, run, opens⟩ := exec_blockDecoded ending reads
  rw [Chip.jobEnds_block _ ((met.endingJob e.val).trans ending) decodes layer] at opens
  exact ⟨_, d, met.jobOut e.val x.job, run, opens⟩

/-- A piece of a firn has ended: the engine is idle, and its firn hears whether the piece decoded. -/
theorem exec_blockDecoded_firn {q : Nat} (firn : x.job.firn = some q) :
    ∃ (d : Chip) (ok : Bool), exec (.blockDecoded e ⟨[], []⟩) s = .next (s.withChip (d.firnPiece q ok)) ∧
      d.bitOf Reg.CHN_STATUS_BUSY e.val = false ∧ (ok = true ↔ ∃ bytes, jobResult x.job x.job.poisoned = .ok bytes) := by
  have idle := s.toChip.jobOut_busy e.val x.job
  rw [exec_blockDecoded_piece ending (by rw [firn]; rfl)]
  cases result : jobResult x.job x.job.poisoned with
  | ok bytes =>
    rw [Chip.jobEnds_decoded _ ending decodes firn result]
    exact ⟨s.toChip.jobOut e.val x.job, true, rfl, idle, by simp⟩
  | fail cause pos =>
    rw [Chip.jobEnds_failed _ ending decodes firn result]
    refine ⟨(s.toChip.jobOut e.val x.job).blockFails e.val x.job cause pos, false, rfl, ?_, by simp⟩
    exact (Chip.bitOf_congr (Chip.get_blockFails_status _ _ _ _ _ (by decide) rfl) _).trans idle

end

/-- Poison, or a read that cannot be corrected, fails a block with cause 7 (R132, R403). -/
theorem jobResult_poisoned (j : Job) : jobResult j true = .fail 7 0 := rfl

/-- Settles O41: an ended decompression leaves what its outcome says, and a parity error begins the job again or takes the engine
out of service. -/
theorem jobsEndWithTheirOutcome : Obligations.JobsEndWithTheirOutcome := by
  unfold Obligations.JobsEndWithTheirOutcome
  intro e s x runs c
  have ending (out : c.bitOf Reg.CHN_STATUS_HELD e.val = false) : c.endingJob e.val = some x := by
    rw [Chip.endingJob_eq, out, ← runs]
    rfl
  refine ⟨?_, fun q decodes firn out => exec_blockDecoded_firn (ending out) decodes firn, fun first => ?_, fun hold again layer => ?_⟩
  · intro reads decodes layer out bad
    obtain ⟨b, d, left, run, opens⟩ := exec_blockDecoded_block (ending out) decodes reads layer
    have block : x.job.ofBlock = true := by
      unfold Job.ofBlock
      rw [decodes, layer]
      rfl
    exact ⟨fun poisoned => by rw [poisoned, jobResult_poisoned], fun cause pos fails => ⟨d, run, left.fails opens block fails⟩,
      fun bytes l decoded fresh found => ⟨d, run, left.decodes opens decoded fresh found⟩,
      fun bytes decoded stale => ⟨d, run, left.stale opens decoded stale⟩⟩
  · have told {f : Field} (l : f.lo < 32) (o : 0x22000 ≤ f.off) :=
      Chip.get_raise (c.jobAgain e.val x) (src := 17) 0 [] (by decide) l (.inr o)
    have engines := Chip.sameBut5_engines (Chip.raise_rest (c.jobAgain e.val x) 17 0 [])
    refine ⟨_, exec_dictParity_first runs first, ⟨{ x with restarted := true, held := none }, ?_, rfl, rfl⟩, ?_,
      Chip.tells_raise _ (c.jobAgain_seq e.val x) (by decide) (by decide)⟩
    · exact (Chip.engineJob_congr engines (told (by decide) (by decide))).trans
        (c.engineJob_jobAgain e.val x (Chip.busy_of_engineJob runs))
    · exact (told (of_decide_eq_true rfl) (by show _ ≤ 0x50104 + 0x10 * e.val; omega)).trans (c.jobAgain_done e.val x)
  · have absent := (c.engineIdle_ends e.val).absent
    rw [← c.engineLost_engines e.val x] at absent
    exact ⟨_, exec_dictParity_again runs hold again layer, c.engineLost_inService e.val x, c.engineLost_busy e.val x,
      Chip.engineJob_of_absent absent, Chip.raise_source _ _ _ _ (by decide), c.mem_jobs_engineLost e.val x⟩

end Sys2Proof.Machine
end

