-- ==== Sys2Proof/Proofs/LayerDescriptors.lean ====
section
/-! PROOF. Proofs/LayerDescriptors.lean: LAYER_OPEN, LAYER_CLOSE and BLOCK (R98, R123, R147, R442, R530, R531): what each check
asks, what a layer's registration leaves, and what a block taken leaves. -/

namespace Sys2Proof.Machine

/-! ### Registered layers and those whose LAYER_OPEN waits -/

section
variable (c : Chip) (num : Nat)

theorem Chip.layer?_isSome : (c.layer? num).isSome = true ↔ ∃ l ∈ c.layers, l.num = num := by
  simp [Chip.layer?]

theorem Chip.openPending_iff : c.openPending num = true ↔
    ∃ w ∈ c.mirrorWait, leField w.desc 0 1 = 1 ∧ leField w.desc 0x14 4 = num := by
  simp [Chip.openPending]

theorem Chip.openLayer?_isSome : (c.openLayer? num).isSome = true ↔
    (∃ l ∈ c.layers, l.num = num) ∧ ¬∃ w ∈ c.mirrorWait, leField w.desc 0 1 = 1 ∧ leField w.desc 0x14 4 = num := by
  rw [← c.layer?_isSome, ← c.openPending_iff]
  unfold Chip.openLayer?
  cases c.openPending num <;> simp

end

theorem Chip.layer?_of_openLayer? {c : Chip} {num : Nat} {l : Layer} (h : c.openLayer? num = some l) : c.layer? num = some l := by
  unfold Chip.openLayer? at h
  split at h
  · cases h
  · exact h

/-! ### LAYER_OPEN -/

section
variable (p : Port) (n : Fin 64) (s : State)

theorem exec_layerOpen : exec (.layerOpen p n) s = .next (s.withChip (s.toChip.openLayer p.num n.val)) := rfl

theorem exec_layerOpenResume : exec (.layerOpenResume p n) s = .next (s.withChip (s.toChip.openLayer p.num n.val)) := rfl

theorem exec_layerClose : exec (.layerClose p n) s = .next (s.withChip (s.toChip.closeLayer p.num n.val)) := rfl

theorem exec_layerCloseComplete : exec (.layerCloseComplete p n) s = .next (s.withChip (s.toChip.closeDone p.num n.val)) := rfl

theorem exec_block (h b : Option (List Byte)) : exec (.block p n h b) s = .next (s.withChip (s.toChip.blockDesc p.num n.val h b)) := rfl

end

/-- The checks of a LAYER_OPEN (R147, R530). -/
theorem Chip.openFault_iff (c : Chip) (d : List Byte) : c.openFault d = true ↔
    (∃ l ∈ c.layers, l.num = leField d 0x14 4) ∨ 2 ^ 48 ≤ leField d 0x1C 8 ∨ leField d 0x18 4 = 0 ∨ 65536 < leField d 0x18 4 ∨
      ∃ h, h < 48 ∧ bit (leField d 0x1C 8) h = true ∧ c.gOf h = 0 := by
  unfold Chip.openFault
  simp only [Bool.or_eq_true, Chip.layer?_isSome, decide_eq_true_eq, List.any_eq_true, List.mem_range, Bool.and_eq_true, or_assoc]

section
variable {c : Chip} {p n : Nat} {d : List Byte} (front : c.headOp p n 1 = some d) (ready : (c.ring p n).acted = false)
include front ready

theorem Chip.openLayer_faulty (bad : c.openFault d = true) : c.openLayer p n = c.faultDesc p n 0x102 := by
  unfold Chip.openLayer
  simp only [front, ready, bad, if_true, Bool.false_eq_true, if_false]

theorem Chip.openLayer_notOwner (good : ¬c.openFault d = true) (other : c.owns = false) :
    c.openLayer p n = c.complete p n 2 d (leBytes 4 1) := by
  unfold Chip.openLayer
  simp only [front, ready, good, other, if_true, Bool.false_eq_true, if_false]
  rfl

theorem Chip.openLayer_waits (good : ¬c.openFault d = true) (owner : c.owns = true)
    (full : 2 ≤ c.layers.length ∨ c.flag (Reg.HIF_STATUS_STATE_HELD 0) = true) : c.openLayer p n = c := by
  unfold Chip.openLayer
  simp only [front, ready, good, owner, full, if_true, Bool.false_eq_true, Bool.true_eq_false, if_false]

theorem Chip.openLayer_registers (good : ¬c.openFault d = true) (owner : c.owns = true) (room : c.layers.length < 2)
    (free : c.flag (Reg.HIF_STATUS_STATE_HELD 0) = false) : c.openLayer p n =
      (c.registerLayer (leField d 0x14 4) (leField d 0x18 4) (leField d 0x1C 8) false).completeMirrored p n 0 d [] 5
        ((d.drop 0x14).take 16) := by
  unfold Chip.openLayer
  simp only [front, ready, good, owner, free, Nat.not_le.mpr room, Bool.false_eq_true, Bool.true_eq_false, or_false, if_false]

end

/-! ### A layer registered (R147, R390) -/

/-- Each of some keys set once, from what it read: the keys named hold that, every other what it held. -/
theorem SMap.get_foldl_set {hs : List Nat} (once : hs.Nodup) (f : Nat → Nat → Nat) (m : SMap Nat) (k : Nat) :
    SMap.get 0 k (hs.foldl (fun m h => SMap.set 0 h (f h (SMap.get 0 h m)) m) m) =
      if k ∈ hs then f k (SMap.get 0 k m) else SMap.get 0 k m := by
  induction hs generalizing m with
  | nil => rfl
  | cons a hs ih =>
    obtain ⟨fresh, once⟩ := List.nodup_cons.mp once
    rw [List.foldl_cons, ih once]
    by_cases same : k = a
    · rw [same, if_neg fresh, if_pos (List.mem_cons_self ..), SMap.get_set_self]
    · simp only [SMap.get_set_ne _ _ _ same, List.mem_cons, same, false_or]

/-- The heads of a mask. -/
theorem mem_maskHeads {heads h : Nat} : h ∈ (List.range 48).filter (inMask heads) ↔ h < 48 ∧ bit heads h = true := by
  rw [List.mem_filter, List.mem_range]
  rfl

theorem nodup_maskHeads (heads : Nat) : ((List.range 48).filter (inMask heads)).Nodup := List.nodup_range.filter _

section
variable (c : Chip) (num bands heads : Nat) (mirrored : Bool)

/-- A layer as its registration leaves it: no block delivered, and the number of its first band on each of its heads. -/
def Chip.newLayer : Layer :=
  { num := num, bands := bands, heads := heads, mirrored := mirrored
    firstBand := ((List.range 48).filter (inMask heads)).foldl (fun (m : SMap Nat) h => SMap.set 0 h (SMap.get 0 h c.bandCount) m) [] }

theorem Chip.registerLayer_layers : (c.registerLayer num bands heads mirrored).layers = c.layers ++ [c.newLayer num bands heads mirrored] := rfl

theorem Chip.newLayer_firstBand {h : Nat} (low : h < 48) (member : bit heads h = true) :
    SMap.get 0 h (c.newLayer num bands heads mirrored).firstBand = SMap.get 0 h c.bandCount := by
  unfold Chip.newLayer
  exact (SMap.get_foldl_set (nodup_maskHeads heads) (fun k _ => SMap.get 0 k c.bandCount) [] h).trans
    (if_pos (mem_maskHeads.mpr ⟨low, member⟩))

theorem Chip.registerLayer_bandCount (h : Nat) : SMap.get 0 h (c.registerLayer num bands heads mirrored).bandCount =
    SMap.get 0 h c.bandCount + (if h < 48 ∧ bit heads h = true then bands else 0) := by
  show SMap.get 0 h (((List.range 48).filter (inMask heads)).foldl (fun (m : SMap Nat) h => SMap.set 0 h (SMap.get 0 h m + bands) m)
    c.bandCount) = _
  rw [SMap.get_foldl_set (nodup_maskHeads heads) (fun _ v => v + bands)]
  simp only [mem_maskHeads]
  split <;> rfl

theorem Chip.registerLayer_next : (c.registerLayer num bands heads mirrored).get Reg.CRN_STATUS_NEXT = b2n (decide (1 ≤ c.layers.length)) := by
  have one : decide (2 ≤ (c.layers ++ [c.newLayer num bands heads mirrored]).length) = decide (1 ≤ c.layers.length) := by
    rw [List.length_append, List.length_singleton]
    exact decide_eq_decide.mpr (by omega)
  rw [← one]
  exact Chip.get_putB_self _ _ _ (by decide)

theorem Chip.onlyRegs_registerLayer :
    { c with layers := (c.registerLayer num bands heads mirrored).layers, bandCount := (c.registerLayer num bands heads mirrored).bandCount
      }.onlyRegs (c.registerLayer num bands heads mirrored) [Reg.CRN_STATUS_NEXT.off] :=
  (Chip.onlyRegs_refl _ _).put Reg.CRN_STATUS_NEXT _ (List.mem_singleton_self _)

end

/-! ### LAYER_CLOSE -/

section
variable {c : Chip} {p n : Nat} {d : List Byte} (front : c.headOp p n 3 = some d)
include front

theorem Chip.closeLayer_open (opened : (c.openLayer? (leField d 0x14 4)).isSome = true) : c.closeLayer p n =
    if c.owns then c.setRing p n { c.ring p n with acted := true } else c.complete p n 2 d (leBytes 4 1) := by
  unfold Chip.closeLayer
  simp only [front, opened, if_true]
  rfl

theorem Chip.closeLayer_unknown (closed : ¬(c.openLayer? (leField d 0x14 4)).isSome = true)
    (unknown : c.recent.find? (fun (x : Nat × Nat) => decide (x.1 = leField d 0x14 4)) = none) :
    c.closeLayer p n = c.faultDesc p n 0x102 := by
  unfold Chip.closeLayer
  simp only [front, closed, unknown, Bool.false_eq_true, if_false]

theorem Chip.closeLayer_completed (closed : ¬(c.openLayer? (leField d 0x14 4)).isSome = true) {e : Nat × Nat}
    (completed : c.recent.find? (fun (x : Nat × Nat) => decide (x.1 = leField d 0x14 4)) = some e) :
    c.closeLayer p n = if c.owns then c.complete p n 0 d (leBytes 4 e.2) else c.complete p n 2 d (leBytes 4 1) := by
  unfold Chip.closeLayer
  simp only [front, closed, completed, Bool.false_eq_true, if_false]
  rfl

theorem Chip.closeDone_completed (gone : ¬(c.layer? (leField d 0x14 4)).isSome = true) {e : Nat × Nat}
    (completed : c.recent.find? (fun (x : Nat × Nat) => decide (x.1 = leField d 0x14 4)) = some e)
    (waiting : (c.ring p n).acted = true) : c.closeDone p n = c.complete p n 0 d (leBytes 4 e.2) := by
  unfold Chip.closeDone
  simp only [front, gone, completed, waiting, Bool.true_eq_false, Bool.false_eq_true, if_false]

/-- Before its layer has completed a LAYER_CLOSE stays as it is. -/
theorem Chip.closeDone_waits (early : (c.layer? (leField d 0x14 4)).isSome = true ∨ (c.ring p n).acted = false) :
    c.closeDone p n = c := by
  unfold Chip.closeDone
  simp only [front]
  rcases early with known | idle
  · simp only [known, if_true]
    split_ifs
    · rfl
    · split <;> rfl
  · simp only [idle, if_true]

end

/-! ### BLOCK -/

/-- A BLOCK of an open layer for a head of it, where REPLACE allows its delivery: its header and payload read, checked and taken
(R98, R123, R442, R530). -/
def Chip.checkedBlock (c : Chip) (p n : Nat) (l : Layer) (d : List Byte) : Option (List Byte) → Option (List Byte) → Chip
  | none, _ => c.faultDesc p n 0x103
  | some h, b =>
    match c.blockFault l d h, b with
    | some code, _ => c.faultDesc p n code
    | none, none => c.faultDesc p n 0x103
    | none, some b =>
      if c.owns = false ∧ descReplace d = false then c.complete p n 2 d notOwner
      else if SMap.get false (slabKey (leField d 0x18 1) (leField d 0x1C 4)) l.delivered = true ∧ descReplace d = false then
        c.complete p n 0 d []
      else (c.acceptBlock l (leField d 0x18 1) (leField d 0x1C 4) h b).completeMirrored p n 0 d [] 5 (h ++ b)

/-- A head of a layer is outside neither the head ports nor its mask. -/
theorem notOutside {heads h : Nat} (low : h < 48) (member : bit heads h = true) : ¬(h ≥ 48 ∨ inMask heads h = false) := by
  rintro (high | other)
  · exact Nat.not_le.mpr low high
  · exact Bool.false_ne_true (other.symm.trans member)

section
variable {c : Chip} {p n : Nat} {d : List Byte} (front : c.headOp p n 2 = some d) (ready : (c.ring p n).acted = false)
include front ready

theorem Chip.blockDesc_closed (closed : c.openLayer? (leField d 0x14 4) = none) (h b : Option (List Byte)) :
    c.blockDesc p n h b = if bit (leField d 1 1) 1 then c.complete p n 0 d [] else c.faultDesc p n 0x102 := by
  unfold Chip.blockDesc
  simp only [front, ready, closed, Bool.false_eq_true, if_false]
  rfl

variable {l : Layer} (opened : c.openLayer? (leField d 0x14 4) = some l)
include opened

theorem Chip.blockDesc_outside (outside : 48 ≤ leField d 0x18 1 ∨ bit l.heads (leField d 0x18 1) = false) (h b : Option (List Byte)) :
    c.blockDesc p n h b = c.faultDesc p n 0x102 := by
  unfold Chip.blockDesc
  simp only [front, ready, opened, Bool.false_eq_true, if_false]
  exact if_pos outside

variable (low : leField d 0x18 1 < 48) (member : bit l.heads (leField d 0x18 1) = true)
include low member

theorem Chip.blockDesc_again (seen : SMap.get false (slabKey (leField d 0x18 1) (leField d 0x1C 4)) l.delivered = true)
    (first : bit (leField d 1 1) 1 = false) (own : l.mirrored = false) (h b : Option (List Byte)) :
    c.blockDesc p n h b = c.faultDesc p n 0x102 := by
  unfold Chip.blockDesc
  simp only [front, ready, opened, Bool.false_eq_true, if_false, if_neg (notOutside low member)]
  exact if_pos ⟨seen, first, own⟩

theorem Chip.blockDesc_checked (allowed : ¬(SMap.get false (slabKey (leField d 0x18 1) (leField d 0x1C 4)) l.delivered = true ∧
    bit (leField d 1 1) 1 = false ∧ l.mirrored = false)) (h b : Option (List Byte)) :
    c.blockDesc p n h b = c.checkedBlock p n l d h b := by
  unfold Chip.blockDesc
  simp only [front, ready, opened, Bool.false_eq_true, if_false, if_neg (notOutside low member)]
  refine (if_neg allowed).trans ?_
  cases h <;> rfl

end

section
variable {c : Chip} (p n : Nat) {l : Layer} {d h : List Byte}

theorem Chip.checkedBlock_faulty {code : Nat} (bad : c.blockFault l d h = some code) (b : Option (List Byte)) :
    c.checkedBlock p n l d (some h) b = c.faultDesc p n code := by
  unfold Chip.checkedBlock
  simp only [bad]

theorem Chip.checkedBlock_unread (good : c.blockFault l d h = none) :
    c.checkedBlock p n l d (some h) none = c.faultDesc p n 0x103 := by
  unfold Chip.checkedBlock
  simp only [good]

variable (good : c.blockFault l d h = none) (b : List Byte)
include good

theorem Chip.checkedBlock_notOwner (other : c.owns = false) (first : bit (leField d 1 1) 1 = false) :
    c.checkedBlock p n l d (some h) (some b) = c.complete p n 2 d (leBytes 4 1) := by
  unfold Chip.checkedBlock
  simp only [good]
  exact if_pos ⟨other, first⟩

theorem Chip.checkedBlock_seen (owner : c.owns = true) (first : bit (leField d 1 1) 1 = false)
    (seen : SMap.get false (slabKey (leField d 0x18 1) (leField d 0x1C 4)) l.delivered = true) :
    c.checkedBlock p n l d (some h) (some b) = c.complete p n 0 d [] := by
  unfold Chip.checkedBlock
  simp only [good, owner, Bool.true_eq_false, false_and, if_false]
  exact if_pos ⟨seen, first⟩

theorem Chip.checkedBlock_taken (answers : c.owns = true ∨ bit (leField d 1 1) 1 = true)
    (takes : SMap.get false (slabKey (leField d 0x18 1) (leField d 0x1C 4)) l.delivered = false ∨ bit (leField d 1 1) 1 = true) :
    c.checkedBlock p n l d (some h) (some b) =
      (c.acceptBlock l (leField d 0x18 1) (leField d 0x1C 4) h b).completeMirrored p n 0 d [] 5 (h ++ b) := by
  have noOwner : ¬(c.owns = false ∧ descReplace d = false) := by
    rintro ⟨other, first⟩
    rcases answers with owner | replace
    · rw [owner] at other; cases other
    · rw [show descReplace d = true from replace] at first; cases first
  have noneSeen : ¬(SMap.get false (slabKey (leField d 0x18 1) (leField d 0x1C 4)) l.delivered = true ∧ descReplace d = false) := by
    rintro ⟨seen, first⟩
    rcases takes with fresh | replace
    · rw [fresh] at seen; cases seen
    · rw [show descReplace d = true from replace] at first; cases first
  unfold Chip.checkedBlock
  simp only [good]
  rw [if_neg noOwner, if_neg noneSeen]

end

/-! ### A block taken (R98, R124) -/

section
variable (c : Chip) (l : Layer) (head slab : Nat) (hdr payload : List Byte)

/-- The job that decompresses a block of a layer. -/
def blockJob : Job :=
  { kind := 1, layer := l.num, head := head, slab := slab, hdr := hdr, payload := payload, area := blockBytes payload.length,
    bandNo := SMap.get 0 head l.firstBand + slab / 8, item := 0 }

theorem Chip.acceptBlock_jobs : (c.acceptBlock l head slab hdr payload).jobs = c.jobs ++ [blockJob l head slab hdr payload] := rfl

theorem Chip.acceptBlock_blockUsed :
    (c.acceptBlock l head slab hdr payload).blockUsed = c.blockUsed + blockBytes payload.length := rfl

theorem Chip.acceptBlock_delivered (found : c.layer? l.num = some l) :
    ∃ l', (c.acceptBlock l head slab hdr payload).layer? l.num = some l' ∧ SMap.get false (slabKey head slab) l'.delivered = true := by
  refine ⟨{ l with delivered := SMap.set false (slabKey head slab) true l.delivered }, ?_,
    SMap.get_set_self false true (slabKey head slab) l.delivered⟩
  exact (Chip.layer?_congr rfl _).trans (Chip.layer?_setLayer found rfl)

theorem Chip.onlyRegs_acceptBlock :
    { c with jobs := (c.acceptBlock l head slab hdr payload).jobs, blockUsed := (c.acceptBlock l head slab hdr payload).blockUsed,
             layers := (c.acceptBlock l head slab hdr payload).layers }.onlyRegs (c.acceptBlock l head slab hdr payload)
      [Reg.CHN_QUEUE_DEC.off] :=
  ((Chip.onlyRegs_refl _ _).put Reg.CHN_QUEUE_DEC _ (List.mem_singleton_self _)).put Reg.CHN_QUEUE_COMP _ (List.mem_singleton_self _)

end

/-- LAYER_OPEN and its retry answer by the checks, the owner and the room for a layer. -/
theorem layerOpen_answers (p : Port) (n : Fin 64) (s : State) {d : List Byte} (front : s.toChip.headOp p.num n.val 1 = some d)
    (ready : (s.toChip.ring p.num n.val).acted = false) {bad : Prop} (checks : s.toChip.openFault d = true ↔ bad)
    {i : Instr} (opens : i ∈ [Instr.layerOpen p n, Instr.layerOpenResume p n]) :
    let c := s.toChip
    (bad → exec i s = .next (s.withChip (c.faultDesc p.num n.val 0x102))) ∧
    (¬bad → c.owns = false → exec i s = .next (s.withChip (c.complete p.num n.val 2 d (leBytes 4 1)))) ∧
    (¬bad → c.owns = true → (2 ≤ c.layers.length ∨ c.flag (Reg.HIF_STATUS_STATE_HELD 0) = true) → exec i s = .next s) ∧
    (¬bad → c.owns = true → c.layers.length < 2 → c.flag (Reg.HIF_STATUS_STATE_HELD 0) = false →
      exec i s = .next (s.withChip ((c.registerLayer (leField d 0x14 4) (leField d 0x18 4) (leField d 0x1C 8) false).completeMirrored
        p.num n.val 0 d [] 5 ((d.drop 0x14).take 16)))) := by
  have runs : exec i s = .next (s.withChip (s.toChip.openLayer p.num n.val)) := by
    rcases List.mem_pair.mp opens with rfl | rfl
    · exact exec_layerOpen p n s
    · exact exec_layerOpenResume p n s
  rw [← checks, runs]
  refine ⟨fun bad => ?_, fun good other => ?_, fun good owner full => ?_, fun good owner room free => ?_⟩
  · rw [Chip.openLayer_faulty front ready bad]
  · rw [Chip.openLayer_notOwner front ready good other]
  · rw [Chip.openLayer_waits front ready good owner full, State.withChip_toChip]
  · rw [Chip.openLayer_registers front ready good owner room free]

/-- LAYER_CLOSE goes by the registered layers and by those that completed most recently. -/
theorem layerClose_answers (p : Port) (n : Fin 64) (s : State) {d : List Byte} (front : s.toChip.headOp p.num n.val 3 = some d) :
    let c := s.toChip
    let num := leField d 0x14 4
    let known := ∃ l ∈ c.layers, l.num = num
    let opening := ∃ w ∈ c.mirrorWait, leField w.desc 0 1 = 1 ∧ leField w.desc 0x14 4 = num
    (known → ¬opening → exec (.layerClose p n) s = .next (s.withChip (if c.owns then
      c.setRing p.num n.val { c.ring p.num n.val with acted := true } else c.complete p.num n.val 2 d (leBytes 4 1)))) ∧
    (¬known ∨ opening → (∀ e ∈ c.recent, e.1 ≠ num) →
      exec (.layerClose p n) s = .next (s.withChip (c.faultDesc p.num n.val 0x102))) ∧
    (¬known ∨ opening → ∀ e, c.recent.find? (fun (x : Nat × Nat) => decide (x.1 = num)) = some e →
      exec (.layerClose p n) s = .next (s.withChip (if c.owns then c.complete p.num n.val 0 d (leBytes 4 e.2)
        else c.complete p.num n.val 2 d (leBytes 4 1)))) ∧
    (¬known → ∀ e, c.recent.find? (fun (x : Nat × Nat) => decide (x.1 = num)) = some e → (c.ring p.num n.val).acted = true →
      exec (.layerCloseComplete p n) s = .next (s.withChip (c.complete p.num n.val 0 d (leBytes 4 e.2)))) ∧
    (known ∨ (c.ring p.num n.val).acted = false → exec (.layerCloseComplete p n) s = .next s) := by
  intro c num known opening
  have closed (h : ¬known ∨ opening) : ¬(c.openLayer? num).isSome = true := fun opened => by
    obtain ⟨isKnown, notOpening⟩ := (c.openLayer?_isSome num).mp opened
    exact h.elim (· isKnown) notOpening
  rw [exec_layerClose, exec_layerCloseComplete]
  refine ⟨fun isKnown notOpening => ?_, fun shut unknown => ?_, fun shut e completed => ?_, fun gone e completed waiting => ?_,
    fun early => ?_⟩
  · rw [Chip.closeLayer_open front ((c.openLayer?_isSome num).mpr ⟨isKnown, notOpening⟩)]
  · rw [Chip.closeLayer_unknown front (closed shut)
      (List.find?_eq_none.mpr fun e m same => unknown e m (of_decide_eq_true same))]
  · rw [Chip.closeLayer_completed front (closed shut) completed]
  · rw [Chip.closeDone_completed front (fun isKnown => gone ((c.layer?_isSome num).mp isKnown)) completed waiting]
  · rw [Chip.closeDone_waits front (early.imp_left (c.layer?_isSome num).mpr), State.withChip_toChip]

/-- Settles O36: each descriptor by the equation of the check that answers it, and what is registered or taken by its own rules. -/
theorem layersAreOpenedFilledAndClosed : Obligations.LayersAreOpenedFilledAndClosed := by
  unfold Obligations.LayersAreOpenedFilledAndClosed
  refine ⟨fun p n s d => ?_, fun p n s d front ready => ?_⟩
  · intro c r num bands heads known opening bad
    refine ⟨fun front ready i opens => ?_, fun front => layerClose_answers p n s front⟩
    obtain ⟨faults, turned, waits, registers⟩ := layerOpen_answers p n s front ready (c.openFault_iff d) opens
    refine ⟨faults, turned, waits, fun good owner room free => ⟨_, registers good owner room free, ?_, ?_, ?_, ?_⟩⟩
    · exact ⟨c.newLayer num bands heads false, c.registerLayer_layers .., rfl, rfl, rfl, rfl, rfl,
        fun h low member => c.newLayer_firstBand num bands heads false low member⟩
    · exact fun h => c.registerLayer_bandCount num bands heads false h
    · exact c.registerLayer_next num bands heads false
    · exact c.onlyRegs_registerLayer num bands heads false
  · intro c head slab replace fault
    refine ⟨fun closed h b => ?_, fun l opened => ⟨fun outside h b => ?_, fun low member => ?_⟩⟩
    · rw [exec_block, Chip.blockDesc_closed front ready closed]
      exact apply_ite (fun e : Chip => Host.Outcome.next (s.withChip e)) (replace = true) _ _
    · rw [exec_block, Chip.blockDesc_outside front ready opened outside]
    · intro seen
      refine ⟨fun again first own h b => ?_, fun allowed => ?_⟩
      · rw [exec_block, Chip.blockDesc_again front ready opened low member again first own]
      · have checked (h b) : exec (.block p n h b) s = .next (s.withChip (c.checkedBlock p.num n.val l d h b)) := by
          rw [exec_block, Chip.blockDesc_checked front ready opened low member allowed]
        have found : c.layer? l.num = some l := by
          have here := Chip.layer?_of_openLayer? opened
          rwa [← Chip.layer?_num here] at here
        simp only [checked]
        refine ⟨fun b => rfl, fun h code b bad => ?_, fun h good => ?_, fun h b good other first => ?_,
          fun h b good owner first again => ?_, fun h b good answers takes => ?_⟩
        · rw [Chip.checkedBlock_faulty _ _ bad]
        · rw [Chip.checkedBlock_unread _ _ good]
        · rw [Chip.checkedBlock_notOwner _ _ good b other first]
        · rw [Chip.checkedBlock_seen _ _ good b owner first again]
        · rw [Chip.checkedBlock_taken _ _ good b answers takes]
          exact ⟨_, blockJob l head slab h b, rfl, c.acceptBlock_jobs .., rfl, rfl, rfl, rfl, rfl, rfl, rfl, c.acceptBlock_blockUsed ..,
            c.acceptBlock_delivered l head slab h b found, c.onlyRegs_acceptBlock l head slab h b⟩

end Sys2Proof.Machine
end

