-- ==== Sys2Proof/Proofs/TableFrames.lean ====
section
/-! PROOF. Proofs/TableFrames.lean: what a change of the nozzle, substitution and grey tables leaves alone: the layers, the armed
run, the shot indices, the heads and every register but those that count staged entries and records (R189, R199, R208). -/

namespace Sys2Proof.Machine

/-- The registers that a change of the tables writes: CRN.NZT_STAGE, SUB_COUNT, MORAINE_STATUS and MORAINE_SEQ. -/
def tableOffs : List Nat := [0x60400, 0x60410, 0x60424, 0x60428]

/-- The cornice is as it was: tables, the ledger, what those show and what events change may differ. -/
structure Chip.keepsCornice (c d : Chip) : Prop where
  layers : d.layers = c.layers
  run : d.run = c.run
  nextIndex : d.nextIndex = c.nextIndex
  accNext : d.accNext = c.accNext
  heads : d.heads = c.heads
  regs : c.keepsAt d (quietOff tableOffs)

section
variable {c d e : Chip}

theorem Chip.keepsCornice_refl (c : Chip) : c.keepsCornice c := ⟨rfl, rfl, rfl, rfl, rfl, Chip.keepsAt_refl c _⟩

theorem Chip.keepsCornice.trans (h : c.keepsCornice d) (k : d.keepsCornice e) : c.keepsCornice e :=
  ⟨k.layers.trans h.layers, k.run.trans h.run, k.nextIndex.trans h.nextIndex, k.accNext.trans h.accNext, k.heads.trans h.heads,
    h.regs.trans k.regs⟩

theorem Chip.keepsCornice.put (h : c.keepsCornice d) (g : Field) (v : Nat) (m : g.off ∈ tableOffs := by decide)
    (l : g.lo < 32 := by decide) : c.keepsCornice (d.put g v) :=
  ⟨h.layers, h.run, h.nextIndex, h.accNext, h.heads, h.regs.putIn g v m l⟩

theorem Chip.keepsCornice.raise (h : c.keepsCornice d) {src : Nat} (cause : Nat) (items : List (Nat × Nat)) (hs : src < 256 := by decide) :
    c.keepsCornice (d.raise src cause items) := by
  have same := Chip.raise_rest d src cause items
  refine h.trans ⟨?_, ?_, ?_, ?_, ?_, (Chip.keepsAt_refl d _).raiseQuiet hs cause items⟩ <;> rw [same]

theorem Chip.keepsCornice.congr (h : c.keepsCornice d) (layers : e.layers = d.layers := by rfl) (run : e.run = d.run := by rfl)
    (nextIndex : e.nextIndex = d.nextIndex := by rfl) (accNext : e.accNext = d.accNext := by rfl)
    (heads : e.heads = d.heads := by rfl) (regs : e.regs = d.regs := by rfl) : c.keepsCornice e :=
  h.trans ⟨layers, run, nextIndex, accNext, heads, (Chip.keepsAt_refl d _).of_regs regs⟩

theorem Chip.keepsCornice_foldl {α : Type} {g : Chip → α → Chip} (step : ∀ (d : Chip) x, d.keepsCornice (g d x)) (l : List α) (c : Chip) :
    c.keepsCornice (l.foldl g c) := by
  induction l generalizing c with
  | nil => exact Chip.keepsCornice_refl c
  | cons a l ih => exact (step c a).trans (ih _)

/-- A register outside the tables' and outside the event block reads as before. -/
theorem Chip.keepsCornice.get (h : c.keepsCornice d) {f : Field} (l : f.lo < 32) (quiet : f.off < 0x20000 ∨ 0x22000 ≤ f.off)
    (n : f.off ∉ tableOffs) : d.get f = c.get f := h.regs f l ⟨quiet, n⟩

end

/-! ### The ledger and the tables -/

theorem Chip.keepsCornice_record (c : Chip) (type source layer band object detail : Nat) :
    c.keepsCornice (c.record type source layer band object detail) := by
  have entered (l : List (List Byte)) (n m : Nat) : c.keepsCornice
      (({ c with ledgerPend := l }.put Reg.CRN_MORAINE_SEQ_NEXT n).put Reg.CRN_MORAINE_STATUS_UNWRITTEN m) :=
    ((Chip.keepsCornice_refl c).congr.put _ _).put _ _
  unfold Chip.record
  dsimp only
  split
  · exact entered ..
  · exact ((entered ..).congr.put _ _).raise ..

theorem Chip.keepsCornice_stateRecords (c : Chip) (row old new source layer band : Nat) :
    c.keepsCornice (c.stateRecords row old new source layer band) := by
  unfold Chip.stateRecords
  extract_lets hd n c1 sb c2
  have retired : c.keepsCornice c1 := c.keepsCornice_record ..
  have replaced : c.keepsCornice c2 := by
    unfold c2
    split
    · exact retired.trans (Chip.keepsCornice_record ..)
    · exact retired
  split_ifs
  · exact replaced.raise ..
  · exact c.keepsCornice_record ..
  · exact Chip.keepsCornice_refl c

theorem Chip.keepsCornice_forceNzt (c : Chip) (row value source layer band : Nat) (f : Ver → Ver) :
    c.keepsCornice (c.forceNzt row value source layer band f) := by
  unfold Chip.forceNzt Chip.clearRuns
  extract_lets v new
  refine Chip.keepsCornice.trans ?_ (Chip.keepsCornice_stateRecords ..)
  split
  · exact (Chip.keepsCornice_refl c).congr
  · exact (Chip.keepsCornice_refl c).congr

theorem Chip.keepsCornice_showStage (c : Chip) : c.keepsCornice c.showStage :=
  ((((Chip.keepsCornice_refl c).put _ _).put _ _).put _ _).put _ _

/-- What an arming brings into force changes tables alone (R197, R199). -/
theorem Chip.keepsCornice_applyArming (c : Chip) (layer : Nat) : c.keepsCornice (c.applyArming layer) := by
  unfold Chip.applyArming
  extract_lets deferred c1 subs c2 rows c3
  have states : c.keepsCornice c1 := Chip.keepsCornice_foldl (fun d row => by
    split
    · exact d.keepsCornice_forceNzt ..
    · exact Chip.keepsCornice_refl d) _ _
  have served : c1.keepsCornice c2 := Chip.keepsCornice_foldl (fun d k => by
    split
    · exact (Chip.keepsCornice_refl d).congr
    · exact Chip.keepsCornice_refl d) _ _
  have entries : c2.keepsCornice c3 := Chip.keepsCornice_foldl (fun d row => by
    split
    · exact d.keepsCornice_forceNzt ..
    · exact Chip.keepsCornice_refl d) _ _
  exact ((states.trans served).trans entries).trans c3.keepsCornice_showStage

/-- A band entered changes tables alone (R198). -/
theorem Chip.keepsCornice_applyBand (c : Chip) (h b : Nat) : c.keepsCornice (c.applyBand h b) := by
  unfold Chip.applyBand
  extract_lets lo rows c1 c2
  have entries : c.keepsCornice c1 := Chip.keepsCornice_foldl (fun d row => by
    split
    · exact d.keepsCornice_forceNzt ..
    · exact Chip.keepsCornice_refl d) _ _
  have greys : c1.keepsCornice c2 := Chip.keepsCornice_foldl (fun d t => by
    dsimp only
    split
    · split
      · exact (Chip.keepsCornice_refl d).congr
      · exact Chip.keepsCornice_refl d
    · exact Chip.keepsCornice_refl d) _ _
  exact (entries.trans greys).trans c2.keepsCornice_showStage

/-! ### The runs of the heads -/

/-- A head's run just replaced, while a layer is armed, is the one read; every other head's is as before. -/
theorem Chip.headRun_setHead {c : Chip} (armed : c.run.isSome = true) (h g : Nat) (x : HeadRun) :
    (c.setHead h x).headRun g = if g = h then x else c.headRun g := by
  obtain ⟨r, hr⟩ := Option.isSome_iff_exists.mp armed
  unfold Chip.setHead Chip.headRun
  rw [hr]
  dsimp only
  split
  · next same => rw [same, SMap.get_set_self]
  · next other => exact SMap.get_set_ne _ _ _ other _

/-- A head's run replaced by one that agrees in something with it: every head's agrees in that. -/
theorem Chip.headRun_setHead_of {c : Chip} {P : Nat → HeadRun → Prop} {h g : Nat} {x : HeadRun} (own : P h (c.headRun h) → P h x)
    (holds : P g (c.headRun g)) : P g ((c.setHead h x).headRun g) := by
  by_cases armed : c.run.isSome = true
  · rw [Chip.headRun_setHead armed]
    split
    · next same =>
      subst same
      exact own holds
    · exact holds
  · have same : c.setHead h x = c := by
      unfold Chip.setHead
      rw [Option.not_isSome_iff_eq_none.mp armed]
    rw [same]
    exact holds

theorem Chip.setHead_regs (c : Chip) (h : Nat) (x : HeadRun) : (c.setHead h x).regs = c.regs := by
  unfold Chip.setHead
  split <;> rfl

theorem Chip.get_setHead (c : Chip) (h : Nat) (x : HeadRun) (f : Field) : (c.setHead h x).get f = c.get f :=
  Chip.get_congr (c.setHead_regs h x) f

theorem Chip.setHead_isSome (c : Chip) (h : Nat) (x : HeadRun) : (c.setHead h x).run.isSome = c.run.isSome := by
  unfold Chip.setHead
  split
  · next armed => rw [armed]; rfl
  · rfl

theorem Chip.setHead_nextIndex (c : Chip) (h : Nat) (x : HeadRun) : (c.setHead h x).nextIndex = c.nextIndex := by
  unfold Chip.setHead
  split <;> rfl

theorem Chip.headRun_congr {c d : Chip} (h : d.run = c.run) (g : Nat) : d.headRun g = c.headRun g := by
  unfold Chip.headRun
  rw [h]

end Sys2Proof.Machine
end

