-- ==== Sys2Proof/Proofs/ShotsIssued.lean ====
section
/-! PROOF. Proofs/ShotsIssued.lean: SHOT_ISSUE (R144, R145, R156 to R159, R436): the reads and the forming of a line leave every
head's shots and indices alone, and what then becomes of the line. -/

namespace Sys2Proof.Machine

/-! ### What the forming of a line leaves -/

/-- The shots and the next line of every head, the shot indices and the count of skipped lines are as they were, and a layer is
armed as before. -/
structure Chip.keepsShots (c d : Chip) : Prop where
  nextIndex : d.nextIndex = c.nextIndex
  armed : d.run.isSome = c.run.isSome
  lines : ∀ g, (d.headRun g).shots = (c.headRun g).shots ∧ (d.headRun g).next = (c.headRun g).next
  skipped : d.get Reg.CRN_SKIPPED_COUNT = c.get Reg.CRN_SKIPPED_COUNT

section
variable {c d e : Chip}

theorem Chip.keepsShots_refl (c : Chip) : c.keepsShots c := ⟨rfl, rfl, fun _ => ⟨rfl, rfl⟩, rfl⟩

theorem Chip.keepsShots.trans (h : c.keepsShots d) (k : d.keepsShots e) : c.keepsShots e :=
  ⟨k.nextIndex.trans h.nextIndex, k.armed.trans h.armed,
    fun g => ⟨(k.lines g).1.trans (h.lines g).1, (k.lines g).2.trans (h.lines g).2⟩, k.skipped.trans h.skipped⟩

theorem Chip.keepsCornice.keepsShots (h : c.keepsCornice d) : c.keepsShots d :=
  ⟨h.nextIndex, by rw [h.run], fun g => by simp only [Chip.headRun_congr h.run, and_self], h.get (by decide) (by decide) (by decide)⟩

theorem Chip.keepsShots.put (h : c.keepsShots d) (g : Field) (v : Nat) (n : Reg.CRN_SKIPPED_COUNT.key ≠ g.key := by decide) :
    c.keepsShots (d.put g v) :=
  ⟨h.nextIndex, h.armed, h.lines, (Chip.get_put_ne _ _ _ _ n).trans h.skipped⟩

theorem Chip.keepsShots.raise (h : c.keepsShots d) {src : Nat} (cause : Nat) (items : List (Nat × Nat)) (hs : src < 256 := by decide) :
    c.keepsShots (d.raise src cause items) :=
  h.trans ((Chip.keepsCornice_refl d).raise cause items hs).keepsShots

theorem Chip.keepsShots.congr (h : c.keepsShots d) (nextIndex : e.nextIndex = d.nextIndex := by rfl) (run : e.run = d.run := by rfl)
    (regs : e.regs = d.regs := by rfl) : c.keepsShots e :=
  h.trans ⟨nextIndex, by rw [run], fun g => by simp only [Chip.headRun_congr run, and_self], Chip.get_congr regs _⟩

/-- A head's run replaced by one with the same shots and the same next line. -/
theorem Chip.keepsShots.setHead (h : c.keepsShots d) (q : Nat) {x : HeadRun}
    (same : x.shots = (d.headRun q).shots ∧ x.next = (d.headRun q).next) : c.keepsShots (d.setHead q x) := by
  refine h.trans ⟨?_, d.setHead_isSome q x, fun g => ?_, d.get_setHead q x _⟩
  · unfold Chip.setHead
    split <;> rfl
  · exact Chip.headRun_setHead_of (P := fun k y => y.shots = (d.headRun k).shots ∧ y.next = (d.headRun k).next) (fun _ => same) ⟨rfl, rfl⟩

/-- The armed run changed, but for the runs of its heads. -/
theorem Chip.keepsShots.onRun (h : c.keepsShots d) {f : Run → Run} (same : ∀ r, (f r).heads = r.heads) : c.keepsShots (d.onRun f) := by
  have run (g : Nat) : (d.onRun f).headRun g = d.headRun g := by
    unfold Chip.onRun Chip.headRun
    cases d.run with
    | none => rfl
    | some r => simp only [Option.map_some, same]
  exact h.trans ⟨rfl, Option.isSome_map, fun g => by simp only [run, and_self], rfl⟩

theorem Chip.keepsShots_foldl {α : Type} {g : Chip → α → Chip} (step : ∀ (d : Chip) x, d.keepsShots (g d x)) (l : List α) (c : Chip) :
    c.keepsShots (l.foldl g c) := by
  induction l generalizing c with
  | nil => exact Chip.keepsShots_refl c
  | cons a l ih => exact (step c a).trans (ih _)

end

/-! ### Records to the partner, and the crevasse map (R171, R172, R432) -/

theorem Chip.keepsShots_tandemOut (c : Chip) (type : Nat) (bytes : List Byte) : c.keepsShots (c.tandemOut type bytes) := by
  unfold Chip.tandemOut
  extract_lets bond sent
  split
  · exact Chip.keepsShots_refl c
  · exact (Chip.keepsShots_refl c).congr

theorem Chip.keepsShots.setTdm {c d : Chip} (h : c.keepsShots d) (t : Tandem) : c.keepsShots (d.setTdm t) := h.congr

theorem Chip.keepsShots_sendFrame (c : Chip) (type records : Nat) (body : List Byte) :
    c.keepsShots (c.sendFrame type records body) := by
  unfold Chip.sendFrame
  extract_lets q bytes c1 c2
  have out : c.keepsShots c1 := c.keepsShots_tandemOut type bytes
  clear_value c1
  have counted : c.keepsShots c2 := out.congr
  clear_value c2
  exact ((counted.setTdm _).put Reg.TDM_MIRROR_WAIT_ITEMS _).put Reg.TDM_MIRROR_WAIT_RECORDS _

theorem Chip.keepsShots_logFire (c : Chip) (kind h cause : Nat) (line : Int) (n : Nat) :
    c.keepsShots (c.logFire kind h cause line n) := by
  unfold Chip.logFire Chip.sendLog
  split
  · exact (c.keepsShots_sendFrame 3 1 _).setTdm _
  · exact Chip.keepsShots_refl c

theorem Chip.keepsShots_enterMap (c : Chip) (h cause firstGroup groups : Nat) (first : Int) (count : Nat) :
    c.keepsShots (c.enterMap h cause firstGroup groups first count) := by
  unfold Chip.enterMap
  split
  · exact Chip.keepsShots_refl c
  · extract_lets firstEver joins c1 c2 full c3 c4
    have logged : c.keepsShots c2 := ((Chip.keepsShots_refl c).put _ _).trans (Chip.keepsShots_logFire ..)
    split_ifs
    · exact logged.onRun fun _ => rfl
    · exact logged.onRun fun _ => rfl
    all_goals
      have entered : c.keepsShots c3 := logged.onRun fun _ => rfl
      have told : c.keepsShots c4 := by
        unfold c4
        split
        · exact entered.raise 0 []
        · exact entered
    · exact (told.put _ _).raise 0 []
    · exact told

/-- A line skipped or entered changes the crevasse map and the lines entered of its head. -/
theorem Chip.keepsShots_enterLines (c : Chip) (h cause : Nat) (first : Int) (count : Nat) :
    c.keepsShots (c.enterLines h cause first count) := by
  unfold Chip.enterLines
  split
  · exact Chip.keepsShots_refl c
  · exact ((Chip.keepsShots_refl c).setHead h (by exact ⟨rfl, rfl⟩)).trans (Chip.keepsShots_enterMap ..)

/-! ### The reads of a line (R160, R190 to R192, R198) -/

theorem Chip.keepsShots_skipBands (c : Chip) (h : Nat) (r : Int) (count : Nat) : c.keepsShots (c.skipBands h r count) :=
  Chip.keepsShots_foldl (fun d _ => (Chip.keepsShots_refl d).setHead _ (by exact ⟨rfl, rfl⟩)) _ _

theorem Chip.keepsShots_readSlab (c : Chip) (h slab : Nat) : c.keepsShots (c.readSlab h slab) := by
  unfold Chip.readSlab
  split
  · exact Chip.keepsShots_refl c
  · extract_lets x l' c1 c2
    split_ifs
    · exact Chip.keepsShots_refl c
    · exact (Chip.keepsShots_refl c).congr
    · have missed : c.keepsShots c1 := (Chip.keepsShots_refl c).congr.trans (Chip.keepsShots_skipBands ..)
      exact ((missed.trans (Chip.keepsShots_enterMap ..)).raise 0 _).raise 8 _

theorem Chip.keepsShots_poisonUnit (c : Chip) (h : Nat) (r : Int) (u : Nat) : c.keepsShots (c.poisonUnit h r u) := by
  unfold Chip.poisonUnit
  split
  · exact Chip.keepsShots_refl c
  · extract_lets s x k c1
    split
    · have told : c.keepsShots c1 := (Chip.keepsShots_refl c).congr
      exact ((told.trans (Chip.keepsShots_skipBands ..)).trans (Chip.keepsShots_enterMap ..)).raise 9 _
    · exact Chip.keepsShots_refl c

theorem Chip.keepsShots_readUnit (c : Chip) (h : Nat) (r : Int) (u : Nat) : c.keepsShots (c.readUnit h r u) := by
  unfold Chip.readUnit
  split
  · exact Chip.keepsShots_refl c
  · exact (c.keepsShots_readSlab ..).trans (Chip.keepsShots_poisonUnit ..)

theorem Chip.keepsShots_enterBands (c : Chip) (h : Nat) (r : Int) : c.keepsShots (c.enterBands h r) := by
  unfold Chip.enterBands
  split
  · exact Chip.keepsShots_refl c
  · refine Chip.keepsShots_foldl (fun d i => ?_) _ _
    exact ((Chip.keepsShots_refl d).setHead h (by exact ⟨rfl, rfl⟩)).trans (Chip.keepsCornice_applyBand ..).keepsShots

theorem Chip.keepsShots_lostDrops (c : Chip) (h : Nat) (f : Int) : c.keepsShots (c.lostDrops h f) := by
  refine Chip.keepsShots_foldl (fun d q => ?_) _ _
  have same := Chip.keepsShots_refl d
  dsimp only
  split
  · exact same
  · split
    · exact same
    · exact same.congr.raise 0 _

theorem Chip.keepsShots_crcLine (c : Chip) (h : Nat) (f : Int) (codes : List Nat) : c.keepsShots (c.crcLine h f codes) := by
  have same := Chip.keepsShots_refl c
  unfold Chip.crcLine
  dsimp only
  split_ifs
  · exact same
  all_goals exact same.setHead h (by exact ⟨rfl, rfl⟩)

/-- A line formed leaves every head's shots as they were. -/
theorem Chip.keepsShots_formLine (c : Chip) (h : Nat) (f : Int) : c.keepsShots (c.formLine h f).1 := by
  unfold Chip.formLine
  extract_lets own served c1 c2 c3 c4 codes
  have entered : c.keepsShots c1 := Chip.keepsShots_foldl (fun d r => d.keepsShots_enterBands h r) _ _
  have ownRead : c.keepsShots c2 := entered.trans (Chip.keepsShots_foldl (fun d r => d.keepsShots_readUnit ..) _ _)
  have servedRead : c.keepsShots c3 := ownRead.trans (Chip.keepsShots_foldl (fun d q => d.keepsShots_readUnit ..) _ _)
  have lost : c.keepsShots c4 := (servedRead.trans (c3.keepsShots_lostDrops h f)).trans
    (Chip.keepsShots_foldl (fun d g => d.keepsShots_lostDrops ..) _ _)
  exact lost.trans (Chip.keepsShots_crcLine ..)

/-! ### A head shown (R166) -/

theorem Chip.markIdle_run (c : Chip) (h : Nat) : (c.markIdle h).run = c.run := by
  unfold Chip.markIdle
  dsimp only
  split_ifs <;> rfl

theorem Chip.markIdle_regs (c : Chip) (h : Nat) : (c.markIdle h).regs = c.regs := by
  unfold Chip.markIdle
  dsimp only
  split_ifs <;> rfl

theorem Chip.markIdle_nextIndex (c : Chip) (h : Nat) : (c.markIdle h).nextIndex = c.nextIndex := by
  unfold Chip.markIdle
  dsimp only
  split_ifs <;> rfl

theorem Chip.showHead_run (c : Chip) (h : Nat) : (c.showHead h).run = c.run := c.markIdle_run h

theorem Chip.showHead_nextIndex (c : Chip) (h : Nat) : (c.showHead h).nextIndex = c.nextIndex := c.markIdle_nextIndex h

/-- Showing a head writes OUT, AWAIT and PENDING of its state register, and its high-water mark. -/
theorem Chip.get_showHead (c : Chip) (h : Nat) {f : Field} (out : f.key ≠ (Reg.CRN_HEAD_STATE_OUT h).key)
    (wait : f.key ≠ (Reg.CRN_HEAD_STATE_AWAIT h).key) (pending : f.key ≠ (Reg.CRN_HEAD_STATE_PENDING h).key)
    (mark : f.key ≠ (Reg.CRN_HEAD_HWM_LINE h).key) : (c.showHead h).get f = c.get f := by
  unfold Chip.showHead
  dsimp only
  exact (Chip.get_put_ne _ _ _ _ mark).trans <| (Chip.get_put_ne _ _ _ _ pending).trans <| (Chip.get_putB_ne _ _ _ _ wait).trans <|
    (Chip.get_putB_ne _ _ _ _ out).trans <| Chip.get_congr (c.markIdle_regs h) f

theorem Chip.showHead_state (c : Chip) (h : Nat) : (c.showHead h).get Reg.CRN_STATUS_STATE = c.get Reg.CRN_STATUS_STATE := by
  refine c.get_showHead h ?_ ?_ ?_ ?_
  · show 0x60004 * 32 + 0 ≠ (0x6010c + 0x10 * h) * 32 + 1
    omega
  · show 0x60004 * 32 + 0 ≠ (0x6010c + 0x10 * h) * 32 + 2
    omega
  · show 0x60004 * 32 + 0 ≠ (0x6010c + 0x10 * h) * 32 + 8
    omega
  · show 0x60004 * 32 + 0 ≠ (0x60104 + 0x10 * h) * 32 + 0
    omega

/-! ### The rows a line's reads open (R396) -/

/-- Rows opened change the banks and what is put out. -/
theorem Chip.opensRows_touchLine (c : Chip) (h : Nat) (r : Int) (u : Nat) : c.opensRows (c.touchLine h r u) := by
  unfold Chip.touchLine
  split
  · split
    · exact Chip.opensRows_refl c
    · exact c.opensRows_touch _
  · exact Chip.opensRows_refl c

theorem Chip.opensRows_foldl {α : Type} {g : Chip → α → Chip} (step : ∀ (d : Chip) x, d.opensRows (g d x)) (l : List α) (c : Chip) :
    c.opensRows (l.foldl g c) := by
  induction l generalizing c with
  | nil => exact Chip.opensRows_refl c
  | cons a l ih => exact (step c a).trans (ih _)

/-! ### One line tried (R156 to R159) -/

section
variable {c : Chip} {h : Nat}

/-- Nothing is issued where the conditions of R157 do not hold, or no line of the span is left. -/
theorem Chip.shotIssue_held (stays : c.mayIssue h = false ∨ c.spanEnd h ≤ c.nextLine h) (z : Option NztError) (e : Option DramError) :
    c.shotIssue h z e = c := by
  unfold Chip.shotIssue
  split
  · rfl
  · rw [if_pos stays]

theorem Chip.shotIssue_unpredicted (beyond : c.predictAhead h (c.nextLine h) = none) (z : Option NztError) (e : Option DramError) :
    c.shotIssue h z e = c := by
  unfold Chip.shotIssue
  rw [beyond]

variable {p : Int} (may : c.mayIssue h = true) (left : c.nextLine h < c.spanEnd h) (ahead : c.predictAhead h (c.nextLine h) = some p)
include may left ahead

/-- The line's reads open rows, and then it is tried; a line that comes too close is not read (R159). -/
theorem Chip.shotIssue_reads (packs : ¬(c.owns = true ∧ c.tooClose h p = true)) :
    ∃ d, c.opensRows d ∧ c.shotIssue h none none = d.issueLine h := by
  unfold Chip.shotIssue
  rw [ahead]
  dsimp only
  rw [if_neg (by simp [may, left]), if_neg packs]
  exact ⟨_, (Chip.opensRows_foldl (fun d r => d.opensRows_touchLine ..) _ _).trans
    (Chip.opensRows_foldl (fun d q => d.opensRows_touchLine ..) _ _), rfl⟩

theorem Chip.shotIssue_close (owner : c.owns = true) (close : c.tooClose h p = true) :
    c.shotIssue h none none = c.issueLine h := by
  unfold Chip.shotIssue
  rw [ahead]
  dsimp only
  rw [if_neg (by simp [may, left]), if_pos ⟨owner, close⟩]

theorem Chip.issueLine_eq : c.issueLine h =
    if c.owns = false then
      ((c.formLine h (c.nextLine h)).1.setHead h { (c.formLine h (c.nextLine h)).1.headRun h with next := c.nextLine h + 1 }).put
        Reg.CRN_STATUS_STATE 2
    else if c.tooClose h p then c.overspeed h (c.nextLine h) else c.packShot h (c.nextLine h) p := by
  have owner : c.owns = false ↔ c.get Reg.TDM_STATUS_OWNS = 0 := by
    unfold Chip.owns Chip.flag
    simp
  unfold Chip.issueLine
  simp only [may, Bool.not_true, Bool.false_eq_true, false_or, ahead, owner, if_neg (Int.not_le.mpr left)]

end

/-- What opens rows leaves every line to be tried as it was. -/
theorem Chip.opensRows.line {c d : Chip} (o : c.opensRows d) (h : Nat) : d.nextLine h = c.nextLine h ∧ d.mayIssue h = c.mayIssue h ∧
    d.spanEnd h = c.spanEnd h ∧ d.owns = c.owns ∧ (∀ f, d.predictAhead h f = c.predictAhead h f) ∧ (∀ p, d.tooClose h p = c.tooClose h p) ∧
    c.keepsShots d := by
  rw [o.1]
  exact ⟨rfl, rfl, rfl, rfl, fun _ => rfl, fun _ => rfl, (Chip.keepsShots_refl c).congr⟩

/-- A layer is armed where a head's line may be tried. -/
theorem Chip.armed_of_mayIssue {c : Chip} {h : Nat} (may : c.mayIssue h = true) : c.run.isSome = true := by
  by_contra idle
  have none : c.armed = none := if_neg idle
  have out : c.inArmed h = false := by
    unfold Chip.inArmed
    rw [none]
  unfold Chip.mayIssue at may
  simp [out] at may

/-- Whether a line comes too close to the one before (R159). -/
theorem Chip.tooClose_iff (c : Chip) (h : Nat) (p : Int) : c.tooClose h p = true ↔
    ∃ t, c.tPrev h = some t ∧ wrapDiff (BitVec.ofInt 64 p) t < 65536 * (c.get Reg.CRN_PMIN_NS : Int) := by
  unfold Chip.tooClose
  cases c.tPrev h <;> simp

/-! ### What becomes of a line -/

section
variable {c : Chip} {h : Nat} (armed : c.run.isSome = true) (f p : Int)
include armed

/-- The line's head as it is left: its shots and its next line are those given, another head's are kept. -/
theorem Chip.headRun_formLine (x : HeadRun) : ((c.formLine h f).1.setHead h x).headRun h = x ∧
    ∀ g, g ≠ h → (((c.formLine h f).1.setHead h x).headRun g).shots = (c.headRun g).shots := by
  have formed := c.keepsShots_formLine h f
  have run (g : Nat) := Chip.headRun_setHead (formed.armed.trans armed) h g x
  refine ⟨(run h).trans (if_pos rfl), fun g other => ?_⟩
  rw [run g, if_neg other]
  exact (formed.lines g).1

/-- A standby forms the line alone (R436). -/
theorem Chip.lineFormed_shows {d : Chip} (forms : d = ((c.formLine h f).1.setHead h { (c.formLine h f).1.headRun h with next := f + 1 }).put
      Reg.CRN_STATUS_STATE 2) :
    (d.headRun h).next = f + 1 ∧ (d.headRun h).shots = (c.headRun h).shots ∧ d.get Reg.CRN_STATUS_STATE = 2 ∧ d.nextIndex = c.nextIndex := by
  subst forms
  have formed := c.keepsShots_formLine h f
  obtain ⟨own, -⟩ := Chip.headRun_formLine (h := h) armed f { (c.formLine h f).1.headRun h with next := f + 1 }
  refine ⟨congrArg HeadRun.next own, (congrArg HeadRun.shots own).trans (formed.lines h).1, Chip.get_put_self .., ?_⟩
  exact (Chip.setHead_nextIndex ..).trans formed.nextIndex

/-- A shot issued takes the next index of its head and the predicted crossing as its tag (R144, R145, R157). -/
theorem Chip.packShot_shows : ∃ x : Shot,
    ((c.packShot h f p).headRun h).shots = (c.headRun h).shots ++ [x] ∧ x.index = SMap.get 0 h c.nextIndex ∧ x.line = f ∧
    x.tag = BitVec.ofInt 64 p ∧ x.sent = false ∧ ((c.packShot h f p).headRun h).next = f + 1 ∧
    (c.packShot h f p).get Reg.CRN_STATUS_STATE = 2 ∧ SMap.get 0 h (c.packShot h f p).nextIndex = (x.index + 1) % 2 ^ 32 ∧
    (∀ g, g ≠ h → SMap.get 0 g (c.packShot h f p).nextIndex = SMap.get 0 g c.nextIndex ∧
      ((c.packShot h f p).headRun g).shots = (c.headRun g).shots) := by
  have formed := c.keepsShots_formLine h f
  unfold Chip.packShot
  extract_lets r c1 i ws s x c2 c3
  obtain ⟨own, others⟩ := Chip.headRun_formLine (h := h) armed f { x with shots := x.shots ++ [s], next := f + 1, overRun := false }
  have index : i = SMap.get 0 h c.nextIndex := by rw [← formed.nextIndex]
  have shown (g : Nat) : ((c3.put Reg.CRN_STATUS_STATE 2).showHead h).headRun g = c2.headRun g :=
    Chip.headRun_congr (Chip.showHead_run ..) g
  have counted : ((c3.put Reg.CRN_STATUS_STATE 2).showHead h).nextIndex = SMap.set 0 h ((i + 1) % 2 ^ 32) c.nextIndex := by
    rw [Chip.showHead_nextIndex, ← formed.nextIndex]
    exact congrArg (SMap.set 0 h ((i + 1) % 2 ^ 32)) (Chip.setHead_nextIndex ..)
  refine ⟨s, ?_, index, rfl, rfl, rfl, ?_, ?_, ?_, fun g other => ⟨?_, ?_⟩⟩
  · rw [shown, own, ← (formed.lines h).1]
  · rw [shown, own]
  · rw [Chip.showHead_state, Chip.get_put_self]
    rfl
  · rw [counted, SMap.get_set_self]
  · rw [counted, SMap.get_set_ne _ _ _ other]
  · rw [shown]
    exact others g other

/-- A line skipped for OVERSPEED is counted, and the head goes on after it (R159). -/
theorem Chip.overspeed_skips : ∃ e : Chip, c.overspeed h f = e.tryComplete ∧ (e.headRun h).next = f + 1 ∧
    (e.headRun h).shots = (c.headRun h).shots ∧
    e.get Reg.CRN_SKIPPED_COUNT = min (c.get Reg.CRN_SKIPPED_COUNT + 1) (2 ^ Reg.CRN_SKIPPED_COUNT.width - 1) := by
  have formed := c.keepsShots_formLine h f
  unfold Chip.overspeed Chip.skipLine
  extract_lets c1 x c2 y c3 c4
  have told : c.keepsShots c2 := by
    unfold c2 Chip.raiseIf
    split
    · exact formed.raise 0 _
    · exact formed
  have own : c3.headRun h = { c2.headRun h with overRun := true, next := f + 1 } :=
    (Chip.headRun_setHead (told.armed.trans armed) h h _).trans (if_pos rfl)
  have left : (c3.bump Reg.CRN_SKIPPED_COUNT 1).keepsShots (c4.enterLines h 1 f 1) :=
    ((Chip.keepsShots_refl _).onRun (by exact fun _ => rfl)).trans (Chip.keepsShots_enterLines ..)
  have run : (c3.bump Reg.CRN_SKIPPED_COUNT 1).headRun h = c3.headRun h := rfl
  obtain ⟨shots, next⟩ := left.lines h
  rw [run, own] at shots next
  refine ⟨_, rfl, next, shots.trans (told.lines h).1, left.skipped.trans ?_⟩
  rw [Chip.get_bump_self, Chip.get_setHead, told.skipped]

end

/-- What SHOT_ISSUE does with the next line of a head, by the conditions of R157, the prediction and the owner. -/
theorem shotIssue_rule (h : Fin 48) (s : State) :
    let c := s.toChip
    let f := c.nextLine h.val
    let early := ∃ t, c.tPrev h.val = some t ∧ ∃ p, c.predictAhead h.val f = some p ∧
      wrapDiff (BitVec.ofInt 64 p) t < 65536 * (c.get Reg.CRN_PMIN_NS : Int)
    ∀ p, c.mayIssue h.val = true → f < c.spanEnd h.val → c.predictAhead h.val f = some p →
      (c.owns = false → ∃ d, exec (.shotIssue h none none) s = .next (s.withChip d) ∧ (d.headRun h.val).next = f + 1 ∧
        (d.headRun h.val).shots = (c.headRun h.val).shots ∧ d.get Reg.CRN_STATUS_STATE = 2 ∧ d.nextIndex = c.nextIndex) ∧
      (c.owns = true → ¬early → ∃ (d : Chip) (x : Shot), exec (.shotIssue h none none) s = .next (s.withChip d) ∧
        (d.headRun h.val).shots = (c.headRun h.val).shots ++ [x] ∧ x.index = SMap.get 0 h.val c.nextIndex ∧ x.line = f ∧
        x.tag = BitVec.ofInt 64 p ∧ x.sent = false ∧ (d.headRun h.val).next = f + 1 ∧ d.get Reg.CRN_STATUS_STATE = 2 ∧
        SMap.get 0 h.val d.nextIndex = (x.index + 1) % 2 ^ 32 ∧
        (∀ g, g ≠ h.val → SMap.get 0 g d.nextIndex = SMap.get 0 g c.nextIndex ∧ (d.headRun g).shots = (c.headRun g).shots)) ∧
      (c.owns = true → early → ∃ e : Chip, exec (.shotIssue h none none) s = .next (s.withChip e.tryComplete) ∧
        (e.headRun h.val).next = f + 1 ∧ (e.headRun h.val).shots = (c.headRun h.val).shots ∧
        e.get Reg.CRN_SKIPPED_COUNT = min (c.get Reg.CRN_SKIPPED_COUNT + 1) (2 ^ Reg.CRN_SKIPPED_COUNT.width - 1)) := by
  intro c f early p may left ahead
  have runs : exec (.shotIssue h none none) s = .next (s.withChip (c.shotIssue h.val none none)) := rfl
  have close : c.tooClose h.val p = true ↔ early := by
    rw [Chip.tooClose_iff]
    refine exists_congr fun t => and_congr_right fun _ => ⟨fun near => ⟨p, ahead, near⟩, ?_⟩
    rintro ⟨q, same, near⟩
    rwa [Option.some.inj (ahead.symm.trans same)]
  -- The line is read, and then tried by the rules of the chip with the rows open.
  have reads (packs : ¬(c.owns = true ∧ c.tooClose h.val p = true)) :
      ∃ d, c.opensRows d ∧ d.run.isSome = true ∧ c.shotIssue h.val none none = if c.owns = false then
        ((d.formLine h.val f).1.setHead h.val { (d.formLine h.val f).1.headRun h.val with next := f + 1 }).put Reg.CRN_STATUS_STATE 2
      else d.packShot h.val f p := by
    obtain ⟨d, opens, issues⟩ := Chip.shotIssue_reads may left ahead packs
    obtain ⟨line, mays, span, owner, aheads, closes, kept⟩ := opens.line h.val
    refine ⟨d, opens, kept.armed.trans (Chip.armed_of_mayIssue may), ?_⟩
    rw [issues, Chip.issueLine_eq (mays.trans may) (by rwa [line, span]) (p := p) (by rwa [line, aheads]), line, owner, closes]
    split
    · rfl
    · next owns => exact if_neg fun near => packs ⟨Bool.not_eq_false _ ▸ owns, near⟩
  refine ⟨fun standby => ?_, fun owner onTime => ?_, fun owner near => ?_⟩
  · obtain ⟨d, opens, armed, issues⟩ := reads fun both => Bool.false_ne_true (standby.symm.trans both.1)
    obtain ⟨-, -, -, -, -, -, kept⟩ := opens.line h.val
    rw [if_pos standby] at issues
    obtain ⟨next, shots, state, index⟩ := Chip.lineFormed_shows armed f issues
    exact ⟨_, runs, next, shots.trans (kept.lines _).1, state, index.trans kept.nextIndex⟩
  · obtain ⟨d, opens, armed, issues⟩ := reads fun both => onTime (close.mp both.2)
    obtain ⟨-, -, -, -, -, -, kept⟩ := opens.line h.val
    rw [if_neg (by rw [owner]; decide)] at issues
    obtain ⟨x, packed⟩ := Chip.packShot_shows (h := h.val) armed f p
    simp only [(kept.lines _).1, kept.nextIndex] at packed
    exact ⟨_, x, runs.trans (by rw [issues]), packed⟩
  · obtain ⟨e, skips, left'⟩ := Chip.overspeed_skips (h := h.val) (Chip.armed_of_mayIssue may) f
    refine ⟨e, ?_, left'⟩
    rw [runs, Chip.shotIssue_close may left ahead owner (close.mpr near), Chip.issueLine_eq may left ahead,
      if_neg (by rw [owner]; decide), if_pos (close.mpr near), skips]

end Sys2Proof.Machine
end

