-- ==== Sys2Proof/Proofs/LayersArmed.lean ====
section
/-! PROOF. Proofs/LayersArmed.lean: LAYER_ARM (R143, R148, R240, R311, R430, R445): the run that an arming begins, what the rewrites
of its heads leave, and that a layer just armed does not complete at once. -/

namespace Sys2Proof.Machine

/-! ### The arming as its steps -/

/-- The run of an arming begun: its registers, its accumulator set and, on an owner, heal's freezing (R148, R310, R311, R325). -/
def Chip.beginRun (c : Chip) (l : Layer) : Chip :=
  let hofs := (List.range 48).foldl (fun (m : SMap Int) h => SMap.set 0 h (c.getI (Reg.CRN_HEAD_OFS_LINES h)) m) []
  let k := c.accNext
  let r : Run := { origin := c.getI Reg.CRN_ORIGIN_COUNT, hofs := hofs, accSet := k, weights := c.weightsNow }
  let c := { c with run := some r, accNext := 1 - k, deposit := [], armWaitSince := none,
                    healPoison := c.healPoison.filter (fun u => decide (u / 12288 ≠ k)) }.setAcc k []
  let c := c.put Reg.CRN_LAYER_LAYER l.num
  let c := (c.put Reg.CRN_STATUS_STATE (if c.flag Reg.HED_GATE_STATUS_PERMIT then 1 else 3)).putB Reg.ETM_STATUS_INLAYER c.owns
  let c := c.put Reg.HEL_STATUS_ARM_WAIT 0
  if c.owns then (c.setTdm { c.tdm with inspStopped := false }).refreshFrozen else c

/-- The heads of an arming: their spans, their rewrites, and those that are out (R143, R183, R240). -/
def Chip.armHeads (c : Chip) (heads outs : List Nat) : Chip :=
  let pmin := ((heads.filter fun h => !outs.contains h).map fun h => c.get (Reg.HED_HEAD_PMIN_NS h)).foldl max 0
  let c := (c.put Reg.CRN_PMIN_NS pmin).put Reg.CRN_GOV_LIMIT_LPS (if pmin = 0 then 0 else 980000000 / pmin)
  let c := heads.foldl (fun c h => c.armHead h) c
  let c := heads.foldl (fun c h => if outs.contains h then c else if c.owns then c.rewriteHead h else c.followHead h) c
  let c := heads.foldl (fun c h => c.showHead h) c
  outs.foldl (fun c h =>
    let bad := decide (c.laneState h = 3) && !c.driveSetOk h
    let c := c.headOut h
    if bad then c.headHeld h 5 else c) c

theorem Chip.armLayer_eq {c : Chip} {l : Layer} {rest : List Layer} (idle : c.run = none) (oldest : c.layers = l :: rest) :
    c.armLayer = (((c.applyArming l.num).beginRun l).armHeads ((List.range 48).filter (inMask l.heads))
      (((List.range 48).filter (inMask l.heads)).filter ((c.applyArming l.num).beginRun l).outAtArming)).tryComplete := by
  unfold Chip.armLayer
  rw [idle, oldest]
  rfl

/-! ### The run begun -/

/-- The registers that the beginning of a run writes outside the event block. -/
def beginKeys : List Nat :=
  [Reg.CRN_LAYER_LAYER.key, Reg.CRN_STATUS_STATE.key, Reg.ETM_STATUS_INLAYER.key, Reg.HEL_STATUS_ARM_WAIT.key, Reg.HEL_STATUS_FROZEN.key]

/-- A controller b is c with the run of a layer begun. -/
structure Chip.begins (c b : Chip) (l : Layer) : Prop where
  layers : b.layers = c.layers
  run : ∃ r, b.run = some r ∧ r.bandsClosed = 0
  accNext : b.accNext = 1 - c.accNext
  waits : b.armWaitSince = none
  heads : b.heads = c.heads
  layer : b.get Reg.CRN_LAYER_LAYER = l.num % 2 ^ 32
  state : b.get Reg.CRN_STATUS_STATE = if c.flag Reg.HED_GATE_STATUS_PERMIT then 1 else 3
  inLayer : b.flag Reg.ETM_STATUS_INLAYER = c.owns
  regs : ∀ f : Field, f.lo < 32 → (f.off < 0x20000 ∨ 0x22000 ≤ f.off) → f.key ∉ beginKeys → b.get f = c.get f

/-- Heal's freezing changes the open window, its flag and what an event changes (R325). -/
theorem Chip.refreshFrozen_rest (c : Chip) : { c with healWin := c.refreshFrozen.healWin }.sameBut5 c.refreshFrozen := by
  unfold Chip.refreshFrozen
  extract_lets f c1
  have noted : c1 = { c with healWin := c1.healWin } := by
    unfold c1
    split <;> rfl
  clear_value c1
  have shown : { c with healWin := c1.healWin }.sameBut5 (c1.putB Reg.HEL_STATUS_FROZEN f) := by
    unfold Chip.sameBut5
    rw [noted]
    rfl
  split
  · rw [noted]
    rfl
  · have told := Chip.sameBut5_trans shown (Chip.raise_rest _ 60 0 [(1, b2n f)])
    have window : ((c1.putB Reg.HEL_STATUS_FROZEN f).raise 60 0 [(1, b2n f)]).healWin = c1.healWin := by rw [told]
    rwa [window]

theorem Chip.get_refreshFrozen (c : Chip) {f : Field} (l : f.lo < 32) (quiet : f.off < 0x20000 ∨ 0x22000 ≤ f.off)
    (other : f.key ≠ Reg.HEL_STATUS_FROZEN.key) : c.refreshFrozen.get f = c.get f := by
  unfold Chip.refreshFrozen
  extract_lets frozen c1
  have noted : c1.get f = c.get f := by
    unfold c1
    split <;> rfl
  split
  · exact noted
  · exact (Chip.get_raise _ _ _ (by decide) l quiet).trans ((Chip.get_putB_ne _ _ _ _ other).trans noted)

theorem Chip.begins.setTdm {c b : Chip} {l : Layer} (h : c.begins b l) (t : Tandem) : c.begins (b.setTdm t) l :=
  ⟨h.layers, h.run, h.accNext, h.waits, h.heads, h.layer, h.state, h.inLayer, h.regs⟩

theorem Chip.begins.refreshFrozen {c b : Chip} {l : Layer} (h : c.begins b l) : c.begins b.refreshFrozen l := by
  have rest := b.refreshFrozen_rest
  have kept {f : Field} (l : f.lo < 32) (quiet : f.off < 0x20000 ∨ 0x22000 ≤ f.off) (other : f.key ≠ Reg.HEL_STATUS_FROZEN.key) :=
    b.get_refreshFrozen l quiet other
  exact {
    layers := by rw [rest]; exact h.layers
    run := by rw [rest]; exact h.run
    accNext := by rw [rest]; exact h.accNext
    waits := by rw [rest]; exact h.waits
    heads := by rw [rest]; exact h.heads
    layer := (kept (by decide) (by decide) (by decide)).trans h.layer
    state := (kept (by decide) (by decide) (by decide)).trans h.state
    inLayer := (Chip.flag_congr (kept (by decide) (by decide) (by decide))).trans h.inLayer
    regs := fun f l quiet apart => (kept l quiet fun frozen => apart (by rw [frozen]; decide)).trans (h.regs f l quiet apart) }

section
variable (c : Chip) (k : Nat) (m : SMap Nat)

/-- An accumulator set replaced changes the sets alone. -/
theorem Chip.setAcc_rest : c.setAcc k m = { c with acc0 := (c.setAcc k m).acc0, acc1 := (c.setAcc k m).acc1 } := by
  unfold Chip.setAcc
  split <;> rfl

@[simp] theorem Chip.setAcc_regs : (c.setAcc k m).regs = c.regs := by rw [Chip.setAcc_rest]
@[simp] theorem Chip.setAcc_layers : (c.setAcc k m).layers = c.layers := by rw [Chip.setAcc_rest]
@[simp] theorem Chip.setAcc_run : (c.setAcc k m).run = c.run := by rw [Chip.setAcc_rest]
@[simp] theorem Chip.setAcc_accNext : (c.setAcc k m).accNext = c.accNext := by rw [Chip.setAcc_rest]
@[simp] theorem Chip.setAcc_armWaitSince : (c.setAcc k m).armWaitSince = c.armWaitSince := by rw [Chip.setAcc_rest]
@[simp] theorem Chip.setAcc_heads : (c.setAcc k m).heads = c.heads := by rw [Chip.setAcc_rest]

end

theorem Chip.beginRun_begins (c : Chip) (l : Layer) : c.begins (c.beginRun l) l := by
  unfold Chip.beginRun
  extract_lets hofs k r b c1 c2 c3 t
  have start (f : Field) : b.get f = c.get f := Chip.get_congr (Chip.setAcc_regs ..) f
  have permit : c1.flag Reg.HED_GATE_STATUS_PERMIT = c.flag Reg.HED_GATE_STATUS_PERMIT :=
    Chip.flag_congr ((Chip.get_put_ne _ _ _ _ (by decide)).trans (start _))
  have owner : c1.owns = c.owns := Chip.flag_congr ((Chip.get_put_ne _ _ _ _ (by decide)).trans (start _))
  have begun : c.begins c3 l := {
    layers := Chip.setAcc_layers ..
    run := ⟨r, Chip.setAcc_run .., rfl⟩
    accNext := Chip.setAcc_accNext ..
    waits := Chip.setAcc_armWaitSince ..
    heads := Chip.setAcc_heads ..
    layer := by
      unfold c3 c2 c1
      simp (disch := decide) only [Chip.get_put_ne, Chip.get_putB_ne, Chip.get_put_self]
      rfl
    state := by
      unfold c3 c2
      simp (disch := decide) only [Chip.get_put_ne, Chip.get_putB_ne, Chip.get_put_self, permit]
      split <;> rfl
    inLayer := by
      rw [← owner, Chip.flag_congr (Chip.get_put_ne _ _ _ _ (by decide))]
      exact Chip.flag_putB _ _ (by decide)
    regs := fun f _ _ apart => by
      simp only [beginKeys, List.mem_cons, List.not_mem_nil, or_false, not_or] at apart
      obtain ⟨layer, state, inLayer, wait, -⟩ := apart
      exact (Chip.get_put_ne _ _ _ _ wait).trans <| (Chip.get_putB_ne _ _ _ _ inLayer).trans <| (Chip.get_put_ne _ _ _ _ state).trans <|
        (Chip.get_put_ne _ _ _ _ layer).trans (start f) }
  split
  · exact (begun.setTdm _).refreshFrozen
  · exact begun

/-- No field above the cornice's block is written but ARM_WAIT and FROZEN, bits 3 and 2 of HEL.STATUS. -/
theorem notBeginKey_of_high {f : Field} (high : 0x70000 ≤ f.off) (low : f.lo < 32) (wait : f.lo ≠ 3) (frozen : f.lo ≠ 2) :
    f.key ∉ beginKeys := by
  have key : f.key = f.off * 32 + f.lo := rfl
  have keys : beginKeys = [0x60008 * 32, 0x60004 * 32, 0x30014 * 32 + 3, 0xb0004 * 32 + 3, 0xb0004 * 32 + 2] := rfl
  rw [keys, key]
  simp only [List.mem_cons, List.not_mem_nil, or_false, not_or]
  omega

theorem Chip.begins.get_high {c b : Chip} {l : Layer} (h : c.begins b l) {f : Field} (high : 0x70000 ≤ f.off)
    (low : f.lo < 32 := by exact of_decide_eq_true rfl) (wait : f.lo ≠ 3 := by exact of_decide_eq_true rfl)
    (frozen : f.lo ≠ 2 := by exact of_decide_eq_true rfl) : b.get f = c.get f :=
  h.regs f low (.inr (by omega)) (notBeginKey_of_high high low wait frozen)

/-- A head's drive set is read from its own registers and the head's record (R254, R255). -/
theorem Chip.driveSetOk_congr {b c : Chip} (heads : b.heads = c.heads) {g : Nat}
    (choice : b.get (Reg.HED_HEAD_CFG_DSET g) = c.get (Reg.HED_HEAD_CFG_DSET g))
    (data : ∀ d w, b.get (Reg.HED_DRIVESET_DATA d w) = c.get (Reg.HED_DRIVESET_DATA d w)) : b.driveSetOk g = c.driveSetOk g := by
  unfold Chip.driveSetOk Chip.driveSet Chip.head
  rw [heads, choice]
  simp only [data]

/-- A head whose lane is READY and whose drive set is loaded is not out at the arming (R240, R257). -/
theorem Chip.begins.outAtArming {c b : Chip} {l : Layer} (h : c.begins b l) {g : Nat}
    (ready : c.owns = false ∨ (c.laneState g = 3 ∧ c.driveSetOk g = true)) : b.outAtArming g = false := by
  have owner : b.owns = c.owns := Chip.flag_congr (h.get_high (by decide))
  have lane : b.laneState g = c.laneState g := h.get_high (by show _ ≤ 0x71004 + 0x100 * g; omega)
  have set : b.driveSetOk g = c.driveSetOk g := Chip.driveSetOk_congr h.heads
    (h.get_high (by show _ ≤ 0x91000 + 0x40 * g; omega)) fun d w => h.get_high (by show _ ≤ 0x92000 + 0x400 * d + 4 * w; omega)
  unfold Chip.outAtArming
  rw [owner, lane, set]
  rcases ready with standby | ⟨up, loaded⟩
  · rw [standby, Bool.false_and]
  · rw [up, loaded]
    simp

/-! ### Heads as their arming leaves them -/

/-- A head's run as its arming leaves it (R143): nothing issued, nothing entered, its next line the first of its span. -/
structure HeadRun.fresh (x : HeadRun) : Prop where
  shots : x.shots = []
  isOut : x.isOut = false
  next : x.next = x.lo
  hwm : x.hwm = x.lo - 1
  entered : x.entered = []
  span : x.lo ≤ x.hi

/-- The keys apart from what LAYER_ARM shows: CRN.LAYER, the cornice's state, ETM.STATUS.INLAYER and IN_LAYER of each head. -/
def armApart (k : Nat) : Prop :=
  k ≠ Reg.CRN_LAYER_LAYER.key ∧ k ≠ Reg.CRN_STATUS_STATE.key ∧ k ≠ Reg.ETM_STATUS_INLAYER.key ∧
    ∀ g, g < 48 → k ≠ (Reg.CRN_HEAD_STATE_IN_LAYER g).key

theorem armApart_iff {k : Nat} : armApart k ↔ k ≠ 0x60008 * 32 ∧ k ≠ 0x60004 * 32 ∧ k ≠ 0x30014 * 32 + 3 ∧
    ∀ g, g < 48 → k ≠ (0x6010c + 0x10 * g) * 32 := Iff.rfl

/-- The heads hs are armed and every head armed before stays so; of the rest of the layer's arming nothing changes. -/
structure Chip.arms (hs : List Nat) (c d : Chip) : Prop where
  layers : d.layers = c.layers
  closed : d.run.map (·.bandsClosed) = c.run.map (·.bandsClosed)
  accNext : d.accNext = c.accNext
  waits : d.armWaitSince = c.armWaitSince
  layer : d.get Reg.CRN_LAYER_LAYER = c.get Reg.CRN_LAYER_LAYER
  state : d.get Reg.CRN_STATUS_STATE = c.get Reg.CRN_STATUS_STATE
  inLayer : d.get Reg.ETM_STATUS_INLAYER = c.get Reg.ETM_STATUS_INLAYER
  heads : ∀ g, g < 48 → d.flag (Reg.CRN_HEAD_STATE_IN_LAYER g) = (decide (g ∈ hs) || c.flag (Reg.CRN_HEAD_STATE_IN_LAYER g))
  fresh : ∀ g, g ∈ hs ∨ (c.headRun g).fresh → (d.headRun g).fresh

section
variable {c d e : Chip} {hs ks : List Nat}

theorem Chip.arms_refl (c : Chip) : Chip.arms [] c c :=
  ⟨rfl, rfl, rfl, rfl, rfl, rfl, rfl, fun _ _ => by simp, fun _ h => h.elim (fun m => nomatch m) id⟩

theorem Chip.arms.trans (h : Chip.arms hs c d) (k : Chip.arms ks d e) : Chip.arms (hs ++ ks) c e where
  layers := k.layers.trans h.layers
  closed := k.closed.trans h.closed
  accNext := k.accNext.trans h.accNext
  waits := k.waits.trans h.waits
  layer := k.layer.trans h.layer
  state := k.state.trans h.state
  inLayer := k.inLayer.trans h.inLayer
  heads g low := by
    rw [k.heads g low, h.heads g low, ← Bool.or_assoc]
    simp only [List.mem_append, Bool.decide_or, Bool.or_comm]
  fresh g before := k.fresh g <| by
    rcases before with member | already
    · exact (List.mem_append.mp member).elim (fun m => .inr (h.fresh g (.inl m))) .inl
    · exact .inr (h.fresh g (.inr already))

theorem Chip.arms.keep (h : Chip.arms hs c d) (k : Chip.arms [] d e) : Chip.arms hs c e := List.append_nil hs ▸ h.trans k

theorem Chip.arms_congr (layers : d.layers = c.layers := by rfl) (run : d.run = c.run := by rfl) (accNext : d.accNext = c.accNext := by rfl)
    (waits : d.armWaitSince = c.armWaitSince := by rfl) (regs : ∀ f : Field, f.lo < 32 → (f.off < 0x20000 ∨ 0x22000 ≤ f.off) →
      ¬armApart f.key → d.get f = c.get f := by exact fun _ _ _ _ => rfl) : Chip.arms [] c d := by
  have shown {f : Field} (l : f.lo < 32) (quiet : f.off < 0x20000 ∨ 0x22000 ≤ f.off) (same : ¬armApart f.key) := regs f l quiet same
  refine ⟨layers, by rw [run], accNext, waits, ?_, ?_, ?_, fun g low => ?_, fun g before => ?_⟩
  · exact shown (by decide) (by decide) fun apart => apart.1 rfl
  · exact shown (by decide) (by decide) fun apart => apart.2.1 rfl
  · exact shown (by decide) (by decide) fun apart => apart.2.2.1 rfl
  · exact Chip.flag_congr (shown (of_decide_eq_true rfl) (by show _ ∨ _ ≤ 0x6010c + 0x10 * g; omega) fun apart => apart.2.2.2 g low rfl)
  · rw [Chip.headRun_congr run]
    exact before.elim (fun m => nomatch m) id

theorem Chip.arms_put (c : Chip) (f : Field) (v : Nat) (apart : armApart f.key) : Chip.arms [] c (c.put f v) :=
  Chip.arms_congr (regs := fun _ _ _ shown => Chip.get_put_ne _ _ _ _ fun same => shown (same ▸ apart))

theorem Chip.arms_raise (c : Chip) {src : Nat} (cause : Nat) (items : List (Nat × Nat)) (hs : src < 256 := by decide) :
    Chip.arms [] c (c.raise src cause items) := by
  have same := Chip.raise_rest c src cause items
  refine Chip.arms_congr ?_ ?_ ?_ ?_ fun _ l quiet _ => Chip.get_raise c cause items hs l quiet <;> rw [same]

theorem Chip.arms_foldl {α : Type} {g : Chip → α → Chip} (step : ∀ (d : Chip) x, Chip.arms [] d (g d x)) (l : List α) (c : Chip) :
    Chip.arms [] c (l.foldl g c) := by
  induction l generalizing c with
  | nil => exact Chip.arms_refl c
  | cons a l ih => exact (step c a).trans (ih _)

/-- A head's run replaced by one that is fresh where it was. -/
theorem Chip.arms_setHead (c : Chip) (h : Nat) {x : HeadRun} (kept : (c.headRun h).fresh → x.fresh) : Chip.arms [] c (c.setHead h x) := by
  have regs := c.get_setHead h x
  refine ⟨?_, ?_, ?_, ?_, regs _, regs _, regs _, fun g _ => (Chip.flag_congr (regs _)).trans (by simp), fun g before => ?_⟩
  · unfold Chip.setHead; split <;> rfl
  · unfold Chip.setHead
    split
    · next armed => rw [armed]; rfl
    · rfl
  · unfold Chip.setHead; split <;> rfl
  · unfold Chip.setHead; split <;> rfl
  · exact Chip.headRun_setHead_of (P := fun _ y => y.fresh) kept (before.elim (fun m => nomatch m) id)

end

/-! ### The steps of an arming, head by head (R143, R183, R257) -/

theorem armApart_of_lo {f : Field} (low : f.lo < 32) (lo : f.lo ≠ 0) (high : 0x60100 ≤ f.off) : armApart f.key := by
  have key : f.key = f.off * 32 + f.lo := rfl
  rw [armApart_iff, key]
  exact ⟨by omega, by omega, by omega, fun g _ => by omega⟩

theorem armApart_of_high {f : Field} (high : 0x60500 ≤ f.off) : armApart f.key := by
  have key : f.key = f.off * 32 + f.lo := rfl
  rw [armApart_iff, key]
  exact ⟨by omega, by omega, by omega, fun g _ => by omega⟩

theorem armApart_hwm (h : Nat) : armApart (Reg.CRN_HEAD_HWM_LINE h).key := by
  rw [armApart_iff, show (Reg.CRN_HEAD_HWM_LINE h).key = (0x60104 + 0x10 * h) * 32 + 0 from rfl]
  exact ⟨by omega, by omega, by omega, fun g _ => by omega⟩

/-- The registers from CRN.TRAV_CFG to the heads' own. -/
theorem armApart_of_between {f : Field} (low : f.lo < 32) (above : 0x60008 < f.off) (below : f.off < 0x60100) : armApart f.key := by
  have key : f.key = f.off * 32 + f.lo := rfl
  rw [armApart_iff, key]
  exact ⟨by omega, by omega, by omega, fun g _ => by omega⟩

section
variable (c : Chip) (h : Nat)

theorem Chip.arms_mgmt (q : MgmtReq) : Chip.arms [] c (c.mgmt h q) := Chip.arms_congr

theorem Chip.arms_setHeadX (x : HeadX) : Chip.arms [] c (c.setHeadX h x) := Chip.arms_congr

theorem Chip.arms_showLoaded : Chip.arms [] c (c.showLoaded h) := by
  have loaded (d : Chip) (k : Nat) (lo : k < 32) (v : Nat) : Chip.arms [] d (d.put ⟨0x9102c + 0x40 * h, k, 1, 0⟩ v) :=
    d.arms_put _ v (armApart_of_high (by show _ ≤ 0x9102c + 0x40 * h; omega))
  exact (((loaded _ 0 (by decide) _).trans (loaded _ 1 (by decide) _)).trans (loaded _ 2 (by decide) _)).trans (loaded _ 3 (by decide) _)

theorem Chip.arms_rewriteHead : Chip.arms [] c (c.rewriteHead h) := by
  unfold Chip.rewriteHead
  extract_lets x drive group slot c1 c2 c3
  have driven : Chip.arms [] c c1 := by
    unfold c1
    split
    · exact c.arms_mgmt ..
    · exact Chip.arms_refl c
  have grouped : Chip.arms [] c c2 := by
    unfold c2
    split
    · exact driven.trans (c1.arms_mgmt ..)
    · exact driven
  have slotted : Chip.arms [] c c3 := by
    unfold c3
    split
    · exact grouped.trans (Chip.arms_foldl (fun d k => d.arms_mgmt ..) _ _)
    · exact grouped
  split
  · exact (slotted.trans (c3.arms_setHead h (by exact fun kept => ⟨kept.shots, kept.isOut, kept.next, kept.hwm, kept.entered, kept.span⟩))).trans
      (Chip.arms_showLoaded ..)
  · exact slotted

theorem Chip.arms_followHead : Chip.arms [] c (c.followHead h) := by
  unfold Chip.followHead
  extract_lets x
  split
  · exact Chip.arms_refl c
  · exact (c.arms_setHeadX ..).trans (Chip.arms_showLoaded ..)

theorem Chip.arms_showHead : Chip.arms [] c (c.showHead h) := by
  have idle : Chip.arms [] c (c.markIdle h) := by
    unfold Chip.markIdle
    extract_lets x
    split_ifs
    · exact c.arms_setHeadX ..
    · exact Chip.arms_refl c
    · exact c.arms_setHeadX ..
  have state (d : Chip) (k w v : Nat) (low : k < 32) (lo : k ≠ 0) : Chip.arms [] d (d.put ⟨0x6010c + 0x10 * h, k, w, 0⟩ v) :=
    d.arms_put _ v (armApart_of_lo low lo (by show _ ≤ 0x6010c + 0x10 * h; omega))
  exact (((idle.trans (state _ 1 1 _ (by decide) (by decide))).trans (state _ 2 1 _ (by decide) (by decide))).trans
    (state _ 8 7 _ (by decide) (by decide))).trans (Chip.arms_put _ _ _ (armApart_hwm h))

end

/-! ### The span of a head (R143) -/

theorem minMax_foldl (l : List Int) (b : Int × Int) : (l.foldl (fun b x => (min b.1 x, max b.2 x)) b).1 ≤ b.1 ∧
    b.2 ≤ (l.foldl (fun b x => (min b.1 x, max b.2 x)) b).2 := by
  induction l generalizing b with
  | nil => exact ⟨le_refl _, le_refl _⟩
  | cons a l ih =>
    obtain ⟨least, largest⟩ := ih (min b.1 a, max b.2 a)
    exact ⟨least.trans (min_le_left ..), (le_max_left ..).trans largest⟩

theorem minMax_le (l : List Int) : (minMax l).1 ≤ (minMax l).2 := by
  cases l with
  | nil => exact le_refl _
  | cons a l => exact (minMax_foldl l (a, a)).1.trans (minMax_foldl l (a, a)).2

/-- The least of some integers is within a bound that each of them is within. -/
theorem minMax_fst_le {l : List Int} {b : Int} (some : l ≠ []) (within : ∀ a ∈ l, a ≤ b) : (minMax l).1 ≤ b := by
  cases l with
  | nil => exact absurd rfl some
  | cons a l => exact (minMax_foldl l (a, a)).1.trans (within a (List.mem_cons_self ..))

/-- The run with which a head is armed: its span, and no line of it decided (R143, R168). -/
def Chip.spanRun (c : Chip) (h : Nat) : HeadRun :=
  let s := minMax (c.spanOffsets h)
  { lo := s.1, hi := s.2, next := s.1, hwm := s.1 - 1, crcNext := s.1, gateRun := decide (c.get Reg.CRN_STATUS_STATE = 3)
    await := (c.head h).await }

theorem Chip.spanRun_fresh (c : Chip) (h : Nat) : (c.spanRun h).fresh := ⟨rfl, rfl, rfl, rfl, rfl, minMax_le _⟩

theorem Chip.armHead_eq (c : Chip) (h : Nat) :
    c.armHead h = (c.setHead h (c.spanRun h)).put (Reg.CRN_HEAD_STATE_IN_LAYER h) 1 := rfl

/-- A head armed is fresh, and IN_LAYER is set for it. -/
theorem Chip.arms_armHead {c : Chip} (armed : c.run.isSome = true) (h : Nat) : Chip.arms [h] c (c.armHead h) := by
  have fresh := c.spanRun_fresh h
  rw [Chip.armHead_eq]
  generalize c.spanRun h = x at fresh
  have begun := c.arms_setHead h (x := x) fun _ => fresh
  have shown {f : Field} (other : f.key ≠ (Reg.CRN_HEAD_STATE_IN_LAYER h).key) :
      ((c.setHead h x).put (Reg.CRN_HEAD_STATE_IN_LAYER h) 1).get f = (c.setHead h x).get f := Chip.get_put_ne _ _ _ _ other
  refine ⟨begun.layers, begun.closed, begun.accNext, begun.waits, (shown ?_).trans begun.layer, (shown ?_).trans begun.state,
    (shown ?_).trans begun.inLayer, fun g low => ?_, fun g before => ?_⟩
  · show 0x60008 * 32 + 0 ≠ (0x6010c + 0x10 * h) * 32 + 0
    omega
  · show 0x60004 * 32 + 0 ≠ (0x6010c + 0x10 * h) * 32 + 0
    omega
  · show 0x30014 * 32 + 3 ≠ (0x6010c + 0x10 * h) * 32 + 0
    omega
  · by_cases same : g = h
    · subst same
      rw [decide_eq_true (List.mem_singleton_self g), Bool.true_or]
      exact decide_eq_true (by rw [Chip.get_put_self]; exact (of_decide_eq_true rfl : 1 % 2 ^ 1 ≠ 0))
    · rw [Chip.flag_congr (shown (f := Reg.CRN_HEAD_STATE_IN_LAYER g) (by
          show (0x6010c + 0x10 * g) * 32 + 0 ≠ (0x6010c + 0x10 * h) * 32 + 0
          omega)), begun.heads g low]
      simp [same]
  · show ((c.setHead h x).headRun g).fresh
    rw [Chip.headRun_setHead armed]
    split
    · exact fresh
    · next other => exact before.elim (fun m => absurd (List.mem_singleton.mp m) other) id

theorem Chip.arms.armed {hs : List Nat} {c d : Chip} (h : Chip.arms hs c d) : d.run.isSome = c.run.isSome := by
  have both := congrArg Option.isSome h.closed
  rwa [Option.isSome_map, Option.isSome_map] at both

theorem Chip.arms_armHead_foldl (hs : List Nat) {c : Chip} (armed : c.run.isSome = true) :
    Chip.arms hs c (hs.foldl (fun c h => c.armHead h) c) := by
  induction hs generalizing c with
  | nil => exact Chip.arms_refl c
  | cons h hs ih => exact (Chip.arms_armHead armed h).trans (ih ((Chip.arms_armHead armed h).armed.trans armed))

/-- An arming of which no head is out arms its heads. -/
theorem Chip.arms_armHeads {c : Chip} (armed : c.run.isSome = true) (heads : List Nat) : Chip.arms heads c (c.armHeads heads []) := by
  unfold Chip.armHeads
  extract_lets pmin c1 c2 c3 c4
  have limits : Chip.arms [] c c1 := (c.arms_put _ _ (armApart_of_between (by decide) (by decide) (by decide))).trans
    (Chip.arms_put _ _ _ (armApart_of_between (by decide) (by decide) (by decide)))
  have spans : Chip.arms heads c c2 := limits.trans (Chip.arms_armHead_foldl heads (limits.armed.trans armed))
  have rewritten : Chip.arms heads c c3 := spans.keep (Chip.arms_foldl (fun d h => by
    split
    · exact Chip.arms_refl d
    · split
      · exact d.arms_rewriteHead h
      · exact d.arms_followHead h) _ _)
  exact rewritten.keep (Chip.arms_foldl (fun d h => d.arms_showHead h) _ _)

/-! ### A layer just armed does not complete (R150, R434) -/

theorem HeadRun.fresh.skipEntered {x : HeadRun} (h : x.fresh) (f : Int) : x.skipEntered f = f := by
  unfold HeadRun.skipEntered
  rw [h.entered]
  rfl

section
variable {c : Chip} {l : Layer} {rest : List Layer} {r : Run} (oldest : c.layers = l :: rest) (run : c.run = some r)
include oldest run

theorem Chip.armed_eq : c.armed = some l := by
  unfold Chip.armed
  rw [run, oldest]
  rfl

theorem Chip.inArmed_eq (h : Nat) : c.inArmed h = inMask l.heads h := by
  unfold Chip.inArmed
  rw [Chip.armed_eq oldest run]

variable (fresh : ∀ h, h < 48 → inMask l.heads h = true → (c.headRun h).fresh)
include fresh

/-- No band closes before a line of it is decided. -/
theorem Chip.bandsShut_fresh (closed : r.bandsClosed = 0) : c.bandsShut = 0 := by
  unfold Chip.bandsShut
  rw [Chip.armed_eq oldest run, run]
  dsimp -zeta only
  extract_lets live least
  rw [closed]
  split
  · rfl
  · next some =>
    have before : least ≤ -1 := by
      refine minMax_fst_le (fun none => some ?_) fun a member => ?_
      · rw [List.map_eq_nil_iff.mp none]
        rfl
      · obtain ⟨h, alive, rfl⟩ := List.mem_map.mp member
        obtain ⟨low, both⟩ := List.mem_filter.mp alive
        have armedFresh := fresh h (List.mem_range.mp low) (Bool.and_eq_true_iff.mp both).1
        have hwm := armedFresh.hwm
        have span := armedFresh.span
        omega
    rw [Nat.zero_max, floorDiv, Int.fdiv_eq_ediv_of_nonneg _ (by decide)]
    omega

/-- Bands that have not closed send no firn. -/
theorem Chip.closeBands_fresh (closed : r.bandsClosed = 0) : c.closeBands = c := by
  have shut := Chip.bandsShut_fresh oldest run fresh closed
  unfold Chip.closeBands
  rw [run, shut]
  dsimp only
  rw [closed]
  unfold Chip.onRun
  show { c with run := c.run.map fun r => { r with bandsClosed := 0 } } = c
  rw [run, Option.map_some, ← closed, ← run]

end

/-- The layer's last line is ahead of a head just armed. -/
theorem Chip.headDone_fresh {c : Chip} {l : Layer} {rest : List Layer} {r : Run} (oldest : c.layers = l :: rest) (run : c.run = some r)
    (bands : 1 ≤ l.bands) {h : Nat} (fresh : (c.headRun h).fresh) : c.headDone h = false := by
  have ends : c.spanEnd h = 1024 * (l.bands : Int) + (c.headRun h).hi := by
    unfold Chip.spanEnd Chip.layerLines
    rw [Chip.armed_eq oldest run]
  have span := fresh.span
  have hwm := fresh.hwm
  have ahead : ¬c.spanEnd h ≤ (c.headRun h).skipEntered ((c.headRun h).hwm + 1) := by
    rw [fresh.skipEntered, ends]
    omega
  unfold Chip.headDone
  simp only [ahead, decide_false, Bool.and_false]

/-- A layer of at least one head whose heads are as their arming leaves them does not complete. -/
theorem Chip.tryComplete_fresh {c : Chip} {l : Layer} {rest : List Layer} {r : Run} (oldest : c.layers = l :: rest) (run : c.run = some r)
    (closed : r.bandsClosed = 0) (bands : 1 ≤ l.bands) (fresh : ∀ h, h < 48 → inMask l.heads h = true → (c.headRun h).fresh)
    (some : ∃ h, h < 48 ∧ inMask l.heads h = true) : c.tryComplete = c := by
  obtain ⟨h, low, member⟩ := some
  have undone : ¬(c.run.isSome = true ∧ c.layerHeads.all c.headDone = true) := by
    rintro ⟨-, done⟩
    have here : h ∈ c.layerHeads := List.mem_filter.mpr ⟨List.mem_range.mpr low, (Chip.inArmed_eq oldest run h).trans member⟩
    exact Bool.false_ne_true ((Chip.headDone_fresh oldest run bands (fresh h low member)).symm.trans (List.all_eq_true.mp done h here))
  unfold Chip.tryComplete
  rw [Chip.closeBands_fresh oldest run fresh closed]
  dsimp only
  rw [if_neg undone, ite_self]

/-! ### The governor (R357) -/

theorem Chip.arms_governArm (c : Chip) : Chip.arms [] c c.governArm := by
  have governed (d : Chip) (a v : Nat) : Chip.arms [] d (d.put (Reg.MOT_AX_STATUS_GOVERNED a) v) :=
    d.arms_put _ v (armApart_of_high (by show _ ≤ 0xc1028 + 0x100 * a; omega))
  have cap (d : Chip) (v : Nat) : Chip.arms [] d (d.put Reg.MOT_GOV_CAP_SPS v) := d.arms_put _ v (armApart_of_high (by decide))
  have shown : Chip.arms [] c c.showCap := by
    unfold Chip.showCap
    split
    · exact cap c _
    · exact (cap c 0).trans (Chip.arms_foldl (fun d a => governed d a 0) _ _)
  unfold Chip.governArm
  dsimp only
  split
  · exact shown
  · split
    · exact (shown.trans (governed ..)).trans (Chip.arms_raise _ 0 [])
    · exact shown

/-! ### LAYER_ARM (R148) -/

theorem exec_layerArm (s : State) : exec .layerArm s = .next (s.withChip s.toChip.layerArm) := rfl

section
variable {c : Chip} (awake : c.pstate = 0) (free : c.tdm.hold = false)
include awake free

/-- In P0 and outside take-back's settling, an arming that has begun is taken to the governor. -/
theorem Chip.layerArm_eq : c.layerArm =
    if c.run.isSome = true ∨ c.armOrWait.run.isNone = true then c.armOrWait
    else (if c.armOrWait.tdmState = 3 then c.armOrWait.setTdm { c.armOrWait.tdm with whole := true } else c.armOrWait).governArm := by
  unfold Chip.layerArm
  simp only [awake, free, if_true, ne_eq, not_true_eq_false, Bool.false_eq_true, or_self, if_false]

/-- With a layer armed, or none whose LAYER_OPEN has completed, nothing is armed. -/
theorem Chip.layerArm_none (none : c.run.isSome = true ∨ c.layers.head?.all (fun (l : Layer) => c.openPending l.num) = true) :
    c.layerArm = c := by
  have stays : c.armOrWait = c := by
    unfold Chip.armOrWait
    exact if_pos (by rwa [Bool.or_eq_true])
  rw [Chip.layerArm_eq awake free, stays]
  split
  · rfl
  · next idle =>
    have armed : c.run.isSome = true ∨ c.run.isNone = true := by cases c.run <;> simp
    exact absurd armed idle

variable {l : Layer} {rest : List Layer} (idle : c.run = none) (oldest : c.layers = l :: rest) (opened : c.openPending l.num = false)
include idle oldest opened

theorem Chip.layerArm_waits {v : HealEval} (evaluates : c.healEval = some v) (same : v.accSet = c.accNext) :
    c.layerArm = { c with armWaitSince := some (c.armWaitSince.getD c.clk) }.put Reg.HEL_STATUS_ARM_WAIT 1 := by
  have waits : c.armOrWait = { c with armWaitSince := some (c.armWaitSince.getD c.clk) }.put Reg.HEL_STATUS_ARM_WAIT 1 := by
    unfold Chip.armOrWait
    simp [idle, oldest, opened, evaluates, same]
  rw [Chip.layerArm_eq awake free, waits]
  exact if_pos (.inr (by show c.run.isNone = true; rw [idle]; rfl))

end

/-- The arming, told where it waited, takes nothing of the cornice before it begins (R311). -/
theorem Chip.armAfterWait_eq (c : Chip) : ∃ d, c.keepsCornice d ∧ c.armAfterWait = d.armLayer := by
  unfold Chip.armAfterWait
  split
  · exact ⟨_, (Chip.keepsCornice_refl c).raise 0 _, rfl⟩
  · exact ⟨c, Chip.keepsCornice_refl c, rfl⟩

/-- The registers above the cornice's block are not the tables'. -/
theorem Chip.keepsCornice.get_high {c d : Chip} (h : c.keepsCornice d) {f : Field} (high : 0x70000 ≤ f.off)
    (low : f.lo < 32 := by exact of_decide_eq_true rfl) : d.get f = c.get f := by
  refine h.get low (.inr (by omega)) ?_
  simp only [tableOffs, List.mem_cons, List.not_mem_nil, or_false, not_or]
  omega

/-- A head READY with its drive set loaded stays so through a change of the tables. -/
theorem Chip.keepsCornice.ready {c d : Chip} (h : c.keepsCornice d) {g : Nat} (ready : c.laneState g = 3 ∧ c.driveSetOk g = true) :
    d.laneState g = 3 ∧ d.driveSetOk g = true := by
  obtain ⟨up, loaded⟩ := ready
  refine ⟨(h.get_high (by show _ ≤ 0x71004 + 0x100 * g; omega)).trans up, ?_⟩
  rw [← loaded]
  exact Chip.driveSetOk_congr h.heads (h.get_high (by show _ ≤ 0x91000 + 0x40 * g; omega))
    fun d w => h.get_high (by show _ ≤ 0x92000 + 0x400 * d + 4 * w; omega)

theorem Chip.keepsCornice.owns {c d : Chip} (h : c.keepsCornice d) : d.owns = c.owns := Chip.flag_congr (h.get_high (by decide))

/-- IN_LAYER of a head is neither the tables' nor written as a run begins. -/
theorem Chip.begins.inLayer_before {c a b : Chip} {l : Layer} (tables : c.keepsCornice a) (begun : a.begins b l) {g : Nat} (low : g < 48) :
    b.flag (Reg.CRN_HEAD_STATE_IN_LAYER g) = c.flag (Reg.CRN_HEAD_STATE_IN_LAYER g) := by
  have quiet : (Reg.CRN_HEAD_STATE_IN_LAYER g).off < 0x20000 ∨ 0x22000 ≤ (Reg.CRN_HEAD_STATE_IN_LAYER g).off := by
    show _ ∨ _ ≤ 0x6010c + 0x10 * g
    omega
  have notBegin : (Reg.CRN_HEAD_STATE_IN_LAYER g).key ∉ beginKeys := by
    show (0x6010c + 0x10 * g) * 32 + 0 ∉ [0x60008 * 32, 0x60004 * 32, 0x30014 * 32 + 3, 0xb0004 * 32 + 3, 0xb0004 * 32 + 2]
    simp only [List.mem_cons, List.not_mem_nil, or_false, not_or]
    omega
  have notTable : (Reg.CRN_HEAD_STATE_IN_LAYER g).off ∉ tableOffs := by
    show 0x6010c + 0x10 * g ∉ [0x60400, 0x60410, 0x60424, 0x60428]
    simp only [List.mem_cons, List.not_mem_nil, or_false, not_or]
    omega
  exact Chip.flag_congr ((begun.regs _ (of_decide_eq_true rfl) quiet notBegin).trans (tables.get (of_decide_eq_true rfl) quiet notTable))

/-- A layer of at least one head, each READY with its drive set loaded, is armed from tables as they then stand (R148). -/
theorem Chip.armLayer_arms {c d : Chip} (kept : c.keepsCornice d) {l : Layer} {rest : List Layer} (idle : c.run = none)
    (oldest : c.layers = l :: rest) (bands : 1 ≤ l.bands) (some : ∃ h, h < 48 ∧ inMask l.heads h = true)
    (ready : c.owns = false ∨ ∀ h, h < 48 → inMask l.heads h = true → c.laneState h = 3 ∧ c.driveSetOk h = true) :
    ∃ a b, c.keepsCornice a ∧ a.begins b l ∧ Chip.arms ((List.range 48).filter (inMask l.heads)) b d.armLayer := by
  have tables : c.keepsCornice (d.applyArming l.num) := kept.trans (d.keepsCornice_applyArming l.num)
  have begun := (d.applyArming l.num).beginRun_begins l
  rw [Chip.armLayer_eq (kept.run.trans idle) (kept.layers.trans oldest)]
  generalize d.applyArming l.num = a at tables begun
  generalize a.beginRun l = b at begun
  have noneOut : ((List.range 48).filter (inMask l.heads)).filter b.outAtArming = [] := by
    refine List.filter_eq_nil_iff.mpr fun h member => ?_
    obtain ⟨low, here⟩ := mem_maskHeads.mp member
    exact Bool.eq_false_iff.mp (begun.outAtArming (ready.imp tables.owns.trans fun up => tables.ready (up h low here)))
  rw [noneOut]
  obtain ⟨r, run, closed⟩ := begun.run
  have armed := Chip.arms_armHeads (c := b) (by rw [run]; rfl) ((List.range 48).filter (inMask l.heads))
  have left := armed.closed
  rw [run] at left
  obtain ⟨q, ran, shut⟩ := Option.map_eq_some_iff.mp left
  refine ⟨a, b, tables, begun, ?_⟩
  rwa [Chip.tryComplete_fresh (armed.layers.trans (begun.layers.trans (tables.layers.trans oldest))) ran (shut.trans closed) bands
    (fun h low here => armed.fresh h (.inl (mem_maskHeads.mpr ⟨low, here⟩))) some]

/-- LAYER_ARM of such a layer, with no evaluation that still reads its accumulators: the arming, and then the governor. -/
theorem Chip.layerArm_arms {c : Chip} (awake : c.pstate = 0) (free : c.tdm.hold = false) {l : Layer} {rest : List Layer}
    (idle : c.run = none) (oldest : c.layers = l :: rest) (opened : c.openPending l.num = false)
    (read : ∀ v, c.healEval = some v → v.accSet ≠ c.accNext) (bands : 1 ≤ l.bands) (some : ∃ h, h < 48 ∧ inMask l.heads h = true)
    (ready : c.owns = false ∨ ∀ h, h < 48 → inMask l.heads h = true → c.laneState h = 3 ∧ c.driveSetOk h = true) :
    ∃ a b, c.keepsCornice a ∧ a.begins b l ∧ Chip.arms ((List.range 48).filter (inMask l.heads)) b c.layerArm := by
  have arms : c.armOrWait = c.armAfterWait := by
    unfold Chip.armOrWait
    rw [if_neg (by simp [idle, oldest, opened])]
    split
    · rfl
    · next v evaluates => exact if_pos (read v evaluates)
  obtain ⟨d, kept, told⟩ := c.armAfterWait_eq
  obtain ⟨a, b, tables, begun, armed⟩ := Chip.armLayer_arms kept idle oldest bands some ready
  rw [← told, ← arms] at armed
  obtain ⟨r, run, -⟩ := begun.run
  have isArmed : c.armOrWait.run.isSome = true := armed.armed.trans (by rw [run]; rfl)
  refine ⟨a, b, tables, begun, ?_⟩
  rw [Chip.layerArm_eq awake free, if_neg (by simp [idle, Option.isSome_iff_ne_none.mp isArmed])]
  split
  · exact (armed.keep Chip.arms_congr).keep (Chip.arms_governArm _)
  · exact armed.keep (Chip.arms_governArm _)

/-- What a layer armed shows, and how its heads stand (R143, R148, R310). -/
theorem Chip.arms.shows {c a b d : Chip} {l : Layer} (tables : c.keepsCornice a) (begun : a.begins b l)
    (armed : Chip.arms ((List.range 48).filter (inMask l.heads)) b d) :
    d.run.isSome = true ∧ d.layers = c.layers ∧ d.get Reg.CRN_LAYER_LAYER = l.num % 2 ^ 32 ∧
    d.get Reg.CRN_STATUS_STATE = (if c.flag Reg.HED_GATE_STATUS_PERMIT then 1 else 3) ∧
    d.flag Reg.ETM_STATUS_INLAYER = c.owns ∧ d.armWaitSince = none ∧ d.accNext = 1 - c.accNext ∧
    (∀ h, h < 48 → d.flag (Reg.CRN_HEAD_STATE_IN_LAYER h) = (inMask l.heads h || c.flag (Reg.CRN_HEAD_STATE_IN_LAYER h))) ∧
    (∀ h, h < 48 → inMask l.heads h = true → (d.headRun h).shots = [] ∧ (d.headRun h).isOut = false ∧
      (d.headRun h).next = (d.headRun h).lo ∧ (d.headRun h).hwm = (d.headRun h).lo - 1) := by
  obtain ⟨r, run, -⟩ := begun.run
  refine ⟨armed.armed.trans (by rw [run]; rfl), armed.layers.trans (begun.layers.trans tables.layers), armed.layer.trans begun.layer,
    (armed.state.trans begun.state).trans ?_, (Chip.flag_congr armed.inLayer).trans (begun.inLayer.trans tables.owns),
    armed.waits.trans begun.waits, (armed.accNext.trans begun.accNext).trans (by rw [tables.accNext]), fun h low => ?_, fun h low here => ?_⟩
  · rw [Chip.flag_congr (tables.get_high (by decide))]
  · have member : decide (h ∈ (List.range 48).filter (inMask l.heads)) = inMask l.heads h := by
      rw [Bool.decide_congr (mem_maskHeads.trans (and_iff_right low))]
      exact Bool.decide_eq_true
    rw [armed.heads h low, member, begun.inLayer_before tables low]
  · have fresh := armed.fresh h (.inl (mem_maskHeads.mpr ⟨low, here⟩))
    exact ⟨fresh.shots, fresh.isOut, fresh.next, fresh.hwm⟩

/-- Settles O37: an arming by what it begins and what its heads' steps leave, a shot by the rule of the line it is packed for. -/
theorem layersAreArmedAndFired : Obligations.LayersAreArmedAndFired := by
  unfold Obligations.LayersAreArmedAndFired
  refine ⟨fun s awake free => ?_, fun h s => ?_⟩
  · intro c
    simp only [exec_layerArm]
    refine ⟨fun none => ?_, fun l rest oldest pending => ?_, fun v l rest idle oldest opened evaluates same => ?_,
      fun l rest idle oldest opened read bands some ready => ?_⟩
    · rw [Chip.layerArm_none awake free (none.imp_right fun empty => by rw [empty]; rfl), State.withChip_toChip]
    · rw [Chip.layerArm_none awake free (.inr (by rw [oldest]; exact pending)), State.withChip_toChip]
    · rw [Chip.layerArm_waits awake free idle oldest opened evaluates same]
    · obtain ⟨a, b, tables, begun, armed⟩ := Chip.layerArm_arms awake free idle oldest opened read bands some ready
      exact ⟨_, rfl, armed.shows tables begun⟩
  · intro c f early
    have runs (z e) : exec (.shotIssue h z e) s = .next (s.withChip (c.shotIssue h.val z e)) := rfl
    refine ⟨fun stays z e => ?_, fun _ _ beyond => ?_, ⟨fun far => if_pos far, fun near => if_neg (Int.not_lt.mpr near)⟩,
      shotIssue_rule h s⟩
    · rw [runs, Chip.shotIssue_held stays, State.withChip_toChip]
    · rw [runs, Chip.shotIssue_unpredicted beyond, State.withChip_toChip]

end Sys2Proof.Machine
end

