-- ==== Sys2Proof/Proofs/TableLoads.lean ====
section
/-! PROOF. Proofs/TableLoads.lean: a table load whose buffer has been taken is checked no more (R196, R427), which the checks of a load
as stated leave out. -/

namespace Sys2Proof.Machine

/-- A load that waits for the partner with its buffer stays as it is, whatever its descriptor asks for. -/
theorem Chip.tableLoad_waiting {c : Chip} {p n op : Nat} {d : List Byte} {t : TableWait} (front : c.headOp p n op = some d)
    (ready : (c.ring p n).acted = false) (taken : (c.ring p n).load = some t) (waits : t.waits = true) (buf : Option (List Byte))
    (checks : List Byte → Option Nat) : c.tableLoad p n op buf checks = c := by
  have stays : c.loadReady p n = c := by
    unfold Chip.loadReady
    simp only [taken, waits, if_true]
  unfold Chip.tableLoad
  simp only [front, ready, taken, stays, Option.isSome_some, Bool.false_eq_true, if_false, if_true]

theorem exec_nztLoad (p : Port) (n : Fin 64) (buf : Option (List Byte)) (s : State) : exec (.nztLoad p n buf) s =
    .next (s.withChip (s.toChip.tableLoad p.num n.val 0x10 buf s.toChip.nztChecks)) := rfl

/-- A fault stops a ring that runs (R105). -/
theorem Chip.faultDesc_ne_self {c : Chip} {p n : Nat} (code : Nat) (hp : p < 2) (hn : n < 64) (running : c.ringState p n = 1) :
    c.faultDesc p n code ≠ c := by
  intro same
  have stopped := (c.faultDesc_shows code hp hn).state
  rw [same, running] at stopped
  exact absurd stopped (by decide)

/-- NZT_LOAD of no entries, its LEN and COUNT both 0. -/
def emptyLoad : List Byte := leBytes 64 0x10

/-- Ring 0 of port A runs with that load at its head; its buffer has been taken and waits for the partner. -/
def emptyLoadTaken : State :=
  State.reset.withChip ((State.reset.toChip.put (Reg.HIF_RING_STATUS_STATE 0 0) 1).setRing 0 0
    { fetched := [some emptyLoad], load := some ⟨[], none, true⟩ })

/-- Refutes O34: a load whose ring holds its buffer already (`load` of the ring is not none) is not checked again, so that one of a wrong
length leaves the controller as it is and faults nothing. Only the clauses on the buffer assume that none is held; those on length, count
and range say it of every state. -/
theorem not_tablesAreWrittenAndStaged : ¬ Obligations.TablesAreWrittenAndStaged := by
  rintro ⟨-, loads⟩
  have front : emptyLoadTaken.toChip.headOp 0 0 0x10 = some emptyLoad := by decide +kernel
  have running : emptyLoadTaken.toChip.ringState 0 0 = 1 := by decide +kernel
  have faults := ((loads .a 0 emptyLoadTaken emptyLoad rfl).1 front).1 (.inr (.inl (by decide +kernel))) none
  rw [exec_nztLoad, Chip.tableLoad_waiting (p := Port.a.num) (n := (0 : Fin 64).val) front rfl rfl rfl, Host.Outcome.next.injEq] at faults
  exact Chip.faultDesc_ne_self 0x101 (by decide) (by decide) running (congrArg State.toChip faults).symm

end Sys2Proof.Machine
end

