-- ==== Sys2Proof/Proofs/TableReads.lean ====
section
/-! PROOF. Proofs/TableReads.lean: TABLE_READ (R200, R201), and a table value fetched again from its DRAM copy (R204, R205). -/

namespace Sys2Proof.Machine

/-! ### TABLE_READ (R200, R201) -/

theorem exec_tableRead (p : Port) (n : Fin 64) (s : State) :
    exec (.tableRead p n) s = .next (s.withChip (s.toChip.tableReadOut p.num n.val)) := rfl

section
variable (c : Chip) {d : List Byte}

/-- TABLE is checked before COUNT. -/
theorem Chip.readChecks_unknown (table : 6 < leField d 0x1C 1) : c.readChecks d = some 0x102 := by
  unfold Chip.readChecks
  exact if_pos table

theorem Chip.readChecks_empty (table : leField d 0x1C 1 ≤ 6) (empty : tdCount d < 1) : c.readChecks d = some 0x101 := by
  unfold Chip.readChecks
  exact (if_neg (Nat.not_lt.mpr table)).trans (if_pos (.inl empty))

variable (filled : 1 ≤ tdCount d) (len : tdLen d = 4 * tdCount d)
include filled len

theorem Chip.readChecks_nzt (table : leField d 0x1C 1 = 0) (most : tdCount d ≤ 16384) (within : tdFirst d + tdCount d ≤ c.rowsTotal) :
    c.readChecks d = none := by
  unfold Chip.readChecks
  simp only [table]
  rw [if_neg (by decide), if_neg (by simp; omega), if_neg (by simpa using len)]

theorem Chip.readChecks_sub (table : leField d 0x1C 1 = 1) (within : tdFirst d + tdCount d ≤ 16384) : c.readChecks d = none := by
  unfold Chip.readChecks
  simp only [table]
  rw [if_neg (by decide), if_neg (by simp; omega), if_neg (by simpa using len)]

end

section
variable {c : Chip} {p n : Nat} {d : List Byte} (front : c.headOp p n 0x14 = some d)
include front

theorem Chip.tableReadOut_faulty {code : Nat} (bad : c.readChecks d = some code) : c.tableReadOut p n = c.faultDesc p n code := by
  unfold Chip.tableReadOut
  simp only [front, bad]

theorem Chip.tableReadOut_posts (good : c.readChecks d = none) : c.tableReadOut p n =
    (c.emit (.post p (leField d 8 8) (c.tableBytes (leField d 0x1C 1) (tdFirst d) (tdCount d)))).complete p n 0 d [] := by
  unfold Chip.tableReadOut
  simp only [front, good]

end

/-! ### Entries read and replaced -/

section
variable (c : Chip) {i j : Nat} (v : Ver)

@[simp] theorem Chip.nztVer_setNzt : (c.setNzt i v).nztVer i = v := SMap.get_set_self ..

theorem Chip.nztVer_setNzt_ne (other : j ≠ i) : (c.setNzt i v).nztVer j = c.nztVer j := SMap.get_set_ne _ _ _ other _

theorem Chip.subVer_setSub_ne (other : j ≠ i) : (c.setSub i v).subVer j = c.subVer j := SMap.get_set_ne _ _ _ other _

end

section
variable {c d : Chip}

theorem Chip.nztVer_congr (same : d.nzt = c.nzt) (i : Nat) : d.nztVer i = c.nztVer i := by
  unfold Chip.nztVer
  rw [same]

theorem Chip.subVer_congr (same : d.sub = c.sub) (i : Nat) : d.subVer i = c.subVer i := by
  unfold Chip.subVer
  rw [same]

end

/-! ### What leaves the tables and the armed run alone -/

/-- The nozzle and substitution tables and the armed run are as they were. -/
structure Chip.keepsTables (c d : Chip) : Prop where
  nzt : d.nzt = c.nzt
  sub : d.sub = c.sub
  run : d.run = c.run

section
variable {c d e : Chip}

theorem Chip.keepsTables_refl (c : Chip) : c.keepsTables c := ⟨rfl, rfl, rfl⟩

theorem Chip.keepsTables.trans (h : c.keepsTables d) (k : d.keepsTables e) : c.keepsTables e :=
  ⟨k.nzt.trans h.nzt, k.sub.trans h.sub, k.run.trans h.run⟩

theorem Chip.keepsTables.congr (h : c.keepsTables d) (nzt : e.nzt = d.nzt := by rfl) (sub : e.sub = d.sub := by rfl)
    (run : e.run = d.run := by rfl) : c.keepsTables e :=
  h.trans ⟨nzt, sub, run⟩

theorem Chip.keepsTables.raise (h : c.keepsTables d) (src cause : Nat) (items : List (Nat × Nat)) :
    c.keepsTables (d.raise src cause items) := by
  refine h.congr ?_ ?_ ?_ <;> rw [Chip.raise_rest d src cause items]

theorem Chip.keepsTables.raiseIf (h : c.keepsTables d) (b : Bool) (src cause : Nat) (items : List (Nat × Nat)) :
    c.keepsTables (d.raiseIf b src cause items) := by
  unfold Chip.raiseIf
  split
  · exact h.raise ..
  · exact h

theorem Chip.keepsTables.showStage (h : c.keepsTables d) : c.keepsTables d.showStage := h.congr

theorem Chip.keepsTables.clearRuns (h : c.keepsTables d) (row old new : Nat) : c.keepsTables (d.clearRuns row old new) := by
  unfold Chip.clearRuns
  split
  · exact h
  · exact h.congr

theorem Chip.keepsTables.record (h : c.keepsTables d) (type source layer band object detail : Nat) :
    c.keepsTables (d.record type source layer band object detail) := by
  refine h.congr ?_ ?_ ?_ <;> rw [(d.readOnly_record type source layer band object detail).rest]

theorem Chip.keepsTables.tandemOut (h : c.keepsTables d) (type : Nat) (bytes : List Byte) : c.keepsTables (d.tandemOut type bytes) := by
  unfold Chip.tandemOut
  extract_lets bond sent
  split
  · exact h
  · exact h.congr

theorem Chip.keepsTables.sendLog (h : c.keepsTables d) (type records : Nat) (body : List Byte) :
    c.keepsTables (d.sendLog type records body) := by
  unfold Chip.sendLog Chip.sendFrame
  extract_lets q bytes c1 c2 c3
  have out : c.keepsTables (d.tandemOut type bytes) := h.tandemOut ..
  exact out.congr

theorem Chip.keepsTables.logChange (h : c.keepsTables d) (kind source key value : Nat) (bands : List (Nat × Nat)) :
    c.keepsTables (d.logChange kind source key value bands) := by
  have logged : c.keepsTables (d.logValue kind source key value) := by
    unfold Chip.logValue
    split
    · exact Chip.keepsTables.sendLog h.congr ..
    · exact h
  unfold Chip.logChange Chip.logReady
  split
  · exact logged.sendLog ..
  · exact logged

end

/-- A head's run replaced leaves the tables. -/
theorem Chip.setHead_tables (c : Chip) (h : Nat) (x : HeadRun) : (c.setHead h x).nzt = c.nzt ∧ (c.setHead h x).sub = c.sub ∧
    (c.setHead h x).grey = c.grey := by
  unfold Chip.setHead
  split <;> exact ⟨rfl, rfl, rfl⟩

/-! ### An entry that is lost (R205) -/

/-- Of the tables and the run, a lost entry changes the entry alone: RETIRED, with nothing staged. -/
theorem Chip.keepsTables_nztLost (c : Chip) (row : Nat) :
    (c.setNzt row { c.nztVer row with force := 0x80000000, band := none, arming := none, deferred := none }).keepsTables
      (c.nztLost row) := by
  unfold Chip.nztLost Chip.loseEntry
  exact (((((Chip.keepsTables_refl _).clearRuns ..).record ..).raiseIf ..).showStage.logChange ..).raise ..

/-! ### The copy fetched (R205, R403) -/

theorem exec_nztCopyFetched (h : Fin 48) (r : CopyRead) (s : State) :
    exec (.nztCopyFetched h r) s = .next (s.withChip (s.toChip.copyFetched h.val r)) := rfl

section
variable {c : Chip} {h : Nat}

/-- A head that waits for a table value runs in an armed layer. -/
theorem Chip.armed_of_eccHold {cell : TableCell} (holds : (c.headRun h).eccHold = some cell) : c.run.isSome = true := by
  cases armed : c.run with
  | some r => rfl
  | none =>
    unfold Chip.headRun at holds
    rw [armed] at holds
    cases holds

theorem Chip.copyFetched_idle (idle : (c.headRun h).eccHold = none) (r : CopyRead) : c.copyFetched h r = c := by
  unfold Chip.copyFetched
  rw [idle]

variable {cell : TableCell} (holds : (c.headRun h).eccHold = some cell)
include holds

theorem Chip.copyFetched_clean (copy : Option (BitVec 64)) : c.copyFetched h ⟨copy, none⟩ =
    c.nztCopy h (if copyKey cell ∈ c.copyPoison then none else copy) := by
  unfold Chip.copyFetched
  simp only [holds, List.contains_iff_mem]

theorem Chip.copyFetched_lost : c.copyFetched h ⟨none, none⟩ = c.nztCopy h none := by
  rw [Chip.copyFetched_clean holds, ite_self]

theorem Chip.copyFetched_err (copy : Option (BitVec 64)) (err : RawRead) : c.copyFetched h ⟨copy, some err⟩ =
    (c.dramError ⟨err.kind, err.off, 2, .region 0⟩).copyFetched h ⟨if DramKind.correctable err.kind then copy else none, none⟩ := by
  have same := (c.readOnly_dramError err.kind err.off 2 0).rest
  have holds' : ((c.dramError ⟨err.kind, err.off, 2, .region 0⟩).headRun h).eccHold = some cell := by
    rw [Chip.headRun_congr (by rw [same])]
    exact holds
  have poison : (c.dramError ⟨err.kind, err.off, 2, .region 0⟩).copyPoison = c.copyPoison := by rw [same]
  rw [Chip.copyFetched_clean holds', poison]
  unfold Chip.copyFetched
  simp only [holds]
  congr 1
  by_cases bad : copyKey cell ∈ c.copyPoison <;> cases DramKind.correctable err.kind <;> simp [bad]

end

/-! ### The copy written back, or lost too (R205) -/

/-- The head's packing waits for no table value. -/
def Chip.packs (c : Chip) (h : Nat) : Chip := c.setHead h { c.headRun h with eccHold := none }

section
variable (c : Chip) (h i g : Nat)

theorem Chip.nztVer_packs : (c.packs h).nztVer i = c.nztVer i := Chip.nztVer_congr (c.setHead_tables h _).1 i

theorem Chip.subVer_packs : (c.packs h).subVer i = c.subVer i := Chip.subVer_congr (c.setHead_tables h _).2.1 i

theorem Chip.greyVer_packs : (c.packs h).greyVer i g = c.greyVer i g := by
  unfold Chip.greyVer
  rw [show (c.packs h).grey = c.grey from (c.setHead_tables h _).2.2]

end

section
variable {c : Chip} {h : Nat}

theorem Chip.packs_eccHold {cell : TableCell} (holds : (c.headRun h).eccHold = some cell) : ((c.packs h).headRun h).eccHold = none := by
  unfold Chip.packs
  rw [Chip.headRun_setHead (Chip.armed_of_eccHold holds), if_pos rfl]

theorem Chip.nztCopy_grey {t : Fin 16} {g : Fin 48} (holds : (c.headRun h).eccHold = some (.grey t g)) (w : BitVec 64) :
    c.nztCopy h (some w) = (c.packs h).setGrey t.val g.val { c.greyVer t.val g.val with force := w.toNat } := by
  rw [← Chip.greyVer_packs c h]
  unfold Chip.nztCopy
  rw [holds]
  rfl

section
variable {r : Fin 196608} (holds : (c.headRun h).eccHold = some (.nzt r))
include holds

theorem Chip.nztCopy_nzt (w : BitVec 64) :
    c.nztCopy h (some w) = (c.packs h).setNzt r.val { c.nztVer r.val with force := w.toNat % 2 ^ 32 } := by
  rw [← Chip.nztVer_packs c h]
  unfold Chip.nztCopy
  rw [holds]
  rfl

theorem Chip.nztCopy_nzt_lost : c.nztCopy h none = (c.packs h).nztLost r.val := by
  unfold Chip.nztCopy
  rw [holds]
  rfl

/-- A nozzle entry lost for good is retired and told as EV048 with cause LOST; no other changes, and the packing goes on. -/
theorem Chip.nztCopy_nzt_shows : ((c.nztCopy h none).nztVer r.val).force = 0x80000000 ∧
    ((c.nztCopy h none).nztVer r.val).newest = 0x80000000 ∧ ((c.nztCopy h none).headRun h).eccHold = none ∧
    (c.nztCopy h none).get Reg.EVT_LAST_SOURCE = 48 ∧ (c.nztCopy h none).get Reg.EVT_LAST_CAUSE = 1 ∧
    ∀ j, j ≠ r.val → (c.nztCopy h none).nztVer j = c.nztVer j := by
  rw [Chip.nztCopy_nzt_lost holds]
  have kept := (c.packs h).keepsTables_nztLost r.val
  have entry := (Chip.nztVer_congr kept.nzt r.val).trans (Chip.nztVer_setNzt ..)
  refine ⟨by rw [entry], by rw [entry]; rfl, ?_, Chip.raise_source _ 48 1 _ (by decide), Chip.raise_cause _ 48 1 _ (by decide) (by decide),
    fun j other => ?_⟩
  · rw [Chip.headRun_congr kept.run]
    exact Chip.packs_eccHold holds
  · rw [Chip.nztVer_congr kept.nzt, Chip.nztVer_setNzt_ne _ _ other, Chip.nztVer_packs]

end

section
variable {k : Fin 16384} (holds : (c.headRun h).eccHold = some (.sub k))
include holds

theorem Chip.nztCopy_sub (w : BitVec 64) :
    c.nztCopy h (some w) = (c.packs h).setSub k.val { c.subVer k.val with force := w.toNat % 2 ^ 32 } := by
  rw [← Chip.subVer_packs c h]
  unfold Chip.nztCopy
  rw [holds]
  rfl

/-- A substitution entry lost for good takes some value, told as EV048 with cause LOST. -/
theorem Chip.nztCopy_sub_lost : ∃ v items, c.nztCopy h none = ((c.packs h).drawn.setSub k.val v).showStage.raise 48 1 items := by
  unfold Chip.nztCopy
  rw [holds]
  exact ⟨_, _, rfl⟩

theorem Chip.nztCopy_sub_shows : ((c.nztCopy h none).headRun h).eccHold = none ∧ (c.nztCopy h none).get Reg.EVT_LAST_SOURCE = 48 ∧
    (c.nztCopy h none).get Reg.EVT_LAST_CAUSE = 1 ∧ (c.nztCopy h none).nzt = c.nzt ∧
    ∀ j, j ≠ k.val → (c.nztCopy h none).subVer j = c.subVer j := by
  obtain ⟨v, items, lost⟩ := Chip.nztCopy_sub_lost holds
  rw [lost]
  have kept := (Chip.keepsTables_refl ((c.packs h).drawn.setSub k.val v)).showStage.raise 48 1 items
  refine ⟨?_, Chip.raise_source _ 48 1 _ (by decide), Chip.raise_cause _ 48 1 _ (by decide) (by decide),
    kept.nzt.trans (c.setHead_tables h _).1, fun j other => ?_⟩
  · rw [Chip.headRun_congr kept.run]
    exact Chip.packs_eccHold holds
  · rw [Chip.subVer_congr kept.sub, Chip.subVer_setSub_ne _ _ other]
    exact c.subVer_packs h j

end

end

end Sys2Proof.Machine
end

