-- ==== Sys2Proof/Proofs/MoraineLedger.lean ====
section
/-! PROOF. Proofs/MoraineLedger.lean: the ledger queued for its report ring, a record entered, and the records written to flash in
their order (R208, R210, R486). -/

namespace Sys2Proof.Machine

/-! ### The ledger as one item (R208, R210) -/

theorem exec_moraineExport {s : State} (awake : s.awake) (p : Port) (v : Word) :
    exec (.moraineExport p v) s = .next (s.withChip (s.toChip.moraineCtrl v.toNat)) :=
  State.access_of_awake awake fun c => c.moraineCtrl v.toNat

/-- An item queued waits behind those that waited before (R111). -/
theorem Chip.queueState_items (c : Chip) (p n kind : Nat) (body : List Byte) : (c.queueState p n kind body).stateItems =
    c.stateItems ++ [{ port := p, ring := n, kind := kind, body := body, onChip := !c.flag Reg.CFG_STATUS_COMMITTED }] := by
  unfold Chip.queueState
  rw [(Chip.told_stateHold _).rest]

/-- The ledger as one item of KIND 0x13. -/
theorem Chip.moraineCtrl_queues (c : Chip) {v : Nat} (asked : bit v 0 = true) : c.moraineCtrl v =
    c.queueState (c.get Reg.CRN_REPORT_PORT) (c.get Reg.CRN_REPORT_RING) 0x13 (c.ledger ++ c.ledgerPend).flatten := if_pos asked

theorem Chip.moraineCtrl_idle (c : Chip) {v : Nat} (idle : bit v 0 = false) : c.moraineCtrl v = c :=
  if_neg (Bool.eq_false_iff.mp idle)

/-! ### A record entered (R208, R210) -/

section
variable (c : Chip) (type source layer band object detail : Nat)

/-- The record's bytes. -/
def Chip.recordBytes : List Byte :=
  Moraine.bytes ⟨type, source, c.now, layer, band, object, detail, c.get Reg.CRN_MORAINE_SEQ_NEXT, c.get Reg.GLB_NODE_NODE⟩

/-- The record waiting for flash, and the next SEQ. -/
def Chip.recorded : Chip :=
  ({ c with ledgerPend := c.ledgerPend ++ [c.recordBytes type source layer band object detail] }.put Reg.CRN_MORAINE_SEQ_NEXT
    (c.get Reg.CRN_MORAINE_SEQ_NEXT + 1)).put Reg.CRN_MORAINE_STATUS_UNWRITTEN (min (c.ledgerPend.length + 1) 255)

/-- A record is entered, and the first that no longer fits fills the ledger. -/
theorem Chip.record_cases : c.record type source layer band object detail = c.recorded type source layer band object detail ∨
    c.record type source layer band object detail = ({ c.recorded type source layer band object detail with ledgerFull := true }.put
      Reg.CRN_MORAINE_STATUS_FULL 1).raise 52 3 [] := by
  have count : (c.ledgerPend ++ [c.recordBytes type source layer band object detail]).length = c.ledgerPend.length + 1 :=
    List.length_append
  unfold Chip.recorded
  rw [← count]
  unfold Chip.record
  dsimp only
  split
  · exact .inl rfl
  · exact .inr rfl

theorem Chip.recorded_seq : (c.recorded type source layer band object detail).get Reg.CRN_MORAINE_SEQ_NEXT =
    (c.get Reg.CRN_MORAINE_SEQ_NEXT + 1) % 2 ^ 32 :=
  (Chip.get_put_ne _ _ _ _ (by decide)).trans (Chip.get_put_self ..)

/-- A record written takes the next SEQ and waits behind the others; none already in flash changes. -/
theorem Chip.record_shows : (c.record type source layer band object detail).get Reg.CRN_MORAINE_SEQ_NEXT =
      (c.get Reg.CRN_MORAINE_SEQ_NEXT + 1) % 2 ^ 32 ∧ (c.record type source layer band object detail).ledger = c.ledger ∧
    (c.record type source layer band object detail).ledgerPend =
      c.ledgerPend ++ [c.recordBytes type source layer band object detail] := by
  have seq := c.recorded_seq type source layer band object detail
  rcases c.record_cases type source layer band object detail with fits | full
  · rw [fits]
    exact ⟨seq, rfl, rfl⟩
  · rw [full, Chip.get_raise _ _ _ (by decide) (by decide) (by decide), Chip.get_put_ne _ _ _ _ (by decide), Chip.raise_rest]
    exact ⟨seq, rfl, rfl⟩

end

/-! ### Records written to flash (R210, R486) -/

theorem exec_moraineFlashWrite (s : State) : exec .moraineFlashWrite s = .next (s.withChip s.toChip.flashRecord) := rfl

/-- The oldest record programmed, and in the ledger. -/
def Chip.programmed (c : Chip) (r : List Byte) (rest : List (List Byte)) : Chip :=
  { c.emits (ledgerOps c.ledgerUsed r) with ledger := c.ledger ++ [r], ledgerPend := rest }

section
variable {c : Chip} {r : List Byte} {rest : List (List Byte)} (oldest : c.ledgerPend = r :: rest)
include oldest

theorem Chip.flashRecord_waits (waits : c.conf.erasing = true ∨ 32768 ≤ c.ledgerUsed) : c.flashRecord = c := by
  unfold Chip.flashRecord
  rw [oldest]
  exact if_pos waits

theorem Chip.flashRecord_programs (free : c.conf.erasing = false) (fits : c.ledgerUsed < 32768) : c.flashRecord =
    (c.programmed r rest).showLedger.raiseIf (decide (c.ledger.length + 1 = 30720)) 51 0 [] := by
  have room : ¬(c.conf.erasing = true ∨ 32768 ≤ c.ledgerUsed) := by
    rw [free]
    simpa using fits
  have count : (c.ledger ++ [r]).length = c.ledger.length + 1 := List.length_append
  unfold Chip.flashRecord
  rw [oldest, ← count]
  exact if_neg room

end

/-- CRN.MORAINE_STATUS follows the ledger, and nothing else changes. -/
theorem Chip.onlyRegs_showLedger (c : Chip) : c.onlyRegs c.showLedger [Reg.CRN_MORAINE_STATUS_RECORDS.off] :=
  (((c.onlyRegs_refl _).put Reg.CRN_MORAINE_STATUS_RECORDS _ (by decide)).put Reg.CRN_MORAINE_STATUS_UNWRITTEN _ (by decide)).put
    Reg.CRN_MORAINE_STATUS_FULL _ (by decide)

/-- UNWRITTEN counts the records that wait, up to 255. -/
theorem Chip.showLedger_unwritten (c : Chip) :
    c.showLedger.get Reg.CRN_MORAINE_STATUS_UNWRITTEN = min c.ledgerPend.length 255 := by
  refine (Chip.get_putB_ne _ _ _ _ (by decide)).trans ((Chip.get_put_self ..).trans (Nat.mod_eq_of_lt ?_))
  show min c.ledgerPend.length 255 < 256
  omega

/-- An event raised, or none, changes no register outside the event block, no more than a raise of the rest, and takes nothing back
that has been put out. -/
theorem Chip.raiseIf_frame (c : Chip) (b : Bool) {src : Nat} (cause : Nat) (items : List (Nat × Nat)) (hs : src < 256) :
    c.eventRegs (c.raiseIf b src cause items) ∧ c.sameBut5 (c.raiseIf b src cause items) ∧
      c.out <+: (c.raiseIf b src cause items).out := by
  unfold Chip.raiseIf
  split
  · exact ⟨c.raise_regs src cause items hs, c.raise_rest .., c.raise_out ..⟩
  · exact ⟨c.eventRegs_refl, c.sameBut5_refl, List.prefix_rfl⟩

/-- The oldest record that fits is programmed in both copies with its check words and leaves those that wait; the 30,720th is told. -/
theorem Chip.flashRecord_shows {c : Chip} {r : List Byte} {rest : List (List Byte)} (oldest : c.ledgerPend = r :: rest)
    (free : c.conf.erasing = false) (fits : c.ledgerUsed < 32768) :
    c.flashRecord.ledger = c.ledger ++ [r] ∧ c.flashRecord.ledgerPend = rest ∧
      c.out ++ ledgerOps c.ledgerUsed r <+: c.flashRecord.out ∧
      (c.ledger.length + 1 = 30720 → c.flashRecord.get Reg.EVT_LAST_SOURCE = 51) ∧
      c.flashRecord.get Reg.CRN_MORAINE_STATUS_UNWRITTEN = min rest.length 255 ∧
      c.keepsRegs c.flashRecord [Reg.CRN_MORAINE_STATUS_RECORDS.off] := by
  rw [Chip.flashRecord_programs oldest free fits]
  obtain ⟨shown, status⟩ := (c.programmed r rest).onlyRegs_showLedger
  have unwritten := (c.programmed r rest).showLedger_unwritten
  obtain ⟨regs, same, out⟩ := (c.programmed r rest).showLedger.raiseIf_frame (decide (c.ledger.length + 1 = 30720)) 0 []
    (by decide : 51 < 256)
  refine ⟨by rw [same, shown]; rfl, by rw [same, shown]; rfl, ?_, fun last => ?_, ?_, fun f low quiet other => ?_⟩
  · rw [shown] at out
    exact out
  · rw [decide_eq_true last]
    exact Chip.raise_source _ 51 0 [] (by decide)
  · exact (regs _ (by decide) (by decide)).trans unwritten
  · exact (regs f low quiet).trans (status f low other)

/-- Settles O35: reads by their checks and what they post, fetched copies by the cell that the head's packing waits for, records by what
a ledger entry and a programmed position change. -/
theorem tablesAreReadAndMoraineIsKept : Obligations.TablesAreReadAndMoraineIsKept := by
  unfold Obligations.TablesAreReadAndMoraineIsKept
  refine ⟨fun p n s d front => ?_, fun h s => ?_, ⟨fun p v s awake asked => ?_, fun p v s awake clear => ?_, ?_⟩,
    fun s r rest oldest => ?_⟩
  · intro c table first count
    rw [exec_tableRead]
    refine ⟨fun unknown => ?_, fun known empty => ?_, fun nzt filled most within len => ?_, fun sub filled within len => ?_⟩
    · rw [Chip.tableReadOut_faulty front (c.readChecks_unknown unknown)]
    · rw [Chip.tableReadOut_faulty front (c.readChecks_empty known empty)]
    · rw [Chip.tableReadOut_posts front (c.readChecks_nzt filled len nzt most within), show leField d 0x1C 1 = 0 from nzt]
      rfl
    · rw [Chip.tableReadOut_posts front (c.readChecks_sub filled len sub within), show leField d 0x1C 1 = 1 from sub]
      rfl
  · intro c x e
    simp only [exec_nztCopyFetched]
    refine ⟨fun idle v dram => ?_, fun cell w holds poisoned => ?_, fun r holds => ⟨fun w clean => ?_, _, rfl, ?_⟩,
      fun k holds => ⟨fun w clean => ?_, _, rfl, ?_⟩, fun t g holds w clean => ?_, fun copy err waits => ?_⟩
    · rw [Chip.copyFetched_idle idle, State.withChip_toChip]
    · rw [Chip.copyFetched_lost holds, Chip.copyFetched_clean holds, if_pos poisoned]
    · rw [Chip.copyFetched_clean holds, if_neg clean, Chip.nztCopy_nzt holds]
      rfl
    · rw [Chip.copyFetched_lost holds]
      exact Chip.nztCopy_nzt_shows holds
    · rw [Chip.copyFetched_clean holds, if_neg clean, Chip.nztCopy_sub holds]
      rfl
    · rw [Chip.copyFetched_lost holds]
      exact Chip.nztCopy_sub_shows holds
    · rw [Chip.copyFetched_clean holds, if_neg clean, Chip.nztCopy_grey holds]
      rfl
    · obtain ⟨cell, holds⟩ := Option.ne_none_iff_exists'.mp waits
      rw [Chip.copyFetched_err holds]
      rfl
  · refine ⟨_, exec_moraineExport awake p v, ?_⟩
    rw [Chip.moraineCtrl_queues _ asked]
    exact ⟨_, Chip.queueState_items .., rfl, rfl, rfl, rfl⟩
  · rw [exec_moraineExport awake, Chip.moraineCtrl_idle _ clear, State.withChip_toChip]
  · intro c type source layer band object detail d
    obtain ⟨seq, ledger, pend⟩ := c.record_shows type source layer band object detail
    exact ⟨seq, ledger, _, pend⟩
  · intro c pos
    refine ⟨fun waits => ?_, fun free fits => ⟨_, rfl, Chip.flashRecord_shows oldest free fits⟩⟩
    rw [exec_moraineFlashWrite, Chip.flashRecord_waits oldest waits, State.withChip_toChip]

end Sys2Proof.Machine
end

