-- ==== Sys2Proof/Proofs/LaneRules.lean ====
section
/-! PROOF. Proofs/LaneRules.lean: what a lane's data read as after a change of this lane or of another, and what the operations of a
lane's registers leave alone (R218, R245, R458, R459). -/

namespace Sys2Proof.Machine

/-! ### A map set twice -/

theorem SMap.erase_insert {V : Type} (k : Nat) (v : V) (m : SMap V) : SMap.erase k (SMap.insert k v m) = SMap.erase k m := by
  induction m with
  | nil => exact if_pos rfl
  | cons e m ih =>
    unfold SMap.insert
    split
    · exact if_pos rfl
    · simp only [SMap.erase, ih]

theorem SMap.erase_set {V : Type} [DecidableEq V] (d v : V) (k : Nat) (m : SMap V) :
    SMap.erase k (SMap.set d k v m) = SMap.erase k m := by
  have twice : SMap.erase k (SMap.erase k m) = SMap.erase k m := by
    simp only [SMap.erase_eq_filter, List.filter_filter, Bool.and_self]
  unfold SMap.set
  split
  · exact twice
  · rw [SMap.erase_insert, twice]

/-- Of two values set at one key the later stands. -/
theorem SMap.set_set {V : Type} [DecidableEq V] (d v w : V) (k : Nat) (m : SMap V) :
    SMap.set d k w (SMap.set d k v m) = SMap.set d k w m := by
  have same := SMap.erase_set d v k m
  generalize SMap.set d k v m = l at same
  unfold SMap.set
  rw [same]

/-! ### A lane's data -/

section
variable (c : Chip) (n m : Nat) (x y : Lane) (f : Field) (v : Nat)

@[simp] theorem Chip.lane_setLane : (c.setLane n x).lane n = x := SMap.get_set_self ..

theorem Chip.lane_setLane_ne (other : m ≠ n) : (c.setLane n x).lane m = c.lane m := SMap.get_set_ne _ _ _ other _

@[simp] theorem Chip.setLane_setLane : (c.setLane n x).setLane n y = c.setLane n y :=
  congrArg (fun l => { c with lanes := l }) (SMap.set_set ..)

@[simp] theorem Chip.get_setLane : (c.setLane n x).get f = c.get f := rfl

@[simp] theorem Chip.put_setLane : (c.setLane n x).put f v = (c.put f v).setLane n x := rfl

@[simp] theorem Chip.lane_put : (c.put f v).lane n = c.lane n := rfl

end

theorem Chip.lane_congr {c d : Chip} (h : d.lanes = c.lanes) (n : Nat) : d.lane n = c.lane n := by
  unfold Chip.lane
  rw [h]

theorem Chip.lane_raise (c : Chip) (src cause : Nat) (items : List (Nat × Nat)) (n : Nat) :
    (c.raise src cause items).lane n = c.lane n :=
  Chip.lane_congr (by rw [Chip.raise_rest]) n

/-- Time that passes leaves the lanes alone. -/
theorem Chip.lane_advanceTo (c : Chip) (t n : Nat) : (c.advanceTo t).lane n = c.lane n :=
  Chip.lane_congr (by rw [Chip.advanceTo_rest]) n

theorem Chip.laneUp_iff (c : Chip) (n : Nat) : c.laneUp n = true ↔ c.laneState n = 2 ∨ c.laneState n = 3 := by
  unfold Chip.laneUp
  rw [Bool.or_eq_true, decide_eq_true_eq, decide_eq_true_eq]

/-- A packet that R223 discards on a lane that carries packets. -/
theorem Chip.rxDiscard_up {c : Chip} {n : Nat} (up : c.laneUp n = true) :
    c.rxDiscard n = c.bump (Reg.THL_LANE_CRC_ERR_COUNT n) 1 := if_pos up

theorem Chip.rxDiscard_down {c : Chip} {n : Nat} (down : c.laneUp n = false) : c.rxDiscard n = c :=
  if_neg (Bool.eq_false_iff.mp down)

/-! ### Bits of a word and of registers -/

/-- A word whose bit is as given, as the controller reads it. -/
theorem bit_of_getLsbD {v : Word} {i : Nat} {b : Bool} (h : v.getLsbD i = b) : bit v.toNat i = b := h

section
variable (c : Chip) (lo hi : Field) (n : Nat) (b : Bool)

theorem Chip.onlyRegs_putPairBit {offs : List Nat} (low : lo.lo < 32 ∧ hi.lo < 32) (within : lo.off ∈ offs ∧ hi.off ∈ offs) :
    c.onlyRegs (c.putPairBit lo hi n b) offs := by
  unfold Chip.putPairBit
  split
  · exact c.onlyRegs_put _ low.1 within.1
  · exact c.onlyRegs_put _ low.2 within.2

end

end Sys2Proof.Machine
end

