-- ==== Sys2Proof/Proofs/TelemetryTaken.lean ====
section
/-! PROOF. Proofs/TelemetryTaken.lean: a TLM that is discarded, one that is not taken, and one taken that only acknowledges (R224, R234,
R244). -/

namespace Sys2Proof.Machine

/-- A command that adds to no accumulator merges nothing (R310). -/
theorem Chip.accMerge_same {c d : Chip} (acc0 : d.acc0 = c.acc0) (acc1 : d.acc1 = c.acc1) (m : Option (Fin 196608 × DramKind)) :
    d.accMerge c m = d := by
  have acc (k : Nat) : d.acc k = c.acc k := by
    unfold Chip.acc
    rw [acc0, acc1]
  cases m with
  | none => rfl
  | some m =>
    unfold Chip.accMerge
    simp only [acc, if_true]

theorem exec_tlm {n : Fin 48} {t : TlmPacket} {s : State} {d : Chip} (taken : s.toChip.headTlm n.val t = d)
    (acc0 : d.acc0 = s.toChip.acc0) (acc1 : d.acc1 = s.toChip.acc1) (m : Option (Fin 196608 × DramKind)) :
    exec (.tlm n ⟨t, m⟩) s = .next (s.withChip d) := by
  rw [← Chip.accMerge_same acc0 acc1 m, ← taken]
  rfl

section
variable {c : Chip} {n : Nat} {t : TlmPacket}

theorem Chip.tlmTaken_iff : c.tlmTaken n t = true ↔ t.crcOk = true ∧ c.laneUp n = true ∧
    ∀ q, (c.lane n).lastTlm = some q → 0 < wrapDiff t.lseq (BitVec.ofNat 16 q) := by
  unfold Chip.tlmTaken
  cases (c.lane n).lastTlm with
  | none => simp
  | some q => simp [and_assoc]

theorem Chip.headTlm_untaken (untaken : c.tlmTaken n t = false) : c.headTlm n t = c.telemetry n t := by
  unfold Chip.headTlm
  rw [if_neg (by simp [untaken])]

theorem Chip.headTlm_badCrc (bad : t.crcOk = false) : c.headTlm n t = c.rxDiscard n := by
  have untaken : c.tlmTaken n t = false := Bool.eq_false_iff.mpr fun taken =>
    Bool.noConfusion (bad.symm.trans (Chip.tlmTaken_iff.mp taken).1)
  exact (Chip.headTlm_untaken untaken).trans (if_pos bad)

theorem Chip.headTlm_passed (good : t.crcOk = true) (untaken : c.tlmTaken n t = false) : c.headTlm n t = c :=
  (Chip.headTlm_untaken untaken).trans ((if_neg (by simp [good])).trans (if_pos untaken))

/-- After no takeover is a head's accounting awaited (R440). -/
theorem Chip.takeTlm_idle (settled : c.tdm.takes = []) (h f : Nat) : c.takeTlm h f = c := by
  unfold Chip.takeTlm
  rw [settled]
  rfl

theorem Chip.tlmShots_apart (apart : c.owns = false ∨ c.inArmed n = false) : c.tlmShots n t = c :=
  if_pos (apart.imp_right .inl)

/-- A TLM without a fault bit raises nothing (R260, R261). -/
theorem Chip.headFaults_none (fault : t.fault = 0) (full : t.full = none) :
    c.headFaults n t = c.setLane n { c.lane n with fault := some 0, faultNew := false } := by
  have clear (i : Nat) : bit 0 i = false := Nat.zero_testBit i
  unfold Chip.headFaults
  rw [fault, full]
  simp [Chip.showFull, Chip.faultRises, Chip.faultOuts, Chip.on, Chip.raiseIf, clear]

/-- The LSEQ of a TLM noted, no TB_HOLD shown, and the packets it acknowledges let go (R224, R234). -/
def Chip.tlmAcked (c : Chip) (n : Nat) (t : TlmPacket) : Chip :=
  ((c.setLane n { c.lane n with lastTlm := some t.lseq.toNat }).putB (Reg.THL_LANE_STATUS_TB_HOLD n) false).ackPackets n t.ackLseq.toNat

theorem Chip.tlmAcked_owns (low : n < 48) : (c.tlmAcked n t).owns = c.owns := by
  refine Chip.flag_congr ?_
  have shown : c.keepsAt (c.putB (Reg.THL_LANE_STATUS_TB_HOLD n) false) (0x200000 ≤ ·) :=
    (Chip.keepsAt_refl c _).put (Reg.THL_LANE_STATUS_TB_HOLD n) _ (by simp [Reg.THL_LANE_STATUS_TB_HOLD]; omega)
  exact (shown.put (Reg.THL_LANE_LSEQ_ACKED n) _ (by simp [Reg.THL_LANE_LSEQ_ACKED]; omega)) _ (by decide) (by decide)

/-- A TLM taken that reports no fault, no NAK and nothing late, of a head that takes part in no layer of the owner's. -/
theorem Chip.headTlm_acks (low : n < 48) (taken : c.tlmTaken n t = true) (settled : c.tdm.takes = [])
    (apart : c.owns = false ∨ c.inArmed n = false) (fault : t.fault = 0) (full : t.full = none) (nak : t.nak = false)
    (late : t.late = false) : c.headTlm n t = ((c.putB (Reg.THL_LANE_STATUS_TB_HOLD n) false).put (Reg.THL_LANE_LSEQ_ACKED n)
      t.ackLseq.toNat).setLane n { c.lane n with
        lastTlm := some t.lseq.toNat
        kept := (c.lane n).kept.filter fun (k : Kept) => decide (0 < wrapDiff (BitVec.ofNat 16 k.lseq) (BitVec.ofNat 16 t.ackLseq.toNat))
        replay := (c.lane n).replay.filter fun (k : Kept) => decide (0 < wrapDiff (BitVec.ofNat 16 k.lseq) (BitVec.ofNat 16 t.ackLseq.toNat))
        fault := some 0
        faultNew := false } := by
  have good := (Chip.tlmTaken_iff.mp taken).1
  have still : (c.tlmAcked n t).tlmShots n t = c.tlmAcked n t :=
    Chip.tlmShots_apart (apart.imp_left fun passive => (Chip.tlmAcked_owns low).trans passive)
  have acked : c.headTlm n t = (c.tlmAcked n t).headFaults n t := by
    unfold Chip.headTlm
    simp only [Chip.takeTlm_idle settled, ite_self]
    unfold Chip.telemetry
    rw [if_neg (by simp [good]), if_neg (by simp [taken]), ← still]
    simp only [nak, late, full, fault]
    rfl
  rw [acked, Chip.headFaults_none fault full]
  unfold Chip.tlmAcked Chip.ackPackets Chip.putB
  simp only [Chip.put_setLane, Chip.lane_setLane, Chip.setLane_setLane]

end

/-- Settles O39: a TLM that is not taken changes its count at most; one taken without a report leaves what `headTlm_acks` says. -/
theorem telemetryAcknowledgesPackets : Obligations.TelemetryAcknowledgesPackets := by
  unfold Obligations.TelemetryAcknowledgesPackets
  intro n t m s c l later
  refine ⟨fun bad up => ?_, fun bad down => ?_, fun good untaken => ?_,
    fun good up new settled apart fault full nak late => ?_⟩
  · exact exec_tlm ((Chip.headTlm_badCrc bad).trans (Chip.rxDiscard_up up)) rfl rfl m
  · exact exec_tlm ((Chip.headTlm_badCrc bad).trans (Chip.rxDiscard_down down)) rfl rfl m
  · have passed : c.tlmTaken n.val t = false := by
      rw [Bool.eq_false_iff, Ne, Chip.tlmTaken_iff]
      rintro ⟨-, up, new⟩
      exact untaken.elim (fun down => by simp [up] at down) fun old => old new
    exact exec_tlm (Chip.headTlm_passed good passed) rfl rfl m
  · have taken : c.tlmTaken n.val t = true := Chip.tlmTaken_iff.mpr ⟨good, up, new⟩
    exact exec_tlm (Chip.headTlm_acks n.isLt taken settled apart fault full nak late) rfl rfl m

end Sys2Proof.Machine
end

