-- ==== Sys2Proof/Proofs/HeadRequests.lean ====
section
/-! PROOF. Proofs/HeadRequests.lean: a head's request answered, tried again or failed (R231, R233). -/

namespace Sys2Proof.Machine

theorem exec_mgmtResponse (n : Fin 48) (m : MgmtResponse) (s : State) :
    exec (.mgmtResponse n m) s = .next (s.withChip (s.toChip.mgmtAnswer n.val m)) := rfl

theorem exec_mgmtTimeout (n : Fin 48) (s : State) : exec (.mgmtTimeout n) s = .next (s.withChip (s.toChip.mgmtOverdue n.val)) := rfl

/-! ### An answer (R231, R233) -/

section
variable {c : Chip} {n : Nat} {m : MgmtResponse} (up : c.laneUp n = true)
include up

theorem Chip.mgmtAnswer_discarded (bad : m.good = false) : c.mgmtAnswer n m = c.bump (Reg.THL_LANE_CRC_ERR_COUNT n) 1 := by
  unfold Chip.mgmtAnswer
  rw [if_neg (by simp [up]), if_pos bad, Chip.rxDiscard_up up]

variable (good : m.good = true)
include good

theorem Chip.mgmtAnswer_unasked (unasked : (c.lane n).mgmtOut.find? (fun (o : MgmtOut) => decide (o.tag = m.mtag.toNat)) = none) :
    c.mgmtAnswer n m = c := by
  unfold Chip.mgmtAnswer
  rw [if_neg (by simp [up]), if_neg (by simp [good])]
  simp only [unasked]

variable {o : MgmtOut} (asked : (c.lane n).mgmtOut.find? (fun (o : MgmtOut) => decide (o.tag = m.mtag.toNat)) = some o)
include asked

theorem Chip.mgmtAnswer_ok (status : m.status = .ok) : c.mgmtAnswer n m = (c.dropRequest n o.tag).answered n o.req m.data := by
  unfold Chip.mgmtAnswer
  rw [if_neg (by simp [up]), if_neg (by simp [good])]
  simp only [asked, status]

theorem Chip.mgmtAnswer_refused (ok : m.status ≠ .ok) (busy : m.status ≠ .busy) :
    c.mgmtAnswer n m = (c.dropRequest n o.tag).requestFailed n o.req := by
  unfold Chip.mgmtAnswer
  rw [if_neg (by simp [up]), if_neg (by simp [good])]
  simp only [asked]

variable (busy : m.status = .busy)
include busy

theorem Chip.mgmtAnswer_busy_dropped (dropped : o.req.why = .dropped) : c.mgmtAnswer n m = c.dropRequest n o.tag := by
  unfold Chip.mgmtAnswer
  rw [if_neg (by simp [up]), if_neg (by simp [good])]
  simp [asked, busy, dropped]

/-- A BUSY answer is a failed attempt, and the request is due again after THL.MGMT_TO (R233). -/
theorem Chip.mgmtAnswer_busy_again (exec : o.req.why ≠ .exec) (dropped : o.req.why ≠ .dropped) (few : o.fails < 2) :
    c.mgmtAnswer n m = c.setLane n { c.lane n with
      mgmtOut := (c.lane n).mgmtOut.map fun (q : MgmtOut) =>
        if q.tag = o.tag then { q with fails := o.fails + 1, busy := true, due := c.clk + 1000 * c.get Reg.THL_MGMT_TO_US } else q } := by
  unfold Chip.mgmtAnswer
  rw [if_neg (by simp [up]), if_neg (by simp [good])]
  simp only [asked, busy]
  rw [if_neg exec, if_neg dropped, if_neg (Nat.not_le.mpr few)]

end

/-! ### A request overdue (R233) -/

/-- No repeat of a request waits: taking its repeats off the queue leaves the queue. -/
theorem filter_repeats {l : List (Nat × MgmtReq)} {tag : Nat} (gone : (l.any fun q => decide (q.1 = tag)) = false) :
    (l.filter fun q => decide (q.1 ≠ tag)) = l :=
  List.filter_eq_self.mpr fun q mem => by simpa using List.any_eq_false.mp gone q mem

section
variable {c : Chip} {n : Nat} {o : MgmtOut} (sole : (c.lane n).mgmtOut = [o])
include sole

theorem Chip.awaiting_sole : (c.lane n).awaiting = if ((c.lane n).mgmtQ.any fun q => decide (q.1 = o.tag)) = true then [] else [o] := by
  unfold Lane.awaiting
  rw [sole, List.filter_singleton]
  cases (c.lane n).mgmtQ.any fun q => decide (q.1 = o.tag) <;> rfl

theorem Chip.mgmtOverdue_repeats (repeats : ((c.lane n).mgmtQ.any fun q => decide (q.1 = o.tag)) = true) : c.mgmtOverdue n = c := by
  unfold Chip.mgmtOverdue
  rw [Chip.awaiting_sole sole, if_pos repeats]
  rfl

theorem Chip.failedAttempt_sole (few : o.fails < 2) : (c.advanceTo o.due).failedAttempt n o =
    (c.advanceTo o.due).setLane n { c.lane n with
      mgmtOut := [{ o with fails := o.fails + 1 }]
      mgmtQ := (o.tag, o.req) :: (c.lane n).mgmtQ } := by
  unfold Chip.failedAttempt
  rw [if_neg (Nat.not_le.mpr few)]
  simp only [Chip.lane_advanceTo, sole, List.map_cons, List.map_nil, if_true]

/-- The one request outstanding leaves. -/
theorem Chip.dropRequest_sole : (c.advanceTo o.due).dropRequest n o.tag = (c.advanceTo o.due).setLane n { c.lane n with
    mgmtOut := []
    mgmtQ := (c.lane n).mgmtQ.filter fun q => decide (q.1 ≠ o.tag) } := by
  have left : [o].filter (fun (q : MgmtOut) => decide (q.tag ≠ o.tag)) = [] := by simp
  unfold Chip.dropRequest
  simp only [Chip.lane_advanceTo]
  rw [sole, left]

variable (gone : ((c.lane n).mgmtQ.any fun q => decide (q.1 = o.tag)) = false)
include gone

theorem Chip.mgmtOverdue_eq : c.mgmtOverdue n =
    if o.req.why = .dropped then (c.advanceTo o.due).dropRequest n o.tag
    else if o.busy = true then (c.advanceTo o.due).setLane n { c.lane n with mgmtQ := (o.tag, o.req) :: (c.lane n).mgmtQ }
    else (c.advanceTo o.due).failedAttempt n o := by
  unfold Chip.mgmtOverdue
  rw [Chip.awaiting_sole sole, if_neg (Bool.eq_false_iff.mp gone), ← c.lane_advanceTo o.due n]
  rfl

end

end Sys2Proof.Machine
end

