-- ==== Sys2Proof/Proofs/HeadControl.lean ====
section
/-! PROOF. Proofs/HeadControl.lean: a head's state set, a head without its lane, and bring-up begun again by the host (R248 to R251). -/

namespace Sys2Proof.Machine

/-! ### A head's state (R248, R249) -/

/-- The registers that show a head's state and what it has loaded. -/
def headOffs (h : Nat) : List Nat := [0x91008 + 0x40 * h, 0x9102c + 0x40 * h, 0x90030, 0x90034]

/-- A head's state as it is shown, before EV121 tells that it has left UP. -/
def Chip.headShown (c : Chip) (h st : Nat) : Chip :=
  let was := c.get (Reg.HED_HEAD_STATUS_STATE h)
  let c := c.put (Reg.HED_HEAD_STATUS_STATE h) st
  let c := if was = st then c else c.put (Reg.HED_HEAD_STATUS_STATE_CHG h) 1
  c.putPairBit Reg.HED_UP_LO_HEADS Reg.HED_UP_HI_HEADS h (decide (st = 5))

section
variable (c : Chip) (h st : Nat)

theorem Chip.setHeadState_eq : c.setHeadState h st =
    (c.headShown h st).raiseIf (decide (c.get (Reg.HED_HEAD_STATUS_STATE h) = 5) && decide (st ≠ 5)) 121 0 [] := rfl

theorem Chip.onlyRegs_headShown : c.onlyRegs (c.headShown h st) (headOffs h) := by
  have state : c.onlyRegs (c.put (Reg.HED_HEAD_STATUS_STATE h) st) (headOffs h) :=
    c.onlyRegs_put _ (by show 0 < 32; decide) (List.mem_cons_self ..)
  have changed : (c.put (Reg.HED_HEAD_STATUS_STATE h) st).onlyRegs ((c.put (Reg.HED_HEAD_STATUS_STATE h) st).put
      (Reg.HED_HEAD_STATUS_STATE_CHG h) 1) (headOffs h) :=
    Chip.onlyRegs_put _ _ (by show 24 < 32; decide) (List.mem_cons_self ..)
  unfold Chip.headShown
  dsimp only
  refine Chip.onlyRegs_trans ?_ (Chip.onlyRegs_putPairBit _ _ _ _ _ (by decide) (by simp [headOffs, Reg.HED_UP_LO_HEADS, Reg.HED_UP_HI_HEADS]))
  split
  · exact state
  · exact Chip.onlyRegs_trans state changed

theorem Chip.get_headShown : (c.headShown h st).get (Reg.HED_HEAD_STATUS_STATE h) = st % 8 := by
  have pair (d : Chip) (b : Bool) : (d.putPairBit Reg.HED_UP_LO_HEADS Reg.HED_UP_HI_HEADS h b).get (Reg.HED_HEAD_STATUS_STATE h) =
      d.get (Reg.HED_HEAD_STATUS_STATE h) :=
    (d.onlyRegs_putPairBit (offs := [0x90030, 0x90034]) _ _ h b (by decide) (by decide)).2 _ (by show 0 < 32; decide)
      (by simp [Reg.HED_HEAD_STATUS_STATE]; omega)
  unfold Chip.headShown
  rw [pair]
  split
  · exact Chip.get_put_self ..
  · rw [Chip.get_put_ne _ _ _ _ (by simp [Field.key, Reg.HED_HEAD_STATUS_STATE, Reg.HED_HEAD_STATUS_STATE_CHG])]
    exact Chip.get_put_self ..

/-- A head's state set changes registers of its own, and what a raise of EV121 changes. -/
theorem Chip.sameBut5_setHeadState : c.sameBut5 (c.setHeadState h st) := by
  have shown : c.sameBut5 (c.headShown h st) := by
    unfold Chip.sameBut5
    rw [(c.onlyRegs_headShown h st).1]
  rw [Chip.setHeadState_eq]
  exact Chip.sameBut5_trans shown (Chip.raiseIf_frame _ _ 0 [] (by decide)).2.1

theorem Chip.keepsAt_setHeadState : c.keepsAt (c.setHeadState h st) (quietOff (headOffs h)) := fun f low quiet =>
  ((Chip.raiseIf_frame _ _ 0 [] (by decide)).1 f low quiet.1).trans ((c.onlyRegs_headShown h st).2 f low quiet.2)

theorem Chip.get_setHeadState (low : h < 48) : (c.setHeadState h st).get (Reg.HED_HEAD_STATUS_STATE h) = st % 8 := by
  rw [Chip.setHeadState_eq]
  refine ((Chip.raiseIf_frame _ _ 0 [] (by decide)).1 _ (by show 0 < 32; decide) ?_).trans (c.get_headShown h st)
  simp [Reg.HED_HEAD_STATUS_STATE]
  omega

end

/-! ### A head whose lane has left LINKED and READY (R249) -/

section
variable (c : Chip) (h : Nat)

theorem Chip.onlyRegs_clearLoaded {offs : List Nat} (within : 0x9102c + 0x40 * h ∈ offs) : c.onlyRegs (c.clearLoaded h) offs := by
  have own (d : Chip) (f : Field) (low : f.lo < 32) (at' : f.off = 0x9102c + 0x40 * h) : d.onlyRegs (d.put f 0) offs :=
    d.onlyRegs_put _ low (at' ▸ within)
  exact Chip.onlyRegs_trans (Chip.onlyRegs_trans (Chip.onlyRegs_trans (own _ (Reg.HED_HEAD_LOADED_DRIVE h) (by show 0 < 32; decide) rfl)
    (own _ (Reg.HED_HEAD_LOADED_GROUPS h) (by show 1 < 32; decide) rfl)) (own _ (Reg.HED_HEAD_LOADED_TRIM h) (by show 2 < 32; decide) rfl))
    (own _ (Reg.HED_HEAD_LOADED_SLOT h) (by show 3 < 32; decide) rfl)

/-- The state of a head that was not UP is cleared without an event. -/
theorem Chip.headAbsent_quiet (down : c.get (Reg.HED_HEAD_STATUS_STATE h) ≠ 5) :
    { c with heads := (c.headAbsent h).heads }.onlyRegs (c.headAbsent h) (headOffs h) := by
  obtain ⟨b, hb⟩ : ∃ b, b = c.setHeadX h { accepted := (c.head h).accepted, lastTag := (c.head h).lastTag } := ⟨_, rfl⟩
  have cleared : b.onlyRegs (b.clearLoaded h) (headOffs h) :=
    b.onlyRegs_clearLoaded h (List.mem_cons_of_mem _ (List.mem_cons_self ..))
  have state : (b.clearLoaded h).get (Reg.HED_HEAD_STATUS_STATE h) = c.get (Reg.HED_HEAD_STATUS_STATE h) :=
    ((b.onlyRegs_clearLoaded h (List.mem_singleton_self _)).2 _ (by show 0 < 32; decide)
      (by simp [Reg.HED_HEAD_STATUS_STATE])).trans (by rw [hb]; rfl)
  have shown := (b.clearLoaded h).onlyRegs_headShown h 0
  have run : c.headAbsent h = if (b.clearLoaded h).get (Reg.HED_HEAD_STATUS_STATE h) = 0 then b.clearLoaded h
      else (b.clearLoaded h).headShown h 0 := by
    unfold Chip.headAbsent
    dsimp only
    rw [← hb]
    refine if_congr Iff.rfl rfl ?_
    rw [Chip.setHeadState_eq, state]
    simp [down, Chip.raiseIf]
  have all : b.onlyRegs (c.headAbsent h) (headOffs h) := by
    rw [run]
    split
    · exact cleared
    · exact Chip.onlyRegs_trans cleared shown
  refine ⟨?_, fun f low out => (all.2 f low out).trans (by rw [hb]; rfl)⟩
  have same := all.1
  generalize c.headAbsent h = d at same
  rw [same, hb]
  rfl

variable {c h}

theorem Chip.get_headAbsent_quiet (down : c.get (Reg.HED_HEAD_STATUS_STATE h) ≠ 5) {f : Field} (low : f.lo < 32) (out : f.off ∉ headOffs h) :
    (c.headAbsent h).get f = c.get f := (c.headAbsent_quiet h down).2 f low out

theorem Chip.lane_headAbsent_quiet (down : c.get (Reg.HED_HEAD_STATUS_STATE h) ≠ 5) (m : Nat) : (c.headAbsent h).lane m = c.lane m :=
  Chip.lane_congr (by rw [(c.headAbsent_quiet h down).1]) m

end

/-! ### Bring-up begun again (R251) -/

section
variable (c : Chip) {h : Nat}

/-- The record is read again from its first bytes, whatever requests of a bring-up before waited (R249, R251). -/
theorem Chip.bringUp_shows (low : h < 48) : (c.bringUp h).get (Reg.HED_HEAD_STATUS_STATE h) = 1 ∧
    (c.bringUp h).get (Reg.HED_HEAD_STATUS_CAUSE h) = 0 ∧ (c.bringUp h).laneState h = c.laneState h ∧
    ((c.bringUp h).head h).record = [] ∧ ((c.bringUp h).head h).accepted = (c.head h).accepted ∧
    ((c.bringUp h).lane h).mgmtQ = ((c.lane h).mgmtQ.filter fun q => !q.2.ofBringUp) ++
      [((c.lane h).mtag, MgmtReq.mk 1 0 0 0x40 [] .recFirst false)] := by
  obtain ⟨b, hb⟩ : ∃ b, b = ((c.dropBringUp h).setHeadX h { accepted := (c.head h).accepted, lastTag := (c.head h).lastTag }).clearLoaded h :=
    ⟨_, rfl⟩
  have state := b.get_setHeadState h 1 low
  have same := b.sameBut5_setHeadState h 1
  have kept := b.keepsAt_setHeadState h 1
  have up : b.laneState h = c.laneState h := by
    rw [hb]
    exact (Chip.onlyRegs_clearLoaded _ h (List.mem_singleton_self _)).2 _ (by show 0 < 32; decide)
      (by simp [Reg.THL_LANE_STATUS_STATE]; omega)
  have lanes : b.lane h = (c.dropBringUp h).lane h := by
    rw [hb]
    rfl
  have heads : b.head h = { accepted := (c.head h).accepted, lastTag := (c.head h).lastTag } := by
    rw [hb]
    exact SMap.get_set_self ..
  have run : c.bringUp h = ((b.setHeadState h 1).put (Reg.HED_HEAD_STATUS_CAUSE h) 0).mgmtRead h 0 0 0x40 .recFirst := by
    rw [hb]
    rfl
  generalize b.setHeadState h 1 = d at state same kept run
  have lane : d.lane h = (c.dropBringUp h).lane h := (Chip.lane_congr (by rw [same]) h).trans lanes
  have head : d.head h = { accepted := (c.head h).accepted, lastTag := (c.head h).lastTag } := by
    rw [← heads, same]
    rfl
  rw [run]
  have caused : d.keepsAt (d.put (Reg.HED_HEAD_STATUS_CAUSE h) 0) (· < 0x90000) :=
    (Chip.keepsAt_refl d _).put (Reg.HED_HEAD_STATUS_CAUSE h) 0 (by simp [Reg.HED_HEAD_STATUS_CAUSE]; omega)
  refine ⟨?_, Chip.get_put_self d (Reg.HED_HEAD_STATUS_CAUSE h) 0, ?_, congrArg HeadX.record head,
    (congrArg HeadX.accepted head :), ?_⟩
  · exact (Chip.get_put_ne d (Reg.HED_HEAD_STATUS_CAUSE h) (Reg.HED_HEAD_STATUS_STATE h) 0
      (by simp [Field.key, Reg.HED_HEAD_STATUS_STATE, Reg.HED_HEAD_STATUS_CAUSE])).trans state
  · rw [← up]
    refine (caused (Reg.THL_LANE_STATUS_STATE h) (by show 0 < 32; decide) ?_).trans (kept _ (by show 0 < 32; decide) ⟨?_, ?_⟩)
    all_goals simp [headOffs, Reg.THL_LANE_STATUS_STATE]
    all_goals omega
  · unfold Chip.mgmtRead Chip.mgmt
    rw [Chip.lane_setLane, Chip.lane_put, lane]
    unfold Chip.dropBringUp
    rw [Chip.lane_setLane]

/-! ### HED.HEADn_CTRL (R250, R251) -/

theorem Chip.rereadHead_discarded (bar : c.inArmed h = true ∨ c.laneUp h = false ∨ (c.configured h = true ∧ c.asConfigured h = false)) :
    c.rereadHead h = c := by
  refine if_pos (bar.imp_right fun bar => ?_)
  unfold Chip.mayBringUp
  rcases bar with down | ⟨conf, other⟩
  · rw [down]
    rfl
  · rw [conf, other]
    exact Bool.and_false _

theorem Chip.rereadHead_begins (apart : c.inArmed h = false) (up : c.laneUp h = true)
    (conf : c.configured h = true → c.asConfigured h = true) : c.rereadHead h = c.bringUp h := by
  have may : c.mayBringUp h = true := by
    unfold Chip.mayBringUp
    rw [up, Bool.true_and, Bool.or_eq_true, Bool.not_eq_true']
    exact (Bool.eq_false_or_eq_true (c.configured h)).symm.imp_right conf
  exact if_neg (by simp [apart, may])

end

section
variable {s : State} (awake : s.awake) (p : Port) (h : Fin 48) {v : Word}
include awake

theorem exec_accept (set : v.getLsbD 0 = true) (clear : v.getLsbD 1 = false) :
    exec (.accept p h v) s = .next (s.withChip (s.toChip.acceptHead h.val)) := by
  refine (State.access_of_awake awake fun c => c.headCtrl h.val v.toNat).trans ?_
  unfold Chip.headCtrl
  rw [bit_of_getLsbD set, bit_of_getLsbD clear]
  rfl

theorem exec_reread (clear : v.getLsbD 0 = false) (set : v.getLsbD 1 = true) :
    exec (.reread p h v) s = .next (s.withChip (s.toChip.rereadHead h.val)) := by
  refine (State.access_of_awake awake fun c => c.headCtrl h.val v.toNat).trans ?_
  unfold Chip.headCtrl
  rw [bit_of_getLsbD set, bit_of_getLsbD clear]
  rfl

end

/-- Settles O31: an answer by its status, a request overdue by what is left of its attempts, and ACCEPT and REREAD by the head's state. -/
theorem headRequestsEndOrAreTriedAgain : Obligations.HeadRequestsEndOrAreTriedAgain := by
  unfold Obligations.HeadRequestsEndOrAreTriedAgain
  refine ⟨fun n s up => ?_, fun p h v s awake => ?_⟩
  · intro c l without
    simp only [exec_mgmtResponse, exec_mgmtTimeout]
    refine ⟨fun m bad => ?_, fun m good unasked => ?_, fun m o good asked => ⟨fun ok => ?_, fun ok busy => ?_, fun busy dropped => ?_,
      fun busy exec dropped few => ?_⟩, fun o sole => ⟨fun repeats => ?_, fun gone dropped => ?_, fun gone dropped busy => ?_,
      fun gone dropped busy few => ?_, fun gone dropped busy last => ?_⟩⟩
    · rw [Chip.mgmtAnswer_discarded up bad]
    · rw [Chip.mgmtAnswer_unasked up good unasked, State.withChip_toChip]
    · rw [Chip.mgmtAnswer_ok up good asked ok]
      rfl
    · rw [Chip.mgmtAnswer_refused up good asked ok busy]
      rfl
    · rw [Chip.mgmtAnswer_busy_dropped up good asked busy dropped]
      rfl
    · rw [Chip.mgmtAnswer_busy_again up good asked busy exec dropped few]
    · rw [Chip.mgmtOverdue_repeats sole repeats, State.withChip_toChip]
    · rw [Chip.mgmtOverdue_eq sole gone, if_pos dropped, Chip.dropRequest_sole sole]
    · rw [Chip.mgmtOverdue_eq sole gone, if_neg dropped, if_pos busy]
    · rw [Chip.mgmtOverdue_eq sole gone, if_neg dropped, if_neg (by simp [busy]), Chip.failedAttempt_sole sole few]
    · rw [Chip.mgmtOverdue_eq sole gone, if_neg dropped, if_neg (by simp [busy])]
      unfold Chip.failedAttempt
      rw [if_pos last, Chip.dropRequest_sole sole, filter_repeats gone]
  · intro c x
    refine ⟨fun set clear held => ?_, fun set clear other => ?_, fun clear set bar => ?_, fun clear set apart up conf => ?_⟩
    · rw [exec_accept awake p h set clear]
      exact congrArg (fun d => Host.Outcome.next (s.withChip d)) (if_neg (not_not.mpr held))
    · rw [exec_accept awake p h set clear]
      exact congrArg (fun d => Host.Outcome.next (s.withChip d)) (if_pos other)
    · rw [exec_reread awake p h clear set, Chip.rereadHead_discarded _ bar, State.withChip_toChip]
    · rw [exec_reread awake p h clear set, Chip.rereadHead_begins _ apart up conf]
      exact ⟨_, rfl, c.bringUp_shows h.isLt⟩

end Sys2Proof.Machine
end

