-- ==== Sys2Proof/Proofs/LaneBuffer.lean ====
section
/-! PROOF. Proofs/LaneBuffer.lean: a FILL received at each level of the elastic buffer, and code errors counted up to the one that loses
lock (R216, R221, R243). -/

namespace Sys2Proof.Machine

theorem exec_fill (n : Fin 48) (level : Fin 33) (s : State) :
    exec (.fill n level) s = .next (s.withChip ((s.toChip.prbsErrors n.val).fillTaken n.val level.val)) := rfl

theorem exec_codeErr (n : Fin 48) (symbol : Nat) (s : State) :
    exec (.codeErr n symbol) s = .next (s.withChip (s.toChip.codeError n.val symbol)) := rfl

section
variable {c : Chip} {n : Nat}

theorem Chip.fillTaken_deaf (deaf : c.receives n = false) (level : Nat) : c.fillTaken n level = c := if_pos deaf

/-- A lane that receives nothing is in no LOOP, where alone a pattern is checked (R243). -/
theorem Chip.prbsErrors_deaf (deaf : c.receives n = false) : c.prbsErrors n = c := by
  refine if_neg fun loop => ?_
  unfold Chip.receives at deaf
  simp [loop.1] at deaf

section
variable {level : Nat} (receives : c.receives n = true)
include receives

theorem Chip.fillTaken_loses (outside : 30 < level ∨ level < 2) :
    c.fillTaken n level = (c.setLane n { c.lane n with level := level }).loseLock n 5 := by
  unfold Chip.fillTaken
  rw [if_neg (by simp [receives]), if_pos outside]

variable (independent : (c.lane n).common = false) (inside : ¬(30 < level ∨ level < 2))
include independent inside

theorem Chip.fillTaken_inside : c.fillTaken n level =
    if 20 < level then (c.countAcross 11 n (Reg.THL_LANE_FILL_DEL_COUNT n) 1).setLane n { c.lane n with level := level - 2 }
    else if level < 12 then (c.countAcross 11 n (Reg.THL_LANE_FILL_INS_COUNT n) 1).setLane n { c.lane n with level := level + 2 }
    else c.setLane n { c.lane n with level := level } := by
  unfold Chip.fillTaken
  rw [if_neg (by simp [receives]), if_neg inside, if_neg (by simp [independent])]

end

/-! ### Code errors (R221) -/

/-- An error counted and its symbol noted among the last four. -/
def Chip.errorNoted (c : Chip) (n symbol : Nat) : Chip :=
  (c.countAcross 11 n (Reg.THL_LANE_ALIGN_STATUS_CODE_ERR n) 1).setLane n
    { c.lane n with errs := (symbol :: (c.lane n).errs).take 4 }

theorem Chip.codeError_eq (c : Chip) (n symbol : Nat) : c.codeError n symbol =
    match (symbol :: (c.lane n).errs).take 4 with
    | [_, _, _, old] => if symbol < old + 256 then (c.errorNoted n symbol).loseLock n 2 else c.errorNoted n symbol
    | _ => c.errorNoted n symbol := by
  have lane : (c.countAcross 11 n (Reg.THL_LANE_ALIGN_STATUS_CODE_ERR n) 1).lane n = c.lane n := by
    unfold Chip.countAcross
    split <;> rfl
  unfold Chip.codeError
  dsimp only
  rw [lane]
  rfl

theorem Chip.codeError_few {symbol : Nat} (few : (c.lane n).errs.length < 3) : c.codeError n symbol = c.errorNoted n symbol := by
  rw [Chip.codeError_eq]
  split
  · next taken =>
    have long := congrArg List.length taken
    simp at long
    omega
  · rfl

theorem Chip.codeError_fourth {symbol x y old : Nat} {r : List Nat} (errs : (c.lane n).errs = x :: y :: old :: r) :
    c.codeError n symbol = if symbol < old + 256 then (c.errorNoted n symbol).loseLock n 2 else c.errorNoted n symbol := by
  rw [Chip.codeError_eq, errs]
  rfl

end

end Sys2Proof.Machine
end

