-- ==== Sys2Proof/Proofs/LanePackets.lean ====
section
/-! PROOF. Proofs/LanePackets.lean: what a READY lane sends at a packet boundary: a waiting CALVE first, after the ABORT of a packet it
may cut, and FILL with nothing waiting (R214, R215, R236). -/

namespace Sys2Proof.Machine

theorem exec_lanePacketSend (n : Fin 48) (s : State) :
    exec (.lanePacketSend n) s = .next (s.withChip (s.toChip.packetBoundary n.val)) := rfl

/-- The packet of a CALVE (R226). -/
def calvePacket (k trigger : Nat) : List Byte := packet 2 0 0 (leBytes 4 k ++ leBytes 1 trigger ++ leBytes 3 0)

/-- A lane with nothing in progress. -/
def Lane.idle (l : Lane) : Lane := { l with current := none, replaying := none }

/-- Nothing is in progress on a lane. -/
def Chip.laneIdle (c : Chip) (n : Nat) : Chip := c.setLane n (c.lane n).idle

theorem Chip.lane_laneIdle (c : Chip) (n : Nat) : (c.laneIdle n).lane n = (c.lane n).idle := c.lane_setLane ..

/-- What is in progress has no part in whether an ADJ is due (R229). -/
theorem Chip.adjDue_laneIdle (c : Chip) (n : Nat) : (c.laneIdle n).adjDue n = c.adjDue n := by
  unfold Chip.adjDue
  rw [c.lane_laneIdle]
  rfl

theorem Chip.wireGap_laneIdle (c : Chip) (n : Nat) : (c.laneIdle n).wireGap n = c.wireGap n := by
  unfold Chip.wireGap
  rw [c.lane_laneIdle]
  rfl

section
variable {c : Chip} {n : Nat} (ready : c.laneState n = 3)
include ready

/-- A CALVE is the first of what waits on a READY lane (R236). -/
theorem Chip.sendNext_calve {k trigger : Nat} {rest : List (Nat × Nat)} (waits : (c.lane n).calves = (k, trigger) :: rest) :
    c.sendNext n = ((c.setLane n { c.lane n with calves := rest }).bump Reg.CRN_CALVES_COUNT 1).startPacket n (.calve k trigger) none := by
  unfold Chip.sendNext
  simp [ready, waits]

theorem Chip.sendNext_idle (calves : (c.lane n).calves = []) (replay : (c.lane n).replay = []) (retimes : (c.lane n).retimes = [])
    (times : (c.lane n).times = []) (mgmt : (c.lane n).mgmtQ = []) (adj : c.adjDue n = none) (shot : c.nextShot n = none) :
    c.sendNext n = c.sendFill n := by
  unfold Chip.sendNext
  simp [ready, calves, replay, retimes, times, mgmt, adj, shot]

variable (awake : c.pstate < 2)
include awake

/-- With nothing in progress the next item goes at once. -/
theorem Chip.packetBoundary_idle (idle : (c.lane n).current = none) :
    c.packetBoundary n = (c.laneIdle n).sendNext n := by
  have up : c.laneUp n = true := (c.laneUp_iff n).mpr (.inr ready)
  have free : c.mustAbort n = false := by
    unfold Chip.mustAbort
    simp only [idle]
  unfold Chip.packetBoundary
  rw [if_neg (by simp [up]; omega), if_neg (by simp [free])]
  simp only [idle]
  rfl

/-- A packet in progress that a waiting CALVE may cut ends with ABORT. -/
theorem Chip.packetBoundary_cuts {it : LaneItem} {calve : Nat × Nat} {rest : List (Nat × Nat)} (waits : (c.lane n).calves = calve :: rest)
    (current : (c.lane n).current = some it) (other : it.type ≠ 2) (busy : c.clk < (c.lane n).currentEnd) :
    c.packetBoundary n = (c.abortPacket n).sendNext n := by
  have up : c.laneUp n = true := (c.laneUp_iff n).mpr (.inr ready)
  have cuts : c.mustAbort n = true := by
    unfold Chip.mustAbort
    simp [current, busy, ready, other, waits]
  unfold Chip.packetBoundary
  rw [if_neg (by simp [up]; omega), if_pos cuts]

end

section
variable (c : Chip) (n k trigger : Nat)

/-- A CALVE in progress: no packet of the series of R224, its symbols on the lane. -/
theorem Chip.startPacket_calve : c.startPacket n (.calve k trigger) none =
    (c.sendSyms n 2 (calvePacket k trigger)).setLane n { (c.sendSyms n 2 (calvePacket k trigger)).lane n with
      current := some (.calve k trigger)
      replaying := none } := rfl

theorem Chip.sendSyms_out (type : Nat) (bytes : List Byte) : (c.sendSyms n type bytes).out =
    c.out ++ [Output.lane n type bytes (codeGroups (c.lane n).plus (withFills (c.wireGap n) (packetSyms bytes))).1] := rfl

end

/-- What a CALVE that goes leaves: the packets of the series of R224 are kept as they were. -/
theorem Chip.sendNext_calve_shows {c : Chip} {n k trigger : Nat} {rest : List (Nat × Nat)} (ready : c.laneState n = 3)
    (waits : (c.lane n).calves = (k, trigger) :: rest) :
    (c.sendNext n).out = c.out ++ [Output.lane n 2 (calvePacket k trigger)
      (codeGroups (c.lane n).plus (withFills (c.wireGap n) (packetSyms (calvePacket k trigger)))).1] ∧
    ((c.sendNext n).lane n).calves = rest ∧ ((c.sendNext n).lane n).current = some (.calve k trigger) ∧
    ((c.sendNext n).lane n).kept = (c.lane n).kept ∧
    { c with lanes := (c.sendNext n).lanes, out := (c.sendNext n).out }.onlyRegs (c.sendNext n) [Reg.CRN_CALVES_COUNT.off] := by
  obtain ⟨b, hb⟩ : ∃ b, b = (c.setLane n { c.lane n with calves := rest }).bump Reg.CRN_CALVES_COUNT 1 := ⟨_, rfl⟩
  have lane : b.lane n = { c.lane n with calves := rest } := by
    rw [hb]
    exact c.lane_setLane ..
  have gap : b.wireGap n = c.wireGap n := by
    unfold Chip.wireGap
    rw [lane, hb]
    rfl
  have plus : (b.lane n).plus = (c.lane n).plus := by rw [lane]
  have out : b.out = c.out := by
    rw [hb]
    rfl
  have run : c.sendNext n = (b.sendSyms n 2 (calvePacket k trigger)).setLane n { (b.sendSyms n 2 (calvePacket k trigger)).lane n with
      current := some (.calve k trigger)
      replaying := none } := by
    rw [Chip.sendNext_calve ready waits, Chip.startPacket_calve, hb]
  have sent : (b.sendSyms n 2 (calvePacket k trigger)).lane n = { b.lane n with
      wire := b.wireOf n (calvePacket k trigger)
      plusFrom := (b.lane n).plus
      gapFrom := b.wireGap n
      wireFrom := b.wireFree n
      plus := (codeGroups (b.lane n).plus (b.wireOf n (calvePacket k trigger))).2
      gap := gapAfter (b.wireGap n) (b.wireOf n (calvePacket k trigger))
      currentEnd := b.wireFree n + wireNs (b.laneRate n) (b.wireOf n (calvePacket k trigger)).length } := Chip.lane_setLane ..
  rw [run]
  simp only [Chip.lane_setLane, sent, lane]
  refine ⟨?_, trivial, trivial, trivial, ?_, fun f low other => ?_⟩
  · rw [← gap, ← out, ← plus]
    exact b.sendSyms_out n 2 _
  · rw [hb]
    rfl
  · rw [hb]
    exact (c.onlyRegs_put _ (by decide) (List.mem_singleton_self _)).2 f low other

/-- A TIME packet in progress is cut, and dropped (R236). -/
theorem Chip.abortPacket_time {c : Chip} {n tq : Nat} (current : (c.lane n).current = some (.timeReq tq))
    (first : (c.lane n).replaying = none) : c.abortPacket n =
    ((c.cutSyms n).bump (Reg.THL_LANE_ABORTS_COUNT n) 1).laneIdle n := by
  unfold Chip.abortPacket
  simp only [current, first]
  rfl

theorem Chip.cutSyms_calves (c : Chip) (n : Nat) : ((c.cutSyms n).lane n).calves = (c.lane n).calves := by
  unfold Chip.cutSyms
  rw [Chip.lane_setLane]

/-- What the cut leaves: the lane READY with what waited, and the ABORT behind what has gone. -/
theorem Chip.abortPacket_time_shows {c : Chip} {n tq : Nat} (current : (c.lane n).current = some (.timeReq tq))
    (first : (c.lane n).replaying = none) : (c.abortPacket n).laneState n = c.laneState n ∧
    ((c.abortPacket n).lane n).calves = (c.lane n).calves ∧
    (c.abortPacket n).out = c.out ++ [Output.laneAbort n (c.sentSyms n).length (codeGroups (codeGroups (c.lane n).plusFrom (c.sentSyms n)).2
      (withFills (gapAfter (c.lane n).gapFrom (c.sentSyms n)) [symAbort])).1] := by
  rw [Chip.abortPacket_time current first]
  refine ⟨?_, ?_, rfl⟩
  · exact Chip.get_bump_ne (c.cutSyms n) (Reg.THL_LANE_ABORTS_COUNT n) (Reg.THL_LANE_STATUS_STATE n) 1
      (by simp [Field.key, Reg.THL_LANE_ABORTS_COUNT, Reg.THL_LANE_STATUS_STATE])
  · rw [Chip.lane_laneIdle]
    exact c.cutSyms_calves n

/-- A FILL put out, and the lane free at its end (R215). -/
theorem Chip.sendFill_eq (c : Chip) (n : Nat) : c.sendFill n =
    (c.emit (Output.laneLine n .fill (codeGroups (c.lane n).plus symsFill).1)).setLane n { c.lane n with
      gap := 2
      currentEnd := max c.clk (c.lane n).currentEnd + wireNs (c.laneRate n) 2 } := rfl

/-- Settles O29: the buffer's levels by `fillTaken_inside`, code errors by the four kept, and the lane's next packet by what waits. -/
theorem packetsAndCalvesOnALane : Obligations.PacketsAndCalvesOnALane := by
  unfold Obligations.PacketsAndCalvesOnALane
  refine ⟨fun n s => ⟨⟨Config.freeNat s.toChip.fresh, ?_⟩, ?_⟩, fun n s ready awake => ⟨?_, ?_, ?_⟩⟩
  · intro b c l count level receives independent
    rw [exec_fill, show b.prbsErrors n.val = c from rfl]
    refine ⟨fun above most => ?_, fun least most => ?_, fun least below => ?_, fun outside => ?_⟩
    · rw [Chip.fillTaken_inside receives independent (by omega), if_pos above]
      rfl
    · rw [Chip.fillTaken_inside receives independent (by omega), if_neg (by omega), if_neg (by omega)]
    · rw [Chip.fillTaken_inside receives independent (by omega), if_neg (by omega), if_pos below]
      rfl
    · rw [Chip.fillTaken_loses receives outside]
  · intro c l symbol e
    rw [exec_codeErr]
    refine ⟨fun few => ?_, fun x y old r errs => ?_⟩
    · rw [Chip.codeError_few few]
      rfl
    · rw [Chip.codeError_fourth errs]
      rfl
  · intro k trigger rest waits idle
    have lane := s.toChip.lane_laneIdle n.val
    obtain ⟨out, calves, current, kept, regs⟩ :=
      Chip.sendNext_calve_shows (c := s.toChip.laneIdle n.val) ready (by rw [lane]; exact waits)
    rw [exec_lanePacketSend, Chip.packetBoundary_idle ready awake idle]
    rw [lane, Chip.wireGap_laneIdle] at out
    rw [lane] at kept
    exact ⟨_, rfl, out, calves, current, kept, regs⟩
  · intro k trigger rest tq waits current first busy sent cut
    obtain ⟨state, calves, aborted⟩ := Chip.abortPacket_time_shows current first
    obtain ⟨out, -⟩ := Chip.sendNext_calve_shows (state.trans ready) (calves.trans waits)
    rw [exec_lanePacketSend, Chip.packetBoundary_cuts ready awake waits current (by simp [LaneItem.type]) busy]
    rw [aborted, List.append_assoc] at out
    exact ⟨_, _, rfl, out⟩
  · intro calves replay retimes times mgmt idle adj shot
    have lane := s.toChip.lane_laneIdle n.val
    have waits := Chip.sendNext_idle (c := s.toChip.laneIdle n.val) ready (by rw [lane]; exact calves) (by rw [lane]; exact replay)
      (by rw [lane]; exact retimes) (by rw [lane]; exact times) (by rw [lane]; exact mgmt)
      ((s.toChip.adjDue_laneIdle n.val).trans adj) shot
    rw [exec_lanePacketSend, Chip.packetBoundary_idle ready awake idle, waits, Chip.sendFill_eq, lane]
    refine ⟨_, rfl, ?_, ?_, ?_⟩
    · exact congrArg Lane.current (Chip.lane_setLane ..)
    · exact congrArg Lane.currentEnd (Chip.lane_setLane ..)
    · rfl

end Sys2Proof.Machine
end

