-- ==== Sys2Proof/Proofs/LaneFrames.lean ====
section
/-! PROOF. Proofs/LaneFrames.lean: a lane's state set, what it sends, and a lane that leaves LINKED and READY: what each writes, and
what it leaves of the other lanes (R218, R221, R458, R459). -/

namespace Sys2Proof.Machine

/-! ### A lane's state (R218) -/

section
variable (c : Chip) (n st : Nat)

/-- A lane's state set writes its STATUS and the READY and LINKED registers. -/
theorem Chip.onlyRegs_setLaneState {offs : List Nat} (status : 0x71004 + 0x100 * n ∈ offs) (ready : 0x70010 ∈ offs ∧ 0x70014 ∈ offs)
    (linked : 0x70018 ∈ offs ∧ 0x7001c ∈ offs) : c.onlyRegs (c.setLaneState n st) offs := by
  have state : c.onlyRegs (c.put (Reg.THL_LANE_STATUS_STATE n) st) offs := c.onlyRegs_put _ (by show 0 < 32; decide) status
  have changed := state.put (Reg.THL_LANE_STATUS_STATE_CHG n) 1 status (by show 24 < 32; decide)
  unfold Chip.setLaneState
  dsimp only
  refine Chip.onlyRegs_trans (Chip.onlyRegs_trans ?_ (Chip.onlyRegs_putPairBit _ _ _ _ _ (by decide) ready))
    (Chip.onlyRegs_putPairBit _ _ _ _ _ (by decide) linked)
  split
  · exact state
  · exact changed

/-- The READY and LINKED registers apart, the state and STATE_CHG are what is put there. -/
theorem Chip.get_setLaneState {f : Field} (own : f.off = 0x71004 + 0x100 * n) (low : f.lo < 32) : (c.setLaneState n st).get f =
    (if c.laneState n = st then c.put (Reg.THL_LANE_STATUS_STATE n) st
      else (c.put (Reg.THL_LANE_STATUS_STATE n) st).put (Reg.THL_LANE_STATUS_STATE_CHG n) 1).get f := by
  have ready (d : Chip) (b : Bool) := d.onlyRegs_putPairBit (offs := [0x70010, 0x70014]) Reg.THL_READY_LO_LANES Reg.THL_READY_HI_LANES n b
    (by decide) (by decide)
  have linked (d : Chip) (b : Bool) := d.onlyRegs_putPairBit (offs := [0x70018, 0x7001c]) Reg.THL_LINKED_LO_LANES
    Reg.THL_LINKED_HI_LANES n b (by decide) (by decide)
  exact ((linked _ _).2 f low (by simp [own]; omega)).trans ((ready _ _).2 f low (by simp [own]; omega))

theorem Chip.laneState_setLaneState (small : st < 8) : (c.setLaneState n st).laneState n = st := by
  refine (c.get_setLaneState n st (f := Reg.THL_LANE_STATUS_STATE n) rfl (by show 0 < 32; decide)).trans ?_
  have put : (c.put (Reg.THL_LANE_STATUS_STATE n) st).get (Reg.THL_LANE_STATUS_STATE n) = st :=
    (Chip.get_put_self ..).trans (Nat.mod_eq_of_lt small)
  split
  · exact put
  · exact (Chip.get_put_ne _ _ _ _ (by simp [Field.key, Reg.THL_LANE_STATUS_STATE, Reg.THL_LANE_STATUS_STATE_CHG])).trans put

theorem Chip.changed_setLaneState (changes : c.laneState n ≠ st) :
    (c.setLaneState n st).get (Reg.THL_LANE_STATUS_STATE_CHG n) = 1 := by
  refine (c.get_setLaneState n st (f := Reg.THL_LANE_STATUS_STATE_CHG n) rfl (by show 24 < 32; decide)).trans ?_
  rw [if_neg changes]
  exact Chip.get_put_self ..

end

/-! ### What a lane sends outside packets (R215, R218) -/

section
variable (c : Chip) (n : Nat) (what : LaneLine)

/-- What a lane sends is put out, and after TRAIN or a pattern its disparity is free. -/
theorem Chip.laneSends_rest : c.laneSends n what =
    { c with fresh := (c.laneSends n what).fresh, lanes := (c.laneSends n what).lanes, out := (c.laneSends n what).out } := by
  cases what <;> rfl

theorem Chip.lane_laneSends : (c.laneSends n what).lane n = { c.lane n with plus := ((c.laneSends n what).lane n).plus } := by
  cases what with
  | idle => rfl
  | fill => rfl
  | train =>
    unfold Chip.laneSends
    rw [Chip.lane_setLane]
  | prbs code =>
    unfold Chip.laneSends
    rw [Chip.lane_setLane]

theorem Chip.lane_laneSends_ne {m : Nat} (other : m ≠ n) : (c.laneSends n what).lane m = c.lane m := by
  cases what with
  | idle => rfl
  | fill => rfl
  | train => exact Chip.lane_setLane_ne _ _ _ _ other
  | prbs code => exact Chip.lane_setLane_ne _ _ _ _ other

theorem Chip.laneSends_regs : (c.laneSends n what).regs = c.regs := by rw [Chip.laneSends_rest]

end

/-! ### What one lane's going to another state leaves alone -/

/-- The registers that a lane's going to OFF, SEEK or LOOP writes. -/
def laneOffs (n : Nat) : List Nat :=
  [0x71004 + 0x100 * n, 0x7100c + 0x100 * n, 0x71038 + 0x100 * n, 0x7103c + 0x100 * n, 0x70010, 0x70014, 0x70018, 0x7001c,
    0x210034, 0x210038, 0x21003c]

/-- One lane's own data and registers change, and what events and the quarantine of its crossings change. -/
structure Chip.laneOnly (n : Nat) (c d : Chip) : Prop where
  regs : c.keepsAt d (quietOff (laneOffs n))
  lane : ∀ m, m ≠ n → d.lane m = c.lane m
  layers : d.layers = c.layers
  run : d.run = c.run

section
variable {c d e : Chip} {n : Nat}

theorem Chip.laneOnly_refl (n : Nat) (c : Chip) : Chip.laneOnly n c c := ⟨Chip.keepsAt_refl c _, fun _ _ => rfl, rfl, rfl⟩

theorem Chip.laneOnly.trans (h : Chip.laneOnly n c d) (k : Chip.laneOnly n d e) : Chip.laneOnly n c e :=
  ⟨h.regs.trans k.regs, fun m other => (k.lane m other).trans (h.lane m other), k.layers.trans h.layers, k.run.trans h.run⟩

theorem Chip.laneOnly.congr (h : Chip.laneOnly n c d) (regs : e.regs = d.regs := by rfl) (lanes : e.lanes = d.lanes := by rfl)
    (layers : e.layers = d.layers := by rfl) (run : e.run = d.run := by rfl) : Chip.laneOnly n c e :=
  h.trans ⟨(Chip.keepsAt_refl d _).of_regs regs, fun m _ => Chip.lane_congr lanes m, layers, run⟩

theorem Chip.laneOnly.put (h : Chip.laneOnly n c d) (f : Field) (v : Nat) (within : f.off ∈ laneOffs n) (low : f.lo < 32) :
    Chip.laneOnly n c (d.put f v) :=
  ⟨h.regs.putIn f v within low, h.lane, h.layers, h.run⟩

theorem Chip.laneOnly.setLane (h : Chip.laneOnly n c d) (x : Lane) : Chip.laneOnly n c (d.setLane n x) :=
  ⟨h.regs, fun m other => (d.lane_setLane_ne n m x other).trans (h.lane m other), h.layers, h.run⟩

theorem Chip.laneOnly.raise (h : Chip.laneOnly n c d) {src : Nat} (hs : src < 256) (cause : Nat) (items : List (Nat × Nat)) :
    Chip.laneOnly n c (d.raise src cause items) :=
  ⟨h.regs.raiseQuiet hs cause items, fun m other => (d.lane_raise src cause items m).trans (h.lane m other),
    by rw [Chip.raise_rest]; exact h.layers, by rw [Chip.raise_rest]; exact h.run⟩

theorem Chip.laneOnly.of_onlyRegs (h : Chip.laneOnly n c d) (k : d.onlyRegs e (laneOffs n)) : Chip.laneOnly n c e := by
  refine h.trans ⟨fun f low quiet => k.2 f low quiet.2, fun m _ => Chip.lane_congr ?_ m, ?_, ?_⟩ <;> rw [k.1]

theorem Chip.laneOnly.laneSends (h : Chip.laneOnly n c d) (what : LaneLine) : Chip.laneOnly n c (d.laneSends n what) :=
  h.trans ⟨(Chip.keepsAt_refl d _).of_regs (d.laneSends_regs n what), fun _ other => d.lane_laneSends_ne n what other,
    by rw [Chip.laneSends_rest], by rw [Chip.laneSends_rest]⟩

/-- Whether a head takes part in the armed layer is not a matter of its lane. -/
theorem Chip.laneOnly.inArmed (h : Chip.laneOnly n c d) (g : Nat) : d.inArmed g = c.inArmed g := by
  unfold Chip.inArmed Chip.armed
  rw [h.layers, h.run]

/-- A register outside the lane's own and outside the event block reads as before. -/
theorem Chip.laneOnly.get (h : Chip.laneOnly n c d) {f : Field} (low : f.lo < 32) (quiet : f.off < 0x20000 ∨ 0x22000 ≤ f.off)
    (out : f.off ∉ laneOffs n) : d.get f = c.get f := h.regs f low ⟨quiet, out⟩

theorem Chip.laneOnly.laneState (h : Chip.laneOnly n c d) {m : Nat} (small : m < 48) (other : m ≠ n) :
    d.laneState m = c.laneState m := by
  refine h.get (by show 0 < 32; decide) ?_ ?_
  all_goals simp [laneOffs, Reg.THL_LANE_STATUS_STATE]
  all_goals omega

end

/-! ### A lane goes to another state (R218, R459) -/

section
variable (c : Chip) (n : Nat)

theorem Chip.laneOnly_quarantine (x inst : Nat) : Chip.laneOnly n c (c.quarantine x inst) :=
  (Chip.laneOnly_refl n c).congr.put Reg.CKP_XING_QUAR_QUAR _ (by simp [laneOffs, Reg.CKP_XING_QUAR_QUAR]) (by decide)

/-- A queue crossing flushed: its quarantine, and what is discarded counted and told (R458). -/
theorem Chip.laneOnly_flushQueue (x inst : Nat) (depth : Option Nat) : Chip.laneOnly n c (c.flushQueue x inst depth) := by
  have held : Chip.laneOnly n c (c.quarantine x inst).drawn := (c.laneOnly_quarantine n x inst).congr
  unfold Chip.flushQueue
  extract_lets r k d d1 d2
  have counted : Chip.laneOnly n c d1 := (held.put Reg.CKP_XING_FLUSHED_COUNT _ (by simp [laneOffs, Reg.CKP_XING_FLUSHED_COUNT])
    (by decide)).put Reg.CKP_XING_LAST_XING x (by simp [laneOffs, Reg.CKP_XING_LAST_XING]) (by decide)
  have named : Chip.laneOnly n c d2 := (counted.put Reg.CKP_XING_LAST_INSTANCE inst (by simp [laneOffs, Reg.CKP_XING_LAST_INSTANCE])
    (by decide)).put Reg.CKP_XING_LAST_ENTRIES _ (by simp [laneOffs, Reg.CKP_XING_LAST_ENTRIES]) (by decide)
  split
  · exact held
  · exact named.raise (by decide) 0 _

theorem Chip.flushQueue_lanes (x inst : Nat) (depth : Option Nat) : (c.flushQueue x inst depth).lanes = c.lanes := by
  unfold Chip.flushQueue
  extract_lets r k d d1 d2
  split
  · rfl
  · rw [Chip.raise_rest]
    rfl

theorem Chip.onlyRegs_setLaneState_own (st : Nat) : c.onlyRegs (c.setLaneState n st) (laneOffs n) :=
  c.onlyRegs_setLaneState n st (by simp [laneOffs]) (by simp [laneOffs]) (by simp [laneOffs])

/-- The lane's data as it leaves, and the registers of its series, of CAPS and of its boundary cleared. -/
def Chip.laneDropped (c : Chip) (n : Nat) : Chip :=
  ((((c.setLane n ((c.lane n).dropped (c.plusNow n))).put (Reg.THL_LANE_STATUS_TIME_LOCK n) 0).put (Reg.THL_LANE_LSEQ_NEXT n) 0).put
    (Reg.THL_LANE_LSEQ_ACKED n) 0 |>.put (Reg.THL_LANE_CAPS_CAPS n) 0).put (Reg.THL_LANE_ALIGN_STATUS_COMMA_OK n) 0

theorem Chip.laneLeave_eq (st : Nat) : c.laneLeave n st = ((if (c.laneDropped n).laneState n = 0 then (c.laneDropped n).quarantine 10 n
    else (c.laneDropped n).flushQueue 10 n (some 32)).quarantine 11 n).setLaneState n st := rfl

theorem Chip.laneOnly_laneDropped : Chip.laneOnly n c (c.laneDropped n) := by
  have own (d : Chip) (f : Field) (h : Chip.laneOnly n c d) (within : f.off ∈ laneOffs n) (low : f.lo < 32) :=
    h.put f 0 within low
  refine own _ _ (own _ _ (own _ _ (own _ _ (own _ _ ((Chip.laneOnly_refl n c).setLane _) ?_ ?_) ?_ ?_) ?_ ?_) ?_ ?_) ?_ ?_
  all_goals simp [laneOffs, Reg.THL_LANE_STATUS_TIME_LOCK, Reg.THL_LANE_LSEQ_NEXT, Reg.THL_LANE_LSEQ_ACKED, Reg.THL_LANE_CAPS_CAPS,
    Reg.THL_LANE_ALIGN_STATUS_COMMA_OK]

theorem Chip.laneOnly_laneLeave (st : Nat) : Chip.laneOnly n c (c.laneLeave n st) := by
  rw [Chip.laneLeave_eq]
  refine Chip.laneOnly.of_onlyRegs (Chip.laneOnly.trans ?_ (Chip.laneOnly_quarantine _ n 11 n)) (Chip.onlyRegs_setLaneState_own _ n st)
  split
  · exact (c.laneOnly_laneDropped n).trans (Chip.laneOnly_quarantine ..)
  · exact (c.laneOnly_laneDropped n).trans (Chip.laneOnly_flushQueue ..)

theorem Chip.laneState_laneLeave {st : Nat} (small : st < 8) : (c.laneLeave n st).laneState n = st :=
  (congrArg (fun d => d.laneState n) (c.laneLeave_eq n st)).trans (Chip.laneState_setLaneState _ n st small)

theorem Chip.lane_laneLeave (st : Nat) : (c.laneLeave n st).lane n = (c.lane n).dropped (c.plusNow n) := by
  have left : (if (c.laneDropped n).laneState n = 0 then (c.laneDropped n).quarantine 10 n
      else (c.laneDropped n).flushQueue 10 n (some 32)).lanes = (c.laneDropped n).lanes := by
    split
    · rfl
    · exact Chip.flushQueue_lanes ..
  rw [Chip.laneLeave_eq]
  refine (Chip.lane_congr (d := Chip.setLaneState _ n st) ?_ n).trans (c.lane_setLane n ((c.lane n).dropped (c.plusNow n)))
  rw [(Chip.onlyRegs_setLaneState_own _ n st).1]
  exact left

/-- SEEK with TRAIN sent: nothing of the lane's packets is left (R218, R221). -/
theorem Chip.laneSeek_shows : (c.laneSeek n).laneState n = 1 ∧ ((c.laneSeek n).lane n).kept = [] ∧
    ((c.laneSeek n).lane n).current = none ∧ Chip.laneOnly n c (c.laneSeek n) := by
  obtain ⟨b, hb⟩ : ∃ b, b = (c.laneLeave n 1).laneSends n .train := ⟨_, rfl⟩
  have state : b.laneState n = 1 := by
    rw [hb]
    exact (Chip.get_congr (Chip.laneSends_regs ..) _).trans (c.laneState_laneLeave n (by decide))
  have only : Chip.laneOnly n c b := hb ▸ (c.laneOnly_laneLeave n 1).laneSends .train
  have lane : (b.lane n).kept = [] ∧ (b.lane n).current = none := by
    rw [hb, Chip.lane_laneSends, c.lane_laneLeave n 1]
    exact ⟨rfl, rfl⟩
  have run : c.laneSeek n = if b.laneRate n = 0 ∧ (b.lane n).common = false then b
      else b.setLane n { b.lane n with seekSince := some b.clk } := by
    rw [hb]
    rfl
  rw [run]
  split
  · exact ⟨state, lane.1, lane.2, only⟩
  · rw [Chip.lane_setLane]
    exact ⟨state, lane.1, lane.2, only.setLane _⟩

end

/-! ### A lane's cause (R245) -/

theorem Chip.headOut_apart {c : Chip} {h : Nat} (apart : c.inArmed h = false) : c.headOut h = c := if_neg (by simp [apart])

section
variable (c : Chip) {n : Nat} (cause : Nat)

theorem Chip.lane_laneCause (m : Nat) : (c.laneCause n cause).lane m = c.lane m := Chip.lane_raise ..

variable (low : n < 48)
include low

theorem Chip.laneOnly_laneCause : Chip.laneOnly n c (c.laneCause n cause) :=
  ((Chip.laneOnly_refl n c).put (Reg.THL_LANE_STATUS_LAST_CAUSE n) cause (List.mem_cons_self ..) (by show 16 < 32; decide)).raise
    (by omega) cause _

theorem Chip.get_laneCause {f : Field} (own : f.off = 0x71004 + 0x100 * n) (fl : f.lo < 32) :
    (c.laneCause n cause).get f = (c.put (Reg.THL_LANE_STATUS_LAST_CAUSE n) cause).get f :=
  Chip.get_raise _ cause _ (by omega) fl (.inr (by omega))

theorem Chip.laneState_laneCause : (c.laneCause n cause).laneState n = c.laneState n :=
  (c.get_laneCause cause low (f := Reg.THL_LANE_STATUS_STATE n) rfl (by show 0 < 32; decide)).trans
    (Chip.get_put_ne _ _ _ _ (by simp [Field.key, Reg.THL_LANE_STATUS_STATE, Reg.THL_LANE_STATUS_LAST_CAUSE]))

theorem Chip.lastCause_laneCause (small : cause < 32) : (c.laneCause n cause).get (Reg.THL_LANE_STATUS_LAST_CAUSE n) = cause :=
  (c.get_laneCause cause low (f := Reg.THL_LANE_STATUS_LAST_CAUSE n) rfl (by show 16 < 32; decide)).trans
    ((Chip.get_put_self ..).trans (Nat.mod_eq_of_lt small))

end

/-! ### Loss of lock (R221, R245) -/

section
variable (c : Chip) (n cause : Nat)

/-- A loss of lock counted, and what it says of a switch of rate that was under way (R222). -/
def Chip.lossNoted (c : Chip) (n : Nat) : Chip :=
  (c.setLane n { c.lane n with
    noSwitch := (c.lane n).noSwitch && !(decide (c.laneRate n = 0) && !(c.lane n).common)
    switching := false }).bump (Reg.THL_LANE_LOSSES_COUNT n) 1

theorem Chip.keepsAt_lossNoted : c.keepsAt (c.lossNoted n) (· ≠ 0x7102c + 0x100 * n) := fun f low out =>
  Chip.get_put_off (c.setLane n _) (Reg.THL_LANE_LOSSES_COUNT n) f _ (by show 0 < 32; decide) low out

theorem Chip.loseLock_down (down : c.laneUp n = false) : c.loseLock n cause = c := if_pos down

variable {c n cause}

theorem Chip.loseLock_eq (up : c.laneUp n = true) : c.loseLock n cause =
    ((((c.lossNoted n).laneSeek n).laneCause n cause).headOut n).headAbsent n := if_neg (by simp [up])

/-- A lane of a head that takes no part in a layer and is not UP loses lock. -/
theorem Chip.loseLock_shows (low : n < 48) (small : cause < 16) (up : c.laneUp n = true) (apart : c.inArmed n = false)
    (down : c.get (Reg.HED_HEAD_STATUS_STATE n) ≠ 5) :
    (c.loseLock n cause).laneState n = 1 ∧ (c.loseLock n cause).get (Reg.THL_LANE_STATUS_LAST_CAUSE n) = cause ∧
    (c.loseLock n cause).get Reg.EVT_LAST_SOURCE = 64 + n ∧ (c.loseLock n cause).get Reg.EVT_LAST_CAUSE = cause ∧
    ((c.loseLock n cause).lane n).kept = [] ∧ ((c.loseLock n cause).lane n).current = none ∧
    (c.loseLock n cause).get (Reg.THL_LANE_LOSSES_COUNT n) =
      min (c.get (Reg.THL_LANE_LOSSES_COUNT n) + 1) (2 ^ (Reg.THL_LANE_LOSSES_COUNT n).width - 1) ∧
    ∀ m, m < 48 → m ≠ n → (c.loseLock n cause).laneState m = c.laneState m ∧ (c.loseLock n cause).lane m = c.lane m := by
  have noted := c.keepsAt_lossNoted n
  obtain ⟨seek, kept, current, only⟩ := (c.lossNoted n).laneSeek_shows n
  have run := Chip.loseLock_eq (cause := cause) up
  generalize (c.lossNoted n).laneSeek n = e at seek kept current only run
  have told := only.trans (e.laneOnly_laneCause cause low)
  rw [Chip.headOut_apart ((told.inArmed n).trans apart)] at run
  have notUp : (e.laneCause n cause).get (Reg.HED_HEAD_STATUS_STATE n) ≠ 5 := by
    rw [told.get (by show 0 < 32; decide) (.inr ?_) ?_, noted _ (by show 0 < 32; decide) ?_]
    · exact down
    all_goals simp [laneOffs, Reg.HED_HEAD_STATUS_STATE]
    all_goals omega
  have regs {f : Field} (fl : f.lo < 32) (out : f.off ∉ headOffs n) : (c.loseLock n cause).get f = (e.laneCause n cause).get f := by
    rw [run]
    exact Chip.get_headAbsent_quiet notUp fl out
  have lanes (m : Nat) : (c.loseLock n cause).lane m = e.lane m := by
    rw [run, Chip.lane_headAbsent_quiet notUp]
    exact e.lane_laneCause cause m
  have status {f : Field} (own : f.off = 0x71004 + 0x100 * n) (fl : f.lo < 32) :
      (c.loseLock n cause).get f = (e.laneCause n cause).get f := regs fl (by simp [headOffs, own]; omega)
  have event {f : Field} (own : f.off < 0x22000) (fl : f.lo < 32) :
      (c.loseLock n cause).get f = (e.laneCause n cause).get f := regs fl (by simp [headOffs]; omega)
  refine ⟨?_, ?_, ?_, ?_, ?_, ?_, ?_, fun m small other => ⟨?_, ?_⟩⟩
  · exact (status (f := Reg.THL_LANE_STATUS_STATE n) rfl (by show 0 < 32; decide)).trans ((e.laneState_laneCause cause low).trans seek)
  · exact (status (f := Reg.THL_LANE_STATUS_LAST_CAUSE n) rfl (by show 16 < 32; decide)).trans
      (e.lastCause_laneCause cause low (by omega))
  · exact (event (by decide) (by decide)).trans (Chip.raise_source _ _ _ _ (by omega))
  · exact (event (by decide) (by decide)).trans (Chip.raise_cause _ _ _ _ (by omega) (by omega))
  · rw [lanes]
    exact kept
  · rw [lanes]
    exact current
  · rw [regs (by show 0 < 32; decide) (by simp [headOffs, Reg.THL_LANE_LOSSES_COUNT]; omega),
      told.get (by show 0 < 32; decide) (.inr (by simp [Reg.THL_LANE_LOSSES_COUNT]; omega))
        (by simp [laneOffs, Reg.THL_LANE_LOSSES_COUNT]; omega)]
    exact Chip.get_bump_self ..
  · rw [← show (c.lossNoted n).laneState m = c.laneState m from noted _ (by show 0 < 32; decide)
      (by simp [Reg.THL_LANE_STATUS_STATE]; omega), ← told.laneState small other]
    exact regs (by show 0 < 32; decide) (by simp [headOffs, Reg.THL_LANE_STATUS_STATE]; omega)
  · rw [lanes, only.lane m other]
    exact c.lane_setLane_ne n m _ other

end

end Sys2Proof.Machine
end

