-- ==== Sys2Proof/Proofs/LaneAlignment.lean ====
section
/-! PROOF. Proofs/LaneAlignment.lean: a search and its outcome, SLIP, a lane that links or does not in time, and a lane that loses lock
(R218 to R222, R245, R459). -/

namespace Sys2Proof.Machine

/-! ### Searches (R220) -/

theorem exec_alignSearch {n : Fin 48} {s : State} (seeks : s.toChip.laneState n.val = 1)
    (own : s.toChip.flag (Reg.THL_LANE_CFG_AUTO_ALIGN n.val) = true) (found : Option (Fin 10)) :
    exec (.alignSearch n found) s = .next (s.withChip (s.toChip.alignOnce n.val found)) :=
  congrArg (fun d => Host.Outcome.next (s.withChip d)) (if_pos ⟨seeks, own⟩)

theorem exec_alignRetry {n : Fin 48} {s : State} {t : Nat} (due : (s.toChip.lane n.val).retryAt = some t)
    (seeks : s.toChip.laneState n.val = 1) (own : s.toChip.flag (Reg.THL_LANE_CFG_AUTO_ALIGN n.val) = true) (found : Option (Fin 10)) :
    exec (.alignRetry n found) s = .next (s.withChip ((s.toChip.advanceTo t).alignOnce n.val found)) := by
  show execAlignRetry n found s = _
  unfold execAlignRetry
  simp only [due]
  rw [if_pos ⟨seeks, own⟩]
  rfl

/-- With AUTO_ALIGN clear the controller begins no search of its own. -/
theorem exec_alignRetry_host {n : Fin 48} {s : State} (host : s.toChip.flag (Reg.THL_LANE_CFG_AUTO_ALIGN n.val) = false)
    (found : Option (Fin 10)) : exec (.alignRetry n found) s = .next s := by
  show execAlignRetry n found s = _
  unfold execAlignRetry
  cases due : (s.toChip.lane n.val).retryAt with
  | none =>
    simp only [due]
    rfl
  | some t =>
    simp only [due]
    rw [if_neg (by simp [host])]
    rfl

section
variable {s : State} (awake : s.awake) (p : Port) (n : Fin 48) {v : Word}
include awake

theorem exec_search (seeks : s.toChip.laneState n.val = 1) (clear : v.getLsbD 0 = false) (set : v.getLsbD 1 = true)
    (found : Option (Fin 10)) : exec (.search p n v found) s = .next (s.withChip (s.toChip.alignOnce n.val found)) := by
  refine (State.access_of_awake awake fun c => c.alignCtrl n.val v.toNat found).trans ?_
  unfold Chip.alignCtrl
  rw [bit_of_getLsbD clear, bit_of_getLsbD set]
  exact congrArg (fun d => Host.Outcome.next (s.withChip d)) (if_pos ⟨rfl, seeks⟩)

theorem exec_slip (set : v.getLsbD 0 = true) (clear : v.getLsbD 1 = false) :
    exec (.slip p n v) s = .next (s.withChip (s.toChip.drawn.slipOnce n.val)) := by
  refine (State.access_of_awake awake fun c => c.drawn.alignCtrl n.val v.toNat (foundFree c.fresh)).trans ?_
  unfold Chip.alignCtrl
  rw [bit_of_getLsbD set, bit_of_getLsbD clear]
  exact congrArg (fun d => Host.Outcome.next (s.withChip d)) (if_neg (by simp))

end

/-- The errors of ALIGN_STATUS cleared as a search begins (R220). -/
def Chip.searchBegun (c : Chip) (n : Nat) : Chip :=
  (c.put (Reg.THL_LANE_ALIGN_STATUS_CODE_ERR n) 0).put (Reg.THL_LANE_ALIGN_STATUS_OFF_BOUNDARY n) 0

section
variable (c : Chip) (n : Nat)

/-- A search that finds no position is begun again 2 ms later in AUTO_ALIGN. -/
theorem Chip.alignOnce_none : c.alignOnce n none =
    (((c.searchBegun n).put (Reg.THL_LANE_ALIGN_STATUS_COMMA_OK n) 0).setLane n { c.lane n with
      aligned := false
      retryAt := if c.flag (Reg.THL_LANE_CFG_AUTO_ALIGN n) then some (c.clk + 2000000) else none }).laneSends n .train := by
  have kept : c.keepsAt (((c.put (Reg.THL_LANE_ALIGN_STATUS_CODE_ERR n) 0).put (Reg.THL_LANE_ALIGN_STATUS_OFF_BOUNDARY n) 0).put
      (Reg.THL_LANE_ALIGN_STATUS_COMMA_OK n) 0) (· ≠ 0x7100c + 0x100 * n) :=
    (((Chip.keepsAt_refl c _).put (Reg.THL_LANE_ALIGN_STATUS_CODE_ERR n) 0 (not_not.mpr rfl) (by show 16 < 32; decide)).put
      (Reg.THL_LANE_ALIGN_STATUS_OFF_BOUNDARY n) 0 (not_not.mpr rfl) (by show 1 < 32; decide)).put
      (Reg.THL_LANE_ALIGN_STATUS_COMMA_OK n) 0 (not_not.mpr rfl) (by show 0 < 32; decide)
  have auto := Chip.flag_congr (kept (Reg.THL_LANE_CFG_AUTO_ALIGN n) (by show 5 < 32; decide)
    (by simp [Reg.THL_LANE_CFG_AUTO_ALIGN]))
  unfold Chip.alignOnce
  dsimp only
  rw [auto]
  rfl

end

/-! ### SLIP (R220) -/

section
variable {c : Chip} {n : Nat}

theorem Chip.lookLine_eq (powered : c.laneState n ≠ 0) : ∃ off, c.lookLine n =
    (({ c with fresh := c.fresh + 2 } : Chip).putB (Reg.THL_LANE_ALIGN_STATUS_COMMA_OK n) (Config.freeBool c.fresh)).putB
      (Reg.THL_LANE_ALIGN_STATUS_OFF_BOUNDARY n) off := ⟨_, if_neg powered⟩

/-- What the line holds is looked at in ALIGN_STATUS, and POS stays. -/
theorem Chip.lookLine_shows (powered : c.laneState n ≠ 0) :
    { c with fresh := (c.lookLine n).fresh }.onlyRegs (c.lookLine n) [0x7100c + 0x100 * n] ∧
    (c.lookLine n).get (Reg.THL_LANE_ALIGN_STATUS_POS n) = c.get (Reg.THL_LANE_ALIGN_STATUS_POS n) := by
  obtain ⟨off, looked⟩ := Chip.lookLine_eq powered
  rw [looked]
  unfold Chip.putB
  refine ⟨(Chip.onlyRegs_put _ (f := Reg.THL_LANE_ALIGN_STATUS_COMMA_OK n) _ (by show 0 < 32; decide) (List.mem_singleton_self _)).put
    (Reg.THL_LANE_ALIGN_STATUS_OFF_BOUNDARY n) _ (List.mem_singleton_self _) (by show 1 < 32; decide), ?_⟩
  rw [Chip.get_put_ne _ _ _ _ (by simp [Field.key, Reg.THL_LANE_ALIGN_STATUS_POS, Reg.THL_LANE_ALIGN_STATUS_OFF_BOUNDARY]),
    Chip.get_put_ne _ _ _ _ (by simp [Field.key, Reg.THL_LANE_ALIGN_STATUS_POS, Reg.THL_LANE_ALIGN_STATUS_COMMA_OK])]
  rfl

/-- A lane in SEEK sends by the boundary it has: its aligned mark is COMMA_OK, and no register changes. -/
theorem Chip.seekSends_shows (seeks : c.laneState n = 1) :
    c.seekSends n = { c with fresh := (c.seekSends n).fresh, lanes := (c.seekSends n).lanes, out := (c.seekSends n).out } ∧
    ((c.seekSends n).lane n).aligned = c.flag (Reg.THL_LANE_ALIGN_STATUS_COMMA_OK n) := by
  obtain ⟨what, sends⟩ : ∃ what, c.seekSends n =
      (c.setLane n { c.lane n with aligned := c.flag (Reg.THL_LANE_ALIGN_STATUS_COMMA_OK n) }).laneSends n what :=
    ⟨_, if_neg (not_not.mpr seeks)⟩
  rw [sends]
  refine ⟨?_, ?_⟩
  · exact Chip.laneSends_rest ..
  · rw [Chip.lane_laneSends, Chip.lane_setLane]

/-- SLIP on a lane in SEEK: POS moved on by one of ten, and the boundary looked at again. -/
theorem Chip.slipOnce_shows (seeks : c.laneState n = 1) :
    (c.slipOnce n).get (Reg.THL_LANE_ALIGN_STATUS_POS n) = (c.get (Reg.THL_LANE_ALIGN_STATUS_POS n) + 1) % 10 ∧
    ((c.slipOnce n).lane n).aligned = (c.slipOnce n).flag (Reg.THL_LANE_ALIGN_STATUS_COMMA_OK n) ∧
    { c with fresh := (c.slipOnce n).fresh, lanes := (c.slipOnce n).lanes, out := (c.slipOnce n).out }.onlyRegs (c.slipOnce n)
      [(Reg.THL_LANE_ALIGN_STATUS_POS n).off] := by
  obtain ⟨a, ha⟩ : ∃ a, a = c.put (Reg.THL_LANE_ALIGN_STATUS_POS n) ((c.get (Reg.THL_LANE_ALIGN_STATUS_POS n) + 1) % 10) := ⟨_, rfl⟩
  have moved : c.onlyRegs a [0x7100c + 0x100 * n] :=
    ha ▸ c.onlyRegs_put (f := Reg.THL_LANE_ALIGN_STATUS_POS n) _ (by show 4 < 32; decide) (List.mem_singleton_self _)
  have own : (Reg.THL_LANE_STATUS_STATE n).off ∉ [0x7100c + 0x100 * n] := by simp [Reg.THL_LANE_STATUS_STATE]
  have still : a.laneState n = 1 := (moved.2 _ (by show 0 < 32; decide) own).trans seeks
  obtain ⟨looked, pos⟩ := Chip.lookLine_shows (c := a) (n := n) (by omega)
  obtain ⟨sends, aligned⟩ := Chip.seekSends_shows ((looked.2 _ (by show 0 < 32; decide) own).trans still)
  have run : (a.lookLine n).seekSends n = c.slipOnce n := by
    rw [ha]
    rfl
  rw [run] at sends aligned
  generalize a.lookLine n = b at looked pos sends aligned
  generalize c.slipOnce n = d at sends aligned
  have regs : d.regs = b.regs := by rw [sends]
  refine ⟨?_, aligned.trans (Chip.flag_congr (Chip.get_congr regs _).symm), ?_, fun f low out => ?_⟩
  · rw [Chip.get_congr regs, pos, ha]
    refine (Chip.get_put_self c (Reg.THL_LANE_ALIGN_STATUS_POS n) _).trans (Nat.mod_eq_of_lt ?_)
    show _ < 2 ^ 4
    omega
  · rw [sends, looked.1, moved.1]
  · exact (Chip.get_congr regs f).trans ((looked.2 f low out).trans (moved.2 f low out))

end

/-! ### Linking (R218, R219, R459) -/

/-- The lane's data as it links: what searches and a switch of rate left is over, and TIME exchanges begin. -/
def Chip.linkedLane (c : Chip) (n : Nat) : Lane :=
  { c.lane n with
    seekSince := none, switching := false, enabledAt := none, retryAt := none, errs := [], h := 0, timeDue := c.clk
    rateSent := c.getI Reg.ETM_RATE_RATE, stepSeen := c.stepSum }

/-- A lane linked, with the quarantine of its two crossings over. -/
def Chip.crossingsOpen (c : Chip) (n : Nat) : Chip := ((c.setLane n (c.linkedLane n)).endQuarantine 10 n).endQuarantine 11 n

theorem exec_linked (n : Fin 48) (s : State) : exec (.linked n) s = .next (s.withChip (s.toChip.linkUp n.val)) := rfl

section
variable {c : Chip} {n : Nat}

theorem Chip.crossingsOpen_quar : (10, n) ∉ (c.crossingsOpen n).quar ∧ (11, n) ∉ (c.crossingsOpen n).quar := by
  have quar : (c.crossingsOpen n).quar = (c.quar.filter fun (q : Nat × Nat) => decide (q ≠ (10, n))).filter
      fun (q : Nat × Nat) => decide (q ≠ (11, n)) := rfl
  rw [quar]
  simp

/-- What a lane's linking writes. -/
def linkOffs (n : Nat) : List Nat :=
  [(Reg.THL_LANE_STATUS_STATE n).off, Reg.THL_READY_LO_LANES.off, Reg.THL_READY_HI_LANES.off, Reg.THL_LINKED_LO_LANES.off,
    Reg.THL_LINKED_HI_LANES.off, Reg.CKP_XING_QUAR_QUAR.off]

theorem Chip.onlyRegs_crossingsOpen {offs : List Nat} (within : Reg.CKP_XING_QUAR_QUAR.off ∈ offs) :
    { c with lanes := (c.crossingsOpen n).lanes, quar := (c.crossingsOpen n).quar }.onlyRegs (c.crossingsOpen n) offs :=
  (Chip.onlyRegs_put _ (f := Reg.CKP_XING_QUAR_QUAR) _ (by decide) within).put Reg.CKP_XING_QUAR_QUAR _ within (by decide)

theorem Chip.onlyRegs_linked : { c with lanes := (c.crossingsOpen n).lanes, quar := (c.crossingsOpen n).quar }.onlyRegs
    ((c.crossingsOpen n).setLaneState n 2) (linkOffs n) :=
  Chip.onlyRegs_trans (Chip.onlyRegs_crossingsOpen (by simp [linkOffs])) (Chip.onlyRegs_setLaneState _ n 2
    (by simp [linkOffs, Reg.THL_LANE_STATUS_STATE]) (by simp [linkOffs, Reg.THL_READY_LO_LANES, Reg.THL_READY_HI_LANES])
    (by simp [linkOffs, Reg.THL_LINKED_LO_LANES, Reg.THL_LINKED_HI_LANES]))

section
variable (low : n < 48) (seeks : c.laneState n = 1) (aligned : (c.lane n).aligned = true) (conf : c.configured n = true)
include low seeks aligned conf

/-- A configured lane that has found its alignment is LINKED, and reads the head's capabilities. -/
theorem Chip.linkUp_eq : c.linkUp n = ((c.crossingsOpen n).setLaneState n 2).mgmtRead n 3 0 4 .caps := by
  have nozzles : ((c.crossingsOpen n).setLaneState n 2).get (Reg.HED_HEAD_CFG_NOZZLES n) = c.get (Reg.HED_HEAD_CFG_NOZZLES n) := by
    refine Chip.onlyRegs_linked.2 (Reg.HED_HEAD_CFG_NOZZLES n) (by show 0 < 32; decide) ?_
    simp [linkOffs, Reg.HED_HEAD_CFG_NOZZLES, Reg.THL_LANE_STATUS_STATE, Reg.THL_READY_LO_LANES, Reg.THL_READY_HI_LANES,
      Reg.THL_LINKED_LO_LANES, Reg.THL_LINKED_HI_LANES, Reg.CKP_XING_QUAR_QUAR]
    omega
  have asked : (((c.crossingsOpen n).setLaneState n 2).mgmtRead n 3 0 4 .caps).configured n = true := by
    unfold Chip.configured at conf ⊢
    exact (congrArg (fun k => decide (k ≠ 0)) nozzles).trans conf
  exact (if_neg (by simp [seeks, aligned])).trans (if_pos asked)

theorem Chip.linkUp_shows : (c.linkUp n).laneState n = 2 ∧
    ((c.linkUp n).lane n).mgmtQ = (c.lane n).mgmtQ ++ [((c.lane n).mtag, MgmtReq.mk 1 3 0 4 [] .caps false)] ∧
    (c.linkUp n).get (Reg.THL_LANE_STATUS_STATE_CHG n) = 1 ∧ (10, n) ∉ (c.linkUp n).quar ∧ (11, n) ∉ (c.linkUp n).quar ∧
    { c with lanes := (c.linkUp n).lanes, quar := (c.linkUp n).quar }.onlyRegs (c.linkUp n) (linkOffs n) := by
  have lane : (c.crossingsOpen n).lane n = c.linkedLane n := c.lane_setLane ..
  have seeking : (c.crossingsOpen n).laneState n = 1 :=
    ((Chip.onlyRegs_crossingsOpen (List.mem_singleton_self _)).2 (Reg.THL_LANE_STATUS_STATE n) (by show 0 < 32; decide)
      (by simp [Reg.THL_LANE_STATUS_STATE, Reg.CKP_XING_QUAR_QUAR]; omega)).trans seeks
  have state := (c.crossingsOpen n).laneState_setLaneState n 2 (by decide)
  have changed := (c.crossingsOpen n).changed_setLaneState n 2 (by omega)
  have quar := c.crossingsOpen_quar (n := n)
  obtain ⟨same, regs⟩ := c.onlyRegs_linked (n := n)
  rw [Chip.linkUp_eq low seeks aligned conf]
  generalize (c.crossingsOpen n).setLaneState n 2 = d at state changed same regs
  have queue : d.lane n = c.linkedLane n := (Chip.lane_congr (by rw [same]) n).trans lane
  have quard : d.quar = (c.crossingsOpen n).quar := by rw [same]
  refine ⟨state, ?_, changed, quard ▸ quar.1, quard ▸ quar.2, ?_, regs⟩
  · unfold Chip.mgmtRead Chip.mgmt
    rw [Chip.lane_setLane, queue]
    rfl
  · generalize d.regs = r at same
    rw [same]
    rfl

end

end

/-! ### A lane that does not link in time (R220, R222) -/

theorem exec_alignFail {n : Fin 48} {s : State} {t : Nat} (enabled : (s.toChip.lane n.val).enabledAt = some t)
    (conf : s.toChip.configured n.val = true) (first : (s.toChip.lane n.val).failTold = false) (down : s.toChip.laneUp n.val = false) :
    exec (.alignFail n) s = .next (s.withChip (((s.toChip.advanceTo (t + 1000000000)).setLane n.val
      { (s.toChip.advanceTo (t + 1000000000)).lane n.val with failTold := true }).laneCause n.val 1)) := by
  show execAlignFail n s = _
  unfold execAlignFail
  simp only [enabled]
  rw [if_pos ⟨conf, first, down⟩]
  rfl

/-- Settles O28: searches by `alignOnce`, linking by `linkUp_shows`, and loss of lock by `loseLock_shows`. -/
theorem lanesAlignLinkAndFallBack : Obligations.LanesAlignLinkAndFallBack := by
  unfold Obligations.LanesAlignLinkAndFallBack
  refine ⟨fun n s seeks => ?_, fun n s => ?_, fun c n cause low small up apart down => ?_, fun n s => ?_⟩
  · intro base hit miss c
    have none (d : Chip) : d.alignOnce n.val none = miss d := d.alignOnce_none n.val
    refine ⟨fun k own => ?_, fun own => ?_, fun t k due own => ⟨?_, ?_⟩, fun host k => ?_, fun p v k awake clear set => ⟨?_, ?_⟩,
      fun p v awake set clear => ⟨_, exec_slip awake p n set clear, Chip.slipOnce_shows seeks⟩⟩
    · exact exec_alignSearch seeks own _
    · rw [exec_alignSearch seeks own, none]
    · exact exec_alignRetry due seeks own _
    · rw [exec_alignRetry due seeks own, none]
    · exact exec_alignRetry_host host k
    · exact exec_search awake p n seeks clear set _
    · rw [exec_search awake p n seeks clear set, none]
  · intro c
    refine ⟨fun seeks aligned conf => ⟨_, exec_linked n s, Chip.linkUp_shows n.isLt seeks aligned conf⟩,
      fun t enabled conf first down => exec_alignFail enabled conf first down, fun t since seeks => ?_⟩
    have due : (s.toChip.lane n.val).seekSince = some t := since
    show execRateFail n s = _
    unfold execRateFail
    simp only [due]
    rw [if_neg (not_not.mpr seeks)]
    rfl
  · exact Chip.loseLock_shows low small up apart down
  · intro c
    refine ⟨fun down => ⟨?_, ?_⟩, fun deaf level => ?_, rfl, rfl, rfl, fun k l kept => ?_⟩
    · exact congrArg (fun d => Host.Outcome.next (s.withChip d)) (Chip.loseLock_down c n.val 6 down)
    · refine congrArg (fun d => Host.Outcome.next (s.withChip d)) ?_
      rw [Chip.loseLock_down _ _ _ down]
      exact ite_self _
    · rw [exec_fill, Chip.prbsErrors_deaf deaf, Chip.fillTaken_deaf deaf, State.withChip_toChip]
    · have oldest : (s.toChip.lane n.val).kept = k :: l := kept
      show execAckTimeout n s = _
      unfold execAckTimeout
      simp only [oldest]
      rfl

end Sys2Proof.Machine
end

