-- ==== Sys2Proof/Proofs/HeadTables.lean ====
section
/-! PROOF. Proofs/HeadTables.lean: the tables of the heads as the host writes them (R254, R256, R257, R372), and the trims and the
measurement of a head (R259, R262, R263, R265). -/

namespace Sys2Proof.Machine

/-! ### What a write of registers alone leaves -/

section
variable {c d : Chip} {offs : List Nat}

theorem Chip.onlyRegs.out (h : c.onlyRegs d offs) : d.out = c.out := by rw [h.1]

theorem Chip.onlyRegs.lanes (h : c.onlyRegs d offs) : d.lanes = c.lanes := by rw [h.1]

theorem Chip.sameBut5_lanes (h : c.sameBut5 d) : d.lanes = c.lanes := by
  unfold Chip.sameBut5 at h
  rw [h]

theorem Chip.onlyRegs_foldl {α : Type} {g : Chip → α → Chip} {l : List α} (step : ∀ d : Chip, ∀ x ∈ l, d.onlyRegs (g d x) offs)
    (c : Chip) : c.onlyRegs (l.foldl g c) offs := by
  induction l generalizing c with
  | nil => exact c.onlyRegs_refl offs
  | cons a l ih =>
    exact Chip.onlyRegs_trans (step c a (List.mem_cons_self ..)) (ih (fun d x m => step d x (List.mem_cons_of_mem _ m)) _)

end

/-- Bits of a word put into a field of their width read as they are. -/
theorem Chip.get_put_bits (c : Chip) (f : Field) (v lo : Nat) : (c.put f (bits v lo f.width)).get f = bits v lo f.width :=
  (Chip.get_put_self ..).trans (Nat.mod_eq_of_lt (bits_lt ..))

/-! ### HED.HEADn_LOADED of every head -/

theorem Chip.onlyRegs_showLoaded (c : Chip) (h : Nat) {offs : List Nat} (own : 0x9102c + 0x40 * h ∈ offs) :
    c.onlyRegs (c.showLoaded h) offs := by
  have loaded (d : Chip) (k v : Nat) (low : k < 32) : d.onlyRegs (d.put ⟨0x9102c + 0x40 * h, k, 1, 0⟩ v) offs :=
    d.onlyRegs_put v low own
  exact Chip.onlyRegs_trans (Chip.onlyRegs_trans (Chip.onlyRegs_trans (loaded _ 0 _ (by decide)) (loaded _ 1 _ (by decide)))
    (loaded _ 2 _ (by decide))) (loaded _ 3 _ (by decide))

/-- The offsets of HED.HEADn_LOADED. -/
def loadedOffs : List Nat := (List.range 48).map fun h => 0x9102c + 0x40 * h

theorem not_mem_loadedOffs {o : Nat} (apart : o < 0x91000 ∨ 0x92000 ≤ o ∨ o % 0x40 ≠ 0x2c) : o ∉ loadedOffs := by
  simp only [loadedOffs, List.mem_map, List.mem_range]
  rintro ⟨h, low, rfl⟩
  omega

theorem Chip.onlyRegs_showAllLoaded (c : Chip) : c.onlyRegs c.showAllLoaded loadedOffs := by
  refine Chip.onlyRegs_foldl (fun d h m => ?_) c
  split
  · exact d.onlyRegs_showLoaded h (List.mem_map_of_mem m)
  · exact d.onlyRegs_refl _

theorem Chip.get_showAllLoaded (c : Chip) {f : Field} (low : f.lo < 32)
    (apart : f.off < 0x91000 ∨ 0x92000 ≤ f.off ∨ f.off % 0x40 ≠ 0x2c) : c.showAllLoaded.get f = c.get f :=
  c.onlyRegs_showAllLoaded.2 f low (not_mem_loadedOffs apart)

/-! ### A write of R257 -/

section
variable {c : Chip} (f : Chip → Chip)

theorem Chip.idleWrite_idle (idle : c.get Reg.CRN_STATUS_STATE = 0) : c.idleWrite f = f c := if_pos idle

theorem Chip.idleWrite_busy (busy : c.get Reg.CRN_STATUS_STATE ≠ 0) : c.idleWrite f = c.raise 127 0 [] := if_neg busy

end

section
variable {s : State} (awake : s.awake) (p : Port)
include awake

theorem exec_driveSetWrite (w : Fin 1024) (v : Word) :
    exec (.driveSetWrite p w v) s = .next (s.withChip (s.toChip.driveWrite w.val v.toNat)) :=
  State.access_of_awake awake fun c => c.driveWrite w.val v.toNat

theorem exec_groupWindowWrite (h : Fin 48) (g : Fin 256) (v : Word) :
    exec (.groupWindowWrite p h g v) s = .next (s.withChip (s.toChip.groupWindow h.val g.val v.toNat)) :=
  State.access_of_awake awake fun c => c.groupWindow h.val g.val v.toNat

theorem exec_dsetWrite (h : Fin 48) (v : Word) :
    exec (.dsetWrite p h v) s = .next (s.withChip (s.toChip.headCfg h.val v.toNat)) :=
  State.access_of_awake awake fun c => c.headCfg h.val v.toNat

end

section
variable (c : Chip)

/-! ### A word of the drive sets (R254) -/

/-- A word of the drive sets in force, and nothing else of the drive sets changed. -/
theorem Chip.driveSet_shows {w v : Nat} (fits : v < 2 ^ 32) :
    let d := (c.put (Reg.HED_DRIVESET_DATA (w / 256) (w % 256)) v).showAllLoaded
    d.get (Reg.HED_DRIVESET_DATA (w / 256) (w % 256)) = v ∧
      (∀ f : Field, f.lo < 32 → 0x92000 ≤ f.off → f.off < 0x93000 → f.off ≠ 0x92000 + 4 * w → d.get f = c.get f) ∧
      d.out = c.out ∧ d.lanes = c.lanes := by
  have own : (Reg.HED_DRIVESET_DATA (w / 256) (w % 256)).off = 0x92000 + 4 * w := by
    show 0x92000 + 0x400 * (w / 256) + 4 * (w % 256) = _
    omega
  have low : (Reg.HED_DRIVESET_DATA (w / 256) (w % 256)).lo < 32 := by show 0 < 32; decide
  have shown := (c.put (Reg.HED_DRIVESET_DATA (w / 256) (w % 256)) v).onlyRegs_showAllLoaded
  refine ⟨?_, fun f fl above _ other => ?_, shown.out, shown.lanes⟩
  · rw [Chip.get_showAllLoaded _ low (by omega), Chip.get_put_self]
    exact Nat.mod_eq_of_lt fits
  · rw [Chip.get_showAllLoaded _ fl (by omega), Chip.get_put_off _ _ _ _ low fl (own ▸ other)]

/-! ### A group entry (R256, R372) -/

/-- SBASE and GDELAY of a group as a host word gives them, shown in HED.HEADn_LOADED. -/
def Chip.groupSet (c : Chip) (h g v : Nat) : Chip :=
  ((c.put (Reg.HED_GROUP_SBASE h g) (bits v 0 5)).put (Reg.HED_GROUP_GDELAY h g) (bits v 8 14)).showAllLoaded

theorem Chip.groupWindow_eq (h g v : Nat) : c.groupWindow h g v =
    if c.trimOwned h g then (c.groupWrite h g v).raise 183 0 [(4, 0x94000 + 4 * (256 * h + g))] else c.groupWrite h g v := rfl

theorem Chip.groupWrite_beyond {c : Chip} {h g : Nat} (beyond : c.gOf h ≤ 32 * g) (v : Nat) : c.groupWrite h g v = c := if_pos beyond

theorem Chip.groupWrite_within {c : Chip} {h g : Nat} (within : 32 * g < c.gOf h) (v : Nat) : c.groupWrite h g v =
    if c.get Reg.CRN_STATUS_STATE = 0 then c.groupSet h g v else c.raise 127 0 [] := if_neg (Nat.not_le.mpr within)

theorem Chip.groupSet_frame (h g v : Nat) : (c.groupSet h g v).out = c.out ∧ (c.groupSet h g v).lanes = c.lanes ∧
    ∀ f : Field, f.lo < 32 → f.off < 0x90000 → (c.groupSet h g v).get f = c.get f := by
  have put : c.onlyRegs ((c.put (Reg.HED_GROUP_SBASE h g) (bits v 0 5)).put (Reg.HED_GROUP_GDELAY h g) (bits v 8 14))
      [0x94000 + 0x400 * h + 4 * g] :=
    Chip.onlyRegs_trans (c.onlyRegs_put _ (by show 0 < 32; decide) (List.mem_singleton_self _))
      (Chip.onlyRegs_put _ _ (by show 8 < 32; decide) (List.mem_singleton_self _))
  have shown := Chip.onlyRegs_showAllLoaded ((c.put (Reg.HED_GROUP_SBASE h g) (bits v 0 5)).put (Reg.HED_GROUP_GDELAY h g) (bits v 8 14))
  refine ⟨shown.out.trans put.out, shown.lanes.trans put.lanes, fun f fl below => ?_⟩
  exact (Chip.get_showAllLoaded _ fl (by omega)).trans (put.2 f fl (by rw [List.mem_singleton]; omega))

/-- The entry reads as the word gives it, its TRIM as before. -/
theorem Chip.groupSet_shows (h g v : Nat) :
    (c.groupSet h g v).get (Reg.HED_GROUP_SBASE h g) = bits v 0 5 ∧ (c.groupSet h g v).get (Reg.HED_GROUP_GDELAY h g) = bits v 8 14 ∧
      (c.groupSet h g v).get (Reg.HED_GROUP_TRIM h g) = c.get (Reg.HED_GROUP_TRIM h g) := by
  have shown {f : Field} (low : f.lo < 32) (own : f.off = 0x94000 + 0x400 * h + 4 * g) : (c.groupSet h g v).get f =
      ((c.put (Reg.HED_GROUP_SBASE h g) (bits v 0 5)).put (Reg.HED_GROUP_GDELAY h g) (bits v 8 14)).get f :=
    Chip.get_showAllLoaded _ low (by omega)
  refine ⟨?_, ?_, ?_⟩
  · rw [shown (by show 0 < 32; decide) rfl, Chip.get_put_ne _ _ _ _ (by simp [Field.key, Reg.HED_GROUP_SBASE, Reg.HED_GROUP_GDELAY])]
    exact c.get_put_bits (Reg.HED_GROUP_SBASE h g) v 0
  · rw [shown (by show 8 < 32; decide) rfl]
    exact Chip.get_put_bits _ (Reg.HED_GROUP_GDELAY h g) v 8
  · rw [shown (by show 22 < 32; decide) rfl, Chip.get_put_ne _ _ _ _ (by simp [Field.key, Reg.HED_GROUP_TRIM, Reg.HED_GROUP_GDELAY]),
      Chip.get_put_ne _ _ _ _ (by simp [Field.key, Reg.HED_GROUP_TRIM, Reg.HED_GROUP_SBASE])]

end

/-- A group entry written while the cornice is IDLE; where a slot owns its TRIM, EV183 is told beside it. -/
theorem Chip.groupWindow_idle {c : Chip} {h g : Nat} (idle : c.get Reg.CRN_STATUS_STATE = 0) (low : h < 48) (within : 32 * g < c.gOf h)
    (v : Nat) :
    let d := c.groupWindow h g v
    d.get (Reg.HED_GROUP_SBASE h g) = bits v 0 5 ∧ d.get (Reg.HED_GROUP_GDELAY h g) = bits v 8 14 ∧
      d.get (Reg.HED_GROUP_TRIM h g) = c.get (Reg.HED_GROUP_TRIM h g) ∧ d.lanes = c.lanes ∧
      (c.trimOwned h g = false → d.out = c.out) ∧ (c.trimOwned h g = true → c.tells d 183 0) := by
  obtain ⟨base, delay, trim⟩ := c.groupSet_shows h g v
  obtain ⟨out, lanes, below⟩ := c.groupSet_frame h g v
  dsimp only
  rw [Chip.groupWindow_eq, Chip.groupWrite_within within, if_pos idle]
  cases owned : c.trimOwned h g with
  | false => exact ⟨base, delay, trim, lanes, fun _ => out, fun no => absurd no Bool.false_ne_true⟩
  | true =>
    have kept {f : Field} (lt : f.lo < 32) (own : f.off = 0x94000 + 0x400 * h + 4 * g) :=
      (c.groupSet h g v).get_raise 0 [(4, 0x94000 + 4 * (256 * h + g))] (src := 183) (by decide) lt (by omega)
    exact ⟨(kept (by show 0 < 32; decide) rfl).trans base, (kept (by show 8 < 32; decide) rfl).trans delay,
      (kept (by show 22 < 32; decide) rfl).trans trim,
      (Chip.sameBut5_lanes (Chip.raise_rest ..)).trans lanes, fun no => absurd no Bool.true_eq_false.mp,
      fun _ => Chip.tells_raise _ (below _ (by decide) (by decide)) (by decide) (by decide)⟩

/-! ### A register written under its access codes (R17, R529) -/

section
variable (c : Chip) (off : Nat) (locked : Bool) (v : Nat)

theorem Chip.writeField_cases (f : FieldSpec) : c.writeField off locked v f = c ∨ ∃ x, c.writeField off locked v f = c.put (f.at off) x := by
  unfold Chip.writeField
  split
  · exact .inl rfl
  · exact .inl rfl
  · exact .inl rfl
  · exact .inr ⟨_, rfl⟩
  · split
    · exact .inl rfl
    · exact .inr ⟨_, rfl⟩
  · exact .inr ⟨_, rfl⟩

theorem Chip.onlyRegs_writeFields : c.onlyRegs (c.writeFields off locked v) [off] := by
  refine Chip.onlyRegs_foldl (fun d f m => ?_) c
  rcases d.writeField_cases off locked v f with same | ⟨x, put⟩
  · rw [same]
    exact d.onlyRegs_refl _
  · rw [put]
    exact d.onlyRegs_put x (fieldsAt_bounds m).1 (List.mem_singleton_self off)

/-- Under the lock a place that no field but one of RWL takes keeps its value. -/
theorem Chip.get_writeFields_locked {g : Field} (own : g.off = off) (rwl : ∀ f ∈ fieldsAt off, f.lo = g.lo → f.access = .rwl) :
    (c.writeFields off true v).get g = c.get g := by
  unfold Chip.writeFields
  generalize fieldsAt off = l at rwl
  induction l generalizing c with
  | nil => rfl
  | cons f l ih =>
    refine (ih _ fun f m => rwl f (List.mem_cons_of_mem _ m)).trans ?_
    show (c.writeField off true v f).get g = c.get g
    by_cases here : f.lo = g.lo
    · unfold Chip.writeField
      rw [rwl f (List.mem_cons_self ..) here]
      rfl
    · rcases c.writeField_cases off true v f with same | ⟨x, put⟩
      · rw [same]
      · rw [put]
        refine Chip.get_put_ne _ _ _ _ ?_
        show g.off * 32 + g.lo ≠ off * 32 + f.lo
        omega

/-- A register written changes it alone, and what a raise of EV011 changes. -/
theorem Chip.plainWrite_frame : c.keepsAt (c.plainWrite off v) (quietOff [off]) ∧ (c.plainWrite off v).lanes = c.lanes := by
  have wrote := c.onlyRegs_writeFields off c.locked v
  obtain ⟨regs, rest, -⟩ := (c.writeFields off c.locked v).raiseIf_frame (c.locked && c.changesRwl off v) 0 [] (src := 11) (by decide)
  exact ⟨fun f low quiet => (regs f low quiet.1).trans (wrote.2 f low quiet.2), (Chip.sameBut5_lanes rest).trans wrote.lanes⟩

end

/-! ### DSET of a head (R257) -/

/-- The fields of HED.HEADn_CFG. -/
theorem fieldsAt_headCfg (h : Fin 48) : fieldsAt (0x91000 + 0x40 * h.val) = [⟨0, 14, .rwl, 0, true, 0, 0x3fff⟩,
    ⟨16, 1, .rwl, 0, true, 0, 1⟩, ⟨20, 4, .rwl, 0, true, 0, 0xf⟩, ⟨24, 2, .rw, 0, true, 0, 3⟩, ⟨28, 1, .rw, 0, true, 0, 1⟩] := by
  revert h
  decide +kernel

theorem Chip.headCfg_eq (c : Chip) (h v : Nat) : c.headCfg h v =
    ((c.plainWrite (0x91000 + 0x40 * h) v).put (Reg.HED_HEAD_CFG_DSET h) (c.get (Reg.HED_HEAD_CFG_DSET h))).idleWrite fun c =>
      (c.put (Reg.HED_HEAD_CFG_DSET h) (bits v 24 2)).showAllLoaded := rfl

/-- While the cornice is IDLE the DSET written is in force; under the lock NOZZLES keeps its value. -/
theorem Chip.headCfg_idle {c : Chip} (idle : c.get Reg.CRN_STATUS_STATE = 0) (h : Fin 48) (v : Nat) :
    let d := c.headCfg h.val v
    d.get (Reg.HED_HEAD_CFG_DSET h.val) = bits v 24 2 ∧
      (c.locked = true → d.get (Reg.HED_HEAD_CFG_NOZZLES h.val) = c.get (Reg.HED_HEAD_CFG_NOZZLES h.val)) ∧ d.lanes = c.lanes := by
  obtain ⟨kept, lanes⟩ := c.plainWrite_frame (0x91000 + 0x40 * h.val) v
  have nozzles (locked : c.locked = true) : (c.plainWrite (0x91000 + 0x40 * h.val) v).get (Reg.HED_HEAD_CFG_NOZZLES h.val) =
      c.get (Reg.HED_HEAD_CFG_NOZZLES h.val) := by
    unfold Chip.plainWrite
    rw [(Chip.raiseIf_frame _ _ 0 [] (by decide)).1 _ (by show 0 < 32; decide) (by show _ ∨ _ ≤ 0x91000 + _; omega), locked]
    refine c.get_writeFields_locked _ v rfl ?_
    rw [fieldsAt_headCfg h]
    show ∀ f ∈ _, FieldSpec.lo f = 0 → FieldSpec.access f = .rwl
    decide
  generalize written : c.plainWrite (0x91000 + 0x40 * h.val) v = e at kept lanes nozzles
  have dset (b : Chip) (x : Nat) {g : Field} (other : g.key ≠ (Reg.HED_HEAD_CFG_DSET h.val).key) :=
    b.get_put_ne (Reg.HED_HEAD_CFG_DSET h.val) g x other
  have apart : (Reg.HED_HEAD_CFG_NOZZLES h.val).key ≠ (Reg.HED_HEAD_CFG_DSET h.val).key := by
    show (0x91000 + 0x40 * h.val) * 32 + 0 ≠ (0x91000 + 0x40 * h.val) * 32 + 24
    omega
  have still : (e.put (Reg.HED_HEAD_CFG_DSET h.val) (c.get (Reg.HED_HEAD_CFG_DSET h.val))).get Reg.CRN_STATUS_STATE = 0 := by
    rw [dset _ _ (by show 0x60004 * 32 + 0 ≠ (0x91000 + 0x40 * h.val) * 32 + 24; omega), kept _ (by decide) ⟨by decide, ?_⟩, idle]
    rw [List.mem_singleton]
    show 0x60004 ≠ 0x91000 + 0x40 * h.val
    omega
  have set : c.headCfg h.val v = ((e.put (Reg.HED_HEAD_CFG_DSET h.val) (c.get (Reg.HED_HEAD_CFG_DSET h.val))).put
      (Reg.HED_HEAD_CFG_DSET h.val) (bits v 24 2)).showAllLoaded := by
    rw [Chip.headCfg_eq, written, Chip.idleWrite_idle _ still]
  have shown (b : Chip) {f : Field} (low : f.lo < 32) (own : f.off = 0x91000 + 0x40 * h.val) : b.showAllLoaded.get f = b.get f :=
    b.get_showAllLoaded low (by omega)
  dsimp only
  rw [set]
  refine ⟨?_, fun locked => ?_, (Chip.onlyRegs_showAllLoaded _).lanes.trans lanes⟩
  · rw [shown _ (by show 24 < 32; decide) rfl]
    exact Chip.get_put_bits _ (Reg.HED_HEAD_CFG_DSET h.val) v 24
  · rw [shown _ (by show 0 < 32; decide) rfl, dset _ _ apart, dset _ _ apart, nozzles locked]

/-! ### A head's data -/

section
variable (c : Chip) (h : Nat)

@[simp] theorem Chip.head_setHeadX (x : HeadX) : (c.setHeadX h x).head h = x := SMap.get_set_self ..

@[simp] theorem Chip.setHeadX_setHeadX (x y : HeadX) : (c.setHeadX h x).setHeadX h y = c.setHeadX h y :=
  congrArg (fun l => { c with heads := l }) (SMap.set_set ..)

theorem Chip.head_advanceTo (t : Nat) : (c.advanceTo t).head h = c.head h := by
  rw [Chip.advanceTo_rest]
  rfl

theorem Chip.headRun_advanceTo (t : Nat) : (c.advanceTo t).headRun h = c.headRun h :=
  Chip.headRun_congr (by rw [Chip.advanceTo_rest]) h

end

/-! ### Trims (R259) -/

theorem exec_trimWrite (h : Fin 48) (s : State) : exec (.trimWrite h) s = .next (s.withChip (s.toChip.writeTrim h.val)) := rfl

theorem Chip.writeTrim_some {c : Chip} {h lo hi due : Nat} (changed : (c.head h).trim = some (lo, hi, due)) : c.writeTrim h =
    (c.mgmtWrite h 1 (0x800 + 2 * lo) (c.trimBytes h lo hi) .trims false).setHeadX h { c.head h with trim := none } := by
  unfold Chip.writeTrim
  simp only [changed]

/-! ### An idle slot (R262, R263) -/

section
variable {c : Chip} {h t : Nat}

/-- Whether a head may be measured in an idle slot (R262). -/
def Chip.mayMeasure (c : Chip) (h : Nat) : Prop :=
  c.flag Reg.HED_MEAS_CFG_ENABLE = true ∧ c.flag (Reg.HED_HEAD_CFG_MEAS_EN h) = true ∧ c.get (Reg.HED_HEAD_STATUS_STATE h) = 5 ∧
    (c.headRun h).shots = []

/-- Time that passes changes nothing of what an idle slot asks. -/
theorem Chip.mayMeasure_advanceTo (low : h < 48) : (c.advanceTo t).mayMeasure h ↔ c.mayMeasure h := by
  have kept (f : Field) (at' : f.timeless) := c.get_advanceTo t at'
  unfold Chip.mayMeasure
  rw [Chip.headRun_advanceTo, Chip.flag_congr (kept _ (by decide)), Chip.flag_congr (kept _ ?_), kept _ ?_]
  · refine ⟨by show 0 < 32; decide, ?_⟩
    show (_ ∨ _ ≤ 0x91008 + 0x40 * h) ∧ 0x91008 + 0x40 * h < _ ∧ (0x91008 + 0x40 * h) * 32 + 0 ≠ 0x30008 * 32 + 0
    omega
  · refine ⟨by show 28 < 32; decide, ?_⟩
    show (_ ∨ _ ≤ 0x91000 + 0x40 * h) ∧ 0x91000 + 0x40 * h < _ ∧ (0x91000 + 0x40 * h) * 32 + 28 ≠ 0x30008 * 32 + 0
    omega

theorem Chip.measSlot_cases (low : h < 48) (due : (c.head h).idleDue = some t) :
    let e := c.advanceTo t
    let g := e.get (Reg.HED_HEAD_MEAS_NEXT h)
    (c.mayMeasure h → c.measSlot h = (e.setHeadX h { c.head h with
      idleDue := some (t + 2000000)
      measuring := some (g, 0)
      measDue := e.clk + 1000 * recMeasUs (c.head h).record }).mgmt h ⟨3, 4, 0, 4, leBytes 2 g ++ leBytes 2 0, .exec, false⟩) ∧
    (¬c.mayMeasure h → c.measSlot h = e.setHeadX h { c.head h with idleDue := some (t + 2000000) }) := by
  have run : c.measSlot h =
      let e := (c.advanceTo t).setHeadX h { c.head h with idleDue := some (t + 2000000) }
      if e.flag Reg.HED_MEAS_CFG_ENABLE ∧ e.flag (Reg.HED_HEAD_CFG_MEAS_EN h) ∧ e.get (Reg.HED_HEAD_STATUS_STATE h) = 5 ∧
          (e.headRun h).shots.isEmpty then
        (e.setHeadX h { e.head h with
          measuring := some (e.get (Reg.HED_HEAD_MEAS_NEXT h), 0)
          measDue := e.clk + 1000 * recMeasUs (c.head h).record }).mgmt h
            ⟨3, 4, 0, 4, leBytes 2 (e.get (Reg.HED_HEAD_MEAS_NEXT h)) ++ leBytes 2 0, .exec, false⟩
      else e := by
    unfold Chip.measSlot
    simp only [due, Chip.head_advanceTo]
  have asks := Chip.mayMeasure_advanceTo (c := c) (t := t) low
  generalize c.advanceTo t = e at run asks
  have cond : ((e.setHeadX h { c.head h with idleDue := some (t + 2000000) }).flag Reg.HED_MEAS_CFG_ENABLE ∧
      (e.setHeadX h { c.head h with idleDue := some (t + 2000000) }).flag (Reg.HED_HEAD_CFG_MEAS_EN h) ∧
      (e.setHeadX h { c.head h with idleDue := some (t + 2000000) }).get (Reg.HED_HEAD_STATUS_STATE h) = 5 ∧
      ((e.setHeadX h { c.head h with idleDue := some (t + 2000000) }).headRun h).shots.isEmpty) ↔ c.mayMeasure h := by
    rw [← asks, List.isEmpty_iff]
    rfl
  dsimp only at run ⊢
  refine ⟨fun able => ?_, fun unable => ?_⟩
  · rw [run, if_pos (cond.mpr able), Chip.head_setHeadX, Chip.setHeadX_setHeadX]
    rfl
  · rw [run, if_neg fun able => unable (cond.mp able)]

end

theorem exec_measSlot (h : Fin 48) (s : State) : exec (.measSlot h) s = .next (s.withChip (s.toChip.measSlot h.val)) := rfl

/-! ### The values read (R263, R265) -/

section
variable {h : Fin 48} {s : State}

theorem exec_measRead_idle (idle : (s.toChip.head h.val).measuring = none) (r : Option MeasResult) :
    exec (.measRead h r) s = .next s := by
  show execMeasRead h r s = _
  unfold execMeasRead
  simp only [idle, Option.isNone_none, if_true]
  rfl

variable {m : Nat × Nat} (runs : (s.toChip.head h.val).measuring = some m)
include runs

theorem exec_measRead_asks : exec (.measRead h none) s = .next (s.withChip
    ((s.toChip.advanceTo (s.toChip.head h.val).measDue).mgmtRead h.val 4 0x10 132 .measRead)) := by
  show execMeasRead h none s = _
  unfold execMeasRead
  simp only [runs, Option.isNone_some, Bool.false_eq_true, if_false]
  rfl

theorem exec_measRead_answers (r : MeasResult) : exec (.measRead h (some r)) s = .next (s.withChip
    ((s.toChip.advanceTo (s.toChip.head h.val).measDue).measured h.val r.mstate.toNat (r.values.map (·.toNat)))) := by
  show execMeasRead h (some r) s = _
  unfold execMeasRead
  simp only [runs, Option.isNone_some, Bool.false_eq_true, if_false]
  rfl

end

section
variable {c : Chip} {h g k mstate : Nat} {values : List Nat}

theorem Chip.measured_done (runs : (c.head h).measuring = some (g, k)) : c.measured h 0 values = c.evaluateGroup h g values := by
  unfold Chip.measured
  simp only [runs, if_true]

theorem Chip.measured_again (runs : (c.head h).measuring = some (g, k)) (few : k < 16) : c.measured h 1 values =
    c.setHeadX h { c.head h with measuring := some (g, k + 1), measDue := c.clk + 100000 } := by
  unfold Chip.measured
  simp only [runs, few, one_ne_zero, and_self, if_true, if_false]

theorem Chip.measured_abandons (runs : (c.head h).measuring = some (g, k)) (ended : mstate ≠ 0) (given : mstate ≠ 1 ∨ 16 ≤ k) :
    c.measured h mstate values = c.setHeadX h { c.head h with measuring := none } := by
  unfold Chip.measured
  simp only [runs]
  rw [if_neg ended, if_neg fun ⟨tried, few⟩ => given.elim (fun no => no tried) (Nat.not_le.mpr few)]
  rfl

/-- A completed group is the one measured last, and no group is in measurement. -/
theorem Chip.evaluateGroup_shows (low : h < 48) : (c.evaluateGroup h g values).get (Reg.HED_HEAD_MEAS_LAST h) = g % 2 ^ 8 ∧
    ((c.evaluateGroup h g values).head h).measuring = none := by
  unfold Chip.evaluateGroup
  extract_lets nominal lo hi bad c1 c2 next mask c3 c4
  refine ⟨?_, congrArg HeadX.measuring (Chip.head_setHeadX ..)⟩
  clear_value c2
  have own (d : Chip) (k w v : Nat) (other : k ≠ 8) :
      (d.put ⟨0x91020 + 0x40 * h, k, w, 0⟩ v).get (Reg.HED_HEAD_MEAS_LAST h) = d.get (Reg.HED_HEAD_MEAS_LAST h) :=
    Chip.get_put_ne _ _ _ _ (by show (0x91020 + 0x40 * h) * 32 + 8 ≠ (0x91020 + 0x40 * h) * 32 + k; omega)
  have masked (d : Chip) (v : Nat) : (d.put (Reg.HED_HEAD_MEAS_MASK_MASK h) v).get (Reg.HED_HEAD_MEAS_LAST h) =
      d.get (Reg.HED_HEAD_MEAS_LAST h) :=
    Chip.get_put_ne _ _ _ _ (by show (0x91020 + 0x40 * h) * 32 + 8 ≠ (0x91024 + 0x40 * h) * 32 + 0; omega)
  calc _ = c4.get (Reg.HED_HEAD_MEAS_LAST h) := (Chip.raiseIf_frame _ _ 0 _ (by decide)).1 _ (by show 8 < 32; decide)
        (by show _ ∨ _ ≤ 0x91020 + 0x40 * h; omega)
    _ = c3.get (Reg.HED_HEAD_MEAS_LAST h) := (own _ 24 8 _ (by decide)).trans (masked ..)
    _ = g % 2 ^ 8 := (own _ 16 6 _ (by decide)).trans (Chip.get_put_self ..)

end

/-- Settles O32: writes by the state of the cornice; an idle slot by whether the head may be measured; a read by MSTATE. -/
theorem headTablesAndMeasurement : Obligations.HeadTablesAndMeasurement := by
  unfold Obligations.HeadTablesAndMeasurement
  refine ⟨fun p s awake => ?_, fun h s => ?_⟩
  · intro c
    simp only [exec_driveSetWrite awake, exec_groupWindowWrite awake, exec_dsetWrite awake]
    refine ⟨fun busy => ⟨fun w v => ?_, fun h g v within => ?_⟩, fun idle => ⟨fun w v => ⟨_, rfl, ?_⟩, fun h g v within => ⟨_, rfl, ?_⟩,
      fun h v => ⟨_, rfl, Chip.headCfg_idle idle h v.toNat⟩⟩, fun h g v beyond free => ?_⟩
    · rw [Chip.driveWrite, Chip.idleWrite_busy _ busy]
    · rw [Chip.groupWindow_eq, Chip.groupWrite_within within, if_neg busy]
    · rw [Chip.driveWrite, Chip.idleWrite_idle _ idle]
      exact c.driveSet_shows v.isLt
    · exact Chip.groupWindow_idle idle h.isLt within v.toNat
    · rw [Chip.groupWindow_eq, Chip.groupWrite_beyond beyond, if_neg (Bool.eq_false_iff.mp free), State.withChip_toChip]
  · intro c x
    refine ⟨fun lo hi due changed => ?_, fun t due => ?_, fun idle r => exec_measRead_idle idle r, fun g k runs => ?_⟩
    · rw [exec_trimWrite, Chip.writeTrim_some changed]
    · obtain ⟨able, unable⟩ := Chip.measSlot_cases h.isLt due
      rw [exec_measSlot]
      exact ⟨fun may => congrArg (fun d => Host.Outcome.next (s.withChip d)) (able may),
        fun may => congrArg (fun d => Host.Outcome.next (s.withChip d)) (unable may)⟩
    · intro e
      have head : e.head h.val = x := c.head_advanceTo h.val _
      have runs' : (e.head h.val).measuring = some (g, k) := head ▸ runs
      simp only [exec_measRead_asks runs, exec_measRead_answers runs]
      refine ⟨rfl, fun m tried few => ?_, fun m ended given => ?_, fun m ended => ⟨_, rfl, ?_⟩⟩
      · have one : m.mstate.toNat = 1 := by rw [tried]; rfl
        rw [one, Chip.measured_again runs' few, head]
      · have notDone : m.mstate.toNat ≠ 0 := fun no => ended (BitVec.eq_of_toNat_eq no)
        have tooMany : m.mstate.toNat ≠ 1 ∨ 16 ≤ k := given.imp_left fun other no => other (BitVec.eq_of_toNat_eq no)
        rw [Chip.measured_abandons runs' notDone tooMany, head]
      · have zero : m.mstate.toNat = 0 := by rw [ended]; rfl
        rw [zero, Chip.measured_done runs']
        exact Chip.evaluateGroup_shows h.isLt

end Sys2Proof.Machine
end

