-- ==== Sys2Proof/Proofs/FiringGates.lean ====
section
/-! PROOF. Proofs/FiringGates.lean: the vote of the firing gates, the stop and the rise of PERMIT, the STRIKE latch, and faulty channels
and voters (R266 to R273, R453, R489). -/

namespace Sys2Proof.Machine

/-! ### Bits, flags and events -/

theorem Chip.flag_eq_false_iff (c : Chip) (f : Field) : c.flag f = false ↔ c.get f = 0 := by
  simp [Chip.flag]

theorem bits_one_of_bit {v : Nat} {b : Bool} (h : bit v 0 = b) : bits v 0 1 = b2n b := by
  unfold bits
  rw [← h, bit, Nat.testBit_zero, pow_zero, Nat.div_one, pow_one]
  rcases Nat.mod_two_eq_zero_or_one v with even | odd
  · rw [even]
    rfl
  · rw [odd]
    rfl

/-- A bit just set reads as set. -/
theorem Chip.bitOf_putBit_true (c : Chip) (f : Field) {i : Nat} (within : i < f.width) : (c.putBit f i true).bitOf f i = true := by
  unfold Chip.bitOf Chip.putBit bit
  dsimp only
  rw [if_pos rfl, Chip.get_put_self, Nat.testBit_mod_two_pow, decide_eq_true within, Bool.true_and, Nat.testBit_or,
    Nat.testBit_two_pow_self, Bool.or_true]

/-- What has been told since an EVT.SEQ has been told since any state of the same EVT.SEQ. -/
theorem Chip.tells_of_seq {b c d : Chip} {src cause : Nat} (seq : b.get Reg.EVT_SEQ_NEXT = c.get Reg.EVT_SEQ_NEXT)
    (told : b.tells d src cause) : c.tells d src cause := by
  unfold Chip.tells at told ⊢
  rwa [← seq]

/-! ### A vote to stop leaves the clocks and the power alone -/

/-- The registers of CKP and those above it. -/
abbrev powerOff (o : Nat) : Prop := 0x210000 ≤ o

theorem Chip.mem_layerHeads {c : Chip} {h : Nat} (m : h ∈ c.layerHeads) : h < 48 := List.mem_range.mp (List.mem_filter.mp m).1

section
variable {c d : Chip}

theorem Chip.keepsAt.raiseFar (k : c.keepsAt d powerOff) {src : Nat} (hs : src < 256) (cause : Nat) (items : List (Nat × Nat)) :
    c.keepsAt (d.raise src cause items) powerOff := k.raise hs cause items fun _ o => .inr (Nat.le_trans (by decide) o)

theorem Chip.keepsAt.setHead {P : Nat → Prop} (k : c.keepsAt d P) (h : Nat) (x : HeadRun) : c.keepsAt (d.setHead h x) P :=
  k.of_regs (d.setHead_regs h x)

theorem Chip.tandemOut_regs (c : Chip) (type : Nat) (bytes : List Byte) : (c.tandemOut type bytes).regs = c.regs := by
  unfold Chip.tandemOut
  extract_lets bond sent
  split <;> rfl

theorem Chip.keepsAt.logFire (k : c.keepsAt d powerOff) (kind h cause : Nat) (line : Int) (n : Nat) :
    c.keepsAt (d.logFire kind h cause line n) powerOff := by
  unfold Chip.logFire Chip.sendLog Chip.sendFrame
  split
  · extract_lets q bytes c1 c2 c3
    have out : c.keepsAt c2 powerOff := k.of_regs (d.tandemOut_regs _ _)
    clear_value c2
    exact ((out.of_regs (e := c2.setTdm _) rfl).put Reg.TDM_MIRROR_WAIT_ITEMS _ (by decide)).put Reg.TDM_MIRROR_WAIT_RECORDS _ (by decide)
  · exact k

theorem Chip.keepsAt.enterMap (k : c.keepsAt d powerOff) (h cause firstGroup groups : Nat) (first : Int) (count : Nat) :
    c.keepsAt (d.enterMap h cause firstGroup groups first count) powerOff := by
  unfold Chip.enterMap
  split
  · exact k
  · extract_lets firstEver joins c1 c2 full c3 c4
    have logged : c.keepsAt c2 powerOff := (k.put Reg.CRN_STATUS_FLAWED _ (by decide)).logFire _ _ _ _ _
    split_ifs
    · exact logged
    · exact logged
    all_goals
      have told : c.keepsAt c4 powerOff := by
        unfold c4
        split
        · exact Chip.keepsAt.raiseFar (d := c3) logged (by decide) 0 []
        · exact logged
      clear_value c4
    · have truncated : c.keepsAt (c4.put Reg.CRN_STATUS_TRUNC 1) powerOff := told.put _ _ (by decide)
      exact truncated.raiseFar (by decide) 0 []
    · exact told

theorem Chip.keepsAt.enterLines (k : c.keepsAt d powerOff) (h cause : Nat) (first : Int) (count : Nat) :
    c.keepsAt (d.enterLines h cause first count) powerOff := by
  unfold Chip.enterLines
  split
  · exact k
  · exact (k.setHead h _).enterMap _ _ _ _ _ _

theorem Chip.keepsAt.showHead (k : c.keepsAt d powerOff) {h : Nat} (low : h < 48) : c.keepsAt (d.showHead h) powerOff := by
  have state (g : Field) (own : g.off = 0x6010c + 0x10 * h) {f : Field} (fl : f.lo < 32) (far : powerOff f.off) (gl : g.lo < 32) :
      f.key ≠ g.key := Field.key_ne fl gl (by omega)
  intro f fl far
  refine (d.get_showHead h (state _ rfl fl far ?_) (state _ rfl fl far ?_) (state _ rfl fl far ?_) ?_).trans (k f fl far)
  · show 1 < 32; decide
  · show 2 < 32; decide
  · show 8 < 32; decide
  · refine Field.key_ne fl (by show 0 < 32; decide) ?_
    show f.off ≠ 0x60104 + 0x10 * h
    omega

theorem Chip.keepsAt.calveHead (k : c.keepsAt d powerOff) {h : Nat} (low : h < 48) (line trigger : Nat) (tExt : Option ET) :
    c.keepsAt (d.calveHead h line trigger tExt) powerOff := by
  unfold Chip.calveHead
  extract_lets x k' tExt' a l kept
  exact Chip.keepsAt.showHead (d := (d.setHead h _).setLane h _) (k.setHead h _) low

theorem Chip.keepsAt.triggerAll (k : c.keepsAt d powerOff) (trigger : Nat) (tExt : ET) : c.keepsAt (d.triggerAll trigger tExt) powerOff := by
  unfold Chip.triggerAll
  extract_lets heads cuts c1 c2 c3
  split
  · exact k.put Reg.CRN_STATUS_STATE _ (by decide)
  · have gated : c.keepsAt c1 powerOff := by
      unfold c1
      split
      · exact k.trans (Chip.keepsAt_foldl (fun e h _ => (e.keepsAt_refl _).setHead h _) _)
      · exact k
    have low (x : Nat × Nat) (m : x ∈ cuts) : x.1 < 48 := by
      obtain ⟨h, mem, cut⟩ := List.mem_filterMap.mp m
      obtain ⟨y, -, rfl⟩ := Option.map_eq_some_iff.mp cut
      exact Chip.mem_layerHeads (List.mem_filter.mp mem).1
    have cut : c.keepsAt c2 powerOff :=
      gated.trans (Chip.keepsAt_foldl (fun e x m => (e.keepsAt_refl _).calveHead (low x m) _ _ _) _)
    have counted : c.keepsAt c3 powerOff := by
      unfold c3
      split
      · exact cut
      · exact cut.of_regs rfl
    clear_value c3
    have held : c.keepsAt (c3.put Reg.CRN_STATUS_STATE 3) powerOff := counted.put _ _ (by decide)
    exact held.raiseFar (by decide) 0 [(1, trigger)]

theorem Chip.keepsAt.voteUncertain (k : c.keepsAt d powerOff) (t : ET) : c.keepsAt (d.voteUncertain t) powerOff :=
  k.trans (Chip.keepsAt_foldl (fun e _ _ => Chip.keepsAt_foldl (fun e' _ _ => (e'.keepsAt_refl _).enterLines _ _ _ _) e) d)

end

/-! ### The vote (R267) -/

section
variable {c d : Chip}

/-- A condition permits while two of its three inputs do. -/
theorem Chip.gatePermit_iff (c : Chip) (k : Nat) : c.gatePermit k = true ↔
    2 ≤ b2n (c.gateInput (3 * k)) + b2n (c.gateInput (3 * k + 1)) + b2n (c.gateInput (3 * k + 2)) := by
  unfold Chip.gatePermit
  generalize c.gateInput (3 * k) = a
  generalize c.gateInput (3 * k + 1) = b
  generalize c.gateInput (3 * k + 2) = e
  revert a b e
  decide

theorem Chip.gateVote_iff (c : Chip) : c.gateVote = true ↔ c.gatePermit 0 = true ∧ c.gatePermit 1 = true ∧ c.gatePermit 2 = true ∧
    c.get Reg.HED_GATE_CTRL_FORCE_STOP = 0 := by
  unfold Chip.gateVote
  rw [← Chip.flag_eq_false_iff]
  simp [and_assoc]

theorem Chip.gatePermit_congr (same : d.get Reg.HED_GATE_STATUS_INPUTS = c.get Reg.HED_GATE_STATUS_INPUTS) (k : Nat) :
    d.gatePermit k = c.gatePermit k := by
  have input (i : Nat) : d.gateInput i = c.gateInput i := Chip.bitOf_congr same i
  unfold Chip.gatePermit
  simp only [input]

theorem Chip.gateVote_congr (inputs : d.get Reg.HED_GATE_STATUS_INPUTS = c.get Reg.HED_GATE_STATUS_INPUTS)
    (force : d.get Reg.HED_GATE_CTRL_FORCE_STOP = c.get Reg.HED_GATE_CTRL_FORCE_STOP) : d.gateVote = c.gateVote := by
  unfold Chip.gateVote
  simp only [Chip.gatePermit_congr inputs, Chip.flag_congr force]

end

/-! ### The FIRE_EN lines (R269) -/

section
variable (c : Chip)

theorem Chip.driveFire_rest : c.driveFire =
    { c with regs := c.driveFire.regs, fireSince := c.driveFire.fireSince, out := c.driveFire.out } := by
  unfold Chip.driveFire
  extract_lets v
  split <;> rfl

theorem Chip.get_driveFire {f : Field} (other : f.key ≠ Reg.HED_GATE_STATUS_FE.key) : c.driveFire.get f = c.get f := by
  unfold Chip.driveFire
  extract_lets v
  split
  · rfl
  · exact Chip.get_put_ne c _ f _ other

theorem Chip.driveFire_level : c.driveFire.get Reg.HED_GATE_STATUS_FE = 15 * b2n c.fireLevel := by
  unfold Chip.driveFire
  extract_lets v e
  split
  · assumption
  · refine (Chip.get_put_self ..).trans ?_
    show 15 * b2n v % 2 ^ 4 = 15 * b2n v
    cases v <;> rfl

end

/-! ### A vote to stop (R268 to R270) -/

section
variable (c : Chip)

/-- PERMIT dropped, with the settle and the FIRE_EN lines. -/
def Chip.permitDropped : Chip :=
  ((({ c with settleDue := none }.put Reg.HED_GATE_STATUS_PERMIT 0).put Reg.HED_GATE_STATUS_SETTLING 0).put Reg.CRN_STATUS_GATED 1).driveFire

/-- The instant of a vote to stop and its count. -/
def Chip.stopCounted : Chip :=
  (c.permitDropped.put64 Reg.HED_GATE_STOP_ET_LO_ET Reg.HED_GATE_STOP_ET_HI_ET c.now.toNat).bump Reg.HED_GATE_STOPS_COUNT 1

/-- A vote to stop told, before what it does to an armed layer. -/
def Chip.stopTold : Chip := c.stopCounted.raise 112 0 [(1, c.stopCounted.condStop), (8, c.now.toNat)]

theorem Chip.voteStop_eq : c.voteStop = if c.stopTold.get Reg.CRN_STATUS_STATE = 0 then c.stopTold else
    ((c.stopTold.onRun fun r => { r with votes := c.now :: r.votes }).triggerAll 5 0).voteUncertain c.now := rfl

theorem Chip.permitDropped_rest : c.permitDropped = { c with
    regs := c.permitDropped.regs, fireSince := c.permitDropped.fireSince, out := c.permitDropped.out, settleDue := none } := by
  unfold Chip.permitDropped
  rw [Chip.driveFire_rest]
  rfl

theorem Chip.get_permitDropped {f : Field} (fire : f.key ≠ Reg.HED_GATE_STATUS_FE.key) (gated : f.key ≠ Reg.CRN_STATUS_GATED.key)
    (settling : f.key ≠ Reg.HED_GATE_STATUS_SETTLING.key) (permit : f.key ≠ Reg.HED_GATE_STATUS_PERMIT.key) :
    c.permitDropped.get f = c.get f :=
  (Chip.get_driveFire _ fire).trans <| (Chip.get_put_ne _ _ _ _ gated).trans <| (Chip.get_put_ne _ _ _ _ settling).trans <|
    Chip.get_put_ne _ _ _ _ permit

theorem Chip.permitDropped_shows : c.permitDropped.get Reg.HED_GATE_STATUS_PERMIT = 0 ∧
    c.permitDropped.get Reg.HED_GATE_STATUS_SETTLING = 0 ∧ c.permitDropped.get Reg.CRN_STATUS_GATED = 1 ∧
    c.permitDropped.get Reg.HED_GATE_STATUS_FE = 0 := by
  unfold Chip.permitDropped
  refine ⟨?_, ?_, ?_, ?_⟩
  · rw [Chip.get_driveFire _ (by decide), Chip.get_put_ne _ _ _ _ (by decide), Chip.get_put_ne _ _ _ _ (by decide), Chip.get_put_self]
    rfl
  · rw [Chip.get_driveFire _ (by decide), Chip.get_put_ne _ _ _ _ (by decide), Chip.get_put_self]
    rfl
  · rw [Chip.get_driveFire _ (by decide), Chip.get_put_self]
    rfl
  · rw [Chip.driveFire_level]
    unfold Chip.fireLevel
    rw [(Chip.flag_eq_false_iff _ Reg.HED_GATE_STATUS_PERMIT).mpr]
    · rfl
    · rw [Chip.get_put_ne _ _ _ _ (by decide), Chip.get_put_ne _ _ _ _ (by decide), Chip.get_put_self]
      rfl

/-- Counting a vote to stop writes its instant and its count alone. -/
theorem Chip.onlyRegs_stopCounted : c.permitDropped.onlyRegs c.stopCounted [0x90010, 0x90014, 0x90018] :=
  Chip.onlyRegs_trans (Chip.onlyRegs_put64 _ _ (by decide) (by decide) (by decide) (by decide)) (Chip.onlyRegs_put _ _ (by decide) (by decide))

theorem Chip.get_stopTold {f : Field} (low : f.lo < 32) (quiet : f.off < 0x20000 ∨ 0x22000 ≤ f.off)
    (other : f.off ∉ [0x90010, 0x90014, 0x90018]) : c.stopTold.get f = c.permitDropped.get f :=
  (Chip.get_raise _ _ _ (by decide) low quiet).trans (c.onlyRegs_stopCounted.2 f low other)

theorem Chip.stopTold_shows : c.stopTold.get64 Reg.HED_GATE_STOP_ET_LO_ET Reg.HED_GATE_STOP_ET_HI_ET = c.now.toNat ∧
    c.stopTold.get Reg.HED_GATE_STOPS_COUNT = min (c.get Reg.HED_GATE_STOPS_COUNT + 1) (2 ^ Reg.HED_GATE_STOPS_COUNT.width - 1) ∧
    c.tells c.stopTold 112 0 := by
  refine ⟨?_, ?_, Chip.tells_raise _ ?_ (by decide) (by decide)⟩
  · have stamped := c.permitDropped.get64_put64 (lo := Reg.HED_GATE_STOP_ET_LO_ET) (hi := Reg.HED_GATE_STOP_ET_HI_ET) c.now.isLt rfl rfl
      (by decide)
    have kept {f : Field} (low : f.lo < 32) (quiet : f.off < 0x20000 ∨ 0x22000 ≤ f.off) (ne : f.key ≠ Reg.HED_GATE_STOPS_COUNT.key) :=
      (c.stopCounted.get_raise 0 [(1, c.stopCounted.condStop), (8, c.now.toNat)] (src := 112) (by decide) low quiet).trans
        (Chip.get_bump_ne _ _ _ 1 ne)
    rw [← stamped]
    exact congrArg₂ (fun a b => a + 2 ^ 32 * b) (kept (by decide) (by decide) (by decide)) (kept (by decide) (by decide) (by decide))
  · refine (Chip.get_raise _ _ _ (by decide) (by decide) (by decide)).trans ((Chip.get_bump_self ..).trans ?_)
    unfold Chip.put64
    rw [Chip.get_put_ne _ _ _ _ (by decide), Chip.get_put_ne _ _ _ _ (by decide),
      c.get_permitDropped (by decide) (by decide) (by decide) (by decide)]
  · rw [c.onlyRegs_stopCounted.2 _ (by decide) (by decide), c.get_permitDropped (by decide) (by decide) (by decide) (by decide)]

/-- Telling a vote to stop leaves the rest of the controller alone. -/
theorem Chip.stopTold_rest : c.permitDropped.sameBut5 c.stopTold :=
  Chip.sameBut5_trans (by unfold Chip.sameBut5; rw [c.onlyRegs_stopCounted.1]) (Chip.raise_rest ..)

/-- With the cornice IDLE a vote to stop drops PERMIT at once and touches no layer. -/
theorem Chip.voteStop_shows {c : Chip} (idle : c.get Reg.CRN_STATUS_STATE = 0) :
    let d := c.voteStop
    d.get Reg.HED_GATE_STATUS_PERMIT = 0 ∧ d.get Reg.HED_GATE_STATUS_SETTLING = 0 ∧ d.get Reg.CRN_STATUS_GATED = 1 ∧
    d.get Reg.HED_GATE_STATUS_FE = 0 ∧ d.settleDue = none ∧
    d.get64 Reg.HED_GATE_STOP_ET_LO_ET Reg.HED_GATE_STOP_ET_HI_ET = c.now.toNat ∧
    d.get Reg.HED_GATE_STOPS_COUNT = min (c.get Reg.HED_GATE_STOPS_COUNT + 1) (2 ^ Reg.HED_GATE_STOPS_COUNT.width - 1) ∧
    c.tells d 112 0 ∧ d.layers = c.layers ∧ d.run = c.run ∧ d.lanes = c.lanes := by
  have still : c.stopTold.get Reg.CRN_STATUS_STATE = 0 := by
    rw [c.get_stopTold (by decide) (by decide) (by decide), c.get_permitDropped (by decide) (by decide) (by decide) (by decide), idle]
  have kept {f : Field} := c.get_stopTold (f := f)
  obtain ⟨permit, settling, gated, fire⟩ := c.permitDropped_shows
  obtain ⟨instant, count, told⟩ := c.stopTold_shows
  have rest := c.stopTold_rest
  unfold Chip.sameBut5 at rest
  rw [Chip.permitDropped_rest] at rest
  dsimp only
  rw [Chip.voteStop_eq, if_pos still]
  refine ⟨(kept (by decide) (by decide) (by decide)).trans permit, (kept (by decide) (by decide) (by decide)).trans settling,
    (kept (by decide) (by decide) (by decide)).trans gated, (kept (by decide) (by decide) (by decide)).trans fire, ?_, instant, count, told,
    ?_, ?_, ?_⟩
  all_goals rw [rest]

theorem Chip.keepsAt_voteStop : c.keepsAt c.voteStop powerOff := by
  have told : c.keepsAt c.stopTold powerOff := fun f low far => by
    have apart (g : Field) (gl : g.lo < 32) (below : g.off < 0x210000) : f.key ≠ g.key := Field.key_ne low gl (by omega)
    refine (c.get_stopTold low (.inr (Nat.le_trans (by decide) far)) ?_).trans
      (c.get_permitDropped (apart _ (by decide) (by decide)) (apart _ (by decide) (by decide)) (apart _ (by decide) (by decide))
        (apart _ (by decide) (by decide)))
    simp only [List.mem_cons, List.not_mem_nil, or_false]
    omega
  rw [Chip.voteStop_eq]
  split
  · exact told
  · exact Chip.keepsAt.voteUncertain (Chip.keepsAt.triggerAll (d := c.stopTold.onRun _) told 5 0) _

end

/-! ### The vote taken again (R267, R268, R489) -/

section
variable (c : Chip) (before : Bool)

/-- The vote and its conditions shown, the STRIKE latch set by a stop of its condition. -/
def Chip.voteShown : Chip :=
  let f := (c.put Reg.HED_GATE_STATUS_COND_STOP c.condStop).putB Reg.HED_GATE_STATUS_VOTE c.gateVote
  if before = true ∧ c.gatePermit 2 = false ∧ c.flag Reg.HED_GATE_CFG_STRIKE_AUTO = false then f.put Reg.HED_GATE_STATUS_STRIKE_LATCH 1
  else f

/-- Showing the vote changes HED.GATE_STATUS alone. -/
theorem Chip.onlyRegs_voteShown : c.onlyRegs (c.voteShown before) [0x90008] := by
  have shown : c.onlyRegs ((c.put Reg.HED_GATE_STATUS_COND_STOP c.condStop).putB Reg.HED_GATE_STATUS_VOTE c.gateVote) [0x90008] :=
    ((c.onlyRegs_refl _).put _ _ (by decide)).put _ _ (by decide)
  unfold Chip.voteShown
  dsimp only
  split
  · exact shown.put _ _ (by decide)
  · exact shown

/-- While the STRIKE condition votes as before, the latch is left alone. -/
theorem Chip.voteShown_steady : c.voteShown (c.gatePermit 2) =
    (c.put Reg.HED_GATE_STATUS_COND_STOP c.condStop).putB Reg.HED_GATE_STATUS_VOTE c.gateVote :=
  if_neg fun ⟨on, off, _⟩ => absurd (on.symm.trans off) Bool.true_eq_false.mp

/-- Once the loader has set HED.GATE_CFG a fall of the vote stops and a rise begins the settle. -/
theorem Chip.revote_eq : c.revote before =
    if c.conf.scanned = false then c.voteShown before
    else if c.flag Reg.HED_GATE_STATUS_VOTE = true ∧ c.gateVote = false then (c.voteShown before).voteStop
    else if c.flag Reg.HED_GATE_STATUS_VOTE = false ∧ c.gateVote = true then (c.voteShown before).voteRise
    else c.voteShown before := by
  have shown : (let f := (c.put Reg.HED_GATE_STATUS_COND_STOP c.condStop).putB Reg.HED_GATE_STATUS_VOTE c.gateVote
      if before = true ∧ f.gatePermit 2 = false ∧ f.flag Reg.HED_GATE_CFG_STRIKE_AUTO = false then
        f.put Reg.HED_GATE_STATUS_STRIKE_LATCH 1 else f) = c.voteShown before := by
    have kept {g : Field} (vote : g.key ≠ Reg.HED_GATE_STATUS_VOTE.key) (cond : g.key ≠ Reg.HED_GATE_STATUS_COND_STOP.key) :
        ((c.put Reg.HED_GATE_STATUS_COND_STOP c.condStop).putB Reg.HED_GATE_STATUS_VOTE c.gateVote).get g = c.get g :=
      (Chip.get_putB_ne _ _ _ _ vote).trans (Chip.get_put_ne _ _ _ _ cond)
    dsimp only
    rw [Chip.gatePermit_congr (kept (by decide) (by decide)), Chip.flag_congr (kept (by decide) (by decide))]
    rfl
  unfold Chip.revote
  dsimp only at shown ⊢
  rw [shown, (c.onlyRegs_voteShown before).1]

theorem Chip.voteRise_voteShown : (c.voteShown before).voteRise = { c.voteShown before with
    settleDue := some (c.clk + 1000 * c.get Reg.HED_GATE_CFG_SETTLE_US) }.put Reg.HED_GATE_STATUS_SETTLING 1 := by
  have only := c.onlyRegs_voteShown before
  unfold Chip.voteRise
  dsimp only
  rw [only.2 _ (by decide) (by decide), show (c.voteShown before).clk = c.clk by rw [only.1]]

theorem Chip.keepsAt_revote : c.keepsAt (c.revote before) powerOff := by
  have shown : c.keepsAt (c.voteShown before) powerOff := fun f low far =>
    (c.onlyRegs_voteShown before).2 f low (by rw [List.mem_singleton]; omega)
  rw [Chip.revote_eq]
  split_ifs
  · exact shown
  · exact shown.trans (Chip.keepsAt_voteStop _)
  · exact Chip.keepsAt.put (d := { c.voteShown before with settleDue := _ }) shown Reg.HED_GATE_STATUS_SETTLING 1 (by decide)
  · exact shown

end

/-! ### An input changes (R267) -/

theorem exec_gateInputChange (i : Fin 9) (level : Bool) (s : State) :
    exec (.gateInputChange i level) s = .next (s.withChip (s.toChip.gateChange i.val level)) := rfl

theorem Chip.timeChannels_rest (c old : Chip) : c.timeChannels old = { c with chanSince := (c.timeChannels old).chanSince } := by
  unfold Chip.timeChannels
  generalize List.range 9 = l
  induction l generalizing c with
  | nil => rfl
  | cons i l ih =>
    rw [List.foldl_cons, ih]
    split_ifs <;> rfl

section
variable (c : Chip) (i : Nat) (level : Bool)

/-- An input shown and its channel timed, before the vote is taken again. -/
def Chip.inputShown : Chip := (c.putBit Reg.HED_GATE_STATUS_INPUTS i level).timeChannels c

theorem Chip.gateChange_eq : c.gateChange i level =
    let d := (c.inputShown i level).revote (c.gatePermit 2)
    d.on (decide (d.pstate = 3) && (d.flag Reg.HED_GATE_STATUS_VOTE != c.flag Reg.HED_GATE_STATUS_VOTE)) fun d => d.wake 5 := rfl

/-- Showing an input writes INPUTS and the times of the channels alone. -/
theorem Chip.inputShown_rest : c.inputShown i level =
    { c.putBit Reg.HED_GATE_STATUS_INPUTS i level with chanSince := (c.inputShown i level).chanSince } := Chip.timeChannels_rest ..

theorem Chip.get_inputShown {f : Field} (other : f.key ≠ Reg.HED_GATE_STATUS_INPUTS.key) : (c.inputShown i level).get f = c.get f := by
  rw [Chip.inputShown_rest]
  exact c.get_putBit_ne _ f i level other

end

/-- Outside P3 an input that changes is voted on, and wakes nothing. -/
theorem Chip.gateChange_awake {c : Chip} (awake : c.pstate ≠ 3) (i : Nat) (level : Bool) :
    c.gateChange i level = (c.inputShown i level).revote (c.gatePermit 2) := by
  have still : ((c.inputShown i level).revote (c.gatePermit 2)).get Reg.CKP_STATUS_PSTATE = c.get Reg.CKP_STATUS_PSTATE :=
    (Chip.keepsAt_revote _ _ _ (by decide) (by decide)).trans (c.get_inputShown i level (by decide))
  have stays : ((c.inputShown i level).revote (c.gatePermit 2)).pstate ≠ 3 := fun deep => awake (still.symm.trans deep)
  rw [Chip.gateChange_eq]
  dsimp only
  rw [decide_eq_false stays]
  rfl

/-! ### HED.GATE_CTRL (R267, R268) -/

section
variable {s : State} (awake : s.awake) (p : Port) (v : Word)
include awake

theorem exec_forceStop : exec (.forceStop p v) s = .next (s.withChip (s.toChip.gateCtrl v.toNat)) :=
  State.access_of_awake awake fun c => c.gateCtrl v.toNat

theorem exec_clearStrike : exec (.clearStrike p v) s = .next (s.withChip (s.toChip.gateCtrl v.toNat)) :=
  State.access_of_awake awake fun c => c.gateCtrl v.toNat

end

theorem Chip.gatePermit_force (c : Chip) (x k : Nat) : (c.put Reg.HED_GATE_CTRL_FORCE_STOP x).gatePermit k = c.gatePermit k :=
  Chip.gatePermit_congr (Chip.get_put_ne _ _ _ _ (by decide)) k

/-- FORCE_STOP set over a vote to fire is a vote to stop. -/
theorem Chip.gateCtrl_force {c : Chip} {v : Nat} (clear : bit v 1 = false) (force : bit v 0 = true)
    (vote : c.flag Reg.HED_GATE_STATUS_VOTE = true) :
    let b := c.put Reg.HED_GATE_CTRL_FORCE_STOP 1
    let d := (b.put Reg.HED_GATE_STATUS_COND_STOP b.condStop).putB Reg.HED_GATE_STATUS_VOTE false
    c.gateCtrl v = if b.conf.scanned = true then d.voteStop else d := by
  intro b d
  have stops : b.gateVote = false := by
    rw [Bool.eq_false_iff, ne_eq, Chip.gateVote_iff, show b.get Reg.HED_GATE_CTRL_FORCE_STOP = 1 from Chip.get_put_self ..]
    simp
  have was : b.flag Reg.HED_GATE_STATUS_VOTE = true := (Chip.flag_congr (Chip.get_put_ne _ _ _ _ (by decide))).trans vote
  have shown : b.voteShown (b.gatePermit 2) = d := by
    rw [Chip.voteShown_steady, stops]
  have run : c.gateCtrl v = b.revote (b.gatePermit 2) := by
    unfold Chip.gateCtrl
    rw [bits_one_of_bit force, clear, ← c.gatePermit_force 1 2]
    rfl
  rw [run, Chip.revote_eq, shown, if_pos (show _ ∧ _ from ⟨was, stops⟩)]
  cases b.conf.scanned <;> rfl

/-! ### PERMIT rises (R268, R269) -/

theorem exec_permitRise (s : State) : exec .permitRise s = .next (s.withChip s.toChip.settleEnd) := rfl

section
variable (c : Chip)

/-- PERMIT set and told, before the FIRE_EN lines follow. -/
def Chip.permitTold : Chip :=
  (({ c with settleDue := none }.put Reg.HED_GATE_STATUS_PERMIT 1).put Reg.CRN_STATUS_GATED 0).raise 113 0 []

theorem Chip.permitUp_eq : c.permitUp = c.permitTold.driveFire := rfl

theorem Chip.get_permitTold {f : Field} (low : f.lo < 32) (quiet : f.off < 0x20000 ∨ 0x22000 ≤ f.off)
    (gated : f.key ≠ Reg.CRN_STATUS_GATED.key) (permit : f.key ≠ Reg.HED_GATE_STATUS_PERMIT.key) : c.permitTold.get f = c.get f :=
  (Chip.get_raise _ _ _ (by decide) low quiet).trans <| (Chip.get_put_ne _ _ _ _ gated).trans (Chip.get_put_ne _ _ _ _ permit)

theorem Chip.permitTold_permit : c.permitTold.get Reg.HED_GATE_STATUS_PERMIT = 1 :=
  (Chip.get_raise _ _ _ (by decide) (by decide) (by decide)).trans <| (Chip.get_put_ne _ _ _ _ (by decide)).trans (Chip.get_put_self ..)

theorem Chip.get_permitUp {f : Field} (low : f.lo < 32) (quiet : f.off < 0x20000 ∨ 0x22000 ≤ f.off)
    (fire : f.key ≠ Reg.HED_GATE_STATUS_FE.key) (gated : f.key ≠ Reg.CRN_STATUS_GATED.key)
    (permit : f.key ≠ Reg.HED_GATE_STATUS_PERMIT.key) : c.permitUp.get f = c.get f :=
  (Chip.get_driveFire _ fire).trans (c.get_permitTold low quiet gated permit)

theorem Chip.permitUp_shows : c.permitUp.get Reg.HED_GATE_STATUS_PERMIT = 1 ∧ c.permitUp.get Reg.CRN_STATUS_GATED = 0 ∧
    c.permitUp.settleDue = none ∧ c.tells c.permitUp 113 0 := by
  refine ⟨(Chip.get_driveFire _ (by decide)).trans c.permitTold_permit, ?_, ?_, ?_⟩
  · exact (Chip.get_driveFire _ (by decide)).trans <| (Chip.get_raise _ _ _ (by decide) (by decide) (by decide)).trans (Chip.get_put_self ..)
  · rw [Chip.permitUp_eq, Chip.driveFire_rest]
    unfold Chip.permitTold
    rw [Chip.raise_rest]
    rfl
  · have told : c.tells c.permitTold 113 0 :=
      Chip.tells_raise _ ((Chip.get_put_ne _ _ _ _ (by decide)).trans (Chip.get_put_ne _ _ _ _ (by decide))) (by decide) (by decide)
    exact Chip.tells_congr told fun f low below => Chip.get_driveFire _ (Field.key_ne low (by decide) (by
      show f.off ≠ 0x90008
      omega))

/-- The FIRE_EN lines of a PERMIT that has risen follow the power state and the commit. -/
theorem Chip.permitUp_fire : c.permitUp.get Reg.HED_GATE_STATUS_FE =
    15 * b2n (decide (c.get Reg.CKP_STATUS_PSTATE ≤ 1) && c.flag Reg.CFG_STATUS_COMMITTED) := by
  have kept {f : Field} := c.get_permitTold (f := f)
  have permit : c.permitTold.flag Reg.HED_GATE_STATUS_PERMIT = true := by
    unfold Chip.flag
    rw [c.permitTold_permit]
    rfl
  rw [Chip.permitUp_eq, Chip.driveFire_level]
  unfold Chip.fireLevel
  rw [permit, kept (by decide) (by decide) (by decide) (by decide),
    Chip.flag_congr (kept (f := Reg.CFG_STATUS_COMMITTED) (by decide) (by decide) (by decide) (by decide)), Bool.true_and]

end

/-- The settle at its end: PERMIT rises while the vote holds and STRIKE is not latched. -/
theorem Chip.settleEnd_some {c : Chip} {t : Nat} (due : c.settleDue = some t) : c.settleEnd =
    let e := c.advanceTo t
    if e.flag Reg.HED_GATE_STATUS_VOTE = true ∧ e.flag Reg.HED_GATE_STATUS_STRIKE_LATCH = false then
      (e.put Reg.HED_GATE_STATUS_SETTLING 0).permitUp
    else e.put Reg.HED_GATE_STATUS_SETTLING 0 := by
  unfold Chip.settleEnd
  simp only [due]
  rw [Chip.flag_congr (Chip.get_put_ne _ _ Reg.HED_GATE_STATUS_VOTE _ (by decide)),
    Chip.flag_congr (Chip.get_put_ne _ _ Reg.HED_GATE_STATUS_STRIKE_LATCH _ (by decide))]

theorem exec_permitRise_rises {s : State} {t : Nat} (due : s.toChip.settleDue = some t)
    (vote : (s.toChip.advanceTo t).flag Reg.HED_GATE_STATUS_VOTE = true)
    (free : (s.toChip.advanceTo t).flag Reg.HED_GATE_STATUS_STRIKE_LATCH = false) :
    exec .permitRise s = .next (s.withChip ((s.toChip.advanceTo t).put Reg.HED_GATE_STATUS_SETTLING 0).permitUp) := by
  rw [exec_permitRise, Chip.settleEnd_some due]
  exact congrArg (fun d => Host.Outcome.next (s.withChip d)) (if_pos ⟨vote, free⟩)

theorem exec_permitRise_waits {s : State} {t : Nat} (due : s.toChip.settleDue = some t)
    (bar : (s.toChip.advanceTo t).flag Reg.HED_GATE_STATUS_VOTE = false ∨
      (s.toChip.advanceTo t).flag Reg.HED_GATE_STATUS_STRIKE_LATCH = true) :
    exec .permitRise s = .next (s.withChip ((s.toChip.advanceTo t).put Reg.HED_GATE_STATUS_SETTLING 0)) := by
  rw [exec_permitRise, Chip.settleEnd_some due]
  refine congrArg (fun d => Host.Outcome.next (s.withChip d)) (if_neg fun ⟨vote, free⟩ => ?_)
  rcases bar with off | latched
  · exact absurd (vote.symm.trans off) Bool.true_eq_false.mp
  · exact absurd (latched.symm.trans free) Bool.true_eq_false.mp

/-- What holds of the controller once PERMIT has risen at the end of the settle. -/
theorem Chip.settleOver_shows (c : Chip) :
    let d := (c.put Reg.HED_GATE_STATUS_SETTLING 0).permitUp
    d.get Reg.HED_GATE_STATUS_PERMIT = 1 ∧ d.get Reg.CRN_STATUS_GATED = 0 ∧
      d.get Reg.HED_GATE_STATUS_SETTLING = 0 ∧ d.settleDue = none ∧ c.tells d 113 0 ∧
      (c.get Reg.CKP_STATUS_PSTATE ≤ 1 → c.flag Reg.CFG_STATUS_COMMITTED = true → d.get Reg.HED_GATE_STATUS_FE = 15) ∧
      (c.flag Reg.CFG_STATUS_COMMITTED = false → d.get Reg.HED_GATE_STATUS_FE = 0) := by
  have kept {f : Field} (other : f.key ≠ Reg.HED_GATE_STATUS_SETTLING.key) := c.get_put_ne _ f 0 other
  obtain ⟨permit, gated, settle, told⟩ := (c.put Reg.HED_GATE_STATUS_SETTLING 0).permitUp_shows
  have fire := (c.put Reg.HED_GATE_STATUS_SETTLING 0).permitUp_fire
  rw [kept (by decide), Chip.flag_congr (kept (f := Reg.CFG_STATUS_COMMITTED) (by decide))] at fire
  refine ⟨permit, gated, ?_, settle, Chip.tells_of_seq (kept (by decide)) told, fun shallow committed => ?_, fun uncommitted => ?_⟩
  · rw [Chip.get_permitUp _ (by decide) (by decide) (by decide) (by decide) (by decide), Chip.get_put_self]
    rfl
  · rw [fire, decide_eq_true shallow, committed]
    rfl
  · rw [fire, uncommitted, Bool.and_false]
    rfl

/-! ### CLEAR_STRIKE (R268, R453) -/

section
variable {c : Chip}

theorem Chip.clearStrike_barred (bar : c.gatePermit 2 = false) : c.clearStrike = c := if_pos bar

theorem Chip.clearStrike_rises (permits : c.gatePermit 2 = true) {t : Nat} (due : c.settleDue = some t) (past : t ≤ c.clk)
    (vote : c.flag Reg.HED_GATE_STATUS_VOTE = true) :
    c.clearStrike = ((c.put Reg.HED_GATE_STATUS_STRIKE_LATCH 0).put Reg.HED_GATE_STATUS_SETTLING 0).permitUp := by
  have voted : (c.put Reg.HED_GATE_STATUS_STRIKE_LATCH 0).flag Reg.HED_GATE_STATUS_VOTE = true :=
    (Chip.flag_congr (Chip.get_put_ne _ _ _ _ (by decide))).trans vote
  unfold Chip.clearStrike
  rw [if_neg (by rw [permits]; decide)]
  simp only [Chip.put_settleDue, due, Chip.put_clk, past, voted, and_self, if_true]

theorem Chip.clearStrike_waits (permits : c.gatePermit 2 = true)
    (waits : ∀ t, c.settleDue = some t → ¬(t ≤ c.clk ∧ c.flag Reg.HED_GATE_STATUS_VOTE = true)) :
    c.clearStrike = c.put Reg.HED_GATE_STATUS_STRIKE_LATCH 0 := by
  have vote : (c.put Reg.HED_GATE_STATUS_STRIKE_LATCH 0).flag Reg.HED_GATE_STATUS_VOTE = c.flag Reg.HED_GATE_STATUS_VOTE :=
    Chip.flag_congr (Chip.get_put_ne _ _ _ _ (by decide))
  unfold Chip.clearStrike
  rw [if_neg (by rw [permits]; decide)]
  cases due : c.settleDue with
  | none => simp only [Chip.put_settleDue, due]
  | some t =>
    simp only [Chip.put_settleDue, due, Chip.put_clk, vote]
    exact if_neg (waits t due)

theorem Chip.clearStrike_latch (permits : c.gatePermit 2 = true) : c.clearStrike.get Reg.HED_GATE_STATUS_STRIKE_LATCH = 0 := by
  have cleared : (c.put Reg.HED_GATE_STATUS_STRIKE_LATCH 0).get Reg.HED_GATE_STATUS_STRIKE_LATCH = 0 := Chip.get_put_self ..
  by_cases rises : ∃ t, c.settleDue = some t ∧ t ≤ c.clk ∧ c.flag Reg.HED_GATE_STATUS_VOTE = true
  · obtain ⟨t, due, past, vote⟩ := rises
    rw [Chip.clearStrike_rises permits due past vote,
      Chip.get_permitUp _ (by decide) (by decide) (by decide) (by decide) (by decide), Chip.get_put_ne _ _ _ _ (by decide), cleared]
  · rw [Chip.clearStrike_waits permits fun t due past => rises ⟨t, due, past⟩, cleared]

theorem Chip.clearStrike_unsettled (settled : c.settleDue = none) :
    c.clearStrike.get Reg.HED_GATE_STATUS_PERMIT = c.get Reg.HED_GATE_STATUS_PERMIT := by
  cases permits : c.gatePermit 2 with
  | false => rw [Chip.clearStrike_barred permits]
  | true =>
    rw [Chip.clearStrike_waits permits fun t due => absurd (settled.symm.trans due) (by simp)]
    exact Chip.get_put_ne _ _ _ _ (by decide)

/-- A pulse of CLEAR_STRIKE that acts: its handshake lasts 123 ns at most. -/
def Chip.strikeActs (c : Chip) : Chip := { c.clearStrike with strikeUntil := c.clk + 123 }

theorem Chip.get_strikeActs (c : Chip) (f : Field) : c.strikeActs.get f = c.clearStrike.get f :=
  Chip.get_congr (by unfold Chip.strikeActs; rfl) f

theorem Chip.strikePulse_first (free : c.strikeUntil ≤ c.clk) : c.strikePulse = c.strikeActs := if_pos free

/-- While the vote holds and the settle is over, PERMIT rises with the pulse that clears the latch. -/
theorem Chip.strikeActs_rises (permits : c.gatePermit 2 = true) {t : Nat} (due : c.settleDue = some t) (past : t ≤ c.clk)
    (vote : c.flag Reg.HED_GATE_STATUS_VOTE = true) :
    c.strikeActs.get Reg.HED_GATE_STATUS_PERMIT = 1 ∧ c.tells c.strikeActs 113 0 := by
  have rises := Chip.clearStrike_rises permits due past vote
  have seq : ((c.put Reg.HED_GATE_STATUS_STRIKE_LATCH 0).put Reg.HED_GATE_STATUS_SETTLING 0).get Reg.EVT_SEQ_NEXT =
      c.get Reg.EVT_SEQ_NEXT := (Chip.get_put_ne _ _ _ _ (by decide)).trans (Chip.get_put_ne _ _ _ _ (by decide))
  generalize (c.put Reg.HED_GATE_STATUS_STRIKE_LATCH 0).put Reg.HED_GATE_STATUS_SETTLING 0 = e at rises seq
  obtain ⟨permit, -, -, told⟩ := e.permitUp_shows
  rw [← rises] at permit told
  exact ⟨permit, Chip.tells_of_seq seq (Chip.tells_congr told fun f _ _ => c.get_strikeActs f)⟩

/-- A second pulse within the crossing's time acts, or is merged and shown as such. -/
theorem Chip.strikePulse_second (busy : c.clk < c.strikeUntil) : c.strikePulse.strikeUntil = c.clk + 123 ∨
    (c.strikePulse.bitOf Reg.CKP_XING_MERGED_MERGED 3 = true ∧
      c.strikePulse.get Reg.HED_GATE_STATUS_STRIKE_LATCH = c.get Reg.HED_GATE_STATUS_STRIKE_LATCH) := by
  unfold Chip.strikePulse
  rw [if_neg (Nat.not_le.mpr busy)]
  extract_lets merged was c1
  split
  · obtain ⟨kept, -, -⟩ := (c1.putBit Reg.CKP_XING_MERGED_MERGED 3 true).raiseIf_frame (!was) 0 [(1, 3)] (src := 247) (by decide)
    refine .inr ⟨?_, ?_⟩
    · exact (Chip.bitOf_congr (kept _ (by decide) (by decide)) 3).trans (c1.bitOf_putBit_true _ (by decide))
    · exact (kept _ (by decide) (by decide)).trans (Chip.get_putBit_ne _ _ _ _ _ (by decide))
  · exact .inl rfl

end

/-- A write of HED.GATE_CTRL that leaves FORCE_STOP clear, before its CLEAR_STRIKE: the vote shown again. -/
def Chip.forceClear (c : Chip) : Chip :=
  let b := c.put Reg.HED_GATE_CTRL_FORCE_STOP 0
  (b.put Reg.HED_GATE_STATUS_COND_STOP b.condStop).putB Reg.HED_GATE_STATUS_VOTE b.gateVote

section
variable {c : Chip}

theorem Chip.get_forceClear {f : Field} (vote : f.key ≠ Reg.HED_GATE_STATUS_VOTE.key) (cond : f.key ≠ Reg.HED_GATE_STATUS_COND_STOP.key)
    (force : f.key ≠ Reg.HED_GATE_CTRL_FORCE_STOP.key) : c.forceClear.get f = c.get f :=
  (Chip.get_putB_ne _ _ _ _ vote).trans <| (Chip.get_put_ne _ _ _ _ cond).trans (Chip.get_put_ne _ _ _ _ force)

variable (clear : c.get Reg.HED_GATE_CTRL_FORCE_STOP = 0)
include clear

theorem Chip.gateVote_put_force : (c.put Reg.HED_GATE_CTRL_FORCE_STOP 0).gateVote = c.gateVote :=
  Chip.gateVote_congr (Chip.get_put_ne _ _ _ _ (by decide)) ((Chip.get_put_self ..).trans clear.symm)

theorem Chip.forceClear_vote : c.forceClear.flag Reg.HED_GATE_STATUS_VOTE = c.gateVote :=
  (Chip.flag_putB _ _ (by decide)).trans (Chip.gateVote_put_force clear)

/-- With the vote shown as it stands CLEAR_STRIKE neither stops nor begins a settle of its own. -/
theorem Chip.gateCtrl_clear {v : Nat} (force : bit v 0 = false) (strike : bit v 1 = true)
    (shown : c.flag Reg.HED_GATE_STATUS_VOTE = c.gateVote) : c.gateCtrl v = c.forceClear.strikePulse := by
  have run : c.gateCtrl v = ((c.put Reg.HED_GATE_CTRL_FORCE_STOP 0).revote
      ((c.put Reg.HED_GATE_CTRL_FORCE_STOP 0).gatePermit 2)).strikePulse := by
    unfold Chip.gateCtrl
    rw [bits_one_of_bit force, strike, ← c.gatePermit_force 0 2]
    rfl
  have vote := Chip.gateVote_put_force clear
  have was : (c.put Reg.HED_GATE_CTRL_FORCE_STOP 0).flag Reg.HED_GATE_STATUS_VOTE = c.gateVote :=
    (Chip.flag_congr (Chip.get_put_ne _ _ _ _ (by decide))).trans shown
  rw [run, Chip.revote_eq, Chip.voteShown_steady, vote, was]
  congr 1
  split_ifs with scan stops rises
  · exact congrArg _ vote.symm
  · exact absurd (stops.1.symm.trans stops.2) Bool.true_eq_false.mp
  · exact absurd (rises.2.symm.trans rises.1) Bool.true_eq_false.mp
  · exact congrArg _ vote.symm

end

/-! ### Faulty channels and voters (R273) -/

/-- A channel that has disagreed for 50 ms is shown and told. -/
theorem Chip.channelFault_eq {c : Chip} {i t : Nat} (since : SMap.get 0 i c.chanSince = t + 1) : c.channelFault i =
    let e := c.advanceTo (t + 50000000)
    ({ e with chanSince := SMap.set 0 i 0 e.chanSince }.putBit Reg.HED_GATE_FAULT_CHANNEL i true).raise 114 0 [(1, i / 3), (1, i % 3)] := by
  unfold Chip.channelFault
  simp only [since]
  exact if_neg (Nat.succ_ne_zero t)

theorem exec_gateChannelFault (i : Fin 9) (s : State) :
    exec (.gateChannelFault i) s = .next (s.withChip (s.toChip.channelFault i.val)) := rfl

theorem exec_voterFault (k : Fin 3) (s : State) : exec (.voterFault k) s = .next (s.withChip
    ((s.toChip.putBit Reg.HED_GATE_FAULT_VOTER k.val true).raise 115 0 [(1, k.val)])) := rfl

/-- Settles O33: the vote by its inputs, a change of an input by `revote_eq`, PERMIT by what the end of the settle and CLEAR_STRIKE do. -/
theorem gatesVoteThenSettle : Obligations.GatesVoteThenSettle := by
  unfold Obligations.GatesVoteThenSettle
  refine ⟨⟨Chip.gatePermit_iff, Chip.gateVote_iff, fun c idle => Chip.voteStop_shows idle, fun i level s awake => ?_,
    fun p v s awake clear set vote => ?_⟩, fun s t due => ⟨fun vote free => ?_, exec_permitRise_waits due⟩,
    fun p v s awake clear set force shown => ?_, fun i s t since => ?_, exec_voterFault⟩
  · intro c e was f₀ f
    have conf : e.conf = c.conf := by
      rw [show e = _ from c.inputShown_rest i.val level]
      rfl
    have clk : e.clk = c.clk := by
      rw [show e = _ from c.inputShown_rest i.val level]
      rfl
    have kept {g : Field} (other : g.key ≠ Reg.HED_GATE_STATUS_INPUTS.key) : e.get g = c.get g := c.get_inputShown i.val level other
    have shown : e.voteShown (c.gatePermit 2) = f := by
      unfold Chip.voteShown
      rw [Chip.flag_congr (kept (by decide))]
    rw [exec_gateInputChange, Chip.gateChange_awake awake, show c.inputShown i.val level = e from rfl, Chip.revote_eq,
      Chip.voteRise_voteShown, shown, conf, clk, kept (by decide), Chip.flag_congr (kept (by decide))]
  · rw [exec_forceStop awake, Chip.gateCtrl_force (bit_of_getLsbD clear) (bit_of_getLsbD set) vote]
  · exact ⟨_, exec_permitRise_rises due vote free, Chip.settleOver_shows _⟩
  · rw [exec_clearStrike awake, Chip.gateCtrl_clear force (bit_of_getLsbD clear) (bit_of_getLsbD set) shown]
    refine ⟨_, rfl, ?_⟩
    have kept {f : Field} := s.toChip.get_forceClear (f := f)
    have latch := kept (f := Reg.HED_GATE_STATUS_STRIKE_LATCH) (by decide) (by decide) (by decide)
    have permit (k : Nat) : s.toChip.forceClear.gatePermit k = s.toChip.gatePermit k :=
      Chip.gatePermit_congr (kept (by decide) (by decide) (by decide)) k
    refine ⟨fun busy => latch ▸ Chip.strikePulse_second (c := s.toChip.forceClear) busy, fun free => ?_⟩
    rw [Chip.strikePulse_first (c := s.toChip.forceClear) free]
    simp only [Chip.get_strikeActs]
    refine ⟨fun permits => Chip.clearStrike_latch ((permit 2).trans permits), fun bar => ?_, fun t permits due past vote => ?_, fun none => ?_⟩
    · rw [Chip.clearStrike_barred ((permit 2).trans bar), latch]
    · obtain ⟨up, told⟩ := Chip.strikeActs_rises ((permit 2).trans permits) due past ((Chip.forceClear_vote force).trans vote)
      exact ⟨up, Chip.tells_of_seq (kept (by decide) (by decide) (by decide)) told⟩
    · rw [Chip.clearStrike_unsettled (c := s.toChip.forceClear) none, kept (by decide) (by decide) (by decide)]
  · rw [exec_gateChannelFault, Chip.channelFault_eq since]

end Sys2Proof.Machine
end

