-- ==== Sys2Proof/Proofs/CameraTriggers.lean ====
section
/-! PROOF. Proofs/CameraTriggers.lean: camera triggers (R302): a context's data, its GPIO and its exposure window, the start and the end
of a run, and what a trigger does. -/

namespace Sys2Proof.Machine

/-! ### A context's data -/

section
variable (c : Chip) (x : Nat) (v w : CamCtx)

@[simp] theorem Chip.cam_setCam : (c.setCam x v).cam x = v := SMap.get_set_self ..

@[simp] theorem Chip.get_setCam (f : Field) : (c.setCam x v).get f = c.get f := rfl

theorem Chip.cam_congr {c d : Chip} (same : d.camCtx = c.camCtx) (x : Nat) : d.cam x = c.cam x := by
  unfold Chip.cam
  rw [same]

theorem Chip.sameBut5_cam {c d : Chip} (h : c.sameBut5 d) (x : Nat) : d.cam x = c.cam x := by
  refine Chip.cam_congr ?_ x
  rw [h]

end

/-! ### The trigger GPIO and the exposure window -/

section
variable (c : Chip) (x : Nat)

/-- A context's GPIO driven puts out its level, which GPIO_IN then shows. -/
theorem Chip.driveTrig_shows (active : Bool) : (c.driveTrig x active).out = c.out ++ [c.trigLevel x active] ∧
    (c.driveTrig x active).bitOf (Reg.IOX_GPIO_IN_BITS (c.get (Reg.CAM_CTX_TRIG_GPIO x) / 32)) (c.get (Reg.CAM_CTX_TRIG_GPIO x) % 32) =
      (active == c.flag (Reg.CAM_CTX_TRIG_POL x)) := by
  refine ⟨rfl, ?_⟩
  unfold Chip.driveTrig Chip.seeBall
  cases active == c.flag (Reg.CAM_CTX_TRIG_POL x) with
  | false => exact Chip.bitOf_putBit_false ..
  | true => exact Chip.bitOf_putBit_true _ _ (Nat.mod_lt _ (by decide))

/-- Below the registers of GPIO nothing is written. -/
theorem Chip.get_driveTrig (active : Bool) {f : Field} (l : f.lo < 32) (low : f.off < 0xe2000) : (c.driveTrig x active).get f = c.get f := by
  refine Chip.get_put_off (c.emit _) _ f _ (by show 0 < 32; decide) l ?_
  show f.off ≠ 0xe2000 + 4 * (c.get (Reg.CAM_CTX_TRIG_GPIO x) / 32)
  omega

theorem Chip.get_closeExposure {f : Field} (l : f.lo < 32) (low : f.off < 0xe2000) : (c.closeExposure x).get f = c.get f := by
  unfold Chip.closeExposure
  split
  · exact c.get_driveTrig x false l low
  · rfl

theorem Chip.closeExposure_cam : (c.closeExposure x).cam x = { c.cam x with windowEnd := none } := by
  unfold Chip.closeExposure
  split
  · exact Chip.cam_setCam ..
  · next shut =>
    rw [← Option.not_isSome_iff_eq_none.mp shut]

theorem Chip.closeExposure_out :
    (c.closeExposure x).out = c.out ++ (if (c.cam x).windowEnd.isSome then [c.trigLevel x false] else []) := by
  unfold Chip.closeExposure
  split
  · rfl
  · exact (List.append_nil _).symm

theorem Chip.closeExposure_sched : (c.closeExposure x).sched = c.sched := by
  unfold Chip.closeExposure
  split <;> rfl

/-- A window is open at t until its end: a window is half-open (R15). -/
def CamCtx.openAt (v : CamCtx) (t : ET) : Prop := ∃ w, v.windowEnd = some w ∧ 0 < wrapDiff w t

theorem Chip.closePassed_within {c : Chip} {x : Nat} {t : ET} (within : (c.cam x).openAt t) : c.closePassed x t = c := by
  obtain ⟨w, open', ahead⟩ := within
  unfold Chip.closePassed
  rw [open']
  exact if_pos (decide_eq_true ahead)

theorem Chip.closePassed_after {c : Chip} {x : Nat} {t : ET} (after : ¬(c.cam x).openAt t) : c.closePassed x t = c.closeExposure x := by
  unfold Chip.closePassed
  cases ends : (c.cam x).windowEnd with
  | none =>
    unfold Chip.closeExposure
    rw [ends]
    rfl
  | some w => exact if_neg fun ahead => after ⟨w, ends, of_decide_eq_true ahead⟩

end

/-! ### What goes on of a run -/

/-- A run's count, its last triggers and its window are as they were, outputs only grow, and no register is written but ETM.STATUS, the
context's STATUS and those of the event block. -/
structure Chip.keepsTrigger (c d : Chip) (x : Nat) : Prop where
  k : (d.cam x).k = (c.cam x).k
  trigs : (d.cam x).trigs = (c.cam x).trigs
  windowEnd : (d.cam x).windowEnd = (c.cam x).windowEnd
  out : c.out <+: d.out
  regs : c.keepsAt d (quietOff [0x30014, 0xa102c + 0x400 * x])

section
variable {c d e : Chip} {x : Nat}

theorem Chip.keepsTrigger_refl (c : Chip) (x : Nat) : c.keepsTrigger c x := ⟨rfl, rfl, rfl, List.prefix_rfl, Chip.keepsAt_refl c _⟩

theorem Chip.keepsTrigger.trans (h : c.keepsTrigger d x) (g : d.keepsTrigger e x) : c.keepsTrigger e x :=
  ⟨g.k.trans h.k, g.trigs.trans h.trigs, g.windowEnd.trans h.windowEnd, h.out.trans g.out, h.regs.trans g.regs⟩

theorem Chip.keepsTrigger.put (h : c.keepsTrigger d x) (g : Field) (v : Nat) (m : g.off ∈ [0x30014, 0xa102c + 0x400 * x])
    (l : g.lo < 32 := by exact of_decide_eq_true rfl) : c.keepsTrigger (d.put g v) x :=
  ⟨h.k, h.trigs, h.windowEnd, h.out, h.regs.putIn g v m l⟩

theorem Chip.keepsTrigger.raise (h : c.keepsTrigger d x) {src : Nat} (cause : Nat) (items : List (Nat × Nat)) (hs : src < 256 := by decide) :
    c.keepsTrigger (d.raise src cause items) x := by
  have cam := Chip.sameBut5_cam (Chip.raise_rest d src cause items) x
  refine h.trans ⟨?_, ?_, ?_, d.raise_out src cause items, (Chip.keepsAt_refl d _).raiseQuiet hs cause items⟩ <;> rw [cam]

theorem Chip.keepsTrigger.endRun (h : c.keepsTrigger d x) : c.keepsTrigger (d.endRun x) x := by
  have forgotten : d.keepsTrigger (d.setCam x { d.cam x with posDue := [] }) x :=
    ⟨by rw [Chip.cam_setCam], by rw [Chip.cam_setCam], by rw [Chip.cam_setCam], List.prefix_rfl, Chip.keepsAt_refl d _⟩
  have unscheduled : d.keepsTrigger { d.setCam x { d.cam x with posDue := [] } with
      sched := d.sched.filter fun (a : Sched) => decide (a.kind ≠ SchedKind.camTrigger x) } x :=
    ⟨forgotten.k, forgotten.trigs, forgotten.windowEnd, forgotten.out, forgotten.regs⟩
  exact h.trans (unscheduled.put (Reg.CAM_CTX_STATUS_TRIG_RUN x) 0 (by simp [Reg.CAM_CTX_STATUS_TRIG_RUN]))

/-- An action scheduled, run late, or refused (R52). -/
theorem Chip.keepsTrigger_schedule (c : Chip) (target : ET) (kind : SchedKind) (x : Nat) : c.keepsTrigger (c.schedule target kind).1 x := by
  have listed (b : Bool) : c.keepsTrigger { c with sched := c.sched ++ [⟨target, kind, b⟩] } x :=
    ⟨rfl, rfl, rfl, List.prefix_rfl, Chip.keepsAt_refl c _⟩
  have drew (d : Chip) : d.keepsTrigger d.drawn x := ⟨rfl, rfl, rfl, List.prefix_rfl, Chip.keepsAt_refl d _⟩
  unfold Chip.schedule
  dsimp only
  split_ifs
  · exact listed false
  · exact ((((listed true).trans (drew _)).put Reg.ETM_STATUS_LATE 1 (by simp [Reg.ETM_STATUS_LATE])).raise ..)
  · exact (((drew c).put Reg.ETM_STATUS_RANGE 1 (by simp [Reg.ETM_STATUS_RANGE])).raise ..)

theorem Chip.keepsTrigger.scheduleTrigger (h : c.keepsTrigger d x) (k : Nat) : c.keepsTrigger (d.scheduleTrigger x k) x := by
  have scheduled := h.trans (d.keepsTrigger_schedule (d.trigTarget x k) (.camTrigger x) x)
  unfold Chip.scheduleTrigger
  dsimp only
  split
  · exact scheduled.endRun.raise ..
  · exact scheduled

end

/-! ### The end and the start of a run -/

section
variable (c : Chip) (x : Nat)

theorem Chip.endRun_cam : (c.endRun x).cam x = { c.cam x with posDue := [] } := Chip.cam_setCam c x _

theorem Chip.endRun_run : (c.endRun x).get (Reg.CAM_CTX_STATUS_TRIG_RUN x) = 0 := Chip.get_put_self ..

theorem Chip.get_endRun {f : Field} (other : f.key ≠ (Reg.CAM_CTX_STATUS_TRIG_RUN x).key) : (c.endRun x).get f = c.get f :=
  Chip.get_put_ne _ _ _ _ other

/-- A context's data at k = 0 of a run. -/
def Chip.runStart : CamCtx where
  seen := (c.cam x).seen
  windowEnd := (c.cam x).windowEnd
  least := c.travCount
  greatest := c.est.ext

/-- A run at k = 0, before its first trigger is scheduled. -/
def Chip.runBegun : Chip := ((c.endRun x).setCam x (c.runStart x)).put (Reg.CAM_CTX_STATUS_TRIG_RUN x) 1

theorem Chip.runBegun_cam : (c.runBegun x).cam x = c.runStart x := Chip.cam_setCam (c.endRun x) x _

theorem Chip.get_runBegun {f : Field} (other : f.key ≠ (Reg.CAM_CTX_STATUS_TRIG_RUN x).key) : (c.runBegun x).get f = c.get f :=
  (Chip.get_put_ne _ _ _ _ other).trans (c.get_endRun x other)

variable {c} {x}

theorem Chip.trigStart_off (off : c.get (Reg.CAM_CTX_TRIG_MODE x) = 0) : c.trigStart x = c := if_pos off

theorem Chip.trigStart_on (on : c.get (Reg.CAM_CTX_TRIG_MODE x) ≠ 0) :
    c.trigStart x = if c.get (Reg.CAM_CTX_TRIG_MODE x) = 1 then (c.runBegun x).scheduleTrigger x 0 else c.runBegun x := by
  have mode : (c.runBegun x).get (Reg.CAM_CTX_TRIG_MODE x) = c.get (Reg.CAM_CTX_TRIG_MODE x) :=
    c.get_runBegun x (Field.key_ne (by show 0 < 32; decide) (by show 18 < 32; decide) (by simp [Reg.CAM_CTX_TRIG_MODE, Reg.CAM_CTX_STATUS_TRIG_RUN]))
  unfold Chip.trigStart
  rw [if_neg on, ← mode]
  rfl

/-- A trigger whose time lies ahead is scheduled at it. -/
theorem Chip.scheduleTrigger_ahead {k : Nat} (ahead : 0 < wrapDiff (c.trigTarget x k) c.now) :
    c.scheduleTrigger x k = { c with sched := c.sched ++ [⟨c.trigTarget x k, .camTrigger x, false⟩] } := by
  have scheduled : c.schedule (c.trigTarget x k) (.camTrigger x) =
      ({ c with sched := c.sched ++ [⟨c.trigTarget x k, .camTrigger x, false⟩] }, false) := if_pos ahead
  unfold Chip.scheduleTrigger
  rw [scheduled]
  rfl

/-- The first trigger of a run is at T0. -/
theorem Chip.trigTarget_runBegun : (c.runBegun x).trigTarget x 0 =
    BitVec.ofNat 64 (c.get64 (Reg.CAM_CTX_TRIG_T0_LO_T0 x) (Reg.CAM_CTX_TRIG_T0_HI_T0 x)) := by
  have kept {f : Field} (l : f.lo < 32) (other : f.off ≠ 0xa102c + 0x400 * x) : (c.runBegun x).get f = c.get f :=
    c.get_runBegun x (Field.key_ne l (by show 18 < 32; decide) other)
  unfold Chip.trigTarget Chip.get64
  rw [kept (by show 0 < 32; decide) (by simp [Reg.CAM_CTX_TRIG_T0_LO_T0]), kept (by show 0 < 32; decide) (by simp [Reg.CAM_CTX_TRIG_T0_HI_T0]),
    Nat.mul_zero, Nat.zero_mul, Nat.add_zero]

/-- A run begun, its first trigger scheduled at T0 if it goes by ET and T0 lies ahead. -/
theorem Chip.trigStart_begins (on : c.get (Reg.CAM_CTX_TRIG_MODE x) ≠ 0)
    (ahead : c.get (Reg.CAM_CTX_TRIG_MODE x) = 1 →
      0 < wrapDiff (BitVec.ofNat 64 (c.get64 (Reg.CAM_CTX_TRIG_T0_LO_T0 x) (Reg.CAM_CTX_TRIG_T0_HI_T0 x))) c.now) :
    ∃ l, c.trigStart x = { c.runBegun x with sched := l } ∧ l = (c.endRun x).sched ++ if c.get (Reg.CAM_CTX_TRIG_MODE x) = 1 then
      [⟨BitVec.ofNat 64 (c.get64 (Reg.CAM_CTX_TRIG_T0_LO_T0 x) (Reg.CAM_CTX_TRIG_T0_HI_T0 x)), .camTrigger x, false⟩] else [] := by
  rw [Chip.trigStart_on on]
  split
  · next byTime =>
    rw [← Chip.trigTarget_runBegun] at ahead ⊢
    exact ⟨_, Chip.scheduleTrigger_ahead (c := c.runBegun x) (ahead byTime), rfl⟩
  · exact ⟨(c.runBegun x).sched, rfl, (List.append_nil _).symm⟩

/-- What a run begun shows, whatever it has scheduled. -/
theorem Chip.runBegun_shows (c : Chip) (x : Nat) {d : Chip} (begun : d = { c.runBegun x with sched := d.sched }) :
    d.get (Reg.CAM_CTX_STATUS_TRIG_RUN x) = 1 ∧ d.cam x = c.runStart x ∧
    { c with sched := d.sched, camCtx := d.camCtx }.onlyRegs d [(Reg.CAM_CTX_STATUS_TRIG_RUN x).off] := by
  have regs : d.regs = (c.runBegun x).regs := by rw [begun]
  have cam : d.camCtx = (c.runBegun x).camCtx := by rw [begun]
  have rest : d = { c with regs := d.regs, sched := d.sched, camCtx := d.camCtx } := by
    rw [regs, cam]
    exact begun
  exact ⟨(Chip.get_congr regs _).trans (Chip.get_put_self ..), (Chip.cam_congr cam x).trans (c.runBegun_cam x), rest, fun f l n =>
    (Chip.get_congr regs f).trans (c.get_runBegun x (Field.key_ne l (by show 18 < 32; decide) (by simpa using n)))⟩

end

/-! ### A trigger -/

section
variable (c : Chip) (x k : Nat) (t : ET)

/-- A trigger that finds a window open is skipped, counted, and told if the one before was not. -/
def Chip.trigSkipped : Chip :=
  ((c.bump (Reg.CAM_CTX_TRIG_SKIP_COUNT x) 1).raiseIf (!(c.cam x).skipping) 149 1 [(1, x), (4, k)]).setCam x
    { c.cam x with k := (c.cam x).k + 1, skipping := true, trigs := ((k, t) :: (c.cam x).trigs).take 4 }

/-- A trigger that opens its window. -/
def Chip.trigOpened : Chip :=
  (c.driveTrig x true).setCam x { c.cam x with
    k := (c.cam x).k + 1, skipping := false, trigs := ((k, t) :: (c.cam x).trigs).take 4
    windowEnd := some (t + BitVec.ofNat 64 (65536 * c.get (Reg.CAM_CTX_EXPO_NS x))) }

/-- The run after a trigger, which made it n triggers long: it ends after COUNT, and else goes on. -/
def Chip.runOn (n : Nat) : Chip :=
  if c.get (Reg.CAM_CTX_TRIG_CTL_COUNT x) ≠ 0 ∧ c.get (Reg.CAM_CTX_TRIG_CTL_COUNT x) ≤ n then c.endRun x
  else if c.get (Reg.CAM_CTX_TRIG_MODE x) = 1 then c.scheduleTrigger x (k + 1)
  else c

theorem Chip.keepsTrigger_runOn (n : Nat) : c.keepsTrigger (c.runOn x k n) x := by
  have same := Chip.keepsTrigger_refl c x
  unfold Chip.runOn
  split_ifs
  · exact same.endRun
  · exact same.scheduleTrigger (k + 1)
  · exact same

theorem Chip.runOn_ends {n : Nat} (some' : c.get (Reg.CAM_CTX_TRIG_CTL_COUNT x) ≠ 0) (done : c.get (Reg.CAM_CTX_TRIG_CTL_COUNT x) ≤ n) :
    (c.runOn x k n).get (Reg.CAM_CTX_STATUS_TRIG_RUN x) = 0 := by
  unfold Chip.runOn
  rw [if_pos ⟨some', done⟩]
  exact c.endRun_run x

theorem Chip.get_trigSkipped {f : Field} (l : f.lo < 32) (quiet : f.off < 0x20000 ∨ 0x22000 ≤ f.off) :
    (c.trigSkipped x k t).get f = (c.bump (Reg.CAM_CTX_TRIG_SKIP_COUNT x) 1).get f :=
  (Chip.raiseIf_frame _ _ 1 _ (by decide)).1 f l quiet

theorem Chip.fireTrigger_eq {c : Chip} {x : Nat} (on : c.get (Reg.CAM_CTX_TRIG_MODE x) ≠ 0) : c.fireTrigger x k t =
    (if ((c.closePassed x t).cam x).windowEnd.isSome then (c.closePassed x t).trigSkipped x k t
      else (c.closePassed x t).trigOpened x k t).runOn x k (((c.closePassed x t).cam x).k + 1) := if_neg on

variable {c x k t}

theorem Chip.fireTrigger_skips (on : c.get (Reg.CAM_CTX_TRIG_MODE x) ≠ 0) (within : (c.cam x).openAt t) :
    c.fireTrigger x k t = (c.trigSkipped x k t).runOn x k ((c.cam x).k + 1) := by
  obtain ⟨w, open', -⟩ := id within
  rw [Chip.fireTrigger_eq k t on, Chip.closePassed_within within, open']
  rfl

theorem Chip.fireTrigger_opens (on : c.get (Reg.CAM_CTX_TRIG_MODE x) ≠ 0) (after : ¬(c.cam x).openAt t) :
    c.fireTrigger x k t = ((c.closeExposure x).trigOpened x k t).runOn x k ((c.cam x).k + 1) := by
  rw [Chip.fireTrigger_eq k t on, Chip.closePassed_after after, Chip.closeExposure_cam]
  rfl

/-- A skipped trigger (R302). -/
theorem Chip.fireTrigger_skipped (on : c.get (Reg.CAM_CTX_TRIG_MODE x) ≠ 0) (within : (c.cam x).openAt t) :
    let d := c.fireTrigger x k t
    (d.cam x).k = (c.cam x).k + 1 ∧ (d.cam x).trigs = ((k, t) :: (c.cam x).trigs).take 4 ∧
    (d.cam x).windowEnd = (c.cam x).windowEnd ∧ d.get (Reg.CAM_CTX_TRIG_SKIP_COUNT x) =
      min (c.get (Reg.CAM_CTX_TRIG_SKIP_COUNT x) + 1) (2 ^ (Reg.CAM_CTX_TRIG_SKIP_COUNT x).width - 1) ∧
    (c.get (Reg.CAM_CTX_TRIG_CTL_COUNT x) ≠ 0 → c.get (Reg.CAM_CTX_TRIG_CTL_COUNT x) ≤ (c.cam x).k + 1 →
      d.get (Reg.CAM_CTX_STATUS_TRIG_RUN x) = 0) := by
  have cam : (c.trigSkipped x k t).cam x = _ := Chip.cam_setCam ..
  have goes := (c.trigSkipped x k t).keepsTrigger_runOn x k ((c.cam x).k + 1)
  have count : (c.trigSkipped x k t).get (Reg.CAM_CTX_TRIG_CTL_COUNT x) = c.get (Reg.CAM_CTX_TRIG_CTL_COUNT x) :=
    (c.get_trigSkipped x k t (by show 0 < 32; decide) (.inr (by simp [Reg.CAM_CTX_TRIG_CTL_COUNT]; omega))).trans
      (Chip.get_bump_ne _ _ _ _ (by simp [Field.key, Reg.CAM_CTX_TRIG_CTL_COUNT, Reg.CAM_CTX_TRIG_SKIP_COUNT]))
  have skips : (c.trigSkipped x k t).get (Reg.CAM_CTX_TRIG_SKIP_COUNT x) = _ :=
    (c.get_trigSkipped x k t (by show 0 < 32; decide) (.inr (by simp [Reg.CAM_CTX_TRIG_SKIP_COUNT]; omega))).trans (Chip.get_bump_self ..)
  have apart : quietOff [0x30014, 0xa102c + 0x400 * x] (Reg.CAM_CTX_TRIG_SKIP_COUNT x).off := by
    simp [quietOff, Reg.CAM_CTX_TRIG_SKIP_COUNT]
    omega
  rw [Chip.fireTrigger_skips on within]
  refine ⟨goes.k.trans (by rw [cam]), goes.trigs.trans (by rw [cam]), goes.windowEnd.trans (by rw [cam]),
    (goes.regs _ (by show 0 < 32; decide) apart).trans skips, fun some' done => ?_⟩
  rw [← count] at some' done
  exact Chip.runOn_ends _ x k some' done

/-- A trigger drives its GPIO over EXPO, a window that has passed being closed before (R302). -/
theorem Chip.fireTrigger_opened (on : c.get (Reg.CAM_CTX_TRIG_MODE x) ≠ 0) (after : ¬(c.cam x).openAt t) (hx : x < 8) :
    let d := c.fireTrigger x k t
    (d.cam x).k = (c.cam x).k + 1 ∧ (d.cam x).trigs = ((k, t) :: (c.cam x).trigs).take 4 ∧
    (d.cam x).windowEnd = some (t + BitVec.ofNat 64 (65536 * c.get (Reg.CAM_CTX_EXPO_NS x))) ∧
    c.out ++ (if (c.cam x).windowEnd.isSome then [c.trigLevel x false] else []) ++ [c.trigLevel x true] <+: d.out ∧
    (c.get (Reg.CAM_CTX_TRIG_CTL_COUNT x) ≠ 0 → c.get (Reg.CAM_CTX_TRIG_CTL_COUNT x) ≤ (c.cam x).k + 1 →
      d.get (Reg.CAM_CTX_STATUS_TRIG_RUN x) = 0) := by
  have low {o : Nat} (ctx : o < 0xa1400) : o + 0x400 * x < 0xe2000 := by omega
  have shut {f : Field} (l : f.lo < 32) (below : f.off < 0xe2000) := c.get_closeExposure x l below
  have level : (c.closeExposure x).trigLevel x true = c.trigLevel x true := by
    unfold Chip.trigLevel Chip.flag
    rw [shut (f := Reg.CAM_CTX_TRIG_GPIO x) (by show 8 < 32; decide) (low (by decide)),
      shut (f := Reg.CAM_CTX_TRIG_POL x) (by show 16 < 32; decide) (low (by decide))]
  have cam : ((c.closeExposure x).trigOpened x k t).cam x = _ := Chip.cam_setCam ..
  rw [Chip.closeExposure_cam, shut (f := Reg.CAM_CTX_EXPO_NS x) (by show 0 < 32; decide) (low (by decide))] at cam
  have out : ((c.closeExposure x).trigOpened x k t).out = (c.closeExposure x).out ++ [(c.closeExposure x).trigLevel x true] := rfl
  rw [level, Chip.closeExposure_out] at out
  have count : ((c.closeExposure x).trigOpened x k t).get (Reg.CAM_CTX_TRIG_CTL_COUNT x) = c.get (Reg.CAM_CTX_TRIG_CTL_COUNT x) :=
    ((c.closeExposure x).get_driveTrig x true (by show 0 < 32; decide) (low (by decide))).trans
      (shut (by show 0 < 32; decide) (low (by decide)))
  have goes := ((c.closeExposure x).trigOpened x k t).keepsTrigger_runOn x k ((c.cam x).k + 1)
  rw [Chip.fireTrigger_opens on after]
  refine ⟨goes.k.trans (by rw [cam]), goes.trigs.trans (by rw [cam]), goes.windowEnd.trans (by rw [cam]), out ▸ goes.out,
    fun some' done => ?_⟩
  rw [← count] at some' done
  exact Chip.runOn_ends _ x k some' done

end

/-! ### The commands -/

section
variable {s : State}

theorem exec_trigStart (awake : s.awake) (p : Port) (x : Fin 8) {v : Word} (start : v.getLsbD 0 = true) (go : v.getLsbD 1 = false) :
    exec (.trigStart p x v) s = .next (s.withChip (s.toChip.trigStart x.val)) := by
  refine (State.access_of_awake awake fun c => c.trigCmd x.val v.toNat).trans ?_
  unfold Chip.trigCmd
  rw [bit_of_getLsbD start, bit_of_getLsbD go]
  rfl

theorem exec_trigStop (awake : s.awake) (p : Port) (x : Fin 8) {v : Word} (rest : v.getLsbD 0 = false) (stop : v.getLsbD 1 = true) :
    exec (.trigStop p x v) s = .next (s.withChip (s.toChip.trigStop x.val)) := by
  refine (State.access_of_awake awake fun c => c.trigCmd x.val v.toNat).trans ?_
  unfold Chip.trigCmd
  rw [bit_of_getLsbD rest, bit_of_getLsbD stop]
  rfl

theorem exec_trigger (x : Fin 8) (s : State) : exec (.trigger x) s = .next (s.withChip (s.toChip.triggerDue x.val)) := rfl

end

section
variable {c : Chip} {x : Nat}

theorem Chip.triggerDue_scheduled {a : Sched}
    (mine : (c.sched.find? fun (a : Sched) => decide (a.kind = SchedKind.camTrigger x)) = some a) :
    c.triggerDue x = ({ c.advanceToEt a.target with sched := (c.advanceToEt a.target).sched.erase a }).fireTrigger x (c.cam x).k a.target := by
  unfold Chip.triggerDue
  simp only [mine]

theorem Chip.triggerDue_reached {e : Nat × ET} {rest : List (Nat × ET)}
    (mine : (c.sched.find? fun (a : Sched) => decide (a.kind = SchedKind.camTrigger x)) = none) (due : (c.cam x).posDue = e :: rest) :
    c.triggerDue x = (c.setCam x { c.cam x with posDue := rest }).fireTrigger x e.1 e.2 := by
  unfold Chip.triggerDue
  simp only [mine, due]

theorem Chip.triggerDue_none
    (mine : (c.sched.find? fun (a : Sched) => decide (a.kind = SchedKind.camTrigger x)) = none) (due : (c.cam x).posDue = []) :
    c.triggerDue x = c := by
  unfold Chip.triggerDue
  simp only [mine, due]

/-- The run of time leaves the contexts. -/
theorem Chip.cam_advanceToEt (c : Chip) (t : ET) (x : Nat) : (c.advanceToEt t).cam x = c.cam x := by
  unfold Chip.advanceToEt
  split
  · exact Chip.sameBut5_cam (Chip.advance_rest c _) x
  · rfl

end

theorem exec_exposureEnd_none {x : Fin 8} {s : State} (shut : (s.toChip.cam x.val).windowEnd = none) : exec (.exposureEnd x) s = .next s := by
  show execExposureEnd x s = _
  unfold execExposureEnd
  simp only [shut]
  rfl

theorem exec_exposureEnd_some {x : Fin 8} {s : State} {t : ET} (ends : (s.toChip.cam x.val).windowEnd = some t) :
    exec (.exposureEnd x) s = .next (s.withChip (((s.toChip.advanceToEt t).driveTrig x.val false).setCam x.val
      { (s.toChip.advanceToEt t).cam x.val with windowEnd := none })) := by
  have still : ((s.toChip.advanceToEt t).cam x.val).windowEnd.isSome = true := by
    rw [Chip.cam_advanceToEt, ends]
    rfl
  have closed : (s.toChip.advanceToEt t).closeExposure x.val = _ := if_pos still
  show execExposureEnd x s = _
  unfold execExposureEnd
  simp only [ends, closed]
  rfl

/-- STOP ends the run and cuts the window. -/
theorem Chip.trigStop_shows (c : Chip) {x : Nat} (hx : x < 8) : (c.trigStop x).get (Reg.CAM_CTX_STATUS_TRIG_RUN x) = 0 ∧
    ((c.trigStop x).cam x).windowEnd = none ∧ ((c.trigStop x).cam x).posDue = [] ∧
    (c.trigStop x).sched = c.sched.filter (fun (a : Sched) => decide (a.kind ≠ SchedKind.camTrigger x)) ∧
    (c.trigStop x).out = c.out ++ (if (c.cam x).windowEnd.isSome then [c.trigLevel x false] else []) := by
  have cam := (c.endRun x).closeExposure_cam x
  have other {f : Field} (l : f.lo < 32) (apart : f.off ≠ 0xa102c + 0x400 * x) : (c.endRun x).get f = c.get f :=
    c.get_endRun x (Field.key_ne l (by show 18 < 32; decide) apart)
  have level : (c.endRun x).trigLevel x false = c.trigLevel x false := by
    unfold Chip.trigLevel Chip.flag
    rw [other (by show 8 < 32; decide) (by simp [Reg.CAM_CTX_TRIG_GPIO]), other (by show 16 < 32; decide) (by simp [Reg.CAM_CTX_TRIG_POL])]
  have out := (c.endRun x).closeExposure_out x
  rw [level] at out
  rw [Chip.endRun_cam] at cam out
  refine ⟨?_, congrArg CamCtx.windowEnd cam, congrArg CamCtx.posDue cam, (c.endRun x).closeExposure_sched x, out⟩
  exact ((c.endRun x).get_closeExposure x (by show 18 < 32; decide) (by show 0xa102c + 0x400 * x < 0xe2000; omega)).trans (c.endRun_run x)

/-- Settles O44: a run by `trigStart_begins` and `trigStop_shows`, a trigger by whether it finds a window open. -/
theorem triggersDriveTheirWindow : Obligations.TriggersDriveTheirWindow := by
  unfold Obligations.TriggersDriveTheirWindow
  refine ⟨fun p x v s awake => ⟨fun start go off => ?_, fun start go on ahead => ?_, fun rest stop => ?_⟩, fun c x k t off => if_pos off,
    fun c x k t hx on => ?_, fun x s => ⟨fun a mine => ?_, fun e rest mine due => ?_, fun mine due => ?_, exec_exposureEnd_none,
      fun t ends => exec_exposureEnd_some ends⟩, Chip.driveTrig_shows⟩
  · rw [exec_trigStart awake p x start go, Chip.trigStart_off off, State.withChip_toChip]
  · obtain ⟨l, begun, due⟩ := Chip.trigStart_begins on ahead
    rw [exec_trigStart awake p x start go]
    generalize s.toChip.trigStart x.val = d at begun
    have sched : d.sched = l := by rw [begun]
    obtain ⟨runs, cam, regs⟩ := s.toChip.runBegun_shows x.val (d := d) (sched ▸ begun)
    exact ⟨d, rfl, runs, congrArg CamCtx.k cam, congrArg CamCtx.posDue cam, congrArg CamCtx.trigs cam, (congrArg CamCtx.windowEnd cam :),
      sched.trans due, regs⟩
  · exact ⟨_, exec_trigStop awake p x rest stop, s.toChip.trigStop_shows x.isLt⟩
  · by_cases within : (c.cam x).openAt t
    · obtain ⟨run, last, window, skips, ends⟩ := Chip.fireTrigger_skipped (k := k) on within
      exact ⟨run, last, fun after => absurd within after, fun _ => ⟨window, skips⟩, ends⟩
    · obtain ⟨run, last, window, out, ends⟩ := Chip.fireTrigger_opened (k := k) on within hx
      exact ⟨run, last, fun _ => ⟨window, out⟩, fun open' => absurd open' within, ends⟩
  · rw [exec_trigger, Chip.triggerDue_scheduled mine]
  · rw [exec_trigger, Chip.triggerDue_reached mine due]
  · rw [exec_trigger, Chip.triggerDue_none mine due, State.withChip_toChip]

end Sys2Proof.Machine
end

