-- ==== Sys2Proof/Proofs/CameraTables.lean ====
section
/-! PROOF. Proofs/CameraTables.lean: parameter sets armed, written and copied (R294, R295), and maps loaded and written (R97, R299, R300,
R427). -/

namespace Sys2Proof.Machine

/-! ### One of several steps, each at its own place -/

/-- Of steps one after the other, that of a makes Q of P; every other one before it keeps P, and every other one after it keeps Q. -/
theorem foldl_at {α β : Type} {g : β → α → β} {P Q : β → Prop} {a : α} (own : ∀ d, P d → Q (g d a)) {l : List α} (m : a ∈ l)
    (distinct : l.Nodup) (before : ∀ d, ∀ b ∈ l, b ≠ a → P d → P (g d b)) (after : ∀ d, ∀ b ∈ l, b ≠ a → Q d → Q (g d b)) {c : β}
    (start : P c) : Q (l.foldl g c) := by
  induction l generalizing c with
  | nil => cases m
  | cons b l ih =>
    obtain ⟨notLater, rest⟩ := List.nodup_cons.mp distinct
    by_cases same : b = a
    · subst same
      exact List.foldlRecOn l g (own c start) fun d q e later =>
        after d e (List.mem_cons_of_mem _ later) (fun is => notLater (is ▸ later)) q
    · exact ih ((List.mem_cons.mp m).resolve_left fun is => same is.symm) rest
        (fun d e later => before d e (List.mem_cons_of_mem _ later)) (fun d e later => after d e (List.mem_cons_of_mem _ later))
        (before c b (List.mem_cons_self ..) same start)

theorem fieldsAt_lo_ne {off : Nat} {f g : FieldSpec} (hf : f ∈ fieldsAt off) (hg : g ∈ fieldsAt off) (other : g ≠ f) : g.lo ≠ f.lo := by
  have : Std.Symm fun f g : FieldSpec => f.lo ≠ g.lo := ⟨fun _ _ ne => ne.symm⟩
  exact (fieldsAt_pairwise off).forall hg hf other

theorem fieldsAt_nodup (off : Nat) : (fieldsAt off).Nodup := (fieldsAt_pairwise off).imp fun ne same => ne (congrArg FieldSpec.lo same)

/-! ### A register written under its access codes (R17) -/

section
variable (c : Chip) {off : Nat} {f g : FieldSpec} (v : Nat)

theorem Chip.get_writeField_self (here : f ∈ fieldsAt off) : (c.writeField off false v f).get (f.at off) = f.written (c.get (f.at off)) v := by
  have limited : f.value v % 2 ^ f.width = f.value v := Nat.mod_eq_of_lt (FieldSpec.value_lt here v)
  unfold Chip.writeField FieldSpec.written
  cases f.access with
  | ro => rfl
  | wo => rfl
  | rc => rfl
  | rw => exact (Chip.get_put_self ..).trans limited
  | rwl => exact (Chip.get_put_self ..).trans limited
  | w1c =>
    refine (Chip.get_put_self ..).trans (Nat.mod_eq_of_lt (Nat.and_lt_two_pow _ ?_))
    show 2 ^ f.width - 1 - bits v f.lo f.width < 2 ^ f.width
    have := Nat.two_pow_pos f.width
    omega

theorem Chip.get_writeField_ne (locked : Bool) (apart : g.lo ≠ f.lo) : (c.writeField off locked v g).get (f.at off) = c.get (f.at off) := by
  rcases c.writeField_cases off locked v g with same | ⟨x, put⟩
  · rw [same]
  · rw [put]
    refine Chip.get_put_ne _ _ _ _ ?_
    show off * 32 + f.lo ≠ off * 32 + g.lo
    omega

/-- Every field of a register written takes what its access code makes of the word. -/
theorem Chip.get_writeFields (here : f ∈ fieldsAt off) :
    (c.writeFields off false v).get (f.at off) = f.written (c.get (f.at off)) v := by
  have apart (d : Chip) (g : FieldSpec) (there : g ∈ fieldsAt off) (other : g ≠ f) :=
    d.get_writeField_ne (off := off) v false (fieldsAt_lo_ne here there other)
  exact foldl_at (P := fun d : Chip => d.get (f.at off) = c.get (f.at off))
    (Q := fun d : Chip => d.get (f.at off) = f.written (c.get (f.at off)) v) (a := f)
    (fun d same => (d.get_writeField_self v here).trans (by rw [same])) here (fieldsAt_nodup off)
    (fun d g there other same => (apart d g there other).trans same) (fun d g there other taken => (apart d g there other).trans taken) rfl

end

/-! ### Parameter sets (R294, R295) -/

/-- One word of a context's shadow set copied to its active set. -/
def Chip.copyWord (c : Chip) (x w : Nat) : Chip :=
  (fieldsAt (0xA1000 + 0x400 * x + 0x100 + 4 * w)).foldl (fun c f =>
    c.put ⟨0xA1000 + 0x400 * x + 0x200 + 4 * w, f.lo, f.width, f.rst⟩ (c.get (f.at (0xA1000 + 0x400 * x + 0x100 + 4 * w)))) c

theorem Chip.copyShadow_eq (c : Chip) (x : Nat) : c.copyShadow x =
    (List.range 64).foldl (fun c w => c.copyWord x w) (c.resetRange (0xA1000 + 0x400 * x + 0x200) (0xA1000 + 0x400 * x + 0x300)) := rfl

section
variable (c : Chip) (x : Nat)

theorem Chip.keepsAt_copyWord (w : Nat) : c.keepsAt (c.copyWord x w) (· ≠ 0xA1000 + 0x400 * x + 0x200 + 4 * w) :=
  Chip.keepsAt_foldl (fun d f here => (Chip.keepsAt_refl d _).put
    ⟨0xA1000 + 0x400 * x + 0x200 + 4 * w, f.lo, f.width, f.rst⟩ _ (fun ne => ne rfl) (fieldsAt_bounds here).1) c

/-- A set that applies writes the active set alone. -/
theorem Chip.keepsAt_copyShadow : c.keepsAt (c.copyShadow x)
    fun o => o < 0xA1000 + 0x400 * x + 0x200 ∨ 0xA1000 + 0x400 * x + 0x300 ≤ o := by
  rw [Chip.copyShadow_eq]
  refine (c.keepsAt_resetRange _ _).trans (Chip.keepsAt_foldl (fun d w within => ?_) _)
  have few := List.mem_range.mp within
  exact (d.keepsAt_copyWord x w).mono fun o out => by omega

variable {c x} {w : Nat} {f : FieldSpec}

/-- A word's field copied is the low bits of the shadow set's. -/
theorem Chip.get_copyWord (here : f ∈ fieldsAt (0xA1000 + 0x400 * x + 0x100 + 4 * w)) :
    (c.copyWord x w).get ⟨0xA1000 + 0x400 * x + 0x200 + 4 * w, f.lo, f.width, f.rst⟩ =
      c.get (f.at (0xA1000 + 0x400 * x + 0x100 + 4 * w)) % 2 ^ f.width := by
  have low {g : FieldSpec} (there : g ∈ fieldsAt (0xA1000 + 0x400 * x + 0x100 + 4 * w)) := (fieldsAt_bounds there).1
  refine foldl_at
    (P := fun d : Chip => d.get (f.at (0xA1000 + 0x400 * x + 0x100 + 4 * w)) = c.get (f.at (0xA1000 + 0x400 * x + 0x100 + 4 * w)))
    (Q := fun d : Chip => d.get ⟨0xA1000 + 0x400 * x + 0x200 + 4 * w, f.lo, f.width, f.rst⟩ =
      c.get (f.at (0xA1000 + 0x400 * x + 0x100 + 4 * w)) % 2 ^ f.width)
    (fun d same => ?_) here (fieldsAt_nodup _) (fun d g there _ same => ?_) (fun d g there other copied => ?_) rfl
  · rw [Chip.get_put_self, same]
  · refine (Chip.get_put_off _ _ _ _ (low there) (low here) ?_).trans same
    show 0xA1000 + 0x400 * x + 0x100 + 4 * w ≠ 0xA1000 + 0x400 * x + 0x200 + 4 * w
    omega
  · refine (Chip.get_put_ne _ _ _ _ ?_).trans copied
    have apart := fieldsAt_lo_ne here there other
    show (0xA1000 + 0x400 * x + 0x200 + 4 * w) * 32 + f.lo ≠ (0xA1000 + 0x400 * x + 0x200 + 4 * w) * 32 + g.lo
    omega

/-- The set that applies is the shadow set word by word. -/
theorem Chip.get_copyShadow (few : w < 64) (here : f ∈ fieldsAt (0xA1000 + 0x400 * x + 0x100 + 4 * w)) :
    (c.copyShadow x).get ⟨0xA1000 + 0x400 * x + 0x200 + 4 * w, f.lo, f.width, f.rst⟩ =
      c.get (f.at (0xA1000 + 0x400 * x + 0x100 + 4 * w)) % 2 ^ f.width := by
  have low := (fieldsAt_bounds here).1
  rw [Chip.copyShadow_eq]
  refine foldl_at (a := w)
    (P := fun d : Chip => d.get (f.at (0xA1000 + 0x400 * x + 0x100 + 4 * w)) = c.get (f.at (0xA1000 + 0x400 * x + 0x100 + 4 * w)))
    (Q := fun d : Chip => d.get ⟨0xA1000 + 0x400 * x + 0x200 + 4 * w, f.lo, f.width, f.rst⟩ =
      c.get (f.at (0xA1000 + 0x400 * x + 0x100 + 4 * w)) % 2 ^ f.width)
    (fun d same => ?_) (List.mem_range.mpr few) List.nodup_range (fun d b within _ same => ?_) (fun d b _ other copied => ?_) ?_
  · rw [Chip.get_copyWord here, same]
  · refine (d.keepsAt_copyWord x b _ low ?_).trans same
    have := List.mem_range.mp within
    show 0xA1000 + 0x400 * x + 0x100 + 4 * w ≠ 0xA1000 + 0x400 * x + 0x200 + 4 * b
    omega
  · refine (d.keepsAt_copyWord x b _ low ?_).trans copied
    show 0xA1000 + 0x400 * x + 0x200 + 4 * w ≠ 0xA1000 + 0x400 * x + 0x200 + 4 * b
    omega
  · refine c.keepsAt_resetRange _ _ _ low (.inl ?_)
    show 0xA1000 + 0x400 * x + 0x100 + 4 * w < 0xA1000 + 0x400 * x + 0x200
    omega

end

section
variable {s : State} (awake : s.awake) (p : Port) (x : Fin 8)
include awake

theorem exec_arm {v : Word} (arm : v.getLsbD 16 = true) (keep : v.getLsbD 17 = false) : exec (.arm p x v) s = .next (s.withChip
    ((if s.toChip.flag (Reg.CAM_CTX_STATUS_ARMED x.val) then s.toChip else s.toChip.put (Reg.CAM_CTX_APPLY_FROM x.val) (bits v.toNat 0 16)).put
      (Reg.CAM_CTX_STATUS_ARMED x.val) 1)) := by
  refine (State.access_of_awake awake fun c => c.applyCtl x.val v.toNat).trans ?_
  unfold Chip.applyCtl
  rw [bit_of_getLsbD arm, bit_of_getLsbD keep]
  rfl

theorem exec_disarm {v : Word} (keep : v.getLsbD 16 = false) (disarm : v.getLsbD 17 = true) : exec (.disarm p x v) s = .next (s.withChip
    ((if s.toChip.flag (Reg.CAM_CTX_STATUS_ARMED x.val) then s.toChip else s.toChip.put (Reg.CAM_CTX_APPLY_FROM x.val) (bits v.toNat 0 16)).put
      (Reg.CAM_CTX_STATUS_ARMED x.val) 0)) := by
  refine (State.access_of_awake awake fun c => c.applyCtl x.val v.toNat).trans ?_
  unfold Chip.applyCtl
  rw [bit_of_getLsbD keep, bit_of_getLsbD disarm]
  rfl

variable (off : BitVec 8) (v : Word)

theorem exec_shadowWrite_armed (armed : s.toChip.flag (Reg.CAM_CTX_STATUS_ARMED x.val) = true) : exec (.shadowWrite p x off v) s =
    .next (s.withChip (s.toChip.raise 148 0 [(1, x.val), (4, 0xA1100 + 0x400 * x.val + off.toNat)])) := by
  refine (State.access_of_awake awake fun c => c.shadowWrite x.val off.toNat v.toNat).trans ?_
  unfold Chip.shadowWrite
  rw [if_pos armed]

theorem exec_shadowWrite_free (free : s.toChip.flag (Reg.CAM_CTX_STATUS_ARMED x.val) = false) : exec (.shadowWrite p x off v) s =
    .next (s.withChip (s.toChip.writeFields (0xA1100 + 0x400 * x.val + off.toNat) false v.toNat)) := by
  refine (State.access_of_awake awake fun c => c.shadowWrite x.val off.toNat v.toNat).trans ?_
  unfold Chip.shadowWrite
  rw [if_neg (Bool.eq_false_iff.mp free)]

end

/-! ### The checks of MAP_LOAD (R299) -/

/-- Length and range of a MAP_LOAD are right. -/
def mapShapeOk (d : List Byte) : Prop :=
  tdLen d = 4 * tdCount d ∧ 1 ≤ tdCount d ∧ tdCount d ≤ 16384 ∧ tdFirst d + tdCount d ≤ 16384

section
variable {d : List Byte}

theorem mapChecks_misshapen (bad : ¬mapShapeOk d) : mapChecks d = some 0x101 := by
  unfold mapChecks
  by_cases len : tdLen d = 4 * tdCount d
  · refine (if_neg (not_not.mpr len)).trans (if_pos ?_)
    unfold mapShapeOk at bad
    omega
  · exact if_pos len

variable (good : mapShapeOk d)
include good

theorem mapChecks_pipe (beyond : 3 < leField d 0x1C 1) : mapChecks d = some 0x102 := by
  obtain ⟨len, filled, most, within⟩ := good
  unfold mapChecks
  rw [if_neg (not_not.mpr len), if_neg (by omega), if_pos beyond]

theorem mapChecks_none (pipe : leField d 0x1C 1 ≤ 3) : mapChecks d = none := by
  obtain ⟨len, filled, most, within⟩ := good
  unfold mapChecks
  rw [if_neg (not_not.mpr len), if_neg (by omega), if_neg (Nat.not_lt.mpr pipe)]

end

theorem Chip.mapEntryOk_iff (c : Chip) (w : Nat) : c.mapEntryOk w = true ↔
    bit w 31 = false ∨ (bits w 25 6 < 48 ∧ bits w 12 13 < c.get (Reg.HED_HEAD_CFG_NOZZLES (bits w 25 6))) := by
  simp [Chip.mapEntryOk]

theorem length_bufWords (d buf : List Byte) : (bufWords d buf).length = tdCount d := by simp [bufWords]

theorem bufWords_getD {d : List Byte} {i : Nat} (hi : i < tdCount d) (buf : List Byte) : (bufWords d buf).getD i 0 = leField buf (4 * i) 4 := by
  simp [bufWords, bufWord, hi]

/-- A buffer of a MAP_LOAD is taken if each of its entries may be loaded. -/
theorem Chip.bufferFault_map (c : Chip) (d buf : List Byte) :
    c.bufferFault 0x13 d buf = if ∀ i, i < tdCount d → c.mapEntryOk (leField buf (4 * i) 4) = true then none else some 0x102 := by
  have all : (bufWords d buf).all c.mapEntryOk = true ↔ ∀ i, i < tdCount d → c.mapEntryOk (leField buf (4 * i) 4) = true := by
    simp [bufWords, bufWord]
  show (if (!(bufWords d buf).all c.mapEntryOk) = true then some 0x102 else none) = _
  by_cases fine : (bufWords d buf).all c.mapEntryOk = true
  · rw [if_pos (all.mp fine), fine]
    rfl
  · rw [if_neg fun each => fine (all.mpr each), Bool.eq_false_iff.mpr fine]
    rfl

/-! ### A table load by its checks (R196, R299) -/

section
variable {c : Chip} {p n op : Nat} {d : List Byte} (front : c.headOp p n op = some d) (ready : (c.ring p n).acted = false)
  (free : (c.ring p n).load = none) {checks : List Byte → Option Nat}
include front ready free

theorem Chip.tableLoad_bad {code : Nat} (bad : checks d = some code) (buf : Option (List Byte)) :
    c.tableLoad p n op buf checks = c.faultDesc p n code := by
  unfold Chip.tableLoad
  simp [front, ready, free, bad]

theorem Chip.tableLoad_unread (good : checks d = none) : c.tableLoad p n op none checks = c.faultDesc p n 0x103 := by
  unfold Chip.tableLoad
  simp [front, ready, free, good]

theorem Chip.tableLoad_badBuffer (good : checks d = none) {b : List Byte} {code : Nat} (bad : c.bufferFault op d b = some code) :
    c.tableLoad p n op (some b) checks = c.faultDesc p n code := by
  unfold Chip.tableLoad
  simp [front, ready, free, good, bad]

theorem Chip.tableLoad_takes (good : checks d = none) {b : List Byte} (fine : c.bufferFault op d b = none) :
    c.tableLoad p n op (some b) checks = (c.announce p n d b fun c => c.loadRecords op d b).loadReady p n := by
  unfold Chip.tableLoad
  simp [front, ready, free, good, fine]

end

/-! ### The change records of a load (R427, R433) -/

/-- The rings are as they were, the partner tracks as before, and no register is written but TDM.MIRROR_WAIT. -/
structure Chip.keepsRingData (c d : Chip) : Prop where
  rings : d.rings = c.rings
  tracked : d.tracked = c.tracked
  regs : c.keepsAt d (· ≠ 0x200024)

section
variable {c d e : Chip}

theorem Chip.keepsRingData_refl (c : Chip) : c.keepsRingData c := ⟨rfl, rfl, Chip.keepsAt_refl c _⟩

theorem Chip.keepsRingData.trans (h : c.keepsRingData d) (k : d.keepsRingData e) : c.keepsRingData e :=
  ⟨k.rings.trans h.rings, k.tracked.trans h.tracked, h.regs.trans k.regs⟩

theorem Chip.keepsRingData_tandemOut (c : Chip) (type : Nat) (bytes : List Byte) : c.keepsRingData (c.tandemOut type bytes) := by
  refine ⟨?_, ?_, (Chip.keepsAt_refl c _).of_regs (c.tandemOut_regs type bytes)⟩ <;>
    unfold Chip.tandemOut <;> dsimp only <;> split <;> rfl

theorem Chip.keepsAt_showWait (c : Chip) : c.keepsAt c.showWait (· ≠ 0x200024) :=
  ((Chip.keepsAt_refl c _).put Reg.TDM_MIRROR_WAIT_ITEMS _ fun ne => ne rfl).put Reg.TDM_MIRROR_WAIT_RECORDS _ fun ne => ne rfl

theorem Chip.keepsRingData_showWait (c : Chip) : c.keepsRingData c.showWait := ⟨rfl, rfl, c.keepsAt_showWait⟩

theorem Chip.keepsRingData.congr (h : c.keepsRingData d) (rings : e.rings = d.rings := by rfl) (tracked : e.tracked = d.tracked := by rfl)
    (regs : e.regs = d.regs := by rfl) : c.keepsRingData e :=
  h.trans ⟨rings, tracked, (Chip.keepsAt_refl d _).of_regs regs⟩

theorem Chip.keepsRingData_sendLog (c : Chip) (type records : Nat) (body : List Byte) : c.keepsRingData (c.sendLog type records body) := by
  unfold Chip.sendLog Chip.sendFrame
  extract_lets q bytes c1 c2
  have out : c.keepsRingData c1 := (c.keepsRingData_tandemOut type bytes).congr
  have kept : c.keepsRingData (c1.setTdm { c1.tdm with kept := c1.tdm.kept ++ [TFrame.mk q type records bytes] }) := out.congr
  exact (kept.trans (Chip.keepsRingData_showWait _)).congr

theorem Chip.keepsRingData_logValue (c : Chip) (kind source key value : Nat) : c.keepsRingData (c.logValue kind source key value) := by
  unfold Chip.logValue
  split
  · have counted : c.keepsRingData (c.setTdm { c.tdm with changeId := c.tdm.changeId + 1 }) := (Chip.keepsRingData_refl c).congr
    exact counted.trans (Chip.keepsRingData_sendLog ..)
  · exact Chip.keepsRingData_refl c

theorem Chip.keepsRingData_mapRecords (c : Chip) (d buf : List Byte) : c.keepsRingData (c.loadRecords 0x13 d buf) :=
  List.foldlRecOn (motive := fun e => c.keepsRingData e) _ _ (Chip.keepsRingData_refl c) fun _ kept _ _ =>
    kept.trans (Chip.keepsRingData_logValue ..)

/-- Without a partner that takes records none is sent. -/
theorem Chip.mapRecords_alone (alone : c.sendsLog = false) (d buf : List Byte) : c.loadRecords 0x13 d buf = c :=
  foldl_eq_self fun i _ => by
    show c.logValue 4 (leField d 0x1C 1) (tdFirst d + i) (bufWord buf i) = c
    unfold Chip.logValue
    rw [if_neg (Bool.eq_false_iff.mp alone)]

end

/-! ### A MAP_LOAD whose buffer is taken (R299, R427) -/

section
variable (c : Chip) (p n : Nat)

/-- The ring's load with its buffer. -/
def Chip.withLoad (w : TableWait) : Chip := c.setRing p n { c.ring p n with load := some w }

theorem Chip.ring_withLoad (w : TableWait) : (c.withLoad p n w).ring p n = { c.ring p n with load := some w } := Chip.ring_setRing ..

/-- What is at the head of a ring stays there as it takes a buffer. -/
theorem Chip.headOp_withLoad (w : TableWait) (op : Nat) : (c.withLoad p n w).headOp p n op = c.headOp p n op := by
  unfold Chip.headOp
  rw [Chip.ring_withLoad]
  rfl

theorem Chip.headOp_other {c : Chip} {p n op : Nat} {d : List Byte} (front : c.headOp p n op = some d) {o : Nat} (other : o ≠ op) :
    c.headOp p n o = none := by
  have code : leField d 0 1 = op ∧ ∀ o, c.headOp p n o = if leField d 0 1 = o then some d else none := by
    unfold Chip.headOp at front ⊢
    split at front
    · next running =>
      split at front
      · next e _ head =>
        split at front
        · next is =>
          cases front
          simp [running, is]
        · cases front
      · cases front
    · cases front
  rw [code.2, if_neg fun is => other (is.symm.trans code.1)]

/-- Map entries written one after the other. -/
def Chip.putEntries (pipe first : Nat) (ws : List Nat) : Chip :=
  (List.range ws.length).foldl (fun c i => c.put (Reg.CAM_MAP_ENTRY pipe (first + i)) (ws.getD i 0)) c

variable {c p n} {pipe first : Nat} {ws : List Nat}

theorem Chip.putEntries_rest : c.putEntries pipe first ws = { c with regs := (c.putEntries pipe first ws).regs } :=
  List.foldlRecOn (motive := fun (d : Chip) => d = { c with regs := d.regs }) _ _ rfl fun d kept i _ => by
    rw [kept]
    rfl

theorem mapEntry_key_ne {q i r j : Nat} (hi : i < 16384) (hj : j < 16384) (other : ¬(q = r ∧ i = j)) :
    (Reg.CAM_MAP_ENTRY q i).key ≠ (Reg.CAM_MAP_ENTRY r j).key := by
  show (0x250000 + 0x10000 * q + 4 * i) * 32 + 0 ≠ (0x250000 + 0x10000 * r + 4 * j) * 32 + 0
  omega

theorem Chip.get_putEntries (within : first + ws.length ≤ 16384) {i : Nat} (hi : i < ws.length) :
    (c.putEntries pipe first ws).get (Reg.CAM_MAP_ENTRY pipe (first + i)) = ws.getD i 0 % 2 ^ 32 := by
  refine foldl_at (a := i) (P := fun _ => True)
    (Q := fun d : Chip => d.get (Reg.CAM_MAP_ENTRY pipe (first + i)) = ws.getD i 0 % 2 ^ 32)
    (fun d _ => Chip.get_put_self ..) (List.mem_range.mpr hi) List.nodup_range (fun _ _ _ _ _ => trivial)
    (fun d j hj other written => (Chip.get_put_ne _ _ _ _ (mapEntry_key_ne ?_ ?_ ?_)).trans written) trivial
  all_goals
    have := List.mem_range.mp hj
    omega

theorem Chip.get_putEntries_ne (within : first + ws.length ≤ 16384) {q i : Nat} (hi : i < 16384)
    (out : ¬(q = pipe ∧ first ≤ i ∧ i < first + ws.length)) :
    (c.putEntries pipe first ws).get (Reg.CAM_MAP_ENTRY q i) = c.get (Reg.CAM_MAP_ENTRY q i) := by
  refine List.foldlRecOn (motive := fun d : Chip => d.get (Reg.CAM_MAP_ENTRY q i) = c.get (Reg.CAM_MAP_ENTRY q i)) _ _ rfl
    fun d kept j hj => (Chip.get_put_ne _ _ _ _ (mapEntry_key_ne hi ?_ ?_)).trans kept
  all_goals
    have := List.mem_range.mp hj
    omega

variable {d b : List Byte}

/-- Without a partner that tracks, the entries are written as the load completes. -/
theorem Chip.mapTaken_alone (front : c.headOp p n 0x13 = some d) (alone : c.sendsLog = false) (free : c.tracked = false) :
    (c.announce p n d b fun c => c.loadRecords 0x13 d b).loadReady p n =
      ((c.withLoad p n ⟨b, none, false⟩).putEntries (leField d 0x1C 1) (tdFirst d) (bufWords d b)).complete p n 0 d [] := by
  have announced : (c.announce p n d b fun c => c.loadRecords 0x13 d b) = c.withLoad p n ⟨b, none, false⟩ := by
    unfold Chip.announce
    simp only [Chip.mapRecords_alone alone, alone, free]
    rfl
  have head (op : Nat) := (c.headOp_withLoad p n ⟨b, none, false⟩ op)
  rw [announced]
  unfold Chip.loadReady
  simp only [Chip.ring_withLoad, head, front, Chip.headOp_other front (show 0x10 ≠ 0x13 by decide),
    Chip.headOp_other front (show 0x11 ≠ 0x13 by decide), Chip.headOp_other front (show 0x12 ≠ 0x13 by decide)]
  rfl

/-- A partner that tracks is waited for: the ring keeps the buffer, its descriptor counts as acted on, and the map stays. -/
theorem Chip.mapTaken_tracked (tracks : c.tracked = true) :
    let e := (c.announce p n d b fun c => c.loadRecords 0x13 d b).loadReady p n
    (∃ base, (e.ring p n).load = some ⟨b, base, true⟩) ∧ (e.ring p n).acted = true ∧ c.keepsAt e (· ≠ 0x200024) := by
  intro e
  have records := c.keepsRingData_mapRecords d b
  have still : (c.loadRecords 0x13 d b).tracked = true := records.tracked.trans tracks
  generalize base_eq : (if c.sendsLog then some c.tdm.changeId else none) = base
  have announced : (c.announce p n d b fun c => c.loadRecords 0x13 d b) =
      ((c.loadRecords 0x13 d b).withLoad p n ⟨b, base, true⟩).completeSent p n 0 d [] := by
    unfold Chip.announce
    simp only [still, base_eq, if_true]
    rfl
  generalize c.loadRecords 0x13 d b = r at records still announced
  have sent : (r.withLoad p n ⟨b, base, true⟩).completeSent p n 0 d [] =
      (({ r.withLoad p n ⟨b, base, true⟩ with mirrorWait := r.mirrorWait ++ [⟨r.lastSeq, p, n, 0, d, [], r.clk⟩] } : Chip).setRing p n
        { r.ring p n with load := some ⟨b, base, true⟩, acted := true }).showWait := by
    unfold Chip.completeSent
    rw [if_pos (show (r.withLoad p n ⟨b, base, true⟩).tracked = true from still)]
    show Chip.showWait (Chip.setRing _ p n { (r.withLoad p n ⟨b, base, true⟩).ring p n with acted := true }) = _
    rw [Chip.ring_withLoad]
    rfl
  have ring : ((r.withLoad p n ⟨b, base, true⟩).completeSent p n 0 d []).ring p n =
      { r.ring p n with load := some ⟨b, base, true⟩, acted := true } := by
    rw [sent]
    exact Chip.ring_setRing ..
  have waits : e = (r.withLoad p n ⟨b, base, true⟩).completeSent p n 0 d [] := by
    show (c.announce p n d b fun c => c.loadRecords 0x13 d b).loadReady p n = _
    rw [announced]
    unfold Chip.loadReady
    simp only [ring, if_true]
  rw [waits, ring]
  refine ⟨⟨base, rfl⟩, rfl, ?_⟩
  rw [sent]
  exact records.regs.trans (Chip.keepsAt_showWait _)

end

theorem exec_mapLoad (p : Port) (n : Fin 64) (buf : Option (List Byte)) (s : State) :
    exec (.mapLoad p n buf) s = .next (s.withChip (s.toChip.tableLoad p.num n.val 0x13 buf mapChecks)) := rfl

/-! ### A map window (R300) -/

section
variable {s : State} (awake : s.awake) (p : Port) (pipe : Fin 4) (i : Fin 16384) (v : Word)
include awake

theorem exec_mapWindowWrite : exec (.mapWindowWrite p pipe i v) s = .next (s.withChip (s.toChip.mapWindow pipe.val i.val v.toNat)) :=
  State.access_of_awake awake fun c => c.mapWindow pipe.val i.val v.toNat

end

/-- Settles O43: a shadow write by its access codes, a copy word by word, a load by its checks and the partner, a window write by the
contexts of its pipeline. -/
theorem parameterSetsAndMaps : Obligations.ParameterSetsAndMaps := by
  unfold Obligations.ParameterSetsAndMaps
  refine ⟨⟨fun p x v s awake => ⟨exec_arm awake p x, exec_disarm awake p x, fun off _ => ⟨exec_shadowWrite_armed awake p x off v,
      fun free => ⟨_, exec_shadowWrite_free awake p x off v free, fun f here => s.toChip.get_writeFields v.toNat here,
        s.toChip.onlyRegs_writeFields _ false _⟩⟩⟩, fun c x w f hx hw here => ?_⟩, fun p n s d front ready free => ?_,
    fun p pipe i v s awake => ?_⟩
  · have at' : 0xA1100 + 0x400 * x + 4 * w = 0xA1000 + 0x400 * x + 0x100 + 4 * w := by omega
    have active : 0xA1000 + 0x400 * x + 0x100 + 4 * w + 0x100 = 0xA1000 + 0x400 * x + 0x200 + 4 * w := by omega
    intro o
    have shadow : o = 0xA1000 + 0x400 * x + 0x100 + 4 * w := at'
    rw [at'] at here
    rw [shadow, active]
    refine ⟨Chip.get_copyShadow hw here, c.keepsAt_copyShadow x _ (fieldsAt_bounds here).1 (.inl ?_)⟩
    show 0xA1000 + 0x400 * x + 0x100 + 4 * w < _
    omega
  · intro c kept len first count pipe good ok
    have wellFormed : good ↔ mapShapeOk d := Iff.rfl
    have okAll (b : List Byte) : (∀ i, i < count → ok (leField b (4 * i) 4)) ↔
        ∀ i, i < tdCount d → c.mapEntryOk (leField b (4 * i) 4) = true :=
      forall₂_congr fun i _ => (c.mapEntryOk_iff _).symm
    simp only [exec_mapLoad]
    refine ⟨fun bad b => ?_, fun shape beyond b => ?_, fun shape within => ⟨?_, fun b => ⟨fun bad => ?_, fun fine tracks => ?_,
      fun fine alone free' => ?_⟩⟩⟩
    · rw [Chip.tableLoad_bad front ready free (mapChecks_misshapen bad)]
    · rw [Chip.tableLoad_bad front ready free (mapChecks_pipe shape beyond)]
    · rw [Chip.tableLoad_unread front ready free (mapChecks_none shape within)]
    · rw [Chip.tableLoad_badBuffer front ready free (mapChecks_none shape within)
        ((Chip.bufferFault_map ..).trans (if_neg fun all => bad ((okAll b).mpr all)))]
    · rw [Chip.tableLoad_takes front ready free (mapChecks_none shape within)
        ((Chip.bufferFault_map ..).trans (if_pos ((okAll b).mp fine)))]
      obtain ⟨⟨base, load⟩, acted, regs⟩ := Chip.mapTaken_tracked (p := p.num) (n := n.val) (d := d) (b := b) tracks
      have hp := portNum_lt p
      refine ⟨_, base, rfl, load, acted, regs _ (by show 0 < 32; decide) ?_, fun q i hq hi => regs _ (by show 0 < 32; decide) ?_⟩
      · show 0x11018 + 0x1000 * p.num + 0x40 * n.val ≠ 0x200024
        omega
      · show 0x250000 + 0x10000 * q + 4 * i ≠ 0x200024
        omega
    · obtain ⟨-, -, -, range⟩ := id shape
      rw [Chip.tableLoad_takes front ready free (mapChecks_none shape within)
        ((Chip.bufferFault_map ..).trans (if_pos ((okAll b).mp fine))), Chip.mapTaken_alone front alone free']
      have room : tdFirst d + (bufWords d b).length ≤ 16384 := by rwa [length_bufWords]
      refine ⟨_, rfl, Chip.putEntries_rest, fun i hi => ?_, fun q i hq hi out => ?_⟩
      · rw [← bufWords_getD hi]
        exact Chip.get_putEntries room (by rwa [length_bufWords])
      · exact Chip.get_putEntries_ne room hi (by rwa [length_bufWords])
  · intro c used
    rw [exec_mapWindowWrite awake]
    exact ⟨fun on => congrArg (fun e => Host.Outcome.next (s.withChip e)) (if_pos on),
      fun off => congrArg (fun e => Host.Outcome.next (s.withChip e)) (if_neg off)⟩

end Sys2Proof.Machine
end

