-- ==== Sys2Proof/Proofs/CameraFrames.lean ====
section
/-! PROOF. Proofs/CameraFrames.lean: frames opened, filled and closed, and the errors of a receiver (R275 to R285, R301, R308, R458): what
a port heard from writes, what a closed frame's items and record leave, and what a pipeline that goes on to its next frame leaves. -/

namespace Sys2Proof.Machine

/-! ### A port heard from -/

/-- A port heard from changes registers and quarantines alone, and of the registers those of the port's STATUS, its CRC_ERR, PORT_UP and
CKP.XING_QUAR. -/
structure Chip.hears (c d : Chip) (p : Nat) : Prop where
  rest : d = { c with regs := d.regs, quar := d.quar }
  regs : c.keepsAt d (· ∉ [0x210034, 0xa0004, 0xa0108 + 0x20 * p, 0xa0114 + 0x20 * p])

section
variable {c d : Chip} {p : Nat}

theorem Chip.hears.put (h : c.hears d p) (g : Field) (v : Nat) (m : g.off ∈ [0x210034, 0xa0004, 0xa0108 + 0x20 * p, 0xa0114 + 0x20 * p])
    (l : g.lo < 32 := by exact of_decide_eq_true rfl) : c.hears (d.put g v) p := by
  refine ⟨?_, h.regs.put g v (fun out => out m) l⟩
  rw [h.rest]
  rfl

theorem Chip.hears_endQuarantine (h : c.hears d p) (x inst : Nat) : c.hears (d.endQuarantine x inst) p := by
  have opened : c.hears { d with quar := d.quar.filter fun (q : Nat × Nat) => decide (q ≠ (x, inst)) } p :=
    ⟨by rw [h.rest], h.regs.of_regs rfl⟩
  exact opened.put Reg.CKP_XING_QUAR_QUAR _ (by simp [Reg.CKP_XING_QUAR_QUAR])

theorem Chip.hears_portHeard (c : Chip) (p : Nat) : c.hears (c.portHeard p) p := by
  have opened : c.hears ((c.endQuarantine 13 p).endQuarantine 14 p) p :=
    Chip.hears_endQuarantine (Chip.hears_endQuarantine ⟨rfl, Chip.keepsAt_refl c _⟩ 13 p) 14 p
  exact ((opened.put (Reg.CAM_PORT_STATUS_CLK_ACTIVE p) 1 (by simp [Reg.CAM_PORT_STATUS_CLK_ACTIVE])).put (Reg.CAM_PORT_STATUS_SYNC p) _
    (by simp [Reg.CAM_PORT_STATUS_SYNC])).put Reg.CAM_STATUS_PORT_UP _ (by simp [Reg.CAM_STATUS_PORT_UP])

/-- A packet heard, with its payload's CRC right or wrong. -/
theorem Chip.hears_packet (c : Chip) (p : Nat) (ok : Bool) :
    c.hears (if ok = true then c.portHeard p else (c.portHeard p).bump (Reg.CAM_PORT_CRC_ERR_COUNT p) 1) p := by
  cases ok with
  | true => exact c.hears_portHeard p
  | false => exact (c.hears_portHeard p).put (Reg.CAM_PORT_CRC_ERR_COUNT p) _ (by simp [Reg.CAM_PORT_CRC_ERR_COUNT])

variable (h : c.hears d p) (few : p < 4)
include h

theorem Chip.hears.frames : d.frames = c.frames := by rw [h.rest]

theorem Chip.hears.out : d.out = c.out := by rw [h.rest]

theorem Chip.hears.cam (x : Nat) : d.cam x = c.cam x := Chip.cam_congr (by rw [h.rest]) x

theorem Chip.hears.openFrame (x : Nat) : d.openFrame x = c.openFrame x := by
  unfold Chip.openFrame
  rw [h.frames]

include few

/-- The registers of a context are not the port's. -/
theorem Chip.hears.get_context {f : Field} (low : f.lo < 32) {x : Nat} (at' : 0xa1000 + 0x400 * x ≤ f.off)
    (within : f.off < 0xa1000 + 0x400 * x + 0x34) : d.get f = c.get f := by
  refine h.regs f low ?_
  simp only [List.mem_cons, List.not_mem_nil, or_false, not_or]
  omega

theorem Chip.hears.bind (x : Nat) {f : Field} (low : f.lo < 32) (at' : f.off = 0xa1000 + 0x400 * x) : d.get f = c.get f :=
  h.get_context few low (x := x) (by omega) (by omega)

theorem Chip.hears.dataType (x : Nat) : d.get (Reg.CAM_CTX_BIND_DT x) = c.get (Reg.CAM_CTX_BIND_DT x) :=
  h.bind few x (by show 8 < 32; decide) rfl

theorem Chip.hears.boundPort (x : Nat) : d.get (Reg.CAM_CTX_BIND_PORT x) = c.get (Reg.CAM_CTX_BIND_PORT x) :=
  h.bind few x (by show 0 < 32; decide) rfl

theorem Chip.hears.number (x : Nat) : d.get (Reg.CAM_CTX_STATUS_FRAME x) = c.get (Reg.CAM_CTX_STATUS_FRAME x) := by
  refine h.get_context few (by show 0 < 32; decide) (x := x) ?_ ?_
  · show 0xa1000 + 0x400 * x ≤ 0xa102c + 0x400 * x
    omega
  · show 0xa102c + 0x400 * x < 0xa1000 + 0x400 * x + 0x34
    omega

theorem Chip.hears.count (x : Nat) : d.get (Reg.CAM_CTX_FRAMES_COUNT x) = c.get (Reg.CAM_CTX_FRAMES_COUNT x) := by
  refine h.get_context few (by show 0 < 32; decide) (x := x) ?_ ?_
  · show 0xa1000 + 0x400 * x ≤ 0xa1030 + 0x400 * x
    omega
  · show 0xa1030 + 0x400 * x < 0xa1000 + 0x400 * x + 0x34
    omega

theorem Chip.hears.ctxOf (q vc : Nat) : d.ctxOf q vc = c.ctxOf q vc := by
  have enable (x : Nat) := h.bind few x (f := Reg.CAM_CTX_BIND_ENABLE x) (by show 16 < 32; decide) rfl
  have vcOf (x : Nat) := h.bind few x (f := Reg.CAM_CTX_BIND_VC x) (by show 4 < 32; decide) rfl
  unfold Chip.ctxOf
  simp only [h.boundPort few, vcOf, Chip.flag_congr (enable _)]

theorem Chip.hears.portOn (q : Nat) : d.portOn q = c.portOn q := by
  have reads {f : Field} (low : f.lo < 32) (out : f.off ∉ [0x210034, 0xa0004, 0xa0108 + 0x20 * p, 0xa0114 + 0x20 * p]) :=
    h.regs f low out
  have power := reads (f := Reg.CKP_STATUS_PSTATE) (by decide) (by simp [Reg.CKP_STATUS_PSTATE]; omega)
  have dram := reads (f := Reg.DRC_STATUS_INIT_DONE) (by decide) (by simp [Reg.DRC_STATUS_INIT_DONE]; omega)
  have enable := reads (f := Reg.CAM_PORT_CFG_ENABLE q) (by show 4 < 32; decide) (by simp [Reg.CAM_PORT_CFG_ENABLE]; omega)
  have tdm : d.tdm = c.tdm := by rw [h.rest]
  unfold Chip.portOn Chip.camRunning
  rw [power, tdm, Chip.flag_congr dram, Chip.flag_congr enable]

end

/-- The context of a packet is one of eight. -/
theorem Chip.ctxOf_lt {c : Chip} {p vc x : Nat} (bound : c.ctxOf p vc = some x) : x < 8 :=
  List.mem_range.mp (List.mem_of_find?_eq_some bound)

theorem Chip.ctxOf_port {c : Chip} {p vc x : Nat} (bound : c.ctxOf p vc = some x) : c.get (Reg.CAM_CTX_BIND_PORT x) = p := by
  have found := List.find?_some bound
  simp only [Bool.and_eq_true, decide_eq_true_eq] at found
  exact found.1.2

theorem Chip.openFrame_spec {c : Chip} {x : Nat} {f : Frame} (front : c.openFrame x = some f) : f ∈ c.frames ∧ f.ctx = x := by
  have found := List.find?_some front
  simp only [Bool.and_eq_true, decide_eq_true_eq] at found
  exact ⟨List.mem_of_find?_eq_some front, found.1⟩

/-! ### What a closed frame's items and its record leave -/

/-- THROTTLED and the registers of the contexts: neither an item nor a record of a frame writes them, wherever the ring is it drops at. -/
def frameField (f : Field) : Prop := 0xa0000 ≤ f.off ∧ f.off < 0xb0000 ∧ (f.lo = 3 ∨ 0xa1000 ≤ f.off ∧ f.off % 64 ≠ 0x24)

/-- The frames are as they were, and so are THROTTLED and the registers of the contexts. -/
structure Chip.keepsFrames (c d : Chip) : Prop where
  frames : d.frames = c.frames
  regs : ∀ f : Field, f.lo < 32 → frameField f → d.get f = c.get f

section
variable {c d e : Chip}

theorem Chip.keepsFrames_refl (c : Chip) : c.keepsFrames c := ⟨rfl, fun _ _ _ => rfl⟩

theorem Chip.keepsFrames.congr (h : c.keepsFrames d) (frames : e.frames = d.frames := by rfl) (regs : e.regs = d.regs := by rfl) :
    c.keepsFrames e :=
  ⟨frames.trans h.frames, fun f l o => (Chip.get_congr regs f).trans (h.regs f l o)⟩

theorem Chip.keepsFrames.put (h : c.keepsFrames d) (g : Field) (v : Nat)
    (out : g.lo ≠ 3 ∧ (g.off < 0xa1000 ∨ 0xb0000 ≤ g.off ∨ g.off % 64 = 0x24)) (l : g.lo < 32 := by exact of_decide_eq_true rfl) :
    c.keepsFrames (d.put g v) := by
  refine ⟨h.frames, fun f low ⟨block, within, kept⟩ => (Chip.get_put_ne d g f v ?_).trans (h.regs f low ⟨block, within, kept⟩)⟩
  unfold Field.key
  omega

theorem Chip.keepsFrames.raise (h : c.keepsFrames d) {src : Nat} (cause : Nat) (items : List (Nat × Nat)) (hs : src < 256 := by decide) :
    c.keepsFrames (d.raise src cause items) := by
  refine ⟨?_, fun f low kept => (Chip.get_raise d cause items hs low (.inr ?_)).trans (h.regs f low kept)⟩
  · rw [Chip.raise_rest d src cause items]
    exact h.frames
  · exact Nat.le_trans (by decide) kept.1

theorem Chip.keepsFrames.showSlots (h : c.keepsFrames d) {p : Nat} (few : p < 4) : c.keepsFrames (d.showSlots p) := by
  refine h.put (Reg.CAM_PIPE_STATUS_SLOTS_FREE p) _ ⟨by show 8 ≠ 3; decide, .inl ?_⟩
  show 0xa0208 + 0x20 * p < 0xa1000
  omega

theorem Chip.keepsFrames.dropInsp (h : c.keepsFrames d) (p n : Nat) (it : InspItem) : c.keepsFrames (d.dropInsp p n it) := by
  have counted : c.keepsFrames ((d.setRing p n { d.ring p n with dropped := satAdd 16 (d.ring p n).dropped 1 }).bump
      (Reg.HIF_RING_DROP_COUNT p n) 1) := by
    refine Chip.keepsFrames.put h.congr (Reg.HIF_RING_DROP_COUNT p n) _ ⟨by show 0 ≠ 3; decide, .inr (.inr ?_)⟩
    show (0x11024 + 0x1000 * p + 0x40 * n) % 64 = 0x24
    omega
  exact (counted.raise ..).showSlots (Nat.mod_lt _ (by decide))

theorem Chip.keepsFrames.queueInsp (h : c.keepsFrames d) (it : InspItem) : c.keepsFrames (d.queueInsp it) := by
  unfold Chip.queueInsp
  dsimp only
  split
  · exact h.congr
  · exact h.dropInsp ..

theorem Chip.keepsFrames.showQueue (h : c.keepsFrames d) : c.keepsFrames d.showQueue :=
  (h.put Reg.CHN_QUEUE_DEC _ (by decide)).put Reg.CHN_QUEUE_COMP _ (by decide)

theorem Chip.keepsFrames.compressItem (h : c.keepsFrames d) (firn : Bool) (it : InspItem) : c.keepsFrames (d.compressItem firn it) :=
  List.foldlRecOn (motive := fun e => c.keepsFrames e) _ _ h.congr fun _ kept _ _ => Chip.keepsFrames.showQueue kept.congr

theorem Chip.keepsFrames.route (h : c.keepsFrames d) {f : Frame} (few : f.ctx < 8) (told : Bool) (kind source : Nat) (body : List Byte) :
    c.keepsFrames (d.route f told kind source body).1 := by
  have counted : c.keepsFrames (d.bump (Reg.CAM_PIPE_UNROUTED_COUNT (f.ctx / 2)) 1) := by
    refine h.put (Reg.CAM_PIPE_UNROUTED_COUNT (f.ctx / 2)) _ ⟨by show 0 ≠ 3; decide, .inl ?_⟩
    show 0xa0214 + 0x20 * (f.ctx / 2) < 0xa1000
    omega
  unfold Chip.route
  extract_lets p port ring it c1
  split_ifs
  · exact counted
  · exact counted.raise ..
  · exact h.compressItem ..
  · exact h.queueInsp ..

theorem Chip.keepsFrames.tellPast (h : c.keepsFrames d) (k : Nat) {tell : Chip → Chip}
    (told : ∀ e : Chip, c.keepsFrames e → c.keepsFrames (tell e)) : c.keepsFrames (d.tellPast k tell) := by
  unfold Chip.tellPast
  split
  · exact told _ h.congr
  · exact h

theorem Chip.keepsFrames.unusedRecord (h : c.keepsFrames d) (ctx frame cause : Nat) (fs : ET) :
    c.keepsFrames (d.unusedRecord ctx frame cause fs) := by
  have counted : c.keepsFrames (d.bump Reg.HEL_UNUSED_COUNT 1) := h.put Reg.HEL_UNUSED_COUNT _ (by decide)
  have told (e : Chip) (k : c.keepsFrames e) : c.keepsFrames (e.raise 58 cause [(1, ctx), (2, frame)]) := k.raise ..
  unfold Chip.unusedRecord
  extract_lets c1 tell
  split
  · exact counted.tellPast _ told
  · split
    · exact counted
    · exact told _ counted.congr
  · split
    · exact told _ counted
    · exact counted.tellPast _ told

theorem Chip.keepsFrames.healRecord (h : c.keepsFrames d) (ctx frame : Nat) (bad profile : Bool) (fs : ET)
    (entries : List (Nat × Nat × Nat × Nat)) : c.keepsFrames (d.healRecord ctx frame bad profile fs entries) := by
  unfold Chip.healRecord
  split
  · exact h
  · split
    · exact h.unusedRecord ..
    · split_ifs
      · exact h.unusedRecord ..
      · exact Chip.keepsFrames.unusedRecord (d := d.drawn) h.congr ..
      · exact h.congr

end

/-! ### A frame closes (R283, R301) -/

/-- A frame as it is closed: marked GEOMETRY where it is short or long. -/
def Chip.judged (c : Chip) (f : Frame) : Frame := if c.geometryBad f ∧ bit f.bad 2 = false then { f with bad := f.bad + 4 } else f

section
variable (c : Chip) (f : Frame)

theorem Chip.judged_same : (c.judged f).ctx = f.ctx ∧ (c.judged f).current = f.current := by
  unfold Chip.judged
  split <;> exact ⟨rfl, rfl⟩

/-- A frame is bad as it is closed if it was or its geometry is. -/
theorem Chip.judged_good : (c.judged f).bad = 0 ↔ f.bad = 0 ∧ c.geometryBad f = false := by
  unfold Chip.judged
  split
  · next wrong =>
    refine ⟨fun none => absurd none (Nat.succ_ne_zero _), fun ⟨_, fine⟩ => ?_⟩
    rw [wrong.1] at fine
    cases fine
  · next right =>
    refine ⟨fun good => ⟨good, ?_⟩, And.left⟩
    rw [good] at right
    exact Bool.eq_false_iff.mpr fun wrong => right ⟨wrong, rfl⟩

/-- A frame that leaves, counted and told where it is bad, no longer limits its pipeline. -/
def Chip.frameLeft : Chip := (({ c with frames := c.frames.erase f } : Chip).tellBad (c.judged f)).unthrottle (c.judged f)

theorem Chip.frameLeft_frames : (c.frameLeft f).frames = c.frames.erase f := by
  have told : (({ c with frames := c.frames.erase f } : Chip).tellBad (c.judged f)).frames = c.frames.erase f := by
    unfold Chip.tellBad
    split
    · rfl
    · rw [Chip.raise_rest]
      rfl
  unfold Chip.frameLeft Chip.unthrottle
  split <;> exact told

theorem Chip.frameLeft_unthrottled (current : f.current = true) : (c.frameLeft f).get (Reg.CAM_PIPE_STATUS_THROTTLED (f.ctx / 2)) = 0 := by
  unfold Chip.frameLeft Chip.unthrottle
  rw [(c.judged_same f).1, if_pos ((c.judged_same f).2.trans current)]
  exact Chip.get_put_self ..

variable {f} (few : f.ctx < 8)
include few

/-- What follows as a frame closes are its record and its items. -/
theorem Chip.keepsFrames_closeFrame (fe : ET) : (c.frameLeft f).keepsFrames (c.closeFrame f fe) := by
  have few' : (c.judged f).ctx < 8 := by rwa [(c.judged_same f).1]
  unfold Chip.closeFrame
  extract_lets c1 f1 c2 im hasProf prof c3 c4 stat r1 r2
  have left : c2 = c.frameLeft f := rfl
  have healed : c2.keepsFrames c4 := Chip.keepsFrames.healRecord (Chip.keepsFrames_refl c2).congr ..
  have stats : c2.keepsFrames r1.1 := by
    show c2.keepsFrames (if c4.flag _ then c4.route f1 false 3 (sourceOf f1.ctx 0) stat else (c4, false)).1
    split
    · exact healed.route few' ..
    · exact healed
  have image : c2.keepsFrames r2.1 := by
    show c2.keepsFrames (match c4.tapItem f1 fe im with
      | some t => r1.1.route f1 r1.2 t.1 (sourceOf f1.ctx 0) t.2
      | none => r1).1
    split
    · exact stats.route few' ..
    · exact stats
  rw [← left]
  exact List.foldlRecOn (motive := fun r : Chip × Bool => c2.keepsFrames r.1) _ _ image fun _ kept _ _ => kept.route few' ..

/-- THROTTLED is no register of a context. -/
theorem Chip.get_unthrottle {g : Field} (low : g.lo < 32) (context : 0xa1000 ≤ g.off) : (c.unthrottle f).get g = c.get g := by
  unfold Chip.unthrottle
  split
  · refine Chip.get_put_off _ _ _ _ (by show 3 < 32; decide) low ?_
    show g.off ≠ 0xa0208 + 0x20 * (f.ctx / 2)
    omega
  · rfl

/-- A frame that leaves is counted where it is bad. -/
theorem Chip.frameLeft_badfr : (c.frameLeft f).get (Reg.CAM_CTX_BADFR_COUNT f.ctx) =
    if f.bad = 0 ∧ c.geometryBad f = false then c.get (Reg.CAM_CTX_BADFR_COUNT f.ctx)
    else min (c.get (Reg.CAM_CTX_BADFR_COUNT f.ctx) + 1) (2 ^ (Reg.CAM_CTX_BADFR_COUNT f.ctx).width - 1) := by
  have few' : (c.judged f).ctx < 8 := by rwa [(c.judged_same f).1]
  have low : (Reg.CAM_CTX_BADFR_COUNT f.ctx).lo < 32 := by show 0 < 32; decide
  have context : 0xa1000 ≤ (Reg.CAM_CTX_BADFR_COUNT f.ctx).off := by show 0xa1000 ≤ 0xa1034 + 0x400 * f.ctx; omega
  refine (Chip.get_unthrottle _ few' low context).trans ?_
  unfold Chip.tellBad
  by_cases good : f.bad = 0 ∧ c.geometryBad f = false
  · rw [if_pos ((c.judged_good f).mpr good), if_pos good]
    rfl
  · rw [if_neg fun fine => good ((c.judged_good f).mp fine), if_neg good, Chip.get_raise _ _ _ (by omega) low (.inr (by omega)),
      (c.judged_same f).1]
    exact Chip.get_bump_self ..

end

/-! ### The next frame of a pipeline (R285) -/

/-- The registers of the contexts that neither an item nor a bad frame writes. -/
def contextOff (o : Nat) : Prop := 0xa1000 ≤ o ∧ o < 0xb0000 ∧ o % 64 ≠ 0x24 ∧ o % 64 ≠ 0x34

section
variable (c : Chip)

theorem Chip.keepsAt_closeFrame {f : Frame} (few : f.ctx < 8) (fe : ET) : c.keepsAt (c.closeFrame f fe) contextOff := by
  intro g low ⟨context, within, noDrop, noBad⟩
  have few' : (c.judged f).ctx < 8 := by rwa [(c.judged_same f).1]
  refine ((c.keepsFrames_closeFrame few fe).regs g low ⟨by omega, within, .inr ⟨context, noDrop⟩⟩).trans ?_
  refine (Chip.get_unthrottle _ few' low context).trans ?_
  unfold Chip.tellBad
  split
  · rfl
  · refine (Chip.get_raise _ _ _ (by omega) low (.inr (by omega))).trans (Chip.get_put_off _ _ _ _ (by show 0 < 32; decide) low ?_)
    show g.off ≠ 0xa1034 + 0x400 * (c.judged f).ctx
    omega

theorem Chip.keepsAt_showPipe {p : Nat} (few : p < 4) : c.keepsAt (c.showPipe p) contextOff := by
  have out : ¬contextOff (0xa0208 + 0x20 * p) := fun ⟨context, _⟩ => by omega
  have status : ¬contextOff 0xa0004 := fun ⟨context, _⟩ => by omega
  exact ((((Chip.keepsAt_refl c _).put (Reg.CAM_PIPE_STATUS_CURRENT p) _ out).put (Reg.CAM_PIPE_STATUS_WAITING p) _ out).put
    Reg.CAM_STATUS_PIPE_BUSY _ status).put (Reg.CAM_PIPE_STATUS_SLOTS_FREE p) _ out

/-- What making a frame of the pipeline current keeps, and the close of one whose FE has come, a pipeline that goes on keeps. -/
theorem Chip.nextFrame_keeps {M : Chip → Prop} {p : Nat}
    (current : ∀ (d : Chip) (f : Frame), M d → M (d.setFrame f { f with current := true, queued := 0 }))
    (closed : ∀ (d : Chip) (f : Frame) (fe : ET), f.ctx / 2 = p → f.ended = some fe → M d → M (d.closeFrame f fe)) (n : Nat) {c : Chip}
    (start : M c) : M (Chip.nextFrame p n c) := by
  induction n generalizing c with
  | zero => exact start
  | succ n ih =>
    unfold Chip.nextFrame
    split
    · exact start
    · split
      · exact start
      · next f found =>
        have mine := List.find?_some found
        simp only [Bool.and_eq_true, decide_eq_true_eq] at mine
        dsimp only
        split
        · exact current c f start
        · next fe done => exact ih (closed _ _ fe mine.1 done (current c f start))

theorem Chip.keepsAt_pumpFrames {p : Nat} (few : p < 4) : c.keepsAt (c.pumpFrames p) contextOff := by
  have next : c.keepsAt (Chip.nextFrame p (c.frames.length + 1) c) contextOff :=
    Chip.nextFrame_keeps (M := fun d => c.keepsAt d contextOff) (fun _ _ kept => kept.of_regs rfl)
      (fun d f fe mine _ kept => kept.trans (d.keepsAt_closeFrame (by omega) fe)) _ (Chip.keepsAt_refl c _)
  exact next.trans (Chip.keepsAt_showPipe _ few)

/-- An FE writes STATUS of its context, and no other register that a frame's start leaves. -/
theorem Chip.keepsAt_endFrame {x : Nat} (few : x < 8) (fe : ET) (bad : Bool) :
    c.keepsAt (c.endFrame x fe bad) fun o => contextOff o ∧ o ≠ 0xa102c + 0x400 * x := by
  have shut : c.keepsAt (c.put (Reg.CAM_CTX_STATUS_OPEN x) 0) fun o => contextOff o ∧ o ≠ 0xa102c + 0x400 * x :=
    (Chip.keepsAt_refl c _).put _ 0 fun out => out.2 rfl
  have pipe : x / 2 < 4 := by omega
  have pumped {d : Chip} (kept : c.keepsAt d fun o => contextOff o ∧ o ≠ 0xa102c + 0x400 * x) :
      c.keepsAt (d.pumpFrames (x / 2)) fun o => contextOff o ∧ o ≠ 0xa102c + 0x400 * x :=
    kept.trans ((d.keepsAt_pumpFrames pipe).mono fun _ => And.left)
  unfold Chip.endFrame
  split
  · exact Chip.keepsAt_refl c _
  · next f front =>
    have mine := (Chip.openFrame_spec front).2
    extract_lets c1 marked g c2
    have same : g.ctx < 8 := by
      show (if bad then f.mark 3 else f).ctx < 8
      unfold Frame.mark
      split_ifs <;> exact mine ▸ few
    have shut' : c.keepsAt c1 fun o => contextOff o ∧ o ≠ 0xa102c + 0x400 * x := shut
    have ended : c.keepsAt c2 fun o => contextOff o ∧ o ≠ 0xa102c + 0x400 * x := shut'.of_regs rfl
    split_ifs
    · exact pumped (shut'.of_regs rfl)
    · exact pumped (ended.trans ((c2.keepsAt_closeFrame same fe).mono fun _ => And.left))
    · exact ended.trans ((c2.keepsAt_showPipe pipe).mono fun _ => And.left)

end

/-! ### A frame starts (R281, R282) -/

/-- A frame just opened, with the number given it, the one received and its stamp. -/
def Frame.opens (f : Frame) (x num recv : Nat) (t : ET) : Prop :=
  f.ctx = x ∧ f.num = num ∧ f.recv = recv ∧ f.fsEt = t ∧ f.lines = [] ∧ f.bad = 0 ∧ f.ended = none

/-- A frame just opened stays as its pipeline goes on. -/
theorem Chip.pumpFrames_opens {c : Chip} {x num recv : Nat} {t : ET} (opened : ∃ f ∈ c.frames, f.opens x num recv t) (p : Nat)
    (few : p < 4) : ∃ f ∈ (c.pumpFrames p).frames, f.opens x num recv t := by
  refine Chip.nextFrame_keeps (M := fun d => ∃ f ∈ d.frames, f.opens x num recv t) (fun d f ⟨g, here, opens⟩ => ?_)
    (fun d f fe mine done ⟨g, here, opens⟩ => ⟨g, ?_, opens⟩) _ opened
  · refine ⟨_, List.mem_map_of_mem here, ?_⟩
    split
    · next is => exact is ▸ opens
    · exact opens
  · obtain ⟨-, -, -, -, -, -, noEnd⟩ := opens
    rw [(d.keepsFrames_closeFrame (by omega) fe).frames, d.frameLeft_frames]
    refine (List.mem_erase_of_ne fun is => ?_).mpr here
    rw [is, done] at noEnd
    cases noEnd

/-- The fields an FS shows. -/
def startFields (x : Nat) : List Field :=
  [Reg.CAM_CTX_STATUS_FRAME x, Reg.CAM_CTX_STATUS_OPEN x, Reg.CAM_CTX_FS_ET_LO_ET x, Reg.CAM_CTX_FS_ET_HI_ET x, Reg.CAM_CTX_FRAMES_COUNT x]

/-- A context's registers with a frame open: its number, its stamp, and the count of frames. -/
structure Chip.showsStart (c : Chip) (x num n : Nat) (t : ET) : Prop where
  number : c.get (Reg.CAM_CTX_STATUS_FRAME x) = num
  isOpen : c.get (Reg.CAM_CTX_STATUS_OPEN x) = 1
  stamp : c.get64 (Reg.CAM_CTX_FS_ET_LO_ET x) (Reg.CAM_CTX_FS_ET_HI_ET x) = t.toNat
  count : c.get (Reg.CAM_CTX_FRAMES_COUNT x) = n

section
variable {c d : Chip} {x num n : Nat} {t : ET}

theorem Chip.showsStart.congr (h : c.showsStart x num n t) (same : ∀ f ∈ startFields x, d.get f = c.get f) : d.showsStart x num n t := by
  simp only [startFields, List.forall_mem_cons, List.not_mem_nil, false_implies, implies_true, and_true] at same
  obtain ⟨number, isOpen, lo, hi, count⟩ := same
  refine ⟨number.trans h.number, isOpen.trans h.isOpen, ?_, count.trans h.count⟩
  rw [← h.stamp]
  unfold Chip.get64
  rw [lo, hi]

theorem startFields_spec (few : x < 8) {f : Field} (m : f ∈ startFields x) :
    f.lo < 32 ∧ f.lo ≠ 16 ∧ contextOff f.off ∧ f.off < 0xa1000 + 0x400 * x + 0x200 := by
  have spec : ∀ f ∈ startFields x, f.lo < 32 ∧ f.lo ≠ 16 ∧ 0xa102c + 0x400 * x ≤ f.off ∧ f.off ≤ 0xa1044 + 0x400 * x ∧
      f.off ≠ 0xa1034 + 0x400 * x ∧ f.off % 4 = 0 := by
    simp [startFields, Reg.CAM_CTX_STATUS_FRAME, Reg.CAM_CTX_STATUS_OPEN, Reg.CAM_CTX_FS_ET_LO_ET, Reg.CAM_CTX_FS_ET_HI_ET,
      Reg.CAM_CTX_FRAMES_COUNT]
    omega
  obtain ⟨low, noArm, first, last, noBad, aligned⟩ := spec f m
  refine ⟨low, noArm, ⟨?_, ?_, ?_, ?_⟩, ?_⟩ <;> omega

theorem Chip.showsStart.keepsAt (h : c.showsStart x num n t) (few : x < 8) (kept : c.keepsAt d contextOff) : d.showsStart x num n t := by
  refine h.congr fun f m => ?_
  obtain ⟨low, -, context, -⟩ := startFields_spec few m
  exact kept f low context

/-- A set that applies shows no other frame. -/
theorem Chip.showsStart.applySet (h : c.showsStart x num n t) (few : x < 8) (f : Nat) : (c.applySet x f).showsStart x num n t := by
  refine h.congr fun g m => ?_
  obtain ⟨low, noArm, context, before⟩ := startFields_spec few m
  unfold Chip.applySet
  split
  · refine (Chip.get_raise _ _ _ (by omega) low (.inr (Nat.le_trans (by decide) context.1))).trans ?_
    refine (Chip.get_put_ne _ _ _ _ ?_).trans (c.keepsAt_copyShadow x g low (.inl before))
    show g.off * 32 + g.lo ≠ (0xa102c + 0x400 * x) * 32 + 16
    omega
  · rfl

/-- A slot taken drops items, and shows the queue of jobs. -/
theorem Chip.keepsFrames_takeSlot (c : Chip) (x : Nat) : c.keepsFrames (c.takeSlot x).1 := by
  unfold Chip.takeSlot
  extract_lets p slots used c1 take
  have cleared : c.keepsFrames c1 := (Chip.keepsFrames_refl c).congr
  have taken {e : Chip} (kept : c.keepsFrames e) (k : Nat) : c.keepsFrames (take e k).1 := kept.congr
  split
  · exact taken cleared _
  · split_ifs
    · exact taken cleared _
    · extract_lets mine nos c2
      have dropped : c.keepsFrames c2 := cleared.congr
      exact taken (List.foldlRecOn (motive := fun e => c.keepsFrames e) mine _ dropped.showQueue fun _ kept _ _ => kept.dropInsp ..) _

theorem Chip.keepsFrames.keepsAt (h : c.keepsFrames d) : c.keepsAt d contextOff :=
  fun f low ⟨context, within, noDrop, _⟩ => h.regs f low ⟨by omega, within, .inr ⟨context, noDrop⟩⟩

end

/-- The number of a frame: the next one of a context that numbers its frames, else the one received (R282). -/
theorem Chip.frameNumber_number (c : Chip) (x recv : Nat) : (c.frameNumber x recv).2 =
    if c.flag (Reg.CAM_CTX_BIND_FNUM_MODE x) then (if (c.cam x).seen then (c.get (Reg.CAM_CTX_STATUS_FRAME x) + 1) % 65536 else 0)
    else recv := by
  unfold Chip.frameNumber
  dsimp only
  split <;> rfl

theorem Chip.keepsAt_frameNumber (c : Chip) (x recv : Nat) : c.keepsAt (c.frameNumber x recv).1 contextOff := by
  unfold Chip.frameNumber
  dsimp only
  split
  · exact Chip.keepsAt_refl c _
  · intro f low ⟨context, _⟩
    exact (c.raiseIf_frame _ 0 _ (by decide)).1 f low (.inr (by omega))

/-- The fields of an FS are apart. -/
theorem startFields_apart (x : Nat) : (startFields x).Pairwise fun f g => f.key ≠ g.key ∧ g.key ≠ f.key := by
  simp [startFields, Field.key, Reg.CAM_CTX_STATUS_FRAME, Reg.CAM_CTX_STATUS_OPEN, Reg.CAM_CTX_FS_ET_LO_ET, Reg.CAM_CTX_FS_ET_HI_ET,
    Reg.CAM_CTX_FRAMES_COUNT]
  omega

/-- What an FS writes shows its frame. -/
theorem Chip.showsStart_put (c : Chip) (x num : Nat) (t : ET) :
    ((((c.put (Reg.CAM_CTX_STATUS_FRAME x) num).bump (Reg.CAM_CTX_FRAMES_COUNT x) 1).put64 (Reg.CAM_CTX_FS_ET_LO_ET x)
      (Reg.CAM_CTX_FS_ET_HI_ET x) t.toNat).put (Reg.CAM_CTX_STATUS_OPEN x) 1).showsStart x (num % 65536)
      (min (c.get (Reg.CAM_CTX_FRAMES_COUNT x) + 1) (2 ^ (Reg.CAM_CTX_FRAMES_COUNT x).width - 1)) t := by
  have apart := startFields_apart x
  simp only [startFields, List.pairwise_cons, List.forall_mem_cons, List.not_mem_nil, false_implies, implies_true, and_true,
    List.Pairwise.nil] at apart
  obtain ⟨⟨⟨fo, of⟩, ⟨fl, lf⟩, ⟨fh, hf⟩, ⟨fc, cf⟩⟩, ⟨⟨ol, lo⟩, ⟨oh, ho⟩, ⟨oc, co⟩⟩, ⟨⟨lh, hl⟩, ⟨lc, cl⟩⟩, ⟨hc, ch⟩⟩ := apart
  refine ⟨?_, Chip.get_put_self .., ?_, ?_⟩
  · rw [Chip.get_put_ne _ _ _ _ fo]
    unfold Chip.put64
    rw [Chip.get_put_ne _ _ _ _ fh, Chip.get_put_ne _ _ _ _ fl, Chip.get_bump_ne _ _ _ _ fc, Chip.get_put_self]
    rfl
  · have same (d : Chip) : (d.put (Reg.CAM_CTX_STATUS_OPEN x) 1).get64 (Reg.CAM_CTX_FS_ET_LO_ET x) (Reg.CAM_CTX_FS_ET_HI_ET x) =
        d.get64 (Reg.CAM_CTX_FS_ET_LO_ET x) (Reg.CAM_CTX_FS_ET_HI_ET x) := by
      unfold Chip.get64
      rw [Chip.get_put_ne _ _ _ _ lo, Chip.get_put_ne _ _ _ _ ho]
    rw [same]
    exact Chip.get64_put64 _ t.isLt rfl rfl lh
  · rw [Chip.get_put_ne _ _ _ _ co]
    unfold Chip.put64
    rw [Chip.get_put_ne _ _ _ _ ch, Chip.get_put_ne _ _ _ _ cl, Chip.get_bump_self, Chip.get_put_ne _ _ _ _ cf]

/-- An FS opens its frame, and shows it. -/
theorem Chip.startFrame_opens (c : Chip) {x num recv : Nat} (t : ET) (few : x < 8) (number : (c.frameNumber x recv).2 = num)
    (fits : num < 65536) :
    (c.startFrame x recv t).showsStart x num
      (min (c.get (Reg.CAM_CTX_FRAMES_COUNT x) + 1) (2 ^ (Reg.CAM_CTX_FRAMES_COUNT x).width - 1)) t ∧
    ∃ f ∈ (c.startFrame x recv t).frames, f.opens x num recv t := by
  have number' : (c.frameNumber x recv).2 % 65536 = num := by rw [number, Nat.mod_eq_of_lt fits]
  unfold Chip.startFrame
  extract_lets r num' c1 ctx c2 c3 s' c4 k
  have before : c1.get (Reg.CAM_CTX_FRAMES_COUNT x) = c.get (Reg.CAM_CTX_FRAMES_COUNT x) := by
    have out : contextOff (0xa1030 + 0x400 * x) := ⟨by omega, by omega, by omega, by omega⟩
    have low : (Reg.CAM_CTX_FRAMES_COUNT x).lo < 32 := by show 0 < 32; decide
    refine (Chip.keepsAt_endFrame _ few t true _ low ⟨out, ?_⟩).trans (c.keepsAt_frameNumber x recv _ low out)
    show 0xa1030 + 0x400 * x ≠ 0xa102c + 0x400 * x
    omega
  have shown : (c3.put (Reg.CAM_CTX_STATUS_OPEN x) 1).showsStart x num
      (min (c.get (Reg.CAM_CTX_FRAMES_COUNT x) + 1) (2 ^ (Reg.CAM_CTX_FRAMES_COUNT x).width - 1)) t := by
    rw [← number', ← before]
    exact Chip.showsStart_put (c1.setCam x _) x num' t
  clear_value c3
  have taken := (shown.applySet few num').keepsAt few (Chip.keepsFrames_takeSlot _ x).keepsAt
  exact ⟨taken.congr fun _ _ => rfl, _, List.mem_append_right _ (List.mem_singleton_self _), rfl, number, rfl, rfl, rfl, rfl, rfl⟩

/-! ### Packets of a port (R275 to R277, R281, R283) -/

section
variable {c : Chip} {m : CamShort} {t : ET}

theorem Chip.frameStart_off (off : c.portOn m.port.val = false) : c.frameStart m t none = c := by
  unfold Chip.frameStart
  simp [off]

theorem Chip.oneEnd_off (off : c.portOn m.port.val = false) : c.oneEnd m t = c := if_pos off

theorem Chip.longPacket_off {p vc dt : Nat} {ok : Bool} {b : List Byte} (off : c.portOn p = false) : c.longPacket p vc dt ok b = c := if_pos off

variable (on : c.portOn m.port.val = true)
include on

theorem Chip.frameStart_unbound (unbound : c.ctxOf m.port.val m.vc.toNat = none) : c.frameStart m t none = c.portHeard m.port.val := by
  have heard := c.hears_portHeard m.port.val
  unfold Chip.frameStart
  simp [on, heard.portOn m.port.isLt, heard.ctxOf m.port.isLt, unbound]

theorem Chip.oneEnd_unbound (unbound : c.ctxOf m.port.val m.vc.toNat = none) : c.oneEnd m t = c := by
  unfold Chip.oneEnd
  simp [on, unbound]

variable {x : Nat} (bound : c.ctxOf m.port.val m.vc.toNat = some x)
include bound

theorem Chip.frameStart_bound : c.frameStart m t none = ((c.portHeard m.port.val).startFrame x m.num.toNat t).pumpFrames (x / 2) := by
  have heard := c.hears_portHeard m.port.val
  unfold Chip.frameStart
  simp [on, heard.portOn m.port.isLt, heard.ctxOf m.port.isLt, bound]

theorem Chip.oneEnd_none (shut : c.openFrame x = none) : c.oneEnd m t = c := by
  unfold Chip.oneEnd Chip.endFrame
  simp [on, bound, shut]

/-- An FE of the open frame closes it where it is current, and has it wait otherwise. -/
theorem Chip.oneEnd_open {f : Frame} (front : c.openFrame x = some f) (kept : f.lost = false) :
    let g := { (if f.recv ≠ m.num.toNat then f.mark 3 else f) with ended := some t }
    let e := (c.put (Reg.CAM_CTX_STATUS_OPEN x) 0).setFrame f g
    c.oneEnd m t = if f.current then (e.closeFrame g t).pumpFrames (x / 2) else e.showPipe (x / 2) := by
  unfold Chip.oneEnd Chip.endFrame
  simp [on, bound, front, kept]

end

section
variable {c : Chip} {m : CamShort} {t : ET} {x : Nat} (bound : c.ctxOf m.port.val m.vc.toNat = some x)
include bound

/-- A context's registers, and its frame, as an FS leaves them. -/
theorem Chip.frameStart_shows :
    let num := if c.flag (Reg.CAM_CTX_BIND_FNUM_MODE x) then
        (if (c.cam x).seen then (c.get (Reg.CAM_CTX_STATUS_FRAME x) + 1) % 65536 else 0)
      else m.num.toNat
    let d := ((c.portHeard m.port.val).startFrame x m.num.toNat t).pumpFrames (x / 2)
    d.get (Reg.CAM_CTX_STATUS_FRAME x) = num ∧ d.get (Reg.CAM_CTX_STATUS_OPEN x) = 1 ∧
      d.get64 (Reg.CAM_CTX_FS_ET_LO_ET x) (Reg.CAM_CTX_FS_ET_HI_ET x) = t.toNat ∧
      d.get (Reg.CAM_CTX_FRAMES_COUNT x) = min (c.get (Reg.CAM_CTX_FRAMES_COUNT x) + 1) (2 ^ (Reg.CAM_CTX_FRAMES_COUNT x).width - 1) ∧
      ∃ f ∈ d.frames, f.opens x num m.num.toNat t := by
  intro num d
  have few := Chip.ctxOf_lt bound
  have pipe : x / 2 < 4 := Nat.div_lt_of_lt_mul few
  have heard := c.hears_portHeard m.port.val
  have number : ((c.portHeard m.port.val).frameNumber x m.num.toNat).2 = num := by
    rw [Chip.frameNumber_number, heard.cam, heard.number m.port.isLt,
      Chip.flag_congr (heard.bind m.port.isLt x (f := Reg.CAM_CTX_BIND_FNUM_MODE x) (by show 17 < 32; decide) rfl)]
  have fits : num < 65536 := by
    unfold num
    split_ifs
    · exact Nat.mod_lt _ (by decide)
    · decide
    · exact m.num.isLt
  obtain ⟨shown, opened⟩ := Chip.startFrame_opens (c.portHeard m.port.val) t few number fits
  obtain ⟨number', isOpen, stamp, count⟩ := shown.keepsAt few (Chip.keepsAt_pumpFrames _ pipe)
  rw [heard.count m.port.isLt] at count
  exact ⟨number', isOpen, stamp, count, Chip.pumpFrames_opens opened _ pipe⟩

/-- Of two FEs in one cycle the one of the lower pipeline comes first. -/
theorem Chip.frameEnd_pair {n : CamShort} {y : Nat} (other : c.ctxOf n.port.val n.vc.toNat = some y) : c.frameEnd ⟨m, some n⟩ t =
    if y / 2 < x / 2 then (c.oneEnd n t).oneEnd m t else (c.oneEnd m t).oneEnd n t := by
  unfold Chip.frameEnd
  simp [bound, other]

end

/-! ### Payload (R276, R281) -/

theorem Frame.mark_same (f : Frame) (k : Nat) : (f.mark k).ctx = f.ctx ∧ (f.mark k).num = f.num ∧ (f.mark k).lines = f.lines ∧
    (f.mark k).queued = f.queued := by
  unfold Frame.mark
  split <;> exact ⟨rfl, rfl, rfl, rfl⟩

section
variable {c d : Chip} {f g : Frame}

theorem Chip.mem_setFrame (here : f ∈ c.frames) : g ∈ (c.setFrame f g).frames := by
  refine List.mem_map.mpr ⟨f, here, if_pos rfl⟩

theorem Chip.length_setFrame : (c.setFrame f g).frames.length = c.frames.length := List.length_map _

theorem Chip.fifoBytes_congr (frames : d.frames = c.frames)
    (ports : ∀ x, d.get (Reg.CAM_CTX_BIND_PORT x) = c.get (Reg.CAM_CTX_BIND_PORT x)) (p : Nat) : d.fifoBytes p = c.fifoBytes p := by
  unfold Chip.fifoBytes
  simp only [frames, ports]

/-- A frame replaced by one of its context with as much in the FIFO leaves the FIFO as full. -/
theorem Chip.fifoBytes_setFrame (ctx : g.ctx = f.ctx) (queued : g.queued = f.queued) (p : Nat) :
    (c.setFrame f g).fifoBytes p = c.fifoBytes p := by
  have ctx' (q : Frame) : (if q = f then g else q).ctx = q.ctx := by
    split
    · next is => rw [ctx, is]
    · rfl
  have queued' (q : Frame) : (if q = f then g else q).queued = q.queued := by
    split
    · next is => rw [queued, is]
    · rfl
  show (((c.frames.map fun q => if q = f then g else q).filter fun q => decide (c.get (Reg.CAM_CTX_BIND_PORT q.ctx) = p)).map
    (·.queued)).sum = _
  unfold Chip.fifoBytes
  rw [List.filter_map, List.map_map]
  simp only [Function.comp_def, ctx', queued']

theorem Chip.queued_le_fifoBytes (here : f ∈ c.frames) : f.queued ≤ c.fifoBytes (c.get (Reg.CAM_CTX_BIND_PORT f.ctx)) :=
  List.le_sum_of_mem (List.mem_map_of_mem (List.mem_filter.mpr ⟨here, decide_eq_true rfl⟩))

/-- Payload that fits its port's FIFO becomes the frame's next line. -/
theorem Chip.payload_fits (few : f.ctx < 8) (here : f ∈ c.frames) {b : List Byte}
    (fits : c.fifoBytes (c.get (Reg.CAM_CTX_BIND_PORT f.ctx)) + b.length ≤ 262144) :
    ∃ (e : Chip) (q : Nat), c.payload f b = e.setFrame f (f.addLine b q) ∧ e.frames = c.frames ∧ e.out = c.out := by
  unfold Chip.payload
  extract_lets p slow c1 held total c2
  have queued : f.queued ≤ c.fifoBytes p := Chip.queued_le_fifoBytes here
  have fits' : c.fifoBytes p + b.length ≤ 262144 := fits
  have frames : c1.frames = c.frames ∧ c1.out = c.out := by
    show (if f.current then _ else c).frames = c.frames ∧ (if f.current then _ else c).out = c.out
    split <;> exact ⟨rfl, rfl⟩
  have fifo : c1.fifoBytes p = c.fifoBytes p := by
    refine Chip.fifoBytes_congr frames.1 (fun x => ?_) p
    show (if f.current then _ else c).get _ = _
    split
    · refine Chip.get_put_off _ _ _ _ (by show 3 < 32; decide) (by show 0 < 32; decide) ?_
      have pipe : f.ctx / 2 < 4 := Nat.div_lt_of_lt_mul few
      show 0xa1000 + 0x400 * x ≠ 0xa0208 + 0x20 * (f.ctx / 2)
      omega
    · rfl
  have room : total ≤ 262144 := by
    show c1.fifoBytes p - f.queued + (if f.current ∧ slow = false then 0 else f.queued + b.length) ≤ 262144
    rw [fifo]
    split <;> omega
  rw [if_pos room]
  exact ⟨c2, held, rfl, frames⟩

end

/-- A packet of a context taken, discarded, or lost with its frame. -/
def Chip.takePacket (e : Chip) (p x dt : Nat) (ok : Bool) (b : List Byte) : Chip :=
  if e.get (Reg.CAM_CTX_BIND_DT x) ≠ dt then e.bump (Reg.CAM_PORT_DISCARD_COUNT p) 1
  else
    match e.openFrame x with
    | none => e.bump (Reg.CAM_PORT_DISCARD_COUNT p) 1
    | some f => if f.lost then e else (e.setFrame f (if ok then f else f.mark 1)).payload (if ok then f else f.mark 1) b

section
variable {c : Chip} {p vc dt : Nat} {ok : Bool} {b : List Byte} (few : p < 4) (on : c.portOn p = true)
include few on

/-- A packet of no enabled context, or of no image data type, is discarded. -/
theorem Chip.longPacket_unbound (unbound : dt < 0x2A ∨ 0x2E < dt ∨ c.ctxOf p vc = none) : c.longPacket p vc dt ok b =
    (if ok = true then c.portHeard p else (c.portHeard p).bump (Reg.CAM_PORT_CRC_ERR_COUNT p) 1).bump (Reg.CAM_PORT_DISCARD_COUNT p) 1 := by
  have heard := c.hears_packet p ok
  unfold Chip.longPacket
  rw [if_neg (by simp [on])]
  dsimp only
  generalize (if ok = true then c.portHeard p else (c.portHeard p).bump (Reg.CAM_PORT_CRC_ERR_COUNT p) 1) = e at heard ⊢
  have nowhere : (if 0x2A ≤ dt ∧ dt ≤ 0x2E then e.ctxOf p vc else none) = none := by
    rw [heard.ctxOf few]
    split
    · exact (unbound.resolve_left (by omega)).resolve_left (by omega)
    · rfl
  rw [nowhere]

variable (image : 0x2A ≤ dt ∧ dt ≤ 0x2E) {x : Nat} (bound : c.ctxOf p vc = some x)
include image bound

theorem Chip.longPacket_bound : c.longPacket p vc dt ok b =
    (if ok = true then c.portHeard p else (c.portHeard p).bump (Reg.CAM_PORT_CRC_ERR_COUNT p) 1).takePacket p x dt ok b := by
  have heard := c.hears_packet p ok
  unfold Chip.longPacket
  rw [if_neg (by simp [on])]
  dsimp only
  generalize (if ok = true then c.portHeard p else (c.portHeard p).bump (Reg.CAM_PORT_CRC_ERR_COUNT p) 1) = e at heard ⊢
  have there : (if 0x2A ≤ dt ∧ dt ≤ 0x2E then e.ctxOf p vc else none) = some x := by rw [if_pos image, heard.ctxOf few, bound]
  rw [there]
  rfl

/-- A packet of another data type, or of a context without an open frame, is discarded. -/
theorem Chip.longPacket_discards (wrong : c.get (Reg.CAM_CTX_BIND_DT x) ≠ dt ∨ c.openFrame x = none) : c.longPacket p vc dt ok b =
    (if ok = true then c.portHeard p else (c.portHeard p).bump (Reg.CAM_PORT_CRC_ERR_COUNT p) 1).bump (Reg.CAM_PORT_DISCARD_COUNT p) 1 := by
  have heard := c.hears_packet p ok
  rw [Chip.longPacket_bound few on image bound]
  unfold Chip.takePacket
  rw [heard.dataType few, heard.openFrame]
  split
  · rfl
  · next right => rw [wrong.resolve_left right]

/-- The payload of a frame that is open goes into it, unless the frame is lost. -/
theorem Chip.longPacket_open {f : Frame} (right : c.get (Reg.CAM_CTX_BIND_DT x) = dt) (front : c.openFrame x = some f) :
    let e := if ok = true then c.portHeard p else (c.portHeard p).bump (Reg.CAM_PORT_CRC_ERR_COUNT p) 1
    c.longPacket p vc dt ok b =
      if f.lost then e else (e.setFrame f (if ok then f else f.mark 1)).payload (if ok then f else f.mark 1) b := by
  have heard := c.hears_packet p ok
  rw [Chip.longPacket_bound few on image bound]
  unfold Chip.takePacket
  rw [heard.dataType few, heard.openFrame, if_neg (not_not.mpr right), front]

/-- Payload of the open frame becomes its next line, marked where its CRC fails. -/
theorem Chip.longPacket_fills {f : Frame} (right : c.get (Reg.CAM_CTX_BIND_DT x) = dt) (front : c.openFrame x = some f)
    (kept : f.lost = false) (fits : c.fifoBytes p + b.length ≤ 262144) :
    (c.longPacket p vc dt ok b).out = c.out ∧ (c.longPacket p vc dt ok b).frames.length = c.frames.length ∧
      ∃ g ∈ (c.longPacket p vc dt ok b).frames, g.ctx = x ∧ g.num = f.num ∧ g.lines = f.lines ++ [b] ∧
        g.bad = if ok then f.bad else (f.mark 1).bad := by
  have heard := c.hears_packet p ok
  obtain ⟨here, mine⟩ := Chip.openFrame_spec front
  rw [Chip.longPacket_open few on image bound right front, kept]
  generalize (if ok = true then c.portHeard p else (c.portHeard p).bump (Reg.CAM_PORT_CRC_ERR_COUNT p) 1) = e at heard ⊢
  obtain ⟨g, marked, ctx, num, lines, queued, bad⟩ : ∃ g, (if ok = true then f else f.mark 1) = g ∧ g.ctx = f.ctx ∧ g.num = f.num ∧
      g.lines = f.lines ∧ g.queued = f.queued ∧ g.bad = if ok then f.bad else (f.mark 1).bad := by
    obtain ⟨ctx, num, lines, queued⟩ := f.mark_same 1
    cases ok with
    | true => exact ⟨f, rfl, rfl, rfl, rfl, rfl, rfl⟩
    | false => exact ⟨f.mark 1, rfl, ctx, num, lines, queued, rfl⟩
  rw [marked]
  have port : (e.setFrame f g).get (Reg.CAM_CTX_BIND_PORT g.ctx) = p := by
    rw [ctx, mine]
    exact (heard.boundPort few x).trans (Chip.ctxOf_port bound)
  have fifo : (e.setFrame f g).fifoBytes p = c.fifoBytes p :=
    (Chip.fifoBytes_setFrame ctx queued p).trans (Chip.fifoBytes_congr heard.frames (heard.boundPort few) p)
  have there : g ∈ (e.setFrame f g).frames := Chip.mem_setFrame (heard.frames ▸ here)
  obtain ⟨d, q, filled, frames, out⟩ := Chip.payload_fits (c := e.setFrame f g) (f := g) (b := b)
    (by rw [ctx, mine]; exact Chip.ctxOf_lt bound) there (by rw [port, fifo]; exact fits)
  refine ⟨?_, ?_, g.addLine b q, ?_, ctx.trans mine, num, congrArg (· ++ [b]) lines, bad⟩
  · show ((e.setFrame f g).payload g b).out = c.out
    rw [filled]
    exact out.trans heard.out
  · show ((e.setFrame f g).payload g b).frames.length = _
    rw [filled, Chip.length_setFrame, frames, Chip.length_setFrame, heard.frames]
  · show g.addLine b q ∈ ((e.setFrame f g).payload g b).frames
    rw [filled]
    exact Chip.mem_setFrame (frames ▸ there)

end

/-- A command that changes nothing. -/
theorem State.go_same (s : State) {d : Chip} (same : d = s.toChip) : s.go d = .next s := by
  rw [same]
  rfl

/-! ### Errors of a receiver (R283, R284, R308) -/

section
variable (c : Chip) (p k : Nat)

/-- A cause marks every frame open on the port, and no other one. -/
theorem Chip.markPort_frames {i : Nat} {f : Frame} (at' : c.frames[i]? = some f) : (c.markPort p k).frames[i]? = some
    (if c.get (Reg.CAM_CTX_BIND_PORT f.ctx) = p ∧ f.ended = none then { f with bad := if bit f.bad k then f.bad else f.bad + 2 ^ k } else f) := by
  have marked : f.mark k = { f with bad := if bit f.bad k then f.bad else f.bad + 2 ^ k } := by
    unfold Frame.mark
    split <;> rfl
  unfold Chip.markPort
  rw [List.getElem?_map, at', ← marked]
  rfl

end

section
variable {s : State} {p : Fin 4}

theorem exec_portError_off (off : s.toChip.portOn p.val = false) (b : Bool) : exec (.headerEccError p b) s = .next s ∧
    exec (.phyError p b) s = .next s ∧ exec (.deskew p b) s = .next s := by
  exact ⟨s.go_same (if_pos off), s.go_same (if_neg (by simp [off])), s.go_same (if_pos off)⟩

variable (on : s.toChip.portOn p.val = true)
include on

theorem exec_headerEccError_on (corrected : Bool) : exec (.headerEccError p corrected) s = .next (s.withChip
    (if corrected then (s.toChip.countAcross 14 p.val (Reg.CAM_PORT_ECC_CORR_COUNT p.val) 1).markPort p.val 0
    else ((s.toChip.countAcross 14 p.val (Reg.CAM_PORT_ECC_UNC_COUNT p.val) 1).markPort p.val 0).portFault p.val 4)) :=
  congrArg (fun d => Host.Outcome.next (s.withChip d)) (if_neg (by simp [on]))

theorem exec_phyError_on (syncErr : Bool) : exec (.phyError p syncErr) s =
    .next (s.withChip ((s.toChip.markPort p.val 4).portFault p.val (1 + b2n syncErr))) :=
  congrArg (fun d => Host.Outcome.next (s.withChip d)) (if_pos on)

theorem exec_deskew_on (ok : Bool) : exec (.deskew p ok) s = .next (s.withChip
    (if ok then s.toChip.putB (Reg.CAM_PORT_STATUS_DESKEW_OK p.val) ok
    else (s.toChip.putB (Reg.CAM_PORT_STATUS_DESKEW_OK p.val) ok).portFault p.val 3)) :=
  congrArg (fun d => Host.Outcome.next (s.withChip d)) (if_neg (by simp [on]))

end

/-- Settles O42: an FS by the number and the stamp it shows, a packet by the line it adds, an FE and a close by what stays, and the errors
of a receiver by the frames they mark. -/
theorem framesAreReceived : Obligations.FramesAreReceived := by
  unfold Obligations.FramesAreReceived
  refine ⟨⟨fun m t s => ⟨fun off => ?_, fun on unbound => ?_, fun x on bound => ?_⟩, fun p vc dt ok b s on => ⟨fun unbound => ?_,
      fun x above below bound => ⟨fun wrong => ?_, fun f right front gone => ?_, fun f right front kept fits => ?_⟩⟩, fun c f t few => ?_⟩,
    fun c p k => ⟨rfl, List.length_map _, fun i f at' => c.markPort_frames p k at'⟩, fun p s => ⟨exec_portError_off, fun on => ?_⟩⟩
  · exact ⟨s.go_same (Chip.frameStart_off off), s.go_same (Chip.oneEnd_off off), fun dt ok b => s.go_same (Chip.longPacket_off off)⟩
  · exact ⟨congrArg s.go (Chip.frameStart_unbound on unbound), s.go_same (Chip.oneEnd_unbound on unbound)⟩
  · refine ⟨⟨_, congrArg s.go (Chip.frameStart_bound on bound), Chip.frameStart_shows bound⟩, fun n y other => congrArg s.go ?_,
      fun shut => s.go_same (Chip.oneEnd_none on bound shut), fun f front kept => congrArg s.go (Chip.oneEnd_open on bound front kept)⟩
    exact Chip.frameEnd_pair bound other
  · exact congrArg s.go (Chip.longPacket_unbound p.isLt on unbound)
  · exact congrArg s.go (Chip.longPacket_discards p.isLt on ⟨above, below⟩ bound wrong)
  · exact congrArg s.go ((Chip.longPacket_open p.isLt on ⟨above, below⟩ bound right front).trans (if_pos gone))
  · exact ⟨_, rfl, Chip.longPacket_fills p.isLt on ⟨above, below⟩ bound right front kept fits⟩
  · have closed := c.keepsFrames_closeFrame few t
    refine ⟨closed.frames.trans (c.frameLeft_frames f), fun current => ?_, ?_⟩
    · refine (closed.regs _ (by show 3 < 32; decide) ⟨?_, ?_, .inl rfl⟩).trans (c.frameLeft_unthrottled f current)
      · show 0xa0000 ≤ 0xa0208 + 0x20 * (f.ctx / 2)
        omega
      · show 0xa0208 + 0x20 * (f.ctx / 2) < 0xb0000
        omega
    · refine (closed.regs _ (by show 0 < 32; decide) ⟨?_, ?_, .inr ⟨?_, ?_⟩⟩).trans (c.frameLeft_badfr few)
      · show 0xa0000 ≤ 0xa1034 + 0x400 * f.ctx
        omega
      · show 0xa1034 + 0x400 * f.ctx < 0xb0000
        omega
      · show 0xa1000 ≤ 0xa1034 + 0x400 * f.ctx
        omega
      · show (0xa1034 + 0x400 * f.ctx) % 64 ≠ 0x24
        omega
  · exact ⟨exec_headerEccError_on on true, exec_headerEccError_on on false, exec_phyError_on on false, exec_phyError_on on true,
      exec_deskew_on on true, exec_deskew_on on false⟩

end Sys2Proof.Machine
end
